-- ==== Sys2Proof/Word.lean ====
section
/-!
DEFINITION. The words of the IH-100 (R3, R4): bytes, 64-bit words, unit identifiers, SHA-384 digests, and the few
conversions between them that everything else uses.
-/
namespace Sys2Proof

/-- One byte. -/
abbrev Byte := BitVec 8
/-- A word is 64 bits (R3). -/
abbrev Word := BitVec 64
/-- A 32-bit unit identifier (R15). -/
abbrev Uid := BitVec 32
/-- A SHA-384 digest, its first byte the most significant (R32). -/
abbrev Digest := BitVec 384

/-- A sparse map from keys to values in the one canonical form of this model: keys strictly rising, no entry equal to
the default. -/
abbrev Sparse (α : Type) := List (Nat × α)

/-- The all-ones word: a deadline that never expires (UCP.WD0 to UCP.WD3). -/
def neverWord : Word := 0xFFFFFFFFFFFFFFFF

/-- Saturating 64-bit addition (event counters, R20). -/
def satAdd (a : Word) (n : Nat) : Word :=
  if a.toNat + n < 2 ^ 64 then BitVec.ofNat 64 (a.toNat + n) else neverWord

/-- Ceiling division, 0 when the divisor is 0. -/
def ceilDiv (a b : Nat) : Nat := if b = 0 then 0 else (a + b - 1) / b

end Sys2Proof
end

