-- ==== Sys2Proof/Config.lean ====
section
/-!
DEFINITION. What the spec leaves open: free values with no body, so that nothing proved can rest on a number the model
chose. Each is named in the assumption log.
-/
namespace Sys2Proof

/-- A byte the spec leaves to the firmware (the contents of a join table, R153). Notes: assumption 4. (DESIGN CHOICE, safe: log entry 4.) -/
opaque Config.freeByte : Nat → BitVec 8

/-- A word the spec states no value for. Notes: assumption 4. (DESIGN CHOICE, safe: log entry 4.) -/
opaque Config.freeWord : Nat → BitVec 64

/-- ECDSA P-384 verification (R326, R389, R398): key bytes, digest, signature bytes. The scheme is an outside standard
that the spec cites and does not define. Notes: assumption 5. (DESIGN CHOICE, safe: log entry 5.) -/
opaque Config.ecdsaVerify : List (BitVec 8) → BitVec 384 → List (BitVec 8) → Bool

/-- ECDSA P-384 signature by the device identity key (R395): the number of the signature since power-up and the digest
signed. The private key never leaves the CSE. Notes: assumption 5. (DESIGN CHOICE, safe: log entry 5.) -/
opaque Config.ecdsaSign : Nat → BitVec 384 → List (BitVec 8)

/-- The Plovern root public key held in the boot ROM (R389, R396). Notes: assumption 5. (DESIGN CHOICE, safe: log entry 5.) -/
opaque Config.rootKey : List (BitVec 8)

/-- Verification of an X.509 certificate chain up to the root (R326, R396): the chain bytes. It answers the identity
public key and the identity digest of the chain's last certificate, or nothing. Notes: assumption 5. (DESIGN CHOICE, safe: log entry 5.) -/
opaque Config.chainVerify : List (BitVec 8) → Option (List (BitVec 8) × BitVec 384)

/-- The ROM digest fixed at manufacture (R389 step 2). Notes: assumption 5. (DESIGN CHOICE, safe: log entry 5.) -/
opaque Config.romDigest : BitVec 384

/-- The repair row of a tier word (R305): the manual gives no row geometry. Notes: assumption 6. (DESIGN CHOICE, safe: log entry 6.) -/
opaque Config.rowOf : Nat → Nat

/-- Whether a spare is left for a row (R305): not stated. Notes: assumption 6. (DESIGN CHOICE, safe: log entry 6.) -/
opaque Config.rowHasSpare : Nat → Bool

/-- Global coordinate of the row of rank y in shard s of a hash-sharded table (R92), by its distribution descriptor: the key column that
decides it need not lie in the operand. Notes: assumption 100. (DESIGN CHOICE, safe: log entry 100.) -/
opaque Config.hashRow : List (BitVec 8) → Nat → Nat → Nat

/-- Slice that a die's Swage engine works on in a strike (R98): its order is not stated. Notes: assumption 48. (DEDUCED, unsafe: log entry 48.) -/
opaque Config.sliceNow : Nat → Nat → Nat

/-- Blocks that a Crucible engine holds for self-check in a strike (R287). Notes: assumption 64. (DEDUCED, unsafe: log entry 64.) -/
opaque Config.inflightNow : Nat → Nat → Nat

/-- Which of an activity's engines read a word of a tier, by strike and address (R87, R308): the spec deals elements to engines without naming
the engine of each. Notes: assumption 67. (DEDUCED, unsafe: log entry 67.) -/
opaque Config.faultReader : Nat → Nat → Nat

/-- The control message majors that a firmware image supports (R394): the image's body is opaque. Notes: assumption 109. (DESIGN CHOICE, safe: log entry 109.) -/
opaque Config.imageMajors : List (BitVec 8) → List Nat

/-- Count of the rows of shard s of a hash-sharded table (R92). Notes: assumption 100. (DESIGN CHOICE, safe: log entry 100.) -/
opaque Config.hashCount : List (BitVec 8) → Nat → Nat


end Sys2Proof
end

