-- ==== Sys2Proof/Syntax.lean ====
section
/-!
DEFINITION. The commands of the IH-100 block: one constructor of Instr for each row of spec/opcode_table.json, with what
arrives from outside (a measurement, a frame, a peer's data, the register address and value) as its operands. Everything
the device itself holds is read from State.
-/
namespace Sys2Proof

/-- Who makes a register or memory access (R22, R307, R344). -/
inductive Requester where
  | warden | hearth | cmc | spur
deriving DecidableEq, Repr

/-- Where a recovery image comes from (R392). -/
inductive RecoverySource where
  | managementPort | weldNeighbour
deriving DecidableEq, Repr

/-- One memory module as found at power-up (R291). -/
structure ModuleInfo where
  ecc : Bool
  gib : Nat
  mts : Nat
  trained : Bool
deriving DecidableEq, Repr

/-- A strike-master candidate (R32). -/
structure Candidate where
  classOne : Bool
  pending : Bool
  digest : Digest
  device : Nat
deriving DecidableEq, Repr

/-- The four timestamps of a two-way exchange between devices a and b, in ps (R38): a's frame start on a's clock, its arrival on b's
clock, b's frame start on b's clock, its arrival on a's clock. -/
structure TwoWay where
  taTx : Int
  tbRx : Int
  tbTx : Int
  taRx : Int
deriving DecidableEq, Repr

/-- What the device measures at a strike edge (R37 to R39): the arrival of the parent's frame start on the own clock, counted in ps from the
own edge, none where no marker comes; the phase error of the edge where no marker gives it; and, where a heat's averages are complete,
the timestamps of the six torus ports. -/
structure EdgeInputs where
  marker : Option Int
  errorPs : BitVec 32
  delays : List (Option TwoWay)
  /-- Ports and lanes whose frame CRC generator finds a check handover mismatch in what it sends in this strike (R309, R310). -/
  sendMismatch : List (Nat × Nat) := []
deriving DecidableEq, Repr

/-- The event a request deadline guards (R50, R51). -/
inductive DeadlineRef where
  /-- A Spur work entry: port, queue pair, ring index. -/
  | spurEntry (port qp index : Nat)
  /-- The ring entries of a repeat of a RING-form record (R263): record name, repeat. -/
  | ringRepeat (record rep : Nat)
deriving DecidableEq, Repr

/-- An activity of the running plan: a step, or a repeat of a stream record. -/
inductive ActRef where
  | step (index : Nat)
  | stream (record rep : Nat)
deriving DecidableEq, Repr

/-- A commit or revert that another Warden forwards (R52). -/
structure ForwardedCommit where
  targets : List Uid
  epoch : BitVec 32
  strike : Nat
  revert : Bool
  readmit : Bool
  /-- The configuration record, empty for a revert or a readmission. -/
  record : List Byte
  /-- Strike of sending and the sender's epoch, where a Warden forwards it (R54). -/
  sender : Option (Nat × BitVec 32) := none
deriving DecidableEq, Repr

/-- What one member reports when a job ended on it (R354): the counting fields and words of each recorded step. -/
structure StepReport where
  step : Nat
  status : BitVec 16
  elems : Nat
  saturated : Nat
  nans : Nat
  special : Nat
  words : List Nat
deriving DecidableEq, Repr

structure EndReport where
  status : BitVec 16
  step : BitVec 32
  record : BitVec 32
  block : BitVec 32
  records : List StepReport
  /-- The stop boundary of a job that a status stopped, else the strike of its end (R127). -/
  boundary : Nat := 0
deriving DecidableEq, Repr

/-- Peers' bytes that reach an operator through the plan's flows (R149): source group position, flow bytes. -/
abbrev Arrivals := List (Nat × List Byte)

/-- Partial statistics of one member for one named column (R76, R188). -/
structure PeerStat where
  sumA : Int
  sqA : Int
  count : Nat
  nanSeen : Bool
  posInf : Bool
  negInf : Bool
  sqPosInf : Bool
  rows : Nat
  nulls : Nat
  nans : Nat
  /-- Least and greatest eligible element of the member, as (order key, stored bits). -/
  minEl : Option (Nat × Nat)
  maxEl : Option (Nat × Nat)
deriving DecidableEq, Repr

/-- One selection record that travels between members (R212): index, stored value, row, state. -/
structure SelRec where
  index : Nat
  value : Nat
  row : Nat
  state : Nat
  /-- VALUE is a clamped timestamp (R65), so that the copy counts in SATURATED where it wins; no bit of the record carries it. -/
  clamped : Bool := false
  /-- The copy's stored bits, where VALUE does not give them (R204). -/
  stored : Option Nat := none
deriving DecidableEq, Repr

/-- An incoming RDMA READ (R335): its length, whether its ICRC holds, and whether the port generator's check handover holds (R310). -/
structure InboundRead where
  len : Nat
  icrcOk : Bool := true
  handoverOk : Bool := true
deriving DecidableEq, Repr

/-- The last packet of an incoming SEND (R335): immediate data, and whether its ICRC holds. -/
structure InboundSend where
  imm : Bool
  icrcOk : Bool := true
deriving DecidableEq, Repr

/-- A queue pair whose ACK timeout expires, and whether the check handover of what it sends again holds (R310, R335). -/
structure Retry where
  qp : Nat
  handoverOk : Bool := true
deriving DecidableEq, Repr

/-- What the landing encoder finds: clean data, a span check that fails, or an uncorrectable word of the receive buffer (R307, R309). -/
inductive LandCheck where
  | ok | mismatch | unreadable
deriving DecidableEq, Repr

/-- An error in a Hardy entry that a search meets: table, block, place in the block; the bits flipped in field 1 and field 2 of the search
copy (R171), and whether the shadow copy holds an uncorrectable error (R172). -/
structure HardyUpset where
  die : Nat
  htab : Nat
  block : Nat
  place : Nat
  /-- The search of the die, numbered from 0 within the step, before which the bits flip. -/
  before : Nat
  mask1 : Word
  mask2 : Word
  maskTag : Word
  maskParity : BitVec 12
  shadow1 : Word
  shadow2 : Word
  shadowTag : Word
  shadowCheck : BitVec 24
deriving DecidableEq, Repr

/-- A partial record of one bag from another member (R228): the exact sum of each element in units of the pool word. -/
structure PartialBag where
  source : Nat
  bag : Nat
  count : Nat
  nanSeen : Bool
  posInf : Bool
  negInf : Bool
  sums : List Int
deriving DecidableEq, Repr

/-- A gradient record for one row from another member (R233): exact sums in units of 2^-149, of 2^-1074 for COMPOSED PRODUCT. -/
structure GradRec where
  source : Nat
  row : Nat
  count : Nat
  nanSeen : Bool
  posInf : Bool
  negInf : Bool
  sums : List Int
deriving DecidableEq, Repr

/-- What the other members of the group send to an EMB_UPDATE: their gradient records, and of each of their bags its identity and the
count of its occurrences (R227). -/
structure GradInput where
  records : List GradRec
  bags : List (Nat × Nat)
deriving DecidableEq, Repr

/-- The answer of another member of a group to a command that its Warden forwards: status and response body (R350). -/
abbrev MemberAnswer := BitVec 16 × List Byte

/-- A request on a ring pair, and the answers of the other members of the group. -/
structure PairAnswers where
  pair : Nat
  remote : List MemberAnswer
deriving DecidableEq, Repr

/-- What a Weld peer shows while a lane trains (R324 to R326) and how the steps of training end. -/
structure LaneTraining where
  signalOk : Bool
  syncOk : Bool
  qualifyOk : Bool
  negotiateOk : Bool
  delayOk : Bool
  times : TwoWay
  majors : BitVec 16
  minors : List (BitVec 8)
  peerPort : Nat
  peerDevice : Option Nat
  chain : List Byte
  nonceDigest : Digest
  signature : List Byte
  peerMode : Bool
  /-- SVN_FLOOR that a peer in recovery boot announces in its TRAIN frames (R392). -/
  imageFloor : Option (BitVec 32)
  /-- Digest of the nonce that the peer sends (R326). -/
  peerNonce : Digest := 0
deriving DecidableEq, Repr

/-- The content of a control message body (R323). -/
inductive CtlBody where
  | heartbeat
  | strikeNumber (n : Nat)
  | portState (locked : Bool) (hops : Nat)
  | candidate (c : Candidate)
  | announcement (c : Candidate)
  /-- What a group page takes from a member (R24): its sticky register, epochs, whether it is fenced, its counters, CAPS and STATE words. -/
  | groupPage (sticky : Word) (active previous : BitVec 32) (fenced : Bool) (counters : List Word) (caps state : Word)
  /-- A clearing of group sticky bits: the mask, the strike of the write, and the heat boundary at which it takes effect (R24). -/
  | clearSticky (mask : Word) (write heat : Nat)
  /-- A piece of a firmware image for a neighbour in recovery boot (R392). -/
  | firmware (offset : Nat) (bytes : List Byte)
  /-- VMP_ERR_CLEAR with LOGS on a group (R304). -/
  | clearLogs
  | planEnd (job : Word) (status : BitVec 16) (step : Nat) (endStrike : Nat)
  | jobEnd (job : Word) (report : EndReport)
  | commit (c : ForwardedCommit)
  | holdNotice (job : Word) (d r : Nat) (uid : Uid) (cause : Nat) (origin : Nat)
  | restored (job : Word) (uid : Uid) (strike : Nat)
  | finishedPlan (job : Word) (heat : Nat)
  /-- The plans ahead of a queued one on the sender, with the heat in which it reported each finished, or 0 (R112). -/
  | planAhead (job : Word) (ahead : List (Word × Nat))
  /-- A commit or revert is pending on targets of the sender for a strike (R128). -/
  | unitChange (strike : Nat) (targets : List Uid)
  /-- The target units of the sender that did not apply the change of an epoch at a strike (R359). -/
  | commitDone (epoch : BitVec 32) (strike : Nat) (missed : List Uid)
  /-- VMP_ERR_CLEAR writes NOTIFY of a group's page (R24, R356). -/
  | groupNotify (group : Nat) (mask : Word)
  | ready (epoch : BitVec 32)
  /-- A copy of a plan another member accepted, with its job number, acceptance strike, request tag and deadline (R112, R123). -/
  | planCopy (job : Word) (accepted : Nat) (tag : BitVec 16) (deadline : Nat) (plan : List Byte)
  | jobCancel (job : Word) (strike : Nat) (status : BitVec 16)
  | jobDeadline (job : Word) (deadline : Nat)
  | devState (state : Nat) (ports : Byte) (epoch : BitVec 32)
  | mapVersion (version : Nat) (digest : Digest)
  /-- A command of a group forwarded to a member's Warden: the strike of sending (R54), the sender's epoch, its 128 bytes, then any payload
  it names by reference (R350). -/
  | vmp (sent : Nat) (epoch : BitVec 32) (message : List Byte)
  /-- A reset of a group, passed to its members (R10). -/
  | groupReset (group : Nat)
  /-- TONGS class (R232, R240): slot images and log entries, END markers, row-cache fills, forwarded records. -/
  | slotImage (table version row : Nat) (image : List Byte)
  | migrationEnd (table version : Nat)
  | cacheFill (table version row : Nat)
  | cacheReply (table version row gen : Nat) (image : List Byte)
  | tongsRecord (table version issue row bag : Nat)
  /-- A gradient record that an old owner forwards (R240). -/
  | gradRecord (table version issue : Nat) (g : GradRec)
  /-- A reset of the sender lost slots of a version (R225). -/
  | damaged (table version : Nat)
  /-- Bytes of a DYNAMIC flow (R119). -/
  | dynamic (flow : Nat) (bytes : List Byte)
  | raw (bytes : List Byte)
deriving DecidableEq, Repr

/-- The first failure of R122 that another member's Warden finds by its own state: the number of the check, then the plan diagnosis. -/
structure MemberCheck where
  check : Nat
  status : BitVec 16
  reason : Nat
  sect : Nat
  step : Nat
  detail : Option Nat
deriving DecidableEq, Repr

/-- A control message (R323). -/
structure CtlMsg where
  type : Nat
  ttl : Nat
  dst : Nat
  src : Nat
  seq : Nat
  body : CtlBody
  /-- Bytes of it that earlier messages have carried: LENGTH is at most 11,248 (R323). -/
  sent : Nat := 0
deriving DecidableEq, Repr

/-- An Ethernet frame as R334 judges it. -/
inductive EthPayload where
  | arpRequest (ip : Nat)
  | neighbourSolicit (ip : Nat)
  | echoRequest (ip : Nat) (data : List Byte)
  | roce
  | nvmeTcp
  | other
deriving DecidableEq, Repr

structure EthFrame where
  bytes : Nat
  dstMac : Nat
  vid : Option Nat
  multicastNd : Bool
  fragment : Bool
  ipOptions : Bool
  ecnCe : Bool
  payload : EthPayload
deriving DecidableEq, Repr

/-- An answer that arrives for an outstanding Spur entry (R338). -/
inductive SpurResp where
  | ack
  | nak (syndrome : Nat)
  | rnr
  | readData (bytes : List Byte) (spanOk : Bool)
  | nvmeOk (bytes : List Byte) (spanOk : Bool)
  | nvmeError (status : Nat)
  | connectionLost
deriving DecidableEq, Repr

/-- A frame on the management port (R413). -/
inductive MgmtFrame where
  | dhcpLease (ip : Nat)
  | routerAdvertisement (pfx : Nat)
  | echoRequest (v6 : Bool) (data : List Byte)
  | other
deriving DecidableEq, Repr

/-- A resource of the Redfish service (R416). -/
inductive RedfishPath where
  | serviceRoot | chassis | thermal | power | sensors | managerCmc | updateService | telemetry | eventService | unknown
deriving DecidableEq, Repr

/-- A method of a Redfish request. -/
inductive HttpMethod where
  | get | post | patch | delete
deriving DecidableEq, Repr

/-- How a management client authenticates (R414): the public key it proves, if any. -/
abbrev AuthKey := Option (List Byte)

/-- A Hearth access (R307, R344): a load of n bytes, or a store of bytes. -/
inductive HearthAccess where
  | load (addr : Word) (n : Nat)
  | store (addr : Word) (bytes : List Byte)
deriving DecidableEq, Repr

/-- Why the bypasses close (R313). -/
inductive BypassCause where
  | inputAbsent | resetWithoutFabric | virianStopped | fencedTooLong | recoveryTimeout
deriving DecidableEq, Repr

/-- The telemetry inputs of a metric report that no register samples otherwise (R419, R425). -/
structure PowerSample where
  vin : BitVec 16
  iin : BitVec 16
  pin : BitVec 16
  steps : List Nat
  /-- Received optical power of each lane in 0.1 dBm, eight to a port. -/
  optical : List Int
deriving DecidableEq, Repr

/-- The commands, in the order of spec/opcode_table.json. Each docstring names the rule of the row. -/
inductive Instr where
  /-- R386, R427. -/
  | powerInputValid (presentLow : Bool)
  /-- R387: the regulator step whose rail failed. -/
  | railPowerFailure (step : Nat)
  /-- R387. -/
  | powerRetry
  /-- R388. -/
  | brownout
  /-- R389, R395: the rebuilt public key, 97 bytes, and whether the flash body read without an uncorrectable error. -/
  | powerGood (rebuilt : List Byte) (flashReadOk : Bool)
  /-- R392. -/
  | recoveryImageReceive (src : RecoverySource) (image : List Byte)
  /-- R392. -/
  | recoveryTransferStall
  /-- R315. -/
  | recoveryXPairTimer
  /-- R409, R291: which stacks trained (bit s), and the modules found. -/
  | memoryTrainingDone (stacksOk : BitVec 16) (modules : List ModuleInfo)
  /-- R31. -/
  | ref10mLock
  /-- R31. -/
  | ref10mLoss
  /-- R31, R30: REF10M cycles since the last mark, and whether the signal meets the limits of R30. -/
  | ppsMark (cycles : Nat) (inLimits : Bool)
  /-- R31. -/
  | ppsMarkMissing
  /-- R407. -/
  | candidateFlood
  /-- R407: whether 2.5 s have passed since power-good. -/
  | electionConclude (timedOut : Bool)
  /-- R407. -/
  | masterAnnouncementReceive (c : Candidate)
  /-- R34. -/
  | strikeZero
  /-- R49. -/
  | strikeEdge (e : EdgeInputs)
  /-- R44. -/
  | strikeSlip
  /-- R44: the strike number of the next control slot. -/
  | strikeRelock (n : Word)
  /-- R45. -/
  | holdoverEnter
  /-- R45, R36. -/
  | reparent
  /-- R45. -/
  | holdoverTimeout
  /-- R46. -/
  | masterLost
  /-- R19. -/
  | comparatorFire (uid : Uid) (k : Nat)
  /-- R352. -/
  | leaseExpiry (client : BitVec 12)
  /-- R51. -/
  | requestDeadlineTimeout (r : DeadlineRef)
  /-- R364. -/
  | stickyEventPost
  /-- R25. -/
  | ucpResetReq (uid : Uid)
  /-- R9. -/
  | resetRelease (uid : Uid)
  /-- R22, R23: the bits written as 1, and the bits hardware sets in the same cycle. -/
  | stickyW1cWrite (who : Requester) (uid : Uid) (mask hw : Word)
  /-- R24. -/
  | groupStickyClear (group : BitVec 12) (mask : Word)
  /-- R19. -/
  | watchdogDeadlineWrite (uid : Uid) (k : Nat) (value : Word)
  /-- R8. -/
  | registerWrite (who : Requester) (addr value : Word)
  /-- R261. -/
  | ringTailWrite (who : Requester) (ring : Nat) (tail : BitVec 32)
  /-- R346. -/
  | vmpEnableSet (who : Requester) (pair : Nat)
  /-- R346. -/
  | vmpEnableClear (who : Requester) (pair : Nat)
  /-- R347. -/
  | requestEntryUnreadable (pair : Nat)
  /-- R351. A VMP command is the request at the HEAD of ring pair `pair`; `remote` is what the other members of a group
  target answer, in group order (R350). -/
  | vmpHello (pair : Nat)
  /-- R352. -/
  | vmpBye (pair : Nat)
  /-- R357. -/
  | vmpCfgStage (pair : Nat)
  /-- R358. -/
  | vmpCfgValidate (ask : PairAnswers)
  /-- R359. -/
  | vmpCfgCommit (pair : Nat) (remote : List MemberAnswer)
  /-- R360. -/
  | vmpCfgRevert (pair : Nat) (remote : List (BitVec 16))
  /-- R361. -/
  | vmpCfgRead (pair : Nat)
  /-- R122. -/
  | vmpOpSubmit (pair : Nat) (remote : List MemberCheck)
  /-- R354. -/
  | vmpOpCancel (ask : PairAnswers)
  /-- R354. -/
  | vmpOpStatus (pair : Nat)
  /-- R355: a member may refuse a deadline, where its OPTIMEOUT_WD is 0. -/
  | vmpOpDeadline (ask : PairAnswers)
  /-- R217. -/
  | vmpTableCreate (pair : Nat) (remote : List (BitVec 16))
  /-- R223: `moved` holds the row images that other members hand over for a CLONE of a version with redirected rows. -/
  | vmpTableLoad (pair : Nat) (remote : List (BitVec 16)) (moved : List (Nat × List Byte))
  /-- R221. -/
  | vmpTableActivate (pair : Nat) (remote : List (BitVec 16))
  /-- R221. -/
  | vmpTableRetire (pair : Nat) (remote : List (BitVec 16))
  /-- R240. -/
  | vmpTableMigrate (pair : Nat) (remote : List (BitVec 16))
  /-- R198. -/
  | vmpCurveLoad (pair : Nat) (remote : List (BitVec 16))
  /-- R353. -/
  | vmpErrRead (pair : Nat)
  /-- R356. -/
  | vmpErrClear (pair : Nat)
  /-- R374. -/
  | vmpRecover (pair : Nat)
  /-- R353. -/
  | vmpHoldRead (pair : Nat)
  /-- R401. -/
  | vmpAttest (pair : Nat)
  /-- R393. -/
  | vmpFwStage (pair : Nat)
  /-- R394. -/
  | vmpFwActivate (pair : Nat)
  /-- R353. -/
  | vmpTimeRead (pair : Nat)
  /-- R353. -/
  | vmpTopoRead (pair : Nat)
  /-- R53. -/
  | configApply
  /-- R359. -/
  | configFlashWrite (epoch : BitVec 32)
  /-- R52. -/
  | forwardedCommitReceive (c : ForwardedCommit)
  /-- R55. -/
  | readmission (uid : Uid)
  /-- R221. -/
  | tableVersionActivation
  /-- R112. -/
  | planStart
  /-- R127. -/
  | planStop
  /-- R127: the status and step announced, and the strike in which the step's occupancy ends. -/
  | planEndAnnounceReceive (job : Word) (status : BitVec 16) (step : Nat) (endStrike : Nat)
  /-- R354: the member's group position and its report. -/
  | jobEndReport (job : Word) (member : Nat) (report : EndReport)
  /-- R354. -/
  | jobComplete (job : Word)
  /-- R111. -/
  | activityOccupancyEnd (a : ActRef)
  /-- R140. -/
  | scanLoad (step : Nat)
  /-- R141: the pair keys of the live rows of the other members. -/
  | scanRenumber (step : Nat) (peerKeys : List (Nat × Nat))
  /-- R144, with the upsets of the Hardy search copies of its IN lists (R171). -/
  | filter (step : Nat) (upsets : List HardyUpset)
  /-- R145. -/
  | compute (step : Nat)
  /-- R147. -/
  | hash (step : Nat)
  /-- R148. -/
  | partition (step : Nat) (arrivals : Arrivals)
  /-- R153. -/
  | joinBuild (step : Nat)
  /-- R155. -/
  | joinProbe (step : Nat)
  /-- R156. -/
  | dedup (step : Nat)
  /-- R157: the order keys of the other members' rows, the rows that arrive, and whether the CRC handover check holds. -/
  | emit (step : Nat) (peerKeys : List (Nat × Nat)) (arrivals : Arrivals) (handoverOk : Bool)
  /-- R165. -/
  | rangeBucketLoad (step : Nat)
  /-- R166. -/
  | rangeBucketInsert (step : Nat)
  /-- R176. -/
  | rangeBucketSearch (step : Nat) (upsets : List HardyUpset)
  /-- R165. -/
  | rangeJoinLoad (step : Nat)
  /-- R166. -/
  | rangeJoinInsert (step : Nat)
  /-- R177. -/
  | rangeJoinSearch (step : Nat) (upsets : List HardyUpset)
  /-- R165. -/
  | maskMatchLoad (step : Nat)
  /-- R178. -/
  | maskMatchSearch (step : Nat) (upsets : List HardyUpset)
  /-- R167. -/
  | hardyRebalance (step : Nat)
  /-- R190: the partial statistics of the other members, one list per named column. -/
  | statsColumns (step : Nat) (peers : List (List PeerStat))
  /-- R192: the other members' key hashes in the sample, and how many sampled rows of theirs have no hash. -/
  | statsKeysample (step : Nat) (peerHashes : List Nat)
  /-- R194. -/
  | normalise (step : Nat)
  /-- R207: the non-owner copies sent to this member (section A), and the winning copies of the other members, which the group's merge and
  radix rounds carry (R203, R208, R212). -/
  | selectAbove (step : Nat) (secA secB : List SelRec)
  /-- R208. -/
  | topk (step : Nat) (secA secB : List SelRec)
  /-- R211. -/
  | sortSegment (step : Nat) (secA secB : List SelRec)
  /-- R228: request records of the other members (source, row, bag), and their partial records. -/
  | embLookup (step : Nat) (requests : List (Nat × Nat × Nat)) (partials : List PartialBag)
  /-- R234: gradient records of the other members. -/
  | embUpdate (step : Nat) (input : GradInput)
  /-- R232: table, version, row, its GEN and its image. -/
  | rowCacheFillReply (table version row gen : Nat) (image : List Byte)
  /-- R232: a fill request from group position `source`. -/
  | rowCacheFillRequest (source table version row : Nat)
  /-- R232. -/
  | rowCacheDecay
  /-- R240: a slot image or log entry for a migrating row. -/
  | migrationImageReceive (table version row : Nat) (image : List Byte)
  /-- R240. -/
  | migrationCutOver (table version : Nat)
  /-- R240. -/
  | migrationEndSend (table version : Nat)
  /-- R240. -/
  | migrationEndReceive (table version : Nat)
  /-- R240. -/
  | migrationForwardWindowEnd (table version : Nat)
  /-- R238: the records that the members at lower and at higher group positions served in each of the last 8 heats, the newest first. -/
  | autoMigration (table version : Nat) (lower higher : List (List Nat)) (dstAddr : Word)
  /-- R96. -/
  | swageCopy (step : Nat)
  /-- R279: the blocks whose self-check decode mismatches (R276), and the engines whose check handovers mismatch (R310). -/
  | packNew (step : Nat) (selfCheckBad mismatch : List Nat)
  /-- R282. -/
  | packResume (step : Nat) (selfCheckBad mismatch : List Nat)
  /-- R284. -/
  | unpack (step : Nat) (mismatch : List Nat)
  /-- R293. -/
  | refreshWindow (step : Nat)
  /-- R248. -/
  | bellowsFill (record rep : Nat)
  /-- R248. -/
  | bellowsDrain (record rep : Nat)
  /-- R258. -/
  | bellowsSend (record rep : Nat)
  /-- R258: bytes offered with the command; those that land are the ones of the flow's frames. -/
  | bellowsLand (record rep : Nat) (bytes : List Byte)
  /-- R259: bytes offered with the command, where the data is that of the queue pair's reads, and whether the handover check holds. -/
  | bellowsIngest (record rep : Nat) (bytes : List Byte) (handoverOk : Bool)
  /-- R299: the word address of the entry, and its bank group. -/
  | mergeBufferFlush (bank : Nat) (addr : Nat)
  /-- R306: the checker (its register window base) and the value written to FLIP_HI. -/
  | checkerFlipArm (who : Requester) (addr : Word) (value : Word)
  /-- R318: the frame bytes as received, and whether the span check of the handover holds. -/
  | weldFrameReceive (port lane : Nat) (frame : List Byte)
  /-- R319: what the landing encoder finds (R307, R309). -/
  | weldFrameLand (port lane : Nat) (found : LandCheck)
  /-- R321. -/
  | weldFrameResend (port lane : Nat)
  /-- R322. -/
  | weldFrameLost (port : Nat) (seq : BitVec 32)
  /-- R323. -/
  | controlMessageReceive (port : Nat) (m : CtlMsg)
  /-- R324. -/
  | laneLightDetect (port lane : Nat) (t : LaneTraining)
  /-- R324. -/
  | laneRetrainTimer (port lane : Nat)
  /-- R327. -/
  | laneDown (port lane : Nat)
  /-- R313. -/
  | bypassClose (cause : BypassCause)
  /-- R313. -/
  | bypassOpen
  /-- R330: the new table of each device, as Virian on the master computed it. -/
  | routingOverrideCommit (tables : List (Nat × List (BitVec 32)))
  /-- R332. -/
  | spurModeRetrain (port : Nat) (ok : Bool)
  /-- R337. -/
  | qpCmdReset (port qp : Nat)
  /-- R337. -/
  | qpCmdInit (port qp : Nat)
  /-- R337. -/
  | qpCmdRtr (port qp : Nat)
  /-- R337. -/
  | qpCmdRts (port qp : Nat)
  /-- R338. -/
  | qpCmdError (port qp : Nat)
  /-- R335: the work entry at the head of the queue pair's ring, and whether the port's check handover holds (R310). -/
  | spurSend (port qp : Nat) (handoverOk : Bool)
  /-- R335. -/
  | spurSendImm (port qp : Nat) (handoverOk : Bool)
  /-- R335. -/
  | spurWrite (port qp : Nat) (handoverOk : Bool)
  /-- R339. -/
  | spurWriteImm (port qp : Nat) (handoverOk : Bool)
  /-- R335. -/
  | spurRead (port qp : Nat)
  /-- R336. -/
  | nvmeRead (port qp : Nat)
  /-- R336. -/
  | nvmeFabricsConnect (port qp : Nat)
  /-- R336. -/
  | nvmePropertyGet (port qp : Nat)
  /-- R336. -/
  | nvmePropertySet (port qp : Nat)
  /-- R336. -/
  | nvmeIdentify (port qp : Nat)
  /-- R336. -/
  | nvmeGetLogPage (port qp : Nat)
  /-- R336. -/
  | nvmeKeepAlive (port qp : Nat)
  /-- R335: an incoming RDMA READ: the region key, address and length. -/
  | roceInboundRead (port qp rkey : Nat) (addr : Word) (ask : InboundRead)
  /-- R335. -/
  | roceInboundWrite (port qp rkey : Nat) (addr : Word) (bytes : List Byte) (imm icrcOk handoverOk : Bool)
  /-- R335: an incoming SEND, with or without immediate data. -/
  | roceInboundSend (port qp : Nat) (bytes : List Byte) (last : InboundSend)
  /-- R335. -/
  | roceAckTimeout (port : Nat) (retry : Retry)
  /-- R335. -/
  | cnpReceive (port qp : Nat)
  /-- R335. -/
  | cnpRateRecovery (port qp : Nat)
  /-- R335. -/
  | cnpSend (port qp : Nat)
  /-- R334. -/
  | ethFrameReceive (port : Nat) (f : EthFrame)
  /-- R334. -/
  | pfcPauseReceive (port priority : Nat) (pause : Bool)
  /-- R366: the cause code, the detecting unit, and for UE whether the recovery discards the word (R308). -/
  | faultDetect (cause : Nat) (uid : Uid) (recoverable : Bool)
  /-- R366. -/
  | memberLost (device : Nat)
  /-- R369. -/
  | holdNoticeReceive (job : Word) (d r : Nat) (uid : Uid) (cause : Nat) (origin : Nat)
  /-- R369. -/
  | holdRaise
  /-- R375. -/
  | partitionRestore (uid : Uid)
  /-- R375. -/
  | recoveryBoundMiss (uid : Uid)
  /-- R377. -/
  | restoredNoticeReceive (job : Word) (uid : Uid) (strike : Nat)
  /-- R377. -/
  | replayStart
  /-- R379. -/
  | planResume
  /-- R383. -/
  | jobFaultEnd
  /-- R394: whether the new image resumes and its read-back matches. -/
  | fwImageHandover (resumed readBackOk : Bool)
  /-- R394. -/
  | fwActivateRollback
  /-- R404: the map a neighbour holds. -/
  | mapAnnounceReceive (map : List Byte)
  /-- R408: a device, the UP ports of it, and the highest epoch it reported in P3. -/
  | portStateReport (device : Nat) (portsUp : Byte) (epoch : BitVec 32)
  /-- R408. -/
  | formationCommit
  /-- R409. -/
  | deviceReady
  /-- R411: the current master and the map in use. -/
  | lateJoin (c : Candidate) (map : List Byte)
  /-- R422: a temperature for each of the 116 dies and the coolant, in 1/16 degree Celsius. -/
  | thermalSample (temps : List (BitVec 16)) (inlet outlet : BitVec 16)
  /-- R423. -/
  | pendingRateFull
  /-- R419. -/
  | metricReport (p : PowerSample)
  /-- R413. -/
  | dhcpLinkLocalFallback (ip : Nat)
  /-- R416. -/
  | redfishGet (path : RedfishPath) (method : HttpMethod) (auth : AuthKey)
  /-- R416. -/
  | redfishEventSubscribe (auth : AuthKey)
  /-- R417. -/
  | plovernVmp (message : List Byte) (auth : AuthKey)
  /-- R398. -/
  | plovernOwnerRecord (record : List Byte) (auth : AuthKey)
  /-- R403. -/
  | plovernSystemMap (map : List Byte) (auth : AuthKey)
  /-- R418. -/
  | plovernCheckerTest (auth : AuthKey)
  /-- R416. -/
  | updateServicePush (image : List Byte) (auth : AuthKey)
  /-- R416. -/
  | updateServiceStartUpdate (auth : AuthKey)
  /-- R414. -/
  | sshConsoleConnect (auth : AuthKey)
  /-- R399. -/
  | spdmGetVersion
  /-- R399. -/
  | spdmGetCapabilities
  /-- R399: the requester offers ECDSA P-384 and SHA-384. -/
  | spdmNegotiateAlgorithms (p384 sha384 : Bool)
  /-- R399. -/
  | spdmGetDigests (slot : Nat)
  /-- R399. -/
  | spdmGetCertificate (slot offset length : Nat)
  /-- R399. -/
  | spdmChallenge (slot : Nat) (nonce : List Byte)
  /-- R400. -/
  | spdmGetMeasurements (nonce : List Byte)
  /-- R36. -/
  | strikeLockAcquire (locks : Bool) (n : Word)
  /-- R326. -/
  | laneLightLoss (port : Nat)
  /-- R338: the answer to the outstanding entry with a ring index. -/
  | spurResponseReceive (port qp : Nat) (index : BitVec 32) (r : SpurResp)
  /-- R342. -/
  | ethernetLinkChange (port : Nat) (up : Bool)
  /-- R413. -/
  | managementFrameReceive (f : MgmtFrame)
  /-- R307. -/
  | hearthMemoryAccess (a : HearthAccess)
deriving DecidableEq, Repr

end Sys2Proof
end

