-- ==== Sys2Proof/Decode.lean ====
section
/-!
DEFINITION. The block takes commands; spec/opcode_table.json gives no row any bits, so no word spells a command and the
decoder answers none for every word.
-/
namespace Sys2Proof

/-- No row of the table carries bits: no word spells a command. (DESIGN CHOICE, safe: log entry 1.) -/
def decodeTableWord (_nbits _w : Nat) : Option Instr := none

end Sys2Proof
end

