-- ==== Sys2Proof/Machine/State.lean ====
section
/-!
DEFINITION. The state of one IH-100 (the local device) as plain data, the reasons a command can stop, and the state after
reset. Reset is the moment before the 48 V input becomes valid: every register at the value its Reset column gives
(R9), every store empty, no command waiting. Values the spec leaves open at reset are named in the assumption log.
-/
namespace Sys2Proof.Machine

/-- Why the block stops. -/
inductive Fault where
  /-- Raised by STRIKE_EDGE when the 64-bit strike count stands at its last value: R11 and R47 give the count no successor
  there ("the strike count does not wrap in service"). Safe: the model stops where the spec defines no next count. -/
  | strikeCountExhausted
deriving DecidableEq, Repr

/-- Why the block refuses a command. -/
inductive Refusal where
  /-- A command whose meaning is not written. Raised by the dispatch alone. Safe: nothing is claimed of it. -/
  | notModelled (mnemonic : String)
deriving DecidableEq, Repr

/-! ### Units (R15 to R25) -/

/-- The part of a unit control page that changes, with the flags from which own states are derived (R18). Everything
here has the Reset column's value in `UnitPage.reset`. -/
structure UnitPage where
  /-- The sticky bits a read shows, and those set in the running strike, which show from the next (R49, order 10). -/
  sticky : Word
  fresh : Word
  notify : Word
  active : BitVec 32
  previous : BitVec 32
  pendEpoch : BitVec 32
  pendStrike : Word
  /-- The pending change is a revert, or a readmission commit (R55, R60). -/
  pendRevert : Bool
  pendReadmit : Bool
  retainMemory : Bool
  retainFabric : Bool
  wd0 : Word
  wd1 : Word
  wd2 : Word
  wd3 : Word
  /-- The deadlines held at the start of the strike (R19). -/
  held0 : Word
  held1 : Word
  held2 : Word
  held3 : Word
  /-- Comparators that have not fired since their deadline was written (R19). -/
  armed : BitVec 4
  wdCtrl : BitVec 32
  progressHeat : BitVec 32
  marker : BitVec 32
  counters : Sparse Word
deriving DecidableEq, Repr

/-- Flags that decide a unit's own state (R18, R53, R55). -/
structure UnitFlags where
  offline : Bool
  recovering : Bool
  resetting : Bool
  fenced : Bool
  /-- Missed a commit while in RESET or RECOVERING: fences at its reset release (R53). -/
  missed : Bool
  /-- Ready to be readmitted at the next heat boundary (R55). -/
  readmitting : Bool
  /-- Of a device unit (R55): the epoch of the latest commit or revert it missed, and the latest epoch of a refused transfer that fenced
  it (R54); 0 for none. The reference epoch is the later of the two. -/
  refEpoch : BitVec 32
  refSeen : BitVec 32
  /-- Progress checks missed in a row, and the expected value of the last check (R126). -/
  misses : Nat
  lastExpected : BitVec 32
deriving DecidableEq, Repr

/-- One unit of the local device, or a group page. -/
structure UnitState where
  page : UnitPage
  flags : UnitFlags
deriving DecidableEq, Repr

/-- The page at reset release: WD_CTRL enables comparators 0 and 1, owners 0, 1, 2, 2. (DESIGN CHOICE, unsafe: log entry 12.) -/
def UnitPage.reset : UnitPage :=
  { sticky := 0, fresh := 0, notify := 0, active := 0, previous := 0, pendEpoch := 0, pendStrike := neverWord, pendRevert := false,
    pendReadmit := false, retainMemory := true, retainFabric := true, wd0 := neverWord, wd1 := neverWord,
    wd2 := neverWord, wd3 := neverWord, held0 := neverWord, held1 := neverWord, held2 := neverWord,
    held3 := neverWord, armed := 0xF, wdCtrl := 0x20209080, progressHeat := 0, marker := 0, counters := [] }

def UnitFlags.reset : UnitFlags :=
  { offline := false, recovering := false, resetting := false, fenced := false, missed := false, readmitting := false,
    refEpoch := 0, refSeen := 0, misses := 0, lastExpected := 0 }

def UnitState.reset : UnitState := { page := UnitPage.reset, flags := UnitFlags.reset }

/-- What the local member holds of a remote member device of its groups (R24). -/
structure Reflected where
  sticky : Word
  active : BitVec 32
  previous : BitVec 32
  fenced : Bool
  counters : List Word
  caps : Word
  state : Word
deriving DecidableEq, Repr

/-- A clearing of group sticky bits that takes effect at a heat boundary (R24). -/
structure GroupClear where
  mask : Word
  heat : Nat
deriving DecidableEq, Repr

/-- A sticky bit that changed to 1 with its notify bit set, to be posted in the next strike (R364). -/
structure StickyEvent where
  uid : Uid
  bit : Nat
  strike : Nat
  sticky : Word
deriving DecidableEq, Repr

/-- The units of the device and its groups. Local units are keyed by UID with DEVICE cleared, groups by UID. -/
structure Units where
  pages : Sparse UnitState
  /-- Remote members' reflected states, by device number. -/
  reflected : Sparse Reflected
  groupClears : List GroupClear
  events : List StickyEvent
  /-- Of the device unit, the strike in which each sticky bit was last set (R24). -/
  setAt : Sparse Nat
deriving DecidableEq, Repr

/-! ### Power, boot, identity (R386 to R404, R420 to R427) -/

/-- CPC.STATUS.POWER: absent is the state without a valid input, the others as in R425. -/
inductive PowerState where
  | absent | sequencing | on | failed | tripped
deriving DecidableEq, Repr

inductive BootPhase where
  | off | recovery | running
deriving DecidableEq, Repr

/-- A firmware image held in Warden memory or flash: bytes as in R391. -/
structure Firmware where
  bytes : List Byte
deriving DecidableEq, Repr

/-- An accepted VMP_FW_ACTIVATE (R394). -/
structure FwActivation where
  strike : Nat
  client : BitVec 12
  pair : Nat
  tag : BitVec 16
  handedOver : Bool
  readBacks : Nat
  /-- Later requests accepted while it waits, which end with it: client, pair, tag. -/
  also : List (BitVec 12 × Nat × BitVec 16) := []
deriving DecidableEq, Repr

structure Power where
  state : PowerState
  attempts : Nat
  /-- Time mark of power-good in strikes of the local oscillator is not modelled (timing); true once reached. -/
  powerGood : Bool
  presentLow : Bool
deriving DecidableEq, Repr

/-- A record of the flash persistent log (R347, R372, R373, R392, R402, R414, R418). -/
inductive LogRecord where
  | unreadableEntry (ring index : Nat)
  | recovery (uid : Uid) (cause : Nat) (detect raised outcome : Nat)
  | recoveryBoot (step : Nat)
  | skippedRecord (uid : Uid) (epoch : BitVec 32)
  | cacheOverride
  | remap (checker inst word : Nat)
  | pendingRow (tier inst row : Nat)
  | authRefused
  | checkerTest (checker : Nat) (passed : Bool)
  | clientLabel (client : BitVec 12) (label : List Byte)
deriving DecidableEq, Repr

structure Boot where
  phase : BootPhase
  failedStep : Nat
  /-- The image in the flash slot, the running image, the previous copy kept during an activation, the staged image. -/
  flashImage : List Byte
  running : List Byte
  staged : Option (List Byte)
  activation : Option FwActivation
  svnFloor : BitVec 32
  /-- The image that runs a hand-over replaced, until the new one's read-back matches (R394). -/
  oldCopy : List Byte
  /-- Recovery boot: the source taken, the image's bytes that have arrived, and whether the X pair is open (R315, R392). -/
  source : Option RecoverySource
  arriving : List Byte
  xPairOpen : Bool
  /-- Certificate chain, owner record and system map in flash. -/
  chain : List Byte
  ownerRecord : List Byte
  storedMap : List Byte
  persistent : List LogRecord
  /-- Rows pending repair that the persistent log keeps across power loss, by controller (R305). -/
  pendingRows : List (Nat × Nat)
deriving DecidableEq, Repr

structure Identity where
  /-- The rebuilt public key, 97 bytes, and its identity digest (R395). -/
  key : List Byte
  digest : Digest
  failed : Bool
  /-- Measurements 1 to 6 (R400). -/
  meas : List Digest
  signatures : Nat
deriving DecidableEq, Repr

/-! ### Strike timebase (R30 to R46) -/

inductive Role where
  | none | master | follower | holdover
deriving DecidableEq, Repr

inductive LockState where
  | unlocked | acquiring | locked | slipped
deriving DecidableEq, Repr

structure Timebase where
  role : Role
  lock : LockState
  refLocked : Bool
  ppsQualified : Bool
  classBit : Bool
  hops : BitVec 5
  masterDigest : BitVec 48
  masterClass : Bool
  masterDevice : BitVec 12
  offset : BitVec 32
  ppsDelay : BitVec 24
  strike0Unix : Word
  hopDelay : List (BitVec 32)
  /-- The delay last applied to each torus port, toward which HOP_DELAY slews (R39). -/
  hopApplied : List Nat
  /-- Marks in a row at the right place, and missing or misplaced marks in a row (R31). -/
  goodMarks : Nat
  badMarks : Nat
  /-- The master runs without its reference (R35). -/
  masterHoldover : Bool
  parent : Option Nat
  /-- Per torus port: the neighbour is locked, its hop count, heats left before it may be a parent (R36, R39). -/
  neighbourLocked : List Bool
  neighbourHops : List Nat
  recalHeats : List Nat
  holdoverHeats : Nat
  /-- Heat of the last heartbeat (R46). -/
  heartbeatHeat : Nat
  best : Option Candidate
  /-- The candidates last heard as pending (R32, R407). -/
  pendings : List Candidate
  electionOver : Bool
  announced : Option Candidate
  /-- The strike number last heard on each torus port in a control slot, with the own count at its arrival (R37). -/
  slotNumber : List (Option (Word × Word))
  strikeDefined : Bool
  maxOffset : Nat
deriving DecidableEq, Repr

/-! ### Formation (R403 to R411) -/

structure Formation where
  /-- The map in use (R403), and the torus it gives; device 0 of a 1 × 1 × 1 torus without one (R405). -/
  map : List Byte
  mapVersion : Nat
  mapDigest : Digest
  dx : Nat
  dy : Nat
  dz : Nat
  device : Nat
  listed : Bool
  /-- Device state as TOPO_READ shows it (0 absent, 1 forming, 2 ready, 3 fenced, 4 recovering), by device number. -/
  devState : Sparse Nat
  portsUp : Sparse Byte
  devEpoch : Sparse (BitVec 32)
  /-- Highest epoch any device reported in P3 (R408). -/
  highestEpoch : BitVec 32
  formationCommitted : Bool
  ready : Bool
  trained : Bool
  farGib : Nat
  lateJoiner : Bool
  /-- A map written after formation, to take effect at the next one (R404). -/
  nextMap : List Byte
deriving DecidableEq, Repr

/-! ### Configuration (R357 to R362, R402) -/

/-- A parameter entry of a configuration record. -/
structure Param where
  id : Nat
  index : Nat
  scope : Uid
  value : Word
deriving DecidableEq, Repr

structure GroupDef where
  group : Nat
  members : List Nat
deriving DecidableEq, Repr

/-- A composed set. -/
structure ConfigSet where
  epoch : BitVec 32
  params : List Param
  groups : List GroupDef
  /-- Routing section: 4,096 entries, or empty. -/
  route : List (BitVec 32)
  /-- Owner signature of the record last composed in, and the bytes it covers. -/
  ownerSig : List Byte
  ownerBody : List Byte
  /-- Device signature, and whether the set stands in flash (R359). -/
  deviceSig : List Byte
  inFlash : Bool
deriving DecidableEq, Repr

structure Staged where
  client : BitVec 12
  target : Uid
  epoch : BitVec 32
  record : List Byte
  validated : Bool
deriving DecidableEq, Repr

/-- A commit, revert or override accepted and waiting for its strike (R52, R330). -/
structure PendingCommit where
  targets : List Uid
  epoch : BitVec 32
  strike : Nat
  revert : Bool
  readmit : Bool
  /-- Routing override or formation commit: only the routing section changes (R408). -/
  routing : Bool
  record : List Byte
  owner : Option (BitVec 12 × Nat × BitVec 16)
  /-- Units a group commit reaches on other devices refuse or miss later: the completion's count (R359). -/
  fencedUnits : List Uid
  applied : Bool
  /-- Device whose Warden forwarded it, and the units that other members report as not having applied it, by device (R359). -/
  source : Option Nat := none
  answers : List (Nat × List Uid) := []
deriving DecidableEq, Repr

structure Config where
  /-- Sets of each unit, newest first: active, previous, then older (R360). -/
  sets : Sparse (List ConfigSet)
  staging : List Staged
  pending : List PendingCommit
  /-- Largest epoch each unit has run (R358 check 3). -/
  highest : Sparse (BitVec 32)
  /-- Epochs the device unit held, newest first: the strike from which it held each (R54). -/
  epochs : List (Nat × BitVec 32)
  /-- Commits and reverts pending on other members of a job: device, strike, targets (R128). -/
  memberChanges : List (Nat × Nat × List Uid)
  /-- The row cache that overlapped Hearth memory or the Slag region at power-up runs with no bytes (R362). -/
  cacheOff : Bool
deriving DecidableEq, Repr

/-! ### Clients and rings (R344 to R352, R261) -/

structure Client where
  id : BitVec 12
  major : Nat
  minor : Nat
  pair : Nat
  lastStrike : Nat
deriving DecidableEq, Repr

/-- A request answered ACCEPTED whose completion is still to come. -/
structure Outstanding where
  client : BitVec 12
  tag : BitVec 16
  pair : Nat
  opcode : BitVec 8
  /-- VERSION of the response, which the completion carries again. -/
  version : BitVec 8
  target : Uid
deriving DecidableEq, Repr

/-- The doorbell registers of one ring pair and its event ring (R346). -/
structure RingPair where
  reqBase : Word
  reqLog2 : BitVec 4
  reqHead : BitVec 32
  reqTail : BitVec 32
  respBase : Word
  respLog2 : BitVec 4
  respHead : BitVec 32
  respTail : BitVec 32
  en : Bool
  evtBase : Word
  evtLog2 : BitVec 4
  evtHead : BitVec 32
  evtTail : BitVec 32
  evtEn : Bool
  evtUid : Uid
  evtDrops : BitVec 32
  evtSeq : Nat
  /-- TAIL values written and the strike of each write, oldest first (R347). -/
  arrivals : List (BitVec 32 × Nat)
deriving DecidableEq, Repr

def RingPair.reset : RingPair :=
  { reqBase := 0, reqLog2 := 0, reqHead := 0, reqTail := 0, respBase := 0, respLog2 := 0, respHead := 0, respTail := 0,
    en := false, evtBase := 0, evtLog2 := 0, evtHead := 0, evtTail := 0, evtEn := false, evtUid := 0, evtDrops := 0,
    evtSeq := 0, arrivals := [] }

structure Vmp where
  clients : List Client
  /-- Client IDs returned to the pool, and the first heat in which each may be handed out again (R351). -/
  retired : List (BitVec 12 × Nat)
  pairs : Sparse RingPair
  outstanding : List Outstanding
  /-- Requests that came over VMP queue pairs of the Spur ports, by rank (R344, R347): arrival strike and message. -/
  remote : Sparse (List (Nat × List Byte))
  accepted : Nat
deriving DecidableEq, Repr

/-! ### Plans (R110 to R128, R354) -/

inductive StrikeKind where
  | run | hold | replay
deriving DecidableEq, Repr

inductive JobPhase where
  | queued | running | ended
deriving DecidableEq, Repr

/-- Rows of a set that this member holds only through heavy broadcast (R152): the address and the bytes of its order keys, and the keys. -/
structure HeavySet where
  place : Nat
  len : Nat
  keys : List (Nat × Nat)
deriving DecidableEq, Repr


/-- What a finished engine leaves to be made visible at the end of the activity's occupancy (R111). -/
structure ActResult where
  status : BitVec 16
  elems : Nat
  saturated : Nat
  nans : Nat
  special : Nat
  words : List Nat
  used : Nat
  /-- Bytes to store: address and bytes. -/
  writes : List (Nat × List Byte)
  /-- Bytes handed to flows: flow index and bytes. -/
  flows : List (Nat × List Byte)
  block : Nat
  /-- Saturated elements and converted NaNs of the cores that read rows in their own windows (R87, R109). -/
  coreSat : List (Nat × Nat × Nat) := []
  /-- Rows of the stored sets that this member holds only through heavy broadcast. -/
  heavy : List HeavySet := []
deriving DecidableEq, Repr

/-- An activity in progress: start and last occupied strike, the guarding unit level (R124). -/
structure Activity where
  ref : ActRef
  uids : List Uid
  start : Nat
  last : Nat
  replay : Bool
  result : Option ActResult
deriving DecidableEq, Repr

/-- The stop a step status, cancel or timeout decides (R127): boundary strike, status, step. -/
structure Stop where
  boundary : Nat
  status : BitVec 16
  step : BitVec 32
deriving DecidableEq, Repr

/-- Ring entries of a repeat (R263): its record and repeat, the engine's stack, the ring, the first index, how many, and the offset of the repeat's end. -/
structure HeldEntries where
  record : Nat
  rep : Nat
  stack : Nat
  ring : Nat
  first : BitVec 32
  count : Nat
  stop : Nat
deriving DecidableEq, Repr

structure Job where
  num : Word
  client : BitVec 12
  pair : Nat
  tag : BitVec 16
  plan : List Byte
  /-- Where the plan's bytes lie in the plan region (R123): addresses and lengths. -/
  region : List (Nat × Nat)
  accepted : Nat
  deadline : Nat
  phase : JobPhase
  members : List Nat
  pos : Nat
  holdLead : Nat
  startStrike : Nat
  holdAtStart : Nat
  committed : Nat
  /-- The commits, newest first: heat boundary and offset committed (R125, R376). -/
  commits : List (Nat × Nat)
  /-- Strikes by which holds have moved the job's operator timeout (R48). -/
  moved : Nat
  holdStrikes : Nat
  stop : Option Stop
  endStatus : BitVec 16
  endStep : BitVec 32
  endRecord : BitVec 32
  endBlock : BitVec 32
  endOffset : Nat
  endedAt : Option Nat
  reports : Sparse EndReport
  /-- Strike in which the taking Warden last received a report. -/
  reportAt : Nat
  completed : Bool
  /-- Heat in which each member position reported that it finished the plan (R112). -/
  finished : Sparse Nat
  /-- By member position, the plans ahead of this one there, with the heat in which each was reported finished, or 0 (R112). -/
  ahead : Sparse (List (Word × Nat))
  acts : List Activity
  /-- Step results of the steps that ended, by step index, for the summed records (R354). -/
  results : Sparse StepReport
  /-- Bytes of each flow not yet sent, and bytes landed. -/
  flowOut : Sparse (List Byte)
  flowIn : Sparse (List Byte)
  /-- Peak range and care-mask usage of the plan on each die: (die, range, mask) (R163, R362). -/
  hardyPeak : List (Nat × Nat × Nat)
  /-- Ring entries taken and not yet released (R263). -/
  ringHeld : List HeldEntries
  /-- Records that a stream error has stopped on an engine: record, stack, error code (R265). -/
  streamFailed : List (Nat × Nat × Nat)
  /-- Bytes of the flows that start here not yet sent, as they stood at each checkpoint mark, newest first (R378). -/
  marks : List (Nat × Sparse (List Byte))
  /-- What each slot of a forwarded flow carried: the slot's place and the place of the frame (R378). -/
  carried : List (Nat × Nat)
  /-- Places of the rerun frames that have landed in the replay (R378). -/
  reruns : List Nat
  /-- Steps of the Swage jobs with staged lines whose second phase has begun (R103). -/
  inPlace : List Nat
deriving DecidableEq, Repr

structure HoldRecord where
  start : Nat
  strikes : Nat
  uid : Uid
  cause : Nat
deriving DecidableEq, Repr

structure Sequencer where
  strike : Word
  kind : StrikeKind
  nextKind : StrikeKind
  hold : Nat
  /-- The heat that runs has held a hold or replay strike (R126). -/
  heatHeld : Bool
  /-- The four latest holds, newest first (R353). -/
  holds : List HoldRecord
  jobs : List Job
deriving DecidableEq, Repr

/-! ### Quench (R366 to R385) -/

inductive QuenchPhase where
  | idle | lead | reset | prologue | sweep
deriving DecidableEq, Repr

structure Partition where
  uid : Uid
  cause : Nat
  detect : Nat
  raised : Nat
  origin : Nat
  restored : Option Nat
  missedBound : Bool
  retainMemory : Bool
  retainFabric : Bool
  /-- The VMP_RECOVER requests that wait for it: client, pair, tag, and the strike of the reset request. -/
  requesters : List (BitVec 12 × Nat × BitVec 16 × Nat)
  repeated : Bool
  /-- The reset has begun (R367, R370). -/
  begun : Bool
  /-- Activity that raised the fault. -/
  act : Option ActRef
deriving DecidableEq, Repr

structure Hold where
  job : Word
  first : Partition
  raise : Nat
  partitions : List Partition
  /-- First hold strike begun. -/
  holding : Bool
  holdOffset : Nat
  replayFrom : Option Nat
  prologueLeft : Nat
  sweepNext : Nat
  /-- The job must end when the partitions are restored: status (R383). -/
  ending : Option (BitVec 16)
deriving DecidableEq, Repr

structure Quench where
  samples : Nat
  phase : QuenchPhase
  hold : Option Hold
  outside : List Partition
  /-- Slag slots that Virian keeps through a reset that clears their tier: address and bytes (R373). -/
  kept : List (Nat × List Byte)
  lastUid : Uid
  lastCause : BitVec 8
  lastOutcome : BitVec 8
  lastDetect : Word
deriving DecidableEq, Repr

/-! ### Memory (R289 to R308) -/

/-- An entry of a checker log (R302, R303). -/
structure LogEntry where
  valid : Bool
  addr : Word
  inst : BitVec 16
  syndrome : BitVec 8
  count : BitVec 16
  injected : Bool
  kind : BitVec 2
  first : Word
  last : Word
deriving DecidableEq, Repr

def LogEntry.empty : LogEntry :=
  { valid := false, addr := 0, inst := 0, syndrome := 0, count := 0, injected := false, kind := 0, first := 0, last := 0 }

/-- STATE of MEMCHK.STATUS. -/
inductive CheckerState where
  | off | training | ready | selfRefresh | failed
deriving DecidableEq, Repr

structure Checker where
  state : CheckerState
  ceCount : BitVec 16
  overflow : BitVec 16
  repaired : BitVec 16
  remapFull : Bool
  exhausted : Bool
  log : List LogEntry
  instCe : Sparse (BitVec 16)
  flipAddr : Word
  flipLo : Word
  flipMask : BitVec 8
  flipArm : Bool
  pendingRows : List Nat
  /-- CEs seen, word and strike, for R305. -/
  recent : List (Nat × Nat)
  /-- Remaps installed: instance and word index. -/
  remaps : List (Nat × Nat)
  /-- Remaps that take effect at the end of the strike: instance, word index, word address, and whether after a UE (R305). -/
  dueRemaps : List (Nat × Nat × Nat × Bool)
deriving DecidableEq, Repr

def Checker.reset : Checker :=
  { state := .off, ceCount := 0, overflow := 0, repaired := 0, remapFull := false, exhausted := false,
    log := List.replicate 8 LogEntry.empty, instCe := [], flipAddr := 0, flipLo := 0, flipMask := 0, flipArm := false,
    pendingRows := [], recent := [], remaps := [], dueRemaps := [] }

/-- A merge buffer entry: word address, mask of the bytes held, the bytes (R299). -/
structure MergeEntry where
  addr : Nat
  mask : BitVec 8
  bytes : Word
deriving DecidableEq, Repr

/-- A range that a reset cleared, in a strike; of the near tier only the pages of one stack where it names one (R298). -/
structure ClearedRange where
  lo : Nat
  len : Nat
  stack : Option Nat
  strike : Nat
deriving DecidableEq, Repr

/-- (DEDUCED, unsafe: log entry 13.) -/
structure Mem where
  /-- Bytes by device address; an unlisted byte reads 0 (R297). -/
  cells : List Host.Cell
  /-- Syndrome of each word whose stored code is not clean, by word address / 8. -/
  synd : Sparse (BitVec 8)
  /-- Words written under a flip mask (R306). -/
  injected : List Nat
  /-- Merge entries, oldest first, by SRAM bank. -/
  merge : Sparse (List MergeEntry)
  /-- Checkers: 0 to 15 near tier, 16 to 31 far tier, 32 to 35 hubs. -/
  checkers : Sparse Checker
  /-- Ranges cleared by resets, and under R290, since power-up: each with its latest clearing (R298). -/
  cleared : List ClearedRange
  /-- Lowest failing word of the latest access that met a bus error (R307, R308). -/
  badWord : Option Nat
  /-- Local unit that owns the SRAM outside the address map in which the latest access met an uncorrectable word (R172, R308). -/
  badUnit : Option Nat
deriving DecidableEq, Repr

/-! ### Engines -/

/-- One Hardy entry (R164): fields 1 and 2 and the TAG of the search copy with its parity bits, one for each 16 bits of a field; the shadow
copy of the three fields with the check bits of its words, 8 each. -/
structure HardyEntry where
  f1 : Nat
  f2 : Nat
  tag : Nat
  parity : Nat
  sh1 : Nat
  sh2 : Nat
  shTag : Nat
  check : Nat
deriving DecidableEq, Repr

/-- A Hardy table of a die (R162): its number, the opcode that fixes its kind, its LOAD step, and its blocks. -/
structure HardyTable where
  htab : Nat
  kind : Nat
  loadStep : Nat
  blocks : List (List HardyEntry)
deriving DecidableEq, Repr

structure HardyUnit where
  /-- Plan step at which the latest Hardy activity started. -/
  step : BitVec 32
  tables : List HardyTable
  temp : BitVec 16
  rate : BitVec 2
  /-- The rate that applies from the next strike (R180). -/
  nextRate : BitVec 2
  /-- Strike of the last sample taken (R180). -/
  sampledAt : Option Nat
  lastFixStep : BitVec 32
  lastFixCause : BitVec 2
  lastFixHtab : BitVec 4
  lastFixPos : BitVec 14
deriving DecidableEq, Repr

structure Engine where
  /-- Plan step at which the latest activity started; busy is derived from the activities. -/
  step : BitVec 32
  errA : BitVec 32
  errB : BitVec 32
  errCode : BitVec 4
deriving DecidableEq, Repr

def Engine.reset : Engine := { step := 0, errA := 0, errB := 0, errCode := 0 }

/-- A stream ring of a Bellows engine: HEAD and TAIL, and the arrivals (R260 to R264). -/
structure StreamRing where
  head : BitVec 32
  tail : BitVec 32
  arrivals : List (BitVec 32 × Nat)
  /-- Index after the last entry of each repeat that has timed out (R263, R51). -/
  late : List (BitVec 32)
deriving DecidableEq, Repr

/-- An exact accumulator (R74): A, the element count and the flags. The eight short and the long one of a core are working storage of one
step, whose partial records are combined exactly (R76); no step leaves a value in them that another can read (R199). (DEDUCED, safe: log entry 15.) -/
structure Accumulator where
  value : Int
  count : Nat
  nanSeen : Bool
  posInf : Bool
  negInf : Bool
deriving DecidableEq, Repr

/-- A curve of the device's curve store (R195 to R199), and whether a deletion waits for the plans that pin it. -/
structure Curve where
  id : Nat
  image : List Byte
  deleting : Bool
deriving DecidableEq, Repr

/-- A join table (R153): the rows inserted, by order key and key. -/
structure JoinTable where
  jtab : Nat
  job : Word
  step : Nat
  rows : List (Nat × List (List Nat))
deriving DecidableEq, Repr

inductive VersionState where
  | loading | loaded | active | retired
deriving DecidableEq, Repr

/-- A redirect entry of a row moved from its home (R239, R240). -/
structure Redirect where
  row : Nat
  member : Nat
  addr : Word
deriving DecidableEq, Repr

/-- A migration in progress (R240): its rows and their old slots, group positions of the owners, the new slots, the cut-over strike. -/
structure Migration where
  rows : List Nat
  old : List Nat
  src : Nat
  dst : Nat
  addr : Nat
  cutover : Nat
  installed : Bool
  endSent : Bool
  endReceived : Bool
  /-- Rows of which the new owner holds an image. -/
  held : List Nat
  /-- Records that wait at the new owner for END: their engine, and the strike from which they wait. -/
  waits : List (Nat × Nat)
  owner : Option (BitVec 12 × Nat × BitVec 16)
deriving DecidableEq, Repr

/-- An accepted activation: its strike, and the request that waits for it. -/
structure TableActivation where
  strike : Nat
  owner : Option (BitVec 12 × Nat × BitVec 16)
deriving DecidableEq, Repr

structure TableVersion where
  number : Nat
  state : VersionState
  nearBase : Word
  farBase : Word
  nearSlots : Nat
  damaged : Bool
  /-- Generation (R231). -/
  gen : Nat
  activation : Option TableActivation
  /-- First issue strikes that find the version ACTIVE, and RETIRED (R222). -/
  activeFrom : Option Nat
  retiredAt : Option Nat
  redirects : List Redirect
  migration : Option Migration
  /-- The request that a LOADING version answers once it is LOADED (R221, R224): its pair and message. -/
  loadReq : Option (Nat × List Byte)
  /-- Records that the old owner of migrated rows forwarded (R240): request records as (issue strike, row, bag), and gradient records. -/
  forwarded : List (Nat × Nat × Nat)
  forwardedGrads : List (Nat × GradRec)
deriving DecidableEq, Repr

structure EmbTable where
  id : Nat
  group : Uid
  body : List Byte
  versions : List TableVersion
  lastVersion : Nat
deriving DecidableEq, Repr

/-- A way or ghost tag of the row cache (R230): TABLE_ID, VERSION, ROW, GEN, and the 8-bit counter. -/
structure CacheTag where
  key : Option (Nat × Nat × Nat × Nat)
  count : Nat
deriving DecidableEq, Repr

structure CacheSet where
  ways : List CacheTag
  ghosts : List CacheTag
deriving DecidableEq, Repr

def CacheSet.empty : CacheSet :=
  { ways := List.replicate 16 { key := none, count := 0 }, ghosts := List.replicate 16 { key := none, count := 0 } }

structure Tongs where
  step : BitVec 32
  loadHeat : BitVec 32
  loadRecords : BitVec 32
  hotRow : Word
  hotTable : BitVec 32
  hotCount : BitVec 32
  /-- Records served in the running heat. -/
  current : Nat
  /-- Accesses of the running heat by (table, row). -/
  access : List (Nat × Nat × Nat)
  /-- Accesses of the last completed heat. -/
  lastAccess : List (Nat × Nat × Nat)
deriving DecidableEq, Repr

structure Engines where
  bellows : Sparse Engine
  crucible : Sparse Engine
  swage : Sparse Engine
  hardy : Sparse HardyUnit
  tongs : Sparse Tongs
  rings : Sparse StreamRing
  curves : List Curve
  joins : List JoinTable
  heavy : List HeavySet
  tables : List EmbTable
  /-- Row cache tags by set (R230). -/
  cache : Sparse CacheSet
  /-- Records that this member served in each of the last 8 heats, the newest first (R238). -/
  tongsHeats : List Nat
deriving DecidableEq, Repr

/-! ### Links (R311 to R343) -/

inductive LaneState where
  | down | training | up | disabled
deriving DecidableEq, Repr

inductive PortState where
  | down | training | negotiating | identity | up | refused | disabled
deriving DecidableEq, Repr

inductive RefuseCode where
  | none | linkVersion | miswired | identity
deriving DecidableEq, Repr

/-- A frame kept for re-sending, and its NAK (R320, R321). -/
structure SentFrame where
  seq : BitVec 32
  /-- The strikes from the port's coming UP to its sending (R320, R322). -/
  strike : Nat
  data : List Byte
  /-- The strike in which a NAK of it decoded, until it is sent again (R321). -/
  naked : Option Nat
  /-- The control messages that it carries (R322). -/
  ctl : List CtlMsg
deriving DecidableEq, Repr

structure WeldPort where
  lanes : List LaneState
  state : PortState
  refuse : RefuseCode
  /-- Measured one-way delay of a Spur port in WELD mode, in ps; a torus port's stands in HOP_DELAY (R319). -/
  delayPs : Nat
  bypassClosed : Bool
  peerDigest : BitVec 48
  peerPort : BitVec 3
  peerDevice : BitVec 12
  peerMajors : BitVec 16
  major : BitVec 8
  minor : BitVec 8
  fecCorr : Word
  /-- FEC symbols corrected on each lane since the last metric report (R419). -/
  fecLane : List Nat
  framesBad : Word
  resends : Word
  /-- Strikes since the port came UP (R320), and the strikes that a frame of the peer takes to arrive, by the last one decoded. -/
  age : Nat
  flight : Nat
  sent : List SentFrame
  /-- Received and not resolved: bad SEQs; frames that decoded and wait to land: lane, data. -/
  badSeqs : List (BitVec 32)
  highest : BitVec 32
  waiting : List (Nat × List Byte)
  badInHeat : List Nat
  outgoing : List CtlMsg
  /-- Heat boundary from which each lane carries plan slots again (R327). -/
  planFrom : List Nat
  /-- Bad frames of flows that await a re-send: SEQ, and the place of the frame in its flow (R321). -/
  holes : List (BitVec 32 × Nat)
  /-- The training step that each lane in TRAINING runs (R324). -/
  steps : List Nat
  /-- The signature over the peer's nonce that the port's TRAIN frames carry once the versions are settled (R326). -/
  signature : Option (List Byte)
deriving DecidableEq, Repr

def WeldPort.reset (spur : Bool) : WeldPort :=
  { lanes := List.replicate 8 .down, state := .down, refuse := .none, delayPs := 0, bypassClosed := !spur,
    peerDigest := 0, peerPort := 0, peerDevice := 0xFFF, peerMajors := 0, major := 0, minor := 0, fecCorr := 0, fecLane := List.replicate 8 0,
    framesBad := 0, resends := 0, age := 0, flight := 0, sent := [], badSeqs := [], highest := 0, waiting := [], badInHeat := [],
    outgoing := [], planFrom := List.replicate 8 0, holes := [], steps := List.replicate 8 0, signature := none }

inductive QpState where
  | reset | init | rtr | rts | error
deriving DecidableEq, Repr

/-- A work entry the port has issued and not completed (R335 to R338). -/
structure Inflight where
  index : BitVec 32
  /-- The work entry as read from the ring. -/
  entry : List Byte
  len : Nat
  deadline : Nat
  retries : Nat
  rnr : Nat
  /-- Timed out (R51): a completion that still comes is discarded. -/
  cancelled : Bool
  /-- First sequential position of its data in the INGEST repeat that issued it (R340). -/
  place : Nat
deriving DecidableEq, Repr

structure QueuePair where
  state : QpState
  /-- The 128-byte context as loaded (R337). -/
  ctx : List Byte
  tail : BitVec 32
  arrivals : List (BitVec 32 × Nat)
  head : BitVec 32
  inflight : List Inflight
  sqPsn : BitVec 24
  rqPsn : BitVec 24
  /-- Rate as a right shift of the line rate (R335). -/
  rateShift : Nat
  cnpStrike : Nat
  cnpSent : Option Nat
  msn : BitVec 24
  /-- Commands that a PLAN queue pair has issued for an INGEST repeat (R340): record, repeat, its start, commands, bytes. -/
  issued : Option (Nat × Nat × Nat × Nat × Nat)
  /-- Read data that has arrived for that repeat, by its first sequential position (R259, R340). -/
  data : Sparse (List Byte)
  /-- NVMe: the controller's queue that a Connect has made of this queue pair, 0 the admin queue (R336). -/
  nvQid : Option Nat
deriving DecidableEq, Repr

def QueuePair.reset : QueuePair :=
  { state := .reset, ctx := List.replicate 128 0, tail := 0, arrivals := [], head := 0, inflight := [], sqPsn := 0,
    rqPsn := 0, rateShift := 0, cnpStrike := 0, cnpSent := none, msn := 0, issued := none, data := [], nvQid := none }

structure CompQueue where
  head : BitVec 32
  tail : BitVec 32
deriving DecidableEq, Repr

/-- A memory region a peer may read or write (R335). (DEDUCED, unsafe: log entry 76.) -/
structure Region where
  rkey : Nat
  base : Word
  len : Nat
  writable : Bool
deriving DecidableEq, Repr

structure SpurPort where
  ctxBase : Word
  linkUp : Bool
  paused : Byte
  drops : BitVec 32
  mode : BitVec 2
  retrainFrom : Option (BitVec 2)
  qps : Sparse QueuePair
  cqs : Sparse CompQueue
  regions : List Region
deriving DecidableEq, Repr

def SpurPort.reset : SpurPort :=
  { ctxBase := 0, linkUp := false, paused := 0, drops := 0, mode := 0, retrainFrom := none, qps := [], cqs := [],
    regions := [] }

structure Links where
  ports : List WeldPort
  spur : List SpurPort
  /-- Routing banks A and B, identical in all hubs (R329), active bank and its epoch. -/
  bankA : Sparse (BitVec 32)
  bankB : Sparse (BitVec 32)
  bank : Bool
  bankEpoch : BitVec 32
  ctlSeq : Nat
  /-- Heats in a row the device unit has been fenced (R313), and bypass closures commanded. -/
  fencedHeats : Nat
  /-- Heat in which control traffic last arrived, by device (R366). -/
  lastTraffic : Sparse Nat
deriving DecidableEq, Repr

/-! ### Thermal and management (R413 to R426) -/

structure Thermal where
  temps : List (BitVec 16)
  stopped : List Bool
  sampled : Bool
  inlet : BitVec 16
  outlet : BitVec 16
  arrayRate : BitVec 2
  pendingRate : BitVec 2
  /-- Heat boundary from which whole heats of 90 degrees or less count (R423). -/
  coolFrom : Nat
  periodMax : List (BitVec 16)
  vin : BitVec 16
  iin : BitVec 16
  pin : BitVec 16
  /-- Power of each regulator step, as last sampled (R416, R419). -/
  stepPower : List Nat
deriving DecidableEq, Repr

structure Management where
  ipv4 : Nat
  linkLocal : Bool
  ipv6Prefix : Nat
  /-- EventService subscribers and console sessions. -/
  subscribers : Nat
  consoles : Nat
  lastReport : Option (Nat × List (BitVec 16))
  /-- SPDM connection: GET_VERSION done, capabilities exchanged, algorithms agreed (R399). -/
  spdmVersion : Bool
  spdmCaps : Bool
  spdmAlgs : Bool
deriving DecidableEq, Repr

/-! ### What the device sends -/

inductive Output where
  | hearthFault (addr : Word)
  | hearthData (bytes : List Byte)
  | registerValue (value : Word)
  | vmpRemote (port qp : Nat) (message : List Byte)
  | http (status : Nat) (body : List Byte)
  | control (port : Nat) (m : CtlMsg)
  | frame (port lane : Nat) (data : List Byte)
  | spurFrame (port qp opcode : Nat) (addr : Word) (rkey imm : Nat) (bytes : List Byte)
  | nvme (port qp opcode : Nat) (args : List Nat)
  | roceReply (port qp : Nat) (ok : Bool) (syndrome : Nat) (bytes : List Byte)
  | cnp (port qp : Nat)
  | ethReply (port : Nat) (kind : Nat) (bytes : List Byte)
  | mgmtReply (kind : Nat) (bytes : List Byte)
  | spdm (code : Nat) (bytes : List Byte)
  | syncOut (widthNs : Nat)
  | rails (on : Bool) (steps : List Nat)
  | bypass (closed : Bool)
  | redfishEvent (name : String) (bytes : List Byte)
  | metric (heat : Nat) (temps maxima : List (BitVec 16)) (power : List Nat) (rates : List Nat) (lanes : List (Nat × Nat × Int)) (maxOffset : Nat)
      (counters : List Word)
  | console
  | image (port : Nat) (bytes : List Byte)
deriving DecidableEq, Repr

/-- The whole device. (DESIGN CHOICE, safe: log entry 1.) -/
structure State where
  power : Power
  boot : Boot
  ident : Identity
  units : Units
  tb : Timebase
  form : Formation
  cfg : Config
  vmp : Vmp
  seq : Sequencer
  quench : Quench
  mem : Mem
  eng : Engines
  links : Links
  therm : Thermal
  mgmt : Management
  out : List Output
  /-- The model's own field: how many free values have been drawn. -/
  free : Nat
  /-- Commands waiting, first in first out. -/
  pending : List Instr
deriving DecidableEq, Repr

def Power.reset : Power := { state := .absent, attempts := 0, powerGood := false, presentLow := false }

/-- (DESIGN CHOICE, unsafe: log entry 12.) -/
def Boot.reset : Boot :=
  { phase := .off, failedStep := 0, flashImage := [], running := [], staged := none, activation := none, svnFloor := 0, oldCopy := [],
    source := none, arriving := [], xPairOpen := false, chain := [], ownerRecord := [], storedMap := [], persistent := [], pendingRows := [] }

def Identity.reset : Identity := { key := [], digest := 0, failed := false, meas := List.replicate 6 0, signatures := 0 }

def Timebase.reset : Timebase :=
  { role := .none, lock := .unlocked, refLocked := false, ppsQualified := false, classBit := false, hops := 0x1F,
    masterDigest := 0, masterClass := false, masterDevice := 0, offset := 0, ppsDelay := 0, strike0Unix := 0,
    hopDelay := List.replicate 6 0, hopApplied := List.replicate 6 0, goodMarks := 0, badMarks := 0, masterHoldover := false, parent := none,
    neighbourLocked := List.replicate 6 false, neighbourHops := List.replicate 6 0, recalHeats := List.replicate 6 0,
    holdoverHeats := 0, heartbeatHeat := 0, best := none, pendings := [], electionOver := false,
    announced := none, slotNumber := List.replicate 6 none, strikeDefined := false, maxOffset := 0 }

def Formation.reset : Formation :=
  { map := [], mapVersion := 0, mapDigest := 0, dx := 1, dy := 1, dz := 1, device := 0, listed := true, devState := [],
    portsUp := [], devEpoch := [], highestEpoch := 0, formationCommitted := false, ready := false, trained := false,
    farGib := 0, lateJoiner := false, nextMap := [] }

def Config.reset : Config := { sets := [], staging := [], pending := [], highest := [], epochs := [], memberChanges := [], cacheOff := false }

def Vmp.reset : Vmp := { clients := [], retired := [], pairs := [], outstanding := [], remote := [], accepted := 0 }

def Sequencer.reset : Sequencer := { strike := 0, kind := .run, nextKind := .run, hold := 0, heatHeld := false, holds := [], jobs := [] }

def Quench.reset : Quench :=
  { samples := 0, phase := .idle, hold := none, outside := [], kept := [], lastUid := 0, lastCause := 0, lastOutcome := 0,
    lastDetect := 0 }

def Mem.reset : Mem := { cells := [], synd := [], injected := [], merge := [], checkers := [], cleared := [], badWord := none, badUnit := none }

def HardyUnit.reset : HardyUnit :=
  { step := 0, tables := [], temp := 0, rate := 0, nextRate := 0, sampledAt := none, lastFixStep := 0, lastFixCause := 0, lastFixHtab := 0, lastFixPos := 0 }

def Tongs.reset : Tongs :=
  { step := 0, loadHeat := 0, loadRecords := 0, hotRow := 0, hotTable := 0, hotCount := 0, current := 0,
    access := [], lastAccess := [] }

def StreamRing.reset : StreamRing := { head := 0, tail := 0, arrivals := [], late := [] }

def Accumulator.zero : Accumulator := { value := 0, count := 0, nanSeen := false, posInf := false, negInf := false }

def Engines.reset : Engines :=
  { bellows := [], crucible := [], swage := [], hardy := [], tongs := [], rings := [], curves := [],
    joins := [], heavy := [], tables := [], cache := [], tongsHeats := [] }

/-- (DESIGN CHOICE, unsafe: log entry 12.) -/
def Links.reset : Links :=
  { ports := List.replicate 6 (WeldPort.reset false) ++ List.replicate 2 (WeldPort.reset true),
    spur := List.replicate 2 SpurPort.reset, bankA := [], bankB := [], bank := false, bankEpoch := 0, ctlSeq := 0,
    fencedHeats := 0, lastTraffic := [] }

/-- (DESIGN CHOICE, unsafe: log entry 12.) -/
def Thermal.reset : Thermal :=
  { temps := List.replicate 116 0, stopped := List.replicate 116 false, sampled := false, inlet := 0, outlet := 0,
    arrayRate := 0, pendingRate := 0, coolFrom := 0, periodMax := List.replicate 116 0, vin := 0, iin := 0, pin := 0, stepPower := [] }

def Management.reset : Management :=
  { ipv4 := 0, linkLocal := false, ipv6Prefix := 0, subscribers := 0, consoles := 0, lastReport := none,
    spdmVersion := false, spdmCaps := false, spdmAlgs := false }

/-- The device before its 48 V input becomes valid (R386, R388). (DEDUCED, unsafe: log entry 3.) (DESIGN CHOICE, unsafe: log entry 12.) -/
def State.reset : State :=
  { power := Power.reset, boot := Boot.reset, ident := Identity.reset, units := { pages := [], reflected := [], groupClears := [], events := [], setAt := [] },
    tb := Timebase.reset, form := Formation.reset, cfg := Config.reset, vmp := Vmp.reset, seq := Sequencer.reset,
    quench := Quench.reset, mem := Mem.reset, eng := Engines.reset, links := Links.reset, therm := Thermal.reset,
    mgmt := Management.reset, out := [], free := 0, pending := [] }

end Sys2Proof.Machine
end

