-- ==== Sys2Proof/Machine/Bytes.lean ====
section
/-!
DEFINITION. Byte strings and bit fields (R4): little-endian numbers, slices, and the sparse maps in canonical form.
-/
namespace Sys2Proof.Machine

/-- Little-endian value of a byte list (R4). -/
def leNat : List Byte → Nat
  | [] => 0
  | b :: bs => b.toNat + 256 * leNat bs

/-- The n low bytes of v, least significant first. -/
def leBytes : Nat → Nat → List Byte
  | 0, _ => []
  | n + 1, v => BitVec.ofNat 8 v :: leBytes n (v / 256)

/-- Bytes most significant first, for the fields of outside standards. -/
def beBytes (n v : Nat) : List Byte := (leBytes n v).reverse

def beNat (bs : List Byte) : Nat := leNat bs.reverse

/-- n bytes from offset o, zero beyond the end. -/
def slice (bs : List Byte) (o n : Nat) : List Byte :=
  let t := (bs.drop o).take n
  t ++ List.replicate (n - t.length) 0

/-- Field of n bytes at offset o. -/
def fieldN (bs : List Byte) (o n : Nat) : Nat := leNat (slice bs o n)

def byteAt (bs : List Byte) (o : Nat) : Nat := (bs.getD o 0).toNat

/-- All bytes from o to o + n − 1 are zero. -/
def zeroRange (bs : List Byte) (o n : Nat) : Bool := (slice bs o n).all (· == 0)

/-- Replace the bytes at offset o. -/
def splice (bs : List Byte) (o : Nat) (v : List Byte) : List Byte :=
  let base := bs ++ List.replicate (o + v.length - bs.length) 0
  base.take o ++ v ++ base.drop (o + v.length)

/-- Bits [hi:lo] of a number. -/
def bits (n hi lo : Nat) : Nat := n / 2 ^ lo % 2 ^ (hi + 1 - lo)

def bit (n i : Nat) : Bool := n / 2 ^ i % 2 == 1

def boolNat (b : Bool) : Nat := if b then 1 else 0

/-- Round up to a multiple of m. -/
def roundUp (n m : Nat) : Nat := ceilDiv n m * m

/-- Least non-negative n with 2^n ≥ v. -/
def clog2 (v : Nat) : Nat := if v ≤ 1 then 0 else Nat.log2 (v - 1) + 1

/-- Signed value of a w-bit pattern. -/
def sint (w n : Nat) : Int := if n % 2 ^ w < 2 ^ (w - 1) then (n % 2 ^ w : Nat) else (n % 2 ^ w : Nat) - (2 ^ w : Nat)

/-- The w-bit pattern of an integer. -/
def wrapInt (w : Nat) (i : Int) : Nat := (i % (2 ^ w : Nat)).toNat

/-! ### Sparse maps -/

/-- The value at k, d when k is not listed. -/
def sparseGet {α : Type} (d : α) (k : Nat) : Sparse α → α
  | [] => d
  | (k', v) :: l => if k' = k then v else sparseGet d k l

/-- Remove k. -/
def sparseErase {α : Type} (k : Nat) : Sparse α → Sparse α
  | [] => []
  | (k', v) :: l => if k' = k then l else if k < k' then (k', v) :: l else (k', v) :: sparseErase k l

/-- Insert or replace at k, keys kept rising. -/
def sparsePut {α : Type} (k : Nat) (v : α) : Sparse α → Sparse α
  | [] => [(k, v)]
  | (k', w) :: l =>
    if k' = k then (k, v) :: l else if k < k' then (k, v) :: (k', w) :: l else (k', w) :: sparsePut k v l

/-- Write v at k; the default is never listed. -/
def sparseSet {α : Type} [DecidableEq α] (d : α) (k : Nat) (v : α) (l : Sparse α) : Sparse α :=
  if v = d then sparseErase k l else sparsePut k v l

/-- Keys strictly rise and no entry equals the default. -/
def sparseWf {α : Type} [DecidableEq α] (d : α) : Sparse α → Bool
  | [] => true
  | [(_, v)] => v ≠ d
  | (k, v) :: (k', w) :: l => v ≠ d && decide (k < k') && sparseWf d ((k', w) :: l)

/-- Replace element i of a list. -/
def listSet {α : Type} (l : List α) (i : Nat) (v : α) : List α := l.set i v

/-- Change element i of a list. -/
def listModify {α : Type} (l : List α) (i : Nat) (f : α → α) : List α :=
  match l[i]? with
  | some v => l.set i (f v)
  | none => l

/-- Sum of a list of numbers. -/
def sumNat (l : List Nat) : Nat := l.foldl (· + ·) 0

def maxNat (l : List Nat) : Nat := l.foldl Nat.max 0

/-- Least element, none of an empty list. -/
def minNat? : List Nat → Option Nat
  | [] => none
  | x :: xs => some (xs.foldl Nat.min x)

/-- Stable insertion sort by a strict order. -/
def insertBy {α : Type} (lt : α → α → Bool) (x : α) : List α → List α
  | [] => [x]
  | y :: ys => if lt x y then x :: y :: ys else y :: insertBy lt x ys

def sortBy {α : Type} (lt : α → α → Bool) (l : List α) : List α := l.foldl (fun acc x => insertBy lt x acc) []

/-- Remove repeats, keeping first occurrences. -/
def dedupNat (l : List Nat) : List Nat := l.foldl (fun acc x => if acc.contains x then acc else acc ++ [x]) []

/-- ASCII bytes of a string. -/
def ascii (s : String) : List Byte := s.toList.map (fun c => BitVec.ofNat 8 c.toNat)

end Sys2Proof.Machine
end

