-- ==== Sys2Proof/Machine/Hash.lean ====
section
/-!
DEFINITION. The digests and check codes: SHA-384 (FIPS 180-4, the digest the manual names in R32, R357, R391, R400; its text is
an outside standard, assumption 7), CRC-32C with the batch header's parameters (R158), CRC-64 (R317) and RS(195,177) (R317).
-/
namespace Sys2Proof.Machine

/-- Round constants 0 to 39 of SHA-384. -/
def shaKA : List Word :=
  [0x428A2F98D728AE22, 0x7137449123EF65CD, 0xB5C0FBCFEC4D3B2F, 0xE9B5DBA58189DBBC,
   0x3956C25BF348B538, 0x59F111F1B605D019, 0x923F82A4AF194F9B, 0xAB1C5ED5DA6D8118,
   0xD807AA98A3030242, 0x12835B0145706FBE, 0x243185BE4EE4B28C, 0x550C7DC3D5FFB4E2,
   0x72BE5D74F27B896F, 0x80DEB1FE3B1696B1, 0x9BDC06A725C71235, 0xC19BF174CF692694,
   0xE49B69C19EF14AD2, 0xEFBE4786384F25E3, 0x0FC19DC68B8CD5B5, 0x240CA1CC77AC9C65,
   0x2DE92C6F592B0275, 0x4A7484AA6EA6E483, 0x5CB0A9DCBD41FBD4, 0x76F988DA831153B5,
   0x983E5152EE66DFAB, 0xA831C66D2DB43210, 0xB00327C898FB213F, 0xBF597FC7BEEF0EE4,
   0xC6E00BF33DA88FC2, 0xD5A79147930AA725, 0x06CA6351E003826F, 0x142929670A0E6E70,
   0x27B70A8546D22FFC, 0x2E1B21385C26C926, 0x4D2C6DFC5AC42AED, 0x53380D139D95B3DF,
   0x650A73548BAF63DE, 0x766A0ABB3C77B2A8, 0x81C2C92E47EDAEE6, 0x92722C851482353B]

/-- Round constants 40 to 79 of SHA-384. -/
def shaKB : List Word :=
  [0xA2BFE8A14CF10364, 0xA81A664BBC423001, 0xC24B8B70D0F89791, 0xC76C51A30654BE30,
   0xD192E819D6EF5218, 0xD69906245565A910, 0xF40E35855771202A, 0x106AA07032BBD1B8,
   0x19A4C116B8D2D0C8, 0x1E376C085141AB53, 0x2748774CDF8EEB99, 0x34B0BCB5E19B48A8,
   0x391C0CB3C5C95A63, 0x4ED8AA4AE3418ACB, 0x5B9CCA4F7763E373, 0x682E6FF3D6B2B8A3,
   0x748F82EE5DEFB2FC, 0x78A5636F43172F60, 0x84C87814A1F0AB72, 0x8CC702081A6439EC,
   0x90BEFFFA23631E28, 0xA4506CEBDE82BDE9, 0xBEF9A3F7B2C67915, 0xC67178F2E372532B,
   0xCA273ECEEA26619C, 0xD186B8C721C0C207, 0xEADA7DD6CDE0EB1E, 0xF57D4F7FEE6ED178,
   0x06F067AA72176FBA, 0x0A637DC5A2C898A6, 0x113F9804BEF90DAE, 0x1B710B35131C471B,
   0x28DB77F523047D84, 0x32CAAB7B40C72493, 0x3C9EBE0A15C9BEBC, 0x431D67C49C100D4C,
   0x4CC5D4BECB3E42B6, 0x597F299CFC657E2A, 0x5FCB6FAB3AD6FAEC, 0x6C44198C4A475817]

/-- Initial hash value of SHA-384. -/
def shaInit : List Word :=
  [0xCBBB9D5DC1059ED8, 0x629A292A367CD507, 0x9159015A3070DD17, 0x152FECD8F70E5939,
   0x67332667FFC00B31, 0x8EB44A8768581511, 0xDB0C2E0D64F98FA7, 0x47B5481DBEFA4FA4]

def rotr64 (x : Word) (n : Nat) : Word := (x >>> n) ||| (x <<< (64 - n))

/-- Message schedule: the next word from the last sixteen, newest first. -/
def shaNext (w : List Word) : Word :=
  let g (i : Nat) : Word := w.getD i 0
  let w15 := g 14
  let w2 := g 1
  g 15 + (rotr64 w15 1 ^^^ rotr64 w15 8 ^^^ (w15 >>> 7)) + g 6 + (rotr64 w2 19 ^^^ rotr64 w2 61 ^^^ (w2 >>> 6))

/-- One round on the eight working variables. -/
def shaRound (v : List Word) (k w : Word) : List Word :=
  match v with
  | [a, b, c, d, e, f, g, h] =>
    let t1 := h + (rotr64 e 14 ^^^ rotr64 e 18 ^^^ rotr64 e 41) + ((e &&& f) ^^^ (~~~e &&& g)) + k + w
    let t2 := (rotr64 a 28 ^^^ rotr64 a 34 ^^^ rotr64 a 39) + ((a &&& b) ^^^ (a &&& c) ^^^ (b &&& c))
    [t1 + t2, a, b, c, d + t1, e, f, g]
  | _ => v

/-- Rounds over the constants: the first sixteen words come from the block, the rest from the schedule. -/
def shaRounds : List Word → List Word → List Word → List Word → List Word
  | [], _, _, v => v
  | k :: ks, w :: ws, hist, v => shaRounds ks ws (w :: hist) (shaRound v k w)
  | k :: ks, [], hist, v =>
    let w := shaNext hist
    shaRounds ks [] ((w :: hist).take 16) (shaRound v k w)

def shaBlock (h : List Word) (ws : List Word) : List Word :=
  (h.zip (shaRounds (shaKA ++ shaKB) ws [] h)).map (fun p => p.1 + p.2)

/-- The 128-byte blocks of a byte list, as sixteen words each. -/
def shaBlocks : Nat → List Byte → List (List Word)
  | 0, _ => []
  | n + 1, bs =>
    ((List.range 16).map (fun i => BitVec.ofNat 64 (beNat (slice bs (8 * i) 8)))) :: shaBlocks n (bs.drop 128)

/-- SHA-384 of a byte string. (PRESUMED, unsafe: log entry 7.) -/
def sha384 (m : List Byte) : Digest :=
  let z := (112 + 128 - (m.length + 1) % 128) % 128
  let p := m ++ [0x80] ++ List.replicate z 0 ++ beBytes 16 (8 * m.length)
  let h := (shaBlocks (p.length / 128) p).foldl shaBlock shaInit
  BitVec.ofNat 384 ((h.take 6).foldl (fun acc w => acc * 2 ^ 64 + w.toNat) 0)

/-- The 48 bytes of a digest, first byte the most significant (R32). -/
def digestBytes (d : Digest) : List Byte := beBytes 48 d.toNat

/-- ID16: bytes 0 to 15 (R395). -/
def id16 (d : Digest) : List Byte := (digestBytes d).take 16

/-- One bit step of the reflected CRC-32C. -/
def crc32cBit (c : BitVec 32) : BitVec 32 := if c.getLsbD 0 then (c >>> 1) ^^^ 0x82F63B78 else c >>> 1

def crc32cByte (c : BitVec 32) (b : Byte) : BitVec 32 :=
  crc32cBit (crc32cBit (crc32cBit (crc32cBit (crc32cBit (crc32cBit (crc32cBit (crc32cBit (c ^^^ b.setWidth 32))))))))

/-- CRC-32C: reflected, initial value and final XOR all ones (R158). -/
def crc32c (bs : List Byte) : BitVec 32 := ~~~ (bs.foldl crc32cByte 0xFFFFFFFF)

def crc64Bit (c : Word) : Word := if c.getLsbD 63 then (c <<< 1) ^^^ 0x42F0E1EBA9EA3693 else c <<< 1

def crc64Byte (c : Word) (b : Byte) : Word :=
  crc64Bit (crc64Bit (crc64Bit (crc64Bit (crc64Bit (crc64Bit (crc64Bit (crc64Bit (c ^^^ ((b.setWidth 64) <<< 56)))))))))

/-- CRC-64 of a frame (R317). -/
def crc64 (bs : List Byte) : Word := ~~~ (bs.foldl crc64Byte neverWord)

/-! ### Seeded hashes (R137) -/

/-- The single-word primitive of R79 and R137. -/
def hf0 (x k1 k2 : Word) : Word :=
  let h := x ^^^ k1
  let h1 := (h ^^^ (h >>> 31)) * 0xA3B195D47C2E6F0B
  let h2 := (h1 ^^^ (h1 >>> 27) ^^^ k2) * 0xC4F12B87E59D3A61
  h2 ^^^ (h2 >>> 33)

def hashHf0 (ws : List Word) (k1 k2 : Word) : Word :=
  hf0 (BitVec.ofNat 64 ws.length) k1 (ws.foldl (fun h w => hf0 w k1 h) k2)

/-- One table step of HF1 with a table lookup. -/
def hf1Step (t : Nat → Word) (c : Word) (b : Byte) : Word := (c <<< 8) ^^^ t ((c >>> 56).toNat ^^^ b.toNat)

/-- Entry i of the default HF1 table (ECMA-182). -/
def hf1Default (i : Nat) : Word :=
  crc64Bit (crc64Bit (crc64Bit (crc64Bit (crc64Bit (crc64Bit (crc64Bit (crc64Bit (BitVec.ofNat 64 (i % 256) <<< 56))))))))

def hashHf1 (t : Nat → Word) (ws : List Word) (k1 k2 : Word) : Word :=
  ((ws ++ [BitVec.ofNat 64 ws.length]).flatMap (fun w => leBytes 8 w.toNat)).foldl (hf1Step t) k1 ^^^ k2

/-- HF2's generated tables, applied to a word. -/
def hf2Tab (k1 x : Word) : Word :=
  ((List.range 8).map (fun j =>
    hf0 (BitVec.ofNat 64 (256 * j + x.toNat / 2 ^ (8 * j) % 256)) k1 (k1 ^^^ 0x5442))).foldl (· ^^^ ·) 0

def hashHf2 (ws : List Word) (k1 k2 : Word) : Word :=
  hf2Tab k1 (BitVec.ofNat 64 ws.length ^^^ ws.foldl (fun h w => hf2Tab k1 (w ^^^ h)) k2)

/-! ### Reed-Solomon RS(195,177) over GF(2^8) (R317) -/

/-- Multiplication by alpha in GF(2^8) with x^8 + x^4 + x^3 + x^2 + 1. -/
def gfDouble (a : Nat) : Nat := if 128 ≤ a then ((2 * a) % 256) ^^^ 0x1D else 2 * a

def gfMulAux : Nat → Nat → Nat → Nat → Nat
  | 0, _, _, acc => acc
  | n + 1, a, b, acc => gfMulAux n (gfDouble a) (b / 2) (if b % 2 = 1 then acc ^^^ a else acc)

def gfMul (a b : Nat) : Nat := gfMulAux 8 a b 0

/-- alpha^i. -/
def gfPow : Nat → Nat
  | 0 => 1
  | n + 1 => gfDouble (gfPow n)

def gfPowOf (a : Nat) : Nat → Nat
  | 0 => 1
  | n + 1 => gfMul a (gfPowOf a n)

/-- Inverse: a^254. -/
def gfInv (a : Nat) : Nat := gfPowOf a 254

/-- Product of a polynomial (highest degree first) and (x - r). -/
def polyMulRoot (p : List Nat) (r : Nat) : List Nat :=
  ((p ++ [0]).zip (0 :: p)).map (fun (q : Nat × Nat) => q.1 ^^^ gfMul r q.2)

/-- The generator polynomial, highest degree first: 19 coefficients. -/
def rsGenerator : List Nat := (List.range 18).foldl (fun p i => polyMulRoot p (gfPow i)) [1]

/-- One step of the division: shift a symbol in. -/
def rsStep (rem : List Nat) (sym : Nat) : List Nat :=
  let fb := sym ^^^ rem.headD 0
  ((rem.drop 1 ++ [0]).zip (rsGenerator.drop 1)).map (fun (q : Nat × Nat) => q.1 ^^^ gfMul fb q.2)

/-- The 18 parity symbols of 177 data symbols. -/
def rsParity (data : List Nat) : List Nat := data.foldl rsStep (List.replicate 18 0)

/-- Value of a codeword polynomial (highest degree first) at x. -/
def rsEval (cw : List Nat) (x : Nat) : Nat := cw.foldl (fun acc c => gfMul acc x ^^^ c) 0

def rsSyndromes (cw : List Nat) : List Nat := (List.range 18).map (fun i => rsEval cw (gfPow i))

/-- Berlekamp-Massey state: the locator C, the previous B (constant term first), L, m, b. -/
structure BmState where
  c : List Nat
  b : List Nat
  len : Nat
  m : Nat
  d : Nat

def polyAddScaled (c b : List Nat) (k shift : Nat) : List Nat :=
  let n := Nat.max c.length (b.length + shift)
  (List.range n).map (fun i => c.getD i 0 ^^^ (if shift ≤ i then gfMul k (b.getD (i - shift) 0) else 0))

def bmStep (synd : List Nat) (st : BmState) (n : Nat) : BmState :=
  let delta := (List.range (st.len + 1)).foldl (fun acc i => acc ^^^ gfMul (st.c.getD i 0) (synd.getD (n - i) 0)) 0
  if delta = 0 then { st with m := st.m + 1 }
  else
    let c' := polyAddScaled st.c st.b (gfMul delta (gfInv st.d)) st.m
    if 2 * st.len ≤ n then { c := c', b := st.c, len := n + 1 - st.len, m := 1, d := delta }
    else { st with c := c', m := st.m + 1 }

/-- Error locator polynomial, constant term first, and its degree. -/
def rsLocator (synd : List Nat) : List Nat × Nat :=
  let st := (List.range 18).foldl (bmStep synd) { c := [1], b := [1], len := 0, m := 1, d := 1 }
  (st.c, st.len)

def polyEval (p : List Nat) (x : Nat) : Nat := (p.reverse).foldl (fun acc c => gfMul acc x ^^^ c) 0

/-- Decode a 195-symbol codeword: the corrected codeword and the number of symbols corrected, at most 9 (R317). -/
def rsDecode (cw : List Nat) : Option (List Nat × Nat) :=
  let synd := rsSyndromes cw
  if synd.all (· == 0) then some (cw, 0)
  else
    let (loc, deg) := rsLocator synd
    if 9 < deg then none
    else
      let places := (List.range 195).filter (fun j => polyEval loc (gfInv (gfPow j)) == 0)
      if places.length ≠ deg then none
      else
        let omega := (List.range 18).map (fun i =>
          (List.range (i + 1)).foldl (fun acc j => acc ^^^ gfMul (loc.getD j 0) (synd.getD (i - j) 0)) 0)
        let deriv := (List.range loc.length).map (fun i => if i % 2 = 0 then loc.getD (i + 1) 0 else 0)
        let fixed := places.foldl (fun (w : List Nat) j =>
          let xi := gfInv (gfPow j)
          let e := gfMul (gfPow j) (gfMul (polyEval omega xi) (gfInv (polyEval deriv xi)))
          listModify w (194 - j) (fun v => v ^^^ e)) cw
        if (rsSyndromes fixed).all (· == 0) then some (fixed, deg) else none

end Sys2Proof.Machine
end

