-- ==== Sys2Proof/Machine/Numerics.lean ====
section
/-!
DEFINITION. Element types and exact arithmetic (R56 to R82): float formats, one rounding, conversions, order keys, accumulators and
stochastic rounding. Exact values are fractions of naturals with a sign.
-/
namespace Sys2Proof.Machine

/-! ### Types (R56) -/

/-- Width of an element in bits; 0 for a reserved code. -/
def typeBits (ty : Nat) : Nat :=
  match ty with
  | 0x01 | 0x05 | 0x14 | 0x15 | 0x20 | 0x21 | 0x25 => 8
  | 0x02 | 0x06 | 0x10 | 0x11 => 16
  | 0x03 | 0x07 | 0x12 | 0x31 => 32
  | 0x04 | 0x08 | 0x13 | 0x30 => 64
  | 0x22 | 0x23 => 6
  | 0x24 => 4
  | 0x32 => 128
  | 0x40 => 1
  | _ => 0

def isMx (ty : Nat) : Bool := decide (0x20 ≤ ty ∧ ty ≤ 0x25)
def isSigned (ty : Nat) : Bool := decide (1 ≤ ty ∧ ty ≤ 4)
def isUnsigned (ty : Nat) : Bool := decide (5 ≤ ty ∧ ty ≤ 8)
def isIntTy (ty : Nat) : Bool := isSigned ty || isUnsigned ty
def isFloatTy (ty : Nat) : Bool := decide (0x10 ≤ ty ∧ ty ≤ 0x15)
def isStringTy (ty : Nat) : Bool := ty == 0x32
def isTimeTy (ty : Nat) : Bool := ty == 0x30

/-- A binary float format: exponent and fraction bits, bias, the largest finite pattern, the canonical NaN, infinities. -/
structure Fmt where
  ebits : Nat
  mbits : Nat
  bias : Nat
  maxBits : Nat
  nanBits : Nat
  hasInf : Bool
deriving DecidableEq, Repr

def binary64 : Fmt := { ebits := 11, mbits := 52, bias := 1023, maxBits := 0x7FEFFFFFFFFFFFFF, nanBits := 0x7FF8000000000000, hasInf := true }
def binary32 : Fmt := { ebits := 8, mbits := 23, bias := 127, maxBits := 0x7F7FFFFF, nanBits := 0x7FC00000, hasInf := true }

/-- Formats of the float and MX element types (R61, R62, R81). -/
def fmtOf (ty : Nat) : Fmt :=
  match ty with
  | 0x10 => { ebits := 5, mbits := 10, bias := 15, maxBits := 0x7BFF, nanBits := 0x7E00, hasInf := true }
  | 0x11 => { ebits := 8, mbits := 7, bias := 127, maxBits := 0x7F7F, nanBits := 0x7FC0, hasInf := true }
  | 0x12 => binary32
  | 0x14 | 0x20 => { ebits := 4, mbits := 3, bias := 7, maxBits := 0x7E, nanBits := 0x7F, hasInf := false }
  | 0x15 | 0x21 => { ebits := 5, mbits := 2, bias := 15, maxBits := 0x7B, nanBits := 0x7E, hasInf := true }
  | 0x22 => { ebits := 3, mbits := 2, bias := 3, maxBits := 0x1F, nanBits := 0x1F, hasInf := false }
  | 0x23 => { ebits := 2, mbits := 3, bias := 1, maxBits := 0x1F, nanBits := 0x1F, hasInf := false }
  | 0x24 => { ebits := 2, mbits := 1, bias := 1, maxBits := 0x7, nanBits := 0x7, hasInf := false }
  | _ => binary64

def Fmt.width (f : Fmt) : Nat := 1 + f.ebits + f.mbits

/-- An exact value: NaN, an infinity, or plus or minus p / q with q not 0. -/
inductive FVal where
  | nan
  | inf (neg : Bool)
  | fin (neg : Bool) (p q : Nat)
deriving DecidableEq, Repr

/-- Value of a bit pattern. -/
def decodeF (f : Fmt) (b : Nat) : FVal :=
  let mag := b % 2 ^ (f.width - 1)
  let neg := bit b (f.width - 1)
  if mag ≤ f.maxBits then
    let e := mag / 2 ^ f.mbits
    let m := if e = 0 then mag else 2 ^ f.mbits + mag % 2 ^ f.mbits
    let k := (if e = 0 then 1 else e)
    -- value m * 2^(k - bias - mbits)
    if f.bias + f.mbits ≤ k then .fin neg (m * 2 ^ (k - f.bias - f.mbits)) 1
    else .fin neg m (2 ^ (f.bias + f.mbits - k))
  else if f.hasInf && mag == 2 ^ f.mbits * (2 ^ f.ebits - 1) then .inf neg
  else .nan

/-- Rounding mode and overflow control of a conversion: RMODE, FSAT, and the draw of SR (its top 32 hash bits). -/
structure Rounding where
  rmode : Nat
  fsat : Bool
  isat : Bool
  nanNull : Bool
  draw : Nat
deriving DecidableEq, Repr

def rne : Rounding := { rmode := 0, fsat := false, isat := false, nanNull := false, draw := 0 }

/-- ACTL as a rounding (R58). -/
def actlRounding (a draw : Nat) : Rounding :=
  { rmode := bits a 6 4, fsat := bit a 3, isat := bit a 2, nanNull := bit a 1, draw := draw }

/-- Round the non-negative p / q to an integer: the floor, or one more. -/
def roundFrac (r : Rounding) (neg : Bool) (p q : Nat) : Nat :=
  let k := p / q
  let rem := p % q
  if rem = 0 then k
  else
    let up : Bool := match r.rmode with
      | 0 => decide (q < 2 * rem ∨ (2 * rem = q ∧ k % 2 = 1))
      | 2 => !neg
      | 3 => neg
      | 4 => decide (r.draw < rem * 2 ^ 32 / q)
      | _ => false
    if up then k + 1 else k

/-- Floor of the base-2 logarithm of p / q, p not 0, as an integer. -/
def log2Frac (p q : Nat) : Int :=
  let d : Int := (Nat.log2 p : Int) - (Nat.log2 q : Int)
  -- 2^d ≤ p/q or p/q < 2^d
  let ge := if 0 ≤ d then decide (q * 2 ^ d.toNat ≤ p) else decide (q ≤ p * 2 ^ (-d).toNat)
  if ge then d else d - 1

/-- Outcome of a conversion: stored bits, whether it saturated, whether it overflowed, whether the result is null. -/
structure Conv where
  bits : Nat
  sat : Bool
  overflow : Bool
  null : Bool
  nanConv : Bool
deriving DecidableEq, Repr

def Conv.of (b : Nat) : Conv := { bits := b, sat := false, overflow := false, null := false, nanConv := false }

/-- Infinity or NaN of a format with a sign. -/
def infBits (f : Fmt) (neg : Bool) : Nat :=
  if f.hasInf then boolNat neg * 2 ^ (f.width - 1) + 2 ^ f.mbits * (2 ^ f.ebits - 1) else f.nanBits

/-- Whether an overflow in a mode gives the largest finite magnitude although FSAT is 0 (R59). -/
def towardZero (r : Rounding) (neg : Bool) : Bool := r.rmode == 1 || (r.rmode == 2 && neg) || (r.rmode == 3 && !neg)

/-- Round an exact value into a float format (R59, R64): subnormals in full, overflow by FSAT. Past the first step beyond the largest finite
magnitude SR draws on the lattice that an unbounded exponent would give, so that the result overflows whatever the draw. (DEDUCED, unsafe: log entry 50.) (DESIGN CHOICE, unsafe: log entry 112.) -/
def encodeF (f : Fmt) (r : Rounding) (v : FVal) : Conv :=
  match v with
  | .nan => Conv.of f.nanBits
  | .inf neg =>
    if f.hasInf then Conv.of (infBits f neg)
    else if r.fsat then { Conv.of (boolNat neg * 2 ^ (f.width - 1) + f.maxBits) with sat := true, overflow := true }
    else { Conv.of f.nanBits with overflow := true }
  | .fin neg p q =>
    let sign := boolNat neg * 2 ^ (f.width - 1)
    if p = 0 then Conv.of sign
    else
      let emin : Int := 1 - (f.bias : Int)
      let e := max (log2Frac p q) emin
      let sh : Int := e - (f.mbits : Int)
      let k := if 0 ≤ sh then roundFrac r neg p (q * 2 ^ sh.toNat) else roundFrac r neg (p * 2 ^ (-sh).toNat) q
      let mag := (e - emin).toNat * 2 ^ f.mbits + k
      if mag ≤ f.maxBits then Conv.of (sign + mag)
      else if r.fsat then { Conv.of (sign + f.maxBits) with sat := true, overflow := true }
      else if towardZero r neg then { Conv.of (sign + f.maxBits) with overflow := true }
      else { Conv.of (infBits f neg) with overflow := true }

/-! ### Integers -/

def intMin (ty : Nat) : Int := if isSigned ty || isTimeTy ty then -(2 ^ (typeBits ty - 1) : Nat) else 0
def intMax (ty : Nat) : Int :=
  if isSigned ty || isTimeTy ty then (2 ^ (typeBits ty - 1) : Nat) - 1 else (2 ^ typeBits ty : Nat) - 1

/-- Integer value of a stored integer, code or timestamp pattern. -/
def intOf (ty b : Nat) : Int := if isSigned ty || isTimeTy ty then sint (typeBits ty) b else ((b % 2 ^ typeBits ty : Nat) : Int)

/-- Clamp to a type's range: pattern, and whether it clamped. -/
def clampInt (ty : Nat) (i : Int) : Conv :=
  if i < intMin ty then { Conv.of (wrapInt (typeBits ty) (intMin ty)) with sat := true, overflow := true }
  else if intMax ty < i then { Conv.of (wrapInt (typeBits ty) (intMax ty)) with sat := true, overflow := true }
  else Conv.of (wrapInt (typeBits ty) i)

/-- An exact integer result in a type: clamped under ISAT 1, low bits otherwise (R60, R64). -/
def storeInt (ty : Nat) (isat : Bool) (i : Int) : Conv := if isat then clampInt ty i else Conv.of (wrapInt (typeBits ty) i)

/-- A signed integer from sign and magnitude. -/
def signed (neg : Bool) (n : Nat) : Int := if neg then -(n : Int) else n

/-- The exact value of an integer. -/
def ofInt (i : Int) : FVal := .fin (decide (i < 0)) i.natAbs 1

/-- Timestamp value v + o, clamped (R65): the value and whether it clamped. -/
def timeValue (b : Nat) (off : Int) : Int × Bool :=
  let i := sint 64 b + off
  let c := clampInt 4 i
  (sint 64 c.bits, c.sat)

/-- Exact value of a stored numeric element; timestamps carry their column's offset. -/
def valueOf (ty b : Nat) (off : Int) : FVal :=
  if isFloatTy ty then decodeF (fmtOf ty) b
  else if isTimeTy ty then ofInt (timeValue b off).1
  else ofInt (intOf ty b)

/-- An exact value into a numeric type under ACTL (R64). -/
def convertVal (ty : Nat) (off : Int) (r : Rounding) (v : FVal) : Conv :=
  if isFloatTy ty then encodeF (fmtOf ty) r v
  else match v with
    | .nan => { Conv.of 0 with null := r.nanNull, nanConv := true }
    | .inf neg => { Conv.of (wrapInt (typeBits ty) (if neg then intMin ty else intMax ty)) with sat := true, overflow := true }
    | .fin neg p q =>
      let i := signed neg (roundFrac r neg p q)
      if isTimeTy ty then clampInt 4 (i - off) else clampInt ty i

/-- Convert a stored element between types (R64): a wider integer extends by the source's sign, exact whatever ISAT says. -/
def convert (src dst b : Nat) (srcOff dstOff : Int) (r : Rounding) : Conv :=
  if src = dst && srcOff = dstOff && !isFloatTy src then Conv.of b
  else if isFloatTy src then convertVal dst dstOff r (decodeF (fmtOf src) b)
  else
    let i := if isTimeTy src then (timeValue b srcOff).1 else intOf src b
    let clamped := isTimeTy src && (timeValue b srcOff).2
    let c := if isFloatTy dst then encodeF (fmtOf dst) r (ofInt i)
      else if isTimeTy dst then clampInt 4 (i - dstOff)
      else if typeBits src < typeBits dst then Conv.of (wrapInt (typeBits dst) i)
      else storeInt dst r.isat i
    { c with sat := c.sat || clamped }

/-! ### Order keys (R72) -/

/-- Key of an element. -/
def orderKey (ty b : Nat) (off : Int) : Nat :=
  if isFloatTy ty then
    match decodeF (fmtOf ty) b with
    | .nan => 2 ^ 64 - 1
    | v =>
      let w := (encodeF binary64 rne v).bits
      if w = 2 ^ 63 then 2 ^ 63 else if w < 2 ^ 63 then w + 2 ^ 63 else 2 ^ 64 - 1 - w
  else if isTimeTy ty then wrapInt 64 ((timeValue b off).1 + 2 ^ 63)
  else if isSigned ty then wrapInt 64 (intOf ty b + 2 ^ 63)
  else b % 2 ^ typeBits ty

def isNanBits (ty b : Nat) : Bool := isFloatTy ty && (match decodeF (fmtOf ty) b with
  | .nan => true
  | _ => false)

/-- Canonical bits before hashing (R63): +0 for −0, the canonical NaN. -/
def canonBits (ty b : Nat) : Nat :=
  if isFloatTy ty then
    if isNanBits ty b then (fmtOf ty).nanBits
    else if b = 2 ^ (typeBits ty - 1) then 0 else b
  else b

/-- Bits with every NaN canonical. -/
def canonNan (ty b : Nat) : Nat := if isNanBits ty b then (fmtOf ty).nanBits else b

/-! ### Exact arithmetic on values -/

/-- The sign of an exact zero sum under round to nearest: + unless both terms are −0. -/
def addVal (a b : FVal) : FVal :=
  match a, b with
  | .nan, _ => .nan
  | _, .nan => .nan
  | .inf x, .inf y => if x = y then .inf x else .nan
  | .inf x, _ => .inf x
  | _, .inf y => .inf y
  | .fin x p q, .fin y p' q' =>
    let i : Int := signed x (p * q') + signed y (p' * q)
    if i = 0 then .fin (x && y) 0 1 else .fin (decide (i < 0)) i.natAbs (q * q')

def negVal : FVal → FVal
  | .nan => .nan
  | .inf n => .inf (!n)
  | .fin n p q => .fin (!n) p q

def absVal : FVal → FVal
  | .nan => .nan
  | .inf _ => .inf false
  | .fin _ p q => .fin false p q

def mulVal (a b : FVal) : FVal :=
  match a, b with
  | .nan, _ => .nan
  | _, .nan => .nan
  | .inf x, .inf y => .inf (x != y)
  | .inf x, .fin y p _ => if p = 0 then .nan else .inf (x != y)
  | .fin x p _, .inf y => if p = 0 then .nan else .inf (x != y)
  | .fin x p q, .fin y p' q' => .fin (x != y) (p * p') (q * q')

def divVal (a b : FVal) : FVal :=
  match a, b with
  | .nan, _ => .nan
  | _, .nan => .nan
  | .inf _, .inf _ => .nan
  | .inf x, .fin y _ _ => .inf (x != y)
  | .fin x _ _, .inf y => .fin (x != y) 0 1
  | .fin x p q, .fin y p' q' =>
    if p' = 0 then (if p = 0 then .nan else .inf (x != y)) else .fin (x != y) (p * q') (q * p')

/-- A value whose rounding to any format here equals that of the square root: 64 or more exact bits and a sticky bit. -/
def sqrtVal (a : FVal) : FVal :=
  match a with
  | .nan => .nan
  | .inf n => if n then .nan else .inf false
  | .fin n p q =>
    if p = 0 then .fin n 0 1
    else if n then .nan
    else
      let sh := 65 + Nat.log2 q / 2
      let t := p * 4 ^ sh
      let r := Nat.sqrt (t / q)
      .fin false (2 * r + (if r * r * q = t then 0 else 1)) (2 ^ (sh + 1))

/-- a < b of two values that are not NaN. -/
def ltVal (a b : FVal) : Bool :=
  match a, b with
  | .nan, _ => false
  | _, .nan => false
  | .inf x, .inf y => x && !y
  | .inf x, .fin _ _ _ => x
  | .fin _ _ _, .inf y => !y
  | .fin x p q, .fin y p' q' => decide (signed x (p * q') < signed y (p' * q))

def eqVal (a b : FVal) : Bool :=
  match a, b with
  | .nan, _ => false
  | _, .nan => false
  | .inf x, .inf y => x == y
  | .fin x p q, .fin y p' q' => decide (signed x (p * q') = signed y (p' * q))
  | _, _ => false

/-! ### Stochastic rounding (R79) -/

/-- The top 32 bits of the hash that decides an SR rounding of output operand op at global index gi. (DEDUCED, unsafe: log entry 51.) -/
def srDraw (seed op gi : Nat) : Nat :=
  let k2 := (BitVec.ofNat 64 seed) ^^^ (BitVec.ofNat 64 (op * 2 ^ 56)) ^^^ 0x5352
  (hf0 (BitVec.ofNat 64 gi) (BitVec.ofNat 64 seed) k2).toNat / 2 ^ 32

/-! ### Accumulators (R74 to R78) -/

/-- Scale of an accumulator in bits below the binary point: 149 short float, 1,074 long, 0 integer. -/
def accAdd (scale : Nat) (a : Accumulator) (v : FVal) : Accumulator :=
  let a1 := { a with count := a.count + 1 }
  match v with
  | .nan => { a1 with nanSeen := true }
  | .inf true => { a1 with negInf := true }
  | .inf false => { a1 with posInf := true }
  | .fin n p q => { a1 with value := a1.value + signed n (p * 2 ^ scale / q) }

/-- Combine two records (R76). -/
def accJoin (a b : Accumulator) : Accumulator :=
  { value := a.value + b.value, count := a.count + b.count, nanSeen := a.nanSeen || b.nanSeen,
    posInf := a.posInf || b.posInf, negInf := a.negInf || b.negInf }

/-- COUNT of an accumulator: the elements counted, held at 2^64 − 1 (R78). -/
def accCount (a : Accumulator) : Nat := Nat.min a.count (2 ^ 64 - 1)

/-- RANGE: the count would have passed 2^64 − 1 (R78). -/
def accRangeFlag (a : Accumulator) : Bool := decide (2 ^ 64 ≤ a.count)

/-- The value to round once: the sum, or the sum over COUNT for a mean (R77). -/
def accResult (scale : Nat) (mean : Bool) (a : Accumulator) : Option FVal :=
  if a.nanSeen || (a.posInf && a.negInf) then some .nan
  else if a.posInf then some (.inf false)
  else if a.negInf then some (.inf true)
  else if a.count = 0 then (if mean then none else some (.fin false 0 1))
  else if a.value = 0 then some (.fin false 0 1)
  else some (.fin (decide (a.value < 0)) a.value.natAbs (2 ^ scale * (if mean then accCount a else 1)))

/-- The one rounding of an accumulation into a type: RNE, overflow by FSAT for floats, saturation for integers; a NaN or an infinity
into an integer is null (R77, R78). The overflow flag is ACC_RANGE; an accumulated infinity rounded into E4M3 does not set it. (DEDUCED, unsafe: log entry 101.) -/
def accRound (ty : Nat) (fsat : Bool) (v : Option FVal) : Conv :=
  match v with
  | none => { Conv.of 0 with null := true }
  | some x =>
    if isFloatTy ty then
      let c := encodeF (fmtOf ty) { rne with fsat := fsat } x
      match x with
      | .inf _ => { c with overflow := false }
      | _ => c
    else match x with
      | .fin n p q => clampInt ty (signed n (roundFrac rne n p q))
      | _ => { Conv.of 0 with null := true }

end Sys2Proof.Machine
end

