-- ==== Sys2Proof/Machine/Ops.lean ====
section
/-!
DEFINITION. The named operations over units, counters, sticky bits, the address map and memory that every meaning uses
(R15 to R29, R295 to R308, R363).
-/
namespace Sys2Proof.Machine

/-! ### Units -/

/-- Key of the device unit. -/
def devKey : Nat := 0x40000000

/-- Level of a unit key or UID. -/
def keyLevel (k : Nat) : Nat := k / 2 ^ 28 % 16

/-- The local part of a UID: DEVICE cleared (levels 0 to 4); a group keeps its number. -/
def uidKey (u : Uid) : Nat :=
  let n := u.toNat
  if keyLevel n = 5 then n else n - (n / 2 ^ 16 % 4096) * 2 ^ 16

/-- DEVICE field of a UID. -/
def uidDevice (u : Uid) : Nat := u.toNat / 2 ^ 16 % 4096

/-- UID of a local unit key. -/
def fullUid (s : State) (k : Nat) : Uid :=
  if keyLevel k = 5 then BitVec.ofNat 32 k else BitVec.ofNat 32 (k + s.form.device % 4096 * 2 ^ 16)

/-- UID of a device unit. -/
def deviceUid (d : Nat) : Uid := BitVec.ofNat 32 (devKey + d * 2 ^ 16)

/-- Parent of a unit key within the device (R15); the device unit is its own end. -/
def parentKey (k : Nat) : Option Nat :=
  match keyLevel k with
  | 0 => some (1 * 2 ^ 28 + k % 2 ^ 16 / 2 ^ 9 * 2 ^ 9)
  | 1 => some (2 * 2 ^ 28 + k % 2 ^ 16 / 2 ^ 12 * 2 ^ 12)
  | 2 => some (3 * 2 ^ 28 + k % 2 ^ 16 / 2 ^ 14 * 2 ^ 14)
  | 3 => some devKey
  | _ => none

/-- A unit and its ancestors up to the device. -/
def selfAndAncestors (k : Nat) : List Nat :=
  let up (o : Option Nat) : Option Nat := o.bind parentKey
  let a0 := some k
  let a1 := up a0
  let a2 := up a1
  let a3 := up a2
  let a4 := up a3
  [a0, a1, a2, a3, a4].filterMap id

/-- Unit a is unit b or an ancestor of it. -/
def covers (a b : Nat) : Bool := (selfAndAncestors b).contains a

def quadKey (q : Nat) : Nat := 3 * 2 ^ 28 + q * 2 ^ 14
/-- Column key of stack s (R28, R289). -/
def columnKey (st : Nat) : Nat := 2 * 2 ^ 28 + st / 4 * 2 ^ 14 + st % 4 * 2 ^ 12
/-- Die key of die index d (R28). -/
def dieKey (d : Nat) : Nat := 2 ^ 28 + d / 20 * 2 ^ 14 + d / 5 % 4 * 2 ^ 12 + d % 5 * 2 ^ 9
/-- Core key of core index c, 32 to a die, dies by index: ascending UID order. -/
def coreKey (c : Nat) : Nat := dieKey (c / 32) - 2 ^ 28 + c % 32 * 2 ^ 4

/-- Die index of a core or die key; stack index of a key at level 2 or below. -/
def keyDie (k : Nat) : Nat := 20 * (k / 2 ^ 14 % 4) + 5 * (k / 2 ^ 12 % 4) + k / 2 ^ 9 % 8
def keyStack (k : Nat) : Nat := 4 * (k / 2 ^ 14 % 4) + k / 2 ^ 12 % 4
def keyQuad (k : Nat) : Nat := k / 2 ^ 14 % 4

/-- Every local unit key, ascending. -/
def allKeys : List Nat :=
  (List.range 2560).map coreKey ++ (List.range 80).map dieKey ++ (List.range 16).map columnKey ++
  (List.range 4).map quadKey ++ [devKey]

/-- A local unit and its descendants, ascending. -/
def subtree (k : Nat) : List Nat := allKeys.filter (covers k)

/-- Cores within a unit, ascending UID. -/
def coresOf (k : Nat) : List Nat := ((List.range 2560).map coreKey).filter (covers k)

def diesOf (k : Nat) : List Nat := ((List.range 80).map dieKey).filter (fun d => covers k d || covers d k)

/-- The page a unit has at reset release: the device unit's comparators 2 and 3 serve the operator timeout and the lease
timer under the default parameters (R362). -/
def pageDefault (k : Nat) : UnitState :=
  if k = devKey then { UnitState.reset with page := { UnitPage.reset with wdCtrl := 0xB0A09080 } } else UnitState.reset

def unitGet (s : State) (k : Nat) : UnitState := sparseGet (pageDefault k) k s.units.pages

def unitSet (s : State) (k : Nat) (u : UnitState) : State :=
  { s with units := { s.units with pages := sparseSet (pageDefault k) k u s.units.pages } }

def unitMod (s : State) (k : Nat) (f : UnitState → UnitState) : State := unitSet s k (f (unitGet s k))

def pageMod (s : State) (k : Nat) (f : UnitPage → UnitPage) : State :=
  unitMod s k (fun u => { u with page := f u.page })

def flagsMod (s : State) (k : Nat) (f : UnitFlags → UnitFlags) : State :=
  unitMod s k (fun u => { u with flags := f u.flags })

/-- Apply an operation to several units in turn. -/
def forKeys (s : State) (ks : List Nat) (f : State → Nat → State) : State := ks.foldl f s

/-- Number of units a list names: the device's strike now. -/
def now (s : State) : Nat := s.seq.strike.toNat

def heatOf (n : Nat) : Nat := n / 4096

/-- Strike n is a heat boundary (R12). -/
def isBoundary (n : Nat) : Bool := n % 4096 == 0

/-- First heat boundary at or after n. -/
def nextBoundary (n : Nat) : Nat := ceilDiv n 4096 * 4096

/-! ### Counters and sticky bits -/

def counterGet (s : State) (k c : Nat) : Word := sparseGet 0 c (unitGet s k).page.counters

def counterAddOne (s : State) (c n : Nat) (k : Nat) : State :=
  pageMod s k (fun p => { p with counters := sparseSet 0 c (satAdd (sparseGet 0 c p.counters) n) p.counters })

/-- Count n events of unit k: counters 0 to 7 also in every ancestor (R20), saturating. -/
def count (s : State) (k c n : Nat) : State :=
  if c < 8 then (selfAndAncestors k).foldl (fun t a => counterAddOne t c n a) s else counterAddOne s c n k

/-- The defined sticky bits (R363). -/
def stickyMask : Word := 0x1FFFFF

/-- A bit of the device unit set after a group clear was written is not cleared by it (R24). (DEDUCED, unsafe: log entry 8.) -/
def keepFromClears (cs : List GroupClear) (k : Nat) (m : Word) : List GroupClear :=
  if k = devKey then cs.map (fun c => { c with mask := c.mask &&& ~~~ m }) else cs

/-- A sticky bit of a unit is set; it shows from the next strike on (R49, order 10), before strike 0 at once. When it changes from 0 to 1 with its notify bit set,
one event waits (R364). -/
def stickySet (s : State) (k b : Nat) : State :=
  let p := (unitGet s k).page
  let m : Word := BitVec.ofNat 64 (2 ^ b)
  let t0 := pageMod s k (fun p => if s.tb.strikeDefined then { p with fresh := p.fresh ||| m } else { p with sticky := p.sticky ||| m })
  let t := { t0 with units := { t0.units with groupClears := keepFromClears t0.units.groupClears k m
                                              setAt := if k = devKey then sparsePut b (now s) t0.units.setAt else t0.units.setAt } }
  if (p.sticky ||| p.fresh) &&& m = 0 && p.notify &&& m ≠ 0 then
    let e : StickyEvent := { uid := fullUid s k, bit := b, strike := now s, sticky := p.sticky ||| p.fresh ||| m }
    { t with units := { t.units with events := t.units.events ++ [e] } }
  else t

/-- At the end of a strike the sticky bits set in it become visible (R49, order 10). -/
def showSticky (p : UnitPage) : UnitPage := { p with sticky := p.sticky ||| p.fresh, fresh := 0 }

def emitOut (s : State) (o : Output) : State := { s with out := s.out ++ [o] }

def logPersistent (s : State) (r : LogRecord) : State :=
  { s with boot := { s.boot with persistent := s.boot.persistent ++ [r] } }

/-- Draw a fresh free value's index. (DESIGN CHOICE, safe: log entry 4.) -/
def drawFree (s : State) : Nat × State := (s.free, { s with free := s.free + 1 })

/-! ### The address map (R28, R29, R289, R291, R292) -/

/-- Where a device address leads. -/
inductive Place where
  | near (stack : Nat) | far (module : Nat) | scratch (core : Nat) | page (uid : Uid) (off : Nat)
  | block (cls inst off : Nat) | doorbell (ring off : Nat) | unmapped
deriving DecidableEq, Repr

/-- Value of a configuration parameter at a unit: the entry of the narrowest SCOPE that covers it (R357). -/
def paramLookup (set : ConfigSet) (dev : Nat) (k id index : Nat) : Option Word :=
  let here (u : Uid) : Bool := uidDevice u == dev
  let find (key : Nat) : Option Word :=
    (set.params.find? (fun p => p.id == id && p.index == index && keyLevel p.scope.toNat ≤ 4 && here p.scope &&
      uidKey p.scope == key)).map (·.value)
  match (selfAndAncestors k).findSome? find with
  | some v => some v
  | none =>
    (set.params.find? (fun p => p.id == id && p.index == index && keyLevel p.scope.toNat == 5 &&
      set.groups.any (fun g => g.group == uidDevice p.scope && g.members.contains dev))).map (·.value)

/-- Parameter defaults (R357's table). -/
def paramDefault (id : Nat) : Word :=
  match id with
  | 0x2 => 128
  | 0x3 => 16
  | 0x5 => 1
  | 0x7 => 1024
  | 0x8 => 16
  | 0xB => 32
  | 0xC => 4
  | 0xF => 1000
  | 0x10 => 1
  | 0x15 => 1
  | 0x16 => 1
  | 0x17 => 0x000000FF00000000
  | 0x18 => 4
  | 0x19 => 0x0000100000000000
  | 0x1A => 0x0000100040000000
  | 0x1B => 64
  | _ => 0

def ConfigSet.empty : ConfigSet :=
  { epoch := 0, params := [], groups := [], route := [], ownerSig := [], ownerBody := [], deviceSig := [], inFlash := false }

/-- Active set of a unit: the head of its history, or the defaults at epoch 0 (R402). -/
def activeSet (s : State) (k : Nat) : ConfigSet := (sparseGet [] k s.cfg.sets).headD ConfigSet.empty

def paramAt (s : State) (k id index : Nat) : Nat :=
  ((paramLookup (activeSet s k) s.form.device k id index).getD (paramDefault id)).toNat

/-- A device parameter. -/
def param (s : State) (id : Nat) : Nat := paramAt s devKey id 0

def nearStack (interleave a : Nat) : Nat := if interleave = 0 then a / 2 ^ 12 % 16 else a / 2 ^ 36 % 16

def farBase : Nat := 0x100000000000
def scratchBase : Nat := 0x200000000000
def ucpBase : Nat := 0x300000000000
def blockBase : Nat := 0x380000000000
def doorBase : Nat := 0x3F0000000000

def isOffline (s : State) (k : Nat) : Bool := (selfAndAncestors k).any (fun a => (unitGet s a).flags.offline)

/-- Instances of a block class (R28). -/
def classInstances (cls : Nat) : Nat :=
  match cls with
  | 1 => 16 | 2 => 128 | 3 => 80 | 4 => 80 | 5 => 16 | 6 => 16 | 7 => 16 | 8 => 6 | 9 => 2 | 0xA => 4 | 0xB => 1
  | 0xC => 1 | 0xD => 1 | _ => 0

/-- Groups the active configuration of the device defines with it as a member (R16). -/
def localGroups (s : State) : List GroupDef :=
  (activeSet s devKey).groups.filter (fun g => g.members.contains s.form.device)

def groupOf (s : State) (u : Uid) : Option GroupDef := (localGroups s).find? (fun g => g.group == uidDevice u)

/-- The UID fields of R16, whatever the device. -/
def uidShape (n : Nat) : Bool :=
  let lvl := keyLevel n
  decide (lvl ≤ 5) && decide (n / 2 ^ 16 % 4096 < 1024) && n % 16 == 0 &&
    (if lvl ≤ 1 then decide (n / 2 ^ 9 % 8 < 5) else n / 2 ^ 9 % 8 == 0) &&
    (if lvl = 0 then true else n / 2 ^ 4 % 32 == 0) &&
    (if lvl ≤ 2 then true else n / 2 ^ 12 % 4 == 0) &&
    (if lvl ≤ 3 then true else n / 2 ^ 14 % 4 == 0)

/-- The place of an address: R28's formulas and R29's holes. -/
def placeOf (s : State) (a : Nat) : Place :=
  if a < 2 ^ 40 then
    let st := nearStack (param s 1) a
    if isOffline s (columnKey st) then .unmapped else .near st
  else if farBase ≤ a && a < farBase + s.form.farGib * 2 ^ 30 then .far ((a - farBase) / 2 ^ 12 % 16)
  else if scratchBase ≤ a && a < scratchBase + 2 ^ 34 then
    let k := (a - scratchBase) / 2 ^ 22 * 16
    if k / 2 ^ 9 % 8 < 5 && a % 2 ^ 22 < 0x240000 then .scratch k else .unmapped
  else if ucpBase ≤ a && a < ucpBase + 0x60000000000 then
    let u := (a - ucpBase) / 2 ^ 16 * 16
    let uid : Uid := BitVec.ofNat 32 u
    if uidShape u && (if keyLevel u = 5 then (groupOf s uid).isSome else u / 2 ^ 16 % 4096 == s.form.device) then
      .page uid (a % 2 ^ 16)
    else .unmapped
  else if blockBase ≤ a && a < blockBase + 2 ^ 40 then
    let cls := (a - blockBase) / 2 ^ 32
    let inst := a / 2 ^ 16 % 2 ^ 16
    if inst < classInstances cls then .block cls inst (a % 2 ^ 16) else .unmapped
  else if doorBase ≤ a && a < doorBase + 0x200000 then .doorbell ((a - doorBase) / 4096) (a % 4096)
  else .unmapped

/-- The address lies in memory (near, far or scratchpad). -/
def isMemory (s : State) (a : Nat) : Bool :=
  match placeOf s a with
  | .near _ | .far _ | .scratch _ => true
  | _ => false

def isTier (s : State) (a : Nat) : Bool :=
  match placeOf s a with
  | .near _ | .far _ => true
  | _ => false

/-- Every byte of a range lies in memory; ranges are judged at each 4 KiB piece they touch. -/
def rangeOk (s : State) (ok : State → Nat → Bool) (a n : Nat) : Bool :=
  if n = 0 then true
  else ((List.range ((a + n - 1) / 4096 - a / 4096 + 1)).all fun i =>
    ok s (Nat.max a ((a / 4096 + i) * 4096))) && ok s (a + n - 1)

/-! ### Bytes of memory -/

/-- Byte at an address: 0 where nothing is listed (R297, R298). (DEDUCED, unsafe: log entry 13.) -/
def cellGet (a : Nat) (m : List Host.Cell) : Byte := sparseGet 0 a m

def cellSet (a : Nat) (b : Byte) (m : List Host.Cell) : List Host.Cell := sparseSet 0 a b m

def cellsPut : Nat → List Byte → List Host.Cell → List Host.Cell
  | _, [], m => m
  | a, b :: bs, m => cellsPut (a + 1) bs (cellSet a b m)

def cellsGet (m : List Host.Cell) (a n : Nat) : List Byte := (List.range n).map (fun i => cellGet (a + i) m)

/-- The memory's canonical form: bytes, syndromes and merge entries listed in rising order and never at their default, and one entry for a
checker. -/
def Mem.wf (m : Mem) : Bool :=
  sparseWf 0 m.cells && sparseWf 0 m.synd && sparseWf [] m.merge && decide ((m.checkers.map (·.1)).Pairwise (· < ·))

/-- Clear every byte of a range (valid bits cleared, R298). -/
def cellsClear (lo n : Nat) (m : List Host.Cell) : List Host.Cell := m.filter (fun c => c.1 < lo || lo + n ≤ c.1)

/-! ### The code (R295, R296) -/

def popcount8 (n : Nat) : Nat := sumNat ((List.range 8).map (fun i => n / 2 ^ i % 2))

/-- Columns h[0] to h[63]: the byte values of three set bits ascending, then eight of five. -/
def hsiaoColumns : List Nat :=
  (List.range 256).filter (fun n => popcount8 n == 3) ++ [0x1F, 0x2F, 0x37, 0x3B, 0x3D, 0x3E, 0x4F, 0x57]

/-- Check byte of a word (R295). -/
def checkOf (d : Nat) : Nat :=
  ((List.range 64).zip hsiaoColumns).foldl (fun acc (i, h) => if bit d i then acc ^^^ h else acc) 0

/-- Index of the data bit whose column equals a syndrome. -/
def syndromeBit (sy : Nat) : Option Nat :=
  (((List.range 64).zip hsiaoColumns).find? (fun p => p.2 == sy)).map (·.1)

inductive Decoded where
  | clean | ceCheck | ceData (i : Nat) | poison | ue
deriving DecidableEq, Repr

/-- The outcome table of R296. -/
def decodeSyndrome (sy : BitVec 8) : Decoded :=
  let n := sy.toNat
  if n = 0 then .clean
  else if popcount8 n = 1 then .ceCheck
  else match syndromeBit n with
    | some i => .ceData i
    | none => if n = 0xFF then .poison else .ue

/-! ### Checkers (R301 to R305) -/

/-- Checker that watches a word, its SRAM instance number (0 in controllers), and the owning unit. -/
def checkerOf (s : State) (a : Nat) : Nat × Nat × Nat :=
  match placeOf s a with
  | .near st => (st, 0, columnKey st)
  | .far m => (16 + m, 0, devKey)
  | .scratch k => (32 + keyQuad k, 64 * (5 * (k / 2 ^ 12 % 4) + k / 2 ^ 9 % 8) + k / 16 % 32, k)
  | _ => (32, 0, devKey)

/-- A word outside the address map is named by instance and index (the key space above 2^64). -/
def instKey (q inst idx : Nat) : Nat := 2 ^ 64 + ((q * 2048 + inst) * 2 ^ 40 + idx) * 8

/-- Owning unit of an SRAM instance of quadrant q (R301). -/
def instOwner (q inst : Nat) : Nat :=
  if inst < 1280 then
    let j := inst / 64
    let die := 2 ^ 28 + q * 2 ^ 14 + j / 5 * 2 ^ 12 + j % 5 * 2 ^ 9
    if inst % 64 < 32 then die - 2 ^ 28 + inst % 64 * 16 else die
  else if inst < 1296 then 2 * 2 ^ 28 + q * 2 ^ 14 + (inst - 1280) / 4 * 2 ^ 12
  else if inst = 1296 then quadKey q
  else devKey

/-- Checker, instance and owner of a word key, inside or outside the address map. -/
def wordChecker (s : State) (a : Nat) : Nat × Nat × Nat :=
  if a < 2 ^ 64 then checkerOf s a
  else
    let w := (a - 2 ^ 64) / 8 / 2 ^ 40
    (32 + w / 2048, w % 2048, instOwner (w / 2048) (w % 2048))

def checkerDefault (c : Nat) : Checker := if 32 ≤ c then { Checker.reset with state := .ready } else Checker.reset

def checkerGet (s : State) (c : Nat) : Checker := sparseGet (checkerDefault c) c s.mem.checkers

def checkerMod (s : State) (c : Nat) (f : Checker → Checker) : State :=
  { s with mem := { s.mem with checkers := sparseSet (checkerDefault c) c (f (checkerGet s c)) s.mem.checkers } }

def satInc16 (n : BitVec 16) : BitVec 16 := if n = 0xFFFF then n else n + 1

/-- The log address of a word: its device address, or its index in an instance outside the map. -/
def logAddr (a : Nat) : Nat := if a < 2 ^ 64 then a else (a - 2 ^ 64) / 8 % 2 ^ 40

/-- Place in the log for an event (R302): matching entry, lowest free entry, or the CE entry with the oldest LAST. -/
def logSlot (log : List LogEntry) (addr : Word) (inst : BitVec 16) (kind : BitVec 2) : Option (Nat × Bool) :=
  let idx := List.range log.length
  match idx.find? (fun i => let e := log.getD i LogEntry.empty
      e.valid && e.addr == addr && e.inst == inst && e.kind == kind) with
  | some i => some (i, true)
  | none =>
    match idx.find? (fun i => !(log.getD i LogEntry.empty).valid) with
    | some i => some (i, false)
    | none =>
      let ces := idx.filter (fun i => (log.getD i LogEntry.empty).kind == 0)
      match minNat? (ces.map (fun i => (log.getD i LogEntry.empty).last.toNat)) with
      | none => none
      | some m => (ces.find? (fun i => (log.getD i LogEntry.empty).last.toNat == m)).map (fun i => (i, false))

def logEvent (c : Checker) (addr : Word) (inst : BitVec 16) (sy : BitVec 8) (kind : BitVec 2) (inj : Bool)
    (strike : Word) : Checker :=
  match logSlot c.log addr inst kind with
  | none => { c with overflow := satInc16 c.overflow }
  | some (i, true) =>
    { c with log := listModify c.log i (fun e =>
        { e with count := satInc16 e.count, syndrome := sy, last := strike }) }
  | some (i, false) =>
    { c with log := c.log.set i { valid := true, addr := addr, inst := inst, syndrome := sy, count := 1, injected := inj,
                                  kind := kind, first := strike, last := strike } }

/-- Macro cluster of an SRAM word: 256 KiB of the instance (R305). -/
def clusterOf (inst idx : Nat) : Nat := inst * 64 + idx / 32768

/-- Word index within an SRAM instance: the window offset over 8 in a scratchpad (R304). -/
def wordIndex (a : Nat) : Nat := if a < 2 ^ 64 then a % 2 ^ 22 / 8 else logAddr a

/-- The word of the address map reads as poisoned (R300). -/
def poisonWord (s : State) (a : Nat) : State :=
  if a < 2 ^ 64 then { s with mem := { s.mem with synd := sparseSet 0 (a / 8) 0xFF s.mem.synd } } else s

/-- Remap and repair decisions of R305 after an event that is not INJECTED; a remap takes effect at the end of the strike. -/
def repairEvent (s : State) (c inst a : Nat) (isUe : Bool) : State :=
  let ck := checkerGet s c
  if 32 ≤ c then
    let idx := wordIndex a
    let w := inst * 2 ^ 40 + idx
    if ck.remaps.contains (inst, idx) then s
    else if isUe || ck.recent.any (fun r => r.1 == w) then
      let others := ck.dueRemaps.filter (fun r => !(r.1 == inst && r.2.1 == idx))
      let ue := isUe || ck.dueRemaps.any (fun r => r.1 == inst && r.2.1 == idx && r.2.2.2)
      checkerMod s c (fun k => { k with dueRemaps := others ++ [(inst, idx, a, ue)], recent := k.recent.filter (fun r => r.1 != w) })
    else checkerMod s c (fun k => { k with recent := k.recent ++ [(w, now s)] })
  else
    let row := Config.rowOf a
    let near := ck.recent.filter (fun r => now s ≤ r.2 + 16 * 4096)
    let hit := isUe || near.any (fun r => r.1 != a && Config.rowOf r.1 == row)
    let s1 := checkerMod s c (fun k => { k with recent := near ++ [(a, now s)] })
    if hit && !ck.pendingRows.contains row then
      logPersistent (checkerMod s1 c (fun k => { k with pendingRows := k.pendingRows ++ [row],
                                                        exhausted := k.exhausted || !Config.rowHasSpare row }))
        (.pendingRow (if c < 16 then 1 else 2) (c % 16) row)
    else s1

/-- A remap takes effect: the spare holds the corrected word, or the poisoned one where the word is still unreadable; a full cluster leaves
the word in place (R305). -/
def installRemap (s : State) (c inst idx a : Nat) (isUe : Bool) : State :=
  let ck := checkerGet s c
  let used := (ck.remaps.filter (fun r => clusterOf r.1 r.2 == clusterOf inst idx)).length
  if used < 16 then
    let unreadable := isUe && a < 2 ^ 64 && sparseGet 0 (a / 8) s.mem.synd != 0
    logPersistent (checkerMod (if unreadable then poisonWord s a else s) c (fun k => { k with
      remaps := k.remaps ++ [(inst, idx)], repaired := satInc16 k.repaired, remapFull := k.remapFull || used == 15 }))
      (.remap (c - 32) inst idx)
  else checkerMod s c (fun k => { k with remapFull := true })

/-- At the end of a strike its remaps take effect (R305). -/
def installRemaps (s : State) : State :=
  (List.range 4).foldl (fun t q =>
    let c := 32 + q
    (checkerGet t c).dueRemaps.foldl (fun u r => installRemap u c r.1 r.2.1 r.2.2.1 r.2.2.2) (checkerMod t c (fun k => { k with dueRemaps := [] }))) s

/-- One CE, UE or poison read at a word goes to its checker's log, the counters and the sticky bit (R301, R302). -/
def eccLog (s : State) (a : Nat) (sy : BitVec 8) (kind : BitVec 2) : State :=
  let (c, inst, owner) := wordChecker s a
  let inj := s.mem.injected.contains a
  let addr : Word := BitVec.ofNat 64 (logAddr a)
  let s1 := checkerMod s c (fun k => logEvent k addr (BitVec.ofNat 16 inst) sy kind inj s.seq.strike)
  let s2 := if kind = 0 then
      checkerMod s1 c (fun k => if c < 32 then { k with ceCount := satInc16 k.ceCount }
        else { k with instCe := sparseSet 0 inst (satInc16 (sparseGet 0 inst k.instCe)) k.instCe })
    else s1
  stickySet (count s2 owner (if kind = 0 then 0 else 1) 1) owner (if kind = 0 then 0 else 1)

/-- One CE, UE or poison read at a word, with its repair unless it is INJECTED (R301, R305). -/
def eccEvent (s : State) (a : Nat) (sy : BitVec 8) (kind : BitVec 2) : State :=
  let (c, inst, _) := wordChecker s a
  let s1 := eccLog s a sy kind
  if s.mem.injected.contains a then s1 else repairEvent s1 c inst a (kind ≠ 0)

/-- Flip data bit i of the word at a. -/
def flipCell (m : List Host.Cell) (a i : Nat) : List Host.Cell :=
  cellSet (a + i / 8) (cellGet (a + i / 8) m ^^^ BitVec.ofNat 8 (2 ^ (i % 8))) m

/-- Decode one word on a read: a CE is written back corrected, a UE or poison read fails the access (R296). (DEDUCED, unsafe: log entry 13.) -/
def readWord (s : State) (a : Nat) : State × Bool :=
  match sparseGet 0 (a / 8) s.mem.synd with
  | 0 => (s, true)
  | sy =>
    match decodeSyndrome sy with
    | .clean => (s, true)
    | .ceCheck =>
      let s1 := eccEvent s a sy 0
      ({ s1 with mem := { s1.mem with synd := sparseErase (a / 8) s1.mem.synd,
                                      injected := s1.mem.injected.filter (· != a) } }, true)
    | .ceData i =>
      let s1 := eccEvent s a sy 0
      ({ s1 with mem := { s1.mem with synd := sparseErase (a / 8) s1.mem.synd, cells := flipCell s1.mem.cells a i,
                                      injected := s1.mem.injected.filter (· != a) } }, true)
    | .poison => (eccEvent s a sy 2, false)
    | .ue => (eccEvent s a sy 1, false)

/-- Words of a range whose stored code is not clean, ascending. -/
def dirtyWords (s : State) (a n : Nat) : List Nat :=
  (s.mem.synd.filter (fun e => a / 8 ≤ e.1 && e.1 * 8 < a + n)).map (fun e => e.1 * 8)

/-- Merge entries laid over a stored byte (R299). -/
def mergedByte (s : State) (b : Byte) (a : Nat) : Byte :=
  match placeOf s a with
  | .scratch k =>
    match (sparseGet [] k s.mem.merge).find? (fun e => e.addr == a / 8 * 8 && e.mask.getLsbD (a % 8)) with
    | some e => BitVec.ofNat 8 (e.bytes.toNat / 2 ^ (8 * (a % 8)))
    | none => b
  | _ => b

/-- What an access to memory gives: the bytes, the lowest failing word if any, the state after (R296, R307). -/
structure ReadOut where
  bytes : List Byte
  bad : Option Nat
  st : State

/-- The first word of a range outside memory (R29), judged at each 4 KiB piece; none where all of it is memory. -/
def firstUnmapped (s : State) (a n : Nat) : Option Nat :=
  if rangeOk s isMemory a n then none
  else ((List.range ((a + n - 1) / 4096 - a / 4096 + 1)).map (fun i => Nat.max a ((a / 4096 + i) * 4096))).find? (fun x => !isMemory s x)

/-- Read n bytes at a: every word of the access is decoded; an unmapped word reads as an uncorrectable error does (R29). -/
def memRead (s : State) (a n : Nat) : ReadOut :=
  let (s1, bad0) := (dirtyWords s a n).foldl
    (fun (acc : State × Option Nat) w =>
      let (t, ok) := readWord acc.1 w
      (t, if ok then acc.2 else acc.2.or (some w))) (s, none)
  let bad := match firstUnmapped s a n, bad0 with
    | some x, some y => some (Nat.min (x / 8 * 8) y)
    | some x, none => some (x / 8 * 8)
    | none, b => b
  let bs := cellsGet s1.mem.cells a n
  let bs' := if s1.mem.merge.isEmpty then bs else (List.range n).map (fun i => mergedByte s1 (bs.getD i 0) (a + i))
  { bytes := bs', bad := bad, st := if bad.isSome then { s1 with mem := { s1.mem with badWord := bad } } else s1 }

/-- The merge entries of a bank. -/
def mergeGet (m : Mem) (bank : Nat) : List MergeEntry := sparseGet [] bank m.merge

def mergePut (m : Mem) (bank : Nat) (es : List MergeEntry) : Mem :=
  { m with merge := sparseSet [] bank es m.merge }

/-- Drop merge entries of a word (a full-word write discards them). -/
def mergeDrop (m : Mem) (bank a : Nat) : Mem := mergePut m bank ((mergeGet m bank).filter (fun e => e.addr != a))

/-- A checker armed on word a XORs its masks into the next write of it and disarms (R306). -/
def flipApply (s : State) (a : Nat) : State :=
  let (c, inst, _) := wordChecker s a
  let ck := checkerGet s c
  let target := if c < 32 then a else inst * 2 ^ 48 + wordIndex a
  if ck.flipArm && ck.flipAddr.toNat == target then
    let lo := ck.flipLo.toNat
    let sy := checkOf lo ^^^ ck.flipMask.toNat
    let cells := (List.range 64).foldl (fun m i => if bit lo i then flipCell m a i else m) s.mem.cells
    let old := (sparseGet 0 (a / 8) s.mem.synd).toNat
    let s1 := { s with mem := { s.mem with cells := cells, synd := sparseSet 0 (a / 8) (BitVec.ofNat 8 (old ^^^ sy)) s.mem.synd,
                                           injected := a :: s.mem.injected.filter (· != a) } }
    checkerMod s1 c (fun k => { k with flipArm := false, flipLo := 0, flipMask := 0 })
  else s

/-- Store a whole word: the code becomes clean, then a flip mask may act. (DEDUCED, unsafe: log entry 13.) -/
def storeWord (s : State) (a : Nat) (bs : List Byte) : State :=
  let s1 := { s with mem := { s.mem with cells := cellsPut a bs s.mem.cells, synd := sparseErase (a / 8) s.mem.synd,
                                         injected := s.mem.injected.filter (· != a) } }
  let s2 := match placeOf s a with
    | .scratch k => { s1 with mem := mergeDrop s1.mem k a }
    | _ => s1
  flipApply s2 a

/-- Read-modify-write of the word holding bytes at a: a UE poisons the word with the merged bytes (R300). -/
def rmwWord (s : State) (a : Nat) (bs : List Byte) : State :=
  let w := a / 8 * 8
  let (s1, ok) := readWord s w
  let cells := cellsPut a bs s1.mem.cells
  if ok then
    flipApply { s1 with mem := { s1.mem with cells := cells, synd := sparseErase (w / 8) s1.mem.synd,
                                             injected := s1.mem.injected.filter (· != w) } } w
  else
    flipApply { s1 with mem := { s1.mem with cells := cells, synd := sparseSet 0 (w / 8) 0xFF s1.mem.synd,
                                             injected := s1.mem.injected.filter (· != w) } } w

/-- Bytes of a merge entry as (offset, byte) stores. -/
def mergeBytes (e : MergeEntry) : List (Nat × Byte) :=
  (List.range 8).filterMap (fun i => if e.mask.getLsbD i then
    some (e.addr + i, BitVec.ofNat 8 (e.bytes.toNat / 2 ^ (8 * i))) else none)

/-- Flush one merge entry: a full mask is written without a read, any other by one read-modify-write (R299). -/
def mergeFlushEntry (s : State) (bank : Nat) (e : MergeEntry) : State :=
  let s1 := { s with mem := mergeDrop s.mem bank e.addr }
  if e.mask = 0xFF then storeWord s1 e.addr (leBytes 8 e.bytes.toNat)
  else
    let (s2, ok) := readWord s1 e.addr
    let cells := (mergeBytes e).foldl (fun m (a, b) => cellSet a b m) s2.mem.cells
    if ok then
      flipApply { s2 with mem := { s2.mem with cells := cells, synd := sparseErase (e.addr / 8) s2.mem.synd,
                                               injected := s2.mem.injected.filter (· != e.addr) } } e.addr
    else
      flipApply { s2 with mem := { s2.mem with cells := cells, synd := sparseSet 0 (e.addr / 8) 0xFF s2.mem.synd,
                                               injected := s2.mem.injected.filter (· != e.addr) } } e.addr

/-- Flush every entry of a bank, oldest first. -/
def mergeFlushBank (s : State) (bank : Nat) : State :=
  (sparseGet [] bank s.mem.merge).foldl (fun t e => mergeFlushEntry t bank e) s

/-- Merge a byte list (within one word at offset o) into a word value and mask. -/
def mergeInto (e : MergeEntry) (o : Nat) (bs : List Byte) : MergeEntry :=
  let ws := splice (leBytes 8 e.bytes.toNat) o bs
  { e with bytes := BitVec.ofNat 64 (leNat ws),
           mask := e.mask ||| BitVec.ofNat 8 ((2 ^ bs.length - 1) * 2 ^ o) }

/-- A narrow write to SRAM: merges, or takes an entry, flushing the oldest of 16 first; a full mask flushes (R299). -/
def mergeWrite (s : State) (bank a : Nat) (bs : List Byte) : State :=
  let w := a / 8 * 8
  let es := sparseGet [] bank s.mem.merge
  match es.find? (fun e => e.addr == w) with
  | some e =>
    let e' := mergeInto e (a % 8) bs
    let s1 := { s with mem := mergePut s.mem bank (es.map (fun x => if x.addr == w then e' else x)) }
    if e'.mask = 0xFF then mergeFlushEntry s1 bank e' else s1
  | none =>
    let s1 := if 16 ≤ es.length then (match es with
      | e :: _ => mergeFlushEntry s bank e
      | [] => s) else s
    let e' := mergeInto { addr := w, mask := 0, bytes := 0 } (a % 8) bs
    { s1 with mem := mergePut s1.mem bank (mergeGet s1.mem bank ++ [e']) }

/-- A write meets an unmapped word: it changes nothing, and the bus error reports the lowest such word (R29, R307). (DEDUCED, unsafe: log entry 68.) -/
def busError (s : State) (a : Nat) : State :=
  { s with mem := { s.mem with badWord := some (match s.mem.badWord with
    | some b => Nat.min b (a / 8 * 8)
    | none => a / 8 * 8) } }

/-- Write bytes that lie in one word. -/
def writeInWord (s : State) (a : Nat) (bs : List Byte) : State :=
  if !isMemory s a then busError s a
  else if bs.length = 8 then storeWord s a bs
  else match placeOf s a with
    | .scratch k => mergeWrite s k a bs
    | _ => rmwWord s a bs

/-- Write a byte list word by word, over the words it touches. -/
def memWriteWords : Nat → State → Nat → List Byte → State
  | 0, s, _, _ => s
  | n + 1, s, a, bs =>
    if bs.isEmpty then s
    else
      let k := 8 - a % 8
      memWriteWords n (writeInWord s a (bs.take k)) (a + k) (bs.drop k)

/-- Write bytes at an address of memory. -/
def memWrite (s : State) (a : Nat) (bs : List Byte) : State := memWriteWords (bs.length + 1) s a bs

/-- Write a list of (address, bytes). -/
def memWriteAll (s : State) (ws : List (Nat × List Byte)) : State := ws.foldl (fun t w => memWrite t w.1 w.2) s

/-- Read by reference for a VMP command: bytes, or the status R349 gives (unmapped BAD_LENGTH, unreadable UE_DATA). (DEDUCED, unsafe: log entry 67.) -/
def readRef (s : State) (a n : Nat) : State × Except (BitVec 16) (List Byte) :=
  if !rangeOk s isTier a n then (s, .error 0x0102)
  else
    let r := memRead s a n
    match r.bad with
    | some _ => (r.st, .error 0x0400)
    | none => (r.st, .ok r.bytes)

end Sys2Proof.Machine
end

