-- ==== Sys2Proof/Machine/Flags.lean ====
section
/-!
DEFINITION. Status flags: a unit's own state and RUN_STATE (R18), the capability word (R17), child masks (R21), group values
(R24, R433), and the value each unit control page register reads.
-/
namespace Sys2Proof.Machine

/-- The job whose plan runs on the device, if any. -/
def runningJob (s : State) : Option Job := s.seq.jobs.find? (fun j => j.phase == .running)

def queuedJobs (s : State) : List Job := s.seq.jobs.filter (fun j => j.phase == .queued)

/-- A plan is queued or running on the device. -/
def planLive (s : State) : Bool := s.seq.jobs.any (fun j => j.phase != .ended)

def anyFlag (s : State) (k : Nat) (f : UnitFlags → Bool) : Bool :=
  (selfAndAncestors k).any (fun a => f (unitGet s a).flags)

/-- GROUP of a plan (R113). -/
def plGroup (p : List Byte) : Uid := BitVec.ofNat 32 (fieldN p 0x10 4)

/-- The state of a unit that is not offline, recovering, in reset or fenced: it follows the running plan (R18, R128). -/
def planState (s : State) : Nat :=
  if (runningJob s).isSome then
    match s.seq.kind with
    | .run => 2
    | .hold => 3
    | .replay => 6
  else 1

/-- Own state of a unit (R18), in the encoding of RUN_STATE. (DEDUCED, safe: log entry 15.) -/
def ownState (s : State) (k : Nat) : Nat :=
  if anyFlag s k (·.offline) then 7
  else if anyFlag s k (·.recovering) then 4
  else if anyFlag s k (·.resetting) then 0
  else if anyFlag s k (·.fenced) then 5
  else planState s

/-- The first state of R18's order among those of a unit and its descendants, OFFLINE left out. -/
def firstState (own : Nat) (below : List Nat) : Nat :=
  let all := own :: below.filter (· != 7)
  ([0, 4, 6, 5, 3, 2, 1].find? (fun x => all.contains x)).getD own

/-- RUN_STATE: the first of RESET, RECOVERING, REPLAYING, FENCED, HOLDING, RUNNING, IDLE that the unit or a descendant
holds. A descendant whose page is not listed has its parent's own state, so the listed ones suffice. (DEDUCED, safe: log entry 15.) -/
def runState (s : State) (k : Nat) : Nat :=
  let own := ownState s k
  if own = 7 then 7
  else
    let below := (s.units.pages.filter (fun e => covers k e.1 && e.1 != k)).map (fun e => ownState s e.1)
    firstState own below

/-- A unit is fenced or lies within one that is. -/
def isFenced (s : State) (k : Nat) : Bool := anyFlag s k (·.fenced)

/-- The unit reaches a fenced unit: itself, an ancestor or a descendant. (DEDUCED, unsafe: log entry 18.) -/
def reachesFenced (s : State) (k : Nat) : Bool :=
  isFenced s k || s.units.pages.any (fun e => covers k e.1 && e.2.flags.fenced && !isOffline s e.1)

def childCount (s : State) (u : Uid) : Nat :=
  match keyLevel u.toNat with
  | 1 => 32
  | 2 => 5
  | 3 => 4
  | 4 => 4
  | 5 => match groupOf s u with
    | some g => g.members.length
    | none => 0
  | _ => 0

/-- UCP.ID. -/
def idWord (s : State) (u : Uid) : Word :=
  BitVec.ofNat 64 (u.toNat * 2 ^ 32 + childCount s u * 2 ^ 20 + 0x01 * 2 ^ 8 + 0xA0)

/-- Columns in service within a unit at level 2 or above. -/
def columnsInService (s : State) (k : Nat) : Nat :=
  (((List.range 16).map columnKey).filter (fun c => covers k c && !isOffline s c)).length

/-- Cores in service within a unit (R17). -/
def coresInService (s : State) (k : Nat) : Nat :=
  match keyLevel k with
  | 0 => if isOffline s k then 0 else 1
  | 1 => if isOffline s k then 0 else 32
  | _ => 160 * columnsInService s k

/-- UCP.CAPS of a local unit (R17). -/
def capsLocal (s : State) (k : Nat) : Word :=
  let lvl := keyLevel k
  let nStacks := if lvl < 2 then 0 else columnsInService s k
  let far := lvl == 4 && s.form.farGib != 0
  let engines := decide (2 ≤ lvl)
  let hardy := decide (1 ≤ lvl)
  let fabric := decide (3 ≤ lvl)
  BitVec.ofNat 64 (nStacks * 2 ^ 48 + coresInService s k * 2 ^ 24 + boolNat far * 2 ^ 7 + boolNat (lvl == 4) * 2 ^ 6 +
    boolNat engines * 2 ^ 5 + boolNat hardy * 2 ^ 4 + 2 ^ 3 + boolNat fabric * 2 ^ 2 + boolNat engines * 2)

def reflectedGet (s : State) (d : Nat) : Option Reflected := sparseGet none d (s.units.reflected.map (fun e => (e.1, some e.2)))

/-- The lock bit of UCP.STATE. -/
def strikeLocked (s : State) : Bool := s.tb.lock == .locked

/-- UCP.STATE of a local unit. -/
def stateLocal (s : State) (k : Nat) : Word :=
  let p := (unitGet s k).page
  BitVec.ofNat 64 (ownState s k * 2 ^ 8 + runState s k * 2 ^ 4 + boolNat (strikeLocked s) * 4 +
    boolNat p.retainFabric * 2 + boolNat p.retainMemory)

/-- A remote member of which nothing has been heard yet. -/
def Reflected.unknown : Reflected :=
  { sticky := 0, active := 0, previous := 0, fenced := false, counters := [], caps := 0, state := 0 }

/-- What a group page takes from a member's device unit: sticky, epochs, fenced, counters, CAPS and STATE (R24). -/
def memberView (s : State) (d : Nat) : Reflected :=
  if d = s.form.device then
    let u := unitGet s devKey
    { sticky := u.page.sticky, active := u.page.active, previous := u.page.previous,
      fenced := isFenced s devKey, counters := (List.range 32).map (fun c => sparseGet 0 c u.page.counters),
      caps := capsLocal s devKey, state := stateLocal s devKey }
  else (reflectedGet s d).getD Reflected.unknown

/-- A member's own state as its page shows it to a group. -/
def viewOwn (v : Reflected) : Nat := bits v.state.toNat 11 8

/-- (DEDUCED, unsafe: log entry 8.) -/
def groupViews (s : State) (g : GroupDef) : List Reflected := g.members.map (memberView s)

/-- The common value of a list, 0 when two differ (R433). -/
def common (l : List (BitVec 32)) : BitVec 32 :=
  match l with
  | [] => 0
  | x :: xs => if xs.all (· == x) then x else 0

def groupActive (s : State) (g : GroupDef) : BitVec 32 := common ((groupViews s g).map (·.active))

def groupSticky (s : State) (g : GroupDef) : Word := (groupViews s g).foldl (fun acc v => acc ||| v.sticky) 0

/-- UCP.CAPS of a group (R17): the sums of its members' CORES and STACKS, the AND of their flags, and RECOVER and both RETAIN flags 0. (DEDUCED, unsafe: log entry 8.) -/
def capsGroup (s : State) (g : GroupDef) : Word :=
  let vs := (groupViews s g).map (fun v => v.caps.toNat)
  let flag (b : Nat) : Bool := vs.all (fun v => bit v b)
  BitVec.ofNat 64 (sumNat (vs.map (fun v => bits v 63 48)) % 2 ^ 16 * 2 ^ 48 + sumNat (vs.map (fun v => bits v 47 24)) % 2 ^ 24 * 2 ^ 24 +
    boolNat (flag 7) * 2 ^ 7 + boolNat (flag 6) * 2 ^ 6 + boolNat (flag 5) * 2 ^ 5 + boolNat (flag 4) * 2 ^ 4)

def groupCounter (s : State) (g : GroupDef) (c : Nat) : Word :=
  satAdd 0 (sumNat ((groupViews s g).map (fun v => (v.counters.getD c 0).toNat)))

/-- Active epoch of a target, for R349 check 8 and a response's EPOCH field. -/
def targetEpoch (s : State) (u : Uid) : BitVec 32 :=
  if keyLevel u.toNat = 5 then
    match groupOf s u with
    | some g => groupActive s g
    | none => 0
  else (unitGet s (uidKey u)).page.active

/-- EPOCH of a response (R348, R433): the target's active epoch; the device unit's where the command ignores TARGET (R351) or TARGET
names no unit here. (DEDUCED, unsafe: log entry 19.) -/
def replyEpoch (s : State) (op : Nat) (u : Uid) : BitVec 32 :=
  let here := if keyLevel u.toNat = 5 then (groupOf s u).isSome else uidShape u.toNat && uidDevice u == s.form.device
  if op = 1 || op = 2 || !here then (unitGet s devKey).page.active else targetEpoch s u

/-- Keys of a unit's children, by child number (R21). -/
def childKeys (k : Nat) : List Nat :=
  match keyLevel k with
  | 1 => (List.range 32).map (fun c => k - 2 ^ 28 + c * 16)
  | 2 => (List.range 5).map (fun d => k - 2 ^ 28 + d * 2 ^ 9)
  | 3 => (List.range 4).map (fun c => k - 2 ^ 28 + c * 2 ^ 12)
  | 4 => (List.range 4).map quadKey
  | _ => []

/-- One 64-bit word of a child mask. -/
def maskWord (l : List Bool) (w : Nat) : Word :=
  BitVec.ofNat 64 (((List.range 64).filter (fun i => l.getD (64 * w + i) false)).foldl (fun acc i => acc + 2 ^ i) 0)

/-- CHILD_FENCED bits: the child is fenced or missed its commit (R53). (DEDUCED, safe: log entry 15.) -/
def childFenced (s : State) (u : Uid) : List Bool :=
  if keyLevel u.toNat = 5 then
    match groupOf s u with
    | some g => (groupViews s g).map (·.fenced)
    | none => []
  else (childKeys (uidKey u)).map (fun c => (unitGet s c).flags.fenced || (unitGet s c).flags.missed)

/-- CHILD_DOWN bits: the child's own state is RESET or RECOVERING. (DEDUCED, safe: log entry 15.) -/
def childDown (s : State) (u : Uid) : List Bool :=
  if keyLevel u.toNat = 5 then
    match groupOf s u with
    | some g => (groupViews s g).map (fun v => viewOwn v == 0 || viewOwn v == 4)
    | none => []
  else (childKeys (uidKey u)).map (fun c => ownState s c == 0 || ownState s c == 4)

/-- A group's own state: RESET while a reset of the group is in progress, else that of the plan that runs on it (R10, R18). -/
def groupOwn (s : State) (g : GroupDef) : Nat :=
  let u := 5 * 2 ^ 28 + g.group * 2 ^ 16
  if (unitGet s u).flags.resetting then 0
  else if (runningJob s).any (fun j => (plGroup j.plan).toNat == u) then planState s
  else 1

/-- A reset of a group is over once no member's page shows RESET. -/
def settleGroups (s : State) : State :=
  (localGroups s).foldl (fun t g =>
    let u := 5 * 2 ^ 28 + g.group * 2 ^ 16
    if (unitGet t u).flags.resetting && !(groupViews t g).any (fun v => viewOwn v == 0) then flagsMod t u (fun f => { f with resetting := false }) else t) s

/-- UCP.STATE. A group's RUN_STATE follows its own state and those its members' pages show, LOCKED and both RETAIN bits are their AND
(R10, R18, R24). -/
def stateWord (s : State) (u : Uid) : Word :=
  if keyLevel u.toNat = 5 then
    match groupOf s u with
    | some g =>
      let vs := (groupViews s g).map (fun v => v.state.toNat)
      BitVec.ofNat 64 (groupOwn s g * 2 ^ 8 + firstState (groupOwn s g) (vs.map (fun v => bits v 7 4)) * 2 ^ 4 +
        boolNat (vs.all (fun v => bit v 2)) * 4 + boolNat (vs.all (fun v => bit v 1)) * 2 + boolNat (vs.all (fun v => bit v 0)))
    | none => 0
  else stateLocal s (uidKey u)

def holdWord (s : State) : Word := BitVec.ofNat 64 s.seq.hold

/-- UCP.PLAN_STEP: the strike minus the accumulated hold (R13). -/
def planStep (s : State) : Word := s.seq.strike - holdWord s

/-- Comparator fields: deadline, held value, EN, OWNER, FIRED. -/
def wdGet (p : UnitPage) (k : Nat) : Word :=
  match k with
  | 0 => p.wd0 | 1 => p.wd1 | 2 => p.wd2 | _ => p.wd3

def wdHeld (p : UnitPage) (k : Nat) : Word :=
  match k with
  | 0 => p.held0 | 1 => p.held1 | 2 => p.held2 | _ => p.held3

def wdSet (p : UnitPage) (k : Nat) (v : Word) : UnitPage :=
  match k with
  | 0 => { p with wd0 := v } | 1 => { p with wd1 := v } | 2 => { p with wd2 := v } | _ => { p with wd3 := v }

def wdEn (p : UnitPage) (k : Nat) : Bool := p.wdCtrl.getLsbD (8 * k + 7)
def wdOwner (p : UnitPage) (k : Nat) : Nat := bits p.wdCtrl.toNat (8 * k + 6) (8 * k + 4)
def wdFired (p : UnitPage) (k : Nat) : Bool := p.wdCtrl.getLsbD (8 * k)
/-- FIRED is set, and the comparator waits for the next write of its deadline (R19). -/
def wdFire (p : UnitPage) (k : Nat) : UnitPage :=
  { p with wdCtrl := p.wdCtrl ||| BitVec.ofNat 32 (2 ^ (8 * k)), armed := p.armed &&& ~~~ BitVec.ofNat 4 (2 ^ k) }
/-- The comparator has not fired since its deadline was written. -/
def wdArmed (p : UnitPage) (k : Nat) : Bool := p.armed.getLsbD k
/-- A deadline is written: the comparator may fire for it. -/
def wdWrite (p : UnitPage) (k : Nat) (v : Word) : UnitPage := { wdSet p k v with armed := p.armed ||| BitVec.ofNat 4 (2 ^ k) }

/-- The control byte of comparators 2 and 3 at the device unit for OPTIMEOUT_WD and LEASE_HEATS (R362). -/
def wdCtrlFor (k opTimeout leaseHeats : Nat) (old : BitVec 32) : BitVec 32 :=
  let fired := old &&& 0x01010101
  let c2 : Nat := if k = devKey && 1 ≤ opTimeout then 0xA0 else 0x20
  let c3 : Nat := if k = devKey && leaseHeats ≠ 0 then 0xB0 else if k = devKey && 2 ≤ opTimeout then 0xA0 else 0x20
  (BitVec.ofNat 32 (0x9080 + c2 * 2 ^ 16 + c3 * 2 ^ 24)) ||| fired

end Sys2Proof.Machine
end

