-- ==== Sys2Proof/Machine/TableGeom.lean ====
section
/-!
DEFINITION. Geometry of embedding tables (R217 to R220): fields of a table definition, slot sizes, and the slots a member holds.
-/
namespace Sys2Proof.Machine

def tabKind (b : List Byte) : Nat := byteAt b 4
def tabRowType (b : List Byte) : Nat := byteAt b 5
def tabDim (b : List Byte) : Nat := fieldN b 6 2
def tabRows (b : List Byte) : Nat := fieldN b 8 8
def tabRowsB (b : List Byte) : Nat := fieldN b 0x10 8
def tabFamily (b : List Byte) : Nat := byteAt b 0x18
def tabCombine (b : List Byte) : Nat := byteAt b 0x19
def tabOptim (b : List Byte) : Nat := byteAt b 0x1A
def tabRmode (b : List Byte) : Nat := byteAt b 0x1B

/-- Element width in bytes of a row type. -/
def rowElemBytes (ty : Nat) : Nat :=
  match ty with
  | 0x10 => 2 | 0x11 => 2 | 0x12 => 4 | _ => 1

/-- Row stride RS (R220). -/
def rowStride (b : List Byte) : Nat :=
  roundUp (tabDim b * rowElemBytes (tabRowType b) + (if tabRowType b = 0x01 then 2 else 0)) 64

/-- Momentum bytes MS. -/
def momentumBytes (b : List Byte) : Nat := if tabOptim b = 2 then roundUp (4 * tabDim b) 64 else 0

/-- Slot size SB. -/
def slotBytes (b : List Byte) : Nat := rowStride b + 64 + momentumBytes b

/-- Slots that group position p of N holds (R219). -/
def slotsAt (b : List Byte) (p n : Nat) : Nat :=
  if tabKind b = 2 then tabRows b + tabRowsB b else if n = 0 then 0 else ceilDiv (tabRows b - p) n

/-- Address of slot k of a version. -/
def slotAddr (b : List Byte) (v : TableVersion) (k : Nat) : Nat :=
  if k < v.nearSlots then v.nearBase.toNat + k * slotBytes b else v.farBase.toNat + (k - v.nearSlots) * slotBytes b

/-- Members of a table's group and the local position. -/
def groupMembers (s : State) (u : Uid) : List Nat :=
  if keyLevel u.toNat = 5 then
    match groupOf s u with
    | some g => g.members
    | none => []
  else [uidDevice u]

def groupPos (s : State) (u : Uid) : Nat :=
  ((groupMembers s u).findIdx? (· == s.form.device)).getD 0

/-- Slot ranges of a version's redirected and migrating rows on this device: the old owner's stay its own until the forwarding window is
over and END has been sent (R240). -/
def movedRanges (s : State) (t : EmbTable) (v : TableVersion) : List (Nat × Nat) :=
  let me := groupPos s t.group
  ((v.redirects.filter (fun r => r.member == me)).map (fun r => (r.addr.toNat, slotBytes t.body))) ++
    (match v.migration with
     | some g => (if g.dst = me then [(g.addr, g.rows.length * slotBytes t.body)] else []) ++
         (if g.src = me then g.old.map (fun a => (a, slotBytes t.body)) else [])
     | none => [])

/-- Address ranges a version's slots hold on this device. -/
def versionRanges (s : State) (t : EmbTable) (v : TableVersion) : List (Nat × Nat) :=
  let n := slotsAt t.body (groupPos s t.group) (groupMembers s t.group).length
  let near := Nat.min n v.nearSlots
  let sb := slotBytes t.body
  (if near = 0 then [] else [(v.nearBase.toNat, near * sb)]) ++
    (if n - near = 0 then [] else [(v.farBase.toNat, (n - near) * sb)])

/-- Overlap of two ranges, in bytes. -/
def overlapBytes (a b : Nat × Nat) : Nat := Nat.min (a.1 + a.2) (b.1 + b.2) - Nat.max a.1 b.1

end Sys2Proof.Machine
end

