-- ==== Sys2Proof/Machine/ConfigOps.lean ====
section
/-!
DEFINITION. Configuration records and sets: format, composition over the active set, validation in the order of R358, the
shared resources of R362, and what applying a set loads into registers (R9, R357 to R362, R424).
-/
namespace Sys2Proof.Machine

/-! ### Records (R357) -/

def recEpoch (r : List Byte) : Nat := fieldN r 8 4
def recTarget (r : List Byte) : Uid := BitVec.ofNat 32 (fieldN r 0xC 4)
def recNparam (r : List Byte) : Nat := fieldN r 0x10 4
def recGroupBytes (r : List Byte) : Nat := fieldN r 0x14 4
def recRouteBytes (r : List Byte) : Nat := fieldN r 0x18 4
def recSigned (r : List Byte) : Bool := bit (fieldN r 6 2) 0

/-- The header format of R357: fields within the table, TOTAL_BYTES equal to the sum and to the bytes given; reserved fields are ignored (R5). -/
def recFormatOk (r : List Byte) (n : Nat) : Bool :=
  decide (64 ≤ r.length) && fieldN r 0 4 == 0x46434849 && fieldN r 4 2 == 0x0100 && decide (1 ≤ recEpoch r) && decide (recNparam r ≤ 16384) && recGroupBytes r % 4 == 0 &&
  (recRouteBytes r == 0 || recRouteBytes r == 16384) && decide (fieldN r 0x1C 4 ≤ 2 ^ 20) &&
  fieldN r 0x1C 4 == 64 + 16 * recNparam r + recGroupBytes r + recRouteBytes r + (if recSigned r then 96 else 0) &&
  fieldN r 0x1C 4 == n && r.length == n

def recParams (r : List Byte) : List Param :=
  (List.range (recNparam r)).map (fun i =>
    let o := 0x40 + 16 * i
    { id := fieldN r o 2, index := fieldN r (o + 2) 2, scope := BitVec.ofNat 32 (fieldN r (o + 4) 4),
      value := BitVec.ofNat 64 (fieldN r (o + 8) 8) })

/-- The groups section; none when it does not parse (fuel: an entry takes at least 4 bytes). -/
def parseGroups : Nat → List Byte → Option (List GroupDef)
  | 0, _ => some []
  | n + 1, bs =>
    if bs.isEmpty then some []
    else
      let g := fieldN bs 0 2
      let c := fieldN bs 2 2
      let len := roundUp (4 + 2 * c) 4
      if bs.length < len || 1023 < g || 1024 < c then none
      else
        (parseGroups n (bs.drop len)).map
          (fun l => { group := g, members := (List.range c).map (fun i => fieldN bs (4 + 2 * i) 2) } :: l)

def recGroups (r : List Byte) : Option (List GroupDef) :=
  let bs := slice r (0x40 + 16 * recNparam r) (recGroupBytes r)
  parseGroups (bs.length + 1) bs

def recRoute (r : List Byte) : List (BitVec 32) :=
  if recRouteBytes r = 0 then []
  else
    let o := 0x40 + 16 * recNparam r + recGroupBytes r
    (List.range 4096).map (fun i => BitVec.ofNat 32 (fieldN r (o + 4 * i) 4))

def recOwnerSig (r : List Byte) : List Byte := if recSigned r then r.drop (r.length - 96) else []

/-- Compose a record over an active set: its entries replace those of the same ID, INDEX and SCOPE, its groups replace
theirs (COUNT 0 removes), its routing section replaces the bank (R357). -/
def composeSet (r : List Byte) (act : ConfigSet) : ConfigSet :=
  let ps := recParams r
  let same (a b : Param) : Bool := a.id == b.id && a.index == b.index && a.scope == b.scope
  let gs := (recGroups r).getD []
  { epoch := BitVec.ofNat 32 (recEpoch r),
    params := act.params.filter (fun a => !ps.any (same a)) ++ ps,
    groups := (act.groups.filter (fun a => !gs.any (fun g => g.group == a.group)) ++ gs).filter (fun g => !g.members.isEmpty),
    route := if recRouteBytes r = 0 then act.route else recRoute r,
    ownerSig := recOwnerSig r, ownerBody := if recSigned r then r.take (r.length - 96) else [], deviceSig := [], inFlash := false }

/-- A composed set as a record for a target (R361): the entries in the order held; an owner signature follows. -/
def setRecord (c : ConfigSet) (target : Uid) : List Byte :=
  let grp := c.groups.flatMap (fun g =>
    let body := leBytes 2 g.group ++ leBytes 2 g.members.length ++ g.members.flatMap (leBytes 2)
    body ++ List.replicate (roundUp body.length 4 - body.length) 0)
  let rt := c.route.flatMap (fun e => leBytes 4 e.toNat)
  let n := 64 + 16 * c.params.length + grp.length + rt.length + c.ownerSig.length
  leBytes 4 0x46434849 ++ leBytes 2 0x0100 ++ leBytes 2 (if c.ownerSig.isEmpty then 0 else 1) ++ leBytes 4 c.epoch.toNat ++
    leBytes 4 target.toNat ++ leBytes 4 c.params.length ++ leBytes 4 grp.length ++ leBytes 4 rt.length ++ leBytes 4 n ++
    List.replicate 32 0 ++
    c.params.flatMap (fun p => leBytes 2 p.id ++ leBytes 2 p.index ++ leBytes 4 p.scope.toNat ++ leBytes 8 p.value.toNat) ++
    grp ++ rt ++ c.ownerSig

/-! ### Owner policy (R398) -/

def ownerPolicy (s : State) : Nat := fieldN s.boot.ownerRecord 6 2
def ownerKeys (rec : List Byte) : List (List Byte) :=
  (List.range (byteAt rec 0xC)).map (fun i => slice rec (0x10 + 97 * i) 97)

/-- A signature verifies under an enrolled owner key. -/
def ownerVerifies (s : State) (body sig : List Byte) : Bool :=
  (ownerKeys s.boot.ownerRecord).any (fun k => Config.ecdsaVerify k (sha384 body) sig)

/-! ### Targets -/

/-- Local target units of a commit addressed to a UID: the unit and every unit below it, OFFLINE ones apart (R53). -/
def targetKeys (s : State) (u : Uid) : List Nat :=
  let k := if keyLevel u.toNat = 5 then devKey else uidKey u
  (subtree k).filter (fun x => !isOffline s x)

/-- Lowest level at which a parameter may be scoped. -/
def paramLevel (id : Nat) : Nat :=
  match id with
  | 0x15 | 0x16 => 0
  | 0x1C => 2
  | _ => 4

/-- SCOPE is TARGET or a descendant of it, at or above the parameter's level (R358 check 1). -/
def scopeOk (s : State) (r : List Byte) (target scope : Uid) (id : Nat) : Bool :=
  uidShape scope.toNat && decide (paramLevel id ≤ keyLevel scope.toNat) &&
  (if keyLevel target.toNat = 5 then
    (if keyLevel scope.toNat = 5 then scope == target
     else
       let gs := (recGroups r).getD []
       match (gs.find? (fun g => g.group == uidDevice target)) with
       | some g => g.members.contains (uidDevice scope)
       | none => (groupMembers s target).contains (uidDevice scope))
   else keyLevel scope.toNat != 5 && uidDevice scope == uidDevice target && covers (uidKey target) (uidKey scope))

def isPow2Mult (v m : Nat) : Bool := v % m == 0

/-- Values within the table of R357 and the parameter's chapter (R358 check 4). -/
def valueOk (id index v : Nat) : Bool :=
  match id with
  | 0x1 => index == 0 && decide (v ≤ 1)
  | 0x2 => index == 0 && decide (v ≤ 240) && v % 4 == 0
  | 0x3 => index == 0 && decide (v ≤ 64) && v % 4 == 0
  | 0x4 => index == 0 && decide (v ≤ 4096) && v % 256 == 0
  | 0x5 => index == 0 && decide (v ≤ 2)
  | 0x6 => index == 0 && decide (v ≤ 64)
  | 0x7 => index == 0 && decide (256 ≤ v ∧ v ≤ 16384) && v % 256 == 0
  | 0x8 => index == 0 && decide (1 ≤ v ∧ v ≤ 255)
  | 0x9 => index == 0 && v % 2 ^ 30 == 0 && decide (v < 2 ^ 40)
  | 0xA => index == 0 && decide (v ≤ 1)
  | 0xB => index == 0 && decide (17 ≤ v ∧ v ≤ 255)
  | 0xC => index == 0 && decide (2 ≤ v ∧ v ≤ 8)
  | 0xD => decide (index ≤ 1) && decide (v ≤ 3)
  | 0xE => decide (index / 16 ≤ 1) && decide (index % 16 ≤ 6) &&
      (if index % 16 = 6 then decide (v < 256) && decide (popcount8 v ≤ 2)
       else if index % 16 = 0 then decide (v < 2 ^ 48) else if index % 16 = 1 then decide (v < 4096) else true)
  | 0xF => index == 0 && (v == 0 || decide (16 ≤ v ∧ v ≤ 65535))
  | 0x10 => index == 0 && decide (v ≤ 2)
  | 0x11 | 0x12 | 0x15 | 0x16 => index == 0 && decide (v ≤ 1)
  | 0x13 => index == 0 && decide (v < 2 ^ 24)
  | 0x14 => index == 0
  | 0x17 => index == 0 && v % 2 ^ 30 == 0 && decide (v < 2 ^ 40)
  | 0x18 => index == 0 && decide (1 ≤ v ∧ v ≤ 64)
  | 0x19 => index == 0 && v % 2 ^ 26 == 0 && decide (farBase ≤ v ∧ v < farBase + 2 ^ 42)
  | 0x1A => index == 0 && v % 2 ^ 30 == 0 && decide (farBase ≤ v ∧ v < farBase + 2 ^ 42)
  | 0x1B => index == 0 && decide (v ≤ 1024)
  | 0x1C => decide (index < 144) && decide (v / 16 % 4 = 0) && (v % 16 == 0 || decide (4 ≤ v % 16 ∧ v % 16 ≤ 12)) &&
      (v == 0 || decide (v / 64 * 64 < 2 ^ 40) || decide (farBase ≤ v / 64 * 64 ∧ v / 64 * 64 < farBase + 2 ^ 42))
  | _ => false

/-- Value of a device parameter under a set. -/
def setParam (s : State) (c : ConfigSet) (id index : Nat) : Nat :=
  ((paramLookup c s.form.device devKey id index).getD (paramDefault id)).toNat

def noRepeats (l : List Nat) : Bool := (dedupNat l).length == l.length

/-- Entries of two groups that give a device differing values with no narrower entry to decide (R357's SCOPE rule). -/
def groupsAgree (c : ConfigSet) (dev : Nat) : Bool :=
  let gp := c.params.filter (fun p => keyLevel p.scope.toNat == 5 &&
    c.groups.any (fun g => g.group == uidDevice p.scope && g.members.contains dev))
  let narrowed (p : Param) : Bool := c.params.any (fun q => q.id == p.id && q.index == p.index &&
    keyLevel q.scope.toNat == 4 && uidDevice q.scope == dev)
  gp.all (fun p => gp.all (fun q => !(p.id == q.id && p.index == q.index && p.value != q.value) || narrowed p))

/-- Regions inside their tier under a set (R358 check 4). The far-tier regions are judged against a running far tier. -/
def regionsOk (s : State) (c : ConfigSet) : Bool :=
  let g (id : Nat) : Nat := setParam s c id 0
  decide (g 0x17 + g 0x18 * 2 ^ 30 ≤ 2 ^ 40) && decide (g 0x9 + g 0x6 * 2 ^ 30 ≤ 2 ^ 40) &&
  (s.form.farGib == 0 ||
    (decide (g 0x19 + 2 ^ 26 ≤ farBase + s.form.farGib * 2 ^ 30) &&
      decide (g 0x1A + g 0x1B * 2 ^ 30 ≤ farBase + s.form.farGib * 2 ^ 30)))

/-! ### Shared resources (R362) -/

/-- A conflict report body. (DESIGN CHOICE, unsafe: log entry 22.) -/
def conflictBody (res a b : Nat) (unit : Uid) (pa pb detail : Nat) : List Byte :=
  leBytes 2 res ++ leBytes 1 a ++ leBytes 1 b ++ leBytes 4 unit.toNat ++ leBytes 2 pa ++ leBytes 2 pb ++ leBytes 4 detail

/-- Near-tier claimants under a set: claimant code, parameter, ranges. -/
def nearClaims (s : State) (c : ConfigSet) : List (Nat × Nat × List (Nat × Nat)) :=
  let g (id : Nat) : Nat := setParam s c id 0
  let slots := (s.eng.tables.flatMap (fun t => t.versions.flatMap (fun v => versionRanges s t v ++ movedRanges s t v))).filter (fun r => decide (r.1 < 2 ^ 40))
  let hearthLo := g 0x17 - g 0x1B * 2 ^ 30
  [(0x0C, 0x9, [(g 0x9, g 0x6 * 2 ^ 30)]), (0x0D, 0x17, [(g 0x17, g 0x18 * 2 ^ 30)]), (0x0E, 0, slots)] ++
    (if s.form.farGib = 0 then
      [(0x0F, 0x1B, [(hearthLo, g 0x1B * 2 ^ 30)]), (0x10, 0x19, [(hearthLo - 2 ^ 26, 2 ^ 26)])] else [])

def claimOverlap (a b : List (Nat × Nat)) : Nat := sumNat (a.flatMap (fun x => b.map (overlapBytes x)))

/-- Two near-tier claimants that meet under a set, as a report (R362, 0x0007). -/
def nearConflict (s : State) (c : ConfigSet) : Option (List Byte) :=
  let claims := nearClaims s c
  let pairs := claims.flatMap (fun a => (claims.filter (fun b => decide (a.1 < b.1))).map (fun b => (a, b)))
  (pairs.find? (fun p => claimOverlap p.1.2.2 p.2.2.2 != 0)).map (fun p =>
    conflictBody 7 p.1.1 p.2.1 (fullUid s devKey) p.1.2.1 p.2.2.1 (ceilDiv (claimOverlap p.1.2.2 p.2.2.2) (2 ^ 20)))

/-- The side window of every core: rule 0x0001 at the lowest of the target's units whose set breaks it. -/
def windowConflict (s : State) (gs : List (ConfigSet × List Nat)) : Option (List Byte) :=
  let kib (c : ConfigSet) : Nat := setParam s c 0x2 0 + setParam s c 0x3 0
  let bad := gs.filter (fun g => decide (240 < kib g.1))
  (minNat? (bad.flatMap (·.2))).bind (fun k => (bad.find? (fun g => g.2.contains k)).map (fun g =>
    conflictBody 1 2 3 (fullUid s k) 2 3 (kib g.1)))

/-- The device's SYNC_OUT connector, comparators and Spur ports: rules 0x0002 to 0x0005. -/
def deviceConflict (s : State) (c : ConfigSet) : Option (List Byte) :=
  let g (id : Nat) : Nat := setParam s c id 0
  let dev := fullUid s devKey
  let wd := g 0x10 + boolNat (g 0xF != 0)
  let ident (p : Nat) : Nat := ((List.range 7).filter (fun i => setParam s c 0xE (16 * p + i) != 0)).length
  let routes (p : Nat) : Nat :=
    (c.route.filter (fun e => bit e.toNat 31 && (bit e.toNat (6 + p) || bit e.toNat (14 + p)))).length
  let spur (p : Nat) : Option (List Byte) :=
    if setParam s c 0xD p = 2 && ident p ≠ 0 then some (conflictBody (4 + p) 8 9 dev 0xE 0xD (ident p))
    else if setParam s c 0xD p ≠ 2 && routes p ≠ 0 then some (conflictBody (4 + p) 8 9 dev 0xD 0 (routes p))
    else none
  if g 0x11 = 1 && g 0x12 = 1 then some (conflictBody 2 4 5 dev 0x11 0x12 2)
  else if wd > 2 then some (conflictBody 3 6 7 dev 0x10 0xF wd)
  else (spur 0).or (spur 1)

/-- Hardy entry memory of the target's dies against the peaks of the plans queued or running: rule 0x0006. -/
def hardyConflict (s : State) (gs : List (ConfigSet × List Nat)) : Option (List Byte) :=
  let mask (d : Nat) : Option Nat := (gs.find? (fun g => g.2.contains (dieKey d))).map (fun g => setParam s g.1 0x4 0)
  let hardy := ((s.seq.jobs.filter (fun j => j.phase != .ended)).flatMap (fun j => j.hardyPeak.map (fun h => (j.num.toNat, h)))).filter
    (fun x => (mask x.2.1).any (fun m => decide (16384 - 4 * m < x.2.2.1 ∨ m < x.2.2.2)))
  (minNat? (hardy.map (·.2.1))).map (fun d =>
    let jobs := (hardy.filter (fun x => x.2.1 == d)).map (·.1)
    conflictBody 6 0xA 0xB (fullUid s (dieKey d)) 4 4 ((minNat? jobs).getD 0 % 2 ^ 32))

/-- The first failing rule of R362, by RESOURCE code, for the units of a target under the sets they would run, as a report; none when all
hold. -/
def conflictOf (s : State) (gs : List (ConfigSet × List Nat)) : Option (List Byte) :=
  let dev := (gs.find? (fun g => g.2.contains devKey)).map (·.1)
  (windowConflict s gs).or ((dev.bind (deviceConflict s)).or ((hardyConflict s gs).or (dev.bind (nearConflict s))))

/-- Parameters that plan acceptance reads (R358 check 6). -/
def acceptanceParams : List Nat := [0x1, 0x2, 0x3, 0x4, 0x5, 0xC, 0xD, 0x10, 0x17, 0x18, 0x19, 0x1C]

/-- The set changes a parameter at the device or a column. -/
def changesParam (s : State) (c act : ConfigSet) (id : Nat) : Bool :=
  let idx := if id = 0x1C then List.range 144 else if id = 0xD then [0, 1] else [0]
  let keys := if id = 0x1C then (List.range 16).map columnKey else [devKey]
  keys.any (fun k => idx.any (fun i =>
    (paramLookup c s.form.device k id i).getD (paramDefault id) != (paramLookup act s.form.device k id i).getD (paramDefault id)))

/-- The plan uses slot-map port 6 or 7: answered by the caller from its WELD section. -/
def qpsInUse (s : State) (p : Nat) : Bool :=
  match s.links.spur[p]? with
  | some sp => sp.qps.any (fun e => e.2.state != .reset)
  | none => false

/-- The state conditions R290 and R332, and the acceptance parameters (R358 check 6). -/
def stateConditionOk (s : State) (target : Uid) (c act : ConfigSet) : Bool :=
  (!changesParam s c act 0x1 ||
    (decide (4 ≤ keyLevel target.toNat) && !planLive s && s.eng.tables.all (fun t => t.versions.isEmpty))) &&
  (List.range 2).all (fun p => setParam s c 0xD p == setParam s act 0xD p || (!qpsInUse s p && !planLive s)) &&
  (!planLive s || acceptanceParams.all (fun id => !changesParam s c act id))

/-- The distinct active sets of a list of units, each with its units. -/
def setsOf (s : State) (keys : List Nat) : List (ConfigSet × List Nat) :=
  keys.foldl (fun acc k =>
    let a := activeSet s k
    match acc.findIdx? (fun e => e.1 == a) with
    | some i => listModify acc i (fun e => (e.1, e.2 ++ [k]))
    | none => acc ++ [(a, [k])]) []

/-- Validation of a record for a target, composed over the active set of each of its units (R358): OK with an empty body, or the first failing check's status and report.
A routing override or formation commit is exempt from check 2 (R408). -/
def validate (s : State) (target : Uid) (r : List Byte) (exempt : Bool) : BitVec 16 × List Byte :=
  let keys := targetKeys s target
  let acts := setsOf s keys
  let comp := acts.map (fun e => (composeSet r e.1, e.2))
  let ps := recParams r
  if !(recFormatOk r r.length && recTarget r == target &&
      ps.all (fun p => decide (1 ≤ p.id ∧ p.id ≤ 0x1C) && scopeOk s r target p.scope p.id)) then (0x0200, [])
  else if !exempt && bit (ownerPolicy s) 0 &&
      !(recSigned r && ownerVerifies s (r.take (r.length - 96)) (recOwnerSig r)) then (0x0700, [])
  else if keys.any (fun k => decide (recEpoch r ≤ (sparseGet 0 k s.cfg.highest).toNat)) then (0x0203, [])
  else if !(ps.all (fun p => valueOk p.id p.index p.value.toNat) &&
      (match recGroups r with
       | none => false
       | some gs => noRepeats (gs.map (·.group)) && gs.all (fun g => noRepeats g.members &&
           g.members.all (fun m => decide (m < 1024)))) &&
      comp.all (fun c => groupsAgree c.1 s.form.device && regionsOk s c.1)) then (0x0200, [])
  else match conflictOf s comp with
    | some b => (0x0201, b)
    | none => if acts.all (fun e => stateConditionOk s target (composeSet r e.1) e.1) then (0x0000, []) else (0x0200, [])

/-! ### Applying a set -/

/-- Size of the row cache: none while the override of R362 lasts. -/
def cacheGib (s : State) : Nat := if s.cfg.cacheOff then 0 else param s 6

/-- The epoch that the device unit holds from this strike on, and the earlier ones (R54). -/
def noteEpoch (s : State) : State :=
  let e := (unitGet s devKey).page.active
  match s.cfg.epochs with
  | (_, x) :: _ => if x = e then s else { s with cfg := { s.cfg with epochs := ((now s, e) :: s.cfg.epochs).take 8 } }
  | [] => { s with cfg := { s.cfg with epochs := [(now s, e)] } }

/-- The epoch the device unit held in strike n (R54): the eight latest changes are known. (DEDUCED, unsafe: log entry 69.) -/
def epochAt (s : State) (n : Nat) : BitVec 32 :=
  match s.cfg.epochs.find? (fun x => decide (x.1 ≤ n)) with
  | some x => x.2
  | none => (s.cfg.epochs.getLast?.map (·.2)).getD (unitGet s devKey).page.active

/-- Load the registers whose Reset column says CFG from a unit's active set (R9, R362, R374). -/
def loadUnitCfg (s : State) (k : Nat) : State :=
  let c := activeSet s k
  let prev : BitVec 32 := match sparseGet [] k s.cfg.sets with
    | _ :: p :: _ => p.epoch
    | _ => 0
  let opt := setParam s c 0x10 0
  let lease := setParam s c 0xF 0
  noteEpoch <| pageMod s k (fun p => { p with
    active := c.epoch, previous := prev,
    retainMemory := paramAt s k 0x15 0 == 1, retainFabric := paramAt s k 0x16 0 == 1,
    wdCtrl := wdCtrlFor k opt lease p.wdCtrl,
    wd2 := if k = devKey && 1 ≤ opt then p.wd2 else neverWord,
    wd3 := if k = devKey && (lease ≠ 0 || 2 ≤ opt) then p.wd3 else neverWord })

/-- Load the device's own CFG registers: the timebase's and the Spur ports' modes start their retraining (R42, R332). -/
def loadDeviceCfg (s : State) : State :=
  let tb := { s.tb with ppsDelay := BitVec.ofNat 24 (param s 0x13), strike0Unix := BitVec.ofNat 64 (param s 0x14) }
  let sp := (List.range 2).map (fun p =>
    let port := s.links.spur.getD p SpurPort.reset
    let m : BitVec 2 := BitVec.ofNat 2 (paramAt s devKey 0xD p)
    if m = port.mode then port else { port with mode := m, retrainFrom := some port.mode, linkUp := false })
  let left (i : Nat) : Bool := decide (6 ≤ i) && (s.links.spur.getD (i - 6) SpurPort.reset).mode == 2 && paramAt s devKey 0xD (i - 6) % 4 != 2
  let ports := ((List.range 8).zip s.links.ports).map (fun x => if left x.1 then WeldPort.reset true else x.2)
  { s with tb := tb, links := { s.links with spur := sp, ports := ports } }

/-- A routing section as a bank. -/
def bankOf (route : List (BitVec 32)) : Sparse (BitVec 32) := ((List.range route.length).zip route).filter (fun e => e.2 != 0)

/-- Load a routing section into the pending bank of every hub (R330). -/
def loadPending (s : State) (route : List (BitVec 32)) : State :=
  if route.isEmpty then s
  else if s.links.bank then { s with links := { s.links with bankA := bankOf route } }
  else { s with links := { s.links with bankB := bankOf route } }

/-- The pending bank becomes active (R330). -/
def switchBank (s : State) (epoch : BitVec 32) : State := { s with links := { s.links with bank := !s.links.bank, bankEpoch := epoch } }

/-- A routing section becomes active in the pending bank. -/
def loadRouting (s : State) (route : List (BitVec 32)) (epoch : BitVec 32) : State :=
  if route.isEmpty then { s with links := { s.links with bankEpoch := epoch } } else switchBank (loadPending s route) epoch

/-- The hubs at power-up or after a device reset without RETAIN_FABRIC: bank A holds the routing section of the active record (R9, R331). -/
def reloadRouting (s : State) : State :=
  let c := activeSet s devKey
  { s with links := { s.links with bankA := bankOf c.route, bankB := [], bank := false, bankEpoch := c.epoch } }

/-- Push a set as the new active one of unit k; flash keeps the last eight committed sets of each unit (R360). -/
def pushSet (s : State) (k : Nat) (c : ConfigSet) : State :=
  let h := sparseGet [] k s.cfg.sets
  let old := sparseGet 0 k s.cfg.highest
  let hi := if old.toNat < c.epoch.toNat then c.epoch else old
  { s with cfg := { s.cfg with sets := sparseSet [] k (c :: h.take 7) s.cfg.sets, highest := sparseSet 0 k hi s.cfg.highest } }

/-- Return unit k to its previous set (R360). -/
def popSet (s : State) (k : Nat) : State :=
  match sparseGet [] k s.cfg.sets with
  | _ :: h => { s with cfg := { s.cfg with sets := sparseSet [] k h s.cfg.sets } }
  | [] => s

/-- PREVIOUS of a unit when a set stands behind the active one; epoch 0 stands behind the first. -/
def hasPrevious (s : State) (k : Nat) : Bool :=
  match sparseGet [] k s.cfg.sets with
  | _ :: p :: _ => p.epoch != 0
  | _ => false

/-- Measurement i is replaced (R400). -/
def measure (s : State) (i : Nat) (d : Digest) : State :=
  { s with ident := { s.ident with meas := s.ident.meas.set (i - 1) d } }

/-- The CSE signs with the identity key, 96 bytes, unless the identity failed (R395, R397). -/
def cseSign (s : State) (d : Digest) : State × List Byte :=
  if s.ident.failed then (s, [])
  else ({ s with ident := { s.ident with signatures := s.ident.signatures + 1 } },
        slice (Config.ecdsaSign s.ident.signatures d) 0 96)

end Sys2Proof.Machine
end

