-- ==== Sys2Proof/Machine/Power.lean ====
section
/-!
DEFINITION. Power sequence, boot, recovery boot, firmware hand-over, memory training, the optical bypasses and the system
map (R291, R313, R315, R386 to R405, R409, R427).
-/
namespace Sys2Proof.Machine

/-! ### Firmware images (R391) -/

def imgSvn (i : List Byte) : Nat := fieldN i 8 4
def imgFloor (i : List Byte) : Nat := fieldN i 0xC 4
def imgBodyBytes (i : List Byte) : Nat := fieldN i 0x18 8
def imgBody (i : List Byte) : List Byte := i.drop 256
/-- The measurement of an image: SHA-384 of header bytes 0x00 to 0x9F. -/
def imgMeasure (i : List Byte) : Digest := sha384 (slice i 0 0xA0)

/-- MAGIC, FORMAT, STEPPING, reserved fields, BODY_BYTES and FLOOR_SVN as R391's table. -/
def imgHeaderOk (i : List Byte) : Bool :=
  decide (256 ≤ i.length) && fieldN i 0 4 == 0x57464849 && fieldN i 4 2 == 0x0100 && fieldN i 6 2 == 0 &&
  byteAt i 0x50 == 0xA0 && zeroRange i 0x51 79 && decide (2 ^ 20 ≤ imgBodyBytes i ∧ imgBodyBytes i ≤ 2 ^ 27) &&
  decide (imgFloor i ≤ imgSvn i)

def imgSigOk (i : List Byte) : Bool := Config.ecdsaVerify Config.rootKey (imgMeasure i) (slice i 0xA0 96)

def imgBodyOk (i : List Byte) : Bool :=
  (imgBody i).length == imgBodyBytes i && digestBytes (sha384 (imgBody i)) == slice i 0x20 48

/-- The failed step of R389's steps 3 to 6 for an image, none when it passes. -/
def imgFailedStep (s : State) (i : List Byte) (readOk : Bool) : Option Nat :=
  if !imgHeaderOk i then some 3
  else if !imgSigOk i then some 4
  else if imgSvn i < s.boot.svnFloor.toNat then some 5
  else if !(readOk && imgBodyOk i) then some 6
  else none

/-- Status of VMP_FW_STAGE for an image (R393). -/
def imgStageStatus (s : State) (i : List Byte) : BitVec 16 :=
  if !(imgHeaderOk i && imgBodyOk i) then 0x0702
  else if !imgSigOk i then 0x0700
  else if imgSvn i < s.boot.svnFloor.toNat then 0x0701
  else 0x0000

/-! ### Bypasses (R313) -/

def portMod (s : State) (p : Nat) (f : WeldPort → WeldPort) : State :=
  { s with links := { s.links with ports := listModify s.links.ports p f } }

def portGet (s : State) (p : Nat) : WeldPort := s.links.ports.getD p (WeldPort.reset (6 ≤ p))

/-- All three bypasses close together; no bypass belongs to the Spur ports. -/
def closeBypasses (s : State) : State :=
  emitOut (forKeys s (List.range 6) (fun t p => portMod t p (fun w => { w with bypassClosed := true }))) (.bypass true)

def openBypasses (s : State) : State :=
  emitOut (forKeys s (List.range 6) (fun t p => portMod t p (fun w => { w with bypassClosed := false }))) (.bypass false)

/-- The X pair alone (R315). -/
def setXPair (s : State) (isOpen : Bool) : State :=
  let t := forKeys s [0, 1] (fun t p => portMod t p (fun w => { w with bypassClosed := !isOpen }))
  { t with boot := { t.boot with xPairOpen := isOpen } }

/-- The device unit takes own state FENCED with its sticky bit (R53, R397, R405). -/
def fenceUnit (s : State) (k : Nat) : State :=
  stickySet (flagsMod s k (fun f => { f with fenced := true, missed := false })) k 10

/-! ### The system map (R403 to R405) -/

def mapDevices (m : List Byte) : Nat := fieldN m 0x10 2
def mapVersionOf (m : List Byte) : Nat := fieldN m 8 4
def mapIds (m : List Byte) : List (List Byte) := (List.range (mapDevices m)).map (fun n => slice m (0x40 + 16 * n) 16)
def mapSigned (m : List Byte) : Bool := bit (fieldN m 6 2) 0
def mapBody (m : List Byte) : List Byte := m.take (0x40 + 16 * mapDevices m)

/-- A map is valid (R403); its reserved fields are ignored (R5). -/
def mapValid (s : State) (m : List Byte) : Bool :=
  let dx := byteAt m 0xC
  let dy := byteAt m 0xD
  let dz := byteAt m 0xE
  let ids := (mapIds m).filter (fun i => i.any (· != 0))
  decide (0x40 ≤ m.length) && fieldN m 0 4 == 0x4D534849 && fieldN m 4 2 == 0x0100 && decide (1 ≤ mapVersionOf m) && decide (1 ≤ dx ∧ dx ≤ 16) && decide (1 ≤ dy ∧ dy ≤ 16) && decide (1 ≤ dz ∧ dz ≤ 16) &&
  mapDevices m == dx * dy * dz && decide (mapDevices m ≤ 1024) &&
  m.length == 0x40 + 16 * mapDevices m + (if mapSigned m then 96 else 0) && ids.eraseDups.length == ids.length &&
  (!bit (ownerPolicy s) 1 || (mapSigned m && ownerVerifies s (mapBody m) (m.drop (m.length - 96))))

/-- Adopt a map: extents, the device's own number and measurement 5; a device not listed is fenced and its bypasses
close (R405). -/
def adoptMap (s : State) (m : List Byte) : State :=
  let d := sha384 m
  let me := (mapIds m).findIdx? (fun i => i == id16 s.ident.digest && i.any (· != 0))
  let s1 := measure { s with form := { s.form with map := m, mapVersion := mapVersionOf m, mapDigest := d, dx := byteAt m 0xC,
                                                   dy := byteAt m 0xD, dz := byteAt m 0xE, device := me.getD 0, listed := me.isSome },
                             boot := { s.boot with storedMap := m } } 5 d
  if me.isSome then s1 else closeBypasses (fenceUnit s1 devKey)

/-- Map m takes precedence over the one in use (R404). -/
def mapBetter (s : State) (m : List Byte) : Bool :=
  s.form.map.isEmpty || decide (s.form.mapVersion < mapVersionOf m) ||
    (mapVersionOf m == s.form.mapVersion && decide ((sha384 m).toNat < s.form.mapDigest.toNat))

/-- The new map differs from the one in use only by filled empty positions (R404). -/
def mapFillsOnly (old new : List Byte) : Bool :=
  byteAt old 0xC == byteAt new 0xC && byteAt old 0xD == byteAt new 0xD && byteAt old 0xE == byteAt new 0xE &&
  ((mapIds old).zip (mapIds new)).all (fun p => p.1 == p.2 || p.1.all (· == 0))

/-! ### Control messages (R323, R329) -/

def portUp (s : State) (p : Nat) : Bool := (portGet s p).state == .up

/-- UP ports in ascending order. -/
def upPorts (s : State) : List Nat := (List.range 8).filter (portUp s)

/-- A message waits behind those of its class and the classes above it (R323). -/
def queueMsg (l : List CtlMsg) (m : CtlMsg) : List CtlMsg :=
  l.takeWhile (fun x => decide (x.type ≤ m.type)) ++ m :: l.dropWhile (fun x => decide (x.type ≤ m.type))

/-- A control message waits at its port for an unassigned slot; before strike lock the frames of the free-running timebase
carry it at once (R323, R324). -/
def sendOnPort (s : State) (p : Nat) (m : CtlMsg) : State :=
  if s.tb.strikeDefined then portMod s p (fun w => { w with outgoing := queueMsg w.outgoing m })
  else emitOut s (.control p m)

/-- A control message of this device. -/
def newMsg (s : State) (type dst : Nat) (b : CtlBody) : CtlMsg :=
  { type := type, ttl := 32, dst := dst, src := s.form.device, seq := s.links.ctlSeq, body := b }

/-- Send to every neighbour on an UP port (DST 0xFFFF). -/
def floodMsg (s : State) (type : Nat) (b : CtlBody) : State :=
  let m := newMsg s type 0xFFFF b
  let t := { s with links := { s.links with ctlSeq := s.links.ctlSeq + 1 } }
  (upPorts s).foldl (fun t p => sendOnPort t p m) t

/-- The routing entry for a destination (R329). -/
def routeEntry (s : State) (d : Nat) : BitVec 32 := sparseGet 0 d (if s.links.bank then s.links.bankB else s.links.bankA)

def firstUp (s : State) (mask : Nat) : Option Nat := (List.range 8).find? (fun p => bit mask p && portUp s p)

/-- Next port of a message: the first UP port in PRIMARY, else in ALT, else none (R329). -/
def routePort (s : State) (d : Nat) : Option Nat :=
  let e := (routeEntry s d).toNat
  if !bit e 31 then none else (firstUp s (bits e 7 0)).or (firstUp s (bits e 15 8))

/-- Send a message by the routing table, or drop it and count NO_ROUTE_DROPS (R329). -/
def routeMsg (s : State) (m : CtlMsg) : State :=
  match routePort s m.dst with
  | some p => sendOnPort s p m
  | none => count s devKey 23 1

/-- Send a message to each listed device other than this one. -/
def sendTo (s : State) (ds : List Nat) (type : Nat) (b : CtlBody) : State :=
  (ds.filter (· != s.form.device)).foldl (fun t d =>
    routeMsg { t with links := { t.links with ctlSeq := t.links.ctlSeq + 1 } } (newMsg t type d b)) s

/-! ### Start of the firmware -/

/-- Keep of a unit's flash history the sets in flash whose signatures still verify; note each one skipped (R402). -/
def loadFlashSets (s : State) (k : Nat) : State :=
  let h := sparseGet [] k s.cfg.sets
  let good (c : ConfigSet) : Bool := c.inFlash && Config.ecdsaVerify s.ident.key (sha384 (setRecord c (fullUid s k))) c.deviceSig &&
    (!bit (ownerPolicy s) 0 || ownerVerifies s c.ownerBody c.ownerSig)
  let kept := h.dropWhile (fun c => !good c)
  let s1 := ((h.takeWhile (fun c => !good c)).filter (·.inFlash)).foldl
    (fun t c => logPersistent t (.skippedRecord (fullUid s k) c.epoch)) s
  loadUnitCfg { s1 with cfg := { s1.cfg with sets := sparseSet [] k (kept.filter (·.inFlash)) s1.cfg.sets } } k

/-- Keys of units with a flash history. -/
def cfgKeys (s : State) : List Nat := s.cfg.sets.map (·.1)

/-- The remaps of the persistent log are reinstalled before valid bits clear; a cluster without a free entry sets REMAP_FULL (R305). -/
def reinstallRemaps (s : State) : State :=
  s.boot.persistent.foldl (fun t r => match r with
    | .remap checker inst word =>
      let c := 32 + checker
      checkerMod t c (fun k =>
        let l := if k.remaps.contains (inst, word) then k.remaps else k.remaps ++ [(inst, word)]
        { k with remaps := l, remapFull := k.remapFull || decide (16 ≤ (l.filter (fun x => clusterOf x.1 x.2 == clusterOf inst word)).length) })
    | _ => t) s

/-- The rows that the persistent log keeps as pending are repaired at power-up; a row without a spare stays pending (R305). -/
def repairRows (s : State) : State :=
  s.boot.pendingRows.foldl (fun t x => checkerMod t x.1 (fun k =>
    if Config.rowHasSpare x.2 then { k with repaired := satInc16 k.repaired } else { k with pendingRows := k.pendingRows ++ [x.2], exhausted := true })) 
    { s with boot := { s.boot with pendingRows := [] } }

/-- The word of a checker that Virian tests: the first of a controller's tier pages, or word 0 of the hub's own SRAM instance. (DESIGN CHOICE, unsafe: log entry 66.) -/
def testWord (s : State) (c : Nat) : Nat :=
  if c < 16 then (if param s 1 = 0 then c * 2 ^ 12 else c * 2 ^ 36)
  else if c < 32 then farBase + (c - 16) * 2 ^ 12
  else instKey (c - 32) 1296 0

/-- One injection of the test: arm the checker, write the word, read it (R306). It answers whether the read gave the outcome asked. (DESIGN CHOICE, unsafe: log entry 66.) -/
def injectOnce (a : Nat) (x : State × Bool) (lo mask : Nat) (readable : Bool) : State × Bool :=
  let (c, inst, _) := wordChecker x.1 a
  let s1 := checkerMod x.1 c (fun k => { k with
    flipAddr := BitVec.ofNat 64 (if c < 32 then a else inst * 2 ^ 48 + wordIndex a)
    flipLo := BitVec.ofNat 64 lo, flipMask := BitVec.ofNat 8 mask, flipArm := true })
  let (s2, ok) := readWord (storeWord s1 a (leBytes 8 0x0123456789ABCDEF)) a
  (s2, x.2 && ok == readable)

/-- The test of a checker: a data bit, two data bits, a check bit; the word then takes its data again (R306). (DESIGN CHOICE, unsafe: log entry 66.) -/
def testRun (s : State) (c : Nat) : State × Bool :=
  let a := testWord s c
  let old := cellsGet s.mem.cells a 8
  let x := injectOnce a (injectOnce a (injectOnce a (s, true) 0x10 0 true) 3 0 false) 0 4 true
  (storeWord x.1 a old, x.2)

/-- The power-up test of a checker: its outcome goes to the persistent log, the events it raised Virian clears. (DESIGN CHOICE, unsafe: log entry 66.) -/
def powerUpTest (s : State) (c : Nat) : State := logPersistent s (.checkerTest c (testRun s c).2)

/-- Start Virian on an image: measurement 2, the map, the records of flash with measurement 3, the hubs' routing banks, remaps and repairs, the
test of the hub checkers, training of the memories (P1's end, P2; R402). -/
def startVirian (s : State) (img : List Byte) : State :=
  let s1 := measure { s with boot := { s.boot with phase := .running, running := img, source := none, arriving := [], failedStep := 0 } } 2 (imgMeasure img)
  let s2 := if mapValid s1 s1.boot.storedMap then adoptMap s1 s1.boot.storedMap else s1
  let s3 := (cfgKeys s2).foldl loadFlashSets s2
  let s4 := reloadRouting (loadDeviceCfg s3)
  let s5 := measure s4 3 (sha384 (setRecord (activeSet s4 devKey) (fullUid s4 devKey)))
  let s6 := repairRows (reinstallRemaps s5)
  let s7 := forKeys s6 [32, 33, 34, 35] powerUpTest
  let s8 := forKeys s7 (List.range 32) (fun t c => checkerMod t c (fun k => { k with state := .training }))
  if s8.ident.failed then closeBypasses (fenceUnit (stickySet s8 devKey 18) devKey) else s8

/-- Enter recovery boot at a failed step: the device waits for an image with its X pair open (R315, R389, R392). -/
def enterRecovery (s : State) (stepNo : Nat) : State :=
  logPersistent (setXPair { s with boot := { s.boot with phase := .recovery, failedStep := stepNo, source := none, arriving := [] } } true)
    (.recoveryBoot stepNo)

/-- What survives the loss of 48 V: the flash die's contents, and in the model the queue, the outputs sent and the count of
free values. (DEDUCED, unsafe: log entry 3.) -/
def powerLost (s : State) (p : PowerState) : State :=
  { State.reset with
    power := { Power.reset with state := p }
    boot := { Boot.reset with
      flashImage := s.boot.flashImage, svnFloor := s.boot.svnFloor, chain := s.boot.chain,
      ownerRecord := s.boot.ownerRecord, storedMap := if s.form.nextMap.isEmpty then s.boot.storedMap else s.form.nextMap,
      persistent := s.boot.persistent
      pendingRows := s.boot.pendingRows ++ ((List.range 32).flatMap (fun c => (checkerGet s c).pendingRows.map (fun r => (c, r)))).filter (fun x => !s.boot.pendingRows.contains x) }
    cfg := { Config.reset with sets := (s.cfg.sets.map (fun e => (e.1, e.2.filter (·.inFlash)))).filter (fun e => !e.2.isEmpty) }
    out := s.out, free := s.free, pending := s.pending }

/-- R386, R427: with PRESENT_N low the regulators come up in order. (DESIGN CHOICE, unsafe: log entry 98.) -/
def execPowerInputValid (presentLow : Bool) (s : State) : Host.Outcome State Fault Refusal :=
  .next (if s.power.state == .absent && presentLow then
    emitOut { s with power := { s.power with state := .sequencing, attempts := 0, presentLow := true } } (.rails true [1, 2, 3, 4, 5])
  else s)

/-- R387: the rails go off in reverse order; the third failed attempt leaves only step 1. -/
def execRailPowerFailure (_step : Nat) (s : State) : Host.Outcome State Fault Refusal :=
  .next (if s.power.state == .sequencing then
    if 3 ≤ s.power.attempts + 1 then
      emitOut (emitOut { s with power := { s.power with attempts := s.power.attempts + 1, state := .failed } }
        (.rails false [5, 4, 3, 2, 1])) (.rails true [1])
    else emitOut { s with power := { s.power with attempts := s.power.attempts + 1 } } (.rails false [5, 4, 3, 2, 1])
  else s)

/-- R387: one second after a failure the sequence starts again. -/
def execPowerRetry (s : State) : Host.Outcome State Fault Refusal :=
  .next (if s.power.state == .sequencing && s.power.attempts != 0 then emitOut s (.rails true [1, 2, 3, 4, 5]) else s)

/-- R388: the bypasses close from stored energy, the rails go off and everything outside the flash die is lost. (DESIGN CHOICE, safe: log entry 97.) -/
def execBrownout (s : State) : Host.Outcome State Fault Refusal :=
  .next (if s.power.state == .absent then s
    else emitOut (closeBypasses (powerLost s .absent)) (.rails false [5, 4, 3, 2, 1]))

/-- R389: steps 1 to 7 of the boot ROM; R397 when the rebuilt key is not the certificate's. Measurement 4 is that of the owner record in flash
(R400). -/
def execPowerGood (rebuilt : List Byte) (flashReadOk : Bool) (s : State) : Host.Outcome State Fault Refusal :=
  .next (if s.power.state == .sequencing then
    let failed := match Config.chainVerify s.boot.chain with
      | some (k, _) => k != rebuilt
      | none => true
    let s1 := { s with power := { s.power with state := .on, powerGood := true },
                       ident := { s.ident with key := rebuilt, digest := sha384 rebuilt, failed := failed } }
    let m1 := measure s1 1 Config.romDigest
    let s2 := if m1.boot.ownerRecord.isEmpty then m1 else measure m1 4 (sha384 m1.boot.ownerRecord)
    match imgFailedStep s2 s2.boot.flashImage flashReadOk with
    | some k => enterRecovery s2 k
    | none => startVirian s2 s2.boot.flashImage
  else s)

/-- The image has arrived whole: a header that breaks R391 ends it, or the bytes of its body. -/
def imageWhole (i : List Byte) : Bool := decide (256 ≤ i.length) && (!imgHeaderOk i || decide (256 + imgBodyBytes i ≤ i.length))

/-- A whole image from a source closes the X pair; a valid one is written to flash and boot goes on at step 7, an invalid one is discarded
(R315, R392). (DESIGN CHOICE, unsafe: log entry 110.) -/
def takeImage (s : State) (i : List Byte) : State :=
  let t := setXPair { s with boot := { s.boot with source := none, arriving := [] } } false
  let img := i.take (256 + imgBodyBytes i)
  match imgFailedStep t img true with
  | some _ => t
  | none => startVirian { t with boot := { t.boot with flashImage := img } } img

/-- The next bytes of an image in byte order: the source whose first byte arrives is taken, the other ignored (R392). -/
def receiveImage (s : State) (src : RecoverySource) (image : List Byte) : State :=
  if s.boot.phase == .recovery && !image.isEmpty && (s.boot.source.isNone || s.boot.source == some src) &&
      (src != .weldNeighbour || s.boot.xPairOpen) then
    let bytes := s.boot.arriving ++ image
    if imageWhole bytes then takeImage s bytes
    else { s with boot := { s.boot with source := some src, arriving := bytes } }
  else s

/-- R392. -/
def execRecoveryImageReceive (src : RecoverySource) (image : List Byte) (s : State) : Host.Outcome State Fault Refusal :=
  .next (receiveImage s src image)

/-- R392: a second without progress fails the transfer, and the other source may be taken. -/
def execRecoveryTransferStall (s : State) : Host.Outcome State Fault Refusal :=
  .next (if s.boot.phase == .recovery then { s with boot := { s.boot with source := none, arriving := [] } } else s)

/-- R315, R392: without a transfer the X pair closes after 30 s and is opened again after 60 s. -/
def execRecoveryXPairTimer (s : State) : Host.Outcome State Fault Refusal :=
  .next (if s.boot.phase == .recovery && s.boot.source.isNone then setXPair s (!s.boot.xPairOpen) else s)

/-- Capacity of the far tier for the modules found (R291): 0 when it is disabled. -/
def farCapacity (ms : List ModuleInfo) : Nat :=
  match ms with
  | m :: _ =>
    if ms.length = 16 && ms.all (fun x => x.ecc && x.gib == m.gib && x.mts == 8800 && x.trained) &&
      (m.gib == 64 || m.gib == 128 || m.gib == 256) then 16 * m.gib else 0
  | [] => 0

/-- The ready or failed state of a trained memory. -/
def trainedState (ok : Bool) : CheckerState := if ok then .ready else .failed

/-- R362 code 7: at a power-up that finds the far tier disabled, a row cache that overlaps the Hearth's near-tier memory or
the near-tier Slag region runs with TONGS_CACHE_GIB 0, and the override is recorded. -/
def cacheOverride (s : State) : State :=
  let claims := nearClaims s (activeSet s devKey)
  let get (code : Nat) : List (Nat × Nat) := ((claims.find? (fun x => x.1 == code)).map (·.2.2)).getD []
  if s.form.farGib = 0 && (claimOverlap (get 0x0C) (get 0x0F) ≠ 0 || claimOverlap (get 0x0C) (get 0x10) ≠ 0) then
    logPersistent { s with cfg := { s.cfg with cacheOff := true } } .cacheOverride
  else s

/-- R409, R291: the far tier runs or is disabled; a stack that fails leaves its column OFFLINE; the controllers in service are tested (R306,
R402). -/
def execMemoryTrainingDone (stacksOk : BitVec 16) (modules : List ModuleInfo) (s : State) : Host.Outcome State Fault Refusal :=
  .next (if s.boot.phase == .running && !s.form.trained then
    let gib := farCapacity modules
    let s1 := { s with form := { s.form with trained := true, farGib := gib } }
    let s2 := forKeys s1 (List.range 16) (fun t c =>
      let ok := stacksOk.getLsbD c
      let t1 := checkerMod t c (fun k => { k with state := trainedState ok })
      if ok then t1 else flagsMod t1 (columnKey c) (fun f => { f with offline := true }))
    let s3 := forKeys s2 (List.range 16) (fun t c => checkerMod t (16 + c) (fun k =>
      { k with state := if gib ≠ 0 then .ready else trainedState (modules.getD c { ecc := false, gib := 0, mts := 0, trained := false }).trained }))
    let tested (c : Nat) : Bool := if c < 16 then stacksOk.getLsbD c else gib != 0
    cacheOverride (forKeys s3 ((List.range 32).filter tested) powerUpTest)
  else s)

/-- The condition of R313 under which a cause closes the bypasses. -/
def bypassCauseHolds (s : State) : BypassCause → Bool
  | .inputAbsent => s.power.state == .absent
  | .resetWithoutFabric =>
    let u := unitGet s devKey
    (u.flags.resetting || u.flags.recovering) && !u.page.retainFabric
  | .virianStopped => s.boot.phase != .running
  | .fencedTooLong => decide (65 ≤ s.links.fencedHeats)
  | .recoveryTimeout => s.boot.phase == .recovery && s.boot.xPairOpen && s.boot.source.isNone

/-- R313: the bypasses close when the cause holds. -/
def execBypassClose (cause : BypassCause) (s : State) : Host.Outcome State Fault Refusal :=
  .next (if bypassCauseHolds s cause then
    let t := closeBypasses s
    { t with boot := { t.boot with xPairOpen := false } }
  else s)

/-- R313: Virian opens the three bypasses in P2; a device with a failed identity or not in the map keeps them closed. -/
def execBypassOpen (s : State) : Host.Outcome State Fault Refusal :=
  .next (if s.boot.phase == .running && !s.ident.failed && s.form.listed then openBypasses s else s)

/-- R404: the valid map of the highest version, or the lower digest, is fetched and stored before formation ends, or by a
late joiner; afterwards a map is adopted at once only when it just fills empty positions. -/
def execMapAnnounceReceive (m : List Byte) (s : State) : Host.Outcome State Fault Refusal :=
  .next (if s.boot.phase == .running && mapValid s m && mapBetter s m then
    if !s.tb.strikeDefined || s.form.lateJoiner || mapFillsOnly s.form.map m then adoptMap s m
    else { s with form := { s.form with nextMap := m } }
  else s)

/-- The VMP completion of a firmware activation is posted by the ring operations; here its outcome is kept. (DEDUCED, unsafe: log entry 89.) -/
def fwFinish (s : State) (img : List Byte) : State :=
  let floor := Nat.max s.boot.svnFloor.toNat (imgFloor img)
  measure { s with boot := { s.boot with flashImage := img, running := img, oldCopy := [], staged := none, activation := none,
                                         svnFloor := BitVec.ofNat 32 floor } } 2 (imgMeasure img)

end Sys2Proof.Machine
end

