-- ==== Sys2Proof/Machine/Vmp.lean ====
section
/-!
DEFINITION. The mailbox protocol's common part: rings, taking a request in the order of R347, the checks of R349, responses,
completions, events, leases (R344 to R352, R363, R364, R410).
-/
namespace Sys2Proof.Machine

/-! ### Rings -/

def pairGet (s : State) (k : Nat) : RingPair := sparseGet RingPair.reset k s.vmp.pairs

def pairMod (s : State) (k : Nat) (f : RingPair → RingPair) : State :=
  { s with vmp := { s.vmp with pairs := sparseSet RingPair.reset k (f (pairGet s k)) s.vmp.pairs } }

/-- Entries of a ring for a LOG2 of 4 to 12; other values leave the ring unusable (R346). -/
def ringSize (log2 : Nat) : Nat := if 4 ≤ log2 ∧ log2 ≤ 12 then 2 ^ log2 else 0

/-- Entries a ring holds: TAIL minus HEAD modulo 2^32 (R261). -/
def ringCount (head tail : BitVec 32) : Nat := (tail - head).toNat

/-- Requests a pair has outstanding with ACCEPTED. -/
def outstandingOf (s : State) (k : Nat) : Nat := (s.vmp.outstanding.filter (fun o => o.pair == k)).length

/-- The response ring has more free entries than the pair has requests outstanding (R347). (DEDUCED, unsafe: log entry 28.) -/
def responseRoom (s : State) (k : Nat) : Bool :=
  if 256 ≤ k then true
  else
    let p := pairGet s k
    decide (outstandingOf s k < ringSize p.respLog2.toNat - ringCount p.respHead p.respTail)

/-- Strike of arrival of the entry at HEAD of a pair's request ring (R261, R347). -/
def arrivalOf (s : State) (k : Nat) : Option Nat :=
  if 256 ≤ k then ((sparseGet [] k s.vmp.remote).head?).map (·.1)
  else
    let p := pairGet s k
    if p.en && p.reqHead != p.reqTail && ringSize p.reqLog2.toNat != 0 then
      ((p.arrivals.find? (fun a => decide (0 < ringCount p.reqHead a.1))).map (·.2)).or (some 0)
    else none

/-- The request of pair k is the next the Warden takes: lowest arrival strike, then lowest rank, among the pairs whose
response ring has room (R347). (DESIGN CHOICE, safe: log entry 20.) (DEDUCED, unsafe: log entry 28.) -/
def isNext (s : State) (k : Nat) : Bool :=
  match arrivalOf s k with
  | none => false
  | some a =>
    responseRoom s k &&
    (s.vmp.pairs.map (·.1) ++ s.vmp.remote.map (·.1)).all (fun j =>
      match arrivalOf s j with
      | none => true
      | some b => j == k || !responseRoom s j || decide (a < b) || (a == b && decide (k < j)))

/-- Address of the entry at HEAD. -/
def requestAddr (s : State) (k : Nat) : Nat :=
  let p := pairGet s k
  p.reqBase.toNat + 128 * (p.reqHead.toNat % 2 ^ p.reqLog2.toNat)

/-- Advance past the request at HEAD. -/
def consume (s : State) (k : Nat) : State :=
  if 256 ≤ k then { s with vmp := { s.vmp with remote := sparseSet [] k ((sparseGet [] k s.vmp.remote).drop 1) s.vmp.remote } }
  else pairMod s k (fun p => { p with
    reqHead := p.reqHead + 1, arrivals := p.arrivals.filter (fun a => decide (0 < ringCount (p.reqHead + 1) a.1 ∧
      ringCount (p.reqHead + 1) a.1 < 2 ^ 31)) })

/-! ### Messages -/

def msgVersion (m : List Byte) : Nat := byteAt m 0
def msgOpcode (m : List Byte) : Nat := byteAt m 1
def msgLength (m : List Byte) : Nat := byteAt m 3
def msgTag (m : List Byte) : BitVec 16 := BitVec.ofNat 16 (fieldN m 4 2)
def msgClient (m : List Byte) : BitVec 12 := BitVec.ofNat 12 (fieldN m 6 2)
def msgTarget (m : List Byte) : Uid := BitVec.ofNat 32 (fieldN m 8 4)
def msgEpoch (m : List Byte) : Nat := fieldN m 12 4
def msgBody (m : List Byte) : List Byte := slice m 16 112

/-- Place a 128-byte message on a pair's response ring; pair 0 also answers the manager that waits (R417), and a rank
above 255 answers by a SEND (R344). -/
def postMessage (s : State) (k : Nat) (m : List Byte) : State :=
  if 256 ≤ k then emitOut s (.vmpRemote ((k - 256) / 2048) ((k - 256) % 2048) m)
  else
    let p := pairGet s k
    let a := p.respBase.toNat + 128 * (p.respTail.toNat % 2 ^ p.respLog2.toNat)
    let s1 := pairMod (memWrite s a m) k (fun p => { p with respTail := p.respTail + 1 })
    if k = 0 then emitOut s1 (.http 200 m) else s1

/-- A message of the Warden: header and body (R348, R349's table). (DEDUCED, unsafe: log entry 18.) -/
def buildMessage (version opcode flags : Nat) (tag : BitVec 16) (client : BitVec 12) (status : BitVec 16) (epoch : BitVec 32)
    (body : List Byte) : List Byte :=
  [BitVec.ofNat 8 version, BitVec.ofNat 8 opcode, BitVec.ofNat 8 flags, BitVec.ofNat 8 body.length] ++
    leBytes 2 tag.toNat ++ leBytes 2 client.toNat ++ leBytes 2 status.toNat ++ leBytes 2 0 ++ leBytes 4 epoch.toNat ++
    slice body 0 112

/-- A lease. -/
def clientGet (s : State) (c : BitVec 12) : Option Client := s.vmp.clients.find? (fun x => x.id == c)

/-- VERSION of a message to a client: its negotiated version, that of VMP 1.0 without a lease. (DEDUCED, unsafe: log entry 19.) -/
def replyVersion (s : State) (c : BitVec 12) : Nat := match clientGet s c with
  | some x => 16 * x.major + x.minor
  | none => 0x10

/-- Post a response to request m on pair k that names client c. -/
def respondTo (s : State) (k : Nat) (m : List Byte) (c : BitVec 12) (status : BitVec 16) (body : List Byte) : State :=
  postMessage s k (buildMessage (replyVersion s c) (msgOpcode m) 1 (msgTag m) c status (replyEpoch s (msgOpcode m) (msgTarget m)) body)

/-- Post the response to request m on pair k. (DEDUCED, unsafe: log entry 19.) -/
def respond (s : State) (k : Nat) (m : List Byte) (status : BitVec 16) (body : List Byte) : State := respondTo s k m (msgClient m) status body

/-- The tag of a request stays outstanding. -/
def holdRequest (s : State) (k : Nat) (m : List Byte) : State :=
  let o : Outstanding := { client := msgClient m, tag := msgTag m, pair := k, opcode := BitVec.ofNat 8 (msgOpcode m),
                           version := BitVec.ofNat 8 (replyVersion s (msgClient m)), target := msgTarget m }
  { s with vmp := { s.vmp with outstanding := s.vmp.outstanding ++ [o] } }

/-- The late response to a request whose tag was held. -/
def respondHeld (s : State) (k : Nat) (m : List Byte) (status : BitVec 16) (body : List Byte) : State :=
  respond { s with vmp := { s.vmp with outstanding := s.vmp.outstanding.filter (fun o => !(o.client == msgClient m && o.tag == msgTag m && o.pair == k)) } } k m status body

/-- Answer ACCEPTED and keep the tag outstanding until the completion (R348). -/
def respondAccepted (s : State) (k : Nat) (m : List Byte) (body : List Byte) : State := holdRequest (respond s k m 0x0001 body) k m

/-- Post a completion for an outstanding request; one whose lease has ended is discarded (R352). -/
def complete (s : State) (client : BitVec 12) (tag : BitVec 16) (k : Nat) (status : BitVec 16) (body : List Byte) : State :=
  match s.vmp.outstanding.find? (fun o => o.client == client && o.tag == tag && o.pair == k) with
  | none => s
  | some o =>
    let s1 := { s with vmp := { s.vmp with outstanding := s.vmp.outstanding.filter (fun x =>
      !(x.client == client && x.tag == tag && x.pair == k)) } }
    if (clientGet s client).isSome then
      let m := buildMessage o.version.toNat o.opcode.toNat 3 tag client status (replyEpoch s1 o.opcode.toNat o.target) body
      let s2 := postMessage s1 k m
      if k = 0 then emitOut s2 (.redfishEvent "Plovern.VmpCompletion" m) else s2
    else s1

/-! ### Leases -/

/-- LEASE_HEATS of the device. -/
def leaseHeats (s : State) : Nat := param s 0xF

/-- Strike at whose end a lease of length h renewed at strike t expires: the end of the first heat that ends at least h
heats after (R352). -/
def leaseEnd (t h : Nat) : Nat := nextBoundary (t + h * 4096) - 1

/-- The lease-timer comparator carries the earliest lease deadline (R352, R362). -/
def leaseComparator (s : State) : State :=
  let h := leaseHeats s
  if h = 0 then s
  else
    let d := match minNat? (s.vmp.clients.map (fun c => leaseEnd c.lastStrike h)) with
      | some x => BitVec.ofNat 64 x
      | none => neverWord
    pageMod s devKey (fun p => if p.wd3 = d then p else wdWrite p 3 d)

/-- A request's arrival renews the lease of its client. -/
def renewLease (s : State) (c : BitVec 12) (arrived : Nat) : State :=
  leaseComparator { s with vmp := { s.vmp with clients := s.vmp.clients.map (fun x =>
    if x.id == c then { x with lastStrike := arrived } else x) } }

/-- Mark jobs of a client to be cancelled: a queued one ends at once, a running one stops (R127, R354). `from` is the
strike from which the stop boundary counts. -/
def cancelJob (s : State) (j : Job) (from' : Nat) (status : BitVec 16) : Job :=
  match j.phase with
  | .queued => { j with phase := .ended, endStatus := status, endStep := 0xFFFFFFFF, startStrike := 0, endedAt := some (now s) }
  | .running =>
    let b := (heatOf from' + 2) * 4096
    { j with stop := match j.stop with
        | some st => if b < st.boundary then some { boundary := b, status := status, step := 0xFFFFFFFF } else some st
        | none => some { boundary := b, status := status, step := 0xFFFFFFFF } }
  | .ended => j

def modJobs (s : State) (p : Job → Bool) (f : Job → Job) : State :=
  { s with seq := { s.seq with jobs := s.seq.jobs.map (fun j => if p j then f j else j) } }

/-- The client submitted the job to this device, whose Warden took it: a copy of another device's plan belongs to none here (R123). -/
def ownJob (s : State) (j : Job) : Bool := bits j.num.toNat 63 52 == s.form.device

/-- End a client's lease: its jobs are cancelled on every member, staged sets and later responses discarded, the ID goes back to the pool after
LEASE_HEATS heats (R351, R352). -/
def endLease (s : State) (c : BitVec 12) (cancelFrom : Nat) : State :=
  let mine (j : Job) : Bool := ownJob s j && j.client == c && j.phase != .ended
  let s0 := (s.seq.jobs.filter mine).foldl (fun t j => sendTo t j.members 3 (.jobCancel j.num cancelFrom 0x0307)) s
  let s1 := modJobs s0 mine (fun j => cancelJob s j cancelFrom 0x0307)
  let s2 := { s1 with vmp := { s1.vmp with clients := s1.vmp.clients.filter (fun x => x.id != c),
                                           outstanding := s1.vmp.outstanding.filter (fun o => o.client != c),
                                           retired := s1.vmp.retired ++ [(c, heatOf (now s) + leaseHeats s)] } }
  leaseComparator { s2 with cfg := { s2.cfg with staging := s2.cfg.staging.filter (fun st => st.client != c) } }

/-! ### Checks -/

/-- Body length of a request and whether check 4's reserved fields are zero, by opcode (R353, R357 to R361). -/
def bodyLength (op : Nat) : Nat :=
  match op with
  | 0x01 => 0x30 | 0x02 => 0 | 0x10 => 12 | 0x11 => 4 | 0x12 => 16 | 0x13 => 8 | 0x14 => 20
  | 0x20 => 24 | 0x21 => 8 | 0x22 => 8 | 0x23 => 16
  | 0x30 => 0x40 | 0x31 => 0x38 | 0x32 => 16 | 0x33 => 8 | 0x34 => 0x28 | 0x38 => 0x18
  | 0x40 => 8 | 0x41 => 17 | 0x48 => 1 | 0x49 => 0 | 0x50 => 44 | 0x58 => 16 | 0x59 => 8 | 0x60 => 0 | 0x61 => 12 | _ => 0

def opcodeDefined (op : Nat) : Bool :=
  [0x01, 0x02, 0x10, 0x11, 0x12, 0x13, 0x14, 0x20, 0x21, 0x22, 0x23, 0x30, 0x31, 0x32, 0x33, 0x34, 0x38, 0x40, 0x41, 0x48,
   0x49, 0x50, 0x58, 0x59, 0x60, 0x61].contains op

/-- Target levels a command allows (R353). -/
def levelOk (op lvl : Nat) : Bool :=
  match op with
  | 0x20 | 0x21 | 0x22 | 0x23 | 0x30 | 0x31 | 0x32 | 0x33 | 0x34 | 0x38 | 0x49 | 0x61 => lvl == 4 || lvl == 5
  | 0x48 => decide (lvl ≤ 4)
  | 0x50 | 0x58 | 0x59 | 0x60 => lvl == 4
  | _ => decide (lvl ≤ 5)

/-- Commands served before the device is ready (R410). (DEDUCED, unsafe: log entry 21.) -/
def servedEarly (op : Nat) : Bool := [0x01, 0x02, 0x60, 0x61, 0x40, 0x14, 0x50, 0x58].contains op

/-- TARGET is local, or a group of which the device is a member (R16, R349 check 6). -/
def targetLocal (s : State) (u : Uid) : Bool :=
  if keyLevel u.toNat = 5 then (groupOf s u).isSome else uidDevice u == s.form.device

/-- A remote member that counts as fenced or reaches a fenced unit: it is absent, it says that it is fenced, or its page shows so (R16, R349). (DEDUCED, unsafe: log entry 18.) -/
def memberFenced (s : State) (d : Nat) : Bool :=
  let st := sparseGet 0 d s.form.devState
  st == 0 || st == 3 || (match reflectedGet s d with
    | some r => r.fenced || bits r.state.toNat 7 4 == 5
    | none => false)

/-- Fenced, reaching a fenced unit, or OFFLINE (check 7). (DEDUCED, unsafe: log entry 18.) -/
def targetFenced (s : State) (u : Uid) : Bool :=
  if keyLevel u.toNat = 5 then
    reachesFenced s devKey || (match groupOf s u with
      | some g => g.members.any (fun d => d != s.form.device && memberFenced s d)
      | none => false)
  else reachesFenced s (uidKey u) || isOffline s (uidKey u)

/-- Every member's device unit runs the epoch (check 8, R433). -/
def epochMatches (s : State) (u : Uid) (e : Nat) : Bool := e == 0 || e == (targetEpoch s u).toNat

/-- The checks of R349 in order, with R410 before them; 0 when none fails. An identity failure is VMP_ATTEST's own to answer (R397). (DEDUCED, unsafe: log entry 18.) -/
def requestStatus (s : State) (m : List Byte) : BitVec 16 :=
  let op := msgOpcode m
  let hello := op == 0x01
  let bye := op == 0x02
  let c := clientGet s (msgClient m)
  let major := msgVersion m / 16
  let majorOk := match c with
    | some x => major == x.major
    | none => major == 1
  if !hello && !majorOk then 0x0100
  else if !hello && c.isNone then 0x0104
  else if !opcodeDefined op then 0x0101
  else if msgLength m != bodyLength op || byteAt m 2 / 4 != 0 || (!hello && fieldN m 6 2 / 4096 != 0) then 0x0102
  else if !hello && s.vmp.outstanding.any (fun o => o.client == msgClient m && o.tag == msgTag m) then 0x0106
  else if hello || bye then 0x0000
  else if !(uidShape (msgTarget m).toNat && levelOk op (keyLevel (msgTarget m).toNat) && targetLocal s (msgTarget m)) then 0x0103
  else if targetFenced s (msgTarget m) && !(op == 0x50 && s.ident.failed) then 0x0601
  else if !epochMatches s (msgTarget m) (msgEpoch m) then 0x0203
  else if !s.form.ready && !servedEarly op then 0x0600
  else 0x0000

/-- Read the entry at HEAD of a request ring: none when it is unreadable or its ring unmapped, which is logged and counted as an uncorrectable
error is (R29, R301, R347). -/
def readRequest (s : State) (k : Nat) : State × Option (List Byte) :=
  if 256 ≤ k then (s, ((sparseGet [] k s.vmp.remote).head?).map (·.2))
  else
    let a := requestAddr s k
    if !rangeOk s isTier a 128 then (eccLog s a 0 1, none)
    else
      let r := memRead s a 128
      (r.st, if r.bad.isSome then none else some r.bytes)

/-- Consume an unreadable entry: HEAD advances, nothing is posted, the ring and index go to the persistent log (R347). -/
def consumeUnreadable (s : State) (k : Nat) : State :=
  logPersistent (consume s k) (.unreadableEntry (2 * k) (pairGet s k).reqHead.toNat)

/-- Take the request at HEAD of pair k when it is next: an unreadable entry is consumed, a refused one answered with its
status, any other handed to its command with HEAD advanced and the lease renewed. A row whose opcode is not the entry's
leaves the entry where it is (the sender names the row of the entry that is next). (DESIGN CHOICE, safe: log entry 20.) (DEDUCED, unsafe: log entry 21.) -/
def takeRequest (s : State) (k op : Nat) (serve : State → List Byte → State) : State :=
  if !isNext s k then s
  else
    let arrived := (arrivalOf s k).getD 0
    match readRequest s k with
    | (s1, none) => consumeUnreadable s1 k
    | (s1, some m) =>
      let st := requestStatus s1 m
      let s2 := if msgOpcode m = 0x01 then consume s1 k else renewLease (consume s1 k) (msgClient m) arrived
      if opcodeDefined (msgOpcode m) && msgOpcode m != op then s
      else if st != 0x0000 then respond s2 k m st []
      else serve s2 m

/-- Read a command's payload by reference, answering its failure. -/
def withRef (s : State) (k : Nat) (m : List Byte) (a n : Nat) (f : State → List Byte → State) : State :=
  match readRef s a n with
  | (s1, .error st) => respond s1 k m st []
  | (s1, .ok bs) => f s1 bs

/-! ### Events (R364) -/

def eventBytes (e : StickyEvent) (seq : Nat) : List Byte :=
  leBytes 4 e.uid.toNat ++ leBytes 1 e.bit ++ leBytes 3 0 ++ leBytes 8 e.strike ++ leBytes 8 e.sticky.toNat ++ leBytes 8 seq

/-- The scope of an event ring names the unit or an ancestor of it; a group scope names a member's units. -/
def scopeCovers (s : State) (scope u : Uid) : Bool :=
  if keyLevel scope.toNat = 5 then
    scope == u || (keyLevel u.toNat != 5 && (match groupOf s scope with
     | some g => g.members.contains (uidDevice u)
     | none => false))
  else keyLevel u.toNat != 5 && uidDevice scope == uidDevice u && covers (uidKey scope) (uidKey u)

/-- Post an event to one ring, or drop it at a full ring; SEQ counts it either way. -/
def postEvent (s : State) (e : StickyEvent) (k : Nat) : State :=
  let p := pairGet s k
  if !(p.evtEn && p.en && scopeCovers s p.evtUid e.uid) then s
  else if ringSize p.evtLog2.toNat ≤ ringCount p.evtHead p.evtTail then
    pairMod s k (fun p => { p with evtDrops := if p.evtDrops = 0xFFFFFFFF then p.evtDrops else p.evtDrops + 1, evtSeq := p.evtSeq + 1 })
  else
    let a := p.evtBase.toNat + 32 * (p.evtTail.toNat % 2 ^ p.evtLog2.toNat)
    let s1 := pairMod (memWrite s a (eventBytes e p.evtSeq)) k (fun p => { p with evtTail := p.evtTail + 1, evtSeq := p.evtSeq + 1 })
    if k = 0 then emitOut s1 (.redfishEvent "Plovern.StickyEvent" (eventBytes e p.evtSeq)) else s1

def postEventAll (s : State) (e : StickyEvent) : State := (s.vmp.pairs.map (·.1)).foldl (fun t k => postEvent t e k) s

/-- Bits of a group's ORed sticky register that rose with their notify bit set become events of the group (R10, R364). The group page keeps
the value last judged. -/
def noteGroups (s : State) : State :=
  (localGroups s).foldl (fun t g =>
    let u := 5 * 2 ^ 28 + g.group * 2 ^ 16
    let p := (unitGet t u).page
    if p.notify = 0 then t
    else
      let v := groupSticky t g
      let rose := v &&& ~~~ p.sticky &&& p.notify
      let es := ((List.range 64).filter (fun b => rose.getLsbD b)).map (fun b =>
        ({ uid := BitVec.ofNat 32 u, bit := b, strike := now s - 1, sticky := v } : StickyEvent))
      let t1 := pageMod t u (fun p => { p with sticky := v })
      { t1 with units := { t1.units with events := t1.units.events ++ es } }) s

/-- R364: events of earlier strikes are posted, oldest first. -/
def execStickyEventPost (s : State) : Host.Outcome State Fault Refusal :=
  let due := s.units.events.filter (fun e => decide (e.strike < now s))
  let s1 := { s with units := { s.units with events := s.units.events.filter (fun e => !decide (e.strike < now s)) } }
  .next (due.foldl postEventAll s1)

/-- R347: an entry that cannot be read is consumed without a response. (DESIGN CHOICE, safe: log entry 20.) -/
def execRequestEntryUnreadable (pair : Nat) (s : State) : Host.Outcome State Fault Refusal :=
  .next (if isNext s pair then
    match readRequest s pair with
    | (s1, none) => consumeUnreadable s1 pair
    | (_, some _) => s
  else s)

/-! ### HELLO, BYE -/

/-- Clients that work still under way names: their jobs, commits, table and firmware requests, recoveries. -/
def namedClients (s : State) : List (BitVec 12) :=
  (s.seq.jobs.filter (fun j => ownJob s j && !j.completed)).map (·.client) ++ s.cfg.pending.filterMap (fun c => c.owner.map (·.1)) ++
  s.eng.tables.flatMap (fun t => t.versions.flatMap (fun v =>
    ((v.activation.bind (·.owner)).map (·.1)).toList ++ ((v.migration.bind (·.owner)).map (·.1)).toList ++ (v.loadReq.map (fun r => msgClient r.2)).toList)) ++
  ((s.boot.activation.map (fun a => a.client :: a.also.map (·.1))).getD []) ++
  ((s.quench.outside ++ (s.quench.hold.map (·.partitions)).getD []).flatMap (fun p => p.requesters.map (·.1)))

/-- Lowest free client ID that is neither held back (R351) nor named by work of an earlier holder. (DEDUCED, unsafe: log entry 18.) -/
def freeClient (s : State) : Option Nat :=
  let busy := namedClients s
  (List.range 4096).find? (fun i =>
    !s.vmp.clients.any (fun c => c.id.toNat == i) && !busy.any (fun c => c.toNat == i) &&
      !s.vmp.retired.any (fun r => r.1.toNat == i && decide (heatOf (now s) < r.2)))

/-- VMP_HELLO: version negotiation and a new lease, which counts from the request's arrival (R351, R352). The device supports major 1 at minor
0. -/
def serveHello (arrived k : Nat) (s : State) (m : List Byte) : State :=
  let b := msgBody m
  if !bit (fieldN b 0 2) 1 then respond s k m 0x0100 []
  else if 4096 ≤ s.vmp.clients.length then respond s k m 0x0104 []
  else match freeClient s with
  | none => respond s k m 0x0104 []
  | some i =>
    let id : BitVec 12 := BitVec.ofNat 12 i
    let c : Client := { id := id, major := 1, minor := 0, pair := k, lastStrike := arrived }
    let s1 := { s with vmp := { s.vmp with clients := s.vmp.clients ++ [c], retired := s.vmp.retired.filter (fun r => r.1 != id) } }
    let s2 := leaseComparator (logPersistent s1 (.clientLabel id (slice b 0x20 16)))
    let body := leBytes 2 i ++ [0x10, 0] ++ leBytes 4 (leaseHeats s) ++ leBytes 4 (fullUid s devKey).toNat ++
      leBytes 4 (imgSvn s.boot.running)
    respondTo s2 k m id 0x0000 body

/-- R351. -/
def execVmpHello (pair : Nat) (s : State) : Host.Outcome State Fault Refusal := .next (takeRequest s pair 0x01 (serveHello ((arrivalOf s pair).getD (now s)) pair))

/-- VMP_BYE ends the lease at once; its response is posted first. -/
def serveBye (k : Nat) (s : State) (m : List Byte) : State := endLease (respond s k m 0x0000 []) (msgClient m) (now s)

/-- R352. -/
def execVmpBye (pair : Nat) (s : State) : Host.Outcome State Fault Refusal := .next (takeRequest s pair 0x02 (serveBye pair))

/-- R352: the lease's length has passed. (DESIGN CHOICE, safe: log entry 2.) -/
def execLeaseExpiry (client : BitVec 12) (s : State) : Host.Outcome State Fault Refusal :=
  .next (match clientGet s client with
    | none => s
    | some c =>
      if leaseHeats s ≠ 0 && leaseEnd c.lastStrike (leaseHeats s) ≤ now s then
        endLease (stickySet s devKey 17) client (nextBoundary (now s + 1))
      else s)

/-- The doorbell pages a requester may write: the Hearth those of pairs 1 to 255, the CMC those of pair 0 (R344, R346). (DEDUCED, unsafe: log entry 68.) -/
def mayRing (who : Requester) (pair : Nat) : Bool :=
  decide (pair < 256) && (match who with
    | .hearth => pair != 0
    | .cmc => pair == 0
    | .warden => true
    | .spur => false)

/-- A Hearth write to a page of pair 0 returns a bus error. -/
def ringFault (s : State) (who : Requester) (pair off : Nat) : State :=
  if who == .hearth && pair == 0 then emitOut s (.hearthFault (BitVec.ofNat 64 (doorBase + off))) else s

/-- EN 0 to 1 zeroes every index of the pair and of its event ring, EVT.DROPS and the event SEQ. -/
def enableSet (s : State) (who : Requester) (pair : Nat) : State :=
  if !mayRing who pair then ringFault s who pair 0x20
  else if (pairGet s pair).en then s
  else pairMod s pair (fun p => { p with
    en := true, reqHead := 0, reqTail := 0, respHead := 0, respTail := 0, evtHead := 0, evtTail := 0, evtDrops := 0,
    evtSeq := 0, arrivals := [] })

/-- EN 1 to 0 ends the leases of the pair's clients as VMP_BYE would. -/
def enableClear (s : State) (who : Requester) (pair : Nat) : State :=
  if !mayRing who pair then ringFault s who pair 0x20
  else if (pairGet s pair).en then
    ((s.vmp.clients.filter (fun c => c.pair == pair)).map (·.id)).foldl (fun t c => endLease t c (now s))
      (pairMod s pair (fun p => { p with en := false }))
  else s

/-- R346. -/
def execVmpEnableSet (who : Requester) (pair : Nat) (s : State) : Host.Outcome State Fault Refusal := .next (enableSet s who pair)

/-- R346. -/
def execVmpEnableClear (who : Requester) (pair : Nat) (s : State) : Host.Outcome State Fault Refusal := .next (enableClear s who pair)

end Sys2Proof.Machine
end

