-- ==== Sys2Proof/Machine/Timebase.lean ====
section
/-!
DEFINITION. The strike timebase (R30 to R46): reference inputs, election, lock, parents, holdover, slip. Physical measurements
arrive as operands.
-/
namespace Sys2Proof.Machine

/-- Candidate a ranks above b (R32); a pending candidate ranks as class 0 once the election stops waiting. -/
def ranksAbove (a b : Candidate) : Bool :=
  (a.classOne && !b.classOne) || (a.classOne == b.classOne && decide (a.digest.toNat < b.digest.toNat))

def ownCandidate (s : State) : Candidate :=
  { classOne := s.tb.refLocked && s.tb.ppsQualified, pending := s.tb.refLocked && !s.tb.ppsQualified,
    digest := s.ident.digest, device := s.form.device }

/-- The better of what is known and a candidate; news of the same candidate at the same rank takes its place. -/
def bestOf (o : Option Candidate) (c : Candidate) : Candidate :=
  match o with
  | none => c
  | some b => if ranksAbove c b || (c.digest == b.digest && c.classOne == b.classOne) then c else b

/-- Record the master in TIMEBASE.MASTER. -/
def setMaster (s : State) (c : Candidate) : State :=
  { s with tb := { s.tb with masterDigest := BitVec.ofNat 48 (c.digest.toNat / 2 ^ 336), masterClass := c.classOne,
                             masterDevice := BitVec.ofNat 12 c.device, announced := some c } }

/-- What every device says once per heat: the strike number and its lock state to its neighbours, the master's heartbeat, and
its state for the pages of its groups (R24, R36, R37, R46). -/
def heatMessages (s : State) : State :=
  let locked := s.tb.lock == .locked
  let s1 := if s.tb.role == .master then floodMsg s 1 .heartbeat else s
  let s2 := floodMsg (floodMsg s1 1 (.strikeNumber (now s))) 1 (.portState locked s.tb.hops.toNat)
  let v := memberView s2 s.form.device
  (localGroups s2).foldl (fun t g => sendTo t g.members 3 (.groupPage v.sticky v.active v.previous v.fenced v.counters v.caps v.state)) s2

/-- The SYNC_OUT pulse (R41, R412, R429). -/
def syncPulse (s : State) : State :=
  if param s 0x11 = 1 then (if now s % 4000000 = 0 then emitOut s (.syncOut 100000) else s)
  else if param s 0x12 = 1 && s.tb.lock == .locked then
    emitOut s (.syncOut (if isBoundary (now s) then 125 else if s.seq.kind == .run then 25 else 75))
  else s

def tbMod (s : State) (f : Timebase → Timebase) : State := { s with tb := f s.tb }

/-- The one-way delay of a two-way exchange: the clock offset of the two sides cancels (R38). -/
def oneWayDelay (t : TwoWay) : Int := ((t.tbRx - t.taTx) + (t.taRx - t.tbTx)) / 2

/-- The offset of b's clock from a's, positive when b's edge is late (R38). -/
def offsetOfB (delay : Int) (t : TwoWay) : Int := delay - (t.tbRx - t.taTx)

/-- R31. -/
def execRef10mLock (s : State) : Host.Outcome State Fault Refusal := .next (tbMod s (fun t => { t with refLocked := true }))

/-- R31, R35: a master that loses its reference runs in holdover and keeps mastership. (DEDUCED, unsafe: log entry 80.) -/
def execRef10mLoss (s : State) : Host.Outcome State Fault Refusal :=
  .next (tbMod s (fun t => { t with refLocked := false, masterHoldover := t.masterHoldover || t.role == .master }))

/-- A mark is missing or misplaced: the second in a row ends qualification (R31). -/
def badMark (t : Timebase) : Timebase :=
  if 2 ≤ t.badMarks + 1 then
    { t with goodMarks := 0, badMarks := t.badMarks + 1, ppsQualified := false,
             masterHoldover := t.masterHoldover || (t.role == .master && t.ppsQualified) }
  else { t with goodMarks := 0, badMarks := t.badMarks + 1 }

/-- R31: a mark 10,000,000 ± 1 REF10M cycles after the last qualifies PPS; a signal outside R30's limits is not used. (DEDUCED, unsafe: log entry 80.) (DESIGN CHOICE, safe: log entry 97.) -/
def execPpsMark (cycles : Nat) (inLimits : Bool) (s : State) : Host.Outcome State Fault Refusal :=
  .next (tbMod s (fun t =>
    if t.refLocked && inLimits && 9999999 ≤ cycles && cycles ≤ 10000001 then
      { t with goodMarks := t.goodMarks + 1, badMarks := 0, ppsQualified := true, masterHoldover := false }
    else badMark t))

/-- R31. -/
def execPpsMarkMissing (s : State) : Host.Outcome State Fault Refusal := .next (tbMod s badMark)

/-- The candidates a device makes known: the best, itself, so that it shows whether it is pending, and every one last heard as pending
(R32, R407). -/
def floodList (s : State) : List Candidate :=
  let own := ownCandidate s
  let best := bestOf s.tb.best own
  best :: ((own :: s.tb.pendings).filter (fun c => c.digest != best.digest || c.pending != best.pending))

/-- R407, but for a device with a failed identity (R397): the best candidate known is flooded until the election concludes, and with it the candidates known as pending (R32). (DEDUCED, safe: log entry 82.) -/
def execCandidateFlood (s : State) : Host.Outcome State Fault Refusal :=
  .next (if s.boot.phase == .running && !s.ident.failed && !s.tb.electionOver then
    (floodList s).foldl (fun t c => floodMsg t 1 (.candidate c))
      (tbMod s (fun t => { t with best := some (bestOf s.tb.best (ownCandidate s)) }))
  else s)

/-- A candidate heard from a neighbour (R407); one that is no longer pending is passed on once (R32). -/
def hearCandidate (s : State) (c : Candidate) : State :=
  if s.tb.electionOver then s
  else
    let rest := s.tb.pendings.filter (fun x => x.digest != c.digest)
    let s1 := tbMod s (fun t => { t with best := some (bestOf t.best c), pendings := if c.pending then c :: rest else rest })
    if !c.pending && s.tb.pendings.any (fun x => x.digest == c.digest) then floodMsg s1 1 (.candidate c) else s1

/-- R407: with no pending candidate, or at 2.5 s, the device concludes; the one that is its own best announces itself. After
a lost master the new one keeps its count and its lock, and its heartbeat starts in the running heat (R46). (DESIGN CHOICE, unsafe: log entry 98.) -/
def execElectionConclude (timedOut : Bool) (s : State) : Host.Outcome State Fault Refusal :=
  let own := ownCandidate s
  .next (if s.boot.phase == .running && !s.ident.failed && !s.tb.electionOver && (timedOut || (s.tb.pendings.isEmpty && !own.pending)) then
    let best := bestOf s.tb.best own
    let s1 := tbMod s (fun t => { t with electionOver := true, classBit := own.classOne, best := some best })
    if best.digest = own.digest then
      let s2 := setMaster s1 own
      let s3 := tbMod s2 (fun t => { t with role := .master, parent := none, masterHoldover := false,
                                            lock := if t.strikeDefined then .locked else t.lock,
                                            hops := if t.strikeDefined then 0 else t.hops })
      let s4 := floodMsg s3 1 (.announcement own)
      if s4.tb.strikeDefined then floodMsg (tbMod s4 (fun t => { t with heartbeatHeat := heatOf (now s) })) 1 .heartbeat else s4
    else s1
  else s)

/-- Adopt the highest-ranked announcement; a self-declared master yields to a higher one before strike 0 (R407). Once
strike 0 is defined R33 governs, unless an election is running again (R46). A device that follows a master chooses its first parent anew (R42). -/
def hearAnnouncement (s : State) (c : Candidate) : State :=
  let better := match s.tb.announced with
    | none => true
    | some a => ranksAbove c a
  if better && !s.ident.failed && (!s.tb.strikeDefined || s.tb.announced.isNone) then
    let s1 := setMaster s c
    floodMsg (tbMod s1 (fun t => { t with electionOver := true, parent := none, role := .follower, classBit := (ownCandidate s).classOne })) 1 (.announcement c)
  else s

/-- R407. -/
def execMasterAnnouncementReceive (c : Candidate) (s : State) : Host.Outcome State Fault Refusal := .next (hearAnnouncement s c)

/-- R34: the master defines strike 0 and is locked at hop count 0. Strike 0 begins heat 0, with its messages (R37, R46) and its pulse (R41). -/
def execStrikeZero (s : State) : Host.Outcome State Fault Refusal :=
  .next (if s.tb.role == .master && !s.tb.strikeDefined then
    syncPulse (heatMessages { tbMod s (fun t => { t with strikeDefined := true, lock := .locked, hops := 0 }) with
      seq := { s.seq with strike := 0, kind := .run, nextKind := .run, hold := 0 } })
  else s)

/-- Ports that may be a parent: torus ports that are UP, whose neighbour is locked, measured, and not being recalibrated
(R36, R38, R39). -/
def parentPorts (s : State) : List Nat :=
  (List.range 6).filter (fun p => portUp s p && s.tb.neighbourLocked.getD p false && s.tb.recalHeats.getD p 0 == 0 &&
    s.tb.hopDelay.getD p 0 != 0)

/-- The parent port: lowest hop count, then lowest index (R36). -/
def chooseParent (s : State) : Option Nat :=
  let ps := parentPorts s
  match minNat? (ps.map (fun p => s.tb.neighbourHops.getD p 0)) with
  | none => none
  | some h => ps.find? (fun p => s.tb.neighbourHops.getD p 0 == h)

/-- The parent port a device may take: its hop count would not exceed 24 (R36). -/
def eligibleParent (s : State) : Option Nat := (chooseParent s).filter (fun p => decide (s.tb.neighbourHops.getD p 0 + 1 ≤ 24))

/-- Take port p as parent with its hop count plus one. -/
def takeParent (s : State) (p : Nat) (role : Role) (lock : LockState) : State :=
  tbMod s (fun t => { t with parent := some p, hops := BitVec.ofNat 5 (t.neighbourHops.getD p 0 + 1), role := role, lock := lock })

/-- A device that has no lock, or has not chosen a parent since a re-election (R42). -/
def mayAcquire (s : State) : Bool :=
  s.tb.role != .master && !s.ident.failed && (s.tb.lock == .unlocked || s.tb.lock == .acquiring ||
    (s.tb.lock == .locked && s.tb.role == .follower && s.tb.parent.isNone))

/-- The strike number that a device takes as it locks on a port: the one last heard there, carried on to now, else the one in the control slot
that locks it (R37, R44). A number stands for the strike of its arrival, whatever the hop's transit: the spec does not say which. (DESIGN CHOICE, unsafe: log entry 111.) -/
def lockNumber (s : State) (p : Nat) (n : Word) : Word :=
  match s.tb.slotNumber.getD p none with
  | some (m, at') => m + (s.seq.strike - at')
  | none => n

/-- R36: a device without lock chooses its first parent and, when it locks, takes the strike number; beyond 24 hops it does
not lock. -/
def execStrikeLockAcquire (locks : Bool) (n : Word) (s : State) : Host.Outcome State Fault Refusal :=
  .next (if mayAcquire s then
    match eligibleParent s with
    | none => s
    | some p =>
      if locks then
        let s1 := takeParent s p .follower .locked
        let m := lockNumber s p n
        { tbMod s1 (fun t => { t with strikeDefined := true, heartbeatHeat := heatOf m.toNat }) with
          seq := { s.seq with strike := m } }
      else tbMod s (fun t => { t with parent := some p, lock := .acquiring })
  else s)

/-- The slip of R44; the strike number then comes from the next control slot. -/
def slip (s : State) : State :=
  let s1 := tbMod s (fun t => { t with lock := .slipped, hops := 0x1F, slotNumber := List.replicate 6 none })
  flagsMod (count (stickySet s1 devKey 4) devKey 17 1) devKey (fun f => { f with fenced := true })

/-- Magnitude of the last phase error, in ps. -/
def offsetMag (s : State) : Nat := (sint 32 s.tb.offset.toNat).natAbs

/-- R44: a locked device whose phase error exceeds 8 ns slips; a master, which has no parent's edge to measure against, does not. (DESIGN CHOICE, unsafe: log entry 111.) -/
def execStrikeSlip (s : State) : Host.Outcome State Fault Refusal :=
  .next (if s.tb.lock == .locked && s.tb.role != .master && 8000 < offsetMag s then slip s else s)

/-- The port a slipped device relocks on: its parent while that still may be one, else the port it may take (R36, R44). -/
def relockPort (s : State) : Option Nat :=
  match s.tb.parent with
  | some p => if (parentPorts s).contains p && decide (s.tb.neighbourHops.getD p 0 + 1 ≤ 24) then some p else eligibleParent s
  | none => eligibleParent s

/-- R44: a slipped device with a reference path relocks with the strike number of the next control slot; it leaves FENCED unless it also
missed a commit. ROLE stays as it was, but for a holdover, which the parent ends (R45). -/
def execStrikeRelock (n : Word) (s : State) : Host.Outcome State Fault Refusal :=
  .next (if s.tb.lock == .slipped && !s.ident.failed then
    match relockPort s with
    | none => s
    | some p =>
      let s1 := tbMod s (fun t => { t with
        lock := .locked, hops := BitVec.ofNat 5 (t.neighbourHops.getD p 0 + 1), parent := some p, offset := 0
        role := if t.role == .holdover then .follower else t.role })
      let s2 := { s1 with seq := { s1.seq with strike := lockNumber s p n } }
      if (unitGet s devKey).flags.refEpoch = 0 && (unitGet s devKey).flags.refSeen = 0 then flagsMod s2 devKey (fun f => { f with fenced := false }) else s2
  else s)

/-- R45: the parent port is down. -/
def execHoldoverEnter (s : State) : Host.Outcome State Fault Refusal :=
  .next (match s.tb.parent with
    | some p => if s.tb.role == .follower && !portUp s p then
        tbMod s (fun t => { t with role := .holdover, parent := none, holdoverHeats := heatOf (now s) })
      else s
    | none => s)

/-- R45, R36: an eligible port ends holdover without a slip. -/
def execReparent (s : State) : Host.Outcome State Fault Refusal :=
  .next (if s.tb.role == .holdover && s.tb.lock == .locked then
    match eligibleParent s with
    | some p => takeParent s p .follower .locked
    | none => s
  else s)

/-- R45: no eligible port within 16 heats. -/
def execHoldoverTimeout (s : State) : Host.Outcome State Fault Refusal :=
  .next (if s.tb.role == .holdover && s.tb.lock == .locked && s.tb.holdoverHeats + 16 ≤ heatOf (now s) &&
      (eligibleParent s).isNone then slip s else s)

/-- R46: two whole heats without a heartbeat; the survivors elect again. -/
def execMasterLost (s : State) : Host.Outcome State Fault Refusal :=
  .next (if s.tb.role != .master && s.tb.strikeDefined && s.tb.heartbeatHeat + 3 ≤ heatOf (now s + 1) && s.tb.electionOver then
    tbMod s (fun t => { t with electionOver := false, best := none, pendings := [], announced := none })
  else s)

end Sys2Proof.Machine
end

