-- ==== Sys2Proof/Machine/Plan.lean ====
section
/-!
DEFINITION. The heat plan format as accessors over the plan's bytes (R114 to R121, R247), engine classes (R110), the offset a job
has reached (R113), and which activities start at an offset (R106, R249).
-/
namespace Sys2Proof.Machine

def plDet (p : List Byte) : Bool := bit (fieldN p 6 2) 0
def plSeed (p : List Byte) : Nat := fieldN p 8 8
def plReqEpoch (p : List Byte) : Nat := fieldN p 0x14 4
def plLength (p : List Byte) : Nat := fieldN p 0x18 8
def plStart (p : List Byte) : Nat := fieldN p 0x20 8
def plMembers (p : List Byte) : Nat := fieldN p 0x28 2
def plLshards (p : List Byte) : Nat := fieldN p 0x2A 2
def plNsect (p : List Byte) : Nat := fieldN p 0x2C 2
def plTotal (p : List Byte) : Nat := fieldN p 0x30 8
def plResultBase (p : List Byte) : Nat := fieldN p 0x38 8

/-- A section directory entry (R114). -/
structure PlanSection where
  index : Nat
  type : Nat
  member : Nat
  count : Nat
  off : Nat
deriving DecidableEq, Repr

def plSections (p : List Byte) : List PlanSection :=
  (List.range (plNsect p)).map (fun i =>
    let o := 0x100 + 16 * i
    { index := i, type := byteAt p o, member := fieldN p (o + 2) 2, count := fieldN p (o + 4) 4, off := fieldN p (o + 8) 8 })

/-- The section of a type that member position m reads: its own where one exists, else the shared one (R115). -/
def sectionOf (p : List Byte) (type m : Nat) : Option PlanSection :=
  let ss := (plSections p).filter (fun s => s.type == type)
  (ss.find? (fun s => s.member == m)).or (ss.find? (fun s => s.member == 0xFFFF))

/-- Bytes of an entry of the section that a member reads. -/
def sectionEntry (p : List Byte) (type m size i : Nat) : List Byte :=
  match sectionOf p type m with
  | some s => slice p (s.off + size * i) size
  | none => List.replicate size 0

def sectionCount (p : List Byte) (type m : Nat) : Nat :=
  match sectionOf p type m with
  | some s => s.count
  | none => 0

/-- A step table entry (R115's table). -/
structure PlanStep where
  index : Nat
  offset : Nat
  budget : Nat
  kind : Nat
  opcode : Nat
  noper : Nat
  flags : Nat
  scope : Nat
  paramOff : Nat
  paramLen : Nat
  opers : List Nat
deriving DecidableEq, Repr

def parseStep (b : List Byte) (i : Nat) : PlanStep :=
  { index := i, offset := fieldN b 0 8, budget := fieldN b 8 4, kind := byteAt b 0xC, opcode := byteAt b 0xD,
    noper := byteAt b 0xE, flags := byteAt b 0xF, scope := fieldN b 0x10 4, paramOff := fieldN b 0x14 4,
    paramLen := fieldN b 0x18 4, opers := (List.range 8).map (fun j => fieldN b (0x40 + 8 * j) 8) }

def stepCount (p : List Byte) : Nat := sectionCount p 4 0xFFFF

def stepAt (p : List Byte) (i : Nat) : PlanStep := parseStep (sectionEntry p 4 0xFFFF 128 i) i

def planSteps (p : List Byte) : List PlanStep := (List.range (stepCount p)).map (stepAt p)

/-- The step records its completion (RECORD). -/
def stepRecords (s : PlanStep) : Bool := s.flags % 2 == 1

/-- The parameter block of a step in the PARAMS section member m reads. -/
def stepParams (p : List Byte) (m : Nat) (st : PlanStep) : List Byte :=
  match sectionOf p 2 m with
  | some s => slice p (s.off + st.paramOff) st.paramLen
  | none => List.replicate st.paramLen 0

/-! ### Operand words -/

def operOut (w : Nat) : Bool := bit w 63
def operActl (w : Nat) : Nat := bits w 55 48
def operSlot (w : Nat) : Nat := bits w 47 40
def operSet (w : Nat) : Nat := bits w 32 32
def operDist (w : Nat) : Nat := bits w 31 16
def operDesc (w : Nat) : Nat := bits w 15 0

/-- Bytes of descriptor i in the DESCRIPTORS section of member m. -/
def descBytes (p : List Byte) (m i : Nat) : List Byte := sectionEntry p 1 m 128 i

/-- Base of slot j, set A or B, and its size. -/
def slotBase (p : List Byte) (j set : Nat) : Nat := fieldN (sectionEntry p 3 0xFFFF 16 j) (4 * set) 4
def slotSize (p : List Byte) (j : Nat) : Nat := fieldN (sectionEntry p 3 0xFFFF 16 j) 8 4

/-! ### Flows, slot map, marks, shard map -/

structure Flow where
  index : Nat
  src : Nat
  dst : Nat
  srcStream : Nat
  dstStream : Nat
  bytes : Nat
  dynamic : Bool
deriving DecidableEq, Repr

def flowAt (p : List Byte) (i : Nat) : Flow :=
  let b := sectionEntry p 7 0xFFFF 32 i
  { index := i, src := fieldN b 0 2, dst := fieldN b 2 2, srcStream := fieldN b 4 4, dstStream := fieldN b 8 4,
    bytes := fieldN b 0xC 4, dynamic := bit (byteAt b 0x10) 0 }

def planFlows (p : List Byte) : List Flow := (List.range (sectionCount p 7 0xFFFF)).map (flowAt p)

structure WeldSlot where
  first : Nat
  count : Nat
  port : Nat
  lanes : Nat
  flow : Nat
deriving DecidableEq, Repr

/-- The slot map of member position m. -/
def weldSlots (p : List Byte) (m : Nat) : List WeldSlot :=
  match (plSections p).find? (fun s => s.type == 6 && s.member == m) with
  | none => []
  | some s => (List.range s.count).map (fun i =>
    let b := slice p (s.off + 16 * i) 16
    { first := fieldN b 0 6, count := fieldN b 6 2, port := byteAt b 8, lanes := byteAt b 9, flow := fieldN b 0xA 2 })

/-- A lane slot is assigned at an offset, and to which flow. -/
def slotFlow (ws : List WeldSlot) (off port lane : Nat) : Option Nat :=
  (ws.find? (fun w => decide (w.first ≤ off ∧ off < w.first + w.count) && w.port == port && bit w.lanes lane)).map (·.flow)

structure Mark where
  off : Nat
  kind : Nat
  value : Nat
deriving DecidableEq, Repr

def planMarks (p : List Byte) : List Mark :=
  (List.range (sectionCount p 8 0xFFFF)).map (fun i =>
    let b := sectionEntry p 8 0xFFFF 16 i
    { off := fieldN b 0 8, kind := byteAt b 8, value := fieldN b 0xC 4 })

/-- Offset of the latest checkpoint mark at or before k; offset 0 is one (R120). -/
def checkpointAt (p : List Byte) (k : Nat) : Nat :=
  maxNat (((planMarks p).filter (fun m => bit m.kind 0 && decide (m.off ≤ k))).map (·.off))

/-- VALUE of the latest PROGRESS mark at or before k, 0 when there is none (R126). -/
def progressAt (p : List Byte) (k : Nat) : Nat :=
  maxNat (((planMarks p).filter (fun m => bit m.kind 1 && decide (m.off ≤ k))).map (·.value))

/-- Group position that does the work of a logical shard (R121). -/
def shardPos (p : List Byte) (i : Nat) : Nat :=
  match sectionOf p 9 0xFFFF with
  | some s => fieldN p (s.off + 2 * i) 2
  | none => i

/-! ### Stream records (R247) -/

/-- Header of the stream record named r in the STREAMS section of member m. -/
def streamHdr (p : List Byte) (m r : Nat) : List Byte :=
  match sectionOf p 5 m with
  | some s => slice p (s.off + r) 64
  | none => List.replicate 64 0

def strKind (h : List Byte) : Nat := byteAt h 4
def strForm (h : List Byte) : Nat := byteAt h 5
def strSlot (h : List Byte) : Nat := byteAt h 6
def strFlags (h : List Byte) : Nat := byteAt h 7
def strFirst (h : List Byte) : Nat := fieldN h 8 8
def strBudget (h : List Byte) : Nat := fieldN h 0x10 4
def strRepeat (h : List Byte) : Nat := fieldN h 0x14 4
def strPeriod (h : List Byte) : Nat := fieldN h 0x18 8
def strScope (h : List Byte) : Nat := fieldN h 0x20 4
def strNentry (h : List Byte) : Nat := fieldN h 0x24 4
def strRepStride (h : List Byte) : Int := sint 64 (fieldN h 0x28 8)
def strCoreStride (h : List Byte) : Int := sint 64 (fieldN h 0x30 8)
def strRing (h : List Byte) : Nat := fieldN h 0x38 2
def strQp (h : List Byte) : Nat := fieldN h 0x3A 2
def strFill (h : List Byte) : Nat := byteAt h 0x3C
def strCompl (h : List Byte) : Nat := byteAt h 0x3D

/-- Names of the records: each starts at the next multiple of 64 that is not in the padding (R247). -/
def streamNamesFrom : Nat → List Byte → Nat → List Nat
  | 0, _, _ => []
  | n + 1, bs, o =>
    if bs.length < 64 then []
    else
      let len := fieldN bs 0 4
      if len < 64 then streamNamesFrom n (bs.drop 64) (o + 64)
      else
        let step := roundUp len 64
        o :: streamNamesFrom n (bs.drop step) (o + step)

def streamNames (p : List Byte) (m : Nat) : List Nat :=
  match sectionOf p 5 m with
  | some s => streamNamesFrom (s.count / 64 + 1) (slice p s.off s.count) 0
  | none => []

def strStart (h : List Byte) (j : Nat) : Nat := strFirst h + j * strPeriod h

/-- Stack indices whose engines a record uses (R248). -/
def streamStacks (h : List Byte) : List Nat :=
  if strKind h ≤ 1 then
    (List.range 16).filter (fun st => covers (strScope h) (columnKey st) || covers (columnKey st) (strScope h))
  else [keyStack (strScope h)]

/-- Repeats of a record that start at offset k. -/
def repeatAt (h : List Byte) (k : Nat) : Option Nat :=
  if k < strFirst h then none
  else
    let d := k - strFirst h
    if strPeriod h = 0 then (if d = 0 then some 0 else none)
    else if d % strPeriod h = 0 ∧ d / strPeriod h < strRepeat h then some (d / strPeriod h) else none

/-! ### Engine classes and guards (R110, R124) -/

inductive EngineClass where
  | array | arrayHardy | swage | crucible | tongs | hardy | refresh
deriving DecidableEq, Repr

def classOf (st : PlanStep) : EngineClass :=
  if st.kind = 1 then .hardy
  else if st.kind = 2 then .refresh
  else match st.opcode with
    | 0x08 | 0x09 | 0x16 => .arrayHardy
    | 0x0E | 0x0F => .tongs
    | 0x10 => .swage
    | 0x11 | 0x12 => .crucible
    | _ => .array

def isArray (st : PlanStep) : Bool := classOf st == .array || classOf st == .arrayHardy

/-- Columns within a unit, or the column that holds it. -/
def columnsOf (k : Nat) : List Nat := ((List.range 16).map columnKey).filter (fun c => covers k c || covers c k)

/-- A FILTER step with an IN term, which occupies the Hardy units of its dies (R143). -/
def hasInTerm (p : List Byte) (m : Nat) (st : PlanStep) : Bool :=
  let b := stepParams p m st
  st.kind == 0 && st.opcode == 2 && (List.range (byteAt b 0x31)).any (fun i => byteAt b (0x60 + 16 * i) == 0x18)

/-- Dies that a mask names, by die index (R95). -/
def maskDies (mask : Nat) : List Nat := ((List.range 80).filter (bit mask)).map dieKey

/-- Crucible engines that a PACK or UNPACK step names, 8 to a column (R279, R284). -/
def namedEngines (p : List Byte) (m : Nat) (st : PlanStep) : List Nat :=
  let mask := fieldN (stepParams p m st) (if st.opcode = 0x11 then 0x40 else 0x38) 16
  (List.range 128).filter (bit mask)

/-- The unit keys that guard a step (R124). -/
def guardKeys (p : List Byte) (m : Nat) (st : PlanStep) : List Nat :=
  match classOf st with
  | .array => coresOf st.scope ++ (if hasInTerm p m st then diesOf st.scope else [])
  | .arrayHardy => coresOf st.scope ++ diesOf st.scope
  | .swage => maskDies (fieldN (stepParams p m st) 0x20 16)
  | .hardy => diesOf st.scope
  | .crucible => dedupNat ((namedEngines p m st).map (fun e => columnKey (e / 8)))
  | .tongs => columnsOf st.scope
  | .refresh =>
    let b := stepParams p m st
    if byteAt b 0 = 7 then [devKey]
    else if byteAt b 1 = 0xFF then (List.range 16).map columnKey else [columnKey (byteAt b 1)]

/-! ### The offset of a job -/

/-- Offset of strike n when the accumulated hold is h (R113). -/
def offsetAt (j : Job) (n h : Nat) : Nat := (n - h) - (j.startStrike - j.holdAtStart)

/-- Offset the job has reached now: the offset that runs, or the first not yet run during a hold. -/
def offsetNow (s : State) (j : Job) : Nat := offsetAt j (now s) s.seq.hold

def mkAct (s : State) (ref : ActRef) (keys : List Nat) (budget : Nat) (rep : Bool) : Activity :=
  { ref := ref, uids := (keys.filter (fun k => !isOffline s k)).map (fullUid s), start := now s, last := now s + budget - 1,
    replay := rep, result := none }

/-- Activities of the plan that start at offset k on this member: steps in order, then stream repeats. (DEDUCED, unsafe: log entry 42.) -/
def startsAt (s : State) (j : Job) (k : Nat) (rep : Bool) : List Activity :=
  let steps := (planSteps j.plan).filter (fun st => st.offset == k)
  let streams := (streamNames j.plan j.pos).filterMap (fun r =>
    let h := streamHdr j.plan j.pos r
    (repeatAt h k).map (fun i => mkAct s (.stream r i) ((streamStacks h).map columnKey) (strBudget h) rep))
  steps.map (fun st => mkAct s (.step st.index) (guardKeys j.plan j.pos st) st.budget rep) ++ streams

/-- Strike of the next start of an activity that unit k guards, none when the plan has no more. -/
def nextStart (s : State) (j : Job) (k : Nat) : Option Nat :=
  let off := offsetNow s j
  let steps := ((planSteps j.plan).filter (fun st => decide (off < st.offset) && (guardKeys j.plan j.pos st).contains k)).map (·.offset)
  let streams := (streamNames j.plan j.pos).flatMap (fun r =>
    let h := streamHdr j.plan j.pos r
    if ((streamStacks h).map columnKey).contains k then
      ((List.range (strRepeat h)).map (strStart h)).filter (fun o => decide (off < o))
    else [])
  let welds := if k = devKey then ((weldSlots j.plan j.pos).filter (fun w => decide (off < w.first))).map (·.first) else []
  (minNat? (steps ++ streams ++ welds)).map (fun o => now s + (o - off))

/-- The deadline in a unit's UCP.WD1 while a plan runs (R124): the earliest last strike among the activities it guards (the device guards
those of the slot map, which end with the frame of their last offset), else the start of its next one; the page's own value outside a plan. (DEDUCED, safe: log entry 15.) -/
def wd1Of (s : State) (k : Nat) : Word :=
  match runningJob s with
  | none => (unitGet s k).page.wd1
  | some j =>
    let mine := (j.acts.filter (fun a => a.uids.contains (fullUid s k) && a.result.isNone)).map (·.last)
    let off := offsetNow s j
    let welds := if k = devKey then ((weldSlots j.plan j.pos).filter (fun w => decide (w.first ≤ off ∧ off + 1 < w.first + w.count))).map
      (fun w => now s + (w.first + w.count - 1 - off)) else []
    match (minNat? (mine ++ welds)).or (nextStart s j k) with
    | some n => BitVec.ofNat 64 n
    | none => neverWord

/-- Set the running job. -/
def setJob (s : State) (num : Word) (f : Job → Job) : State := modJobs s (fun j => j.num == num) f

/-- The activity of a reference in the running job. -/
def actOf (j : Job) (r : ActRef) : Option Activity := j.acts.find? (fun a => a.ref == r)

def ActResult.ok : ActResult :=
  { status := 0, elems := 0, saturated := 0, nans := 0, special := 0, words := [0, 0, 0], used := 1, writes := [], flows := [], block := 0 }

/-- An engine of an activity stands on a stopped die (R422). The controllers keep refreshing. -/
def actStopped (s : State) (a : Activity) : Bool :=
  s.therm.stopped.any id && a.uids.any (fun u =>
    let k := uidKey u
    match keyLevel k with
    | 0 => s.therm.stopped.getD (keyDie k) false
    | 1 => s.therm.stopped.getD (keyDie k) false
    | 2 => s.therm.stopped.getD (80 + keyStack k) false
    | _ => false)

/-- A step that this command may serve: the running job has it in progress with this kind and opcode and no result. -/
def servedStep (s : State) (i kind op : Nat) : Option (Job × PlanStep) :=
  match runningJob s with
  | none => none
  | some j =>
    let st := stepAt j.plan i
    match actOf j (.step i) with
    | some a => if a.result.isNone && (kind == 2 || !actStopped s a) && st.kind == kind && (kind != 0 || st.opcode == op) then some (j, st) else none
    | none => none

/-! ### Where activities begin -/

/-- Low 32 bits of the plan step, in the STEP field of an engine's status. (DEDUCED, unsafe: log entry 48.) -/
def stepLow (s : State) : BitVec 32 := BitVec.ofNat 32 (planStep s).toNat

def engStep (m : Sparse Engine) (ks : List Nat) (v : BitVec 32) : Sparse Engine :=
  ks.foldl (fun m k => sparseSet Engine.reset k { sparseGet Engine.reset k m with step := v } m) m

/-- The Hardy units of an activity show its plan step (R183). -/
def hardyStep (s : State) (ks : List Nat) (v : BitVec 32) : State :=
  let put (m : Sparse HardyUnit) (k : Nat) : Sparse HardyUnit :=
    let u := sparseGet HardyUnit.reset (keyDie k) m
    sparseSet HardyUnit.reset (keyDie k) { u with step := v } m
  { s with eng := { s.eng with hardy := (ks.filter (fun k => keyLevel k == 1)).foldl put s.eng.hardy } }

/-- The STEP fields of the engines an activity starts on (R105, R183, R244, R266, R287). -/
def noteStart (s : State) (j : Job) (a : Activity) : State :=
  let v := stepLow s
  let keys := a.uids.map uidKey
  match a.ref with
  | .stream _ _ => { s with eng := { s.eng with bellows := engStep s.eng.bellows (keys.map keyStack) v } }
  | .step i =>
    match classOf (stepAt j.plan i) with
    | .swage => { s with eng := { s.eng with swage := engStep s.eng.swage (keys.map keyDie) v } }
    | .crucible =>
      let ks := (namedEngines j.plan j.pos (stepAt j.plan i)).filter (fun e => keys.contains (columnKey (e / 8)))
      { s with eng := { s.eng with crucible := engStep s.eng.crucible ks v } }
    | .tongs =>
      let put (m : Sparse Tongs) (k : Nat) : Sparse Tongs :=
        sparseSet Tongs.reset (keyStack k) { sparseGet Tongs.reset (keyStack k) m with step := v } m
      { s with eng := { s.eng with tongs := keys.foldl put s.eng.tongs } }
    | .array | .arrayHardy | .hardy => hardyStep s keys v
    | .refresh => s

/-- UCP.WD2 takes the running job's deadline, and UCP.WD3 the earliest of the queued ones (R355), each with the strikes by which holds have
moved it (R48). -/
def deadlineComparators (s : State) : State :=
  let due (j : Job) : Nat := j.deadline + j.moved
  let d : Word := match runningJob s with
    | some j => if j.deadline = 0 then neverWord else BitVec.ofNat 64 (due j)
    | none => neverWord
  let q := ((queuedJobs s).filter (fun j => j.deadline != 0)).map due
  let put (t : State) (k : Nat) (v : Word) : State := if wdGet (unitGet t devKey).page k = v then t else pageMod t devKey (fun p => wdWrite p k v)
  let s1 := if 1 ≤ param s 0x10 then put s 2 d else s
  if 2 ≤ param s 0x10 then put s1 3 (match minNat? q with
    | some x => BitVec.ofNat 64 x
    | none => neverWord)
  else s1

/-! ### The unit control page (R17 to R21) -/

/-- The word a page register reads; reserved offsets read 0 (R5). UCP.WD1 shows the step budget while a plan runs (R124). -/
def ucpRead (s : State) (u : Uid) (off : Nat) : Word :=
  let grp := if keyLevel u.toNat = 5 then groupOf s u else none
  let k := if keyLevel u.toNat = 5 then u.toNat else uidKey u
  let p := (unitGet s k).page
  let dev := (unitGet s devKey).page
  let epochWord (prev act : BitVec 32) : Word := BitVec.ofNat 64 (prev.toNat * 2 ^ 32 + act.toNat)
  match off with
  | 0x00 => idWord s u
  | 0x08 => match grp with
    | some g => capsGroup s g
    | none => capsLocal s k
  | 0x10 => match grp with
    | some g => groupSticky s g
    | none => p.sticky
  | 0x18 => p.notify
  | 0x20 => match grp with
    | some g => epochWord (common ((groupViews s g).map (·.previous))) (groupActive s g)
    | none => epochWord p.previous p.active
  | 0x28 => (if grp.isSome then dev.pendEpoch else p.pendEpoch).setWidth 64
  | 0x30 => if grp.isSome then dev.pendStrike else p.pendStrike
  | 0x38 => stateWord s u
  | 0x40 => p.wd0
  | 0x48 => if grp.isSome then p.wd1 else wd1Of s k
  | 0x50 => p.wd2
  | 0x58 => p.wd3
  | 0x60 => p.wdCtrl.setWidth 64
  | 0x80 => BitVec.ofNat 64 (p.progressHeat.toNat * 2 ^ 32 + p.marker.toNat)
  | 0x90 => s.seq.strike
  | 0x98 => planStep s
  | 0xA0 => holdWord s
  | _ =>
    if 0x100 ≤ off && off < 0x200 && off % 8 == 0 then
      match grp with
      | some g => groupCounter s g ((off - 0x100) / 8)
      | none => sparseGet 0 ((off - 0x100) / 8) p.counters
    else if 0x1000 ≤ off && off < 0x1080 then maskWord (childFenced s u) ((off - 0x1000) / 8)
    else if 0x1080 ≤ off && off < 0x1100 then maskWord (childDown s u) ((off - 0x1080) / 8)
    else 0

/-- n bytes of a page from offset o, read word by word. -/
def ucpBytes (s : State) (u : Uid) (o n : Nat) : List Byte :=
  (List.range n).map (fun i =>
    BitVec.ofNat 8 ((ucpRead s u ((o + i) / 8 * 8)).toNat / 2 ^ (8 * ((o + i) % 8))))

end Sys2Proof.Machine
end

