-- ==== Sys2Proof/Machine/Recovery.lean ====
section
/-!
DEFINITION. Faults and recovery (R366 to R385): partitions, the raise and the hold, the Slag sample, resets and retention,
restores, the replay's schedule, and the end of a job by fault. Also the reset of a unit outside recovery (R9, R25).
-/
namespace Sys2Proof.Machine

/-! ### The end of a job on this member (R354) -/

/-- The largest of two EXHAUSTED codes over the sum of the rest (R160, R432). -/
def combineWord2 (a b : Nat) : Nat :=
  Nat.max (bits a 63 56) (bits b 63 56) * 2 ^ 56 + (a % 2 ^ 56 + b % 2 ^ 56) % 2 ^ 56

/-- Group combination of the three operator words (R160, R354): sums, and the EXHAUSTED code of word 2 by maximum. -/
def combineWords (a b : List Nat) : List Nat :=
  [(a.getD 0 0 + b.getD 0 0) % 2 ^ 64, (a.getD 1 0 + b.getD 1 0) % 2 ^ 64, combineWord2 (a.getD 2 0) (b.getD 2 0)]

/-- What this member reports of a job that ended on it. (DEDUCED, unsafe: log entry 46.) -/
def ownReport (j : Job) : EndReport :=
  { status := j.endStatus, step := j.endStep, record := j.endRecord, block := j.endBlock, records := j.results.map (·.2)
    boundary := match j.stop with
      | some st => st.boundary
      | none => j.endedAt.getD 0 }

/-- Device number that accepted a job. -/
def jobTaker (n : Word) : Nat := n.toNat / 2 ^ 52

/-- The Hardy units with every table cleared. -/
def clearedHardy (h : Sparse HardyUnit) : Sparse HardyUnit :=
  let emptied (u : HardyUnit) : HardyUnit := { u with tables := [] }
  (h.map (fun e => (e.1, emptied e.2))).filter (fun e => e.2 != HardyUnit.reset)

/-- Hardy tables, join tables and stream claims end with the plan (R162). -/
def freePlanState (s : State) (num : Word) : State :=
  { s with eng := { s.eng with hardy := clearedHardy s.eng.hardy, joins := s.eng.joins.filter (fun t => t.job != num) } }

/-- The job ends here with a status: its activities are gone. The members and the taking Warden hear of it in the heat after (R112,
R354). -/
def endJob (s : State) (num : Word) (status : BitVec 16) (stepNo record block : BitVec 32) : State :=
  match s.seq.jobs.find? (fun j => j.num == num && j.phase == .running) with
  | none => s
  | some j =>
    let off := Nat.min (offsetNow s j) (plLength j.plan)
    let j' := { j with phase := .ended, endStatus := status, endStep := stepNo, endRecord := record, endBlock := block,
                       endOffset := off, endedAt := some (now s), acts := [] }
    let j'' := { j' with finished := sparsePut j.pos (heatOf (now s) + 1) j'.finished }
    freePlanState (setJob s num (fun _ => j'')) num

/-- The taking Warden holds a member's end report from the strike it arrives in (R354). -/
def holdReport (j : Job) (member : Nat) (r : EndReport) (at' : Nat) : Job := { j with reports := sparsePut member r j.reports, reportAt := at' }

/-- Queued jobs run in the order of acceptance strike, accepting device, request tag (R112). -/
def jobBefore (a b : Job) : Bool :=
  decide (a.accepted < b.accepted) || (a.accepted == b.accepted &&
    (decide (jobTaker a.num < jobTaker b.num) || (jobTaker a.num == jobTaker b.num && decide (a.tag.toNat < b.tag.toNat))))

/-- The plans ahead of a queued one here, those apart that ended several heats ago, with the heat of the report that each has finished. -/
def aheadHere (s : State) (q : Job) : List (Word × Nat) :=
  (s.seq.jobs.filter (fun a => a.num != q.num && jobBefore a q && (match a.endedAt with
    | some e => decide (heatOf (now s) < heatOf e + 4)
    | none => true))).map (fun a => (a.num, match a.endedAt with
      | some e => if heatOf e < heatOf (now s) then heatOf e + 1 else 0
      | none => 0))

/-- The members of each queued plan hear which plans are ahead of it here (R112). -/
def tellAhead (s : State) : State :=
  (s.seq.jobs.filter (fun q => q.phase == .queued)).foldl (fun t q => sendTo t q.members 3 (.planAhead q.num (aheadHere s q))) s

/-- In the heat after a job ended here, the end report goes to the taking Warden and the members hear that this one has
finished the plan (R112, R354). -/
def sendReports (s : State) : State :=
  (s.seq.jobs.filter (fun j => match j.endedAt with
    | some e => heatOf e + 1 == heatOf (now s)
    | none => false)).foldl (fun t j =>
      let hearers := dedupNat (j.members ++ (s.seq.jobs.filter (fun q => q.phase == .queued)).flatMap (·.members))
      let t1 := sendTo t hearers 3 (.finishedPlan j.num (heatOf (now s)))
      if jobTaker j.num = s.form.device then setJob t1 j.num (fun j => holdReport j j.pos (ownReport j) (now s)) else sendTo t1 [jobTaker j.num] 3 (.jobEnd j.num (ownReport j))) s

/-- A stop decided by a status: the earlier boundary, and among equals the lower step (R127). (DEDUCED, unsafe: log entry 47.) -/
def mergeStop (o : Option Stop) (n : Stop) : Option Stop :=
  match o with
  | none => some n
  | some a =>
    if n.boundary < a.boundary ∨ (n.boundary = a.boundary ∧ n.step.toNat < a.step.toNat) then some n else some a

/-- A plan counts as running for recovery until its stop boundary (R367). -/
def recoverableJob (s : State) : Option Job :=
  match runningJob s with
  | some j => match j.stop with
    | some st => if now s < st.boundary then some j else none
    | none => some j
  | none => none

/-! ### The sample (R371, R372) -/

/-- Base of the Slag region (R372, R345). (DEDUCED, unsafe: log entry 94.) -/
def slagBase (s : State) : Nat :=
  if s.form.farGib = 0 then param s 0x17 - param s 0x1B * 2 ^ 30 - 2 ^ 26 else param s 0x19

def bytesOfWords (ws : List Word) : List Byte := ws.flatMap (fun w => leBytes 8 w.toNat)

/-- Data scratchpad lines sampled in a core (R371). (DEDUCED, unsafe: log entry 94.) -/
def sampleLines (uid : Uid) (d : Nat) : List Nat :=
  let h := (hf0 (uid.setWidth 64) (BitVec.ofNat 64 d) 0x5153).toNat
  let s0 := bits h 31 16
  let stride := if s0 % 2 = 1 then s0 else s0 + 1
  List.range 16 ++ (List.range 48).map (fun j => (h % 2 ^ 15 + j * stride) % 32768)

/-- The 4 KiB sample of a core, its UE_LINES mask, and the state in which it stands in the core's reserved area, window offset 0x23_C000. -/
def coreSample (s : State) (k d : Nat) : State × List Byte × Nat :=
  let lines := sampleLines (fullUid s k) d
  let base := scratchBase + k / 16 * 2 ^ 22
  let x := ((List.range lines.length).zip lines).foldl (fun (acc : State × List Byte × Nat) (i, l) =>
    let r := memRead acc.1 (base + 64 * l) 64
    match r.bad with
    | some _ => (r.st, acc.2.1 ++ List.replicate 64 0xFF, acc.2.2 + 2 ^ i)
    | none => (r.st, acc.2.1 ++ r.bytes, acc.2.2)) (s, [], 0)
  (memWrite x.1 (base + 0x23C000) x.2.1, x.2)

/-- Units of a partition, ascending UID. -/
def partitionUnits (k : Nat) : List Nat := subtree k

/-- Write a partition's Slag sample: snapshots, core samples, then the header (R372). (DEDUCED, unsafe: log entry 94.) -/
def takeSample (s : State) (p : Partition) (job : Word) (holdOff : Nat) : State :=
  let k := uidKey p.uid
  let units := partitionUnits k
  let cores := coresOf k
  let slot := slagBase s + s.quench.samples % 4 * 2 ^ 24
  let coreBase := roundUp (0x1000 + 1024 * units.length) 4096
  let (s1, samples, masks) := cores.foldl (fun (acc : State × List (List Byte) × List (Nat × Nat)) c =>
    let (t, bs, m) := coreSample acc.1 c p.detect
    (t, acc.2.1 ++ [bs], acc.2.2 ++ [(c, m)])) (s, [], [])
  let snap (u : Nat) : List Byte :=
    let uid := fullUid s u
    let ue := ((masks.find? (fun m => m.1 == u)).map (·.2)).getD 0
    ucpBytes s uid 0 0x200 ++ ucpBytes s uid 0x1000 0x100 ++ leBytes 8 ue ++ List.replicate 0xF8 0
  let s2 := ((List.range units.length).zip units).foldl (fun t (i, u) => memWrite t (slot + 0x1000 + 1024 * i) (snap u)) s1
  let s3 := ((List.range samples.length).zip samples).foldl (fun t (i, b) => memWrite t (slot + coreBase + 4096 * i) b) s2
  let hdr := leBytes 4 0x47534849 ++ leBytes 2 0x0100 ++ [BitVec.ofNat 8 p.cause] ++
    [BitVec.ofNat 8 (boolNat p.retainMemory + 2 * boolNat p.retainFabric)] ++ leBytes 8 s.quench.samples ++
    leBytes 4 p.uid.toNat ++ leBytes 4 units.length ++ leBytes 4 cores.length ++ leBytes 4 coreBase ++ leBytes 8 p.detect ++
    leBytes 8 p.raised ++ leBytes 8 job.toNat ++ leBytes 8 holdOff ++ leBytes 8 p.origin
  let hdr' := slice hdr 0 0xFFC
  let s4 := memWrite s3 slot (hdr' ++ leBytes 4 (crc32c hdr').toNat)
  count { s4 with quench := { s4.quench with samples := s4.quench.samples + 1 } } devKey 31 1

/-! ### Resets (R25, R298, R374) -/

/-- Clear a range of memory: its valid bits clear, so it reads as zeros with a clean code. -/
def clearRange (s : State) (lo n : Nat) : State :=
  { s with mem := { s.mem with
      cells := cellsClear lo n s.mem.cells
      synd := s.mem.synd.filter (fun e => decide (e.1 * 8 < lo ∨ lo + n ≤ e.1 * 8))
      injected := s.mem.injected.filter (fun w => decide (w < lo ∨ lo + n ≤ w)) } }

/-- The Warden records a range that was cleared (R298). -/
def noteCleared (s : State) (lo len : Nat) (stack : Option Nat) : State :=
  { s with mem := { s.mem with cleared := s.mem.cleared.filter (fun c => !(c.lo == lo && c.len == len && c.stack == stack)) ++
      [{ lo := lo, len := len, stack := stack, strike := now s }] } }

/-- Clear the SRAM of a core: scratchpad and side window (R298, R374). -/
def clearCore (s : State) (k : Nat) : State :=
  let lo := scratchBase + k / 16 * 2 ^ 22
  let t := clearRange s lo 0x240000
  noteCleared { t with mem := mergePut t.mem k [] } lo 0x240000 none

/-- Lines of stack st cleared: every near-tier address that the interleave maps to it. -/
def clearStack (s : State) (st : Nat) : State :=
  let il := param s 1
  let mine (a : Nat) : Bool := decide (a < 2 ^ 40) && nearStack il a == st
  let t := { s with mem := { s.mem with
      cells := s.mem.cells.filter (fun c => !mine c.1)
      synd := s.mem.synd.filter (fun e => !mine (e.1 * 8))
      injected := s.mem.injected.filter (fun w => !mine w) } }
  if il = 0 then noteCleared t 0 (2 ^ 40) (some st) else noteCleared t (st * 2 ^ 36) (2 ^ 36) none

def clearFar (s : State) : State :=
  noteCleared (clearRange s farBase (s.form.farGib * 2 ^ 30)) farBase (s.form.farGib * 2 ^ 30) none

/-- Pending repairs of a controller are made (R305). -/
def makeRepairs (s : State) (c : Nat) : State :=
  checkerMod s c (fun k =>
    let done := k.pendingRows.filter Config.rowHasSpare
    { k with pendingRows := k.pendingRows.filter (fun r => !Config.rowHasSpare r),
             repaired := if k.repaired.toNat + done.length < 2 ^ 16 then k.repaired + BitVec.ofNat 16 done.length else 0xFFFF })

/-- A range of the near tier holds bytes of one of the stacks. -/
def touchesStack (interleave : Nat) (cols : List Nat) (r : Nat × Nat) : Bool :=
  let unit := if interleave = 0 then 2 ^ 12 else 2 ^ 36
  let lo := r.1 / unit
  decide (0 < r.2) && cols.any (fun st => decide (lo + (st + 16 - lo % 16) % 16 ≤ (r.1 + r.2 - 1) / unit))

/-- A version has slots in memory that was lost: near-tier slots of the stacks `cols`, and far-tier slots where the far tier was. -/
def slotsLost (s : State) (cols : List Nat) (far : Bool) (t : EmbTable) (v : TableVersion) : Bool :=
  (versionRanges s t v ++ movedRanges s t v).any (fun r => if r.1 < 2 ^ 40 then touchesStack (param s 1) cols r else far)

/-- Versions that lost slots are DAMAGED here, and the other members of their groups are told (R225). (DEDUCED, unsafe: log entry 61.) -/
def damageVersions (s : State) (cols : List Nat) (far : Bool) : State :=
  let lost := s.eng.tables.flatMap (fun t => (t.versions.filter (slotsLost s cols far t)).map (fun v => (t, v)))
  let s1 := { s with eng := { s.eng with tables := s.eng.tables.map (fun t => { t with versions := t.versions.map (fun v =>
      if slotsLost s cols far t v then { v with damaged := true } else v) }) } }
  lost.foldl (fun u x => sendTo u (groupMembers u x.1.group) 5 (.damaged x.1.id x.2.number)) s1

/-- The memory a reset of a unit clears (R374): SRAM always; stacks and the far tier without RETAIN_MEMORY. -/
def clearDomain (s : State) (k : Nat) (retainMemory : Bool) : State :=
  let s1 := forKeys s (coresOf k) clearCore
  let dies := if keyLevel k = 0 then [] else (diesOf k).map keyDie
  let s2 := { s1 with eng := { s1.eng with
      hardy := s1.eng.hardy.filter (fun e => !dies.contains e.1)
      swage := s1.eng.swage.filter (fun e => !dies.contains e.1) } }
  let cols := if keyLevel k ≤ 1 then [] else (columnsOf k).map keyStack
  let s3 := { s2 with eng := { s2.eng with
      bellows := s2.eng.bellows.filter (fun e => !cols.contains e.1)
      crucible := s2.eng.crucible.filter (fun e => !cols.contains (e.1 / 8))
      tongs := s2.eng.tongs.filter (fun e => !cols.contains e.1)
      cache := s2.eng.cache.filter (fun e => !cols.contains (e.1 % 16))
      rings := s2.eng.rings.filter (fun e => !(decide (4608 ≤ e.1 ∧ e.1 < 6656) && cols.contains ((e.1 - 4608) / 128)) &&
        !(decide (7680 ≤ e.1 ∧ e.1 < 7936) && cols.contains ((e.1 - 7680) / 16))) } }
  let s4 := if retainMemory then s3 else cols.foldl (fun t st => makeRepairs (clearStack t st) st) s3
  let s5 := if keyLevel k = 4 && !retainMemory then (List.range 16).foldl (fun t m => makeRepairs t (16 + m)) (clearFar s4) else s4
  if retainMemory || cols.isEmpty then s5 else damageVersions s5 cols (keyLevel k == 4)

/-- A unit's page returns to its reset values, the configuration loaded; its flags stay (R25, R9). (DEDUCED, unsafe: log entry 83.) -/
def resetPage (s : State) (k : Nat) : State :=
  let old := (unitGet s k).page
  let d := (pageDefault k).page
  let s1 := pageMod s k (fun _ => { d with active := old.active, previous := old.previous,
                                           wdCtrl := d.wdCtrl })
  loadUnitCfg s1 k

/-- What a device reset does to the device's own members (R15, R46, R313, R374, R415): without RETAIN_FABRIC the hubs lose their routing banks
as well. ARRAY_RATE changes at commits alone (R424), and a stopped die stays stopped until a sample lets it restart (R422). (DEDUCED, unsafe: log entry 83.) -/
def resetDeviceMembers (s : State) (retainFabric : Bool) : State :=
  let s1 := { s with mgmt := { s.mgmt with subscribers := 0, consoles := 0, spdmVersion := false, spdmCaps := false, spdmAlgs := false },
                     links := { s.links with spur := s.links.spur.map (fun p => { SpurPort.reset with mode := p.mode }) }
                     therm := { s.therm with pendingRate := 0, coolFrom := 0 } }
  if retainFabric then s1
  else
    let s2 := closeBypasses s1
    let s3 := { s2 with links := { s2.links with bankA := [], bankB := [], bank := false, bankEpoch := 0, ports := (List.range 8).map (fun p =>
      { WeldPort.reset (decide (6 ≤ p)) with bypassClosed := decide (p < 6) }) } }
    tbMod s3 (fun t => { Timebase.reset with refLocked := t.refLocked, ppsQualified := t.ppsQualified })

/-- STATE of the controllers of a unit's stacks, and for a device of the far tier, as its reset begins: self-refresh with RETAIN_MEMORY; without
it a device's memories train again (R374). -/
def resetMemories (s : State) (k : Nat) (retainMemory : Bool) : State :=
  let cs := if keyLevel k ≤ 1 then [] else (columnsOf k).map keyStack ++ (if keyLevel k = 4 then (List.range 16).map (16 + ·) else [])
  let next : CheckerState := if retainMemory then .selfRefresh else if keyLevel k = 4 then .training else .ready
  forKeys s cs (fun t c => checkerMod t c (fun x => if x.state = .ready then { x with state := next } else x))

/-- As the reset ends, memory in self-refresh and memory that trained again is ready. -/
def readyMemories (s : State) (k : Nat) : State :=
  let cs := if keyLevel k ≤ 1 then [] else (columnsOf k).map keyStack ++ (if keyLevel k = 4 then (List.range 16).map (16 + ·) else [])
  forKeys s cs (fun t c => checkerMod t c (fun x =>
    if x.state = .selfRefresh ∨ (x.state = .training ∧ s.form.trained = true) then { x with state := .ready } else x))

/-- The reset of a unit's domain begins: merge buffers flush first (R299), memory clears, pages return to reset. -/
def beginReset (s : State) (k : Nat) (retainMemory retainFabric : Bool) : State :=
  let s0 := forKeys s (coresOf k) mergeFlushBank
  let s1 := resetMemories (clearDomain s0 k retainMemory) k retainMemory
  let s2 := forKeys s1 ((s1.units.pages.map (·.1)).filter (covers k)) resetPage
  if keyLevel k = 4 then resetDeviceMembers s2 retainFabric else s2

/-- The bytes of the Slag slot last written. -/
def sampleCells (s : State) : List Host.Cell :=
  let slot := slagBase s + (s.quench.samples - 1) % 4 * 2 ^ 24
  s.mem.cells.filter (fun c => decide (slot ≤ c.1 ∧ c.1 < slot + 2 ^ 24))

/-- A partition that is never reset: of cause STRIKE_SLIP or FENCED, unless it took the place of a child that faulted twice (R367, R374, R380). (DEDUCED, unsafe: log entry 92.) -/
def unreset (p : Partition) : Bool := (p.cause == 4 || p.cause == 10) && !p.repeated

/-- The partition's reset begins with its sample: own state RECOVERING from this strike (R367, R370, R371). -/
def startRecovery (s : State) (p : Partition) (job : Word) (holdOff : Nat) : State :=
  let k := uidKey p.uid
  if unreset p || uidDevice p.uid != s.form.device then s
  else
    let s0 := forKeys s (coresOf k) mergeFlushBank
    let s1 := takeSample s0 p job holdOff
    let s2 := beginReset s1 k p.retainMemory p.retainFabric
    let s3 := flagsMod s2 k (fun f => { f with recovering := true })
    if keyLevel k = 4 && !p.retainMemory then
      { s3 with quench := { s3.quench with kept := s3.quench.kept ++ (sampleCells s1).map (fun c => (c.1, [c.2])) } }
    else s3

/-! ### Raising (R366 to R370) -/

def holdLead (s : State) : Nat := ((runningJob s).map (·.holdLead)).getD 0

/-- Replay origin of a fault (R376): the checkpoint that the latest heat boundary at or before d committed; for HANG, the one at or before the
unit's last progress. -/
def originOf (s : State) (j : Job) (cause k : Nat) : Nat :=
  if cause = 2 then
    let b := (unitGet s k).page.progressHeat.toNat * 4096
    ((j.commits.find? (fun c => decide (c.1 ≤ b))).map (·.2)).getD 0
  else j.committed

/-- Retention selections of a unit: a local one's page holds them, a remote device's STATE shows them (R24, R374); of other remote units they are
not known here and taken as set. -/
def retentionOf (s : State) (u : Uid) : Bool × Bool :=
  if uidDevice u = s.form.device then
    let p := (unitGet s (uidKey u)).page
    (p.retainMemory, p.retainFabric)
  else match reflectedGet s (uidDevice u) with
    | some r => if uidKey u = devKey then (r.state.getLsbD 0, r.state.getLsbD 1) else (true, true)
    | none => (true, true)

/-- Status of a job that a fault of this cause ends, where the cause decides (R383). -/
def causeStatus (cause : Nat) : BitVec 16 :=
  if cause = 16 ∨ cause = 2 then 0x0305 else if cause = 1 then 0x0400 else if cause = 0xFF then 0x0600 else 0x0601

/-- Partition a contains partition b. (DEDUCED, unsafe: log entry 92.) -/
def partitionCovers (a b : Uid) : Bool := uidDevice a == uidDevice b && covers (uidKey a) (uidKey b)

/-- Of two statuses that rows 4 and 5 of R383's table give, the one of the earlier row: UNIT_FENCED, by a late notice or a missed bound. -/
def mergeEnding (a b : Option (BitVec 16)) : Option (BitVec 16) :=
  if a = some 0x0601 ∨ b = some 0x0601 then some 0x0601 else a.or b

/-- A partition takes the place of those of the hold that lie inside it: their requests and the earliest origin become its own (R367, R376). (DEDUCED, unsafe: log entry 92.) -/
def takePlace (h : Hold) (p : Partition) : Hold × Option Partition :=
  let inside := h.partitions.filter (fun x => partitionCovers p.uid x.uid)
  let q : Partition := { p with requesters := inside.flatMap (·.requesters) ++ p.requesters
                                origin := (minNat? (p.origin :: inside.map (·.origin))).getD 0 }
  ({ h with partitions := h.partitions.filter (fun x => !partitionCovers p.uid x.uid) ++ [q], replayFrom := none }, some q)

/-- Add a partition to a hold, with the partition that is new in it: one that contains others replaces them, one contained or equal counts once
(R367). A fault of a unit already restored in this hold is a second fault: the parent takes its place, with its own selections, and a device
ends the job (R380). (DEDUCED, unsafe: log entry 92.) -/
def joinPartition (s : State) (h : Hold) (p : Partition) : Hold × Option Partition :=
  match h.partitions.find? (fun q => partitionCovers q.uid p.uid) with
  | none => takePlace h p
  | some q =>
    if q.restored.isNone then
      ({ h with partitions := h.partitions.map (fun x => if x.uid == q.uid then { x with requesters := x.requesters ++ p.requesters } else x) }, none)
    else match parentKey (uidKey q.uid) with
      | some pk =>
        let u : Uid := BitVec.ofNat 32 (pk + uidDevice q.uid * 2 ^ 16)
        let sel := retentionOf s u
        takePlace h { p with uid := u, repeated := true, retainMemory := sel.1, retainFabric := sel.2 }
      | none =>
        let r := takePlace h { p with uid := q.uid }
        ({ r.1 with ending := mergeEnding h.ending (some (causeStatus p.cause)) }, r.2)

/-- Activities that units of the partition guard stop, their results discarded (R370). (DEDUCED, unsafe: log entry 92.) -/
def dropActs (s : State) (j : Job) (u : Uid) : State :=
  if uidDevice u ≠ s.form.device then s
  else setJob s j.num (fun j => { j with acts := j.acts.filter (fun a => !(a.uids.any (fun x => covers (uidKey u) (uidKey x)))) })

def quenchMod (s : State) (f : Quench → Quench) : State := { s with quench := f s.quench }

/-- The activity that the unit guards when a fault is detected: the one past its last strike, if any. -/
def guiltyAct (s : State) (k : Nat) : Option ActRef :=
  (runningJob s).bind (fun j =>
    let mine := j.acts.filter (fun a => a.result.isNone && a.uids.contains (fullUid s k))
    ((mine.find? (fun a => decide (a.last ≤ now s))).or mine.head?).map (·.ref))

/-- The step whose activity raised a fault, for the completion's STEP (R383). -/
def faultStep (p : Partition) : BitVec 32 :=
  match p.act with
  | some (.step i) => BitVec.ofNat 32 i
  | _ => 0xFFFFFFFF

/-- QUENCH.LAST and LAST_DETECT name the latest partition (R384). -/
def noteLast (s : State) (p : Option Partition) : State :=
  match p with
  | none => s
  | some p => quenchMod s (fun q => { q with lastUid := p.uid, lastCause := BitVec.ofNat 8 p.cause, lastDetect := BitVec.ofNat 64 p.detect,
                                             lastOutcome := 0 })

/-- A fault notice joins a hold (R367); a replay that has begun stops at the end of the strike and starts again from the prologue (R380). With
it comes the partition that is new in the hold. -/
def joinHold (s : State) (h : Hold) (p : Partition) (status : Option (BitVec 16)) : State × Option Partition :=
  let r := joinPartition s h p
  let h2 := { r.1 with replayFrom := none, prologueLeft := 0, ending := mergeEnding r.1.ending status }
  let s1 := quenchMod s (fun q => { q with hold := some h2, phase := if h.holding then .reset else .lead })
  (if s.seq.kind == .replay || s.seq.nextKind == .replay then { s1 with seq := { s1.seq with nextKind := .hold } } else s1, r.2)

/-- A fault outside any plan of a unit of this device: its partition recovers alone, unless one that contains it does (R367). -/
def detectOutside (s : State) (p : Partition) : State :=
  if uidDevice p.uid ≠ s.form.device then s
  else match s.quench.outside.find? (fun q => partitionCovers q.uid p.uid && q.restored.isNone) with
    | some q => quenchMod s (fun x => { x with outside := x.outside.map (fun y =>
        if y.uid == q.uid then { y with requesters := y.requesters ++ p.requesters } else y) })
    | none =>
      let inside := s.quench.outside.filter (fun x => partitionCovers p.uid x.uid)
      let p' : Partition := { p with requesters := inside.flatMap (·.requesters) ++ p.requesters }
      noteLast (quenchMod s (fun q => { q with outside := q.outside.filter (fun x => !partitionCovers p.uid x.uid) ++ [p'] })) (some p')

/-- A fault of unit u is detected in the current strike (R366 to R369). -/
def detectFault (s : State) (cause : Nat) (u : Uid) (retain : Option (Bool × Bool))
    (requesters : List (BitVec 12 × Nat × BitVec 16 × Nat)) : State :=
  let k := uidKey u
  let d := now s
  let sel := retain.getD (retentionOf s u)
  let mk (r c : Nat) (act : Option ActRef) : Partition :=
    { uid := u, cause := cause, detect := d, raised := r, origin := c, restored := none,
      missedBound := false, retainMemory := sel.1, retainFabric := sel.2, requesters := requesters, repeated := false, begun := false, act := act }
  match recoverableJob s with
  | none => detectOutside s (mk d 0 none)
  | some j =>
    let p := mk (d + j.holdLead) (originOf s j cause k) (guiltyAct s k)
    let s1 := sendTo (dropActs s j u) j.members 1 (.holdNotice j.num d (d + j.holdLead) u cause p.origin)
    match s.quench.hold with
    | some h =>
      let repeatOver := cause = 16 ∧ s.seq.kind = .replay ∧ h.first.cause = 16 ∧ h.first.act = p.act ∧ p.act.isSome
      let r := joinHold s1 h p (if repeatOver then some 0x0305 else none)
      noteLast r.1 r.2
    | none =>
      let h : Hold := { job := j.num, first := p, raise := d + j.holdLead, partitions := [p], holding := false, holdOffset := 0,
                        replayFrom := none, prologueLeft := 0, sweepNext := 0, ending := none }
      noteLast (quenchMod s1 (fun q => { q with hold := some h, phase := .lead })) (some p)

/-- The unit whose reset discards a word, and whose memory it is: SRAM of its domain, or tier memory without RETAIN_MEMORY (R308, R374). -/
def discards (s : State) (u a : Nat) : Bool :=
  match placeOf s a with
  | .scratch k => covers u k
  | .near st => decide (2 ≤ keyLevel u) && covers u (columnKey st) && !(unitGet s u).page.retainMemory
  | .far _ => u == devKey && !(unitGet s u).page.retainMemory
  | _ => false

/-- Forget the failing word of earlier accesses. -/
def clearBad (s : State) : State := { s with mem := { s.mem with badWord := none, badUnit := none } }

/-- R366: which faults are real in the state: HANG needs two misses of a unit none of whose descendants has two (R126),
FENCED and STRIKE_SLIP a fenced unit, BUDGET_OVERRUN a step-budget comparator that fired or an activity past its last strike (R124). A UE is one
where the word read last lies in memory that the unit's reset discards; any other ends the step with UE_DATA (R308). -/
def faultHolds (s : State) (cause k : Nat) (recoverable : Bool) : Bool :=
  match cause with
  | 1 => recoverable && (s.mem.badUnit == some k || s.mem.badWord.any (fun a => discards s k a))
  | 2 => decide (2 ≤ (unitGet s k).flags.misses) &&
      !s.units.pages.any (fun e => e.1 != k && covers k e.1 && decide (2 ≤ e.2.flags.misses))
  | 4 => s.tb.lock == .slipped && k == devKey
  | 10 => (unitGet s k).flags.fenced
  | 16 => wdFired (unitGet s k).page 1 || (match runningJob s with
      | some j => j.acts.any (fun a => a.uids.contains (fullUid s k) && a.result.isNone && decide (a.last ≤ now s))
      | none => false)
  | _ => false

/-- R366, R126, R124: the sticky bit of the cause, then the raise. (DEDUCED, unsafe: log entry 67.) -/
def execFaultDetect (cause : Nat) (uid : Uid) (recoverable : Bool) (s : State) : Host.Outcome State Fault Refusal :=
  let k := uidKey uid
  .next (if uidDevice uid == s.form.device && faultHolds s cause k recoverable then
    let s1 := if cause = 16 ∨ cause = 2 then stickySet s k cause else if cause = 1 then clearBad s else s
    detectFault s1 cause uid none []
  else s)

/-- R366: two whole heats without control traffic from a member of the running plan; it is never restored in the hold and
misses its bound at r + 1 (R375). (DESIGN CHOICE, safe: log entry 2.) -/
def execMemberLost (device : Nat) (s : State) : Host.Outcome State Fault Refusal :=
  .next (match runningJob s with
    | none => s
    | some j =>
      if j.members.contains device && device != s.form.device &&
          sparseGet 0 device s.links.lastTraffic + 3 ≤ heatOf (now s + 1) then
        detectFault { s with form := { s.form with devState := sparseSet 0 device 0 s.form.devState } } 3 (deviceUid device) none []
      else s)

/-- A notice joins or begins the hold, which the earliest fault leads; one that arrives after its own r makes the job end with UNIT_FENCED (R369). -/
def hearHold (s : State) (job : Word) (d r : Nat) (uid : Uid) (cause origin : Nat) : State :=
  match recoverableJob s with
    | none => s
    | some j =>
      if j.num != job then s
      else
        let sel := retentionOf s uid
        let p : Partition := { uid := uid, cause := cause, detect := d, raised := r, origin := origin, restored := none,
                               missedBound := false, retainMemory := sel.1, retainFabric := sel.2, requesters := [],
                               repeated := false, begun := true, act := none }
        let late := decide (r < now s)
        let status : Option (BitVec 16) := if late then some 0x0601 else none
        match s.quench.hold with
        | some h =>
          let h1 := { h with first := if d < h.first.detect then p else h.first
                             raise := if h.holding || late then h.raise else Nat.min h.raise r }
          (joinHold s h1 p status).1
        | none =>
          let h : Hold := { job := job, first := p, raise := if late then now s else r, partitions := [p], holding := false, holdOffset := 0,
                            replayFrom := none, prologueLeft := 0, sweepNext := 0, ending := status }
          quenchMod s (fun q => { q with hold := some h, phase := .lead })

/-- R369. -/
def execHoldNoticeReceive (job : Word) (d r : Nat) (uid : Uid) (cause origin : Nat) (s : State) : Host.Outcome State Fault Refusal :=
  .next (hearHold s job d r uid cause origin)

/-- R369: at the end of r the next strikes are hold strikes; k_h is the offset of r + 1 (R376). -/
def execHoldRaise (s : State) : Host.Outcome State Fault Refusal :=
  .next (match s.quench.hold, recoverableJob s with
    | some h, some j =>
      if !h.holding && h.raise ≤ now s then
        let kh := offsetAt j (now s + 1) s.seq.hold
        let s1 := quenchMod s (fun q => { q with hold := some { h with holding := true, holdOffset := kh }, phase := .reset })
        { s1 with seq := { s1.seq with nextKind := .hold } }
      else s
    | _, _ => s)

/-- Partitions whose reset is due this strike begin: outside a plan in the strike after detection, in a hold at r + 1 of the fault's own notice
(R370). -/
def beginDueResets (s : State) : State :=
  let due := s.quench.outside.filter (fun p => !p.begun && decide (p.detect < now s))
  let s1 := due.foldl (fun t p => startRecovery t p 0 0) s
  let s2 := quenchMod s1 (fun q => { q with outside := q.outside.map (fun p => if decide (p.detect < now s) then { p with begun := true } else p) })
  match s2.quench.hold with
  | none => s2
  | some h =>
    if h.holding && s2.seq.kind != .run then
      let isDue (p : Partition) : Bool := !p.begun && decide (p.raised < now s)
      let s3 := (h.partitions.filter isDue).foldl (fun t p => startRecovery t p h.job h.holdOffset) s2
      quenchMod s3 (fun q => { q with hold := q.hold.map (fun h => { h with partitions := h.partitions.map (fun p =>
        if isDue p then { p with begun := true } else p) }) })
    else s2

/-! ### Restoring (R375) -/

/-- Recovery bound of a partition, in strikes after r (R375). -/
def recoveryBound (p : Partition) : Nat :=
  if p.cause = 3 then 0
  else match keyLevel p.uid.toNat with
    | 0 | 1 => 4000
    | 2 => 12000
    | 3 => 32000
    | _ => if !p.retainMemory then 36000000 else if p.retainFabric then 160000 else 2000000

/-- A FENCED partition is restored when its unit is no longer fenced, a STRIKE_SLIP one when the device has relocked (R374); a partition that
holds a stopped die is not restored before the die restarts (R422). (DEDUCED, unsafe: log entry 92.) -/
def mayRestore (s : State) (p : Partition) : Bool :=
  let k := uidKey p.uid
  if unreset p then (if p.cause = 4 then s.tb.lock == .locked else !(unitGet s k).flags.fenced)
  else p.begun && (List.range 80).all (fun d => !(covers k (dieKey d) && s.therm.stopped.getD d false)) &&
    (List.range 16).all (fun c => !(covers k (columnKey c) && s.therm.stopped.getD (80 + c) false))

/-- A partition of unit k is not restored yet. -/
def openPartition (s : State) (k : Nat) : Bool :=
  let here (p : Partition) : Bool := p.restored.isNone && uidDevice p.uid == s.form.device && uidKey p.uid == k
  s.quench.outside.any here || (match s.quench.hold with
    | some h => h.partitions.any here
    | none => false)

/-- Virian writes the Slag slots that it kept back once the tier that holds the Slag region is ready (R373). -/
def restoreKept (s : State) : State :=
  let cs := if s.form.farGib = 0 then List.range 16 else (List.range 16).map (16 + ·)
  if cs.all (fun c => decide ((checkerGet s c).state = .ready) || isOffline s (columnKey (c % 16))) then
    s.quench.kept.foldl (fun t x => memWrite t x.1 x.2) { s with quench := { s.quench with kept := [] } }
  else s

/-- The reset is released: RECOVERING ends in the unit and in the units whose partitions this one took in; the registers load what the active
record gives them (R9, R42), the hubs of a device their routing banks where the reset lost them (R331); a unit that missed a commit takes FENCED
with its sticky bit (R53). (DEDUCED, unsafe: log entry 92.) -/
def releaseUnit (s : State) (k : Nat) : State :=
  let s1 := readyMemories (flagsMod s k (fun f => { f with recovering := false, resetting := false })) k
  let s2 := ((s1.units.pages.map (·.1)).filter (covers k)).foldl (fun t u =>
    let t1 := loadUnitCfg (flagsMod t u (fun f => { f with recovering := f.recovering && u != k && openPartition s u })) u
    if (unitGet t1 u).flags.missed then fenceUnit t1 u else t1) s1
  if k = devKey then
    let s3 := deadlineComparators (leaseComparator (loadDeviceCfg s2))
    let lost := s3.links.bankA.isEmpty && s3.links.bankB.isEmpty
    settleGroups (restoreKept (if lost then reloadRouting s3 else s3))
  else s2

/-- The flash record of a recovery (R373). -/
def logRecovery (s : State) (p : Partition) (outcome : Nat) : State :=
  logPersistent s (.recovery p.uid p.cause p.detect p.raised outcome)

/-- The VMP_RECOVER requests that wait for a partition complete, with the strikes since each reset request and the strikes of the hold (R379). -/
def answerRequesters (s : State) (p : Partition) (hold : Nat) : State :=
  p.requesters.foldl (fun t r => complete t r.1 r.2.2.1 r.2.1 0x0000 (leBytes 8 (now s - r.2.2.2) ++ leBytes 8 hold)) s

/-- R375: outside a plan the recovery is complete; inside one the restored notice goes to the members (R377). -/
def execPartitionRestore (uid : Uid) (s : State) : Host.Outcome State Fault Refusal :=
  let k := uidKey uid
  .next (if uidDevice uid != s.form.device then s
    else match s.quench.hold.bind (fun h => h.partitions.find? (fun p => p.uid == uid && p.restored.isNone)) with
    | some p =>
      if mayRestore s p then
        let s1 := if unreset p then s else releaseUnit s k
        let s2 := quenchMod s1 (fun q => { q with hold := q.hold.map (fun h => { h with partitions := h.partitions.map (fun x =>
          if x.uid == uid then { x with restored := some (now s) } else x) }) })
        match runningJob s2 with
        | some j => sendTo s2 j.members 1 (.restored j.num uid (now s))
        | none => s2
      else s
    | none =>
      match s.quench.outside.find? (fun p => p.uid == uid && p.restored.isNone) with
      | none => s
      | some p =>
        if mayRestore s p then
          let s1 := if unreset p then s else stickySet (count (releaseUnit s k) k 5 1) k 20
          let s2 := quenchMod s1 (fun q => { q with outside := q.outside.filter (fun x => x.uid != uid), lastOutcome := 3 })
          answerRequesters (logRecovery s2 p 3) p 0
        else s)

/-- R375: the bound counted from the strike after r has passed. -/
def execRecoveryBoundMiss (uid : Uid) (s : State) : Host.Outcome State Fault Refusal :=
  .next (match s.quench.hold with
    | none => s
    | some h =>
      if h.holding && h.partitions.any (fun p => p.uid == uid && p.restored.isNone && p.raised + recoveryBound p < now s) then
        quenchMod s (fun q => { q with hold := some { h with
          partitions := h.partitions.map (fun p => if p.uid == uid then { p with missedBound := true } else p)
          ending := mergeEnding h.ending (some 0x0601) } })
      else s)

/-- A member's partition is restored (R377); that of a lost member never is (R375). -/
def hearRestored (s : State) (job : Word) (uid : Uid) (strike : Nat) : State :=
  match s.quench.hold with
  | none => s
  | some h =>
    if h.job == job then
      quenchMod s (fun q => { q with hold := some { h with partitions := h.partitions.map (fun p =>
        if p.uid == uid && p.restored.isNone && p.cause != 3 then { p with restored := some strike } else p) } })
    else s

/-- R377. -/
def execRestoredNoticeReceive (job : Word) (uid : Uid) (strike : Nat) (s : State) : Host.Outcome State Fault Refusal :=
  .next (hearRestored s job uid strike)

/-- Every partition of the hold is restored; the latest restore strike. -/
def allRestored (h : Hold) : Option Nat :=
  if h.partitions.all (fun p => p.restored.isSome) then some (maxNat (h.partitions.map (fun p => p.restored.getD 0))) else none

/-- R = rho + HOLD_LEAD + 1 (R377). -/
def replayStrike (h : Hold) (lead : Nat) : Option Nat := (allRestored h).map (fun r => r + lead + 1)

/-- Steps of a plan that load, insert into or search Hardy tables. -/
def hardySteps (p : List Byte) : List PlanStep := (planSteps p).filter (fun st => st.kind == 0 && classOf st == .arrayHardy)

/-- The load steps of the Hardy tables that are live at offset c (R186). -/
def liveLoads (p : List Byte) (m c : Nat) : List PlanStep :=
  let mode (st : PlanStep) : Nat := byteAt (stepParams p m st) 0x30
  (hardySteps p).filter (fun l => mode l == 0 && decide (l.offset < c) &&
    (hardySteps p).any (fun u => fieldN (stepParams p m u) 0x3C 4 == l.index && mode u != 0 && decide (c ≤ u.offset + u.budget - 1)))

/-- Steps of the prologue: the loads, inserts and rebalances, before offset c, of every Hardy table live at c on its dies (R186). -/
def prologueSteps (p : List Byte) (m c : Nat) : List PlanStep :=
  let mode (st : PlanStep) : Nat := byteAt (stepParams p m st) 0x30
  let htab (st : PlanStep) : Nat := byteAt (stepParams p m st) 0x31
  let live := liveLoads p m c
  (planSteps p).filter (fun st => decide (st.offset < c) &&
    (live.any (fun l => l.index == st.index) ||
     (st.kind == 0 && classOf st == .arrayHardy && mode st == 1 && live.any (fun l => l.index == fieldN (stepParams p m st) 0x3C 4)) ||
     (st.kind == 1 && live.any (fun l => htab l == byteAt (stepParams p m st) 0 && decide (l.offset < st.offset) &&
       (diesOf l.scope).any ((diesOf st.scope).contains ·)))))

/-- Every Hardy table that is live at the origin is cleared, on every die of the plan (R377). -/
def clearLive (s : State) (loads : List PlanStep) : State :=
  let live (t : HardyTable) : Bool := loads.any (fun l => l.index == t.loadStep)
  let emptied (u : HardyUnit) : HardyUnit := { u with tables := u.tables.filter (fun t => !live t) }
  { s with eng := { s.eng with hardy := (s.eng.hardy.map (fun e => (e.1, emptied e.2))).filter (fun e => e.2 != HardyUnit.reset) } }

/-- The smallest replay origin among the partitions (R376). -/
def holdOrigin (h : Hold) : Nat := (minNat? (h.partitions.map (·.origin))).getD 0

/-- Replay is still possible: no end is decided. -/
def replayable (h : Hold) : Bool := h.ending.isNone

/-- The prologue step whose budget begins when `left` strikes of the prologue remain. -/
def prologueStart : List PlanStep → Nat → Option PlanStep
  | [], _ => none
  | st :: rest, left =>
    if sumNat ((st :: rest).map (·.budget)) = left then some st else prologueStart rest left

/-- Reruns take the place of what is left of their first runs. (DEDUCED, unsafe: log entry 95.) -/
def rerun (j : Job) (new : List Activity) : Job :=
  { j with acts := j.acts.filter (fun a => !new.any (fun b => b.ref == a.ref)) ++ new }

/-- The activities of a rerun begin in this strike, with their engines' STEP fields. -/
def startReruns (s : State) (num : Word) (new : List Activity) : State :=
  let s1 := setJob s num (fun j => rerun j new)
  match runningJob s1 with
  | some j => new.foldl (fun t a => noteStart t j a) s1
  | none => s1

/-- Start the replay work of a replay strike (R377): the prologue, whose first strike clears the live tables, then the sweep. -/
def replayWork (s : State) : State :=
  match s.quench.hold, runningJob s with
  | some h, some j =>
    let pro := prologueSteps j.plan j.pos (holdOrigin h)
    if 0 < h.prologueLeft then
      let s0 := if h.prologueLeft = sumNat (pro.map (·.budget)) then clearLive s (liveLoads j.plan j.pos (holdOrigin h)) else s
      let s1 := match prologueStart pro h.prologueLeft with
        | some st => startReruns s0 j.num [mkAct s (.step st.index) (guardKeys j.plan j.pos st) st.budget true]
        | none => s0
      quenchMod s1 (fun q => { q with hold := some { h with prologueLeft := h.prologueLeft - 1 } })
    else
      quenchMod (startReruns s j.num (startsAt s j h.sweepNext true)) (fun q => { q with hold := some { h with sweepNext := h.sweepNext + 1 }, phase := .sweep })
  | _, _ => s

/-- The offset whose work the strike does: the one the sweep assigns to it in a replay (R377), else the offset that runs. -/
def workOffset (s : State) (j : Job) : Nat :=
  match s.quench.hold with
  | some h => if s.seq.kind == .replay then h.sweepNext - 1 else offsetNow s j
  | none => offsetNow s j

/-- The replay's last strike has run. -/
def replayOver (h : Hold) : Bool := h.replayFrom.isSome && h.prologueLeft == 0 && decide (h.holdOffset ≤ h.sweepNext)

/-- Strikes of a hold: to the current strike, or to the one before where the current one has turned into a run strike. -/
def holdLength (s : State) (h : Hold) : Nat := now s - h.raise - boolNat (s.seq.kind == .run)

def pushHold (s : State) (h : Hold) : State :=
  let uid := ((minNat? (h.partitions.map (fun p => p.uid.toNat))).map (BitVec.ofNat 32)).getD h.first.uid
  let r : HoldRecord := { start := h.raise + 1, strikes := holdLength s h, uid := uid, cause := h.first.cause }
  { s with seq := { s.seq with holds := (r :: s.seq.holds).take 4 } }

/-- Finish a hold: its record, and the strikes it cost each unit of its partitions (R379). -/
def finishHold (s : State) (h : Hold) : State :=
  let s1 := pushHold s h
  h.partitions.foldl (fun t p =>
    if uidDevice p.uid = s.form.device then
      (partitionUnits (uidKey p.uid)).foldl (fun t u => count t u 6 (holdLength s h)) t
    else t) s1

/-- A partition's recovery is complete: RECOVERED, the count, the flash record, and the answers to the VMP_RECOVER that asked for it (R373, R379). -/
def closePartition (s : State) (p : Partition) (outcome hold : Nat) : State :=
  if uidDevice p.uid = s.form.device then
    answerRequesters (logRecovery (stickySet (count s (uidKey p.uid) 5 1) (uidKey p.uid) 20) p outcome) p hold
  else s

/-- The hold's partitions that no reset has given back yet go on as partitions outside a plan (R367). -/
def openParts (s : State) (h : Hold) : List Partition := h.partitions.filter (fun p => p.restored.isNone && uidDevice p.uid == s.form.device)

/-- A plan ends during its hold, or before the raise: the hold ends with it, and its partitions finish outside a plan (R367). (DEDUCED, unsafe: log entry 92.) -/
def abandonHold (s : State) : State :=
  match s.quench.hold with
  | none => s
  | some h =>
    let s1 := { s with seq := { s.seq with kind := .run, nextKind := .run } }
    let s2 := if h.holding then pushHold s1 h else s1
    let s3 := (h.partitions.filter (fun p => p.restored.isSome)).foldl (fun t p => closePartition t p 3 (holdLength s1 h)) s2
    quenchMod s3 (fun q => { q with hold := none, phase := .idle, lastOutcome := 2, outside := q.outside ++ openParts s h })

/-- R379: after the last replay strike the plan resumes at k_h: the next strike is a run strike. -/
def execPlanResume (s : State) : Host.Outcome State Fault Refusal :=
  .next (match s.quench.hold with
    | none => s
    | some h => if replayable h && replayOver h then { s with seq := { s.seq with nextKind := .run } } else s)

/-- The resume strike: each partition returns to RUNNING, sets RECOVERED and counts a recovery, and the VMP_RECOVER that asked complete (R379). -/
def resumeHold (s : State) : State :=
  match s.quench.hold with
  | none => s
  | some h =>
    if h.holding && s.seq.kind == .run && replayable h && replayOver h then
      let s2 := h.partitions.foldl (fun t p => closePartition t p 1 (holdLength s h)) (finishHold s h)
      quenchMod s2 (fun q => { q with hold := none, phase := .idle, lastOutcome := 1 })
    else s

/-! ### Results of activities (R111, R308) -/

/-- The unit that holds a word of memory. -/
def wordUnit (s : State) (a : Nat) : Nat :=
  match placeOf s a with
  | .scratch k => k
  | .near st => columnKey st
  | _ => devKey

/-- The partition of a UE: the lowest unit whose reset domain holds both an engine's unit and the word (R366). -/
def jointUnit (u w : Nat) : Nat := ((selfAndAncestors u).find? (fun a => covers a w)).getD devKey

/-- The unit whose engine read a word: the core whose own memory it is, or the only unit of the activity. Which of several engines read a word
of a tier is free. -/
def readerUnit (s : State) (us : List Nat) (a : Nat) : Nat :=
  let w := wordUnit s a
  if keyLevel w = 0 && us.contains w then w else us.getD (Config.faultReader (now s) a % us.length) devKey

/-- The partition whose recovery regenerates an uncorrectable word that an engine of units `us` read: the lowest unit that holds the engine and the
word, where its reset discards the word (R308, R366). (DEDUCED, unsafe: log entry 67.) -/
def mendUnit (s : State) (us : List Nat) (a : Nat) : Option Nat :=
  let u := jointUnit (readerUnit s us a) (wordUnit s a)
  if discards s u a then some u else none

/-- The partition to recover when an activity ends with the uncorrectable word that it read last: a Hardy die whose entry failed (R172), or the
one that a memory word gives. -/
def readFault (s : State) (j : Job) (r : ActRef) (res : ActResult) : Option Nat :=
  if res.status = 0x0400 then
    s.mem.badUnit.or (s.mem.badWord.bind (mendUnit s (((actOf j r).map (fun x => x.uids.map uidKey)).getD [])))
  else none

/-- Record the result of an activity whose engine has finished in this strike (R111: nothing is visible yet; R128: STRIKES_USED). -/
def recordResult (s : State) (j : Job) (r : ActRef) (res : ActResult) : State :=
  setJob s j.num (fun j => { j with acts := j.acts.map (fun a => if a.ref == r then { a with result := some { res with used := now s + 1 - a.start } } else a) })

/-- An activity has finished, or its uncorrectable read is a fault that the recovery mends (R308). (DESIGN CHOICE, unsafe: log entry 98.) -/
def setResult (s : State) (j : Job) (r : ActRef) (res : ActResult) : State :=
  match readFault s j r res with
  | some u => detectFault (clearBad s) 1 (fullUid s u) none []
  | none => recordResult s j r res

/-! ### Resets outside recovery (R9, R25) -/

/-- A reset of a local unit with its configured retention. -/
def resetLocal (s : State) (uid : Uid) : State :=
  let k := uidKey uid
  if keyLevel uid.toNat ≤ 4 && uidDevice uid == s.form.device && uidShape uid.toNat && !isOffline s k then
    let p := (unitGet s k).page
    flagsMod (beginReset s k p.retainMemory p.retainFabric) k (fun f => { f with resetting := true })
  else s

/-- A group's own reset is in progress (R18). -/
def groupResetting (s : State) (g : GroupDef) : State := flagsMod s (5 * 2 ^ 28 + g.group * 2 ^ 16) (fun f => { f with resetting := true })

/-- A group's reset domain is its members' (R10, R15): this device resets, and the other members hear of it. -/
def resetGroup (s : State) (g : GroupDef) : State :=
  sendTo (groupResetting (resetLocal s (deviceUid s.form.device)) g) g.members 3 (.groupReset g.group)

/-- A 1 written to RESET_REQ by the Warden starts a reset of the unit with its configured retention; a group is reset in every member. -/
def resetReq (s : State) (uid : Uid) : State :=
  if keyLevel uid.toNat = 5 then
    match groupOf s uid with
    | some g => resetGroup s g
    | none => s
  else resetLocal s uid

/-- R25. -/
def execUcpResetReq (uid : Uid) (s : State) : Host.Outcome State Fault Refusal := .next (resetReq s uid)

/-- R9: the reset domain is released with reset and configuration values loaded. -/
def execResetRelease (uid : Uid) (s : State) : Host.Outcome State Fault Refusal :=
  let k := uidKey uid
  .next (if uidDevice uid == s.form.device && (unitGet s k).flags.resetting then releaseUnit s k else s)

end Sys2Proof.Machine
end

