-- ==== Sys2Proof/Machine/Weld.lean ====
section
/-!
DEFINITION. Weld frames and lanes (R311 to R333): the frame's bytes, what a port sends at a strike edge, the receive checks,
landing and forwarding, re-sending, and the training of lanes.
-/
namespace Sys2Proof

/-- Bytes of a control message's body (R323): the spec gives no layout of the bodies. Notes: assumption 9. -/
opaque Config.ctlBytes : CtlBody → List (BitVec 8)

/-- Bytes of the identity fields of a TRAIN payload (R326), whose layout the spec leaves open, by port, device number and coordinate where
assigned, certificate chain, signature, and the SVN_FLOOR of a device in recovery boot (R392). Notes: assumption 9. (DESIGN CHOICE, safe: log entry 9.) -/
opaque Config.trainIdentity : Nat → Option (Nat × Nat × Nat × Nat) → List (BitVec 8) → List (BitVec 8) → Option (BitVec 32) → List (BitVec 8)

end Sys2Proof

namespace Sys2Proof.Machine

/-! ### Frame bytes (R316, R317) -/

def frameSync : List Byte := List.replicate 16 0x3C ++ [0xA5, 0x5A, 0xC3, 0x96]

structure FrameHdr where
  version : Nat
  kind : Nat
  lane : Nat
  epoch : Nat
  step : Nat
  offset : Nat
  flow : Nat
  seq : Nat
  ack : Nat
  nak : Nat
  bytes : Nat
  src : Nat
  orig : Nat
deriving DecidableEq, Repr

def hdrBytes (h : FrameHdr) : List Byte :=
  leBytes 2 h.version ++ leBytes 1 h.kind ++ leBytes 1 h.lane ++ leBytes 4 h.epoch ++ leBytes 8 h.step ++ leBytes 6 h.offset ++
    leBytes 2 h.flow ++ leBytes 4 h.seq ++ leBytes 4 h.ack ++ leBytes 4 h.nak ++ leBytes 2 h.bytes ++ leBytes 2 h.src ++
    leBytes 4 h.orig ++ leBytes 4 0

def parseHdr (d : List Byte) : FrameHdr :=
  { version := fieldN d 0 2, kind := byteAt d 2, lane := byteAt d 3 % 8, epoch := fieldN d 4 4, step := fieldN d 8 8,
    offset := fieldN d 0x10 6, flow := fieldN d 0x16 2, seq := fieldN d 0x18 4, ack := fieldN d 0x1C 4, nak := fieldN d 0x20 4,
    bytes := fieldN d 0x24 2, src := fieldN d 0x26 2 % 4096, orig := fieldN d 0x28 4 }

/-- The data stream of a frame: header, payload, CRC, reserved. -/
def frameData (h : FrameHdr) (payload : List Byte) : List Byte :=
  let b := hdrBytes h ++ slice payload 0 11264
  b ++ leBytes 8 (crc64 b).toNat ++ List.replicate 8 0

/-- Symbols of codeword c of a data stream. -/
def codeword (d : List Byte) (c : Nat) : List Nat := (List.range 177).map (fun i => byteAt d (64 * i + c))

/-- The 12,500 bytes of a frame. -/
def frameEncode (d : List Byte) : List Byte :=
  let par := (List.range 64).map (fun c => rsParity (codeword d c))
  frameSync ++ d ++ (List.range 18).flatMap (fun j => par.map (fun p => BitVec.ofNat 8 (p.getD j 0)))

/-- Decode a received frame: the data stream and the symbols corrected, or nothing when a codeword fails. -/
def frameDecode (f : List Byte) : Option (List Byte × Nat) :=
  let cws := (List.range 64).map (fun c =>
    rsDecode ((List.range 177).map (fun i => byteAt f (20 + 64 * i + c)) ++ (List.range 18).map (fun j => byteAt f (11348 + 64 * j + c))))
  if cws.any (·.isNone) then none
  else
    let ok := cws.filterMap id
    some ((List.range 11328).map (fun i => BitVec.ofNat 8 (((ok.getD (i % 64) ([], 0)).1).getD (i / 64) 0)), sumNat (ok.map (·.2)))

def crcOk (d : List Byte) : Bool := fieldN d 11312 8 == (crc64 (d.take 11312)).toNat

/-! ### Sequence numbers (R320) -/

/-- a precedes b modulo 2^32. -/
def seqBefore (a b : BitVec 32) : Bool := decide (0 < (b - a).toNat ∧ (b - a).toNat < 2 ^ 31)

/-- SEQ that a port sends on a lane in this strike: eight times the strikes since it came UP, plus the lane. -/
def seqOf (w : WeldPort) (lane : Nat) : BitVec 32 := BitVec.ofNat 32 (8 * w.age + lane)

/-- SEQ of the frame that arrives on a lane in this strike, by the strikes that the last frame decoded took. (DEDUCED, unsafe: log entry 70.) -/
def seqArriving (w : WeldPort) (lane : Nat) : BitVec 32 := seqOf w lane - BitVec.ofNat 32 (8 * w.flight)

/-- Strikes between the sending of a frame with SEQ q by the peer and now, modulo 2^29. -/
def seqAge (w : WeldPort) (q : BitVec 32) : Nat := (seqOf w 7 - q).toNat / 8

/-- The lowest bad SEQ not yet resolved. -/
def lowestBad (w : WeldPort) : Option (BitVec 32) :=
  w.badSeqs.foldl (fun acc b => match acc with
    | none => some b
    | some a => if seqBefore b a then some b else some a) none

def ackOf (w : WeldPort) : BitVec 32 := (lowestBad w).getD (w.highest + 1)

def nakOf (w : WeldPort) : BitVec 32 := (lowestBad w).getD 0xFFFFFFFF

/-! ### Sending (R118, R316, R320) -/

def laneUp (w : WeldPort) (i : Nat) : Bool := w.lanes.getD i .down == .up

/-- Key of a chunk of flow f at offset k, port and lane: chunks of a flow rise in stream order. -/
def chunkKey (f k place : Nat) : Nat := f * 2 ^ 50 + k * 64 + place

def flowChunks (m : Sparse (List Byte)) (f : Nat) : List (Nat × List Byte) := m.filter (fun e => e.1 / 2 ^ 50 == f)

def flowBytes (m : Sparse (List Byte)) (f : Nat) : List Byte := (flowChunks m f).flatMap (·.2)

/-- Places in a flow of the frames that await a re-send on any port. -/
def flowHoles (s : State) (f : Nat) : List Nat :=
  s.links.ports.flatMap (fun w => (w.holes.filter (fun x => x.2 / 2 ^ 50 == f)).map (·.2))

/-- Take the next frame's payload of a flow for a slot: a source fills frames with 11,264 bytes, a forwarding member passes on the frame
that is first in the order of its OFFSET, unless a frame before it awaits a re-send (R321), and notes which slot carried it (R378). (DEDUCED, unsafe: log entry 70.) -/
def takeFlow (j : Job) (f slot : Nat) (holes : List Nat) : List Byte × Job :=
  match flowChunks j.flowOut f with
  | [] => ([], j)
  | (k, b) :: rest =>
    if (flowAt j.plan f).src = j.pos then
      let all := b ++ rest.flatMap (·.2)
      let left := all.drop 11264
      let base := j.flowOut.filter (fun e => e.1 / 2 ^ 50 != f)
      (all.take 11264, { j with flowOut := sparseSet [] k left base })
    else if holes.any (fun q => decide (q < k)) then ([], j)
    else (b, { j with flowOut := sparseErase k j.flowOut, carried := j.carried ++ [(slot, k)] })

/-- Maximum one-way delay of a hop in ps for a WELD_HOP_LAT (R319). -/
def maxHopPs (lat : Nat) : Nat := (250 * lat - 375) * 1000

/-- LAT_EXCEEDED: the hop's delay exceeds what WELD_HOP_LAT allows (R319). -/
def latExceeded (s : State) (p : Nat) : Bool :=
  decide (maxHopPs (param s 0xC) < (if p < 6 then (s.tb.hopDelay.getD p 0).toNat else (portGet s p).delayPs))

/-- The flow of a lane slot of an offset of the running plan: lanes the plan may use, ports whose delay fits (R117, R319, R327). -/
def planSlot (s : State) (j : Job) (off p i : Nat) : Option Nat :=
  let w := portGet s p
  if latExceeded s p || (w.planFrom.getD i 0 != 0 && decide (j.accepted ≤ w.planFrom.getD i 0)) then none
  else slotFlow (weldSlots j.plan j.pos) off p i

/-- The flow of a lane slot in the strike that runs: in hold and replay strikes every slot is unassigned. -/
def slotOwner (s : State) (p i : Nat) : Option Nat :=
  if s.seq.kind != .run then none
  else (runningJob s).bind (fun j => planSlot s j (offsetNow s j) p i)

/-- Header of a frame this port sends on lane i in this strike. -/
def sendHdr (s : State) (w : WeldPort) (i kind offset flow bytes : Nat) (orig : Nat) : FrameHdr :=
  { version := w.major.toNat * 256 + w.minor.toNat, kind := kind, lane := i, epoch := (unitGet s devKey).page.active.toNat,
    step := (planStep s).toNat, offset := offset, flow := flow, seq := (seqOf w i).toNat, ack := (ackOf w).toNat,
    nak := (nakOf w).toNat, bytes := bytes, src := s.form.device, orig := orig }

/-- The copy of a frame that this port sends on lane i, with the control messages in it. -/
def frameCopy (s : State) (p i kind offset flow : Nat) (payload : List Byte) (orig : Nat) (ctl : List CtlMsg) : SentFrame :=
  let w := portGet s p
  { seq := seqOf w i, strike := w.age, data := frameData (sendHdr s w i kind offset flow payload.length orig) payload, naked := none, ctl := ctl }

/-- Send a frame and keep its copy until it is resolved. -/
def sendFrame (s : State) (p i kind offset flow : Nat) (payload : List Byte) (orig : Nat) (ctl : List CtlMsg) : State :=
  let copy := frameCopy s p i kind offset flow payload orig ctl
  emitOut (portMod s p (fun w => { w with sent := w.sent ++ [copy] })) (.frame p i (frameEncode copy.data))

/-- (DESIGN CHOICE, safe: log entry 9.) -/
def ctlHeader (m : CtlMsg) (n : Nat) : List Byte :=
  leBytes 1 m.type ++ leBytes 1 m.ttl ++ leBytes 2 n ++ leBytes 2 m.dst ++ leBytes 2 m.src ++ leBytes 4 m.seq ++ leBytes 4 0

/-- What a CONTROL payload carries of a message: its header, and the body from where earlier payloads left it, at most 11,248 bytes of it. -/
def ctlMessage (m : CtlMsg) : List Byte := let b := ((Config.ctlBytes m.body).drop m.sent).take 11248; ctlHeader m b.length ++ b

/-- The rest of a message whose body exceeds what one payload carries (R323). -/
def ctlRest (m : CtlMsg) : Option CtlMsg := if (Config.ctlBytes m.body).length ≤ m.sent + 11248 then none else some { m with sent := m.sent + 11248 }

/-- The waiting messages that fit whole in the room left, in order, and those that stay (R323). -/
def fitMsgs : Nat → List CtlMsg → List CtlMsg × List CtlMsg
  | _, [] => ([], [])
  | room, m :: rest =>
    let n := (ctlMessage m).length
    if n ≤ room && (ctlRest m).isNone then (let r := fitMsgs (room - n) rest; (m :: r.1, r.2)) else ([], m :: rest)

/-- Send waiting control messages back to back in an unassigned slot, or an idle frame. A message longer than one payload goes in several. -/
def sendControl (s : State) (p i : Nat) : State :=
  match (portGet s p).outgoing with
  | [] => sendFrame s p i 0 (2 ^ 48 - 1) 0xFFFF [] 0xFFFFFFFF []
  | m :: rest =>
    match ctlRest m with
    | some m' =>
      sendFrame (portMod s p (fun w => { w with outgoing := m' :: rest })) p i 3 (2 ^ 48 - 1) 0xFFFF (ctlMessage m) 0xFFFFFFFF [{ m with sent := 0 }]
    | none =>
      let r := fitMsgs (11264 - (ctlMessage m).length) rest
      let ms := m :: r.1
      let s1 := portMod s p (fun w => { w with outgoing := r.2 })
      let copies := ms.map (fun x => { x with sent := 0 })
      copies.foldl (fun t x => emitOut t (.control p x)) (sendFrame s1 p i 3 (2 ^ 48 - 1) 0xFFFF (ms.flatMap ctlMessage) 0xFFFFFFFF copies)

/-- A rerun frame: a re-send that names no original SEQ (R378). -/
def isRerun (d : List Byte) : Bool := let h := parseHdr d; h.kind == 2 && h.orig == 0xFFFFFFFF

/-- A rerun frame waits behind those of its flow and offset that are queued before it, so that they land in their order. -/
def rerunWaits (before : List SentFrame) (f : SentFrame) : Bool :=
  let h := parseHdr f.data
  isRerun f.data && before.any (fun x => let g := parseHdr x.data; isRerun x.data && g.flow == h.flow && g.offset == h.offset)

/-- Frames of a port that may be sent again: copies whose NAK decoded before this strike (R321). (DEDUCED, unsafe: log entry 70.) -/
def resendDue (w : WeldPort) : List SentFrame :=
  ((List.range w.sent.length).zip w.sent).filterMap (fun (i, f) =>
    if f.naked.any (fun n => decide (n < w.age)) && !rerunWaits (w.sent.take i) f then some f else none)

/-- Place in a flow of what a slot of this member carries: offset, port, lane. -/
def slotKey (f off p i : Nat) : Nat := chunkKey f off (8 * p + i)

/-- A SEQ outside those in use, under which a rerun frame waits. -/
def spareSeq (w : WeldPort) : BitVec 32 :=
  let base := seqOf w 0 + BitVec.ofNat 32 (2 ^ 30)
  let free := (List.range (w.sent.length + 1)).find? (fun i => !w.sent.any (fun x => x.seq == base + BitVec.ofNat 32 i))
  base + BitVec.ofNat 32 (free.getD 0)

/-- A rerun frame of a slot waits at its port as a re-send without an original SEQ (R378). (DEDUCED, unsafe: log entry 70.) (DEDUCED, unsafe: log entry 95.) -/
def queueRerun (s : State) (f off p i : Nat) (payload : List Byte) : State :=
  let w := portGet s p
  let copy := { frameCopy s p i 2 off f payload 0xFFFFFFFF [] with seq := spareSeq w, naked := some (w.age - 1) }
  portMod s p (fun w => { w with sent := w.sent ++ [copy] })

/-- The frames of the slots of an offset that the sweep replays: a source's from its bytes, a forwarding member's empty ones; those that carried
a frame wait for its rerun (R378). -/
def sweepSlot (s : State) (off p i : Nat) : State :=
  match runningJob s with
  | none => s
  | some j =>
    match planSlot s j off p i with
    | none => s
    | some f =>
      if (flowAt j.plan f).src = j.pos then
        let (b, j') := takeFlow j f (slotKey f off p i) []
        queueRerun (setJob s j.num (fun _ => j')) f off p i b
      else if j.carried.any (fun c => c.1 == slotKey f off p i) then s
      else queueRerun s f off p i []

def sweepFrames (s : State) (off : Nat) : State :=
  (List.range 8).foldl (fun t p => if (portGet t p).state == .up then (List.range 8).foldl (fun u i => sweepSlot u off p i) t else t) s

/-- One lane's frame at a strike edge. A lane whose unassigned slot a re-send will take sends nothing here; a flow frame whose check fails on
its way out of memory is not sent (R310). -/
def sendLane (s : State) (p i : Nat) (reserved : List Nat) (mismatch : Bool) : State :=
  match slotOwner s p i with
  | some f =>
    match runningJob s with
    | none => s
    | some j =>
      let off := offsetNow s j
      let (b, j') := takeFlow j f (slotKey f off p i) (flowHoles s f)
      let s1 := setJob s j.num (fun _ => j')
      if mismatch && (flowAt j.plan f).src == j.pos then sendControl s1 p i else sendFrame s1 p i 1 off f b 0xFFFFFFFF []
  | none => if reserved.contains i then s else sendControl s p i

/-- The device number with its coordinate, once it is assigned. -/
def ownPlace (s : State) : Option (Nat × Nat × Nat × Nat) :=
  if s.form.map.isEmpty || !s.form.listed then none
  else some (s.form.device, s.form.device % s.form.dx, s.form.device / s.form.dx % s.form.dy, s.form.device / (s.form.dx * s.form.dy))

/-- Payload of a TRAIN frame (R325, R326, R392): the majors with their minors, and once the versions are settled the identity fields with the
signature over the peer's nonce. (DESIGN CHOICE, safe: log entry 9.) -/
def trainPayload (s : State) (p : Nat) : List Byte :=
  let versions := leBytes 2 0x0002 ++ List.replicate 16 0
  let floor := if s.boot.phase == .recovery then some s.boot.svnFloor else none
  match (portGet s p).signature with
  | none => versions
  | some sig => versions ++ Config.trainIdentity p (ownPlace s) s.boot.chain sig floor

/-- A lane in TRAINING sends a TRAIN frame in each strike: the highest version, EPOCH 0; its SEQ, ACK and NAK take no part in the accounting and
are free (R317, R320, R324). -/
def sendTrain (s : State) (p i : Nat) : State :=
  let (x, s1) := drawFree s
  let (y, s2) := drawFree s1
  let b := trainPayload s p
  let h := { sendHdr s (portGet s p) i 4 (2 ^ 48 - 1) 0xFFFF b.length 0xFFFFFFFF with
             version := 0x0100, epoch := 0, seq := (Config.freeWord x).toNat % 2 ^ 32,
             ack := (Config.freeWord y).toNat % 2 ^ 32, nak := (Config.freeWord y).toNat / 2 ^ 32 }
  emitOut s2 (.frame p i (frameEncode (frameData h b)))

/-- Every UP lane of an UP port sends one frame, and every lane in TRAINING one of its own (R316); the first unassigned lanes are left to the
re-sends due (R321). `mismatch` names the lanes whose data fails its check on leaving memory. -/
def sendPort (mismatch : List (Nat × Nat)) (s : State) (p : Nat) : State :=
  let w := portGet s p
  let s1 := if w.state != .up then s
    else
      let up := (List.range 8).filter (laneUp w)
      let free := up.filter (fun i => (slotOwner s p i).isNone)
      let reserved := free.take (resendDue w).length
      up.foldl (fun t i => sendLane t p i reserved (mismatch.contains (p, i))) s
  ((List.range 8).filter (fun i => w.lanes.getD i .down == .training)).foldl (fun t i => sendTrain t p i) s1

/-- A strike passes at every port. -/
def agePorts (s : State) : State :=
  { s with links := { s.links with ports := s.links.ports.map (fun w => if w.state == .up then { w with age := w.age + 1 } else w) } }

def sendFrames (s : State) (mismatch : List (Nat × Nat)) : State := (List.range 8).foldl (sendPort mismatch) s

/-- R321: a NAKed frame is sent again in an unassigned slot of the port, as RESEND with the original place and payload. A re-send that was bad
itself, or that waits as a rerun, is replaced by the new one. -/
def execWeldFrameResend (port lane : Nat) (s : State) : Host.Outcome State Fault Refusal :=
  let w := portGet s port
  .next (match resendDue w with
    | [] => s
    | f :: _ =>
      if w.state == .up && laneUp w lane && !latExceeded s port && (slotOwner s port lane).isNone &&
          !w.sent.any (fun x => x.seq == seqOf w lane && x.naked.isNone) then
        let h := parseHdr f.data
        let copy := frameCopy s port lane 2 h.offset h.flow ((f.data.drop 48).take h.bytes) (if h.kind = 2 then h.orig else h.seq) f.ctl
        let sent := if h.kind = 2 then w.sent.map (fun x => if x.seq == f.seq then copy else x)
          else w.sent.map (fun x => if x.seq == f.seq then { x with naked := none } else x) ++ [copy]
        let s1 := portMod s port (fun w => { w with sent := sent, resends := satAdd w.resends 1 })
        count (emitOut s1 (.frame port lane (frameEncode copy.data))) devKey 20 1
      else s)

/-- R322: 64 strikes after it was sent without being resolved, a frame is lost: its sender drops the copy, its receiver moves the ACK past it,
and each counts the loss. Virian sends the messages of TYPE 0x01 to 0x03 of a lost CONTROL frame again, those for the neighbour on the same port. -/
def execWeldFrameLost (port : Nat) (seq : BitVec 32) (s : State) : Host.Outcome State Fault Refusal :=
  let w := portGet s port
  let mine := w.sent.any (fun f => f.seq == seq && decide (f.strike + 64 ≤ w.age))
  let theirs := w.badSeqs.contains seq && decide (64 ≤ (seqArriving w 7 - seq).toNat / 8)
  .next (if mine || theirs then
    let s1 := portMod s port (fun w => { w with
      sent := if mine then w.sent.filter (fun f => f.seq != seq) else w.sent
      badSeqs := if theirs then w.badSeqs.filter (· != seq) else w.badSeqs
      holes := if theirs then w.holes.filter (fun x => x.1 != seq) else w.holes })
    let again := (w.sent.filter (fun f => mine && f.seq == seq)).flatMap (fun f => f.ctl.filter (fun m => decide (1 ≤ m.type ∧ m.type ≤ 3)))
    again.foldl (fun t m => if m.dst = 0xFFFF then sendOnPort t port m else routeMsg t m) (count s1 devKey 22 (boolNat mine + boolNat theirs))
  else s)

/-! ### Receiving (R318, R320) -/

/-- Group position of the device at the other end of a port. -/
def peerPos (s : State) (j : Job) (p : Nat) : Nat := (j.members.findIdx? (· == (portGet s p).peerDevice.toNat)).getD j.members.length

/-- Place in a flow of a frame that its sender put on a lane: offset, the sender's port, the lane. -/
def framePlace (s : State) (p f off lane : Nat) : Nat := chunkKey f off (8 * (portGet s p).peerPort.toNat + lane)

/-- Hold and replay strikes from strike t up to this one, by the latest holds (R13). -/
def holdsSince (s : State) (t : Nat) : Nat :=
  let now' := now s
  sumNat (s.seq.holds.map (fun h => overlapBytes (h.start, h.strikes) (t, now' - t))) +
    (if s.seq.kind = .run then 0 else match s.quench.hold with
      | some h => now' - Nat.max t (h.raise + 1)
      | none => 0)

/-- Offset of the job in an earlier strike t, where that was a run strike (R113). -/
def offsetIn (s : State) (j : Job) (t : Nat) : Option Nat :=
  let run := if t = now s then s.seq.kind == .run else holdsSince s t == holdsSince s (t + 1)
  if run then some (offsetAt j t (s.seq.hold - holdsSince s t)) else none

/-- Place of the flow frame that arrives on a lane in this strike, by the slot in which it was sent. -/
def slotPlace (s : State) (p lane : Nat) : Option Nat :=
  match runningJob s with
  | none => none
  | some j =>
    (offsetIn s j (now s - (portGet s p).flight)).bind (fun off =>
      (slotFlow (weldSlots j.plan (peerPos s j p)) off (portGet s p).peerPort.toNat lane).map (fun f => framePlace s p f off lane))

def addHole (l : List (BitVec 32 × Nat)) (q : BitVec 32) : Option Nat → List (BitVec 32 × Nat)
  | none => l
  | some k => if l.contains (q, k) then l else l ++ [(q, k)]

/-- Drop a frame as bad: counted, NAKed under the SEQ its slot gives; counted too against the lane's heat (R327). (DEDUCED, unsafe: log entry 70.) -/
def badFrame (s : State) (p lane : Nat) : State :=
  let q := seqArriving (portGet s p) lane
  let s1 := portMod s p (fun w => { w with
    framesBad := satAdd w.framesBad 1
    badSeqs := if w.badSeqs.contains q then w.badSeqs else w.badSeqs ++ [q]
    highest := if seqBefore w.highest q then q else w.highest
    badInHeat := splitAdd w.badInHeat lane
    holes := addHole w.holes q (slotPlace s p lane) })
  count s1 devKey 21 1
where
  splitAdd (l : List Nat) (lane : Nat) : List Nat :=
    (List.range 8).map (fun i => l.getD i 0 + if i = lane then 1 else 0)

/-- The frame arrived: its SEQ counts as received, and tells how many strikes frames take to arrive. -/
def ackFrame (s : State) (p : Nat) (q : BitVec 32) : State :=
  portMod s p (fun w => { w with highest := if seqBefore w.highest q then q else w.highest, flight := seqAge w q })

/-- R320: ACK resolves the copies below it, NAK marks the copy to send again. -/
def ackNak (s : State) (p : Nat) (h : FrameHdr) : State :=
  let ack : BitVec 32 := BitVec.ofNat 32 h.ack
  let nak : BitVec 32 := BitVec.ofNat 32 h.nak
  portMod s p (fun w => { w with
    sent := (w.sent.filter (fun f => !seqBefore f.seq ack)).map (fun f => if h.nak ≠ 0xFFFFFFFF ∧ f.seq = nak then { f with naked := some w.age } else f) })

/-- The strike in which the frame with a SEQ was sent on a port (R320); a peer whose count lies ahead of ours gives no age, and the port's delay
does. (DEDUCED, unsafe: log entry 70.) -/
def sentStrike (s : State) (w : WeldPort) (q : BitVec 32) : Nat :=
  now s - (if seqAge w q < 64 then seqAge w q else w.delayPs / 250000)

/-- R54: a transfer tagged with another epoch is refused and counted; a later epoch with no commit pending for it fences the
device. -/
def epochRefused (s : State) (e : Nat) : State :=
  let s1 := count s devKey 7 1
  let u := unitGet s devKey
  if u.page.active.toNat < e ∧ u.page.pendEpoch.toNat ≠ e then
    let s2 := fenceUnit s1 devKey
    flagsMod s2 devKey (fun f => { f with refSeen := if f.refSeen.toNat < e then BitVec.ofNat 32 e else f.refSeen })
  else s1

/-- Check 5: the flow is one of the running plan, and a FLOW frame's OFFSET is the offset of its strike of sending, WELD_HOP_LAT before its
arriving offset (R318, R319). -/
def flowCheck (s : State) (w : WeldPort) (h : FrameHdr) : Bool :=
  match runningJob s with
  | none => false
  | some j =>
    decide (h.flow < sectionCount j.plan 7 0xFFFF) && (h.kind == 2 || offsetIn s j (sentStrike s w (BitVec.ofNat 32 h.seq)) == some h.offset)

/-- A RESEND that decodes resolves the SEQ of its original (R320). -/
def resolveSeq (w : WeldPort) (h : FrameHdr) : WeldPort :=
  if h.kind = 2 then { w with badSeqs := w.badSeqs.filter (· != BitVec.ofNat 32 h.orig) } else w

/-- The frames behind a re-sent one are no longer held back. -/
def fillHole (w : WeldPort) (h : FrameHdr) : WeldPort :=
  if h.kind = 2 then { w with holes := w.holes.filter (fun x => x.1 != BitVec.ofNat 32 h.orig) } else w

/-- Lane of the frame that a received one stands for: a RESEND takes its original's place, whose SEQ names the lane (R320); the rerun frames
of an offset, which name no SEQ (R378), take the lanes of the sender's slots of that offset in order. (DEDUCED, unsafe: log entry 95.) -/
def origLane (s : State) (j : Job) (p : Nat) (h : FrameHdr) : Nat :=
  if h.kind ≠ 2 then h.lane
  else if h.orig ≠ 0xFFFFFFFF then h.orig % 8
  else
    let here (i : Nat) : Bool := slotFlow (weldSlots j.plan (peerPos s j p)) h.offset (portGet s p).peerPort.toNat i == some h.flow
    ((List.range 8).find? (fun i => here i && !j.reruns.contains (framePlace s p h.flow h.offset i))).getD h.lane

/-- R318: the receive checks in order; a good FLOW or RESEND frame waits for its arriving offset. -/
def execWeldFrameReceive (port lane : Nat) (frame : List Byte) (s : State) : Host.Outcome State Fault Refusal :=
  let w := portGet s port
  .next (if !(port < 8 && w.state == .up && laneUp w lane) then s
    else match frameDecode frame with
    | none => badFrame s port lane
    | some (d, fixed) =>
      let s1 := portMod s port (fun w => { w with fecCorr := satAdd w.fecCorr fixed, fecLane := listModify w.fecLane lane (· + fixed) })
      let h := parseHdr d
      if !crcOk d || h.version != w.major.toNat * 256 + w.minor.toNat then badFrame s1 port lane
      else
        let s2 := ackNak (ackFrame s1 port (BitVec.ofNat 32 h.seq)) port h
        if h.epoch != (epochAt s2 (sentStrike s w (BitVec.ofNat 32 h.seq))).toNat then
          epochRefused (portMod s2 port (fun w => fillHole (resolveSeq w h) h)) h.epoch
        else if h.kind = 1 ∨ h.kind = 2 then
          if !flowCheck s2 w h then
            portMod s2 port (fun w => { fillHole (resolveSeq w h) h with framesBad := satAdd w.framesBad 1 })
          else
            portMod s2 port (fun w => { resolveSeq w h with waiting := w.waiting ++ [(lane, d)] })
        else s2)

/-- A frame's arriving offset has come: it lands in a run strike, a RESEND as soon as it decodes once that offset is past, and a rerun frame at
once (R319, R321, R378). -/
def landDue (s : State) (h : FrameHdr) : Bool :=
  match runningJob s with
  | none => false
  | some j =>
    let due := h.offset + param s 0xC
    h.kind == 2 && (h.orig == 0xFFFFFFFF || decide (due < offsetNow s j)) || (s.seq.kind == .run && decide (due ≤ offsetNow s j))

/-- The frame of a place has landed or been passed on: what was NAKed for that place is resolved, and nothing waits behind it. -/
def placeFilled (s : State) (p key : Nat) : State :=
  portMod s p (fun w => { w with
    badSeqs := w.badSeqs.filter (fun b => !w.holes.any (fun x => x.1 == b && x.2 == key))
    holes := w.holes.filter (fun x => x.2 != key) })

/-- A frame fails check 6 of R318: bad, and NAKed under its own SEQ (R321). -/
def landFails (s : State) (p lane key : Nat) (q : BitVec 32) : State :=
  count (portMod s p (fun w => { w with
    framesBad := satAdd w.framesBad 1
    badSeqs := if w.badSeqs.contains q then w.badSeqs else w.badSeqs ++ [q]
    badInHeat := badFrame.splitAdd w.badInHeat lane
    holes := addHole w.holes q (some key) })) devKey 21 1

/-- An uncorrectable word of a port's receive buffer goes to the log of its hub's checker; its index and syndrome are free (R301, R307). -/
def bufferError (s : State) (p : Nat) : State :=
  let (i, s1) := drawFree s
  eccLog s1 (instKey (p / 2) (1297 + p % 2) ((Config.freeWord i).toNat % 2 ^ 32)) (BitVec.ofNat 8 ((Config.freeWord i).toNat / 2 ^ 32)) 1

/-- A frame to forward joins those that wait for its flow's next slots (R118); one that a slot has carried goes on as a rerun of that slot (R378). -/
def forwardFrame (s : State) (j : Job) (h : FrameHdr) (key : Nat) (bytes : List Byte) : State :=
  match j.carried.find? (fun c => c.2 == key) with
  | none => setJob s j.num (fun j => { j with flowOut := sparseSet [] key bytes j.flowOut })
  | some c => if h.orig = 0xFFFFFFFF then queueRerun s h.flow (c.1 / 64 % 2 ^ 44) (c.1 % 64 / 8) (c.1 % 8) bytes else s

/-- R319, R118, R309, R310: the frame lands in its place of the flow, or joins the frames to forward. A handover mismatch commits nothing and is
counted against the device; like an unreadable receive buffer (R307) it makes the frame bad. -/
def execWeldFrameLand (port lane : Nat) (found : LandCheck) (s : State) : Host.Outcome State Fault Refusal :=
  let w := portGet s port
  .next (match w.waiting.find? (fun x => x.1 == lane && landDue s (parseHdr x.2)), runningJob s with
    | some (_, d), some j =>
      let h := parseHdr d
      let s0 := portMod s port (fun w => { fillHole w h with waiting := w.waiting.filter (fun x => !(x.1 == lane && x.2 == d)) })
      let bytes := (d.drop 48).take h.bytes
      let key := framePlace s port h.flow h.offset (origLane s j port h)
      let here := (flowAt j.plan h.flow).dst == j.pos
      let q : BitVec 32 := BitVec.ofNat 32 h.seq
      match found, here with
      | .unreadable, _ => bufferError (landFails s0 port lane key q) port
      | .mismatch, true => stickySet (count (landFails s0 port lane key q) devKey 4 1) devKey 9
      | _, _ =>
        let s1 := placeFilled s0 port key
        let s2 := if isRerun d then setJob s1 j.num (fun j => { j with reruns := j.reruns ++ [key] }) else s1
        if here then setJob s2 j.num (fun j => { j with flowIn := sparseSet [] key bytes j.flowIn })
        else forwardFrame s2 j h key bytes
    | _, _ => s)

/-! ### Lanes (R313, R324 to R327) -/

/-! ### Spur ports -/

def spurGet (s : State) (p : Nat) : SpurPort := s.links.spur.getD p SpurPort.reset

def spurMod (s : State) (p : Nat) (f : SpurPort → SpurPort) : State :=
  { s with links := { s.links with spur := listModify s.links.spur p f } }

def qpGet (s : State) (p q : Nat) : QueuePair := sparseGet QueuePair.reset q (spurGet s p).qps

def qpMod (s : State) (p q : Nat) (f : QueuePair → QueuePair) : State :=
  spurMod s p (fun x => { x with qps := sparseSet QueuePair.reset q (f (sparseGet QueuePair.reset q x.qps)) x.qps })

/-- Ring number of queue pair q of port p (R337). -/
def sqNumber (p q : Nat) : Nat := 512 + 2048 * p + q

/-- A Weld port, or a Spur port whose mode is WELD. -/
def weldMode (s : State) (p : Nat) : Bool :=
  decide (p < 6) || (decide (p < 8) && ((s.links.spur.getD (p - 6) SpurPort.reset).mode == 2))

def coordOf (s : State) (d : Nat) : Nat × Nat × Nat := (d % s.form.dx, d / s.form.dx % s.form.dy, d / (s.form.dx * s.form.dy))

/-- After formation the peer lies along the port's dimension only, at most 4 positions away in the port's direction. -/
def peerPlaceOk (s : State) (p : Nat) (peer : Nat) : Bool :=
  let (x, y, z) := coordOf s s.form.device
  let (x', y', z') := coordOf s peer
  let along (a b n : Nat) : Bool :=
    let d := if p % 2 = 0 then (b + n - a) % n else (a + n - b) % n
    decide (d ≤ 4) || n == 0
  match p / 2 with
  | 0 => y == y' && z == z' && along x x' s.form.dx
  | 1 => x == x' && z == z' && along y y' s.form.dy
  | _ => x == x' && y == y' && along z z' s.form.dz

def miswired (s : State) (p : Nat) (t : LaneTraining) : Bool :=
  if p < 6 then
    t.peerPort != (if p % 2 = 0 then p + 1 else p - 1) ||
      (s.form.formationCommitted && (match t.peerDevice with
        | some d => !peerPlaceOk s p d
        | none => false))
  else !(decide (6 ≤ t.peerPort) && t.peerMode)

/-- The port is refused; what the peer supports shows (R325, R341). -/
def refusePort (s : State) (p : Nat) (c : RefuseCode) (t : LaneTraining) : State :=
  portMod s p (fun w => { w with state := .refused, refuse := c, peerMajors := t.majors })

def anyLaneUp (w : WeldPort) : Bool := w.lanes.any (· == .up)

/-- The lane goes back to DOWN; a port without a lane UP is DOWN. -/
def laneDown (s : State) (p i : Nat) : State :=
  portMod s p (fun w =>
    let w1 := { w with lanes := w.lanes.set i .down, steps := w.steps.set i 0 }
    if anyLaneUp w1 then w1
    else { w1 with state := if w1.state == .refused then .refused else .down, sent := [], badSeqs := [], holes := [], waiting := [], peerDevice := 0xFFF,
                   peerDigest := 0, peerPort := 0, signature := none })

/-- HOP_DELAY reads 0 while the port is untrained (R42). (DEDUCED, unsafe: log entry 81.) -/
def clearHop (s : State) (p : Nat) : State :=
  if p < 6 && !anyLaneUp (portGet s p) then tbMod s (fun b => { b with hopDelay := b.hopDelay.set p 0 }) else s

/-- A lane lost, and with the last one the measured delay of its port. -/
def dropLane (s : State) (p i : Nat) : State := clearHop (laneDown s p i) p

/-- The lane comes UP, and with the first one its port. -/
def raiseLane (s : State) (p i : Nat) (t : LaneTraining) (digest : Digest) : State :=
  let old := s.tb.hopApplied.getD p 0
  let delay := (oneWayDelay t.times).toNat
  let changed := old ≠ 0 ∧ 1000 < (if old < delay then delay - old else old - delay)
  let first := !anyLaneUp (portGet s p)
  let start := nextBoundary (now s + 1)
  let s1 := portMod s p (fun w => { w with
    lanes := w.lanes.set i .up, steps := w.steps.set i 0, state := .up, refuse := .none
    planFrom := if s.tb.strikeDefined then w.planFrom.set i start else w.planFrom
    delayPs := delay
    peerDigest := BitVec.ofNat 48 (digest.toNat / 2 ^ 336), peerPort := BitVec.ofNat 3 t.peerPort
    peerDevice := BitVec.ofNat 12 (t.peerDevice.getD 0xFFF), peerMajors := t.majors, major := 1
    minor := if first then BitVec.ofNat 8 (Nat.min 0 ((t.minors.getD 1 0).toNat)) else w.minor
    age := if first then 0 else w.age, flight := if first then delay / 250000 else w.flight, highest := if first then 0xFFFFFFFF else w.highest })
  if p < 6 then
    tbMod s1 (fun b => { b with hopDelay := b.hopDelay.set p (BitVec.ofNat 32 delay), hopApplied := b.hopApplied.set p delay,
                                recalHeats := if changed then b.recalHeats.set p 4 else b.recalHeats })
  else s1

/-- Lanes train once Virian runs; a recovery boot opens its X pair and trains lane 0 of X+ and X− (R315). A closed bypass passes a torus port by (R313). -/
def mayTrain (s : State) (port lane : Nat) : Bool :=
  (decide (6 ≤ port) || !(portGet s port).bypassClosed) && match s.boot.phase with
  | .off => false
  | .recovery => s.boot.xPairOpen && decide (port < 2) && lane == 0
  | _ => true

/-- Pieces of a byte string: frame payloads, or the bodies of control messages. -/
def pieces (size : Nat) : Nat → List Byte → List (List Byte)
  | 0, _ => []
  | n + 1, bs => if bs.isEmpty then [] else bs.take size :: pieces size n (bs.drop size)

/-- R392: an X neighbour in recovery boot receives the running image, in byte order, when its SVN is at or above the floor it announces. -/
def sendFirmware (s : State) (p : Nat) (floor : Option (BitVec 32)) : State :=
  match floor with
  | none => s
  | some f =>
    if p < 2 && s.boot.phase == .running && f.toNat ≤ imgSvn s.boot.running then
      let ps := pieces 11240 (ceilDiv s.boot.running.length 11240) s.boot.running
      ((List.range ps.length).zip ps).foldl (fun t x =>
        sendOnPort { t with links := { t.links with ctlSeq := t.links.ctlSeq + 1 } } p (newMsg t 7 0xFFFF (.firmware (11240 * x.1) x.2))) s
    else s

/-- A lane begins to train: step 1 of R324. -/
def beginTraining (s : State) (p i : Nat) : State :=
  portMod s p (fun w => { w with lanes := w.lanes.set i .training, steps := w.steps.set i 1,
                                 state := if w.state == .down then .training else w.state })

/-- A lane passes a training step; a port without a lane UP shows how far it has come. -/
def nextStep (s : State) (p i : Nat) (st : PortState) : State :=
  portMod s p (fun w => { w with steps := w.steps.set i (w.steps.getD i 0 + 1), state := if w.state == .up then .up else st })

/-- The last step: the peer's identity and place are judged (R326), then the delay settles and the lane comes UP. -/
def settleLane (s : State) (port lane : Nat) (t : LaneTraining) : State :=
  match Config.chainVerify t.chain with
  | none => stickySet (refusePort s port .identity t) devKey 18
  | some (key, digest) =>
    if !Config.ecdsaVerify key t.nonceDigest t.signature then stickySet (refusePort s port .identity t) devKey 18
    else if miswired s port t then refusePort s port .miswired t
    else if !t.delayOk then dropLane s port lane
    else sendFirmware (raiseLane s port lane t digest) port t.imageFloor

/-- One training step of a lane (R324): signal, SYNC lock, qualification, negotiation, identity and delay. A failed step takes the lane DOWN;
sides without a common major refuse the port (R325). -/
def trainStep (s : State) (port lane : Nat) (t : LaneTraining) : State :=
  match (portGet s port).steps.getD lane 0 with
  | 1 => if t.signalOk then nextStep s port lane .training else dropLane s port lane
  | 2 => if t.syncOk then nextStep s port lane .training else dropLane s port lane
  | 3 => if t.qualifyOk then nextStep s port lane .negotiating else dropLane s port lane
  | 4 =>
    if !t.negotiateOk then dropLane s port lane
    else if !t.majors.getLsbD 1 then stickySet (refusePort s port .linkVersion t) devKey 19
    else
      let (s1, sig) := cseSign s t.peerNonce
      portMod (nextStep s1 port lane .identity) port (fun w => { w with peerMajors := t.majors, major := 1, minor := 0, signature := some sig })
  | _ => settleLane s port lane t

/-- R324 to R326: a DOWN lane that detects light begins to train; a lane in TRAINING ends the step it runs with what the command brings, and the
port comes UP, or is refused by version, by identity or as miswired. (DESIGN CHOICE, safe: log entry 97.) -/
def execLaneLightDetect (port lane : Nat) (t : LaneTraining) (s : State) : Host.Outcome State Fault Refusal :=
  let w := portGet s port
  .next (if !(weldMode s port && decide (lane < 8)) || w.state == .refused || w.state == .disabled || !mayTrain s port lane then s
    else match w.lanes.getD lane .disabled with
      | .down => beginTraining s port lane
      | .training => trainStep s port lane t
      | _ => s)

/-- R324: one second after a failed step the lane starts training again. -/
def execLaneRetrainTimer (port lane : Nat) (s : State) : Host.Outcome State Fault Refusal :=
  let w := portGet s port
  .next (if weldMode s port && w.lanes.getD lane .disabled == .down && w.state != .refused && mayTrain s port lane then
    beginTraining s port lane
  else s)

/-- R327: an UP lane that lost SYNC or saw 16 bad frames within the heat goes DOWN and will retrain. -/
def execLaneDown (port lane : Nat) (s : State) : Host.Outcome State Fault Refusal :=
  .next (if laneUp (portGet s port) lane then stickySet (count (dropLane s port lane) devKey 24 1) devKey 3 else s)

/-- R326: a refused port whose link loses light starts afresh. -/
def execLaneLightLoss (port : Nat) (s : State) : Host.Outcome State Fault Refusal :=
  .next (if (portGet s port).state == .refused then
    portMod s port (fun w => { w with state := .down, refuse := .none, steps := List.replicate 8 0, signature := none,
                                      lanes := w.lanes.map (fun l => if l == .training then .down else l) })
  else s)

end Sys2Proof.Machine
end

