-- ==== Sys2Proof/Machine/Sequencer.lean ====
section
/-!
DEFINITION. The plan sequencer (R19, R47 to R51, R111 to R128, R354, R355): the strike edge, comparators, the start, stop and end
of jobs.
-/
namespace Sys2Proof.Machine

/-! ### The end of a strike (R49, orders 7 to 10) -/

/-- The check of one unit at the end of a heat: a marker below the expected value is a miss, an expected value that has not
changed since the last check counts as neither (R126). -/
def checkUnit (expect : Nat) (u : UnitState) : UnitState :=
  let f := u.flags
  if f.lastExpected.toNat = expect then u
  else
    let f1 := { f with lastExpected := BitVec.ofNat 32 expect,
                       misses := if u.page.marker.toNat < expect then f.misses + 1 else 0 }
    { u with flags := f1 }

/-- Units in service. -/
def servingKeys (s : State) : List Nat := allKeys.filter (fun k => !isOffline s k)

/-- The progress check of a heat's last strike; a heat with a hold or replay strike counts for nothing (R126). -/
def progressCheck (s : State) : State :=
  match runningJob s with
  | none => s
  | some j =>
    if s.seq.heatHeld then s
    else
      let e := progressAt j.plan (offsetNow s j)
      forKeys s (servingKeys s) (fun t k => unitMod t k (checkUnit e))

/-- A deadline moves by one strike, all ones apart. -/
def moveWord (w : Word) : Word := if w = neverWord then w else w + 1

/-- Comparators of owners 0 to 2 move with a hold or replay strike (R48). -/
def movePage (p : UnitPage) : UnitPage :=
  (List.range 4).foldl (fun q k => if wdOwner q k ≤ 2 then wdSet q k (moveWord (wdGet q k)) else q) p

/-- The deadlines of activities in progress move, replayed ones apart (R48). -/
def moveJob (j : Job) : Job :=
  let acts := j.acts.map (fun a => if a.replay then a else { a with last := a.last + 1 })
  { j with acts := acts, holdStrikes := j.holdStrikes + 1, moved := j.moved + 1 }

/-- HOLD advances at the end of a hold or replay strike, and the comparators R48 names move. -/
def advanceHold (s : State) : State :=
  if s.seq.kind == .run then s
  else
    let s1 := forKeys s (s.units.pages.map (·.1)) (fun t k => pageMod t k movePage)
    let s2 := modJobs (modJobs s1 (fun j => j.phase == .running) moveJob) (fun j => j.phase == .queued) (fun j => { j with moved := j.moved + 1 })
    let s3 := { s2 with seq := { s2.seq with hold := s2.seq.hold + 1, heatHeld := true } }
    if s.seq.kind == .replay then count s3 devKey 29 1 else s3

/-- What the end of the current strike does. -/
def endStrike (s : State) : State :=
  advanceHold (if now s % 4096 = 4095 then progressCheck s else s)

/-! ### The edge (R49, order 1; R37, R39, R43) -/

/-- The comparators hold the values they carry at the start of the strike (R19), and the sticky bits set in the last one show (R49). -/
def holdDeadlines (s : State) : State :=
  forKeys s (s.units.pages.map (·.1)) (fun t k => pageMod t k (fun p =>
    { showSticky p with held0 := p.wd0, held1 := p.wd1, held2 := p.wd2, held3 := p.wd3 }))

/-- The strike count takes its next value, with the kind decided at the end of the last strike. -/
def nextStrike (s : State) : State :=
  let n := s.seq.strike + 1
  let hh := if isBoundary n.toNat then false else s.seq.heatHeld
  holdDeadlines { s with seq := { s.seq with strike := n, kind := s.seq.nextKind, heatHeld := hh || s.seq.nextKind != .run } }

/-- The phase error of an edge, from the marker of the parent port: the marker's arrival less the port's delay is where the edge should
lie, positive when the own edge is late (R37, R38). Without a parent the measured error stands. -/
def edgeError (s : State) (e : EdgeInputs) : BitVec 32 :=
  match e.marker, s.tb.parent with
  | some a, some p => BitVec.ofInt 32 (offsetOfB (Int.ofNat (s.tb.hopDelay.getD p 0).toNat) { taTx := 0, tbRx := a, tbTx := 0, taRx := 0 })
  | _, _ => e.errorPs

/-- The phase error is recorded; above 2.5 ns it counts in PHASE_WARN (R43). -/
def trackEdge (s : State) (offsetPs : BitVec 32) : State :=
  let m := (sint 32 offsetPs.toNat).natAbs
  let s1 := tbMod s (fun t => { t with offset := offsetPs, maxOffset := Nat.max t.maxOffset m })
  if 2500 < m then count s1 devKey 16 1 else s1

/-- The port leaves service as a parent: a device that had it as parent enters holdover (R39, R45). -/
def leaveParent (s : State) (p : Nat) : State :=
  tbMod s (fun t => { t with
    role := if t.parent = some p ∧ t.role == .follower then .holdover else t.role
    holdoverHeats := if t.parent = some p then heatOf (now s) else t.holdoverHeats
    parent := if t.parent = some p then none else t.parent })

/-- HOP_DELAY moves toward the applied delay by at most 50 ps (R39). -/
def slewPort (t : Timebase) (p : Nat) : Timebase :=
  let old := (t.hopDelay.getD p 0).toNat
  let d := t.hopApplied.getD p 0
  let v := if old < d then old + Nat.min 50 (d - old) else old - Nat.min 50 (old - d)
  { t with hopDelay := t.hopDelay.set p (BitVec.ofNat 32 v) }

/-- One port's recalibration at a heat boundary (R39): a new estimate is applied and approached by 50 ps a heat; one that differs from the
delay last applied by more than 1 ns takes the port out of use as a parent, and the estimate of the fourth heat after it, or of a later one,
is the new delay. (DEDUCED, unsafe: log entry 81.) -/
def recalibrate (s : State) (p : Nat) (d : Option Nat) : State :=
  let heats := s.tb.recalHeats.getD p 0
  let applied := s.tb.hopApplied.getD p 0
  if (s.tb.hopDelay.getD p 0).toNat = 0 then s
  else match d with
  | none => tbMod s (fun t => if heats = 0 then slewPort t p else { t with recalHeats := t.recalHeats.set p (Nat.max 1 (heats - 1)) })
  | some d =>
    if heats = 1 then tbMod s (fun t => { t with recalHeats := t.recalHeats.set p 0, hopApplied := t.hopApplied.set p d,
                                                 hopDelay := t.hopDelay.set p (BitVec.ofNat 32 d) })
    else if heats ≠ 0 then tbMod s (fun t => { t with recalHeats := t.recalHeats.set p (heats - 1) })
    else if 1000 < (if applied < d then d - applied else applied - d) then
      leaveParent (tbMod s (fun t => { t with recalHeats := t.recalHeats.set p 4 })) p
    else tbMod s (fun t => slewPort { t with hopApplied := t.hopApplied.set p d } p)

def recalibrateAll (s : State) (ds : List (Option TwoWay)) : State :=
  (List.range 6).foldl (fun t p => recalibrate t p ((ds.getD p none).map (fun x => (oneWayDelay x).toNat))) s

/-! ### Work of a heat boundary -/

/-- Group clears due now take effect on the device unit (R24). -/
def applyGroupClears (s : State) : State :=
  let h := heatOf (now s)
  let m := (s.units.groupClears.filter (fun c => decide (c.heat ≤ h))).foldl (fun acc c => acc ||| c.mask) 0
  let s1 := { s with units := { s.units with groupClears := s.units.groupClears.filter (fun c => !decide (c.heat ≤ h)) } }
  pageMod s1 devKey (fun p => { p with sticky := p.sticky &&& ~~~ m })

/-- The Tongs load registers take the records and the hottest row of the heat that ended (R238). -/
def rollTongs (s : State) : State :=
  let h := heatOf (now s) - 1
  let top (t : Tongs) : Nat × Nat × Nat := t.access.foldl (fun (a : Nat × Nat × Nat) x => if a.2.2 < x.2.2 then x else a) (0, 0, 0)
  let f (t : Tongs) : Tongs := { t with
    loadHeat := BitVec.ofNat 32 h, loadRecords := BitVec.ofNat 32 (Nat.min t.current (2 ^ 32 - 1)), current := 0, access := [], lastAccess := t.access
    hotTable := BitVec.ofNat 32 (top t).1, hotRow := BitVec.ofNat 64 (top t).2.1, hotCount := BitVec.ofNat 32 (top t).2.2 }
  let get (e : Nat) : Tongs := sparseGet Tongs.reset e s.eng.tongs
  let served := sumNat ((List.range 16).map (fun e => (get e).current))
  { s with eng := { s.eng with
      tongs := (List.range 16).foldl (fun l e => sparseSet Tongs.reset e (f (get e)) l) s.eng.tongs
      tongsHeats := (served :: s.eng.tongsHeats).take 8 } }

/-- Copies of other devices' plans that ended eight heats ago, and that every member has reported finished, are forgotten. (DEDUCED, unsafe: log entry 46.) -/
def pruneCopies (s : State) : State :=
  let old (j : Job) : Bool := jobTaker j.num != s.form.device && decide (j.members.length ≤ j.finished.length) &&
    j.endedAt.any (fun e => decide (heatOf e + 8 ≤ heatOf (now s)))
  { s with seq := { s.seq with jobs := s.seq.jobs.filter (fun j => !old j) } }

/-- Work of a heat boundary: group clears, recalibration, the Tongs loads, the heats of a fence (R313), and the heat's messages. -/
def heatWork (s : State) (e : EdgeInputs) : State :=
  let s1 := rollTongs (applyGroupClears (recalibrateAll s e.delays))
  let fenced := (unitGet s1 devKey).flags.fenced
  let ports := s1.links.ports.map (fun w => { w with badInHeat := [] })
  let s2 := { s1 with links := { s1.links with fencedHeats := if fenced then s1.links.fencedHeats + 1 else 0, ports := ports } }
  heatMessages (tellAhead (pruneCopies (sendReports s2)))

/-! ### Plan work (R47, R111, R125, R126) -/

/-- HEAD advances past a repeat's entries, unless it has passed them. -/
def headPast (s : State) (r : HeldEntries) : State :=
  let past (h : BitVec 32) : BitVec 32 :=
    let e := r.first + BitVec.ofNat 32 r.count
    if (e - h).toNat < 2 ^ 31 then e else h
  if r.ring < 4608 then qpMod s ((r.ring - 512) / 2048) ((r.ring - 512) % 2048) (fun q => { q with head := past q.head })
  else
    let g := sparseGet StreamRing.reset r.ring s.eng.rings
    { s with eng := { s.eng with rings := sparseSet StreamRing.reset r.ring { g with head := past g.head } s.eng.rings } }

/-- Ring entries of repeats that ended at or before the committed mark leave their rings (R263), those of a held partition's columns
apart (R370). -/
def releaseRings (s : State) (num : Word) (committed : Nat) : State :=
  match s.seq.jobs.find? (fun j => j.num == num) with
  | none => s
  | some j =>
    let kept (r : HeldEntries) : Bool := match s.quench.hold with
      | some h => h.partitions.any (fun p => uidDevice p.uid == s.form.device &&
          (covers (uidKey p.uid) (columnKey r.stack) || covers (columnKey r.stack) (uidKey p.uid)))
      | none => false
    let isDue (r : HeldEntries) : Bool := decide (r.stop ≤ committed) && !kept r
    let s1 := setJob s num (fun j => { j with ringHeld := j.ringHeld.filter (fun r => !isDue r) })
    (j.ringHeld.filter isDue).foldl headPast s1

/-- The commit of a heat-boundary run strike (R125). -/
def commitPlan (s : State) (j : Job) : State :=
  let c := checkpointAt j.plan (offsetNow s j)
  let s1 := setJob s j.num (fun j => { j with committed := c, commits := (now s, c) :: j.commits })
  releaseRings s1 j.num c

/-- Activities begin at an offset; none begins from the stop boundary on (R111, R127), nor on a unit whose partition a fault
has stopped (R370). -/
def startWork (s : State) (j : Job) : State :=
  let off := offsetNow s j
  let stopped := match j.stop with
    | some st => decide (st.boundary ≤ now s)
    | none => false
  if stopped then s
  else
    let blocked (a : Activity) : Bool := match s.quench.hold with
      | some h => h.partitions.any (fun p => uidDevice p.uid == s.form.device &&
          a.uids.any (fun x => covers (uidKey p.uid) (uidKey x)))
      | none => false
    let new := (startsAt s j off false).filter (fun a => !blocked a && (actOf j a.ref).isNone)
    let s1 := setJob s j.num (fun j => { j with acts := j.acts ++ new })
    new.foldl (fun t a => noteStart t j a) s1

/-- The PROGRESS mark of an offset: units whose earlier activities have finished write it (R126). -/
def markProgress (s : State) (j : Job) : State :=
  let off := offsetNow s j
  match (planMarks j.plan).find? (fun m => m.off == off && bit m.kind 1) with
  | none => s
  | some m =>
    let late := (j.acts.filter (fun a => decide (a.last < now s) && a.result.isNone)).flatMap (·.uids)
    let ks := (servingKeys s).filter (fun k => !late.contains (fullUid s k) && ownState s k == 2)
    forKeys s ks (fun t k => pageMod t k (fun p => { p with marker := BitVec.ofNat 32 m.value, progressHeat := BitVec.ofNat 32 (heatOf (now s)) }))

/-- A job whose activities have all ended ends in this strike: at LENGTH, or from its stop boundary on (R354). One that reaches its stop boundary
during a hold ends there, and the hold with it (R367). (DEDUCED, unsafe: log entry 47.) -/
def endIfDone (s : State) : State :=
  match runningJob s with
  | none => s
  | some j =>
    let stopped (t : State) : State := match j.stop with
      | some st => endJob t j.num st.status st.step j.endRecord j.endBlock
      | none => t
    let reached := j.stop.any (fun st => decide (st.boundary ≤ now s))
    if s.quench.hold.isSome && (recoverableJob s).isNone then abandonHold (if s.seq.kind == .run then s else stopped s)
    else if !j.acts.isEmpty then s
    else if s.seq.kind == .run && plLength j.plan ≤ offsetNow s j then
      abandonHold (if j.stop.isSome then stopped s else endJob s j.num 0x0000 0xFFFFFFFF 0xFFFFFFFF 0)
    else if reached then abandonHold (stopped s)
    else s

/-- At a checkpoint mark, what the flows that start here have not yet sent is kept for a replay (R378). -/
def markFlows (s : State) (j : Job) : State :=
  let off := offsetNow s j
  if off = 0 || (planMarks j.plan).any (fun m => m.off == off && bit m.kind 0) then
    let here (e : Nat × List Byte) : Bool := (flowAt j.plan (e.1 / 2 ^ 50)).src == j.pos
    setJob s j.num (fun j => { j with marks := (off, j.flowOut.filter here) :: j.marks })
  else s

/-- A run strike's work. -/
def runWork (s : State) : State :=
  match runningJob s with
  | none => s
  | some j =>
    let s1 := markFlows (if isBoundary (now s) then commitPlan s j else s) j
    markProgress (startWork s1 ((runningJob s1).getD j)) j

/-- The work of the strike that begins. -/
def planWork (s : State) : State :=
  let s1 := endIfDone s
  match s1.seq.kind with
  | .run => runWork s1
  | .hold => s1
  | .replay =>
    let s2 := replayWork s1
    match runningJob s2 with
    | some j => if s2.quench.phase == .sweep then sweepFrames s2 (workOffset s2 j) else s2
    | none => s2

/-! ### Comparators (R19, R124, R355) -/

/-- The deadline of comparator c that the strike evaluates: the value held at its start (R19); the step budget of a running plan is written
by the starts of its activities (R124). -/
def deadlineOf (s : State) (k c : Nat) : Word :=
  if c = 1 && (runningJob s).isSome then wd1Of s k else wdHeld (unitGet s k).page c

/-- In hold and replay strikes the comparators of owners 0 to 2 do not evaluate, but for the budget of a replayed activity. -/
def evaluates (s : State) (k c : Nat) : Bool :=
  let o := wdOwner (unitGet s k).page c
  s.seq.kind == .run || o == 3 || (c == 1 && s.seq.kind == .replay && (match runningJob s with
    | some j => j.acts.any (fun a => a.replay && a.result.isNone && a.uids.contains (fullUid s k) && decide (a.last ≤ now s))
    | none => false))

/-- A job stops by decision: the stop boundary counts from the strike after `h` (R127). (DEDUCED, unsafe: log entry 47.) -/
def stopJob (s : State) (num : Word) (st : Stop) : State :=
  setJob s num (fun j => if j.phase == .running then { j with stop := mergeStop j.stop st } else j)

/-- A queued job is removed with a status: it completes at once, START 0 (R354, R355). -/
def dropQueued (s : State) (p : Job → Bool) (status : BitVec 16) : State :=
  modJobs s (fun j => j.phase == .queued && p j) (fun j => { cancelJob s j (now s) status with endStep := 0xFFFFFFFF })

/-! ### Start of a plan (R112, R123, R354, R355) -/

/-- Ring distance in one dimension. -/
def ringDist (a b n : Nat) : Nat := Nat.min ((a + n - b) % n) ((b + n - a) % n)

/-- Hop count h from the accepting device to the farthest of a list (R52). -/
def hopsFrom (s : State) (a : Nat) (ds : List Nat) : Nat :=
  let (x, y, z) := coordOf s a
  maxNat (ds.map (fun d =>
    let (x', y', z') := coordOf s d
    ringDist x x' s.form.dx + ringDist y y' s.form.dy + ringDist z z' s.form.dz))

def hopsTo (s : State) (ds : List Nat) : Nat := hopsFrom s s.form.device ds

/-- Every job ahead of j in the order, here or on another member, was reported finished by every member in heat(B) − 2 or earlier. -/
def aheadFinished (s : State) (j : Job) : Bool :=
  s.seq.jobs.all (fun a => a.num == j.num || !jobBefore a j ||
    (a.phase == .ended && j.members.all (fun d => match a.members.findIdx? (· == d) with
      | none => true
      | some p => (match a.finished.find? (fun e => e.1 == p) with
        | some (_, h) => decide (h + 2 ≤ heatOf (now s))
        | none => a.startStrike == 0 && a.endedAt.isSome)))) &&
  j.ahead.all (fun e => e.2.all (fun x => decide (x.2 ≠ 0 ∧ x.2 + 2 ≤ heatOf (now s))))

/-- The conditions on B. -/
def mayStart (s : State) (j : Job) : Bool :=
  isBoundary (now s) && decide (plStart j.plan ≤ now s) && decide (j.accepted + 16 + 2 * hopsFrom s (jobTaker j.num) j.members ≤ now s) &&
  (runningJob s).isNone && aheadFinished s j

/-- The job at the head of the queue. -/
def firstQueued (s : State) : Option Job :=
  (queuedJobs s).foldl (fun acc j => match acc with
    | none => some j
    | some a => if jobBefore j a then some j else some a) none

/-- OWN_STATE of a STATE word is RESET, RECOVERING or FENCED (R18, R25). -/
def awayState (w : Word) : Bool := let o := w.toNat / 256 % 16; o == 0 || o == 4 || o == 5

/-- Status with which the job ends at B without running, if any. (DEDUCED, unsafe: log entry 45.) (DEDUCED, unsafe: log entry 108.) -/
def startStatus (s : State) (j : Job) : Option (BitVec 16) :=
  let remote := (j.members.filter (· != s.form.device)).filterMap (reflectedGet s)
  if (unitGet s devKey).page.active.toNat != plReqEpoch j.plan ||
      s.units.pages.any (fun e => decide (keyLevel e.1 ≤ 4) && !isOffline s e.1 && e.2.page.active.toNat != plReqEpoch j.plan) then some 0x0203
  else if remote.any (fun r => r.active.toNat != plReqEpoch j.plan) then some 0x0203
  else if isFenced s devKey || ownState s devKey == 4 || ownState s devKey == 0 || remote.any (fun r => r.fenced || awayState r.state) ||
      j.members.any (fun d => d != s.form.device && (routePort s d).isNone) then some 0x0601
  else if param s 0x10 = 1 && j.deadline != 0 && decide (j.deadline < now s) then some 0x0500
  else none

/-- Progress checks of a plan start afresh. -/
def clearMisses (s : State) : State :=
  forKeys s (s.units.pages.map (·.1)) (fun t k => flagsMod t k (fun f => { f with misses := 0, lastExpected := 0 }))

/-! ### Stop and end (R127, R354) -/

/-- R127: the stop boundary has come: no activity starts from here on, and a job without activities ends. -/
def execPlanStop (s : State) : Host.Outcome State Fault Refusal :=
  .next (endIfDone s)

/-- A stop announced by a member (R127). -/
def hearPlanEnd (s : State) (job : Word) (status : BitVec 16) (step endStrike : Nat) : State :=
  stopJob s job { boundary := (heatOf (endStrike + 1) + 2) * 4096, status := status, step := BitVec.ofNat 32 step }

/-- R127. -/
def execPlanEndAnnounceReceive (job : Word) (status : BitVec 16) (step endStrike : Nat) (s : State) : Host.Outcome State Fault Refusal :=
  .next (hearPlanEnd s job status step endStrike)

/-- A member's end report reaches the taking Warden (R354). -/
def hearJobEnd (s : State) (job : Word) (member : Nat) (r : EndReport) : State :=
  if jobTaker job = s.form.device then
    modJobs s (fun j => j.num == job && !j.completed && decide (member < j.members.length)) (fun j => holdReport j member r (now s))
  else s

/-- R354. -/
def execJobEndReport (job : Word) (member : Nat) (report : EndReport) (s : State) : Host.Outcome State Fault Refusal :=
  .next (hearJobEnd s job member report)

/-- Sum of two reports of one step. -/
def addReport (a b : StepReport) : StepReport :=
  { a with elems := (a.elems + b.elems) % 2 ^ 64, saturated := (a.saturated + b.saturated) % 2 ^ 64, nans := (a.nans + b.nans) % 2 ^ 64,
           special := (a.special + b.special) % 2 ^ 64, words := combineWords a.words b.words }

/-- The group's record of each recorded step: sums over the members' reports (R128, R354). -/
def summedRecords (j : Job) : List StepReport :=
  (planSteps j.plan).filterMap (fun st =>
    if !stepRecords st then none
    else
      let rs := j.reports.filterMap (fun e => e.2.records.find? (fun r => r.step == st.index))
      match rs with
      | [] => none
      | r :: rest => some (rest.foldl addReport r))

/-- The counting fields and operator words of a step completion record, from offset 0x08. -/
def recordTail (r : StepReport) : List Byte :=
  leBytes 8 r.elems ++ leBytes 8 r.saturated ++ leBytes 8 r.nans ++ leBytes 8 r.special ++ r.words.flatMap (leBytes 8)

/-- The taking Warden overwrites its own records with the sums. -/
def writeSums (s : State) (j : Job) : State :=
  (summedRecords j).foldl (fun t r => memWrite t (plResultBase j.plan + 64 * r.step + 8) (recordTail r)) s

/-- The outcome of the group: of the reports not OK the one with the earliest stop boundary, and of those that share it the lowest step (R127). (DEDUCED, unsafe: log entry 46.) -/
def groupOutcome (j : Job) : EndReport :=
  let bad := (ownReport j :: j.reports.map (·.2)).filter (fun r => r.status != 0)
  let before (a b : EndReport) : Bool := decide (a.boundary < b.boundary ∨ (a.boundary = b.boundary ∧ a.step.toNat < b.step.toNat))
  (bad.foldl (fun acc r => match acc with
    | none => some r
    | some a => if before r a then some r else some a) none).getD (ownReport j)

/-- Body of a job's completion (R354). -/
def completionBody (j : Job) : List Byte :=
  let o := groupOutcome j
  leBytes 8 j.num.toNat ++ leBytes 4 o.step.toNat ++ leBytes 4 o.record.toNat ++ leBytes 4 o.block.toNat ++ leBytes 4 0 ++
    leBytes 8 j.startStrike ++ leBytes 8 j.endOffset ++ leBytes 8 j.committed ++ leBytes 8 j.holdStrikes

/-- The strike before this one held every report; a job removed from the queue needs none. (DEDUCED, unsafe: log entry 46.) -/
def reportsComplete (s : State) (j : Job) : Bool :=
  j.startStrike == 0 || decide (j.reportAt < now s) && (List.range j.members.length).all (fun p => j.reports.any (fun e => e.1 == p))

/-- The taking Warden posts the completion of an ended job; the 256 jobs last ended stay known to VMP_OP_STATUS. (DEDUCED, unsafe: log entry 46.) -/
def finishJob (s : State) (j : Job) : State :=
  let s1 := if j.startStrike = 0 then s else writeSums s j
  let s2 := setJob s1 j.num (fun j => { j with completed := true })
  let ended := sortBy (fun a b => decide (a.endedAt.getD 0 < b.endedAt.getD 0)) (s2.seq.jobs.filter (fun j => j.phase == .ended && j.completed))
  let drop := (ended.take (ended.length - 256)).map (·.num)
  let s3 := { s2 with seq := { s2.seq with jobs := s2.seq.jobs.filter (fun j => !drop.contains j.num) } }
  complete (deadlineComparators s3) j.client j.tag j.pair (groupOutcome j).status (completionBody j)

/-- R354. -/
def execJobComplete (job : Word) (s : State) : Host.Outcome State Fault Refusal :=
  .next (match s.seq.jobs.find? (fun j => j.num == job && j.phase == .ended && !j.completed) with
    | none => s
    | some j => if jobTaker job = s.form.device && reportsComplete s j then finishJob s j else s)

/-- A queued job that is removed completes in the strike of its removal (R354). -/
def completeRemoved (s : State) : State :=
  (s.seq.jobs.filter (fun j => j.phase == .ended && !j.completed && j.startStrike == 0 && jobTaker j.num == s.form.device)).foldl finishJob s

/-! ### A comparator fires (R19, R355) -/

/-- What the owner of a comparator does when it fires. -/
def ownerActs (s : State) (uid : Uid) (k c : Nat) : State :=
  match wdOwner (unitGet s k).page c with
  | 1 =>
    match runningJob s with
    | some _ => detectFault (stickySet s k 16) 16 uid none []
    | none => s
  | 2 =>
    if c = 2 then
      match runningJob s with
      | some j => stopJob s j.num { boundary := (heatOf (now s + 1) + 2) * 4096, status := 0x0500, step := 0xFFFFFFFF }
      | none => s
    else completeRemoved (dropQueued s (fun j => j.deadline != 0 && decide (j.deadline ≤ now s)) 0x0500)
  | _ => s

/-- A comparator acts once for a deadline: it is armed since the deadline was written, or guards an activity whose last strike this is. -/
def mayFire (s : State) (k c : Nat) : Bool :=
  wdArmed (unitGet s k).page c || (c == 1 && (runningJob s).isSome && (deadlineOf s k c).toNat == now s)

/-- R19: at the end of the deadline strike FIRED is set and the owner acts. (DESIGN CHOICE, safe: log entry 2.) -/
def execComparatorFire (uid : Uid) (c : Nat) (s : State) : Host.Outcome State Fault Refusal :=
  let k := uidKey uid
  .next (if uidDevice uid == s.form.device && keyLevel uid.toNat ≤ 4 && c < 4 && !isOffline s k && wdEn (unitGet s k).page c &&
      evaluates s k c && deadlineOf s k c != neverWord && (deadlineOf s k c).toNat ≤ now s && mayFire s k c then
    ownerActs (pageMod s k (fun p => wdFire p c)) uid k c
  else s)

/-! ### Request deadlines (R50, R51, R263) -/

/-- TIMEOUT codes and the ring-short stop of a stream. -/
def streamStop (s : State) (j : Job) (r : Nat) (rep : Nat) (status : BitVec 16) (block : Nat) : State :=
  let h := streamHdr j.plan j.pos r
  let last := now s + (strStart h rep + strBudget h - 1 - offsetNow s j)
  let st : Stop := { boundary := (heatOf (last + 1) + 2) * 4096, status := status, step := 0xFFFFFFFF }
  let s1 := stopJob s j.num st
  let s2 := setJob s1 j.num (fun j => if j.stop = some st then { j with endRecord := BitVec.ofNat 32 r, endBlock := BitVec.ofNat 32 block } else j)
  sendTo s2 j.members 3 (.planEnd j.num status 0xFFFFFFFF last)

end Sys2Proof.Machine
end

