-- ==== Sys2Proof/Machine/VmpConfig.lean ====
section
/-!
DEFINITION. Configuration commands, commits and what applies at their strike (R52 to R55, R128, R290, R330, R357 to R361, R400,
R424).
-/
namespace Sys2Proof.Machine

/-! ### Group commands (R350) -/

/-- The first refusing status in group order: `remote` lists the other members' answers, this member's own stands at its
place. -/
def groupStatus (s : State) (target : Uid) (own : BitVec 16) (remote : List (BitVec 16)) : BitVec 16 :=
  if keyLevel target.toNat = 5 then
    let p := groupPos s target
    ((remote.take p ++ own :: remote.drop p).find? (· != 0)).getD 0
  else own

/-- The answer of a group command, with the body of the first member that refuses (R350). -/
def groupAnswer (s : State) (target : Uid) (own : MemberAnswer) (remote : List MemberAnswer) : MemberAnswer :=
  if keyLevel target.toNat = 5 then
    let p := groupPos s target
    ((remote.take p ++ own :: remote.drop p).find? (fun a => a.1 != 0)).getD (0, own.2)
  else own

/-- Members of a target other than this device. (DEDUCED, safe: log entry 23.) -/
def otherMembers (s : State) (target : Uid) : List Nat := (groupMembers s target).filter (· != s.form.device)

/-- Answer a request that changes something: when every member agrees the effect happens, otherwise nothing changes. (DEDUCED, safe: log entry 23.) -/
def answerGroup (s : State) (k : Nat) (m : List Byte) (own : BitVec 16) (remote : List (BitVec 16)) (body : List Byte)
    (effect : State → State) : State :=
  let st := groupStatus s (msgTarget m) own remote
  if st != 0 then respond s k m st body else respond (effect s) k m 0x0000 body

/-! ### Staging and validation (R357, R358) -/

def stagedFor (s : State) (e : Nat) : Option Staged := s.cfg.staging.find? (fun x => x.epoch.toNat == e)

/-- First eight bytes of a digest. -/
def digest8 (r : List Byte) : List Byte := (digestBytes (sha384 r)).take 8

/-- (DESIGN CHOICE, unsafe: log entry 22.) -/
def serveCfgStage (k : Nat) (s : State) (m : List Byte) : State :=
  let b := msgBody m
  withRef s k m (fieldN b 0 8) (fieldN b 8 4) (fun s r =>
    let e := recEpoch r
    let other := s.cfg.staging.any (fun x => x.epoch.toNat == e && x.client != msgClient m)
    let rest := s.cfg.staging.filter (fun x => !(x.epoch.toNat == e && x.client == msgClient m))
    if !(recFormatOk r (fieldN b 8 4) && recTarget r == msgTarget m) then respond s k m 0x0200 []
    else if other then respond s k m 0x0203 []
    else if 8 ≤ rest.length then respond s k m 0x0200 []
    else
      let st : Staged := { client := msgClient m, target := msgTarget m, epoch := BitVec.ofNat 32 e, record := r, validated := false }
      respond { s with cfg := { s.cfg with staging := rest ++ [st] } } k m 0x0000 (leBytes 4 e ++ leBytes 4 0 ++ digest8 r))

/-- R357. -/
def execVmpCfgStage (pair : Nat) (s : State) : Host.Outcome State Fault Refusal := .next (takeRequest s pair 0x10 (serveCfgStage pair))

/-- The staged set a validate or commit names: CFG_EPOCH when another client staged it, CFG_INVALID when it is not staged for
this target. -/
def stagedCheck (s : State) (m : List Byte) (e : Nat) : Except (BitVec 16) Staged :=
  match stagedFor s e with
  | none => .error 0x0200
  | some st => if st.client != msgClient m then .error 0x0203 else if st.target != msgTarget m then .error 0x0200 else .ok st

/-- Sticky bits of a failed validation: CFG_REJECT, and AUTH_FAIL for a refused signature (R358, R363). -/
def rejectSticky (s : State) (target : Uid) (st : BitVec 16) : State :=
  let k := if keyLevel target.toNat = 5 then devKey else uidKey target
  let s1 := stickySet s k 6
  if st = 0x0700 then stickySet s1 k 18 else s1

def markValidated (s : State) (st : Staged) : State :=
  { s with cfg := { s.cfg with staging := s.cfg.staging.map (fun x => if x == st then { x with validated := true } else x) } }

def serveCfgValidate (k : Nat) (remote : List MemberAnswer) (s : State) (m : List Byte) : State :=
  match stagedCheck s m (fieldN (msgBody m) 0 4) with
  | .error st => respond s k m st []
  | .ok st =>
    let own := validate s st.target st.record false
    let s1 := if own.1 = 0 then s else rejectSticky s st.target own.1
    let (v, body) := groupAnswer s st.target own remote
    if v = 0 then respond (markValidated s1 st) k m 0x0000 [] else respond s1 k m v body

/-- R358. -/
def execVmpCfgValidate (ask : PairAnswers) (s : State) : Host.Outcome State Fault Refusal :=
  .next (takeRequest s ask.pair 0x11 (serveCfgValidate ask.pair ask.remote))

/-! ### Commits (R52, R359, R360) -/

/-- Earliest strike a commit may name when accepted now (R52). -/
def commitLead (s : State) (target : Uid) : Nat :=
  now s + 16 + (if keyLevel target.toNat = 5 then 2 * hopsTo s (groupMembers s target) else 0)

/-- (DEDUCED, unsafe: log entry 24.) -/
def anyPending (s : State) (target : Uid) : Bool := (targetKeys s target).any (fun k => (unitGet s k).page.pendEpoch != 0)

/-- A unit can take a pending change unless it is in reset, recovering, or fenced without a readmission. (DEDUCED, unsafe: log entry 24.) -/
def canPend (s : State) (k : Nat) (readmit : Bool) : Bool :=
  let o := ownState s k
  !(o == 0 || o == 4 || (o == 5 && !readmit))

/-- Epoch a revert brings a unit to. (DEDUCED, unsafe: log entry 26.) -/
def previousEpoch (s : State) (k : Nat) : BitVec 32 := (unitGet s k).page.previous

/-- Write the pending registers of the target units that can accept the change. (DEDUCED, unsafe: log entry 26.) -/
def writePending (s : State) (target : Uid) (epoch : BitVec 32) (strike : Nat) (revert readmit : Bool) : State :=
  let ks := if readmit then [uidKey target] else targetKeys s target
  forKeys s (ks.filter (fun k => canPend s k readmit)) (fun t k =>
    pageMod t k (fun p => { p with pendEpoch := if revert then previousEpoch s k else epoch, pendStrike := BitVec.ofNat 64 strike,
                                   pendRevert := revert, pendReadmit := readmit }))

/-- Devices of the jobs that have not ended. -/
def jobDevices (s : State) : List Nat := dedupNat ((s.seq.jobs.filter (fun j => j.phase != .ended)).flatMap (·.members))

/-- Members hear of the commits and reverts pending here (R128). -/
def tellChanges (s : State) (ds : List Nat) : State :=
  (s.cfg.pending.filter (fun c => !c.readmit && !c.applied)).foldl (fun t c => sendTo t ds 2 (.unitChange c.strike c.targets)) s

/-- The routing section that a change brings to the device unit: the record's, or for a revert that of the set before. -/
def pendingRoute (s : State) (c : PendingCommit) : List (BitVec 32) :=
  if !(c.targets.filter (targetLocal s)).any (fun u => (targetKeys s u).contains devKey) then []
  else if c.revert then (((sparseGet [] devKey s.cfg.sets).drop 1).head?.map (·.route)).getD []
  else recRoute c.record

/-- A change is pending: its targets' registers, the routing section in the pending bank (R330), and the members of jobs hear of it (R128). -/
def pushPending (s : State) (c : PendingCommit) : State :=
  let t := c.targets.foldl (fun t u => writePending t u c.epoch c.strike c.revert c.readmit) (loadPending s (pendingRoute s c))
  let u := { t with cfg := { t.cfg with pending := t.cfg.pending ++ [c] } }
  if c.readmit then u else sendTo u (jobDevices u) 2 (.unitChange c.strike c.targets)

/-- Accept a commit or revert: pending registers, the copies to other Wardens, ACCEPTED. -/
def acceptCommit (s : State) (k : Nat) (m : List Byte) (epoch : BitVec 32) (strike : Nat) (revert : Bool) (r : List Byte) : State :=
  let c : PendingCommit := { targets := [msgTarget m], epoch := epoch, strike := strike, revert := revert, readmit := false, routing := false,
                             record := r, owner := some (msgClient m, k, msgTag m), fencedUnits := [], applied := false }
  let f : ForwardedCommit := { targets := [msgTarget m], epoch := epoch, strike := strike, revert := revert, readmit := false, record := r
                               sender := some (now s, (unitGet s devKey).page.active) }
  let s1 := sendTo (pushPending s c) (otherMembers s (msgTarget m)) 2 (.commit f)
  respondAccepted s1 k m []

def serveCfgCommit (k : Nat) (remote : List MemberAnswer) (s : State) (m : List Byte) : State :=
  let e := fieldN (msgBody m) 0 4
  let strike := fieldN (msgBody m) 8 8
  match stagedCheck s m e with
  | .error st => respond s k m st []
  | .ok st =>
    let (v, body) := validate s st.target st.record false
    if !st.validated then respond s k m 0x0200 []
    else if v != 0 then respond (rejectSticky s st.target v) k m v body
    else
      let own : BitVec 16 := if anyPending s st.target then 0x0203 else if strike < commitLead s st.target then 0x0200 else 0
      let g := groupAnswer s st.target (own, []) remote
      if g.1 != 0 then respond s k m g.1 g.2 else acceptCommit s k m (BitVec.ofNat 32 e) strike false st.record

/-- R359. -/
def execVmpCfgCommit (pair : Nat) (remote : List MemberAnswer) (s : State) : Host.Outcome State Fault Refusal :=
  .next (takeRequest s pair 0x12 (serveCfgCommit pair remote))

def serveCfgRevert (k : Nat) (remote : List (BitVec 16)) (s : State) (m : List Byte) : State :=
  let strike := fieldN (msgBody m) 0 8
  let target := msgTarget m
  let top := if keyLevel target.toNat = 5 then devKey else uidKey target
  let own : BitVec 16 := if (targetKeys s target).any (fun x => !hasPrevious s x) then 0x0202
    else if anyPending s target then 0x0203 else if strike < commitLead s target then 0x0200 else 0
  let g := groupStatus s target own remote
  if g != 0 then respond s k m g [] else acceptCommit s k m (previousEpoch s top) strike true []

/-- R360. -/
def execVmpCfgRevert (pair : Nat) (remote : List (BitVec 16)) (s : State) : Host.Outcome State Fault Refusal :=
  .next (takeRequest s pair 0x13 (serveCfgRevert pair remote))

/-- A unit misses a change (R53): in reset or recovery it fences at its release, else now. A readmission that is pending on it stays. -/
def missUnit (s : State) (k : Nat) (epoch : BitVec 32) : State :=
  let o := ownState s k
  let s1 := pageMod s k (fun p => if p.pendReadmit then p
    else { p with pendEpoch := 0, pendStrike := neverWord, pendRevert := false, pendReadmit := false })
  let s2 := if o = 0 ∨ o = 4 then flagsMod s1 k (fun f => { f with missed := true }) else fenceUnit s1 k
  if k = devKey then flagsMod s2 k (fun f => { f with refEpoch := epoch }) else s2

/-- Readmission commits of a unit that have not applied. -/
def readmits (s : State) (k : Nat) (c : PendingCommit) : Bool := c.readmit && !c.applied && c.targets.contains (fullUid s k)

/-- The Warden's readmission commit of a unit that missed a change: issued in the next strike at the lead of R52. A unit in reset waits for its
release, one with a readmission under way for that one; a unit that already runs the epoch which a revert restores needs none (R55). (DEDUCED, unsafe: log entry 93.) -/
def readmissionCommit (s : State) (k : Nat) (epoch : BitVec 32) (revert : Bool) (r : List Byte) : State :=
  let u := unitGet s k
  if revert && u.page.active == epoch then
    let s1 := pageMod s k (fun p => if p.pendReadmit then { p with pendEpoch := 0, pendStrike := neverWord, pendRevert := false, pendReadmit := false } else p)
    { s1 with cfg := { s1.cfg with pending := s1.cfg.pending.filter (fun c => !readmits s k c) } }
  else
    let waits := u.flags.missed || u.page.pendReadmit
    let c : PendingCommit := { targets := [fullUid s k], epoch := epoch, strike := if waits then 0 else now s + 17, revert := revert, readmit := true,
                               routing := false, record := r, owner := none, fencedUnits := [], applied := false }
    if waits then { s with cfg := { s.cfg with pending := s.cfg.pending ++ [c] } } else pushPending s c

/-- Waiting readmission commits are issued, one at a time for a unit, oldest first (R53, R55). (DEDUCED, unsafe: log entry 93.) -/
def issueReadmissions (s : State) : State :=
  (s.cfg.pending.filter (fun c => c.readmit && c.strike == 0)).foldl (fun t c =>
    if c.targets.all (fun u => let k := uidKey u
        (unitGet t k).flags.fenced && !(unitGet t k).page.pendReadmit && !anyFlag t k (fun f => f.recovering || f.resetting)) then
      pushPending { t with cfg := { t.cfg with pending := t.cfg.pending.filter (· != c) } } { c with strike := now s + 16 }
    else t) s

/-- A forwarded commit carries an epoch that this device did not hold in the strike of sending (R54); the formation's and the overrides' (R408,
R330) are sent before the epochs agree and are not judged. -/
def commitRefused (s : State) (c : ForwardedCommit) : Option (BitVec 32) :=
  match c.sender with
  | some (t, e) => if !c.readmit && e != epochAt s t then some e else none
  | none => none

/-- A forwarded commit (R52, R53) from another device. A copy that arrives after cycle 0 of S counts as never received: its targets miss it. -/
def hearCommit (s : State) (src : Option Nat) (c : ForwardedCommit) : State :=
  let local' := c.targets.filter (targetLocal s)
  if local'.isEmpty then s
  else match commitRefused s c with
  | some e => epochRefused s e.toNat
  | none =>
  if c.strike ≤ now s then
    if c.readmit then s
    else
      let missed := local'.flatMap (targetKeys s)
      let t := missed.foldl (fun t k => readmissionCommit (missUnit t k c.epoch) k c.epoch c.revert c.record) s
      sendTo t src.toList 2 (.commitDone c.epoch c.strike (missed.map (fullUid s)))
  else if local'.any (anyPending s) then s
  else pushPending s { targets := local', epoch := c.epoch, strike := c.strike, revert := c.revert, readmit := c.readmit, routing := false,
                       record := c.record, owner := none, fencedUnits := [], applied := false, source := src }

/-- R52. (DEDUCED, safe: log entry 23.) -/
def execForwardedCommitReceive (c : ForwardedCommit) (s : State) : Host.Outcome State Fault Refusal := .next (hearCommit s none c)

/-! ### The apply strike (R53, R128, R290, R330, R424) -/

/-- Whether unit k applies the change at its strike: judged by its own state, with the change pending on it (R53). -/
def unitApplies (s : State) (c : PendingCommit) (k : Nat) : Bool :=
  let o := ownState s k
  let p := (unitGet s k).page
  !(o == 0 || o == 4 || o == 6 || (o == 5 && !c.readmit)) && p.pendStrike.toNat == c.strike && p.pendRevert == c.revert

/-- Apply the change to unit k. -/
def applyUnit (s : State) (c : PendingCommit) (k : Nat) : State :=
  let s1 := pageMod s k (fun p => { p with pendEpoch := 0, pendStrike := neverWord, pendRevert := false, pendReadmit := false })
  let s2 := if c.revert then (if (unitGet s k).page.active == c.epoch then s1 else popSet s1 k) else pushSet s1 k (composeSet c.record (activeSet s1 k))
  loadUnitCfg s2 k

/-- A changed NEAR_INTERLEAVE makes every near-tier line invalid (R290). -/
def dropNear (s : State) : State :=
  noteCleared { s with mem := { s.mem with
      cells := s.mem.cells.filter (fun c => decide (2 ^ 40 ≤ c.1))
      synd := s.mem.synd.filter (fun e => decide (2 ^ 40 ≤ e.1 * 8))
      injected := s.mem.injected.filter (fun w => decide (2 ^ 40 ≤ w)) } } 0 (2 ^ 40) none

/-- What the device as a whole does when the change applies to the device unit. (DEDUCED, unsafe: log entry 84.) -/
def applyDevice (s : State) (before : ConfigSet) (c : PendingCommit) : State :=
  let act := activeSet s devKey
  let s1 := if setParam s before 1 0 != setParam s act 1 0 then dropNear s else s
  let s2 := deadlineComparators (leaseComparator (loadDeviceCfg s1))
  let on := { s2 with cfg := { s2.cfg with cacheOff := false } }
  let s2 := if s2.cfg.cacheOff && (nearConflict on act).isNone then on else s2
  let s3 := if act.route.isEmpty || (recRouteBytes c.record == 0 && !c.revert) then s2 else loadRouting s2 act.route act.epoch
  let s3 := { s3 with form := { s3.form with formationCommitted := s3.form.formationCommitted || (!c.revert && recRouteBytes c.record != 0) } }
  let s4 := measure s3 3 (sha384 (setRecord act (fullUid s3 devKey)))
  if c.readmit then s4 else { s4 with therm := { s4.therm with arrayRate := s4.therm.pendingRate } }

/-- A change that applies to any unit in service ends the running plan (R128), before a checkpoint of the same strike commits (R49). -/
def endByCommit (s : State) : State :=
  match runningJob s with
  | none => s
  | some j =>
    abandonHold (endJob s j.num 0x0203 0xFFFFFFFF 0xFFFFFFFF 0)

def applyCommit (s : State) (c : PendingCommit) : State :=
  let keys := (c.targets.filter (targetLocal s)).flatMap (fun u => if c.readmit then [uidKey u] else targetKeys s u)
  let yes := keys.filter (unitApplies s c)
  let no := keys.filter (fun k => !unitApplies s c k)
  let before := activeSet s devKey
  let s1 := yes.foldl (fun t k => applyUnit t c k) s
  let s2 := no.foldl (fun t k => if c.readmit then t else readmissionCommit (missUnit t k c.epoch) k c.epoch c.revert c.record) s1
  let s3 := if yes.contains devKey then applyDevice s2 before c else s2
  let s4 := if !c.readmit && !yes.isEmpty then endByCommit s3 else s3
  let done : PendingCommit := { c with applied := true, fencedUnits := no.map (fullUid s) }
  let s4 := sendTo s4 c.source.toList 2 (.commitDone c.epoch c.strike done.fencedUnits)
  { s4 with cfg := { s4.cfg with
      pending := s4.cfg.pending.map (fun x => if x == c then done else x)
      staging := s4.cfg.staging.filter (fun st => !(c.targets.contains st.target && st.epoch == c.epoch && !c.revert)) } }

/-- Every change named for this strike takes effect, or leaves its unit fenced (R53). -/
def applyDue (s : State) : State :=
  (s.cfg.pending.filter (fun c => !c.applied && c.strike != 0 && decide (c.strike ≤ now s))).foldl applyCommit s

/-- A change pending on another member applies to none of its units there: the device is replaying with the whole plan, is in reset, recovering or
fenced as its page shows it, or a partition of the hold that holds the targets is not restored (R53). -/
def changeVoid (s : State) (c : Nat × Nat × List Uid) : Bool :=
  let open' (u : Uid) : Bool := match s.quench.hold with
    | some h => h.holding && h.partitions.any (fun p => p.restored.isNone && decide (p.raised < now s) && partitionCovers p.uid u)
    | none => false
  s.seq.kind == .replay || (reflectedGet s c.1).any (fun r => r.fenced || awayState r.state) ||
    (!c.2.2.isEmpty && c.2.2.all (fun u => open' (if keyLevel u.toNat = 5 then deviceUid c.1 else u)))

/-- A change on another member ends the plan here at the same strike (R128), if it applies to a unit there. -/
def endByMember (s : State) : State :=
  let due := s.cfg.memberChanges.filter (fun c => decide (c.2.1 ≤ now s))
  let s1 := { s with cfg := { s.cfg with memberChanges := s.cfg.memberChanges.filter (fun c => decide (now s < c.2.1)) } }
  match runningJob s with
  | some j => if due.any (fun c => j.members.contains c.1 && !changeVoid s c) then endByCommit s1 else s1
  | none => s1

/-- R53, order 2 of R49. -/
def execConfigApply (s : State) : Host.Outcome State Fault Refusal := .next (applyDue s)

/-- The members of a change's targets that have not reported yet which of their units applied it. (DEDUCED, unsafe: log entry 25.) -/
def unheard (s : State) (c : PendingCommit) : List Nat :=
  (dedupNat (c.targets.flatMap (otherMembers s))).filter (fun d => !c.answers.any (fun a => a.1 == d))

/-- Another member reports which of its target units did not apply a change (R359). (DEDUCED, unsafe: log entry 25.) -/
def hearCommitDone (s : State) (src : Nat) (epoch : BitVec 32) (strike : Nat) (missed : List Uid) : State :=
  { s with cfg := { s.cfg with pending := s.cfg.pending.map (fun c =>
      if c.epoch == epoch && c.strike == strike && c.owner.isSome && !c.answers.any (fun a => a.1 == src) then
        { c with answers := c.answers ++ [(src, missed)] } else c) } }

/-- The completion of a change is due: its strike has passed and every member has reported; a member that has not within 2 heats counts with its
device unit. (DEDUCED, unsafe: log entry 25.) -/
def commitSettled (s : State) (c : PendingCommit) : Bool :=
  c.applied && decide (c.strike < now s) && (c.owner.isNone || (unheard s c).isEmpty || decide (c.strike + 8192 ≤ now s))

/-- Completions of commits whose strike has passed (R359). (DEDUCED, unsafe: log entry 25.) -/
def postCommits (s : State) : State :=
  let due := s.cfg.pending.filter (commitSettled s)
  let s1 := { s with cfg := { s.cfg with pending := s.cfg.pending.filter (fun c => !commitSettled s c) } }
  due.foldl (fun t c => match c.owner with
    | none => t
    | some (cl, k, tag) =>
      let f := c.fencedUnits ++ c.answers.flatMap (·.2) ++ (unheard t c).map deviceUid
      match minNat? (f.map (·.toNat)) with
      | none => complete t cl tag k 0x0000 []
      | some u => complete t cl tag k 0x0601 (leBytes 4 f.length ++ leBytes 4 u)) s1

/-- R359: by S + 2 heats the composed sets of an epoch are signed with the device key and written to flash. Completions due are
posted. -/
def execConfigFlashWrite (epoch : BitVec 32) (s : State) : Host.Outcome State Fault Refusal :=
  let s0 := postCommits s
  let due := s0.cfg.sets.filter (fun e => e.2.any (fun c => c.epoch == epoch && !c.inFlash))
  .next (due.foldl (fun t e =>
    match e.2.find? (fun c => c.epoch == epoch && !c.inFlash) with
    | none => t
    | some c =>
      let body := setRecord c (fullUid t e.1)
      let (t1, sig) := cseSign t (sha384 body)
      let h := e.2.map (fun x => if x == c then { x with deviceSig := sig, inFlash := true } else x)
      { t1 with cfg := { t1.cfg with sets := sparseSet [] e.1 h t1.cfg.sets } }) s0)

/-- The reference epoch of a device unit (R55): the later of the epoch it missed last and the one of a refused transfer. -/
def refEpochOf (f : UnitFlags) : BitVec 32 := if f.refEpoch.toNat < f.refSeen.toNat then f.refSeen else f.refEpoch

/-- R55: at a heat boundary a fenced unit whose epoch equals its parent's (a device: its reference epoch) is readmitted. A slipped
device waits for its relock. -/
def execReadmission (uid : Uid) (s : State) : Host.Outcome State Fault Refusal :=
  let k := uidKey uid
  let u := unitGet s k
  let want : Option (BitVec 32) := match parentKey k with
    | some p => some (unitGet s p).page.active
    | none => if refEpochOf u.flags = 0 then none else some (refEpochOf u.flags)
  .next (if uidDevice uid == s.form.device && keyLevel uid.toNat ≤ 4 && u.flags.fenced && isBoundary (now s) && want == some u.page.active &&
      !(k == devKey && (s.tb.lock == .slipped || !s.form.listed || s.ident.failed)) then
    flagsMod s k (fun f => { f with fenced := false, missed := false, refEpoch := 0, refSeen := 0 })
  else s)

/-! ### Reading a set (R361) -/

/-- The set a read selects. -/
def selectSet (s : State) (k sel idx e : Nat) : Option ConfigSet :=
  let h := sparseGet [] k s.cfg.sets
  match sel with
  | 0 => some (activeSet s k)
  | 1 => (h.drop 1).head?
  | 2 => (stagedFor s e).map (fun st => composeSet st.record (activeSet s k))
  | 3 => if idx < 8 then h[idx]? else none
  | _ => none

def serveCfgRead (k : Nat) (s : State) (m : List Byte) : State :=
  let b := msgBody m
  let dest := fieldN b 8 8
  let n := fieldN b 0x10 4
  let key := if keyLevel (msgTarget m).toNat = 5 then devKey else uidKey (msgTarget m)
  match selectSet s key (byteAt b 0) (byteAt b 1) (fieldN b 4 4) with
  | none => respond s k m 0x0200 []
  | some c =>
    let body := setRecord c (msgTarget m)
    let (s1, sig) := if c.deviceSig.isEmpty then cseSign s (sha384 body) else (s, c.deviceSig)
    let out := body ++ sig
    if n < out.length || !rangeOk s isTier dest n then respond s k m 0x0102 []
    else respond (memWrite s1 dest out) k m 0x0000 (leBytes 4 out.length ++ leBytes 4 c.epoch.toNat)

/-- R361. -/
def execVmpCfgRead (pair : Nat) (s : State) : Host.Outcome State Fault Refusal := .next (takeRequest s pair 0x14 (serveCfgRead pair))

end Sys2Proof.Machine
end

