-- ==== Sys2Proof/Machine/VmpOps.lean ====
section
/-!
DEFINITION. Operation, error, recovery, attestation, firmware, time and topology commands of the mailbox protocol (R304, R353 to
R356, R393, R394, R401).
-/
namespace Sys2Proof.Machine

/-! ### Jobs (R354, R355) -/

/-- A live job the client may act on: one that it submitted here, or any for the CMC on pair 0. -/
def touchable (s : State) (k : Nat) (m : List Byte) (num : Word) : Option Job :=
  s.seq.jobs.find? (fun j => j.num == num && j.phase != .ended && (k == 0 || (ownJob s j && j.client == msgClient m)))

def jobArg (m : List Byte) : Word := BitVec.ofNat 64 (fieldN (msgBody m) 0 8)

/-- Cancel a job here: a queued one is removed, a running one stops under R127 from the strike after this. -/
def cancelHere (s : State) (num : Word) (from' : Nat) (status : BitVec 16) : State :=
  completeRemoved (modJobs s (fun j => j.num == num) (fun j => cancelJob s j from' status))

def serveOpCancel (k : Nat) (remote : List MemberAnswer) (s : State) (m : List Byte) : State :=
  match touchable s k m (jobArg m) with
  | none => respond s k m 0x0105 []
  | some j =>
    let g := groupAnswer s (plGroup j.plan) (0, []) remote
    if g.1 != 0 then respond s k m g.1 g.2
    else
    let s1 := respond s k m 0x0000 []
    cancelHere (sendTo s1 j.members 3 (.jobCancel j.num (now s + 1) 0x0307)) j.num (now s + 1) 0x0307

/-- R354. -/
def execVmpOpCancel (ask : PairAnswers) (s : State) : Host.Outcome State Fault Refusal :=
  .next (takeRequest s ask.pair 0x21 (serveOpCancel ask.pair ask.remote))

def jobState (s : State) (j : Job) : Nat :=
  match j.phase with
  | .queued => 0
  | .running => if s.seq.kind == .run then 1 else 2
  | .ended => 3

def serveOpStatus (k : Nat) (s : State) (m : List Byte) : State :=
  match s.seq.jobs.find? (fun j => j.num == jobArg m) with
  | none => respond s k m 0x0105 []
  | some j =>
    let off := match j.phase with
      | .queued => 0
      | .running => offsetNow s j
      | .ended => j.endOffset
    respond s k m 0x0000 (leBytes 8 (jobState s j) ++ leBytes 8 j.startStrike ++ leBytes 8 off ++ leBytes 8 j.committed ++
      leBytes 8 j.holdStrikes)

/-- R354. -/
def execVmpOpStatus (pair : Nat) (s : State) : Host.Outcome State Fault Refusal := .next (takeRequest s pair 0x22 (serveOpStatus pair))

/-- A deadline replaced on a member; the holds before it do not move it (R48, R355). -/
def setDeadline (s : State) (num : Word) (d : Nat) : State :=
  deadlineComparators (modJobs s (fun j => j.num == num && j.phase != .ended) (fun j => { j with deadline := d, moved := 0 }))

def serveOpDeadline (k : Nat) (remote : List MemberAnswer) (s : State) (m : List Byte) : State :=
  let d := fieldN (msgBody m) 8 8
  match touchable s k m (jobArg m) with
  | none => respond s k m 0x0105 []
  | some j =>
    let g := groupAnswer s (plGroup j.plan) (if d ≠ 0 ∧ param s 0x10 = 0 then 0x0200 else 0, []) remote
    if g.1 != 0 then respond s k m g.1 g.2
    else respond (setDeadline (sendTo s j.members 3 (.jobDeadline j.num d)) j.num d) k m 0x0000 []

/-- R355. -/
def execVmpOpDeadline (ask : PairAnswers) (s : State) : Host.Outcome State Fault Refusal :=
  .next (takeRequest s ask.pair 0x23 (serveOpDeadline ask.pair ask.remote))

/-! ### Errors (R304, R353, R356) -/

/-- Key of the page a target's register reads. -/
def targetPageKey (u : Uid) : Nat := if keyLevel u.toNat = 5 then u.toNat else uidKey u

def serveErrRead (k : Nat) (s : State) (m : List Byte) : State :=
  let u := msgTarget m
  let dest := fieldN (msgBody m) 0 8
  let r (o : Nat) : List Byte := leBytes 8 (ucpRead s u o).toNat
  if dest ≠ 0 && !rangeOk s isTier dest 0x10000 then respond s k m 0x0102 []
  else
    let s1 := if dest = 0 then s else memWrite s dest (ucpBytes s u 0 0x10000)
    respond s1 k m 0x0000 (r 0x10 ++ r 0x18 ++ r 0x20 ++ r 0x38 ++ r 0x100 ++ r 0x108 ++ leBytes 8 (now s))

/-- R353. -/
def execVmpErrRead (pair : Nat) (s : State) : Host.Outcome State Fault Refusal := .next (takeRequest s pair 0x40 (serveErrRead pair))

/-- Clear a checker's logs and counters of the instances that units within key k own (R304). -/
def clearChecker (s : State) (k c : Nat) : State :=
  if c < 16 then
    if covers k (columnKey c) then checkerMod s c (fun x => { x with log := Checker.reset.log, overflow := 0, ceCount := 0 }) else s
  else if c < 32 then
    if k = devKey then checkerMod s c (fun x => { x with log := Checker.reset.log, overflow := 0, ceCount := 0 }) else s
  else
    let mine (inst : Nat) : Bool := covers k (instOwner (c - 32) inst)
    let all := covers k (quadKey (c - 32))
    checkerMod s c (fun x => { x with
      log := x.log.map (fun e => if e.valid && mine e.inst.toNat then LogEntry.empty else e)
      overflow := if all then 0 else x.overflow
      instCe := x.instCe.filter (fun e => !mine e.1) })

def clearLogs (s : State) (k : Nat) : State := (List.range 36).foldl (fun t c => clearChecker t k c) s

/-- Sticky bits of a group that this device clears at a heat boundary, by a write in an earlier strike: a bit set after the write stays, and a
boundary that is past is made up for (R24). -/
def groupClear (s : State) (mask : Word) (write heat : Nat) : State :=
  let late := (s.units.setAt.filter (fun e => decide (write < e.2))).foldl (fun acc e => acc ||| BitVec.ofNat 64 (2 ^ e.1)) 0
  let m := mask &&& ~~~ late
  if heat ≤ heatOf (now s) then pageMod s devKey (fun p => { p with sticky := p.sticky &&& ~~~ m })
  else { s with units := { s.units with groupClears := s.units.groupClears ++ [{ mask := m, heat := heat }] } }

/-- NOTIFY of a group's page, with the bits that stand now (R364). -/
def groupNotify (s : State) (g : Nat) (mask : Word) : State :=
  match (localGroups s).find? (fun x => x.group == g) with
  | some d => pageMod s (5 * 2 ^ 28 + g * 2 ^ 16) (fun p => { p with notify := mask, sticky := groupSticky s d })
  | none => s

def serveErrClear (k : Nat) (s : State) (m : List Byte) : State :=
  let b := msgBody m
  let u := msgTarget m
  let mask : Word := BitVec.ofNat 64 (fieldN b 0 8) &&& stickyMask
  let notify : Word := BitVec.ofNat 64 (fieldN b 8 8) &&& stickyMask
  let heat := heatOf (now s) + 1
  let grp := keyLevel u.toNat = 5
  let s1 := if grp then sendTo (groupClear s mask (now s) heat) (otherMembers s u) 3 (.clearSticky mask (now s) heat)
    else pageMod s (uidKey u) (fun p => { p with sticky := p.sticky &&& ~~~ mask })
  let s2 := if !bit (byteAt b 16) 0 then s1
    else if grp then sendTo (groupNotify s1 (uidDevice u) notify) (otherMembers s u) 3 (.groupNotify (uidDevice u) notify)
    else pageMod s1 (uidKey u) (fun p => { p with notify := notify })
  let s3 := if bit (byteAt b 16) 1 then
      (let t := clearLogs s2 (if grp then devKey else uidKey u)
       if grp then sendTo t (otherMembers s u) 3 .clearLogs else t)
    else s2
  respond s3 k m 0x0000 []

/-- R356. -/
def execVmpErrClear (pair : Nat) (s : State) : Host.Outcome State Fault Refusal := .next (takeRequest s pair 0x41 (serveErrClear pair))

/-! ### Recovery on request (R356, R374) -/

def serveRecover (k : Nat) (s : State) (m : List Byte) : State :=
  let u := msgTarget m
  let r := byteAt (msgBody m) 0
  let busy := (selfAndAncestors (uidKey u)).any (fun a => ownState s a == 0 || ownState s a == 4 || ownState s a == 6)
  if busy then respond s k m 0x0600 []
  else
    let retain := if bit r 7 then none else some (bit r 0, bit r 1)
    detectFault (respondAccepted s k m []) 0xFF u retain [(msgClient m, k, msgTag m, now s)]

/-- R374. -/
def execVmpRecover (pair : Nat) (s : State) : Host.Outcome State Fault Refusal := .next (takeRequest s pair 0x48 (serveRecover pair))

def holdEntry (h : HoldRecord) : List Byte :=
  leBytes 8 h.start ++ leBytes 4 h.strikes ++ leBytes 4 h.uid.toNat ++ leBytes 1 h.cause ++ leBytes 7 0

def serveHoldRead (k : Nat) (s : State) (m : List Byte) : State :=
  let es := s.seq.holds.flatMap holdEntry
  respond s k m 0x0000 (leBytes 8 (holdWord s).toNat ++ leBytes 8 (boolNat (s.seq.kind == .hold)) ++ slice es 0 96)

/-- R353. -/
def execVmpHoldRead (pair : Nat) (s : State) : Host.Outcome State Fault Refusal := .next (takeRequest s pair 0x49 (serveHoldRead pair))

/-! ### Attestation and firmware (R393, R394, R401) -/

/-- The signed report (R401). -/
def attestReport (s : State) (nonce : List Byte) : State × List Byte :=
  let ms := ((List.range 6).zip s.ident.meas).flatMap (fun (p : Nat × Digest) => leBytes 1 (p.1 + 1) ++ leBytes 15 0 ++ digestBytes p.2)
  let body := leBytes 4 0x54414849 ++ leBytes 2 0x0100 ++ leBytes 2 6 ++ leBytes 4 (fullUid s devKey).toNat ++ leBytes 4 (imgSvn s.boot.running) ++
    leBytes 8 (now s) ++ slice nonce 0 32 ++ digestBytes s.ident.digest ++ List.replicate 24 0 ++ ms
  let (t, sig) := cseSign s (sha384 body)
  (t, body ++ sig)

def serveAttest (k : Nat) (s : State) (m : List Byte) : State :=
  let b := msgBody m
  let dest := fieldN b 0x20 8
  if fieldN b 0x28 4 < 608 || !rangeOk s isTier dest 608 then respond s k m 0x0102 []
  else if s.ident.failed then respond (stickySet s devKey 18) k m 0x0700 []
  else
    let (s1, r) := attestReport s (b.take 32)
    respond (memWrite s1 dest r) k m 0x0000 (leBytes 4 608)

/-- R401. -/
def execVmpAttest (pair : Nat) (s : State) : Host.Outcome State Fault Refusal := .next (takeRequest s pair 0x50 (serveAttest pair))

/-- Stage an image (R393). -/
def stageImage (s : State) (img : List Byte) : State × BitVec 16 :=
  let st := imgStageStatus s img
  if st = 0 then ({ s with boot := { s.boot with staged := some img } }, st)
  else (if st = 0x0700 then stickySet s devKey 18 else s, st)

def serveFwStage (k : Nat) (s : State) (m : List Byte) : State :=
  let b := msgBody m
  withRef s k m (fieldN b 0 8) (fieldN b 8 8) (fun s img =>
    let (s1, st) := stageImage s img
    respond s1 k m st (if st = 0 then leBytes 4 (imgSvn img) ++ leBytes 4 0 ++ (digestBytes (imgMeasure img)).take 8 else []))

/-- R393. -/
def execVmpFwStage (pair : Nat) (s : State) : Host.Outcome State Fault Refusal := .next (takeRequest s pair 0x58 (serveFwStage pair))

/-- A migration involves this device. -/
def migrating (s : State) : Bool := s.eng.tables.any (fun t => t.versions.any (fun v => v.migration.isSome))

def serveFwActivate (k : Nat) (s : State) (m : List Byte) : State :=
  let strike := fieldN (msgBody m) 0 8
  if s.boot.staged.isNone then respond s k m 0x0702 []
  else if !isBoundary strike || strike < now s + 8192 || planLive s || migrating s then respond s k m 0x0200 []
  else
    let a : FwActivation := match s.boot.activation with
      | none => { strike := strike, client := msgClient m, pair := k, tag := msgTag m, handedOver := false, readBacks := 0 }
      | some b => { b with strike := Nat.min b.strike strike, also := b.also ++ [(msgClient m, k, msgTag m)] }
    respondAccepted { s with boot := { s.boot with activation := some a } } k m []

/-- R394. -/
def execVmpFwActivate (pair : Nat) (s : State) : Host.Outcome State Fault Refusal := .next (takeRequest s pair 0x59 (serveFwActivate pair))

/-- The completions of an activation: of its request, and of those accepted while it waited. -/
def endActivation (s : State) (a : FwActivation) (st : BitVec 16) : State :=
  ((a.client, a.pair, a.tag) :: a.also).foldl (fun t r => complete t r.1 r.2.2 r.2.1 st []) s

/-- The staged image runs; the one that ran stays in Warden memory, and the leases end whose major the new image does not support. (DESIGN CHOICE, safe: log entry 109.) -/
def handOver (s : State) (img : List Byte) : State :=
  let majors := Config.imageMajors img
  let s1 := { s with boot := { s.boot with running := img, oldCopy := s.boot.running } }
  (s.vmp.clients.filter (fun c => !majors.contains c.major)).foldl (fun t c => endLease t c.id (now t)) s1

/-- R394: at S the staged image takes over, writes itself to flash and reads itself back; an image that does not resume, or that
fails its third read-back, is left to the rollback. (DEDUCED, unsafe: log entry 89.) -/
def execFwImageHandover (resumed readBackOk : Bool) (s : State) : Host.Outcome State Fault Refusal :=
  .next (match s.boot.activation, s.boot.staged with
    | some a, some img =>
      if a.strike ≤ now s && a.readBacks < 3 then
        let s1 := if a.handedOver then s else handOver s img
        if resumed && readBackOk then endActivation (fwFinish s1 img) a 0x0000
        else
          let n := if resumed then a.readBacks + 1 else 3
          { s1 with boot := { s1.boot with activation := some { a with handedOver := true, readBacks := n }, flashImage := if resumed then [] else s1.boot.flashImage } }
      else s
    | _, _ => s)

/-- R394: the old copy is written back, the old image runs again and IMAGE_INVALID is posted. (DEDUCED, unsafe: log entry 89.) -/
def execFwActivateRollback (s : State) : Host.Outcome State Fault Refusal :=
  .next (match s.boot.activation with
    | some a =>
      if a.handedOver && 3 ≤ a.readBacks then
        endActivation { s with boot := { s.boot with activation := none, flashImage := s.boot.oldCopy, running := s.boot.oldCopy, oldCopy := [] } } a 0x0702
      else s
    | none => s)

/-! ### Time and topology (R353) -/

def roleCode : Role → Nat
  | .none => 0 | .master => 1 | .follower => 2 | .holdover => 3

def lockCode : LockState → Nat
  | .unlocked => 0 | .acquiring => 1 | .locked => 2 | .slipped => 3

/-- TIMEBASE.STATUS (R42). -/
def tbStatus (s : State) : Word :=
  let t := s.tb
  let hops := if t.lock == .locked then t.hops.toNat else 0x1F
  BitVec.ofNat 64 (roleCode t.role * 2 ^ 12 + lockCode t.lock * 2 ^ 8 + boolNat t.refLocked * 2 ^ 7 + boolNat t.ppsQualified * 2 ^ 6 +
    boolNat t.classBit * 2 ^ 5 + hops)

def serveTimeRead (k : Nat) (s : State) (m : List Byte) : State :=
  respond s k m 0x0000 (leBytes 8 (now s) ++ leBytes 8 (heatOf (now s)) ++ leBytes 8 (planStep s).toNat ++ leBytes 8 (holdWord s).toNat ++
    leBytes 8 s.tb.strike0Unix.toNat ++ leBytes 8 (tbStatus s).toNat)

/-- R353. -/
def execVmpTimeRead (pair : Nat) (s : State) : Host.Outcome State Fault Refusal := .next (takeRequest s pair 0x60 (serveTimeRead pair))

/-- Mask of the device's own UP ports. -/
def upMask (s : State) : Nat := sumNat ((upPorts s).map (fun p => 2 ^ p))

/-- STATE of a device in TOPO_READ. -/
def topoState (s : State) (d : Nat) : Nat :=
  if d = s.form.device then
    (if ownState s devKey = 4 then 4 else if isFenced s devKey then 3 else if s.form.ready then 2 else 1)
  else sparseGet 0 d s.form.devState

/-- One entry of TOPO_READ. -/
def topoEntry (s : State) (d : Nat) : List Byte :=
  let (x, y, z) := coordOf s d
  let me := d = s.form.device
  leBytes 2 d ++ leBytes 1 x ++ leBytes 1 y ++ leBytes 1 z ++ leBytes 1 (topoState s d) ++
    leBytes 1 (if me then upMask s else (sparseGet 0 d s.form.portsUp).toNat) ++ leBytes 1 0 ++
    leBytes 4 (if me then (unitGet s devKey).page.active.toNat else (sparseGet 0 d s.form.devEpoch).toNat) ++ leBytes 4 0

def serveTopoRead (k : Nat) (s : State) (m : List Byte) : State :=
  let b := msgBody m
  let dest := fieldN b 0 8
  let n := s.form.dx * s.form.dy * s.form.dz
  if fieldN b 8 4 < 16 * n || !rangeOk s isTier dest (16 * n) then respond s k m 0x0102 []
  else
    let (x, y, z) := coordOf s s.form.device
    let s1 := memWrite s dest ((List.range n).flatMap (topoEntry s))
    respond s1 k m 0x0000 (leBytes 1 s.form.dx ++ leBytes 1 s.form.dy ++ leBytes 1 s.form.dz ++ leBytes 1 0 ++ leBytes 2 n ++ leBytes 2 s.form.device ++
      leBytes 1 x ++ leBytes 1 y ++ leBytes 1 z ++ leBytes 1 0 ++ leBytes 2 s.tb.masterDevice.toNat ++ leBytes 2 0 ++ leBytes 4 n)

/-- R353. -/
def execVmpTopoRead (pair : Nat) (s : State) : Host.Outcome State Fault Refusal := .next (takeRequest s pair 0x61 (serveTopoRead pair))

end Sys2Proof.Machine
end

