-- ==== Sys2Proof/Machine/Operands.lean ====
section
/-!
DEFINITION. Operand forms: layout descriptors and their addresses (R83 to R89), distribution (R90 to R92), elements read and written
with validity and strings (R67, R69, R86, R93), and column sets (R133, R134).
-/
namespace Sys2Proof.Machine

/-! ### Layout descriptors (R83) -/

def dsType (b : List Byte) : Nat := byteAt b 1
def dsTier (b : List Byte) : Nat := bits (byteAt b 2) 7 6
def dsNlevel (b : List Byte) : Nat := bits (byteAt b 2) 5 4
def dsNdim (b : List Byte) : Nat := bits (byteAt b 2) 3 0
def dsTable (b : List Byte) : Bool := bit (byteAt b 3) 0
def dsValidity (b : List Byte) : Bool := bit (byteAt b 3) 1
def dsHeap (b : List Byte) : Bool := bit (byteAt b 3) 2
def dsGridOrder (b : List Byte) : Nat := fieldN b 4 4
def dsBase (b : List Byte) : Nat := fieldN b 8 8
def dsShape (b : List Byte) (d : Nat) : Nat := if d < dsNdim b then fieldN b (0x10 + 8 * d) 8 % 2 ^ 48 else 1
def dsTile (b : List Byte) (k : Nat) : Nat := fieldN b (0x40 + 8 * k) 8
/-- FILL: the bits of the element width; higher bits are reserved. -/
def dsFill (b : List Byte) : Nat := fieldN b 0x58 8 % 2 ^ typeBits (byteAt b 1)
def dsAux0 (b : List Byte) : Nat := fieldN b 0x60 8
def dsAux1 (b : List Byte) : Nat := fieldN b 0x68 8
def dsHeapBytes (b : List Byte) : Nat := fieldN b 0x70 8
/-- EPOCH_OFFSET of a timestamp column (R65). -/
def dsOffset (b : List Byte) : Int := if dsType b = 0x30 then sint 64 (dsAux1 b) else 0
def dsWidth (b : List Byte) : Nat := typeBits (dsType b)

/-- Extent of dimension d in the tiles of level k, 1 for a level not in use. -/
def tileExt (b : List Byte) (k d : Nat) : Nat := if k < dsNlevel b then 2 ^ bits (dsTile b k) (4 * d + 3) (4 * d) else 1
/-- Dimension at position j of an order word. -/
def orderAt (o j : Nat) : Nat := bits o (3 * j + 2) (3 * j)
def tileOrder (b : List Byte) (k j : Nat) : Nat := if k < dsNlevel b then bits (dsTile b k) (24 + 3 * j + 2) (24 + 3 * j) else j

/-- lin of R85: position 0 varies fastest. -/
def linIndex (c t order : Nat → Nat) : Nat :=
  [5, 4, 3, 2, 1, 0].foldl (fun v j => v * t (order j) + c (order j)) 0

def prod6 (f : Nat → Nat) : Nat := (List.range 6).foldl (fun v d => v * f d) 1

/-- Grid extent in dimension d. -/
def gridExt (b : List Byte) (d : Nat) : Nat := ceilDiv (dsShape b d) (tileExt b 0 d * tileExt b 1 d * tileExt b 2 d)

/-- Bit offset from BASE of element x of a tiled descriptor (R85); none outside the footprint. -/
def tiledBit (b : List Byte) (x : Nat → Nat) : Nat :=
  let c0 (d : Nat) : Nat := x d % tileExt b 0 d
  let q1 (d : Nat) : Nat := x d / tileExt b 0 d
  let c1 (d : Nat) : Nat := q1 d % tileExt b 1 d
  let q2 (d : Nat) : Nat := q1 d / tileExt b 1 d
  let c2 (d : Nat) : Nat := q2 d % tileExt b 2 d
  let g (d : Nat) : Nat := q2 d / tileExt b 2 d
  let e := linIndex c0 (tileExt b 0) (tileOrder b 0)
  let i1 := linIndex c1 (tileExt b 1) (tileOrder b 1)
  let i2 := linIndex c2 (tileExt b 2) (tileOrder b 2)
  let gi := linIndex g (gridExt b) (orderAt (dsGridOrder b))
  ((gi * prod6 (tileExt b 2) + i2) * prod6 (tileExt b 1) + i1) * 512 + e * dsWidth b

/-- Bit offset of element x: a table chunk's rows follow each other (R88). -/
def elemBit (b : List Byte) (x : Nat → Nat) : Nat := if dsTable b then x 0 * dsWidth b else tiledBit b x

def dsCount (b : List Byte) : Nat := prod6 (dsShape b)

/-- Coordinates of the element of global index i (R90: the last dimension varies fastest). -/
def coordsOf (shape : Nat → Nat) (ndim i d : Nat) : Nat :=
  if ndim ≤ d then 0
  else
    let below := ((List.range ndim).filter (fun e => decide (d < e))).foldl (fun v e => v * shape e) 1
    i / below % shape d

/-- Linear index of coordinates. -/
def linearOf (shape : Nat → Nat) (ndim : Nat) (x : Nat → Nat) : Nat := (List.range ndim).foldl (fun v d => v * shape d + x d) 0

/-- Footprint in bytes (R86, R88, R82). -/
def footprint (b : List Byte) : Nat :=
  if dsTable b then ceilDiv (dsShape b 0) 64 * 8 * dsWidth b
  else if isMx (dsType b) then
    let rows := (List.range (dsNdim b - 1)).foldl (fun v d => v * dsShape b d) 1
    roundUp (rows * ceilDiv (dsShape b (dsNdim b - 1)) 32 * 4 * dsWidth b) 64
  else prod6 (gridExt b) * prod6 (tileExt b 1) * prod6 (tileExt b 2) * 64

/-- Inside SHAPE. -/
def inShape (b : List Byte) (x : Nat → Nat) : Bool := (List.range 6).all (fun d => decide (x d < dsShape b d))

/-! ### Windows -/

/-- Cores in service within a scope, ascending UID. -/
def scopeCores (s : State) (scope : Nat) : List Nat := (coresOf scope).filter (fun k => !isOffline s k)

/-- (DEDUCED, unsafe: log entry 35.) -/
def windowBase (k : Nat) : Nat := scratchBase + k / 16 * 2 ^ 22

/-- Base addresses that a descriptor's offsets add to: the windows of the scope's cores for TIER 2, address 0 otherwise (R87). (DEDUCED, unsafe: log entry 35.) -/
def windowsOf (s : State) (scope : Nat) (b : List Byte) : List Nat :=
  if dsTier b = 2 then (scopeCores s scope).map windowBase else [0]

/-! ### Elements -/

/-- An element as read: stored bits, validity, and the bytes of a string. -/
structure Elem where
  bits : Nat
  valid : Bool
  str : List Byte
deriving DecidableEq, Repr

def Elem.num (n : Nat) : Elem := { bits := n, valid := true, str := [] }
def Elem.null : Elem := { bits := 0, valid := false, str := [] }

/-- Bits [o + w − 1 : o] of a byte string. -/
def bitsAt (bs : List Byte) (o w : Nat) : Nat := leNat (slice bs (o / 8) ((o % 8 + w + 7) / 8)) / 2 ^ (o % 8) % 2 ^ w

/-- Failure of a step's reads. -/
abbrev ReadRes (α : Type) := State × Except (BitVec 16) α

/-- A read of raw bytes: uncorrectable data ends with UE_DATA. -/
def readBytes (s : State) (a n : Nat) : ReadRes (List Byte) :=
  let r := memRead s a n
  (r.st, match r.bad with
    | some _ => .error 0x0400
    | none => .ok r.bytes)

/-- Bytes of a string descriptor's string (R67): OP_LEN_LIMIT when it is too long or leaves its heap. -/
def readString (s : State) (win : Nat) (b : List Byte) (d : Nat) : ReadRes (List Byte) :=
  let len := d % 2 ^ 32
  let off := d / 2 ^ 64
  if 65536 < len then (s, .error 0x0300)
  else if len ≤ 4 then (s, .ok (leBytes len (d / 2 ^ 32)))
  else if dsHeapBytes b < off + len then (s, .error 0x0300)
  else readBytes s (win + dsAux1 b + off) len

/-- Strings of a list of descriptors, first failure first. -/
def readStrings (s : State) (win : Nat) (b : List Byte) : List Elem → ReadRes (List Elem)
  | [] => (s, .ok [])
  | e :: es =>
    match readString s win b e.bits with
    | (s1, .error st) => (s1, .error st)
    | (s1, .ok bs) =>
      match readStrings s1 win b es with
      | (s2, .error st) => (s2, .error st)
      | (s2, .ok l) => (s2, .ok ({ e with str := bs } :: l))

/-- An element from value bits and validity. -/
def Elem.read (v : Nat) (ok : Bool) : Elem := { bits := if ok then v else 0, valid := ok, str := [] }

/-- Rows lo to lo + n − 1 of a table chunk in one window: their values, their bitmap words, their strings (R88). -/
def readRows (s : State) (b : List Byte) (win lo n : Nat) : ReadRes (List Elem) :=
  if n = 0 then (s, .ok [])
  else
    let w := dsWidth b
    match readBytes s (win + dsBase b + lo * w / 8) (n * w / 8) with
    | (s1, .error st) => (s1, .error st)
    | (s1, .ok bs) =>
      match (if dsValidity b then readBytes s1 (win + dsAux0 b + lo / 64 * 8) ((ceilDiv (lo + n) 64 - lo / 64) * 8) else (s1, .ok [])) with
      | (s2, .error st) => (s2, .error st)
      | (s2, .ok vb) =>
        let es := (List.range n).map (fun i => Elem.read (bitsAt bs (i * w) w) (!dsValidity b || bitsAt vb (lo % 64 + i) 1 == 1))
        if isStringTy (dsType b) then readStrings s2 win b es else (s2, .ok es)

/-- The elements of one window in order of linear index: one read of the footprint, one of the bitmap. -/
def readWindow (s : State) (b : List Byte) (win : Nat) : ReadRes (List Elem) :=
  let n := dsCount b
  if dsTable b then readRows s b win 0 n
  else
  match readBytes s (win + dsBase b) (footprint b) with
  | (s1, .error st) => (s1, .error st)
  | (s1, .ok bs) =>
    match (if dsValidity b then readBytes s1 (win + dsAux0 b) (ceilDiv n 64 * 8) else (s1, .ok [])) with
    | (s2, .error st) => (s2, .error st)
    | (s2, .ok vb) =>
      let es := (List.range n).map (fun i =>
        let v := bitsAt bs (elemBit b (coordsOf (dsShape b) (dsNdim b) i)) (dsWidth b)
        Elem.read v (!dsValidity b || bitsAt vb i 1 == 1))
      if isStringTy (dsType b) then readStrings s2 win b es else (s2, .ok es)

/-- The elements of a list of windows, one after the other. (DEDUCED, unsafe: log entry 35.) -/
def readWindows (s : State) (b : List Byte) : List Nat → ReadRes (List Elem)
  | [] => (s, .ok [])
  | w :: ws =>
    match readWindow s b w with
    | (s1, .error st) => (s1, .error st)
    | (s1, .ok l) =>
      match readWindows s1 b ws with
      | (s2, .error st) => (s2, .error st)
      | (s2, .ok l2) => (s2, .ok (l ++ l2))

def readDesc (s : State) (scope : Nat) (b : List Byte) : ReadRes (List Elem) := readWindows s b (windowsOf s scope b)

/-- Rows lo to lo + n − 1 of a table operand, over the windows of a list whose first window starts at a given row. -/
def readSpan (s : State) (b : List Byte) (lo n : Nat) : Nat → List Nat → ReadRes (List Elem)
  | _, [] => (s, .ok [])
  | first, w :: ws =>
    let cap := dsShape b 0
    let from' := Nat.max lo first
    let upto := Nat.min (lo + n) (first + cap)
    match readRows s b w (from' - first) (upto - from') with
    | (s1, .error st) => (s1, .error st)
    | (s1, .ok l) =>
      match readSpan s1 b lo n (first + cap) ws with
      | (s2, .error st) => (s2, .error st)
      | (s2, .ok l2) => (s2, .ok (l ++ l2))

/-! ### Writing -/

/-- String descriptor of a string at a heap offset (R67). -/
def stringDesc (bs : List Byte) (off : Nat) : Nat :=
  bs.length + leNat (slice bs 0 4) * 2 ^ 32 + (if bs.length ≤ 4 then 0 else off) * 2 ^ 64

/-- Heap bytes and descriptors of a column of strings, compacted in row order. -/
def packStrings : List Elem → Nat → List Nat × List Byte
  | [], _ => ([], [])
  | e :: es, off =>
    let need := if e.str.length ≤ 4 then 0 else e.str.length
    let (ds, hs) := packStrings es (off + need)
    ((if e.valid then stringDesc e.str off else 0) :: ds, (if e.str.length ≤ 4 then [] else e.str) ++ hs)

/-- Heap bytes that a column of strings needs. -/
def heapNeed (es : List Elem) : Nat := sumNat (es.map (fun e => if e.str.length ≤ 4 then 0 else e.str.length))

/-- Validity words of a list of elements, rows past it 0. -/
def validityBytes (es : List Elem) : List Byte :=
  (List.range (ceilDiv es.length 64)).flatMap (fun w =>
    leBytes 8 (((List.range 64).filter (fun i => match es[64 * w + i]? with
      | some e => e.valid
      | none => false)).foldl (fun acc i => acc + 2 ^ i) 0))

/-- The value stored for an element: zero under a null (R69). -/
def storedBits (e : Elem) : Nat := if e.valid then e.bits else 0

/-- The value an operator stores for an element of a column: zero under a null, a NaN as the canonical one (R63, R69). -/
def columnBits (ty : Nat) (e : Elem) : Nat := canonNan ty (storedBits e)

/-- FILL in the tile padding of the line that holds the last row, when rows up to row k of the window are written (R86). -/
def fillPad (b : List Byte) (win k : Nat) : List (Nat × List Byte) :=
  let w := dsWidth b
  let n := dsShape b 0
  let line := 512 / w
  let pad := roundUp n line - n
  if pad = 0 ∨ k ≤ (n - 1) / line * line then []
  else [(win + dsBase b + n * w / 8, (List.replicate pad (leBytes (w / 8) (dsFill b))).flatten)]

/-- Stores of the rows from row 0 of one window of a table chunk: values, tile padding of the last line when it is reached, bitmap, heap
(R63, R69, R86, R88). -/
def tableWrites (b : List Byte) (win : Nat) (es : List Elem) : List (Nat × List Byte) :=
  let w := dsWidth b
  let (ds, heap) := if isStringTy (dsType b) then packStrings es 0 else (es.map (columnBits (dsType b)), [])
  let vals := ds.flatMap (fun v => leBytes (w / 8) v)
  (if es.isEmpty then [] else (win + dsBase b, vals) :: fillPad b win es.length) ++
    (if dsValidity b && !es.isEmpty then [(win + dsAux0 b, validityBytes es)] else []) ++
    (if heap.isEmpty then [] else [(win + dsAux1 b, heap)])

/-- Deal a list of rows to windows of n rows each. (DEDUCED, unsafe: log entry 35.) (DEDUCED, unsafe: log entry 49.) -/
def dealRows {α : Type} (n : Nat) : List Nat → List α → List (Nat × List α)
  | [], _ => []
  | w :: ws, l => (w, l.take n) :: dealRows n ws (l.drop n)

/-- Stores of a column's elements from row 0 of the operand. (DEDUCED, unsafe: log entry 52.) -/
def columnWrites (s : State) (scope : Nat) (b : List Byte) (es : List Elem) : List (Nat × List Byte) :=
  (dealRows (dsShape b 0) (windowsOf s scope b) es).flatMap (fun p => tableWrites b p.1 p.2)

/-- A column's heap overflows in some window. (DEDUCED, unsafe: log entry 53.) -/
def heapOverflows (s : State) (scope : Nat) (b : List Byte) (es : List Elem) : Bool :=
  isStringTy (dsType b) && (dealRows (dsShape b 0) (windowsOf s scope b) es).any (fun p => decide (dsHeapBytes b < heapNeed p.2))

/-- Replace w bits at bit offset o of a byte string. -/
def setBits (bs : List Byte) (o w v : Nat) : List Byte :=
  let base := o / 8
  let n := (o % 8 + w + 7) / 8
  let old := leNat (slice bs base n)
  let mask := (2 ^ w - 1) * 2 ^ (o % 8)
  splice bs base (leBytes n (old - (old / 2 ^ (o % 8) % 2 ^ w) * 2 ^ (o % 8) + v * 2 ^ (o % 8) % (mask + 2 ^ (o % 8))))

/-- The whole footprint of a tiled tensor in one window: elements by linear index, FILL in the tile padding (R86). -/
def tiledBytes (b : List Byte) (es : List Elem) : List Byte :=
  let w := dsWidth b
  let total := footprint b * 8 / w
  let places := (List.range es.length).map (fun i => (elemBit b (coordsOf (dsShape b) (dsNdim b) i), columnBits (dsType b) (es.getD i Elem.null)))
  let base := (List.range total).foldl (fun m i => setBits m (i * w) w (dsFill b % 2 ^ w)) (List.replicate (footprint b) (0 : Byte))
  places.foldl (fun m (p : Nat × Nat) => setBits m p.1 w p.2) base

/-- Stores of a full output operand: a table chunk or a tiled tensor. -/
def descWrites (s : State) (scope : Nat) (b : List Byte) (es : List Elem) : List (Nat × List Byte) :=
  if dsTable b then columnWrites s scope b es
  else (dealRows (dsCount b) (windowsOf s scope b) es).flatMap (fun p =>
    if p.2.isEmpty then []
    else (p.1 + dsBase b, tiledBytes b p.2) :: (if dsValidity b then [(p.1 + dsAux0 b, validityBytes p.2)] else []))

/-! ### Distribution (R91, R92) -/

def dtNdim (t : List Byte) : Nat := byteAt t 1
def dtShape (t : List Byte) (d : Nat) : Nat := if d < dtNdim t then fieldN t (8 + 8 * d) 8 % 2 ^ 48 else 1
def dtWord (t : List Byte) (d : Nat) : Nat := fieldN t (0x38 + 8 * d) 8
def dtKind (t : List Byte) (d : Nat) : Nat := dtWord t d % 4
def dtShards (t : List Byte) (d : Nat) : Nat := if d < dtNdim t then bits (dtWord t d) 12 2 else 1
def dtBlock (t : List Byte) (d : Nat) : Nat := bits (dtWord t d) 63 24
/-- Shards in all. -/
def dtTotal (t : List Byte) : Nat := prod6 (dtShards t)

/-- Shard coordinate in dimension d of shard s. -/
def shardCoord (t : List Byte) (s d : Nat) : Nat :=
  let below := ((List.range (dtNdim t)).filter (fun e => decide (d < e))).foldl (fun v e => v * dtShards t e) 1
  s / below % Nat.max (dtShards t d) 1

/-- Global coordinate of a local one on shard s (R92). (DESIGN CHOICE, safe: log entry 100.) -/
def globalCoord (t : List Byte) (s d y : Nat) : Nat :=
  let n := dtShape t d
  let sh := dtShards t d
  match dtKind t d with
  | 1 => shardCoord t s d * ceilDiv n sh + y
  | 2 => (y / dtBlock t d * sh + shardCoord t s d) * dtBlock t d + y % dtBlock t d
  | 3 => Config.hashRow t (shardCoord t s d) y
  | _ => y

/-- Local extent of dimension d on shard s. (DESIGN CHOICE, safe: log entry 100.) -/
def localExt (t : List Byte) (s d : Nat) : Nat :=
  let n := dtShape t d
  let sh := dtShards t d
  let k := shardCoord t s d
  match dtKind t d with
  | 1 => Nat.min (ceilDiv n sh) (n - k * ceilDiv n sh)
  | 2 =>
    let b := dtBlock t d
    sumNat (((List.range (ceilDiv n b)).filter (fun q => q % sh == k)).map (fun q => Nat.min b (n - q * b)))
  | 3 => Nat.min n (Config.hashCount t k)
  | _ => n

/-- Shard of a group position, and whether the position is the shard's owner. -/
def shardOfPos (t : List Byte) (p : Nat) : Nat := if dtTotal t = 0 then 0 else p % dtTotal t
def ownsShard (t : List Byte) (p : Nat) : Bool := decide (p < dtTotal t)

/-- Global index of the element at local coordinates y (R90). -/
def globalIndex (t : List Byte) (p : Nat) (y : Nat → Nat) : Nat :=
  linearOf (dtShape t) (dtNdim t) (fun d => globalCoord t (shardOfPos t p) d (y d))

/-! ### Column sets (R133 to R135) -/

def parCols (pb : List Byte) (i : Nat) : Nat := byteAt pb i
def parFamily (pb : List Byte) : Nat := byteAt pb 8
def parNkey (pb : List Byte) : Nat := byteAt pb 0xA
def parPair (pb : List Byte) (i : Nat) : Bool := bit (byteAt pb 0xB) i
def parKeyCol (pb : List Byte) (j : Nat) : Nat := byteAt pb (0xC + j)

/-- Descriptor of operand i of a step. -/
def opDesc (j : Job) (st : PlanStep) (i : Nat) : List Byte := descBytes j.plan j.pos (operDesc (st.opers.getD i 0))

/-- Descriptors of the set of operand i. -/
def setDescs (j : Job) (st : PlanStep) (i n : Nat) : List (List Byte) :=
  (List.range n).map (fun c => descBytes j.plan j.pos (operDesc (st.opers.getD i 0) + c))

abbrev Row := List Elem

/-- Columns side by side as rows. -/
def zipColumns (n : Nat) (cols : List (List Elem)) : List Row := (List.range n).map (fun r => cols.map (fun c => c.getD r Elem.null))

/-- Capacity of a set on this member. (DEDUCED, unsafe: log entry 33.) -/
def setCapacity (s : State) (scope : Nat) (ds : List (List Byte)) : Nat :=
  match ds with
  | b :: _ => dsShape b 0 * (windowsOf s scope b).length
  | [] => 0

/-- Rows lo to lo + n − 1 of columns, each with a flag whether the step reads it; a column not read is empty. -/
def readCols (s : State) (scope lo n : Nat) : List (Bool × List Byte) → ReadRes (List (List Elem))
  | [] => (s, .ok [])
  | (used, b) :: bs =>
    match (if used then readSpan s b lo n 0 (windowsOf s scope b) else (s, .ok [])) with
    | (s1, .error st) => (s1, .error st)
    | (s1, .ok c) =>
      match readCols s1 scope lo n bs with
      | (s2, .error st) => (s2, .error st)
      | (s2, .ok cs) => (s2, .ok (c :: cs))

/-- Rows lo to lo + n − 1 of the columns of a set that a step reads; every other column of a row is null. -/
def readPart (s : State) (scope lo n : Nat) (ds : List (List Byte)) (cols : List Nat) : ReadRes (List Row) :=
  match readCols s scope lo n (((List.range ds.length).map cols.contains).zip ds) with
  | (s1, .error st) => (s1, .error st)
  | (s1, .ok cs) => (s1, .ok (zipColumns n cs))

/-- The rows of a set, all of its capacity, in the columns that a step reads. -/
def readSetCols (s : State) (scope : Nat) (ds : List (List Byte)) (cols : List Nat) : ReadRes (List Row) :=
  readPart s scope 0 (setCapacity s scope ds) ds cols

/-- The rows of a set, all of its capacity and columns. -/
def readSet (s : State) (scope : Nat) (ds : List (List Byte)) : ReadRes (List Row) := readSetCols s scope ds (List.range ds.length)

def rowKey (r : Row) : Nat := (r.getD 0 Elem.null).bits
/-- Pair key of a row of a set; the single key alone otherwise. -/
def rowPair (pair : Bool) (r : Row) : Nat × Nat := (rowKey r, if pair then (r.getD 1 Elem.null).bits else 0)
def vacantKey : Nat := 2 ^ 64 - 1
def isLive (r : Row) : Bool := rowKey r != vacantKey

def pairLt (a b : Nat × Nat) : Bool := decide (a.1 < b.1 ∨ (a.1 = b.1 ∧ a.2 < b.2))

/-- A vacant row (R134). -/
def vacantRow (pair : Bool) (n : Nat) : Row :=
  (List.range n).map (fun c => if c = 0 ∨ (pair = true ∧ c = 1) then Elem.num vacantKey else Elem.null)

/-- Stores of a set: the live rows, then vacant ones to its capacity. -/
def setWrites (s : State) (scope : Nat) (ds : List (List Byte)) (pair : Bool) (live : List Row) : List (Nat × List Byte) :=
  let cap := setCapacity s scope ds
  let rows := live ++ List.replicate (cap - live.length) (vacantRow pair ds.length)
  ((List.range ds.length).zip ds).flatMap (fun (p : Nat × List Byte) => columnWrites s scope p.2 (rows.map (fun r => r.getD p.1 Elem.null)))

/-- Some string column of a set overflows its heap. -/
def setHeapOverflows (s : State) (scope : Nat) (ds : List (List Byte)) (live : List Row) : Bool :=
  ((List.range ds.length).zip ds).any (fun (p : Nat × List Byte) => heapOverflows s scope p.2 (live.map (fun r => r.getD p.1 Elem.null)))

/-! ### Keys and hashes (R136 to R139) -/

/-- Words of one key element. -/
def keyWords (ty : Nat) (off : Int) (e : Elem) : List Word :=
  if isStringTy ty then
    BitVec.ofNat 64 e.str.length :: (List.range (ceilDiv e.str.length 8)).map (fun i => BitVec.ofNat 64 (fieldN e.str (8 * i) 8))
  else if isTimeTy ty then [BitVec.ofInt 64 (timeValue e.bits off).1]
  else [BitVec.ofNat 64 (canonBits ty e.bits)]

/-- What a hash use fixes: family, seeds and table. -/
structure HashUse where
  family : Nat
  k1 : Word
  k2 : Word
  table : Nat → Word

/-- The seeds a parameter prefix gives (R138). -/
def parSeeds (p pb : List Byte) : Word × Word :=
  let a : Word := BitVec.ofNat 64 (fieldN pb 0x10 8)
  if byteAt pb 9 = 1 then (hf0 a (BitVec.ofNat 64 (plSeed p)) 0x4B31, hf0 a (BitVec.ofNat 64 (plSeed p)) 0x4B32)
  else (a, BitVec.ofNat 64 (fieldN pb 0x18 8))

/-- Bytes of the PARAMS section that member m reads. -/
def paramBytes (p : List Byte) (m o n : Nat) : List Byte :=
  match sectionOf p 2 m with
  | some s => slice p (s.off + o) n
  | none => List.replicate n 0

def hashUse (p : List Byte) (m : Nat) (pb : List Byte) : HashUse :=
  let (k1, k2) := parSeeds p pb
  let off := fieldN pb 0x20 4
  let tab := paramBytes p m off 2048
  { family := parFamily pb, k1 := k1, k2 := k2,
    table := if off = 0xFFFFFFFF then hf1Default else fun i => BitVec.ofNat 64 (fieldN tab (8 * i) 8) }

/-- Hash of a word sequence. -/
def hashWords (h : HashUse) (ws : List Word) : Word :=
  match h.family with
  | 0 => hashHf0 ws h.k1 h.k2
  | 1 => hashHf1 h.table ws h.k1 h.k2
  | _ => hashHf2 ws h.k1 h.k2

/-- Key columns of a row with their types and offsets. -/
def keyCols (ds : List (List Byte)) (cols : List Nat) (r : Row) : List (Nat × Int × Elem) :=
  cols.map (fun c => (dsType (ds.getD c []), dsOffset (ds.getD c []), r.getD c Elem.null))

def parKeyCols (pb : List Byte) : List Nat := (List.range (parNkey pb)).map (parKeyCol pb)

/-- Hash of a row's key; none when a key column is null (R139). -/
def rowHash (h : HashUse) (ds : List (List Byte)) (cols : List Nat) (r : Row) : Option Word :=
  let ks := keyCols ds cols r
  if ks.any (fun k => !k.2.2.valid) then none
  else some (hashWords h (ks.flatMap (fun k => keyWords k.1 k.2.1 k.2.2)))

/-- Comparison form of a key column (R72, R154): order key, or the bytes of a string. -/
def keyForm (ty : Nat) (off : Int) (e : Elem) : List Nat :=
  if isStringTy ty then 1 :: e.str.map (·.toNat) else [0, orderKey ty e.bits off]

/-- Comparison form of a row's key; a null is its own form (R156). -/
def rowKeyForm (ds : List (List Byte)) (cols : List Nat) (r : Row) : List (List Nat) :=
  (keyCols ds cols r).map (fun k => if k.2.2.valid then keyForm k.1 k.2.1 k.2.2 else [])

end Sys2Proof.Machine
end

