-- ==== Sys2Proof/Machine/Operators.lean ====
section
/-!
DEFINITION. The table operators other than FILTER (R133 to R141, R145 to R160): SCAN, COMPUTE, HASH, PARTITION, JOIN_BUILD, JOIN_PROBE,
DEDUP and EMIT. Each finishes an activity in progress; its effects stay in the activity's result until its occupancy ends (R111).
-/
namespace Sys2Proof.Machine

/-! ### Shared -/

abbrev OpRes := State × ActResult

def ActResult.fail (st : BitVec 16) : ActResult := { ActResult.ok with status := st }

/-- An activity's result is recorded when a step of the operator with this mode byte is in progress; MODE at 0x30 of the block. -/
def runStep (s : State) (i op : Nat) (mode : List Byte → Bool) (f : State → Job → PlanStep → List Byte → OpRes) : State :=
  match servedStep s i 0 op with
  | none => s
  | some (j, st) =>
    let pb := stepParams j.plan j.pos st
    if mode pb then
      let r := f (clearBad s) j st pb
      setResult r.1 j (.step i) r.2
    else s

/-- Descriptors of operand i's set. -/
def parSet (j : Job) (st : PlanStep) (pb : List Byte) (i : Nat) : List (List Byte) := setDescs j st i (parCols pb i)

/-- Elements of some columns whose timestamp was clamped on reading (R65). -/
def cutCount (ds : List (List Byte)) (cols : List Nat) (rows : List Row) : Nat :=
  sumNat (cols.map (fun c =>
    let b := ds.getD c []
    if isTimeTy (dsType b) then
      (rows.filter (fun r => (r.getD c Elem.null).valid && (timeValue (r.getD c Elem.null).bits (dsOffset b)).2)).length
    else 0))

/-- Word 2 of R160. -/
def exhaustedWord (code n : Nat) : Nat := code * 2 ^ 56 + n % 2 ^ 56

/-- The outcome with an EXHAUSTED code in word 2. -/
def exhaust (r : ActResult) (code : Nat) : ActResult :=
  if code = 0 then r
  else
    let w := r.words.set 2 (exhaustedWord (Nat.max code (bits (r.words.getD 2 0) 63 56)) (r.words.getD 2 0))
    { r with status := 0x0302, words := w }

/-- Store rows as an output set: a heap that is too small exhausts it. -/
def outSet (s : State) (scope : Nat) (ds : List (List Byte)) (pair : Bool) (rows : List Row) (r : ActResult) : ActResult :=
  if setHeapOverflows s scope ds rows then exhaust r 3 else { r with writes := setWrites s scope ds pair rows }

/-- Rows of a member's operand, sorted by order key. -/
def rowsByKey (pair : Bool) (rows : List Row) : List Row := sortBy (fun a b => pairLt (rowPair pair a) (rowPair pair b)) rows

/-- Comparison k of R142's list (EQ, NE, LT, LE, GT, GE) from the two strict orders and equality. -/
def cmpOf (k : Nat) (lt eq gt : Bool) : Bool :=
  match k with
  | 0 => eq
  | 1 => !eq
  | 2 => lt
  | 3 => lt || eq
  | 4 => gt
  | _ => gt || eq

def lexLt : List Byte → List Byte → Bool
  | [], [] => false
  | [], _ :: _ => true
  | _ :: _, [] => false
  | a :: as, b :: bs => if a = b then lexLt as bs else decide (a.toNat < b.toNat)

/-- A comparison of two elements that are not null (R68, R70). -/
def cmpElems (ty : Nat) (offA offB : Int) (k : Nat) (a b : Elem) : Bool :=
  if isStringTy ty then cmpOf k (lexLt a.str b.str) (a.str == b.str) (lexLt b.str a.str)
  else
    let x := valueOf ty a.bits offA
    let y := valueOf ty b.bits offB
    cmpOf k (ltVal x y) (eqVal x y) (ltVal y x)

/-! ### Rows held through heavy broadcast (R151, R152) -/

/-- Group position that owns a key hash (R148). -/
def ownerPos (p : List Byte) (h : Option Word) : Nat :=
  shardPos p (match h with
    | none => 0
    | some x => x.toNat * plLshards p / 2 ^ 64)

/-- Heavy list of a PARTITION block. -/
def heavyList (p : List Byte) (m : Nat) (pb : List Byte) : List Nat :=
  let bs := paramBytes p m (fieldN pb 0x3C 4) (8 * fieldN pb 0x38 4)
  (List.range (fieldN pb 0x38 4)).map (fun i => fieldN bs (8 * i) 8)

/-- Where the first column of a set lies on this member: address and length. -/
def setPlaces (s : State) (scope : Nat) (ds : List (List Byte)) : List (Nat × Nat) :=
  let d := ds.headD []
  (windowsOf s scope d).map (fun w => (w + dsBase d, dsShape d 0 * dsWidth d / 8))

/-- A heavy set has bytes among n from address a. -/
def HeavySet.meets (h : HeavySet) (a n : Nat) : Bool := decide (h.place < a + n ∧ a < h.place + h.len)

/-- Order keys of the rows of a set that this member holds only through heavy broadcast. -/
def heavyKeys (s : State) (scope : Nat) (ds : List (List Byte)) : List (Nat × Nat) :=
  if s.eng.heavy.isEmpty then []
  else
    let ps := setPlaces s scope ds
    (s.eng.heavy.filter (fun h => ps.any (fun x => h.meets x.1 x.2))).flatMap (·.keys)

/-- Rows that count on this member: those it does not hold through heavy broadcast alone (R152). -/
def countedRows (s : State) (scope : Nat) (ds : List (List Byte)) (pair : Bool) (rows : List Row) : List Row :=
  let ks := heavyKeys s scope ds
  if ks.isEmpty then rows else rows.filter (fun r => !ks.contains (rowPair pair r))

/-- Saturated elements and converted NaNs of each core that reads its own window's rows; nothing for a set outside the scratchpads, whose readers
are not stated. (DEDUCED, unsafe: log entry 48.) -/
def coreShares (s : State) (scope : Nat) (ds : List (List Byte)) (rows own : List Row) (f : List Row → Nat × Nat) : List (Nat × Nat × Nat) :=
  let n := dsShape (ds.headD []) 0
  if dsTier (ds.headD []) ≠ 2 then []
  else ((List.range (scopeCores s scope).length).zip (scopeCores s scope)).map (fun x => (x.2, f (((rows.drop (x.1 * n)).take n).filter own.contains)))

/-- The result tells which rows of a set that it stores this member holds only through heavy broadcast. -/
def ActResult.withHeavy (s : State) (scope : Nat) (ds : List (List Byte)) (keys : List (Nat × Nat)) (r : ActResult) : ActResult :=
  { r with heavy := if keys.isEmpty then [] else (setPlaces s scope ds).map (fun x => { place := x.1, len := x.2, keys := keys }) }

/-- Store rows as an output set whose rows of some order keys are held only through heavy broadcast. -/
def putSet (s : State) (scope : Nat) (ds : List (List Byte)) (pair : Bool) (rows : List Row) (heavy : List (Nat × Nat)) (r : ActResult) : OpRes :=
  (s, (outSet s scope ds pair rows r).withHeavy s scope ds heavy)

/-- The rows that do not count, by the order keys of a set made of them. -/
def heavyOf (pair : Bool) (rows own : List Row) : List (Nat × Nat) :=
  if own.length = rows.length then [] else (rows.filter (fun r => !own.contains r)).map (rowPair pair)

/-- Columns that a step reads which uses the order key and some others. -/
def keyRead (pb : List Byte) (cols : List Nat) : List Nat := (if parPair pb 0 then [0, 1] else [0]) ++ cols

/-! ### SCAN (R140, R141) -/

def scanLoadRun (s : State) (j : Job) (st : PlanStep) (pb : List Byte) : OpRes :=
  let ins := parSet j st pb 0
  let outs := parSet j st pb 1
  let first := fieldN pb 0x40 8
  let base := fieldN pb 0x38 8
  let proj := (List.range (outs.length - 1)).map (fun c => byteAt pb (0x51 + c))
  let upto := Nat.min (first + fieldN pb 0x48 8) (setCapacity s st.scope ins)
  match readPart s st.scope first (upto - first) ins proj with
  | (s1, .error e) => (s1, .fail e)
  | (s1, .ok taken) =>
    let out := ((List.range taken.length).zip taken).map (fun (p : Nat × Row) =>
      Elem.num ((base + first + p.1) % 2 ^ 64) :: proj.map (fun c => p.2.getD c Elem.null))
    let n := taken.length
    putSet s1 st.scope outs false out [] { ActResult.ok with elems := n, words := [n, n, 0] }

/-- R140. -/
def execScanLoad (step : Nat) (s : State) : Host.Outcome State Fault Refusal :=
  .next (runStep s step 1 (fun pb => byteAt pb 0x30 == 0) scanLoadRun)

/-- Rank of a key among a list of keys. -/
def rankIn (keys : List (Nat × Nat)) (k : Nat × Nat) : Nat := (keys.filter (fun x => pairLt x k)).length

def scanRenumberRun (peers : List (Nat × Nat)) (s : State) (j : Job) (st : PlanStep) (pb : List Byte) : OpRes :=
  let ins := parSet j st pb 0
  match readSet s st.scope ins with
  | (s1, .error e) => (s1, .fail e)
  | (s1, .ok rows) =>
    let live := rows.filter isLive
    let keys := live.map (rowPair true) ++ peers
    let outs := parSet j st pb 1
    let renumber (r : Row) : Row := Elem.num (rankIn keys (rowPair true r)) :: r.drop 2
    let out := rows.map (fun r => if isLive r then renumber r else vacantRow false outs.length)
    let own := countedRows s1 st.scope ins true live
    putSet s1 st.scope outs false out (heavyOf false (live.map renumber) (own.map renumber))
      { ActResult.ok with elems := own.length, words := [own.length, own.length, 0] }

/-- R141. -/
def execScanRenumber (step : Nat) (peerKeys : List (Nat × Nat)) (s : State) : Host.Outcome State Fault Refusal :=
  .next (runStep s step 1 (fun pb => byteAt pb 0x30 == 1) (scanRenumberRun peerKeys))

/-! ### COMPUTE (R145, R146) -/

/-- A register: its type and its element. A timestamp holds v + o (R65). -/
structure RegVal where
  ty : Nat
  el : Elem
deriving DecidableEq, Repr

def RegVal.null (ty : Nat) : RegVal := { ty := ty, el := Elem.null }

/-- An instruction of the program. -/
structure CompIns where
  op : Nat
  dst : Nat
  a : Nat
  b : Nat
  c : Nat
  ty : Nat
  flags : Nat
deriving DecidableEq, Repr

def compIns (pb : List Byte) (i : Nat) : CompIns :=
  let o := 0x178 + 8 * i
  { op := byteAt pb o, dst := byteAt pb (o + 1), a := byteAt pb (o + 2), b := byteAt pb (o + 3), c := byteAt pb (o + 4),
    ty := byteAt pb (o + 5), flags := byteAt pb (o + 6) }

/-- Operands that an operation reads. -/
def CompIns.reads (i : CompIns) : List Nat :=
  if i.op = 0xA ∨ i.op = 0xB ∨ i.op = 0xC ∨ i.op = 0xD ∨ i.op = 0x1A then [i.a]
  else if i.op = 7 ∨ i.op = 0x18 then [i.a, i.b, i.c]
  else [i.a, i.b]

/-- Type of an instruction's result: uint8 of a comparison and of ISNULL, int64 of TS_DIFF, TYPE of every other (R146). -/
def CompIns.result (i : CompIns) : Nat :=
  if (0x10 ≤ i.op ∧ i.op ≤ 0x15) ∨ i.op = 0x1A then 5 else if i.op = 0x20 then 4 else i.ty

/-- What an instruction gives: the element, and whether it saturated, converted a NaN, or divided into a null. -/
structure CompOut where
  el : Elem
  sat : Bool
  nan : Bool
  divNull : Bool
deriving DecidableEq, Repr

def CompOut.of (e : Elem) : CompOut := { el := e, sat := false, nan := false, divNull := false }

/-- An exact value into a float register: FP8 arithmetic widens to binary32 first (R71). -/
def floatResult (ty flags : Nat) (v : FVal) : Elem :=
  let r := actlRounding (flags % 16) 0
  let w := if ty = 0x14 ∨ ty = 0x15 then decodeF binary32 (encodeF binary32 rne v).bits else v
  Elem.num (encodeF (fmtOf ty) r w).bits

/-- MIN or MAX of two floats: −0 below +0, a NaN yields the other (R146). -/
def floatMinMax (ty : Nat) (isMax : Bool) (a b : Nat) : Nat :=
  if isNanBits ty a then canonNan ty b
  else if isNanBits ty b then a
  else
    let x := decodeF (fmtOf ty) a
    let y := decodeF (fmtOf ty) b
    let aLow := ltVal x y || (eqVal x y && bit a (typeBits ty - 1))
    if aLow != isMax then a else b

def intResult (ty : Nat) (isat : Bool) (i : Int) : CompOut := .of (Elem.num (storeInt ty isat i).bits)

/-- Integer division, truncating or flooring (R60, R146). -/
def intDiv (ty : Nat) (isat floor : Bool) (x y : Int) : CompOut :=
  if y = 0 then { CompOut.of Elem.null with divNull := true }
  else
    let q := if floor then Int.fdiv x y else Int.tdiv x y
    if intMax ty < q && !isat then { CompOut.of Elem.null with divNull := true } else intResult ty isat q

/-- Arithmetic on two operands that are not null. (DEDUCED, unsafe: log entry 50.) -/
def compArith (i : CompIns) (a b c : Nat) : CompOut :=
  let isat := bit i.flags 2
  if isFloatTy i.ty then
    let f := fmtOf i.ty
    let x := decodeF f a
    let y := decodeF f b
    let fr (v : FVal) : CompOut := .of (floatResult i.ty i.flags v)
    match i.op with
    | 1 => fr (addVal x y)
    | 2 => fr (addVal x (negVal y))
    | 3 => fr (mulVal x y)
    | 4 => fr (divVal x y)
    | 7 => fr (addVal (mulVal x y) (decodeF f c))
    | 8 => .of (Elem.num (floatMinMax i.ty false a b))
    | 9 => .of (Elem.num (floatMinMax i.ty true a b))
    | 0xA => fr (absVal x)
    | 0xB => fr (negVal x)
    | _ => fr (sqrtVal x)
  else
    let x := intOf i.ty a
    let y := intOf i.ty b
    match i.op with
    | 1 => intResult i.ty isat (x + y)
    | 2 => intResult i.ty isat (x - y)
    | 3 => intResult i.ty isat (x * y)
    | 4 => intDiv i.ty isat false x y
    | 5 => intDiv i.ty isat true x y
    | 6 => if y = 0 then { CompOut.of Elem.null with divNull := true } else intResult i.ty isat (Int.fmod x y)
    | 8 => intResult i.ty isat (min x y)
    | 9 => intResult i.ty isat (max x y)
    | 0xA => intResult i.ty isat x.natAbs
    | _ => intResult i.ty isat (-x)

/-- One operation on registers (R146). -/
def compOp (i : CompIns) (a b c : RegVal) : CompOut :=
  match i.op with
  | 0x18 => .of (if !a.el.valid then Elem.null else if eqVal (valueOf a.ty a.el.bits 0) (ofInt 0) then c.el else b.el)
  | 0x19 => .of (if a.el.valid then a.el else b.el)
  | 0x1A => .of (Elem.num (boolNat (!a.el.valid)))
  | 0x0D =>
    if !a.el.valid then .of Elem.null
    else if isStringTy a.ty then .of a.el
    else
      let v := convert a.ty i.ty a.el.bits 0 0 (actlRounding (i.flags % 16) 0)
      { el := if v.null then Elem.null else Elem.num v.bits, sat := v.sat, nan := v.nanConv, divNull := false }
  | op =>
    let two := i.reads.length == 2 || i.reads.length == 3
    let three := i.reads.length == 3
    if !a.el.valid || (two && !b.el.valid) || (three && !c.el.valid) then .of Elem.null
    else if 0x10 ≤ op ∧ op ≤ 0x15 then .of (Elem.num (boolNat (cmpElems a.ty 0 0 (op - 0x10) a.el b.el)))
    else if op = 0x20 then
      let v := clampInt 4 (sint 64 a.el.bits - sint 64 b.el.bits)
      { CompOut.of (Elem.num v.bits) with sat := v.sat }
    else if op = 0x21 then
      let v := clampInt 4 (sint 64 a.el.bits + sint 64 b.el.bits)
      { CompOut.of (Elem.num v.bits) with sat := v.sat }
    else compArith i a.el.bits b.el.bits c.el.bits

/-- An input column as a register. -/
def columnReg (b : List Byte) (e : Elem) : RegVal :=
  if isTimeTy (dsType b) && e.valid then { ty := 0x30, el := Elem.num (wrapInt 64 (timeValue e.bits (dsOffset b)).1) }
  else { ty := dsType b, el := e }

/-- Register file as a lookup: temporaries written so far, constants with the type of their first reader, input columns. -/
def compReg (ds : List (List Byte)) (pb : List Byte) (prog : List CompIns) (row : Row) (temps : Sparse RegVal) (r : Nat) : RegVal :=
  if r < 64 then columnReg (ds.getD r []) (row.getD r Elem.null)
  else if r < 128 then sparseGet (RegVal.null 8) r temps
  else
    let ty := ((prog.find? (fun i => i.reads.contains r)).map (·.ty)).getD 8
    { ty := ty, el := Elem.num (fieldN pb (0x78 + 8 * (r - 128)) 8 % 2 ^ typeBits ty) }

/-- Running totals of a program over rows. -/
structure CompAcc where
  temps : Sparse RegVal
  sat : Nat
  nan : Nat
  divNull : Nat

def compStep (ds : List (List Byte)) (pb : List Byte) (prog : List CompIns) (row : Row) (acc : CompAcc) (i : CompIns) : CompAcc :=
  let get := compReg ds pb prog row acc.temps
  let r := compOp i (get i.a) (get i.b) (get i.c)
  { temps := sparsePut i.dst { ty := i.result, el := r.el } acc.temps, sat := acc.sat + boolNat r.sat, nan := acc.nan + boolNat r.nan,
    divNull := acc.divNull + boolNat r.divNull }

/-- A register into an output column under its ACTL. -/
def compStore (seed actl gi : Nat) (b : List Byte) (r : RegVal) : CompOut :=
  if !r.el.valid then .of Elem.null
  else if isStringTy (dsType b) then .of r.el
  else
    let v := convert r.ty (dsType b) r.el.bits 0 (dsOffset b) (actlRounding actl (srDraw seed 1 gi))
    { el := if v.null then Elem.null else Elem.num v.bits, sat := v.sat, nan := v.nanConv, divNull := false }

/-- One row of COMPUTE: the output row and its counts. -/
def compRow (seed actl : Nat) (ds outs : List (List Byte)) (pb : List Byte) (prog : List CompIns) (nk : Nat) (row : Row) : Row × CompAcc :=
  let acc := prog.foldl (compStep ds pb prog row) { temps := [], sat := 0, nan := 0, divNull := 0 }
  let cells := (List.range (outs.length - nk)).map (fun c =>
    compStore seed actl (rowKey row) (outs.getD (nk + c) []) (compReg ds pb prog row acc.temps (byteAt pb (0x38 + nk + c))))
  (row.take nk ++ cells.map (·.el),
    { acc with sat := acc.sat + (cells.filter (·.sat)).length, nan := acc.nan + (cells.filter (·.nan)).length })

def computeRun (s : State) (j : Job) (st : PlanStep) (pb : List Byte) : OpRes :=
  let ins := parSet j st pb 0
  let outs := parSet j st pb 1
  let prog := (List.range (byteAt pb 0x30)).map (compIns pb)
  let nk := if parPair pb 0 then 2 else 1
  let outmap := (List.range (outs.length - nk)).map (fun c => byteAt pb (0x38 + nk + c))
  let read := dedupNat ((prog.flatMap CompIns.reads ++ outmap).filter (fun c => decide (c < ins.length)))
  match readSetCols s st.scope ins (List.range nk ++ read) with
  | (s1, .error e) => (s1, .fail e)
  | (s1, .ok rows) =>
    let run := compRow (plSeed j.plan) (operActl (st.opers.getD 1 0)) ins outs pb prog nk
    let live := rows.filter isLive
    let own := countedRows s1 st.scope ins (parPair pb 0) live
    let counts := own.map (fun r => (run r).2)
    let r : ActResult := { ActResult.ok with
      elems := own.length, saturated := cutCount ins read own + sumNat (counts.map (·.sat)), nans := sumNat (counts.map (·.nan))
      coreSat := coreShares s1 st.scope ins rows own (fun rs =>
        (cutCount ins read rs + sumNat (rs.map (fun r => (run r).2.sat)), sumNat (rs.map (fun r => (run r).2.nan))))
      words := [own.length, sumNat (counts.map (·.divNull)), 0] }
    putSet s1 st.scope outs (parPair pb 1) (rows.map (fun r => if isLive r then (run r).1 else vacantRow (parPair pb 1) outs.length))
      (heavyOf (parPair pb 0) live own) r

/-- R145. -/
def execCompute (step : Nat) (s : State) : Host.Outcome State Fault Refusal := .next (runStep s step 3 (fun _ => true) computeRun)

/-! ### HASH (R147) -/

def hashRun (s : State) (j : Job) (st : PlanStep) (pb : List Byte) : OpRes :=
  let ins := parSet j st pb 0
  let h := hashUse j.plan j.pos pb
  let cols := parKeyCols pb
  match readSetCols s st.scope ins (keyRead pb cols) with
  | (s1, .error e) => (s1, .fail e)
  | (s1, .ok rows) =>
    let live := rows.filter isLive
    let out := rows.map (fun r => if isLive r then (match rowHash h ins cols r with
      | some x => Elem.num x.toNat
      | none => Elem.null) else Elem.null)
    let own := countedRows s1 st.scope ins (parPair pb 0) live
    let none' := (own.filter (fun r => (rowHash h ins cols r).isNone)).length
    (s1, { ActResult.ok with elems := own.length, saturated := cutCount ins cols own, words := [own.length, none', 0]
                             coreSat := coreShares s1 st.scope ins rows own (fun rs => (cutCount ins cols rs, 0))
                             writes := columnWrites s1 st.scope (opDesc j st 1) out })

/-- R147. -/
def execHash (step : Nat) (s : State) : Host.Outcome State Fault Refusal := .next (runStep s step 4 (fun _ => true) hashRun)

/-! ### Row records (R149) -/

/-- Bytes of one row record of a set with nk key columns. (DEDUCED, unsafe: log entry 52.) -/
def encodeRow (ds : List (List Byte)) (nk : Nat) (r : Row) : List Byte :=
  let cols := (List.range ds.length).drop nk
  let el (c : Nat) : Elem := r.getD c Elem.null
  let ty (c : Nat) : Nat := dsType (ds.getD c [])
  let keys := (List.range nk).flatMap (fun c => leBytes 8 (el c).bits)
  let valid := (List.range ds.length).foldl (fun acc c => if decide (c < nk) || (el c).valid then acc + 2 ^ c else acc) 0
  let fixed := cols.flatMap (fun c => if isStringTy (ty c) then leBytes 4 (el c).str.length
    else leBytes (typeBits (ty c) / 8) (columnBits (ty c) (el c)))
  let strs := cols.flatMap (fun c => if isStringTy (ty c) then (el c).str else [])
  let body := keys ++ leBytes 8 valid ++ fixed ++ strs
  body ++ List.replicate (roundUp body.length 8 - body.length) 0

/-- Fixed fields of a record: elements so far, string lengths by column, and the rest. (DEDUCED, unsafe: log entry 52.) -/
def decodeFixed (tys : List Nat) (valid nk : Nat) (bs : List Byte) : List (Elem × Nat) × List Byte :=
  ((List.range tys.length).zip tys).foldl (fun (acc : List (Elem × Nat) × List Byte) (p : Nat × Nat) =>
    let ok := bit valid (nk + p.1)
    if isStringTy p.2 then (acc.1 ++ [({ bits := 0, valid := ok, str := [] }, fieldN acc.2 0 4)], acc.2.drop 4)
    else
      let w := typeBits p.2 / 8
      (acc.1 ++ [({ bits := fieldN acc.2 0 w, valid := ok, str := [] }, 0)], acc.2.drop w)) ([], bs)

/-- One row record and the bytes after it. -/
def decodeRow (ds : List (List Byte)) (nk : Nat) (bs : List Byte) : Row × List Byte :=
  let tys := (ds.drop nk).map dsType
  let keys := (List.range nk).map (fun c => Elem.num (fieldN bs (8 * c) 8))
  let valid := fieldN bs (8 * nk) 8
  let (fixed, rest) := decodeFixed tys valid nk (bs.drop (8 * nk + 8))
  let (cells, rest2) := fixed.foldl (fun (acc : List Elem × List Byte) (p : Elem × Nat) =>
    (acc.1 ++ [{ p.1 with str := acc.2.take p.2 }], acc.2.drop p.2)) ([], rest)
  let used := bs.length - rest2.length
  (keys ++ cells, bs.drop (roundUp used 8))

/-- (DEDUCED, unsafe: log entry 53.) -/
def decodeRows (ds : List (List Byte)) (nk : Nat) : Nat → List Byte → List Row
  | 0, _ => []
  | n + 1, bs =>
    if bs.length < 8 * nk + 8 then []
    else
      let (r, rest) := decodeRow ds nk bs
      r :: decodeRows ds nk n rest

/-- Rows of a flow: its RECORDS, as far as its bytes go. -/
def flowRows (ds : List (List Byte)) (nk : Nat) (bs : List Byte) : List Row := decodeRows ds nk (fieldN bs 0 8) (bs.drop 16)

/-- The byte stream of a flow: header, then the records. -/
def flowStream (ds : List (List Byte)) (nk : Nat) (rows : List Row) : List Byte :=
  let body := rows.flatMap (encodeRow ds nk)
  leBytes 8 rows.length ++ leBytes 8 body.length ++ body

/-- How many of the records a flow of n bytes carries whole. (DEDUCED, unsafe: log entry 53.) -/
def fitCount (n : Nat) : List Nat → Nat → Nat
  | [], k => k
  | x :: xs, k => if x ≤ n then fitCount (n - x) xs (k + 1) else k

/-- Flow index of FLOWTAB for position d. -/
def flowTab (p : List Byte) (m off d : Nat) : Nat := leNat (paramBytes p m (off + 2 * d) 2)

/-- Streams to every other member, and the rows that their flows cannot carry (R149, R150). (DEDUCED, unsafe: log entry 53.) -/
def sendRows (j : Job) (ds : List (List Byte)) (nk tab : Nat) (rowsFor : Nat → List Row) : List (Nat × List Byte) × List Row :=
  ((List.range j.members.length).filter (· != j.pos)).foldl (fun (acc : List (Nat × List Byte) × List Row) d =>
    let rows := rowsFor d
    let f := flowAt j.plan (flowTab j.plan j.pos tab d)
    let n := fitCount (f.bytes - 16) (rows.map (fun r => (encodeRow ds nk r).length)) 0
    (acc.1 ++ [(f.index, (flowStream ds nk rows).take f.bytes)], acc.2 ++ rows.drop n)) ([], [])

/-- Rows from every member in ascending group position, the local ones at this member's own. -/
def gatherRows (j : Job) (ds : List (List Byte)) (nk : Nat) (arrivals : Arrivals) (own : List Row) : List (Nat × Row) :=
  (List.range j.members.length).flatMap (fun p =>
    let rows := if p = j.pos then own else ((arrivals.find? (fun a => a.1 == p)).map (fun a => flowRows ds nk a.2)).getD []
    rows.map (fun r => (p, r)))

/-! ### PARTITION (R148 to R152) -/

/-- What PARTITION's block fixes. -/
structure PartUse where
  role : Nat
  subparts : Nat
  heavy : List Nat
  hash : HashUse
  cols : List Nat

def partUse (j : Job) (pb : List Byte) : PartUse :=
  { role := byteAt pb 0x30, subparts := fieldN pb 0x34 4, heavy := heavyList j.plan j.pos pb, hash := hashUse j.plan j.pos pb,
    cols := parKeyCols pb }

/-- Partition of a hash. -/
def partitionOf (p : List Byte) (u : PartUse) (h : Option Word) : Nat :=
  match h with
  | none => 0
  | some x => x.toNat * (plLshards p * u.subparts) / 2 ^ 64

def PartUse.isHeavy (u : PartUse) (h : Option Word) : Bool :=
  u.role != 0 && (match h with
    | none => false
    | some x => u.heavy.contains x.toNat)

/-- Members to which a row of this member goes. (DEDUCED, unsafe: log entry 53.) -/
def partDests (j : Job) (u : PartUse) (h : Option Word) : List Nat :=
  if u.isHeavy h then (if u.role = 1 then List.range j.members.length else [j.pos]) else [ownerPos j.plan h]

/-- Landing state: rows by sub-partition, heap bytes used by column, rows that did not land, the EXHAUSTED code. -/
structure Landing where
  subs : List (List Row)
  heap : List Nat
  lost : Nat
  code : Nat

/-- Land one row into sub-partition q of capacity c. -/
def landRow (caps : List (Option Nat)) (c q : Nat) (owned : Bool) (l : Landing) (r : Row) : Landing :=
  let need := (List.range caps.length).map (fun k => l.heap.getD k 0 + heapNeed [r.getD k Elem.null])
  let tooBig := ((caps.zip need).any (fun (p : Option Nat × Nat) => match p.1 with
    | some n => decide (n < p.2)
    | none => false))
  if c ≤ (l.subs.getD q []).length then { l with lost := l.lost + boolNat owned, code := Nat.max l.code 2 }
  else if tooBig then { l with lost := l.lost + boolNat owned, code := Nat.max l.code 3 }
  else { l with subs := listModify l.subs q (· ++ [r]), heap := need }

/-- Rows routed are those that reached their owner; a row that its flow cannot carry counts at its source, in word 2. (DEDUCED, unsafe: log entry 106.) -/
def partitionRun (arrivals : Arrivals) (s : State) (j : Job) (st : PlanStep) (pb : List Byte) : OpRes :=
  let ins := parSet j st pb 0
  let outs := parSet j st pb 1
  let pair := parPair pb 0
  let nk := if pair then 2 else 1
  let u := partUse j pb
  match readSet s st.scope ins with
  | (s1, .error e) => (s1, .fail e)
  | (s1, .ok rows) =>
    let live := rowsByKey pair (rows.filter isLive)
    let hashed := live.map (fun r => (rowHash u.hash ins u.cols r, r))
    let rowsFor (d : Nat) : List Row := (hashed.filter (fun p => (partDests j u p.1).contains d)).map (·.2)
    let (flows, unsent) := sendRows j ins nk (fieldN pb 0x40 4) rowsFor
    let here := gatherRows j ins nk arrivals (rowsFor j.pos)
    let mine (p : Nat × Row) : Bool :=
      let h := rowHash u.hash ins u.cols p.2
      ownerPos j.plan h == j.pos || (u.role == 2 && u.isHeavy h)
    let c := setCapacity s1 st.scope outs / Nat.max u.subparts 1
    let caps := outs.map (fun b => if isStringTy (dsType b) then some (dsHeapBytes b * (windowsOf s1 st.scope b).length) else none)
    let start : Landing := { subs := List.replicate u.subparts [], heap := outs.map (fun _ => 0), lost := 0, code := 0 }
    let landed := here.foldl (fun l p =>
      landRow caps c (partitionOf j.plan u (rowHash u.hash ins u.cols p.2) % Nat.max u.subparts 1) (mine p) l p.2) start
    let own := here.filter mine
    let noHash := (own.filter (fun p => (rowHash u.hash ins u.cols p.2).isNone)).length
    let unsentOwn := unsent.filter (fun r => !(u.role == 1 && u.isHeavy (rowHash u.hash ins u.cols r)))
    let code := Nat.max landed.code (if unsent.isEmpty then 0 else 1)
    let table := landed.subs.flatMap (fun rs => rs ++ List.replicate (c - rs.length) (vacantRow pair outs.length))
    let r : ActResult := { ActResult.ok with
      elems := own.length - landed.lost, saturated := cutCount ins u.cols (countedRows s1 st.scope ins pair live), flows := flows
      coreSat := coreShares s1 st.scope ins rows (countedRows s1 st.scope ins pair live) (fun rs => (cutCount ins u.cols rs, 0))
      words := [own.length, noHash, exhaustedWord 0 (landed.lost + unsentOwn.length)] }
    let copies := here.filter (fun p => !mine p)
    (s1, (exhaust (outSet s1 st.scope outs pair table r) code).withHeavy s1 st.scope outs (copies.map (fun p => rowPair pair p.2)))

/-- R148 to R152. -/
def execPartition (step : Nat) (arrivals : Arrivals) (s : State) : Host.Outcome State Fault Refusal :=
  .next (runStep s step 5 (fun _ => true) (partitionRun arrivals))

/-! ### Joins (R153 to R155) -/

/-- The firmware's bytes in a join table: free values. (DESIGN CHOICE, safe: log entry 4.) (DESIGN CHOICE, safe: log entry 57.) -/
def freeBytes (s : State) (n : Nat) : State × List Byte :=
  ({ s with free := s.free + n }, (List.range n).map (fun i => Config.freeByte (s.free + i)))

/-- (DESIGN CHOICE, safe: log entry 57.) -/
def joinBuildRun (s : State) (j : Job) (st : PlanStep) (pb : List Byte) : OpRes :=
  let ins := parSet j st pb 0
  let h := hashUse j.plan j.pos pb
  let cols := parKeyCols pb
  match readSetCols s st.scope ins (keyRead pb cols) with
  | (s1, .error e) => (s1, .fail e)
  | (s1, .ok rows) =>
    let live := rows.filter isLive
    let put := live.filter (fun r => (rowHash h ins cols r).isSome)
    let own := countedRows s1 st.scope ins false live
    let ownPut := (own.filter (fun r => (rowHash h ins cols r).isSome)).length
    let d := opDesc j st 1
    let t : JoinTable := { jtab := operDesc (st.opers.getD 1 0), job := j.num, step := st.index,
                           rows := put.map (fun r => (rowKey r, rowKeyForm ins cols r)) }
    let old := s1.eng.joins.filter (fun x => !(x.job == j.num && x.step == st.index))
    let s2 := { s1 with eng := { s1.eng with joins := old ++ [t] } }
    let ws := windowsOf s2 st.scope d
    let (s3, bs) := freeBytes s2 (8 * dsShape d 0)
    (s3, { ActResult.ok with elems := ownPut, saturated := cutCount ins cols own, words := [ownPut, own.length - ownPut, 0]
                             coreSat := coreShares s1 st.scope ins rows own (fun rs => (cutCount ins cols rs, 0))
                             writes := ws.flatMap (fun w => (w + dsBase d, bs) :: fillPad d w (dsShape d 0)) })

/-- R153. -/
def execJoinBuild (step : Nat) (s : State) : Host.Outcome State Fault Refusal := .next (runStep s step 6 (fun _ => true) joinBuildRun)

/-- Output cells of a pair, past the key columns. -/
def joinCells (pb : List Byte) (nk n : Nat) (probe : Row) (build : Option Row) : Row :=
  (List.range (n - nk)).map (fun i =>
    let oc := byteAt pb (0x38 + nk + i)
    if bit oc 7 then (match build with
      | some r => r.getD (oc % 64) Elem.null
      | none => Elem.null)
    else probe.getD (oc % 64) Elem.null)

/-- Output rows of one probe row, given its matches in ascending build key. -/
def joinRows (kind : Nat) (pb : List Byte) (n : Nat) (probe : Row) (matches' : List Row) : List Row :=
  let key := probe.getD 0 Elem.null
  match kind with
  | 2 => if matches'.isEmpty then [] else [key :: joinCells pb 1 n probe none]
  | 3 => if matches'.isEmpty then [key :: joinCells pb 1 n probe none] else []
  | k =>
    if matches'.isEmpty then (if k = 1 then [key :: Elem.num vacantKey :: joinCells pb 2 n probe none] else [])
    else matches'.map (fun b => key :: b.getD 0 Elem.null :: joinCells pb 2 n probe (some b))

/-- Columns of one side that the output of a join copies. -/
def outReads (pb : List Byte) (n kind : Nat) (build : Bool) : List Nat :=
  let nk := if kind < 2 then 2 else 1
  ((List.range (n - nk)).filter (fun i => bit (byteAt pb (0x38 + nk + i)) 7 == build)).map (fun i => byteAt pb (0x38 + nk + i) % 64)

/-- (DESIGN CHOICE, unsafe: log entry 114.) -/
def joinProbeRun (s : State) (j : Job) (st : PlanStep) (pb : List Byte) : OpRes :=
  let probes := parSet j st pb 0
  let builds := parSet j st pb 2
  let outs := parSet j st pb 3
  let kind := byteAt pb 0x30
  let cols := parKeyCols pb
  let d := opDesc j st 1
  let table := ((s.eng.joins.find? (fun t => t.job == j.num && t.step == fieldN pb 0x34 4)).map (·.rows)).getD []
  match readSetCols s st.scope probes (0 :: cols ++ outReads pb outs.length kind false) with
  | (s1, .error e) => (s1, .fail e)
  | (s1, .ok prow) =>
    match readBytes s1 ((windowsOf s1 st.scope d).headD 0 + dsBase d) (8 * dsShape d 0) with
    | (s2, .error e) => (s2, .fail e)
    | (s2, .ok _) =>
      match readSetCols s2 st.scope builds (0 :: outReads pb outs.length kind true) with
      | (s3, .error e) => (s3, .fail e)
      | (s3, .ok brow) =>
        let live := rowsByKey false (prow.filter isLive)
        let blive := rowsByKey false (brow.filter isLive)
        let matchesOf (r : Row) : List Row :=
          if (keyCols probes cols r).any (fun k => !k.2.2.valid) then []
          else blive.filter (fun b => table.any (fun t => t.1 == rowKey b && t.2 == rowKeyForm probes cols r))
        let outOf (r : Row) : List Row := joinRows kind pb outs.length r (matchesOf r)
        let out := live.flatMap outOf
        let own := countedRows s3 st.scope probes false live
        let un := (own.filter (fun r => (matchesOf r).isEmpty)).length
        let outN := sumNat (own.map (fun r => (outOf r).length))
        let r : ActResult := { ActResult.ok with
          elems := outN, saturated := cutCount probes cols own, words := [own.length, outN, exhaustedWord 0 un]
          coreSat := coreShares s1 st.scope probes prow own (fun rs => (cutCount probes cols rs, 0)) }
        if setCapacity s3 st.scope outs < out.length then (s3, exhaust r 4)
        else
          let pair := decide (kind < 2)
          putSet s3 st.scope outs pair out (heavyOf pair out (own.flatMap outOf)) r

/-- R155. -/
def execJoinProbe (step : Nat) (s : State) : Host.Outcome State Fault Refusal := .next (runStep s step 7 (fun _ => true) joinProbeRun)

/-! ### DEDUP (R156) -/

/-- Rows in ascending key, keeping the first of each key form. -/
def firstOfEach (form : Row → List (List Nat)) (rows : List Row) : List Row :=
  rows.foldl (fun acc r => if acc.any (fun x => form x == form r) then acc else acc ++ [r]) []

def dedupRun (s : State) (j : Job) (st : PlanStep) (pb : List Byte) : OpRes :=
  let ins := parSet j st pb 0
  let pair := parPair pb 0
  let cols := parKeyCols pb
  match readSet s st.scope ins with
  | (s1, .error e) => (s1, .fail e)
  | (s1, .ok rows) =>
    let live := rowsByKey pair (rows.filter isLive)
    let form := rowKeyForm ins cols
    let kept := firstOfEach form live
    let ownLive := countedRows s1 st.scope ins pair live
    let ownKept := countedRows s1 st.scope ins pair kept
    let multi := (ownKept.filter (fun r => decide (1 < (live.filter (fun x => form x == form r)).length))).length
    let r : ActResult := { ActResult.ok with
      elems := ownKept.length, saturated := cutCount ins cols ownLive, words := [ownLive.length, ownKept.length, exhaustedWord 0 multi]
      coreSat := coreShares s1 st.scope ins rows ownLive (fun rs => (cutCount ins cols rs, 0)) }
    putSet s1 st.scope (parSet j st pb 1) (parPair pb 1) kept (heavyOf pair kept ownKept) r

/-- R156. -/
def execDedup (step : Nat) (s : State) : Host.Outcome State Fault Refusal := .next (runStep s step 0x15 (fun _ => true) dedupRun)

/-! ### EMIT (R157, R158, R80 to R82) -/

/-- emax of an MX element type (R80). -/
def mxEmax (ty : Nat) : Int :=
  match ty with
  | 0x20 => 8
  | 0x21 => 15
  | 0x22 => 4
  | 0x23 => 2
  | 0x24 => 2
  | _ => 0

/-- An MX block: scale byte, element patterns, saturated elements, special. -/
structure MxBlock where
  scale : Nat
  elems : List Nat
  sat : Nat
  special : Bool

/-- v × 2^−x. -/
def scaleVal (v : FVal) (x : Int) : FVal :=
  match v with
  | .fin n p q => if 0 ≤ x then .fin n p (q * 2 ^ x.toNat) else .fin n (p * 2 ^ (-x).toNat) q
  | w => w

/-- A value lies beyond the largest one of its sign in an MX element format: MXINT8 holds -128 to 127 in units of 2^-6 (R81). -/
def mxBeyond (ty : Nat) : FVal → Bool
  | .fin neg p q =>
    if ty = 0x25 then decide ((if neg then 128 else 127) * q < p * 64)
    else match decodeF (fmtOf ty) (fmtOf ty).maxBits with
      | .fin _ a b => decide (a * q < p * b)
      | _ => false
  | _ => false

/-- One element of an MX block, clamped to the largest finite magnitude; a magnitude beyond it counts as clamped, wherever it rounds (R64, R81). -/
def mxElem (ty : Nat) (r : Rounding) (v : FVal) : Conv :=
  let c := if ty = 0x25 then
      match v with
      | .fin n p q => clampInt 1 (signed n (roundFrac r n (p * 64) q))
      | _ => Conv.of 0
    else encodeF (fmtOf ty) { r with fsat := true } v
  { c with sat := c.sat || mxBeyond ty v }

/-- The block of 32 values; a null is none. gi is the global index of its first element. -/
def mxBlock (ty seed rmode gi : Nat) (vs : List (Option FVal)) : MxBlock :=
  let special := vs.any (fun v => match v with
    | some (.fin _ _ _) => false
    | some _ => true
    | none => false)
  let mags := vs.filterMap (fun v => match v with
    | some (.fin _ p q) => if p = 0 then none else some (log2Frac p q)
    | _ => none)
  if special then { scale := 0xFF, elems := List.replicate 32 0, sat := 0, special := true }
  else match mags with
  | [] =>
    let zs := (List.range 32).map (fun i => match vs.getD i none with
      | some v => (mxElem ty rne v).bits
      | none => 0)
    { scale := 0, elems := zs, sat := 0, special := false }
  | m :: ms =>
    let x := max (-127) (min 127 (ms.foldl max m - mxEmax ty))
    let cs := (List.range 32).map (fun i => match vs.getD i none with
      | some v => mxElem ty { rne with rmode := rmode, draw := srDraw seed 1 (gi + i) } (scaleVal v x)
      | none => Conv.of 0)
    { scale := (x + 127).toNat, elems := cs.map (·.bits), sat := (cs.filter (·.sat)).length, special := false }

/-- Bits of consecutive elements as bytes. -/
def packBits (w : Nat) (es : List Nat) : List Byte :=
  leBytes (ceilDiv (w * es.length) 8) (((List.range es.length).zip es).foldl (fun acc (p : Nat × Nat) => acc + p.2 * 2 ^ (w * p.1)) 0)

def padLine (bs : List Byte) : List Byte := bs ++ List.replicate (roundUp bs.length 64 - bs.length) 0

/-- An output column of EMIT. -/
structure EmitCol where
  src : Nat
  ty : Nat
  actl : Nat

def emitCol (pb : List Byte) (i : Nat) : EmitCol :=
  { src := byteAt pb (0x48 + 4 * i), ty := byteAt pb (0x49 + 4 * i), actl := byteAt pb (0x4A + 4 * i) }

/-- Array of one column of a batch and its counts: bytes, saturated, NaNs converted, special blocks. A timestamp column of a batch has
EPOCH_OFFSET 0. (DEDUCED, unsafe: log entry 105.) -/
def emitArray (seed : Nat) (src : List Byte) (c : EmitCol) (rows gi : Nat) (es : List Elem) : List Byte × Nat × Nat × Nat :=
  if isMx c.ty then
    let val (i : Nat) : Option FVal := match es[i]? with
      | some e => if e.valid then some (valueOf (dsType src) e.bits (dsOffset src)) else none
      | none => none
    let blocks := (List.range (rows / 32)).map (fun b =>
      mxBlock c.ty seed (bits c.actl 6 4) (gi + 32 * b) ((List.range 32).map (fun k => val (32 * b + k))))
    (padLine (blocks.map (fun b => BitVec.ofNat 8 b.scale)) ++ padLine (blocks.flatMap (fun b => packBits (typeBits c.ty) b.elems)),
      sumNat (blocks.map (·.sat)), 0, (blocks.filter (·.special)).length)
  else
    let cs := ((List.range es.length).zip es).map (fun (p : Nat × Elem) =>
      if p.2.valid then convert (dsType src) c.ty p.2.bits (dsOffset src) 0 (actlRounding c.actl (srDraw seed 1 (gi + p.1)))
      else Conv.of 0)
    let w := typeBits c.ty / 8
    let vals := cs.flatMap (fun v => leBytes w (if v.null then 0 else v.bits))
    (padLine (vals ++ List.replicate ((rows - es.length) * w) 0), (cs.filter (·.sat)).length, (cs.filter (·.nanConv)).length, 0)

/-- A batch and its counts (R158). -/
def emitBatch (j : Job) (ins : List (List Byte)) (pb : List Byte) (i : Nat) (rows : List Row) : List Byte × Nat × Nat × Nat :=
  let br := fieldN pb 0x30 4
  let nout := fieldN pb 0x34 2
  let arrays := (List.range nout).map (fun k =>
    let c := emitCol pb k
    emitArray (plSeed j.plan) (ins.getD c.src []) c br (i * br) (rows.map (fun r => r.getD c.src Elem.null)))
  let payload := arrays.flatMap (·.1)
  let hdr := leBytes 4 0x42504849 ++ leBytes 2 0x0100 ++ leBytes 2 nout ++ leBytes 8 (fieldN pb 0x40 8 + i) ++ leBytes 4 rows.length ++
    leBytes 4 br ++ leBytes 8 (rowKey (rows.headD [])) ++ leBytes 8 (plSeed j.plan) ++ slice j.plan 0x40 8 ++ leBytes 8 payload.length
  (hdr ++ leBytes 4 (crc32c (hdr ++ payload)).toNat ++ leBytes 4 0 ++ payload, sumNat (arrays.map (·.2.1)), sumNat (arrays.map (·.2.2.1)),
    sumNat (arrays.map (·.2.2.2)))

/-- Batches laid end to end as long as they fit: the bytes, how many, and their counts. -/
def fitBatches (cap : Nat) (bs : List (List Byte × Nat × Nat × Nat)) : List Byte × Nat × Nat × Nat × Nat :=
  bs.foldl (fun (acc : List Byte × Nat × Nat × Nat × Nat) b =>
    if acc.1.length + b.1.length ≤ cap then
      (acc.1 ++ b.1, acc.2.1 + 1, acc.2.2.1 + b.2.1, acc.2.2.2.1 + b.2.2.1, acc.2.2.2.2 + b.2.2.2)
    else acc) ([], 0, 0, 0, 0)

/-- (DEDUCED, unsafe: log entry 54.) -/
def emitRun (peers : List (Nat × Nat)) (arrivals : Arrivals) (handoverOk : Bool) (s : State) (j : Job) (st : PlanStep) (pb : List Byte) : OpRes :=
  let ins := parSet j st pb 0
  let pair := parPair pb 0
  let nk := if pair then 2 else 1
  let br := Nat.max (fieldN pb 0x30 4) 1
  let n := Nat.max j.members.length 1
  let nout := fieldN pb 0x34 2
  match readSet s st.scope ins with
  | (s1, .error e) => (s1, .fail e)
  | (s1, .ok rows) =>
    let live := rowsByKey pair (rows.filter isLive)
    let keys := live.map (rowPair pair) ++ peers
    let rankOf (r : Row) : Nat := rankIn keys (rowPair pair r)
    let rowsFor (d : Nat) : List Row := live.filter (fun r => rankOf r / br % n == d)
    let (flows, unsent) := sendRows j ins nk (fieldN pb 0x38 4) rowsFor
    let here := (gatherRows j ins nk arrivals (rowsFor j.pos)).map (·.2)
    let mineN := (List.range (ceilDiv keys.length br)).filter (fun i => i % n == j.pos)
    let batches := (mineN.map (fun i => (i, rowsByKey pair (here.filter (fun r => rankOf r / br == i))))).filter (fun b => !b.2.isEmpty)
    let d := opDesc j st 1
    let base := (windowsOf s1 st.scope d).headD 0 + dsBase d
    let (bs, done, sat, nan, spec) := fitBatches (8 * dsShape d 0) (batches.map (fun b => emitBatch j ins pb b.1 b.2))
    let code := Nat.max (if done < batches.length then 5 else 0) (if unsent.isEmpty then 0 else 1)
    let own := (countedRows s1 st.scope ins pair live).length
    let placed := sumNat ((batches.take done).map (fun b => b.2.length))
    let r : ActResult := { ActResult.ok with
      elems := placed * nout, saturated := sat, nans := nan, special := spec, flows := flows,
      words := [own, done, 0], writes := if bs.isEmpty then [] else [(base, bs)] }
    if handoverOk then (s1, exhaust r code)
    else
      let k := (scopeCores s1 st.scope).headD devKey
      (stickySet (count s1 k 4 1) k 9, { r with status := 0x0401, writes := [] })

/-- R157; a mismatch of the handover commits no batch (R310). -/
def execEmit (step : Nat) (peerKeys : List (Nat × Nat)) (arrivals : Arrivals) (handoverOk : Bool) (s : State) : Host.Outcome State Fault Refusal :=
  .next (runStep s step 0x14 (fun _ => true) (emitRun peerKeys arrivals handoverOk))

end Sys2Proof.Machine
end

