-- ==== Sys2Proof/Machine/Hardy.lean ====
section
/-!
DEFINITION. The Hardy units (R161 to R186): loading, insertion, rebalancing, the three searches, the corrections of R171; and FILTER
(R142 to R144), whose IN-lists use the same units.
-/
namespace Sys2Proof.Machine

/-! ### Tables (R162 to R167) -/

def hardyGet (s : State) (d : Nat) : HardyUnit := sparseGet HardyUnit.reset d s.eng.hardy

def hardyMod (s : State) (d : Nat) (f : HardyUnit → HardyUnit) : State :=
  { s with eng := { s.eng with hardy := sparseSet HardyUnit.reset d (f (hardyGet s d)) s.eng.hardy } }

/-- Dies in service within a scope: indices, ascending. -/
def scopeDies (s : State) (scope : Nat) : List Nat := ((diesOf scope).filter (fun k => !isOffline s k)).map keyDie

def tableOf (u : HardyUnit) (h : Nat) : Option HardyTable := u.tables.find? (fun t => t.htab == h)

/-- Replace the table of a number. -/
def putTable (u : HardyUnit) (t : HardyTable) : HardyUnit := { u with tables := u.tables.filter (fun x => x.htab != t.htab) ++ [t] }

def HardyTable.entries (t : HardyTable) : List HardyEntry := t.blocks.flatten

/-- Table order (R164): by LO then TAG, by TAG in care-mask tables, as the shadow copies hold them. -/
def entryLt (kind : Nat) (a b : HardyEntry) : Bool :=
  if kind = 0x16 then decide (a.shTag < b.shTag) else pairLt (a.sh1, a.shTag) (b.sh1, b.shTag)

/-- Parity bits of a field, one for each 16 bits. -/
def fieldParity (x : Nat) : Nat :=
  sumNat ((List.range 4).map (fun g => sumNat ((List.range 16).map (fun b => boolNat (bit x (16 * g + b)))) % 2 * 2 ^ g))

/-- Parity bits of the three fields of a search copy. -/
def HardyEntry.parityNow (e : HardyEntry) : Nat := fieldParity e.f1 + 16 * fieldParity e.f2 + 256 * fieldParity e.tag

/-- The search copy written from the shadow copy. -/
def HardyEntry.refresh (e : HardyEntry) : HardyEntry :=
  let r := { e with f1 := e.sh1, f2 := e.sh2, tag := e.shTag }
  { r with parity := r.parityNow }

/-- An entry as it is written: both copies, parity and check bits (R164). -/
def HardyEntry.of (f1 f2 tag : Nat) : HardyEntry :=
  ({ f1 := f1, f2 := f2, tag := tag, parity := 0, sh1 := f1, sh2 := f2, shTag := tag,
     check := checkOf f1 + 2 ^ 8 * checkOf f2 + 2 ^ 16 * checkOf tag } : HardyEntry).refresh

/-- Blocks of n entries each. -/
def chunkBlocks (n blocks : Nat) (es : List HardyEntry) : List (List HardyEntry) :=
  (List.range blocks).map (fun i => (es.drop (n * i)).take n)

/-- The entry a row supplies; none when R175 rejects it. -/
def entryOf (kind : Nat) (ds : List (List Byte)) (lo hi : Nat) (r : Row) : Option HardyEntry :=
  let a := r.getD lo Elem.null
  let b := r.getD hi Elem.null
  let ta := dsType (ds.getD lo [])
  let tb := dsType (ds.getD hi [])
  if kind = 0x16 then
    if a.valid && b.valid then some (HardyEntry.of a.bits b.bits (rowKey r)) else none
  else
    let ka := orderKey ta a.bits (dsOffset (ds.getD lo []))
    let kb := if kind = 8 then ka else orderKey tb b.bits (dsOffset (ds.getD hi []))
    let bad := !a.valid || isNanBits ta a.bits || (kind == 9 && (!b.valid || isNanBits tb b.bits || decide (kb < ka)))
    if bad then none else some (HardyEntry.of ka kb (rowKey r))

/-- Fields of a Hardy operator block (R173). -/
def hpMode (pb : List Byte) : Nat := byteAt pb 0x30
def hpTab (pb : List Byte) : Nat := byteAt pb 0x31
def hpFill (pb : List Byte) : Nat := byteAt pb 0x32
def hpKind (pb : List Byte) : Nat := byteAt pb 0x33
def hpBlocks (pb : List Byte) : Nat := fieldN pb 0x34 2
def hpLo (pb : List Byte) : Nat := byteAt pb 0x36
def hpHi (pb : List Byte) : Nat := byteAt pb 0x37
def hpKey (pb : List Byte) : Nat := byteAt pb 0x38
def hpLoad (pb : List Byte) : Nat := fieldN pb 0x3C 4

/-! ### The life of a table (R162) -/

/-- A step that loads, fills, searches or rebalances a Hardy table. -/
def isHardyOp (st : PlanStep) : Bool := st.kind == 0 && [8, 9, 0x16].contains st.opcode

def isLoad (p : List Byte) (m : Nat) (st : PlanStep) : Bool := isHardyOp st && hpMode (stepParams p m st) == 0

def stepEnd (st : PlanStep) : Nat := st.offset + st.budget - 1

/-- Steps that use the table of a LOAD: later steps that name it as LOAD_STEP. -/
def usersOf (p : List Byte) (m : Nat) (ld : PlanStep) : List PlanStep :=
  (planSteps p).filter (fun st => isHardyOp st && !isLoad p m st && hpTab (stepParams p m st) == hpTab (stepParams p m ld) &&
    hpLoad (stepParams p m st) == ld.index)

/-- Last offset of a table's life (R162). -/
def tableEnd (p : List Byte) (m : Nat) (ld : PlanStep) : Nat := maxNat (stepEnd ld :: (usersOf p m ld).map stepEnd)

/-- Count entries written on every die of a scope (R184). -/
def countDies (s : State) (dies : List Nat) (c n : Nat) : State := dies.foldl (fun t d => count t (dieKey d) c n) s

/-- The step number that Hardy units show is the one at which the activity started. -/
def hardyCols (kind : Nat) (pb : List Byte) : List Nat := if kind = 8 then [hpLo pb] else [hpLo pb, hpHi pb]

/-- R165: build the table on every die of the scope. -/
def hardyLoadRun (kind : Nat) (s : State) (j : Job) (st : PlanStep) (pb : List Byte) : OpRes :=
  let ins := parSet j st pb 0
  match readSetCols s st.scope ins (keyRead pb (hardyCols kind pb)) with
  | (s1, .error e) => (s1, .fail e)
  | (s1, .ok rows) =>
    let live := rows.filter isLive
    let make := entryOf kind ins (hpLo pb) (hpHi pb)
    let own := countedRows s1 st.scope ins (parPair pb 0) live
    let ownTags := (own.filterMap make).map (·.tag)
    let all := sortBy (entryLt kind) (live.filterMap make)
    let kept := all.take (hpFill pb * hpBlocks pb)
    let t : HardyTable := { htab := hpTab pb, kind := kind, loadStep := st.index, blocks := chunkBlocks (hpFill pb) (hpBlocks pb) kept }
    let dies := scopeDies s1 st.scope
    let s2 := countDies (dies.foldl (fun u d => hardyMod u d (fun h => putTable h t)) s1) dies 21 kept.length
    let r : ActResult := { ActResult.ok with
      saturated := cutCount ins (hardyCols kind pb) own
      coreSat := coreShares s1 st.scope ins rows own (fun rs => (cutCount ins (hardyCols kind pb) rs, 0))
      words := [own.length, own.length - ownTags.length, (kept.filter (fun e => ownTags.contains e.tag)).length] }
    (s2, exhaust r (if kept.length < all.length then 6 else 0))

/-- Home block of a new entry (R166 rule 1). -/
def homeBlock (kind : Nat) (bs : List (List HardyEntry)) (e : HardyEntry) : Nat :=
  ((List.range bs.length).filter (fun i => match (bs.getD i []).head? with
    | some x => entryLt kind x e
    | none => false)).getLastD 0

def placeIn (kind : Nat) (bs : List (List HardyEntry)) (i : Nat) (e : HardyEntry) : List (List HardyEntry) :=
  listModify bs i (insertBy (entryLt kind) e)

/-- One insertion (R166): the blocks and whether an entry was borrowed; none without room. (DESIGN CHOICE, unsafe: log entry 114.) -/
def insertEntry (kind : Nat) (bs : List (List HardyEntry)) (e : HardyEntry) : Option (List (List HardyEntry) × Bool) :=
  let h := homeBlock kind bs e
  let size (i : Nat) : Nat := (bs.getD i []).length
  if size h < 16 then some (placeIn kind bs h e, false)
  else if h + 1 < bs.length ∧ size (h + 1) < 16 then
    let moved := (bs.getD h []).drop 15
    some (placeIn kind ((bs.set (h + 1) (moved ++ bs.getD (h + 1) [])).set h ((bs.getD h []).take 15)) h e, true)
  else if 1 ≤ h ∧ size (h - 1) < 16 then
    let moved := (bs.getD h []).take 1
    some (placeIn kind ((bs.set (h - 1) (bs.getD (h - 1) [] ++ moved)).set h ((bs.getD h []).drop 1)) h e, true)
  else none

/-- Insert entries in order until one finds no room: blocks, borrows, entries placed. -/
def insertAll (kind : Nat) : List HardyEntry → List (List HardyEntry) → Nat → Nat → List (List HardyEntry) × Nat × Nat
  | [], bs, b, n => (bs, b, n)
  | e :: es, bs, b, n =>
    match insertEntry kind bs e with
    | none => (bs, b, n)
    | some (bs', borrowed) => insertAll kind es bs' (b + boolNat borrowed) (n + 1)

/-- Insert entries into a die's own copy of a table, if it holds one: borrows and entries placed, which the die counts (R184). -/
def insertOn (kind : Nat) (new : List HardyEntry) (htab : Nat) (s : State) (d : Nat) : Option (State × Nat × Nat) :=
  (tableOf (hardyGet s d) htab).map (fun t =>
    let (bs, borrows, placed) := insertAll kind new t.blocks 0 0
    (count (hardyMod s d (fun h => putTable h { t with blocks := bs })) (dieKey d) 21 placed, borrows, placed))

/-- R166. -/
def hardyInsertRun (kind : Nat) (s : State) (j : Job) (st : PlanStep) (pb : List Byte) : OpRes :=
  let ins := parSet j st pb 0
  match readSetCols s st.scope ins (keyRead pb (hardyCols kind pb)) with
  | (s1, .error e) => (s1, .fail e)
  | (s1, .ok rows) =>
    let live := rows.filter isLive
    let make := entryOf kind ins (hpLo pb) (hpHi pb)
    let own := countedRows s1 st.scope ins (parPair pb 0) live
    let new := sortBy (entryLt kind) (live.filterMap make)
    let dies := scopeDies s1 st.scope
    let (s2, done) := dies.foldl (fun acc d => match insertOn kind new (hpTab pb) acc.1 d with
      | some (u, x) => (u, acc.2 ++ [x])
      | none => acc) (s1, [])
    let (borrows, placed) := done.headD (0, 0)
    let r : ActResult := { ActResult.ok with
      saturated := cutCount ins (hardyCols kind pb) own, words := [own.length, own.length - (own.filterMap make).length, borrows]
      coreSat := coreShares s1 st.scope ins rows own (fun rs => (cutCount ins (hardyCols kind pb) rs, 0)) }
    (s2, exhaust r (if placed < new.length then 6 else 0))

/-- Blocks after a rebalance (R167). -/
def rebalanced (t : HardyTable) : HardyTable :=
  let es := sortBy (entryLt t.kind) t.entries
  let n := t.blocks.length
  let size (i : Nat) : Nat := if n = 0 then 0 else es.length / n + (if i < es.length % n then 1 else 0)
  let start (i : Nat) : Nat := sumNat ((List.range i).map size)
  { t with blocks := (List.range n).map (fun i => (es.drop (start i)).take (size i)) }

/-- R167: every die within SCOPE that holds the table. (DESIGN CHOICE, unsafe: log entry 114.) -/
def execHardyRebalance (step : Nat) (s : State) : Host.Outcome State Fault Refusal :=
  .next (match servedStep s step 1 0 with
    | none => s
    | some (j, st) =>
      let h := byteAt (stepParams j.plan j.pos st) 0
      let dies := (scopeDies s st.scope).filter (fun d => (tableOf (hardyGet s d) h).isSome)
      let s1 := dies.foldl (fun u d =>
        match tableOf (hardyGet u d) h with
        | none => u
        | some t =>
          let t' := rebalanced t
          count (count (hardyMod u d (fun x => putTable x t')) (dieKey d) 21 t'.entries.length) (dieKey d) 22 1) s
      setResult s1 j (.step step) ActResult.ok)

/-- R165. -/
def execRangeBucketLoad (step : Nat) (s : State) : Host.Outcome State Fault Refusal :=
  .next (runStep s step 8 (fun pb => hpMode pb == 0) (hardyLoadRun 8))

/-- R166. -/
def execRangeBucketInsert (step : Nat) (s : State) : Host.Outcome State Fault Refusal :=
  .next (runStep s step 8 (fun pb => hpMode pb == 1) (hardyInsertRun 8))

/-- R165. -/
def execRangeJoinLoad (step : Nat) (s : State) : Host.Outcome State Fault Refusal :=
  .next (runStep s step 9 (fun pb => hpMode pb == 0) (hardyLoadRun 9))

/-- R166. -/
def execRangeJoinInsert (step : Nat) (s : State) : Host.Outcome State Fault Refusal :=
  .next (runStep s step 9 (fun pb => hpMode pb == 1) (hardyInsertRun 9))

/-- R165. -/
def execMaskMatchLoad (step : Nat) (s : State) : Host.Outcome State Fault Refusal :=
  .next (runStep s step 0x16 (fun pb => hpMode pb == 0) (hardyLoadRun 0x16))

/-! ### Searching (R168 to R172) -/

/-- An entry counts for a key. -/
def entryHits (kind k : Nat) (e : HardyEntry) : Bool :=
  if kind = 8 then decide (e.f1 ≤ k)
  else if kind = 9 then decide (e.f1 ≤ k ∧ k ≤ e.f2)
  else (k ^^^ e.f1) &&& e.f2 == 0

/-- An entry under an upset of either copy. (DEDUCED, unsafe: log entry 58.) -/
def upsetEntry (u : HardyUpset) (e : HardyEntry) : HardyEntry :=
  { f1 := e.f1 ^^^ u.mask1.toNat, f2 := e.f2 ^^^ u.mask2.toNat, tag := e.tag ^^^ u.maskTag.toNat, parity := e.parity ^^^ u.maskParity.toNat,
    sh1 := e.sh1 ^^^ u.shadow1.toNat, sh2 := e.sh2 ^^^ u.shadow2.toNat, shTag := e.shTag ^^^ u.shadowTag.toNat,
    check := e.check ^^^ u.shadowCheck.toNat }

/-- R171's correction on die d: counter, sticky bit, a logged CE, and LAST_FIX. The position is a free value. -/
def noteFix (s : State) (d htab : Nat) (parity : Bool) : State :=
  let inst := 64 * (d % 20) + 32
  let pos := Config.freeWord s.free
  let s1 := { s with free := s.free + 1 }
  let s2 := hardyMod s1 d (fun h => { h with
    lastFixStep := BitVec.ofNat 32 (planStep s1).toNat, lastFixCause := if parity then 1 else 0
    lastFixHtab := BitVec.ofNat 4 htab, lastFixPos := pos.setWidth 14 })
  let s3 := eccEvent s2 (instKey (d / 20) inst pos.toNat) 0 0
  stickySet (count s3 (dieKey d) 3 1) (dieKey d) 13

/-- Rows per core of an operand: the window's rows of a staged one, an even share of any other (R159). (DEDUCED, unsafe: log entry 49.) -/
def rowsPerCore (s : State) (scope : Nat) (b : List Byte) : Nat :=
  if dsTier b = 2 then dsShape b 0 else ceilDiv (dsShape b 0) (Nat.max (scopeCores s scope).length 1)

/-- Die that searches for row r of an operand: that of the row's core. (DEDUCED, unsafe: log entry 49.) -/
def dieOfRow (s : State) (scope : Nat) (b : List Byte) (r : Nat) : Nat :=
  keyDie ((scopeCores s scope).getD (r / Nat.max (rowsPerCore s scope b) 1) 0)

/-- One shadow word read through its code: the corrected word, and whether a single bit was wrong; none when it cannot be corrected. -/
def shadowWord (x ck : Nat) : Option (Nat × Bool) :=
  match decodeSyndrome (BitVec.ofNat 8 (checkOf x ^^^ ck)) with
  | .clean => some (x, false)
  | .ceCheck => some (x, true)
  | .ceData i => some (x ^^^ 2 ^ i, true)
  | _ => none

/-- The shadow copy as read: corrected, and how many of its words were. -/
def shadowRead (e : HardyEntry) : Option (HardyEntry × Nat) :=
  match shadowWord e.sh1 (e.check % 2 ^ 8), shadowWord e.sh2 (e.check / 2 ^ 8 % 2 ^ 8), shadowWord e.shTag (e.check / 2 ^ 16 % 2 ^ 8) with
  | some a, some b, some c =>
    some ({ e with sh1 := a.1, sh2 := b.1, shTag := c.1, check := checkOf a.1 + 2 ^ 8 * checkOf b.1 + 2 ^ 16 * checkOf c.1 },
      boolNat a.2 + boolNat b.2 + boolNat c.2)
  | _, _, _ => none

/-- Correctable errors of a shadow copy are logged at the die's SRAM instance (R295, R301). -/
def noteShadow (s : State) (d n : Nat) : State :=
  (List.range n).foldl (fun t _ =>
    let pos := Config.freeWord t.free
    eccEvent { t with free := t.free + 1 } (instKey (d / 20) (64 * (d % 20) + 32) (pos.toNat % 2 ^ 14)) 0 0) s

/-- A search in progress on a die: the entries block by block, the entries that each search so far found, and whether one met an
uncorrectable error. -/
structure SearchRun where
  state : State
  blocks : List (List HardyEntry)
  found : List (List HardyEntry)
  lost : Bool

/-- What one search works with on a die: its table number, or a list's, and the kind of its entries. -/
structure SearchUse where
  die : Nat
  htab : Nat
  kind : Nat
  /-- A FILTER list, which is no table. -/
  list : Bool

/-- One entry under a search: an entry that counts or fails its parity is checked against its shadow, which corrects it or ends the search;
any other stands (R171, R172). (DESIGN CHOICE, unsafe: log entry 114.) -/
def checkEntry (u : SearchUse) (k : Nat) (s : State) (e : HardyEntry) : State × Option HardyEntry :=
  let parity := e.parity != e.parityNow
  if !(parity || entryHits u.kind k e) then (s, some e)
  else match shadowRead e with
    | none =>
      let pos := Config.freeWord s.free
      let s1 := eccEvent { s with free := s.free + 1 } (instKey (u.die / 20) (64 * (u.die % 20) + 32) (pos.toNat % 2 ^ 14)) 0 1
      ({ s1 with mem := { s1.mem with badUnit := some (dieKey u.die) } }, none)
    | some (e1, n) =>
      let s1 := noteShadow s u.die n
      if e1.refresh = e1 then (s1, some e1)
      else (noteFix s1 u.die u.htab parity, some e1.refresh)

/-- The entries of one block under a search. -/
def checkBlock (u : SearchUse) (k : Nat) (s : State) : List HardyEntry → State × List HardyEntry × Bool
  | [] => (s, [], false)
  | e :: es =>
    match checkEntry u k s e with
    | (s1, none) => (s1, e :: es, true)
    | (s1, some e1) =>
      let r := checkBlock u k s1 es
      (r.1, e1 :: r.2.1, r.2.2)

/-- Every block under a search. -/
def checkBlocks (u : SearchUse) (k : Nat) (s : State) : List (List HardyEntry) → State × List (List HardyEntry) × Bool
  | [] => (s, [], false)
  | b :: bs =>
    match checkBlock u k s b with
    | (s1, b1, true) => (s1, b1 :: bs, true)
    | (s1, b1, false) =>
      let r := checkBlocks u k s1 bs
      (r.1, b1 :: r.2.1, r.2.2)

/-- Search number i of a die, for one key, after the bits that flip before it. A search after an uncorrectable error finds nothing. -/
def searchKey (u : SearchUse) (upsets : List HardyUpset) (acc : SearchRun) (x : Nat × Nat) : SearchRun :=
  if acc.lost then { acc with found := acc.found ++ [[]] }
  else
    let blocks := (upsets.filter (fun f => f.before == x.1)).foldl (fun bs f =>
      listModify bs f.block (fun b => match b[f.place]? with
        | some e => b.set f.place (upsetEntry f e)
        | none => b)) acc.blocks
    let r := checkBlocks u x.2 acc.state blocks
    { state := count r.1 (dieKey u.die) 20 1, blocks := r.2.1,
      found := acc.found ++ [if r.2.2 then [] else r.2.1.flatten.filter (entryHits u.kind x.2)], lost := r.2.2 }

/-- A die's searches over its keys in order, twice for two passes: the table keeps its corrections, or is lost (R172). (DEDUCED, unsafe: log entry 58.) -/
def dieSearch (s : State) (u : SearchUse) (passes : Nat) (blocks : List (List HardyEntry)) (upsets : List HardyUpset) (keys : List Nat) : SearchRun :=
  let all := (List.replicate passes keys).flatten
  let mine := upsets.filter (fun f => f.die == u.die && f.htab == u.htab)
  let r := ((List.range all.length).zip all).foldl (searchKey u mine) { state := s, blocks := blocks, found := [], lost := false }
  if u.list || keys.isEmpty then r
  else { r with state := hardyMod r.state u.die (fun h => { h with
    tables := if r.lost then h.tables.filter (fun t => t.htab != u.htab)
      else h.tables.map (fun t => if t.htab = u.htab then { t with blocks := r.blocks } else t) }) }

/-- Search keys of rows, with the die of each; none for a vacant row, a null or a NaN, which makes no search. -/
def searchRows (s : State) (scope kind : Nat) (ds : List (List Byte)) (col : Nat) (rows : List Row) : List (Nat × Option Nat) :=
  let b := ds.getD col []
  ((List.range rows.length).zip rows).map (fun (p : Nat × Row) =>
    let e := p.2.getD col Elem.null
    let nan := isNanBits (dsType b) e.bits
    (dieOfRow s scope (ds.getD 0 []) p.1,
      if !isLive p.2 || !e.valid then none
      else if kind = 0x16 then some e.bits
      else if nan then none else some (orderKey (dsType b) e.bits (dsOffset b))))

def loadedBlocks (htab : Nat) (s : State) (d : Nat) : List (List HardyEntry) := ((tableOf (hardyGet s d) htab).map (·.blocks)).getD []

/-- What each die of the scope finds: its searches' entries in the order of its keys, pass after pass; whether one met an uncorrectable error
(R172). -/
def scopeSearch (s : State) (scope kind htab passes : Nat) (list : Option (List (List HardyEntry))) (upsets : List HardyUpset)
    (rows : List (Nat × Option Nat)) : State × List (Nat × List (List HardyEntry)) × Bool :=
  (scopeDies s scope).foldl (fun (acc : State × List (Nat × List (List HardyEntry)) × Bool) d =>
    let keys := rows.filterMap (fun r => if r.1 = d then r.2 else none)
    let r := dieSearch acc.1 { die := d, htab := htab, kind := kind, list := list.isSome } passes
      (list.getD (loadedBlocks htab acc.1 d)) upsets keys
    (r.state, acc.2.1 ++ [(d, r.found)], acc.2.2 || r.lost)) (s, [], false)

/-- The entries found for each row in a pass: the searches of a die answer its rows that have a key, in order. -/
def rowFinds (tabs : List (Nat × List (List HardyEntry))) (rows : List (Nat × Option Nat)) (pass : Nat) : List (List HardyEntry) :=
  ((List.range rows.length).zip rows).map (fun (x : Nat × Nat × Option Nat) =>
    if x.2.2.isNone then []
    else
      let before := ((rows.take x.1).filter (fun r => r.1 == x.2.1 && r.2.isSome)).length
      let all := (rows.filter (fun r => r.1 == x.2.1 && r.2.isSome)).length
      (((tabs.find? (fun t => t.1 == x.2.1)).map (·.2)).getD []).getD (pass * all + before) [])

/-! ### The three operators (R176 to R178) -/

/-- A live row that makes no search: its key is null or NaN. -/
def noKey (ds : List (List Byte)) (col : Nat) (r : Row) : Bool :=
  let e := r.getD col Elem.null
  !e.valid || isNanBits (dsType (ds.getD col [])) e.bits

/-- Null results are those of live rows. (DEDUCED, unsafe: log entry 107.) -/
def bucketSearchRun (upsets : List HardyUpset) (s : State) (j : Job) (st : PlanStep) (pb : List Byte) : OpRes :=
  let ins := parSet j st pb 0
  match readSetCols s st.scope ins (keyRead pb [hpKey pb]) with
  | (s1, .error e) => (s1, .fail e)
  | (s1, .ok rows) =>
    let keys := searchRows s1 st.scope 8 ins (hpKey pb) rows
    let (s2, tabs, lost) := scopeSearch s1 st.scope 8 (hpTab pb) 1 none upsets keys
    let out := (keys.zip (rowFinds tabs keys 0)).map (fun k => if k.1.2.isNone then Elem.null else Elem.num k.2.length)
    let own := countedRows s2 st.scope ins (parPair pb 0) (rows.filter isLive)
    let nulls := (own.filter (fun r => noKey ins (hpKey pb) r)).length
    if lost then (s2, .fail 0x0400)
    else (s2, { ActResult.ok with
      elems := own.length, saturated := cutCount ins [hpKey pb] own, words := [own.length, nulls, 0]
      coreSat := coreShares s2 st.scope ins rows own (fun rs => (cutCount ins [hpKey pb] rs, 0))
      writes := columnWrites s2 st.scope (opDesc j st 1) out })

/-- R176. -/
def execRangeBucketSearch (step : Nat) (upsets : List HardyUpset) (s : State) : Host.Outcome State Fault Refusal :=
  .next (runStep s step 8 (fun pb => hpMode pb == 2) (bucketSearchRun upsets))

/-- The build row of an entry: the set's row of that order key, or the TAG alone. -/
def buildRow (rows : List Row) (e : HardyEntry) : Row :=
  (rows.find? (fun r => isLive r && rowKey r == e.tag)).getD [Elem.num e.tag]

/-- OUTCOLS of a Hardy block stands at 0x40, as JOIN_PROBE's at 0x38. -/
def outColsBlock (pb : List Byte) : List Byte := slice pb 0 0x38 ++ slice pb 0x40 64

/-- (DEDUCED, unsafe: log entry 58.) -/
def rangeJoinSearchRun (upsets : List HardyUpset) (s : State) (j : Job) (st : PlanStep) (pb : List Byte) : OpRes :=
  let ins := parSet j st pb 0
  let builds := parSet j st pb 1
  let outs := parSet j st pb 2
  let kind := hpKind pb
  let oc := outColsBlock pb
  match readSetCols s st.scope ins (0 :: hpKey pb :: outReads oc outs.length kind false) with
  | (s1, .error e) => (s1, .fail e)
  | (s1, .ok rows) =>
    match readSetCols s1 st.scope builds (0 :: outReads oc outs.length kind true) with
    | (s2, .error e) => (s2, .fail e)
    | (s2, .ok brow) =>
      let keys := searchRows s2 st.scope 9 ins (hpKey pb) rows
      let (s3, tabs, lost) := scopeSearch s2 st.scope 9 (hpTab pb) 2 none upsets keys
      let found (pass : Nat) : List (Row × List HardyEntry) :=
        sortBy (fun a b => decide (rowKey a.1 < rowKey b.1)) ((rows.zip (rowFinds tabs keys pass)).filter (fun x => isLive x.1))
      let hitsOf (es : List HardyEntry) : List Row := (sortBy (fun a b => decide (a.tag < b.tag)) es).map (buildRow brow)
      let outOf (x : Row × List HardyEntry) : List Row := joinRows kind oc outs.length x.1 (hitsOf x.2)
      let out := (found 1).flatMap outOf
      let own := countedRows s3 st.scope ins false ((found 0).map (·.1))
      let counted := (found 0).filter (fun x => own.contains x.1)
      let n := sumNat (counted.map (fun x => (outOf x).length))
      let un := (counted.filter (fun x => x.2.isEmpty)).length
      let pair := decide (kind < 2)
      let r : ActResult := { ActResult.ok with
        elems := n, saturated := cutCount ins [hpKey pb] own, words := [own.length, n, exhaustedWord 0 un]
        coreSat := coreShares s3 st.scope ins rows own (fun rs => (cutCount ins [hpKey pb] rs, 0)) }
      if lost then (s3, .fail 0x0400)
      else if setCapacity s3 st.scope outs < sumNat ((found 0).map (fun x => (outOf x).length)) then
        (s3, { exhaust r 4 with elems := 0, writes := setWrites s3 st.scope outs pair [] })
      else putSet s3 st.scope outs pair out (heavyOf pair out (((found 1).filter (fun x => own.contains x.1)).flatMap outOf)) r

/-- R177. -/
def execRangeJoinSearch (step : Nat) (upsets : List HardyUpset) (s : State) : Host.Outcome State Fault Refusal :=
  .next (runStep s step 9 (fun pb => hpMode pb == 2) (rangeJoinSearchRun upsets))

def maskSearchRun (upsets : List HardyUpset) (s : State) (j : Job) (st : PlanStep) (pb : List Byte) : OpRes :=
  let ins := parSet j st pb 0
  match readSetCols s st.scope ins (keyRead pb [hpKey pb]) with
  | (s1, .error e) => (s1, .fail e)
  | (s1, .ok rows) =>
    let keys := searchRows s1 st.scope 0x16 ins (hpKey pb) rows
    let (s2, tabs, lost) := scopeSearch s1 st.scope 0x16 (hpTab pb) 1 none upsets keys
    let found := rowFinds tabs keys 0
    let first (es : List HardyEntry) : Elem := match minNat? (es.map (·.tag)) with
      | some t => Elem.num t
      | none => Elem.null
    let out := (keys.zip found).map (fun k => if k.1.2.isNone then Elem.null else
      if hpKind pb = 0 then first k.2 else Elem.num k.2.length)
    let own := countedRows s2 st.scope ins (parPair pb 0) (rows.filter isLive)
    let hit := ((rows.zip found).filter (fun x => !x.2.isEmpty && own.contains x.1)).length
    let nulls := (own.filter (fun r => !(r.getD (hpKey pb) Elem.null).valid)).length
    if lost then (s2, .fail 0x0400)
    else (s2, { ActResult.ok with
      elems := own.length, words := [own.length, hit, exhaustedWord 0 nulls]
      writes := columnWrites s2 st.scope (opDesc j st 1) out })

/-- R178. -/
def execMaskMatchSearch (step : Nat) (upsets : List HardyUpset) (s : State) : Host.Outcome State Fault Refusal :=
  .next (runStep s step 0x16 (fun pb => hpMode pb == 2) (maskSearchRun upsets))

/-! ### FILTER (R142 to R144) -/

/-- A predicate term. -/
structure Term where
  op : Nat
  colA : Nat
  colB : Nat
  aux : Nat
  const : Nat
deriving DecidableEq, Repr

def termAt (pb : List Byte) (i : Nat) : Term :=
  let o := 0x60 + 16 * i
  { op := byteAt pb o, colA := byteAt pb (o + 1), colB := byteAt pb (o + 2), aux := fieldN pb (o + 4) 4, const := fieldN pb (o + 8) 8 }

/-- IN-list n: its order keys. -/
def inList (j : Job) (pb : List Byte) (n : Nat) : List Nat :=
  let w := fieldN pb (0x38 + 8 * n) 8
  let bs := paramBytes j.plan j.pos (w % 2 ^ 32) (8 * (w / 2 ^ 32))
  (List.range (w / 2 ^ 32)).map (fun i => fieldN bs (8 * i) 8)

/-- Entries of an IN-list (R179): windows [v, v], 15 to a block, TAG 0. -/
def inBlocks (l : List Nat) : List (List HardyEntry) :=
  chunkBlocks 15 (ceilDiv l.length 15) (l.map (fun v => HardyEntry.of v v 0))

/-- Three-valued AND, OR, NOT (R70); none is U. -/
def and3 (a b : Option Bool) : Option Bool :=
  if a = some false ∨ b = some false then some false else if a = none ∨ b = none then none else some true

def or3 (a b : Option Bool) : Option Bool :=
  if a = some true ∨ b = some true then some true else if a = none ∨ b = none then none else some false

def not3 (a : Option Bool) : Option Bool := a.map (!·)

/-- The constant of a term as an element of COL_A's type. -/
def termConst (j : Job) (ty : Nat) (t : Term) : Elem :=
  if isStringTy ty then { bits := 0, valid := true, str := paramBytes j.plan j.pos t.const t.aux }
  else Elem.num (t.const % 2 ^ typeBits ty)

/-- A pushing term on a row; `hits` answers whether the row's IN term i counts at least 1. -/
def termValue (j : Job) (ds : List (List Byte)) (r : Row) (hits : Bool) (t : Term) : Option Bool :=
  let b := ds.getD t.colA []
  let a := r.getD t.colA Elem.null
  let c := r.getD t.colB Elem.null
  if 1 ≤ t.op ∧ t.op ≤ 6 then
    if a.valid then some (cmpElems (dsType b) (dsOffset b) 0 (t.op - 1) a (termConst j (dsType b) t)) else none
  else if 9 ≤ t.op ∧ t.op ≤ 14 then
    if a.valid && c.valid then some (cmpElems (dsType b) (dsOffset b) (dsOffset (ds.getD t.colB [])) (t.op - 9) a c) else none
  else if t.op = 0x10 then some (!a.valid)
  else if t.op = 0x11 then some a.valid
  else if a.valid then some hits else none

/-- The postfix program on a row. -/
def filterEval (j : Job) (ds : List (List Byte)) (r : Row) : List (Term × Bool) → List (Option Bool) → List (Option Bool)
  | [], st => st
  | (t, h) :: ts, st =>
    match t.op, st with
    | 0x20, b :: a :: rest => filterEval j ds r ts (and3 a b :: rest)
    | 0x21, b :: a :: rest => filterEval j ds r ts (or3 a b :: rest)
    | 0x22, a :: rest => filterEval j ds r ts (not3 a :: rest)
    | _, st => filterEval j ds r ts (termValue j ds r h t :: st)

/-- Search one IN term over all rows: hits row by row. An upset names the list by its HTAB; R171's HTAB field is free for a list. (DEDUCED, unsafe: log entry 58.) -/
def inTerm (s : State) (j : Job) (st : PlanStep) (pb : List Byte) (ds : List (List Byte)) (rows : List Row) (upsets : List HardyUpset) (t : Term) :
    State × List Bool × Bool :=
  let keys := searchRows s st.scope 9 ds t.colA rows
  let (s1, tabs, lost) := scopeSearch s st.scope 9 t.aux 1 (some (inBlocks (inList j pb t.aux))) upsets keys
  (s1, (rowFinds tabs keys 0).map (fun es => !es.isEmpty), lost)

/-- Every term with its hits per row, in term order, and whether a search met an uncorrectable error. -/
def filterTerms (s : State) (j : Job) (st : PlanStep) (pb : List Byte) (ds : List (List Byte)) (rows : List Row) (upsets : List HardyUpset) :
    State × List (Term × List Bool) × Bool :=
  ((List.range (byteAt pb 0x31)).map (termAt pb)).foldl (fun (acc : State × List (Term × List Bool) × Bool) t =>
    if t.op = 0x18 then
      let r := inTerm acc.1 j st pb ds rows upsets t
      (r.1, acc.2.1 ++ [(t, r.2.1)], acc.2.2 || r.2.2)
    else (acc.1, acc.2.1 ++ [(t, [])], acc.2.2)) (s, [], false)

/-- The IN-lists are loaded on every die of the scope (R143, R184). -/
def loadLists (s : State) (j : Job) (st : PlanStep) (pb : List Byte) : State :=
  if hasInTerm j.plan j.pos st then
    countDies s (scopeDies s st.scope) 21 (sumNat ((List.range (byteAt pb 0x32)).map (fun n => (inList j pb n).length)))
  else s

/-- Columns whose values a predicate uses. -/
def valueCols (pb : List Byte) : List Nat :=
  dedupNat (((List.range (byteAt pb 0x31)).map (termAt pb)).flatMap (fun t =>
    if t.op < 9 ∨ t.op = 0x18 then [t.colA] else if t.op < 0x10 then [t.colA, t.colB] else []))

/-- Columns that a predicate names, those it only tests for null too. -/
def predCols (pb : List Byte) : List Nat :=
  dedupNat (valueCols pb ++ (((List.range (byteAt pb 0x31)).map (termAt pb)).filter (fun t => t.op == 0x10 || t.op == 0x11)).map (·.colA))

def filterRun (upsets : List HardyUpset) (s : State) (j : Job) (st : PlanStep) (pb : List Byte) : OpRes :=
  let ins := parSet j st pb 0
  let compact := byteAt pb 0x30 == 1
  match readSetCols (loadLists s j st pb) st.scope ins (if compact then List.range ins.length else keyRead pb (predCols pb)) with
  | (s1, .error e) => (s1, .fail e)
  | (s1, .ok rows) =>
    let (s2, terms, lost) := filterTerms s1 j st pb ins rows upsets
    let value (i : Nat) (r : Row) : Option Bool :=
      (filterEval j ins r (terms.map (fun t => (t.1, t.2.getD i false))) []).headD none
    let judged := ((List.range rows.length).zip rows).map (fun (p : Nat × Row) => (p.2, if isLive p.2 then value p.1 p.2 else some false))
    let live := rows.filter isLive
    let kept := (judged.filter (fun p => p.2 == some true)).map (·.1)
    let unknown := (judged.filter (fun p => p.2 == none)).map (·.1)
    let pair := parPair pb 0
    let own := countedRows s2 st.scope ins pair
    let r : ActResult := { ActResult.ok with
      elems := (own kept).length, saturated := cutCount ins (valueCols pb) (own live)
      coreSat := coreShares s2 st.scope ins rows (own live) (fun rs => (cutCount ins (valueCols pb) rs, 0))
      words := [(own live).length, (own kept).length, exhaustedWord 0 (own unknown).length] }
    if lost then (s2, .fail 0x0400)
    else if compact then putSet s2 st.scope (parSet j st pb 1) (parPair pb 1) kept (heavyOf pair kept (own kept)) r
    else (s2, { r with writes := descWrites s2 st.scope (opDesc j st 1) (judged.map (fun p => Elem.num (boolNat (p.2 == some true)))) })

/-- R144. -/
def execFilter (step : Nat) (upsets : List HardyUpset) (s : State) : Host.Outcome State Fault Refusal :=
  .next (runStep s step 2 (fun _ => true) (filterRun upsets))

end Sys2Proof.Machine
end

