-- ==== Sys2Proof/Machine/Stats.lean ====
section
/-!
DEFINITION. Statistics and normalisation (R187 to R201): the exact accumulations of STATS, its records and key sample, the curve
tables, and NORMALISE.
-/
namespace Sys2Proof.Machine

/-! ### Accumulating a column (R188) -/

/-- Bits below the binary point in the accumulator of a column's sum, and of its sum of squares. -/
def sumScale (ty : Nat) : Nat := if !isFloatTy ty then 0 else if ty = 0x13 then 1074 else 149
def sqScale (ty : Nat) : Nat := if !isFloatTy ty then 0 else if ty = 0x10 ∨ ty = 0x14 ∨ ty = 0x15 then 149 else 1074

/-- One rounding to binary64. -/
def f64 (v : FVal) : FVal := decodeF binary64 (encodeF binary64 rne v).bits
def f64Bits (v : FVal) : Nat := (encodeF binary64 rne v).bits

/-- Square of an element as it enters the accumulator: rounded first for binary64 (R75). -/
def squareVal (ty : Nat) (v : FVal) : FVal := if ty = 0x13 then f64 (mulVal v v) else mulVal v v

/-- A finite element whose rounded square overflows (R75). (DEDUCED, unsafe: log entry 55.) -/
def squareOverflows (ty : Nat) (v : FVal) : Bool :=
  ty == 0x13 && (match v, squareVal ty v with
    | .fin _ _ _, .inf _ => true
    | _, _ => false)

/-- A column's partial statistics over some elements. -/
structure ColStat where
  sum : Accumulator
  sq : Accumulator
  rows : Nat
  nulls : Nat
  nans : Nat
  minEl : Option (Nat × Nat)
  maxEl : Option (Nat × Nat)

def ColStat.empty : ColStat :=
  { sum := Accumulator.zero, sq := Accumulator.zero, rows := 0, nulls := 0, nans := 0, minEl := none, maxEl := none }

/-- Order among elements of one column for the extremes: by key, −0 below +0 (R190). -/
def extremeLt (ty : Nat) (a b : Nat × Nat) : Bool :=
  decide (a.1 < b.1) || (a.1 == b.1 && isFloatTy ty && bit a.2 (typeBits ty - 1) && !bit b.2 (typeBits ty - 1))

def pickMin (ty : Nat) (a b : Option (Nat × Nat)) : Option (Nat × Nat) :=
  match a, b with
  | none, x => x
  | x, none => x
  | some x, some y => some (if extremeLt ty y x then y else x)

def pickMax (ty : Nat) (a b : Option (Nat × Nat)) : Option (Nat × Nat) :=
  match a, b with
  | none, x => x
  | x, none => x
  | some x, some y => some (if extremeLt ty x y then y else x)

def statAdd (ty : Nat) (off : Int) (c : ColStat) (e : Elem) : ColStat :=
  if !e.valid then { c with rows := c.rows + 1, nulls := c.nulls + 1 }
  else
    let v := valueOf ty e.bits off
    let el := (orderKey ty e.bits off, e.bits)
    let nan := isNanBits ty e.bits
    { sum := accAdd (sumScale ty) c.sum v, sq := accAdd (sqScale ty) c.sq (squareVal ty v), rows := c.rows + 1, nulls := c.nulls,
      nans := c.nans + boolNat nan, minEl := if nan then c.minEl else pickMin ty c.minEl (some el)
      maxEl := if nan then c.maxEl else pickMax ty c.maxEl (some el) }

/-- Another member's partial statistics as a record. -/
def ofPeer (p : PeerStat) : ColStat :=
  { sum := { value := p.sumA, count := p.count, nanSeen := p.nanSeen, posInf := p.posInf, negInf := p.negInf },
    sq := { value := p.sqA, count := p.count, nanSeen := p.nanSeen, posInf := p.sqPosInf, negInf := false },
    rows := p.rows, nulls := p.nulls, nans := p.nans, minEl := p.minEl, maxEl := p.maxEl }

def statJoin (ty : Nat) (a b : ColStat) : ColStat :=
  { sum := accJoin a.sum b.sum, sq := accJoin a.sq b.sq, rows := a.rows + b.rows, nulls := a.nulls + b.nulls, nans := a.nans + b.nans,
    minEl := pickMin ty a.minEl b.minEl, maxEl := pickMax ty a.maxEl b.maxEl }

/-! ### Records (R76, R189, R190) -/

def accFlags (a : Accumulator) (isInt : Bool) : Nat :=
  boolNat a.nanSeen + 2 * boolNat a.posInf + 4 * boolNat a.negInf + 8 * boolNat (accRangeFlag a) + 16 * boolNat isInt

/-- An accumulator record of a short or long accumulator, padded to 576 bytes. -/
def accRecord (long isInt : Bool) (a : Accumulator) : List Byte :=
  if long then leBytes 536 (wrapInt 4288 a.value) ++ leBytes 8 (accCount a) ++ leBytes 8 (accFlags a isInt) ++ List.replicate 24 0
  else leBytes 48 (wrapInt 384 a.value) ++ leBytes 8 (accCount a) ++ leBytes 8 (accFlags a isInt) ++ List.replicate 512 0

def nan64 : Nat := 0x7FF8000000000000

/-- A variance numerator n × Q − S² as a natural over 2^scale squared, and whether it was clamped at zero. The sum has scale ss, the
squares sq. -/
def varNum (ss sq : Nat) (c : ColStat) : Nat × Nat × Bool :=
  let n : Int := accCount c.sum
  let den := Nat.max (2 * ss) sq
  let num := n * c.sq.value * (2 ^ (den - sq) : Nat) - c.sum.value * c.sum.value * (2 ^ (den - 2 * ss) : Nat)
  (num.toNat, 2 ^ den, decide (num < 0))

/-- The derived fields from MEAN to MAX, VAR_CLAMPED, and whether a rounding overflowed. -/
def derived (ty : Nat) (off : Int) (c : ColStat) : List Nat × Bool × Bool :=
  let n := accCount c.sum
  let bad := n = 0 || c.sum.nanSeen || c.sum.posInf || c.sum.negInf || c.sq.nanSeen || c.sq.posInf || c.sq.negInf
  let (v, den, clamped) := varNum (sumScale ty) (sqScale ty) c
  let pop : FVal := .fin false v (den * n * n)
  let smp : FVal := .fin false v (den * n * (n - 1))
  let ext (o : Option (Nat × Nat)) : Nat := match o with
    | none => nan64
    | some (k, b) => if isTimeTy ty then f64Bits (ofInt ((k : Int) - 2 ^ 63)) else f64Bits (valueOf ty b off)
  let mean := ((accResult (sumScale ty) true c.sum).map f64Bits).getD nan64
  let one := n = 1
  let fields :=
    if bad then [nan64, nan64, nan64, nan64, nan64]
    else [mean, f64Bits pop, if one then nan64 else f64Bits smp, f64Bits (sqrtVal pop), if one then nan64 else f64Bits (sqrtVal smp)]
  let ovf := !bad && ((encodeF binary64 rne pop).overflow || (!one && (encodeF binary64 rne smp).overflow))
  (fields ++ [ext c.minEl, ext c.maxEl], !bad && clamped, ovf || accRangeFlag c.sum || accRangeFlag c.sq)

/-- Record j of a stats region and whether it raised ACC_RANGE. -/
def statRecord (ty : Nat) (off : Int) (col : Nat) (c : ColStat) : List Byte × Bool :=
  let (fs, clamped, ovf) := derived ty off c
  let isInt := !isFloatTy ty
  let sqLong := ty = 0x11 ∨ ty = 0x12 ∨ ty = 0x13
  let key (o : Option (Nat × Nat)) : Nat := (o.map (·.1)).getD 0
  (leBytes 1 ty ++ leBytes 1 col ++ leBytes 1 (boolNat (ty != 0x13)) ++ leBytes 1 (boolNat c.minEl.isSome + 2 * boolNat clamped) ++ leBytes 4 0 ++
    leBytes 8 c.rows ++ leBytes 8 c.nulls ++ leBytes 8 c.nans ++ leBytes 8 (key c.minEl) ++ leBytes 8 (key c.maxEl) ++
    fs.flatMap (leBytes 8) ++ List.replicate 24 0 ++ accRecord (ty == 0x13) isInt c.sum ++ accRecord (decide sqLong) isInt c.sq, ovf)

/-- Words of a byte string. -/
def wordsOf (bs : List Byte) : List Elem := (List.range (bs.length / 8)).map (fun i => Elem.num (fieldN bs (8 * i) 8))

/-- Bytes of a region of uint64 words, as read. -/
def regionBytes (es : List Elem) : List Byte := es.flatMap (fun e => leBytes 8 e.bits)

/-! ### STATS (R187, R191, R192) -/

/-- The lowest core of a step's SCOPE does the final roundings (R78). (DESIGN CHOICE, unsafe: log entry 112.) -/
def roundingCore (s : State) (scope : Nat) : Nat := (scopeCores s scope).headD devKey

/-- ACC_RANGE: the sticky bit of the rounding core, n final roundings counted, and the status (R78). (DEDUCED, unsafe: log entry 55.) -/
def accRange (s : State) (scope n : Nat) (any : Bool) (r : ActResult) : OpRes :=
  if any then
    let k := roundingCore s scope
    (stickySet (count s k 19 n) k 12, { r with status := 0x0304 })
  else (s, r)

/-- Only rows that count on this member take part, so that a row that heavy broadcast copies enters once. -/
def statsColumnsRun (peers : List (List PeerStat)) (s : State) (j : Job) (st : PlanStep) (pb : List Byte) : OpRes :=
  let ins := parSet j st pb 0
  let n := byteAt pb 0x31
  let cols := (List.range n).map (fun i => byteAt pb (0x50 + i))
  match readSetCols s st.scope ins (keyRead pb cols) with
  | (s1, .error e) => (s1, .fail e)
  | (s1, .ok rows) =>
    let live := countedRows s1 st.scope ins (parPair pb 0) (rows.filter isLive)
    let own (c : Nat) : ColStat :=
      let b := ins.getD c []
      live.foldl (fun acc r => statAdd (dsType b) (dsOffset b) acc (r.getD c Elem.null)) ColStat.empty
    let recs := ((List.range n).zip cols).map (fun (p : Nat × Nat) =>
      let b := ins.getD p.2 []
      let all := (peers.getD p.1 []).foldl (fun acc q => statJoin (dsType b) acc (ofPeer q)) (own p.2)
      statRecord (dsType b) (dsOffset b) p.2 all)
    let sqOver := cols.any (fun c =>
      let b := ins.getD c []
      live.any (fun r => (r.getD c Elem.null).valid && squareOverflows (dsType b) (valueOf (dsType b) (r.getD c Elem.null).bits (dsOffset b))))
    let nulls := sumNat (cols.map (fun c => (own c).nulls))
    let nans := sumNat (cols.map (fun c => (own c).nans))
    let ovf := (recs.filter (·.2)).length
    let r : ActResult := { ActResult.ok with
      saturated := cutCount ins cols live, words := [live.length, nulls, exhaustedWord 0 nans]
      coreSat := coreShares s1 st.scope ins rows live (fun rs => (cutCount ins cols rs, 0))
      writes := columnWrites s1 st.scope (opDesc j st 1) (wordsOf (recs.flatMap (·.1))) }
    accRange s1 st.scope ovf (sqOver || decide (0 < ovf)) r

/-- R187, R190. -/
def execStatsColumns (step : Nat) (peers : List (List PeerStat)) (s : State) : Host.Outcome State Fault Refusal :=
  .next (runStep s step 0xA (fun pb => byteAt pb 0x30 == 0) (statsColumnsRun peers))

/-- A row is sampled (R192). -/
def isSampled (seed t : Nat) (r : Row) : Bool :=
  decide ((hf0 (BitVec.ofNat 64 (rowKey r)) (BitVec.ofNat 64 seed) 0x534D).toNat < t)

def statsKeysampleRun (peers : List Nat) (s : State) (j : Job) (st : PlanStep) (pb : List Byte) : OpRes :=
  let ins := parSet j st pb 0
  let d := opDesc j st 1
  let cap := fieldN pb 0x40 4
  let h := hashUse j.plan j.pos pb
  match readSetCols s st.scope ins (keyRead pb (parKeyCols pb)) with
  | (s1, .error e) => (s1, .fail e)
  | (s1, .ok rows) =>
    let live := countedRows s1 st.scope ins (parPair pb 0) (rows.filter isLive)
    let sample := live.filter (isSampled (plSeed j.plan) (fieldN pb 0x38 8))
    let hashes := sample.filterMap (fun r => (rowHash h ins (parKeyCols pb) r).map (·.toNat))
    let all := sortBy (fun a b => decide (a < b)) (hashes ++ peers)
    let total := setCapacity s1 st.scope [d]
    let fits := decide (all.length ≤ cap)
    let list := if fits then all ++ List.replicate (total - 1 - all.length) 0 else []
    let r : ActResult := { ActResult.ok with
      coreSat := coreShares s1 st.scope ins rows live (fun rs => (cutCount ins (parKeyCols pb) rs, 0))
      saturated := cutCount ins (parKeyCols pb) live, words := [live.length, sample.length, exhaustedWord 0 (sample.length - hashes.length)]
      writes := columnWrites s1 st.scope d ((all.length :: list).map Elem.num) }
    (s1, if fits then r else exhaust r 7)

/-- R192. -/
def execStatsKeysample (step : Nat) (peerHashes : List Nat) (s : State) : Host.Outcome State Fault Refusal :=
  .next (runStep s step 0xA (fun pb => byteAt pb 0x30 == 1) (statsKeysampleRun peerHashes))

/-! ### Curves (R195 to R197) -/

def cvKind (b : List Byte) : Nat := byteAt b 6
def cvOutside (b : List Byte) : Nat := byteAt b 7
def cvSegments (b : List Byte) : Nat := fieldN b 8 2
def cvX (b : List Byte) (i : Nat) : FVal := decodeF binary64 (fieldN b (0x40 + 24 * i) 8)
def cvY (b : List Byte) (i : Nat) : FVal := decodeF binary64 (fieldN b (0x48 + 24 * i) 8)
def cvM (b : List Byte) (i : Nat) : FVal := decodeF binary64 (fieldN b (0x50 + 24 * i) 8)

def subVal (a b : FVal) : FVal := addVal a (negVal b)

/-- Multiply by a small integer. -/
def scaleInt (n : Nat) (v : FVal) : FVal := mulVal (ofInt n) v

/-- Exact coefficients C1, C2, C3 of segment i before their rounding (R197). -/
def cvExact (b : List Byte) (i : Nat) : List FVal :=
  let dl := subVal (cvY b (i + 1)) (cvY b i)
  let h := subVal (cvX b (i + 1)) (cvX b i)
  let m0 := mulVal h (cvM b i)
  let m1 := mulVal h (cvM b (i + 1))
  match cvKind b with
  | 1 => [dl, .fin false 0 1, .fin false 0 1]
  | 2 => [m0, subVal (subVal (scaleInt 3 dl) (scaleInt 2 m0)) m1, subVal (addVal m0 m1) (scaleInt 2 dl)]
  | _ => [.fin false 0 1, .fin false 0 1, .fin false 0 1]

def cvCoef (b : List Byte) (i k : Nat) : FVal := f64 ((cvExact b i).getD k (.fin false 0 1))

/-- Fused multiply-add, rounded once. (DEDUCED, unsafe: log entry 50.) -/
def fma64 (a b c : FVal) : FVal := f64 (addVal (mulVal a b) c)

/-- x ≤ y of two values that are not NaN. -/
def leVal (x y : FVal) : Bool := !ltVal y x

/-- Largest index below n whose knot is at or below x. -/
def cvIndex (b : List Byte) (n : Nat) (x : FVal) : Nat := maxNat ((List.range n).filter (fun i => leVal (cvX b i) x))

/-- End slope: M for HERMITE, Δ / h rounded once for LINEAR. -/
def cvSlope (b : List Byte) (i seg : Nat) : FVal :=
  if cvKind b = 2 then cvM b i
  else f64 (divVal (subVal (cvY b (seg + 1)) (cvY b seg)) (subVal (cvX b (seg + 1)) (cvX b seg)))

def isZeroVal (v : FVal) : Bool := match v with
  | .fin _ p _ => p == 0
  | _ => false

/-- Outside the knots at end knot i; an end slope of zero gives the end value (R196). -/
def cvOut (b : List Byte) (x : FVal) (i seg : Nat) : Option FVal :=
  match (if cvKind b = 0 ∧ cvOutside b = 1 then 0 else cvOutside b) with
  | 0 => some (cvY b i)
  | 1 =>
    let sl := cvSlope b i seg
    some (if isZeroVal sl then cvY b i else fma64 (f64 (subVal x (cvX b i))) sl (cvY b i))
  | _ => none

/-- Evaluation at x, not NaN: the value, null when none, and whether x lies outside the knots. -/
def cvEval (b : List Byte) (x : FVal) : Option FVal × Bool :=
  let n := cvSegments b
  if ltVal x (cvX b 0) then (cvOut b x 0 0, true)
  else if cvKind b = 0 then (some (cvY b (cvIndex b (n + 1) x)), false)
  else if ltVal (cvX b n) x then (cvOut b x n (n - 1), true)
  else
    let i := cvIndex b n x
    let h := f64 (subVal (cvX b (i + 1)) (cvX b i))
    let t := f64 (divVal (f64 (subVal x (cvX b i))) h)
    (some (fma64 t (fma64 t (fma64 t (cvCoef b i 2) (cvCoef b i 1)) (cvCoef b i 0)) (cvY b i)), false)

/-! ### log1p (R194) -/

/-- 2^p × atanh(a / b) by its series, n more terms, the power z^(2i+1) at hand. -/
def atanhSeries : Nat → Nat → Nat → Nat → Nat → Nat
  | 0, _, _, _, acc => acc
  | n + 1, i, pw, zz, acc => atanhSeries n (i + 1) (pw * zz / 2 ^ 640) zz (acc + pw / (2 * i + 1))

/-- 2^640 × atanh(a / b), for a / b at most 1/3. -/
def atanhFix (a b : Nat) : Nat :=
  let z := a * 2 ^ 640 / b
  atanhSeries 210 0 z (z * z / 2 ^ 640) 0

/-- 2^640 × ln(n / d) to within about 2^−620, for positive n and d. -/
def lnFix (n d : Nat) : Int :=
  let k := log2Frac n d
  let (m, e) := if 0 ≤ k then (n, d * 2 ^ k.toNat) else (n * 2 ^ (-k).toNat, d)
  -- m / e lies in [1, 2)
  2 * ((atanhFix (m - e) (m + e) : Nat) : Int) + k * (2 * ((atanhFix 1 3 : Nat) : Int))

/-- log1p, correctly rounded to binary64: below 2^−60 in magnitude x itself is nearest. -/
def log1pVal (x : FVal) : FVal :=
  match x with
  | .nan => .nan
  | .inf n => if n then .nan else .inf false
  | .fin n p q =>
    if p = 0 then .fin n 0 1
    else if n && decide (q < p) then .nan
    else if n && p == q then .inf true
    else if p * 2 ^ 60 < q then .fin n p q
    else
      let l := lnFix (if n then q - p else q + p) q
      f64 (.fin (decide (l < 0)) l.natAbs (2 ^ 640))

/-! ### NORMALISE (R193, R194) -/

/-- What one element gives: the value (none for null), outside a curve, and counted in word 2. -/
structure NormOut where
  val : Option FVal
  outside : Bool
  override : Bool

def NormOut.of (v : FVal) : NormOut := { val := some v, outside := false, override := false }

/-- MIN or MAX of two binary64 values as R146 orders them. -/
def pick64 (isMax : Bool) (a b : FVal) : FVal :=
  let neg (v : FVal) : Bool := match v with
    | .fin n _ _ => n
    | .inf n => n
    | .nan => false
  let aLow := ltVal a b || (eqVal a b && neg a)
  if aLow != isMax then a else b

/-- (DEDUCED, unsafe: log entry 56.) -/
def clip64 (lo hi y : FVal) : FVal := if y == .nan then .nan else pick64 false (pick64 true y lo) hi

/-- A field of a stats record as a value. -/
def recField (region : List Byte) (i off : Nat) : FVal := decodeF binary64 (fieldN region (1280 * i + off) 8)

/-- The values that override the formulas whatever x is: NaN for a NaN statistic, +0 for a zero divisor (R194). -/
def normOverride (sp region : List Byte) : Option FVal :=
  let i := byteAt sp 3
  let fromStats (a b d : FVal) : Option FVal :=
    if a == .nan || b == .nan then some .nan else if isZeroVal d then some (.fin false 0 1) else none
  match byteAt sp 1 with
  | 1 =>
    let d := recField region i (if bit (byteAt sp 2) 2 then 0x50 else 0x48)
    fromStats (recField region i 0x30) d d
  | 2 =>
    let lo := recField region i 0x58
    let hi := recField region i 0x60
    fromStats lo hi (f64 (subVal hi lo))
  | _ => none

/-- The formula of a spec entry's mode at x, which is not NaN. -/
def normMode (sp region curve : List Byte) (x : FVal) : NormOut :=
  let flags := byteAt sp 2
  let i := byteAt sp 3
  match byteAt sp 1 with
  | 1 => .of (f64 (divVal (f64 (subVal x (recField region i 0x30))) (recField region i (if bit flags 2 then 0x50 else 0x48))))
  | 2 =>
    let lo := recField region i 0x58
    .of (f64 (divVal (f64 (subVal x lo)) (f64 (subVal (recField region i 0x60) lo))))
  | 3 =>
    if bit flags 1 then
      match x with
      | .fin n p _ => if p = 0 then .of (.fin false 0 1) else .of (if n then negVal (log1pVal (absVal x)) else log1pVal x)
      | _ => .of x
    else .of (log1pVal x)
  | 4 => .of (clip64 (decodeF binary64 (fieldN sp 8 8)) (decodeF binary64 (fieldN sp 0x10 8)) x)
  | 5 =>
    let r := cvEval curve x
    { val := r.1, outside := r.2, override := false }
  | _ => .of x

/-- A spec entry on an element that is not null: an override stands as it is, a NaN stays NaN, POST_CLIP bounds what a formula gives. (DEDUCED, unsafe: log entry 56.) -/
def normElem (sp region curve : List Byte) (ty : Nat) (off : Int) (b : Nat) : NormOut :=
  let x := f64 (valueOf ty b off)
  match normOverride sp region with
  | some y => { NormOut.of y with override := true }
  | none =>
    if x == .nan then .of .nan
    else
      let r := normMode sp region curve x
      if bit (byteAt sp 2) 0 && byteAt sp 1 != 4 then
        { r with val := r.val.map (clip64 (decodeF binary64 (fieldN sp 8 8)) (decodeF binary64 (fieldN sp 0x10 8))) }
      else r

/-- An output cell and its counts: element, saturated, NaN converted, outside, overridden. -/
def normCell (seed actl gi : Nat) (out : List Byte) (ins : List (List Byte)) (sp region curve : List Byte) (row : Row) :
    Elem × Bool × Bool × Bool × Bool :=
  let e := row.getD (byteAt sp 0) Elem.null
  let b := ins.getD (byteAt sp 0) []
  if !e.valid then (Elem.null, false, false, false, false)
  else
    let r := normElem sp region curve (dsType b) (dsOffset b) e.bits
    match r.val with
    | none => (Elem.null, false, false, r.outside, r.override)
    | some y =>
      let c := convertVal (dsType out) (dsOffset out) (actlRounding actl (srDraw seed 1 gi)) y
      (if c.null then Elem.null else Elem.num c.bits, c.sat, c.nanConv, r.outside, r.override)

def curveImage (s : State) (id : Nat) : List Byte := ((s.eng.curves.find? (fun c => c.id == id)).map (·.image)).getD []

def normaliseRun (s : State) (j : Job) (st : PlanStep) (pb : List Byte) : OpRes :=
  let ins := parSet j st pb 0
  let outs := parSet j st pb 1
  let specs := (List.range (byteAt pb 0x30)).map (fun i => slice pb (0x40 + 32 * i) 32)
  let curves := specs.map (fun sp => if byteAt sp 1 = 5 then curveImage s (fieldN sp 4 4) else [])
  let srcs := dedupNat (specs.map (fun sp => byteAt sp 0))
  match readSetCols s st.scope ins (0 :: srcs) with
  | (s1, .error e) => (s1, .fail e)
  | (s1, .ok rows) =>
    match (if fieldN pb 0x34 4 = 0xFFFFFFFF then (s1, .ok []) else readDesc s1 st.scope (opDesc j st 2)) with
    | (s2, .error e) => (s2, .fail e)
    | (s2, .ok words) =>
      let region := regionBytes words
      let live := rows.filter isLive
      let cells (r : Row) : List (Elem × Bool × Bool × Bool × Bool) :=
        ((List.range specs.length).zip (specs.zip curves)).map (fun (p : Nat × List Byte × List Byte) =>
          normCell (plSeed j.plan) (operActl (st.opers.getD 1 0)) (rowKey r) (outs.getD (p.1 + 1) []) ins p.2.1 region p.2.2 r)
      let own := countedRows s2 st.scope ins false live
      let all := own.flatMap cells
      let count' (f : Elem × Bool × Bool × Bool × Bool → Bool) : Nat := (all.filter f).length
      let out := live.map (fun r => r.getD 0 Elem.null :: (cells r).map (·.1))
      let r : ActResult := { ActResult.ok with
        elems := own.length, saturated := cutCount ins srcs own + count' (·.2.1), nans := count' (·.2.2.1)
        coreSat := coreShares s2 st.scope ins rows own (fun rs =>
          let cs := rs.flatMap cells
          (cutCount ins srcs rs + (cs.filter (·.2.1)).length, (cs.filter (·.2.2.1)).length))
        words := [own.length, count' (·.2.2.2.1), exhaustedWord 0 (count' (·.2.2.2.2))] }
      putSet s2 st.scope outs false out (heavyOf false live own) r

/-- R193, R194. -/
def execNormalise (step : Nat) (s : State) : Host.Outcome State Fault Refusal :=
  .next (runStep s step 0xB (fun _ => true) normaliseRun)

end Sys2Proof.Machine
end

