-- ==== Sys2Proof/Machine/Selection.lean ====
section
/-!
DEFINITION. Selection, top-k and segment sorting (R202 to R216): winning copies, the selection region, and the three operators.
-/
namespace Sys2Proof.Machine

/-! ### Elements and copies (R202 to R204) -/

def slForm (pb : List Byte) : Nat := byteAt pb 0x30
def slMode (pb : List Byte) : Nat := byteAt pb 0x31
def slVal (pb : List Byte) : Nat := byteAt pb 0x32
def slOwner (pb : List Byte) : Nat := byteAt pb 0x33
def slCap (pb : List Byte) : Nat := fieldN pb 0x34 4
def slThresh (pb : List Byte) : Nat := fieldN pb 0x38 8
def slDest (pb : List Byte) : Nat := fieldN pb 0x40 2

/-- VALUE of an element: stored bits, v + o for a timestamp, the canonical NaN, 0 for a null. -/
def selValue (ty : Nat) (off : Int) (e : Elem) : Nat :=
  if !e.valid then 0 else if isTimeTy ty then wrapInt 64 (timeValue e.bits off).1 else canonNan ty e.bits

def selState (ty : Nat) (e : Elem) : Nat := if !e.valid then 2 else if isNanBits ty e.bits then 1 else 0

/-- Order key of a record. -/
def selKey (ty : Nat) (r : SelRec) : Nat := orderKey ty r.value 0

/-- A copy that this member holds: its record, the position its OWNER names, and its stored bits. -/
structure SelCopy where
  item : SelRec
  owner : Nat
  stored : Nat

/-- The record of an element. -/
def selRec (b : List Byte) (index row : Nat) (e : Elem) : SelRec :=
  { index := index, value := selValue (dsType b) (dsOffset b) e, row := row, state := selState (dsType b) e
    clamped := isTimeTy (dsType b) && e.valid && (timeValue e.bits (dsOffset b)).2 }

/-- Copies of a column set (R203). -/
def columnCopies (members : Nat) (ds : List (List Byte)) (pb : List Byte) (rows : List Row) : List SelCopy :=
  let b := ds.getD (slVal pb) []
  (rows.filter isLive).map (fun r =>
    let e := r.getD (slVal pb) Elem.null
    let o := r.getD (slOwner pb) Elem.null
    let owner := if slOwner pb = 0xFF then 0 else if o.valid && decide (o.bits < members) then o.bits else 0
    { item := selRec b (rowKey r) 0 e, owner := owner, stored := e.bits })

/-- Elements of this member's shard of a tensor, as far as its local extents go (R92); replica 0 alone takes part (R202). -/
def tensorCopies (pos : Nat) (b t : List Byte) (es : List Elem) : List SelCopy :=
  if !ownsShard t pos then []
  else
    let len := Nat.max (dtShape t (dtNdim t - 1)) 1
    let shard := shardOfPos t pos
    ((List.range es.length).zip es).filterMap (fun (p : Nat × Elem) =>
      let k := p.1 / Nat.max (dsCount b) 1
      let y (d : Nat) : Nat := coordsOf (dsShape b) (dsNdim b) (p.1 % Nat.max (dsCount b) 1) d + (if d = 0 then k * dsShape b 0 else 0)
      let gi := globalIndex t pos y
      if (List.range (dtNdim t)).all (fun d => decide (y d < localExt t shard d)) then
        some { item := selRec b gi (gi / len) p.2, owner := pos, stored := p.2.bits }
      else none)

/-- Copy a wins over copy b (R203). -/
def copyBeats (ty : Nat) (a b : SelCopy) : Bool :=
  decide (a.item.state < b.item.state) || (a.item.state == b.item.state &&
    (decide (selKey ty b.item < selKey ty a.item) || (selKey ty a.item == selKey ty b.item && decide (a.stored < b.stored))))

/-- Two copies of an index differ: in validity or in stored bits (R204). -/
def copiesDiffer (a b : SelCopy) : Bool :=
  (a.item.state == 2) != (b.item.state == 2) || (a.item.state != 2 && a.stored != b.stored)

/-- A copy that another member sent, of a type and offset: its stored bits are told where VALUE does not give them, as for a NaN that is not
canonical or a clamped timestamp. -/
def sentCopy (ty : Nat) (off : Int) (pos : Nat) (r : SelRec) : SelCopy :=
  { item := r, owner := pos, stored := r.stored.getD (if isTimeTy ty && r.state != 2 then wrapInt 64 (sint 64 r.value - off) else r.value) }

/-- Winning copy of a non-empty list. -/
def winner (ty : Nat) : List SelCopy → Option SelCopy
  | [] => none
  | x :: xs => some (xs.foldl (fun acc r => if copyBeats ty r acc then r else acc) x)

/-- What a member's resolution gives: its winning copies in ascending index, copies discarded, indices whose copies differ. -/
structure Resolved where
  wins : List SelRec
  discarded : Nat
  mismatches : Nat

/-- Copies with one index, side by side. -/
def byIndex (l : List SelRec) : List Nat := sortBy (fun a b => decide (a < b)) (dedupNat (l.map (·.index)))

/-- The resolution of the copies that this member owns and those it received (R203, R204). (DEDUCED, unsafe: log entry 29.) -/
def resolve (ty : Nat) (own sent : List SelCopy) : Resolved :=
  let all := own ++ sent
  let idx := byIndex (all.map (·.item))
  let pick (i : Nat) : Option SelRec :=
    let mine := own.filter (fun c => c.item.index == i)
    (winner ty (if mine.isEmpty then sent.filter (fun c => c.item.index == i) else mine)).map (·.item)
  let differ (i : Nat) : Bool := match all.filter (fun c => c.item.index == i) with
    | [] => false
    | x :: xs => xs.any (copiesDiffer x)
  { wins := idx.filterMap pick, discarded := all.length - idx.length, mismatches := (idx.filter differ).length }

/-! ### The region (R206) -/

/-- A row's outcome: entries in order, FOUND, TIES_OUT and KEY. -/
structure SelRow where
  entries : List SelRec
  found : Nat
  ties : Nat
  key : Nat
  full : Bool
  short : Bool

def rowRecord (fill cap : Nat) (all : List SelRec) (r : SelRow) : List Byte :=
  let n (st : Nat) : Nat := (all.filter (fun x => x.state == st)).length
  leBytes 8 r.entries.length ++ leBytes 8 r.found ++ leBytes 8 all.length ++ leBytes 8 (n 0) ++ leBytes 8 (n 1) ++ leBytes 8 (n 2) ++
    leBytes 8 r.ties ++ leBytes 8 r.key ++ r.entries.flatMap (fun e => leBytes 8 e.index ++ leBytes 8 e.value) ++
    (List.replicate (cap - r.entries.length) (leBytes 8 vacantKey ++ leBytes 8 fill)).flatten

/-- Rank order of valid elements: by key, descending or ascending, then index. -/
def rankLt (ty : Nat) (desc : Bool) (a b : SelRec) : Bool :=
  let ka := selKey ty a
  let kb := selKey ty b
  if ka = kb then decide (a.index < b.index) else if desc then decide (kb < ka) else decide (ka < kb)

def indexLt (a b : SelRec) : Bool := decide (a.index < b.index)

def validRecs (l : List SelRec) : List SelRec := l.filter (fun r => r.state == 0)

/-- An element passes SELECT_ABOVE's test (R207). -/
def passes (ty : Nat) (pb : List Byte) (r : SelRec) : Bool :=
  let t := orderKey ty (slThresh pb) 0
  r.state == 0 && (if slMode pb = 0 then decide (t < selKey ty r) else decide (t ≤ selKey ty r))

def selectRow (ty : Nat) (pb : List Byte) (all : List SelRec) : SelRow :=
  let ps := sortBy indexLt (all.filter (passes ty pb))
  { entries := ps.take (slCap pb), found := ps.length, ties := 0, key := orderKey ty (slThresh pb) 0,
    full := decide (slCap pb < ps.length), short := false }

/-- T of R208: the key of the k-th valid element in rank order, none in a short row. -/
def topkKey (ty k : Nat) (desc : Bool) (all : List SelRec) : Option Nat :=
  ((sortBy (rankLt ty desc) (validRecs all))[k - 1]?).map (selKey ty)

def topkRow (ty : Nat) (pb : List Byte) (all : List SelRec) : SelRow :=
  let k := slCap pb
  let ranked := sortBy (rankLt ty (slMode pb == 0)) (validRecs all)
  let out := ranked.take k
  let ties := match topkKey ty k (slMode pb == 0) all with
    | none => 0
    | some t => ((ranked.drop k).filter (fun r => selKey ty r == t)).length
  { entries := out, found := Nat.min k ranked.length, ties := ties, key := ((out.getLast?).map (selKey ty)).getD 0, full := false,
    short := decide (ranked.length < k) }

def sortRow (ty : Nat) (pb : List Byte) (all : List SelRec) : SelRow :=
  let st (n : Nat) : List SelRec := sortBy indexLt (all.filter (fun r => r.state == n))
  let order := sortBy (rankLt ty (slMode pb == 0)) (validRecs all) ++ st 1 ++ st 2
  { entries := order.take (slCap pb), found := all.length, ties := 0, key := 0, full := decide (slCap pb < order.length), short := false }

/-! ### Exchange (R212) -/

def recBytes (r : SelRec) : List Byte := leBytes 8 r.index ++ leBytes 8 r.value ++ leBytes 8 (r.row * 256 + r.state)

/-- Byte stream of a flow: header, section A, section B. -/
def selStream (a b : List SelRec) : List Byte :=
  leBytes 8 a.length ++ leBytes 8 b.length ++ leBytes 8 (24 * (a.length + b.length)) ++ leBytes 8 0 ++ (a ++ b).flatMap recBytes

/-- What tells the three operators apart: the row rule, candidates for section B and their order, and the counts of word 1 and 2. -/
structure SelOp where
  row : Nat → List Byte → List SelRec → SelRow
  candidate : Nat → List Byte → List SelRec → SelRec → Bool
  order : Nat → List Byte → SelRec → SelRec → Bool
  word0 : SelRec → Bool
  /-- An element that the row left unwritten counts in word 2. -/
  left : Nat → List Byte → SelRow → SelRec → Bool

def sortOrder (ty : Nat) (pb : List Byte) (a b : SelRec) : Bool :=
  if a.row ≠ b.row then decide (a.row < b.row)
  else if a.state ≠ b.state then decide (a.state < b.state)
  else if a.state = 0 then rankLt ty (slMode pb == 0) a b else indexLt a b

def selectOp : SelOp :=
  { row := selectRow, candidate := fun ty pb _ r => passes ty pb r
    order := fun _ _ a b => decide (a.row < b.row) || (a.row == b.row && indexLt a b)
    word0 := fun r => r.state == 0, left := fun ty pb _ r => passes ty pb r }

def topkOp : SelOp :=
  { row := topkRow
    candidate := fun ty pb all r => r.state == 0 && (match topkKey ty (slCap pb) (slMode pb == 0) (all.filter (fun x => x.row == r.row)) with
      | none => true
      | some t => if slMode pb = 0 then decide (t ≤ selKey ty r) else decide (selKey ty r ≤ t))
    order := sortOrder, word0 := fun r => r.state == 0
    left := fun ty _ row r => r.state == 0 && !row.short && selKey ty r == row.key }

def sortOp : SelOp :=
  { row := sortRow, candidate := fun _ _ _ _ => true, order := sortOrder, word0 := fun _ => true, left := fun _ _ _ _ => true }

/-- Flows to the other members: streams cut at BYTES, and whether one was cut. -/
def selFlows (op : SelOp) (ty : Nat) (j : Job) (pb : List Byte) (away : List SelCopy) (wins all : List SelRec) : List (Nat × List Byte) × Bool :=
  ((List.range j.members.length).filter (· != j.pos)).foldl (fun (acc : List (Nat × List Byte) × Bool) d =>
    let a := sortBy indexLt ((away.filter (fun c => c.owner == d)).map (·.item))
    let isDest := slDest pb = 0xFFFF ∨ slDest pb = d
    let b := if isDest then sortBy (op.order ty pb) (wins.filter (op.candidate ty pb all)) else []
    let f := flowAt j.plan (flowTab j.plan j.pos (fieldN pb 0x44 4) d)
    let bs := selStream a b
    (acc.1 ++ [(f.index, bs.take f.bytes)], acc.2 || decide (f.bytes < bs.length))) ([], false)

/-! ### A selection step -/

/-- Columns of a COLUMN operand that a step reads. -/
def selCols (pb : List Byte) : List Nat := 0 :: slVal pb :: (if slOwner pb = 0xFF then [] else [slOwner pb])

/-- Input of a step: type, FILL, rows of the region, and the copies held here; a replica other than 0 reads nothing (R202). -/
def selInput (s : State) (j : Job) (st : PlanStep) (pb : List Byte) : ReadRes (Nat × Nat × Nat × List SelCopy) :=
  if slForm pb = 0 then
    let b := opDesc j st 0
    let t := descBytes j.plan j.pos (operDist (st.opers.getD 0 0))
    let rows := (List.range (dtNdim t - 1)).foldl (fun v d => v * dtShape t d) 1
    match (if ownsShard t j.pos then readDesc s st.scope b else (s, .ok [])) with
    | (s1, .error e) => (s1, .error e)
    | (s1, .ok es) => (s1, .ok (dsType b, dsFill b, rows, tensorCopies j.pos b t es))
  else
    let ds := parSet j st pb 0
    match readSetCols s st.scope ds (selCols pb) with
    | (s1, .error e) => (s1, .error e)
    | (s1, .ok rows) =>
      let b := ds.getD (slVal pb) []
      (s1, .ok (dsType b, dsFill b, 1, columnCopies j.members.length ds pb rows))

/-- Greatest LENGTH of a row whose values could not be read: the extent of a tensor, or the indices that this member resolves or received. -/
def selLength (s : State) (j : Job) (st : PlanStep) (pb : List Byte) (secA secB : List SelRec) : Nat :=
  if slForm pb = 0 then
    let t := descBytes j.plan j.pos (operDist (st.opers.getD 0 0))
    dtShape t (dtNdim t - 1)
  else
    let ds := parSet j st pb 0
    let own : List SelCopy := match (if slOwner pb = slVal pb then (s, .error 0x0400) else readSetCols s st.scope ds ((selCols pb).filter (· != slVal pb))) with
      | (_, .error _) => []
      | (_, .ok rows) => (columnCopies j.members.length ds pb rows).filter (fun c => c.owner == j.pos)
    (byIndex (own.map (·.item) ++ secA)).length + secB.length

/-- DUP_COPIES, DUP_MISMATCHES and DUP_MISMATCH (R204, R216). -/
def noteCopies (s : State) (r : Resolved) : State :=
  let s1 := if r.discarded = 0 then s else count s devKey 25 r.discarded
  if r.mismatches = 0 then s1 else stickySet (count s1 devKey 26 r.mismatches) devKey 7

def selectionRun (op : SelOp) (secA secB : List SelRec) (s : State) (j : Job) (st : PlanStep) (pb : List Byte) : OpRes :=
  match selInput s j st pb with
  | (s1, .error e) => (s1, .fail (if 2 ^ 24 < selLength s1 j st pb secA secB then 0x0300 else e))
  | (s1, .ok (ty, fill, nrows, copies)) =>
    let own := copies.filter (fun c => c.owner == j.pos)
    let away := copies.filter (fun c => c.owner != j.pos)
    let res := resolve ty own (if slForm pb = 0 then [] else secA.map (sentCopy ty (if slForm pb = 0 then 0 else dsOffset ((parSet j st pb 0).getD (slVal pb) [])) j.pos))
    let s2 := noteCopies s1 res
    let all := res.wins ++ secB
    let rowOf (i : Nat) : List SelRec := all.filter (fun r => r.row == i)
    let rows := (List.range nrows).map (fun i => (rowOf i, op.row ty pb (rowOf i)))
    let written (r : SelRec) : Bool := rows.any (fun p => p.2.entries.any (fun e => e.index == r.index))
    let left (r : SelRec) : Bool := !written r && ((List.range nrows).zip rows).any (fun p => p.1 == r.row && op.left ty pb p.2.2 r)
    let w1 := (res.wins.filter written).length
    let (flows, cutFlow) := selFlows op ty j pb away res.wins all
    let base : ActResult := { ActResult.ok with
      elems := w1, saturated := (res.wins.filter (·.clamped)).length, flows := flows
      words := [(res.wins.filter op.word0).length, w1, exhaustedWord 0 (res.wins.filter left).length] }
    if rows.any (fun p => decide (2 ^ 24 < p.1.length)) then
      -- R213: nothing is written
      let unwritten := (res.wins.filter (fun r => op.left ty pb (op.row ty pb (rowOf r.row)) r)).length
      (s2, { base with status := 0x0300, elems := 0, words := [(res.wins.filter op.word0).length, 0, exhaustedWord 0 unwritten] })
    else
      let here := slDest pb = 0xFFFF ∨ slDest pb = j.pos
      let bytes := rows.flatMap (fun p => rowRecord fill (slCap pb) p.1 p.2)
      let r := { base with writes := if here then columnWrites s2 st.scope (opDesc j st 1) (wordsOf bytes) else [] }
      let code := Nat.max (if rows.any (fun p => p.2.full) then 8 else 0) (if cutFlow then 1 else 0)
      let short := code = 0 && rows.any (fun p => p.2.short)
      (s2, exhaust (if short then { r with status := 0x0303 } else r) code)

/-- R207. -/
def execSelectAbove (step : Nat) (secA secB : List SelRec) (s : State) : Host.Outcome State Fault Refusal :=
  .next (runStep s step 0xC (fun _ => true) (selectionRun selectOp secA secB))

/-- R208 to R210. -/
def execTopk (step : Nat) (secA secB : List SelRec) (s : State) : Host.Outcome State Fault Refusal :=
  .next (runStep s step 0xD (fun _ => true) (selectionRun topkOp secA secB))

/-- R211. -/
def execSortSegment (step : Nat) (secA secB : List SelRec) (s : State) : Host.Outcome State Fault Refusal :=
  .next (runStep s step 0x13 (fun _ => true) (selectionRun sortOp secA secB))

end Sys2Proof.Machine
end

