-- ==== Sys2Proof/Machine/Tongs.lean ====
section
/-!
DEFINITION. Rows of embedding tables and the row cache (R217 to R232): how an index resolves, where a row lies at an issue strike, which
version an activity reads, the pools, and the cache's counters.
-/
namespace Sys2Proof.Machine

def tabHash (b : List Byte) (o : Nat) : HashUse :=
  { family := tabFamily b, k1 := BitVec.ofNat 64 (fieldN b o 8), k2 := BitVec.ofNat 64 (fieldN b (o + 8) 8), table := hf1Default }

/-- Row numbers to which index i resolves, none when it is out of range (R218). The rows of component B of a COMPOSED table follow those
of component A, as their slots do (R219). (DEDUCED, unsafe: log entry 60.) -/
def resolveIndex (b : List Byte) (i : Nat) : Option (List Nat) :=
  let h (o n : Nat) : Nat := (hashWords (tabHash b o) [BitVec.ofNat 64 i]).toNat % n
  match tabKind b with
  | 0 => if i < tabRows b then some [i] else none
  | 1 => some [h 0x20 (tabRows b)]
  | _ => some [h 0x20 (tabRows b), tabRows b + h 0x30 (tabRowsB b)]

def isComposed (b : List Byte) : Bool := tabKind b == 2

def embTable (s : State) (id : Nat) : Option EmbTable := s.eng.tables.find? (fun t => t.id == id)

def versionOf (t : EmbTable) (n : Nat) : Option TableVersion := t.versions.find? (fun v => v.number == n)

/-- Change one version of a table. -/
def versionMod (s : State) (id n : Nat) (f : TableVersion → TableVersion) : State :=
  { s with eng := { s.eng with tables := s.eng.tables.map (fun t =>
    if t.id == id then { t with versions := t.versions.map (fun v => if v.number == n then f v else v) } else t) } }

/-- Retired at the issue strike (R223). -/
def retiredBy (v : TableVersion) (issue : Nat) : Bool := match v.retiredAt with
  | some r => decide (r ≤ issue)
  | none => false

/-- ACTIVE at the issue strike. -/
def activeAt (v : TableVersion) (issue : Nat) : Bool := (match v.activeFrom with
  | some a => decide (a ≤ issue)
  | none => false) && !retiredBy v issue

/-- The version a TONGS activity binds: CURRENT at its issue strike, or the one it names (R222). (DEDUCED, unsafe: log entry 36.) -/
def boundVersion (t : EmbTable) (n issue : Nat) : Option TableVersion :=
  if n = 0 then t.versions.find? (fun v => activeAt v issue) else versionOf t n

/-- Group position and slot address of a row for an activity issued at a strike (R219, R239, R240). -/
def rowPlace (s : State) (t : EmbTable) (v : TableVersion) (issue row : Nat) : Nat × Nat :=
  let n := (groupMembers s t.group).length
  if isComposed t.body then (groupPos s t.group, slotAddr t.body v row)
  else
    let home := (row % Nat.max n 1, slotAddr t.body v (row / Nat.max n 1))
    let redirected := match v.redirects.find? (fun r => r.row == row) with
      | some r => (r.member, r.addr.toNat)
      | none => home
    match v.migration with
    | some g =>
      match g.rows.findIdx? (· == row) with
      | some i => if g.installed && decide (issue < g.cutover) then (g.src, g.old.getD i 0) else redirected
      | none => redirected
    | none => redirected

/-- The Tongs engine that serves a slot: the one of the address's stack, and of the module of the same number in the far tier. (DEDUCED, unsafe: log entry 60.) -/
def engineOf (s : State) (a : Nat) : Nat := if a < 2 ^ 40 then nearStack (param s 1) a else (a - farBase) / 2 ^ 12 % 16

/-! ### Elements and pools (R218, R228) -/

/-- Values of a row's elements. -/
def rowValues (b img : List Byte) : List FVal :=
  let ty := tabRowType b
  let w := rowElemBytes ty
  let scale := decodeF (fmtOf 0x10) (fieldN img (tabDim b) 2)
  (List.range (tabDim b)).map (fun e =>
    let x := fieldN img (w * e) w
    if ty = 0x01 then mulVal (ofInt (sint 8 x)) scale else decodeF (fmtOf ty) x)

/-- Values of the vector of an index from its rows' values. -/
def combineRows (b : List Byte) (vs : List (List FVal)) : List FVal :=
  match vs with
  | [x, y] => (x.zip y).map (fun p => if tabCombine b = 1 then mulVal p.1 p.2 else addVal p.1 p.2)
  | x :: _ => x
  | [] => []

/-- Bits below the binary point of a pool word. -/
def poolScale (b : List Byte) : Nat :=
  if isComposed b && tabCombine b == 1 then 1074 else if tabRowType b = 0x11 ∨ tabRowType b = 0x12 then 149 else 24

def poolBytes (b : List Byte) : Nat := if poolScale b = 1074 then 536 else if poolScale b = 149 then 48 else 8

/-- A vector of exact sums with one count and one set of flags (R228). -/
structure Pool where
  key : Nat
  count : Nat
  nan : Bool
  pinf : Bool
  ninf : Bool
  sums : List Int

def Pool.zero (key dim : Nat) : Pool := { key := key, count := 0, nan := false, pinf := false, ninf := false, sums := List.replicate dim 0 }

/-- Add one value to a pool's flags. -/
def Pool.flag (p : Pool) (v : FVal) : Pool :=
  match v with
  | .nan => { p with nan := true }
  | .inf true => { p with ninf := true }
  | .inf false => { p with pinf := true }
  | .fin _ _ _ => p

/-- A value in units of 2^-scale; flagged values add nothing. -/
def fixedOf (scale : Nat) (v : FVal) : Int :=
  match v with
  | .fin n p q => signed n (p * 2 ^ scale / q)
  | _ => 0

/-- One more vector in a pool. -/
def Pool.add (scale : Nat) (p : Pool) (vs : List FVal) : Pool :=
  let q := vs.foldl Pool.flag p
  { q with count := p.count + 1, sums := (p.sums.zip vs).map (fun x => x.1 + fixedOf scale x.2) }

def Pool.join (a b : Pool) : Pool :=
  { a with count := a.count + b.count, nan := a.nan || b.nan, pinf := a.pinf || b.pinf, ninf := a.ninf || b.ninf,
           sums := (a.sums.zip b.sums).map (fun x => x.1 + x.2) }

/-- Change or make the pool of a key, pools in order of key. -/
def poolMod (dim key : Nat) (f : Pool → Pool) (ps : Sparse Pool) : Sparse Pool := sparsePut key (f (sparseGet (Pool.zero key dim) key ps)) ps

/-- Element e of a pool as an accumulator. -/
def Pool.acc (p : Pool) (e : Nat) : Accumulator :=
  { value := p.sums.getD e 0, count := p.count, nanSeen := p.nan, posInf := p.pinf, negInf := p.ninf }

/-- A partial or gradient record: key, count, flags, pool words. -/
def Pool.bytes (bytes : Nat) (p : Pool) : List Byte :=
  leBytes 8 p.key ++ leBytes 4 p.count ++ leBytes 4 (boolNat p.nan + 2 * boolNat p.pinf + 4 * boolNat p.ninf) ++
    p.sums.flatMap (fun x => leBytes bytes (wrapInt (8 * bytes) x))

/-! ### Load (R237, R238, R245) -/

def tongsGet (s : State) (e : Nat) : Tongs := sparseGet Tongs.reset e s.eng.tongs

def tongsMod (s : State) (e : Nat) (f : Tongs → Tongs) : State :=
  { s with eng := { s.eng with tongs := sparseSet Tongs.reset e (f (tongsGet s e)) s.eng.tongs } }

/-- One more access of (table, row). -/
def accessAdd (table row : Nat) : List (Nat × Nat × Nat) → List (Nat × Nat × Nat)
  | [] => [(table, row, 1)]
  | (t, r, n) :: l => if t = table ∧ r = row then (t, r, n + 1) :: l else (t, r, n) :: accessAdd table row l

/-- Engine e serves one record. -/
def tongsServe (s : State) (e table row : Nat) : State :=
  count (tongsMod s e (fun t => { t with current := t.current + 1, access := accessAdd table row t.access })) (columnKey e) 16 1

/-! ### The row cache (R230 to R232) -/

/-- Sets of the cache. -/
def cacheSets (s : State) : Nat := cacheGib s * 2 ^ 30 / Nat.max (param s 7) 1 / 16

/-- (DEDUCED, unsafe: log entry 60.) -/
def cacheSetOf (s : State) (table version row : Nat) : Nat :=
  (hf0 (BitVec.ofNat 64 row) (BitVec.ofNat 64 table) (BitVec.ofNat 64 version)).toNat % Nat.max (cacheSets s) 1

def cacheGet (s : State) (k : Nat) : CacheSet := sparseGet CacheSet.empty k s.eng.cache

def cacheMod (s : State) (k : Nat) (f : CacheSet → CacheSet) : State :=
  { s with eng := { s.eng with cache := sparseSet CacheSet.empty k (f (cacheGet s k)) s.eng.cache } }

/-- Address of a way's row image. -/
def cacheAddr (s : State) (k w : Nat) : Nat := param s 9 + (16 * k + w) * param s 7

/-- Index of the lowest counter, lowest index on ties. -/
def lowestTag (l : List CacheTag) : Nat :=
  let m := (minNat? (l.map (·.count))).getD 0
  (l.findIdx? (fun t => t.count == m)).getD 0

def satByte (n : Nat) : Nat := Nat.min n 255

/-- Rows of a table may be cached: not COMPOSED, and short enough. -/
def cacheable (s : State) (b : List Byte) : Bool := !isComposed b && decide (rowStride b ≤ param s 7) && decide (0 < cacheSets s)

/-- What the cache does with a record to a remote owner: the state, the way that holds the row, and whether a fill is requested. -/
structure CacheOut where
  st : State
  way : Option Nat
  fill : Bool

/-- R232's first four cases. -/
def cacheLook (s : State) (table version row gen : Nat) : CacheOut :=
  let k := cacheSetOf s table version row
  let c := cacheGet s k
  let key := (table, version, row, gen)
  match c.ways.findIdx? (fun t => t.key == some key) with
  | some w =>
    let s1 := cacheMod s k (fun c => { c with ways := listModify c.ways w (fun t => { t with count := satByte (t.count + 1) }) })
    { st := count s1 (columnKey (k % 16)) 17 1, way := some w, fill := false }
  | none =>
    let s0 := count s (columnKey (k % 16)) 18 1
    match c.ghosts.findIdx? (fun t => t.key == some key) with
    | some g =>
      let n := satByte ((c.ghosts.getD g { key := none, count := 0 }).count + 1)
      let low := (minNat? (c.ways.map (·.count))).getD 0
      { st := cacheMod s0 k (fun c => { c with ghosts := listModify c.ghosts g (fun t => { t with count := n }) }), way := none, fill := decide (low < n) }
    | none =>
      { st := cacheMod s0 k (fun c => { c with ghosts := c.ghosts.set (lowestTag c.ghosts) { key := some key, count := 1 } }), way := none, fill := false }

/-- Every counter shifts right by 1. -/
def decaySet (c : CacheSet) : CacheSet :=
  { ways := c.ways.map (fun t => { t with count := t.count / 2 }), ghosts := c.ghosts.map (fun t => { t with count := t.count / 2 }) }

/-- R232: at a heat boundary that is a multiple of DECAY_HEATS heats. -/
def execRowCacheDecay (s : State) : Host.Outcome State Fault Refusal :=
  .next (if isBoundary (now s) && heatOf (now s) % Nat.max (param s 8) 1 == 0 then
    { s with eng := { s.eng with cache := (s.eng.cache.map (fun e => (e.1, decaySet e.2))).filter (fun e => e.2 != CacheSet.empty) } }
  else s)

/-- Device number of a group position. -/
def memberAt (s : State) (t : EmbTable) (p : Nat) : Nat := (groupMembers s t.group).getD p 0

/-- R232: the owner answers a fill request with the row's image and GEN; a row it does not own, or cannot read, is not answered. -/
def fillRequest (source table version row : Nat) (s : State) : State :=
  match embTable s table with
  | none => s
  | some t =>
    match versionOf t version with
    | none => s
    | some v =>
      let (p, a) := rowPlace s t v (now s) row
      if p ≠ groupPos s t.group || isComposed t.body then s
      else
        let r := memRead s a (rowStride t.body)
        match r.bad with
        | some _ => r.st
        | none => sendTo r.st [memberAt r.st t source] 5 (.cacheReply table version row v.gen r.bytes)

/-- R232. -/
def execRowCacheFillRequest (source table version row : Nat) (s : State) : Host.Outcome State Fault Refusal :=
  .next (fillRequest source table version row s)

/-- A fill reply whose GEN is current goes into the way with the lowest counter, which takes the ghost's tag and counter (R232). (DEDUCED, unsafe: log entry 60.) -/
def fillReply (table version row gen : Nat) (image : List Byte) (s : State) : State :=
  match (embTable s table).bind (fun t => (versionOf t version).map (fun v => (t, v))) with
  | none => s
  | some (t, v) =>
    if v.gen ≠ gen || !cacheable s t.body then s
    else
      let k := cacheSetOf s table version row
      let c := cacheGet s k
      match c.ghosts.find? (fun g => g.key == some (table, version, row, gen)) with
      | none => s
      | some g =>
        let w := lowestTag c.ways
        let s1 := cacheMod s k (fun c => { c with ways := c.ways.set w g })
        count (memWrite s1 (cacheAddr s k w) (slice image 0 (rowStride t.body))) (columnKey (k % 16)) 19 1

/-- R232. -/
def execRowCacheFillReply (table version row gen : Nat) (image : List Byte) (s : State) : Host.Outcome State Fault Refusal :=
  .next (fillReply table version row gen image s)

end Sys2Proof.Machine
end

