-- ==== Sys2Proof/Machine/EmbOps.lean ====
section
/-!
DEFINITION. EMB_LOOKUP and EMB_UPDATE (R226 to R237, R243): occurrences, pooling, output rows, and the update of rows.
-/
namespace Sys2Proof.Machine

def emTable (pb : List Byte) : Nat := fieldN pb 0x30 4
def emVersion (pb : List Byte) : Nat := fieldN pb 0x34 4
def emMean (pb : List Byte) : Bool := byteAt pb 0x38 == 1
def emIndexCol (pb : List Byte) : Nat := byteAt pb 0x39
def emBagCol (pb : List Byte) : Nat := byteAt pb 0x3A
def emCap (pb : List Byte) : Nat := fieldN pb 0x3C 4
def emBase (pb : List Byte) : Nat := fieldN pb 0x40 8
def emReqTab (pb : List Byte) : Nat := fieldN pb 0x48 4
def emPartTab (pb : List Byte) : Nat := fieldN pb 0x4C 4

/-! ### The bag tensor (R226, R92) -/

/-- Distribution descriptor of operand i, none when the operand is local. -/
def opDist (j : Job) (st : PlanStep) (i : Nat) : Option (List Byte) :=
  let d := operDist (st.opers.getD i 0)
  if d = 0xFFFF then none else some (descBytes j.plan j.pos d)

/-- Global coordinate in dimension d of local coordinate y at group position p. -/
def placeCoord (t : Option (List Byte)) (p d y : Nat) : Nat :=
  match t with
  | none => y
  | some t => globalCoord t (shardOfPos t p) d y

/-- Bags of the tensor: GSHAPE[0]. -/
def bagCount (s : State) (j : Job) (st : PlanStep) : Nat :=
  match opDist j st 1 with
  | some t => dtShape t 0
  | none => dsShape (opDesc j st 1) 0 * (windowsOf s st.scope (opDesc j st 1)).length

/-- Global tensor rows that position p holds, in local order (R92). -/
def rowsAt (t : Option (List Byte)) (nbags p : Nat) : List Nat :=
  match t with
  | none => List.range nbags
  | some t => (List.range (localExt t (shardOfPos t p) 0)).map (globalCoord t (shardOfPos t p) 0)

/-- Group positions that hold a replica of a tensor row. -/
def rowHolders (j : Job) (t : Option (List Byte)) (nbags r : Nat) : List Nat :=
  match t with
  | none => [j.pos]
  | some _ => (List.range j.members.length).filter (fun p => (rowsAt t nbags p).contains r)

/-- Elements of the operand at this position: (global row, global column) in order of local index over the windows. -/
def bagCells (s : State) (j : Job) (st : PlanStep) (b : List Byte) (t : Option (List Byte)) : List (Nat × Nat) :=
  let n := dsCount b
  (List.range (n * (windowsOf s st.scope b).length)).map (fun i =>
    let y (d : Nat) : Nat := coordsOf (dsShape b) (dsNdim b) (i % Nat.max n 1) d + (if d = 0 then i / Nat.max n 1 * dsShape b 0 else 0)
    (placeCoord t j.pos 0 (y 0), placeCoord t j.pos 1 (y 1)))

/-! ### Occurrences (R227) -/

/-- A taking part occurrence: bag and the rows its index resolves to. -/
structure Occ where
  bag : Nat
  rows : List Nat

/-- The occurrence of a live row, none when it is skipped. -/
def occOf (b pb : List Byte) (nbags : Nat) (r : Row) : Option Occ :=
  let i := r.getD (emIndexCol pb) Elem.null
  let g := r.getD (emBagCol pb) Elem.null
  if i.valid && g.valid && decide (emBase pb ≤ g.bits ∧ g.bits < emBase pb + nbags) then
    (resolveIndex b i.bits).map (fun rows => { bag := g.bits, rows := rows })
  else none

/-- Most occurrences of one bag among a list of bags. -/
def largestBag (l : List Nat) : Nat := maxNat ((dedupNat l).map (fun x => (l.filter (· == x)).length))

/-! ### Serving (R228, R232, R237) -/

/-- What a step fixes: table, version, issue strike, cap. -/
structure EmbUse where
  table : EmbTable
  version : TableVersion
  issue : Nat
  cap : Nat

/-- Work of a lookup so far: the pools, accesses by engine, requests to send, and how it failed. -/
structure LookAcc where
  st : State
  pools : Sparse Pool
  load : Sparse Nat
  sends : List (Nat × Nat × Nat)
  capped : Bool
  bad : Bool
  late : Bool

/-- One access at an engine; past LOAD_CAP the engine serves no further record. -/
def LookAcc.access (u : EmbUse) (a : LookAcc) (e row : Nat) : LookAcc × Bool :=
  let n := sparseGet 0 e a.load
  if u.cap ≤ n then ({ a with capped := true }, false)
  else ({ a with load := sparsePut e (n + 1) a.load, st := tongsServe a.st e u.table.id row }, true)

/-- Pool the vector of some rows read at their addresses for a bag, as one access of engine e. -/
def LookAcc.pool (u : EmbUse) (a : LookAcc) (e bag : Nat) (rows addrs : List Nat) : LookAcc :=
  let (a1, ok) := a.access u e (rows.headD 0)
  if !ok then a1
  else
    let b := u.table.body
    let (s1, imgs, bad) := addrs.foldl (fun (acc : State × List (List Byte) × Bool) x =>
      let r := memRead acc.1 x (rowStride b)
      (r.st, acc.2.1 ++ [r.bytes], acc.2.2 || r.bad.isSome)) (a1.st, [], false)
    let vs := combineRows b (imgs.map (rowValues b))
    if bad then { a1 with st := s1, bad := true }
    else { a1 with st := s1, pools := poolMod (tabDim b) bag (fun p => p.add (poolScale b) vs) a1.pools }

/-- A row this member owns: pooled where it lies. -/
def LookAcc.serve (u : EmbUse) (a : LookAcc) (bag : Nat) (rows : List Nat) : LookAcc :=
  let addrs := rows.map (fun r => (rowPlace a.st u.table u.version u.issue r).2)
  a.pool u (engineOf a.st (addrs.headD 0)) bag rows addrs

/-- One occurrence of this member: its own row, a cached one, or a request to the owner. -/
def lookOcc (j : Job) (u : EmbUse) (a : LookAcc) (o : Occ) : LookAcc :=
  let row := o.rows.headD 0
  let p := (rowPlace a.st u.table u.version u.issue row).1
  if p = j.pos then a.serve u o.bag o.rows
  else if !cacheable a.st u.table.body then { a with sends := a.sends ++ [(p, row, o.bag)] }
  else
    let c := cacheLook a.st u.table.id u.version.number row u.version.gen
    let k := cacheSetOf a.st u.table.id u.version.number row
    match c.way with
    | some w => LookAcc.pool u { a with st := c.st } (k % 16) o.bag o.rows [cacheAddr a.st k w]
    | none =>
      let s1 := if c.fill then sendTo c.st [memberAt c.st u.table p] 5 (.cacheFill u.table.id u.version.number row) else c.st
      { a with st := s1, sends := a.sends ++ [(p, row, o.bag)] }

/-- Group position to which the old owner of a migrated row forwards its records, within the forwarding window (R240). -/
def forwardPos (s : State) (u : EmbUse) (row : Nat) : Option Nat :=
  match u.version.migration with
  | some g => if g.rows.contains row && g.src == groupPos s u.table.group && g.installed && decide (now s < g.cutover + 8192) then some g.dst else none
  | none => none

/-- Forward a record to a group position: it counts in FORWARDED. -/
def forwardTo (s : State) (u : EmbUse) (p : Nat) (b : CtlBody) : State := sendTo (count s devKey 28 1) [memberAt s u.table p] 5 b

/-- A request record of another member: served by the row's owner, forwarded within the window, dropped after it (R240). -/
def lookReq (j : Job) (u : EmbUse) (a : LookAcc) (r : Nat × Nat × Nat) : LookAcc :=
  let (_, row, bag) := r
  if (rowPlace a.st u.table u.version u.issue row).1 = j.pos then a.serve u bag [row]
  else match forwardPos a.st u row with
    | some p => { a with st := forwardTo a.st u p (.tongsRecord u.table.id u.version.number u.issue row bag) }
    | none => { a with late := true }

/-- Take the forwarded records of the step's issue strike out of the version (R240). -/
def takeForwarded (s : State) (u : EmbUse) : State :=
  versionMod s u.table.id u.version.number (fun v =>
    { v with forwarded := v.forwarded.filter (fun x => x.1 != u.issue), forwardedGrads := v.forwardedGrads.filter (fun x => x.1 != u.issue) })

/-- Forwarded request records of the step. -/
def forwardedReqs (u : EmbUse) : List (Nat × Nat × Nat) := (u.version.forwarded.filter (fun x => x.1 == u.issue)).map (fun x => (0, x.2))

/-- Forwarded gradient records of the step. -/
def forwardedGrads (u : EmbUse) : List GradRec := (u.version.forwardedGrads.filter (fun x => x.1 == u.issue)).map (·.2)

/-- New slot of row i of a migration: its home slot when it moves home (R239). -/
def newSlot (s : State) (t : EmbTable) (v : TableVersion) (g : Migration) (i : Nat) : Nat :=
  let n := Nat.max (groupMembers s t.group).length 1
  let r := g.rows.getD i 0
  if r % n = g.dst then slotAddr t.body v (r / n) else g.addr + i * slotBytes t.body

/-- The rows among some that the new owner of a migration must not serve before END, by their places in the migration (R240). -/
def rowsBeforeEnd (s : State) (u : EmbUse) (rows : List Nat) : List Nat :=
  match u.version.migration with
  | some g =>
    if g.installed && !g.endReceived && g.dst == groupPos s u.table.group && decide (g.cutover ≤ u.issue) then
      (List.range g.rows.length).filter (fun i => rows.contains (g.rows.getD i 0))
    else []
  | none => []

/-- Records of these rows wait at their engines from this strike on, unless the engine has some that wait already. (DEDUCED, unsafe: log entry 60.) -/
def noteWaits (s : State) (u : EmbUse) (places : List Nat) : State :=
  versionMod s u.table.id u.version.number (fun v => { v with migration := v.migration.map (fun g =>
    let es := dedupNat (places.map (fun i => engineOf s (newSlot s u.table v g i)))
    { g with waits := g.waits ++ ((es.filter (fun e => !g.waits.any (fun x => x.1 == e))).map (fun e => (e, now s))) }) })

/-- Request records to position d. -/
def reqBytes (sends : List (Nat × Nat × Nat)) (d : Nat) : List Byte :=
  (sends.filter (fun r => r.1 == d)).flatMap (fun r => leBytes 8 r.2.1 ++ leBytes 8 r.2.2)

/-- Streams of a flow table: one to each other member that has bytes. -/
def tabFlows (j : Job) (tab : Nat) (bytes : Nat → List Byte) : List (Nat × List Byte) :=
  ((List.range j.members.length).filter (fun d => d != j.pos && !(bytes d).isEmpty)).map (fun d => (flowTab j.plan j.pos tab d, bytes d))

/-- A peer's partial record as a pool. -/
def ofPartial (p : PartialBag) : Pool := { key := p.bag, count := p.count, nan := p.nanSeen, pinf := p.posInf, ninf := p.negInf, sums := p.sums }

/-! ### Output rows (R229) -/

/-- An output element and whether its rounding was out of range. -/
def bagElem (ty scale : Nat) (fsat mean : Bool) (p : Pool) (col : Nat) : Elem × Conv :=
  let c := accRound ty fsat (accResult scale mean (p.acc col))
  (if c.null then Elem.null else Elem.num c.bits, c)

/-- The issue strike of a step in progress. -/
def issueOf (j : Job) (st : PlanStep) : Nat := ((actOf j (.step st.index)).map (·.start)).getD 0

/-- The table and version a TONGS step uses, or the status that ends it (R222, R223, R225). -/
def embUse (s : State) (j : Job) (st : PlanStep) (pb : List Byte) (update : Bool) : Except (BitVec 16) EmbUse :=
  let issue := issueOf j st
  match embTable s (emTable pb) with
  | none => .error 0x0602
  | some t =>
    match boundVersion t (emVersion pb) issue with
    | none => .error 0x0602
    | some v =>
      if v.damaged then .error 0x0400
      else if update && retiredBy v issue then .error 0x0602
      else .ok { table := t, version := v, issue := issue, cap := emCap pb }

/-- The served part of a lookup: this member's occurrences in order, then the requests that came. -/
def lookWork (s : State) (j : Job) (u : EmbUse) (occs : List Occ) (requests : List (Nat × Nat × Nat)) : LookAcc :=
  let a0 : LookAcc := { st := s, pools := [], load := [], sends := [], capped := false, bad := false, late := false }
  requests.foldl (lookReq j u) (occs.foldl (lookOcc j u) a0)

/-- Status of a lookup's serving. -/
def lookStatus (a : LookAcc) (tooLong : Bool) : BitVec 16 :=
  if a.bad then 0x0400 else if tooLong then 0x0300 else if a.late then 0x0500 else 0

def lookFinish (partials : List PartialBag) (j : Job) (st : PlanStep) (pb : List Byte) (u : EmbUse) (occs : List Occ)
    (counted : Nat × Nat) (a : LookAcc) : OpRes :=
  let b := u.table.body
  let s := a.st
  let t := opDist j st 1
  let d1 := opDesc j st 1
  let n := bagCount s j st
  let mine := (a.pools.map (·.2)).filter (fun p => (rowHolders j t n (p.key - emBase pb)).contains j.pos)
  let all := (mine ++ partials.map ofPartial).foldl (fun ps p => poolMod (tabDim b) p.key (fun q => q.join p) ps) []
  let tooLong := decide (65536 < largestBag (occs.map (·.bag))) || all.any (fun e => decide (65536 < e.2.count))
  let poolAt (r : Nat) : Pool := sparseGet (Pool.zero (emBase pb + r) (tabDim b)) (emBase pb + r) all
  let cells := (bagCells s j st d1 t).map (fun c =>
    if n ≤ c.1 then (Elem.num 0, Conv.of 0)
    else bagElem (dsType d1) (poolScale b) (bit (operActl (st.opers.getD 1 0)) 3) (emMean pb) (poolAt c.1) c.2)
  let counts := (bagCells s j st (opDesc j st 2) (opDist j st 2)).map (fun c =>
    if (poolAt c.1).count = 0 then Elem.null else Elem.num (poolAt c.1).count)
  let out := descWrites s st.scope d1 (cells.map (·.1)) ++
    (if emMean pb then descWrites s st.scope (opDesc j st 2) counts else [])
  let owner := match t with
    | none => true
    | some t => ownsShard t j.pos
  let ovf := (cells.filter (·.2.overflow)).length
  let flows := tabFlows j (emReqTab pb) (reqBytes a.sends) ++
    tabFlows j (emPartTab pb) (fun d => ((a.pools.map (·.2)).filter (fun p => (rowHolders j t n (p.key - emBase pb)).contains d)).flatMap (·.bytes (poolBytes b)))
  let r : ActResult := { ActResult.ok with
    status := lookStatus a tooLong, elems := if owner then cells.length + (if emMean pb then counts.length else 0) else 0
    saturated := if owner then (cells.filter (·.2.sat)).length else 0, flows := flows
    words := [counted.1, counted.2, exhaustedWord 0 (counted.1 - counted.2)], writes := if lookStatus a tooLong = 0 then out else [] }
  if r.status ≠ 0 then (s, r)
  else if a.capped then (s, exhaust r 9)
  else accRange s st.scope ovf (decide (0 < ovf)) r

def embLookupRun (requests : List (Nat × Nat × Nat)) (partials : List PartialBag) (s : State) (j : Job) (st : PlanStep) (pb : List Byte) : OpRes :=
  let ins := parSet j st pb 0
  match embUse s j st pb false with
  | .error e => (s, .fail e)
  | .ok u =>
    match readSetCols s st.scope ins [0, emIndexCol pb, emBagCol pb] with
    | (s1, .error e) => (s1, .fail e)
    | (s1, .ok rows) =>
      let own := countedRows s1 st.scope ins (parPair pb 0) (rows.filter isLive)
      let occs := own.filterMap (occOf u.table.body pb (bagCount s1 j st))
      lookFinish partials j st pb u occs (own.length, occs.length) (lookWork s1 j u occs (requests ++ forwardedReqs u))

/-- Records that wait for END at the new owner of a migration hold the step back: the state in which they wait; none where nothing waits (R240). -/
def stepWaits (s : State) (i op : Nat) (rows : List Nat) : Option State :=
  match servedStep s i 0 op with
  | none => none
  | some (j, st) =>
    let pb := stepParams j.plan j.pos st
    match embUse s j st pb (op == 0xF) with
    | .error _ => none
    | .ok u =>
      match readSetCols s st.scope (parSet j st pb 0) [0, emIndexCol pb, emBagCol pb] with
      | (_, .error _) => none
      | (_, .ok rs) =>
        let own := ((rs.filter isLive).filterMap (occOf u.table.body pb (bagCount s j st))).flatMap (·.rows)
        let ws := rowsBeforeEnd s u (rows ++ (forwardedReqs u).map (·.2.1) ++ (forwardedGrads u).map (·.row) ++ own)
        if ws.isEmpty then none else some (noteWaits s u ws)

/-- R228. -/
def execEmbLookup (step : Nat) (requests : List (Nat × Nat × Nat)) (partials : List PartialBag) (s : State) : Host.Outcome State Fault Refusal :=
  .next ((stepWaits s step 0xE (requests.map (·.2.1))).getD (runStep s step 0xE (fun _ => true) (embLookupRun requests partials)))

/-! ### EMB_UPDATE (R233 to R235) -/

def dec32 (n : Nat) : FVal := decodeF binary32 n
def bits32 (v : FVal) : Nat := (encodeF binary32 rne v).bits
def rne32 (v : FVal) : FVal := dec32 (bits32 v)

/-- A bag's contribution: its gradient row, over the bag's count for MEAN; none when either is null or the row is not held here. -/
def contribution (pb : List Byte) (dim : Nat) (grads : List ((Nat × Nat) × Elem)) (counts : List ((Nat × Nat) × Elem)) (bag : Nat) : Option (List FVal) :=
  let r := bag - emBase pb
  let row := grads.filter (fun c => c.1.1 == r)
  let es := (List.range dim).map (fun e => ((row.find? (fun c => c.1.2 == e)).map (·.2)).getD Elem.null)
  let n := ((counts.find? (fun c => c.1.1 == r)).map (·.2)).getD Elem.null
  if es.any (fun e => !e.valid) || (emMean pb && !n.valid) then none
  else some (es.map (fun e => if emMean pb then rne32 (divVal (dec32 e.bits) (ofInt n.bits)) else dec32 e.bits))

/-- Bits below the binary point of a gradient sum. -/
def gradScale (b : List Byte) : Nat := if isComposed b && tabCombine b == 1 then 1074 else 149

/-- What an occurrence adds to each of its rows: for PRODUCT the contribution times the other component's row. -/
def rowShares (b : List Byte) (rows : List Nat) (vals : Nat → List FVal) (c : List FVal) : List (Nat × List FVal) :=
  match rows with
  | [x, y] =>
    if tabCombine b = 1 then [(x, (c.zip (vals y)).map (fun p => mulVal p.1 p.2)), (y, (c.zip (vals x)).map (fun p => mulVal p.1 p.2))]
    else [(x, c), (y, c)]
  | _ => rows.map (fun r => (r, c))

def ofGrad (g : GradRec) : Pool := { key := g.row, count := g.count, nan := g.nanSeen, pinf := g.posInf, ninf := g.negInf, sums := g.sums }

/-- Row number within its component, for gi of R234. -/
def rowInComponent (b : List Byte) (r : Nat) : Nat := if isComposed b && decide (tabRows b ≤ r) then r - tabRows b else r

/-- A slot's parts as they change: element values, momentum, ACC. -/
structure RowState where
  y : List FVal
  mom : List FVal
  acc : FVal

/-- R234's arithmetic on one row. -/
def updateRow (optim dim : Nat) (lr mu eps : FVal) (w m : List FVal) (a : FVal) (g : List FVal) : RowState :=
  let sub (x d : FVal) : FVal := f64 (subVal x d)
  match optim with
  | 1 => { y := (w.zip g).map (fun p => sub p.1 (f64 (mulVal lr p.2))), mom := m, acc := a }
  | 2 =>
    let m' := (m.zip g).map (fun p => rne32 (addVal (mulVal mu p.1) p.2))
    { y := (w.zip m').map (fun p => sub p.1 (f64 (mulVal lr p.2))), mom := m', acc := a }
  | _ =>
    let sq := (g.map (fun x => mulVal x x)).foldl addVal (.fin false 0 1)
    let q := f64 (divVal sq (ofInt dim))
    let a' := rne32 (f64 (addVal a q))
    let d := f64 (addVal (f64 (sqrtVal a')) eps)
    { y := (w.zip g).map (fun p => sub p.1 (f64 (divVal (f64 (mulVal lr p.2)) d))), mom := m, acc := a' }

def finiteMax (l : List FVal) : FVal := (l.filter (· != .nan)).foldl (fun acc v => if ltVal acc (absVal v) then absVal v else acc) (.fin false 0 1)

/-- Stored bytes of a row's new values: bytes, saturated, NaNs converted. (DEDUCED, unsafe: log entry 61.) -/
def storeRow (b : List Byte) (seed row : Nat) (y : List FVal) : List Byte × Nat × Nat :=
  let ty := tabRowType b
  let rnd (e : Nat) : Rounding :=
    { rne with rmode := tabRmode b, fsat := ty = 0x10 ∨ ty = 0x14 ∨ ty = 0x15, isat := true, draw := srDraw seed 0 (row * tabDim b + e) }
  let es := (List.range y.length).zip y
  if ty = 0x01 then
    let sb := (encodeF (fmtOf 0x10) { rne with rmode := 2 } (f64 (divVal (finiteMax y) (ofInt 127)))).bits
    let sv := decodeF (fmtOf 0x10) sb
    let q (p : Nat × FVal) : Conv :=
      if isZeroVal sv && p.2 != .nan then Conv.of 0
      else
        let c := convertVal 1 0 (rnd p.1) (divVal p.2 sv)
        if sint 8 c.bits < -127 then { c with bits := 0x81, sat := true } else c
    let cs := es.map q
    (cs.map (fun c => BitVec.ofNat 8 c.bits) ++ leBytes 2 sb, (cs.filter (·.sat)).length, (cs.filter (·.nanConv)).length)
  else
    let cs := es.map (fun p => convertVal ty 0 (rnd p.1) p.2)
    (cs.flatMap (fun c => leBytes (rowElemBytes ty) c.bits), (cs.filter (·.sat)).length, 0)

/-- Progress of the owner over its rows. -/
structure UpdAcc where
  st : State
  load : Sparse Nat
  rows : List Nat
  writes : List (Nat × List Byte)
  sat : Nat
  nan : Nat
  ovf : Nat
  capped : Bool
  bad : Bool

/-- LAST_UPD of this step. -/
def lastUpd (j : Job) (i : Nat) : Nat := j.num.toNat % 2 ^ 32 * 2 ^ 32 + i

/-- One row's update: rounded once to G, applied unless LAST_UPD already names this step (R235). (DEDUCED, unsafe: log entry 61.) -/
def updOne (j : Job) (st : PlanStep) (pb : List Byte) (u : EmbUse) (a : UpdAcc) (p : Pool) : UpdAcc :=
  let b := u.table.body
  let addr := (rowPlace a.st u.table u.version u.issue p.key).2
  let e := engineOf a.st addr
  let n := sparseGet 0 e a.load
  if u.cap ≤ n then { a with capped := true }
  else
    let r := memRead (tongsServe a.st e u.table.id p.key) addr (slotBytes b)
    let rs := rowStride b
    if r.bad.isSome then { a with st := r.st, bad := true }
    else if fieldN r.bytes (rs + 8) 8 = lastUpd j st.index then { a with st := r.st, load := sparsePut e (n + 1) a.load, rows := a.rows ++ [p.key] }
    else
      let gc := (List.range (tabDim b)).map (fun i => accRound 0x12 false (accResult (gradScale b) false (p.acc i)))
      let g := gc.map (fun c => dec32 c.bits)
      let mom := (List.range (tabDim b)).map (fun i => dec32 (fieldN r.bytes (rs + 64 + 4 * i) 4))
      let f (o : Nat) : FVal := dec32 (fieldN pb o 4)
      let x := updateRow (tabOptim b) (tabDim b) (f 0x50) (f 0x54) (f 0x58) (rowValues b r.bytes) mom (dec32 (fieldN r.bytes (rs + 0x10) 4)) g
      let (img, sat, nan) := storeRow b (plSeed j.plan) (rowInComponent b p.key) x.y
      let meta' := leBytes 8 ((fieldN r.bytes rs 8 + 1) % 2 ^ 64) ++ leBytes 8 (lastUpd j st.index) ++
        leBytes 4 (if tabOptim b = 3 then bits32 x.acc else fieldN r.bytes (rs + 0x10) 4)
      let momB := if tabOptim b = 2 then [(addr + rs + 64, x.mom.flatMap (fun v => leBytes 4 (bits32 v)))] else []
      { a with st := count r.st (columnKey e) 20 1, load := sparsePut e (n + 1) a.load, rows := a.rows ++ [p.key], writes := a.writes ++ [(addr, img), (addr + rs, meta')] ++ momB
               sat := a.sat + sat, nan := a.nan + nan, ovf := a.ovf + (gc.filter (·.overflow)).length }

/-- This member's own gradient sums by row. (DEDUCED, unsafe: log entry 61.) -/
def ownGrads (b : List Byte) (cs : Nat → Option (List FVal)) (vals : Nat → List FVal) (occs : List Occ) : Sparse Pool :=
  occs.foldl (fun ps o => match cs o.bag with
    | none => ps
    | some c => (rowShares b o.rows vals c).foldl (fun ps q => poolMod (tabDim b) q.1 (fun p => p.add (gradScale b) q.2) ps) ps) []

/-- Elements of an operand with their global coordinates. -/
def readCells (s : State) (j : Job) (st : PlanStep) (i : Nat) : ReadRes (List ((Nat × Nat) × Elem)) :=
  let b := opDesc j st i
  match readDesc s st.scope b with
  | (s1, .error e) => (s1, .error e)
  | (s1, .ok es) => (s1, .ok ((bagCells s1 j st b (opDist j st i)).zip es))

/-- Values of composed rows read at their slots: the state after the reads, the values by row, and whether one could not be corrected (R296). -/
def readSlots (s : State) (u : EmbUse) (rows : List Nat) : State × Sparse (List FVal) × Bool :=
  rows.foldl (fun acc r =>
    let x := memRead acc.1 (rowPlace s u.table u.version u.issue r).2 (rowStride u.table.body)
    (x.st, sparsePut r (rowValues u.table.body x.bytes) acc.2.1, acc.2.2 || x.bad.isSome)) (s, [], false)

/-- A gradient record as sent: for PRODUCT, whose sums have 1,074 bits below the point, its 48-byte pool words are free bytes (R233).
(DEDUCED, unsafe: log entry 61.) -/
def gradBytes (b : List Byte) (free : Nat) (p : Pool) : List Byte :=
  if gradScale b = 1074 then (p.bytes 48).take 16 ++ (List.range (48 * tabDim b)).map (fun i => Config.freeByte (free + i)) else p.bytes 48

/-- Gradient records that reach this member and are not its own: forwarded within the window; the state, and whether one was dropped (R240). (DEDUCED, unsafe: log entry 61.) -/
def forwardGrads (s : State) (u : EmbUse) (l : List GradRec) : State × Bool :=
  l.foldl (fun a g => match forwardPos a.1 u g.row with
    | some p => (forwardTo a.1 u p (.gradRecord u.table.id u.version.number u.issue g), a.2)
    | none => (a.1, true)) (s, false)

/-- Occurrences that take part in one bag, over the members (R227): this member's, and the others' counts of the bag. -/
def largestTotal (own : List Nat) (others : List (Nat × Nat)) : Nat :=
  maxNat ((dedupNat (own ++ others.map (·.1))).map (fun b => (own.filter (· == b)).length + sumNat ((others.filter (fun x => x.1 == b)).map (·.2))))

def embUpdateWork (grads : List GradRec) (bags : List (Nat × Nat)) (s0 : State) (j : Job) (st : PlanStep) (pb : List Byte) (u : EmbUse) (rows : List Row)
    (gs cs : List ((Nat × Nat) × Elem)) : OpRes :=
  let b := u.table.body
  let own := countedRows s0 st.scope (parSet j st pb 0) (parPair pb 0) (rows.filter isLive)
  let part := own.filterMap (occOf b pb (bagCount s0 j st))
  let con := contribution pb (tabDim b) gs cs
  let occs := part.filter (fun o => (con o.bag).isSome)
  let (s1, vals, unread) := if gradScale b = 1074 then readSlots s0 u (dedupNat (occs.flatMap (·.rows))) else (s0, [], false)
  let sums := ownGrads b con (fun r => sparseGet [] r vals) occs
  let place (r : Nat) : Nat := (rowPlace s1 u.table u.version u.issue r).1
  let mine := sums.filter (fun e => place e.1 == j.pos)
  let came := grads ++ forwardedGrads u
  let all := ((came.filter (fun g => place g.row == j.pos)).map ofGrad).foldl (fun ps p => poolMod (tabDim b) p.key (fun q => q.join p) ps) mine
  let free := s1.free
  let (s2, late) := forwardGrads s1 u (came.filter (fun g => place g.row != j.pos))
  let s := if gradScale b = 1074 then { s2 with free := free + 48 * tabDim b * sums.length * j.members.length } else s2
  let a0 : UpdAcc := { st := s, load := [], rows := [], writes := [], sat := 0, nan := 0, ovf := 0, capped := false, bad := false }
  let a := (all.map (·.2)).foldl (updOne j st pb u) a0
  let away (d : Nat) : List Byte := ((sums.filter (fun e => isComposed b || place e.1 == d)).map (·.2)).zipIdx.flatMap (fun p =>
    gradBytes b (free + 48 * tabDim b * (d * sums.length + p.2)) p.1)
  let counted := (a.rows.filter (fun r => !isComposed b || r % Nat.max j.members.length 1 == j.pos)).length
  let tooLong := decide (65536 < largestTotal (part.map (·.bag)) bags)
  let r : ActResult := { ActResult.ok with
    elems := 0, saturated := a.sat, nans := a.nan, flows := tabFlows j (emReqTab pb) away
    words := [own.length, counted, exhaustedWord 0 (own.length - occs.length)], writes := a.writes }
  if a.bad || unread then (a.st, { r with status := 0x0400, writes := [] })
  else if tooLong then (s, { r with status := 0x0300, writes := [] })
  else if late then (s, { r with status := 0x0500, writes := [] })
  else if a.capped then (a.st, exhaust r 9)
  else accRange a.st st.scope a.ovf (decide (0 < a.ovf)) r

def embUpdateRun (grads : List GradRec) (bags : List (Nat × Nat)) (s : State) (j : Job) (st : PlanStep) (pb : List Byte) : OpRes :=
  match embUse s j st pb true with
  | .error e => (s, .fail e)
  | .ok u =>
    match readSetCols s st.scope (parSet j st pb 0) [0, emIndexCol pb, emBagCol pb] with
    | (s1, .error e) => (s1, .fail e)
    | (s1, .ok rows) =>
      match readCells s1 j st 1 with
      | (s2, .error e) => (s2, .fail e)
      | (s2, .ok gs) =>
        match (if emMean pb then readCells s2 j st 2 else (s2, .ok [])) with
        | (s3, .error e) => (s3, .fail e)
        | (s3, .ok cs) => embUpdateWork grads bags s3 j st pb u rows gs cs

/-- R234. -/
def execEmbUpdate (step : Nat) (input : GradInput) (s : State) : Host.Outcome State Fault Refusal :=
  .next ((stepWaits s step 0xF (input.records.map (·.row))).getD (runStep s step 0xF (fun _ => true) (embUpdateRun input.records input.bags)))

/-! ### Forwarded records (R240, R241) -/

/-- A TONGS step of the plan with this opcode, version and issue strike. -/
def forwardedStep (s : State) (j : Job) (t : EmbTable) (v issue op : Nat) : Option PlanStep :=
  (planSteps j.plan).find? (fun st =>
    let pb := stepParams j.plan j.pos st
    st.kind == 0 && st.opcode == op && emTable pb == t.id && (boundVersion t (emVersion pb) issue).any (fun x => x.number == v) &&
      st.offset == offsetAt j issue s.seq.hold)

/-- A gradient record that comes after its step has ended here is applied alone, unless the step has already updated the row (R235, R241).
(DEDUCED, unsafe: log entry 62.) (DEDUCED, unsafe: log entry 62.) -/
def lateGrad (s : State) (j : Job) (st : PlanStep) (t : EmbTable) (v : TableVersion) (issue : Nat) (g : GradRec) : State :=
  let pb := stepParams j.plan j.pos st
  let u : EmbUse := { table := t, version := v, issue := issue, cap := emCap pb }
  let a := updOne j st pb u { st := s, load := [], rows := [], writes := [], sat := 0, nan := 0, ovf := 0, capped := false, bad := false } (ofGrad g)
  memWriteAll a.st a.writes

/-- A record that the old owner forwarded: it joins those of its step. Where the engine had finished the step, it serves the step again with the
record, so that none is lost (R241); where the step has ended, a gradient is applied alone. (DEDUCED, unsafe: log entry 62.) -/
def hearForwardedRecord (s : State) (table version issue op : Nat) (put : TableVersion → TableVersion) (grad : Option GradRec) : State :=
  match runningJob s, embTable s table with
  | some j, some t =>
    match forwardedStep s j t version issue op, versionOf t version with
    | some st, some v =>
      match actOf j (.step st.index) with
      | some a =>
        let s1 := versionMod s table version put
        if a.result.isSome then setJob s1 j.num (fun j => { j with acts := j.acts.map (fun b => if b.ref == a.ref then { b with result := none } else b) }) else s1
      | none => if now s ≤ issue then versionMod s table version put else match grad with
        | some g => lateGrad s j st t v issue g
        | none => s
    | _, _ => s
  | _, _ => s

end Sys2Proof.Machine
end

