-- ==== Sys2Proof/Machine/Tables.lean ====
section
/-!
DEFINITION. Table and curve commands, versions and migrations (R195 to R199, R217 to R225, R238 to R240).
-/
namespace Sys2Proof.Machine

/-! ### Group commands that carry a payload (R198, R224, R350) -/

/-- A member's own check: the state after its reads, and the payload or the refusing status. -/
abbrev Checked := State × Except (BitVec 16) (List Byte)

/-- Take a table or curve command: every member must agree, then each has the effect; the other members receive the request
and its payload. -/
def tableCommand (k : Nat) (remote : List (BitVec 16)) (m : List Byte) (c : Checked) (effect : State → List Byte → State)
    (answer : State → List Byte → State) : State :=
  match c with
  | (s, .error st) => respond s k m (groupStatus s (msgTarget m) st remote) []
  | (s, .ok p) =>
    let g := groupStatus s (msgTarget m) 0 remote
    if g != 0 then respond s k m g []
    else answer (sendTo (effect s p) (otherMembers s (msgTarget m)) (if p.isEmpty then 3 else 7) (.vmp (now s) (targetEpoch s (msgTarget m)) (m ++ p))) p

/-- Read bytes a request names by reference (R349). -/
def refBytes (s : State) (a n : Nat) : Checked := readRef s a n

def checkOk (b : Bool) (c : Checked) : Checked := if b then c else (c.1, .error 0x0200)

/-! ### References and freeing (R198, R199, R221, R222) -/

/-- Plans queued or running. -/
def livePlans (s : State) : List Job := s.seq.jobs.filter (fun j => j.phase != .ended)

/-- Parameter blocks of a plan's steps of an opcode. -/
def stepsOf (j : Job) (ops : List Nat) : List (PlanStep × List Byte) :=
  ((planSteps j.plan).filter (fun st => st.kind == 0 && ops.contains st.opcode)).map (fun st => (st, stepParams j.plan j.pos st))

/-- A plan pins a version by naming it. -/
def planPins (j : Job) (table version : Nat) : Bool :=
  (stepsOf j [0xE, 0xF]).any (fun x => emTable x.2 == table && emVersion x.2 == version)

/-- An activity in progress is bound to a version. -/
def actBinds (j : Job) (t : EmbTable) (v : TableVersion) : Bool :=
  j.acts.any (fun a => match a.ref with
    | .step i =>
      let st := stepAt j.plan i
      let pb := stepParams j.plan j.pos st
      classOf st == .tongs && emTable pb == t.id && ((boundVersion t (emVersion pb) a.start).map (·.number) == some v.number)
    | .stream _ _ => false)

def versionHeld (s : State) (t : EmbTable) (v : TableVersion) : Bool :=
  (livePlans s).any (fun j => planPins j t.id v.number || actBinds j t v)

/-- Post the completion of a migration. -/
def completeMigration (s : State) (g : Migration) (status : BitVec 16) : State :=
  match g.owner with
  | some (c, k, tag) => complete s c tag k status []
  | none => s

/-- RETIRED versions that nothing refers to no longer exist; a migration of one ends. -/
def sweepVersions (s : State) : State :=
  let gone (t : EmbTable) (v : TableVersion) : Bool := v.state == .retired && !versionHeld s t v
  let migs := s.eng.tables.flatMap (fun t => (t.versions.filter (gone t)).filterMap (·.migration))
  let s1 := { s with eng := { s.eng with tables := s.eng.tables.map (fun t => { t with versions := t.versions.filter (fun v => !gone t v) }) } }
  migs.foldl (fun u g => completeMigration u g (if g.installed then 0x0000 else 0x0602)) s1

/-- A plan pins a curve. -/
def curvePinned (s : State) (id : Nat) : Bool :=
  (livePlans s).any (fun j => (stepsOf j [0xB]).any (fun x => (List.range (byteAt x.2 0x30)).any (fun i =>
    byteAt x.2 (0x41 + 32 * i) == 5 && fieldN x.2 (0x44 + 32 * i) 4 == id)))

/-- Curves pending deletion that no plan pins any more are freed. -/
def sweepCurves (s : State) : State :=
  { s with eng := { s.eng with curves := s.eng.curves.filter (fun c => !(c.deleting && !curvePinned s c.id)) } }

/-- What the end of a strike frees. (DEDUCED, unsafe: log entry 63.) -/
def sweepStores (s : State) : State := sweepCurves (sweepVersions s)

/-! ### Curves (R195 to R198) -/

def finiteVal (v : FVal) : Bool := match v with
  | .fin _ _ _ => true
  | _ => false

/-- An image is valid (R195, R197). -/
def curveValid (b : List Byte) : Bool :=
  let n := cvSegments b
  let knots := List.range (n + 1)
  fieldN b 0 4 == 0x56434849 && fieldN b 4 2 == 0x0100 && decide (cvKind b ≤ 2) && decide (cvOutside b ≤ 2) && decide (1 ≤ n ∧ n ≤ 1024) &&
    b.length == 64 + 24 * (n + 1) &&
    knots.all (fun i => (finiteVal (cvX b i) || (i == 0 && cvKind b == 0 && cvX b 0 == .inf true)) && finiteVal (cvY b i) && finiteVal (cvM b i) &&
      (cvKind b == 2 || fieldN b (0x50 + 24 * i) 8 == 0)) &&
    (List.range n).all (fun i => ltVal (cvX b i) (cvX b (i + 1)) &&
      (cvExact b i).all (fun c => !(encodeF binary64 rne c).overflow))

/-- A member's check of an image it is to hold under an ID: its status. -/
def curveTake (s : State) (id : Nat) (img : List Byte) : BitVec 16 :=
  if img.length ≠ 64 + 24 * (cvSegments img + 1) then 0x0102
  else if !curveValid img then 0x0200
  else match s.eng.curves.find? (fun c => c.id == id) with
    | some c => if c.deleting || sha384 c.image != sha384 img then 0x0200 else 0
    | none => if 256 ≤ s.eng.curves.length then 0x0200 else 0

/-- The member's check of VMP_CURVE_LOAD. (DEDUCED, unsafe: log entry 24.) -/
def curveCheck (s : State) (body : List Byte) : Checked :=
  let id := fieldN body 0 4
  let held := s.eng.curves.find? (fun c => c.id == id)
  if id = 0 ∨ 1 < byteAt body 4 then (s, .error 0x0200)
  else if byteAt body 4 = 1 then
    match held with
    | some c => if c.deleting then (s, .error 0x0200) else (s, .ok [])
    | none => (s, .error 0x0200)
  else
    let a := fieldN body 8 8
    let n := fieldN body 0x10 4
    if 24664 < n ∨ n < 64 then (s, .error 0x0102)
    else if a % 64 ≠ 0 then (s, .error 0x0102)
    else
      match refBytes s a n with
      | (s1, .error st) => (s1, .error st)
      | (s1, .ok img) => let st := curveTake s1 id img; (s1, if st != 0 then .error st else .ok img)

/-- Its effect: the image is held, or the curve is deleted, or its deletion is pending. -/
def curveEffect (s : State) (body img : List Byte) : State :=
  let id := fieldN body 0 4
  if byteAt body 4 = 1 then
    sweepCurves { s with eng := { s.eng with curves := s.eng.curves.map (fun c => if c.id == id then { c with deleting := true } else c) } }
  else if s.eng.curves.any (fun c => c.id == id) then s
  else { s with eng := { s.eng with curves := s.eng.curves ++ [{ id := id, image := img, deleting := false }] } }

def curveAnswer (k : Nat) (m : List Byte) (s : State) (img : List Byte) : State :=
  let b := if byteAt (msgBody m) 4 = 1 then [] else digest8 img ++ leBytes 2 (cvSegments img) ++ leBytes 1 (cvKind img)
  respond s k m 0x0000 b

/-- R198. -/
def execVmpCurveLoad (pair : Nat) (remote : List (BitVec 16)) (s : State) : Host.Outcome State Fault Refusal :=
  .next (takeRequest s pair 0x38 (fun s m =>
    tableCommand pair remote m (curveCheck s (msgBody m)) (fun s p => curveEffect s (msgBody m) p) (curveAnswer pair m)))

/-! ### Tables (R217) -/

/-- The fields of a definition follow R217. -/
def definitionOk (b : List Byte) : Bool :=
  let composed := tabKind b == 2
  fieldN b 0 4 != 0 && decide (tabKind b ≤ 2) && [0x10, 0x11, 0x12, 0x14, 0x15, 0x01].contains (tabRowType b) && decide (1 ≤ tabDim b ∧ tabDim b ≤ 4096) &&
    decide (1 ≤ tabRows b ∧ tabRows b ≤ (if composed then 2 ^ 24 else 2 ^ 40)) &&
    (if composed then decide (1 ≤ tabRowsB b ∧ tabRowsB b ≤ 2 ^ 24) else tabRowsB b == 0) &&
    (if tabKind b = 0 then tabFamily b == 0 else tabFamily b == 0 || tabFamily b == 2) &&
    (if composed then decide (tabCombine b ≤ 1) else tabCombine b == 0) && decide (tabOptim b ≤ 3) && (tabRmode b == 0 || tabRmode b == 4) &&
    (composed || zeroRange b 0x30 16)

def createCheck (s : State) (body : List Byte) : Checked := checkOk (definitionOk body && (embTable s (fieldN body 0 4)).isNone) (s, .ok [])

def createEffect (target : Uid) (s : State) (body : List Byte) : State :=
  let t : EmbTable := { id := fieldN body 0 4, group := target, body := slice body 0 0x40, versions := [], lastVersion := 0 }
  { s with eng := { s.eng with tables := s.eng.tables ++ [t] } }

/-- R217. -/
def execVmpTableCreate (pair : Nat) (remote : List (BitVec 16)) (s : State) : Host.Outcome State Fault Refusal :=
  .next (takeRequest s pair 0x30 (fun s m =>
    tableCommand pair remote m (createCheck s (msgBody m)) (fun s _ => createEffect (msgTarget m) s (msgBody m)) (fun s _ => respond s pair m 0x0000 [])))

/-- The table a command names, when it stands on the command's target. -/
def namedTable (s : State) (target : Uid) (body : List Byte) : Option EmbTable :=
  (embTable s (fieldN body 0 4)).bind (fun t => if t.group == target then some t else none)

def tableMod (s : State) (id : Nat) (f : EmbTable → EmbTable) : State :=
  { s with eng := { s.eng with tables := s.eng.tables.map (fun t => if t.id == id then f t else t) } }

/-! ### Loading (R220, R223, R224) -/

/-- Ranges that versions and the row cache hold. -/
def heldRanges (s : State) : List (Nat × Nat) :=
  (param s 9, cacheGib s * 2 ^ 30) :: s.eng.tables.flatMap (fun t => t.versions.flatMap (fun v => versionRanges s t v ++ movedRanges s t v))

def rangesFree (s : State) (rs : List (Nat × Nat)) : Bool := rs.all (fun r => (heldRanges s).all (fun h => overlapBytes r h == 0))

/-- The new version of a LOAD body. -/
def loadVersion (body : List Byte) : TableVersion :=
  { number := fieldN body 4 4, state := .loading, nearBase := BitVec.ofNat 64 (fieldN body 0x10 8), farBase := BitVec.ofNat 64 (fieldN body 0x18 8),
    nearSlots := fieldN body 0x20 8, damaged := false, gen := 0, activation := none, activeFrom := none, retiredAt := none, redirects := [],
    migration := none, loadReq := none, forwarded := [], forwardedGrads := [] }

/-- Ranges lie in their tiers. -/
def rangesFit (s : State) (rs : List (Nat × Nat)) : Bool :=
  rs.all (fun r => if r.1 < 2 ^ 40 then decide (r.1 + r.2 ≤ 2 ^ 40) else decide (farBase ≤ r.1 ∧ r.1 + r.2 ≤ farBase + s.form.farGib * 2 ^ 30))

/-- The near range stands in the near tier and the far range in the far tier. -/
def basesFit (s : State) (t : EmbTable) (v : TableVersion) : Bool :=
  let n := slotsAt t.body (groupPos s t.group) (groupMembers s t.group).length
  (Nat.min n v.nearSlots == 0 || decide (v.nearBase.toNat < 2 ^ 40)) && (decide (n ≤ v.nearSlots) || decide (farBase ≤ v.farBase.toNat))

def liveVersions (s : State) : Nat := sumNat (s.eng.tables.map (fun t => t.versions.length))

/-- Rows that a member holds at home, by slot. -/
def homeRows (s : State) (t : EmbTable) : List Nat :=
  let n := Nat.max (groupMembers s t.group).length 1
  let p := groupPos s t.group
  (List.range (slotsAt t.body p n)).map (fun k => if isComposed t.body then k else k * n + p)

/-- Rows of a version whose copy lies here. -/
def rowsHere (s : State) (t : EmbTable) (v : TableVersion) : List Nat :=
  let me := groupPos s t.group
  (homeRows s t).filter (fun r => (rowPlace s t v (now s) r).1 == me) ++ ((v.redirects.filter (fun r => r.member == me)).map (·.row))

/-- Row images of the version a CLONE copies from, as (row, image) records; UE_DATA when a read fails. -/
def cloneRows (s : State) (t : EmbTable) (v : TableVersion) (moved : List (Nat × List Byte)) : Checked :=
  let (s1, bs, bad) := (rowsHere s t v).foldl (fun (acc : State × List Byte × Bool) r =>
    let x := memRead acc.1 (rowPlace acc.1 t v (now s) r).2 (rowStride t.body)
    (x.st, acc.2.1 ++ leBytes 8 r ++ x.bytes, acc.2.2 || x.bad.isSome)) (s, [], false)
  (s1, if bad then .error 0x0400 else .ok (bs ++ moved.flatMap (fun p => leBytes 8 p.1 ++ slice p.2 0 (rowStride t.body))))

/-- Rows of an image as (row, image) records. -/
def imageRows (b img : List Byte) : List Byte :=
  (List.range (img.length / Nat.max (rowStride b) 1)).flatMap (fun r => leBytes 8 r ++ slice img (r * rowStride b) (rowStride b))

/-- Every slot of a version is near, on every member of the table's group. -/
def allNear (s : State) (t : EmbTable) (v : TableVersion) : Bool := decide (slotsAt t.body 0 (groupMembers s t.group).length ≤ v.nearSlots)

/-- A member's check of the fields of VMP_TABLE_LOAD: the table, or the refusing status. -/
def loadFields (s : State) (target : Uid) (body : List Byte) : Except (BitVec 16) EmbTable :=
  match namedTable s target body with
  | none => .error 0x0200
  | some t =>
    let v := loadVersion body
    let src := byteAt body 8
    let rs := versionRanges s t v
    let total := if isComposed t.body then tabRows t.body + tabRowsB t.body else tabRows t.body
    if !(decide (t.lastVersion < v.number) && decide (src ≤ 2) && (src == 2 || fieldN body 0xC 4 == 0) && v.nearBase.toNat % 64 == 0 &&
        (allNear s t v || v.farBase.toNat % 64 == 0) && basesFit s t v && rangesFit s rs && rangesFree s rs && decide (liveVersions s < 1024)) then .error 0x0200
    else match src with
      | 1 => if fieldN body 0x30 8 ≠ total * rowStride t.body then .error 0x0102 else .ok t
      | 2 => match versionOf t (fieldN body 0xC 4) with
        | none => .error 0x0200
        | some c => if c.damaged then .error 0x0200 else .ok t
      | _ => .ok t

/-- The rows of the version a LOAD names, as records. -/
def loadRows (s : State) (t : EmbTable) (body : List Byte) (moved : List (Nat × List Byte)) : Checked :=
  match byteAt body 8 with
  | 1 => match refBytes s (fieldN body 0x28 8) (fieldN body 0x30 8) with
    | (s1, .error st) => (s1, .error st)
    | (s1, .ok img) => (s1, .ok (imageRows t.body img))
  | 2 => match versionOf t (fieldN body 0xC 4) with
    | none => (s, .error 0x0200)
    | some c => cloneRows s t c moved
  | _ => (s, .ok [])

/-- The member's check of VMP_TABLE_LOAD; the payload is the rows as records. -/
def loadCheck (s : State) (target : Uid) (body : List Byte) (moved : List (Nat × List Byte)) : Checked :=
  match loadFields s target body with
  | .error st => (s, .error st)
  | .ok t => loadRows s t body moved

/-- Write the rows of a payload that have their home here into a version's slots. -/
def writeRows (s : State) (t : EmbTable) (v : TableVersion) (p : List Byte) : State :=
  let rs := rowStride t.body
  (List.range (p.length / (rs + 8))).foldl (fun u i =>
    let r := fieldN p (i * (rs + 8)) 8
    let (pos, a) := rowPlace u t v (now u) r
    if pos = groupPos u t.group then memWrite u a (slice p (i * (rs + 8) + 8) rs) else u) s

/-- Its effect: slots cleared, so that metas and momentum are zero, rows written, the version LOADING until the next strike.
(DEDUCED, unsafe: log entry 63.) (DEDUCED, unsafe: log entry 63.) -/
def loadEffect (req : Option (Nat × List Byte)) (s : State) (body p : List Byte) : State :=
  match embTable s (fieldN body 0 4) with
  | none => s
  | some t =>
    let v := { loadVersion body with loadReq := req }
    let s1 := (versionRanges s t v).foldl (fun u r => clearRange u r.1 r.2) s
    tableMod (writeRows s1 t v p) t.id (fun t => { t with versions := t.versions ++ [v], lastVersion := v.number })

/-- R223. -/
def execVmpTableLoad (pair : Nat) (remote : List (BitVec 16)) (moved : List (Nat × List Byte)) (s : State) : Host.Outcome State Fault Refusal :=
  .next (takeRequest s pair 0x31 (fun s m =>
    tableCommand pair remote m (loadCheck s (msgTarget m) (msgBody m) moved) (fun s p => loadEffect (some (pair, m)) s (msgBody m) p) (fun s _ => holdRequest s pair m)))

/-- A LOADING version becomes LOADED, and its request is answered with OK (R221, R224). -/
def finishLoad (s : State) (id n : Nat) (req : Option (Nat × List Byte)) : State :=
  let s1 := versionMod s id n (fun v => { v with state := .loaded, loadReq := none })
  match req with
  | some (k, m) => respondHeld s1 k m 0x0000 []
  | none => s1

/-- The versions whose contents have arrived by this strike. -/
def finishLoads (s : State) : State :=
  (s.eng.tables.flatMap (fun t => (t.versions.filter (fun v => v.state == .loading)).map (fun v => (t.id, v)))).foldl
    (fun u x => finishLoad u x.1 x.2.number x.2.loadReq) s

/-! ### Activation and retirement (R221) -/

/-- The table and version a body names. -/
def namedVersion (s : State) (target : Uid) (body : List Byte) : Option (EmbTable × TableVersion) :=
  (namedTable s target body).bind (fun t => (versionOf t (fieldN body 4 4)).map (fun v => (t, v)))

/-- A version may take an activation. -/
def activatable (v : TableVersion) : Bool := !v.damaged && v.state == .loaded && v.activation.isNone

/-- (DEDUCED, unsafe: log entry 24.) -/
def activateCheck (s : State) (target : Uid) (body : List Byte) : Checked :=
  match namedVersion s target body with
  | none => (s, .error 0x0200)
  | some (_, v) =>
    if v.state == .retired then (s, .error 0x0602)
    else checkOk (activatable v && decide (commitLead s target ≤ fieldN body 8 8)) (s, .ok [])

def activateEffect (owner : Option (BitVec 12 × Nat × BitVec 16)) (s : State) (body : List Byte) : State :=
  versionMod s (fieldN body 0 4) (fieldN body 4 4) (fun v => { v with activation := some { strike := fieldN body 8 8, owner := owner } })

/-- R221. -/
def execVmpTableActivate (pair : Nat) (remote : List (BitVec 16)) (s : State) : Host.Outcome State Fault Refusal :=
  .next (takeRequest s pair 0x32 (fun s m =>
    tableCommand pair remote m (activateCheck s (msgTarget m) (msgBody m)) (fun s _ => activateEffect (some (msgClient m, pair, msgTag m)) s (msgBody m))
      (fun s _ => respondAccepted s pair m [])))

/-- One version is activated at its strike: the previous ACTIVE one becomes RETIRED. -/
def activateVersion (s : State) (id : Nat) (v : TableVersion) (a : TableActivation) : State :=
  let ok := v.state == .loaded
  let s1 := tableMod s id (fun t => { t with versions := t.versions.map (fun x =>
    if x.number = v.number then { x with activation := none, state := if ok then .active else x.state, activeFrom := if ok then some a.strike else x.activeFrom }
    else if ok ∧ x.state = .active then { x with state := .retired, retiredAt := some a.strike } else x) })
  match a.owner with
  | some (c, k, tag) => complete s1 c tag k (if ok then 0x0000 else 0x0602) []
  | none => s1

/-- The table versions named for this strike become ACTIVE (R221). -/
def activateVersions (s : State) : State :=
  let due := s.eng.tables.flatMap (fun t => t.versions.filterMap (fun v => match v.activation with
    | some a => if a.strike ≤ now s then some (t.id, v, a) else none
    | none => none))
  sweepVersions (due.foldl (fun u x => activateVersion u x.1 x.2.1 x.2.2) s)

/-- R221: order 3 of the strike. -/
def execTableVersionActivation (s : State) : Host.Outcome State Fault Refusal := .next (activateVersions s)

def retireCheck (s : State) (target : Uid) (body : List Byte) : Checked :=
  if fieldN body 4 4 = 0 then
    match namedTable s target body with
    | some t => checkOk t.versions.isEmpty (s, .ok [])
    | none => (s, .error 0x0200)
  else match namedVersion s target body with
    | some (_, v) => checkOk (v.state == .loaded || v.state == .active) (s, .ok [])
    | none => (s, .error 0x0200)

/-- A migration that has not reached its strike is abandoned. -/
def dropMigration (s : State) (id n : Nat) : State :=
  match (embTable s id).bind (fun t => (versionOf t n).bind (·.migration)) with
  | some g => if g.installed then s else completeMigration (versionMod s id n (fun v => { v with migration := none })) g 0x0602
  | none => s

/-- RETIRED at once: strikes from the next on find it so. -/
def retireEffect (s : State) (body : List Byte) : State :=
  let id := fieldN body 0 4
  let n := fieldN body 4 4
  if n = 0 then { s with eng := { s.eng with tables := s.eng.tables.filter (fun t => t.id != id) } }
  else sweepVersions (dropMigration (versionMod s id n (fun v => { v with state := .retired, retiredAt := some (now s + 1) })) id n)

/-- R221. -/
def execVmpTableRetire (pair : Nat) (remote : List (BitVec 16)) (s : State) : Host.Outcome State Fault Refusal :=
  .next (takeRequest s pair 0x33 (fun s m =>
    tableCommand pair remote m (retireCheck s (msgTarget m) (msgBody m)) (fun s _ => retireEffect s (msgBody m)) (fun s _ => respond s pair m 0x0000 [])))

/-! ### Migration (R238 to R240) -/

/-- Row numbers of a payload. -/
def rowList (p : List Byte) : List Nat := (List.range (p.length / 8)).map (fun i => fieldN p (8 * i) 8)

def strictlyRising (l : List Nat) : Bool := (l.zip (l.drop 1)).all (fun p => decide (p.1 < p.2))

/-- The redirects of a version after a cut-over: a row that moves home loses its entry (R239). -/
def cutRedirects (s : State) (t : EmbTable) (v : TableVersion) (g : Migration) : List Redirect :=
  let n := Nat.max (groupMembers s t.group).length 1
  let new := ((List.range g.rows.length).filter (fun i => g.rows.getD i 0 % n != g.dst)).map (fun i =>
    ({ row := g.rows.getD i 0, member := g.dst, addr := BitVec.ofNat 64 (newSlot s t v g i) } : Redirect))
  v.redirects.filter (fun r => !g.rows.contains r.row) ++ new

/-- Redirect entries of a version once its migration, if it has one, has cut over. -/
def redirectsOf (s : State) (t : EmbTable) (v : TableVersion) : Nat :=
  match v.migration with
  | some g => if g.installed then v.redirects.length else (cutRedirects s t v g).length
  | none => v.redirects.length

/-- Entries of the redirect table once the rows of a version have moved to `dst` too (R239). -/
def redirectsWith (s : State) (t : EmbTable) (v : TableVersion) (dst : Nat) (rows : List Nat) : Nat :=
  let n := Nat.max (groupMembers s t.group).length 1
  sumNat (s.eng.tables.flatMap (fun x => x.versions.map (fun y =>
    if x.id = t.id ∧ y.number = v.number then (v.redirects.filter (fun r => !rows.contains r.row)).length + (rows.filter (fun r => r % n != dst)).length
    else redirectsOf s x y)))

/-- The rows may move to `dst`: one owner now, other than the new one, and space for slots and redirects. -/
def rowsMovable (s : State) (t : EmbTable) (v : TableVersion) (dst addr : Nat) (rows : List Nat) : Bool :=
  let owner (r : Nat) : Nat := (rowPlace s t v (now s) r).1
  let range := [(addr, rows.length * slotBytes t.body)]
  strictlyRising rows && rows.all (fun r => decide (r < tabRows t.body) && owner r == owner (rows.headD 0)) && owner (rows.headD 0) != dst &&
    decide (redirectsWith s t v dst rows ≤ 65536) && rangesFit s range && (groupPos s t.group != dst || rangesFree s range)

/-- A version may begin the migration that a body names. -/
def migratable (s : State) (t : EmbTable) (v : TableVersion) (body : List Byte) : Bool :=
  (v.state == .loaded || v.state == .active) && !v.damaged && !isComposed t.body && v.migration.isNone && decide (1 ≤ fieldN body 0xC 4 ∧ fieldN body 0xC 4 ≤ 4096) &&
    decide (fieldN body 8 2 < (groupMembers s t.group).length)

/-- (DEDUCED, unsafe: log entry 62.) -/
def migrateCheck (s : State) (target : Uid) (body : List Byte) : Checked :=
  match namedVersion s target body with
  | none => (s, .error 0x0200)
  | some (t, v) =>
    let n := fieldN body 0xC 4
    let strike := fieldN body 0x20 8
    if v.state == .retired then (s, .error 0x0602)
    else if !migratable s t v body || !isBoundary strike || decide (strike < now s + 8192) then (s, .error 0x0200)
    else match refBytes s (fieldN body 0x10 8) (8 * n) with
      | (s1, .error st) => (s1, .error st)
      | (s1, .ok p) => checkOk (rowsMovable s1 t v (fieldN body 8 2) (fieldN body 0x18 8) (rowList p)) (s1, .ok p)

/-- The old owner sends the image of row i with its SEQ, unless it cannot be read. -/
def sendImage (s : State) (t : EmbTable) (v : TableVersion) (g : Migration) (i : Nat) : State :=
  let r := memRead s (g.old.getD i 0) (slotBytes t.body)
  if r.bad.isSome then r.st else sendTo r.st [memberAt r.st t g.dst] 5 (.slotImage t.id v.number (g.rows.getD i 0) r.bytes)

/-- Begin a migration: the old owner sends every slot image (R240 phase 1). -/
def beginMigration (s : State) (t : EmbTable) (v : TableVersion) (dst addr strike : Nat) (rows : List Nat)
    (owner : Option (BitVec 12 × Nat × BitVec 16)) : State :=
  let place (r : Nat) : Nat × Nat := rowPlace s t v (now s) r
  let g : Migration := { rows := rows, old := rows.map (fun r => (place r).2), src := (place (rows.headD 0)).1, dst := dst, addr := addr, cutover := strike,
                         installed := false, endSent := false, endReceived := false, held := [], waits := [], owner := owner }
  let s1 := versionMod s t.id v.number (fun v => { v with migration := some g })
  if g.src = groupPos s t.group then (List.range rows.length).foldl (fun u i => sendImage u t v g i) s1 else s1

def migrateEffect (owner : Option (BitVec 12 × Nat × BitVec 16)) (s : State) (body p : List Byte) : State :=
  match (embTable s (fieldN body 0 4)).bind (fun t => (versionOf t (fieldN body 4 4)).map (fun v => (t, v))) with
  | none => s
  | some (t, v) => beginMigration s t v (fieldN body 8 2) (fieldN body 0x18 8) (fieldN body 0x20 8) (rowList p) owner

/-- R240. -/
def execVmpTableMigrate (pair : Nat) (remote : List (BitVec 16)) (s : State) : Host.Outcome State Fault Refusal :=
  .next (takeRequest s pair 0x34 (fun s m =>
    tableCommand pair remote m (migrateCheck s (msgTarget m) (msgBody m))
      (fun s p => migrateEffect (some (msgClient m, pair, msgTag m)) s (msgBody m) p) (fun s _ => respondAccepted s pair m [])))

/-- The migration of a version, with its table. -/
def migrationOf (s : State) (table version : Nat) : Option (EmbTable × TableVersion × Migration) :=
  (embTable s table).bind (fun t => (versionOf t version).bind (fun v => v.migration.map (fun g => (t, v, g))))

def setMigration (s : State) (table version : Nat) (f : Migration → Migration) : State :=
  versionMod s table version (fun v => { v with migration := v.migration.map f })

/-- R240: the new owner applies an image or log entry only when its SEQ exceeds that of its copy. -/
def imageReceive (table version row : Nat) (image : List Byte) (s : State) : State :=
  match migrationOf s table version with
  | none => s
  | some (t, v, g) =>
    match g.rows.findIdx? (· == row) with
    | none => s
    | some i =>
      if g.dst ≠ groupPos s t.group then s
      else
        let a := newSlot s t v g i
        let rs := rowStride t.body
        let meta' := memRead s (a + rs) 8
        if g.held.contains row && decide (fieldN image rs 8 ≤ leNat meta'.bytes) then meta'.st
        else setMigration (memWrite s a (slice image 0 (slotBytes t.body))) table version (fun g => { g with held := if g.held.contains row then g.held else g.held ++ [row] })

/-- R240. -/
def execMigrationImageReceive (table version row : Nat) (image : List Byte) (s : State) : Host.Outcome State Fault Refusal :=
  .next (imageReceive table version row image s)

/-- A migration's cut-over, once its strike has come: the redirect entries are installed (R240). -/
def cutOver (s : State) (table version : Nat) : State :=
  match migrationOf s table version with
    | none => s
    | some (t, v, g) =>
      if g.installed || decide (now s < g.cutover) then s
      else if v.state == .retired then dropMigration s table version
      else versionMod s table version (fun v => { v with redirects := cutRedirects s t v g, migration := some { g with installed := true } })

/-- R240 phase 2: at order 3 of S every member installs the redirect entries. -/
def execMigrationCutOver (table version : Nat) (s : State) : Host.Outcome State Fault Refusal := .next (cutOver s table version)

/-- Order 3 of a strike: table versions and embedding cut-overs named for it (R49). -/
def activateDue (s : State) : State :=
  let t := activateVersions (finishLoads s)
  (t.eng.tables.flatMap (fun x => (x.versions.filter (fun v => v.migration.isSome)).map (fun v => (x.id, v.number)))).foldl
    (fun u p => cutOver u p.1 p.2) t

/-- An activity issued before S that updates the version is still running here. -/
def updatesBefore (s : State) (table version cutover : Nat) : Bool :=
  match runningJob s with
  | none => false
  | some j => j.acts.any (fun a => match a.ref with
    | .step i =>
      let st := stepAt j.plan i
      let pb := stepParams j.plan j.pos st
      st.kind == 0 && st.opcode == 0xF && emTable pb == table && emVersion pb == version && decide (a.start < cutover)
    | .stream _ _ => false)

/-- R240 phase 3: the old owner sends END once S has passed and the updates issued before it have ended. -/
def execMigrationEndSend (table version : Nat) (s : State) : Host.Outcome State Fault Refusal :=
  .next (match migrationOf s table version with
    | none => s
    | some (t, _, g) =>
      if g.installed && !g.endSent && g.src == groupPos s t.group && !updatesBefore s table version g.cutover then
        sendTo (setMigration s table version (fun g => { g with endSent := true })) [memberAt s t g.dst] 5 (.migrationEnd table version)
      else s)

/-- R240: END has arrived at the new owner, which serves from now on; the strikes that records waited count at their engines (R245). -/
def endReceive (table version : Nat) (s : State) : State :=
  match migrationOf s table version with
  | none => s
  | some (t, _, g) =>
    if g.dst == groupPos s t.group && !g.endReceived then
      g.waits.foldl (fun u x => count u (columnKey x.1) 21 (now s - x.2)) (setMigration s table version (fun g => { g with endReceived := true, waits := [] }))
    else s

/-- R240. -/
def execMigrationEndReceive (table version : Nat) (s : State) : Host.Outcome State Fault Refusal := .next (endReceive table version s)

/-- R240: the forwarding window is over; the old owner, once END is sent, frees its slots and counts the migration, and the new owner keeps
the migration until END has come (R241). -/
def execMigrationForwardWindowEnd (table version : Nat) (s : State) : Host.Outcome State Fault Refusal :=
  .next (match migrationOf s table version with
    | none => s
    | some (t, _, g) =>
      let old := g.src == groupPos s t.group
      if g.installed && decide (g.cutover + 8192 ≤ now s) && (!old || g.endSent) && (g.dst != groupPos s t.group || g.endReceived) then
        let s1 := versionMod s table version (fun v => { v with migration := none })
        completeMigration (if old then count s1 devKey 27 1 else s1) g 0x0000
      else s)

/-! ### Automatic migration (R238) -/

/-- Member i served more than RATIO / 16 times the group's mean in every one of the heats. -/
def hotMember (ratio : Nat) (served : List (List Nat)) (i : Nat) : Bool :=
  decide (8 ≤ (served.getD i []).length) && (List.range 8).all (fun h =>
    let total := sumNat (served.map (fun l => l.getD h 0))
    decide (ratio * total < 16 * served.length * (served.getD i []).getD h 0))

/-- Group position with the fewest served records over the heats. -/
def coolestMember (served : List (List Nat)) : Nat :=
  let totals := served.map (fun l => sumNat (l.take 8))
  (totals.findIdx? (fun x => some x == minNat? totals)).getD 0

/-- The request that the other members take for an automatic migration. -/
def autoMessage (t : EmbTable) (version dst n addr strike : Nat) : List Byte :=
  let body := leBytes 4 t.id ++ leBytes 4 version ++ leBytes 2 dst ++ leBytes 2 0 ++ leBytes 4 n ++ leBytes 8 0 ++ leBytes 8 addr ++ leBytes 8 strike
  [0x10, 0x34, 0, 0x28] ++ leBytes 4 0 ++ leBytes 4 t.group.toNat ++ leBytes 4 0 ++ slice body 0 112

/-- The up to 64 hottest rows of this device's engines in the last heat, as (table, row): most accesses first, then the lower table and row.
(DEDUCED, unsafe: log entry 62.) (DEDUCED, unsafe: log entry 62.) -/
def hottestRows (s : State) : List (Nat × Nat) :=
  let all := (List.range 16).flatMap (fun e => (tongsGet s e).lastAccess)
  let before (a b : Nat × Nat × Nat) : Bool := decide (b.2.2 < a.2.2 ∨ b.2.2 = a.2.2 ∧ (a.1 < b.1 ∨ a.1 = b.1 ∧ a.2.1 < b.2.1))
  ((sortBy before all).take 64).map (fun x => (x.1, x.2.1))

/-- Those of one version that this member owns, in rising order. -/
def autoRows (s : State) (t : EmbTable) (v : TableVersion) : List Nat :=
  let mine := ((hottestRows s).filter (fun x => x.1 == t.id && (rowPlace s t v (now s) x.2).1 == groupPos s t.group)).map (·.2)
  sortBy (fun a b => decide (a < b)) (dedupNat mine)

/-- Served records of the group's members over the last 8 heats: this member's own stand between those of the lower and the higher positions. -/
def servedBy (s : State) (lower higher : List (List Nat)) : List (List Nat) := lower ++ s.eng.tongsHeats :: higher

/-- R238: under policy AUTO the Warden moves its hottest rows to the member with the fewest served records; the cut-over is the first
heat boundary at least four heats ahead. -/
def execAutoMigration (table version : Nat) (lower higher : List (List Nat)) (dstAddr : Word) (s : State) : Host.Outcome State Fault Refusal :=
  .next (match (embTable s table).bind (fun t => (versionOf t version).map (fun v => (t, v))) with
    | none => s
    | some (t, v) =>
      let me := groupPos s t.group
      let served := servedBy s lower higher
      let rows := autoRows s t v
      let dst := coolestMember served
      let strike := nextBoundary (now s + 4 * 4096)
      if param s 0xA = 1 && !isComposed t.body && !v.damaged && v.state != .retired && v.migration.isNone && !rows.isEmpty && lower.length = me && hotMember (param s 0xB) served me &&
          rowsMovable s t v dst dstAddr.toNat rows then
        let s1 := beginMigration s t v dst dstAddr.toNat strike rows none
        sendTo s1 (otherMembers s t.group) 7 (.vmp (now s) (targetEpoch s t.group) (autoMessage t version dst rows.length dstAddr.toNat strike ++ rows.flatMap (leBytes 8)))
      else s)

/-! ### A group command taken by another member (R350) -/

/-- A check found no cause to refuse. -/
def accepts (c : Checked) : Bool := match c.2 with
  | .ok _ => true
  | .error _ => false

/-- A member's own rows of a clone, beside those that came with the command. -/
def hearLoad (s : State) (t : EmbTable) (body p : List Byte) : State :=
  if byteAt body 8 ≠ 2 then loadEffect none s body p
  else match loadRows s t body [] with
    | (s1, .error _) => s1
    | (s1, .ok own) => loadEffect none s1 body (p ++ own)

/-- A forwarded table or curve command, when this member's own check passes (R198, R224): its effect here. -/
def hearVmp (s : State) (m : List Byte) : State :=
  let body := msgBody m
  let target := msgTarget m
  let p := m.drop 128
  let ver := namedVersion s target body
  match msgOpcode m with
  | 0x30 => if accepts (createCheck s body) then createEffect target s body else s
  | 0x31 => match loadFields s target body with
    | .ok t => hearLoad s t body p
    | .error _ => s
  | 0x32 => if ver.any (fun x => activatable x.2) then activateEffect none s body else s
  | 0x33 => if accepts (retireCheck s target body) then retireEffect s body else s
  | 0x34 => if ver.any (fun x => migratable s x.1 x.2 body && rowsMovable s x.1 x.2 (fieldN body 8 2) (fieldN body 0x18 8) (rowList p)) then
      migrateEffect none s body p else s
  | 0x38 =>
    let ok := if byteAt body 4 = 1 then accepts (curveCheck s body) else curveTake s (fieldN body 0 4) p == 0
    if ok then curveEffect s body p else s
  | _ => s

end Sys2Proof.Machine
end

