-- ==== Sys2Proof/Machine/Bellows.lean ====
section
/-!
DEFINITION. The Bellows engines (R246 to R267): address-generating programs, block lists, descriptor and completion rings, and the five
stream kinds.
-/
namespace Sys2Proof.Machine

/-! ### Transfers (R251 to R253) -/

/-- A transfer of a repeat: memory address, length, SKIP, NO_MERGE, and the bound of its memory side. -/
structure Xfer where
  addr : Int
  len : Nat
  skip : Bool
  noMerge : Bool
  lo : Int
  hi : Int

/-- A program instruction. -/
inductive WalkIns where
  | xfer (len : Nat)
  | advance (d : Int)
  | loop (count : Nat) (stride : Int) (modulus : Option Nat)
  | endLoop

/-- Instructions from entry i of a record's entries, WRAP folded into its LOOP; BASE, BOUND and END apart. -/
def walkIns : List (List Byte) → List WalkIns
  | [] => []
  | b :: rest =>
    match byteAt b 0 with
    | 3 =>
      let next := rest.headD []
      let m := if byteAt next 0 = 4 then some (fieldN next 8 8) else none
      .loop (fieldN b 4 4) (sint 64 (fieldN b 8 8)) m :: walkIns rest
    | 5 => .xfer (fieldN b 4 4) :: walkIns rest
    | 6 => .advance (sint 64 (fieldN b 8 8)) :: walkIns rest
    | 7 => .endLoop :: walkIns rest
    | _ => walkIns rest

/-- The body of an open loop and what follows its ENDLOOP. -/
def splitLoop : Nat → List WalkIns → List WalkIns × List WalkIns
  | _, [] => ([], [])
  | 0, .endLoop :: rest => ([], rest)
  | d + 1, .endLoop :: rest => let r := splitLoop d rest; (.endLoop :: r.1, r.2)
  | d, .loop c s m :: rest => let r := splitLoop (d + 1) rest; (.loop c s m :: r.1, r.2)
  | d, x :: rest => let r := splitLoop d rest; (x :: r.1, r.2)

/-- Addresses and lengths that a body moves from address a (R251); the fuel is at least the number of instructions. -/
def walk : Nat → List WalkIns → Int → List (Int × Nat)
  | 0, _, _ => []
  | _, [], _ => []
  | n + 1, .xfer len :: rest, a => (a, len) :: walk n rest a
  | n + 1, .advance d :: rest, a => walk n rest (a + d)
  | n + 1, .loop c st m :: rest, a =>
    let (body, after) := splitLoop 0 rest
    (List.range c).flatMap (fun (i : Nat) =>
      let o : Int := (i : Int) * st
      walk n body (a + (match m with
        | some k => o % (k : Int)
        | none => o))) ++ walk n after a
  | n + 1, .endLoop :: rest, a => walk n rest a

/-- Entries of a record in the STREAMS section that position m reads. -/
def streamEntries (p : List Byte) (m r : Nat) : List (List Byte) :=
  let n := strNentry (streamHdr p m r)
  match sectionOf p 5 m with
  | some s => (List.range n).map (fun i => slice p (s.off + r + 64 + 16 * i) 16)
  | none => []

/-- Transfers of a list of block-list entries. -/
def listXfers (es : List (List Byte)) (off : Int) : List Xfer :=
  es.map (fun e =>
    let a : Int := (fieldN e 0 6 : Int) + off
    let n := fieldN e 8 4
    { addr := a, len := n, skip := bit (fieldN e 12 4) 0, noMerge := bit (fieldN e 12 4) 1, lo := a, hi := a + n })

/-- Transfers of repeat j for core rank k of a PROGRAM or LIST record. -/
def streamXfers (p : List Byte) (m r j k : Nat) : List Xfer :=
  let h := streamHdr p m r
  let es := streamEntries p m r
  let off : Int := j * strRepStride h + k * strCoreStride h
  if strForm h = 0 then
    let a := (fieldN (es.headD []) 8 8 : Int) + off
    let b := es.getD 1 []
    (walk (es.length + 1) (walkIns (es.drop 2)) a).map (fun x =>
      { addr := x.1, len := x.2, skip := false, noMerge := false, lo := fieldN b 2 6, hi := fieldN b 8 8 })
  else listXfers es off

def totalLen (xs : List Xfer) : Nat := sumNat (xs.map (·.len))

/-- The part of a transfer inside its bound: bytes before it, first address, bytes inside. -/
def Xfer.inside (x : Xfer) : Nat × Nat × Nat :=
  if x.skip then (x.len, 0, 0)
  else
    let a := max x.addr x.lo
    let b := min (x.addr + x.len) x.hi
    if b ≤ a then (x.len, 0, 0) else ((a - x.addr).toNat, a.toNat, (b - a).toNat)

/-- Sequential bytes of a list of transfers read from memory, with the ordinal of the first that fails. -/
def gatherXfers (s : State) (fill : Byte) : Nat → List Xfer → State × List Byte × Option Nat
  | _, [] => (s, [], none)
  | i, x :: xs =>
    let (pre, a, n) := x.inside
    let r : ReadOut := if n = 0 then { bytes := [], bad := none, st := s } else memRead s a n
    match r.bad with
    | some _ => (r.st, [], some i)
    | none =>
      let (t, bs, bad) := gatherXfers r.st fill (i + 1) xs
      (t, List.replicate pre fill ++ r.bytes ++ List.replicate (x.len - pre - n) fill ++ bs, bad)

/-- Stores of sequential bytes through transfers, as far as the bytes go, and the bytes dropped outside bounds. -/
def scatterXfers : List Xfer → List Byte → List (Nat × List Byte) × Nat
  | [], _ => ([], 0)
  | x :: xs, bs =>
    let mine := bs.take x.len
    let (pre, a, n) := x.inside
    let part := (mine.drop pre).take n
    let (ws, d) := scatterXfers xs (bs.drop x.len)
    ((if part.isEmpty then ws else (a, part) :: ws), d + (if x.skip then 0 else mine.length - part.length))

/-- Transfers that may merge into a burst (R255, the 64-cycle condition apart): burst end, burst start, and the count so far. -/
def mergeable : Option (Int × Int) → List Xfer → Nat
  | _, [] => 0
  | o, x :: xs =>
    let fits := !x.skip && decide (x.len ≤ 256) && !x.noMerge
    match o with
    | some (start, stop) =>
      if fits && stop == x.addr && decide (x.addr + x.len - start ≤ 4096) && start / 4096 == (x.addr + x.len - 1) / 4096 then
        1 + mergeable (some (start, x.addr + x.len)) xs
      else mergeable (if fits then some (x.addr, x.addr + x.len) else none) xs
    | none => mergeable (if fits then some (x.addr, x.addr + x.len) else none) xs

/-! ### Rings (R260 to R264) -/

/-- Base and LOG2 of ring i (0 to 127 descriptor, 128 to 143 completion) of engine st: parameter 0x1C. -/
def bellowsRing (s : State) (st i : Nat) : Nat × Nat :=
  let v := paramAt s (columnKey st) 0x1C i
  (v / 64 * 64, v % 16)

def drNumber (st r : Nat) : Nat := 4608 + 128 * st + r
def crNumber (st r : Nat) : Nat := 7680 + 16 * st + r

def ringGet (s : State) (n : Nat) : StreamRing := sparseGet StreamRing.reset n s.eng.rings

def ringMod (s : State) (n : Nat) (f : StreamRing → StreamRing) : State :=
  { s with eng := { s.eng with rings := sparseSet StreamRing.reset n (f (ringGet s n)) s.eng.rings } }

/-- A completion entry (R264). -/
def complEntry (s : State) (record rep status code block bytes : Nat) : List Byte :=
  leBytes 4 record ++ leBytes 4 rep ++ leBytes 2 status ++ leBytes 1 code ++ leBytes 1 0 ++ leBytes 4 block ++ leBytes 8 (now s) ++ leBytes 8 bytes

/-- Post an entry to completion ring r of engine st, or count it as dropped. -/
def postCompl (s : State) (st r : Nat) (e : List Byte) : State :=
  let (base, log2) := bellowsRing s st (128 + r)
  let g := ringGet s (crNumber st r)
  if ringSize log2 ≤ ringCount g.head g.tail then count s (columnKey st) 26 1
  else ringMod (memWrite s (base + 32 * (g.tail.toNat % ringSize log2)) e) (crNumber st r) (fun g => { g with tail := g.tail + 1 })

/-- Entries taken by earlier repeats of a record and not yet released (R263). -/
def heldBefore (j : Job) (ring record rep : Nat) : Nat :=
  sumNat ((j.ringHeld.filter (fun r => r.ring == ring && r.record == record && decide (r.rep < rep))).map (·.count))

/-- Offset of the end of a repeat. -/
def repeatEnd (h : List Byte) (rep : Nat) : Nat := strStart h rep + strBudget h - 1

/-- First index of a RING repeat's entries. -/
def repeatIndex (s : State) (j : Job) (h : List Byte) (record rep : Nat) : Nat :=
  let n := drNumber (keyStack (strScope h)) (strRing h)
  (ringGet s n).head.toNat + heldBefore j n record rep

/-- Every entry of a RING repeat has arrived by a strike (R261, R263). -/
def ringArrived (s : State) (j : Job) (h : List Byte) (record rep strike : Nat) : Bool :=
  let n := drNumber (keyStack (strScope h)) (strRing h)
  let g := ringGet s n
  let need := repeatIndex s j h record rep + strNentry h - g.head.toNat
  g.arrivals.any (fun a => decide (a.2 ≤ strike ∧ need ≤ ringCount g.head a.1 ∧ ringCount g.head a.1 ≤ 4096))

/-- The entries of a RING repeat read from memory, or the index of the first that cannot be read. -/
def ringEntries (s : State) (j : Job) (h : List Byte) (record rep : Nat) : State × Except Nat (List (List Byte)) :=
  let st := keyStack (strScope h)
  let (base, log2) := bellowsRing s st (strRing h)
  let first := repeatIndex s j h record rep
  let (t, es, bad) := (List.range (strNentry h)).foldl (fun (acc : State × List (List Byte) × Option Nat) i =>
    let r := memRead acc.1 (base + 16 * ((first + i) % 2 ^ log2)) 16
    (r.st, acc.2.1 ++ [r.bytes], acc.2.2.or (if r.bad.isSome then some i else none))) (s, [], none)
  (t, match bad with
    | some i => .error i
    | none => .ok es)

/-- The repeat holds its entries until a checkpoint commits it (R263). -/
def holdEntries (s : State) (j : Job) (h : List Byte) (record rep : Nat) : State :=
  let r : HeldEntries := {
    record := record, rep := rep, stack := keyStack (strScope h), ring := drNumber (keyStack (strScope h)) (strRing h)
    first := BitVec.ofNat 32 (repeatIndex s j h record rep), count := strNentry h, stop := repeatEnd h rep }
  setJob s j.num (fun j => { j with ringHeld := if j.ringHeld.any (fun x => x.record == record && x.rep == rep) then j.ringHeld else j.ringHeld ++ [r] })

/-! ### Errors (R265) -/

def bellowsMod (s : State) (st : Nat) (f : Engine → Engine) : State :=
  { s with eng := { s.eng with bellows := sparseSet Engine.reset st (f (sparseGet Engine.reset st s.eng.bellows)) s.eng.bellows } }

/-- Status of an error code. -/
def streamStatus (code : Nat) : BitVec 16 :=
  match code with
  | 3 => 0x0401
  | 4 => 0x0500
  | 5 => 0x0302
  | _ => 0x0400

/-- A stream error of an engine: the record stops there; LAST_ERR, ring 0, STREAM_ERRORS, and the plan ends under R127. A CHECK is counted
against the unit that R309 names: the receiving device, or the unit that owns the source memory. `moved` is the sequential bytes that the repeat
has moved. (DESIGN CHOICE, unsafe: log entry 75.) -/
def streamFault (s : State) (j : Job) (record rep st code block moved : Nat) (charge : Nat := devKey) : State :=
  let c := columnKey st
  let s1 := bellowsMod s st (fun e => { e with errA := BitVec.ofNat 32 record, errB := BitVec.ofNat 32 (block % 2 ^ 24), errCode := BitVec.ofNat 4 code })
  let s2 := count (postCompl s1 st 0 (complEntry s record rep (streamStatus code).toNat code block moved)) c 24 1
  let s3 := if code = 3 then stickySet (count s2 charge 4 1) charge 9 else if code = 1 then s2 else clearBad s2
  if code = 1 && (s.mem.badWord.bind (mendUnit s [c])).isSome then s3 else
  streamStop (setJob s3 j.num (fun j => { j with streamFailed := j.streamFailed ++ [(record, st, code)] })) j record rep (streamStatus code) block

/-- Result of a repeat that a stream error ended: its completion entry shows the error (R264). -/
def failedRepeat (code block moved : Nat) (writes : List (Nat × List Byte)) : ActResult :=
  { ActResult.ok with status := streamStatus code, elems := moved, words := [moved, 0, code], block := block, writes := writes }

/-- A stream error that ends the whole repeat. -/
def streamError (s : State) (j : Job) (record rep st code block moved : Nat) : State :=
  setResult (streamFault s j record rep st code block moved) j (.stream record rep) (failedRepeat code block moved [])

/-- The error that has stopped a record on an engine, if any. -/
def failedOn (s : State) (num : Word) (record st : Nat) : Option Nat :=
  (s.seq.jobs.find? (fun j => j.num == num)).bind (fun j => (j.streamFailed.find? (fun x => x.1 == record && x.2.1 == st)).map (·.2.2))

/-! ### Serving a repeat -/

/-- A repeat in progress of a kind, without a result. Repeats run in run strikes, and reruns in replay strikes (R257). -/
def servedStream (s : State) (record rep kind : Nat) : Option (Job × List Byte) :=
  match runningJob s with
  | none => none
  | some j =>
    let h := streamHdr j.plan j.pos record
    match actOf j (.stream record rep) with
    | some a =>
      if a.result.isNone && !actStopped s a && strKind h == kind && s.seq.kind == (if a.replay then .replay else .run) then some (j, h) else none
    | none => none

/-- A repeat of a record that an error has stopped on its engine moves nothing (R265). (DESIGN CHOICE, unsafe: log entry 75.) -/
def unlessFailed (s : State) (j : Job) (record rep st : Nat) (run : State) : State :=
  match failedOn s j.num record st with
  | some code => recordResult s j (.stream record rep) (failedRepeat code 0 0 [])
  | none => run

/-- The set of a FILL or DRAIN repeat (R249). -/
def repeatSet (h : List Byte) (rep : Nat) : Nat := if bit (strFlags h) 1 then (strFlags h % 2 + rep) % 2 else strFlags h % 2

/-- Cores of a record with their ranks. -/
def rankedCores (s : State) (h : List Byte) : List (Nat × Nat) :=
  ((List.range 2560).zip (coresOf (strScope h))).filter (fun p => !isOffline s p.2)

/-- Count the bytes moved and the merges of an engine; how many of the transfers that may merge do so depends on cycles (R255), so that
number is a free value up to their count. -/
def noteMoved (s : State) (st bytes : Nat) (xs : List Xfer) : State :=
  let m := mergeable none xs
  let s1 := count s (columnKey st) 22 bytes
  if m = 0 then s1
  else
    let (i, s2) := drawFree s1
    count s2 (columnKey st) 23 ((Config.freeWord i).toNat % (m + 1))

/-- Bytes dropped outside a bound (R252). -/
def noteDropped (s : State) (st n : Nat) : State := if n = 0 then s else stickySet (count s (columnKey st) 25 n) (columnKey st) 15

/-- What a core's part of a FILL or DRAIN has done: the state after its reads, the ordinal of the failing transfer, stores, the transfers
done, the bytes moved and the bytes dropped. -/
structure CorePart where
  st : State
  bad : Option Nat
  writes : List (Nat × List Byte)
  done : List Xfer
  moved : Nat
  dropped : Nat

/-- Fill or drain the cores in rank order. A failing transfer stops the record on its engine; the other engines go on (R265). -/
def coreLoop (j : Job) (record rep : Nat) (one : State → Nat → Nat → CorePart) :
    State → List (Nat × Nat) → List (Nat × List Byte) → Nat → Option (Nat × Nat) → State
  | s, [], ws, n, err => setResult s j (.stream record rep) (match err with
      | some (code, block) => failedRepeat code block n ws
      | none => { ActResult.ok with elems := n, words := [n, 0, 0], writes := ws })
  | s, (k, c) :: rest, ws, n, err =>
    let e := keyStack c
    match failedOn s j.num record e with
    | some code => coreLoop j record rep one s rest ws n (err.or (some (code, 0)))
    | none =>
      let r := one s k c
      let s1 := noteDropped (noteMoved r.st e r.moved r.done) e r.dropped
      match r.bad with
      | some i => coreLoop j record rep one (streamFault s1 j record rep e 1 i (n + r.moved)) rest (ws ++ r.writes) (n + r.moved) (err.or (some (1, i)))
      | none => coreLoop j record rep one s1 rest (ws ++ r.writes) (n + r.moved) err

def fillOne (j : Job) (record rep : Nat) (h : List Byte) (s : State) (k c : Nat) : CorePart :=
  let xs := streamXfers j.plan j.pos record rep k
  let (s1, bs, bad) := gatherXfers s (BitVec.ofNat 8 (strFill h)) 0 xs
  { st := s1, bad := bad, writes := if bs.isEmpty then [] else [(windowBase c + slotBase j.plan (strSlot h) (repeatSet h rep), bs)]
    done := xs.take (bad.getD xs.length), moved := bs.length, dropped := 0 }

/-- A transfer's memory side meets an unmapped word (R29). -/
def unmappedXfer (s : State) (x : Xfer) : Bool := let (_, a, n) := x.inside; decide (0 < n) && (firstUnmapped s a n).isSome

/-- Transfers of a DRAIN from sequential address a, in order, as far as the slot reads: stores, bytes dropped, and the first that fails. -/
def drainXfers (s : State) (a : Nat) : Nat → List Xfer → CorePart
  | _, [] => { st := s, bad := none, writes := [], done := [], moved := 0, dropped := 0 }
  | i, x :: xs =>
    let r : ReadOut := if x.len = 0 then { bytes := [], bad := none, st := s } else memRead s a x.len
    if r.bad.isSome then { st := r.st, bad := some i, writes := [], done := [], moved := 0, dropped := 0 }
    else if unmappedXfer s x then { st := busError r.st x.inside.2.1, bad := some i, writes := [], done := [], moved := 0, dropped := 0 }
    else
      let (w, d) := scatterXfers [x] r.bytes
      let q := drainXfers r.st (a + x.len) (i + 1) xs
      { q with writes := w ++ q.writes, done := x :: q.done, moved := x.len + q.moved, dropped := d + q.dropped }

def drainOne (j : Job) (record rep : Nat) (h : List Byte) (s : State) (k c : Nat) : CorePart :=
  drainXfers s (windowBase c + slotBase j.plan (strSlot h) (repeatSet h rep)) 0 (streamXfers j.plan j.pos record rep k)

/-- R248: FILL. -/
def execBellowsFill (record rep : Nat) (s : State) : Host.Outcome State Fault Refusal :=
  .next (match servedStream s record rep 0 with
    | none => s
    | some (j, h) => coreLoop j record rep (fillOne j record rep h) (clearBad s) (rankedCores s h) [] 0 none)

/-- R248: DRAIN. -/
def execBellowsDrain (record rep : Nat) (s : State) : Host.Outcome State Fault Refusal :=
  .next (match servedStream s record rep 1 with
    | none => s
    | some (j, h) => coreLoop j record rep (drainOne j record rep h) (clearBad s) (rankedCores s h) [] 0 none)

/-- Bytes that join what a flow has not yet sent, at the offset of the activity's end. -/
def feedFlow (s : State) (num : Word) (f off : Nat) (bs : List Byte) : State :=
  let k := chunkKey f off 0
  if bs.isEmpty then s
  else setJob s num (fun j => { j with flowOut := sparsePut k (sparseGet [] k j.flowOut ++ bs) j.flowOut })

/-- An activity's bytes go to a flow: they wait for its slots, and a DYNAMIC flow sends them at once over unassigned slots, in messages of at most
11,248 bytes (R119, R323). A rerun hands them on again (R378). (DEDUCED, unsafe: log entry 95.) (DEDUCED, unsafe: log entry 106.) -/
def handFlow (s : State) (j : Job) (off : Nat) (x : Nat × List Byte) : State :=
  let f := flowAt j.plan x.1
  if f.dynamic then (pieces 11248 (ceilDiv x.2.length 11248) x.2).foldl (fun t b => sendTo t [j.members.getD f.dst 0] 4 (.dynamic x.1 b)) s
  else feedFlow s j.num x.1 off x.2

/-- Flow that a record feeds, and the one that it lands. -/
def flowFrom (j : Job) (record : Nat) : Option Flow := (planFlows j.plan).find? (fun f => f.src == j.pos && f.srcStream == record)
def flowTo (j : Job) (record : Nat) : Option Flow := (planFlows j.plan).find? (fun f => f.dst == j.pos && f.dstStream == record)

/-- The bytes of a SEND repeat go to its flow from its first offset on. -/
def sendFlow (s : State) (j : Job) (record rep : Nat) (h bs : List Byte) : State :=
  match flowFrom j record with
  | some f => handFlow s j (strStart h rep) (f.index, bs.take f.bytes)
  | none => s

/-- R258: SEND reads its flow's bytes, which go to the flow's slots that follow. -/
def execBellowsSend (record rep : Nat) (s : State) : Host.Outcome State Fault Refusal :=
  .next (match servedStream s record rep 2 with
    | none => s
    | some (j, h) =>
      let st := keyStack (strScope h)
      let xs := streamXfers j.plan j.pos record rep 0
      let (s1, bs, bad) := gatherXfers s (BitVec.ofNat 8 (strFill h)) 0 xs
      let s2 := sendFlow (noteMoved s1 st bs.length (xs.take (bad.getD xs.length))) j record rep h bs
      unlessFailed s j record rep st (match bad with
        | some i => setResult (streamFault s2 j record rep st 1 i bs.length) j (.stream record rep) (failedRepeat 1 i bs.length [])
        | none => setResult s2 j (.stream record rep) { ActResult.ok with elems := bs.length, words := [bs.length, 0, 0] }))

/-- Write a sequence of bytes through transfers. A transfer that meets an unmapped word ends the repeat there (R307), and bytes beyond the total
end it with OVERFLOW (R258, R265). (DEDUCED, unsafe: log entry 63.) -/
def landBytes (s : State) (j : Job) (record rep st : Nat) (xs : List Xfer) (bs : List Byte) : State :=
  let fails (code block n : Nat) (ws : List (Nat × List Byte)) (t : State) : State :=
    setResult (streamFault t j record rep st code block n) j (.stream record rep) (failedRepeat code block n ws)
  let done (ys : List Xfer) : Nat × List (Nat × List Byte) × State :=
    let n := Nat.min (totalLen ys) bs.length
    let (ws, d) := scatterXfers ys bs
    (n, ws, noteDropped (noteMoved s st n ys) st d)
  match xs.findIdx? (unmappedXfer s) with
  | some i => let r := done (xs.take i); fails 1 i r.1 r.2.1 (clearBad r.2.2)
  | none =>
    let r := done xs
    if totalLen xs < bs.length then fails 5 0 r.1 r.2.1 r.2.2
    else setResult r.2.2 j (.stream record rep) { ActResult.ok with elems := r.1, words := [r.1, 0, 0], writes := r.2.1 }

/-- R258: LAND writes the bytes of the frames that landed on this member, once all of its flow's BYTES are there; a repeat that still lacks some
at its end overruns (R257). The operand's bytes are only offered: no frame brought them. (DEDUCED, unsafe: log entry 63.) -/
def execBellowsLand (record rep : Nat) (_bytes : List Byte) (s : State) : Host.Outcome State Fault Refusal :=
  .next (match servedStream s record rep 3 with
    | none => s
    | some (j, h) =>
      let (need, landed) := match flowTo j record with
        | some f => (f.bytes, flowBytes j.flowIn f.index)
        | none => (0, [])
      let st := keyStack (strScope h)
      unlessFailed s j record rep st (
        if landed.length < need then s else landBytes s j record rep st (streamXfers j.plan j.pos record rep 0) landed))

/-- Index of the first entry that names an address outside the near and far tiers. (DEDUCED, unsafe: log entry 63.) -/
def badEntry (s : State) (xs : List Xfer) : Option Nat := xs.findIdx? (fun x => !x.skip && !rangeOk s isTier x.addr.toNat x.len)

/-- RING_SHORT: entries of the repeat that arrive from now on are late (R51). -/
def ringShort (s : State) (j : Job) (h : List Byte) (record rep : Nat) : State :=
  let e := BitVec.ofNat 32 (repeatIndex s j h record rep + strNentry h)
  ringMod (streamError s j record rep (keyStack (strScope h)) 4 0 0) (drNumber (keyStack (strScope h)) (strRing h)) (fun g => { g with late := g.late ++ [e] })

/-- The read data of an INGEST repeat of `total` bytes in command order; none while some is still to be issued or to arrive (R259, R340). -/
def ingestData (s : State) (j : Job) (h : List Byte) (record rep total : Nat) : Option (List Byte) :=
  if total = 0 then some []
  else if strQp h < 512 then none
  else
    let x := qpGet s ((strQp h - 512) / 2048) ((strQp h - 512) % 2048)
    match x.issued, actOf j (.stream record rep) with
    | some (r, i, start, _, used), some a =>
      let bs := x.data.flatMap (·.2)
      if r = record ∧ i = rep ∧ start = a.start ∧ used = total ∧ bs.length = used then some bs else none
    | _, _ => none

/-- Transfers of an INGEST repeat, or the stream error that its ring entries give: its code and BLOCK. -/
def ingestXfers (s : State) (j : Job) (h : List Byte) (record rep : Nat) : State × Except (Nat × Nat) (List Xfer) :=
  if strForm h ≠ 2 then (s, .ok (streamXfers j.plan j.pos record rep 0))
  else match ringEntries s j h record rep with
    | (s1, .error i) => (s1, .error (1, i))
    | (s1, .ok es) =>
      let xs := listXfers es 0
      match badEntry s1 xs with
      | some i => (s1, .error (2, i))
      | none => (s1, .ok xs)

/-- R259, R263: INGEST writes the data that has arrived on its queue pair, once all of it is there. The operand's bytes are only offered: no read
brought them. (DEDUCED, unsafe: log entry 63.) -/
def execBellowsIngest (record rep : Nat) (_bytes : List Byte) (handoverOk : Bool) (s : State) : Host.Outcome State Fault Refusal :=
  .next (match servedStream s record rep 4 with
    | none => s
    | some (j, h) =>
      let st := keyStack (strScope h)
      let start := ((actOf j (.stream record rep)).map (·.start)).getD 0
      unlessFailed s j record rep st (
        if !handoverOk then streamError s j record rep st 3 0 0
        else if strForm h = 2 && !ringArrived s j h record rep (start - 1) then ringShort s j h record rep
        else match ingestXfers s j h record rep with
          | (s1, .error e) => streamError s1 j record rep st e.1 e.2 0
          | (s1, .ok xs) => match ingestData s1 j h record rep (totalLen xs) with
            | none => s
            | some data => landBytes s1 j record rep st xs data))

end Sys2Proof.Machine
end

