-- ==== Sys2Proof/Machine/Edge.lean ====
section
/-!
DEFINITION. The strike edge (R49): the end of the current strike and the start of the next, and the start of a plan (R112).
-/
namespace Sys2Proof.Machine

/-- The rate of the last sample applies from the strike that begins (R180). A strike at a Hardy rate below FULL counts, and one below the
die's floor sets THERMAL as well (R181, R184). -/
def rateStrike (s : State) (e : Nat × HardyUnit) : State :=
  let k := dieKey e.1
  let r := e.2.nextRate.toNat
  let s0 := hardyMod s e.1 (fun u => { u with rate := u.nextRate })
  let s1 := if r = 0 then s0 else count s0 k 23 1
  if paramAt s k 5 0 < r then stickySet (count s1 k 24 1) k 5 else s1

/-- The entries that the repeat's ring held a strike before its first offset D had come in D: they set LATE_EDGE in the column (R50, R263). -/
def startedLate (s : State) (j : Job) (h : List Byte) (record rep : Nat) : State :=
  let st := keyStack (strScope h)
  let n := drNumber st (strRing h)
  let g := ringGet s n
  let upTo (k : Nat) : Nat := maxNat ((g.arrivals.filter (fun a => decide (a.2 ≤ k ∧ ringCount g.head a.1 ≤ 4096))).map (fun a => ringCount g.head a.1))
  let lo := heldBefore j n record rep
  if Nat.max lo (upTo (now s - 2)) < Nat.min (lo + strNentry h) (upTo (now s - 1)) then count (stickySet s (columnKey st) 8) (columnKey st) 27 1 else s

/-- A RING repeat that begins in this strike holds its entries, whatever becomes of it (R263). One that begins with its plan had its deadline before
the plan ran, so its late arrivals show now. -/
def holdRings (s : State) : State :=
  match runningJob s with
  | none => s
  | some j => j.acts.foldl (fun t a => match a.ref with
    | .stream record rep =>
      let h := streamHdr j.plan j.pos record
      if a.start = now s ∧ strKind h = 4 ∧ strForm h = 2 then
        let t1 := match runningJob t with
          | some j' => holdEntries t j' h record rep
          | none => t
        if j.startStrike = now s then startedLate t1 j h record rep else t1
      else t
    | .step _ => t) s

/-- A flow frame whose data fails its check on leaving memory is not sent: stream error CHECK of the SEND record, counted against the unit that
owns the memory (R265, R309, R310). -/
def sendFails (s : State) (p i : Nat) : State :=
  match runningJob s, slotOwner s p i with
  | some j, some f =>
    let fl := flowAt j.plan f
    if fl.src ≠ j.pos then s
    else
      let record := fl.srcStream
      let h := streamHdr j.plan j.pos record
      let off := offsetNow s j
      let rep := ((List.range (Nat.max 1 (strRepeat h))).filter (fun k => decide (strStart h k ≤ off))).length - 1
      let xs := (streamXfers j.plan j.pos record rep 0).filter (fun x => decide (0 < x.inside.2.2))
      let charge := match xs.head? with
        | some x => wordUnit s x.inside.2.1
        | none => devKey
      setResult (streamFault s j record rep (keyStack (strScope h)) 3 0 0 charge) j (.stream record rep) (failedRepeat 3 0 0 [])
  | _, _ => s

/-- R112: the first queued plan starts at B with offset 0 and commits it, or ends there. (DESIGN CHOICE, safe: log entry 2.) -/
def execPlanStart (s : State) : Host.Outcome State Fault Refusal :=
  .next (match firstQueued s with
    | none => s
    | some j =>
      if !mayStart s j then s
      else
        let started := setJob s j.num (fun j => { j with phase := .running, startStrike := now s, holdAtStart := s.seq.hold, committed := 0,
                                                         moved := 0 })
        match startStatus s j with
        | some st =>
          let ended := endJob started j.num st 0xFFFFFFFF 0xFFFFFFFF 0
          deadlineComparators (if st = 0x0500 then setJob ended j.num (fun j => { j with startStrike := 0 }) else ended)
        | none => holdRings (runWork (clearMisses (deadlineComparators started))))

/-- What the end of a strike and the reset and configuration work at the next one's cycle 0 leave: the count (order 1), the plan that resumes (R379),
remaps made (R305), the partitions and units that go into reset (R53 judges them), the configurations that apply (2), the table versions named for
the strike (3). -/
def beginStrike (e : EdgeInputs) (s : State) : State :=
  let s1 := nextStrike (installRemaps (endStrike (sweepStores s)))
  let s2 := beginDueResets (resumeHold (trackEdge s1 (edgeError s1 e)))
  activateDue (endByMember (applyDue s2))

/-- R49: the current strike ends and the next begins, in the order of the rule: orders 1 to 3, then the decision of the last strike and a heat
boundary's commit (4), plan work and its frames (5), and completions (6). The count has no successor after its last value (R11). Before the strike is defined the edges are those of the free-running timebase, at which frames go out (R324). The work of the engines follows as commands of the strike. (DESIGN CHOICE, safe: log entry 11.) (DEDUCED, unsafe: log entry 14.) (DEDUCED, safe: log entry 16.) -/
def execStrikeEdge (e : EdgeInputs) (s : State) : Host.Outcome State Fault Refusal :=
  if !s.tb.strikeDefined then .next (sendFrames (agePorts s) [])
  else if s.seq.strike = neverWord then .fault .strikeCountExhausted
  else
    let s2 := beginStrike e (agePorts s)
    let s3 := if isBoundary (now s2) then heatWork s2 e else s2
    let s4 := noteGroups (holdRings (planWork (issueReadmissions s3)))
    let s5 := e.sendMismatch.foldl (fun t x => sendFails t x.1 x.2) (postCommits (s4.eng.hardy.foldl rateStrike s4))
    .next (syncPulse (sendFrames s5 e.sendMismatch))

end Sys2Proof.Machine
end

