-- ==== Sys2Proof/Machine/Swage.lean ====
section
/-!
DEFINITION. The Swage engines (R95 to R105): slice copies with permutation and padding, the overlap set and its staging.
-/
namespace Sys2Proof.Machine

/-! ### The job descriptor (R95), which is the step's parameter block -/

def swNslice (pb : List Byte) : Nat := fieldN pb 2 2
def swPerm (pb : List Byte) (d : Nat) : Nat := bits (fieldN pb 4 4) (3 * d + 2) (3 * d)
def swPad (pb : List Byte) : Nat := fieldN pb 0x10 8
def swDies (pb : List Byte) : List Nat := (List.range 80).filter (bit (fieldN pb 0x20 16))
def swSlice (pb : List Byte) (i : Nat) : List Byte := slice pb (0x40 + 128 * i) 128
def slSrc (e : List Byte) (d : Nat) : Nat := fieldN e (6 * d) 6
def slDst (e : List Byte) (d : Nat) : Nat := fieldN e (0x24 + 6 * d) 6
def slExt (e : List Byte) (d : Nat) : Nat := fieldN e (0x48 + 4 * d) 4
def slLo (e : List Byte) (d : Nat) : Nat := fieldN e (0x60 + 2 * d) 2
def slHi (e : List Byte) (d : Nat) : Nat := fieldN e (0x6C + 2 * d) 2

/-- Descriptors of the two sides. -/
structure SwJob where
  pb : List Byte
  src : List Byte
  dst : List Byte

def swJob (j : Job) (st : PlanStep) : SwJob :=
  let pb := stepParams j.plan j.pos st
  { pb := pb, src := descBytes j.plan j.pos (fieldN pb 8 4), dst := descBytes j.plan j.pos (fieldN pb 0xC 4) }

def slices (w : SwJob) : List (List Byte) := (List.range (swNslice w.pb)).map (swSlice w.pb)

/-- A coordinate list as a function. -/
def atDim (l : List Nat) (d : Nat) : Nat := l.getD d 0

/-- Source coordinates of offset y of a slice: y'[PERM[d]] = y[d] (R96). -/
def srcCoord (w : SwJob) (e : List Byte) (y : Nat → Nat) : List Nat :=
  let n := dsNdim w.dst
  (List.range 6).map (fun k => match (List.range n).find? (fun d => swPerm w.pb d == k) with
    | some d => slSrc e k + y d
    | none => slSrc e k)

/-- Elements of a slice's valid box: destination and source coordinates. -/
def validBox (w : SwJob) (e : List Byte) : List (List Nat × List Nat) :=
  let n := dsNdim w.dst
  let ext (d : Nat) : Nat := if d < n then slExt e d else 1
  (List.range (prod6 ext)).map (fun i =>
    let y := coordsOf ext n i
    ((List.range 6).map (fun d => slDst e d + y d), srcCoord w e y))

/-- A destination coordinate lies in the valid box of a slice. -/
def inValid (w : SwJob) (e : List Byte) (x : List Int) : Bool :=
  (List.range (dsNdim w.dst)).all (fun d =>
    let v := x.getD d 0
    decide ((slDst e d : Int) ≤ v ∧ v < (slDst e d : Int) + (slExt e d : Int)))

/-- Elements of a slice's pad region. -/
def padBox (w : SwJob) (e : List Byte) : List (List Int) :=
  let n := dsNdim w.dst
  let ext (d : Nat) : Nat := if d < n then slExt e d + slLo e d + slHi e d else 1
  ((List.range (prod6 ext)).map (fun i =>
    let y := coordsOf ext n i
    (List.range 6).map (fun d => if d < n then (slDst e d : Int) - (slLo e d : Int) + (y d : Int) else 0))).filter (fun x => !inValid w e x)

def intInShape (b : List Byte) (x : List Int) : Bool :=
  (List.range 6).all (fun d => decide (0 ≤ x.getD d 0 ∧ x.getD d 0 < (dsShape b d : Int)))

/-- What a destination element receives. -/
inductive SwCell where
  | source (x : List Nat)
  | pad
deriving DecidableEq, Repr

/-- Everything a job writes and counts: cells by destination linear index, out-of-bounds elements, linear indices of the masked pads,
dropped pads (R94, R104, R105). -/
structure SwPlan where
  cells : Sparse SwCell
  oob : Nat
  masked : List Nat
  dropped : Nat

def linOf (b : List Byte) (x : List Nat) : Nat := linearOf (dsShape b) (dsNdim b) (atDim x)

/-- Valid boxes in slice order: the higher index wins. -/
def swValid (w : SwJob) : SwPlan :=
  (slices w).foldl (fun a e => (validBox w e).foldl (fun a p =>
    if inShape w.dst (atDim p.1) then { a with cells := sparsePut (linOf w.dst p.1) (.source p.2) a.cells } else { a with oob := a.oob + 1 }) a)
    { cells := [], oob := 0, masked := [], dropped := 0 }

/-- A pad element outside SHAPE counts as dropped, also where it lies inside a valid box. (DEDUCED, unsafe: log entry 102.) -/
def swPlan (w : SwJob) : SwPlan :=
  (slices w).foldl (fun a e => (padBox w e).foldl (fun a x =>
    if !intInShape w.dst x then { a with dropped := a.dropped + 1 }
    else
      let i := linOf w.dst (x.map Int.toNat)
      if (slices w).any (fun v => inValid w v x) then { a with masked := a.masked ++ [i] } else { a with cells := sparsePut i .pad a.cells }) a)
    (swValid w)

/-! ### Lines -/

/-- Windows of the two sides: once, or once for each participating core when a side lies in scratchpads (R87). (DEDUCED, safe: log entry 59.) -/
def swWindows (s : State) (w : SwJob) : List (Nat × Nat) :=
  if dsTier w.src ≠ 2 ∧ dsTier w.dst ≠ 2 then [(0, 0)]
  else
    let cores := ((swDies w.pb).flatMap (fun d => (List.range 32).map (fun c => coreKey (32 * d + c)))).filter (fun k => !isOffline s k)
    cores.map (fun k => (if dsTier w.src = 2 then windowBase k else 0, if dsTier w.dst = 2 then windowBase k else 0))

/-- Bit offset of the element of linear index i. -/
def linBit (b : List Byte) (i : Nat) : Nat := elemBit b (coordsOf (dsShape b) (dsNdim b) i)

def lineOf (a : Nat) : Nat := a / 64 * 64

/-- Source elements of every slice that lie in SHAPE: a job reads them all, those that another slice overrides too (R100). -/
def swSources (w : SwJob) : List (List Nat) :=
  ((slices w).flatMap (fun e => (validBox w e).map (·.2))).filter (fun x => inShape w.src (atDim x))

/-- Lines of the source that a job reads in a window, ascending. -/
def swReadLines (w : SwJob) (win : Nat) : List Nat :=
  let xs := swSources w
  let data := xs.map (fun x => lineOf (win + dsBase w.src + elemBit w.src (atDim x) / 8))
  let bm := if dsValidity w.src then xs.map (fun x => lineOf (win + dsAux0 w.src + linOf w.src x / 8)) else []
  sortBy (fun a b => decide (a < b)) (dedupNat (data ++ bm))

/-- Lines of the destination that a job writes in a window, those of its bitmap too, ascending. (DEDUCED, unsafe: log entry 102.) -/
def swWriteLines (w : SwJob) (p : SwPlan) (win : Nat) : List Nat :=
  let data := p.cells.map (fun c => lineOf (win + dsBase w.dst + linBit w.dst c.1 / 8))
  let bm := if dsValidity w.dst then p.cells.map (fun c => lineOf (win + dsAux0 w.dst + c.1 / 8)) else []
  sortBy (fun a b => decide (a < b)) (dedupNat (data ++ bm))

def allLines (f : Nat → List Nat) (ws : List Nat) : List Nat := sortBy (fun a b => decide (a < b)) (dedupNat (ws.flatMap f))

/-- The overlap set of a job, ascending (R101). -/
def overlapSet (s : State) (w : SwJob) : List Nat :=
  let p := swPlan w
  let ws := swWindows s w
  let written := allLines (swWriteLines w p) (ws.map (·.2))
  (allLines (swReadLines w) (ws.map (·.1))).filter written.contains

/-- The overlap set fits the staging areas (R101). -/
def overlapFits (s : State) (w : SwJob) : Bool :=
  let c := 32 * (swDies w.pb).length
  decide (ceilDiv (overlapSet s w).length c * 64 ≤ param s 2 * 1024)

/-! ### Values -/

/-- Contents of the read lines, and the state after; none when a line cannot be corrected. -/
def readLines (s : State) : List Nat → State × Option (Sparse (List Byte))
  | [] => (s, some [])
  | a :: rest =>
    let r := memRead s a 64
    match r.bad with
    | some _ => (r.st, none)
    | none =>
      match readLines r.st rest with
      | (t, some m) => (t, some ((a, r.bytes) :: m))
      | (t, none) => (t, none)

/-- w bits at bit offset o from address a, taken from read lines. -/
def lineBits (m : Sparse (List Byte)) (a o w : Nat) : Nat :=
  let x := a + o / 8
  bitsAt (slice (sparseGet [] (lineOf x) m) (x % 64) (ceilDiv w 8 + 1)) (o % 8) w

/-- The element a cell receives: outside SHAPE, FILL, or null from a chunk with a bitmap (R93, R96). -/
def cellElem (w : SwJob) (m : Sparse (List Byte)) (win : Nat) : SwCell → Elem
  | .pad => if dsValidity w.dst then Elem.null else Elem.num (swPad w.pb % 2 ^ dsWidth w.dst)
  | .source x =>
    if inShape w.src (atDim x) then
      let v := lineBits m (win + dsBase w.src) (elemBit w.src (atDim x)) (dsWidth w.src)
      let ok := !dsValidity w.src || lineBits m (win + dsAux0 w.src) (linOf w.src x) 1 == 1
      { bits := v, valid := ok, str := [] }
    else if dsValidity w.src then Elem.null else Elem.num (dsFill w.src)

/-- Coordinates of position v in a box t laid out by an order: the inverse of lin. -/
def unlin (t order : Nat → Nat) (v d : Nat) : Nat :=
  match (List.range 6).find? (fun j => order j == d) with
  | some j => v / (List.range j).foldl (fun a i => a * t (order i)) 1 % t d
  | none => 0

/-- Coordinates of the element in place e of line l of a tiled descriptor, or row of a table chunk. -/
def placeCoords (b : List Byte) (l e : Nat) : List Nat :=
  if dsTable b then [l * (512 / dsWidth b) + e, 0, 0, 0, 0, 0]
  else
    let n1 := prod6 (tileExt b 1)
    let n2 := prod6 (tileExt b 2)
    (List.range 6).map (fun d =>
      let c0 := unlin (tileExt b 0) (tileOrder b 0) e d
      let c1 := unlin (tileExt b 1) (tileOrder b 1) (l % n1) d
      let c2 := unlin (tileExt b 2) (tileOrder b 2) (l / n1 % n2) d
      let g := unlin (gridExt b) (orderAt (dsGridOrder b)) (l / n1 / n2) d
      ((g * tileExt b 2 d + c2) * tileExt b 1 d + c1) * tileExt b 0 d + c0)

/-- Replace w bits at bit offset o from address a in a map of bytes; a byte not yet in the map keeps its other bits from memory. -/
def putBits (cells : List Host.Cell) (m : Sparse Byte) (a o w v : Nat) : Sparse Byte :=
  let x := a + o / 8
  if w % 8 = 0 then
    (List.range (w / 8)).foldl (fun m i => sparsePut (x + i) (BitVec.ofNat 8 (v / 2 ^ (8 * i))) m) m
  else
    let old := ((m.find? (fun e => e.1 == x)).map (·.2)).getD (cellGet x cells)
    let low := o % 8
    let keep := old.toNat - old.toNat / 2 ^ low % 2 ^ w * 2 ^ low
    sparsePut x (BitVec.ofNat 8 (keep + v % 2 ^ w * 2 ^ low)) m

/-- Contiguous runs of a byte map, as stores. -/
def byteRuns : Sparse Byte → List (Nat × List Byte)
  | [] => []
  | (a, b) :: rest =>
    match byteRuns rest with
    | (a', bs) :: more => if a' = a + 1 then (a, b :: bs) :: more else (a, [b]) :: (a', bs) :: more
    | [] => [(a, [b])]

/-- Bit offsets from BASE of the tile padding in the lines that a job writes, which receives FILL (R86). -/
def padBits (w : SwJob) (p : SwPlan) : List Nat :=
  let dw := dsWidth w.dst
  (dedupNat (p.cells.map (fun c => linBit w.dst c.1 / 512))).flatMap (fun l =>
    ((List.range (512 / dw)).filter (fun e => !inShape w.dst (atDim (placeCoords w.dst l e)))).map (fun e => 512 * l + e * dw))

/-- Bits of the last bitmap word past the last row, which are 0 where a job writes that word (R88). -/
def tailBits (w : SwJob) (p : SwPlan) : List Nat :=
  let n := dsShape w.dst 0
  if dsValidity w.dst && p.cells.any (fun c => c.1 / 64 == (n - 1) / 64) then (List.range (roundUp n 64 - n)).map (· + n) else []

/-- Bytes a job writes in one window: elements as read (R95), FILL in the tile padding of the lines written, validity bits. -/
def windowBytes (s : State) (w : SwJob) (p : SwPlan) (m : Sparse (List Byte)) (win : Nat × Nat) (acc : Sparse Byte) : Sparse Byte :=
  let dw := dsWidth w.dst
  let base := win.2 + dsBase w.dst
  let els := p.cells.map (fun c => (c.1, cellElem w m win.1 c.2))
  let a1 := els.foldl (fun a e => putBits s.mem.cells a base (linBit w.dst e.1) dw (storedBits e.2)) acc
  let a2 := (padBits w p).foldl (fun a o => putBits s.mem.cells a base o dw (dsFill w.dst)) a1
  if dsValidity w.dst then
    let a3 := els.foldl (fun a e => putBits s.mem.cells a (win.2 + dsAux0 w.dst) e.1 1 (boolNat e.2.valid)) a2
    (tailBits w p).foldl (fun a i => putBits s.mem.cells a (win.2 + dsAux0 w.dst) i 1 0) a3
  else a2

/-- Destination bytes that a job writes in one window: elements, tile padding and bitmap bytes (R97). (DEDUCED, unsafe: log entry 37.) -/
def writtenBytes (w : SwJob) (p : SwPlan) : Nat :=
  let dw := dsWidth w.dst
  let offs := p.cells.map (fun c => linBit w.dst c.1) ++ padBits w p
  let data := if dw % 8 = 0 then offs.length * (dw / 8) else (dedupNat (offs.map (· / 8))).length
  data + (if dsValidity w.dst then (dedupNat ((p.cells.map (·.1) ++ tailBits w p).map (· / 8))).length else 0)

/-! ### Counters (R97, R99, R102) -/

def countIf (s : State) (k c n : Nat) : State := if n = 0 then s else count s k c n

/-- Die that writes line number q of a job: runs of 64 lines, round robin. -/
def lineDie (dies : List Nat) (q : Nat) : Nat := dies.getD (q / 64 % dies.length) 0

/-- Staged lines: line j of O goes to core j mod C, ranked by die index and core number. -/
def noteStaged (s : State) (dies : List Nat) (n : Nat) : State :=
  let c := 32 * dies.length
  ((List.range dies.length).zip dies).foldl (fun t (i, d) =>
    let mine := ((List.range n).filter (fun q => q % c / 32 == i)).length
    if mine = 0 then t else stickySet (count t (dieKey d) 17 mine) (dieKey d) 11) s

def noteLines (s : State) (dies written masked : List Nat) : State :=
  dies.foldl (fun t d =>
    let mine (q : Nat) : Bool := lineDie dies q == d
    let t1 := countIf t (dieKey d) 16 ((List.range written.length).filter mine).length
    countIf t1 (dieKey d) 18 (masked.filter (fun l => match written.findIdx? (· == l) with
      | some q => mine q
      | none => false)).length) s

/-- The engines stand at the last slice of the job. (DEDUCED, unsafe: log entry 48.) -/
def noteSlice (s : State) (dies : List Nat) (i : Nat) : State :=
  { s with eng := { s.eng with swage := dies.foldl (fun m d =>
      sparseSet Engine.reset d { sparseGet Engine.reset d m with errA := BitVec.ofNat 32 i } m) s.eng.swage } }

/-- The address of line j of O in the staging area of its core (R102, R108): cores in die order take the lines in turn. -/
def stagePlace (dies : List Nat) (j : Nat) : Nat :=
  let c := 32 * dies.length
  windowBase (coreKey (32 * dies.getD (j % c / 32) 0 + j % c % 32)) + 0x200000 + 64 * (j / c)

/-- The die whose core holds line j of O. -/
def stageDie (dies : List Nat) (j : Nat) : Nat := dies.getD (j % (32 * dies.length) / 32) 0

/-- The staged lines, by their source addresses; the die of a staged line that cannot be corrected (R102). -/
def readStaged (s : State) (dies : List Nat) : List (Nat × Nat) → State × Except Nat (Sparse (List Byte))
  | [] => (s, .ok [])
  | (j, a) :: rest =>
    let r := memRead s (stagePlace dies j) 64
    match r.bad with
    | some _ => (r.st, .error (stageDie dies j))
    | none =>
      match readStaged r.st dies rest with
      | (t, .ok m) => (t, .ok (sparsePut a r.bytes m))
      | (t, .error d) => (t, .error d)

/-- Work of an accepted job: the lines of O into the staging areas, then the copy, which takes them from there (R100, R102). (DEDUCED, safe: log entry 59.) (DESIGN CHOICE, unsafe: log entry 113.) -/
def swageWork (s : State) (j : Job) (st : PlanStep) : State :=
  let w := swJob j st
  let dies := swDies w.pb
  let ws := swWindows s w
  let p := swPlan w
  let o := overlapSet s w
  let numbered := (List.range o.length).zip o
  match readLines (noteSlice s dies (swNslice w.pb - 1)) (allLines (swReadLines w) (ws.map (·.1))) with
  | (s0, none) => setResult s0 j (.step st.index) { ActResult.ok with status := 0x0400 }
  | (s0, some m0) =>
  let s1 := memWriteAll s0 (numbered.map (fun x => (stagePlace dies x.1, sparseGet [] x.2 m0)))
  let s1 := if o.isEmpty then s1 else setJob s1 j.num (fun j => { j with inPlace := dedupNat (j.inPlace ++ [st.index]) })
  match readStaged s1 dies numbered with
  | (s1, .error d) => detectFault s1 1 (fullUid s1 (dieKey d)) none []
  | (s1, .ok staged) =>
    let m := staged.foldl (fun m e => sparsePut e.1 e.2 m) m0
    let written := allLines (swWriteLines w p) (ws.map (·.2))
    let masked := ws.flatMap (fun x => p.masked.map (fun i => lineOf (x.2 + dsBase w.dst + linBit w.dst i / 8)))
    let bytes := ws.foldl (fun a x => windowBytes s1 w p m x a) []
    let first := dieKey (dies.headD 0)
    let s2 := noteLines (noteStaged s1 dies o.length) dies written masked
    let s3 := countIf s2 first 19 (p.dropped * ws.length)
    let s4 := if p.oob = 0 then s3 else stickySet (count s3 first 2 (p.oob * ws.length)) first 15
    setResult s4 j (.step st.index) { ActResult.ok with
      elems := p.cells.length * ws.length, writes := byteRuns bytes }

/-- R96, R100 to R105. -/
def execSwageCopy (step : Nat) (s : State) : Host.Outcome State Fault Refusal :=
  .next (match servedStep s step 0 0x10 with
    | none => s
    | some (j, st) => swageWork s j st)

end Sys2Proof.Machine
end

