-- ==== Sys2Proof/Machine/Crucible.lean ====
section
/-!
DEFINITION. The Crucible engines (R268 to R288): block transforms, canonical Huffman codes, regions with their overflow and extension,
PACK in both modes with exhaustion, and UNPACK.
-/
namespace Sys2Proof.Machine

/-! ### Blocks (R272) -/

/-- Element width in bytes of a packed operand: that of its type, and 8 for strings and bitmaps (R278). -/
def packWidth (b : List Byte) : Nat :=
  let w := dsWidth b
  if w = 128 ∨ w = 1 then 8 else Nat.max 1 (w / 8)

def blockElems (ew : Nat) (bs : List Byte) : List Nat := (List.range (bs.length / ew)).map (fun i => fieldN bs (ew * i) ew)

/-- Bit length of the largest value. -/
def bitsOf (vs : List Nat) : Nat := let m := maxNat vs; if m = 0 then 0 else Nat.log2 m + 1

def forValues (ew : Nat) (xs : List Nat) : Nat × List Nat :=
  let m := (minNat? xs).getD 0
  (m, xs.map (fun x => (x + 2 ^ (8 * ew) - m) % 2 ^ (8 * ew)))

/-- Zigzag of a difference of two elements. -/
def zigzag (ew a b : Nat) : Nat :=
  let d := sint (8 * ew) ((b + 2 ^ (8 * ew) - a) % 2 ^ (8 * ew))
  if d < 0 then (-2 * d - 1).toNat else (2 * d).toNat

def deltaList (ew : Nat) : List Nat → List Nat
  | a :: b :: rest => zigzag ew a b :: deltaList ew (b :: rest)
  | _ => []

def deltaValues (ew : Nat) (xs : List Nat) : Nat × List Nat := (xs.headD 0, if xs.isEmpty then [] else 0 :: deltaList ew xs)

/-- Bits of a value, least significant first. -/
def bitsLsb (w v : Nat) : List Bool := (List.range w).map (bit v)

/-- Bytes filled from bit 0 upward, the last completed with zeros. -/
def streamPack : Nat → List Bool → List Byte
  | 0, _ => []
  | n + 1, bs =>
    if bs.isEmpty then []
    else BitVec.ofNat 8 (((List.range 8).filter (fun i => bs.getD i false)).foldl (fun a i => a + 2 ^ i) 0) :: streamPack n (bs.drop 8)

def toBytes (bs : List Bool) : List Byte := streamPack (ceilDiv bs.length 8) bs

def byteBits (bs : List Byte) : List Bool := bs.flatMap (fun b => bitsLsb 8 b.toNat)

/-- The chosen transform of a block: 1 FOR or 2 DELTA, BITS, ref, packed stream. -/
structure Packed where
  transform : Nat
  bits : Nat
  ref : Nat
  stream : List Byte

def packBlock (ew : Nat) (bs : List Byte) : Packed :=
  let xs := blockElems ew bs
  let (rf, vf) := forValues ew xs
  let (rd, vd) := deltaValues ew xs
  let bf := bitsOf vf
  let bd := bitsOf vd
  if bf ≤ bd then { transform := 1, bits := bf, ref := rf, stream := toBytes (vf.flatMap (bitsLsb bf)) }
  else { transform := 2, bits := bd, ref := rd, stream := toBytes (vd.flatMap (bitsLsb bd)) }

/-! ### Codes (R273, R274) -/

/-- A node of the construction. -/
inductive HNode where
  | leaf (s : Nat)
  | node (a b : HNode)

/-- Depths of the leaves. -/
def leafDepths : Nat → HNode → List (Nat × Nat)
  | d, .leaf s => [(s, d)]
  | d, .node a b => leafDepths (d + 1) a ++ leafDepths (d + 1) b

/-- An entry of the pool: weight, order among ties (leaves by symbol, then internal nodes by creation), node. -/
abbrev HEntry := Nat × Nat × HNode

def hBefore (a b : HEntry) : Bool := decide (a.1 < b.1 ∨ (a.1 = b.1 ∧ a.2.1 < b.2.1))

/-- Merge the two lowest until one node is left; `n` numbers the next internal node. -/
def hMerge : Nat → Nat → List HEntry → Option HNode
  | 0, _, _ => none
  | _, _, [] => none
  | _, _, [x] => some x.2.2
  | k + 1, n, x :: y :: rest => hMerge k (n + 1) (insertBy hBefore (x.1 + y.1, n, .node x.2.2 y.2.2) rest)

/-- Lengths of one pass over the weights. -/
def hDepths (w : List Nat) : List Nat :=
  let leaves : List HEntry := ((List.range 256).filter (fun s => decide (0 < w.getD s 0))).map (fun s => (w.getD s 0, s, .leaf s))
  match hMerge 512 256 (sortBy hBefore leaves) with
  | some t =>
    let ds := leafDepths 0 t
    (List.range 256).map (fun s => ((ds.find? (fun p => p.1 == s)).map (·.2)).getD 0)
  | none => List.replicate 256 0

def hPasses : Nat → List Nat → List Nat
  | 0, w => hDepths w
  | n + 1, w =>
    let l := hDepths w
    if maxNat l ≤ 15 then l else hPasses n (w.map (fun x => ceilDiv x 2))

/-- lengths(w) of R274. -/
def codeLengths (w : List Nat) : List Nat :=
  let pos := (List.range 256).filter (fun s => decide (0 < w.getD s 0))
  if pos.length < 2 then
    let more := ((List.range 256).filter (fun s => !pos.contains s)).take (2 - pos.length)
    (List.range 256).map (fun s => boolNat (pos.contains s || more.contains s))
  else hPasses 64 w

def staticLengths (t : Nat) : List Nat :=
  if t = 0 then List.replicate 256 8 else codeLengths ((List.range 256).map (fun s => (9 - popcount8 s) ^ t))

/-- Weights of a list of bytes. -/
def histogram (bs : List Byte) : List Nat := bs.foldl (fun h b => listModify h b.toNat (· + 1)) (List.replicate 256 0)

/-- Codes by symbol: (code, length), length 0 without a code. -/
def canonCodes (lens : List Nat) : List (Nat × Nat) :=
  let r := ((List.range 16).drop 1).foldl (fun (acc : Nat × List (Nat × Nat × Nat)) len =>
    let a := ((List.range 256).filter (fun s => lens.getD s 0 == len)).foldl
      (fun (acc : Nat × List (Nat × Nat × Nat)) s => (acc.1 + 1, (s, acc.1, len) :: acc.2)) acc
    (a.1 * 2, a.2)) (0, [])
  (List.range 256).map (fun s => ((r.2.find? (fun x => x.1 == s)).map (·.2)).getD (0, 0))

/-- A code's bits, the most significant first. -/
def codeBits (c : Nat × Nat) : List Bool := (List.range c.2).map (fun i => bit c.1 (c.2 - 1 - i))

/-- The Huffman code of a stream; none when a byte has no code. -/
def huffEncode (codes : List (Nat × Nat)) (bs : List Byte) : Option (List Byte) :=
  if bs.any (fun b => (codes.getD b.toNat (0, 0)).2 == 0) then none
  else some (toBytes (bs.flatMap (fun b => codeBits (codes.getD b.toNat (0, 0)))))

/-- Decode up to p symbols: (code, length) read so far; none when the bits end first or pass every code. (DEDUCED, unsafe: log entry 64.) -/
def huffDecode (codes : List (Nat × Nat)) : List Bool → Nat → Nat → Nat → Option (List Byte × Nat)
  | _, 0, _, _ => some ([], 0)
  | [], _ + 1, _, _ => none
  | b :: rest, p + 1, c, n =>
    let c' := 2 * c + boolNat b
    if 15 < n + 1 then none
    else match (List.range 256).find? (fun s => codes.getD s (0, 0) == (c', n + 1)) with
      | some s => (huffDecode codes rest p 0 0).map (fun r => (BitVec.ofNat 8 s :: r.1, n + 1 + r.2))
      | none => huffDecode codes rest (p + 1) c' (n + 1)

/-! ### Regions (R269 to R271) -/

/-- A region header as fields. -/
structure RegionHdr where
  ratio : Nat
  ewLog2 : Nat
  table : Nat
  state : Nat
  seq : Nat
  bytes : Nat
  nblocks : Nat
  next : Nat
  ovfEntries : Nat
  ovfUsed : Nat
  extBase : Nat
  extEntries : Nat
  token : List Byte
  lengths : List Nat

def slotLen (ratio : Nat) : Nat := 4096 / 2 ^ ratio
def regionSize (h : RegionHdr) : Nat := 256 + h.nblocks * slotLen h.ratio + h.ovfEntries * 4096

def parseRegion (b : List Byte) : RegionHdr :=
  { ratio := byteAt b 6, ewLog2 := byteAt b 7, table := byteAt b 8, state := byteAt b 9, seq := fieldN b 0xC 4, bytes := fieldN b 0x10 8,
    nblocks := fieldN b 0x18 4, next := fieldN b 0x1C 4, ovfEntries := fieldN b 0x20 4, ovfUsed := fieldN b 0x24 4,
    extBase := fieldN b 0x28 8, extEntries := fieldN b 0x30 4, token := slice b 0x38 16,
    lengths := (List.range 256).map (fun s => byteAt b (0x80 + s / 2) / (if s % 2 = 0 then 1 else 16) % 16) }

def regionHdrBytes (h : RegionHdr) : List Byte :=
  leBytes 4 0x52434849 ++ leBytes 2 0x0100 ++ leBytes 1 h.ratio ++ leBytes 1 h.ewLog2 ++ leBytes 1 h.table ++ leBytes 1 h.state ++ leBytes 2 0 ++
    leBytes 4 h.seq ++ leBytes 8 h.bytes ++ leBytes 4 h.nblocks ++ leBytes 4 h.next ++ leBytes 4 h.ovfEntries ++ leBytes 4 h.ovfUsed ++
    leBytes 8 h.extBase ++ leBytes 4 h.extEntries ++ leBytes 4 0 ++ slice h.token 0 16 ++ List.replicate 56 0 ++
    (List.range 128).map (fun i => BitVec.ofNat 8 (h.lengths.getD (2 * i) 0 + 16 * h.lengths.getD (2 * i + 1) 0))

/-- MAGIC, FORMAT, RATIO, EW_LOG2, TABLE, STATE and the reserved fields meet R270. -/
def regionOk (b : List Byte) : Bool :=
  fieldN b 0 4 == 0x52434849 && fieldN b 4 2 == 0x0100 && decide (1 ≤ byteAt b 6 ∧ byteAt b 6 ≤ 3) && decide (byteAt b 7 ≤ 3) &&
    (if 128 ≤ byteAt b 8 then byteAt b 8 == 128 else decide (byteAt b 8 < 16)) && decide (1 ≤ byteAt b 9 ∧ byteAt b 9 ≤ 2) &&
    zeroRange b 0xA 2 && zeroRange b 0x34 4 && zeroRange b 0x48 56

/-- Address of overflow entry j of a region. -/
def ovfAddr (base : Nat) (h : RegionHdr) (j : Nat) : Nat :=
  if j < h.ovfEntries then base + 256 + h.nblocks * slotLen h.ratio + j * 4096 else h.extBase + (j - h.ovfEntries) * 4096

def regionSlot (base : Nat) (h : RegionHdr) (k : Nat) : Nat := base + 256 + k * slotLen h.ratio

/-- A slot header (R271). -/
def slotHeader (crc len payload flags transform nbits ovf : Nat) : List Byte :=
  leBytes 4 crc ++ leBytes 2 len ++ leBytes 2 payload ++ leBytes 1 flags ++ leBytes 1 transform ++ leBytes 1 nbits ++ leBytes 1 0 ++ leBytes 4 ovf

/-- The token of an exhaustion (R281). -/
def resumeToken (seq next used : Nat) : List Byte :=
  let b := leBytes 4 seq ++ leBytes 4 next ++ leBytes 4 used
  b ++ leBytes 4 (crc32c b).toNat

/-! ### Engines -/

def crucibleMod (s : State) (e : Nat) (f : Engine → Engine) : State :=
  { s with eng := { s.eng with crucible := sparseSet Engine.reset e (f (sparseGet Engine.reset e s.eng.crucible)) s.eng.crucible } }

def crucibleErr (s : State) (e code block : Nat) : State :=
  crucibleMod s e (fun g => { g with errA := BitVec.ofNat 32 block, errCode := BitVec.ofNat 4 code })

/-- Engine of the i-th block of a job: runs of 16 blocks, round robin (R268). -/
def blockEngine (es : List Nat) (i : Nat) : Nat := es.getD (i / 16 % Nat.max es.length 1) 0

def engineCol (e : Nat) : Nat := columnKey (e / 8)

/-- A check handover fails at some engines of a step: each counts it against its column, and nothing is committed (R309, R310); none where they are
no engines of the step. (DEDUCED, unsafe: log entry 64.) -/
def packHandover (s : State) (j : Job) (st : PlanStep) (bad : List Nat) : Option State :=
  let es := (dedupNat bad).filter (namedEngines j.plan j.pos st).contains
  if es.isEmpty then none
  else some (setResult (es.foldl (fun t e => stickySet (count t (engineCol e) 4 1) (engineCol e) 9) s) j (.step st.index) { ActResult.ok with status := 0x0401 })

/-! ### PACK (R275 to R282) -/

/-- A block as it would be stored: coded payload and flags, or none when only raw fits. -/
def codeBlock (h : RegionHdr) (codes : List (Nat × Nat)) (bs : List Byte) : Option (List Byte × Packed × Bool) :=
  let p := packBlock (2 ^ h.ewLog2) bs
  let (body, huff) := match huffEncode codes p.stream with
    | some c => if c.length < p.stream.length then (c, true) else (p.stream, false)
    | none => (p.stream, false)
  let payload := leBytes 8 p.ref ++ body
  if 16 + payload.length ≤ slotLen h.ratio then some (payload, p, huff) else none

/-- Elements from their values. -/
def undelta (ew : Nat) : Nat → List Nat → List Nat
  | _, [] => []
  | x, v :: vs =>
    let d : Int := if v % 2 = 0 then (v / 2 : Nat) else -((v / 2 : Nat) : Int) - 1
    let y := wrapInt (8 * ew) ((x : Int) + d)
    y :: undelta ew y vs

/-- Decode a coded slot to its bytes (R272, R273). -/
def decodeSlot (h : RegionHdr) (codes : List (Nat × Nat)) (b : List Byte) : Option (List Byte) :=
  let ew := 2 ^ h.ewLog2
  let len := fieldN b 4 2
  let n := len / ew
  let w := byteAt b 0xA
  let p := ceilDiv (n * w) 8
  let payload := slice b 16 (fieldN b 6 2)
  let body := payload.drop 8
  let stream := if bit (byteAt b 8) 3 then
      match huffDecode codes (byteBits body) p 0 0 with
      | some (bs, used) => if ceilDiv used 8 = body.length then some bs else none
      | none => none
    else if body.length = p then some body else none
  stream.bind (fun bs =>
    let vs := (List.range n).map (fun i => bitsAt bs (i * w) w)
    let r := fieldN payload 0 8
    let xs := if byteAt b 9 = 1 then vs.map (fun v => (r + v) % 2 ^ (8 * ew)) else undelta ew r vs
    let out := xs.flatMap (leBytes ew)
    if out.length = len then some out else none)

/-- What a PACK job has done so far. -/
structure PackAcc where
  st : State
  next : Nat
  used : Nat
  raw : Nat
  written : Nat
  mismatch : Bool
  full : Bool
  writes : List (Nat × List Byte)

/-- A coded slot: header, payload, zeros. -/
def codedSlot (h : RegionHdr) (crc len : Nat) (c : List Byte × Packed × Bool) : List Byte :=
  slice (slotHeader crc len c.1.length (8 * boolNat c.2.2) c.2.1.transform c.2.1.bits 0xFFFFFFFF ++ c.1) 0 (slotLen h.ratio)

/-- The engine's decoding of a coded slot differs from the original: by its code table, or by an error of the engine (R276). -/
def selfCheckFails (h : RegionHdr) (codes : List (Nat × Nat)) (bad : Bool) (bs slot : List Byte) : Bool := bad || decodeSlot h codes slot != some bs

/-- Commit one block (R275, R276). (DEDUCED, unsafe: log entry 64.) -/
def packOne (base : Nat) (h : RegionHdr) (codes : List (Nat × Nat)) (es bad : List Nat) (first : Nat) (a : PackAcc) (bs : List Byte) : PackAcc :=
  if a.full then a
  else
    let b := a.next
    let e := blockEngine es (b - first)
    let sz := slotLen h.ratio
    let crc := (crc32c bs).toNat
    let coded := (codeBlock h codes bs).map (codedSlot h crc bs.length)
    let failed := coded.any (selfCheckFails h codes (bad.contains b) bs)
    match (if failed then none else coded) with
    | some slot => { a with next := b + 1, written := a.written + sz, writes := a.writes ++ [(regionSlot base h b, slot)] }
    | none =>
      let s1 := if failed then crucibleErr (stickySet (count a.st (engineCol e) 30 1) (engineCol e) 14) e 3 b else a.st
      if h.ovfEntries + h.extEntries ≤ a.used then { a with st := s1, mismatch := a.mismatch || failed, full := true }
      else
        let hd := slotHeader crc bs.length 0 (1 + 2 * boolNat failed) 0 0 a.used
        { a with st := count s1 (engineCol e) 29 1, next := b + 1, used := a.used + 1, raw := a.raw + 1, written := a.written + sz + 4096,
                 mismatch := a.mismatch || failed,
                 writes := a.writes ++ [(regionSlot base h b, slice hd 0 sz), (ovfAddr base h a.used, slice bs 0 4096)] }

/-- Blocks of an input, 4 KiB each. -/
def inputBlocks : Nat → List Byte → List (List Byte)
  | 0, _ => []
  | n + 1, bs => if bs.isEmpty then [] else bs.take 4096 :: inputBlocks n (bs.drop 4096)

/-- Code and commit the input's bytes from block h.next on, of `total` in all, and write the header (R279, R281, R282). -/
def packBlocks (s : State) (j : Job) (i : Nat) (base : Nat) (h : RegionHdr) (total : Nat) (input : List Byte) (es bad : List Nat) : State :=
  let codes := canonCodes h.lengths
  let first := h.next
  let blocks := inputBlocks (ceilDiv input.length 4096) input
  let a := blocks.foldl (packOne base h codes es bad first)
    { st := s, next := first, used := h.ovfUsed, raw := 0, written := 256, mismatch := false, full := false, writes := [] }
  let done := Nat.min (4096 * a.next) total
  let h' := { h with state := if a.full then 2 else 1, next := a.next, ovfUsed := a.used, bytes := done,
                     token := if a.full then resumeToken h.seq a.next a.used else List.replicate 16 0 }
  let status : BitVec 16 := if a.mismatch && plDet j.plan then 0x0401 else if a.full then 0x0302 else 0
  setResult a.st j (.step i) { ActResult.ok with
    status := status, elems := a.written, block := a.next, writes := a.writes ++ [(base, regionHdrBytes h')],
    words := [done - Nat.min (4096 * first) total, a.written, a.raw + (if a.full then 10 * 2 ^ 56 else 0)] }

/-- Footprint of the input read from a block on; an uncorrectable word ends the step with UE_DATA at the engine of its block. -/
def packInput (s : State) (j : Job) (i : Nat) (ds : List Byte) (first : Nat) (es : List Nat) (f : State → List Byte → State) : State :=
  let r := memRead s (dsBase ds + 4096 * first) (footprint ds - 4096 * first)
  match r.bad with
  | some a =>
    let b := (a - dsBase ds) / 4096
    setResult (crucibleErr r.st (blockEngine es (b - first)) 1 b) j (.step i) { ActResult.ok with status := 0x0400 }
  | none => f r.st r.bytes

/-- Weights of the dynamic table: the packed bytes of every block (R274). -/
def inputHistogram (ew : Nat) (input : List Byte) : List Nat :=
  histogram ((inputBlocks (ceilDiv input.length 4096) input).flatMap (fun b => (packBlock ew b).stream))

/-- R279. -/
def packNewWork (s : State) (j : Job) (st : PlanStep) (bad : List Nat) : State :=
  let pb := stepParams j.plan j.pos st
  let es := namedEngines j.plan j.pos st
  let din := opDesc j st 0
  let base := dsBase (opDesc j st 1)
  packInput s j st.index din 0 es (fun t input =>
    let ew := packWidth din
    let tab := byteAt pb 0x32
    let h : RegionHdr := { ratio := byteAt pb 0x31, ewLog2 := Nat.log2 ew, table := tab, state := 1, seq := 1, bytes := 0, nblocks := fieldN pb 0x34 4,
                           next := 0, ovfEntries := fieldN pb 0x38 4, ovfUsed := 0, extBase := 0, extEntries := 0, token := [],
                           lengths := if 128 ≤ tab then codeLengths (inputHistogram ew input) else staticLengths (tab % 16) }
    packBlocks t j st.index base h (footprint din) input es bad)

/-- A step that ends with LAST_ERR CODE HEADER, nothing written (R283). (DEDUCED, unsafe: log entry 64.) -/
def headerError (s : State) (j : Job) (i : Nat) (es : List Nat) : State :=
  setResult (crucibleErr s (es.headD 0) 4 0) j (.step i) { ActResult.ok with status := 0x0400 }

/-- The region header, read at the start of the occupancy; a UE in it ends the step. -/
def withHeader (s : State) (j : Job) (i base : Nat) (es : List Nat) (f : State → List Byte → State) : State :=
  let r := memRead s base 256
  match r.bad with
  | some _ => setResult (crucibleErr r.st (es.headD 0) 1 0) j (.step i) { ActResult.ok with status := 0x0400 }
  | none => if regionOk r.bytes then f r.st r.bytes else headerError r.st j i es

/-- Operand 2, where the step has one: base and entries of the extension. -/
def extOperand (j : Job) (st : PlanStep) : Option (Nat × Nat) :=
  if 3 ≤ st.noper then some (dsBase (opDesc j st 2), dsShape (opDesc j st 2) 0 / 4096) else none

/-- Operand 2 is present while the header names an extension with another base or size (R283). -/
def extDiffers (h : RegionHdr) (ext : Option (Nat × Nat)) : Bool :=
  ext.any (fun e => (h.extBase != 0 || h.extEntries != 0) && e != (h.extBase, h.extEntries))

/-- R282. -/
def packResumeWork (s : State) (j : Job) (st : PlanStep) (bad : List Nat) : State :=
  let pb := stepParams j.plan j.pos st
  let es := namedEngines j.plan j.pos st
  let base := dsBase (opDesc j st 1)
  withHeader s j st.index base es (fun t hb =>
    let h := parseRegion hb
    let tok := slice pb 0x50 16
    let ext := extOperand j st
    let (eb, en) := ext.getD (h.extBase, h.extEntries)
    if h.nblocks != fieldN pb 0x34 4 || h.ovfEntries != fieldN pb 0x38 4 || h.ratio != byteAt pb 0x31 ||
        (crc32c (slice tok 0 12)).toNat != fieldN tok 12 4 || decide (h.nblocks < fieldN tok 4 4) ||
        decide (h.ovfEntries + en < fieldN tok 8 4) || extDiffers h ext then
      headerError t j st.index es
    else
      packInput t j st.index (opDesc j st 0) (fieldN tok 4 4) es (fun t2 input =>
        packBlocks t2 j st.index base { h with
          seq := fieldN tok 0 4 + 1, next := fieldN tok 4 4, ovfUsed := fieldN tok 8 4, extBase := eb, extEntries := en } (footprint (opDesc j st 0)) input es bad))

def packServe (s : State) (step mode : Nat) (mismatch : List Nat) (work : State → Job → PlanStep → State) : State :=
  match servedStep s step 0 0x11 with
  | none => s
  | some (j, st) =>
    if byteAt (stepParams j.plan j.pos st) 0x30 ≠ mode then s else (packHandover s j st mismatch).getD (work (clearBad s) j st)

/-- R279. -/
def execPackNew (step : Nat) (selfCheckBad mismatch : List Nat) (s : State) : Host.Outcome State Fault Refusal :=
  .next (packServe s step 0 mismatch (fun t j st => packNewWork t j st selfCheckBad))

/-- R282. (DEDUCED, unsafe: log entry 64.) -/
def execPackResume (step : Nat) (selfCheckBad mismatch : List Nat) (s : State) : Host.Outcome State Fault Refusal :=
  .next (packServe s step 1 mismatch (fun t j st => packResumeWork t j st selfCheckBad))

/-! ### UNPACK (R277, R283, R284) -/

/-- A slot header that meets R271. -/
def slotOk (h : RegionHdr) (b : List Byte) : Bool :=
  let len := fieldN b 4 2
  let fl := byteAt b 8
  decide (1 ≤ len ∧ len ≤ 4096) && byteAt b 0xB == 0 && !bit fl 2 && decide (fl < 16) &&
    (if bit fl 0 then fieldN b 6 2 == 0 && !bit fl 3 && byteAt b 9 == 0 && byteAt b 0xA == 0
     else !bit fl 1 && (byteAt b 9 == 1 || byteAt b 9 == 2) && decide (byteAt b 0xA ≤ 64) && fieldN b 0xC 4 == 0xFFFFFFFF &&
       decide (8 ≤ fieldN b 6 2 ∧ 16 + fieldN b 6 2 ≤ slotLen h.ratio))

/-- What an UNPACK job has done so far. -/
structure UnpackAcc where
  st : State
  ue : Bool
  crc : Bool
  beyond : Nat
  written : Nat
  writes : List (Nat × List Byte)

/-- A CRC mismatch of a block (R277). -/
def unpackBad (a : UnpackAcc) (e b : Nat) : UnpackAcc :=
  let c := engineCol e
  { a with st := crucibleErr (stickySet (count (count a.st c 4 1) c 31 1) c 9) e 2 b, crc := true }

/-- Read one block. -/
def unpackOne (base out : Nat) (h : RegionHdr) (codes : List (Nat × Nat)) (es : List Nat) (first : Nat) (a : UnpackAcc) (i : Nat) : UnpackAcc :=
  let b := first + i
  let e := blockEngine es i
  if h.next ≤ b then
    { a with beyond := a.beyond + 1, written := a.written + 4096, writes := a.writes ++ [(out + 4096 * i, List.replicate 4096 0)] }
  else
    let r := memRead a.st (regionSlot base h b) (slotLen h.ratio)
    let a1 := { a with st := r.st }
    if r.bad.isSome then { a1 with st := crucibleErr r.st e 1 b, ue := true }
    else if !slotOk h r.bytes then unpackBad a1 e b
    else
      let len := fieldN r.bytes 4 2
      let put (x : UnpackAcc) (bs : List Byte) : UnpackAcc :=
        if (crc32c bs).toNat = fieldN r.bytes 0 4 then
          { x with written := x.written + 4096, writes := x.writes ++ [(out + 4096 * i, slice bs 0 4096)] }
        else unpackBad x e b
      if bit (byteAt r.bytes 8) 0 then
        let k := fieldN r.bytes 0xC 4
        if h.ovfUsed ≤ k then unpackBad a1 e b
        else
          let r2 := memRead a1.st (ovfAddr base h k) len
          if r2.bad.isSome then { a1 with st := crucibleErr r2.st e 1 b, ue := true } else put { a1 with st := r2.st } r2.bytes
      else match decodeSlot h codes r.bytes with
        | some bs => put a1 bs
        | none => unpackBad a1 e b

/-- Some block read lies in an extension entry, by its slot header as the engine reads it. -/
def meetsExtension (s : State) (base : Nat) (h : RegionHdr) (first n : Nat) : Bool :=
  (List.range n).any (fun i =>
    let b := (memRead s (regionSlot base h (first + i)) 16).bytes
    decide (first + i < h.next) && bit (byteAt b 8) 0 && decide (h.ovfEntries ≤ fieldN b 0xC 4 ∧ fieldN b 0xC 4 < h.ovfUsed))

def unpackWork (s : State) (j : Job) (st : PlanStep) : State :=
  let pb := stepParams j.plan j.pos st
  let es := namedEngines j.plan j.pos st
  let dreg := opDesc j st 0
  let base := dsBase dreg
  let first := fieldN pb 0x30 4
  let n := fieldN pb 0x34 4
  withHeader s j st.index base es (fun t hb =>
    let h := parseRegion hb
    let ext := extOperand j st
    if regionSize h != dsShape dreg 0 || extDiffers h ext || (meetsExtension t base h first n && ext != some (h.extBase, h.extEntries)) then headerError t j st.index es
    else
      let a := (List.range n).foldl (unpackOne base (dsBase (opDesc j st 1)) h (canonCodes h.lengths) es first)
        { st := t, ue := false, crc := false, beyond := 0, written := 0, writes := [] }
      setResult a.st j (.step st.index) { ActResult.ok with
        status := if a.ue then 0x0400 else if a.crc then 0x0401 else 0, elems := a.written, words := [n, a.written, a.beyond], writes := a.writes })

/-- R284. -/
def execUnpack (step : Nat) (mismatch : List Nat) (s : State) : Host.Outcome State Fault Refusal :=
  .next (match servedStep s step 0 0x12 with
    | none => s
    | some (j, st) => (packHandover s j st mismatch).getD (unpackWork (clearBad s) j st))

/-- R293: the plan leaves the columns it names to refresh; it changes nothing else. -/
def execRefreshWindow (step : Nat) (s : State) : Host.Outcome State Fault Refusal :=
  .next (match servedStep s step 2 0 with
    | none => s
    | some (j, st) => setResult s j (.step st.index) ActResult.ok)

end Sys2Proof.Machine
end

