-- ==== Sys2Proof/Machine/Activity.lean ====
section
/-!
DEFINITION. The end of an activity's occupancy (R111, R127, R128, R231, R240, R264, R378): its results become visible.
-/
namespace Sys2Proof.Machine

/-- A step completion record (R128). -/
def stepRecord (st : PlanStep) (r : ActResult) : List Byte :=
  leBytes 2 r.status.toNat ++ leBytes 1 st.opcode ++ leBytes 1 0 ++ leBytes 4 r.used ++
    recordTail { step := st.index, status := r.status, elems := r.elems, saturated := r.saturated, nans := r.nans, special := r.special, words := r.words }

/-- Deal n events of a step to counter c of its cores: which core met each is not stated, so each core but the last takes a free share. (DEDUCED, unsafe: log entry 48.) -/
def dealCount (s : State) (c : Nat) : Nat → List Nat → State
  | _, [] => s
  | n, [k] => countIf s k c n
  | n, k :: ks =>
    if n = 0 then s
    else
      let share := (Config.freeWord s.free).toNat % (n + 1)
      dealCount (countIf { s with free := s.free + 1 } k c share) c (n - share) ks

/-- A step's counters: every core that took part counts the step; saturations and NaN conversions count on the cores that made them (R109): those of
a core's own window on that core. (DEDUCED, unsafe: log entry 48.) -/
def noteCores (s : State) (st : PlanStep) (r : ActResult) : State :=
  if !isArray st then s
  else
    let cs := scopeCores s st.scope
    let s1 := forKeys s cs (fun t k => count t k 16 1)
    let s2 := r.coreSat.foldl (fun t x => countIf (countIf t x.1 17 x.2.1) x.1 18 x.2.2) s1
    dealCount (dealCount s2 17 (r.saturated - sumNat (r.coreSat.map (·.2.1))) cs) 18 (r.nans - sumNat (r.coreSat.map (·.2.2))) cs

/-- Table and version that a TONGS step binds. -/
def updatedVersion (s : State) (j : Job) (a : Activity) (st : PlanStep) : Option (EmbTable × TableVersion) :=
  let pb := stepParams j.plan j.pos st
  (embTable s (emTable pb)).bind (fun t => (boundVersion t (emVersion pb) a.start).map (fun v => (t, v)))

/-- The log entry of a migrating row that the update wrote goes to the new owner (R240). -/
def logRow (s : State) (t : EmbTable) (v : TableVersion) (g : Migration) (r : ActResult) (i : Nat) : State :=
  let a := g.old.getD i 0
  if r.writes.any (fun w => decide (a ≤ w.1 ∧ w.1 < a + slotBytes t.body)) then sendImage s t v g i else s

def logMigration (s : State) (t : EmbTable) (v : TableVersion) (r : ActResult) : State :=
  match v.migration with
  | none => s
  | some g => if g.src = groupPos s t.group ∧ g.endSent = false then (List.range g.rows.length).foldl (fun u i => logRow u t v g r i) s else s

/-- GEN increases by 1 at the end of an EMB_UPDATE of the version (R231). -/
def advanceGen (s : State) (j : Job) (a : Activity) (st : PlanStep) (r : ActResult) : State :=
  if st.kind = 0 ∧ st.opcode = 0x0F then
    match updatedVersion s j a st with
    | some (t, v) => versionMod (logMigration s t v r) t.id v.number (fun v => { v with gen := v.gen + 1 })
    | none => s
  else s

/-- The forwarded records of a TONGS step leave with it (R240). -/
def dropForwarded (s : State) (j : Job) (a : Activity) (st : PlanStep) : State :=
  if classOf st = .tongs then
    match updatedVersion s j a st with
    | some (t, v) => takeForwarded s { table := t, version := v, issue := a.start, cap := 0 }
    | none => s
  else s

/-- A status other than OK, OP_SHORT and OP_ACC_RANGE ends the plan (R127). -/
def endsPlan (st : BitVec 16) : Bool := !(st == 0 || st == 0x0303 || st == 0x0304)

/-- Hardy tables whose last user ends with the step are no longer live (R162). -/
def freeTables (s : State) (j : Job) (st : PlanStep) : State :=
  if st.kind = 1 ∨ isHardyOp st then
    (scopeDies s st.scope).foldl (fun t d => hardyMod t d (fun u =>
      { u with tables := u.tables.filter (fun x => decide (stepEnd st < tableEnd j.plan j.pos (stepAt j.plan x.loadStep))) })) s
  else s

/-- The end of a step. -/
def endStep (s : State) (j : Job) (a : Activity) (i : Nat) (r : ActResult) : State :=
  let st := stepAt j.plan i
  let s1 := noteCores s st r
  let rep : StepReport := { step := i, status := r.status, elems := r.elems, saturated := r.saturated, nans := r.nans, special := r.special, words := r.words }
  let s2 := if stepRecords st then
      setJob (memWrite s1 (plResultBase j.plan + 64 * i) (stepRecord st r)) j.num (fun j => { j with results := sparsePut i rep j.results })
    else s1
  let s3 := freeTables (dropForwarded (advanceGen s2 j a st r) j a st) j st
  if endsPlan r.status then
    sendTo (stopJob s3 j.num { boundary := (heatOf (a.last + 1) + 2) * 4096, status := r.status, step := BitVec.ofNat 32 i }) j.members 3
      (.planEnd j.num r.status i a.last)
  else s3

/-- The end of a stream repeat: its completion entry (R264). -/
def endStream (s : State) (j : Job) (record rep : Nat) (r : ActResult) : State :=
  let h := streamHdr j.plan j.pos record
  let st := (streamStacks h).headD 0
  if strCompl h = 0xFF then s
  else postCompl s st (strCompl h) (complEntry s record rep r.status.toNat (r.words.getD 2 0) r.block (r.words.getD 0 0))

/-! ### Rows held through heavy broadcast (R151, R152) -/

/-- Where the transfers of a repeat put or take their bytes: place among the sequential bytes from address a, memory address, length. -/
def xferPlaces : Nat → List Xfer → List (Nat × Nat × Nat)
  | _, [] => []
  | a, x :: xs => let (pre, m, n) := x.inside; (a + pre, m, n) :: xferPlaces (a + x.len) xs

/-- What is left of a heavy set when n bytes from address a are overwritten. -/
def HeavySet.without (h : HeavySet) (a n : Nat) : List HeavySet :=
  if !h.meets a n then [h]
  else
    let stop := h.place + h.len
    (if h.place < a then [{ h with len := a - h.place }] else []) ++ (if a + n < stop then [{ h with place := a + n, len := stop - (a + n) }] else [])

/-- The heavy sets that a copy of n bytes from address a to b brings there. -/
def heavyMoved (s : State) (a b n : Nat) : List HeavySet :=
  (s.eng.heavy.filter (fun h => h.meets a n)).map (fun h =>
    let first := Nat.max a h.place
    { h with place := b + (first - a), len := Nat.min (a + n) (h.place + h.len) - first })

/-- The heavy sets that a FILL, a DRAIN or a SWAGE_COPY carries to where it stores their rows. A permuted copy keeps no order of its rows: all of the
destination takes the keys of the source. -/
def movedSets (s : State) (j : Job) (a : Activity) : List HeavySet :=
  if s.eng.heavy.isEmpty then []
  else match a.ref with
    | .stream rec' rep =>
      let h := streamHdr j.plan j.pos rec'
      if 1 < strKind h then []
      else (rankedCores s h).flatMap (fun x =>
        (xferPlaces (windowBase x.2 + slotBase j.plan (strSlot h) (repeatSet h rep)) (streamXfers j.plan j.pos rec' rep x.1)).flatMap (fun m =>
          if strKind h = 0 then heavyMoved s m.2.1 m.1 m.2.2 else heavyMoved s m.1 m.2.1 m.2.2))
    | .step i =>
      let st := stepAt j.plan i
      if st.kind = 0 ∧ st.opcode = 0x10 then
        let w := swJob j st
        (swWindows s w).flatMap (fun x =>
          (s.eng.heavy.filter (fun h => h.meets (x.1 + dsBase w.src) (footprint w.src))).map (fun h =>
            { h with place := x.2 + dsBase w.dst, len := footprint w.dst }))
      else []

/-- The heavy sets after a result is stored: what it overwrites is gone, what it carries or tells is there. -/
def landHeavy (s : State) (moved : List HeavySet) (r : ActResult) : State :=
  if s.eng.heavy.isEmpty && r.heavy.isEmpty then s
  else
    let old := r.writes.foldl (fun hs w => hs.flatMap (fun h => h.without w.1 w.2.length)) s.eng.heavy
    { s with eng := { s.eng with heavy := old ++ moved ++ r.heavy } }

/-- What becomes visible at the end of an activity with a result. A store that meets an unmapped word changes nothing there and ends a step with UE_DATA
(R29, R307). -/
def finishActivity (s : State) (j : Job) (a : Activity) (r : ActResult) : State :=
  let off := if a.replay then workOffset s j else offsetAt j a.last s.seq.hold
  let s1 := landHeavy (memWriteAll (clearBad s) r.writes) (movedSets s j a) r
  let r := if s1.mem.badWord.isSome && !endsPlan r.status then { r with status := 0x0400 } else r
  let s2 := r.flows.foldl (fun t x => handFlow t j off x) s1
  let s3 := match a.ref with
    | .step i => endStep s2 j a i r
    | .stream rec' rep => endStream s2 j rec' rep r
  sweepStores (setJob s3 j.num (fun j => { j with
    acts := j.acts.filter (fun b => b.ref != a.ref) }))

/-- R111: the occupancy of an activity whose engines have finished ends. -/
def execActivityOccupancyEnd (r : ActRef) (s : State) : Host.Outcome State Fault Refusal :=
  .next (match runningJob s with
    | none => s
    | some j =>
      match actOf j r with
      | none => s
      | some a =>
        match a.result with
        | some res => if a.last ≤ now s then finishActivity s j a res else s
        | none => s)

end Sys2Proof.Machine
end

