-- ==== Sys2Proof/Machine/Accept.lean ====
section
/-!
DEFINITION. Acceptance of a heat plan, checks 1 to 8 of R122: header, group, epoch, directory, opcodes, step entries, slots, stream
records and descriptors (R83 to R95, R108, R114 to R116, R247 to R253, R373).
-/
namespace Sys2Proof.Machine

/-- The first failure of the checks: status, REASON, SECTION, STEP, and DETAIL where the manual gives one. -/
structure Diag where
  status : BitVec 16
  reason : Nat
  sect : Nat
  step : Nat
  detail : Option Nat
deriving DecidableEq, Repr

/-- (DEDUCED, safe: log entry 30.) -/
def Diag.of (reason : Nat) : Diag := { status := 0x0306, reason := reason, sect := 0xFF, step := 0xFFFFFFFF, detail := none }

/-- A failure with a status of its own. -/
def Diag.status' (st : BitVec 16) : Diag := { Diag.of 0 with status := st }

def Diag.at (d : Diag) (i : Nat) : Diag := { d with step := i }

/-- The failure d unless b holds. (DEDUCED, unsafe: log entry 17.) -/
def require (b : Bool) (d : Diag) : Option Diag := if b then none else some d

/-- Member positions that a plan was built for. -/
def plPositions (p : List Byte) : List Nat := List.range (plMembers p)

/-! ### Checks 1 to 4 -/

/-- Check 1. (DEDUCED, unsafe: log entry 17.) -/
def headerOk (p : List Byte) : Bool :=
  decide (256 ≤ p.length) && plTotal p == p.length && decide (plTotal p ≤ 2 ^ 32) && fieldN p 0 4 == 0x4C504849 && byteAt p 5 == 1 &&
  decide (fieldN p 6 2 < 2) && zeroRange p 0x2E 2 && zeroRange p 0x70 144 && decide (1 ≤ plLength p ∧ plLength p ≤ 2 ^ 40) &&
  decide (1 ≤ plMembers p ∧ plMembers p ≤ 1024) && decide (1 ≤ plLshards p) && decide (1 ≤ plNsect p ∧ plNsect p ≤ 64)

/-- Check 2: GROUP is the request's TARGET and names the device or a group of it (R354). -/
def groupOk (s : State) (p : List Byte) (target : Uid) : Bool :=
  let g := plGroup p
  let lvl := keyLevel g.toNat
  uidShape g.toNat && g == target && ((lvl == 4 && uidDevice g == s.form.device) || (lvl == 5 && (groupOf s g).isSome))

/-- Check 3: MEMBERS and the shard map (R121). -/
def shardsOk (s : State) (p : List Byte) : Bool :=
  plMembers p == (groupMembers s (plGroup p)).length &&
  (match sectionOf p 9 0xFFFF with
   | none => plLshards p == plMembers p
   | some sec =>
     let es := (List.range sec.count).map (fun i => fieldN p (sec.off + 2 * i) 2)
     sec.count == plLshards p && es.all (fun e => decide (e < plMembers p)) && (plPositions p).all (fun m => es.contains m))

/-- Check 4: every unit in service runs REQ_EPOCH, here and on the members whose device unit shows it (R24, R409). -/
def epochsOk (s : State) (p : List Byte) : Bool :=
  let e := plReqEpoch p
  allKeys.all (fun k => isOffline s k || (unitGet s k).page.active.toNat == e) &&
  (groupMembers s (plGroup p)).all (fun d => d == s.form.device || (memberView s d).active.toNat == e)

/-! ### Check 5 (R114, R115) -/

def entrySize (ty : Nat) : Nat :=
  match ty with
  | 1 | 4 => 128
  | 3 | 6 | 8 => 16
  | 7 => 32
  | 9 => 2
  | _ => 1

def maxEntries (ty : Nat) : Nat :=
  match ty with
  | 1 | 7 | 9 => 65535
  | 3 => 16
  | 4 => 16777216
  | _ => 0xFFFFFFFF

def sharedOnly (ty : Nat) : Bool := [3, 4, 7, 8, 9].contains ty

/-- Byte range of a section. -/
def sectRange (x : PlanSection) : Nat × Nat := (x.off, x.count * entrySize x.type)

/-- A directory entry alone, and against those before it. -/
def sectionOk (p : List Byte) (x : PlanSection) : Bool :=
  let dir := (0, 0x100 + 16 * plNsect p)
  let before := (plSections p).take x.index
  decide (1 ≤ x.type ∧ x.type ≤ 9) && (x.member == 0xFFFF || decide (x.member < plMembers p)) &&
  (!sharedOnly x.type || x.member == 0xFFFF) && (x.type != 6 || x.member != 0xFFFF) && decide (x.count ≤ maxEntries x.type) &&
  x.off % 64 == 0 && decide (x.off + x.count * entrySize x.type ≤ plTotal p) && overlapBytes (sectRange x) dir == 0 &&
  before.all (fun y => overlapBytes (sectRange x) (sectRange y) == 0 && !(y.type == x.type && y.member == x.member))

def checkSections (p : List Byte) : Option Diag :=
  match (plSections p).find? (fun x => !sectionOk p x) with
  | some x => some { Diag.of 2 with sect := x.index }
  | none => require (decide (0x100 + 16 * plNsect p ≤ plTotal p) && ((plSections p).filter (fun x => x.type == 4)).length == 1) (Diag.of 2)

/-! ### Checks 6 and 7 -/

/-- Directory index of the section of a type that a member reads; 0xFF without one. (DEDUCED, safe: log entry 30.) -/
def sectIndex (p : List Byte) (ty m : Nat) : Nat := ((sectionOf p ty m).map (·.index)).getD 0xFF

def opcodeOk (st : PlanStep) : Bool := decide (st.kind ≤ 2) && (st.kind != 0 || decide (1 ≤ st.opcode ∧ st.opcode ≤ 0x16))

def checkOpcodes (p : List Byte) : Option Diag :=
  ((planSteps p).find? (fun st => !opcodeOk st)).map (fun st => { Diag.status' 0x0101 with sect := sectIndex p 4 0xFFFF, step := st.index })

/-- Slots (R116): multiples of 64, below the side window, no two sets overlapping. -/
def slotsOk (p : List Byte) : Bool :=
  let n := sectionCount p 3 0xFFFF
  let sets := (List.range n).flatMap (fun j => [(slotBase p j 0, slotSize p j), (slotBase p j 1, slotSize p j)])
  sets.all (fun x => x.1 % 64 == 0 && x.2 % 64 == 0 && decide (x.1 + x.2 ≤ 0x200000)) &&
  (List.range sets.length).all (fun i => (sets.take i).all (fun y => overlapBytes (sets.getD i (0, 0)) y == 0))

/-- The step uses column sets with the prefix of R135. (DEDUCED, unsafe: log entry 33.) -/
def usesPrefix (st : PlanStep) : Bool := st.kind == 0 && !([0x10, 0x11, 0x12].contains st.opcode)

/-- Descriptors of operand i of a step for member m: a column set, or one. -/
def setCount (p : List Byte) (m : Nat) (st : PlanStep) (i : Nat) : Nat :=
  if usesPrefix st then Nat.max 1 (parCols (stepParams p m st) i) else 1

def operDescs (p : List Byte) (m : Nat) (st : PlanStep) (i : Nat) : List (List Byte) :=
  (List.range (setCount p m st i)).map (fun c => descBytes p m (operDesc (st.opers.getD i 0) + c))

/-- Bytes that a descriptor's arrays occupy, as (base, length): the footprint, the bitmap, the scale array, the heap (R86, R88, R89). -/
def descRanges (b : List Byte) : List (Nat × Nat) :=
  (dsBase b, footprint b) ::
    ((if dsValidity b then [(dsAux0 b, ceilDiv (dsShape b 0) 64 * 8)] else []) ++
     (if isMx (dsType b) then
        [(dsAux0 b, (List.range (dsNdim b - 1)).foldl (fun v d => v * dsShape b d) 1 * ceilDiv (dsShape b (dsNdim b - 1)) 32)] else []) ++
     (if dsHeap b then [(dsAux1 b, dsHeapBytes b)] else []))

/-- Operand word i of a step for member m: reserved bits, ACTL, indices, slot and the room in it. (DEDUCED, unsafe: log entry 17.) -/
def operandOk (p : List Byte) (m : Nat) (st : PlanStep) (i : Nat) : Bool :=
  let w := st.opers.getD i 0
  let a := operActl w
  let n := sectionCount p 1 m
  bits w 62 56 == 0 && bits w 39 33 == 0 &&
  (if operOut w then !bit a 7 && !bit a 0 && decide (bits a 6 4 ≤ 4) else a == 0) &&
  decide (operDesc w + setCount p m st i ≤ n) && (operDist w == 0xFFFF || decide (operDist w < n)) &&
  (operSlot w == 0xFF ||
    (decide (operSlot w < sectionCount p 3 0xFFFF) &&
      decide (sumNat ((operDescs p m st i).map (fun b => sumNat ((descRanges b).map (·.2)))) ≤ slotSize p (operSlot w))))

/-- A UID names a unit within each member: DEVICE zero, level at most 4. -/
def scopeShape (u : Nat) : Bool := uidShape u && decide (keyLevel u ≤ 4) && u / 2 ^ 16 % 4096 == 0

/-- The descriptor indices of a Swage job (R95). (DEDUCED, unsafe: log entry 31.) -/
def swageIndicesOk (p : List Byte) (m : Nat) (st : PlanStep) : Bool :=
  !(st.kind == 0 && st.opcode == 0x10) ||
    (let pb := stepParams p m st
     decide (fieldN pb 8 4 < sectionCount p 1 m) && decide (fieldN pb 0xC 4 < sectionCount p 1 m))

/-- Check 7 of one step, after the step before it. (DEDUCED, unsafe: log entry 17.) (DEDUCED, unsafe: log entry 31.) -/
def stepEntryOk (p : List Byte) (st : PlanStep) : Bool :=
  decide ((if st.index = 0 then 0 else (stepAt p (st.index - 1)).offset) ≤ st.offset) && decide (st.offset < plLength p) &&
  decide (1 ≤ st.budget) && decide (st.offset + st.budget ≤ plLength p) && scopeShape st.scope && decide (st.noper ≤ 8) &&
  (st.kind != 1 || st.opcode == 0) &&
  (List.range 8).all (fun i => decide (i < st.noper) || st.opers.getD i 0 == 0) &&
  (plPositions p).all (fun m =>
    (st.paramLen == 0 || decide (st.paramOff + st.paramLen ≤ sectionCount p 2 m)) &&
    (List.range st.noper).all (operandOk p m st) && swageIndicesOk p m st)

/-! ### Stream records (R247 to R253) -/

/-- The header of a record (R247, R249), and the combinations of KIND and FORM (R248). -/
def streamHdrOk (p h : List Byte) : Bool :=
  let k := strKind h
  let f := strForm h
  let n := strNentry h
  let cores := decide (k ≤ 1)
  let flow := k == 2 || k == 3
  decide (k ≤ 4) && decide (f ≤ 2) &&
  (if cores then decide (f ≤ 1) else if k = 2 then decide (f ≤ 1) else if k = 3 then f == 1 else f == 1 || f == 2) &&
  fieldN h 0 4 == (if f = 2 then 64 else 64 + 16 * n) &&
  (if cores then decide (strSlot h < sectionCount p 3 0xFFFF) && decide (strSlot h < 16) else strSlot h == 0xFF) &&
  decide (1 ≤ strBudget h) && decide (1 ≤ strRepeat h ∧ strRepeat h ≤ 16777216) && (!flow || strRepeat h == 1) &&
  (if 1 < strRepeat h then decide (strBudget h ≤ strPeriod h) else strPeriod h == 0) &&
  decide (strStart h (strRepeat h - 1) + strBudget h ≤ plLength p) &&
  scopeShape (strScope h) && (cores || keyLevel (strScope h) == 2) &&
  (if f = 0 then decide (4 ≤ n ∧ n ≤ 16) else if f = 1 then decide (1 ≤ n ∧ n ≤ 65536) else decide (1 ≤ n ∧ n ≤ 4096)) &&
  (f != 2 || strRepStride h == 0) && (cores || strCoreStride h == 0) &&
  (if f = 2 then decide (strRing h < 128) else strRing h == 0) &&
  (if k = 4 then decide (512 ≤ strQp h ∧ strQp h ≤ 4607) else strQp h == 0) &&
  (strCompl h == 0xFF || decide (1 ≤ strCompl h ∧ strCompl h ≤ 15))

/-- One instruction of a program, given the one before it. -/
def programInsOk (prev b : List Byte) : Bool :=
  match byteAt b 0 with
  | 3 => decide (1 ≤ fieldN b 4 4)
  | 4 => decide (1 ≤ fieldN b 8 8 ∧ fieldN b 8 8 ≤ 2 ^ 48) && byteAt prev 0 == 3 && decide (0 ≤ sint 64 (fieldN prev 8 8))
  | 5 => decide (1 ≤ fieldN b 4 4 ∧ fieldN b 4 4 ≤ 65536)
  | 6 | 7 => true
  | _ => false

/-- Loops nest properly, at most 6 deep: the depth after each instruction. -/
def nestOk : Nat → List (List Byte) → Bool
  | d, [] => d == 0
  | d, b :: bs =>
    if byteAt b 0 = 3 then decide (d < 6) && nestOk (d + 1) bs
    else if byteAt b 0 = 7 then decide (0 < d) && nestOk (d - 1) bs
    else nestOk d bs

/-- R251. (DEDUCED, unsafe: log entry 34.) -/
def programOk (es : List (List Byte)) : Bool :=
  let body := (es.drop 2).dropLast
  let bound := es.getD 1 []
  byteAt (es.headD []) 0 == 1 && byteAt bound 0 == 2 && decide (fieldN bound 2 6 < fieldN bound 8 8) &&
  byteAt (es.getLastD []) 0 == 8 && (List.range body.length).all (fun i => programInsOk (if i = 0 then [] else body.getD (i - 1) []) (body.getD i [])) &&
  body.any (fun b => byteAt b 0 == 5) && nestOk 0 body

/-- Block-list entries (R253). -/
def blockListOk (es : List (List Byte)) : Bool := es.all (fun e => decide (1 ≤ fieldN e 8 4 ∧ fieldN e 8 4 ≤ 65536))

/-- The range lies in one region of memory (R29, R250). (DEDUCED, unsafe: log entry 34.) -/
def inOneRegion (s : State) (a : Int) (n : Nat) : Bool :=
  decide (0 ≤ a) && rangeOk s isMemory a.toNat n

/-- Ranks of the cores a record serves; 0 alone for a record of one engine. -/
def streamRanks (s : State) (h : List Byte) : List Nat :=
  if strKind h ≤ 1 then (rankedCores s h).map (·.1) else [0]

/-- Region of the address map that holds an address: near tier, populated far tier, scratchpads. -/
def mapRegion (s : State) (a : Int) : Option Nat :=
  if a < 0 then none
  else
    let n := a.toNat
    if n < 2 ^ 40 then some 0
    else if farBase ≤ n ∧ n < farBase + s.form.farGib * 2 ^ 30 then some 1
    else if scratchBase ≤ n ∧ n < scratchBase + 2 ^ 34 then some 2
    else none

/-- Memory sides of every repeat and core (R250): a program's bytes, those outside its bound too, and its bound lie in one region (R251).
INGEST writes the near and far tiers only (R248). -/
def streamMemoryOk (s : State) (p : List Byte) (m r : Nat) : Bool :=
  let h := streamHdr p m r
  if strForm h = 0 then
    let b := (streamEntries p m r).getD 1 []
    let q := mapRegion s (fieldN b 2 6)
    q.isSome && mapRegion s (fieldN b 8 8 - 1) == q &&
    (List.range (strRepeat h)).all (fun j => (streamRanks s h).all (fun k => (streamXfers p m r j k).all (fun x =>
      inOneRegion s x.addr x.len && mapRegion s x.addr == q && mapRegion s (x.addr + x.len - 1) == q)))
  else if strForm h = 1 then
    (List.range (strRepeat h)).all (fun j => (streamRanks s h).all (fun k => (streamXfers p m r j k).all (fun x =>
      x.skip || (if strKind h = 4 then decide (0 ≤ x.addr) && rangeOk s isTier x.addr.toNat x.len else inOneRegion s x.addr x.len))))
  else true

/-- Sequential bytes of one repeat in one core. -/
def streamTotal (p : List Byte) (m r : Nat) : Nat := totalLen (streamXfers p m r 0 0)

/-- A record of member m (R250). -/
def streamOk (s : State) (p : List Byte) (m : Nat) (sec : PlanSection) (r : Nat) : Bool :=
  let h := streamHdr p m r
  let es := streamEntries p m r
  streamHdrOk p h && decide (r + fieldN h 0 4 ≤ sec.count) &&
  zeroRange p (sec.off + r + fieldN h 0 4) (Nat.min (roundUp (fieldN h 0 4) 64 - fieldN h 0 4) (sec.count - r - fieldN h 0 4)) &&
  (if strForm h = 0 then programOk es else strForm h == 2 || blockListOk es) &&
  (!decide (strKind h ≤ 1) || decide (streamTotal p m r ≤ slotSize p (strSlot h))) && streamMemoryOk s p m r

/-- The STREAMS section that member m reads: records, and zeros between them. -/
def streamsOk (s : State) (p : List Byte) (m : Nat) : Bool :=
  match sectionOf p 5 m with
  | none => true
  | some sec =>
    let names := streamNames p m
    let ends := names.map (fun r => (r, roundUp (fieldN (streamHdr p m r) 0 4) 64))
    (List.range (ceilDiv sec.count 64)).all (fun q =>
      ends.any (fun e => decide (e.1 ≤ 64 * q ∧ 64 * q < e.1 + e.2)) || zeroRange p (sec.off + 64 * q) (Nat.min 64 (sec.count - 64 * q))) &&
    names.all (streamOk s p m sec)

/-- Check 7. -/
def checkEntries (s : State) (p : List Byte) : Option Diag :=
  let d : Diag := Diag.of 2
  if !slotsOk p then some { d with sect := sectIndex p 3 0xFFFF }
  else match (planSteps p).find? (fun st => !stepEntryOk p st) with
    | some st => some { d with sect := sectIndex p 4 0xFFFF, step := st.index }
    | none => match (plPositions p).find? (fun m => !streamsOk s p m) with
      | some m => some { d with sect := sectIndex p 5 m }
      | none => none

/-! ### Check 8: descriptors (R84, R88, R89, R91, R95, R108, R373) -/

def isPerm6 (v : Nat) : Bool := (List.range 6).all (fun d => (List.range 6).any (fun j => orderAt v j == d))

/-- Limit of a tier's region: first address, and one past the last (R28). (DEDUCED, unsafe: log entry 34.) -/
def tierRange (s : State) (t : Nat) : Nat × Nat :=
  match t with
  | 0 => (0, 2 ^ 40)
  | 1 => (farBase, farBase + s.form.farGib * 2 ^ 30)
  | _ => (0, 0x240000)

/-- Reserved parts of the side window (R108), as (first, length). -/
def reservedSide (s : State) : List (Nat × Nat) :=
  [(0x200000, 1024 * (param s 2 + param s 3)), (0x23C000, 0x4000)]

/-- The Slag region (R372). -/
def slagRange (s : State) : Nat × Nat := (slagBase s, 2 ^ 26)

/-- A layout descriptor. -/
def layoutOk (s : State) (b : List Byte) : Bool :=
  let ty := dsType b
  let n := dsNdim b
  let w := dsWidth b
  let raw (d : Nat) : Nat := fieldN b (0x10 + 8 * d) 8 % 2 ^ 48
  let bare := fieldN b 4 4 % 2 ^ 18 == 0 && dsTile b 0 == 0 && dsTile b 1 == 0 && dsTile b 2 == 0
  let plain := !dsTable b && !isMx ty
  let (lo, hi) := tierRange s (dsTier b)
  byteAt b 0 == 1 && w != 0 && decide (dsTier b ≤ 2) && decide (1 ≤ dsNlevel b ∧ dsNlevel b ≤ 3) && decide (1 ≤ n ∧ n ≤ 6) &&
  (List.range 6).all (fun d => if d < n then raw d != 0 else raw d == 0) &&
  (!plain ||
    ((List.range (dsNlevel b)).all (fun k => isPerm6 (dsTile b k / 2 ^ 24)) &&
      (List.range 3).all (fun k => (List.range 6).all (fun d => decide (d < n) || bits (dsTile b k) (4 * d + 3) (4 * d) == 0)) &&
      isPerm6 (dsGridOrder b) && prod6 (tileExt b 0) * w == 512)) &&
  (!dsTable b || (!isMx ty && n == 2 && raw 1 == 1 && dsNlevel b == 1 && bare && decide (8 ≤ w))) &&
  (!isMx ty || (dsNlevel b == 1 && bare)) &&
  (!dsValidity b || dsTable b) && dsHeap b == isStringTy ty && (!isStringTy ty || dsFill b == 0) &&
  dsBase b % 64 == 0 && (!(dsValidity b || isMx ty) || dsAux0 b % 64 == 0) &&
  (descRanges b).all (fun r => decide (lo ≤ r.1 ∧ r.1 + r.2 ≤ hi) &&
    (if dsTier b = 2 then (reservedSide s).all (fun x => overlapBytes r x == 0) else overlapBytes r (slagRange s) == 0))

/-- A distribution descriptor beside the local descriptors it spreads (R91). -/
def distOk (p t : List Byte) (ds : List (List Byte)) : Bool :=
  let n := dtNdim t
  let raw (d : Nat) : Nat := fieldN t (8 + 8 * d) 8 % 2 ^ 48
  let hashed := (List.range n).any (fun d => dtKind t d == 3)
  byteAt t 0 == 1 && decide (1 ≤ n ∧ n ≤ 6) && fieldN t 4 4 == (plGroup p).toNat &&
  (List.range 6).all (fun d => if d < n then raw d != 0 else raw d == 0) &&
  (List.range n).all (fun d => decide (1 ≤ dtShards t d ∧ dtShards t d ≤ 1024) && (dtKind t d != 0 || dtShards t d == 1) &&
    (if dtKind t d = 2 then dtBlock t d != 0 else dtBlock t d == 0) && (dtKind t d != 3 || d == 0)) &&
  (if hashed then ds.all dsTable && decide (byteAt t 0x6A ≤ 2) else zeroRange t 0x68 3 && fieldN t 0x70 8 == 0) &&
  dtTotal t != 0 && plMembers p % dtTotal t == 0 && ds.all (fun b => dsNdim b == n)

/-- The descriptors of a Swage job (R95); an MX descriptor is valid only as an EMIT output (R89). -/
def swagePairOk (s : State) (src dst : List Byte) : Bool :=
  layoutOk s src && layoutOk s dst && !isMx (dsType src) && dsType src == dsType dst && dsNdim src == dsNdim dst && dsTable src == dsTable dst &&
  (!isStringTy (dsType src) || (dsAux1 src == dsAux1 dst && dsHeapBytes src == dsHeapBytes dst)) && dsOffset src == dsOffset dst &&
  (!dsValidity src || dsValidity dst)

/-- Check 8 of one step on one member: an MX descriptor anywhere but as an EMIT output breaks R89. -/
def stepDescsOk (s : State) (p : List Byte) (st : PlanStep) (m : Nat) : Bool :=
  (List.range st.noper).all (fun i =>
    let ds := operDescs p m st i
    let d := operDist (st.opers.getD i 0)
    ds.all (fun b => layoutOk s b && (!isMx (dsType b) || (st.kind == 0 && st.opcode == 0x14 && i == 1))) && (d == 0xFFFF || distOk p (descBytes p m d) ds)) &&
  (!(st.kind == 0 && st.opcode == 0x10) ||
    (let pb := stepParams p m st
     swagePairOk s (descBytes p m (fieldN pb 8 4)) (descBytes p m (fieldN pb 0xC 4))))

/-- A layout descriptor of member m that no step uses names a byte of the Slag region (R373). A descriptor that a step names as a distribution is none. -/
def spareInSlag (s : State) (p : List Byte) (m : Nat) : Bool :=
  let dists := (planSteps p).flatMap (fun st => (List.range st.noper).map (fun i => operDist (st.opers.getD i 0)))
  (List.range (sectionCount p 1 m)).any (fun i =>
    let b := descBytes p m i
    !dists.contains i && byteAt b 0 == 1 && dsWidth b != 0 && decide (dsTier b < 2 ∧ 1 ≤ dsNdim b ∧ dsNdim b ≤ 6) &&
      (descRanges b).any (fun r => overlapBytes r (slagRange s) != 0))

def checkDescs (s : State) (p : List Byte) : Option Diag :=
  let d : Diag := { Diag.of 3 with sect := sectIndex p 1 0 }
  match (planSteps p).find? (fun st => !(plPositions p).all (stepDescsOk s p st)) with
  | some st => some { d with step := st.index }
  | none => require (!(plPositions p).any (spareInSlag s p)) d

end Sys2Proof.Machine
end

