-- ==== Sys2Proof/Machine/AcceptRows.lean ====
section
/-!
DEFINITION. Acceptance checks 9, 10 and 16 for the row operators: element types, parameter blocks and budgets of SCAN, FILTER, COMPUTE,
HASH, PARTITION, JOIN_BUILD, JOIN_PROBE, DEDUP and EMIT (R57, R64, R133 to R159).
-/
namespace Sys2Proof.Machine

/-! ### Shared parts -/

/-- Number and direction of the operands. -/
def operDirs (st : PlanStep) (outs : List Bool) : Bool :=
  st.noper == outs.length && ((List.range outs.length).zip outs).all (fun (x : Nat × Bool) => operOut (st.opers.getD x.1 0) == x.2)

/-- The first key columns of a set are uint64 without a bitmap (R134). -/
def keyTypesOk (pair : Bool) (ds : List (List Byte)) : Bool :=
  (ds.take (if pair then 2 else 1)).all (fun b => dsType b == 8 && !dsValidity b)

/-- A column copied unchanged keeps its type, its bitmap and its offset. -/
def sameColumn (a b : List Byte) : Bool := dsType a == dsType b && dsOffset a == dsOffset b && (!dsValidity a || dsValidity b)

def sameColumns (as' bs : List (List Byte)) : Bool := (as'.zip bs).all (fun x => sameColumn x.1 x.2)

/-- Columns of a staged operand lie in its slot and set (R133). (DEDUCED, unsafe: log entry 33.) -/
def stagedOk (p : List Byte) (m : Nat) (st : PlanStep) (i : Nat) : Bool :=
  let w := st.opers.getD i 0
  operSlot w == 0xFF ||
    (let base := slotBase p (operSlot w) (operSet w)
     (operDescs p m st i).all (fun b => dsTier b == 2 &&
       (descRanges b).all (fun r => decide (base ≤ r.1 ∧ r.1 + r.2 ≤ base + slotSize p (operSlot w)))))

/-- Operand i is a column set (R133). (DEDUCED, unsafe: log entry 33.) -/
def setShapeOk (p : List Byte) (m : Nat) (st : PlanStep) (i : Nat) : Bool :=
  let pb := stepParams p m st
  let ds := operDescs p m st i
  decide (1 ≤ parCols pb i ∧ parCols pb i ≤ 64) && (!parPair pb i || decide (2 ≤ parCols pb i)) &&
  ds.all (fun b => dsTable b && dsShape b 0 == dsShape (ds.headD []) 0) && stagedOk p m st i

/-- Operand i is one column of a type without a set. -/
def oneColumnOk (p : List Byte) (m : Nat) (st : PlanStep) (i ty : Nat) : Bool :=
  let b := (operDescs p m st i).headD []
  parCols (stepParams p m st) i == 0 && dsTable b && dsType b == ty && stagedOk p m st i

/-- The common prefix (R135): which operands are sets, and whether the operator uses a key. -/
def prefixOk (p : List Byte) (m : Nat) (st : PlanStep) (sets : List Nat) (keyed : Bool) : Bool :=
  let pb := stepParams p m st
  let nk := parNkey pb
  let crc := fieldN pb 0x20 4
  decide (0x30 ≤ st.paramLen) && (List.range 8).all (fun i => if sets.contains i then setShapeOk p m st i else parCols pb i == 0) &&
  (List.range 8).all (fun i => sets.contains i || !parPair pb i) &&
  decide (parFamily pb ≤ 2) && decide (byteAt pb 9 ≤ 1) && decide (nk ≤ 4) &&
  (List.range 4).all (fun j => if j < nk then decide (1 ≤ parKeyCol pb j ∧ parKeyCol pb j < parCols pb 0) else parKeyCol pb j == 0) &&
  (byteAt pb 9 == 0 || fieldN pb 0x18 8 == 0) &&
  (if keyed then decide (1 ≤ nk) && (crc == 0xFFFFFFFF || (crc % 8 == 0 && decide (crc + 2048 ≤ sectionCount p 2 m)))
   else nk == 0 && zeroRange pb 8 2 && zeroRange pb 0x10 0x14)

/-- A range of PARAMS that a block names. (DEDUCED, unsafe: log entry 32.) -/
def paramsHold (p : List Byte) (m off n : Nat) : Bool := n == 0 || decide (off + n ≤ sectionCount p 2 m)

def risingWords (p : List Byte) (m off n : Nat) : Bool :=
  let ws := (List.range n).map (fun i => fieldN (paramBytes p m off (8 * n)) (8 * i) 8)
  paramsHold p m off (8 * n) && strictlyRising ws

/-- Flow table of a step (R149): entry d names the flow from this member to position d. -/
def flowTabOk (p : List Byte) (m off : Nat) : Bool :=
  paramsHold p m off (2 * plMembers p) &&
  (plPositions p).all (fun d =>
    let f := flowTab p m off d
    if d = m then f == 0xFFFF
    else decide (f < sectionCount p 7 0xFFFF) && (flowAt p f).src == m && (flowAt p f).dst == d)

/-- Two hash uses are the same hash (R138): family, table, seeds. -/
def sameHash (p : List Byte) (m : Nat) (a b : List Byte) : Bool :=
  parFamily a == parFamily b && parSeeds p a == parSeeds p b &&
  (List.range 256).all (fun i => (hashUse p m a).table i == (hashUse p m b).table i)

/-- Capacity in rows of a set: SHAPE[0] (R133). (DEDUCED, unsafe: log entry 33.) -/
def planCapacity (p : List Byte) (m : Nat) (st : PlanStep) (i : Nat) : Nat := dsShape ((operDescs p m st i).headD []) 0

/-! ### Types -/

def numericTy (ty : Nat) : Bool := isIntTy ty || isFloatTy ty

/-- Conversions of R64 between element types that are not MX. -/
def castOk (a b : Nat) : Bool :=
  if a = b then typeBits a != 0 && !isMx a && a != 0x40
  else if a = 0x30 then b == 4
  else if b = 0x30 then a == 4
  else if a = 0x31 then b == 7
  else if b = 0x31 then a == 7
  else numericTy a && numericTy b

/-- Types that compare (R71). -/
def ordered (ty : Nat) : Bool := numericTy ty || ty == 0x30 || ty == 0x31

/-- TYPE and operand types of a COMPUTE operation (R146). TYPE of a comparison, ISNULL or TS_DIFF may name its result type or the type compared. (DEDUCED, unsafe: log entry 103.) -/
def insTypeOk (op t : Nat) (ts : List Nat) : Bool :=
  let same := ts.all (· == t)
  let a := ts.getD 0 0
  let b := ts.getD 1 0
  typeBits t != 0 && !isMx t && t != 0x40 &&
  (if [1, 2, 3, 4, 8, 9, 0xA, 0xB].contains op then numericTy t && same
   else if op = 5 ∨ op = 6 then isIntTy t && same
   else if op = 7 ∨ op = 0xC then isFloatTy t && same
   else if op = 0xD then castOk a t
   else if 0x10 ≤ op ∧ op ≤ 0x15 then (t == 5 || t == a) && a == b && (ordered a || isStringTy a)
   else if op = 0x18 then ordered a && b == t && ts.getD 2 0 == t
   else if op = 0x19 then same
   else if op = 0x1A then t == 5 || t == a
   else if op = 0x20 then (t == 4 || t == 0x30) && a == 0x30 && b == 0x30
   else op == 0x21 && t == 0x30 && a == 0x30 && b == 4)

/-- Types of the registers written or read so far, by register; none when an instruction breaks the op table (R145). -/
def progTypes (ncol nconst : Nat) : List CompIns → Sparse Nat → Option (Sparse Nat)
  | [], tys => some tys
  | i :: is, tys =>
    let tys1 := i.reads.foldl (fun t r => if 128 ≤ r ∧ sparseGet 0 r t = 0 then sparsePut r i.ty t else t) tys
    let known (r : Nat) : Bool := if r < 64 then decide (r < ncol) else if r < 128 then sparseGet 0 r tys1 != 0 else decide (r < 128 + nconst)
    let ts := i.reads.map (fun r => sparseGet 0 r tys1)
    let old := sparseGet 0 i.dst tys1
    let new := i.result
    if i.reads.all known && decide (64 ≤ i.dst ∧ i.dst < 128) && (old == 0 || old == new) && insTypeOk i.op i.ty ts then
      progTypes ncol nconst is (sparsePut i.dst new tys1)
    else none

def colTypes (ds : List (List Byte)) : Sparse Nat := (List.range ds.length).zip (ds.map dsType)

def computeProg (pb : List Byte) : List CompIns := (List.range (byteAt pb 0x30)).map (compIns pb)

/-- Register types of a COMPUTE step. -/
def computeTypes (p : List Byte) (m : Nat) (st : PlanStep) : Option (Sparse Nat) :=
  let pb := stepParams p m st
  let ds := operDescs p m st 0
  progTypes ds.length (byteAt pb 0x31) (computeProg pb) (colTypes ds)

/-- Every output column of a COMPUTE step takes a register whose type converts into the column's (R57, R64). A register without a type breaks
check 10. -/
def outmapTypesOk (p : List Byte) (m : Nat) (st : PlanStep) : Bool :=
  let pb := stepParams p m st
  let outs := operDescs p m st 1
  match computeTypes p m st with
  | none => true
  | some tys => ((List.range outs.length).drop (if parPair pb 0 then 2 else 1)).all (fun c =>
      let t := sparseGet 0 (byteAt pb (0x38 + c)) tys
      t == 0 || castOk t (dsType (outs.getD c [])))

/-- A column set given unchanged to a set of the same columns. -/
def likeInput (p : List Byte) (m : Nat) (st : PlanStep) : Bool := sameColumns (operDescs p m st 0) (operDescs p m st 1)

/-- Output columns of SCAN and the input columns they copy. -/
def scanPairs (p : List Byte) (m : Nat) (st : PlanStep) : List (List Byte × List Byte) :=
  let pb := stepParams p m st
  let ins := operDescs p m st 0
  let outs := operDescs p m st 1
  (List.range (outs.length - 1)).map (fun j =>
    (ins.getD (if byteAt pb 0x30 = 0 then byteAt pb (0x51 + j) else j + 2) [], outs.getD (j + 1) []))

def outColSource (probe build : List (List Byte)) (oc : Nat) : List Byte := if bit oc 7 then build.getD (oc % 64) [] else probe.getD (oc % 64) []

/-- Output columns of JOIN_PROBE past the key, with their OUTCOLS bytes. -/
def probeOuts (pb : List Byte) (outs : List (List Byte)) : List (Nat × List Byte) :=
  let nk := if byteAt pb 0x30 ≤ 1 then 2 else 1
  (List.range (outs.length - nk)).map (fun c => (byteAt pb (0x38 + nk + c), outs.getD (nk + c) []))

/-- Check 9 for the row operators (R57, R134): element types that an operator gives a meaning. (DEDUCED, unsafe: log entry 31.) -/
def rowTypesOk (p : List Byte) (m : Nat) (st : PlanStep) : Bool :=
  let pb := stepParams p m st
  let ds (i : Nat) : List (List Byte) := operDescs p m st i
  let keys (i : Nat) : Bool := keyTypesOk (parPair pb i) (ds i)
  match st.opcode with
  | 1 => (byteAt pb 0x30 != 1 || keys 0) && keys 1 && (scanPairs p m st).all (fun x => x.1.isEmpty || sameColumn x.1 x.2)
  | 2 => keys 0 && (byteAt pb 0x30 != 1 || (keys 1 && likeInput p m st))
  | 3 => keys 0 && keys 1 && outmapTypesOk p m st
  | 4 | 6 => keys 0
  | 5 | 0x15 => keys 0 && keys 1 && likeInput p m st
  | 7 =>
    keys 0 && keys 2 && keys 3 &&
    (probeOuts pb (ds 3)).all (fun x =>
      let src := outColSource (ds 0) (ds 2) x.1
      src.isEmpty || sameColumn src x.2)
  | _ =>
    keys 0 && (List.range (fieldN pb 0x34 2)).all (fun k =>
      let c := emitCol pb k
      match (ds 0)[c.src]? with
      | none => true
      | some b => if isMx c.ty then numericTy (dsType b) else castOk (dsType b) c.ty && !isStringTy c.ty)

/-! ### Parameter blocks (check 10) -/

/-- One predicate term (R142). -/
def termOk (p : List Byte) (m nlist : Nat) (ds : List (List Byte)) (t : List Byte) : Bool :=
  let op := byteAt t 0
  let a := byteAt t 1
  let b := byteAt t 2
  let ta := dsType (ds.getD a [])
  let cmpc := decide (1 ≤ op ∧ op ≤ 6)
  let cmpb := decide (9 ≤ op ∧ op ≤ 0xE)
  let aux := fieldN t 4 4
  (cmpc || cmpb || op == 0x10 || op == 0x11 || op == 0x18 || op == 0x20 || op == 0x21 || op == 0x22) &&
  (decide (0x20 ≤ op) || decide (a < ds.length)) && (if cmpb then decide (b < ds.length) && dsType (ds.getD b []) == ta else b == 0) &&
  (if op = 0x18 then decide (aux < nlist) && !isStringTy ta
   else if cmpc && isStringTy ta then decide (aux ≤ 65536) && paramsHold p m (fieldN t 8 8) aux
   else aux == 0) &&
  (!cmpc || isStringTy ta || decide (fieldN t 8 8 < 2 ^ typeBits ta))

/-- Depth of the stack after a term; none when the program underflows or passes 16 values. -/
def stackAfter : List Nat → Nat → Option Nat
  | [], d => some d
  | op :: ops, d =>
    let need := if op = 0x22 then 1 else if op = 0x20 ∨ op = 0x21 then 2 else 0
    let d' := d - need + 1
    if d < need ∨ 16 < d' then none else stackAfter ops d'

def predTerms (pb : List Byte) : List (List Byte) := (List.range (byteAt pb 0x31)).map (fun i => slice pb (0x60 + 16 * i) 16)

/-- Lists that IN terms over floating columns use hold no NaN, whose order key is the greatest (R72, R143). -/
def listsNanFree (p : List Byte) (m : Nat) (pb : List Byte) (ds : List (List Byte)) : Bool :=
  (predTerms pb).all (fun t =>
    !(byteAt t 0 == 0x18 && isFloatTy (dsType (ds.getD (byteAt t 1) []))) ||
      (let e := fieldN pb (0x38 + 8 * fieldN t 4 4) 8
       let n := e / 2 ^ 32
       n == 0 || fieldN (paramBytes p m (e % 2 ^ 32) (8 * n)) (8 * (n - 1)) 8 != 2 ^ 64 - 1))

def filterParamsOk (p : List Byte) (m : Nat) (st : PlanStep) : Bool :=
  let pb := stepParams p m st
  let ds := operDescs p m st 0
  let nl := byteAt pb 0x32
  let compact := byteAt pb 0x30 == 1
  let out := (operDescs p m st 1).headD []
  operDirs st [false, true] && prefixOk p m st (if compact then [0, 1] else [0]) false && decide (byteAt pb 0x30 ≤ 1) &&
  decide (1 ≤ byteAt pb 0x31 ∧ byteAt pb 0x31 ≤ 32) && decide (nl ≤ 4) && decide (0x60 + 16 * byteAt pb 0x31 ≤ st.paramLen) &&
  (List.range nl).all (fun i => let e := fieldN pb (0x38 + 8 * i) 8; risingWords p m (e % 2 ^ 32) (e / 2 ^ 32)) &&
  (predTerms pb).all (termOk p m nl ds) && stackAfter ((predTerms pb).map (fun t => byteAt t 0)) 0 == some 1 && listsNanFree p m pb ds &&
  (if compact then parCols pb 1 == parCols pb 0 && parPair pb 1 == parPair pb 0 && decide (planCapacity p m st 0 ≤ planCapacity p m st 1)
   else dsType out == 0x40 && dsCount out == dsShape (ds.headD []) 0)

def scanParamsOk (p : List Byte) (m : Nat) (st : PlanStep) : Bool :=
  let pb := stepParams p m st
  let c0 := parCols pb 0
  let c1 := parCols pb 1
  operDirs st [false, true] && prefixOk p m st [0, 1] false && decide (0x90 ≤ st.paramLen) &&
  (match byteAt pb 0x30 with
   | 0 =>
     !parPair pb 0 && !parPair pb 1 && decide (fieldN pb 0x48 8 ≤ planCapacity p m st 1) && byteAt pb 0x50 == 0xFF &&
     (List.range 63).all (fun j => if j + 1 < c1 then decide (byteAt pb (0x51 + j) < c0) else byteAt pb (0x51 + j) == 0xFF)
   | 1 => parPair pb 0 && !parPair pb 1 && c0 == c1 + 1 && decide (planCapacity p m st 0 ≤ planCapacity p m st 1)
   | _ => false)

def computeParamsOk (p : List Byte) (m : Nat) (st : PlanStep) : Bool :=
  let pb := stepParams p m st
  let nk := if parPair pb 0 then 2 else 1
  let outs := operDescs p m st 1
  operDirs st [false, true] && prefixOk p m st [0, 1] false && parPair pb 0 == parPair pb 1 &&
  decide (1 ≤ byteAt pb 0x30 ∧ byteAt pb 0x30 ≤ 64) && decide (byteAt pb 0x31 ≤ 32) && decide (0x178 + 8 * byteAt pb 0x30 ≤ st.paramLen) &&
  planCapacity p m st 0 == planCapacity p m st 1 &&
  (match computeTypes p m st with
   | none => false
   | some tys => byteAt pb 0x38 == 0xFF &&
       ((List.range outs.length).drop nk).all (fun c => sparseGet 0 (byteAt pb (0x38 + c)) tys != 0))

def hashParamsOk (p : List Byte) (m : Nat) (st : PlanStep) : Bool :=
  operDirs st [false, true] && prefixOk p m st [0] true && oneColumnOk p m st 1 8 &&
  (operDescs p m st 1).all dsValidity && planCapacity p m st 1 == planCapacity p m st 0

/-- Distribution descriptor of operand i, if it names one. -/
def operDistDesc (p : List Byte) (m : Nat) (st : PlanStep) (i : Nat) : Option (List Byte) :=
  let d := operDist (st.opers.getD i 0)
  if d = 0xFFFF then none else some (descBytes p m d)

/-- A hash distribution descriptor of PARTITION's landing set is the same hash (R148, R138). -/
def hashDistOk (p : List Byte) (m : Nat) (st : PlanStep) (t : List Byte) : Bool :=
  let pb := stepParams p m st
  let seed : Word := BitVec.ofNat 64 (fieldN t 0x70 8)
  parNkey pb == 1 && parKeyCol pb 0 == fieldN t 0x68 2 && parFamily pb == byteAt t 0x6A && parSeeds p pb == (seed, ~~~ seed) &&
  (parFamily pb != 1 || (List.range 256).all (fun i => (hashUse p m pb).table i == hf1Default i)) &&
  dtShards t 0 == plLshards p && (List.range (plLshards p)).all (fun i => shardPos p i == i) && dtTotal t == plMembers p

def partitionParamsOk (p : List Byte) (m : Nat) (st : PlanStep) : Bool :=
  let pb := stepParams p m st
  let sub := fieldN pb 0x34 4
  let heavy := fieldN pb 0x38 4
  operDirs st [false, true] && prefixOk p m st [0, 1] true && parCols pb 1 == parCols pb 0 && parPair pb 1 == parPair pb 0 &&
  decide (0x50 ≤ st.paramLen) && decide (byteAt pb 0x30 ≤ 2) && decide (1 ≤ sub ∧ sub ≤ 65536) && decide (heavy ≤ 4096) &&
  (byteAt pb 0x30 != 0 || heavy == 0) && risingWords p m (fieldN pb 0x3C 4) heavy && flowTabOk p m (fieldN pb 0x40 4) &&
  dsShape ((operDescs p m st 1).headD []) 0 % (64 * sub) == 0 &&
  (match operDistDesc p m st 1 with
   | some t => dtKind t 0 != 3 || hashDistOk p m st t
   | none => true)

def joinBuildParamsOk (p : List Byte) (m : Nat) (st : PlanStep) : Bool :=
  operDirs st [false, true] && prefixOk p m st [0] true && !parPair (stepParams p m st) 0 && oneColumnOk p m st 1 8 &&
  decide (3 * planCapacity p m st 0 + 512 ≤ planCapacity p m st 1)

/-- Operand words name the same descriptor. -/
def sameDesc (a : PlanStep) (i : Nat) (b : PlanStep) (j : Nat) : Bool := operDesc (a.opers.getD i 0) == operDesc (b.opers.getD j 0)

def keyColTypes (p : List Byte) (m : Nat) (st : PlanStep) : List Nat :=
  (parKeyCols (stepParams p m st)).map (fun c => dsType ((operDescs p m st 0).getD c []))

/-- R154 and R155 but for the writes between the two steps. A build column may go to an output column without a bitmap, where a null is zero. (DEDUCED, unsafe: log entry 105.) -/
def joinProbeParamsOk (p : List Byte) (m : Nat) (st : PlanStep) : Bool :=
  let pb := stepParams p m st
  let bi := fieldN pb 0x34 4
  let b := stepAt p bi
  let kind := byteAt pb 0x30
  let nk := if kind ≤ 1 then 2 else 1
  operDirs st [false, false, false, true] && prefixOk p m st [0, 2, 3] true && oneColumnOk p m st 1 8 && decide (0x78 ≤ st.paramLen) &&
  decide (kind ≤ 3) && decide (bi < stepCount p) && b.kind == 0 && b.opcode == 6 && decide (b.offset + b.budget ≤ st.offset) &&
  sameDesc st 1 b 1 && sameDesc st 2 b 0 && parCols pb 2 == parCols (stepParams p m b) 0 && sameHash p m pb (stepParams p m b) &&
  keyColTypes p m st == keyColTypes p m b && !parPair pb 0 && !parPair pb 2 && parPair pb 3 == decide (kind ≤ 1) &&
  (List.range (64 - nk)).all (fun i =>
    let oc := byteAt pb (0x38 + nk + i)
    if nk + i < parCols pb 3 then
      (if bit oc 7 then decide (kind ≤ 1) && decide (oc % 64 < parCols pb 2) else decide (oc % 64 < parCols pb 0))
    else oc == 0xFF)

def dedupParamsOk (p : List Byte) (m : Nat) (st : PlanStep) : Bool :=
  let pb := stepParams p m st
  operDirs st [false, true] && prefixOk p m st [0, 1] true && parCols pb 1 == parCols pb 0 && parPair pb 1 == parPair pb 0 &&
  decide (planCapacity p m st 0 ≤ planCapacity p m st 1)

def emitParamsOk (p : List Byte) (m : Nat) (st : PlanStep) : Bool :=
  let pb := stepParams p m st
  let br := fieldN pb 0x30 4
  let n := fieldN pb 0x34 2
  let cols := (List.range n).map (emitCol pb)
  operDirs st [false, true] && prefixOk p m st [0] false && oneColumnOk p m st 1 8 && decide (0x48 + 4 * n ≤ st.paramLen) &&
  decide (1 ≤ br ∧ br ≤ 1048576) && decide (1 ≤ n ∧ n ≤ 63) && flowTabOk p m (fieldN pb 0x38 4) &&
  cols.all (fun c => decide (c.src < parCols pb 0) && !bit c.actl 7 && !bit c.actl 0 && decide (bits c.actl 6 4 ≤ 4) &&
    (!isMx c.ty || (br % 32 == 0 && (bits c.actl 6 4 == 0 || bits c.actl 6 4 == 4))))

/-- Check 10 for the row operators. -/
def rowParamsOk (p : List Byte) (m : Nat) (st : PlanStep) : Bool :=
  match st.opcode with
  | 1 => scanParamsOk p m st
  | 2 => filterParamsOk p m st
  | 3 => computeParamsOk p m st
  | 4 => hashParamsOk p m st
  | 5 => partitionParamsOk p m st
  | 6 => joinBuildParamsOk p m st
  | 7 => joinProbeParamsOk p m st
  | 0x15 => dedupParamsOk p m st
  | _ => emitParamsOk p m st

/-! ### Budgets (R159) -/

/-- Bytes of a row of a set, strings at 16. -/
def rowBytes (ds : List (List Byte)) : Nat := sumNat (ds.map (fun b => dsWidth b / 8))

/-- Words of a step's key, strings at 1 + 8,192. -/
def keyWordCount (p : List Byte) (m : Nat) (st : PlanStep) : Nat :=
  sumNat ((keyColTypes p m st).map (fun t => if isStringTy t then 8193 else 1))

/-- Rows per core of operand 0. -/
def perCore (s : State) (p : List Byte) (m : Nat) (st : PlanStep) : Nat := rowsPerCore s st.scope ((operDescs p m st 0).headD [])

def heapTotal (ds : List (List Byte)) : Nat := sumNat (ds.map (fun b => if dsHeap b then dsHeapBytes b else 0))

/-- Hops of R52 from the taking device to the farthest member. -/
def planHops (s : State) (p : List Byte) : Nat := hopsTo s (groupMembers s (plGroup p))

/-- ceil(num / (den × 1,000)) + e + 2. -/
def rowBudget (num den e : Nat) : Nat := ceilDiv num (den * 1000) + e + 2

/-- The array runs at half rate (R424). -/
def halfRate (s : State) : Bool := s.therm.arrayRate == 1

/-- The budget of an ARRAY activity: half rate doubles c (R424). -/
def rateBudget (s : State) (num den e : Nat) : Nat := rowBudget (if halfRate s then 2 * num else num) den e

/-- Some register that a COMPUTE step uses is 64 bits wide. (DEDUCED, unsafe: log entry 104.) -/
def wideRegs (p : List Byte) (m : Nat) (st : PlanStep) : Bool :=
  let pb := stepParams p m st
  let outs := operDescs p m st 1
  let used := (computeProg pb).flatMap (fun i => i.dst :: i.reads) ++ (List.range outs.length).map (fun c => byteAt pb (0x38 + c))
  match computeTypes p m st with
  | some tys => tys.any (fun t => used.contains t.1 && typeBits t.2 == 64)
  | none => false

/-- Minimum budget of a row operator on a member. EMIT's bytes per row leave MX scale bytes out. (DEDUCED, unsafe: log entry 104.) -/
def rowMinBudget (s : State) (p : List Byte) (m : Nat) (st : PlanStep) : Nat :=
  let pb := stepParams p m st
  let n := perCore s p m st
  let mw := keyWordCount p m st
  let h := planHops s p
  let ins := operDescs p m st 0
  let b1 := rowBytes (operDescs p m st 1)
  let heap := ceilDiv (heapTotal ins) 256000
  match st.opcode with
  | 1 => rateBudget s (n * b1) 256 (if byteAt pb 0x30 = 0 then heap else 4 + 2 * h)
  | 2 =>
    let ops := (predTerms pb).map (fun t => byteAt t 0)
    let t := (ops.filter (fun o => decide (1 ≤ o ∧ o ≤ 6) || decide (9 ≤ o ∧ o ≤ 0xE))).length
    let i := (ops.filter (· == 0x18)).length
    let l := sumNat ((List.range (byteAt pb 0x32)).map (fun k => fieldN pb (0x3C + 8 * k) 4))
    rateBudget s (n * (4 * t + 8192 * i + (if byteAt pb 0x30 = 1 then b1 else 0))) 256 (ceilDiv l 1000)
  | 3 => rateBudget s (n * byteAt pb 0x30) (if wideRegs p m st then 32 else 64) 0
  | 4 => rateBudget s (n * mw) 16 0
  | 5 => rateBudget s (n * (16 * mw + b1)) 256 heap
  | 6 | 0x15 => rateBudget s (n * (2 * mw + 4)) 32 0
  | 7 => rateBudget s (n * (16 * mw + 16) + planCapacity p m st 3 * rowBytes (operDescs p m st 3)) 256 0
  | _ => rateBudget s (n * sumNat ((List.range (fieldN pb 0x34 2)).map (fun k => typeBits (emitCol pb k).ty))) 2048 (4 + 2 * h)

end Sys2Proof.Machine
end

