-- ==== Sys2Proof/Machine/AcceptHardy.lean ====
section
/-!
DEFINITION. Acceptance checks 9, 10 and 16 for the Hardy steps, STATS and NORMALISE (R161 to R182, R187 to R200).
-/
namespace Sys2Proof.Machine

/-! ### Hardy steps (R162, R163, R173 to R179) -/

/-- HTAB of a Hardy step or rebalance. -/
def htabOf (p : List Byte) (m : Nat) (st : PlanStep) : Nat :=
  if st.kind = 1 then byteAt (stepParams p m st) 0 else hpTab (stepParams p m st)

/-- Two lives meet. -/
def livesMeet (a b c d : Nat) : Bool := decide (a ≤ d ∧ c ≤ b)

/-- The table that a rebalance redistributes: a live one of its HTAB on a die of its SCOPE. -/
def rebalanceLoads (p : List Byte) (m : Nat) (st : PlanStep) : List PlanStep :=
  (planSteps p).filter (fun ld => isLoad p m ld && hpTab (stepParams p m ld) == htabOf p m st &&
    decide (ld.offset < st.offset ∧ stepEnd st ≤ tableEnd p m ld) && (covers ld.scope st.scope || covers st.scope ld.scope))

/-- The conditions on tables that R163 names for one step. -/
def hardyLifeOk (p : List Byte) (m : Nat) (st : PlanStep) : Bool :=
  let pb := stepParams p m st
  if st.kind = 1 then
    let lds := rebalanceLoads p m st
    !lds.isEmpty && lds.all (fun ld => covers st.scope ld.scope)
  else if hpMode pb = 0 then
    (planSteps p).all (fun o => o.index == st.index || !isLoad p m o || hpTab (stepParams p m o) != hpTab pb ||
      !(diesOf o.scope).any (diesOf st.scope).contains || !livesMeet o.offset (tableEnd p m o) st.offset (tableEnd p m st))
  else
    let ld := stepAt p (hpLoad pb)
    decide (hpLoad pb < st.index) && isLoad p m ld && ld.opcode == st.opcode && hpTab (stepParams p m ld) == hpTab pb &&
    ld.scope == st.scope && decide (ld.offset < st.offset)

/-- Operand directions by opcode and mode. -/
def hardyDirs (op mode : Nat) : List Bool :=
  if mode ≤ 1 then [false] else if op = 9 then [false, false, true] else [false, true]

def hardySets (op mode : Nat) : List Nat := if mode ≤ 1 then [0] else if op = 9 then [0, 1, 2] else [0]

/-- Fields that a mode uses, and zeros elsewhere (R173). -/
def hardyFieldsOk (op : Nat) (pb : List Byte) (cols : Nat) : Bool :=
  let mode := hpMode pb
  let inRange (c : Nat) : Bool := decide (1 ≤ c ∧ c < cols)
  decide (mode ≤ 2) && !(op == 0x16 && mode == 1) && decide (hpTab pb ≤ 15) &&
  (if mode = 0 then decide (8 ≤ hpFill pb ∧ hpFill pb ≤ 15) && decide (1 ≤ hpBlocks pb ∧ hpBlocks pb ≤ (if op = 0x16 then 256 else 1024))
   else hpFill pb == 0 && hpBlocks pb == 0) &&
  (if mode = 2 then decide (hpKind pb ≤ (if op = 9 then 3 else if op = 0x16 then 1 else 0)) else hpKind pb == 0) &&
  (mode == 2 || inRange (hpLo pb)) && (if op = 8 then hpHi pb == 0 else mode == 2 || inRange (hpHi pb)) &&
  (mode != 2 || inRange (hpKey pb)) && (mode != 0 || hpLoad pb == 0xFFFFFFFF) && ((mode == 2 && op == 9) || zeroRange pb 0x40 64)

/-- An INSERT has touched the table of a LOAD before a step (R177). -/
def insertedInto (p : List Byte) (m : Nat) (ld st : PlanStep) : Bool :=
  (usersOf p m ld).any (fun u => hpMode (stepParams p m u) == 1 && decide (u.offset < st.offset))

/-- Output of a search (R173, R177). (DESIGN CHOICE, unsafe: log entry 114.) -/
def hardyOutOk (p : List Byte) (m : Nat) (st : PlanStep) : Bool :=
  let pb := stepParams p m st
  let kind := hpKind pb
  let nk := if kind ≤ 1 then 2 else 1
  if hpMode pb ≠ 2 then true
  else if st.opcode = 9 then
    let ld := stepAt p (hpLoad pb)
    sameDesc st 1 ld 0 && parCols pb 1 == parCols (stepParams p m ld) 0 && !parPair pb 0 && !parPair pb 1 && parPair pb 2 == decide (kind ≤ 1) &&
    (List.range (64 - nk)).all (fun i =>
      let oc := byteAt pb (0x40 + nk + i)
      if nk + i < parCols pb 2 then
        (if bit oc 7 then decide (kind ≤ 1) && !insertedInto p m ld st && decide (oc % 64 < parCols pb 1) else decide (oc % 64 < parCols pb 0))
      else oc == 0xFF)
  else oneColumnOk p m st 1 (if st.opcode = 0x16 && kind = 0 then 8 else 7) && (operDescs p m st 1).all dsValidity &&
    planCapacity p m st 1 == planCapacity p m st 0

def hardyParamsOk (p : List Byte) (m : Nat) (st : PlanStep) : Bool :=
  let pb := stepParams p m st
  if st.kind = 1 then st.noper == 0 && decide (16 ≤ st.paramLen) && decide (byteAt pb 0 ≤ 15) && decide (1 ≤ keyLevel st.scope) && hardyLifeOk p m st
  else operDirs st (hardyDirs st.opcode (hpMode pb)) && prefixOk p m st (hardySets st.opcode (hpMode pb)) false && decide (0x80 ≤ st.paramLen) &&
    hardyFieldsOk st.opcode pb (parCols pb 0) && hardyLifeOk p m st && hardyOutOk p m st

/-- Column types that the LOAD fixes, and that INSERT and SEARCH repeat (R174). -/
def hardyTypesOk (p : List Byte) (m : Nat) (st : PlanStep) : Bool :=
  let pb := stepParams p m st
  let ds := operDescs p m st 0
  let ty (b : List (List Byte)) (c : Nat) : Nat := dsType (b.getD c [])
  let codeTy (t : Nat) : Bool := isIntTy t || t == 0x31
  let lo := ty ds (hpLo pb)
  keyTypesOk (parPair pb 0) ds &&
  (if st.opcode = 0x16 then
     (if hpMode pb = 2 then codeTy (ty ds (hpKey pb)) else codeTy lo && codeTy (ty ds (hpHi pb)))
   else if hpMode pb = 0 then ordered lo && (st.opcode == 8 || ty ds (hpHi pb) == lo)
   else
     let ld := stepAt p (hpLoad pb)
     let want := ty (operDescs p m ld 0) (hpLo (stepParams p m ld))
     if hpMode pb = 1 then lo == want && (st.opcode == 8 || ty ds (hpHi pb) == want) else ty ds (hpKey pb) == want) &&
  (!(st.opcode == 9 && hpMode pb == 2) ||
    (keyTypesOk false (operDescs p m st 1) && keyTypesOk (parPair pb 2) (operDescs p m st 2) &&
      (let nk := if hpKind pb ≤ 1 then 2 else 1
       (List.range ((operDescs p m st 2).length - nk)).all (fun c =>
         let oc := byteAt pb (0x40 + nk + c)
         let src := outColSource ds (operDescs p m st 1) oc
         let out := (operDescs p m st 2).getD (nk + c) []
         src.isEmpty || (sameColumn src out && (!(bit oc 7 && hpKind pb == 1) || dsValidity out))))))

/-- HARDY_RATE_FLOOR as d (R181). -/
def rateDiv (s : State) : Nat := 2 ^ param s 5

/-- Minimum budget (R182). -/
def hardyMinBudget (s : State) (p : List Byte) (m : Nat) (st : PlanStep) : Nat :=
  let pb := stepParams p m st
  let d := rateDiv s
  let n := perCore s p m st
  let r := dsShape ((operDescs p m st 0).headD []) 0
  let b1 := rowBytes (operDescs p m st 1)
  let out := planCapacity p m st 2
  if st.kind = 1 then
    let bl := maxNat ((rebalanceLoads p m st).map (fun ld => hpBlocks (stepParams p m ld)))
    ceilDiv (512 * bl * d) 1000 + 2
  else match hpMode pb with
    | 0 => ceilDiv ((if st.opcode = 0x16 then 64 else 16) * hpBlocks pb * d + 8 * r) 1000 + 2
    | 1 => ceilDiv ((32 * d + 8) * r) 1000 + 2
    | _ =>
      if st.opcode = 9 then rateBudget s (n * 64 * d * 256 + out * rowBytes (operDescs p m st 2)) 256 (ceilDiv (d * out) 1000)
      else rateBudget s (n * ((if st.opcode = 8 then 32 else 128) * d * 256 + b1)) 256 0

/-! ### Range capacity (check 18: R163, R179) -/

/-- Blocks that a FILTER's IN-lists reserve. -/
def listBlocks (pb : List Byte) : Nat := sumNat ((List.range (byteAt pb 0x32)).map (fun i => ceilDiv (fieldN pb (0x3C + 8 * i) 4) 15))

/-- Range positions and care-mask entries in use on a die at an offset. -/
def hardyUse (p : List Byte) (m die off : Nat) : Nat × Nat :=
  (planSteps p).foldl (fun acc st =>
    let pb := stepParams p m st
    let here := (diesOf st.scope).contains die
    if !here then acc
    else if isLoad p m st && decide (st.offset ≤ off ∧ off ≤ tableEnd p m st) then
      (if st.opcode = 0x16 then (acc.1, acc.2 + 16 * hpBlocks pb) else (acc.1 + 16 * hpBlocks pb, acc.2))
    else if hasInTerm p m st && decide (st.offset ≤ off ∧ off ≤ stepEnd st) then (acc.1 + 16 * listBlocks pb, acc.2)
    else acc) (0, 0)

/-- Offsets at which a use of the Hardy units begins: the sums change upwards only there. -/
def hardyStarts (p : List Byte) (m : Nat) : List Nat := ((planSteps p).filter (fun st => isLoad p m st || hasInTerm p m st)).map (·.offset)

/-- Peak use of each die that the plan uses: (die, range positions, care-mask entries) (R362). -/
def hardyPeaks (s : State) (p : List Byte) (m : Nat) : List (Nat × Nat × Nat) :=
  let at' := hardyStarts p m
  let used := (planSteps p).filter (fun st => isLoad p m st || hasInTerm p m st)
  ((List.range 80).filter (fun d => !isOffline s (dieKey d) && used.any (fun st => (diesOf st.scope).contains (dieKey d)))).map (fun d =>
    (d, maxNat (at'.map (fun o => (hardyUse p m (dieKey d) o).1)), maxNat (at'.map (fun o => (hardyUse p m (dieKey d) o).2))))

/-- The first step whose start passes a die's capacity. -/
def hardyRoomBad (s : State) (p : List Byte) : Option PlanStep :=
  let masks := param s 4
  (planSteps p).find? (fun st => (plPositions p).any (fun m =>
    (isLoad p m st || hasInTerm p m st) && (diesOf st.scope).any (fun d =>
      let u := hardyUse p m d st.offset
      decide (16384 - 4 * masks < u.1 ∨ masks < u.2))))

/-! ### STATS and NORMALISE (R187 to R200) -/

def statNum (pb : List Byte) : Nat := byteAt pb 0x31
def statCol (pb : List Byte) (i : Nat) : Nat := byteAt pb (0x50 + i)

def statTypesOk (p : List Byte) (m : Nat) (st : PlanStep) : Bool :=
  let pb := stepParams p m st
  let ds := operDescs p m st 0
  keyTypesOk (parPair pb 0) ds && (byteAt pb 0x30 != 0 || (List.range (statNum pb)).all (fun i =>
    match ds[statCol pb i]? with
    | none => true
    | some b => numericTy (dsType b) || isTimeTy (dsType b)))

def statParamsOk (p : List Byte) (m : Nat) (st : PlanStep) : Bool :=
  let pb := stepParams p m st
  let n := statNum pb
  let sample := byteAt pb 0x30 == 1
  let cap := fieldN pb 0x40 4
  operDirs st [false, true] && prefixOk p m st [0] sample && oneColumnOk p m st 1 8 && decide (0x90 ≤ st.paramLen) && decide (byteAt pb 0x30 ≤ 1) &&
  (if sample then n == 0 && decide (1 ≤ cap ∧ cap ≤ 65536) && decide (cap + 1 ≤ planCapacity p m st 1)
   else decide (1 ≤ n ∧ n ≤ 63) && fieldN pb 0x38 8 == 0 && cap == 0 && decide (160 * n ≤ planCapacity p m st 1) &&
     (List.range 64).all (fun i => if i < n then decide (1 ≤ statCol pb i ∧ statCol pb i < parCols pb 0) else statCol pb i == 0xFF))

def specOf (pb : List Byte) (i : Nat) : List Byte := slice pb (0x40 + 32 * i) 32

def normTypesOk (p : List Byte) (m : Nat) (st : PlanStep) : Bool :=
  let pb := stepParams p m st
  let ds := operDescs p m st 0
  let outs := operDescs p m st 1
  keyTypesOk false ds && keyTypesOk false outs && (outs.drop 1).all (fun b => numericTy (dsType b)) &&
  (List.range (byteAt pb 0x30)).all (fun i =>
    match ds[byteAt (specOf pb i) 0]? with
    | none => true
    | some b => numericTy (dsType b) || isTimeTy (dsType b))

/-- Distinct curves of a NORMALISE step. -/
def stepCurves (pb : List Byte) : List Nat :=
  dedupNat (((List.range (byteAt pb 0x30)).filter (fun i => byteAt (specOf pb i) 1 == 5)).map (fun i => fieldN (specOf pb i) 4 4))

/-- A spec entry (R193, R199). The curve store judged is this member's; the others answer for theirs. -/
def specOk (s : State) (cols nstat : Nat) (stats : Bool) (e : List Byte) : Bool :=
  let mode := byteAt e 1
  let lo := decodeF binary64 (fieldN e 8 8)
  let hi := decodeF binary64 (fieldN e 0x10 8)
  let useStats := mode == 1 || mode == 2
  decide (1 ≤ byteAt e 0 ∧ byteAt e 0 < cols) && decide (mode ≤ 5) && (!useStats || (stats && decide (byteAt e 3 < nstat))) &&
  (!(mode == 4 || bit (byteAt e 2) 0) || (lo != .nan && hi != .nan && leVal lo hi)) &&
  (if mode = 5 then
     (match s.eng.curves.find? (fun c => c.id == fieldN e 4 4) with
      | some c => !c.deleting && digest8 c.image == slice e 0x18 8
      | none => false)
   else fieldN e 4 4 == 0 && fieldN e 0x18 8 == 0)

/-- R193 but for the writes between the two steps. -/
def normParamsOk (s : State) (p : List Byte) (m : Nat) (st : PlanStep) : Bool :=
  let pb := stepParams p m st
  let n := byteAt pb 0x30
  let si := fieldN pb 0x34 4
  let stats := si != 0xFFFFFFFF
  let q := stepAt p si
  let qb := stepParams p m q
  operDirs st (if stats then [false, true, false] else [false, true]) && prefixOk p m st [0, 1] false && !parPair pb 0 && !parPair pb 1 &&
  decide (1 ≤ n ∧ n ≤ 63) && decide (0x40 + 32 * n ≤ st.paramLen) && parCols pb 1 == n + 1 && planCapacity p m st 1 == planCapacity p m st 0 &&
  (!stats || (oneColumnOk p m st 2 8 && decide (si < stepCount p) && q.kind == 0 && q.opcode == 0xA && byteAt qb 0x30 == 0 &&
    decide (q.offset + q.budget ≤ st.offset) && sameDesc st 2 q 1)) &&
  (List.range n).all (fun i => specOk s (parCols pb 0) (statNum qb) stats (specOf pb i)) && decide ((stepCurves pb).length ≤ 4)

/-- Short and long accumulator uses of a column type (R188). -/
def accUses (ty : Nat) : Nat × Nat :=
  if ty = 0x13 then (0, 2) else if ty = 0x11 ∨ ty = 0x12 then (1, 1) else (2, 0)

/-- Cost of a spec in 64ths of a cycle. -/
def specCost (s : State) (e : List Byte) : Nat :=
  (match byteAt e 1 with
   | 3 => 16
   | 5 => if cvKind (curveImage s (fieldN e 4 4)) = 2 then 2 else 1
   | _ => 4) + (if bit (byteAt e 2) 0 then 2 else 0)

/-- Minimum budgets of STATS and NORMALISE (R200). -/
def statMinBudget (s : State) (p : List Byte) (m : Nat) (st : PlanStep) : Nat :=
  let pb := stepParams p m st
  let n := perCore s p m st
  let ds := operDescs p m st 0
  let h := planHops s p
  if st.opcode = 0xB then
    let c := sumNat ((List.range (byteAt pb 0x30)).map (fun i => specCost s (specOf pb i)))
    rateBudget s (n * (4 * c + rowBytes (operDescs p m st 1))) 256 (1 + 2 * (stepCurves pb).length)
  else if byteAt pb 0x30 = 0 then
    let uses := (List.range (statNum pb)).map (fun i => accUses (dsType (ds.getD (statCol pb i) [])))
    rateBudget s (n * (Nat.max (8 * sumNat (uses.map (·.1))) (64 * sumNat (uses.map (·.2))) + statNum pb)) 64 (4 + 2 * h)
  else rateBudget s (n * (keyWordCount p m st + 1)) 16 (4 + 2 * h + ceilDiv (fieldN pb 0x40 4) 1000)

end Sys2Proof.Machine
end

