-- ==== Sys2Proof/Machine/AcceptEngines.lean ====
section
/-!
DEFINITION. Acceptance checks 9, 10, 16 and 17 for selection, embedding, Swage, Crucible and refresh steps (R95, R97, R101, R202 to R214,
R222, R226, R235, R242, R278, R284, R285, R293), and the checks over all opcodes.
-/
namespace Sys2Proof.Machine

/-! ### Selection (R202 to R214) -/

/-- Outer global extents multiplied, and the row length of a TENSOR operand. -/
def tensorRows (p : List Byte) (m : Nat) (st : PlanStep) : Nat × Nat :=
  match operDistDesc p m st 0 with
  | none => (1, 1)
  | some t => ((List.range (dtNdim t - 1)).foldl (fun v d => v * dtShape t d) 1, dtShape t (dtNdim t - 1))

def selRows (p : List Byte) (m : Nat) (st : PlanStep) : Nat := if slForm (stepParams p m st) = 1 then 1 else (tensorRows p m st).1

/-- Type of the value column or tensor. -/
def selTy (p : List Byte) (m : Nat) (st : PlanStep) : Nat :=
  let pb := stepParams p m st
  dsType ((operDescs p m st 0).getD (if slForm pb = 1 then slVal pb else 0) [])

def selTypesOk (p : List Byte) (m : Nat) (st : PlanStep) : Bool :=
  let pb := stepParams p m st
  let ds := operDescs p m st 0
  ordered (selTy p m st) && (slForm pb != 1 || (keyTypesOk (parPair pb 0) ds && (slOwner pb == 0xFF || dsType (ds.getD (slOwner pb) []) == 6)))

def selParamsOk (p : List Byte) (m : Nat) (st : PlanStep) : Bool :=
  let pb := stepParams p m st
  let column := slForm pb == 1
  let cols := parCols pb 0
  operDirs st [false, true] && prefixOk p m st (if column then [0] else []) false && oneColumnOk p m st 1 8 && decide (0x50 ≤ st.paramLen) &&
  decide (slForm pb ≤ 1) && decide (slMode pb ≤ 1) &&
  (if column then decide (1 ≤ slVal pb ∧ slVal pb < cols) && (slOwner pb == 0xFF || decide (1 ≤ slOwner pb ∧ slOwner pb < cols))
   else slVal pb == 0 && slOwner pb == 0xFF && (operDistDesc p m st 0).isSome) &&
  decide (1 ≤ slCap pb ∧ slCap pb ≤ 16777216) && (if st.opcode = 0xC then !isNanBits (selTy p m st) (slThresh pb) else slThresh pb == 0) &&
  (slDest pb == 0xFFFF || decide (slDest pb < plMembers p)) && flowTabOk p m (fieldN pb 0x44 4) &&
  decide (selRows p m st * (8 + 2 * slCap pb) ≤ planCapacity p m st 1)

def selMinBudget (s : State) (p : List Byte) (m : Nat) (st : PlanStep) : Nat :=
  let pb := stepParams p m st
  let column := slForm pb == 1
  let b := (operDescs p m st 0).headD []
  let cores := Nat.max (scopeCores s st.scope).length 1
  let n := if column then perCore s p m st else if dsTier b = 2 then dsCount b else ceilDiv (dsCount b) cores
  let (r, l) := tensorRows p m st
  let total := if column then dsShape b 0 * plMembers p else r * l
  let w := ceilDiv (selRows p m st * (64 + 16 * slCap pb)) 10240000
  let c := (if st.opcode = 0xC then 1 else if st.opcode = 0xD then 3 else 16) + boolNat column
  let g := 4 + 2 * planHops s p
  rateBudget s (n * c) 16 ((if st.opcode = 0xD then 9 * g else g) + ceilDiv total 64000 + w)

/-! ### Embedding steps (R222, R226, R235, R236, R242) -/

def isEmb (st : PlanStep) : Bool := st.kind == 0 && (st.opcode == 0xE || st.opcode == 0xF)

/-- The version a step names, or the one that CURRENT would bind now. (DEDUCED, unsafe: log entry 36.) -/
def embVersion (s : State) (pb : List Byte) : Option (EmbTable × TableVersion) :=
  match embTable s (emTable pb) with
  | none => none
  | some t =>
    (if emVersion pb = 0 then t.versions.find? (fun v => v.state == .active) else versionOf t (emVersion pb)).map (fun v => (t, v))

/-- Table and version numbers that a step reads or updates. -/
def embKey (s : State) (p : List Byte) (m : Nat) (st : PlanStep) : Nat × Nat :=
  let pb := stepParams p m st
  (emTable pb, match embVersion s pb with
    | some x => x.2.number
    | none => emVersion pb)

def embTypesOk (p : List Byte) (m : Nat) (st : PlanStep) : Bool :=
  let pb := stepParams p m st
  let ds := operDescs p m st 0
  let ty (i : Nat) : Nat := dsType (ds.getD i [])
  keyTypesOk (parPair pb 0) ds && ty (emIndexCol pb) == 8 && ty (emBagCol pb) == 8 &&
  (st.opcode == 0xE || dsType ((operDescs p m st 1).headD []) == 0x12) && (!emMean pb || dsType ((operDescs p m st 2).headD []) == 7)

/-- Global extents of operand i: the distribution's, or the descriptor's own. (DEDUCED, unsafe: log entry 51.) -/
def globalExt (p : List Byte) (m : Nat) (st : PlanStep) (i d : Nat) : Nat :=
  match operDistDesc p m st i with
  | some t => dtShape t d
  | none => dsShape ((operDescs p m st i).headD []) d

/-- Dimension 0 of two operands is sharded alike. -/
def sameSharding (p : List Byte) (m : Nat) (st : PlanStep) (i j : Nat) : Bool :=
  match operDistDesc p m st i, operDistDesc p m st j with
  | some a, some b => dtKind a 0 == dtKind b 0 && dtShards a 0 == dtShards b 0 && dtBlock a 0 == dtBlock b 0 && dtTotal a == dtTotal b
  | none, none => true
  | _, _ => false

def finiteBits (f : Fmt) (b : Nat) : Bool := finiteVal (decodeF f b)

/-- No checkpoint interval holds two updates of a version, or a read of it before its update (R235). -/
def embIntervalOk (s : State) (p : List Byte) (m : Nat) (st : PlanStep) : Bool :=
  st.opcode != 0xF || (planSteps p).all (fun o =>
    o.index == st.index || !isEmb o || embKey s p m o != embKey s p m st || checkpointAt p o.offset != checkpointAt p st.offset ||
      (o.opcode == 0xE && decide (st.offset ≤ o.offset)))

def embParamsOk (s : State) (p : List Byte) (m : Nat) (st : PlanStep) : Bool :=
  let pb := stepParams p m st
  let upd := st.opcode == 0xF
  let mean := emMean pb
  let cols := parCols pb 0
  let out := (operDescs p m st 1).headD []
  let cnt := (operDescs p m st 2).headD []
  operDirs st ([false, !upd] ++ (if mean then [!upd] else [])) && prefixOk p m st [0] false && decide (0x70 ≤ st.paramLen) &&
  decide (byteAt pb 0x38 ≤ 1) && decide (1 ≤ emIndexCol pb ∧ emIndexCol pb < cols) && decide (1 ≤ emBagCol pb ∧ emBagCol pb < cols) &&
  decide (1 ≤ emCap pb ∧ emCap pb ≤ 2 ^ 31) && flowTabOk p m (emReqTab pb) && (if upd then emPartTab pb == 0 else flowTabOk p m (emPartTab pb)) &&
  (if upd then [0x50, 0x54, 0x58].all (fun o => finiteBits binary32 (fieldN pb o 4)) else zeroRange pb 0x50 12) &&
  dsNdim out == 2 && numericTy (dsType out) && (!mean || (dsValidity cnt && globalExt p m st 2 0 == globalExt p m st 1 0 && sameSharding p m st 1 2)) &&
  (match embTable s (emTable pb) with
   | none => false
   | some t =>
     t.group == plGroup p && globalExt p m st 1 1 == tabDim t.body && !(upd && tabOptim t.body == 0) &&
     (if emVersion pb = 0 then !upd && !plDet p
      else match versionOf t (emVersion pb) with
        | some v => v.state == .loaded || v.state == .active
        | none => false)) && embIntervalOk s p m st

/-- Two activities meet in time. -/
def stepsMeet (a b : PlanStep) : Bool := decide (a.offset ≤ stepEnd b ∧ b.offset ≤ stepEnd a)

/-- A later step that an EMB_UPDATE of the same version may not meet (R236). -/
def embConflict (s : State) (p : List Byte) (m : Nat) (a b : PlanStep) : Bool :=
  isEmb a && isEmb b && (a.opcode == 0xF || b.opcode == 0xF) && stepsMeet a b && embKey s p m a == embKey s p m b

/-- (DEDUCED, unsafe: log entry 38.) -/
def embMinBudget (s : State) (p : List Byte) (m : Nat) (st : PlanStep) : Nat :=
  let pb := stepParams p m st
  let n := perCore s p m st
  let h := planHops s p
  let (body, slow) := match embVersion s pb with
    | some (t, v) => (t.body, decide (v.nearSlots < slotsAt t.body m (groupMembers s t.group).length))
    | none => (((embTable s (emTable pb)).map EmbTable.body).getD [], false)
  let r := if slow then 4 * rowStride body else rowStride body
  let words := if st.opcode = 0xE then poolBytes body else 48
  let pw := 4 * tabDim body * (if words = 536 then 67 else if words = 48 then 6 else 1)
  let k := setCapacity s st.scope (operDescs p m st 1)
  let e := if st.opcode = 0xE then ceilDiv (emCap pb * Nat.max r pw) 256000 + ceilDiv (k * tabDim body) 64000 + 8 + 4 * h
    else ceilDiv (emCap pb * (2 * r + 2 * pw + 12 * tabDim body)) 256000 + 8 + 4 * h
  rowBudget n 16 e

/-! ### Swage steps (R95 to R101) -/

def planSwage (p : List Byte) (m : Nat) (st : PlanStep) : SwJob :=
  let pb := stepParams p m st
  { pb := pb, src := descBytes p m (fieldN pb 8 4), dst := descBytes p m (fieldN pb 0xC 4) }

def swageParamsOk (p : List Byte) (m : Nat) (st : PlanStep) : Bool :=
  let w := planSwage p m st
  let n := dsNdim w.dst
  let k := swNslice w.pb
  st.noper == 0 && byteAt w.pb 0 == 1 && decide (1 ≤ k ∧ k ≤ 4096) && decide (64 + 128 * k ≤ st.paramLen) && !(swDies w.pb).isEmpty &&
  (List.range n).all (fun d => (List.range n).any (fun e => swPerm w.pb e == d)) && (List.range 6).all (fun d => decide (d < n) || swPerm w.pb d == d) &&
  (!isStringTy (dsType w.dst) || swPad w.pb == 0) &&
  (slices w).all (fun e => (List.range 6).all (fun d => if d < n then decide (1 ≤ slExt e d) else slExt e d == 0))

/-- (DEDUCED, unsafe: log entry 37.) -/
def swageMinBudget (s : State) (p : List Byte) (m : Nat) (st : PlanStep) : Nat :=
  let w := planSwage p m st
  ceilDiv (writtenBytes w (swPlan w) * (swWindows s w).length + 64 * (overlapSet s w).length) ((swDies w.pb).length * (if halfRate s then 16000 else 32000)) + 2

/-- Check 17 of one step. (DEDUCED, unsafe: log entry 37.) -/
def swageFits (s : State) (p : List Byte) (st : PlanStep) : Bool :=
  !(st.kind == 0 && st.opcode == 0x10) || (plPositions p).all (fun m => overlapFits s (planSwage p m st))

/-! ### Crucible steps (R278, R284, R285) -/

/-- A uint8 TABLE descriptor of tier 0 or 1 without a bitmap. -/
def byteRegion (b : List Byte) : Bool := dsTable b && dsType b == 5 && !dsValidity b && decide (dsTier b ≤ 1)

/-- An extension: a uint8 TABLE descriptor of tier 0 or 1 whose SHAPE[0] is a multiple of 4,096 (R278). -/
def extRegion (b : List Byte) : Bool := dsTable b && dsType b == 5 && decide (dsTier b ≤ 1) && dsShape b 0 % 4096 == 0

/-- A packed or unpacked operand: tier 0 or 1, any type but MX. -/
def rawOperand (b : List Byte) : Bool := decide (dsTier b ≤ 1) && !isMx (dsType b)

def packRegionSize (pb : List Byte) : Nat := 256 + fieldN pb 0x34 4 * slotLen (byteAt pb 0x31) + fieldN pb 0x38 4 * 4096

/-- TABLE of a region header: a static number, or DYNAMIC (R270). -/
def tableByteOk (t : Nat) : Bool := decide (t % 128 < 16) && (decide (t < 128) || t == 128)

/-- Bytes that two operands share. -/
def operandsApart (a b : List Byte) : Bool := overlapBytes (dsBase a, footprint a) (dsBase b, footprint b) == 0

def bareBlock (pb : List Byte) : Bool := zeroRange pb 0 0x24

def packParamsOk (p : List Byte) (m : Nat) (st : PlanStep) : Bool :=
  let pb := stepParams p m st
  let d (i : Nat) : List Byte := (operDescs p m st i).headD []
  let mode := byteAt pb 0x30
  let ext := st.noper == 3
  (operDirs st [false, true] || (mode == 1 && operDirs st [false, true, true]) || (mode == 1 && operDirs st [false, true, false])) &&
  decide (0x70 ≤ st.paramLen) && bareBlock pb && decide (mode ≤ 1) &&
  decide (1 ≤ byteAt pb 0x31 ∧ byteAt pb 0x31 ≤ 3) && tableByteOk (byteAt pb 0x32) && decide (1 ≤ fieldN pb 0x34 4 ∧ fieldN pb 0x34 4 ≤ 2 ^ 28) &&
  decide (ceilDiv (footprint (d 0)) 4096 ≤ fieldN pb 0x34 4) && decide (fieldN pb 0x38 4 ≤ 2 ^ 28) && !(namedEngines p m st).isEmpty &&
  (mode == 1 || zeroRange pb 0x50 16) && rawOperand (d 0) && byteRegion (d 1) && dsShape (d 1) 0 == packRegionSize pb && operandsApart (d 0) (d 1) &&
  (!ext || (extRegion (d 2) && operandsApart (d 0) (d 2) && operandsApart (d 1) (d 2)))

def unpackParamsOk (p : List Byte) (m : Nat) (st : PlanStep) : Bool :=
  let pb := stepParams p m st
  let d (i : Nat) : List Byte := (operDescs p m st i).headD []
  let n := fieldN pb 0x34 4
  (operDirs st [false, true] || operDirs st [false, true, false]) && decide (0x70 ≤ st.paramLen) && bareBlock pb && decide (1 ≤ n ∧ n ≤ 2 ^ 28) &&
  !(namedEngines p m st).isEmpty && byteRegion (d 0) && rawOperand (d 1) && decide (4096 * n ≤ footprint (d 1)) && operandsApart (d 0) (d 1) &&
  (st.noper != 3 || (extRegion (d 2) && operandsApart (d 0) (d 2) && operandsApart (d 1) (d 2)))

/-- Far-tier bytes F of a Crucible step (R285). -/
def crucibleFar (p : List Byte) (m : Nat) (st : PlanStep) : Nat :=
  let pb := stepParams p m st
  let d (i : Nat) : List Byte := (operDescs p m st i).headD []
  let far (b : List Byte) (n : Nat) : Nat := if dsTier b = 1 then n else 0
  if st.opcode = 0x11 then far (d 0) (footprint (d 0)) + far (d 1) (dsShape (d 1) 0)
  else far (d 0) (6144 * fieldN pb 0x34 4) + far (d 1) (4096 * fieldN pb 0x34 4)

def crucibleMinBudget (s : State) (p : List Byte) (m : Nat) (st : PlanStep) : Nat :=
  let pb := stepParams p m st
  let e := (namedEngines p m st).length
  let i := footprint ((operDescs p m st 0).headD [])
  let far := ceilDiv (crucibleFar p m st) 281600
  if st.opcode = 0x11 then
    let r := 125 * Nat.min 64 (5 * param s 3)
    let d := if byteAt pb 0x30 = 0 && bit (byteAt pb 0x32) 7 then ceilDiv i (e * 16000) else 0
    Nat.max (ceilDiv i (e * r)) far + d + 4
  else Nat.max (ceilDiv (4096 * fieldN pb 0x34 4) (e * 16000)) far + 4

/-! ### Refresh windows (R293) -/

def refreshParamsOk (p : List Byte) (m : Nat) (st : PlanStep) : Bool :=
  let b := stepParams p m st
  st.opcode == 0 && st.noper == 0 && st.scope == devKey && st.budget == 2 && st.paramLen == 16 && (byteAt b 0 == 6 || byteAt b 0 == 7) &&
  (decide (byteAt b 1 ≤ 15) || byteAt b 1 == 0xFF)

/-! ### Checks 9, 10, 16, 17 over every step -/

/-- (DEDUCED, unsafe: log entry 31.) -/
def typesOk (p : List Byte) (m : Nat) (st : PlanStep) : Bool :=
  st.kind != 0 || (match st.opcode with
    | 8 | 9 | 0x16 => hardyTypesOk p m st
    | 0xA => statTypesOk p m st
    | 0xB => normTypesOk p m st
    | 0xC | 0xD | 0x13 => selTypesOk p m st
    | 0xE | 0xF => embTypesOk p m st
    | 0x10 | 0x11 | 0x12 => true
    | _ => rowTypesOk p m st)

/-- Check 10 of one step but for writes between a pair of steps (R154, R177, R193). (DEDUCED, unsafe: log entry 31.) (DEDUCED, unsafe: log entry 32.) -/
def blockOk (s : State) (p : List Byte) (m : Nat) (st : PlanStep) : Bool :=
  match st.kind with
  | 1 => hardyParamsOk p m st
  | 2 => refreshParamsOk p m st
  | _ => match st.opcode with
    | 8 | 9 | 0x16 => hardyParamsOk p m st
    | 0xA => statParamsOk p m st
    | 0xB => normParamsOk s p m st
    | 0xC | 0xD | 0x13 => selParamsOk p m st
    | 0xE | 0xF => embParamsOk s p m st
    | 0x10 => swageParamsOk p m st
    | 0x11 => packParamsOk p m st
    | 0x12 => unpackParamsOk p m st
    | _ => rowParamsOk p m st

/-- Minimum budget of a step on a member (check 16). -/
def minBudget (s : State) (p : List Byte) (m : Nat) (st : PlanStep) : Nat :=
  match st.kind with
  | 1 => hardyMinBudget s p m st
  | 2 => 2
  | _ => match st.opcode with
    | 8 | 9 | 0x16 => hardyMinBudget s p m st
    | 0xA | 0xB => statMinBudget s p m st
    | 0xC | 0xD | 0x13 => selMinBudget s p m st
    | 0xE | 0xF => embMinBudget s p m st
    | 0x10 => swageMinBudget s p m st
    | 0x11 | 0x12 => crucibleMinBudget s p m st
    | _ => rowMinBudget s p m st

/-- The first step that some member's check refuses. -/
def firstStep (p : List Byte) (ok : Nat → PlanStep → Bool) : Option PlanStep :=
  (planSteps p).find? (fun st => !(plPositions p).all (fun m => ok m st))

end Sys2Proof.Machine
end

