-- ==== Sys2Proof/Machine/AcceptConflict.lean ====
section
/-!
DEFINITION. Acceptance checks 10 (writes between a pair of steps), 11, 12 and 15: what each activity of a plan reads and writes, the
conflicts between activities, and the marks (R106, R110, R116, R120, R132, R154, R177, R193, R236, R268, R381).
-/
namespace Sys2Proof.Machine

/-- An activity of a plan on one member: first and last offset, the ranges (address, bytes) it reads and writes, and the slot sets
(twice the slot, plus the set). A stream repeat has no step. -/
structure PlanAct where
  step : Option PlanStep
  first : Nat
  last : Nat
  reads : List (Nat × Nat)
  writes : List (Nat × Nat)
  slotR : List Nat
  slotW : List Nat

def occNumber (o : PlanAct) : Nat :=
  match o.step with
  | some st => st.index
  | none => 0xFFFFFFFF

/-- Ranges of a descriptor in every window that a scope gives it. -/
def scopeRanges (s : State) (scope : Nat) (b : List Byte) : List (Nat × Nat) :=
  (windowsOf s scope b).flatMap (fun w => (descRanges b).map (fun r => (w + r.1, r.2)))

/-- Ranges of operand i of a step. -/
def operRanges (s : State) (p : List Byte) (m : Nat) (st : PlanStep) (i : Nat) : List (Nat × Nat) :=
  (operDescs p m st i).flatMap (scopeRanges s st.scope)

def operIndices (st : PlanStep) (out : Bool) : List Nat := (List.range st.noper).filter (fun i => operOut (st.opers.getD i 0) == out)

/-- Slot sets that the operands of a step stage. -/
def operSlots (st : PlanStep) (out : Bool) : List Nat :=
  ((operIndices st out).filter (fun i => operSlot (st.opers.getD i 0) != 0xFF)).map (fun i =>
    2 * operSlot (st.opers.getD i 0) + operSet (st.opers.getD i 0))

/-- Bytes that a Swage job reads and writes: those of the elements, of their bitmap bits, of the tile padding in the lines written, and of the
staging areas that take the lines of O (R102). (DEDUCED, unsafe: log entry 37.) -/
def swageRanges (s : State) (p : List Byte) (m : Nat) (st : PlanStep) : List (Nat × Nat) × List (Nat × Nat) :=
  let w := planSwage p m st
  let plan := swPlan w
  let cells := plan.cells
  let at' (b : List Byte) (win o i : Nat) : List (Nat × Nat) :=
    (win + dsBase b + o / 8, ceilDiv (o % 8 + dsWidth b) 8) :: (if dsValidity b then [(win + dsAux0 b + i / 8, 1)] else [])
  ((swWindows s w).flatMap (fun v => (swSources w).flatMap (fun x => at' w.src v.1 (elemBit w.src (atDim x)) (linOf w.src x))),
   (swWindows s w).flatMap (fun v => cells.flatMap (fun c => at' w.dst v.2 (linBit w.dst c.1) c.1) ++
     (padBits w plan).map (fun o => (v.2 + dsBase w.dst + o / 8, ceilDiv (o % 8 + dsWidth w.dst) 8)) ++
     (tailBits w plan).map (fun i => (v.2 + dsAux0 w.dst + i / 8, 1))) ++
     (List.range (overlapSet s w).length).map (fun j => (stagePlace (swDies w.pb) j, 64)))

/-- Reads and writes of a PACK or UNPACK step: a region that PACK appends to is also read (R278, R284). -/
def crucibleRanges (s : State) (p : List Byte) (m : Nat) (st : PlanStep) : List (Nat × Nat) × List (Nat × Nat) :=
  let pb := stepParams p m st
  let r (i : Nat) : List (Nat × Nat) := operRanges s p m st i
  let ext := if 3 ≤ st.noper then r 2 else []
  if st.opcode = 0x11 then (r 0 ++ (if byteAt pb 0x30 = 1 then r 1 ++ ext else []), r 1 ++ ext)
  else (r 0 ++ ext, r 1)

/-- Table slots of an embedding step on this device (R220). -/
def tableRanges (s : State) (p : List Byte) (m : Nat) (st : PlanStep) : List (Nat × Nat) :=
  match embVersion s (stepParams p m st) with
  | some (t, v) => versionRanges s t v
  | none => []

/-- The activity of a step on position m. -/
def stepOcc (s : State) (p : List Byte) (m : Nat) (st : PlanStep) : PlanAct :=
  let ins := (operIndices st false).flatMap (operRanges s p m st)
  let outs := (operIndices st true).flatMap (operRanges s p m st)
  let (r, w) : List (Nat × Nat) × List (Nat × Nat) :=
    if st.kind ≠ 0 then ([], [])
    else match st.opcode with
      | 0x10 => swageRanges s p m st
      | 0x11 | 0x12 => crucibleRanges s p m st
      | 0xE => (ins ++ tableRanges s p m st, outs)
      | 0xF => (ins ++ tableRanges s p m st, outs ++ tableRanges s p m st)
      | _ => (ins, outs)
  { step := some st, first := st.offset, last := stepEnd st, reads := r, writes := w, slotR := operSlots st false, slotW := operSlots st true }

/-- Memory-side ranges of repeat j of a record over its cores. The addresses of a RING repeat are not in the plan. -/
def memorySide (s : State) (p : List Byte) (m r j : Nat) : List (Nat × Nat) :=
  if strForm (streamHdr p m r) = 2 then []
  else (streamRanks s (streamHdr p m r)).flatMap (fun k => (streamXfers p m r j k).filterMap (fun x =>
    let (_, a, n) := x.inside
    if n = 0 then none else some (a, n)))

/-- The activity of repeat j of record r on position m (R248, R249). -/
def repeatOcc (s : State) (p : List Byte) (m r j : Nat) : PlanAct :=
  let h := streamHdr p m r
  let side := memorySide s p m r j
  let slot := 2 * strSlot h + repeatSet h j
  let wins := (rankedCores s h).map (fun c => (windowBase c.2 + slotBase p (strSlot h) (repeatSet h j), streamTotal p m r))
  let base : PlanAct := { step := none, first := strStart h j, last := strStart h j + strBudget h - 1, reads := [], writes := [], slotR := [], slotW := [] }
  match strKind h with
  | 0 => { base with reads := side, writes := wins, slotW := [slot] }
  | 1 => { base with reads := wins, writes := side, slotR := [slot] }
  | 2 => { base with reads := side }
  | _ => { base with writes := side }

/-- Every activity of steps and streams on position m: steps by index, then repeats. -/
def planOccs (s : State) (p : List Byte) (m : Nat) : List PlanAct :=
  (planSteps p).map (stepOcc s p m) ++
    (streamNames p m).flatMap (fun r => (List.range (strRepeat (streamHdr p m r))).map (repeatOcc s p m r))

def rangesMeet (a b : List (Nat × Nat)) : Bool := a.any (fun x => b.any (fun y => overlapBytes x y != 0))

def occsMeet (a b : PlanAct) : Bool := decide (a.first ≤ b.last ∧ b.first ≤ a.last)

/-! ### Check 10: writes between a pair of steps (R154, R177, R193) -/

/-- Some activity that occupies an offset strictly between lo and hi writes the ranges. (DEDUCED, unsafe: log entry 42.) -/
def writtenBetween (os : List PlanAct) (lo hi : Nat) (rs : List (Nat × Nat)) : Bool :=
  os.any (fun o => decide (lo < o.last ∧ o.first < hi ∧ lo + 1 < hi) && rangesMeet o.writes rs)

/-- The earlier step that a step rests on, and the operands no activity may write meanwhile. -/
def restsOn (p : List Byte) (m : Nat) (st : PlanStep) : Option (Nat × List Nat) :=
  let pb := stepParams p m st
  if st.kind ≠ 0 then none
  else match st.opcode with
    | 7 => some (fieldN pb 0x34 4, [1, 2])
    | 9 => if hpMode pb = 2 then some (hpLoad pb, [1]) else none
    | 0xB => if fieldN pb 0x34 4 = 0xFFFFFFFF then none else some (fieldN pb 0x34 4, [2])
    | _ => none

/-- No activity writes an operand of a LOAD or INSERT between the step and a checkpoint mark within the table's lifetime: a replay from that
mark reruns the step from the same operand (R186). -/
def reloadUntouched (s : State) (p : List Byte) (m : Nat) (st : PlanStep) : Bool :=
  let pb := stepParams p m st
  if !(isHardyOp st && decide (hpMode pb ≤ 1)) then true
  else
    let ld := if hpMode pb = 0 then st else stepAt p (hpLoad pb)
    let marks := (planMarks p).filter (fun k => bit k.kind 0 && decide (st.offset < k.off ∧ k.off ≤ tableEnd p m ld))
    marks.all (fun k => !writtenBetween ((planOccs s p m).filter (fun o => occNumber o != st.index)) (stepEnd st) k.off (operRanges s p m st 0))

def pairUntouched (s : State) (p : List Byte) (m : Nat) (st : PlanStep) : Bool :=
  match restsOn p m st with
  | none => true
  | some (i, ops) =>
    !writtenBetween ((planOccs s p m).filter (fun o => occNumber o != i && occNumber o != st.index)) (stepEnd (stepAt p i)) st.offset
      (ops.flatMap (operRanges s p m st))

/-! ### Checks 11 and 12 -/

/-- The first pair (a before b) of a list that a relation marks. -/
def firstPair {α : Type} (bad : α → α → Bool) : List α → Option (α × α)
  | [] => none
  | a :: rest =>
    match rest.find? (bad a) with
    | some b => some (a, b)
    | none => firstPair bad rest

/-- Check 11 (R110). -/
def arrayClash (p : List Byte) : Option (PlanStep × PlanStep) :=
  firstPair (fun a b => isArray a && isArray b && stepsMeet a b) (planSteps p)

/-- A Hardy rebalance beside an ARRAY activity with Hardy on a die (R132, R143). -/
def hardyClash (p : List Byte) (m : Nat) (a b : PlanStep) : Bool :=
  let uses (st : PlanStep) : Bool := classOf st == .arrayHardy || hasInTerm p m st
  let shared := (diesOf a.scope).any (fun d => (diesOf b.scope).contains d)
  ((a.kind == 1 && uses b) || (b.kind == 1 && uses a)) && shared

/-- Two CRUCIBLE activities name the same engine (R268). -/
def crucibleClash (p : List Byte) (m : Nat) (a b : PlanStep) : Bool :=
  classOf a == .crucible && classOf b == .crucible && (namedEngines p m a).any (fun e => (namedEngines p m b).contains e)

/-- Two activities of a member that conflict (check 12). -/
def clash (s : State) (p : List Byte) (m : Nat) (a b : PlanAct) : Bool :=
  occsMeet a b &&
    (rangesMeet a.writes b.writes || rangesMeet a.writes b.reads || rangesMeet a.reads b.writes ||
      a.slotW.any (fun x => b.slotW.contains x || b.slotR.contains x) || a.slotR.any (fun x => b.slotW.contains x) ||
      (match a.step, b.step with
       | some x, some y => hardyClash p m x y || crucibleClash p m x y || embConflict s p m x y
       | _, _ => false))

/-- The conflict of the lowest step over the members; checks go through steps in ascending index (R122). -/
def firstClash (s : State) (p : List Byte) : Option (PlanAct × PlanAct) :=
  ((plPositions p).filterMap (fun m => firstPair (clash s p m) (planOccs s p m))).foldl (fun acc x => match acc with
    | none => some x
    | some a => if occNumber x.1 < occNumber a.1 then some x else some a) none

/-- The failure of a conflict: the first activity's step, and the second's where it is one. (DEDUCED, unsafe: log entry 42.) -/
def clashDiag (reason : Nat) (a b : PlanAct) : Diag :=
  { Diag.of reason with step := occNumber a, detail := b.step.map (·.index) }

/-! ### Check 15: marks (R120, R381) -/

/-- Checkpoint offsets, offset 0 among them. -/
def checkpoints (p : List Byte) : List Nat := 0 :: ((planMarks p).filter (fun k => bit k.kind 0)).map (·.off)

/-- Gaps between neighbours of a rising list are at most n. -/
def gapsAtMost (n : Nat) : List Nat → Bool
  | a :: b :: rest => decide (b ≤ a + n) && gapsAtMost n (b :: rest)
  | _ => true

def markOk (p : List Byte) (k : Mark) : Bool :=
  decide (1 ≤ k.off ∧ k.off < plLength p) && (bit k.kind 0 || bit k.kind 1) && bit k.kind 1 == (k.value != 0)

/-- Marks alone (R120). -/
def marksOk (p : List Byte) : Bool :=
  let ks := planMarks p
  let ps := ks.filter (fun k => bit k.kind 1)
  ks.all (markOk p) && strictlyRising (ks.map (·.off)) && strictlyRising (ps.map (·.value)) &&
  gapsAtMost 4096 (checkpoints p ++ [plLength p]) &&
  (decide (plLength p ≤ 2048) || (!ps.isEmpty && gapsAtMost 2048 (0 :: ps.map (·.off) ++ [plLength p])))

/-- A checkpoint lies inside [a, b]: both k − 1 and k belong to it. -/
def crossed (p : List Byte) (a b : Nat) : Bool := (checkpoints p).any (fun k => decide (a < k ∧ k ≤ b))

/-- Part of a scratchpad that a checkpoint does not save: slots and the plan space of side windows. -/
def inScratch (r : Nat × Nat) : Bool := decide (scratchBase ≤ r.1 ∧ r.1 < ucpBase)

/-- What is left of a range without another. -/
def rangeWithout (x w : Nat × Nat) : List (Nat × Nat) :=
  if overlapBytes x w = 0 then [x]
  else
    let stop := x.1 + x.2
    (if x.1 < w.1 then [(x.1, w.1 - x.1)] else []) ++ (if w.1 + w.2 < stop then [(w.1 + w.2, stop - (w.1 + w.2))] else [])

/-- Ranges were written, each byte last, before a checkpoint at or before offset `first`; the writers come latest first (R381). -/
def staleRanges (p : List Byte) (first : Nat) : List PlanAct → List (Nat × Nat) → Bool
  | [], _ => false
  | w :: ws, xs =>
    if !rangesMeet w.writes xs then staleRanges p first ws xs
    else (checkpoints p).any (fun k => decide (w.first < k ∧ k ≤ first)) ||
      staleRanges p first ws (w.writes.foldl (fun xs r => xs.flatMap (fun x => rangeWithout x r)) xs)

/-- Bytes of scratchpads that r reads were written before a checkpoint at or before r. -/
def staleRead (p : List Byte) (os : List PlanAct) (r : PlanAct) : Bool :=
  let xs := r.reads.filter inScratch
  !xs.isEmpty && staleRanges p r.first (sortBy (fun a b => decide (b.last < a.last)) (os.filter (fun w => decide (w.last < r.first)))) xs

/-- An EMB_UPDATE's own table slots are exempt from the third rule of R381. -/
def rewriteRanges (s : State) (p : List Byte) (m : Nat) (w : PlanAct) : List (Nat × Nat) :=
  match w.step with
  | some st => if st.kind = 0 ∧ st.opcode = 0xF then
      (let own := tableRanges s p m st
       w.writes.filter (fun x => !own.contains x)) else w.writes
  | none => w.writes

/-- Tier bytes that r read are written by w, which starts fewer than 8,448 offsets after r starts. -/
def earlyRewrite (s : State) (p : List Byte) (m : Nat) (r w : PlanAct) : Bool :=
  (occNumber r == occNumber w && r.step.isSome && r.first == w.first) || !decide (r.first ≤ w.first ∧ w.first < r.first + 8448) ||
    !rangesMeet (r.reads.filter (fun x => decide (x.1 < scratchBase))) (rewriteRanges s p m w)

end Sys2Proof.Machine
end

