-- ==== Sys2Proof/Machine/AcceptLinks.lean ====
section
/-!
DEFINITION. Acceptance checks 13, 14, 16 and 18: the slot maps and flows, HOLD_LEAD, the stream and refresh budgets, and the resources
of the member (R117 to R119, R246, R256, R258, R278, R294, R319, R355, R368, R409).
-/
namespace Sys2Proof.Machine

/-! ### Check 13: slot maps, flows, HOLD_LEAD -/

/-- Position of this device in the plan's group. -/
def myPos (s : State) (p : List Byte) : Nat := groupPos s (plGroup p)

/-- Device number of position m. -/
def deviceOf (s : State) (p : List Byte) (m : Nat) : Nat := (groupMembers s (plGroup p)).getD m 0

/-- Lanes of port q that a slot map assigns at an offset. -/
def lanesUsed (ws : List WeldSlot) (off q : Nat) : Nat := ((List.range 8).filter (fun l => (slotFlow ws off q l).isSome)).length

/-- One entry of a slot map. -/
def weldEntryOk (s : State) (p : List Byte) (m : Nat) (w : WeldSlot) : Bool :=
  decide (1 ≤ w.count ∧ w.first + w.count ≤ plLength p ∧ w.port ≤ 7 ∧ w.flow < sectionCount p 7 0xFFFF) && !(flowAt p w.flow).dynamic &&
  (m != myPos s p || (weldMode s w.port && !latExceeded s w.port &&
    (List.range 8).all (fun l => !bit w.lanes l || ((portGet s w.port).state == .up && laneUp (portGet s w.port) l))))

/-- Two entries that share a lane slot carry the same flow. -/
def weldPairOk (a b : WeldSlot) : Bool :=
  a.flow == b.flow || a.port != b.port || !(List.range 8).any (fun l => bit a.lanes l && bit b.lanes l) ||
    !decide (a.first < b.first + b.count ∧ b.first < a.first + a.count)

/-- The slot map of a member (R117, R319). (DEDUCED, unsafe: log entry 40.) -/
def slotMapOk (s : State) (p : List Byte) (m : Nat) : Bool :=
  let ws := weldSlots p m
  ws.all (weldEntryOk s p m) && ws.all (fun a => ws.all (weldPairOk a)) &&
  (List.range (plLength p)).all (fun k => (List.range 8).all (fun q =>
    decide (sumNat ((List.range 256).map (fun i => lanesUsed ws (k + i) q)) ≤ 2040)))

/-- The device that a port of device d reaches: the next one present in the port's direction, or the peer of a local port. (DEDUCED, unsafe: log entry 41.) -/
def nextDevice (s : State) (d q : Nat) : Option Nat :=
  if d = s.form.device ∧ (portGet s q).peerDevice ≠ 0xFFF then some (portGet s q).peerDevice.toNat
  else if 6 ≤ q then none
  else
    let (x, y, z) := coordOf s d
    let step (a n i : Nat) : Nat := if q % 2 = 0 then (a + i) % n else (a + n * 4 - i) % n
    let place (i : Nat) : Nat :=
      let (a, b, c) := match q / 2 with
        | 0 => (step x s.form.dx i, y, z)
        | 1 => (x, step y s.form.dy i, z)
        | _ => (x, y, step z s.form.dz i)
      a + s.form.dx * (b + s.form.dy * c)
    ((List.range 4).map (fun i => place (i + 1))).find? (fun e => e != d && topoState s e != 0)

/-- Offset and lane of every slot of a flow on a member. -/
def slotsOfFlow (p : List Byte) (m f : Nat) : List (Nat × Nat) :=
  ((weldSlots p m).filter (fun w => w.flow == f)).flatMap (fun w =>
    (List.range w.count).flatMap (fun i => ((List.range 8).filter (bit w.lanes)).map (fun l => (w.first + i, l))))

/-- The port that a member's slots of a flow use, when they agree. (DEDUCED, unsafe: log entry 40.) -/
def flowPort (p : List Byte) (m f : Nat) : Option Nat :=
  match dedupNat (((weldSlots p m).filter (fun w => w.flow == f)).map (·.port)) with
  | [q] => some q
  | _ => none

/-- Positions that send a flow on its way to dst, by the slot maps of the successive members (R118). -/
def flowRoute (s : State) (p : List Byte) (f dst : Nat) : Nat → Nat → Option (List Nat)
  | _, 0 => none
  | m, n + 1 =>
    if m = dst then some []
    else match flowPort p m f with
      | none => none
      | some q => match nextDevice s (deviceOf s p m) q with
        | none => none
        | some d => match (groupMembers s (plGroup p)).findIdx? (· == d) with
          | none => none
          | some m' => (flowRoute s p f dst m' n).map (fun r => m :: r)

/-- Every hop carries the flow's bytes; the SEND and LAND records are placed around its slots (R118, R258). The arriving offset of a
slot is the one of R319. -/
def flowPlaced (s : State) (p : List Byte) (f : Flow) : Bool :=
  let send := streamHdr p f.src f.srcStream
  let land := streamHdr p f.dst f.dstStream
  f.bytes == 0 || (match flowRoute s p f.index f.dst f.src (plMembers p + 1) with
    | none => false
    | some route =>
      let offs (m : Nat) : List Nat := (slotsOfFlow p m f.index).map (·.1)
      let out := offs f.src
      let arr := (offs (route.getLastD f.src)).map (· + param s 0xC)
      route.all (fun m => decide (f.bytes ≤ 11264 * (dedupSlots (slotsOfFlow p m f.index)).length)) &&
      out.all (fun o => decide (strFirst send + 1 ≤ o ∧ o < strFirst send + strBudget send)) &&
      arr.all (fun o => decide (strFirst land ≤ o ∧ o + 1 < strFirst land + strBudget land)))
where
  dedupSlots (l : List (Nat × Nat)) : List (Nat × Nat) := l.foldl (fun a x => if a.contains x then a else x :: a) []

/-- A flow and the records it names. (DEDUCED, unsafe: log entry 40.) -/
def flowOk (s : State) (p : List Byte) (f : Flow) : Bool :=
  let named (m r kind : Nat) : Bool := (streamNames p m).contains r && strKind (streamHdr p m r) == kind
  decide (f.src < plMembers p ∧ f.dst < plMembers p) && f.src != f.dst && named f.src f.srcStream 2 && named f.dst f.dstStream 3 &&
  streamTotal p f.src f.srcStream == f.bytes && decide (f.bytes ≤ streamTotal p f.dst f.dstStream) && (f.dynamic || flowPlaced s p f)

/-- A slot map entry's frames stay on one side of every checkpoint, on their way too (R120, R381). (DEDUCED, unsafe: log entry 42.) -/
def weldMarkOk (s : State) (p : List Byte) (w : WeldSlot) : Bool := !crossed p w.first (w.first + w.count - 1 + param s 0xC)

/-- The frames of a flow stay on one side of every checkpoint on their whole way, held at forwarding members too: frame i takes slot i of every member
(R118, R381). -/
def flowMarkOk (s : State) (p : List Byte) (f : Flow) : Bool :=
  f.dynamic || f.bytes == 0 || (match flowRoute s p f.index f.dst f.src (plMembers p + 1) with
    | none => true
    | some route =>
      let slots (m : Nat) : List Nat :=
        (sortBy (fun a b => decide (a.1 < b.1 ∨ (a.1 = b.1 ∧ a.2 < b.2))) (slotsOfFlow p m f.index)).map (·.1)
      ((slots f.src).zip (slots (route.getLastD f.src))).all (fun x => !crossed p x.1 (x.2 + param s 0xC)))

/-- Check 15. -/
def checkMarks (s : State) (p : List Byte) : Option Diag :=
  let d : Diag := { Diag.of 9 with sect := sectIndex p 8 0xFFFF }
  let ms := plPositions p
  if !marksOk p then some d
  else
    let bad (o : PlanAct) (w : Option PlanAct) : Diag := { d with step := occNumber o, detail := w.bind (fun w => w.step.map (·.index)) }
    let found := ms.flatMap (fun m =>
      let os := planOccs s p m
      os.filterMap (fun r =>
        if crossed p r.first r.last || staleRead p os r then some (bad r none)
        else (os.find? (fun w => !earlyRewrite s p m r w)).map (fun w => bad r (some w))))
    match minNat? (found.map (·.step)) with
    | some i => found.find? (fun x => x.step == i)
    | none => require (ms.all (fun m => (weldSlots p m).all (weldMarkOk s p)) && (planFlows p).all (flowMarkOk s p)) d

/-- Longest run of offsets in which a member's slot map assigns every lane of a port: the run so far, and the longest. -/
def longestRun (ws : List WeldSlot) (q n : Nat) : Nat :=
  ((List.range n).foldl (fun (a : Nat × Nat) k =>
    let run := if lanesUsed ws k q = 8 then a.1 + 1 else 0
    (run, Nat.max a.2 run)) (0, 0)).2

/-! ### Routing tables (R328 to R330) -/

/-- Port of the default route in one dimension, none when the coordinate is right. -/
def dimPort (a b n dim : Nat) : Option Nat :=
  let d := (b + n - a) % n
  if d = 0 then none else if d ≤ n - d then some (2 * dim) else some (2 * dim + 1)

/-- The default entry of device a for device b: PRIMARY of R328, the opposite port as ALT, HOPS along PRIMARY. (DEDUCED, unsafe: log entry 78.) -/
def defaultRoute (s : State) (a b : Nat) : BitVec 32 :=
  let (x, y, z) := coordOf s a
  let (x', y', z') := coordOf s b
  let hops := ringDist x x' s.form.dx + ringDist y y' s.form.dy + ringDist z z' s.form.dz
  match ((dimPort x x' s.form.dx 0).or (dimPort y y' s.form.dy 1)).or (dimPort z z' s.form.dz 2) with
  | none => BitVec.ofNat 32 (2 ^ 31)
  | some p => BitVec.ofNat 32 (2 ^ 31 + hops * 2 ^ 16 + 2 ^ (if p % 2 = 0 then p + 1 else p - 1) * 2 ^ 8 + 2 ^ p)

/-- Devices of the formation: this one and those that reported (R408). -/
def presentDevices (s : State) : List Nat :=
  (List.range (s.form.dx * s.form.dy * s.form.dz)).filter (fun d => d == s.form.device || sparseGet 0 d s.form.devState != 0)

/-- A port of a device is UP as the master knows it: its own, or as the device has reported (R408). -/
def masterPortUp (s : State) (d p : Nat) : Bool :=
  if d = s.form.device then portUp s p else (sparseGet 0 d s.form.portsUp).toNat.testBit p

/-- The device one position away in a port's direction. -/
def stepFrom (s : State) (d p : Nat) : Nat :=
  let (x, y, z) := coordOf s d
  let go (v n : Nat) : Nat := if p % 2 = 0 then (v + 1) % n else (v + n - 1) % n
  let (x', y', z') := match p / 2 with
    | 0 => (go x s.form.dx, y, z)
    | 1 => (x, go y s.form.dy, z)
    | _ => (x, y, go z s.form.dz)
  x' + s.form.dx * (y' + s.form.dy * z')

/-- The first present device within 4 positions in a port's direction: closed bypasses pass absent ones by (R313, R326). -/
def firstPresent (s : State) (ds : List Nat) (p : Nat) : Nat → Nat → Option Nat
  | 0, _ => none
  | n + 1, d => let e := stepFrom s d p; if ds.contains e then some e else firstPresent s ds p n e

/-- The device at the other end of a torus port, where the link is UP at both ends. -/
def linkPeer (s : State) (ds : List Nat) (d p : Nat) : Option Nat :=
  (firstPresent s ds p 4 d).filter (fun e => e != d && masterPortUp s d p && masterPortUp s e (if p % 2 = 0 then p + 1 else p - 1))

/-- A device reached from a: the hops, and the ports of a on which the shortest ways begin. -/
structure Reach where
  device : Nat
  hops : Nat
  first : Nat

/-- One more hop from the devices reached in the last. -/
def spreadHop (s : State) (ds : List Nat) (known frontier : List Reach) : List Reach :=
  frontier.foldl (fun acc r => (List.range 6).foldl (fun acc p => match linkPeer s ds r.device p with
    | none => acc
    | some e =>
      let first := if r.hops = 0 then 2 ^ p else r.first
      if known.any (fun x => x.device == e) then acc
      else if acc.any (fun x => x.device == e) then acc.map (fun x => if x.device == e then { x with first := x.first ||| first } else x)
      else acc ++ [{ device := e, hops := r.hops + 1, first := first }]) acc) []

/-- The devices reached from a over UP links, in rising hops. -/
def reachFrom (s : State) (ds : List Nat) : Nat → List Reach → List Reach → List Reach
  | 0, known, _ => known
  | n + 1, known, frontier =>
    let next := spreadHop s ds known frontier
    if next.isEmpty then known else reachFrom s ds n (known ++ next) next

/-- What device a reaches. -/
def reachable (s : State) (a : Nat) : List Reach :=
  let ds := presentDevices s
  let here : Reach := { device := a, hops := 0, first := 0 }
  reachFrom s ds ds.length [here] [here]

/-- The entry of device a for device d, from what a reaches. (DEDUCED, unsafe: log entry 78.) -/
def routeTo (s : State) (a : Nat) (reach : List Reach) (d : Nat) : BitVec 32 :=
  match reach.find? (fun r => r.device == d) with
  | none => 0
  | some r =>
    let e := defaultRoute s a d
    if d = a || (r.hops == bits e.toNat 23 16 && r.first &&& bits e.toNat 7 0 != 0) then e
    else BitVec.ofNat 32 (2 ^ 31 + r.hops * 2 ^ 16 + r.first % 256)

/-- The table of device a (R330): to each device that UP links reach the default entry where its port begins a shortest way, else the ports
that do; no entry to any other. (DEDUCED, unsafe: log entry 78.) -/
def routeTable (s : State) (a : Nat) : List (BitVec 32) :=
  let reach := reachable s a
  (List.range 4096).map (routeTo s a reach)

/-- Port that a message takes on device d towards e: the active table's on this device; elsewhere the one that R330 gives for the ports that the
devices have reported, or the default route's before they have. (DEDUCED, unsafe: log entry 41.) -/
def hopPort (s : State) (d e : Nat) : Option Nat :=
  let known := if d = s.form.device then routeEntry s e else routeTo s d (reachable s d) e
  let entry := (if bit known.toNat 31 && bits known.toNat 7 0 != 0 then known else defaultRoute s d e).toNat
  (List.range 8).find? (bit (bits entry 7 0))

/-- Strikes of a TIME message from device d to device e (R368). (DEDUCED, unsafe: log entry 41.) -/
def leadTime (s : State) (p : List Byte) (e : Nat) : Nat → Nat → Nat
  | _, 0 => 0
  | d, n + 1 =>
    if d = e then 0
    else match hopPort s d e with
      | none => 0
      | some q =>
        let run := match (groupMembers s (plGroup p)).findIdx? (· == d) with
          | some m => longestRun (weldSlots p m) q (plLength p)
          | none => 0
        (1 + run) + param s 0xC + 1 + (match nextDevice s d q with
          | some d' => leadTime s p e d' n
          | none => 0)

/-- HOLD_LEAD of a plan (R368). (DEDUCED, unsafe: log entry 41.) -/
def planHoldLead (s : State) (p : List Byte) : Nat :=
  let ds := groupMembers s (plGroup p)
  Nat.max 2 (maxNat (ds.flatMap (fun a => ds.map (fun b => leadTime s p b a (s.form.dx + s.form.dy + s.form.dz)))))

/-- Check 13. -/
def checkWeld (s : State) (p : List Byte) : Option Diag :=
  match (plPositions p).find? (fun m => !slotMapOk s p m) with
  | some m => some { Diag.of 8 with sect := sectIndex p 6 m }
  | none =>
    if !(planFlows p).all (flowOk s p) then some { Diag.of 8 with sect := sectIndex p 7 0xFFFF }
    else require (decide (planHoldLead s p ≤ 256)) (Diag.of 8)

/-- Check 14 (R119). -/
def detOk (p : List Byte) : Bool := !(plDet p && (planFlows p).any (·.dynamic))

/-! ### Check 16: streams and refresh (R256, R285, R294) -/

/-- Paths: near-tier stacks 0 to 15, the far tier 16, scratchpad ports from 32 by window. -/
def pathOf (s : State) (a : Nat) : Nat :=
  if a < 2 ^ 40 then nearStack (param s 1) a else if a < scratchBase then 16 else 32 + (a - scratchBase) / 2 ^ 22

def pathCapacity (q : Nat) : Nat := if q < 16 then 640000 else if q = 16 then 281600 else 64000

/-- Lines that n bytes from address a touch. -/
def linesAt (a n : Nat) : List Nat := if n = 0 then [] else (List.range ((a + n - 1) / 64 + 1 - a / 64)).map (fun i => (a / 64 + i) * 64)

/-- Lines on the sequential side of a repeat in one core. (DEDUCED, unsafe: log entry 40.) -/
def seqLines (base : Nat) : List Xfer → List Nat
  | [] => []
  | x :: xs => linesAt base x.len ++ seqLines (base + x.len) xs

/-- Path of every line that repeat j of a record touches, with repetition. -/
def repeatPaths (s : State) (p : List Byte) (m r j : Nat) : List Nat :=
  let h := streamHdr p m r
  let mem (xs : List Xfer) : List Nat := xs.flatMap (fun x => let (_, a, n) := x.inside; linesAt a n)
  let lines := if strKind h ≤ 1 then
      (rankedCores s h).flatMap (fun c =>
        let xs := streamXfers p m r j c.1
        mem xs ++ seqLines (windowBase c.2 + slotBase p (strSlot h) (repeatSet h j)) xs)
    else mem (streamXfers p m r j 0)
  lines.map (pathOf s)

/-- Bytes that repeat j charges to a path. -/
def repeatCharge (s : State) (p : List Byte) (m r j q : Nat) : Nat :=
  let h := streamHdr p m r
  if strForm h = 2 then (if q ≤ 16 then strNentry h * 4160 else 0)
  else 64 * ((repeatPaths s p m r j).filter (· == q)).length

/-- Paths that a record may charge. -/
def recordPaths (s : State) (p : List Byte) (m r : Nat) : List Nat :=
  if strForm (streamHdr p m r) = 2 then List.range 17
  else dedupNat ((List.range (strRepeat (streamHdr p m r))).flatMap (repeatPaths s p m r))

/-- A record's budget fits its busiest path (R256). -/
def recordBudgetOk (s : State) (p : List Byte) (m r : Nat) : Bool :=
  let h := streamHdr p m r
  decide (2 ≤ strBudget h) && (recordPaths s p m r).all (fun q => (List.range (strRepeat h)).all (fun j =>
    decide (ceilDiv (repeatCharge s p m r j q) (pathCapacity q) + 2 ≤ strBudget h)))

/-- The repeat of a record that occupies an offset. -/
def repeatOn (h : List Byte) (off : Nat) : Option Nat :=
  (List.range (strRepeat h)).find? (fun j => decide (strStart h j ≤ off ∧ off < strStart h j + strBudget h))

/-- Bytes per strike that the activities at an offset draw from a path. -/
def pathSum (s : State) (p : List Byte) (m off q : Nat) : Nat :=
  sumNat ((streamNames p m).map (fun r => match repeatOn (streamHdr p m r) off with
    | some j => ceilDiv (repeatCharge s p m r j q) (strBudget (streamHdr p m r))
    | none => 0)) +
  (if q = 16 then
     sumNat (((planSteps p).filter (fun st => classOf st == .crucible && decide (st.offset ≤ off ∧ off ≤ stepEnd st))).map (fun st =>
       ceilDiv (crucibleFar p m st) st.budget))
   else 0)

/-- Controllers of a refresh window, stacks as 0 to 15 and far-tier ones as 16 to 31. (DEDUCED, unsafe: log entry 43.) -/
def windowControllers (p : List Byte) (m : Nat) (st : PlanStep) : List Nat :=
  let b := stepParams p m st
  let base := if byteAt b 0 = 7 then 16 else 0
  if byteAt b 1 = 0xFF then (List.range 16).map (base + ·) else [base + byteAt b 1]

def refreshSteps (p : List Byte) : List PlanStep := (planSteps p).filter (fun st => st.kind == 2)

/-- A window that covers path q's controllers occupies the offset. -/
def pathRefreshes (p : List Byte) (m off q : Nat) : Bool :=
  (refreshSteps p).any (fun st => decide (st.offset ≤ off ∧ off ≤ stepEnd st) && (windowControllers p m st).any (fun c => c == q || (q == 16 && decide (16 ≤ c))))

/-- A stack that this Warden does not hold to R294: one of an OFFLINE column here, which is exempt, and those of the other members, whose Wardens know
which of their columns are OFFLINE and judge them. (DEDUCED, unsafe: log entry 43.) -/
def offlinePath (s : State) (p : List Byte) (m q : Nat) : Bool := decide (q < 16) && (m != myPos s p || isOffline s (columnKey q))

/-- The sums of R256, at half capacity while a window refreshes the path (R294). -/
def pathSumsOk (s : State) (p : List Byte) (m : Nat) : Bool :=
  let starts := dedupNat ((planSteps p).map (·.offset) ++ (planSteps p).map stepEnd ++
    (streamNames p m).flatMap (fun r => (List.range (strRepeat (streamHdr p m r))).map (strStart (streamHdr p m r))))
  let paths := dedupNat (List.range 17 ++ (streamNames p m).flatMap (recordPaths s p m))
  starts.all (fun o => paths.all (fun q =>
    decide (pathSum s p m o q ≤ (if q ≤ 16 && !offlinePath s p m q && pathRefreshes p m o q then pathCapacity q / 2 else pathCapacity q))))

/-- Every span of 128 offsets starts a window that covers controller c. (DEDUCED, unsafe: log entry 43.) -/
def refreshCovers (p : List Byte) (m c : Nat) : Bool :=
  let starts := ((refreshSteps p).filter (fun st => (windowControllers p m st).contains c)).map (·.offset + 1)
  gapsAtMost 128 (0 :: starts ++ [plLength p + 1])

/-- Coverage of R294: short plans, the controllers of OFFLINE columns and a far tier that does not run are exempt. Each member's
Warden judges its own controllers. (DEDUCED, unsafe: log entry 43.) -/
def refreshOk (s : State) (p : List Byte) (m : Nat) : Bool :=
  m != myPos s p || decide (plLength p ≤ 128) ||
    ((List.range 16).all (fun c => isOffline s (columnKey c) || refreshCovers p m c) &&
     (s.form.farGib == 0 || (List.range 16).all (fun c => refreshCovers p m (16 + c))))

/-- Check 16. -/
def checkBudgets (s : State) (p : List Byte) : Option Diag :=
  let ms := plPositions p
  match firstStep p (fun m st => decide (minBudget s p m st ≤ st.budget)) with
  | some st => some ((Diag.of 0xA).at st.index)
  | none =>
    match ms.find? (fun m => !(streamNames p m).all (recordBudgetOk s p m)) with
    | some m => some { Diag.of 0xA with sect := sectIndex p 5 m }
    | none => require (ms.all (fun m => pathSumsOk s p m && refreshOk s p m)) (Diag.of 0xA)

/-! ### Check 18 -/

/-- Plan region of this device: first address, size in bytes. -/
def planRegion (s : State) : Nat × Nat := (param s 0x17, param s 0x18 * 2 ^ 30)

/-- Plans queued or running here. -/
def heldPlans (s : State) : List Job := s.seq.jobs.filter (fun j => j.phase != .ended)

/-- At most 1,920 records hold contexts on one engine at any offset (R246). -/
def contextsOk (p : List Byte) (m : Nat) : Bool :=
  let names := streamNames p m
  let last (h : List Byte) : Nat := strStart h (strRepeat h - 1) + strBudget h
  names.all (fun r0 =>
    let off := strFirst (streamHdr p m r0)
    (List.range 16).all (fun e => decide ((names.filter (fun r =>
      let h := streamHdr p m r
      decide (strFirst h ≤ off ∧ off < last h) && (streamStacks h).contains e)).length ≤ 1920)))

/-- The rings that this member's records name stand in its configuration. -/
def ringsOk (s : State) (p : List Byte) : Bool :=
  let m := myPos s p
  (streamNames p m).all (fun r =>
    let h := streamHdr p m r
    (strForm h != 2 || decide (strNentry h ≤ ringSize (bellowsRing s (keyStack (strScope h)) (strRing h)).2)) &&
    (strCompl h == 0xFF || (streamStacks h).all (fun st => ringSize (bellowsRing s st (128 + strCompl h)).2 != 0)))

/-- Completion records lie in the near tier, outside the plan region and the Slag region (R114). -/
def resultRangeOk (s : State) (p : List Byte) : Bool :=
  let r : Nat × Nat := (plResultBase p, 64 * stepCount p)
  r.1 % 64 == 0 && decide (r.1 + r.2 ≤ 2 ^ 40) && rangeOk s isTier r.1 r.2 && overlapBytes r (planRegion s) == 0 && overlapBytes r (slagRange s) == 0

/-- First step whose SCOPE an OFFLINE column does not allow (R409, R293). -/
def offlineScope (s : State) (p : List Byte) : Option PlanStep := (planSteps p).find? (fun st => st.kind != 2 && isOffline s st.scope)

/-- (DEDUCED, unsafe: log entry 39.) -/
def packStep (s : State) (p : List Byte) : Option PlanStep :=
  if param s 3 = 0 then (planSteps p).find? (fun st => st.kind == 0 && st.opcode == 0x11) else none

/-- Check 18 on this member. (DEDUCED, unsafe: log entry 39.) (DEDUCED, unsafe: log entry 41.) -/
def checkResources (s : State) (p : List Byte) (deadline : Nat) : Option Diag :=
  let d := Diag.of 7
  match minNat? (([hardyRoomBad s p, offlineScope s p, packStep s p].filterMap id).map (·.index)) with
  | some i => some (d.at i)
  | none =>
    require ((plPositions p).all (contextsOk p) && ringsOk s p && resultRangeOk s p &&
      decide (sumNat ((heldPlans s).map (·.plan.length)) + p.length ≤ (planRegion s).2) &&
      !(deadline != 0 && param s 0x10 == 0) && decide ((queuedJobs s).length < 8)) d

end Sys2Proof.Machine
end

