-- ==== Sys2Proof/Machine/Submit.lean ====
section
/-!
DEFINITION. VMP_OP_SUBMIT: the acceptance checks in order, the plan diagnosis, and a plan's entry into the queue of every member (R112,
R122, R123, R353, R354, R400).
-/
namespace Sys2Proof.Machine

/-! ### The checks in order (R122) -/

/-- The other members' failures of a check. -/
def remoteFailures (remote : List MemberCheck) (n : Nat) : List Diag :=
  (remote.filter (fun r => r.check == n)).map (fun r => { status := r.status, reason := r.reason, sect := r.sect, step := r.step, detail := r.detail })

/-- Of the failures that the members find in one check, the one of the lowest step (R122). -/
def lowestStep (ds : List Diag) : Option Diag :=
  (minNat? (ds.map (·.step))).bind (fun i => ds.find? (fun d => d.step == i))

/-- The first failure that a list of checks reports, numbered from n, on any member. -/
def firstFailure (remote : List MemberCheck) : Nat → List (Unit → Option Diag) → Option Diag
  | _, [] => none
  | n, c :: cs => (lowestStep ((c ()).toList ++ remoteFailures remote n)).or (firstFailure remote (n + 1) cs)

/-- Step-wise checks 9 and 10. -/
def checkSteps (p : List Byte) (reason : Nat) (ok : Nat → PlanStep → Bool) : Option Diag := (firstStep p ok).map (fun st => (Diag.of reason).at st.index)

/-- The eighteen checks, on this member's state; what the other members' Wardens find by their own state comes with the command. -/
def acceptPlan (s : State) (p : List Byte) (target : Uid) (deadline : Nat) (remote : List MemberCheck) : Option Diag :=
  firstFailure remote 1 [
    fun _ => require (headerOk p) (Diag.of 1),
    fun _ => require (groupOk s p target) (Diag.status' 0x0103),
    fun _ => require (shardsOk s p) (Diag.of 0xB),
    fun _ => require (epochsOk s p) (Diag.status' 0x0203),
    fun _ => checkSections p,
    fun _ => checkOpcodes p,
    fun _ => checkEntries s p,
    fun _ => checkDescs s p,
    fun _ => checkSteps p 4 (typesOk p),
    fun _ => checkSteps p 0xD (fun m st => blockOk s p m st && pairUntouched s p m st && reloadUntouched s p m st),
    fun _ => (arrayClash p).map (fun x => { Diag.of 6 with step := x.1.index, detail := some x.2.index }),
    fun _ => (firstClash s p).map (fun x => clashDiag 5 x.1 x.2),
    fun _ => checkWeld s p,
    fun _ => require (detOk p) (Diag.of 0xC),
    fun _ => checkMarks s p,
    fun _ => checkBudgets s p,
    fun _ => ((planSteps p).find? (fun st => !swageFits s p st)).map (fun st => (Diag.status' 0x0301).at st.index),
    fun _ => checkResources s p deadline]

/-- The plan diagnosis; DETAIL is a free value where the manual gives none. (DEDUCED, safe: log entry 30.) -/
def diagBody (d : Diag) (detail : Nat) : List Byte :=
  leBytes 2 d.status.toNat ++ leBytes 2 d.reason ++ leBytes 1 d.sect ++ leBytes 3 0 ++ leBytes 4 d.step ++ leBytes 4 (d.detail.getD detail)

/-! ### Acceptance -/

/-- A place for n bytes in the plan region: the lowest multiple of 64 that no held plan overlaps. (DESIGN CHOICE, unsafe: log entry 44.) -/
def planPlace (s : State) (n : Nat) : Option Nat :=
  let (base, size) := planRegion s
  let held := (heldPlans s).flatMap (·.region)
  let tries := base :: held.map (fun r => roundUp (r.1 + r.2) 64)
  minNat? (tries.filter (fun a => decide (base ≤ a ∧ a + n ≤ base + size) && held.all (fun r => overlapBytes (a, n) r == 0)))

/-- Free ranges from address a on, below `stop`, between ranges in ascending order. -/
def freeRanges (a stop : Nat) : List (Nat × Nat) → List (Nat × Nat)
  | [] => if a < stop then [(a, stop - a)] else []
  | r :: rest => (if a < r.1 then [(a, r.1 - a)] else []) ++ freeRanges (Nat.max a (r.1 + r.2)) stop rest

/-- The first n bytes of a list of ranges. -/
def takeRanges : Nat → List (Nat × Nat) → List (Nat × Nat)
  | _, [] => []
  | 0, _ => []
  | n, r :: rest => (r.1, Nat.min n r.2) :: takeRanges (n - Nat.min n r.2) rest

/-- Where a plan of n bytes goes: one place, or the free ranges in ascending order when no single one holds it. (DESIGN CHOICE, unsafe: log entry 44.) -/
def planRanges (s : State) (n : Nat) : List (Nat × Nat) :=
  match planPlace s n with
  | some a => [(a, n)]
  | none =>
    let (base, size) := planRegion s
    takeRanges n (freeRanges base (base + size) (sortBy (fun a b => decide (a.1 < b.1)) ((heldPlans s).flatMap (·.region))))

/-- The bytes of a plan into its ranges. -/
def writeRanges : State → List (Nat × Nat) → List Byte → State
  | s, [], _ => s
  | s, r :: rest, bs => writeRanges (memWrite s r.1 (bs.take r.2)) rest (bs.drop r.2)

/-- The job of an accepted plan on this member. (DESIGN CHOICE, unsafe: log entry 27.) -/
def newJob (s : State) (num : Word) (client : BitVec 12) (pair : Nat) (tag : BitVec 16) (accepted deadline : Nat) (region : List (Nat × Nat)) (p : List Byte) : Job :=
  let ds := groupMembers s (plGroup p)
  { num := num, client := client, pair := pair, tag := tag, plan := p, region := region, accepted := accepted, deadline := deadline,
    phase := .queued, members := ds, pos := myPos s p,
    holdLead := planHoldLead s p, startStrike := 0, holdAtStart := 0, committed := 0, commits := [], moved := 0, holdStrikes := 0,
    stop := none, endStatus := 0, endStep := 0xFFFFFFFF, endRecord := 0xFFFFFFFF, endBlock := 0, endOffset := 0, endedAt := none, reports := [], reportAt := 0,
    completed := false, finished := [], ahead := [], acts := [], results := [], flowOut := [], flowIn := [], hardyPeak := hardyPeaks s p (myPos s p),
    ringHeld := [], streamFailed := [], marks := [], carried := [], reruns := [], inPlace := [] }

/-- The plan is copied into the plan region and joins the queue (R112, R123). (DEDUCED, unsafe: log entry 45.) -/
def queuePlan (s : State) (num : Word) (client : BitVec 12) (pair : Nat) (tag : BitVec 16) (accepted deadline : Nat) (p : List Byte) : State :=
  let region := planRanges s p.length
  let j := newJob s num client pair tag accepted deadline region p
  let s1 := writeRanges s region p
  tellChanges (tellAhead (deadlineComparators { s1 with seq := { s1.seq with jobs := s1.seq.jobs ++ [j] } })) j.members

/-- JOB of the next accepted plan (R353). (DESIGN CHOICE, unsafe: log entry 27.) -/
def nextJob (s : State) : Word := BitVec.ofNat 64 (s.form.device * 2 ^ 52 + (s.vmp.accepted + 1) % 2 ^ 52)

/-- Accept a plan here, and hand its copy to the other members. (DEDUCED, unsafe: log entry 45.) -/
def takePlan (s : State) (k : Nat) (m : List Byte) (deadline : Nat) (p : List Byte) : State :=
  let num := nextJob s
  let s1 := measure { s with vmp := { s.vmp with accepted := s.vmp.accepted + 1 } } 6 (sha384 p)
  let s2 := queuePlan (respondAccepted s1 k m (leBytes 8 num.toNat)) num (msgClient m) k (msgTag m) (now s) deadline p
  sendTo s2 (groupMembers s (plGroup p)) 7 (.planCopy num (now s) (msgTag m) deadline p)

def serveOpSubmit (k : Nat) (remote : List MemberCheck) (s : State) (m : List Byte) : State :=
  let b := msgBody m
  let addr := fieldN b 0 8
  let deadline := fieldN b 16 8
  if addr % 64 ≠ 0 then respond s k m 0x0102 []
  else withRef s k m addr (fieldN b 8 8) (fun s p =>
    match acceptPlan s p (msgTarget m) deadline remote with
    | none => takePlan s k m deadline p
    | some d =>
      let (i, s1) := drawFree s
      respond s1 k m d.status (diagBody d ((Config.freeWord i).toNat % 2 ^ 32)))

/-- R122, R354. -/
def execVmpOpSubmit (pair : Nat) (remote : List MemberCheck) (s : State) : Host.Outcome State Fault Refusal :=
  .next (takeRequest s pair 0x20 (serveOpSubmit pair remote))

/-! ### The other members (R123, R354, R355) -/

/-- A copy of a plan accepted elsewhere joins the queue; whether a member can run it shows at B (R123). -/
def hearPlanCopy (s : State) (num : Word) (accepted : Nat) (tag : BitVec 16) (deadline : Nat) (p : List Byte) : State :=
  if s.seq.jobs.any (fun j => j.num == num) then s else queuePlan s num 0 0 tag accepted deadline p

/-- A cancel heard from the taking Warden (R127, R354). -/
def hearCancel (s : State) (num : Word) (strike : Nat) (status : BitVec 16) : State := cancelHere s num strike status

end Sys2Proof.Machine
end

