-- ==== Sys2Proof/Machine/RegRead.lean ====
section
/-!
DEFINITION. The value that each word of the register windows and doorbell pages reads (R42, R98, R183, R244, R266, R287, R303, R341, R342,
R346, R384, R425). Reserved offsets read zero (R5, R8).
-/
namespace Sys2Proof.Machine

/-- A word from fields given as (low bit, value). -/
def fieldsWord (fs : List (Nat × Nat)) : Word := BitVec.ofNat 64 (sumNat (fs.map (fun f => f.2 * 2 ^ f.1)))

/-! ### Activities on an engine -/

/-- Activities in progress of the running job, with what they are. -/
def liveActs (s : State) : List (Job × Activity) :=
  match runningJob s with
  | none => []
  | some j => j.acts.map (fun a => (j, a))

/-- Steps in progress that a predicate marks. -/
def liveSteps (s : State) (ok : Job → PlanStep → Bool) : List (Job × PlanStep) :=
  (liveActs s).filterMap (fun x => match x.2.ref with
    | .step i => if ok x.1 (stepAt x.1.plan i) then some (x.1, stepAt x.1.plan i) else none
    | .stream _ _ => none)

/-- Stream repeats in progress on the engine of stack st. -/
def liveRepeats (s : State) (st : Nat) : List (Nat × Nat) :=
  (liveActs s).filterMap (fun x => match x.2.ref with
    | .stream r i => if (streamStacks (streamHdr x.1.plan x.1.pos r)).contains st then some (r, i) else none
    | .step _ => none)

/-! ### Engine windows -/

/-- Plan contexts that an engine holds (R246). -/
def contextsHeld (s : State) (st : Nat) : Nat :=
  match runningJob s with
  | none => 0
  | some j =>
    let off := offsetNow s j
    ((streamNames j.plan j.pos).filter (fun r =>
      let h := streamHdr j.plan j.pos r
      (streamStacks h).contains st && decide (strFirst h ≤ off ∧ off < strStart h (strRepeat h - 1) + strBudget h))).length

def bellowsRead (s : State) (st off : Nat) : Word :=
  let e := sparseGet Engine.reset st s.eng.bellows
  let busy := !(liveRepeats s st).isEmpty
  let ring (n i field : Nat) : Word :=
    match field with
    | 0 => BitVec.ofNat 64 (bellowsRing s st i).1
    | 1 => BitVec.ofNat 64 (bellowsRing s st i).2
    | 2 => (ringGet s n).head.setWidth 64
    | _ => (ringGet s n).tail.setWidth 64
  if off = 0 then
    fieldsWord [(32, e.step.toNat), (16, contextsHeld s st), (1, boolNat (busy && s.seq.kind == .hold)), (0, boolNat busy)]
  else if off = 8 then fieldsWord [(32, e.errA.toNat), (8, e.errB.toNat % 2 ^ 24), (0, e.errCode.toNat)]
  else if 0x1000 ≤ off ∧ off < 0x2000 then ring (drNumber st ((off - 0x1000) / 32)) ((off - 0x1000) / 32) (off / 8 % 4)
  else if 0x2000 ≤ off ∧ off < 0x2200 then ring (crNumber st ((off - 0x2000) / 32)) (128 + (off - 0x2000) / 32) (off / 8 % 4)
  else 0

/-- Strikes of the first pass of a PACK with a dynamic code (R274, R285). (DEDUCED, unsafe: log entry 64.) -/
def histogramStrikes (j : Job) (st : PlanStep) : Nat :=
  let pb := stepParams j.plan j.pos st
  if st.opcode = 0x11 ∧ byteAt pb 0x30 = 0 ∧ bit (byteAt pb 0x32) 7 then
    ceilDiv (footprint (descBytes j.plan j.pos (operDesc (st.opers.getD 0 0)))) ((namedEngines j.plan j.pos st).length * 16000)
  else 0

/-- Blocks that engine i holds for self-check, at most D (R276, R287): a free value within a PACK, saturating at 255. -/
def inflightBlocks (s : State) (i : Nat) (packing : Bool) : Nat :=
  if packing then Nat.min (Nat.min (Config.inflightNow i (now s)) (5 * paramAt s (columnKey (i / 8)) 3 0)) 255 else 0

def crucibleRead (s : State) (i off : Nat) : Word :=
  let e := sparseGet Engine.reset i s.eng.crucible
  let mine := liveSteps s (fun j st => classOf st == .crucible && (namedEngines j.plan j.pos st).contains i)
  if off = 0 then
    fieldsWord [(32, e.step.toNat), (8, inflightBlocks s i (mine.any (fun x => x.2.opcode == 0x11))),
      (2, boolNat (mine.any (fun x => decide (workOffset s x.1 < x.2.offset + histogramStrikes x.1 x.2)))),
      (1, boolNat (mine.any (fun x => x.2.opcode == 0x12))), (0, boolNat (!mine.isEmpty))]
  else if off = 8 then BitVec.ofNat 64 (paramAt s (columnKey (i / 8)) 3 0 % 256)
  else if off = 0x10 then fieldsWord [(32, e.errA.toNat), (0, e.errCode.toNat)]
  else 0

/-- A Swage job on a die that is in the phase which stages its overlapping lines (R100, R103). (DEDUCED, safe: log entry 59.) -/
def stagingNow (s : State) (d : Nat) : Bool :=
  (liveActs s).any (fun x => match x.2.ref with
    | .step i =>
      let st := stepAt x.1.plan i
      classOf st == .swage && (swDies (stepParams x.1.plan x.1.pos st)).contains d && x.2.result.isNone && !(overlapSet s (swJob x.1 st)).isEmpty
    | .stream _ _ => false)

def swageRead (s : State) (d off : Nat) : Word :=
  let e := sparseGet Engine.reset d s.eng.swage
  let live := liveSteps s (fun j st => classOf st == .swage && (swDies (stepParams j.plan j.pos st)).contains d)
  let busy := !live.isEmpty
  let slice := match live with
    | x :: _ => Config.sliceNow d (now s) % Nat.max (swNslice (stepParams x.1.plan x.1.pos x.2)) 1
    | [] => e.errA.toNat % 2 ^ 16
  if off = 0 then fieldsWord [(32, e.step.toNat), (16, slice), (1, boolNat (stagingNow s d)), (0, boolNat busy)]
  else if off = 8 then BitVec.ofNat 64 (paramAt s (dieKey d) 2 0 % 256)
  else 0

def hardyRead (s : State) (d off : Nat) : Word :=
  let u := sparseGet HardyUnit.reset d s.eng.hardy
  let k := dieKey d
  let mine := liveSteps s (fun j st => (classOf st == .hardy || classOf st == .arrayHardy || hasInTerm j.plan j.pos st) && (diesOf st.scope).contains k)
  let lists := sumNat ((mine.filter (fun x => hasInTerm x.1.plan x.1.pos x.2)).map (fun x => 16 * listBlocks (stepParams x.1.plan x.1.pos x.2)))
  let loads := (mine.filter (fun x => isLoad x.1.plan x.1.pos x.2 && !u.tables.any (fun t => t.loadStep == x.2.index))).map (fun x => (x.2.opcode, stepParams x.1.plan x.1.pos x.2))
  let live := u.tables.map (fun t => (t.kind, t.htab, t.blocks.length)) ++ loads.map (fun x => (x.1, hpTab x.2, hpBlocks x.2))
  let held (mask : Bool) : Nat := sumNat ((live.filter (fun t => (t.1 == 0x16) == mask)).map (fun t => 16 * t.2.2))
  match off with
  | 0x00 => fieldsWord [(32, u.step.toNat), (16, sumNat ((dedupNat (live.map (·.2.1))).map (fun h => 2 ^ h))), (10, u.rate.toNat),
      (9, boolNat (decide (paramAt s k 5 0 < u.rate.toNat))), (1, boolNat (mine.any (fun x => x.2.kind == 1))), (0, boolNat (!mine.isEmpty))]
  | 0x08 => fieldsWord [(8, paramAt s k 4 0 / 256 % 32), (0, paramAt s k 5 0 % 4)]
  | 0x10 => u.temp.setWidth 64
  | 0x18 => fieldsWord [(32, held true), (16, held false + lists), (0, 16384 - 4 * paramAt s k 4 0)]
  | 0x20 => fieldsWord [(32, u.lastFixStep.toNat), (30, u.lastFixCause.toNat), (14, u.lastFixHtab.toNat), (0, u.lastFixPos.toNat)]
  | _ => 0

/-- Migrations in progress whose rows lie, or will lie, at engine e of this device. -/
def engineMigrations (s : State) (e : Nat) : List (EmbTable × TableVersion × Migration) :=
  s.eng.tables.flatMap (fun t => t.versions.filterMap (fun v => match v.migration with
    | some g =>
      let me := groupPos s t.group
      let olds := if g.src = me then g.old.map (engineOf s) else []
      let news := if g.dst = me then (List.range g.rows.length).map (fun i => engineOf s (newSlot s t v g i)) else []
      if (olds ++ news).contains e then some (t, v, g) else none
    | none => none))

def tongsRead (s : State) (st off : Nat) : Word :=
  let t := sparseGet Tongs.reset st s.eng.tongs
  let k := columnKey st
  let busy := !(liveSteps s (fun _ p => classOf p == .tongs && (columnsOf p.scope).contains k)).isEmpty
  let ms := engineMigrations s st
  match off with
  | 0x00 => fieldsWord [(32, t.step.toNat), (8, Nat.min ms.length 255), (2, boolNat (ms.any (fun x => x.2.2.installed && decide (now s < x.2.2.cutover + 8192)))),
      (1, boolNat (ms.any (fun x => x.2.2.waits.any (fun w => w.1 == st)))), (0, boolNat busy)]
  | 0x08 => fieldsWord [(56, paramAt s k 8 0 % 256), (32, paramAt s k 7 0 / 64 % 2 ^ 16), (0, cacheGib s % 128)]
  | 0x10 => fieldsWord [(32, t.loadHeat.toNat), (0, t.loadRecords.toNat)]
  | 0x18 => t.hotRow
  | 0x20 => fieldsWord [(32, t.hotTable.toNat), (0, t.hotCount.toNat)]
  | _ => 0

/-! ### Checkers (R303) -/

def checkerStateCode : CheckerState → Nat
  | .off => 0 | .training => 1 | .ready => 2 | .selfRefresh => 3 | .failed => 4

def logInfo (e : LogEntry) : Word :=
  fieldsWord [(48, e.inst.toNat), (40, e.syndrome.toNat), (16, e.count.toNat), (3, boolNat e.injected), (1, e.kind.toNat), (0, boolNat e.valid)]

/-- A checker's register: checkers 0 to 15 near tier, 16 to 31 far tier, 32 to 35 the hubs. -/
def checkerRead (s : State) (c off : Nat) : Word :=
  let x := checkerGet s c
  let sram := decide (32 ≤ c)
  let tier := if c < 16 then 1024 else if c < 32 then s.form.farGib else 0
  let each := if c < 16 then 64 else if c < 32 then s.form.farGib / 16 else 0
  let e (n : Nat) : LogEntry := x.log.getD n LogEntry.empty
  match off with
  | 0x00 => fieldsWord [(56, if c < 16 then 1 else if c < 32 then 2 else 3), (48, if c < 16 then param s 1 else 0), (16, tier), (0, each)]
  | 0x08 => fieldsWord [(48, if sram then 0 else Nat.min x.pendingRows.length 0xFFFF), (32, x.repaired.toNat), (9, boolNat x.remapFull),
      (8, boolNat x.exhausted), (4, if sram then 2 else checkerStateCode x.state)]
  | 0x10 => if sram then 0 else x.ceCount.setWidth 64
  | 0x18 => fieldsWord [(16, x.overflow.toNat), (0, sumNat ((List.range 8).map (fun n => boolNat (e n).valid * 2 ^ n)))]
  | 0x20 => x.flipAddr
  | 0x28 => x.flipLo
  | 0x30 => fieldsWord [(63, boolNat x.flipArm), (0, x.flipMask.toNat)]
  | _ =>
    if 0x100 ≤ off ∧ off < 0x200 then
      let n := (off - 0x100) / 32
      match off / 8 % 4 with
      | 0 => (e n).addr
      | 1 => logInfo (e n)
      | 2 => (e n).first
      | _ => (e n).last
    else if sram && decide (0x1000 ≤ off ∧ off < 0x2000) then
      let i := (off - 0x1000) / 8 * 4
      fieldsWord ((List.range 4).map (fun q => (16 * q, (sparseGet 0 (i + q) x.instCe).toNat)))
    else 0

/-! ### Links (R341, R342) -/

def portStateCode : PortState → Nat
  | .down => 0 | .training => 1 | .negotiating => 2 | .identity => 3 | .up => 4 | .refused => 5 | .disabled => 6

def refuseCode : RefuseCode → Nat
  | .none => 0 | .linkVersion => 1 | .miswired => 2 | .identity => 3

def laneCode : LaneState → Nat
  | .down => 0 | .training => 1 | .up => 2 | .disabled => 3

/-- The lane that carries the strike marker of the parent port: lane 0, or the lowest UP lane (R37). -/
def markerLane (s : State) (p : Nat) (w : WeldPort) : Option Nat := if s.tb.parent = some p then (List.range 8).find? (laneUp w) else none

def weldRead (s : State) (p off : Nat) : Word :=
  let w := portGet s p
  match off with
  | 0x00 => fieldsWord [(40, sumNat ((List.range 8).map (fun i => boolNat (laneUp w i) * 2 ^ i))), (34, boolNat (latExceeded s p)),
      (33, boolNat (s.tb.parent == some p)), (32, boolNat (decide (p < 6) && w.bypassClosed)), (28, refuseCode w.refuse), (24, portStateCode w.state),
      (16, param s 0xC % 256)]
  | 0x08 => fieldsWord [(16, w.peerDigest.toNat), (12, w.peerPort.toNat), (0, w.peerDevice.toNat)]
  | 0x10 => fieldsWord [(16, w.peerMajors.toNat), (8, w.major.toNat), (0, w.minor.toNat)]
  | 0x18 => fieldsWord ((List.range 8).map (fun i => (8 * i, laneCode (w.lanes.getD i .down) + 16 * boolNat (markerLane s p w == some i))))
  | 0x20 => w.fecCorr
  | 0x28 => w.framesBad
  | 0x30 => w.resends
  | _ => 0

def spurRead (s : State) (p off : Nat) : Word :=
  let x := spurGet s p
  if off < 0x40 then (if x.mode = 2 then weldRead s (p + 6) off else 0)
  else if off = 0x100 then
    fieldsWord [(32, x.drops.toNat), (16, (x.qps.filter (fun q => q.2.state != .reset)).length), (8, x.mode.toNat), (1, boolNat (x.paused != 0)),
      (0, boolNat x.linkUp)]
  else if off = 0x108 then x.ctxBase
  else if 0x4000 ≤ off ∧ off < 0x8000 then (sparseGet QueuePair.reset ((off - 0x4000) / 8) x.qps).tail.setWidth 64
  else if 0x8000 ≤ off ∧ off < 0x9000 then (sparseGet { head := 0, tail := 0 } ((off - 0x8000) / 8) x.cqs).head.setWidth 64
  else 0

def hubRead (s : State) (q off : Nat) : Word :=
  let pairOf (b : Sparse (BitVec 32)) (o : Nat) : Word := fieldsWord [(0, (sparseGet 0 (o / 4) b).toNat), (32, (sparseGet 0 (o / 4 + 1) b).toNat)]
  if off < 0x4000 then pairOf s.links.bankA off
  else if off < 0x8000 then pairOf s.links.bankB (off - 0x4000)
  else if off < 0xA000 then checkerRead s (32 + q) (off - 0x8000)
  else if off = 0xA000 then fieldsWord [(32, s.links.bankEpoch.toNat), (0, boolNat s.links.bank)]
  else 0

/-! ### Timebase, Quench, CPC -/

def timebaseRead (s : State) (off : Nat) : Word :=
  let t := s.tb
  match off with
  | 0x00 => tbStatus s
  | 0x08 => fieldsWord [(16, t.masterDigest.toNat), (12, boolNat t.masterClass), (0, t.masterDevice.toNat)]
  | 0x10 => t.offset.setWidth 64
  | 0x18 => t.ppsDelay.setWidth 64
  | 0x20 => t.strike0Unix
  | _ => if 0x40 ≤ off ∧ off < 0x70 then (t.hopDelay.getD ((off - 0x40) / 8) 0).setWidth 64 else 0

def phaseCode : QuenchPhase → Nat
  | .idle => 0 | .lead => 1 | .reset => 2 | .prologue => 3 | .sweep => 4

def quenchRead (s : State) (off : Nat) : Word :=
  let q := s.quench
  match off with
  | 0x00 => fieldsWord [(32, Nat.min q.samples (2 ^ 32 - 1)), (28, phaseCode q.phase),
      (0, match q.hold with
        | some h => (h.partitions.filter (fun p => uidDevice p.uid == s.form.device)).length % 2 ^ 16
        | none => 0)]
  | 0x08 => BitVec.ofNat 64 (holdLead s % 2 ^ 16)
  | 0x10 => fieldsWord [(32, q.lastUid.toNat), (24, q.lastCause.toNat), (16, q.lastOutcome.toNat)]
  | 0x18 => q.lastDetect
  | 0x20 => fieldsWord [(26, slagBase s / 2 ^ 26 % 2 ^ 38), (0, q.samples % 4)]
  | _ => 0

def powerCode : PowerState → Nat
  | .absent => 0 | .sequencing => 1 | .on => 2 | .failed => 3 | .tripped => 4

/-- Signed value of a 16-bit sample. -/
def temp16 (t : BitVec 16) : Int := t.toInt

/-- The lowest die among those with the highest temperature. -/
def hotDie (ts : List (BitVec 16)) : Nat :=
  (List.range ts.length).foldl (fun b i => if temp16 (ts.getD b 0) < temp16 (ts.getD i 0) then i else b) 0

def cpcRead (s : State) (off : Nat) : Word :=
  let t := s.therm
  match off with
  | 0x00 => fieldsWord [(4, powerCode s.power.state)]
  | 0x08 => fieldsWord [(32, t.iin.toNat), (16, t.pin.toNat), (0, t.vin.toNat)]
  | 0x10 =>
    let h := hotDie t.temps
    fieldsWord [(48, (t.temps.getD h 0).toNat), (40, h), (4, t.pendingRate.toNat), (0, t.arrayRate.toNat)]
  | 0x18 => fieldsWord [(16, t.outlet.toNat), (0, t.inlet.toNat)]
  | _ =>
    if 0x100 ≤ off ∧ off < 0x4A0 then
      let i := (off - 0x100) / 8
      fieldsWord [(16, boolNat (t.stopped.getD i false)), (0, (t.temps.getD i 0).toNat)]
    else 0

/-! ### Doorbell pages (R346) -/

def doorbellRead (s : State) (ring off : Nat) : Word :=
  let p := pairGet s (ring / 2)
  if ring % 2 = 1 then
    match off with
    | 0x00 => p.respBase
    | 0x08 => p.respLog2.setWidth 64
    | 0x10 => p.respHead.setWidth 64
    | 0x18 => p.respTail.setWidth 64
    | _ => 0
  else
    match off with
    | 0x000 => p.reqBase
    | 0x008 => p.reqLog2.setWidth 64
    | 0x010 => p.reqHead.setWidth 64
    | 0x018 => p.reqTail.setWidth 64
    | 0x020 => BitVec.ofNat 64 (boolNat p.en)
    | 0x800 => p.evtBase
    | 0x808 => p.evtLog2.setWidth 64
    | 0x810 => p.evtHead.setWidth 64
    | 0x818 => p.evtTail.setWidth 64
    | 0x820 => fieldsWord [(32, boolNat p.evtEn), (0, p.evtUid.toNat)]
    | 0x828 => p.evtDrops.setWidth 64
    | _ => 0

/-! ### All windows -/

def blockRead (s : State) (cls inst off : Nat) : Word :=
  match cls with
  | 0x01 => bellowsRead s inst off
  | 0x02 => crucibleRead s inst off
  | 0x03 => swageRead s inst off
  | 0x04 => hardyRead s inst off
  | 0x05 => tongsRead s inst off
  | 0x06 => checkerRead s inst off
  | 0x07 => checkerRead s (16 + inst) off
  | 0x08 => weldRead s inst off
  | 0x09 => spurRead s inst off
  | 0x0A => hubRead s inst off
  | 0x0B => timebaseRead s off
  | 0x0C => quenchRead s off
  | 0x0D => cpcRead s off
  | _ => 0

/-- The word at a register address, a multiple of 8; none where the address names no register window. -/
def regRead (s : State) (a : Nat) : Option Word :=
  match placeOf s a with
  | .page u off => some (ucpRead s u off)
  | .block cls inst off => some (blockRead s cls inst off)
  | .doorbell ring off => some (doorbellRead s ring off)
  | _ => none

end Sys2Proof.Machine
end

