-- ==== Sys2Proof/Machine/Spur.lean ====
section
/-!
DEFINITION. The Spur ports in their Ethernet modes (R332 to R340): queue pairs and their contexts, work entries, answers, completions,
inbound requests, congestion control, and the frames that the ports answer themselves.
-/
namespace Sys2Proof.Machine

/-! ### Queue pairs (R337) -/

def qpKind (q : QueuePair) : Nat := byteAt q.ctx 1
def qpLog2 (q : QueuePair) : Nat := byteAt q.ctx 2
/-- PLAN (R340). -/
def qpPlan (q : QueuePair) : Bool := bit (byteAt q.ctx 3) 0
def qpMtu (q : QueuePair) : Nat := 512 * 2 ^ (byteAt q.ctx 3 / 2 % 4)
def qpPriority (q : QueuePair) : Nat := fieldN q.ctx 6 2 % 8
def qpRetry (q : QueuePair) : Nat := byteAt q.ctx 0x35 % 8
def qpRnrRetry (q : QueuePair) : Nat := byteAt q.ctx 0x35 / 16 % 8
def isNvme (q : QueuePair) : Bool := qpKind q == 1 || qpKind q == 2

/-- A context without reserved values, whose ring lies in the near or far tier (R6, R335, R337). (DEDUCED, unsafe: log entry 74.) -/
def ctxOk (s : State) (c : List Byte) : Bool :=
  let rc := byteAt c 1 != 2
  let base := fieldN c 8 8
  let bytes := (if byteAt c 1 == 1 || byteAt c 1 == 2 then 128 else 64) * 2 ^ byteAt c 2
  base % 64 == 0 && (byteAt c 1 == 3 || rangeOk s isTier base bytes) &&
  decide (byteAt c 1 ≤ 3) && decide (4 ≤ byteAt c 2 ∧ byteAt c 2 ≤ 12) && decide (fieldN c 4 2 < 512) &&
    (!rc || (byteAt c 3 / 2 % 4 != 0 && decide (8 ≤ byteAt c 0x34 ∧ byteAt c 0x34 ≤ 20))) &&
    (byteAt c 1 == 0 || byteAt c 1 == 3 || byteAt c 0x3C == 9 || byteAt c 0x3C == 12)

def qpCode : QpState → Nat
  | .reset => 0 | .init => 1 | .rtr => 2 | .rts => 3 | .error => 4

/-- Transitions of the InfiniBand queue pair, as R335 names that specification. (PRESUMED, unsafe: log entry 72.) -/
def qpLegal : QpState → QpState → Bool
  | _, .reset => true
  | _, .error => true
  | .reset, .init => true
  | .init, .init => true
  | .init, .rtr => true
  | .rtr, .rts => true
  | .rts, .rts => true
  | _, _ => false

def ctxAddr (s : State) (p q : Nat) : Nat := (spurGet s p).ctxBase.toNat + 128 * q

/-- The port writes STATE into the context. -/
def writeQpState (s : State) (p q : Nat) (x : QpState) : State :=
  if rangeOk s isTier (ctxAddr s p q) 1 then memWrite s (ctxAddr s p q) [BitVec.ofNat 8 (qpCode x)] else s

/-- Bytes of a work entry: 128 for the NVMe kinds, else 64. -/
def entryBytes (q : QueuePair) : Nat := if isNvme q then 128 else 64

/-- DEADLINE and TAG of a work entry. -/
def entryDeadline (q : QueuePair) (e : List Byte) : Nat := fieldN e (if isNvme q then 0x40 else 0x20) 8
def entryTag (q : QueuePair) (e : List Byte) : Nat := fieldN e (if isNvme q then 0x48 else 0x28) 8

/-- A work entry of the ring; none when it cannot be read. -/
def readEntry (s : State) (p q : Nat) (i : BitVec 32) : State × Option (List Byte) :=
  let x := qpGet s p q
  match readRef s (fieldN x.ctx 8 8 + entryBytes x * (i.toNat % 2 ^ qpLog2 x)) (entryBytes x) with
  | (t, .ok b) => (t, some b)
  | (t, .error _) => (t, none)

/-! ### Completions (R338) -/

/-- A completion entry. -/
def spurCompl (s : State) (p q status index bytes remote tag : Nat) : List Byte :=
  leBytes 2 (q + 2048 * p) ++ leBytes 2 status ++ leBytes 4 index ++ leBytes 8 (now s) ++ leBytes 4 bytes ++ leBytes 4 remote ++ leBytes 8 tag

/-- Post an entry to completion queue c of port p; one that finds it full, or its context unreadable, is discarded. (DESIGN CHOICE, unsafe: log entry 75.) -/
def postCq (s : State) (p c : Nat) (e : List Byte) : State :=
  match readRef s ((spurGet s p).ctxBase.toNat + 0x40000 + 32 * c) 32 with
  | (s1, .error _) => s1
  | (s1, .ok b) =>
    let g := sparseGet { head := 0, tail := 0 } c (spurGet s1 p).cqs
    let n := ringSize (byteAt b 8)
    if n ≤ ringCount g.head g.tail then s1
    else
      spurMod (memWrite s1 (fieldN b 0 8 + 32 * (g.tail.toNat % n)) e) p
        (fun x => { x with cqs := sparseSet { head := 0, tail := 0 } c { g with tail := g.tail + 1 } x.cqs })

/-- The completion of an entry of queue pair q. An unsignalled RC entry posts none when it is OK. (PRESUMED, unsafe: log entry 72.) -/
def postEntry (s : State) (p q : Nat) (index : BitVec 32) (e : List Byte) (status bytes remote : Nat) : State :=
  let x := qpGet s p q
  if status = 0 ∧ !isNvme x ∧ !bit (byteAt e 1) 0 then s
  else postCq s p (fieldN x.ctx 4 2 % 512) (spurCompl s p q status index.toNat bytes remote (entryTag x e))

/-- An entry completes against its deadline (R50, R51): in the deadline strike it is on time and sets LATE_EDGE; after it the completion is
TIMEOUT, with a REMOTE field for which the manual states no value. (DESIGN CHOICE, unsafe: log entry 75.) -/
def settleEntry (s : State) (p q : Nat) (index : BitVec 32) (e : List Byte) (status bytes remote : Nat) : State :=
  let d := entryDeadline (qpGet s p q) e
  if d ≠ 0 ∧ d < now s then
    let (i, s1) := drawFree s
    postEntry s1 p q index e 0x0500 0 ((Config.freeWord i).toNat % 2 ^ 32)
  else
    let s1 := if d ≠ 0 ∧ d = now s then count (stickySet s devKey 8) devKey 18 1 else s
    postEntry s1 p q index e status bytes remote

/-- Flush the arrived entries of a queue pair in ERROR. (DESIGN CHOICE, unsafe: log entry 75.) -/
def flushRing (p q : Nat) : Nat → State → State
  | 0, s => s
  | n + 1, s =>
    let x := qpGet s p q
    if x.head = x.tail then s
    else
      let skip := x.inflight.any (fun f => f.cancelled && f.index == x.head)
      let (s1, e) := readEntry s p q x.head
      let s2 := if skip then s1 else settleEntry s1 p q x.head (e.getD []) 0x0800 0 0xFFFFFFFF
      flushRing p q n (qpMod s2 p q (fun x => { x with head := x.head + 1 }))

/-- Entries still outstanding are flushed, then those of the ring. -/
def flushQp (s : State) (p q : Nat) : State :=
  let x := qpGet s p q
  let s1 := (x.inflight.filter (fun f => !f.cancelled)).foldl (fun t f => settleEntry t p q f.index f.entry 0x0800 0 0xFFFFFFFF) s
  let held := match runningJob s with
    | some j => sumNat ((j.ringHeld.filter (fun r => r.ring == sqNumber p q)).map (·.count))
    | none => 0
  let s2 := qpMod s1 p q (fun x => { x with head := x.head + BitVec.ofNat 32 held })
  let s3 := match runningJob s with
    | some j => setJob s2 j.num (fun j => { j with ringHeld := j.ringHeld.filter (fun r => r.ring != sqNumber p q) })
    | none => s2
  qpMod (flushRing p q (ringCount x.head x.tail) s3) p q (fun x => { x with inflight := [], issued := none })

/-- The queue pair goes into ERROR and flushes (R338); an NVMe queue is connected no more. -/
def qpFail (s : State) (p q : Nat) : State := flushQp (writeQpState (qpMod s p q (fun x => { x with state := .error, nvQid := none })) p q .error) p q

/-- A status that leaves the queue pair in its state. -/
def keepsQp (status : Nat) : Bool := status == 0 || status == 0x0500 || status == 0x0200

/-- An outstanding entry completes. -/
def finishEntry (s : State) (p q : Nat) (f : Inflight) (status bytes remote : Nat) : State :=
  let s1 := qpMod s p q (fun x => { x with inflight := x.inflight.filter (fun g => g.index != f.index) })
  let s2 := settleEntry s1 p q f.index f.entry status bytes remote
  if keepsQp status || (f.deadline != 0 && decide (f.deadline < now s)) then s2 else qpFail s2 p q

/-- The same with a REMOTE field for which the manual states no value. -/
def finishFree (s : State) (p q : Nat) (f : Inflight) (status bytes : Nat) : State :=
  let (i, s1) := drawFree s
  finishEntry s1 p q f status bytes ((Config.freeWord i).toNat % 2 ^ 32)

/-! ### State changes -/

/-- The context of a queue pair as the port loads it. (DEDUCED, unsafe: log entry 74.) -/
def loadCtx (s : State) (p q : Nat) : State × Option (List Byte) :=
  match readRef s (ctxAddr s p q) 128 with
  | (t, .ok b) => (t, some b)
  | (t, .error _) => (t, none)

/-- QP_CMD: the port loads the context and applies the state; an illegal change, or a context that it cannot use, leads to ERROR. -/
def qpMove (s : State) (p q : Nat) (x : QpState) : State :=
  match loadCtx s p q with
  | (s1, none) => qpFail s1 p q
  | (s1, some c) =>
    match x with
    | .reset => writeQpState (qpMod s1 p q (fun _ => { QueuePair.reset with ctx := c })) p q .reset
    | .error => qpFail (qpMod s1 p q (fun g => { g with ctx := c })) p q
    | _ =>
      if qpLegal (qpGet s1 p q).state x && ctxOk s1 c then
        writeQpState (qpMod s1 p q (fun g => { g with
          state := x, ctx := c,
          rqPsn := if x = .rtr then BitVec.ofNat 24 (fieldN c 0x30 4) else g.rqPsn,
          sqPsn := if x = .rts ∧ g.state ≠ .rts then BitVec.ofNat 24 (fieldN c 0x2C 4) else g.sqPsn })) p q x
      else qpFail (qpMod s1 p q (fun g => { g with ctx := c })) p q

/-- A queue pair that exists. -/
def qpValid (p q : Nat) : Bool := decide (p < 2 ∧ q < 2048)

def qpCmd (p q : Nat) (x : QpState) (s : State) : State := if qpValid p q then qpMove s p q x else s

/-- R337. -/
def execQpCmdReset (port qp : Nat) (s : State) : Host.Outcome State Fault Refusal := .next (qpCmd port qp .reset s)
/-- R337. -/
def execQpCmdInit (port qp : Nat) (s : State) : Host.Outcome State Fault Refusal := .next (qpCmd port qp .init s)
/-- R337. -/
def execQpCmdRtr (port qp : Nat) (s : State) : Host.Outcome State Fault Refusal := .next (qpCmd port qp .rtr s)
/-- R337. -/
def execQpCmdRts (port qp : Nat) (s : State) : Host.Outcome State Fault Refusal := .next (qpCmd port qp .rts s)
/-- R338. -/
def execQpCmdError (port qp : Nat) (s : State) : Host.Outcome State Fault Refusal := .next (qpCmd port qp .error s)

/-- A write of a queue pair's TAIL; one that would overfill the ring is ignored (R261), and so is one to a queue pair of KIND VMP, which belongs to the
Warden (R337). A queue pair in ERROR flushes what arrives. (DEDUCED, unsafe: log entry 74.) -/
def sqTail (s : State) (p q : Nat) (t : BitVec 32) : State :=
  let x := qpGet s p q
  if ringSize (qpLog2 x) < ringCount x.head t || (qpKind x == 3 && x.state != .reset) then s
  else
    let s1 := qpMod s p q (fun x => { x with tail := t, arrivals := x.arrivals.filter (fun a => decide (0 < ringCount x.head a.1 ∧ ringCount x.head a.1 ≤ 4096)) ++ [(t, now s)] })
    if x.state = .error then flushQp s1 p q else s1

/-! ### Issuing (R335, R336, R340) -/

/-- An INGEST repeat in progress that names a PLAN queue pair: what it has issued so far. -/
structure PlanUse where
  job : Job
  hdr : List Byte
  record : Nat
  rep : Nat
  start : Nat
  count : Nat
  used : Nat

/-- The repeat that a PLAN queue pair serves now. -/
def planUse (s : State) (p q : Nat) : Option PlanUse :=
  match runningJob s with
  | none => none
  | some j =>
    if s.seq.kind = .hold then none
    else
      j.acts.findSome? (fun a => match a.ref with
        | .stream r i =>
          let h := streamHdr j.plan j.pos r
          if a.result.isNone && strKind h == 4 && strQp h == sqNumber p q then
            let mine := match (qpGet s p q).issued with
              | some (r1, i1, st, n, b) => if r1 = r ∧ i1 = i ∧ st = a.start then (n, b) else (0, 0)
              | none => (0, 0)
            some { job := j, hdr := h, record := r, rep := i, start := a.start, count := mine.1, used := mine.2 }
          else none
        | .step _ => none)

/-- Sequential length of an INGEST repeat. -/
def ingestLength (s : State) (u : PlanUse) : Nat :=
  if strForm u.hdr = 2 then
    match ringEntries s u.job u.hdr u.record u.rep with
    | (_, .ok es) => totalLen (listXfers es 0)
    | (_, .error _) => 0
  else totalLen (streamXfers u.job.plan u.job.pos u.record u.rep 0)

/-- Entries of a PLAN queue pair that have timed out in the ring are passed over. -/
def skipCancelled (fs : List Inflight) (first : BitVec 32) : Nat → Nat → Nat
  | 0, n => n
  | k + 1, n => if fs.any (fun f => f.cancelled && f.index == first + BitVec.ofNat 32 n) then skipCancelled fs first k (n + 1) else n

/-- Ring index of the entry that may issue now, with the repeat that a PLAN queue pair issues it for; issuing stops at the repeat's length (R340). -/
def issueIndex (s : State) (p q : Nat) : Option (BitVec 32 × Option PlanUse) :=
  let x := qpGet s p q
  let port := spurGet s p
  let open' := x.state == .rts && decide (port.mode.toNat ≤ 1) && port.linkUp && !bit port.paused.toNat (qpPriority x)
  let ready (i : BitVec 32) : Bool := open' && decide ((i - x.head).toNat < ringCount x.head x.tail)
  if qpPlan x then
    match planUse s p q with
    | none => none
    | some u =>
      let first := x.head + BitVec.ofNat 32 (heldBefore u.job (sqNumber p q) u.record u.rep)
      let n := skipCancelled x.inflight first (x.inflight.length + 1) u.count
      let i := first + BitVec.ofNat 32 n
      if ready i && decide (u.used < ingestLength s u) then some (i, some { u with count := n }) else none
  else if ready x.head then some (x.head, none) else none

/-- HEAD moves past an issued entry, and past entries behind it that have timed out. (DESIGN CHOICE, unsafe: log entry 75.) -/
def advanceHead : Nat → QueuePair → QueuePair
  | 0, x => x
  | n + 1, x =>
    let y := { x with head := x.head + 1, inflight := x.inflight.filter (fun f => !(f.cancelled && f.index == x.head)) }
    if y.inflight.any (fun f => f.cancelled && f.index == y.head) then advanceHead n y else y

/-- The entry leaves the ring's issue point; `len` bytes of read data take their places in the repeat of a PLAN queue pair. -/
def takeEntry (s : State) (p q : Nat) (u : Option PlanUse) (len : Nat) : State :=
  match u with
  | none => qpMod s p q (fun x => advanceHead (x.inflight.length + 1) x)
  | some u =>
    let same (x : QueuePair) : Bool := match x.issued with
      | some (r, i, st, _, _) => r == u.record && i == u.rep && st == u.start
      | none => false
    let s1 := qpMod s p q (fun x => { x with issued := some (u.record, u.rep, u.start, u.count + 1, u.used + len), data := if same x then x.data else [] })
    let mine (r : HeldEntries) : Bool := r.ring == sqNumber p q && r.record == u.record && r.rep == u.rep
    let first := (qpGet s p q).head + BitVec.ofNat 32 (heldBefore u.job (sqNumber p q) u.record u.rep)
    setJob s1 u.job.num (fun j =>
      { j with ringHeld := j.ringHeld.filter (fun r => !mine r) ++
          [{ record := u.record, rep := u.rep, stack := keyStack (strScope u.hdr), ring := sqNumber p q, first := first
             count := Nat.max (sumNat ((j.ringHeld.filter mine).map (·.count))) (u.count + 1), stop := repeatEnd u.hdr u.rep }] })

/-- A new outstanding entry. -/
def newInflight (x : QueuePair) (i : BitVec 32) (e : List Byte) (len place : Nat) : Inflight :=
  { index := i, entry := e, len := len, deadline := entryDeadline x e, retries := 0, rnr := 0, cancelled := false, place := place }

def pushInflight (s : State) (p q : Nat) (f : Inflight) : State := qpMod s p q (fun x => { x with inflight := x.inflight ++ [f] })

/-- An arrived entry that is outstanding, or still waits in the ring, with its deadline behind it. -/
def spurDeadline (s : State) (p q : Nat) (index : BitVec 32) : State :=
  let x := qpGet s p q
  match x.inflight.find? (fun f => f.index == index) with
  | some f =>
    if f.cancelled || f.deadline == 0 || decide (now s ≤ f.deadline) then s
    else
      postEntry (qpMod s p q (fun x => { x with inflight := x.inflight.map (fun g => if g.index == index then { g with cancelled := true } else g) }))
        p q index f.entry 0x0500 0 ((Config.freeWord s.free).toNat % 2 ^ 32)
  | none =>
    if !decide ((index - x.head).toNat < ringCount x.head x.tail) then s
    else
      match readEntry s p q index with
      | (_, none) => s
      | (s1, some e) =>
        let d := entryDeadline x e
        if d = 0 ∨ now s ≤ d then s
        else
          let s2 := postEntry s1 p q index e 0x0500 0 ((Config.freeWord s.free).toNat % 2 ^ 32)
          let f := { newInflight x index e 0 0 with cancelled := true }
          qpMod s2 p q (fun x => if index = x.head ∧ !qpPlan x then advanceHead (x.inflight.length + 1) x else { x with inflight := x.inflight ++ [f] })

def timeOut (s : State) (p q : Nat) (index : BitVec 32) : State := (drawFree (spurDeadline s p q index)).2

/-- An entry completes without being sent. (DEDUCED, unsafe: log entry 74.) -/
def refuseEntry (s : State) (p q : Nat) (u : Option PlanUse) (i : BitVec 32) (e : List Byte) (status : Nat) : State :=
  finishFree (takeEntry s p q u 0) p q (newInflight (qpGet s p q) i e 0 0) status 0

/-- Serve the next entry when it is one of those a command issues; one whose deadline has passed times out instead (R51). -/
def serveEntry (s : State) (p q : Nat) (mine : List Byte → Bool)
    (run : State → Option PlanUse → BitVec 32 → List Byte → State) : State :=
  match issueIndex s p q with
  | none => s
  | some (i, u) =>
    match readEntry s p q i with
    | (s1, none) => refuseEntry s1 p q u i [] 0x0400
    | (s1, some e) =>
      let d := entryDeadline (qpGet s p q) e
      if !mine e then s else if d ≠ 0 ∧ d < now s then timeOut s1 p q i else run s1 u i e

/-! ### RC work entries (R335) -/

def rcOp (e : List Byte) : Nat := byteAt e 0
def rcLen (e : List Byte) : Nat := fieldN e 0x10 4
def rcLocal (e : List Byte) : Nat := fieldN e 8 8
/-- (DEDUCED, unsafe: log entry 74.) -/
def rcReserved (e : List Byte) : Bool := rcOp e == 0 || decide (5 < rcOp e) || decide (2 ^ 31 < rcLen e)

/-- Packets of a message of n bytes. -/
def packetsOf (x : QueuePair) (n : Nat) : BitVec 24 := BitVec.ofNat 24 (Nat.max 1 (ceilDiv n (qpMtu x)))

/-- The message of an RC entry goes out; a READ asks for its length. -/
def rcSend (s : State) (p q : Nat) (e bytes : List Byte) : State :=
  emitOut s
    (.spurFrame p q (rcOp e) (BitVec.ofNat 64 (fieldN e 0x18 8)) (fieldN e 0x14 4) (fieldN e 4 4) (if rcOp e = 5 then leBytes 4 (rcLen e) else bytes))

/-- Send the message of an RC entry for the first time: it takes the next packet sequence numbers (R335). -/
def rcEmit (s : State) (p q : Nat) (e bytes : List Byte) : State :=
  rcSend (qpMod s p q (fun x => { x with sqPsn := x.sqPsn + packetsOf x (if rcOp e = 5 then rcLen e else bytes.length) })) p q e bytes

/-- The local data of an entry, empty for a READ; none when it is unreadable. -/
def rcData (s : State) (e : List Byte) : State × Option (List Byte) :=
  if rcOp e = 5 ∨ rcLen e = 0 then (s, some [])
  else match readRef s (rcLocal e) (rcLen e) with
    | (t, .ok b) => (t, some b)
    | (t, .error _) => (t, none)

def readsOpen (x : QueuePair) : Nat := (x.inflight.filter (fun f => !f.cancelled && rcOp f.entry == 5)).length

/-- A handover mismatch of memory sent by Spur counts at the unit that owns the memory (R309, R310). -/
def sourceMismatch (s : State) (a : Nat) : State :=
  let k := (checkerOf s a).2.2
  stickySet (count s k 4 1) k 9

def issueRc (p q op : Nat) (handoverOk : Bool) (s : State) : State :=
  let x := qpGet s p q
  if !(qpValid p q && qpKind x == 0) then s
  else serveEntry s p q (fun e => rcOp e == op || rcReserved e) (fun s1 u i e =>
    if rcReserved e then refuseEntry s1 p q u i e 0x0200
    else if bit (byteAt e 1) 1 && readsOpen x != 0 then s
    else if op = 5 ∧ 16 ≤ readsOpen x then s
    else
      let len := if op = 5 then rcLen e else 0
      match u with
      | some v =>
        if ingestLength s1 v < v.used + len then streamError s1 v.job v.record v.rep (keyStack (strScope v.hdr)) 5 0 v.used
        else pushInflight (rcEmit (takeEntry s1 p q u len) p q e []) p q (newInflight x i e (rcLen e) v.used)
      | none =>
        match rcData s1 e with
        | (s2, none) => refuseEntry s2 p q u i e 0x0400
        | (s2, some b) =>
          if !handoverOk then refuseEntry (sourceMismatch s2 (rcLocal e)) p q u i e 0x0401
          else pushInflight (rcEmit (takeEntry s2 p q u len) p q e b) p q (newInflight x i e (rcLen e) 0))

/-- R335. -/
def execSpurSend (port qp : Nat) (handoverOk : Bool) (s : State) : Host.Outcome State Fault Refusal := .next (issueRc port qp 1 handoverOk s)
/-- R335. -/
def execSpurSendImm (port qp : Nat) (handoverOk : Bool) (s : State) : Host.Outcome State Fault Refusal := .next (issueRc port qp 2 handoverOk s)
/-- R335. -/
def execSpurWrite (port qp : Nat) (handoverOk : Bool) (s : State) : Host.Outcome State Fault Refusal := .next (issueRc port qp 3 handoverOk s)
/-- R339: a batch delivery is a WRITE_IMM of the batch's bytes. -/
def execSpurWriteImm (port qp : Nat) (handoverOk : Bool) (s : State) : Host.Outcome State Fault Refusal := .next (issueRc port qp 4 handoverOk s)
/-- R335. -/
def execSpurRead (port qp : Nat) (s : State) : Host.Outcome State Fault Refusal := .next (issueRc port qp 5 true s)

/-! ### NVMe entries (R336) -/

/-- (PRESUMED, unsafe: log entry 73.) -/
def nvOp (e : List Byte) : Nat := byteAt e 0
/-- (PRESUMED, unsafe: log entry 73.) -/
def nvFctype (e : List Byte) : Nat := byteAt e 4
def nvLocal (e : List Byte) : Nat := fieldN e 24 8

/-- Bytes that a Read transfers. -/
def nvLen (x : QueuePair) (e : List Byte) : Nat := (fieldN e 48 2 + 1) * 2 ^ byteAt x.ctx 0x3C

/-- QID of a Connect. -/
def nvConnectQid (e : List Byte) : Nat := fieldN e 42 2

def isFabrics (fctype : Nat) (e : List Byte) : Bool := nvOp e == 0x7F && nvFctype e == fctype

/-- The controller of an NVMe queue pair: its target's address and its controller ID. -/
def controllerOf (x : QueuePair) : List Byte := slice x.ctx 0x10 16 ++ slice x.ctx 0x36 2

/-- Connected NVMe queue pairs of both ports. -/
def nvQueues (s : State) : List QueuePair := [0, 1].flatMap (fun p => ((spurGet s p).qps.map (·.2)).filter (fun x => isNvme x && x.nvQid.isSome))

/-- A Connect stays within 1,024 controllers, each with one admin queue and up to 8 I/O queues, and its queue pair is no queue yet (R336). (PRESUMED, unsafe: log entry 73.) -/
def connectOk (s : State) (x : QueuePair) (e : List Byte) : Bool :=
  let qid := nvConnectQid e
  let mine := (nvQueues s).filter (fun y => controllerOf y == controllerOf x)
  let controllers := ((nvQueues s).map controllerOf).foldl (fun acc c => if acc.contains c then acc else acc ++ [c]) []
  x.nvQid.isNone && decide (qid ≤ 8) && !mine.any (fun y => y.nvQid == some qid) &&
    (if qid = 0 then controllers.contains (controllerOf x) || decide (controllers.length < 1024) else !mine.isEmpty)

/-- Commands of the host role (R336): on a queue pair that is no queue yet Connect; on an admin queue Property Set and Get, Identify, Get Log Page of
the Error Information and Keep Alive; on an I/O queue Read. (PRESUMED, unsafe: log entry 73.) -/
def nvKnown (s : State) (x : QueuePair) (e : List Byte) : Bool :=
  if isFabrics 1 e then connectOk s x e
  else match x.nvQid with
    | none => false
    | some 0 => isFabrics 0 e || isFabrics 4 e || nvOp e == 6 || nvOp e == 0x18 || (nvOp e == 2 && byteAt e 40 == 1)
    | some _ => nvOp e == 2

/-- Data bytes that a command moves: a Read's blocks, Identify's 4 KiB, the dwords of a log page, Connect's 1 KiB. (PRESUMED, unsafe: log entry 73.) -/
def nvBytes (x : QueuePair) (e : List Byte) : Nat :=
  if isFabrics 1 e then 1024
  else if nvOp e = 6 then 4096
  else if nvOp e = 2 then (if x.nvQid = some 0 then 4 * (fieldN e 42 2 + 1) else nvLen x e)
  else 0

/-- The data pointer of a capsule: a keyed SGL data block of the local address over RDMA, a transport data block over TCP; the key is the port's own,
a free value. (PRESUMED, unsafe: log entry 73.) -/
def nvSgl (x : QueuePair) (key : Nat) (e : List Byte) : List Byte :=
  let n := nvBytes x e
  if n = 0 then List.replicate 16 0
  else if qpKind x = 1 then leBytes 8 (nvLocal e) ++ leBytes 3 n ++ leBytes 4 key ++ [0x40]
  else leBytes 8 0 ++ leBytes 4 n ++ leBytes 3 0 ++ [0x5A]

/-- Send a command capsule with the CID that the port assigns and the data pointer in place of PRP1. (PRESUMED, unsafe: log entry 73.) -/
def nvEmit (s : State) (p q : Nat) (i : BitVec 32) (e : List Byte) : State :=
  let x := qpGet s p q
  let (n, s1) := drawFree s
  let sqe := splice (splice (splice (e.take 64) 1 [BitVec.ofNat 8 (byteAt e 1 % 64 + 64)]) 2 (leBytes 2 i.toNat)) 24
    (nvSgl x ((Config.freeWord n).toNat % 2 ^ 32) e)
  emitOut s1 (.nvme p q (nvOp e) (sqe.map (·.toNat)))

/-- (PRESUMED, unsafe: log entry 73.) -/
def issueNvme (p q : Nat) (mine : List Byte → Bool) (io : Bool) (s : State) : State :=
  let x := qpGet s p q
  if !(qpValid p q && isNvme x) then s
  else serveEntry s p q (fun e => mine e || !nvKnown s x e) (fun s1 u i e =>
    let len := if io then nvLen x e else 0
    if !nvKnown s x e || decide (2 ^ 20 < len) then refuseEntry s1 p q u i e 0x0200
    else
      match u with
      | some v =>
        if ingestLength s1 v < v.used + len then streamError s1 v.job v.record v.rep (keyStack (strScope v.hdr)) 5 0 v.used
        else pushInflight (nvEmit (takeEntry s1 p q u len) p q i e) p q (newInflight x i e len v.used)
      | none => pushInflight (nvEmit (takeEntry s1 p q u len) p q i e) p q (newInflight x i e len 0))

/-- The queue that a queue pair is: none before its Connect, 0 the admin queue. -/
def nvQueue (s : State) (p q : Nat) : Option Nat := (qpGet s p q).nvQid

/-- R336, R340. -/
def execNvmeRead (port qp : Nat) (s : State) : Host.Outcome State Fault Refusal :=
  .next (issueNvme port qp (fun e => nvOp e == 2 && (nvQueue s port qp).any (0 < ·)) true s)
/-- R336. -/
def execNvmeFabricsConnect (port qp : Nat) (s : State) : Host.Outcome State Fault Refusal := .next (issueNvme port qp (isFabrics 1) false s)
/-- R336. -/
def execNvmePropertyGet (port qp : Nat) (s : State) : Host.Outcome State Fault Refusal := .next (issueNvme port qp (isFabrics 4) false s)
/-- R336. -/
def execNvmePropertySet (port qp : Nat) (s : State) : Host.Outcome State Fault Refusal := .next (issueNvme port qp (isFabrics 0) false s)
/-- R336. -/
def execNvmeIdentify (port qp : Nat) (s : State) : Host.Outcome State Fault Refusal := .next (issueNvme port qp (fun e => nvOp e == 6) false s)
/-- R336: the Error Information log. -/
def execNvmeGetLogPage (port qp : Nat) (s : State) : Host.Outcome State Fault Refusal :=
  .next (issueNvme port qp (fun e => nvOp e == 2 && byteAt e 40 == 1 && nvQueue s port qp == some 0) false s)
/-- R336. -/
def execNvmeKeepAlive (port qp : Nat) (s : State) : Host.Outcome State Fault Refusal := .next (issueNvme port qp (fun e => nvOp e == 0x18) false s)

/-! ### Deadlines (R51) -/

/-- The entries of a RING repeat had not all arrived by the strike before its first offset (R263). -/
def ringDeadline (s : State) (record rep : Nat) : State :=
  match servedStream s record rep 4 with
  | none => s
  | some (j, h) =>
    let start := ((actOf j (.stream record rep)).map (·.start)).getD 0
    if strForm h = 2 ∧ !ringArrived s j h record rep (start - 1) then ringShort s j h record rep else s

/-- R51: in the strike after its deadline a request that has not been answered is cancelled with TIMEOUT. -/
def execRequestDeadlineTimeout (r : DeadlineRef) (s : State) : Host.Outcome State Fault Refusal :=
  .next (match r with
    | .spurEntry p q i => if qpValid p q then timeOut s p q (BitVec.ofNat 32 i) else s
    | .ringRepeat record rep => ringDeadline s record rep)

/-! ### Answers (R335, R338) -/

/-- Send an entry again under its packet sequence numbers: its data is read anew, and handed over anew (R309, R310). -/
def resendEntry (s : State) (p q : Nat) (f : Inflight) (handoverOk : Bool) (g : Inflight → Inflight) : State :=
  match rcData s f.entry with
  | (s1, none) => finishFree s1 p q f 0x0400 0
  | (s1, some b) =>
    if !handoverOk && rcOp f.entry != 5 then finishFree (sourceMismatch s1 (rcLocal f.entry)) p q f 0x0401 0
    else rcSend (qpMod s1 p q (fun x => { x with inflight := x.inflight.map (fun e => if e.index == f.index then g e else e) })) p q f.entry b

/-- Retry after a lost or out-of-sequence packet, while retries are left. (PRESUMED, unsafe: log entry 72.) -/
def retryEntry (s : State) (p q : Nat) (f : Inflight) (handoverOk : Bool) : State :=
  if f.retries < qpRetry (qpGet s p q) then resendEntry s p q f handoverOk (fun e => { e with retries := e.retries + 1 })
  else finishFree s p q f 0x0800 0

/-- A span check fails where read data is coded (R309): the receiving device counts it, and on a PLAN queue pair the INGEST repeat ends with the stream
error CHECK (R265, R310). -/
def landMismatch (s : State) (p q : Nat) : State :=
  match (if qpPlan (qpGet s p q) then planUse s p q else none) with
  | some u => streamError s u.job u.record u.rep (keyStack (strScope u.hdr)) 3 0 0
  | none => stickySet (count s devKey 4 1) devKey 9

/-- Read data reaches its place: the local memory, or for a PLAN queue pair the INGEST repeat (R259). -/
def landData (s : State) (p q : Nat) (f : Inflight) (addr : Nat) (bytes : List Byte) (spanOk : Bool) : State :=
  let b := bytes.take f.len
  if !spanOk then finishFree (landMismatch s p q) p q f 0x0401 0
  else if qpPlan (qpGet s p q) then finishFree (qpMod s p q (fun x => { x with data := sparseSet [] f.place b x.data })) p q f 0 b.length
  else if b.isEmpty then finishFree s p q f 0 0
  else if rangeOk s isTier addr b.length then finishFree (memWrite s addr b) p q f 0 b.length
  else finishFree s p q f 0x0400 0

/-- A Connect that the target accepts makes the queue pair a queue of its controller (R336). -/
def noteConnect (s : State) (p q : Nat) (f : Inflight) : State :=
  if isFabrics 1 f.entry then qpMod s p q (fun x => { x with nvQid := some (nvConnectQid f.entry) }) else s

/-- Data of an NVMe answer: a Read's places are bounded by its length, an admin answer's by what came. -/
def nvData (f : Inflight) (bytes : List Byte) : Inflight := if f.len = 0 then { f with len := bytes.length } else f

/-- (PRESUMED, unsafe: log entry 72.) -/
def answerEntry (s : State) (p q : Nat) (f : Inflight) (r : SpurResp) : State :=
  let x := qpGet s p q
  match r with
  | .ack => if isNvme x || rcOp f.entry == 5 then s else finishFree s p q f 0 f.len
  | .nak n => if isNvme x then s else if n = 0x60 then retryEntry s p q f true else finishEntry s p q f 0x0800 0 n
  | .rnr =>
    if isNvme x then s
    else if f.rnr < qpRnrRetry x then resendEntry s p q f true (fun e => { e with rnr := e.rnr + 1 })
    else finishFree s p q f 0x0800 0
  | .readData bytes ok => if !isNvme x && rcOp f.entry == 5 then landData s p q f (rcLocal f.entry) bytes ok else s
  | .nvmeOk bytes ok => if isNvme x then landData (noteConnect s p q f) p q (nvData f bytes) (nvLocal f.entry) bytes ok else s
  | .nvmeError st => if isNvme x then finishEntry s p q f 0x0800 0 st else s
  | .connectionLost => finishFree s p q f 0x0800 0

/-- R338: an answer for an outstanding entry; one for a timed-out entry is discarded and counted, also where its TIMEOUT is still to be
posted (R51). -/
def execSpurResponseReceive (port qp : Nat) (index : BitVec 32) (r : SpurResp) (s : State) : Host.Outcome State Fault Refusal :=
  .next (match (qpGet s port qp).inflight.find? (fun f => f.index == index) with
    | none => s
    | some f =>
      if !qpValid port qp then s
      else if f.cancelled || (f.deadline != 0 && decide (f.deadline < now s)) then
        count (qpMod (timeOut s port qp index) port qp (fun x => { x with inflight := x.inflight.filter (fun g => g.index != index) })) devKey 19 1
      else answerEntry s port qp f r)

/-- R335: the ACK timer of the oldest outstanding RC entry expires. -/
def execRoceAckTimeout (port : Nat) (retry : Retry) (s : State) : Host.Outcome State Fault Refusal :=
  let qp := retry.qp
  .next (if qpValid port qp && !isNvme (qpGet s port qp) then
    match (qpGet s port qp).inflight.find? (fun f => !f.cancelled) with
    | none => s
    | some f => if f.deadline ≠ 0 ∧ f.deadline < now s then timeOut s port qp f.index else retryEntry s port qp f retry.handoverOk
  else s)

/-! ### The responder (R335, R344) -/

/-- The registered region of a key that holds a range. (DEDUCED, unsafe: log entry 76.) -/
def regionOf (s : State) (p rkey : Nat) (addr : Word) (n : Nat) : Option Region :=
  (spurGet s p).regions.find? (fun r => r.rkey == rkey && decide (r.base.toNat ≤ addr.toNat ∧ addr.toNat + n ≤ r.base.toNat + r.len))

def canReceive (s : State) (p q : Nat) : Bool :=
  let x := qpGet s p q
  qpValid p q && (x.state == .rtr || x.state == .rts) && decide ((spurGet s p).mode.toNat ≤ 1) && (spurGet s p).linkUp && qpKind x != 2

/-- A good request of n bytes: the expected PSN advances by its packets, the MSN by one, and the reply goes out. -/
def replyOk (s : State) (p q n : Nat) (bytes : List Byte) : State :=
  emitOut (qpMod s p q (fun x => { x with rqPsn := x.rqPsn + packetsOf x n, msn := x.msn + 1 })) (.roceReply p q true 0 bytes)

/-- NAK codes of InfiniBand: 0x61 Invalid Request, 0x62 Remote Access Error, 0x63 Remote Operational Error. -/
def replyNak (s : State) (p q syndrome : Nat) : State := emitOut s (.roceReply p q false syndrome [])

/-- R335, R310: a packet with a bad ICRC is dropped; a reply whose check handover mismatches is not sent. -/
def execRoceInboundRead (port qp rkey : Nat) (addr : Word) (ask : InboundRead) (s : State) : Host.Outcome State Fault Refusal :=
  .next (if !canReceive s port qp || !ask.icrcOk then s
    else match regionOf s port rkey addr ask.len with
      | none => replyNak s port qp 0x62
      | some _ => match readRef s addr.toNat ask.len with
        | (s1, .ok b) => if ask.handoverOk then replyOk s1 port qp ask.len b else replyNak (sourceMismatch s1 addr.toNat) port qp 0x63
        | (s1, .error _) => replyNak s1 port qp 0x63)

/-- R335, R309: a packet with a bad ICRC is dropped; data whose span check fails at the encoder is not committed. -/
def execRoceInboundWrite (port qp rkey : Nat) (addr : Word) (bytes : List Byte) (imm icrcOk handoverOk : Bool) (s : State) :
    Host.Outcome State Fault Refusal :=
  .next (if !canReceive s port qp || !icrcOk then s
    else if imm then replyNak s port qp 0x61
    else match regionOf s port rkey addr bytes.length with
      | none => replyNak s port qp 0x62
      | some r =>
        if !r.writable then replyNak s port qp 0x62
        else if !rangeOk s isTier addr.toNat bytes.length then replyNak s port qp 0x63
        else if !handoverOk then stickySet (count s devKey 4 1) devKey 9
        else replyOk (memWrite s addr.toNat bytes) port qp bytes.length [])

/-- R335, R344: a SEND on a VMP queue pair is a request message; any other inbound SEND is refused, and one with a bad ICRC dropped. -/
def execRoceInboundSend (port qp : Nat) (bytes : List Byte) (last : InboundSend) (s : State) : Host.Outcome State Fault Refusal :=
  .next (if !canReceive s port qp || !last.icrcOk then s
    else if last.imm || qpKind (qpGet s port qp) != 3 then replyNak s port qp 0x61
    else
      let k := 256 + 2048 * port + qp
      let s1 := { s with vmp := { s.vmp with remote := sparseSet [] k (sparseGet [] k s.vmp.remote ++ [(now s, slice bytes 0 128)]) s.vmp.remote } }
      replyOk s1 port qp bytes.length [])

/-! ### Congestion (R335) -/

/-- R335: the rate halves. -/
def execCnpReceive (port qp : Nat) (s : State) : Host.Outcome State Fault Refusal :=
  .next (if qpValid port qp then qpMod s port qp (fun x => { x with rateShift := x.rateShift + 1, cnpStrike := now s }) else s)

/-- R335: after 64 µs, 256 strikes, without a CNP the rate doubles, up to the line rate. -/
def execCnpRateRecovery (port qp : Nat) (s : State) : Host.Outcome State Fault Refusal :=
  .next (if qpValid port qp && decide (0 < (qpGet s port qp).rateShift ∧ (qpGet s port qp).cnpStrike + 256 ≤ now s) then
    qpMod s port qp (fun x => { x with rateShift := x.rateShift - 1, cnpStrike := now s }) else s)

/-- R335: a packet marked CE arrived: at most one CNP per 50 µs, 200 strikes. -/
def execCnpSend (port qp : Nat) (s : State) : Host.Outcome State Fault Refusal :=
  .next (if canReceive s port qp && (match (qpGet s port qp).cnpSent with
      | some t => decide (t + 200 ≤ now s)
      | none => true) then
    emitOut (qpMod s port qp (fun x => { x with cnpSent := some (now s) })) (.cnp port qp) else s)

/-! ### Ethernet frames (R334) -/

/-- An item of SPUR_IDENTITY of a port. -/
def spurItem (s : State) (p i : Nat) : Nat := paramAt s devKey 0xE (16 * p + i)

/-- (DEDUCED, unsafe: log entry 71.) -/
def ownIp (s : State) (p ip : Nat) : Bool :=
  ip != 0 && (ip == spurItem s p 2 || ip == spurItem s p 3 * 2 ^ 64 + spurItem s p 4)

/-- The frame lies in the supported subset. (DEDUCED, unsafe: log entry 71.) -/
def frameSupported (s : State) (p : Nat) (f : EthFrame) : Bool :=
  let broadcast := f.dstMac == 2 ^ 48 - 1
  let toMe := f.dstMac == spurItem s p 0
  let addressed := match f.payload with
    | .arpRequest _ => toMe || broadcast
    | .neighbourSolicit _ => toMe || f.multicastNd
    | _ => toMe
  decide (f.bytes ≤ 9216) && f.vid == some (spurItem s p 1) && addressed && !f.fragment && !f.ipOptions && f.payload != .other

/-- R334: answers to ARP (1), Neighbour Solicitation (2) and echo (3); a frame outside the subset is dropped and counted. -/
def execEthFrameReceive (port : Nat) (f : EthFrame) (s : State) : Host.Outcome State Fault Refusal :=
  .next (if !(decide (port < 2) && decide ((spurGet s port).mode.toNat ≤ 1) && (spurGet s port).linkUp) then s
    else if !frameSupported s port f then
      spurMod s port (fun x => { x with drops := if x.drops = 0xFFFFFFFF then x.drops else x.drops + 1 })
    else match f.payload with
      | .arpRequest ip => if ip = spurItem s port 2 ∧ ip ≠ 0 then emitOut s (.ethReply port 1 (beBytes 6 (spurItem s port 0))) else s
      | .neighbourSolicit ip => if ownIp s port ip then emitOut s (.ethReply port 2 (beBytes 6 (spurItem s port 0))) else s
      | .echoRequest ip data => if ownIp s port ip then emitOut s (.ethReply port 3 data) else s
      | .roce => s
      | .nvmeTcp => s
      | .other => s)

/-- R334: a priority of the port's mask pauses or resumes. (DEDUCED, unsafe: log entry 71.) -/
def execPfcPauseReceive (port priority : Nat) (pause : Bool) (s : State) : Host.Outcome State Fault Refusal :=
  .next (if decide (port < 2 ∧ priority < 8) && decide ((spurGet s port).mode.toNat ≤ 1) && bit (spurItem s port 6) priority then
    spurMod s port (fun x => { x with paused := if pause then x.paused ||| BitVec.ofNat 8 (2 ^ priority) else x.paused &&& ~~~ BitVec.ofNat 8 (2 ^ priority) })
  else s)

/-- R342: LINK_UP follows the Ethernet link. -/
def execEthernetLinkChange (port : Nat) (up : Bool) (s : State) : Host.Outcome State Fault Refusal :=
  .next (if decide (port < 2) && decide ((spurGet s port).mode.toNat ≤ 1) && (spurGet s port).retrainFrom.isNone then
    spurMod s port (fun x => { x with linkUp := up }) else s)

/-- R332: the port has retrained in its new mode; an Ethernet link is up when its training succeeded. -/
def execSpurModeRetrain (port : Nat) (ok : Bool) (s : State) : Host.Outcome State Fault Refusal :=
  .next (if decide (port < 2) && (spurGet s port).retrainFrom.isSome then
    spurMod s port (fun x => { x with retrainFrom := none, linkUp := ok && decide (x.mode.toNat ≤ 1), paused := 0 }) else s)

end Sys2Proof.Machine
end

