-- ==== Sys2Proof/Machine/Registers.lean ====
section
/-!
DEFINITION. Register writes by their access types and by who makes them (R8, R19, R22 to R24, R42, R261, R262, R266, R303, R304, R306, R337,
R342, R344, R346), and the accesses of the Hearth (R307).
-/
namespace Sys2Proof.Machine

/-- A forbidden or unmapped access returns a bus error to a Hearth requester and changes nothing. (DEDUCED, unsafe: log entry 68.) -/
def accessError (s : State) (who : Requester) (a : Nat) : State := if who == .hearth then emitOut s (.hearthFault (BitVec.ofNat 64 a)) else s

/-! ### Unit control pages (R19, R22 to R24) -/

/-- Clear sticky bits of a group in every member at the next heat boundary (R24). (DEDUCED, unsafe: log entry 8.) -/
def groupClearWrite (s : State) (u : Uid) (mask : Word) : State :=
  match groupOf s u with
  | none => s
  | some g =>
    let heat := heatOf (now s) + 1
    sendTo (groupClear s (mask &&& stickyMask) (now s) heat) g.members 3 (.clearSticky (mask &&& stickyMask) (now s) heat)

/-- Write ones to a sticky register while hardware sets the bits of hw (R23). -/
def stickyWrite (s : State) (u : Uid) (mask hw : Word) : State :=
  if keyLevel u.toNat = 5 then groupClearWrite s u mask
  else
    let k := uidKey u
    let s1 := pageMod s k (fun p => { p with sticky := p.sticky &&& ~~~ (mask &&& stickyMask &&& ~~~ hw) })
    ((List.range 21).filter (fun b => hw.getLsbD b)).foldl (fun t b => stickySet t k b) s1

/-- The FIRED bits written as 1 clear. -/
def firedClear (p : UnitPage) (v : Word) : UnitPage := { p with wdCtrl := p.wdCtrl &&& ~~~ (v.setWidth 32 &&& 0x01010101) }

/-- The Warden writes WD_CTRL: EN, and FIRED as W1C. -/
def wdCtrlWrite (p : UnitPage) (v : Word) : UnitPage :=
  let q := firedClear p v
  { q with wdCtrl := (q.wdCtrl &&& ~~~ 0x80808080) ||| (v.setWidth 32 &&& 0x80808080) }

def ucpWrite (s : State) (who : Requester) (u : Uid) (off a : Nat) (v : Word) : State :=
  let k := targetPageKey u
  match who with
  | .hearth =>
    if off = 0x10 then stickyWrite s u v 0
    else if off = 0x60 then pageMod s k (fun p => firedClear p v)
    else accessError s who a
  | .warden =>
    match off with
    | 0x10 => stickyWrite s u v 0
    | 0x18 => pageMod s k (fun p => { p with notify := v &&& stickyMask })
    | 0x40 => pageMod s k (fun p => wdWrite p 0 v)
    | 0x48 => pageMod s k (fun p => wdWrite p 1 v)
    | 0x50 => pageMod s k (fun p => wdWrite p 2 v)
    | 0x58 => pageMod s k (fun p => wdWrite p 3 v)
    | 0x60 => pageMod s k (fun p => wdCtrlWrite p v)
    | 0x88 => if v.getLsbD 0 then resetReq s u else s
    | _ => s
  | .cmc => s
  | .spur => s

/-! ### Rings (R261 to R263, R266) -/

/-- Offset of the plan in the next strike, when that is a run strike. -/
def offsetNext (s : State) (j : Job) : Option Nat :=
  if s.seq.nextKind = .run then some (offsetAt j (now s + 1) (s.seq.hold + (if s.seq.kind = .run then 0 else 1))) else none

/-- A repeat of a RING record whose deadline is this strike, some of whose entries a TAIL write from `old` to `new` entries covers. (DEDUCED, unsafe: log entry 69.) -/
def lateArrival (s : State) (n old new : Nat) : Bool :=
  match runningJob s with
  | none => false
  | some j => (streamNames j.plan j.pos).any (fun r =>
    let h := streamHdr j.plan j.pos r
    strKind h == 4 && strForm h == 2 && drNumber (keyStack (strScope h)) (strRing h) == n &&
      (match (offsetNext s j).bind (repeatAt h) with
       | some i =>
         let lo := heldBefore j n r i
         decide (Nat.max lo old < Nat.min (lo + strNentry h) new)
       | none => false))

/-- A producer writes TAIL of descriptor ring r of engine st: the entries that it covers arrive; a write past the ring is ignored. Arrivals in
their deadline strike set LATE_EDGE in the column; those that complete a repeat that has timed out count in LATE_DROPS (R267). (DEDUCED, unsafe: log entry 68.) -/
def drTail (s : State) (st r : Nat) (t : BitVec 32) : State :=
  let n := drNumber st r
  let g := ringGet s n
  if ringSize (bellowsRing s st r).2 < ringCount g.head t then s
  else
    let late := lateArrival s n (ringCount g.head g.tail) (ringCount g.head t)
    let gone := g.late.filter (fun e => decide ((e - g.head).toNat ≤ ringCount g.head t))
    let s1 := ringMod (if gone.isEmpty then s else count s (columnKey st) 28 gone.length) n (fun g => { g with
      late := g.late.filter (fun e => !gone.contains e), tail := t, arrivals := g.arrivals.filter (fun a => decide (0 < ringCount g.head a.1 ∧ ringCount g.head a.1 ≤ 4096)) ++ [(t, now s)] })
    if late then count (stickySet s1 (columnKey st) 8) (columnKey st) 27 1 else s1

def bellowsWrite (s : State) (who : Requester) (st off a : Nat) (v : Word) : State :=
  if 0x1000 ≤ off ∧ off < 0x2000 ∧ off % 32 = 0x18 then (if who == .cmc then s else drTail s st ((off - 0x1000) / 32) (v.setWidth 32))
  else if 0x2000 ≤ off ∧ off < 0x2200 ∧ off % 32 = 0x10 then
    (if who == .hearth || who == .warden then ringMod s (crNumber st ((off - 0x2000) / 32)) (fun g => { g with head := v.setWidth 32 }) else s)
  else accessError s who a

/-- A client writes TAIL of a request ring (R346, R261). -/
def requestTail (s : State) (pair : Nat) (t : BitVec 32) : State :=
  let p := pairGet s pair
  if ringSize p.reqLog2.toNat < ringCount p.reqHead t then s
  else pairMod s pair (fun p => { p with reqTail := t, arrivals := p.arrivals ++ [(t, now s)] })

def doorbellWrite (s : State) (who : Requester) (ring off : Nat) (v : Word) : State :=
  let k := ring / 2
  if !mayRing who k then ringFault s who k (4096 * (ring % 2) + off)
  else
    let en := (pairGet s k).en
    if ring % 2 = 1 then
      match off with
      | 0x00 => if en then s else pairMod s k (fun p => { p with respBase := v })
      | 0x08 => if en then s else pairMod s k (fun p => { p with respLog2 := v.setWidth 4 })
      | 0x10 => pairMod s k (fun p => { p with respHead := v.setWidth 32 })
      | _ => s
    else
      match off with
      | 0x000 => if en then s else pairMod s k (fun p => { p with reqBase := v })
      | 0x008 => if en then s else pairMod s k (fun p => { p with reqLog2 := v.setWidth 4 })
      | 0x018 => requestTail s k (v.setWidth 32)
      | 0x020 => if v.getLsbD 0 then enableSet s who k else enableClear s who k
      | 0x800 => if en then s else pairMod s k (fun p => { p with evtBase := v })
      | 0x808 => if en then s else pairMod s k (fun p => { p with evtLog2 := v.setWidth 4 })
      | 0x810 => pairMod s k (fun p => { p with evtHead := v.setWidth 32 })
      | 0x820 => pairMod s k (fun p => { p with evtEn := v.getLsbD 32, evtUid := v.setWidth 32 })
      | _ => s

/-! ### Checkers (R303, R304, R306) -/

def checkerWrite (s : State) (who : Requester) (c off a : Nat) (v : Word) : State :=
  if who != .warden then accessError s who a
  else if off = 0x20 then checkerMod s c (fun x => { x with flipAddr := v })
  else if off = 0x28 then checkerMod s c (fun x => { x with flipLo := v })
  else if off = 0x30 then checkerMod s c (fun x => { x with flipArm := v.getLsbD 63, flipMask := v.setWidth 8 })
  else if 0x100 ≤ off ∧ off < 0x200 ∧ off % 32 = 8 ∧ v.getLsbD 0 then
    checkerMod s c (fun x => { x with log := listModify x.log ((off - 0x100) / 32) (fun _ => LogEntry.empty) })
  else s

/-! ### Spur ports (R337, R342) -/

def qpStateOf (n : Nat) : Option QpState :=
  match n with
  | 0 => some .reset | 1 => some .init | 2 => some .rtr | 3 => some .rts | 4 => some .error | _ => none

def spurWrite (s : State) (who : Requester) (p off a : Nat) (v : Word) : State :=
  if !(who == .hearth || who == .warden) then s
  else if off = 0x108 then spurMod s p (fun x => { x with ctxBase := v })
  else if off = 0x110 then
    match qpStateOf (bits v.toNat 18 16) with
    | some x => qpMove s p (v.toNat % 2048) x
    | none => s
  else if 0x4000 ≤ off ∧ off < 0x8000 then sqTail s p ((off - 0x4000) / 8) (v.setWidth 32)
  else if 0x8000 ≤ off ∧ off < 0x9000 then
    spurMod s p (fun x =>
      let c := (off - 0x8000) / 8
      { x with cqs := sparseSet { head := 0, tail := 0 } c { sparseGet { head := 0, tail := 0 } c x.cqs with head := v.setWidth 32 } x.cqs })
  else accessError s who a

/-! ### All windows -/

def blockWrite (s : State) (who : Requester) (cls inst off a : Nat) (v : Word) : State :=
  match cls with
  | 0x01 => bellowsWrite s who inst off a v
  | 0x06 => checkerWrite s who inst off a v
  | 0x07 => checkerWrite s who (16 + inst) off a v
  | 0x09 => spurWrite s who inst off a v
  | 0x0A => if 0x8000 ≤ off ∧ off < 0xA000 then checkerWrite s who (32 + inst) (off - 0x8000) a v else accessError s who a
  | 0x0B =>
    if who != .warden then accessError s who a
    else if off = 0x18 then tbMod s (fun t => { t with ppsDelay := v.setWidth 24 })
    else if off = 0x20 then tbMod s (fun t => { t with strike0Unix := v })
    else s
  | _ => accessError s who a

/-- A write of a word to a register address. Read-only and reserved places ignore it (R8); what the Hearth may not write, and what is no
register, returns a bus error. -/
def regWrite (s : State) (who : Requester) (a : Nat) (v : Word) : State :=
  if a % 8 ≠ 0 then accessError s who a
  else match placeOf s a with
    | .page u off => ucpWrite s who u off a v
    | .block cls inst off => blockWrite s who cls inst off a v
    | .doorbell ring off => doorbellWrite s who ring off v
    | _ => accessError s who a

/-! ### Commands -/

/-- R8. -/
def execRegisterWrite (who : Requester) (addr value : Word) (s : State) : Host.Outcome State Fault Refusal := .next (regWrite s who addr.toNat value)

/-- A UID that names a local unit, or a group of the device. -/
def pageHere (s : State) (u : Uid) : Bool :=
  uidShape u.toNat && (if keyLevel u.toNat = 5 then (groupOf s u).isSome else uidDevice u == s.form.device)

/-- Address of a register of a unit's page. -/
def pageAddr (u : Uid) (off : Nat) : Nat := ucpBase + u.toNat / 16 * 2 ^ 16 + off

/-- R22, R23. -/
def execStickyW1cWrite (who : Requester) (uid : Uid) (mask hw : Word) (s : State) : Host.Outcome State Fault Refusal :=
  .next (if !pageHere s uid then accessError s who (pageAddr uid 0x10)
    else if who == .warden || who == .hearth then stickyWrite s uid mask hw
    else ((List.range 21).filter (fun b => hw.getLsbD b)).foldl (fun t b => stickySet t (uidKey uid) b) s)

/-- R24. -/
def execGroupStickyClear (group : BitVec 12) (mask : Word) (s : State) : Host.Outcome State Fault Refusal :=
  .next (groupClearWrite s (BitVec.ofNat 32 (5 * 2 ^ 28 + group.toNat * 2 ^ 16)) mask)

/-- R19: the Warden's write is evaluated from the end of the next strike on. -/
def execWatchdogDeadlineWrite (uid : Uid) (k : Nat) (value : Word) (s : State) : Host.Outcome State Fault Refusal :=
  .next (if pageHere s uid && decide (k < 4) then pageMod s (targetPageKey uid) (fun p => wdWrite p k value) else s)

/-- Address of the TAIL register that a producer writes for a ring (R260); the others are advanced by the device. -/
def tailAddr (ring : Nat) : Option Nat :=
  if ring < 512 then (if ring % 2 = 0 then some (doorBase + 4096 * ring + 0x18) else none)
  else if ring < 4608 then some (blockBase + 9 * 2 ^ 32 + (ring - 512) / 2048 * 2 ^ 16 + 0x4000 + 8 * ((ring - 512) % 2048))
  else if ring < 6656 then some (blockBase + 2 ^ 32 + (ring - 4608) / 128 * 2 ^ 16 + 0x1018 + 32 * ((ring - 4608) % 128))
  else none

/-- R261. -/
def execRingTailWrite (who : Requester) (ring : Nat) (tail : BitVec 32) (s : State) : Host.Outcome State Fault Refusal :=
  .next (match tailAddr ring with
    | some a => regWrite s who a (tail.setWidth 64)
    | none => s)

/-- R299. -/
def execMergeBufferFlush (bank addr : Nat) (s : State) : Host.Outcome State Fault Refusal :=
  .next (match (mergeGet s.mem bank).find? (fun e => e.addr == addr) with
    | some e => mergeFlushEntry s bank e
    | none => s)

/-- The window of a checker starts here. -/
def isChecker (s : State) (a : Nat) : Bool :=
  match placeOf s a with
  | .block cls _ off => (cls == 6 || cls == 7) && off == 0 || (cls == 0xA && off == 0x8000)
  | _ => false

/-- R306. -/
def execCheckerFlipArm (who : Requester) (addr value : Word) (s : State) : Host.Outcome State Fault Refusal :=
  .next (if isChecker s addr.toNat then regWrite s who (addr.toNat + 0x30) value else accessError s who addr.toNat)

/-! ### The Hearth (R307) -/

/-- Words that an access touches. -/
def accessWords (a n : Nat) : List Nat := if n = 0 then [] else (List.range ((a + n - 1) / 8 - a / 8 + 1)).map (fun i => (a / 8 + i) * 8)

/-- Read one word for the Hearth: memory through the decoder, or a register. -/
def hearthWord (acc : State × List Byte × Option Nat) (w : Nat) : State × List Byte × Option Nat :=
  if isMemory acc.1 w then
    let r := memRead acc.1 w 8
    (r.st, acc.2.1 ++ r.bytes, acc.2.2.or r.bad)
  else match regRead acc.1 w with
    | some v => (acc.1, acc.2.1 ++ leBytes 8 v.toNat, acc.2.2)
    | none => (acc.1, acc.2.1 ++ leBytes 8 0, acc.2.2.or (some w))

/-- A load: its data, or one access fault that names the lowest failing word. -/
def hearthLoad (s : State) (a n : Nat) : State :=
  let r := (accessWords a n).foldl hearthWord (s, [], none)
  match r.2.2 with
  | some w => emitOut r.1 (.hearthFault (BitVec.ofNat 64 w))
  | none => emitOut r.1 (.hearthData ((r.2.1.drop (a % 8)).take n))

/-- A store lies in memory, or covers whole words of registers. (DEDUCED, unsafe: log entry 68.) -/
def hearthStore (s : State) (a : Nat) (bs : List Byte) : State :=
  let ws := accessWords a bs.length
  if ws.all (isMemory s) then memWrite s a bs
  else match ws.find? (fun w => !isMemory s w && (regRead s w).isNone) with
    | some w => accessError s .hearth w
    | none =>
      if a % 8 = 0 ∧ bs.length % 8 = 0 ∧ ws.all (fun w => !isMemory s w) then
        ws.foldl (fun t w => regWrite t .hearth w (BitVec.ofNat 64 (fieldN bs (w - a) 8))) s
      else accessError s .hearth a

/-- R307. (DEDUCED, unsafe: log entry 68.) (DEDUCED, unsafe: log entry 108.) -/
def execHearthMemoryAccess (a : HearthAccess) (s : State) : Host.Outcome State Fault Refusal :=
  .next (match a with
    | .load addr n => hearthLoad s addr.toNat n
    | .store addr bs => hearthStore s addr.toNat bs)

end Sys2Proof.Machine
end

