-- ==== Sys2Proof/Machine/Control.lean ====
section
/-!
DEFINITION. Control messages between devices (R24, R36, R46, R54, R112, R119, R127, R323, R329), the routing tables (R328 to R330), and
formation (R404 to R411).
-/
namespace Sys2Proof.Machine

/-! ### Delivery (R323) -/

/-- Group position of device d in a job. -/
def memberPos (j : Job) (d : Nat) : Nat := (j.members.findIdx? (· == d)).getD j.members.length

/-- Group position of device d in the group of a table. -/
def tablePos (s : State) (table d : Nat) : Nat :=
  match embTable s table with
  | some t => ((groupMembers s t.group).findIdx? (· == d)).getD 4096
  | none => 4096

/-- The heartbeat of a heat is passed on once (R46). (DEDUCED, unsafe: log entry 79.) -/
def hearHeartbeat (s : State) : State :=
  if s.tb.role == .master || heatOf (now s) ≤ s.tb.heartbeatHeat then s
  else floodMsg (tbMod s (fun t => { t with heartbeatHeat := heatOf (now s) })) 1 .heartbeat

/-- A neighbour's lock state and hop count (R36): the own count follows the parent's, and a parent that is no longer locked or too far away
is left (R45). (DEDUCED, safe: log entry 82.) -/
def hearPortState (s : State) (p : Nat) (locked : Bool) (hops : Nat) : State :=
  if p < 6 then
    let s1 := tbMod s (fun t => { t with neighbourLocked := t.neighbourLocked.set p locked, neighbourHops := t.neighbourHops.set p hops })
    if s1.tb.parent != some p || s1.tb.lock != .locked then s1
    else if !locked || 24 < hops + 1 then leaveParent s1 p
    else tbMod s1 (fun t => { t with hops := BitVec.ofNat 5 (hops + 1) })
  else s

/-- The strike number in a port's control slot (R37). -/
def hearStrike (s : State) (p : Nat) (n : Word) : State :=
  if p < 6 then tbMod s (fun t => { t with slotNumber := t.slotNumber.set p (some (n, s.seq.strike)) }) else s

/-- Bytes of a DYNAMIC flow land in arrival order (R119). -/
def landDynamic (s : State) (f : Nat) (bs : List Byte) : State :=
  match runningJob s with
  | none => s
  | some j =>
    if (planFlows j.plan).any (fun x => x.index == f && x.dst == j.pos && x.dynamic) then
      setJob s j.num (fun j => { j with flowIn := sparseSet [] (chunkKey f (offsetNow s j) (flowChunks j.flowIn f).length) bs j.flowIn })
    else s

/-- A command that another Warden forwards. One that carries another epoch than this device held in the strike of sending is refused with
UNIT_FENCED (R54). (DEDUCED, unsafe: log entry 69.) -/
def hearForwarded (s : State) (src sent : Nat) (epoch : BitVec 32) (m : List Byte) : State :=
  if epoch != epochAt s sent then
    sendTo (epochRefused s epoch.toNat) [src] 3
      (.raw (buildMessage (msgVersion m) (msgOpcode m) 1 (msgTag m) (msgClient m) 0x0601 (replyEpoch s (msgOpcode m) (msgTarget m)) []))
  else hearVmp s m

/-- A device's state, ports and epoch as it reports them. -/
def hearDevState (s : State) (src state : Nat) (ports : Byte) (epoch : BitVec 32) : State :=
  { s with form := { s.form with
      devState := sparseSet 0 src state s.form.devState, portsUp := sparseSet 0 src ports s.form.portsUp
      devEpoch := sparseSet 0 src epoch s.form.devEpoch } }

/-- The effect of a message at its destination. -/
def hearMsg (s : State) (port : Nat) (m : CtlMsg) : State :=
  match m.body with
  | .heartbeat => hearHeartbeat s
  | .strikeNumber n => hearStrike s port (BitVec.ofNat 64 n)
  | .portState locked hops => hearPortState s port locked hops
  | .candidate c => hearCandidate s c
  | .announcement c => hearAnnouncement s c
  | .groupPage sticky active previous fenced counters caps st =>
    let r : Reflected := { sticky := sticky, active := active, previous := previous, fenced := fenced, counters := counters, caps := caps, state := st }
    settleGroups { s with units := { s.units with reflected := sparsePut m.src r s.units.reflected } }
  | .groupReset g => match (localGroups s).find? (fun x => x.group == g) with
    | some d => groupResetting (resetLocal s (deviceUid s.form.device)) d
    | none => s
  | .clearSticky mask write heat => groupClear s (mask &&& stickyMask) write heat
  | .groupNotify g mask => groupNotify s g (mask &&& stickyMask)
  | .clearLogs => clearLogs s devKey
  | .firmware offset bytes => if offset = s.boot.arriving.length then receiveImage s .weldNeighbour bytes else s
  | .planEnd job status step endStrike => hearPlanEnd s job status step endStrike
  | .jobEnd job r =>
    match s.seq.jobs.find? (fun j => j.num == job) with
    | some j => hearJobEnd s job (memberPos j m.src) r
    | none => s
  | .commit c => hearCommit s (some m.src) c
  | .commitDone epoch strike missed => hearCommitDone s m.src epoch strike missed
  | .holdNotice job d r uid cause origin => hearHold s job d r uid cause origin
  | .restored job uid strike => hearRestored s job uid strike
  | .finishedPlan job heat =>
    modJobs (modJobs s (fun j => j.num == job && j.members.contains m.src) (fun j => { j with finished := sparsePut (memberPos j m.src) heat j.finished }))
      (fun j => j.phase == .queued) (fun j => { j with ahead := j.ahead.map (fun e =>
        if e.1 == memberPos j m.src then (e.1, e.2.map (fun x => if x.1 == job then (x.1, heat) else x)) else e) })
  | .planAhead job l => modJobs s (fun j => j.num == job && j.members.contains m.src) (fun j => { j with ahead := sparsePut (memberPos j m.src) l j.ahead })
  | .unitChange strike targets => { s with cfg := { s.cfg with memberChanges := s.cfg.memberChanges ++ [(m.src, strike, targets)] } }
  | .ready epoch => hearDevState s m.src 2 (sparseGet 0 m.src s.form.portsUp) epoch
  | .planCopy job accepted tag deadline plan => hearPlanCopy s job accepted tag deadline plan
  | .jobCancel job strike status => hearCancel s job strike status
  | .jobDeadline job d => setDeadline s job d
  | .devState st ports epoch => hearDevState s m.src st ports epoch
  | .mapVersion _ _ => s
  | .vmp sent epoch msg => hearForwarded s m.src sent epoch msg
  | .slotImage t v row image => imageReceive t v row image s
  | .migrationEnd t v => endReceive t v s
  | .cacheFill t v row => fillRequest (tablePos s t m.src) t v row s
  | .cacheReply t v row gen image => fillReply t v row gen image s
  | .tongsRecord t v issue row bag => hearForwardedRecord s t v issue 0xE (fun x => { x with forwarded := x.forwarded ++ [(issue, row, bag)] }) none
  | .gradRecord t v issue g => hearForwardedRecord s t v issue 0xF (fun x => { x with forwardedGrads := x.forwardedGrads ++ [(issue, g)] }) (some g)
  | .damaged t v => versionMod s t v (fun x => { x with damaged := true })
  | .dynamic f bs => landDynamic s f bs
  | .raw _ => s

/-- TYPEs of R323's table. -/
def knownType (t : Nat) : Bool := decide (1 ≤ t ∧ t ≤ 7)

/-- The image transfer to a device in recovery boot, which handles nothing else (R315). -/
def imageTransfer (m : CtlMsg) : Bool := match m.body with
  | .firmware _ _ => true
  | _ => false

/-- A hub forwards while its quadrant is not in reset (R331). -/
def hubForwards (s : State) : Bool := (List.range 4).any (fun q => let o := ownState s (quadKey q); o != 0 && o != 4)

/-- R323: a message for this device is delivered, one of an unknown TYPE dropped; any other goes on by the routing table with its TTL
less one. -/
def execControlMessageReceive (port : Nat) (m : CtlMsg) (s : State) : Host.Outcome State Fault Refusal :=
  .next (if !portUp s port then s
    else if s.boot.phase == .recovery then (if imageTransfer m then hearMsg s port m else s)
    else
      let s1 := { s with links := { s.links with lastTraffic := sparseSet 0 m.src (heatOf (now s)) s.links.lastTraffic } }
      if m.dst = 0xFFFF ∨ m.dst = s.form.device then (if knownType m.type then hearMsg s1 port m else s1)
      else if m.ttl ≤ 1 || !hubForwards s1 then count s1 devKey 23 1
      else routeMsg s1 { m with ttl := m.ttl - 1 })

/-! ### Routing tables (R328 to R330) -/

/-- A configuration record that holds a routing section only. -/
def routeRecord (d : Nat) (epoch : BitVec 32) (route : List (BitVec 32)) : List Byte :=
  setRecord { ConfigSet.empty with epoch := epoch, route := (List.range 4096).map (fun i => route.getD i 0) } (deviceUid d)

/-- Commit a table to each device at the earliest strike that R52 allows. -/
def commitRoutes (s : State) (epoch : BitVec 32) (tables : List (Nat × List (BitVec 32))) : State :=
  let strike := now s + 16 + 2 * hopsTo s (tables.map (·.1))
  tables.foldl (fun t (x : Nat × List (BitVec 32)) =>
    let r := routeRecord x.1 epoch x.2
    if x.1 = s.form.device then
      pushPending t { targets := [deviceUid x.1], epoch := epoch, strike := strike, revert := false, readmit := false, routing := true, record := r,
                      owner := none, fencedUnits := [], applied := false }
    else sendTo t [x.1] 2 (.commit { targets := [deviceUid x.1], epoch := epoch, strike := strike, revert := false, readmit := false, record := r })) s

/-- Highest epoch that this device has run in any of its units. -/
def ownHighest (s : State) : Nat := maxNat (s.cfg.highest.map (fun e => e.2.toNat))

/-- Nothing is pending on the device unit. -/
def routesFree (s : State) : Bool := (unitGet s devKey).page.pendEpoch == 0

/-- R408: the master computes the tables and commits them with epoch E, one above the highest reported. (DEDUCED, unsafe: log entry 78.) -/
def execFormationCommit (s : State) : Host.Outcome State Fault Refusal :=
  .next (if s.tb.role == .master && s.tb.lock == .locked && !s.form.formationCommitted && routesFree s then
    let e := BitVec.ofNat 32 (Nat.max s.form.highestEpoch.toNat (ownHighest s) + 1)
    commitRoutes s e ((presentDevices s).map (fun d => (d, routeTable s d)))
  else s)

/-- R330: overrides after a port or a device changed, which the master computes from the ports that its devices report, and commits to every
device; the operand's tables do not count. (DEDUCED, unsafe: log entry 78.) -/
def execRoutingOverrideCommit (_tables : List (Nat × List (BitVec 32))) (s : State) : Host.Outcome State Fault Refusal :=
  .next (if s.tb.role == .master && s.form.formationCommitted && routesFree s then
    commitRoutes s (BitVec.ofNat 32 (ownHighest s + 1)) ((presentDevices s).map (fun d => (d, routeTable s d)))
  else s)

/-! ### Formation (R408 to R411) -/

/-- R408: in P6 the master hears the ports of a device, with the highest epoch that the device reported in P3. -/
def execPortStateReport (device : Nat) (portsUp : Byte) (epoch : BitVec 32) (s : State) : Host.Outcome State Fault Refusal :=
  .next (if s.tb.role == .master && decide (device < s.form.dx * s.form.dy * s.form.dz) then
    let st := Nat.max 1 (sparseGet 0 device s.form.devState)
    let s1 := hearDevState s device st portsUp epoch
    { s1 with form := { s1.form with highestEpoch := if s1.form.highestEpoch.toNat < epoch.toNat then epoch else s1.form.highestEpoch } }
  else s)

/-- R409: at the first heat boundary with strike lock, the formation commit applied and training finished. -/
def execDeviceReady (s : State) : Host.Outcome State Fault Refusal :=
  .next (if !s.form.ready && s.tb.lock == .locked && s.form.formationCommitted && s.form.trained && isBoundary (now s) then
    let s1 := { s with form := { s.form with ready := true, devState := sparseSet 0 s.form.device 2 s.form.devState } }
    sendTo s1 (presentDevices s1) 3 (.devState 2 (BitVec.ofNat 8 (upMask s1)) (unitGet s1 devKey).page.active)
  else s)

/-- R411: a device that reaches P3 in a formed system adopts the master and the map in use, with no election of its own. -/
def execLateJoin (c : Candidate) (map : List Byte) (s : State) : Host.Outcome State Fault Refusal :=
  .next (if s.boot.phase == .running && !s.tb.strikeDefined && !s.ident.failed then
    let s1 := { s with form := { s.form with lateJoiner := true } }
    let s2 := tbMod (setMaster s1 c) (fun t => { t with electionOver := true, role := .follower, classBit := (ownCandidate s1).classOne })
    if mapValid s2 map then adoptMap s2 map else s2
  else s)

end Sys2Proof.Machine
end

