-- ==== Sys2Proof/Machine/FaultEnd.lean ====
section
/-!
DEFINITION. The end of a hold that cannot be replayed (R382, R383): what the hold's resets cleared of the plan's state, and the status.
-/
namespace Sys2Proof.Machine

/-- Table slots that a plan names, on this device. -/
def namedSlots (s : State) (j : Job) : List (Nat × Nat) :=
  (planSteps j.plan).flatMap (fun st => if st.kind == 0 && (st.opcode == 0x0E || st.opcode == 0x0F) then
      (let b := stepParams j.plan j.pos st
       s.eng.tables.flatMap (fun t => if t.id == fieldN b 0x30 4 then
         (t.versions.filter (fun v => v.number == fieldN b 0x34 4)).flatMap (fun v => versionRanges s t v ++ movedRanges s t v) else []))
    else [])

/-- Stream rings that a plan names on a member. -/
def namedRings (s : State) (p : List Byte) (m : Nat) : List (Nat × Nat) :=
  (streamNames p m).flatMap (fun r =>
    let h := streamHdr p m r
    if strForm h = 2 then (let (base, log2) := bellowsRing s (keyStack (strScope h)) (strRing h); [(base, 16 * 2 ^ log2)]) else [])

/-- Tier ranges that condition 3 of R382 names: the plan region's, the operands', the stream rings' and the table slots. What a reset cleared
of SRAM the replay regenerates (R381). -/
def heldState (s : State) (j : Job) : List (Nat × Nat) :=
  (j.region ++ (planSteps j.plan).flatMap (fun st => (List.range st.noper).flatMap (operRanges s j.plan j.pos st)) ++
    namedRings s j.plan j.pos ++ namedSlots s j).filter (fun r => decide (r.1 < scratchBase))

/-- A cleared range holds bytes of a range. -/
def clearedTouches (s : State) (c : ClearedRange) (r : Nat × Nat) : Bool :=
  overlapBytes (c.lo, c.len) r != 0 && c.stack.all (fun st => touchesStack (param s 1) [st] r)

/-- Condition 3 of R382 fails: a range that the hold's resets cleared, from its first detection on, holds state of the plan; so does every tier
of a remote member whose device resets without RETAIN_MEMORY, since its plan region lies there. (DEDUCED, unsafe: log entry 67.) -/
def clearedPlanState (s : State) (h : Hold) (j : Job) : Bool :=
  (s.mem.cleared.filter (fun c => decide (h.first.detect ≤ c.strike))).any (fun c => (heldState s j).any (clearedTouches s c)) ||
    h.partitions.any (fun p => uidDevice p.uid != s.form.device && uidKey p.uid == devKey && p.cause != 3 && !unreset p && !p.retainMemory)

/-- Condition 4 of R382 fails: the replay would rerun a Swage job with staged lines whose second phase has begun (R103). -/
def inPlaceRerun (h : Hold) (j : Job) : Bool := j.inPlace.any (fun i => decide (holdOrigin h ≤ (stepAt j.plan i).offset))

/-- Condition 6 of R382: a version that a Tongs step of the plan names by number is DAMAGED (R225). -/
def namedDamaged (s : State) (j : Job) : Bool :=
  (planSteps j.plan).any (fun st => st.kind == 0 && (st.opcode == 0x0E || st.opcode == 0x0F) &&
    (let b := stepParams j.plan j.pos st
     let v := fieldN b 0x34 4
     v != 0 && s.eng.tables.any (fun t => t.id == fieldN b 0x30 4 && t.versions.any (fun x => x.number == v && x.damaged))))

/-- Status with which a hold ends its job, by the first row of R383's table that applies; none while it may go on. (DEDUCED, unsafe: log entry 67.) -/
def faultStatus (s : State) (h : Hold) (j : Job) : Option (BitVec 16) :=
  if !plDet j.plan then some (causeStatus h.first.cause)
  else if h.holding && (clearedPlanState s h j || inPlaceRerun h j || namedDamaged s j) then some 0x0400
  else if h.holding && 8447 < h.holdOffset - holdOrigin h then some 0x0305
  else h.ending

/-- The strike in which a partition was restored or missed its bound (R375), if it has come. -/
def settledAt (p : Partition) : Option Nat := p.restored.or (if p.missedBound then some (p.raised + recoveryBound p + 1) else none)

/-- R383: the job ends in the strike after every partition is restored or has missed its bound, and the other members hear of it. -/
def execJobFaultEnd (s : State) : Host.Outcome State Fault Refusal :=
  .next (match s.quench.hold, runningJob s with
    | some h, some j =>
      match faultStatus s h j with
      | none => s
      | some st =>
        if h.holding && h.partitions.all (fun p => (settledAt p).any (fun x => decide (x < now s))) then
          let s1 := finishHold { s with seq := { s.seq with nextKind := .run, kind := .run } } h
          let s2 := (h.partitions.filter (fun p => p.restored.isSome)).foldl (fun t p => closePartition t p 2 (holdLength s1 h)) s1
          let s3 := sendTo (endJob s2 j.num st (faultStep h.first) 0xFFFFFFFF 0) j.members 3 (.planEnd j.num st (faultStep h.first).toNat (now s))
          count (quenchMod s3 (fun q => { q with hold := none, phase := .idle, lastOutcome := 2, outside := q.outside ++ openParts s h })) devKey 30 1
        else s
    | _, _ => s)

/-! ### The replay begins (R377) -/

/-- The flows of a job as the replay from offset c finds them: what is not yet sent of those that start here as it stood at c, and nothing landed
that was sent from c on (R378). -/
def rewindFlows (j : Job) (c : Nat) : Job :=
  let here (e : Nat × List Byte) : Bool := (flowAt j.plan (e.1 / 2 ^ 50)).src == j.pos
  let kept := ((j.marks.find? (fun m => m.1 == c)).map (·.2)).getD []
  { j with reruns := [], flowOut := kept.foldl (fun m e => sparseSet [] e.1 e.2 m) (j.flowOut.filter (fun e => !here e)),
           flowIn := j.flowIn.filter (fun e => decide (e.1 / 64 % 2 ^ 44 < c)) }

/-- R377: the strikes from R on are replay strikes: first the prologue, then the sweep. -/
def execReplayStart (s : State) : Host.Outcome State Fault Refusal :=
  .next (match s.quench.hold, runningJob s with
    | some h, some j =>
      match replayStrike h j.holdLead with
      | some r =>
        if h.holding && (faultStatus s h j).isNone && h.replayFrom.isNone && r ≤ now s + 1 then
          let c := holdOrigin h
          let left := sumNat ((prologueSteps j.plan j.pos c).map (·.budget))
          let s1 := quenchMod (setJob s j.num (fun j => rewindFlows j c)) (fun q => { q with
            hold := some { h with replayFrom := some (now s + 1), prologueLeft := left, sweepNext := c }
            phase := if left = 0 then .sweep else .prologue })
          if left = 0 ∧ h.holdOffset ≤ c then s1 else { s1 with seq := { s1.seq with nextKind := .replay } }
        else s
      | none => s
    | _, _ => s)

end Sys2Proof.Machine
end

