-- ==== Sys2Proof/Machine/Thermal.lean ====
section
/-!
DEFINITION. Temperatures, rates and telemetry (R180, R181, R419, R422 to R426).
-/
namespace Sys2Proof.Machine

/-- Warning, stop, restart and trip thresholds of a die, in 1/16 °C (R422). -/
structure Thresholds where
  warn : Int
  stopRestart : Option (Int × Int)
  trip : Int

def dieThresholds (i : Nat) : Thresholds :=
  if i < 80 then { warn := 1520, stopRestart := some (1760, 1600), trip := 1840 }
  else if i < 96 then { warn := 1360, stopRestart := some (1520, 1408), trip := 1680 }
  else if i < 114 then { warn := 1600, stopRestart := none, trip := 1840 }
  else { warn := 1520, stopRestart := none, trip := 1760 }

/-- The lowest unit that holds a die. -/
def dieUnit (i : Nat) : Nat :=
  if i < 80 then dieKey i else if i < 96 then columnKey (i - 80) else if i < 100 then quadKey (i - 96) else devKey

/-- Hardy's rate after a sample (R180): 0 FULL, 1 HALF, 2 QUARTER. (DEDUCED, unsafe: log entry 84.) -/
def hardyRate (rate : Nat) (t : Int) : Nat :=
  if 1680 < t then 2
  else if 2 ≤ rate ∧ 1632 < t then 2
  else if 1520 < t then 1
  else if 1 ≤ rate ∧ 1472 < t then 1
  else 0

/-- The engines of a die stop above its stop threshold and start again at or below its restart threshold. -/
def stopAfter (i : Nat) (stopped : Bool) (t : Int) : Bool :=
  match (dieThresholds i).stopRestart with
  | some (st, re) => decide (st < t) || (stopped && decide (re < t))
  | none => false

/-- THERMAL at the crossing of a warning threshold; the first sample after power-up counts as one. -/
def warnDie (old : Thermal) (new : List (BitVec 16)) (s : State) (i : Nat) : State :=
  let w := (dieThresholds i).warn
  if decide (w < temp16 (new.getD i 0)) && !(old.sampled && decide (w < temp16 (old.temps.getD i 0))) then stickySet s (dieUnit i) 5 else s

/-- A die's Hardy unit takes a sample 16 strikes or more after its last; the rate that it sets applies from the next strike (R180). -/
def sampleHardy (new : List (BitVec 16)) (s : State) (d : Nat) : State :=
  let u := sparseGet HardyUnit.reset d s.eng.hardy
  let t := new.getD d 0
  let due := match u.sampledAt with
    | some a => decide (a + 16 ≤ now s)
    | none => true
  let v := if due then { u with temp := t, nextRate := BitVec.ofNat 2 (hardyRate u.rate.toNat (temp16 t)), sampledAt := some (now s) } else u
  { s with eng := { s.eng with hardy := sparseSet HardyUnit.reset d v s.eng.hardy } }

def maxTemp (a b : BitVec 16) : BitVec 16 := if temp16 a < temp16 b then b else a

/-- What the CPC holds after a sample, PENDING_RATE included (R423, R425). -/
def sampleTherm (s : State) (new : List (BitVec 16)) (inlet outlet : BitVec 16) : Thermal :=
  let t := s.therm
  let anvil := (List.range 80).map (fun i => temp16 (new.getD i 0))
  { t with
    temps := new, stopped := (List.range 116).map (fun i => stopAfter i (t.stopped.getD i false) (temp16 (new.getD i 0))), sampled := true
    inlet := inlet, outlet := outlet
    pendingRate := if anvil.any (fun x => decide (1600 < x)) then 1 else t.pendingRate
    coolFrom := if anvil.any (fun x => decide (1440 < x)) then nextBoundary (now s + 1) else t.coolFrom
    periodMax := (List.range 116).map (fun i => if t.sampled then maxTemp (t.periodMax.getD i 0) (new.getD i 0) else new.getD i 0) }

/-- A trip: the bypasses close and every rail but those of step 1 goes off, until the 48 V input is removed and restored.
What the Warden die holds outside every reset, the curve store and the staged image, stays until then (R198, R386). (DEDUCED, unsafe: log entry 84.) -/
def thermalTrip (s : State) (die : Nat) : State :=
  let off := powerLost s .tripped
  let off := { off with eng := { off.eng with curves := s.eng.curves }, boot := { off.boot with staged := s.boot.staged } }
  emitOut (emitOut (emitOut off (.bypass true)) (.rails false [5, 4, 3, 2])) (.redfishEvent "Plovern.ThermalTrip" (leBytes 1 die))

/-- R422: a sample of every die and of the coolant. (DEDUCED, unsafe: log entry 84.) -/
def execThermalSample (temps : List (BitVec 16)) (inlet outlet : BitVec 16) (s : State) : Host.Outcome State Fault Refusal :=
  .next (if s.power.state != .on then s
    else
      let new := (List.range 116).map (fun i => temps.getD i (s.therm.temps.getD i 0))
      match (List.range 116).find? (fun i => decide ((dieThresholds i).trip < temp16 (new.getD i 0))) with
      | some i => thermalTrip s i
      | none =>
        let s1 := (List.range 116).foldl (warnDie s.therm new) s
        let s2 := (List.range 80).foldl (sampleHardy new) s1
        let warm := decide (720 < temp16 inlet) && !(s.therm.sampled && decide (720 < temp16 s.therm.inlet))
        let s3 := if warm then stickySet s2 devKey 5 else s2
        { s3 with therm := sampleTherm s new inlet outlet })

/-- R423: the 1,024th consecutive whole heat with every Anvil die at 90 °C or less has ended. -/
def execPendingRateFull (s : State) : Host.Outcome State Fault Refusal :=
  .next (if s.therm.pendingRate == 1 && decide (s.therm.coolFrom + 1024 * 4096 ≤ now s + 1) then
    { s with therm := { s.therm with pendingRate := 0 } } else s)

/-- Lanes of a metric report: state, FEC symbols corrected in the period, received power. -/
def metricLanes (s : State) (p : PowerSample) : List (Nat × Nat × Int) :=
  (List.range 64).map (fun i =>
    let w := portGet s (i / 8)
    (laneCode (w.lanes.getD (i % 8) .down), w.fecLane.getD (i % 8) 0, p.optical.getD i 0))

/-- R419: the metric report of a heat boundary whose heat number is a multiple of 1,024. (DESIGN CHOICE, unsafe: log entry 85.) -/
def execMetricReport (p : PowerSample) (s : State) : Host.Outcome State Fault Refusal :=
  let h := heatOf (now s)
  let t := s.therm
  .next (if s.boot.phase == .running && s.tb.strikeDefined && isBoundary (now s) && h % 1024 == 0 && (s.mgmt.lastReport.map (·.1)) != some h then
    let page := (unitGet s devKey).page
    let counters := ((List.range 8) ++ [20, 21, 22, 23, 24]).map (counterGet s devKey)
    let rates := [t.arrayRate.toNat, t.pendingRate.toNat] ++ (List.range 80).map (fun d => (sparseGet HardyUnit.reset d s.eng.hardy).rate.toNat)
    let s1 := emitOut s (.metric h (t.temps ++ [t.inlet, t.outlet]) t.periodMax ([p.vin.toNat, p.iin.toNat, p.pin.toNat] ++ p.steps) rates
      (metricLanes s p) s.tb.maxOffset (counters ++ [page.sticky]))
    let s2 := if t.pendingRate = t.arrayRate then s1 else emitOut s1 (.redfishEvent "Plovern.ArrayRatePending" [])
    { s2 with
      therm := { t with vin := p.vin, iin := p.iin, pin := p.pin, stepPower := p.steps, periodMax := List.replicate 116 0x8000 }
      tb := { s2.tb with maxOffset := 0 }
      mgmt := { s2.mgmt with lastReport := some (h, t.temps) }
      links := { s2.links with ports := s2.links.ports.map (fun w => { w with fecLane := List.replicate 8 0 }) } }
  else s)

end Sys2Proof.Machine
end

