-- ==== Sys2Proof/Machine/Manage.lean ====
section
/-!
DEFINITION. The management port (R398 to R400, R403, R413 to R418): addresses, authentication, Redfish, the Plovern actions, the console and
SPDM.
-/
namespace Sys2Proof.Machine

/-! ### Addresses (R413) -/

/-- The CMC runs from the first rails on. -/
def cmcOn (s : State) : Bool := s.power.state != .absent

def mgmtMod (s : State) (f : Management → Management) : State := { s with mgmt := f s.mgmt }

/-- R413. Echo replies are of kind 1 (ICMP) and 2 (ICMPv6). (DESIGN CHOICE, safe: log entry 99.) -/
def execManagementFrameReceive (f : MgmtFrame) (s : State) : Host.Outcome State Fault Refusal :=
  .next (if !cmcOn s then s
    else match f with
      | .dhcpLease ip => mgmtMod s (fun m => { m with ipv4 := ip, linkLocal := false })
      | .routerAdvertisement p => mgmtMod s (fun m => { m with ipv6Prefix := p })
      | .echoRequest v6 data => emitOut s (.mgmtReply (if v6 then 2 else 1) data)
      | .other => s)

/-- R413: after 10 s without a lease the port takes an address of 169.254.0.0/16. (PRESUMED, safe: log entry 90.) -/
def execDhcpLinkLocalFallback (ip : Nat) (s : State) : Host.Outcome State Fault Refusal :=
  .next (if cmcOn s && s.mgmt.ipv4 == 0 && ip / 2 ^ 16 == 0xA9FE then mgmtMod s (fun m => { m with ipv4 := ip, linkLocal := true }) else s)

/-! ### Authentication (R414) -/

def virianRuns (s : State) : Bool := s.boot.phase == .running

def hasOwner (s : State) : Bool := !s.boot.ownerRecord.isEmpty

/-- The client proves an enrolled owner key. -/
def isOwner (s : State) (auth : AuthKey) : Bool :=
  match auth with
  | some k => hasOwner s && (ownerKeys s.boot.ownerRecord).contains k
  | none => false

/-- The client is admitted: an owner, or any client while no owner record exists. (DESIGN CHOICE, unsafe: log entry 86.) -/
def admitted (s : State) (auth : AuthKey) : Bool := !hasOwner s || isOwner s auth

/-- (DESIGN CHOICE, unsafe: log entry 86.) -/
def http (s : State) (status : Nat) (body : List Byte) : State := emitOut s (.http status body)

/-- Serve an admitted client; a refused authentication is recorded in the Slag log service. -/
def withClient (s : State) (auth : AuthKey) (run : State → State) : State :=
  if admitted s auth then run s else logPersistent s .authRefused

/-- A write or an action: it takes an owner key (R416); without an owner record no client may do it (R414). -/
def withOwner (s : State) (auth : AuthKey) (run : State → State) : State :=
  withClient s auth (fun t => if isOwner t auth then run t else http t 403 [])

/-! ### Redfish (R416) -/

def hexDigit (n : Nat) : Byte := BitVec.ofNat 8 (if n < 10 then 48 + n else 55 + n)

/-- A record of the persistent log as bytes: its kind, then its fields. -/
def logBytes : LogRecord → List Byte
  | .unreadableEntry ring index => [1] ++ leBytes 4 ring ++ leBytes 4 index
  | .recovery uid cause detect raised outcome => [2] ++ leBytes 4 uid.toNat ++ leBytes 1 cause ++ leBytes 8 detect ++ leBytes 8 raised ++ leBytes 1 outcome
  | .recoveryBoot step => [3] ++ leBytes 1 step
  | .skippedRecord uid epoch => [4] ++ leBytes 4 uid.toNat ++ leBytes 4 epoch.toNat
  | .cacheOverride => [5]
  | .remap hub inst word => [6] ++ leBytes 1 hub ++ leBytes 2 inst ++ leBytes 6 word
  | .pendingRow tier inst row => [7] ++ leBytes 1 tier ++ leBytes 1 inst ++ leBytes 8 row
  | .authRefused => [8]
  | .checkerTest c passed => [9] ++ leBytes 1 c ++ leBytes 1 (boolNat passed)
  | .clientLabel c label => [10] ++ leBytes 2 c.toNat ++ label

def sensorBytes (s : State) : List Byte := (s.therm.temps ++ [s.therm.inlet, s.therm.outlet]).flatMap (fun t => leBytes 2 t.toNat)

def powerBytes (s : State) : List Byte := [s.therm.vin, s.therm.iin, s.therm.pin].flatMap (fun t => leBytes 2 t.toNat) ++ s.therm.stepPower.flatMap (leBytes 4)

def chassisBytes (s : State) : List Byte :=
  ascii "PLV-IH100-A" ++ (id16 s.ident.digest).flatMap (fun b => [hexDigit (b.toNat / 16), hexDigit (b.toNat % 16)]) ++ leBytes 1 (powerCode s.power.state)

/-- The values that a resource shows. (DESIGN CHOICE, unsafe: log entry 86.) -/
def resourceBytes (s : State) : RedfishPath → List Byte
  | .serviceRoot => []
  | .chassis => chassisBytes s
  | .thermal => sensorBytes s ++ leBytes 1 s.therm.arrayRate.toNat ++ leBytes 1 s.therm.pendingRate.toNat
  | .power => powerBytes s
  | .sensors => sensorBytes s ++ powerBytes s
  | .managerCmc => leBytes 4 (imgSvn s.boot.running) ++ leBytes 4 s.mgmt.ipv4 ++ leBytes 8 s.mgmt.ipv6Prefix ++ s.boot.persistent.flatMap logBytes
  | .updateService => (match s.boot.staged with
    | some img => leBytes 4 (imgSvn img)
    | none => [])
  | .telemetry => (match s.mgmt.lastReport with
    | some (h, ts) => leBytes 8 h ++ ts.flatMap (fun t => leBytes 2 t.toNat)
    | none => [])
  | .eventService => leBytes 4 s.mgmt.subscribers
  | .unknown => []

/-- Resources of the chassis are served in the power failure state too (R387, R413). -/
def pathServed (s : State) (p : RedfishPath) : Bool :=
  virianRuns s || (s.power.state == .failed && (p == .chassis || p == .thermal || p == .power || p == .sensors))

/-- R416. -/
def execRedfishGet (path : RedfishPath) (method : HttpMethod) (auth : AuthKey) (s : State) : Host.Outcome State Fault Refusal :=
  .next (if !pathServed s path then s
    else withClient s auth (fun t =>
      if path = .unknown then http t 404 []
      else if method = .get then http t 200 (resourceBytes t path)
      else if path = .updateService ∧ method = .post then t
      else http t 405 []))

/-- R416: a subscription to server-sent events. -/
def execRedfishEventSubscribe (auth : AuthKey) (s : State) : Host.Outcome State Fault Refusal :=
  .next (if virianRuns s then withClient s auth (fun t => http (mgmtMod t (fun m => { m with subscribers := m.subscribers + 1 })) 200 []) else s)

/-! ### Actions (R398, R403, R417, R418) -/

/-- The CMC places a request on ring pair 0 (R417); the response goes back when the Warden has served it. (DESIGN CHOICE, unsafe: log entry 87.) -/
def placeRequest (s : State) (m : List Byte) : State :=
  let p := pairGet s 0
  let n := ringSize p.reqLog2.toNat
  if p.en && decide (ringCount p.reqHead p.reqTail < n) then
    requestTail (memWrite s (p.reqBase.toNat + 128 * (p.reqTail.toNat % n)) m) 0 (p.reqTail + 1)
  else s

/-- R417. (DESIGN CHOICE, unsafe: log entry 87.) -/
def execPlovernVmp (message : List Byte) (auth : AuthKey) (s : State) : Host.Outcome State Fault Refusal :=
  .next (if virianRuns s then withOwner s auth (fun t => if message.length = 128 then placeRequest t message else http t 400 []) else s)

/-- A record that may replace the one in force (R398). -/
def ownerRecordOk (s : State) (r : List Byte) : Bool :=
  let old := s.boot.ownerRecord
  let n := 0x10 + 97 * byteAt r 0xC
  fieldN r 0 4 == 0x4E4F4849 && fieldN r 4 2 == 0x0100 && decide (byteAt r 0xC ≤ 4) && r.length == n + (if hasOwner s then 96 else 0) &&
    (!hasOwner s || (decide (fieldN old 8 4 < fieldN r 8 4) && ownerVerifies s (r.take n) (r.drop n)))

/-- An owner record is written; NKEYS 0 with POLICY 0 removes the owner. A refused record sets AUTH_FAIL. -/
def writeOwner (s : State) (r : List Byte) : State :=
  if !ownerRecordOk s r then http (stickySet s devKey 18) 400 []
  else
    let new := if byteAt r 0xC = 0 ∧ fieldN r 6 2 % 4 = 0 then [] else r
    http (measure { s with boot := { s.boot with ownerRecord := new } } 4 (if new.isEmpty then 0 else sha384 new)) 200 []

/-- R398, R414: the first record may come from any client. -/
def execPlovernOwnerRecord (record : List Byte) (auth : AuthKey) (s : State) : Host.Outcome State Fault Refusal :=
  .next (if virianRuns s then (if hasOwner s then withOwner s auth (fun t => writeOwner t record) else writeOwner s record) else s)

/-- A map is stored, and adopted at once before formation when it takes precedence, by a late joiner, or when it just fills empty positions
(R404). -/
def writeMap (s : State) (m : List Byte) : State :=
  if !mapValid s m then http s 400 []
  else
    let atOnce := if s.tb.strikeDefined then s.form.lateJoiner || (!s.form.map.isEmpty && mapFillsOnly s.form.map m) else mapBetter s m
    if atOnce then http (adoptMap s m) 200 [] else http { s with form := { s.form with nextMap := m } } 200 []

/-- R403, R418. -/
def execPlovernSystemMap (map : List Byte) (auth : AuthKey) (s : State) : Host.Outcome State Fault Refusal :=
  .next (if virianRuns s then withOwner s auth (fun t => writeMap t map) else s)

/-- The checkers that run: those of the stacks in service, of the far tier when it runs, and of the hubs. -/
def runningCheckers (s : State) : List Nat :=
  (List.range 36).filter (fun c => if c < 16 then !isOffline s (columnKey c) else 32 ≤ c || s.form.farGib != 0)

/-- R418. (DESIGN CHOICE, unsafe: log entry 66.) -/
def execPlovernCheckerTest (auth : AuthKey) (s : State) : Host.Outcome State Fault Refusal :=
  .next (if virianRuns s then withOwner s auth (fun t =>
    if planLive t then http t 409 [] else http (forKeys t (runningCheckers t) powerUpTest) 200 []) else s)

/-- R416: as VMP_FW_STAGE. -/
def execUpdateServicePush (image : List Byte) (auth : AuthKey) (s : State) : Host.Outcome State Fault Refusal :=
  .next (if virianRuns s then withOwner s auth (fun t =>
    let (t1, st) := stageImage t image
    http t1 (if st = 0 then 200 else 400) (leBytes 2 st.toNat)) else s)

/-- R416: as VMP_FW_ACTIVATE, at the first heat boundary at least 4 heats ahead. (DESIGN CHOICE, unsafe: log entry 87.) -/
def execUpdateServiceStartUpdate (auth : AuthKey) (s : State) : Host.Outcome State Fault Refusal :=
  .next (if virianRuns s then withOwner s auth (fun t =>
    if t.boot.staged.isNone || planLive t || migrating t || t.boot.activation.isSome then http t 400 []
    else
      let a : FwActivation := { strike := nextBoundary (now t + 4 * 4096), client := 0, pair := 0, tag := 0, handedOver := false, readBacks := 0 }
      http { t with boot := { t.boot with activation := some a } } 200 []) else s)

/-- R413, R414: the read-only log stream. -/
def execSshConsoleConnect (auth : AuthKey) (s : State) : Host.Outcome State Fault Refusal :=
  .next (if virianRuns s then withClient s auth (fun t => emitOut (mgmtMod t (fun m => { m with consoles := m.consoles + 1 })) .console) else s)

/-! ### SPDM (R399, R400) -/

/-- The responder answers from the end of boot step 1. -/
def spdmOn (s : State) : Bool := s.power.powerGood

/-- (PRESUMED, unsafe: log entry 88.) -/
def spdmError (s : State) (code : Nat) : State := emitOut s (.spdm 0x7F (leBytes 1 code))

/-- Requests after the negotiation; one out of order is unexpected. -/
def spdmReady (s : State) (run : State → State) : State :=
  if !spdmOn s then s else if s.mgmt.spdmAlgs then run s else spdmError s 4

/-- R399: version 1.2. A new connection starts. -/
def execSpdmGetVersion (s : State) : Host.Outcome State Fault Refusal :=
  .next (if spdmOn s then
    emitOut (mgmtMod s (fun m => { m with spdmVersion := true, spdmCaps := false, spdmAlgs := false })) (.spdm 0x04 [0x12]) else s)

/-- R399: certificates, challenge and signed measurements; no key exchange, no secure session. -/
def execSpdmGetCapabilities (s : State) : Host.Outcome State Fault Refusal :=
  .next (if !spdmOn s then s
    else if s.mgmt.spdmVersion then emitOut (mgmtMod s (fun m => { m with spdmCaps := true })) (.spdm 0x61 (leBytes 4 0x16))
    else spdmError s 4)

/-- R399: ECDSA P-384 and SHA-384, or an invalid request. -/
def execSpdmNegotiateAlgorithms (p384 sha : Bool) (s : State) : Host.Outcome State Fault Refusal :=
  .next (if !spdmOn s then s
    else if !s.mgmt.spdmCaps then spdmError s 4
    else if p384 && sha then emitOut (mgmtMod s (fun m => { m with spdmAlgs := true })) (.spdm 0x63 (leBytes 4 0x80 ++ leBytes 4 2))
    else spdmError s 1)

/-- R399: slot 0 holds the chain of R396. -/
def execSpdmGetDigests (slot : Nat) (s : State) : Host.Outcome State Fault Refusal :=
  .next (spdmReady s (fun t => if slot = 0 then emitOut t (.spdm 0x01 (digestBytes (sha384 t.boot.chain))) else spdmError t 1))

/-- R399. -/
def execSpdmGetCertificate (slot offset length : Nat) (s : State) : Host.Outcome State Fault Refusal :=
  .next (spdmReady s (fun t =>
    if slot = 0 ∧ offset ≤ t.boot.chain.length then emitOut t (.spdm 0x02 ((t.boot.chain.drop offset).take length)) else spdmError t 1))

/-- A signed answer; a failed identity signs nothing (R397). (PRESUMED, unsafe: log entry 88.) -/
def spdmSigned (s : State) (code : Nat) (body nonce : List Byte) : State :=
  if s.ident.failed then spdmError s 5
  else
    let (t, sig) := cseSign s (sha384 (body ++ nonce))
    emitOut t (.spdm code (body ++ sig))

/-- R399. (PRESUMED, unsafe: log entry 88.) -/
def execSpdmChallenge (slot : Nat) (nonce : List Byte) (s : State) : Host.Outcome State Fault Refusal :=
  .next (spdmReady s (fun t => if slot = 0 then spdmSigned t 0x03 (digestBytes (sha384 t.boot.chain)) nonce else spdmError t 1))

/-- R400: the six measurements. -/
def execSpdmGetMeasurements (nonce : List Byte) (s : State) : Host.Outcome State Fault Refusal :=
  .next (spdmReady s (fun t => spdmSigned t 0x60 (t.ident.meas.flatMap digestBytes) nonce))

end Sys2Proof.Machine
end

