-- ==== Sys2Proof/Machine/Dispatch.lean ====
section
/-!
DEFINITION. What each command does to everything but the queue: one arm per constructor, one direct call of its meaning.
-/
namespace Sys2Proof.Machine

def exec (i : Instr) (s : State) : Host.Outcome State Fault Refusal :=
  match i with
  | .powerInputValid presentLow => Sys2Proof.Machine.execPowerInputValid presentLow s
  | .railPowerFailure step => Sys2Proof.Machine.execRailPowerFailure step s
  | .powerRetry => Sys2Proof.Machine.execPowerRetry s
  | .brownout => Sys2Proof.Machine.execBrownout s
  | .powerGood rebuilt flashReadOk => Sys2Proof.Machine.execPowerGood rebuilt flashReadOk s
  | .recoveryImageReceive src image => Sys2Proof.Machine.execRecoveryImageReceive src image s
  | .recoveryTransferStall => Sys2Proof.Machine.execRecoveryTransferStall s
  | .recoveryXPairTimer => Sys2Proof.Machine.execRecoveryXPairTimer s
  | .memoryTrainingDone stacksOk modules => Sys2Proof.Machine.execMemoryTrainingDone stacksOk modules s
  | .ref10mLock => Sys2Proof.Machine.execRef10mLock s
  | .ref10mLoss => Sys2Proof.Machine.execRef10mLoss s
  | .ppsMark cycles inLimits => Sys2Proof.Machine.execPpsMark cycles inLimits s
  | .ppsMarkMissing => Sys2Proof.Machine.execPpsMarkMissing s
  | .candidateFlood => Sys2Proof.Machine.execCandidateFlood s
  | .electionConclude timedOut => Sys2Proof.Machine.execElectionConclude timedOut s
  | .masterAnnouncementReceive c => Sys2Proof.Machine.execMasterAnnouncementReceive c s
  | .strikeZero => Sys2Proof.Machine.execStrikeZero s
  | .strikeEdge e => Sys2Proof.Machine.execStrikeEdge e s
  | .strikeSlip => Sys2Proof.Machine.execStrikeSlip s
  | .strikeRelock n => Sys2Proof.Machine.execStrikeRelock n s
  | .holdoverEnter => Sys2Proof.Machine.execHoldoverEnter s
  | .reparent => Sys2Proof.Machine.execReparent s
  | .holdoverTimeout => Sys2Proof.Machine.execHoldoverTimeout s
  | .masterLost => Sys2Proof.Machine.execMasterLost s
  | .comparatorFire uid k => Sys2Proof.Machine.execComparatorFire uid k s
  | .leaseExpiry client => Sys2Proof.Machine.execLeaseExpiry client s
  | .requestDeadlineTimeout r => Sys2Proof.Machine.execRequestDeadlineTimeout r s
  | .stickyEventPost => Sys2Proof.Machine.execStickyEventPost s
  | .ucpResetReq uid => Sys2Proof.Machine.execUcpResetReq uid s
  | .resetRelease uid => Sys2Proof.Machine.execResetRelease uid s
  | .stickyW1cWrite who uid mask hw => Sys2Proof.Machine.execStickyW1cWrite who uid mask hw s
  | .groupStickyClear group mask => Sys2Proof.Machine.execGroupStickyClear group mask s
  | .watchdogDeadlineWrite uid k value => Sys2Proof.Machine.execWatchdogDeadlineWrite uid k value s
  | .registerWrite who addr value => Sys2Proof.Machine.execRegisterWrite who addr value s
  | .ringTailWrite who ring tail => Sys2Proof.Machine.execRingTailWrite who ring tail s
  | .vmpEnableSet who pair => Sys2Proof.Machine.execVmpEnableSet who pair s
  | .vmpEnableClear who pair => Sys2Proof.Machine.execVmpEnableClear who pair s
  | .requestEntryUnreadable pair => Sys2Proof.Machine.execRequestEntryUnreadable pair s
  | .vmpHello pair => Sys2Proof.Machine.execVmpHello pair s
  | .vmpBye pair => Sys2Proof.Machine.execVmpBye pair s
  | .vmpCfgStage pair => Sys2Proof.Machine.execVmpCfgStage pair s
  | .vmpCfgValidate ask => Sys2Proof.Machine.execVmpCfgValidate ask s
  | .vmpCfgCommit pair remote => Sys2Proof.Machine.execVmpCfgCommit pair remote s
  | .vmpCfgRevert pair remote => Sys2Proof.Machine.execVmpCfgRevert pair remote s
  | .vmpCfgRead pair => Sys2Proof.Machine.execVmpCfgRead pair s
  | .vmpOpSubmit pair remote => Sys2Proof.Machine.execVmpOpSubmit pair remote s
  | .vmpOpCancel ask => Sys2Proof.Machine.execVmpOpCancel ask s
  | .vmpOpStatus pair => Sys2Proof.Machine.execVmpOpStatus pair s
  | .vmpOpDeadline ask => Sys2Proof.Machine.execVmpOpDeadline ask s
  | .vmpTableCreate pair remote => Sys2Proof.Machine.execVmpTableCreate pair remote s
  | .vmpTableLoad pair remote moved => Sys2Proof.Machine.execVmpTableLoad pair remote moved s
  | .vmpTableActivate pair remote => Sys2Proof.Machine.execVmpTableActivate pair remote s
  | .vmpTableRetire pair remote => Sys2Proof.Machine.execVmpTableRetire pair remote s
  | .vmpTableMigrate pair remote => Sys2Proof.Machine.execVmpTableMigrate pair remote s
  | .vmpCurveLoad pair remote => Sys2Proof.Machine.execVmpCurveLoad pair remote s
  | .vmpErrRead pair => Sys2Proof.Machine.execVmpErrRead pair s
  | .vmpErrClear pair => Sys2Proof.Machine.execVmpErrClear pair s
  | .vmpRecover pair => Sys2Proof.Machine.execVmpRecover pair s
  | .vmpHoldRead pair => Sys2Proof.Machine.execVmpHoldRead pair s
  | .vmpAttest pair => Sys2Proof.Machine.execVmpAttest pair s
  | .vmpFwStage pair => Sys2Proof.Machine.execVmpFwStage pair s
  | .vmpFwActivate pair => Sys2Proof.Machine.execVmpFwActivate pair s
  | .vmpTimeRead pair => Sys2Proof.Machine.execVmpTimeRead pair s
  | .vmpTopoRead pair => Sys2Proof.Machine.execVmpTopoRead pair s
  | .configApply => Sys2Proof.Machine.execConfigApply s
  | .configFlashWrite epoch => Sys2Proof.Machine.execConfigFlashWrite epoch s
  | .forwardedCommitReceive c => Sys2Proof.Machine.execForwardedCommitReceive c s
  | .readmission uid => Sys2Proof.Machine.execReadmission uid s
  | .tableVersionActivation => Sys2Proof.Machine.execTableVersionActivation s
  | .planStart => Sys2Proof.Machine.execPlanStart s
  | .planStop => Sys2Proof.Machine.execPlanStop s
  | .planEndAnnounceReceive job status step endStrike => Sys2Proof.Machine.execPlanEndAnnounceReceive job status step endStrike s
  | .jobEndReport job member report => Sys2Proof.Machine.execJobEndReport job member report s
  | .jobComplete job => Sys2Proof.Machine.execJobComplete job s
  | .activityOccupancyEnd a => Sys2Proof.Machine.execActivityOccupancyEnd a s
  | .scanLoad step => Sys2Proof.Machine.execScanLoad step s
  | .scanRenumber step peerKeys => Sys2Proof.Machine.execScanRenumber step peerKeys s
  | .filter step upsets => Sys2Proof.Machine.execFilter step upsets s
  | .compute step => Sys2Proof.Machine.execCompute step s
  | .hash step => Sys2Proof.Machine.execHash step s
  | .partition step arrivals => Sys2Proof.Machine.execPartition step arrivals s
  | .joinBuild step => Sys2Proof.Machine.execJoinBuild step s
  | .joinProbe step => Sys2Proof.Machine.execJoinProbe step s
  | .dedup step => Sys2Proof.Machine.execDedup step s
  | .emit step peerKeys arrivals handoverOk => Sys2Proof.Machine.execEmit step peerKeys arrivals handoverOk s
  | .rangeBucketLoad step => Sys2Proof.Machine.execRangeBucketLoad step s
  | .rangeBucketInsert step => Sys2Proof.Machine.execRangeBucketInsert step s
  | .rangeBucketSearch step upsets => Sys2Proof.Machine.execRangeBucketSearch step upsets s
  | .rangeJoinLoad step => Sys2Proof.Machine.execRangeJoinLoad step s
  | .rangeJoinInsert step => Sys2Proof.Machine.execRangeJoinInsert step s
  | .rangeJoinSearch step upsets => Sys2Proof.Machine.execRangeJoinSearch step upsets s
  | .maskMatchLoad step => Sys2Proof.Machine.execMaskMatchLoad step s
  | .maskMatchSearch step upsets => Sys2Proof.Machine.execMaskMatchSearch step upsets s
  | .hardyRebalance step => Sys2Proof.Machine.execHardyRebalance step s
  | .statsColumns step peers => Sys2Proof.Machine.execStatsColumns step peers s
  | .statsKeysample step peerHashes => Sys2Proof.Machine.execStatsKeysample step peerHashes s
  | .normalise step => Sys2Proof.Machine.execNormalise step s
  | .selectAbove step secA secB => Sys2Proof.Machine.execSelectAbove step secA secB s
  | .topk step secA secB => Sys2Proof.Machine.execTopk step secA secB s
  | .sortSegment step secA secB => Sys2Proof.Machine.execSortSegment step secA secB s
  | .embLookup step requests partials => Sys2Proof.Machine.execEmbLookup step requests partials s
  | .embUpdate step input => Sys2Proof.Machine.execEmbUpdate step input s
  | .rowCacheFillReply table version row gen image => Sys2Proof.Machine.execRowCacheFillReply table version row gen image s
  | .rowCacheFillRequest source table version row => Sys2Proof.Machine.execRowCacheFillRequest source table version row s
  | .rowCacheDecay => Sys2Proof.Machine.execRowCacheDecay s
  | .migrationImageReceive table version row image => Sys2Proof.Machine.execMigrationImageReceive table version row image s
  | .migrationCutOver table version => Sys2Proof.Machine.execMigrationCutOver table version s
  | .migrationEndSend table version => Sys2Proof.Machine.execMigrationEndSend table version s
  | .migrationEndReceive table version => Sys2Proof.Machine.execMigrationEndReceive table version s
  | .migrationForwardWindowEnd table version => Sys2Proof.Machine.execMigrationForwardWindowEnd table version s
  | .autoMigration table version lower higher dstAddr => Sys2Proof.Machine.execAutoMigration table version lower higher dstAddr s
  | .swageCopy step => Sys2Proof.Machine.execSwageCopy step s
  | .packNew step selfCheckBad mismatch => Sys2Proof.Machine.execPackNew step selfCheckBad mismatch s
  | .packResume step selfCheckBad mismatch => Sys2Proof.Machine.execPackResume step selfCheckBad mismatch s
  | .unpack step mismatch => Sys2Proof.Machine.execUnpack step mismatch s
  | .refreshWindow step => Sys2Proof.Machine.execRefreshWindow step s
  | .bellowsFill record rep => Sys2Proof.Machine.execBellowsFill record rep s
  | .bellowsDrain record rep => Sys2Proof.Machine.execBellowsDrain record rep s
  | .bellowsSend record rep => Sys2Proof.Machine.execBellowsSend record rep s
  | .bellowsLand record rep bytes => Sys2Proof.Machine.execBellowsLand record rep bytes s
  | .bellowsIngest record rep bytes handoverOk => Sys2Proof.Machine.execBellowsIngest record rep bytes handoverOk s
  | .mergeBufferFlush bank addr => Sys2Proof.Machine.execMergeBufferFlush bank addr s
  | .checkerFlipArm who addr value => Sys2Proof.Machine.execCheckerFlipArm who addr value s
  | .weldFrameReceive port lane frame => Sys2Proof.Machine.execWeldFrameReceive port lane frame s
  | .weldFrameLand port lane found => Sys2Proof.Machine.execWeldFrameLand port lane found s
  | .weldFrameResend port lane => Sys2Proof.Machine.execWeldFrameResend port lane s
  | .weldFrameLost port seq => Sys2Proof.Machine.execWeldFrameLost port seq s
  | .controlMessageReceive port m => Sys2Proof.Machine.execControlMessageReceive port m s
  | .laneLightDetect port lane t => Sys2Proof.Machine.execLaneLightDetect port lane t s
  | .laneRetrainTimer port lane => Sys2Proof.Machine.execLaneRetrainTimer port lane s
  | .laneDown port lane => Sys2Proof.Machine.execLaneDown port lane s
  | .bypassClose cause => Sys2Proof.Machine.execBypassClose cause s
  | .bypassOpen => Sys2Proof.Machine.execBypassOpen s
  | .routingOverrideCommit tables => Sys2Proof.Machine.execRoutingOverrideCommit tables s
  | .spurModeRetrain port ok => Sys2Proof.Machine.execSpurModeRetrain port ok s
  | .qpCmdReset port qp => Sys2Proof.Machine.execQpCmdReset port qp s
  | .qpCmdInit port qp => Sys2Proof.Machine.execQpCmdInit port qp s
  | .qpCmdRtr port qp => Sys2Proof.Machine.execQpCmdRtr port qp s
  | .qpCmdRts port qp => Sys2Proof.Machine.execQpCmdRts port qp s
  | .qpCmdError port qp => Sys2Proof.Machine.execQpCmdError port qp s
  | .spurSend port qp handoverOk => Sys2Proof.Machine.execSpurSend port qp handoverOk s
  | .spurSendImm port qp handoverOk => Sys2Proof.Machine.execSpurSendImm port qp handoverOk s
  | .spurWrite port qp handoverOk => Sys2Proof.Machine.execSpurWrite port qp handoverOk s
  | .spurWriteImm port qp handoverOk => Sys2Proof.Machine.execSpurWriteImm port qp handoverOk s
  | .spurRead port qp => Sys2Proof.Machine.execSpurRead port qp s
  | .nvmeRead port qp => Sys2Proof.Machine.execNvmeRead port qp s
  | .nvmeFabricsConnect port qp => Sys2Proof.Machine.execNvmeFabricsConnect port qp s
  | .nvmePropertyGet port qp => Sys2Proof.Machine.execNvmePropertyGet port qp s
  | .nvmePropertySet port qp => Sys2Proof.Machine.execNvmePropertySet port qp s
  | .nvmeIdentify port qp => Sys2Proof.Machine.execNvmeIdentify port qp s
  | .nvmeGetLogPage port qp => Sys2Proof.Machine.execNvmeGetLogPage port qp s
  | .nvmeKeepAlive port qp => Sys2Proof.Machine.execNvmeKeepAlive port qp s
  | .roceInboundRead port qp rkey addr ask => Sys2Proof.Machine.execRoceInboundRead port qp rkey addr ask s
  | .roceInboundWrite port qp rkey addr bytes imm icrcOk handoverOk => Sys2Proof.Machine.execRoceInboundWrite port qp rkey addr bytes imm icrcOk handoverOk s
  | .roceInboundSend port qp bytes last => Sys2Proof.Machine.execRoceInboundSend port qp bytes last s
  | .roceAckTimeout port retry => Sys2Proof.Machine.execRoceAckTimeout port retry s
  | .cnpReceive port qp => Sys2Proof.Machine.execCnpReceive port qp s
  | .cnpRateRecovery port qp => Sys2Proof.Machine.execCnpRateRecovery port qp s
  | .cnpSend port qp => Sys2Proof.Machine.execCnpSend port qp s
  | .ethFrameReceive port f => Sys2Proof.Machine.execEthFrameReceive port f s
  | .pfcPauseReceive port priority pause => Sys2Proof.Machine.execPfcPauseReceive port priority pause s
  | .faultDetect cause uid recoverable => Sys2Proof.Machine.execFaultDetect cause uid recoverable s
  | .memberLost device => Sys2Proof.Machine.execMemberLost device s
  | .holdNoticeReceive job d r uid cause origin => Sys2Proof.Machine.execHoldNoticeReceive job d r uid cause origin s
  | .holdRaise => Sys2Proof.Machine.execHoldRaise s
  | .partitionRestore uid => Sys2Proof.Machine.execPartitionRestore uid s
  | .recoveryBoundMiss uid => Sys2Proof.Machine.execRecoveryBoundMiss uid s
  | .restoredNoticeReceive job uid strike => Sys2Proof.Machine.execRestoredNoticeReceive job uid strike s
  | .replayStart => Sys2Proof.Machine.execReplayStart s
  | .planResume => Sys2Proof.Machine.execPlanResume s
  | .jobFaultEnd => Sys2Proof.Machine.execJobFaultEnd s
  | .fwImageHandover resumed readBackOk => Sys2Proof.Machine.execFwImageHandover resumed readBackOk s
  | .fwActivateRollback => Sys2Proof.Machine.execFwActivateRollback s
  | .mapAnnounceReceive map => Sys2Proof.Machine.execMapAnnounceReceive map s
  | .portStateReport device portsUp epoch => Sys2Proof.Machine.execPortStateReport device portsUp epoch s
  | .formationCommit => Sys2Proof.Machine.execFormationCommit s
  | .deviceReady => Sys2Proof.Machine.execDeviceReady s
  | .lateJoin c map => Sys2Proof.Machine.execLateJoin c map s
  | .thermalSample temps inlet outlet => Sys2Proof.Machine.execThermalSample temps inlet outlet s
  | .pendingRateFull => Sys2Proof.Machine.execPendingRateFull s
  | .metricReport p => Sys2Proof.Machine.execMetricReport p s
  | .dhcpLinkLocalFallback ip => Sys2Proof.Machine.execDhcpLinkLocalFallback ip s
  | .redfishGet path method auth => Sys2Proof.Machine.execRedfishGet path method auth s
  | .redfishEventSubscribe auth => Sys2Proof.Machine.execRedfishEventSubscribe auth s
  | .plovernVmp message auth => Sys2Proof.Machine.execPlovernVmp message auth s
  | .plovernOwnerRecord record auth => Sys2Proof.Machine.execPlovernOwnerRecord record auth s
  | .plovernSystemMap map auth => Sys2Proof.Machine.execPlovernSystemMap map auth s
  | .plovernCheckerTest auth => Sys2Proof.Machine.execPlovernCheckerTest auth s
  | .updateServicePush image auth => Sys2Proof.Machine.execUpdateServicePush image auth s
  | .updateServiceStartUpdate auth => Sys2Proof.Machine.execUpdateServiceStartUpdate auth s
  | .sshConsoleConnect auth => Sys2Proof.Machine.execSshConsoleConnect auth s
  | .spdmGetVersion => Sys2Proof.Machine.execSpdmGetVersion s
  | .spdmGetCapabilities => Sys2Proof.Machine.execSpdmGetCapabilities s
  | .spdmNegotiateAlgorithms p384 sha384 => Sys2Proof.Machine.execSpdmNegotiateAlgorithms p384 sha384 s
  | .spdmGetDigests slot => Sys2Proof.Machine.execSpdmGetDigests slot s
  | .spdmGetCertificate slot offset length => Sys2Proof.Machine.execSpdmGetCertificate slot offset length s
  | .spdmChallenge slot nonce => Sys2Proof.Machine.execSpdmChallenge slot nonce s
  | .spdmGetMeasurements nonce => Sys2Proof.Machine.execSpdmGetMeasurements nonce s
  | .strikeLockAcquire locks n => Sys2Proof.Machine.execStrikeLockAcquire locks n s
  | .laneLightLoss port => Sys2Proof.Machine.execLaneLightLoss port s
  | .spurResponseReceive port qp index r => Sys2Proof.Machine.execSpurResponseReceive port qp index r s
  | .ethernetLinkChange port up => Sys2Proof.Machine.execEthernetLinkChange port up s
  | .managementFrameReceive f => Sys2Proof.Machine.execManagementFrameReceive f s
  | .hearthMemoryAccess a => Sys2Proof.Machine.execHearthMemoryAccess a s

end Sys2Proof.Machine
end

