-- ==== Sys2Proof/Safety.lean ====
section
/-!
DEFINITION. What counts as a safe step (it answers a next state), the form that every state of a run keeps, and the situations in
which the statements find a command: a request taken from a ring, an activity of a plan that
has its result.
-/
namespace Sys2Proof

open Machine

/-- The command runs to a next state. -/
def completes (c : Instr) (s : State) : Prop := ∃ t, exec c s = .next t

/-- The keys of a sparse map strictly rise. -/
abbrev keysRise {α : Type} (l : Sparse α) : Prop := (l.map (·.1)).Pairwise (· < ·)

/-- The form kept: the memory is in its one canonical form, and no unit has two pages. -/
abbrev Kept (s : State) : Prop := s.mem.wf = true ∧ keysRise s.units.pages

/-- The request at HEAD of ring pair k is next, is read as m and fails no check (R347, R349); t is the state in which its command is
served: HEAD past it and, but for a HELLO, its client's lease renewed. -/
def Taken (s : State) (k op : Nat) (m : List Byte) (t : State) : Prop :=
  ∃ s1, isNext s k = true ∧ readRequest s k = (s1, some m) ∧ msgOpcode m = op ∧ opcodeDefined op = true ∧
    requestStatus s1 m = 0x0000 ∧
    t = if op = 0x01 then consume s1 k else renewLease (consume s1 k) (msgClient m) ((arrivalOf s k).getD 0)

/-- No word of memory is stored with a code that is not clean, and no checker is armed. -/
def CleanMemory (s : State) : Prop := s.mem.synd = [] ∧ ∀ c, (checkerGet s c).flipArm = false

/-- Sticky bit b of a unit is set, or raised in this strike and set from the next (R49). -/
def stickyRaised (t : State) (k b : Nat) : Prop := ((unitGet t k).page.sticky ||| (unitGet t k).page.fresh).getLsbD b = true

/-- The 26 commands that serve a request of pair k, each with its opcode (R348). -/
def vmpCommands (k : Nat) (remote : List (BitVec 16)) (answers : List MemberAnswer) (checks : List MemberCheck) (moved : List (Nat × List Byte)) : List (Instr × Nat) :=
  [(.vmpHello k, 0x01), (.vmpBye k, 0x02), (.vmpCfgStage k, 0x10), (.vmpCfgValidate ⟨k, answers⟩, 0x11), (.vmpCfgCommit k answers, 0x12),
   (.vmpCfgRevert k remote, 0x13), (.vmpCfgRead k, 0x14), (.vmpOpSubmit k checks, 0x20), (.vmpOpCancel ⟨k, answers⟩, 0x21), (.vmpOpStatus k, 0x22),
   (.vmpOpDeadline ⟨k, answers⟩, 0x23), (.vmpTableCreate k remote, 0x30), (.vmpTableLoad k remote moved, 0x31), (.vmpTableActivate k remote, 0x32),
   (.vmpTableRetire k remote, 0x33), (.vmpTableMigrate k remote, 0x34), (.vmpCurveLoad k remote, 0x38), (.vmpErrRead k, 0x40), (.vmpErrClear k, 0x41),
   (.vmpRecover k, 0x48), (.vmpHoldRead k, 0x49), (.vmpAttest k, 0x50), (.vmpFwStage k, 0x58), (.vmpFwActivate k, 0x59), (.vmpTimeRead k, 0x60),
   (.vmpTopoRead k, 0x61)]

/-- The running job has an activity r in progress whose recorded result satisfies P. -/
def HasResult (t : State) (r : ActRef) (P : ActResult → Prop) : Prop :=
  ∃ j a x, runningJob t = some j ∧ actOf j r = some a ∧ a.result = some x ∧ P x

/-- The step commands of the Array: command, opcode, MODE it serves (any where none), and its work. -/
def stepRuns (i : Nat) (peers : List (Nat × Nat)) (ups : List HardyUpset) (arr : Arrivals) (ok : Bool) (ps : List (List PeerStat)) (hs : List Nat)
    (secA secB : List SelRec) : List (Instr × Nat × Option Nat × (State → Job → PlanStep → List Byte → OpRes)) :=
  [(.scanLoad i, 1, some 0, scanLoadRun), (.scanRenumber i peers, 1, some 1, scanRenumberRun peers), (.filter i ups, 2, none, filterRun ups),
   (.compute i, 3, none, computeRun), (.hash i, 4, none, hashRun), (.partition i arr, 5, none, partitionRun arr), (.joinBuild i, 6, none, joinBuildRun),
   (.joinProbe i, 7, none, joinProbeRun), (.dedup i, 0x15, none, dedupRun), (.emit i peers arr ok, 0x14, none, emitRun peers arr ok),
   (.rangeBucketLoad i, 8, some 0, hardyLoadRun 8), (.rangeBucketInsert i, 8, some 1, hardyInsertRun 8),
   (.rangeBucketSearch i ups, 8, some 2, bucketSearchRun ups), (.rangeJoinLoad i, 9, some 0, hardyLoadRun 9),
   (.rangeJoinInsert i, 9, some 1, hardyInsertRun 9), (.rangeJoinSearch i ups, 9, some 2, rangeJoinSearchRun ups),
   (.maskMatchLoad i, 0x16, some 0, hardyLoadRun 0x16), (.maskMatchSearch i ups, 0x16, some 2, maskSearchRun ups),
   (.statsColumns i ps, 0xA, some 0, statsColumnsRun ps), (.statsKeysample i hs, 0xA, some 1, statsKeysampleRun hs),
   (.normalise i, 0xB, none, normaliseRun), (.selectAbove i secA secB, 0xC, none, selectionRun selectOp secA secB),
   (.topk i secA secB, 0xD, none, selectionRun topkOp secA secB), (.sortSegment i secA secB, 0x13, none, selectionRun sortOp secA secB)]

end Sys2Proof
end

