-- ==== Sys2Proof/Certificates/Slice0/Obligations.lean ====
section
/-!
DEFINITION. The statements about the IH-100 for the provers.
-/
section
open Sys2Proof Sys2Proof.Machine

/-! ### The queue, reset and the invariant -/

/-- A step runs the command at the front of the queue on the state with the queue's rest. With nothing waiting the block idles (the
model's choice, log entry 10). -/
def Obligations.StepRunsFrontCommand : Prop :=
  (∀ (c : Instr) (rest : List Instr) (s : State), s.pending = c :: rest → step s = exec c { s with pending := rest }) ∧
  (∀ s : State, s.pending = [] → step s = .next s)

/-- The Reset column of the unit control page (R17 to R19), and what else stands at reset: the strike count 0, no lock, hop count 0x1F,
bypasses closed, lanes down, no client, no job, every byte of memory 0. -/
def Obligations.ResetRegisterValues : Prop :=
  (∀ k : Nat, let p := (unitGet State.reset k).page
    p.sticky = 0 ∧ p.fresh = 0 ∧ p.notify = 0 ∧ p.active = 0 ∧ p.previous = 0 ∧ p.pendEpoch = 0 ∧ p.pendStrike = 0xFFFFFFFFFFFFFFFF ∧
    (∀ c, wdGet p c = 0xFFFFFFFFFFFFFFFF) ∧ p.progressHeat = 0 ∧ p.marker = 0 ∧ p.retainMemory = true ∧ p.retainFabric = true ∧
    p.wdCtrl = (if k = devKey then 0xB0A09080 else 0x20209080) ∧ ∀ c, counterGet State.reset k c = 0) ∧
  now State.reset = 0 ∧ State.reset.seq.hold = 0 ∧ State.reset.tb.lock = .unlocked ∧ State.reset.tb.hops = 0x1F ∧
  (∀ p, p < 6 → (portGet State.reset p).bypassClosed = true) ∧ (∀ p l, (portGet State.reset p).lanes.getD l .down = .down) ∧
  State.reset.vmp.clients = [] ∧ State.reset.seq.jobs = [] ∧
  ∀ a n, (memRead State.reset a n).bytes = List.replicate n 0 ∧
    (rangeOk State.reset isMemory a n = true → (memRead State.reset a n).bad = none)

/-- Reset memory is in canonical form and no unit has two pages. -/
def Obligations.ResetIsKept : Prop := Kept State.reset

/-- Every step from every state keeps the canonical form of memory and the order of the unit pages. -/
def Obligations.StepKeepsForm : Prop := ∀ s t : State, Kept s → step s = .next t → Kept t

/-- R11, R47: at a strike edge the strike count takes its next value, and HOLD grows by 1 at the end of a hold or replay strike; at its last value the count has no successor and the block stops.
Before strike 0 is defined an edge counts no strike: it only sends the frames of the free-running timebase (the model's choice, log entry 11). -/
def Obligations.StrikeEdgeAdvances : Prop :=
  (∀ (e : EdgeInputs) (s : State), s.tb.strikeDefined = true → s.seq.strike ≠ 0xFFFFFFFFFFFFFFFF →
    ∃ t, exec (.strikeEdge e) s = .next t ∧ t.seq.strike = s.seq.strike + 1 ∧
      t.seq.hold = s.seq.hold + (if s.seq.kind = .run then 0 else 1)) ∧
  (∀ (e : EdgeInputs) (s : State), s.tb.strikeDefined = true → s.seq.strike = 0xFFFFFFFFFFFFFFFF →
    exec (.strikeEdge e) s = .fault .strikeCountExhausted) ∧
  (∀ (e : EdgeInputs) (s : State), s.tb.strikeDefined = false → ∃ t, exec (.strikeEdge e) s = .next t ∧ t.seq.strike = s.seq.strike ∧
    t.seq.hold = s.seq.hold ∧ t.mem = s.mem)

/-! ### Memory and its code -/

/-- Bytes written to a tier read back, without an error, and no other byte of memory changes (R289, R291, R295); a read that meets an unmapped
word fails at it or at a lower word, and a write to an unmapped word changes nothing (R29). -/
def Obligations.MemoryReadAfterWrite : Prop :=
  ∀ (s : State) (a : Nat) (bs : List Byte), Kept s → CleanMemory s →
    (a + bs.length ≤ scratchBase → (∀ i, i < bs.length → isMemory s (a + i) = true) → rangeOk s isMemory a bs.length = true →
      (memRead (memWrite s a bs) a bs.length).bytes = bs ∧ (memRead (memWrite s a bs) a bs.length).bad = none ∧
      ∀ b, b < a ∨ a + bs.length ≤ b → cellGet b (memWrite s a bs).mem.cells = cellGet b s.mem.cells) ∧
    (∀ n, 0 < n → isMemory s a = false → ∃ w, (memRead s a n).bad = some w ∧ w ≤ a) ∧
    (∀ b, a / 8 = (a + bs.length - 1) / 8 → isMemory s a = false → cellGet b (memWrite s a bs).mem.cells = cellGet b s.mem.cells)

/-- R295, R296: a flip of one data bit is decoded as a CE in that bit, a flip of one check bit as a CE in the check, a flip of two bits
never as clean or as a CE. -/
def Obligations.SecdedOutcomes : Prop :=
  (∀ d i : Nat, d < 2 ^ 64 → i < 64 → decodeSyndrome (BitVec.ofNat 8 (checkOf d ^^^ checkOf (d ^^^ 2 ^ i))) = .ceData i) ∧
  (∀ d j : Nat, d < 2 ^ 64 → j < 8 → decodeSyndrome (BitVec.ofNat 8 (checkOf d ^^^ 2 ^ j ^^^ checkOf d)) = .ceCheck) ∧
  (∀ d i k : Nat, d < 2 ^ 64 → i < 64 → k < 64 → i ≠ k →
    let o := decodeSyndrome (BitVec.ofNat 8 (checkOf d ^^^ checkOf (d ^^^ 2 ^ i ^^^ 2 ^ k)))
    o = .ue ∨ o = .poison) ∧
  (∀ d i j : Nat, d < 2 ^ 64 → i < 64 → j < 8 →
    let o := decodeSyndrome (BitVec.ofNat 8 (checkOf d ^^^ 2 ^ j ^^^ checkOf (d ^^^ 2 ^ i)))
    o = .ue ∨ o = .poison) ∧
  (∀ i j : Nat, i < 8 → j < 8 → i ≠ j → let o := decodeSyndrome (BitVec.ofNat 8 (2 ^ i ^^^ 2 ^ j)); o = .ue ∨ o = .poison)

/-- R300: a read-modify-write that finds a UE writes the merged bytes, leaves the other bytes as read, poisons the word and logs the UE.
A poisoned word reads with syndrome 0xFF until a full-word write replaces it. -/
def Obligations.PoisonedWord : Prop :=
  (∀ (s : State) (a : Nat) (bs : List Byte) (sy : BitVec 8) (kind : BitVec 2), sparseGet 0 (a / 8) s.mem.synd = sy → sy ≠ 0 →
    (∀ c, (checkerGet s c).flipArm = false) → (decodeSyndrome sy = .ue ∧ kind = 1 ∨ decodeSyndrome sy = .poison ∧ kind = 2) →
    rmwWord s a bs = { eccEvent s (a / 8 * 8) sy kind with mem := { (eccEvent s (a / 8 * 8) sy kind).mem with
      cells := cellsPut a bs s.mem.cells, synd := sparseSet 0 (a / 8) 0xFF (eccEvent s (a / 8 * 8) sy kind).mem.synd,
      injected := s.mem.injected.filter (· != a / 8 * 8) } }) ∧
  (∀ (s : State) (w : Nat), sparseGet 0 (w / 8) s.mem.synd = 0xFF →
    readWord s w = (eccEvent s w 0xFF 2, false) ∧ sparseGet 0 (w / 8) (readWord s w).1.mem.synd = 0xFF) ∧
  (∀ (s : State) (w : Nat) (bs : List Byte), w % 8 = 0 → bs.length = 8 → keysRise s.mem.synd → (∀ c, (checkerGet s c).flipArm = false) →
    sparseGet 0 (w / 8) (storeWord s w bs).mem.synd = 0)

/-- R302: the four cases of a checker log's update, and a UE entry is never displaced by a CE. -/
def Obligations.CheckerLogRule : Prop :=
  (∀ (c : Checker) (i : Nat) (addr : Word) (inst : BitVec 16) (sy : BitVec 8) (kind : BitVec 2) (inj : Bool) (n : Word), i < c.log.length →
    (let e := c.log.getD i LogEntry.empty
     e.valid = true ∧ e.addr = addr ∧ e.inst = inst ∧ e.kind = kind) →
    (∀ j, j < i → let e := c.log.getD j LogEntry.empty
      ¬(e.valid = true ∧ e.addr = addr ∧ e.inst = inst ∧ e.kind = kind)) →
    let e := c.log.getD i LogEntry.empty
    logEvent c addr inst sy kind inj n =
      { c with log := c.log.set i { e with count := satInc16 e.count, syndrome := sy, last := n } }) ∧
  (∀ (c : Checker) (i : Nat) (addr : Word) (inst : BitVec 16) (sy : BitVec 8) (kind : BitVec 2) (inj : Bool) (n : Word), i < c.log.length →
    (∀ j, j < c.log.length → let e := c.log.getD j LogEntry.empty
      ¬(e.valid = true ∧ e.addr = addr ∧ e.inst = inst ∧ e.kind = kind)) →
    (c.log.getD i LogEntry.empty).valid = false → (∀ j, j < i → (c.log.getD j LogEntry.empty).valid = true) →
    let e : LogEntry :=
      { valid := true, addr := addr, inst := inst, syndrome := sy, count := 1, injected := inj, kind := kind, first := n, last := n }
    logEvent c addr inst sy kind inj n = { c with log := c.log.set i e }) ∧
  (∀ (c : Checker) (i : Nat) (addr : Word) (inst : BitVec 16) (sy : BitVec 8) (kind : BitVec 2) (inj : Bool) (n : Word), i < c.log.length →
    (∀ j, j < c.log.length → let e := c.log.getD j LogEntry.empty
      e.valid = true ∧ ¬(e.addr = addr ∧ e.inst = inst ∧ e.kind = kind)) →
    (c.log.getD i LogEntry.empty).kind = 0 →
    (∀ j, j < c.log.length → (c.log.getD j LogEntry.empty).kind = 0 →
      (c.log.getD i LogEntry.empty).last.toNat ≤ (c.log.getD j LogEntry.empty).last.toNat ∧
      (j < i → (c.log.getD i LogEntry.empty).last.toNat < (c.log.getD j LogEntry.empty).last.toNat)) →
    let e : LogEntry :=
      { valid := true, addr := addr, inst := inst, syndrome := sy, count := 1, injected := inj, kind := kind, first := n, last := n }
    logEvent c addr inst sy kind inj n = { c with log := c.log.set i e }) ∧
  (∀ (c : Checker) (addr : Word) (inst : BitVec 16) (sy : BitVec 8) (kind : BitVec 2) (inj : Bool) (n : Word),
    (∀ j, j < c.log.length → let e := c.log.getD j LogEntry.empty
      e.valid = true ∧ e.kind ≠ 0 ∧ ¬(e.addr = addr ∧ e.inst = inst ∧ e.kind = kind)) →
    logEvent c addr inst sy kind inj n = { c with overflow := satInc16 c.overflow }) ∧
  (∀ (c : Checker) (i : Nat) (addr : Word) (inst : BitVec 16) (sy : BitVec 8) (inj : Bool) (n : Word),
    (c.log.getD i LogEntry.empty).valid = true → (c.log.getD i LogEntry.empty).kind ≠ 0 →
    (logEvent c addr inst sy 0 inj n).log.getD i LogEntry.empty = c.log.getD i LogEntry.empty)

/-- R299: an entry with a full mask is written without a read, any other by one read-modify-write that keeps the bytes outside its mask;
either way the entry leaves its bank and no byte of another word changes. -/
def Obligations.MergeBufferFlushes : Prop :=
  (∀ (s : State) (bank addr : Nat) (e : MergeEntry), (mergeGet s.mem bank).find? (fun x => x.addr == addr) = some e → e.mask = 0xFF →
    exec (.mergeBufferFlush bank addr) s =
      .next (storeWord { s with mem := mergeDrop s.mem bank addr } addr (leBytes 8 e.bytes.toNat))) ∧
  (∀ (s : State) (bank addr : Nat) (e : MergeEntry), Kept s → CleanMemory s → addr % 8 = 0 →
    (mergeGet s.mem bank).find? (fun x => x.addr == addr) = some e → e.mask ≠ 0xFF →
    ∃ t, exec (.mergeBufferFlush bank addr) s = .next t ∧ (mergeGet t.mem bank).find? (fun x => x.addr == addr) = none ∧
      (∀ i, i < 8 → cellGet (addr + i) t.mem.cells =
        if e.mask.getLsbD i then BitVec.ofNat 8 (e.bytes.toNat / 2 ^ (8 * i)) else cellGet (addr + i) s.mem.cells) ∧
      (∀ a, a < addr ∨ addr + 8 ≤ a → cellGet a t.mem.cells = cellGet a s.mem.cells)) ∧
  (∀ (s : State) (bank addr : Nat), (mergeGet s.mem bank).find? (fun x => x.addr == addr) = none →
    exec (.mergeBufferFlush bank addr) s = .next s)

/-- R307, R29: a Hearth load of memory gives its bytes or one access fault that names the lowest failing word; a store to memory writes
exactly its bytes; an unmapped load faults at its word. -/
def Obligations.HearthAccess : Prop :=
  (∀ (s : State) (addr : Word) (n : Nat), CleanMemory s → s.mem.merge = [] → 0 < n → (∀ w ∈ accessWords addr.toNat n, isMemory s w = true) →
    exec (.hearthMemoryAccess (.load addr n)) s =
      .next (emitOut s (.hearthData (cellsGet s.mem.cells addr.toNat n)))) ∧
  (∀ (s : State) (addr : Word) (bs : List Byte), (∀ w ∈ accessWords addr.toNat bs.length, isMemory s w = true) →
    exec (.hearthMemoryAccess (.store addr bs)) s = .next (memWrite s addr.toNat bs)) ∧
  (∀ (s : State) (addr : Word), addr.toNat % 8 = 0 → placeOf s addr.toNat = .unmapped →
    exec (.hearthMemoryAccess (.load addr 8)) s = .next (emitOut s (.hearthFault addr)))

/-! ### Registers, counters, resets -/

/-- R22: the Hearth clears sticky bits and FIRED bits by writing 1 and gets a bus error for any other write of a unit page, which changes
nothing; the Warden writes the pages; the Hearth reads them. -/
def Obligations.PageWriteRights : Prop :=
  (∀ (s : State) (a v : Word) (u : Uid), a.toNat % 8 = 0 → placeOf s a.toNat = .page u 0x10 → keyLevel u.toNat ≠ 5 →
    exec (.registerWrite .hearth a v) s =
      .next (pageMod s (uidKey u) (fun p => { p with sticky := p.sticky &&& ~~~ (v &&& stickyMask) }))) ∧
  (∀ (s : State) (a v : Word) (u : Uid), a.toNat % 8 = 0 → placeOf s a.toNat = .page u 0x60 →
    exec (.registerWrite .hearth a v) s =
      .next (pageMod s (targetPageKey u) (fun p => { p with wdCtrl := p.wdCtrl &&& ~~~ (v.setWidth 32 &&& 0x01010101) }))) ∧
  (∀ (s : State) (a v : Word) (u : Uid) (off : Nat), a.toNat % 8 = 0 → placeOf s a.toNat = .page u off → off ≠ 0x10 → off ≠ 0x60 →
    exec (.registerWrite .hearth a v) s = .next (emitOut s (.hearthFault a))) ∧
  (∀ (s : State) (a v : Word) (u : Uid), a.toNat % 8 = 0 → placeOf s a.toNat = .page u 0x18 →
    exec (.registerWrite .warden a v) s = .next (pageMod s (targetPageKey u) (fun p => { p with notify := v &&& stickyMask }))) ∧
  (∀ (s : State) (a v : Word) (u : Uid) (off : Nat), a.toNat % 8 = 0 → placeOf s a.toNat = .page u off →
    exec (.registerWrite .cmc a v) s = .next s ∧ exec (.registerWrite .spur a v) s = .next s) ∧
  (∀ (s : State) (a : Word) (u : Uid) (off : Nat), a.toNat % 8 = 0 → placeOf s a.toNat = .page u off →
    exec (.hearthMemoryAccess (.load a 8)) s = .next (emitOut s (.hearthData (leBytes 8 (ucpRead s u off).toNat))))

/-- R8, R23, R24, R49: a write of ones clears sticky bits, but for a bit that hardware sets in the same cycle; that bit shows from the next strike on
(before strike 0 is defined, at once); no other field of the page changes. A clear of group sticky bits waits for the next heat boundary; no unit's sticky bits change before it. -/
def Obligations.StickyWrites : Prop :=
  (∀ (s : State) (who : Requester) (u : Uid) (mask hw : Word), Kept s → (who = .warden ∨ who = .hearth) → pageHere s u = true →
    keyLevel u.toNat ≠ 5 →
    ∃ t, exec (.stickyW1cWrite who u mask hw) s = .next t ∧
      (let p := (unitGet s (uidKey u)).page
       let kept := p.sticky &&& ~~~ (mask &&& stickyMask &&& ~~~ hw)
       (unitGet t (uidKey u)).page =
        if s.tb.strikeDefined then { p with sticky := kept, fresh := p.fresh ||| (hw &&& stickyMask) }
        else { p with sticky := kept ||| (hw &&& stickyMask) }) ∧
      (∀ k, k ≠ uidKey u → unitGet t k = unitGet s k) ∧ t.mem = s.mem ∧ t.seq = s.seq) ∧
  (∀ (s : State) (group : BitVec 12) (mask : Word) (g : GroupDef), Kept s → (∀ e ∈ s.units.setAt, e.2 ≤ now s) →
    groupOf s (BitVec.ofNat 32 (5 * 2 ^ 28 + group.toNat * 2 ^ 16)) = some g →
    ∃ t, exec (.groupStickyClear group mask) s = .next t ∧
      t.units.groupClears = s.units.groupClears ++ [{ mask := mask &&& stickyMask, heat := heatOf (now s) + 1 }] ∧
      ∀ k, (unitGet t k).page.sticky = (unitGet s k).page.sticky)

/-- R364: sticky events of earlier strikes leave the list and are posted; one that a full event ring cannot take is dropped and counted,
and SEQ counts it either way. -/
def Obligations.StickyEventsPost : Prop :=
  (∀ s : State, CleanMemory s → ∃ t, exec .stickyEventPost s = .next t ∧
    t.units.events = s.units.events.filter (fun e => !decide (e.strike < now s))) ∧
  (∀ (s : State) (e : StickyEvent) (k : Nat) (p : RingPair), s.units.events = [e] → e.strike < now s → s.vmp.pairs = [(k, p)] → 0 < k →
    p.en = true → p.evtEn = true → scopeCovers { s with units := { s.units with events := [] } } p.evtUid e.uid = true →
    ringCount p.evtHead p.evtTail < ringSize p.evtLog2.toNat →
    ∃ t, exec .stickyEventPost s = .next t ∧
      pairGet t k = { p with evtTail := p.evtTail + 1, evtSeq := p.evtSeq + 1 }) ∧
  (∀ (s : State) (e : StickyEvent) (k : Nat) (p : RingPair), s.units.events = [e] → e.strike < now s → s.vmp.pairs = [(k, p)] →
    p.en = true → p.evtEn = true → scopeCovers { s with units := { s.units with events := [] } } p.evtUid e.uid = true →
    ringSize p.evtLog2.toNat ≤ ringCount p.evtHead p.evtTail → p.evtDrops ≠ 0xFFFFFFFF →
    ∃ t, exec .stickyEventPost s = .next t ∧
      pairGet t k = { p with evtDrops := p.evtDrops + 1, evtSeq := p.evtSeq + 1 })

/-- R20: an event of counters 0 to 7 counts in the unit and in every ancestor, saturating; one of counters 8 to 31 in the unit alone; no
other counter changes. -/
def Obligations.CountersSumUpward : Prop :=
  (∀ (s : State) (k c n a : Nat), 1 ≤ n → c < 8 → a ∈ selfAndAncestors k →
    counterGet (count s k c n) a c = satAdd (counterGet s a c) n) ∧
  (∀ (s : State) (k c n : Nat), 1 ≤ n → 8 ≤ c → counterGet (count s k c n) k c = satAdd (counterGet s k c) n) ∧
  (∀ (s : State) (k c n a d : Nat), 1 ≤ n → d ≠ c ∨ (c < 8 ∧ a ∉ selfAndAncestors k) ∨ (8 ≤ c ∧ a ≠ k) →
    counterGet (count s k c n) a d = counterGet s a d)

/-- R19: the Warden's write of a deadline lands at once, and the value held for the strike's evaluation stays. An enabled comparator whose
held deadline has come fires; at the budget's owner with a plan running BUDGET_OVERRUN is set as well. One whose deadline is all ones never
fires, and one that has fired waits for the next write of its deadline. -/
def Obligations.Comparators : Prop :=
  (∀ (s : State) (u : Uid) (k : Nat) (value : Word), Kept s → pageHere s u = true → k < 4 →
    ∃ t, exec (.watchdogDeadlineWrite u k value) s = .next t ∧ wdGet (unitGet t (targetPageKey u)).page k = value ∧
      (∀ c, c < 4 → c ≠ k → wdGet (unitGet t (targetPageKey u)).page c = wdGet (unitGet s (targetPageKey u)).page c) ∧
      (∀ c, c < 4 → wdHeld (unitGet t (targetPageKey u)).page c = wdHeld (unitGet s (targetPageKey u)).page c) ∧
      (∀ a, a ≠ targetPageKey u → unitGet t a = unitGet s a) ∧ t.mem = s.mem) ∧
  (∀ (s : State) (u : Uid) (c : Nat), uidDevice u = s.form.device → keyLevel u.toNat ≤ 4 → c < 4 → isOffline s (uidKey u) = false →
    wdEn (unitGet s (uidKey u)).page c = true → evaluates s (uidKey u) c = true → deadlineOf s (uidKey u) c ≠ 0xFFFFFFFFFFFFFFFF →
    (deadlineOf s (uidKey u) c).toNat ≤ now s → mayFire s (uidKey u) c = true → Kept s →
    ∃ t, exec (.comparatorFire u c) s = .next t ∧ wdFired (unitGet t (uidKey u)).page c = true ∧
      (wdOwner (unitGet s (uidKey u)).page c = 1 → (runningJob s).isSome = true → stickyRaised t (uidKey u) 16)) ∧
  (∀ (s : State) (u : Uid) (c : Nat), mayFire s (uidKey u) c = false → exec (.comparatorFire u c) s = .next s) ∧
  (∀ (s : State) (u : Uid) (c : Nat), deadlineOf s (uidKey u) c = 0xFFFFFFFFFFFFFFFF → exec (.comparatorFire u c) s = .next s)

/-- R25, R9: a reset requested of a unit holds it in RESET and returns its page and those of its descendants to their reset values; the
release ends the reset. -/
def Obligations.UnitReset : Prop :=
  (∀ (s : State) (u : Uid), Kept s → keyLevel u.toNat ≤ 4 → uidDevice u = s.form.device → uidShape u.toNat = true →
    isOffline s (uidKey u) = false →
    ∃ t, exec (.ucpResetReq u) s = .next t ∧ (unitGet t (uidKey u)).flags.resetting = true ∧
      ∀ a, covers (uidKey u) a = true → let p := (unitGet t a).page
        p.sticky = 0 ∧ p.fresh = 0 ∧ p.notify = 0 ∧ p.marker = 0 ∧ p.progressHeat = 0 ∧ p.counters = [] ∧ ∀ c, wdGet p c = 0xFFFFFFFFFFFFFFFF) ∧
  (∀ (s : State) (u : Uid), Kept s → uidDevice u = s.form.device → (unitGet s (uidKey u)).flags.resetting = true →
    ∃ t, exec (.resetRelease u) s = .next t ∧ (unitGet t (uidKey u)).flags.resetting = false ∧
      (unitGet t (uidKey u)).flags.recovering = false ∧
      ((unitGet s (uidKey u)).flags.missed = true → (unitGet t (uidKey u)).flags.fenced = true))

/-- R261, R346: a write of a request ring's TAIL makes its entries arrive in the strike of the write; one past the ring is ignored. EN 0 to
1 zeroes every index of the pair and of its event ring; EN 1 to 0 ends the leases of the pair's clients. -/
def Obligations.DoorbellRings : Prop :=
  (∀ (s : State) (who : Requester) (k : Nat) (tail : BitVec 32), mayRing who k = true →
    ringCount (pairGet s k).reqHead tail ≤ ringSize (pairGet s k).reqLog2.toNat →
    exec (.ringTailWrite who (2 * k) tail) s =
      .next (pairMod s k (fun p => { p with reqTail := tail, arrivals := p.arrivals ++ [(tail, now s)] }))) ∧
  (∀ (s : State) (who : Requester) (k : Nat) (tail : BitVec 32), mayRing who k = true →
    ringSize (pairGet s k).reqLog2.toNat < ringCount (pairGet s k).reqHead tail → exec (.ringTailWrite who (2 * k) tail) s = .next s) ∧
  (∀ (s : State) (who : Requester) (k : Nat), mayRing who k = true → (pairGet s k).en = false →
    ∃ t, exec (.vmpEnableSet who k) s = .next t ∧ pairGet t k =
      { pairGet s k with en := true, reqHead := 0, reqTail := 0, respHead := 0, respTail := 0, evtHead := 0, evtTail := 0, evtDrops := 0,
                         evtSeq := 0, arrivals := [] }) ∧
  (∀ (s : State) (who : Requester) (k : Nat), keysRise s.vmp.pairs → mayRing who k = true → (pairGet s k).en = true →
    ∃ t, exec (.vmpEnableClear who k) s = .next t ∧ (pairGet t k).en = false ∧ ∀ c ∈ t.vmp.clients, c.pair ≠ k)

/-! ### The mailbox protocol -/

/-- R347, R349: a request that is next, readable and passes every check is served, with HEAD past it and, but for a HELLO, its client's lease renewed: one equation
for each command of the protocol. -/
def Obligations.RequestsAreServed : Prop :=
  ∀ (s t : State) (k : Nat) (m : List Byte) (remote : List (BitVec 16)) (answers : List MemberAnswer) (checks : List MemberCheck)
      (moved : List (Nat × List Byte)),
    (Taken s k 0x01 m t → exec (.vmpHello k) s = .next (serveHello ((arrivalOf s k).getD (now s)) k t m)) ∧
    (Taken s k 0x02 m t → exec (.vmpBye k) s = .next (serveBye k t m)) ∧
    (Taken s k 0x10 m t → exec (.vmpCfgStage k) s = .next (serveCfgStage k t m)) ∧
    (Taken s k 0x11 m t → exec (.vmpCfgValidate ⟨k, answers⟩) s = .next (serveCfgValidate k answers t m)) ∧
    (Taken s k 0x12 m t → exec (.vmpCfgCommit k answers) s = .next (serveCfgCommit k answers t m)) ∧
    (Taken s k 0x13 m t → exec (.vmpCfgRevert k remote) s = .next (serveCfgRevert k remote t m)) ∧
    (Taken s k 0x14 m t → exec (.vmpCfgRead k) s = .next (serveCfgRead k t m)) ∧
    (Taken s k 0x20 m t → exec (.vmpOpSubmit k checks) s = .next (serveOpSubmit k checks t m)) ∧
    (Taken s k 0x21 m t → exec (.vmpOpCancel ⟨k, answers⟩) s = .next (serveOpCancel k answers t m)) ∧
    (Taken s k 0x22 m t → exec (.vmpOpStatus k) s = .next (serveOpStatus k t m)) ∧
    (Taken s k 0x23 m t → exec (.vmpOpDeadline ⟨k, answers⟩) s = .next (serveOpDeadline k answers t m)) ∧
    (Taken s k 0x30 m t → exec (.vmpTableCreate k remote) s = .next (tableCommand k remote m (createCheck t (msgBody m))
      (fun u _ => createEffect (msgTarget m) u (msgBody m)) (fun u _ => respond u k m 0x0000 []))) ∧
    (Taken s k 0x31 m t → exec (.vmpTableLoad k remote moved) s = .next (tableCommand k remote m (loadCheck t (msgTarget m) (msgBody m) moved)
      (fun u p => loadEffect (some (k, m)) u (msgBody m) p) (fun u _ => holdRequest u k m))) ∧
    (Taken s k 0x32 m t → exec (.vmpTableActivate k remote) s = .next (tableCommand k remote m (activateCheck t (msgTarget m) (msgBody m))
      (fun u _ => activateEffect (some (msgClient m, k, msgTag m)) u (msgBody m)) (fun u _ => respondAccepted u k m []))) ∧
    (Taken s k 0x33 m t → exec (.vmpTableRetire k remote) s = .next (tableCommand k remote m (retireCheck t (msgTarget m) (msgBody m))
      (fun u _ => retireEffect u (msgBody m)) (fun u _ => respond u k m 0x0000 []))) ∧
    (Taken s k 0x34 m t → exec (.vmpTableMigrate k remote) s = .next (tableCommand k remote m (migrateCheck t (msgTarget m) (msgBody m))
      (fun u p => migrateEffect (some (msgClient m, k, msgTag m)) u (msgBody m) p) (fun u _ => respondAccepted u k m []))) ∧
    (Taken s k 0x38 m t → exec (.vmpCurveLoad k remote) s = .next (tableCommand k remote m (curveCheck t (msgBody m))
      (fun u p => curveEffect u (msgBody m) p) (curveAnswer k m))) ∧
    (Taken s k 0x40 m t → exec (.vmpErrRead k) s = .next (serveErrRead k t m)) ∧
    (Taken s k 0x41 m t → exec (.vmpErrClear k) s = .next (serveErrClear k t m)) ∧
    (Taken s k 0x48 m t → exec (.vmpRecover k) s = .next (serveRecover k t m)) ∧
    (Taken s k 0x49 m t → exec (.vmpHoldRead k) s = .next (serveHoldRead k t m)) ∧
    (Taken s k 0x50 m t → exec (.vmpAttest k) s = .next (serveAttest k t m)) ∧
    (Taken s k 0x58 m t → exec (.vmpFwStage k) s = .next (serveFwStage k t m)) ∧
    (Taken s k 0x59 m t → exec (.vmpFwActivate k) s = .next (serveFwActivate k t m)) ∧
    (Taken s k 0x60 m t → exec (.vmpTimeRead k) s = .next (serveTimeRead k t m)) ∧
    (Taken s k 0x61 m t → exec (.vmpTopoRead k) s = .next (serveTopoRead k t m))

/-- R347: an entry that cannot be read is consumed, by whichever row the sender names: HEAD advances, the ring and index are recorded, and nothing is
posted. R349: a request that fails a check is answered with the status of the check and an empty body, and has no effect but the lease that it renews (a HELLO renews none), for
each of the 26 commands; the version's major is checked first, the client second, the opcode third. A command whose request is not next does
nothing, and one whose row is not the entry's leaves the entry (the model's choices, log entry 20). -/
def Obligations.RefusedRequests : Prop :=
  (∀ (s s1 : State) (k : Nat) (remote : List (BitVec 16)) (answers : List MemberAnswer) (checks : List MemberCheck)
      (moved : List (Nat × List Byte)), isNext s k = true → readRequest s k = (s1, none) →
    ∃ t, exec (.requestEntryUnreadable k) s = .next t ∧ (∀ x ∈ vmpCommands k remote answers checks moved, exec x.1 s = .next t) ∧
      t.boot.persistent = s1.boot.persistent ++ [.unreadableEntry (2 * k) (pairGet s1 k).reqHead.toNat] ∧
      (k < 256 → (pairGet t k).reqHead = (pairGet s1 k).reqHead + 1 ∧ (pairGet t k).respTail = (pairGet s1 k).respTail) ∧
      t.mem = s1.mem ∧ t.out = s1.out ∧ t.seq = s1.seq ∧ t.cfg = s1.cfg ∧ t.eng = s1.eng ∧ t.vmp.clients = s1.vmp.clients) ∧
  (∀ (s s1 : State) (k : Nat) (m : List Byte), readRequest s k = (s1, some m) → exec (.requestEntryUnreadable k) s = .next s) ∧
  (∀ (s : State) (k : Nat), isNext s k = false → exec (.requestEntryUnreadable k) s = .next s) ∧
  (∀ (s s1 : State) (k : Nat) (m : List Byte) (remote : List (BitVec 16)) (answers : List MemberAnswer) (checks : List MemberCheck)
      (moved : List (Nat × List Byte)), isNext s k = true → readRequest s k = (s1, some m) → requestStatus s1 m ≠ 0 → ∀ x ∈ vmpCommands k remote answers checks moved,
    msgOpcode m = x.2 ∨ opcodeDefined (msgOpcode m) = false →
    exec x.1 s = .next (respond (if msgOpcode m = 0x01 then consume s1 k
      else renewLease (consume s1 k) (msgClient m) ((arrivalOf s k).getD 0)) k m (requestStatus s1 m) [])) ∧
  (∀ (s s1 : State) (k : Nat) (m : List Byte) (remote : List (BitVec 16)) (answers : List MemberAnswer) (checks : List MemberCheck)
      (moved : List (Nat × List Byte)),
    readRequest s k = (s1, some m) → ∀ x ∈ vmpCommands k remote answers checks moved, opcodeDefined (msgOpcode m) = true → msgOpcode m ≠ x.2 →
    exec x.1 s = .next s) ∧
  (∀ (s : State) (k : Nat) (remote : List (BitVec 16)) (answers : List MemberAnswer) (checks : List MemberCheck)
      (moved : List (Nat × List Byte)), isNext s k = false →
    ∀ x ∈ vmpCommands k remote answers checks moved, exec x.1 s = .next s) ∧
  (∀ (s : State) (m : List Byte), msgOpcode m ≠ 0x01 → msgVersion m / 16 ≠ ((clientGet s (msgClient m)).map (·.major)).getD 1 →
    requestStatus s m = 0x0100) ∧
  (∀ (s : State) (m : List Byte), msgOpcode m ≠ 0x01 → msgVersion m / 16 = 1 → clientGet s (msgClient m) = none → requestStatus s m = 0x0104) ∧
  (∀ (s : State) (m : List Byte) (c : Client), clientGet s (msgClient m) = some c → msgVersion m / 16 = c.major → opcodeDefined (msgOpcode m) = false →
    requestStatus s m = 0x0101)

/-- R410: before the device is ready eight commands are served, and every other request that passes the checks is refused with
UNIT_RECOVERING. -/
def Obligations.ServedBeforeReady : Prop :=
  (∀ (s : State) (m : List Byte), s.form.ready = false → requestStatus { s with form := { s.form with ready := true } } m = 0x0000 →
    msgOpcode m ∈ [0x01, 0x02, 0x60, 0x61, 0x40, 0x14, 0x50, 0x58] → requestStatus s m = 0x0000) ∧
  (∀ (s : State) (m : List Byte), s.form.ready = false → requestStatus { s with form := { s.form with ready := true } } m = 0x0000 →
    msgOpcode m ∉ [0x01, 0x02, 0x60, 0x61, 0x40, 0x14, 0x50, 0x58] → requestStatus s m = 0x0600)

/-- R348: the header of a message of the Warden as a client reads it back, and its 112 body bytes, zero beyond LENGTH. -/
def Obligations.MessageLayout : Prop :=
  ∀ (version opcode flags : Nat) (tag : BitVec 16) (client : BitVec 12) (status : BitVec 16) (epoch : BitVec 32) (body : List Byte),
    version < 256 → opcode < 256 → flags < 256 → body.length ≤ 112 →
    let m := buildMessage version opcode flags tag client status epoch body
    m.length = 128 ∧ msgVersion m = version ∧ msgOpcode m = opcode ∧ byteAt m 2 = flags ∧ msgLength m = body.length ∧ msgTag m = tag ∧
    msgClient m = client ∧ fieldN m 8 2 = status.toNat ∧ fieldN m 10 2 = 0 ∧ msgEpoch m = epoch.toNat ∧
    msgBody m = body ++ List.replicate (112 - body.length) 0

/-- R351, R352: HELLO with version 1 grants the lowest free client ID, with a lease from the request's arrival; BYE and the end of a lease remove
the client, and an expired lease sets LEASE_EXPIRED. -/
def Obligations.ClientLeases : Prop :=
  (∀ (s t : State) (k i : Nat) (m : List Byte), Taken s k 0x01 m t → bit (fieldN (msgBody m) 0 2) 1 = true → t.vmp.clients.length < 4096 →
    freeClient t = some i →
    ∃ u, exec (.vmpHello k) s = .next u ∧
      u.vmp.clients = t.vmp.clients ++ [{ id := BitVec.ofNat 12 i, major := 1, minor := 0, pair := k, lastStrike := (arrivalOf s k).getD (now s) }]) ∧
  (∀ (s t : State) (k : Nat) (m : List Byte), Taken s k 0x02 m t →
    ∃ u, exec (.vmpBye k) s = .next u ∧ u.vmp.clients = t.vmp.clients.filter (fun c => c.id != msgClient m) ∧
      (∀ j ∈ u.seq.jobs, ownJob u j = true → j.client = msgClient m → j.phase ≠ .queued) ∧ ∀ x ∈ u.cfg.staging, x.client ≠ msgClient m) ∧
  (∀ (s : State) (id : BitVec 12) (c : Client), clientGet s id = some c → leaseHeats s ≠ 0 → leaseEnd c.lastStrike (leaseHeats s) ≤ now s →
    ∃ u, exec (.leaseExpiry id) s = .next u ∧ u.vmp.clients = s.vmp.clients.filter (fun c => c.id != id) ∧
      stickyRaised u devKey 17) ∧
  (∀ (s : State) (id : BitVec 12) (c : Client), clientGet s id = some c → now s < leaseEnd c.lastStrike (leaseHeats s) →
    exec (.leaseExpiry id) s = .next s)

/-- R357 to R361, R52, R54: what staging, validation, a commit, a revert, a read and a forwarded commit leave. -/
def Obligations.ConfigurationRequests : Prop :=
  (∀ (s t t1 : State) (k : Nat) (m r : List Byte), Taken s k 0x10 m t →
    readRef t (fieldN (msgBody m) 0 8) (fieldN (msgBody m) 8 4) = (t1, .ok r) → recFormatOk r (fieldN (msgBody m) 8 4) = true →
    recTarget r = msgTarget m → t1.cfg.staging = [] →
    ∃ u, exec (.vmpCfgStage k) s = .next u ∧ u.cfg.staging =
      [{ client := msgClient m, target := msgTarget m, epoch := BitVec.ofNat 32 (recEpoch r), record := r, validated := false }]) ∧
  (∀ (s t : State) (k : Nat) (m : List Byte) (answers : List MemberAnswer) (st : Staged), Taken s k 0x11 m t →
    stagedCheck t m (fieldN (msgBody m) 0 4) = .ok st → (groupAnswer t st.target (validate t st.target st.record false) answers).1 = 0 →
    ∃ u, exec (.vmpCfgValidate ⟨k, answers⟩) s = .next u ∧
      u.cfg.staging = t.cfg.staging.map (fun x => if x == st then { x with validated := true } else x)) ∧
  (∀ (s t : State) (k : Nat) (m : List Byte) (answers : List MemberAnswer) (st : Staged), Taken s k 0x12 m t →
    stagedCheck t m (fieldN (msgBody m) 0 4) = .ok st → st.validated = true → (validate t st.target st.record false).1 = 0 →
    anyPending t st.target = false → commitLead t st.target ≤ fieldN (msgBody m) 8 8 →
    (groupAnswer t st.target (0, []) answers).1 = 0 →
    ∃ u c, exec (.vmpCfgCommit k answers) s = .next u ∧ u.cfg.pending = t.cfg.pending ++ [c] ∧ c.targets = [msgTarget m] ∧
      c.epoch = BitVec.ofNat 32 (fieldN (msgBody m) 0 4) ∧ c.strike = fieldN (msgBody m) 8 8 ∧ c.revert = false ∧ c.record = st.record ∧
      u.vmp.outstanding.any (fun o => o.client == msgClient m && o.tag == msgTag m) = true) ∧
  (∀ (s t : State) (k : Nat) (m : List Byte) (remote : List (BitVec 16)), Taken s k 0x13 m t →
    (targetKeys t (msgTarget m)).all (hasPrevious t) = true → anyPending t (msgTarget m) = false →
    commitLead t (msgTarget m) ≤ fieldN (msgBody m) 0 8 → groupStatus t (msgTarget m) 0 remote = 0 →
    ∃ u c, exec (.vmpCfgRevert k remote) s = .next u ∧ u.cfg.pending = t.cfg.pending ++ [c] ∧ c.targets = [msgTarget m] ∧
      c.strike = fieldN (msgBody m) 0 8 ∧ c.revert = true) ∧
  (∀ (s t : State) (k : Nat) (m : List Byte) (c : ConfigSet), Taken s k 0x14 m t →
    selectSet t (if keyLevel (msgTarget m).toNat = 5 then devKey else uidKey (msgTarget m)) (byteAt (msgBody m) 0) (byteAt (msgBody m) 1)
      (fieldN (msgBody m) 4 4) = some c → c.deviceSig.isEmpty = false →
    (setRecord c (msgTarget m) ++ c.deviceSig).length ≤ fieldN (msgBody m) 0x10 4 →
    rangeOk t isTier (fieldN (msgBody m) 8 8) (fieldN (msgBody m) 0x10 4) = true →
    exec (.vmpCfgRead k) s = .next (respond (memWrite t (fieldN (msgBody m) 8 8) (setRecord c (msgTarget m) ++ c.deviceSig)) k m 0x0000
      (leBytes 4 (setRecord c (msgTarget m) ++ c.deviceSig).length ++ leBytes 4 c.epoch.toNat))) ∧
  (∀ (s : State) (c : ForwardedCommit), (c.targets.filter (targetLocal s)).isEmpty = false → now s < c.strike →
    (c.targets.filter (targetLocal s)).any (anyPending s) = false → commitRefused s c = none →
    ∃ u x, exec (.forwardedCommitReceive c) s = .next u ∧ u.cfg.pending = s.cfg.pending ++ [x] ∧ x.targets = c.targets.filter (targetLocal s) ∧
      x.epoch = c.epoch ∧ x.strike = c.strike ∧ x.revert = c.revert ∧ x.record = c.record) ∧
  (∀ (s : State) (c : ForwardedCommit) (e : BitVec 32), (c.targets.filter (targetLocal s)).isEmpty = false → commitRefused s c = some e →
    exec (.forwardedCommitReceive c) s = .next (epochRefused s e.toNat))

/-- R53, R128, R359, R360, R55: at its strike a pending change takes effect in each unit that can apply it (a revert returns it to its previous
set), the units it does not name keep their epoch, and the running plan ends; a unit that cannot apply it keeps its epoch, is fenced, and its
readmission waits. The sets of an epoch reach flash signed. A fenced unit on the epoch it must run (its parent's; a device: its reference epoch) is
readmitted at a heat boundary, and at no other time. -/
def Obligations.ConfigurationTakesEffect : Prop :=
  (∀ (s : State) (c : PendingCommit) (u : Uid), Kept s → s.cfg.pending = [c] → c.applied = false → c.readmit = false →
    c.strike ≠ 0 → c.strike ≤ now s → c.targets = [u] → targetLocal s u = true →
    ∃ t, exec .configApply s = .next t ∧
      (∀ x ∈ targetKeys s u, unitApplies s c x = true → (unitGet t x).page.pendEpoch = 0 ∧ (unitGet t x).page.pendStrike = 0xFFFFFFFFFFFFFFFF ∧
        (c.revert = false → (unitGet t x).page.active = BitVec.ofNat 32 (recEpoch c.record)) ∧
        (c.revert = true → hasPrevious s x = true → (unitGet s x).page.active ≠ c.epoch →
          (unitGet t x).page.active = ((sparseGet [] x s.cfg.sets).getD 1 ConfigSet.empty).epoch)) ∧
      (∀ x ∈ targetKeys s u, unitApplies s c x = false → ownState s x ≠ 0 → ownState s x ≠ 4 →
        (unitGet t x).page.active = (unitGet s x).page.active ∧ (unitGet t x).flags.fenced = true ∧ stickyRaised t x 10) ∧
      (∀ x, x ∉ targetKeys s u → (unitGet t x).page.active = (unitGet s x).page.active) ∧
      (∀ j, runningJob s = some j → (∃ x ∈ targetKeys s u, unitApplies s c x = true) →
        ∃ y ∈ t.seq.jobs, y.num = j.num ∧ y.phase = .ended ∧ y.endStatus = 0x0203)) ∧
  (∀ s : State, s.cfg.pending.all (fun c => c.applied || decide (now s < c.strike)) = true → exec .configApply s = .next s) ∧
  (∀ (s : State) (epoch : BitVec 32) (k : Nat) (h : List ConfigSet), (k, h) ∈ s.cfg.sets → h.any (fun c => c.epoch == epoch && !c.inFlash) = true →
    ∃ t, exec (.configFlashWrite epoch) s = .next t ∧ (sparseGet [] k t.cfg.sets).any (fun c => c.epoch == epoch && c.inFlash) = true ∧
      t.seq = s.seq ∧ t.eng = s.eng ∧ t.tb = s.tb ∧ t.links = s.links ∧ ∀ x, (unitGet t x).page.active = (unitGet s x).page.active) ∧
  (∀ (s : State) (u : Uid) (p : Nat), Kept s → uidDevice u = s.form.device → keyLevel u.toNat < 4 → (unitGet s (uidKey u)).flags.fenced = true →
    isBoundary (now s) = true → parentKey (uidKey u) = some p → (unitGet s p).page.active = (unitGet s (uidKey u)).page.active →
    ∃ t, exec (.readmission u) s = .next t ∧ (unitGet t (uidKey u)).flags.fenced = false ∧
      (unitGet t (uidKey u)).page = (unitGet s (uidKey u)).page ∧ ∀ a, a ≠ uidKey u → unitGet t a = unitGet s a) ∧
  (∀ (s : State) (u : Uid), Kept s → uidDevice u = s.form.device → keyLevel u.toNat = 4 → uidKey u = devKey → (unitGet s devKey).flags.fenced = true →
    isBoundary (now s) = true → refEpochOf (unitGet s devKey).flags ≠ 0 → refEpochOf (unitGet s devKey).flags = (unitGet s devKey).page.active →
    s.tb.lock ≠ .slipped → s.form.listed = true → s.ident.failed = false →
    ∃ t, exec (.readmission u) s = .next t ∧ (unitGet t devKey).flags.fenced = false ∧ (unitGet t devKey).flags.refEpoch = 0 ∧
      (unitGet t devKey).page = (unitGet s devKey).page ∧ ∀ a, a ≠ devKey → unitGet t a = unitGet s a) ∧
  (∀ (s : State) (u : Uid), isBoundary (now s) = false ∨ (unitGet s (uidKey u)).flags.fenced = false → exec (.readmission u) s = .next s)

/-- R122, R354, R355: an accepted plan joins the queue; a plan that fails a check changes no job; a cancelled job leaves the queue or
gets its stop; STATUS shows the job; a new deadline replaces the old one. -/
def Obligations.JobRequests : Prop :=
  (∀ (s t t1 : State) (k : Nat) (m p : List Byte) (remote : List MemberCheck), Taken s k 0x20 m t → fieldN (msgBody m) 0 8 % 64 = 0 →
    readRef t (fieldN (msgBody m) 0 8) (fieldN (msgBody m) 8 8) = (t1, .ok p) →
    (acceptPlan t1 p (msgTarget m) (fieldN (msgBody m) 16 8) remote).isNone = true →
    ∃ u j, exec (.vmpOpSubmit k remote) s = .next u ∧ u.seq.jobs = t1.seq.jobs ++ [j] ∧ j.plan = p ∧ j.phase = .queued ∧ j.num = nextJob t1 ∧
      j.client = msgClient m ∧ j.tag = msgTag m ∧ j.accepted = now s ∧ j.deadline = fieldN (msgBody m) 16 8) ∧
  (∀ (s t t1 : State) (k : Nat) (m p : List Byte) (remote : List MemberCheck), Taken s k 0x20 m t → fieldN (msgBody m) 0 8 % 64 = 0 →
    readRef t (fieldN (msgBody m) 0 8) (fieldN (msgBody m) 8 8) = (t1, .ok p) →
    (acceptPlan t1 p (msgTarget m) (fieldN (msgBody m) 16 8) remote).isSome = true →
    ∃ u, exec (.vmpOpSubmit k remote) s = .next u ∧ u.seq.jobs = s.seq.jobs) ∧
  (∀ (s t : State) (k : Nat) (m : List Byte) (answers : List MemberAnswer) (j : Job), Taken s k 0x21 m t → touchable t k m (jobArg m) = some j →
    (groupAnswer t (plGroup j.plan) (0, []) answers).1 = 0 →
    ∃ u, exec (.vmpOpCancel ⟨k, answers⟩) s = .next u ∧
      ∀ x ∈ u.seq.jobs, x.num = jobArg m → x.phase ≠ .queued ∧ (x.phase = .running → x.stop.isSome = true)) ∧
  (∀ (s t : State) (k : Nat) (m : List Byte) (j : Job), Taken s k 0x22 m t → t.seq.jobs.find? (fun j => j.num == jobArg m) = some j →
    exec (.vmpOpStatus k) s = .next (respond t k m 0x0000 (leBytes 8 (jobState t j) ++ leBytes 8 j.startStrike ++
      leBytes 8 (match j.phase with
        | .queued => 0
        | .running => offsetNow t j
        | .ended => j.endOffset) ++ leBytes 8 j.committed ++ leBytes 8 j.holdStrikes))) ∧
  (∀ (s t : State) (k : Nat) (m : List Byte) (answers : List MemberAnswer) (j : Job), Taken s k 0x23 m t → touchable t k m (jobArg m) = some j →
    param t 0x10 ≠ 0 ∨ fieldN (msgBody m) 8 8 = 0 → (groupAnswer t (plGroup j.plan) (0, []) answers).1 = 0 →
    ∃ u, exec (.vmpOpDeadline ⟨k, answers⟩) s = .next u ∧
      ∀ x ∈ u.seq.jobs, x.num = jobArg m → x.phase ≠ .ended → x.deadline = fieldN (msgBody m) 8 8) ∧
  (∀ (s t : State) (k : Nat) (m : List Byte) (answers : List MemberAnswer) (j : Job), Taken s k 0x23 m t → touchable t k m (jobArg m) = some j →
    let g := groupAnswer t (plGroup j.plan) (if fieldN (msgBody m) 8 8 ≠ 0 ∧ param t 0x10 = 0 then 0x0200 else 0, []) answers
    g.1 ≠ 0 → exec (.vmpOpDeadline ⟨k, answers⟩) s = .next (respond t k m g.1 g.2))

/-- R217, R221, R223, R240, R198: what the table and curve commands leave when every member agrees. -/
def Obligations.TableRequests : Prop :=
  (∀ (s t t1 : State) (k : Nat) (m p : List Byte) (remote : List (BitVec 16)), Taken s k 0x30 m t → createCheck t (msgBody m) = (t1, .ok p) →
    groupStatus t1 (msgTarget m) 0 remote = 0 →
    ∃ u, exec (.vmpTableCreate k remote) s = .next u ∧ u.eng.tables = t.eng.tables ++
      [{ id := fieldN (msgBody m) 0 4, group := msgTarget m, body := slice (msgBody m) 0 0x40, versions := [], lastVersion := 0 }]) ∧
  (∀ (s t t1 : State) (k : Nat) (m p : List Byte) (remote : List (BitVec 16)) (moved : List (Nat × List Byte)), Taken s k 0x31 m t →
    loadCheck t (msgTarget m) (msgBody m) moved = (t1, .ok p) → groupStatus t1 (msgTarget m) 0 remote = 0 →
    ∃ u tb, exec (.vmpTableLoad k remote moved) s = .next u ∧ embTable u (fieldN (msgBody m) 0 4) = some tb ∧
      { loadVersion (msgBody m) with loadReq := some (k, m) } ∈ tb.versions ∧ tb.lastVersion = (loadVersion (msgBody m)).number ∧
      u.vmp.outstanding.any (fun o => o.client == msgClient m && o.tag == msgTag m) = true) ∧
  (∀ (s t t1 : State) (k : Nat) (m p : List Byte) (remote : List (BitVec 16)), Taken s k 0x32 m t →
    activateCheck t (msgTarget m) (msgBody m) = (t1, .ok p) → groupStatus t1 (msgTarget m) 0 remote = 0 →
    ∃ u, exec (.vmpTableActivate k remote) s = .next u ∧ ∀ tb ∈ u.eng.tables, tb.id = fieldN (msgBody m) 0 4 → ∀ v ∈ tb.versions,
      v.number = fieldN (msgBody m) 4 4 → v.activation = some { strike := fieldN (msgBody m) 8 8, owner := some (msgClient m, k, msgTag m) }) ∧
  (∀ (s t t1 : State) (k : Nat) (m p : List Byte) (remote : List (BitVec 16)), Taken s k 0x33 m t →
    retireCheck t (msgTarget m) (msgBody m) = (t1, .ok p) → groupStatus t1 (msgTarget m) 0 remote = 0 →
    ∃ u, exec (.vmpTableRetire k remote) s = .next u ∧ ∀ tb ∈ u.eng.tables, tb.id = fieldN (msgBody m) 0 4 →
      fieldN (msgBody m) 4 4 ≠ 0 ∧ ∀ v ∈ tb.versions, v.number = fieldN (msgBody m) 4 4 → v.state = .retired) ∧
  (∀ (s t t1 : State) (k : Nat) (m p : List Byte) (remote : List (BitVec 16)), Taken s k 0x34 m t →
    migrateCheck t (msgTarget m) (msgBody m) = (t1, .ok p) → groupStatus t1 (msgTarget m) 0 remote = 0 →
    ∃ u, exec (.vmpTableMigrate k remote) s = .next u ∧ ∀ tb ∈ u.eng.tables, tb.id = fieldN (msgBody m) 0 4 → ∀ v ∈ tb.versions,
      v.number = fieldN (msgBody m) 4 4 → ∃ g, v.migration = some g ∧ g.rows = rowList p ∧ g.dst = fieldN (msgBody m) 8 2 ∧
        g.cutover = fieldN (msgBody m) 0x20 8 ∧ g.installed = false) ∧
  (∀ (s t t1 : State) (k : Nat) (m p : List Byte) (remote : List (BitVec 16)), Taken s k 0x38 m t → byteAt (msgBody m) 4 = 0 →
    curveCheck t (msgBody m) = (t1, .ok p) → t1.eng.curves.any (fun c => c.id == fieldN (msgBody m) 0 4) = false →
    groupStatus t1 (msgTarget m) 0 remote = 0 →
    ∃ u, exec (.vmpCurveLoad k remote) s = .next u ∧
      u.eng.curves = t1.eng.curves ++ [{ id := fieldN (msgBody m) 0 4, image := p, deleting := false }])

/-- R353, R304, R356, R374: ERR_READ shows the target's registers; ERR_CLEAR clears the sticky bits of its mask; HOLD_READ shows the
accumulated hold and the four latest holds; RECOVER of a unit outside any plan is accepted and opens a partition; what TIME_READ and TOPO_READ
answer. -/
def Obligations.ErrorAndReadRequests : Prop :=
  (∀ (s t : State) (k : Nat) (m : List Byte), Taken s k 0x40 m t → fieldN (msgBody m) 0 8 = 0 →
    exec (.vmpErrRead k) s = .next (respond t k m 0x0000 (leBytes 8 (ucpRead t (msgTarget m) 0x10).toNat ++
      leBytes 8 (ucpRead t (msgTarget m) 0x18).toNat ++ leBytes 8 (ucpRead t (msgTarget m) 0x20).toNat ++
      leBytes 8 (ucpRead t (msgTarget m) 0x38).toNat ++ leBytes 8 (ucpRead t (msgTarget m) 0x100).toNat ++
      leBytes 8 (ucpRead t (msgTarget m) 0x108).toNat ++ leBytes 8 (now t)))) ∧
  (∀ (s t : State) (k : Nat) (m : List Byte), Kept t → CleanMemory t → Taken s k 0x41 m t → keyLevel (msgTarget m).toNat ≠ 5 →
    ∃ u, exec (.vmpErrClear k) s = .next u ∧ (unitGet u (uidKey (msgTarget m))).page.sticky =
      (unitGet t (uidKey (msgTarget m))).page.sticky &&& ~~~ (BitVec.ofNat 64 (fieldN (msgBody m) 0 8) &&& stickyMask)) ∧
  (∀ (s t : State) (k : Nat) (m : List Byte), Taken s k 0x48 m t → recoverableJob t = none → t.quench.outside = [] →
    (selfAndAncestors (uidKey (msgTarget m))).all (fun a => ownState t a == 1) = true →
    ∃ u p, exec (.vmpRecover k) s = .next u ∧ u.quench.outside = [p] ∧ p.uid = msgTarget m ∧ p.cause = 0xFF ∧ p.detect = now s ∧
      u.vmp.outstanding.any (fun o => o.client == msgClient m && o.tag == msgTag m) = true) ∧
  (∀ (s t : State) (k : Nat) (m : List Byte), Taken s k 0x49 m t →
    exec (.vmpHoldRead k) s = .next (respond t k m 0x0000 (leBytes 8 (holdWord t).toNat ++ leBytes 8 (boolNat (t.seq.kind == .hold)) ++
      slice (t.seq.holds.flatMap holdEntry) 0 96))) ∧
  (∀ (s t : State) (k : Nat) (m : List Byte), Taken s k 0x60 m t →
    exec (.vmpTimeRead k) s = .next (respond t k m 0x0000 (leBytes 8 (now s) ++ leBytes 8 (now s / 4096) ++
      leBytes 8 (s.seq.strike - holdWord s).toNat ++ leBytes 8 (holdWord s).toNat ++ leBytes 8 s.tb.strike0Unix.toNat ++ leBytes 8 (tbStatus s).toNat))) ∧
  (∀ (s t : State) (k : Nat) (m : List Byte), Taken s k 0x61 m t → 16 * (t.form.dx * t.form.dy * t.form.dz) ≤ fieldN (msgBody m) 8 4 →
    rangeOk t isTier (fieldN (msgBody m) 0 8) (16 * (t.form.dx * t.form.dy * t.form.dz)) = true →
    ∃ u body, exec (.vmpTopoRead k) s = .next u ∧
      u = respond (memWrite t (fieldN (msgBody m) 0 8) ((List.range (t.form.dx * t.form.dy * t.form.dz)).flatMap (topoEntry t))) k m 0x0000 body ∧
      body.take 3 = leBytes 1 t.form.dx ++ leBytes 1 t.form.dy ++ leBytes 1 t.form.dz ∧ body.length = 20)

/-- R393: the status of a staged image by what it fails; a valid image replaces the staged one; the staged image survives a unit reset and
is lost with the 48 V input. -/
def Obligations.FirmwareStaging : Prop :=
  (∀ (s : State) (img : List Byte), (imgHeaderOk img && imgBodyOk img) = false → stageImage s img = (s, 0x0702)) ∧
  (∀ (s : State) (img : List Byte), imgHeaderOk img = true → imgBodyOk img = true → (stageImage s img).2 =
    (if imgSigOk img = false then 0x0700 else if imgSvn img < s.boot.svnFloor.toNat then 0x0701 else 0x0000) ∧
    (stageImage s img).1.boot.staged = (if (stageImage s img).2 = 0 then some img else s.boot.staged)) ∧
  (∀ (s t t1 : State) (k : Nat) (m img : List Byte), Taken s k 0x58 m t → readRef t (fieldN (msgBody m) 0 8) (fieldN (msgBody m) 8 8) = (t1, .ok img) →
    exec (.vmpFwStage k) s = .next (respond (stageImage t1 img).1 k m (stageImage t1 img).2
      (if (stageImage t1 img).2 = 0 then leBytes 4 (imgSvn img) ++ leBytes 4 0 ++ (digestBytes (imgMeasure img)).take 8 else []))) ∧
  (∀ (s t : State) (u : Uid), exec (.ucpResetReq u) s = .next t → t.boot.staged = s.boot.staged) ∧
  (∀ (s t : State), s.power.state ≠ .absent → exec .brownout s = .next t → t.boot.staged = none)

/-- R394, R401: an activation waits for its strike; the new image that resumes and reads back becomes the image of flash and raises the
SVN floor; three failed read-backs lead to the rollback. An attestation writes the signed report. -/
def Obligations.FirmwareActivation : Prop :=
  (∀ (s t : State) (k : Nat) (m : List Byte), Taken s k 0x59 m t → t.boot.staged.isSome = true → isBoundary (fieldN (msgBody m) 0 8) = true →
    now t + 8192 ≤ fieldN (msgBody m) 0 8 → planLive t = false → migrating t = false → t.boot.activation = none →
    ∃ u, exec (.vmpFwActivate k) s = .next u ∧ u.boot.activation = some
      { strike := fieldN (msgBody m) 0 8, client := msgClient m, pair := k, tag := msgTag m, handedOver := false, readBacks := 0 }) ∧
  (∀ (s : State) (a : FwActivation) (img : List Byte), s.boot.activation = some a → s.boot.staged = some img → a.strike ≤ now s → a.readBacks < 3 →
    ∃ u, exec (.fwImageHandover true true) s = .next u ∧ u.boot.flashImage = img ∧ u.boot.running = img ∧ u.boot.staged = none ∧
      u.boot.activation = none ∧ u.boot.svnFloor = BitVec.ofNat 32 (Nat.max s.boot.svnFloor.toNat (imgFloor img))) ∧
  (∀ (s : State) (a : FwActivation) (img : List Byte), s.boot.activation = some a → s.boot.staged = some img → a.strike ≤ now s → a.readBacks < 3 →
    ∃ u, exec (.fwImageHandover true false) s = .next u ∧ u.boot.running = (if a.handedOver then s.boot.running else img) ∧
      u.boot.oldCopy = (if a.handedOver then s.boot.oldCopy else s.boot.running) ∧ u.boot.svnFloor = s.boot.svnFloor ∧
      u.boot.activation = some { a with handedOver := true, readBacks := a.readBacks + 1 }) ∧
  (∀ (s : State) (a : FwActivation), s.boot.activation = some a → a.handedOver = true → 3 ≤ a.readBacks →
    ∃ u, exec .fwActivateRollback s = .next u ∧ u.boot.activation = none ∧ u.boot.flashImage = s.boot.oldCopy ∧ u.boot.running = s.boot.oldCopy) ∧
  (∀ (s t : State) (k : Nat) (m : List Byte), Taken s k 0x50 m t → 608 ≤ fieldN (msgBody m) 0x28 4 →
    rangeOk t isTier (fieldN (msgBody m) 0x20 8) 608 = true → t.ident.failed = false →
    exec (.vmpAttest k) s = .next (respond (memWrite (attestReport t ((msgBody m).take 32)).1 (fieldN (msgBody m) 0x20 8)
      (attestReport t ((msgBody m).take 32)).2) k m 0x0000 (leBytes 4 608)))

/-! ### Plans, steps, engines, streams -/

/-- R112, R127, R354: the first queued plan that may start runs from this strike, or ends at once with the status that keeps it from running. A stop
that a member announces joins a running job's stop, the earlier boundary winning; from its boundary a job without activities ends with the
stop's status, also where no stop was decided and LENGTH has run; a stop boundary that comes in a hold ends the job and the hold (R367). -/
def Obligations.PlanStartsAndStops : Prop :=
  (∀ (s : State) (j : Job), firstQueued s = some j → mayStart s j = true → startStatus s j = none →
    ∃ t, exec .planStart s = .next t ∧ ∃ x ∈ t.seq.jobs, x.num = j.num ∧ x.phase = .running ∧ x.startStrike = now s ∧
      x.holdAtStart = s.seq.hold ∧ x.plan = j.plan) ∧
  (∀ (s : State) (j : Job) (st : BitVec 16), firstQueued s = some j → mayStart s j = true → startStatus s j = some st →
    ∃ t, exec .planStart s = .next t ∧ ∃ x ∈ t.seq.jobs, x.num = j.num ∧ x.phase = .ended ∧ x.endStatus = st ∧ x.acts = []) ∧
  (∀ s : State, firstQueued s = none → exec .planStart s = .next s) ∧
  (∀ (s : State) (job : Word) (status : BitVec 16) (step endStrike : Nat),
    ∃ t, exec (.planEndAnnounceReceive job status step endStrike) s = .next t ∧
      t.seq.jobs = s.seq.jobs.map (fun j => if j.num = job ∧ j.phase = .running then
        let st : Stop := { boundary := ((endStrike + 1) / 4096 + 2) * 4096, status := status, step := BitVec.ofNat 32 step }
        { j with stop := some (match j.stop with
          | none => st
          | some a => if st.boundary < a.boundary ∨ (st.boundary = a.boundary ∧ st.step.toNat < a.step.toNat) then st else a) }
      else j)) ∧
  (∀ (s : State) (j : Job) (st : Stop), runningJob s = some j → s.quench.hold = none → j.acts = [] → j.stop = some st → st.boundary ≤ now s →
    ∃ t, exec .planStop s = .next t ∧ ∃ x ∈ t.seq.jobs, x.num = j.num ∧ x.phase = .ended ∧ x.endStatus = st.status ∧ x.endStep = st.step ∧
      x.endedAt = some (now s)) ∧
  (∀ (s : State) (j : Job), runningJob s = some j → s.quench.hold = none → j.acts = [] → j.stop = none → s.seq.kind = .run →
    plLength j.plan ≤ offsetNow s j →
    ∃ t, exec .planStop s = .next t ∧ ∃ x ∈ t.seq.jobs, x.num = j.num ∧ x.phase = .ended ∧ x.endStatus = 0x0000) ∧
  (∀ (s : State) (j : Job) (st : Stop) (h : Hold), runningJob s = some j → s.quench.hold = some h → j.stop = some st → st.boundary ≤ now s →
    s.seq.kind ≠ .run →
    ∃ t, exec .planStop s = .next t ∧ t.quench.hold = none ∧ t.seq.kind = .run ∧ ∃ x ∈ t.seq.jobs, x.num = j.num ∧ x.phase = .ended ∧
      x.endStatus = st.status) ∧
  (∀ (s : State) (j : Job), runningJob s = some j → s.quench.hold = none → (j.acts ≠ [] ∨ (j.stop = none ∧ (s.seq.kind ≠ .run ∨
    offsetNow s j < plLength j.plan))) → exec .planStop s = .next s)

/-- R354, R127: the taking Warden holds each member's report; once it holds them all it posts the job's completion with the group's outcome: of the
reports that are not OK the one with the earliest stop boundary, among equals the lowest step. -/
def Obligations.JobReports : Prop :=
  (∀ (s : State) (job : Word) (member : Nat) (r : EndReport) (j : Job), jobTaker job = s.form.device → s.seq.jobs = [j] → j.num = job →
    j.completed = false → member < j.members.length →
    exec (.jobEndReport job member r) s = .next { s with seq := { s.seq with
      jobs := [{ j with reports := sparsePut member r j.reports, reportAt := now s }] } }) ∧
  (∀ (s : State) (job : Word) (j : Job), s.seq.jobs.find? (fun j => j.num == job && j.phase == .ended && !j.completed) = some j →
    jobTaker job = s.form.device → reportsComplete s j = true →
    exec (.jobComplete job) s = .next (finishJob s j)) ∧
  (∀ (s : State) (job : Word) (j : Job), s.seq.jobs.find? (fun j => j.num == job && j.phase == .ended && !j.completed) = some j →
    jobTaker job = s.form.device → reportsComplete s j = false → exec (.jobComplete job) s = .next s) ∧
  (∀ j : Job, (∀ e ∈ j.reports, e.2.status = 0) → (groupOutcome j).status = j.endStatus) ∧
  (∀ (j : Job) (e : Nat × EndReport), e ∈ j.reports → e.2.status ≠ 0 → (groupOutcome j).status ≠ 0 ∧
    ((groupOutcome j).boundary < e.2.boundary ∨
      ((groupOutcome j).boundary = e.2.boundary ∧ (groupOutcome j).step.toNat ≤ e.2.step.toNat)))

/-- R111: an activity with a result becomes visible at its occupancy's end, not before: its stores are made and it leaves the job. -/
def Obligations.ActivityResultsAppear : Prop :=
  (∀ (s : State) (r : ActRef) (j : Job) (a : Activity) (x : ActResult), runningJob s = some j → actOf j r = some a → a.result = some x →
    a.last ≤ now s →
    ∃ t, exec (.activityOccupancyEnd r) s = .next t ∧ ∀ k ∈ t.seq.jobs, k.num = j.num → actOf k r = none) ∧
  (∀ (s : State) (i : Nat) (j : Job) (a : Activity) (x : ActResult), runningJob s = some j → actOf j (.step i) = some a → a.result = some x →
    a.last ≤ now s → x.flows = [] → s.vmp.outstanding = [] → stepRecords (stepAt j.plan i) = false → CleanMemory s →
    ∃ t, exec (.activityOccupancyEnd (.step i)) s = .next t ∧ t.mem.cells = (memWriteAll (clearBad s) x.writes).mem.cells) ∧
  (∀ (s : State) (r : ActRef) (j : Job) (a : Activity), runningJob s = some j → actOf j r = some a → a.result = none ∨ now s < a.last →
    exec (.activityOccupancyEnd r) s = .next s)

/-- R111: the 26 step commands of the Array (SCAN, FILTER, COMPUTE, HASH, PARTITION, JOIN, DEDUP, EMIT, RANGE_BUCKET, RANGE_JOIN,
MASK_MATCH, STATS, NORMALISE, SELECT_ABOVE, TOPK, SORT_SEGMENT, EMB_LOOKUP, EMB_UPDATE) record the result of their operator for the step in
progress; nothing becomes visible yet. A result is held with the step unless it is UE_DATA of a word that a recovery regenerates (R308). A lookup or
update that meets records for rows of a migration whose END is out waits (R240). -/
def Obligations.StepResults : Prop :=
  (∀ (s : State) (i : Nat) (j : Job) (st : PlanStep) (peers : List (Nat × Nat)) (ups : List HardyUpset) (arr : Arrivals) (ok : Bool)
      (ps : List (List PeerStat)) (hs : List Nat) (secA secB : List SelRec),
    ∀ x ∈ stepRuns i peers ups arr ok ps hs secA secB, servedStep s i 0 x.2.1 = some (j, st) →
      (∀ m, x.2.2.1 = some m → byteAt (stepParams j.plan j.pos st) 0x30 = m) →
      let r := x.2.2.2 (clearBad s) j st (stepParams j.plan j.pos st)
      exec x.1 s = .next (setResult r.1 j (.step i) r.2)) ∧
  (∀ (s : State) (i : Nat) (j : Job) (st : PlanStep) (req : List (Nat × Nat × Nat)) (pbs : List PartialBag), servedStep s i 0 0xE = some (j, st) →
    stepWaits s i 0xE (req.map (·.2.1)) = none →
    let r := embLookupRun req pbs (clearBad s) j st (stepParams j.plan j.pos st)
    exec (.embLookup i req pbs) s = .next (setResult r.1 j (.step i) r.2)) ∧
  (∀ (s : State) (i : Nat) (j : Job) (st : PlanStep) (gs : List GradRec) (bags : List (Nat × Nat)),
    servedStep s i 0 0xF = some (j, st) → stepWaits s i 0xF (gs.map (·.row)) = none →
    let r := embUpdateRun gs bags (clearBad s) j st (stepParams j.plan j.pos st)
    exec (.embUpdate i ⟨gs, bags⟩) s = .next (setResult r.1 j (.step i) r.2)) ∧
  (∀ (s u : State) (i : Nat) (req : List (Nat × Nat × Nat)) (pbs : List PartialBag) (gs : List GradRec) (bags : List (Nat × Nat)),
    (stepWaits s i 0xE (req.map (·.2.1)) = some u → exec (.embLookup i req pbs) s = .next u) ∧
    (stepWaits s i 0xF (gs.map (·.row)) = some u → exec (.embUpdate i ⟨gs, bags⟩) s = .next u)) ∧
  (∀ (s : State) (j : Job) (r : ActRef) (a : Activity) (x : ActResult), runningJob s = some j → actOf j r = some a → x.status ≠ 0x0400 →
    HasResult (setResult s j r x) r (fun y => y = { x with used := now s + 1 - a.start })) ∧
  (∀ (s : State) (j : Job) (r : ActRef) (a : Activity) (x : ActResult), runningJob s = some j → actOf j r = some a → s.mem.badWord = none →
    s.mem.badUnit = none →
    HasResult (setResult s j r x) r (fun y => y = { x with used := now s + 1 - a.start }))

/-- R111: SCAN, COMPUTE, HASH, NORMALISE and SELECT_ABOVE change no byte of memory and no job but for the result they record, whatever
the step and its operands (but for the note of what a read failed at). -/
def Obligations.StepsWriteNothingYet : Prop :=
  ∀ (s t : State) (i : Nat) (secA secB : List SelRec) (peers : List (Nat × Nat)), CleanMemory s →
    (exec (.scanLoad i) s = .next t ∨ exec (.scanRenumber i peers) s = .next t ∨ exec (.compute i) s = .next t ∨ exec (.hash i) s = .next t ∨
      exec (.normalise i) s = .next t ∨ exec (.selectAbove i secA secB) s = .next t) →
    t.mem = { s.mem with badWord := t.mem.badWord, badUnit := t.mem.badUnit } ∧ t.seq.jobs.map (·.num) = s.seq.jobs.map (·.num) ∧ t.seq.strike = s.seq.strike ∧ t.links = s.links ∧ t.vmp = s.vmp ∧ t.cfg = s.cfg ∧
      t.tb = s.tb ∧ t.form = s.form ∧ t.power = s.power ∧ t.boot = s.boot ∧ t.therm = s.therm ∧ t.quench = s.quench ∧ t.out = s.out

/-- R74 to R76: an exact sum does not depend on how its elements are split into partial records or on their order. -/
def Obligations.ExactSums : Prop :=
  (∀ (scale : Nat) (xs ys : List FVal), (xs ++ ys).foldl (accAdd scale) Accumulator.zero =
    accJoin (xs.foldl (accAdd scale) Accumulator.zero) (ys.foldl (accAdd scale) Accumulator.zero)) ∧
  (∀ (scale : Nat) (xs ys : List FVal), xs.Perm ys →
    xs.foldl (accAdd scale) Accumulator.zero = ys.foldl (accAdd scale) Accumulator.zero)

/-- R69, R73: order keys of integers order as their values do, and no key of a float is above a NaN's. -/
def Obligations.OrderKeys : Prop :=
  (∀ (ty a b : Nat) (off : Int), isIntTy ty = true → (orderKey ty a off < orderKey ty b off ↔ intOf ty a < intOf ty b)) ∧
  (∀ (ty a b : Nat) (off : Int), isFloatTy ty = true → decodeF (fmtOf ty) b = .nan → orderKey ty a off ≤ orderKey ty b off)

/-- R207: SELECT_ABOVE keeps the first CAP elements, in ascending index, of those that are valid and pass the test, and FOUND counts them
all. -/
def Obligations.SelectAboveRow : Prop :=
  ∀ (ty : Nat) (pb : List Byte) (all : List SelRec), (all.map (·.index)).Nodup →
    let row := selectRow ty pb all
    let good (r : SelRec) : Prop := r ∈ all ∧ r.state = 0 ∧
      (if slMode pb = 0 then orderKey ty (slThresh pb) 0 < selKey ty r else orderKey ty (slThresh pb) 0 ≤ selKey ty r)
    row.entries.length = Nat.min (slCap pb) row.found ∧ row.entries.Pairwise (fun a b => a.index < b.index) ∧ (∀ r ∈ row.entries, good r) ∧
    (∀ r, good r → r ∉ row.entries → ∀ e ∈ row.entries, e.index < r.index) ∧ (row.found ≤ slCap pb → ∀ r, good r → r ∈ row.entries) ∧
    row.full = decide (slCap pb < row.found)

/-- R208 to R210: TOPK keeps the first k valid elements in rank order (key, then index), counts the elements tied with the last key that it
leaves out, and is short where fewer than k are valid. -/
def Obligations.TopkRow : Prop :=
  ∀ (ty : Nat) (pb : List Byte) (all : List SelRec), (all.map (·.index)).Nodup → 0 < slCap pb →
    let row := topkRow ty pb all
    let desc := slMode pb == 0
    let n := (all.filter (fun r => r.state == 0)).length
    row.entries.length = Nat.min (slCap pb) n ∧ row.found = Nat.min (slCap pb) n ∧ row.short = decide (n < slCap pb) ∧
    row.entries.Pairwise (fun a b => rankLt ty desc a b = true) ∧ (∀ r ∈ row.entries, r ∈ all ∧ r.state = 0) ∧
    (∀ r ∈ all, r.state = 0 → r ∉ row.entries → ∀ e ∈ row.entries, rankLt ty desc e r = true) ∧
    (slCap pb ≤ n → row.ties = (all.filter (fun r => r.state == 0 && !row.entries.contains r && selKey ty r == row.key)).length)

/-- R93, R96, R279, R282, R284, R293, R309, R310: the Swage and Crucible commands do their engine's work for the step in progress; a failed check
handover at engines of the step ends it with CHECK_MISMATCH, sets the sticky bit of each such engine's column and writes nothing; a refresh step
changes nothing but its own end. -/
def Obligations.EngineResults : Prop :=
  (∀ (s : State) (i : Nat) (j : Job) (st : PlanStep), servedStep s i 0 0x10 = some (j, st) →
    exec (.swageCopy i) s = .next (swageWork s j st)) ∧
  (∀ (s : State) (i : Nat) (j : Job) (st : PlanStep) (bad mism : List Nat), servedStep s i 0 0x11 = some (j, st) →
    (∀ e ∈ mism, e ∉ namedEngines j.plan j.pos st) →
    (byteAt (stepParams j.plan j.pos st) 0x30 = 0 → exec (.packNew i bad mism) s = .next (packNewWork (clearBad s) j st bad)) ∧
    (byteAt (stepParams j.plan j.pos st) 0x30 = 1 → exec (.packResume i bad mism) s = .next (packResumeWork (clearBad s) j st bad))) ∧
  (∀ (s : State) (i : Nat) (j : Job) (st : PlanStep) (mism : List Nat), servedStep s i 0 0x12 = some (j, st) →
    (∀ e ∈ mism, e ∉ namedEngines j.plan j.pos st) → exec (.unpack i mism) s = .next (unpackWork (clearBad s) j st)) ∧
  (∀ (s : State) (i e : Nat) (j : Job) (st : PlanStep) (bad mism : List Nat), servedStep s i 0 0x11 = some (j, st) → e ∈ mism →
    e ∈ namedEngines j.plan j.pos st →
    ∀ x ∈ [(0, Instr.packNew i bad mism), (1, .packResume i bad mism)], byteAt (stepParams j.plan j.pos st) 0x30 = x.1 →
    ∃ t, exec x.2 s = .next t ∧ t.mem = s.mem ∧ stickyRaised t (engineCol e) 9 ∧
      HasResult t (.step i) (fun x => x.status = 0x0401 ∧ x.writes = [])) ∧
  (∀ (s : State) (i e : Nat) (j : Job) (st : PlanStep) (mism : List Nat), servedStep s i 0 0x12 = some (j, st) → e ∈ mism →
    e ∈ namedEngines j.plan j.pos st →
    ∃ t, exec (.unpack i mism) s = .next t ∧ t.mem = s.mem ∧ stickyRaised t (engineCol e) 9 ∧
      HasResult t (.step i) (fun x => x.status = 0x0401 ∧ x.writes = [])) ∧
  (∀ (s : State) (i : Nat) (j : Job) (st : PlanStep), servedStep s i 2 0 = some (j, st) → st.index = i →
    ∃ t, exec (.refreshWindow i) s = .next t ∧ t.mem = s.mem ∧ t.units = s.units ∧ t.eng = s.eng ∧ t.links = s.links ∧
      HasResult t (.step i) (fun x => x.status = 0x0000 ∧ x.writes = []))

/-- R167: a rebalance gives every die in scope that holds the table the same entries in table order, in blocks whose sizes differ by at
most one. -/
def Obligations.HardyRebalances : Prop :=
  (∀ (s : State) (i d : Nat) (j : Job) (st : PlanStep) (tb : HardyTable), servedStep s i 1 0 = some (j, st) → d ∈ scopeDies s st.scope →
    tableOf (hardyGet s d) (byteAt (stepParams j.plan j.pos st) 0) = some tb →
    ∃ t, exec (.hardyRebalance i) s = .next t ∧ tableOf (hardyGet t d) (byteAt (stepParams j.plan j.pos st) 0) = some (rebalanced tb)) ∧
  (∀ tb : HardyTable, tb.blocks ≠ [] → (rebalanced tb).entries.Perm tb.entries ∧ (rebalanced tb).blocks.length = tb.blocks.length ∧
    (rebalanced tb).entries.Pairwise (fun a b => entryLt tb.kind b a = false) ∧
    ∀ a ∈ (rebalanced tb).blocks, ∀ b ∈ (rebalanced tb).blocks, a.length ≤ b.length + 1)

/-- R248, R249, R252, R258, R259, R263, R265, R310: the stream commands, over clean mapped memory where they read it. FILL gives each core, in rank
order, the gathered bytes of its transfers in the slot of the repeat's set; DRAIN scatters each core's slot through its transfers; SEND gathers its
transfers into its flow; LAND and INGEST scatter what has arrived once all of it is there (before that they change nothing); more bytes than a LAND's
transfers take end the record with OVERFLOW; an INGEST whose ring entries have not arrived ends with TIMEOUT, one with an entry outside the tiers at that
entry, and one whose handover fails with CHECK_MISMATCH, counted against the device, with nothing stored. A record that an error has
stopped on its engine moves nothing (the model's choice, log entry 75). -/
def Obligations.StreamResults : Prop :=
  (∀ (s : State) (r p : Nat) (j : Job) (h : List Byte), servedStream s r p 0 = some (j, h) → CleanMemory s → s.mem.merge = [] →
    (∀ c ∈ rankedCores s h, failedOn s j.num r (keyStack c.2) = none) →
    (let fill (k : Nat) := gatherXfers s (BitVec.ofNat 8 (strFill h)) 0 (streamXfers j.plan j.pos r p k)
     (∀ c ∈ rankedCores s h, (fill c.1).2.2 = none) →
     ∃ t, exec (.bellowsFill r p) s = .next t ∧ t.mem.cells = s.mem.cells ∧ HasResult t (.stream r p) (fun x => x.status = 0x0000 ∧
       x.elems = sumNat ((rankedCores s h).map (fun c => (fill c.1).2.1.length)) ∧
       x.writes = (rankedCores s h).flatMap (fun c => if (fill c.1).2.1.isEmpty then []
         else [(windowBase c.2 + slotBase j.plan (strSlot h) (repeatSet h p), (fill c.1).2.1)])))) ∧
  (∀ (s : State) (r p : Nat) (j : Job) (h : List Byte), servedStream s r p 1 = some (j, h) → CleanMemory s → s.mem.merge = [] →
    (∀ c ∈ rankedCores s h, failedOn s j.num r (keyStack c.2) = none ∧ (drainOne j r p h s c.1 c.2).bad = none) →
    ∃ t, exec (.bellowsDrain r p) s = .next t ∧ t.mem.cells = s.mem.cells ∧ HasResult t (.stream r p) (fun x => x.status = 0x0000 ∧
      x.elems = sumNat ((rankedCores s h).map (fun c => totalLen (streamXfers j.plan j.pos r p c.1))) ∧
      x.writes = (rankedCores s h).flatMap (fun c => (scatterXfers (streamXfers j.plan j.pos r p c.1)
        (cellsGet s.mem.cells (windowBase c.2 + slotBase j.plan (strSlot h) (repeatSet h p)) (totalLen (streamXfers j.plan j.pos r p c.1)))).1))) ∧
  (∀ (s s1 : State) (r p : Nat) (j : Job) (h bs : List Byte), servedStream s r p 2 = some (j, h) → failedOn s j.num r (keyStack (strScope h)) = none →
    gatherXfers s (BitVec.ofNat 8 (strFill h)) 0 (streamXfers j.plan j.pos r p 0) = (s1, bs, none) →
    ∃ t, exec (.bellowsSend r p) s = .next t ∧ HasResult t (.stream r p) (fun x => x.status = 0x0000 ∧ x.elems = bs.length ∧ x.writes = []) ∧
      ∀ f, flowFrom j r = some f → f.dynamic = false → ∃ k ∈ t.seq.jobs, k.num = j.num ∧
        let key := chunkKey f.index (strStart h p) 0
        sparseGet [] key k.flowOut = sparseGet [] key j.flowOut ++ bs.take f.bytes) ∧
  (∀ (s : State) (r p : Nat) (j : Job) (h bs : List Byte), servedStream s r p 3 = some (j, h) → failedOn s j.num r (keyStack (strScope h)) = none →
    let need := ((flowTo j r).map (·.bytes)).getD 0
    let data := ((flowTo j r).map (fun f => flowBytes j.flowIn f.index)).getD []
    let xs := streamXfers j.plan j.pos r p 0
    (data.length < need → exec (.bellowsLand r p bs) s = .next s) ∧
    (need ≤ data.length → xs.findIdx? (unmappedXfer s) = none → data.length ≤ totalLen xs →
      ∃ t, exec (.bellowsLand r p bs) s = .next t ∧ HasResult t (.stream r p) (fun x => x.status = 0x0000 ∧
        x.elems = data.length ∧ x.writes = (scatterXfers xs data).1)) ∧
    (need ≤ data.length → xs.findIdx? (unmappedXfer s) = none → totalLen xs < data.length →
      ∃ t, exec (.bellowsLand r p bs) s = .next t ∧ HasResult t (.stream r p) (fun x => x.status = 0x0302 ∧
        x.elems = totalLen xs ∧ x.writes = (scatterXfers xs data).1)) ∧
    (∀ i, need ≤ data.length → xs.findIdx? (unmappedXfer s) = some i →
      ∃ t, exec (.bellowsLand r p bs) s = .next t ∧ HasResult t (.stream r p) (fun x => x.status = 0x0400 ∧ x.block = i ∧
        x.writes = (scatterXfers (xs.take i) data).1))) ∧
  (∀ (s s1 : State) (r p : Nat) (j : Job) (h bs : List Byte) (xs : List Xfer), servedStream s r p 4 = some (j, h) →
    failedOn s j.num r (keyStack (strScope h)) = none →
    strForm h ≠ 2 ∨ ringArrived s j h r p (((actOf j (.stream r p)).map (·.start)).getD 0 - 1) = true → ingestXfers s j h r p = (s1, .ok xs) →
    (ingestData s1 j h r p (totalLen xs) = none → exec (.bellowsIngest r p bs true) s = .next s) ∧
    (∀ data, ingestData s1 j h r p (totalLen xs) = some data → xs.findIdx? (unmappedXfer s1) = none →
      ∃ t, exec (.bellowsIngest r p bs true) s = .next t ∧ HasResult t (.stream r p) (fun x => x.status = 0x0000 ∧
        x.elems = totalLen xs ∧ x.writes = (scatterXfers xs data).1))) ∧
  (∀ (s s1 : State) (r p i : Nat) (j : Job) (h bs : List Byte), servedStream s r p 4 = some (j, h) →
    failedOn s j.num r (keyStack (strScope h)) = none → strForm h = 2 →
    (ringArrived s j h r p (((actOf j (.stream r p)).map (·.start)).getD 0 - 1) = false →
      ∃ t, exec (.bellowsIngest r p bs true) s = .next t ∧ HasResult t (.stream r p) (fun x => x.status = 0x0500 ∧ x.writes = [])) ∧
    (ringArrived s j h r p (((actOf j (.stream r p)).map (·.start)).getD 0 - 1) = true → ingestXfers s j h r p = (s1, .error (2, i)) →
      ∃ t, exec (.bellowsIngest r p bs true) s = .next t ∧
        HasResult t (.stream r p) (fun x => x.status = 0x0400 ∧ x.block = i ∧ x.writes = []))) ∧
  (∀ (s : State) (r p : Nat) (j : Job) (h bs : List Byte), servedStream s r p 4 = some (j, h) → failedOn s j.num r (keyStack (strScope h)) = none →
    ∃ t, exec (.bellowsIngest r p bs false) s = .next t ∧ stickyRaised t devKey 9 ∧
      HasResult t (.stream r p) (fun x => x.status = 0x0401 ∧ x.elems = 0 ∧ x.writes = [])) ∧
  (∀ (s : State) (r p code : Nat) (j : Job) (h bs : List Byte) (ok : Bool), failedOn s j.num r (keyStack (strScope h)) = some code →
    ∀ x ∈ [(Instr.bellowsSend r p, 2), (.bellowsLand r p bs, 3), (.bellowsIngest r p bs ok, 4)], servedStream s r p x.2 = some (j, h) →
    ∃ t, exec x.1 s = .next t ∧ t.mem = s.mem ∧ HasResult t (.stream r p) (fun y => y.status = streamStatus code ∧ y.elems = 0 ∧ y.writes = []))

/-! ### Timebase -/

/-- R31, R32, R35, R42, R46, R397, R407: the reference inputs, and the election from the flood of candidates to the announcement and a lost master; a
device whose identity failed takes no part in it. -/
def Obligations.TimebaseReferences : Prop :=
  (∀ s : State, exec .ref10mLock s = .next { s with tb := { s.tb with refLocked := true } }) ∧
  (∀ s : State, ∃ t, exec .ref10mLoss s = .next t ∧ t.tb.refLocked = false ∧ t.tb.role = s.tb.role ∧
    (s.tb.role = .master → t.tb.masterHoldover = true) ∧ t.mem = s.mem ∧ t.units = s.units ∧ t.seq = s.seq) ∧
  (∀ (s : State) (c : Nat), s.tb.refLocked = true → 9999999 ≤ c → c ≤ 10000001 →
    ∃ t, exec (.ppsMark c true) s = .next t ∧ t.tb.ppsQualified = true ∧ t.tb.masterHoldover = false ∧ t.tb.badMarks = 0) ∧
  (∀ (s : State) (c : Nat), c < 9999999 ∨ 10000001 < c → exec (.ppsMark c true) s = exec .ppsMarkMissing s) ∧
  (∀ s : State, 1 ≤ s.tb.badMarks → ∃ t, exec .ppsMarkMissing s = .next t ∧ t.tb.ppsQualified = false ∧ t.tb.goodMarks = 0) ∧
  (∀ s : State, s.tb.badMarks = 0 → ∃ t, exec .ppsMarkMissing s = .next t ∧ t.tb.ppsQualified = s.tb.ppsQualified ∧ t.tb.badMarks = 1) ∧
  (∀ s : State, s.boot.phase = .running → s.ident.failed = false → s.tb.electionOver = false → ∃ t c, exec .candidateFlood s = .next t ∧ t.tb.best = some c ∧
    (c = ownCandidate s ∨ s.tb.best = some c) ∧ ranksAbove (ownCandidate s) c = false ∧ ∀ b, s.tb.best = some b → ranksAbove b c = false) ∧
  (∀ (s : State) (timedOut : Bool), s.boot.phase = .running → s.ident.failed = false → s.tb.electionOver = false →
    timedOut = true ∨ s.tb.pendings = [] ∧ (ownCandidate s).pending = false → s.tb.best = none →
    ∃ t, exec (.electionConclude timedOut) s = .next t ∧ t.tb.electionOver = true ∧ t.tb.role = .master ∧ t.tb.announced = some (ownCandidate s)) ∧
  (∀ (s : State) (timedOut : Bool) (b : Candidate), s.boot.phase = .running → s.ident.failed = false → s.tb.electionOver = false →
    timedOut = true ∨ s.tb.pendings = [] ∧ (ownCandidate s).pending = false → s.tb.best = some b → ranksAbove (ownCandidate s) b = false →
    b.digest ≠ s.ident.digest →
    ∃ t, exec (.electionConclude timedOut) s = .next t ∧ t.tb.electionOver = true ∧ t.tb.role = s.tb.role ∧ t.out = s.out) ∧
  (∀ (s : State) (c : Candidate), s.tb.announced = none → s.ident.failed = false → ∃ t, exec (.masterAnnouncementReceive c) s = .next t ∧
    t.tb.announced = some c ∧ t.tb.electionOver = true ∧ t.tb.role = .follower ∧ t.tb.masterDevice = BitVec.ofNat 12 c.device ∧
    t.tb.classBit = (ownCandidate s).classOne) ∧
  (∀ (s : State) (timedOut : Bool) (c : Candidate), s.ident.failed = true → exec .candidateFlood s = .next s ∧
    exec (.electionConclude timedOut) s = .next s ∧ exec (.masterAnnouncementReceive c) s = .next s) ∧
  (∀ s : State, s.tb.role ≠ .master → s.tb.strikeDefined = true → s.tb.electionOver = true → s.tb.heartbeatHeat + 3 ≤ (now s + 1) / 4096 →
    exec .masterLost s = .next { s with tb := { s.tb with electionOver := false, best := none, pendings := [], announced := none } })

/-- R34, R36, R37, R44, R45: strike 0, the first lock, a slip and the relock after it, and holdover; a device that may take no parent of at most 24
hops neither locks nor relocks, and slips after 16 heats of holdover. The strike number is the one last heard on the port, carried on to now. -/
def Obligations.StrikeLock : Prop :=
  (∀ s : State, s.tb.role = .master → s.tb.strikeDefined = false → ∃ t, exec .strikeZero s = .next t ∧ t.seq.strike = 0 ∧ t.seq.hold = 0 ∧
    t.seq.kind = .run ∧ t.tb.lock = .locked ∧ t.tb.hops = 0 ∧ t.tb.strikeDefined = true ∧ t.seq.jobs = s.seq.jobs ∧ t.mem = s.mem) ∧
  (∀ (s : State) (p : Nat) (n : Word), s.tb.lock = .unlocked ∨ s.tb.lock = .acquiring → s.tb.role ≠ .master → s.ident.failed = false → chooseParent s = some p →
    s.tb.neighbourHops.getD p 0 + 1 ≤ 24 →
    (∃ t, exec (.strikeLockAcquire false n) s = .next t ∧ t.tb.lock = .acquiring ∧ t.tb.parent = some p ∧ t.seq = s.seq) ∧
    ∃ t, exec (.strikeLockAcquire true n) s = .next t ∧ t.tb.lock = .locked ∧ t.tb.role = .follower ∧ t.tb.parent = some p ∧
      t.seq.strike = (match s.tb.slotNumber.getD p none with
        | some (m, heard) => m + (s.seq.strike - heard)
        | none => n) ∧
      t.tb.hops = BitVec.ofNat 5 (s.tb.neighbourHops.getD p 0 + 1)) ∧
  (∀ (s : State) (p : Nat) (n : Word) (l : Bool), chooseParent s = some p → 24 < s.tb.neighbourHops.getD p 0 + 1 →
    exec (.strikeLockAcquire l n) s = .next s) ∧
  (∀ s : State, s.tb.lock = .locked → s.tb.role ≠ .master → 8000 < (sint 32 s.tb.offset.toNat).natAbs →
    ∃ t, exec .strikeSlip s = .next t ∧ t.tb.lock = .slipped ∧ t.tb.hops = 0x1F ∧ (unitGet t devKey).flags.fenced = true ∧
      stickyRaised t devKey 4 ∧ counterGet t devKey 17 = satAdd (counterGet s devKey 17) 1) ∧
  (∀ s : State, (sint 32 s.tb.offset.toNat).natAbs ≤ 8000 → exec .strikeSlip s = .next s) ∧
  (∀ (s : State) (p : Nat) (n : Word), Kept s → s.tb.lock = .slipped → s.ident.failed = false → relockPort s = some p → ∃ t, exec (.strikeRelock n) s = .next t ∧
    t.tb.lock = .locked ∧ t.tb.parent = some p ∧ t.tb.hops = BitVec.ofNat 5 (s.tb.neighbourHops.getD p 0 + 1) ∧
    t.seq.strike = (match s.tb.slotNumber.getD p none with
      | some (m, heard) => m + (s.seq.strike - heard)
      | none => n) ∧
    (refEpochOf (unitGet s devKey).flags = 0 → (unitGet t devKey).flags.fenced = false) ∧
    (refEpochOf (unitGet s devKey).flags ≠ 0 → (unitGet t devKey).flags.fenced = (unitGet s devKey).flags.fenced)) ∧
  (∀ (s : State) (n : Word), (∀ q ∈ parentPorts s, 24 < s.tb.neighbourHops.getD q 0 + 1) → exec (.strikeRelock n) s = .next s) ∧
  (∀ (s : State) (p : Nat), s.tb.parent = some p → s.tb.role = .follower → portUp s p = false →
    ∃ t, exec .holdoverEnter s = .next t ∧ t.tb.role = .holdover ∧ t.tb.parent = none ∧ t.tb.lock = s.tb.lock ∧ t.units = s.units ∧ t.seq = s.seq) ∧
  (∀ (s : State) (p : Nat), s.tb.role = .holdover → s.tb.lock = .locked → chooseParent s = some p → s.tb.neighbourHops.getD p 0 + 1 ≤ 24 →
    ∃ t, exec .reparent s = .next t ∧ t.tb.role = .follower ∧ t.tb.parent = some p ∧ t.tb.lock = .locked ∧ t.units = s.units ∧ t.seq = s.seq) ∧
  (∀ s : State, s.tb.role = .holdover → s.tb.lock = .locked → (∀ q ∈ parentPorts s, 24 < s.tb.neighbourHops.getD q 0 + 1) →
    s.tb.holdoverHeats + 16 ≤ now s / 4096 →
    ∃ t, exec .holdoverTimeout s = .next t ∧ t.tb.lock = .slipped ∧ (unitGet t devKey).flags.fenced = true)

/-! ### Power, boot, formation -/

/-- R386 to R389, R392, R315: the power sequence, the loss of the 48 V input, the boot's outcome by what the image in flash fails, and recovery
boot: the first source whose bytes arrive is taken, the other ignored until that transfer fails. -/
def Obligations.PowerAndBoot : Prop :=
  (∀ s : State, s.power.state = .absent → ∃ t, exec (.powerInputValid true) s = .next t ∧ t.power.state = .sequencing ∧ t.power.attempts = 0 ∧
    t.out = s.out ++ [.rails true [1, 2, 3, 4, 5]] ∧ t.mem = s.mem) ∧
  (∀ s : State, exec (.powerInputValid false) s = .next s) ∧
  (∀ (s : State) (k : Nat), s.power.state = .sequencing → ∃ t, exec (.railPowerFailure k) s = .next t ∧ t.power.attempts = s.power.attempts + 1 ∧
    t.power.state = (if s.power.attempts < 2 then .sequencing else .failed)) ∧
  (∀ s : State, s.power.state = .sequencing → s.power.attempts ≠ 0 → exec .powerRetry s = .next (emitOut s (.rails true [1, 2, 3, 4, 5]))) ∧
  (∀ s : State, s.power.state ≠ .absent → ∃ t, exec .brownout s = .next t ∧ t.power.state = .absent ∧ t.mem = Mem.reset ∧ t.units.pages = [] ∧
    t.seq.jobs = [] ∧ t.vmp = Vmp.reset ∧ t.boot.flashImage = s.boot.flashImage ∧ t.boot.svnFloor = s.boot.svnFloor ∧ t.boot.chain = s.boot.chain ∧
    t.boot.ownerRecord = s.boot.ownerRecord ∧ t.boot.persistent = s.boot.persistent ∧ ∀ p, p < 6 → (portGet t p).bypassClosed = true) ∧
  (∀ (s : State) (key : List Byte) (ok : Bool), s.power.state = .sequencing → ∃ t, exec (.powerGood key ok) s = .next t ∧ t.power.state = .on ∧
    t.ident.digest = sha384 key ∧ match imgFailedStep s s.boot.flashImage ok with
      | some k => t.boot.phase = .recovery ∧ t.boot.failedStep = k
      | none => t.boot.phase = .running ∧ t.boot.running = s.boot.flashImage) ∧
  (∀ (s : State) (img : List Byte), s.boot.phase = .recovery → s.boot.source = none → s.boot.arriving = [] → imageWhole img = true →
    let i := img.take (256 + imgBodyBytes img)
    ∃ t, exec (.recoveryImageReceive .managementPort img) s = .next t ∧ match imgFailedStep s i true with
      | some _ => t.boot.phase = .recovery ∧ t.boot.flashImage = s.boot.flashImage ∧ t.boot.source = none
      | none => t.boot.phase = .running ∧ t.boot.flashImage = i ∧ t.boot.running = i) ∧
  (∀ (s : State) (src : RecoverySource) (part : List Byte), s.boot.phase = .recovery → part ≠ [] →
    s.boot.source = none ∧ (src = .weldNeighbour → s.boot.xPairOpen = true) → imageWhole (s.boot.arriving ++ part) = false →
    exec (.recoveryImageReceive src part) s = .next { s with boot := { s.boot with source := some src, arriving := s.boot.arriving ++ part } }) ∧
  (∀ (s : State) (src other : RecoverySource) (part : List Byte), s.boot.source = some other → src ≠ other →
    exec (.recoveryImageReceive src part) s = .next s) ∧
  (∀ s : State, s.boot.phase = .recovery → exec .recoveryTransferStall s = .next { s with boot := { s.boot with source := none, arriving := [] } }) ∧
  (∀ s : State, s.boot.phase = .recovery → s.boot.source = none → s.links.ports.length = 8 → ∃ t, exec .recoveryXPairTimer s = .next t ∧
    t.boot.xPairOpen = !s.boot.xPairOpen ∧ (portGet t 0).bypassClosed = s.boot.xPairOpen ∧ (portGet t 1).bypassClosed = s.boot.xPairOpen ∧
    ∀ p, 2 ≤ p → portGet t p = portGet s p)

/-- R291, R409, R313: what training leaves of the stacks, the columns and the far tier; the three bypasses close and open together. -/
def Obligations.TrainingAndBypass : Prop :=
  (∀ (s : State) (ok : BitVec 16) (ms : List ModuleInfo), s.boot.phase = .running → s.form.trained = false →
    ∃ t, exec (.memoryTrainingDone ok ms) s = .next t ∧ t.form.trained = true ∧ t.form.farGib = farCapacity ms ∧
      ∀ c, c < 16 → (checkerGet t c).state = (if ok.getLsbD c then .ready else .failed) ∧ (ok.getLsbD c = false → isOffline t (columnKey c) = true)) ∧
  (∀ (m : ModuleInfo) (ms : List ModuleInfo), farCapacity (m :: ms) ≠ 0 → ms.length = 15 ∧ m.gib ∈ [64, 128, 256] ∧ farCapacity (m :: ms) = 16 * m.gib ∧
    ∀ x ∈ m :: ms, x.ecc = true ∧ x.gib = m.gib ∧ x.mts = 8800 ∧ x.trained = true) ∧
  (∀ (s : State) (c : BypassCause), s.links.ports.length = 8 → bypassCauseHolds s c = true → ∃ t, exec (.bypassClose c) s = .next t ∧
    (∀ p, p < 6 → (portGet t p).bypassClosed = true) ∧ t.out = s.out ++ [.bypass true]) ∧
  (∀ (s : State) (c : BypassCause), bypassCauseHolds s c = false → exec (.bypassClose c) s = .next s) ∧
  (∀ s : State, s.links.ports.length = 8 → s.boot.phase = .running → s.ident.failed = false → s.form.listed = true →
    ∃ t, exec .bypassOpen s = .next t ∧ (∀ p, p < 6 → (portGet t p).bypassClosed = false) ∧ t.out = s.out ++ [.bypass false]) ∧
  (∀ s : State, s.ident.failed = true ∨ s.form.listed = false → exec .bypassOpen s = .next s)

/-- R404, R408 to R411, R330: the map a neighbour announces, the port reports, the formation commit and the overrides, the ready device and the
late joiner. -/
def Obligations.Formation : Prop :=
  (∀ (s : State) (m : List Byte), s.boot.phase = .running → mapValid s m = true → mapBetter s m = true → s.tb.strikeDefined = false →
    ∃ t, exec (.mapAnnounceReceive m) s = .next t ∧ t.form.map = m ∧ t.boot.storedMap = m ∧ t.form.mapVersion = fieldN m 8 4 ∧
      t.form.dx = byteAt m 0xC ∧ t.form.dy = byteAt m 0xD ∧ t.form.dz = byteAt m 0xE) ∧
  (∀ (s : State) (m : List Byte), s.boot.phase = .running → mapValid s m = true → mapBetter s m = true → s.tb.strikeDefined = true →
    s.form.lateJoiner = false → mapFillsOnly s.form.map m = false →
    exec (.mapAnnounceReceive m) s = .next { s with form := { s.form with nextMap := m } }) ∧
  (∀ (s : State) (d : Nat) (ports : Byte) (e : BitVec 32), s.tb.role = .master → d < s.form.dx * s.form.dy * s.form.dz → ports ≠ 0 →
    ∃ t, exec (.portStateReport d ports e) s = .next t ∧ sparseGet 0 d t.form.portsUp = ports ∧ sparseGet 0 d t.form.devState ≠ 0 ∧
      t.form.highestEpoch.toNat = Nat.max s.form.highestEpoch.toNat e.toNat) ∧
  (∀ s : State, s.tb.role = .master → s.tb.lock = .locked → s.form.formationCommitted = false → routesFree s = true →
    s.form.device < s.form.dx * s.form.dy * s.form.dz →
    ∃ t, exec .formationCommit s = .next t ∧ ∃ c ∈ t.cfg.pending, c.targets = [deviceUid s.form.device] ∧ c.routing = true ∧
      c.epoch = BitVec.ofNat 32 (Nat.max s.form.highestEpoch.toNat (ownHighest s) + 1) ∧ c.strike = now s + 16 + 2 * hopsTo s (presentDevices s)) ∧
  (∀ (s : State) (tables : List (Nat × List (BitVec 32))), s.tb.role = .master → s.form.formationCommitted = true →
    routesFree s = true → s.form.device < s.form.dx * s.form.dy * s.form.dz →
    ∃ t, exec (.routingOverrideCommit tables) s = .next t ∧ ∃ c ∈ t.cfg.pending, c.targets = [deviceUid s.form.device] ∧ c.routing = true ∧
      c.epoch = BitVec.ofNat 32 (ownHighest s + 1)) ∧
  (∀ s : State, s.form.ready = false → s.tb.lock = .locked → s.form.formationCommitted = true → s.form.trained = true → now s % 4096 = 0 →
    ∃ t, exec .deviceReady s = .next t ∧ t.form.ready = true ∧ sparseGet 0 s.form.device t.form.devState = 2) ∧
  (∀ (s : State) (c : Candidate) (m : List Byte), s.boot.phase = .running → s.tb.strikeDefined = false → s.ident.failed = false →
    ∃ t, exec (.lateJoin c m) s = .next t ∧ t.form.lateJoiner = true ∧ t.tb.electionOver = true ∧ t.tb.role = .follower ∧ t.tb.announced = some c ∧
      (mapValid s m = true → t.form.map = m))

/-! ### Weld -/

/-- R316, R317: the data stream of a frame gives back its header, its payload and a good CRC, for every value of every field. -/
def Obligations.FrameHeaderRoundTrip : Prop :=
  ∀ (h : FrameHdr) (payload : List Byte), h.version < 2 ^ 16 → h.kind < 2 ^ 8 → h.lane < 8 → h.epoch < 2 ^ 32 → h.step < 2 ^ 64 → h.offset < 2 ^ 48 →
    h.flow < 2 ^ 16 → h.seq < 2 ^ 32 → h.ack < 2 ^ 32 → h.nak < 2 ^ 32 → h.bytes ≤ 11264 → h.src < 2 ^ 12 → h.orig < 2 ^ 32 → payload.length = h.bytes →
    parseHdr (frameData h payload) = h ∧ ((frameData h payload).drop 48).take h.bytes = payload ∧ crcOk (frameData h payload) = true ∧
    (frameData h payload).length = 11328

/-- R318 to R322: a frame that does not decode is counted and NAKed; one of another epoch is counted and refused; a good FLOW or RESEND frame
waits and then lands in its place of the flow, unless its receive buffer or its handover fails, which makes it bad; a NAKed copy is sent again, but
not on a port whose hop takes too long; an unresolved one is lost after 64 strikes, at its sender and at its receiver. -/
def Obligations.FrameTraffic : Prop :=
  (∀ (s : State) (p l : Nat) (f : List Byte), p < 8 → (portGet s p).state = .up → laneUp (portGet s p) l = true → frameDecode f = none →
    ∃ t, exec (.weldFrameReceive p l f) s = .next t ∧ (portGet t p).framesBad = satAdd (portGet s p).framesBad 1 ∧
      seqArriving (portGet s p) l ∈ (portGet t p).badSeqs ∧ (portGet t p).waiting = (portGet s p).waiting ∧
      counterGet t devKey 21 = satAdd (counterGet s devKey 21) 1) ∧
  (∀ (s : State) (p l n : Nat) (f d : List Byte), p < 8 → (portGet s p).state = .up → laneUp (portGet s p) l = true → frameDecode f = some (d, n) →
    crcOk d = true → (parseHdr d).version = (portGet s p).major.toNat * 256 + (portGet s p).minor.toNat →
    (parseHdr d).epoch = (epochAt s (sentStrike s (portGet s p) (BitVec.ofNat 32 (parseHdr d).seq))).toNat →
    (parseHdr d).kind = 1 ∨ (parseHdr d).kind = 2 → flowCheck s (portGet s p) (parseHdr d) = true →
    ∃ t, exec (.weldFrameReceive p l f) s = .next t ∧ (portGet t p).waiting = (portGet s p).waiting ++ [(l, d)] ∧ t.units = s.units ∧ t.mem = s.mem) ∧
  (∀ (s : State) (p l n : Nat) (f d : List Byte), p < 8 → (portGet s p).state = .up → laneUp (portGet s p) l = true → frameDecode f = some (d, n) →
    crcOk d = true → (parseHdr d).version = (portGet s p).major.toNat * 256 + (portGet s p).minor.toNat →
    (parseHdr d).epoch ≠ (epochAt s (sentStrike s (portGet s p) (BitVec.ofNat 32 (parseHdr d).seq))).toNat →
    ∃ t, exec (.weldFrameReceive p l f) s = .next t ∧ (portGet t p).waiting = (portGet s p).waiting ∧
      counterGet t devKey 7 = satAdd (counterGet s devKey 7) 1 ∧
      ((unitGet s devKey).page.active.toNat < (parseHdr d).epoch → (unitGet s devKey).page.pendEpoch.toNat ≠ (parseHdr d).epoch →
        (unitGet t devKey).flags.fenced = true ∧ stickyRaised t devKey 10)) ∧
  (∀ (s : State) (p l x : Nat) (d : List Byte) (j : Job), (portGet s p).waiting.find? (fun x => x.1 == l && landDue s (parseHdr x.2)) = some (x, d) →
    runningJob s = some j →
    let h := parseHdr d
    let key := framePlace s p h.flow h.offset (origLane s j p h)
    let bytes := (d.drop 48).take h.bytes
    let runs (k : Job) : List Nat := if isRerun d then k.reruns ++ [key] else k.reruns
    let bad (t : State) : Prop := BitVec.ofNat 32 h.seq ∈ (portGet t p).badSeqs ∧ (portGet t p).framesBad = satAdd (portGet s p).framesBad 1 ∧
      t.seq = s.seq
    (∃ t, exec (.weldFrameLand p l .unreadable) s = .next t ∧ bad t) ∧
    ((flowAt j.plan h.flow).dst = j.pos →
      (∃ t, exec (.weldFrameLand p l .ok) s = .next t ∧ t.seq.jobs = s.seq.jobs.map (fun k => if k.num = j.num then
        { k with reruns := runs k, flowIn := sparseSet [] key bytes k.flowIn } else k)) ∧
      (∃ t, exec (.weldFrameLand p l .mismatch) s = .next t ∧ bad t ∧ counterGet t devKey 4 = satAdd (counterGet s devKey 4) 1 ∧
        counterGet t devKey 21 = satAdd (counterGet s devKey 21) 1 ∧ stickyRaised t devKey 9)) ∧
    ((flowAt j.plan h.flow).dst ≠ j.pos → j.carried.find? (fun c => c.2 == key) = none → ∀ x ∈ [LandCheck.ok, .mismatch],
      ∃ t, exec (.weldFrameLand p l x) s = .next t ∧
        t.seq.jobs = s.seq.jobs.map (fun k => if k.num = j.num then { k with reruns := runs k, flowOut := sparseSet [] key bytes k.flowOut } else k)) ∧
    ((flowAt j.plan h.flow).dst ≠ j.pos → (j.carried.find? (fun c => c.2 == key)).isSome = true → h.orig ≠ 0xFFFFFFFF → ∀ x ∈ [LandCheck.ok, .mismatch],
      ∃ t, exec (.weldFrameLand p l x) s = .next t ∧ t.seq.jobs = s.seq.jobs)) ∧
  (∀ (s : State) (p l : Nat) (f : SentFrame) (rest : List SentFrame), p < 8 → s.links.ports.length = 8 → resendDue (portGet s p) = f :: rest →
    (portGet s p).state = .up → laneUp (portGet s p) l = true → latExceeded s p = false → slotOwner s p l = none →
    (portGet s p).sent.any (fun x => x.seq == seqOf (portGet s p) l && x.naked.isNone) = false →
    ∃ t, exec (.weldFrameResend p l) s = .next t ∧ (portGet t p).resends = satAdd (portGet s p).resends 1 ∧
      counterGet t devKey 20 = satAdd (counterGet s devKey 20) 1 ∧ t.out.length = s.out.length + 1) ∧
  (∀ (s : State) (p l : Nat), resendDue (portGet s p) = [] ∨ (slotOwner s p l).isSome = true ∨ latExceeded s p = true →
    exec (.weldFrameResend p l) s = .next s) ∧
  (∀ (s : State) (p : Nat) (q : BitVec 32), p < 8 → s.links.ports.length = 8 → (portGet s p).badSeqs.contains q = false →
    (portGet s p).sent.any (fun f => f.seq == q && decide (f.strike + 64 ≤ (portGet s p).age)) = true →
    ∃ t, exec (.weldFrameLost p q) s = .next t ∧ (portGet t p).sent = (portGet s p).sent.filter (fun f => f.seq != q) ∧
      counterGet t devKey 22 = satAdd (counterGet s devKey 22) 1) ∧
  (∀ (s : State) (p : Nat) (q : BitVec 32), p < 8 → s.links.ports.length = 8 → (portGet s p).badSeqs.contains q = true →
    64 ≤ (seqArriving (portGet s p) 7 - q).toNat / 8 → (portGet s p).sent.any (fun f => f.seq == q) = false →
    ∃ t, exec (.weldFrameLost p q) s = .next t ∧ (portGet t p).badSeqs = (portGet s p).badSeqs.filter (· != q) ∧
      counterGet t devKey 22 = satAdd (counterGet s devKey 22) 1)

/-- R324 to R327: a DOWN lane that detects light begins to train; its training passes the steps in order, a failed one takes the lane DOWN, sides
without a common major refuse the port, and the last step brings the lane UP or refuses the port by identity or wiring; a lane goes DOWN, starts training
again, and a refused port starts afresh. -/
def Obligations.Lanes : Prop :=
  (∀ (s : State) (p l : Nat) (t : LaneTraining), weldMode s p = true → s.links.ports.length = 8 → (portGet s p).lanes.length = 8 →
    (portGet s p).steps.length = 8 → l < 8 → (portGet s p).state ≠ .refused → (portGet s p).state ≠ .disabled → mayTrain s p l = true →
    ∃ u, exec (.laneLightDetect p l t) s = .next u ∧
      ((portGet s p).lanes.getD l .down = .down → (portGet u p).lanes.getD l .down = .training ∧ (portGet u p).steps.getD l 0 = 1) ∧
      ((portGet s p).lanes.getD l .down = .training →
        (∀ x ∈ [(1, t.signalOk), (2, t.syncOk), (3, t.qualifyOk)], (portGet s p).steps.getD l 0 = x.1 →
          if x.2 then (portGet u p).lanes.getD l .down = .training ∧ (portGet u p).steps.getD l 0 = x.1 + 1
          else (portGet u p).lanes.getD l .training = .down) ∧
        ((portGet s p).steps.getD l 0 = 4 →
          if t.negotiateOk = false then (portGet u p).lanes.getD l .training = .down
          else if t.majors.getLsbD 1 = false then (portGet u p).state = .refused ∧ (portGet u p).refuse = .linkVersion ∧ stickyRaised u devKey 19
          else (portGet u p).steps.getD l 0 = 5 ∧ (portGet u p).major = 1 ∧ (portGet u p).signature.isSome = true) ∧
        ((portGet s p).steps.getD l 0 = 5 →
          match Config.chainVerify t.chain with
          | none => (portGet u p).state = .refused ∧ (portGet u p).refuse = .identity ∧ stickyRaised u devKey 18
          | some (key, _) =>
            if Config.ecdsaVerify key t.nonceDigest t.signature = false then
              (portGet u p).state = .refused ∧ (portGet u p).refuse = .identity ∧ stickyRaised u devKey 18
            else if miswired s p t = true then (portGet u p).state = .refused ∧ (portGet u p).refuse = .miswired
            else if t.delayOk = false then (portGet u p).lanes.getD l .training = .down
            else (portGet u p).state = .up ∧ laneUp (portGet u p) l = true ∧ (portGet u p).delayPs = (oneWayDelay t.times).toNat ∧
              (p < 6 → s.tb.hopDelay.length = 6 → u.tb.hopDelay.getD p 0 = BitVec.ofNat 32 (oneWayDelay t.times).toNat)))) ∧
  (∀ (s : State) (p l : Nat), weldMode s p = true → s.links.ports.length = 8 → (portGet s p).lanes.getD l .disabled = .down →
    (portGet s p).state ≠ .refused → mayTrain s p l = true →
    ∃ u, exec (.laneRetrainTimer p l) s = .next u ∧ (portGet u p).lanes.getD l .disabled = .training) ∧
  (∀ (s : State) (p l : Nat), s.links.ports.length = 8 → laneUp (portGet s p) l = true →
    ∃ u, exec (.laneDown p l) s = .next u ∧ laneUp (portGet u p) l = false ∧ (∀ i, i ≠ l → laneUp (portGet u p) i = laneUp (portGet s p) i) ∧
      stickyRaised u devKey 3 ∧ counterGet u devKey 24 = satAdd (counterGet s devKey 24) 1) ∧
  (∀ (s : State) (p : Nat), (portGet s p).state = .refused → ∃ u, exec (.laneLightLoss p) s = .next u ∧ (portGet u p).state = .down ∧
    (portGet u p).refuse = .none)

/-! ### Spur -/

/-- R335 to R337: a queue pair takes the state of QP_CMD where the change is legal and its context usable, and ERROR otherwise; each work
command sends the entry at the issue point, before its deadline, and holds it outstanding; data whose check handover mismatches is not sent, and
its entry completes with CHECK_MISMATCH. -/
def Obligations.SpurQueuePairs : Prop :=
  (∀ (s s1 : State) (p q : Nat) (c : List Byte), p < 2 → q < 2048 → s.links.spur.length = 2 → c.length = 128 → byteAt c 2 ≠ 0 → loadCtx s p q = (s1, some c) →
    (∃ t, exec (.qpCmdReset p q) s = .next t ∧ (qpGet t p q).state = .reset ∧ (qpGet t p q).ctx = c ∧ (qpGet t p q).inflight = []) ∧
    ((qpGet s p q).state = .reset → ctxOk s1 c = true → ∃ t, exec (.qpCmdInit p q) s = .next t ∧ (qpGet t p q).state = .init ∧ (qpGet t p q).ctx = c) ∧
    ((qpGet s p q).state = .init → ctxOk s1 c = true → ∃ t, exec (.qpCmdRtr p q) s = .next t ∧ (qpGet t p q).state = .rtr ∧
      (qpGet t p q).rqPsn = BitVec.ofNat 24 (fieldN c 0x30 4)) ∧
    ((qpGet s p q).state = .rtr → ctxOk s1 c = true → ∃ t, exec (.qpCmdRts p q) s = .next t ∧ (qpGet t p q).state = .rts ∧
      (qpGet t p q).sqPsn = BitVec.ofNat 24 (fieldN c 0x2C 4)) ∧
    ((qpGet s p q).state = .reset ∨ ctxOk s1 c = false → ∃ t, exec (.qpCmdRts p q) s = .next t ∧ (qpGet t p q).state = .error) ∧
    (∃ t, exec (.qpCmdError p q) s = .next t ∧ (qpGet t p q).state = .error ∧ (qpGet t p q).inflight = [])) ∧
  (∀ (s s1 s2 : State) (p q : Nat) (i : BitVec 32) (e b : List Byte), p < 2 → q < 2048 → qpKind (qpGet s p q) = 0 → issueIndex s p q = some (i, none) →
    readEntry s p q i = (s1, some e) → rcReserved e = false → bit (byteAt e 1) 1 = false ∨ readsOpen (qpGet s p q) = 0 →
    entryDeadline (qpGet s p q) e = 0 ∨ now s ≤ entryDeadline (qpGet s p q) e → rcData s1 e = (s2, some b) →
    (∀ x ∈ [(Instr.spurSend p q true, 1), (.spurSendImm p q true, 2), (.spurWrite p q true, 3), (.spurWriteImm p q true, 4)], rcOp e = x.2 →
      exec x.1 s = .next (pushInflight (rcEmit (takeEntry s2 p q none 0) p q e b) p q (newInflight (qpGet s p q) i e (rcLen e) 0))) ∧
    (∀ x ∈ [(Instr.spurSend p q false, 1), (.spurSendImm p q false, 2), (.spurWrite p q false, 3), (.spurWriteImm p q false, 4)], rcOp e = x.2 →
      exec x.1 s = .next (refuseEntry (sourceMismatch s2 (rcLocal e)) p q none i e 0x0401)) ∧
    (rcOp e = 5 → readsOpen (qpGet s p q) < 16 →
      exec (.spurRead p q) s = .next (pushInflight (rcEmit (takeEntry s2 p q none (rcLen e)) p q e b) p q (newInflight (qpGet s p q) i e (rcLen e) 0)))) ∧
  (∀ (s : State) (p q : Nat) (e b : List Byte), ∃ t, rcEmit s p q e b = t ∧ t.out = s.out ++
    [.spurFrame p q (rcOp e) (BitVec.ofNat 64 (fieldN e 0x18 8)) (fieldN e 0x14 4) (fieldN e 4 4) (if rcOp e = 5 then leBytes 4 (rcLen e) else b)]) ∧
  (∀ (s s1 : State) (p q : Nat) (i : BitVec 32) (e : List Byte), p < 2 → q < 2048 → isNvme (qpGet s p q) = true → issueIndex s p q = some (i, none) →
    readEntry s p q i = (s1, some e) → nvKnown s (qpGet s p q) e = true →
    entryDeadline (qpGet s p q) e = 0 ∨ now s ≤ entryDeadline (qpGet s p q) e →
    (nvOp e = 2 → (qpGet s p q).nvQid.any (0 < ·) = true → nvLen (qpGet s p q) e ≤ 2 ^ 20 → exec (.nvmeRead p q) s =
      .next (pushInflight (nvEmit (takeEntry s1 p q none (nvLen (qpGet s p q) e)) p q i e) p q (newInflight (qpGet s p q) i e (nvLen (qpGet s p q) e) 0))) ∧
    (∀ x ∈ [(Instr.nvmeFabricsConnect p q, isFabrics 1 e), (.nvmePropertyGet p q, isFabrics 4 e), (.nvmePropertySet p q, isFabrics 0 e),
        (.nvmeIdentify p q, nvOp e == 6), (.nvmeGetLogPage p q, nvOp e == 2 && byteAt e 40 == 1 && (qpGet s p q).nvQid == some 0), (.nvmeKeepAlive p q, nvOp e == 0x18)], x.2 = true →
      exec x.1 s = .next (pushInflight (nvEmit (takeEntry s1 p q none 0) p q i e) p q (newInflight (qpGet s p q) i e 0 0))))

/-- R335, R338, R50, R51: an answer completes its entry, one for a cancelled entry is counted and dropped; an expired ACK timer sends the oldest
entry again while retries are left; a deadline cancels; inbound READ, WRITE and SEND are served within a registered region or NAKed. -/
def Obligations.SpurAnswers : Prop :=
  (∀ (s : State) (p q : Nat) (i : BitVec 32) (f : Inflight), p < 2 → q < 2048 → s.links.spur.length = 2 →
    (qpGet s p q).inflight.find? (fun f => f.index == i) = some f → f.cancelled = false → f.deadline = 0 ∨ now s ≤ f.deadline →
    isNvme (qpGet s p q) = false → rcOp f.entry ≠ 5 → (qpGet s p q).state = .rts → ∃ t, exec (.spurResponseReceive p q i .ack) s = .next t ∧
      (qpGet t p q).inflight = (qpGet s p q).inflight.filter (fun g => g.index != f.index) ∧ (qpGet t p q).state = .rts) ∧
  (∀ (s : State) (p q : Nat) (i : BitVec 32) (f : Inflight) (r : SpurResp), p < 2 → q < 2048 →
    (qpGet s p q).inflight.find? (fun f => f.index == i) = some f → f.cancelled = true →
    ∃ t, exec (.spurResponseReceive p q i r) s = .next t ∧ counterGet t devKey 19 = satAdd (counterGet s devKey 19) 1 ∧ t.mem = s.mem ∧ t.out = s.out) ∧
  (∀ (s s1 : State) (p q : Nat) (f : Inflight) (b : List Byte), p < 2 → q < 2048 → s.links.spur.length = 2 → isNvme (qpGet s p q) = false →
    (qpGet s p q).inflight.find? (fun f => !f.cancelled) = some f → f.deadline = 0 ∨ now s ≤ f.deadline →
    f.retries < qpRetry (qpGet s p q) → rcData s f.entry = (s1, some b) →
    ∃ t, exec (.roceAckTimeout p ⟨q, true⟩) s = .next t ∧ t.out.length = s1.out.length + 1 ∧
      (qpGet t p q).inflight = (qpGet s1 p q).inflight.map (fun e => if e.index == f.index then { e with retries := e.retries + 1 } else e)) ∧
  (∀ (s : State) (p q i : Nat) (f : Inflight), p < 2 → q < 2048 → s.links.spur.length = 2 →
    (qpGet s p q).inflight.find? (fun f => f.index == BitVec.ofNat 32 i) = some f → f.cancelled = false → f.deadline ≠ 0 → f.deadline < now s →
    ∃ t, exec (.requestDeadlineTimeout (.spurEntry p q i)) s = .next t ∧ (qpGet t p q).inflight =
      (qpGet s p q).inflight.map (fun g => if g.index == BitVec.ofNat 32 i then { g with cancelled := true } else g)) ∧
  (∀ (s s1 : State) (p q rkey len : Nat) (a : Word) (r : Region) (b : List Byte), canReceive s p q = true → regionOf s p rkey a len = some r →
    readRef s a.toNat len = (s1, .ok b) →
    ∃ t, exec (.roceInboundRead p q rkey a ⟨len, true, true⟩) s = .next t ∧ t.out = s1.out ++ [.roceReply p q true 0 b]) ∧
  (∀ (s : State) (p q rkey len : Nat) (a : Word), canReceive s p q = true → regionOf s p rkey a len = none →
    exec (.roceInboundRead p q rkey a ⟨len, true, true⟩) s = .next (emitOut s (.roceReply p q false 0x62 []))) ∧
  (∀ (s : State) (p q rkey len : Nat) (a : Word) (ok : Bool), exec (.roceInboundRead p q rkey a ⟨len, false, ok⟩) s = .next s) ∧
  (∀ (s : State) (p q rkey : Nat) (a : Word) (b : List Byte) (r : Region), canReceive s p q = true → regionOf s p rkey a b.length = some r →
    r.writable = true → rangeOk s isTier a.toNat b.length = true →
    ∃ t, exec (.roceInboundWrite p q rkey a b false true true) s = .next t ∧ t.mem = (memWrite s a.toNat b).mem ∧
      t.out = s.out ++ [.roceReply p q true 0 []]) ∧
  (∀ (s : State) (p q rkey : Nat) (a : Word) (b : List Byte) (imm ok : Bool), exec (.roceInboundWrite p q rkey a b imm false ok) s = .next s) ∧
  (∀ (s : State) (p q : Nat) (b : List Byte), canReceive s p q = true → qpKind (qpGet s p q) = 3 →
    ∃ t, exec (.roceInboundSend p q b ⟨false, true⟩) s = .next t ∧
      sparseGet [] (256 + 2048 * p + q) t.vmp.remote = sparseGet [] (256 + 2048 * p + q) s.vmp.remote ++ [(now s, slice b 0 128)])

/-- R332, R334, R335, R342: congestion control of a queue pair, the frames a port answers or drops, pauses, the link and the retraining of a
mode. -/
def Obligations.EthernetPorts : Prop :=
  (∀ (s : State) (p q : Nat), p < 2 → q < 2048 → s.links.spur.length = 2 → ∃ t, exec (.cnpReceive p q) s = .next t ∧
    (qpGet t p q).rateShift = (qpGet s p q).rateShift + 1 ∧ t.mem = s.mem) ∧
  (∀ (s : State) (p q n : Nat), p < 2 → q < 2048 → s.links.spur.length = 2 → (qpGet s p q).rateShift = n + 2 → (qpGet s p q).cnpStrike + 256 ≤ now s →
    ∃ t, exec (.cnpRateRecovery p q) s = .next t ∧ (qpGet t p q).rateShift = n + 1) ∧
  (∀ (s : State) (p q : Nat), canReceive s p q = true → (qpGet s p q).cnpSent = none → ∃ t, exec (.cnpSend p q) s = .next t ∧
    t.out = s.out ++ [.cnp p q]) ∧
  (∀ (s : State) (p q n : Nat), (qpGet s p q).cnpSent = some n → now s < n + 200 → exec (.cnpSend p q) s = .next s) ∧
  (∀ (s : State) (p : Nat) (f : EthFrame), p < 2 → s.links.spur.length = 2 → (spurGet s p).mode.toNat ≤ 1 → (spurGet s p).linkUp = true →
    frameSupported s p f = false → (spurGet s p).drops ≠ 0xFFFFFFFF →
    ∃ t, exec (.ethFrameReceive p f) s = .next t ∧ (spurGet t p).drops = (spurGet s p).drops + 1 ∧ t.out = s.out) ∧
  (∀ (s : State) (p ip : Nat) (f : EthFrame) (data : List Byte), p < 2 → (spurGet s p).mode.toNat ≤ 1 → (spurGet s p).linkUp = true →
    frameSupported s p f = true → f.payload = .echoRequest ip data → ownIp s p ip = true →
    exec (.ethFrameReceive p f) s = .next (emitOut s (.ethReply p 3 data))) ∧
  (∀ (s : State) (p n : Nat) (pause : Bool), p < 2 → n < 8 → s.links.spur.length = 2 → (spurGet s p).mode.toNat ≤ 1 → bit (spurItem s p 6) n = true →
    ∃ t, exec (.pfcPauseReceive p n pause) s = .next t ∧ (spurGet t p).paused.getLsbD n = pause ∧
      ∀ i, i ≠ n → (spurGet t p).paused.getLsbD i = (spurGet s p).paused.getLsbD i) ∧
  (∀ (s : State) (p : Nat) (up : Bool), p < 2 → s.links.spur.length = 2 → (spurGet s p).mode.toNat ≤ 1 → (spurGet s p).retrainFrom = none →
    ∃ t, exec (.ethernetLinkChange p up) s = .next t ∧ (spurGet t p).linkUp = up) ∧
  (∀ (s : State) (p : Nat) (ok : Bool), p < 2 → s.links.spur.length = 2 → (spurGet s p).retrainFrom.isSome = true →
    ∃ t, exec (.spurModeRetrain p ok) s = .next t ∧ (spurGet t p).retrainFrom = none ∧ (spurGet t p).linkUp = (ok && decide ((spurGet s p).mode.toNat ≤ 1)))

/-! ### Control messages, faults, recovery -/

/-- R323, R366, R369: a control message for this device has its effect, any other goes on with its TTL less one or is dropped, and in recovery boot only the
image transfer is heard; a fault of the
device drops its unit's activities and opens a hold that rises HOLD_LEAD strikes later, and the hold begins after that strike; a notice later than its own strike ends the job with UNIT_FENCED. -/
def Obligations.MessagesAndFaults : Prop :=
  (∀ (s : State) (p : Nat) (m : CtlMsg), portUp s p = true → s.boot.phase ≠ .recovery → m.dst = s.form.device → 1 ≤ m.type → m.type ≤ 7 →
    exec (.controlMessageReceive p m) s =
      .next (hearMsg { s with links := { s.links with lastTraffic := sparseSet 0 m.src (now s / 4096) s.links.lastTraffic } } p m)) ∧
  (∀ (s : State) (p : Nat) (m : CtlMsg), portUp s p = true → s.boot.phase ≠ .recovery → m.dst ≠ s.form.device → m.dst ≠ 0xFFFF → m.ttl ≤ 1 →
    ∃ t, exec (.controlMessageReceive p m) s = .next t ∧ counterGet t devKey 23 = satAdd (counterGet s devKey 23) 1 ∧ t.out = s.out ∧
      t.links.ports = s.links.ports) ∧
  (∀ (s : State) (p r : Nat) (m : CtlMsg), portUp s p = true → s.boot.phase ≠ .recovery → m.dst ≠ s.form.device → m.dst ≠ 0xFFFF → 2 ≤ m.ttl → hubForwards s = true → routePort s m.dst = some r →
    ∃ t, exec (.controlMessageReceive p m) s = .next t ∧ t.units = s.units ∧ (s.tb.strikeDefined = true → r < 8 → s.links.ports.length = 8 →
      { m with ttl := m.ttl - 1 } ∈ (portGet t r).outgoing)) ∧
  (∀ (s : State) (p : Nat) (m : CtlMsg), s.boot.phase = .recovery → imageTransfer m = false → exec (.controlMessageReceive p m) s = .next s) ∧
  (∀ (s : State) (cause : Nat) (u : Uid) (rec : Bool) (j : Job), uidDevice u = s.form.device → faultHolds s cause (uidKey u) rec = true →
    recoverableJob s = some j → s.quench.hold = none →
    ∃ t h, exec (.faultDetect cause u rec) s = .next t ∧ t.quench.hold = some h ∧ h.job = j.num ∧ h.raise = now s + j.holdLead ∧ h.holding = false ∧
      h.first.cause = cause ∧ h.partitions = [h.first] ∧ t.quench.lastUid = u ∧ t.quench.lastCause = BitVec.ofNat 8 cause ∧
      (cause = 16 ∨ cause = 2 → stickyRaised t (uidKey u) cause) ∧
      t.seq.jobs = s.seq.jobs.map (fun k => if k.num = j.num then { k with acts := k.acts.filter (fun a =>
        !(a.uids.any (fun x => covers (uidKey u) (uidKey x)))) } else k)) ∧
  (∀ (s : State) (cause : Nat) (u : Uid) (rec : Bool), recoverableJob s = none → uidDevice u = s.form.device → faultHolds s cause (uidKey u) rec = true →
    s.quench.outside = [] →
    ∃ t p, exec (.faultDetect cause u rec) s = .next t ∧ t.quench.outside = [p] ∧ p.uid = u ∧ p.cause = cause ∧ p.detect = now s) ∧
  (∀ (s : State) (cause : Nat) (u : Uid) (rec : Bool), faultHolds s cause (uidKey u) rec = false → exec (.faultDetect cause u rec) s = .next s) ∧
  (∀ (s : State) (d : Nat) (j : Job), runningJob s = some j → recoverableJob s = some j → s.quench.hold = none → d ∈ j.members → d ≠ s.form.device →
    sparseGet 0 d s.links.lastTraffic + 3 ≤ (now s + 1) / 4096 →
    ∃ t h, exec (.memberLost d) s = .next t ∧ t.quench.hold = some h ∧ h.first.cause = 3 ∧ h.first.uid = deviceUid d) ∧
  (∀ (s : State) (d r : Nat) (u : Uid) (cause origin : Nat) (j : Job), recoverableJob s = some j → s.quench.hold = none → now s ≤ r →
    ∃ t h, exec (.holdNoticeReceive j.num d r u cause origin) s = .next t ∧ t.quench.hold = some h ∧ h.raise = r ∧ h.first.uid = u ∧ h.first.origin = origin) ∧
  (∀ (s : State) (d r : Nat) (u : Uid) (cause origin : Nat) (j : Job), recoverableJob s = some j → r < now s →
    ∃ t h, exec (.holdNoticeReceive j.num d r u cause origin) s = .next t ∧ t.quench.hold = some h ∧ h.ending = some 0x0601) ∧
  (∀ (s : State) (h : Hold) (j : Job), s.quench.hold = some h → recoverableJob s = some j → h.holding = false → h.raise ≤ now s →
    ∃ t g, exec .holdRaise s = .next t ∧ t.seq.nextKind = .hold ∧ t.quench.hold = some g ∧ g.holding = true ∧ g.holdOffset = offsetAt j (now s + 1) s.seq.hold)

/-- R373, R375, R377, R379, R383: a partition is restored or misses its bound, the replay begins HOLD_LEAD + 1 strikes after the last is restored, and
the plan resumes in the strike after the last replay strike, or ends with the fault's status in the strike after every partition is restored or has
missed its bound. -/
def Obligations.Recovery : Prop :=
  (∀ (s : State) (p : Partition), s.quench.hold = none → s.quench.outside = [p] → p.restored = none → p.requesters = [] → uidDevice p.uid = s.form.device → mayRestore s p = true →
    p.cause ≠ 4 → p.cause ≠ 10 →
    ∃ t, exec (.partitionRestore p.uid) s = .next t ∧ t.quench.outside = [] ∧ t.quench.lastOutcome = 3 ∧
      stickyRaised t (uidKey p.uid) 20 ∧ ∃ l, t.boot.persistent = l ++ [.recovery p.uid p.cause p.detect p.raised 3]) ∧
  (∀ (s : State) (h : Hold) (u : Uid), s.quench.hold = some h → h.holding = true →
    h.partitions.any (fun p => p.uid == u && p.restored.isNone && decide (p.raised + recoveryBound p < now s)) = true →
    ∃ t g, exec (.recoveryBoundMiss u) s = .next t ∧ t.quench.hold = some g ∧ g.ending = some 0x0601 ∧
      g.partitions = h.partitions.map (fun p => if p.uid == u then { p with missedBound := true } else p)) ∧
  (∀ (s : State) (h : Hold) (u : Uid) (n : Nat), s.quench.hold = some h →
    ∃ t g, exec (.restoredNoticeReceive h.job u n) s = .next t ∧ t.quench.hold = some g ∧
      ∀ p ∈ g.partitions, p.uid = u → p.cause ≠ 3 → p.restored.isSome = true) ∧
  (∀ (s : State) (h : Hold) (j : Job) (r : Nat), s.quench.hold = some h → runningJob s = some j → h.holding = true → faultStatus s h j = none → h.replayFrom = none →
    allRestored h = some r → r + j.holdLead ≤ now s →
    ∃ t g, exec .replayStart s = .next t ∧ t.quench.hold = some g ∧ g.replayFrom = some (now s + 1) ∧ g.sweepNext = holdOrigin h ∧
      (holdOrigin h < h.holdOffset → t.seq.nextKind = .replay)) ∧
  (∀ (s : State) (h : Hold), s.quench.hold = some h → h.ending = none → replayOver h = true →
    exec .planResume s = .next { s with seq := { s.seq with nextKind := .run } }) ∧
  (∀ (s : State) (h : Hold), s.quench.hold = some h → h.holding = true → s.seq.kind = .run → h.ending = none → replayOver h = true →
    (resumeHold s).quench.hold = none ∧ (resumeHold s).quench.phase = .idle ∧ (resumeHold s).quench.lastOutcome = 1 ∧
      (resumeHold s).seq.holds = (pushHold s h).seq.holds ∧ (resumeHold s).seq.jobs = s.seq.jobs) ∧
  (∀ (s : State) (h : Hold) (j : Job) (st : BitVec 16), s.quench.hold = some h → runningJob s = some j → faultStatus s h j = some st → h.holding = true →
    (∀ p ∈ h.partitions, (settledAt p).any (fun x => decide (x < now s)) = true) →
    ∃ t, exec .jobFaultEnd s = .next t ∧ t.quench.hold = none ∧ t.quench.lastOutcome = 2 ∧ t.seq.kind = .run ∧
      ∃ x ∈ t.seq.jobs, x.num = j.num ∧ x.phase = .ended ∧ x.endStatus = st ∧ x.endStep = faultStep h.first)

/-! ### Embedding tables -/

/-- R221, R230 to R232, R238 to R240: the activation of versions, the row cache's fills and decay, and a migration from its images to the end of its
forwarding window. -/
def Obligations.EmbeddingTables : Prop :=
  (∀ (s : State) (tb : EmbTable) (v : TableVersion) (a : TableActivation), s.eng.tables = [tb] → tb.versions = [v] → v.state = .loaded →
    v.activation = some a → a.strike ≤ now s → a.owner = none →
    ∃ t x y, exec .tableVersionActivation s = .next t ∧ t.eng.tables = [x] ∧ x.versions = [y] ∧ y.state = .active ∧ y.activeFrom = some a.strike ∧
      y.activation = none) ∧
  (∀ (s : State) (k : Nat), keysRise s.eng.cache → now s % 4096 = 0 → now s / 4096 % Nat.max (param s 8) 1 = 0 →
    ∃ t, exec .rowCacheDecay s = .next t ∧ cacheGet t k = decaySet (cacheGet s k) ∧ t.mem = s.mem) ∧
  (∀ (s : State) (src id n row a : Nat) (tb : EmbTable) (v : TableVersion), CleanMemory s → embTable s id = some tb → versionOf tb n = some v →
    isComposed tb.body = false → rowPlace s tb v (now s) row = (groupPos s tb.group, a) → rangeOk s isMemory a (rowStride tb.body) = true →
    exec (.rowCacheFillRequest src id n row) s =
      .next (sendTo s [memberAt s tb src] 5 (.cacheReply id n row v.gen (memRead s a (rowStride tb.body)).bytes))) ∧
  (∀ (s : State) (id n row : Nat) (img : List Byte) (tb : EmbTable) (v : TableVersion) (g : CacheTag), embTable s id = some tb → versionOf tb n = some v →
    cacheable s tb.body = true → (cacheGet s (cacheSetOf s id n row)).ways.length = 16 →
    (cacheGet s (cacheSetOf s id n row)).ghosts.find? (fun x => x.key == some (id, n, row, v.gen)) = some g →
    ∃ t, exec (.rowCacheFillReply id n row v.gen img) s = .next t ∧ g ∈ (cacheGet t (cacheSetOf s id n row)).ways ∧
      t.mem = (memWrite s (cacheAddr s (cacheSetOf s id n row) (lowestTag (cacheGet s (cacheSetOf s id n row)).ways)) (slice img 0 (rowStride tb.body))).mem) ∧
  (∀ (s : State) (id n row i : Nat) (img : List Byte) (tb : EmbTable) (v : TableVersion) (g : Migration), migrationOf s id n = some (tb, v, g) →
    g.rows.findIdx? (· == row) = some i → g.dst = groupPos s tb.group → g.held.contains row = false →
    ∃ t, exec (.migrationImageReceive id n row img) s = .next t ∧
      t.mem = (memWrite s (newSlot s tb v g i) (slice img 0 (slotBytes tb.body))).mem) ∧
  (∀ (s : State) (id n : Nat) (tb : EmbTable) (v : TableVersion) (g : Migration), migrationOf s id n = some (tb, v, g) → g.installed = false →
    g.cutover ≤ now s → v.state ≠ .retired →
    ∃ t x y, exec (.migrationCutOver id n) s = .next t ∧ embTable t id = some x ∧ versionOf x n = some y ∧ y.redirects = cutRedirects s tb v g ∧
      y.migration = some { g with installed := true }) ∧
  (∀ (s : State) (id n : Nat) (tb : EmbTable) (v : TableVersion) (g : Migration), migrationOf s id n = some (tb, v, g) → g.installed = true →
    g.endSent = false → g.src = groupPos s tb.group → updatesBefore s id n g.cutover = false →
    ∃ t x y, exec (.migrationEndSend id n) s = .next t ∧ migrationOf t id n = some (x, y, { g with endSent := true })) ∧
  (∀ (s : State) (id n : Nat) (tb : EmbTable) (v : TableVersion) (g : Migration), migrationOf s id n = some (tb, v, g) → g.dst = groupPos s tb.group →
    g.endReceived = false →
    ∃ t x y, exec (.migrationEndReceive id n) s = .next t ∧ migrationOf t id n = some (x, y, { g with endReceived := true, waits := [] })) ∧
  (∀ (s : State) (id n : Nat) (tb : EmbTable) (v : TableVersion) (g : Migration), migrationOf s id n = some (tb, v, g) → g.installed = true →
    g.cutover + 8192 ≤ now s → (g.src = groupPos s tb.group → g.endSent = true) → (g.dst = groupPos s tb.group → g.endReceived = true) →
    ∃ t, exec (.migrationForwardWindowEnd id n) s = .next t ∧ migrationOf t id n = none ∧
      (g.src = groupPos s tb.group → counterGet t devKey 27 = satAdd (counterGet s devKey 27) 1)) ∧
  (∀ (s : State) (id n : Nat) (lower higher : List (List Nat)) (dst : Word) (tb : EmbTable) (v : TableVersion), embTable s id = some tb →
    versionOf tb n = some v → param s 0xA = 1 → isComposed tb.body = false → v.damaged = false → v.state ≠ .retired → v.migration = none → lower.length = groupPos s tb.group →
    let served := servedBy s lower higher
    let rows := autoRows s tb v
    hotMember (param s 0xB) served (groupPos s tb.group) = true → rows ≠ [] → rowsMovable s tb v (coolestMember served) dst.toNat rows = true →
    ∃ t x y g, exec (.autoMigration id n lower higher dst) s = .next t ∧ migrationOf t id n = some (x, y, g) ∧ g.rows = rows ∧
      g.dst = coolestMember served ∧ g.cutover = nextBoundary (now s + 16384))

/-! ### Thermal and management -/

/-- R422, R423, R419, R306: a sample stops engines and sets THERMAL at its thresholds, a trip cuts the power; PENDING_RATE returns after 1,024 cool heats;
a metric report restarts its maxima; a checker takes FLIP_HI. -/
def Obligations.ThermalAndTelemetry : Prop :=
  (∀ (s : State) (ts : List (BitVec 16)) (inl out : BitVec 16), s.power.state = .on → ts.length = 116 →
    (∀ i, i < 116 → temp16 (ts.getD i 0) ≤ (dieThresholds i).trip) →
    ∃ t, exec (.thermalSample ts inl out) s = .next t ∧ t.therm.temps = ts ∧ t.therm.inlet = inl ∧ t.therm.outlet = out ∧
      (∀ d, d < 80 → t.therm.stopped.getD d false = (decide (1760 < temp16 (ts.getD d 0)) ||
        (s.therm.stopped.getD d false && decide (1600 < temp16 (ts.getD d 0))))) ∧
      (∀ d, d < 80 → 1520 < temp16 (ts.getD d 0) → s.therm.sampled = false → stickyRaised t (dieKey d) 5) ∧
      ((∃ d, d < 80 ∧ 1600 < temp16 (ts.getD d 0)) → t.therm.pendingRate = 1) ∧ t.mem = s.mem ∧ t.seq = s.seq) ∧
  (∀ (s : State) (ts : List (BitVec 16)) (inl out : BitVec 16) (i : Nat), s.power.state = .on → ts.length = 116 → i < 116 →
    (dieThresholds i).trip < temp16 (ts.getD i 0) →
    ∃ t, exec (.thermalSample ts inl out) s = .next t ∧ t.power.state = .tripped ∧ t.mem = Mem.reset ∧ t.boot.flashImage = s.boot.flashImage) ∧
  (∀ s : State, s.therm.pendingRate = 1 → s.therm.coolFrom + 4194304 ≤ now s + 1 →
    exec .pendingRateFull s = .next { s with therm := { s.therm with pendingRate := 0 } }) ∧
  (∀ s : State, now s + 1 < s.therm.coolFrom + 4194304 → exec .pendingRateFull s = .next s) ∧
  (∀ (s : State) (p : PowerSample), s.boot.phase = .running → s.tb.strikeDefined = true → now s % 4194304 = 0 → s.mgmt.lastReport = none →
    ∃ t, exec (.metricReport p) s = .next t ∧ t.mgmt.lastReport = some (now s / 4096, s.therm.temps) ∧ t.tb.maxOffset = 0 ∧
      s.out.length < t.out.length ∧ t.therm.vin = p.vin ∧ t.mem = s.mem ∧ t.units = s.units) ∧
  (∀ (s : State) (who : Requester) (a v : Word), isChecker s a.toNat = true →
    exec (.checkerFlipArm who a v) s = .next (regWrite s who (a.toNat + 0x30) v)) ∧
  (∀ (s : State) (a v : Word), isChecker s a.toNat = false → exec (.checkerFlipArm .hearth a v) s = .next (emitOut s (.hearthFault a)))

/-- R399, R400, R413 to R418: the addresses of the management port, the Redfish reads and subscription, the Plovern actions, the console, and SPDM in its order. -/
def Obligations.ManagementPort : Prop :=
  (∀ (s : State) (ip : Nat), s.power.state ≠ .absent → exec (.managementFrameReceive (.dhcpLease ip)) s =
    .next { s with mgmt := { s.mgmt with ipv4 := ip, linkLocal := false } }) ∧
  (∀ (s : State) (ip : Nat), s.power.state ≠ .absent → s.mgmt.ipv4 = 0 → ip / 65536 = 0xA9FE → exec (.dhcpLinkLocalFallback ip) s =
    .next { s with mgmt := { s.mgmt with ipv4 := ip, linkLocal := true } }) ∧
  (∀ (s : State) (p : RedfishPath) (auth : AuthKey), s.boot.phase = .running → admitted s auth = true → p ≠ .unknown →
    exec (.redfishGet p .get auth) s = .next (emitOut s (.http 200 (resourceBytes s p)))) ∧
  (∀ (s : State) (p : RedfishPath) (m : HttpMethod) (auth : AuthKey), s.boot.phase = .running → admitted s auth = false →
    exec (.redfishGet p m auth) s = .next { s with boot := { s.boot with persistent := s.boot.persistent ++ [.authRefused] } }) ∧
  (∀ (s : State) (auth : AuthKey), s.boot.phase = .running → admitted s auth = true → ∃ t, exec (.redfishEventSubscribe auth) s = .next t ∧
    t.mgmt.subscribers = s.mgmt.subscribers + 1) ∧
  (∀ (s : State) (m : List Byte) (auth : AuthKey), s.boot.phase = .running → isOwner s auth = true → m.length = 128 →
    exec (.plovernVmp m auth) s = .next (placeRequest s m)) ∧
  (∀ (s : State) (r : List Byte) (auth : AuthKey), s.boot.phase = .running → hasOwner s = false → ownerRecordOk s r = true → byteAt r 0xC ≠ 0 →
    ∃ t, exec (.plovernOwnerRecord r auth) s = .next t ∧ t.boot.ownerRecord = r) ∧
  (∀ (s : State) (r : List Byte) (auth : AuthKey), s.boot.phase = .running → hasOwner s = false → ownerRecordOk s r = false →
    ∃ t, exec (.plovernOwnerRecord r auth) s = .next t ∧ t.boot.ownerRecord = s.boot.ownerRecord ∧ stickyRaised t devKey 18) ∧
  (∀ (s : State) (m : List Byte) (auth : AuthKey), s.boot.phase = .running → isOwner s auth = true → mapValid s m = true →
    ∃ t, exec (.plovernSystemMap m auth) s = .next t ∧ (t.form.map = m ∨ t.form.nextMap = m)) ∧
  (∀ (s : State) (auth : AuthKey), s.boot.phase = .running → isOwner s auth = true → planLive s = false → ∃ t, exec (.plovernCheckerTest auth) s = .next t ∧
    (∃ l : List Bool, l.length = (runningCheckers s).length ∧
      t.boot.persistent = s.boot.persistent ++ (runningCheckers s).zipWith (fun c ok => LogRecord.checkerTest c ok) l) ∧ t.mem = s.mem) ∧
  (∀ (s : State) (img : List Byte) (auth : AuthKey), s.boot.phase = .running → isOwner s auth = true → ∃ t, exec (.updateServicePush img auth) s = .next t ∧
    t.boot.staged = (stageImage s img).1.boot.staged) ∧
  (∀ (s : State) (auth : AuthKey), s.boot.phase = .running → isOwner s auth = true → s.boot.staged.isSome = true → planLive s = false → migrating s = false →
    s.boot.activation = none → ∃ t a, exec (.updateServiceStartUpdate auth) s = .next t ∧ t.boot.activation = some a ∧
      a.strike = nextBoundary (now s + 16384)) ∧
  (∀ (s : State) (auth : AuthKey), s.boot.phase = .running → admitted s auth = true → ∃ t, exec (.sshConsoleConnect auth) s = .next t ∧
    t.mgmt.consoles = s.mgmt.consoles + 1) ∧
  (∀ s : State, s.power.powerGood = true → ∃ t, exec .spdmGetVersion s = .next t ∧ t.mgmt.spdmVersion = true ∧ t.mgmt.spdmAlgs = false ∧
    t.out = s.out ++ [.spdm 0x04 [0x12]]) ∧
  (∀ s : State, s.power.powerGood = true → s.mgmt.spdmVersion = true → ∃ t, exec .spdmGetCapabilities s = .next t ∧ t.mgmt.spdmCaps = true) ∧
  (∀ s : State, s.power.powerGood = true → s.mgmt.spdmCaps = true → ∃ t, exec (.spdmNegotiateAlgorithms true true) s = .next t ∧ t.mgmt.spdmAlgs = true) ∧
  (∀ s : State, s.power.powerGood = true → s.mgmt.spdmAlgs = true →
    exec (.spdmGetDigests 0) s = .next (emitOut s (.spdm 0x01 (digestBytes (sha384 s.boot.chain)))) ∧
    (∀ o n, o ≤ s.boot.chain.length → exec (.spdmGetCertificate 0 o n) s = .next (emitOut s (.spdm 0x02 ((s.boot.chain.drop o).take n))))) ∧
  (∀ (s : State) (nonce : List Byte), s.power.powerGood = true → s.mgmt.spdmAlgs = true → s.ident.failed = false →
    ∃ t u, exec (.spdmChallenge 0 nonce) s = .next t ∧ exec (.spdmGetMeasurements nonce) s = .next u ∧ t.ident.signatures = s.ident.signatures + 1 ∧
      u.ident.signatures = s.ident.signatures + 1 ∧ t.out.length = s.out.length + 1 ∧ u.out.length = s.out.length + 1)

/-! ### Frames -/

/-- The commands of the timebase and of the reference inputs change nothing of memory, plans, configuration, clients, engines, firmware or holds. -/
def Obligations.TimebaseFrame : Prop :=
  ∀ (s t : State) (c : Instr), ((∃ e, c = .masterAnnouncementReceive e) ∨ (∃ n l, c = .ppsMark n l) ∨ (∃ l n, c = .strikeLockAcquire l n) ∨
      (∃ n, c = .strikeRelock n) ∨ (∃ b, c = .electionConclude b) ∨ c ∈ [Instr.ref10mLock, .ref10mLoss, .ppsMarkMissing, .candidateFlood, .strikeZero,
        .strikeSlip, .holdoverEnter, .reparent, .holdoverTimeout, .masterLost]) → exec c s = .next t →
    t.mem = s.mem ∧ t.seq.jobs = s.seq.jobs ∧ t.cfg = s.cfg ∧ t.vmp = s.vmp ∧ t.eng = s.eng ∧ t.boot = s.boot ∧ t.quench = s.quench ∧ t.form = s.form ∧
    t.power = s.power ∧ t.therm = s.therm ∧ t.mgmt = s.mgmt ∧ t.ident = s.ident ∧ t.free = s.free ∧
    ∀ k, k ≠ devKey → unitGet t k = unitGet s k

/-- A request that only reads (TIME_READ, OP_STATUS, HOLD_READ, ERR_READ without a DEST), taken from one of the 256 ring pairs of an ordinary client, changes of memory only the 128 bytes of
the response slot at the pair's TAIL, and of the other stores none. -/
def Obligations.ResponseFrame : Prop :=
  ∀ (s u t : State) (k op : Nat) (m : List Byte) (c : Instr), CleanMemory s → 0 < k → k < 256 → (pairGet s k).respBase.toNat % 8 = 0 →
    Taken s k op m t → (op = 0x40 → fieldN (msgBody m) 0 8 = 0) →
    (c, op) ∈ [(Instr.vmpTimeRead k, 0x60), (.vmpOpStatus k, 0x22), (.vmpHoldRead k, 0x49), (.vmpErrRead k, 0x40)] → exec c s = .next u →
    let slot := (pairGet s k).respBase.toNat + 128 * ((pairGet s k).respTail.toNat % 2 ^ (pairGet s k).respLog2.toNat)
    (∀ a, a < slot ∨ slot + 128 ≤ a → cellGet a u.mem.cells = cellGet a s.mem.cells) ∧ u.seq = s.seq ∧ u.cfg = s.cfg ∧ u.eng = s.eng ∧
      u.tb = s.tb ∧ u.form = s.form ∧ u.links = s.links ∧ u.quench = s.quench ∧ u.out = s.out ∧
      (pairGet u k).respTail = (pairGet s k).respTail + 1 ∧ (pairGet u k).reqHead = (pairGet s k).reqHead + 1

end
end

