-- ==== Sys2Proof/Laws/Frame.lean ====
section
/-!
SUPPORT. A Weld frame without errors decodes to the data stream it was built from, and a CRC register at zero stays there over zero bytes.
-/
namespace Sys2Proof.Laws

open Sys2Proof.Machine

theorem byteAt_append_left {a b : List Byte} {i : Nat} (h : i < a.length) : byteAt (a ++ b) i = byteAt a i := by
  simp [byteAt, List.getElem?_append_left h]

theorem byteAt_append_right {a b : List Byte} {i : Nat} (h : a.length ≤ i) : byteAt (a ++ b) i = byteAt b (i - a.length) := by
  simp [byteAt, List.getElem?_append_right h]

theorem byteAt_replicate (n i : Nat) : byteAt (List.replicate n 0) i = 0 := by
  simp only [byteAt, List.getD_eq_getElem?_getD, List.getElem?_replicate]
  split <;> rfl

theorem byteAt_ofNat (l : List Nat) {i : Nat} (h : ∀ x ∈ l, x < 256) : byteAt (l.map (BitVec.ofNat 8)) i = l.getD i 0 := by
  simp only [byteAt, List.getD_eq_getElem?_getD, List.getElem?_map]
  cases hx : l[i]? with
  | none => rfl
  | some x => simpa using h x (List.mem_of_getElem? hx)

/-- Symbol j of the c-th of 64 parities stands at byte 64 j + c of the interleaved parity bytes. -/
theorem byteAt_interleave (f : Nat → Nat → Byte) {j c : Nat} (hj : j < 18) (hc : c < 64) :
    byteAt ((List.range 18).flatMap (fun j => (List.range 64).map (f j))) (64 * j + c) = (f j c).toNat := by
  have hn : ∀ n a, a < n → byteAt ((List.range n).flatMap (fun j => (List.range 64).map (f j))) (64 * a + c) = (f a c).toNat := by
    intro n
    induction n with
    | zero => intro a h; omega
    | succ n ih =>
      intro a h
      have hl : ((List.range n).flatMap (fun j => (List.range 64).map (f j))).length = 64 * n := by
        simp [List.length_flatMap, Nat.mul_comm]
      rw [show List.range (n + 1) = List.range n ++ [n] from List.range_succ, List.flatMap_append]
      by_cases ha : a < n
      · rw [byteAt_append_left (by rw [hl]; omega)]; exact ih a ha
      · obtain rfl : a = n := by omega
        rw [byteAt_append_right (by rw [hl]; omega), hl, Nat.add_sub_cancel_left]
        simp [byteAt, hc]
  exact hn 18 j hj

/-- A frame of a data stream with given parities. -/
def frameWith (par : Nat → List Nat) (d : List Byte) : List Byte :=
  frameSync ++ d ++ (List.range 18).flatMap (fun j => (List.range 64).map (fun c => BitVec.ofNat 8 ((par c).getD j 0)))

theorem frameEncode_eq (d : List Byte) : frameEncode d = frameWith (fun c => rsParity (codeword d c)) d := by
  simp only [frameEncode, frameWith, List.map_map, Function.comp_def]

/-- Codeword c with its 18 parity symbols checks. -/
def CodewordOk (par : Nat → List Nat) (d : List Byte) (c : Nat) : Prop :=
  (par c).length = 18 ∧ (∀ x ∈ par c, x < 256) ∧ rsDecode (codeword d c ++ par c) = some (codeword d c ++ par c, 0)

theorem map_range_eq {α : Type} {d : List α} {g : Nat → α} {n : Nat} (hl : d.length = n) (h : ∀ i (hi : i < d.length), g i = d[i]) : (List.range n).map g = d := by
  subst hl
  exact List.ext_getElem (by simp) (fun i h1 h2 => by simpa using h i h2)

/-- The 195 symbols a receiver collects for codeword c. -/
theorem frame_codeword {par : Nat → List Nat} {d : List Byte} {c : Nat} (hl : d.length = 11328) (hc : c < 64) (hp : (par c).length = 18 ∧ ∀ x ∈ par c, x < 256) :
    (List.range 177).map (fun i => byteAt (frameWith par d) (20 + 64 * i + c)) ++
      (List.range 18).map (fun j => byteAt (frameWith par d) (11348 + 64 * j + c)) = codeword d c ++ par c := by
  have hq : frameSync.length = 20 := rfl
  have hs : (frameSync ++ d).length = 11348 := by rw [List.length_append, hl, hq]
  refine congrArg₂ (· ++ ·) ?_ ?_
  · rw [codeword]
    refine List.map_congr_left (fun i hi => ?_)
    have hi := List.mem_range.1 hi
    have h1 : byteAt (frameSync ++ d) (20 + 64 * i + c) = byteAt d (20 + 64 * i + c - frameSync.length) := byteAt_append_right (by omega)
    have h2 : 20 + 64 * i + c - frameSync.length = 64 * i + c := by omega
    rw [frameWith, byteAt_append_left (by rw [hs]; omega), h1, h2]
  · have e : ∀ j, j < 18 → byteAt (frameWith par d) (11348 + 64 * j + c) = (par c).getD j 0 := by
      intro j hj
      have h3 := byteAt_interleave (fun j c => BitVec.ofNat 8 ((par c).getD j 0)) hj hc
      rw [frameWith, byteAt_append_right (by rw [hs]; omega), hs]
      rw [show 11348 + 64 * j + c - 11348 = 64 * j + c by omega, h3, BitVec.toNat_ofNat, Nat.mod_eq_of_lt]
      rw [List.getD_eq_getElem?_getD, List.getElem?_eq_getElem (by rw [hp.1]; exact hj)]
      exact hp.2 _ (List.getElem_mem _)
    refine List.ext_getElem (by simp [hp.1]) (fun j h1 h2 => ?_)
    simp only [List.getElem_map, List.getElem_range]
    rw [e j (by simpa using h1), List.getD_eq_getElem?_getD, List.getElem?_eq_getElem h2]
    rfl

/-- A frame whose codeword 0 does not decode is lost. -/
theorem frameDecode_none {par : Nat → List Nat} {d : List Byte} (hl : d.length = 11328) (hp : (par 0).length = 18 ∧ ∀ x ∈ par 0, x < 256)
    (h : rsDecode (codeword d 0 ++ par 0) = none) : frameDecode (frameWith par d) = none := by
  unfold frameDecode
  have h0 := frame_codeword hl (by omega) hp
  simp only
  rw [if_pos]
  refine List.any_eq_true.2 ⟨none, List.mem_map.2 ⟨0, List.mem_range.2 (by omega), ?_⟩, rfl⟩
  rw [h0, h]

theorem frameDecode_with {par : Nat → List Nat} {d : List Byte} (hl : d.length = 11328) (h : ∀ c, c < 64 → CodewordOk par d c) :
    frameDecode (frameWith par d) = some (d, 0) := by
  have hcws : (List.range 64).map (fun c => rsDecode ((List.range 177).map (fun i => byteAt (frameWith par d) (20 + 64 * i + c)) ++
      (List.range 18).map (fun j => byteAt (frameWith par d) (11348 + 64 * j + c)))) =
      (List.range 64).map (fun c => some (codeword d c ++ par c, 0)) := by
    refine List.map_congr_left (fun c hc => ?_)
    have hw := h c (List.mem_range.1 hc)
    rw [frame_codeword hl (List.mem_range.1 hc) ⟨hw.1, hw.2.1⟩, (h c (List.mem_range.1 hc)).2.2]
  unfold frameDecode
  rw [hcws]
  have hany : ((List.range 64).map (fun c => some (codeword d c ++ par c, 0))).any (·.isNone) = false := by
    simp [List.any_eq_false]
  have hok : ((List.range 64).map (fun c => some (codeword d c ++ par c, 0))).filterMap id =
      (List.range 64).map (fun c => (codeword d c ++ par c, 0)) := by
    rw [List.filterMap_map, ← List.filterMap_eq_map]
    rfl
  simp only [hany, hok, Bool.false_eq_true, if_false]
  have h0 : sumNat (((List.range 64).map (fun c => (codeword d c ++ par c, 0))).map (·.2)) = 0 := by
    rw [List.map_map]; rfl
  rw [h0, map_range_eq hl]
  intro i hi
  have hm : i % 64 < 64 := Nat.mod_lt _ (by omega)
  have hd : i / 64 < 177 := by omega
  have hlen : (codeword d (i % 64)).length = 177 := by rw [codeword, List.length_map, List.length_range]
  rw [List.getD_eq_getElem?_getD, List.getD_eq_getElem?_getD, List.getElem?_map, List.getElem?_range hm, Option.map_some, Option.getD_some,
    List.getElem?_append_left (by rw [hlen]; exact hd), codeword, List.getElem?_map, List.getElem?_range hd, Option.map_some, Option.getD_some,
    Nat.div_add_mod, byteAt, List.getD_eq_getElem?_getD, List.getElem?_eq_getElem hi, Option.getD_some, BitVec.ofNat_toNat, BitVec.setWidth_eq]

theorem crc_zeros (n : Nat) : (List.replicate n (0 : Byte)).foldl crc64Byte 0 = 0 := by
  induction n with
  | zero => rfl
  | succ n ih => rw [List.replicate_succ, List.foldl_cons]; exact ih

end Sys2Proof.Laws
end

