-- ==== Sys2Proof/Laws/Sparse.lean ====
section
/-!
SUPPORT. Sparse maps: what a read gives after a write or an erase, and that both keep the keys rising and the canonical form.
-/
namespace Sys2Proof.Laws

open Sys2Proof.Machine

variable {α : Type}

/-- Keys strictly rise. -/
abbrev Rises (l : Sparse α) : Prop := (l.map (·.1)).Pairwise (· < ·)

theorem rises_cons {k : Nat} {v : α} {l : Sparse α} : Rises ((k, v) :: l) ↔ (∀ e ∈ l, k < e.1) ∧ Rises l := by
  simp [Rises]

theorem sparseGet_of_lt {d : α} {k : Nat} : ∀ {l : Sparse α}, (∀ e ∈ l, k < e.1) → sparseGet d k l = d
  | [], _ => rfl
  | (k', v) :: l, h => by
    have h1 : k < k' := h (k', v) (by simp)
    simp only [sparseGet, if_neg (show k' ≠ k by omega)]
    exact sparseGet_of_lt (fun e he => h e (by simp [he]))

theorem mem_sparsePut {k : Nat} {v : α} {e : Nat × α} : ∀ {l : Sparse α}, e ∈ sparsePut k v l → e = (k, v) ∨ e ∈ l
  | [], h => by simp [sparsePut] at h; exact .inl h
  | (k', w) :: l, h => by
    simp only [sparsePut] at h
    split at h
    · rcases List.mem_cons.1 h with h | h
      · exact .inl h
      · exact .inr (by simp [h])
    · split at h
      · rcases List.mem_cons.1 h with h | h
        · exact .inl h
        · exact .inr h
      · rcases List.mem_cons.1 h with h | h
        · exact .inr (by simp [h])
        · rcases mem_sparsePut h with h | h
          · exact .inl h
          · exact .inr (by simp [h])

theorem mem_sparseErase {k : Nat} {e : Nat × α} : ∀ {l : Sparse α}, e ∈ sparseErase k l → e ∈ l
  | [], h => h
  | (k', w) :: l, h => by
    simp only [sparseErase] at h
    split at h
    · simp [h]
    · split at h
      · exact h
      · rcases List.mem_cons.1 h with h | h
        · simp [h]
        · simp [mem_sparseErase h]

theorem sparsePut_rises {k : Nat} {v : α} : ∀ {l : Sparse α}, Rises l → Rises (sparsePut k v l)
  | [], _ => by simp [sparsePut, Rises]
  | (k', w) :: l, h => by
    obtain ⟨h1, h2⟩ := rises_cons.1 h
    simp only [sparsePut]
    split
    · next e => subst e; exact rises_cons.2 ⟨h1, h2⟩
    · split
      · next hlt =>
        refine rises_cons.2 ⟨fun e he => ?_, h⟩
        rcases List.mem_cons.1 he with he | he
        · subst he; exact hlt
        · have := h1 e he; omega
      · refine rises_cons.2 ⟨fun e he => ?_, sparsePut_rises h2⟩
        rcases mem_sparsePut he with he | he
        · subst he; simp only; omega
        · exact h1 e he

theorem sparseErase_rises {k : Nat} : ∀ {l : Sparse α}, Rises l → Rises (sparseErase k l)
  | [], h => h
  | (k', w) :: l, h => by
    obtain ⟨h1, h2⟩ := rises_cons.1 h
    simp only [sparseErase]
    split
    · exact h2
    · split
      · exact h
      · exact rises_cons.2 ⟨fun e he => h1 e (mem_sparseErase he), sparseErase_rises h2⟩

theorem sparseSet_rises [DecidableEq α] {d v : α} {k : Nat} {l : Sparse α} (h : Rises l) : Rises (sparseSet d k v l) := by
  unfold sparseSet
  split
  · exact sparseErase_rises h
  · exact sparsePut_rises h

theorem filter_rises {l : Sparse α} (p : Nat × α → Bool) (h : Rises l) : Rises (l.filter p) :=
  h.sublist ((List.filter_sublist).map _)

/-- A map over the values keeps the keys. -/
theorem map_rises {β : Type} {l : Sparse α} (f : Nat × α → β) (h : Rises l) : Rises (l.map (fun e => (e.1, f e))) := by
  unfold Rises at *; rw [List.map_map]; exact h

theorem sparseGet_sparsePut {d v : α} {k j : Nat} : ∀ {l : Sparse α}, sparseGet d j (sparsePut k v l) = if j = k then v else sparseGet d j l
  | [] => by
    by_cases h : j = k
    · simp [sparsePut, sparseGet, h]
    · simp [sparsePut, sparseGet, h, Ne.symm h]
  | (k', w) :: l => by
    simp only [sparsePut]
    split
    · next e =>
      subst e
      by_cases h : j = k'
      · simp [sparseGet, h]
      · simp [sparseGet, h, Ne.symm h]
    · next hne =>
      split
      · by_cases h : j = k
        · simp [sparseGet, h]
        · simp [sparseGet, h, Ne.symm h]
      · by_cases hk : k' = j
        · subst hk; simp [sparseGet, hne]
        · simp only [sparseGet, if_neg hk]
          exact sparseGet_sparsePut

theorem sparseGet_sparseErase {d : α} {k j : Nat} : ∀ {l : Sparse α}, Rises l → sparseGet d j (sparseErase k l) = if j = k then d else sparseGet d j l
  | [], _ => by simp [sparseErase, sparseGet]
  | (k', w) :: l, h => by
    obtain ⟨h1, h2⟩ := rises_cons.1 h
    simp only [sparseErase]
    split
    · next e =>
      subst e
      by_cases hj : j = k'
      · subst hj; simp [sparseGet_of_lt h1]
      · simp [sparseGet, hj, Ne.symm hj]
    · next hne =>
      split
      · next hlt =>
        by_cases hj : j = k
        · subst hj
          simp only [if_true]
          refine sparseGet_of_lt (fun e he => ?_)
          rcases List.mem_cons.1 he with he | he
          · subst he; exact hlt
          · have := h1 e he; omega
        · simp [hj]
      · by_cases hk : k' = j
        · subst hk; simp [sparseGet, hne]
        · simp only [sparseGet, if_neg hk]
          exact sparseGet_sparseErase h2

/-- A read after a write of a value that is not the default. -/
theorem sparseGet_sparseSet_of_ne [DecidableEq α] {d v : α} {k j : Nat} {l : Sparse α} (h : v ≠ d) :
    sparseGet d j (sparseSet d k v l) = if j = k then v else sparseGet d j l := by
  simp only [sparseSet, if_neg h]; exact sparseGet_sparsePut

/-- A read after a write, in a map whose keys rise. -/
theorem sparseGet_sparseSet [DecidableEq α] {d v : α} {k j : Nat} {l : Sparse α} (h : Rises l) :
    sparseGet d j (sparseSet d k v l) = if j = k then v else sparseGet d j l := by
  unfold sparseSet
  split
  · next e => subst e; exact sparseGet_sparseErase h
  · exact sparseGet_sparsePut

/-- A write at k leaves what every other key reads, whatever the map. -/
theorem sparseGet_sparseErase_ne {d : α} {k j : Nat} (hj : j ≠ k) : ∀ {l : Sparse α}, sparseGet d j (sparseErase k l) = sparseGet d j l
  | [] => rfl
  | (k', w) :: l => by
    simp only [sparseErase]
    split
    · next e => subst e; simp [sparseGet, Ne.symm hj]
    · split
      · rfl
      · simp only [sparseGet, sparseGet_sparseErase_ne hj]

theorem sparseGet_sparseSet_ne [DecidableEq α] {d e v : α} {k j : Nat} {l : Sparse α} (hj : j ≠ k) :
    sparseGet d j (sparseSet e k v l) = sparseGet d j l := by
  unfold sparseSet
  split
  · exact sparseGet_sparseErase_ne hj
  · simp [sparseGet_sparsePut, hj]

/-- The canonical form: keys rise and no entry is the default. -/
theorem sparseWf_iff [DecidableEq α] {d : α} : ∀ {l : Sparse α}, sparseWf d l = true ↔ Rises l ∧ ∀ e ∈ l, e.2 ≠ d
  | [] => by simp [sparseWf, Rises]
  | [(k, v)] => by simp [sparseWf, Rises]
  | (k, v) :: (k', w) :: l => by
    have ih := sparseWf_iff (d := d) (l := (k', w) :: l)
    simp only [sparseWf, Bool.and_eq_true, decide_eq_true_eq, ih, ne_eq]
    constructor
    · rintro ⟨⟨hv, hk⟩, hr, hd⟩
      refine ⟨rises_cons.2 ⟨fun e he => ?_, hr⟩, fun e he => ?_⟩
      · rcases List.mem_cons.1 he with he | he
        · subst he; exact hk
        · have := (rises_cons.1 hr).1 e he; omega
      · rcases List.mem_cons.1 he with he | he
        · subst he; simpa using hv
        · exact hd e he
    · rintro ⟨hr, hd⟩
      obtain ⟨h1, h2⟩ := rises_cons.1 hr
      exact ⟨⟨by simpa using hd (k, v) (by simp), h1 (k', w) (by simp)⟩, h2, fun e he => hd e (by simp [he])⟩

theorem sparseErase_wf [DecidableEq α] {d : α} {k : Nat} {l : Sparse α} (h : sparseWf d l = true) : sparseWf d (sparseErase k l) = true := by
  rw [sparseWf_iff] at *
  exact ⟨sparseErase_rises h.1, fun e he => h.2 e (mem_sparseErase he)⟩

theorem sparseSet_wf [DecidableEq α] {d v : α} {k : Nat} {l : Sparse α} (h : sparseWf d l = true) : sparseWf d (sparseSet d k v l) = true := by
  by_cases hv : v = d
  · simp only [sparseSet, if_pos hv]; exact sparseErase_wf h
  · rw [sparseWf_iff] at *
    refine ⟨sparseSet_rises h.1, fun e he => ?_⟩
    simp only [sparseSet, if_neg hv] at he
    rcases mem_sparsePut he with he | he
    · subst he; exact hv
    · exact h.2 e he

theorem filter_wf [DecidableEq α] {d : α} {l : Sparse α} (p : Nat × α → Bool) (h : sparseWf d l = true) : sparseWf d (l.filter p) = true := by
  rw [sparseWf_iff] at *
  exact ⟨filter_rises p h.1, fun e he => h.2 e (List.mem_filter.1 he).1⟩

/-- In canonical form equal reads mean equal maps. -/
theorem sparse_ext [DecidableEq α] {d : α} : ∀ {l m : Sparse α}, sparseWf d l = true → sparseWf d m = true →
    (∀ k, sparseGet d k l = sparseGet d k m) → l = m
  | [], [], _, _, _ => rfl
  | [], (k, v) :: m, _, hm, h => by
    have := h k
    rw [sparseWf_iff] at hm
    simp [sparseGet] at this
    exact absurd this.symm (hm.2 (k, v) (by simp))
  | (k, v) :: l, [], hl, _, h => by
    have := h k
    rw [sparseWf_iff] at hl
    simp [sparseGet] at this
    exact absurd this (hl.2 (k, v) (by simp))
  | (k, v) :: l, (j, w) :: m, hl, hm, h => by
    have hl' := hl; have hm' := hm
    rw [sparseWf_iff] at hl' hm'
    obtain ⟨l1, l2⟩ := rises_cons.1 hl'.1
    obtain ⟨m1, m2⟩ := rises_cons.1 hm'.1
    have hk : k = j := by
      rcases Nat.lt_trichotomy k j with c | c | c
      · exfalso
        have := h k
        rw [sparseGet_of_lt (l := (j, w) :: m) (by
          intro e he; rcases List.mem_cons.1 he with he | he
          · subst he; exact c
          · have := m1 e he; omega)] at this
        simp [sparseGet] at this
        exact hl'.2 (k, v) (by simp) this
      · exact c
      · exfalso
        have := h j
        rw [sparseGet_of_lt (l := (k, v) :: l) (by
          intro e he; rcases List.mem_cons.1 he with he | he
          · subst he; exact c
          · have := l1 e he; omega)] at this
        simp [sparseGet] at this
        exact hm'.2 (j, w) (by simp) this.symm
    subst hk
    have hv : v = w := by have := h k; simpa [sparseGet] using this
    subst hv
    have : l = m := sparse_ext (d := d) (sparseWf_iff.2 ⟨l2, fun e he => hl'.2 e (by simp [he])⟩)
      (sparseWf_iff.2 ⟨m2, fun e he => hm'.2 e (by simp [he])⟩) (fun i => by
        by_cases hi : i = k
        · subst hi; rw [sparseGet_of_lt l1, sparseGet_of_lt m1]
        · have := h i
          simpa [sparseGet, Ne.symm hi] using this)
    rw [this]

end Sys2Proof.Laws
end

