-- ==== Sys2Proof/Laws/State.lean ====
section
/-!
SUPPORT. What each named update of the state leaves: one lemma for each field of State that it does not write, and for the updates that
write several fields one equation that names them. Later proofs rewrite with these and never unfold an update.
-/
namespace Sys2Proof.Laws

open Sys2Proof.Machine

/-! #### unitSet -/

@[simp] theorem unitSet_power (s : State) (k : Nat) (u : UnitState) : (unitSet s k u).power = s.power := rfl
@[simp] theorem unitSet_boot (s : State) (k : Nat) (u : UnitState) : (unitSet s k u).boot = s.boot := rfl
@[simp] theorem unitSet_ident (s : State) (k : Nat) (u : UnitState) : (unitSet s k u).ident = s.ident := rfl
@[simp] theorem unitSet_tb (s : State) (k : Nat) (u : UnitState) : (unitSet s k u).tb = s.tb := rfl
@[simp] theorem unitSet_form (s : State) (k : Nat) (u : UnitState) : (unitSet s k u).form = s.form := rfl
@[simp] theorem unitSet_cfg (s : State) (k : Nat) (u : UnitState) : (unitSet s k u).cfg = s.cfg := rfl
@[simp] theorem unitSet_vmp (s : State) (k : Nat) (u : UnitState) : (unitSet s k u).vmp = s.vmp := rfl
@[simp] theorem unitSet_seq (s : State) (k : Nat) (u : UnitState) : (unitSet s k u).seq = s.seq := rfl
@[simp] theorem unitSet_quench (s : State) (k : Nat) (u : UnitState) : (unitSet s k u).quench = s.quench := rfl
@[simp] theorem unitSet_mem (s : State) (k : Nat) (u : UnitState) : (unitSet s k u).mem = s.mem := rfl
@[simp] theorem unitSet_eng (s : State) (k : Nat) (u : UnitState) : (unitSet s k u).eng = s.eng := rfl
@[simp] theorem unitSet_links (s : State) (k : Nat) (u : UnitState) : (unitSet s k u).links = s.links := rfl
@[simp] theorem unitSet_therm (s : State) (k : Nat) (u : UnitState) : (unitSet s k u).therm = s.therm := rfl
@[simp] theorem unitSet_mgmt (s : State) (k : Nat) (u : UnitState) : (unitSet s k u).mgmt = s.mgmt := rfl
@[simp] theorem unitSet_out (s : State) (k : Nat) (u : UnitState) : (unitSet s k u).out = s.out := rfl
@[simp] theorem unitSet_free (s : State) (k : Nat) (u : UnitState) : (unitSet s k u).free = s.free := rfl
@[simp] theorem unitSet_pending (s : State) (k : Nat) (u : UnitState) : (unitSet s k u).pending = s.pending := rfl

/-! #### unitMod -/

@[simp] theorem unitMod_power (s : State) (k : Nat) (f : UnitState → UnitState) : (unitMod s k f).power = s.power := rfl
@[simp] theorem unitMod_boot (s : State) (k : Nat) (f : UnitState → UnitState) : (unitMod s k f).boot = s.boot := rfl
@[simp] theorem unitMod_ident (s : State) (k : Nat) (f : UnitState → UnitState) : (unitMod s k f).ident = s.ident := rfl
@[simp] theorem unitMod_tb (s : State) (k : Nat) (f : UnitState → UnitState) : (unitMod s k f).tb = s.tb := rfl
@[simp] theorem unitMod_form (s : State) (k : Nat) (f : UnitState → UnitState) : (unitMod s k f).form = s.form := rfl
@[simp] theorem unitMod_cfg (s : State) (k : Nat) (f : UnitState → UnitState) : (unitMod s k f).cfg = s.cfg := rfl
@[simp] theorem unitMod_vmp (s : State) (k : Nat) (f : UnitState → UnitState) : (unitMod s k f).vmp = s.vmp := rfl
@[simp] theorem unitMod_seq (s : State) (k : Nat) (f : UnitState → UnitState) : (unitMod s k f).seq = s.seq := rfl
@[simp] theorem unitMod_quench (s : State) (k : Nat) (f : UnitState → UnitState) : (unitMod s k f).quench = s.quench := rfl
@[simp] theorem unitMod_mem (s : State) (k : Nat) (f : UnitState → UnitState) : (unitMod s k f).mem = s.mem := rfl
@[simp] theorem unitMod_eng (s : State) (k : Nat) (f : UnitState → UnitState) : (unitMod s k f).eng = s.eng := rfl
@[simp] theorem unitMod_links (s : State) (k : Nat) (f : UnitState → UnitState) : (unitMod s k f).links = s.links := rfl
@[simp] theorem unitMod_therm (s : State) (k : Nat) (f : UnitState → UnitState) : (unitMod s k f).therm = s.therm := rfl
@[simp] theorem unitMod_mgmt (s : State) (k : Nat) (f : UnitState → UnitState) : (unitMod s k f).mgmt = s.mgmt := rfl
@[simp] theorem unitMod_out (s : State) (k : Nat) (f : UnitState → UnitState) : (unitMod s k f).out = s.out := rfl
@[simp] theorem unitMod_free (s : State) (k : Nat) (f : UnitState → UnitState) : (unitMod s k f).free = s.free := rfl
@[simp] theorem unitMod_pending (s : State) (k : Nat) (f : UnitState → UnitState) : (unitMod s k f).pending = s.pending := rfl

/-! #### pageMod -/

@[simp] theorem pageMod_power (s : State) (k : Nat) (f : UnitPage → UnitPage) : (pageMod s k f).power = s.power := rfl
@[simp] theorem pageMod_boot (s : State) (k : Nat) (f : UnitPage → UnitPage) : (pageMod s k f).boot = s.boot := rfl
@[simp] theorem pageMod_ident (s : State) (k : Nat) (f : UnitPage → UnitPage) : (pageMod s k f).ident = s.ident := rfl
@[simp] theorem pageMod_tb (s : State) (k : Nat) (f : UnitPage → UnitPage) : (pageMod s k f).tb = s.tb := rfl
@[simp] theorem pageMod_form (s : State) (k : Nat) (f : UnitPage → UnitPage) : (pageMod s k f).form = s.form := rfl
@[simp] theorem pageMod_cfg (s : State) (k : Nat) (f : UnitPage → UnitPage) : (pageMod s k f).cfg = s.cfg := rfl
@[simp] theorem pageMod_vmp (s : State) (k : Nat) (f : UnitPage → UnitPage) : (pageMod s k f).vmp = s.vmp := rfl
@[simp] theorem pageMod_seq (s : State) (k : Nat) (f : UnitPage → UnitPage) : (pageMod s k f).seq = s.seq := rfl
@[simp] theorem pageMod_quench (s : State) (k : Nat) (f : UnitPage → UnitPage) : (pageMod s k f).quench = s.quench := rfl
@[simp] theorem pageMod_mem (s : State) (k : Nat) (f : UnitPage → UnitPage) : (pageMod s k f).mem = s.mem := rfl
@[simp] theorem pageMod_eng (s : State) (k : Nat) (f : UnitPage → UnitPage) : (pageMod s k f).eng = s.eng := rfl
@[simp] theorem pageMod_links (s : State) (k : Nat) (f : UnitPage → UnitPage) : (pageMod s k f).links = s.links := rfl
@[simp] theorem pageMod_therm (s : State) (k : Nat) (f : UnitPage → UnitPage) : (pageMod s k f).therm = s.therm := rfl
@[simp] theorem pageMod_mgmt (s : State) (k : Nat) (f : UnitPage → UnitPage) : (pageMod s k f).mgmt = s.mgmt := rfl
@[simp] theorem pageMod_out (s : State) (k : Nat) (f : UnitPage → UnitPage) : (pageMod s k f).out = s.out := rfl
@[simp] theorem pageMod_free (s : State) (k : Nat) (f : UnitPage → UnitPage) : (pageMod s k f).free = s.free := rfl
@[simp] theorem pageMod_pending (s : State) (k : Nat) (f : UnitPage → UnitPage) : (pageMod s k f).pending = s.pending := rfl

/-! #### flagsMod -/

@[simp] theorem flagsMod_power (s : State) (k : Nat) (f : UnitFlags → UnitFlags) : (flagsMod s k f).power = s.power := rfl
@[simp] theorem flagsMod_boot (s : State) (k : Nat) (f : UnitFlags → UnitFlags) : (flagsMod s k f).boot = s.boot := rfl
@[simp] theorem flagsMod_ident (s : State) (k : Nat) (f : UnitFlags → UnitFlags) : (flagsMod s k f).ident = s.ident := rfl
@[simp] theorem flagsMod_tb (s : State) (k : Nat) (f : UnitFlags → UnitFlags) : (flagsMod s k f).tb = s.tb := rfl
@[simp] theorem flagsMod_form (s : State) (k : Nat) (f : UnitFlags → UnitFlags) : (flagsMod s k f).form = s.form := rfl
@[simp] theorem flagsMod_cfg (s : State) (k : Nat) (f : UnitFlags → UnitFlags) : (flagsMod s k f).cfg = s.cfg := rfl
@[simp] theorem flagsMod_vmp (s : State) (k : Nat) (f : UnitFlags → UnitFlags) : (flagsMod s k f).vmp = s.vmp := rfl
@[simp] theorem flagsMod_seq (s : State) (k : Nat) (f : UnitFlags → UnitFlags) : (flagsMod s k f).seq = s.seq := rfl
@[simp] theorem flagsMod_quench (s : State) (k : Nat) (f : UnitFlags → UnitFlags) : (flagsMod s k f).quench = s.quench := rfl
@[simp] theorem flagsMod_mem (s : State) (k : Nat) (f : UnitFlags → UnitFlags) : (flagsMod s k f).mem = s.mem := rfl
@[simp] theorem flagsMod_eng (s : State) (k : Nat) (f : UnitFlags → UnitFlags) : (flagsMod s k f).eng = s.eng := rfl
@[simp] theorem flagsMod_links (s : State) (k : Nat) (f : UnitFlags → UnitFlags) : (flagsMod s k f).links = s.links := rfl
@[simp] theorem flagsMod_therm (s : State) (k : Nat) (f : UnitFlags → UnitFlags) : (flagsMod s k f).therm = s.therm := rfl
@[simp] theorem flagsMod_mgmt (s : State) (k : Nat) (f : UnitFlags → UnitFlags) : (flagsMod s k f).mgmt = s.mgmt := rfl
@[simp] theorem flagsMod_out (s : State) (k : Nat) (f : UnitFlags → UnitFlags) : (flagsMod s k f).out = s.out := rfl
@[simp] theorem flagsMod_free (s : State) (k : Nat) (f : UnitFlags → UnitFlags) : (flagsMod s k f).free = s.free := rfl
@[simp] theorem flagsMod_pending (s : State) (k : Nat) (f : UnitFlags → UnitFlags) : (flagsMod s k f).pending = s.pending := rfl

/-! #### counterAddOne -/

@[simp] theorem counterAddOne_power (s : State) (c n k : Nat) : (counterAddOne s c n k).power = s.power := rfl
@[simp] theorem counterAddOne_boot (s : State) (c n k : Nat) : (counterAddOne s c n k).boot = s.boot := rfl
@[simp] theorem counterAddOne_ident (s : State) (c n k : Nat) : (counterAddOne s c n k).ident = s.ident := rfl
@[simp] theorem counterAddOne_tb (s : State) (c n k : Nat) : (counterAddOne s c n k).tb = s.tb := rfl
@[simp] theorem counterAddOne_form (s : State) (c n k : Nat) : (counterAddOne s c n k).form = s.form := rfl
@[simp] theorem counterAddOne_cfg (s : State) (c n k : Nat) : (counterAddOne s c n k).cfg = s.cfg := rfl
@[simp] theorem counterAddOne_vmp (s : State) (c n k : Nat) : (counterAddOne s c n k).vmp = s.vmp := rfl
@[simp] theorem counterAddOne_seq (s : State) (c n k : Nat) : (counterAddOne s c n k).seq = s.seq := rfl
@[simp] theorem counterAddOne_quench (s : State) (c n k : Nat) : (counterAddOne s c n k).quench = s.quench := rfl
@[simp] theorem counterAddOne_mem (s : State) (c n k : Nat) : (counterAddOne s c n k).mem = s.mem := rfl
@[simp] theorem counterAddOne_eng (s : State) (c n k : Nat) : (counterAddOne s c n k).eng = s.eng := rfl
@[simp] theorem counterAddOne_links (s : State) (c n k : Nat) : (counterAddOne s c n k).links = s.links := rfl
@[simp] theorem counterAddOne_therm (s : State) (c n k : Nat) : (counterAddOne s c n k).therm = s.therm := rfl
@[simp] theorem counterAddOne_mgmt (s : State) (c n k : Nat) : (counterAddOne s c n k).mgmt = s.mgmt := rfl
@[simp] theorem counterAddOne_out (s : State) (c n k : Nat) : (counterAddOne s c n k).out = s.out := rfl
@[simp] theorem counterAddOne_free (s : State) (c n k : Nat) : (counterAddOne s c n k).free = s.free := rfl
@[simp] theorem counterAddOne_pending (s : State) (c n k : Nat) : (counterAddOne s c n k).pending = s.pending := rfl

/-! #### emitOut -/

@[simp] theorem emitOut_power (s : State) (o : Output) : (emitOut s o).power = s.power := rfl
@[simp] theorem emitOut_boot (s : State) (o : Output) : (emitOut s o).boot = s.boot := rfl
@[simp] theorem emitOut_ident (s : State) (o : Output) : (emitOut s o).ident = s.ident := rfl
@[simp] theorem emitOut_units (s : State) (o : Output) : (emitOut s o).units = s.units := rfl
@[simp] theorem emitOut_tb (s : State) (o : Output) : (emitOut s o).tb = s.tb := rfl
@[simp] theorem emitOut_form (s : State) (o : Output) : (emitOut s o).form = s.form := rfl
@[simp] theorem emitOut_cfg (s : State) (o : Output) : (emitOut s o).cfg = s.cfg := rfl
@[simp] theorem emitOut_vmp (s : State) (o : Output) : (emitOut s o).vmp = s.vmp := rfl
@[simp] theorem emitOut_seq (s : State) (o : Output) : (emitOut s o).seq = s.seq := rfl
@[simp] theorem emitOut_quench (s : State) (o : Output) : (emitOut s o).quench = s.quench := rfl
@[simp] theorem emitOut_mem (s : State) (o : Output) : (emitOut s o).mem = s.mem := rfl
@[simp] theorem emitOut_eng (s : State) (o : Output) : (emitOut s o).eng = s.eng := rfl
@[simp] theorem emitOut_links (s : State) (o : Output) : (emitOut s o).links = s.links := rfl
@[simp] theorem emitOut_therm (s : State) (o : Output) : (emitOut s o).therm = s.therm := rfl
@[simp] theorem emitOut_mgmt (s : State) (o : Output) : (emitOut s o).mgmt = s.mgmt := rfl
@[simp] theorem emitOut_free (s : State) (o : Output) : (emitOut s o).free = s.free := rfl
@[simp] theorem emitOut_pending (s : State) (o : Output) : (emitOut s o).pending = s.pending := rfl

/-! #### logPersistent -/

@[simp] theorem logPersistent_power (s : State) (r : LogRecord) : (logPersistent s r).power = s.power := rfl
@[simp] theorem logPersistent_ident (s : State) (r : LogRecord) : (logPersistent s r).ident = s.ident := rfl
@[simp] theorem logPersistent_units (s : State) (r : LogRecord) : (logPersistent s r).units = s.units := rfl
@[simp] theorem logPersistent_tb (s : State) (r : LogRecord) : (logPersistent s r).tb = s.tb := rfl
@[simp] theorem logPersistent_form (s : State) (r : LogRecord) : (logPersistent s r).form = s.form := rfl
@[simp] theorem logPersistent_cfg (s : State) (r : LogRecord) : (logPersistent s r).cfg = s.cfg := rfl
@[simp] theorem logPersistent_vmp (s : State) (r : LogRecord) : (logPersistent s r).vmp = s.vmp := rfl
@[simp] theorem logPersistent_seq (s : State) (r : LogRecord) : (logPersistent s r).seq = s.seq := rfl
@[simp] theorem logPersistent_quench (s : State) (r : LogRecord) : (logPersistent s r).quench = s.quench := rfl
@[simp] theorem logPersistent_mem (s : State) (r : LogRecord) : (logPersistent s r).mem = s.mem := rfl
@[simp] theorem logPersistent_eng (s : State) (r : LogRecord) : (logPersistent s r).eng = s.eng := rfl
@[simp] theorem logPersistent_links (s : State) (r : LogRecord) : (logPersistent s r).links = s.links := rfl
@[simp] theorem logPersistent_therm (s : State) (r : LogRecord) : (logPersistent s r).therm = s.therm := rfl
@[simp] theorem logPersistent_mgmt (s : State) (r : LogRecord) : (logPersistent s r).mgmt = s.mgmt := rfl
@[simp] theorem logPersistent_out (s : State) (r : LogRecord) : (logPersistent s r).out = s.out := rfl
@[simp] theorem logPersistent_free (s : State) (r : LogRecord) : (logPersistent s r).free = s.free := rfl
@[simp] theorem logPersistent_pending (s : State) (r : LogRecord) : (logPersistent s r).pending = s.pending := rfl

/-! #### modJobs -/

@[simp] theorem modJobs_power (s : State) (p : Job → Bool) (f : Job → Job) : (modJobs s p f).power = s.power := rfl
@[simp] theorem modJobs_boot (s : State) (p : Job → Bool) (f : Job → Job) : (modJobs s p f).boot = s.boot := rfl
@[simp] theorem modJobs_ident (s : State) (p : Job → Bool) (f : Job → Job) : (modJobs s p f).ident = s.ident := rfl
@[simp] theorem modJobs_units (s : State) (p : Job → Bool) (f : Job → Job) : (modJobs s p f).units = s.units := rfl
@[simp] theorem modJobs_tb (s : State) (p : Job → Bool) (f : Job → Job) : (modJobs s p f).tb = s.tb := rfl
@[simp] theorem modJobs_form (s : State) (p : Job → Bool) (f : Job → Job) : (modJobs s p f).form = s.form := rfl
@[simp] theorem modJobs_cfg (s : State) (p : Job → Bool) (f : Job → Job) : (modJobs s p f).cfg = s.cfg := rfl
@[simp] theorem modJobs_vmp (s : State) (p : Job → Bool) (f : Job → Job) : (modJobs s p f).vmp = s.vmp := rfl
@[simp] theorem modJobs_quench (s : State) (p : Job → Bool) (f : Job → Job) : (modJobs s p f).quench = s.quench := rfl
@[simp] theorem modJobs_mem (s : State) (p : Job → Bool) (f : Job → Job) : (modJobs s p f).mem = s.mem := rfl
@[simp] theorem modJobs_eng (s : State) (p : Job → Bool) (f : Job → Job) : (modJobs s p f).eng = s.eng := rfl
@[simp] theorem modJobs_links (s : State) (p : Job → Bool) (f : Job → Job) : (modJobs s p f).links = s.links := rfl
@[simp] theorem modJobs_therm (s : State) (p : Job → Bool) (f : Job → Job) : (modJobs s p f).therm = s.therm := rfl
@[simp] theorem modJobs_mgmt (s : State) (p : Job → Bool) (f : Job → Job) : (modJobs s p f).mgmt = s.mgmt := rfl
@[simp] theorem modJobs_out (s : State) (p : Job → Bool) (f : Job → Job) : (modJobs s p f).out = s.out := rfl
@[simp] theorem modJobs_free (s : State) (p : Job → Bool) (f : Job → Job) : (modJobs s p f).free = s.free := rfl
@[simp] theorem modJobs_pending (s : State) (p : Job → Bool) (f : Job → Job) : (modJobs s p f).pending = s.pending := rfl

/-! #### setJob -/

@[simp] theorem setJob_power (s : State) (n : Word) (f : Job → Job) : (setJob s n f).power = s.power := rfl
@[simp] theorem setJob_boot (s : State) (n : Word) (f : Job → Job) : (setJob s n f).boot = s.boot := rfl
@[simp] theorem setJob_ident (s : State) (n : Word) (f : Job → Job) : (setJob s n f).ident = s.ident := rfl
@[simp] theorem setJob_units (s : State) (n : Word) (f : Job → Job) : (setJob s n f).units = s.units := rfl
@[simp] theorem setJob_tb (s : State) (n : Word) (f : Job → Job) : (setJob s n f).tb = s.tb := rfl
@[simp] theorem setJob_form (s : State) (n : Word) (f : Job → Job) : (setJob s n f).form = s.form := rfl
@[simp] theorem setJob_cfg (s : State) (n : Word) (f : Job → Job) : (setJob s n f).cfg = s.cfg := rfl
@[simp] theorem setJob_vmp (s : State) (n : Word) (f : Job → Job) : (setJob s n f).vmp = s.vmp := rfl
@[simp] theorem setJob_quench (s : State) (n : Word) (f : Job → Job) : (setJob s n f).quench = s.quench := rfl
@[simp] theorem setJob_mem (s : State) (n : Word) (f : Job → Job) : (setJob s n f).mem = s.mem := rfl
@[simp] theorem setJob_eng (s : State) (n : Word) (f : Job → Job) : (setJob s n f).eng = s.eng := rfl
@[simp] theorem setJob_links (s : State) (n : Word) (f : Job → Job) : (setJob s n f).links = s.links := rfl
@[simp] theorem setJob_therm (s : State) (n : Word) (f : Job → Job) : (setJob s n f).therm = s.therm := rfl
@[simp] theorem setJob_mgmt (s : State) (n : Word) (f : Job → Job) : (setJob s n f).mgmt = s.mgmt := rfl
@[simp] theorem setJob_out (s : State) (n : Word) (f : Job → Job) : (setJob s n f).out = s.out := rfl
@[simp] theorem setJob_free (s : State) (n : Word) (f : Job → Job) : (setJob s n f).free = s.free := rfl
@[simp] theorem setJob_pending (s : State) (n : Word) (f : Job → Job) : (setJob s n f).pending = s.pending := rfl

/-! #### recordResult -/

@[simp] theorem recordResult_power (s : State) (j : Job) (r : ActRef) (x : ActResult) : (recordResult s j r x).power = s.power := rfl
@[simp] theorem recordResult_boot (s : State) (j : Job) (r : ActRef) (x : ActResult) : (recordResult s j r x).boot = s.boot := rfl
@[simp] theorem recordResult_ident (s : State) (j : Job) (r : ActRef) (x : ActResult) : (recordResult s j r x).ident = s.ident := rfl
@[simp] theorem recordResult_units (s : State) (j : Job) (r : ActRef) (x : ActResult) : (recordResult s j r x).units = s.units := rfl
@[simp] theorem recordResult_tb (s : State) (j : Job) (r : ActRef) (x : ActResult) : (recordResult s j r x).tb = s.tb := rfl
@[simp] theorem recordResult_form (s : State) (j : Job) (r : ActRef) (x : ActResult) : (recordResult s j r x).form = s.form := rfl
@[simp] theorem recordResult_cfg (s : State) (j : Job) (r : ActRef) (x : ActResult) : (recordResult s j r x).cfg = s.cfg := rfl
@[simp] theorem recordResult_vmp (s : State) (j : Job) (r : ActRef) (x : ActResult) : (recordResult s j r x).vmp = s.vmp := rfl
@[simp] theorem recordResult_quench (s : State) (j : Job) (r : ActRef) (x : ActResult) : (recordResult s j r x).quench = s.quench := rfl
@[simp] theorem recordResult_mem (s : State) (j : Job) (r : ActRef) (x : ActResult) : (recordResult s j r x).mem = s.mem := rfl
@[simp] theorem recordResult_eng (s : State) (j : Job) (r : ActRef) (x : ActResult) : (recordResult s j r x).eng = s.eng := rfl
@[simp] theorem recordResult_links (s : State) (j : Job) (r : ActRef) (x : ActResult) : (recordResult s j r x).links = s.links := rfl
@[simp] theorem recordResult_therm (s : State) (j : Job) (r : ActRef) (x : ActResult) : (recordResult s j r x).therm = s.therm := rfl
@[simp] theorem recordResult_mgmt (s : State) (j : Job) (r : ActRef) (x : ActResult) : (recordResult s j r x).mgmt = s.mgmt := rfl
@[simp] theorem recordResult_out (s : State) (j : Job) (r : ActRef) (x : ActResult) : (recordResult s j r x).out = s.out := rfl
@[simp] theorem recordResult_free (s : State) (j : Job) (r : ActRef) (x : ActResult) : (recordResult s j r x).free = s.free := rfl
@[simp] theorem recordResult_pending (s : State) (j : Job) (r : ActRef) (x : ActResult) : (recordResult s j r x).pending = s.pending := rfl

/-! #### tbMod -/

@[simp] theorem tbMod_power (s : State) (f : Timebase → Timebase) : (tbMod s f).power = s.power := rfl
@[simp] theorem tbMod_boot (s : State) (f : Timebase → Timebase) : (tbMod s f).boot = s.boot := rfl
@[simp] theorem tbMod_ident (s : State) (f : Timebase → Timebase) : (tbMod s f).ident = s.ident := rfl
@[simp] theorem tbMod_units (s : State) (f : Timebase → Timebase) : (tbMod s f).units = s.units := rfl
@[simp] theorem tbMod_form (s : State) (f : Timebase → Timebase) : (tbMod s f).form = s.form := rfl
@[simp] theorem tbMod_cfg (s : State) (f : Timebase → Timebase) : (tbMod s f).cfg = s.cfg := rfl
@[simp] theorem tbMod_vmp (s : State) (f : Timebase → Timebase) : (tbMod s f).vmp = s.vmp := rfl
@[simp] theorem tbMod_seq (s : State) (f : Timebase → Timebase) : (tbMod s f).seq = s.seq := rfl
@[simp] theorem tbMod_quench (s : State) (f : Timebase → Timebase) : (tbMod s f).quench = s.quench := rfl
@[simp] theorem tbMod_mem (s : State) (f : Timebase → Timebase) : (tbMod s f).mem = s.mem := rfl
@[simp] theorem tbMod_eng (s : State) (f : Timebase → Timebase) : (tbMod s f).eng = s.eng := rfl
@[simp] theorem tbMod_links (s : State) (f : Timebase → Timebase) : (tbMod s f).links = s.links := rfl
@[simp] theorem tbMod_therm (s : State) (f : Timebase → Timebase) : (tbMod s f).therm = s.therm := rfl
@[simp] theorem tbMod_mgmt (s : State) (f : Timebase → Timebase) : (tbMod s f).mgmt = s.mgmt := rfl
@[simp] theorem tbMod_out (s : State) (f : Timebase → Timebase) : (tbMod s f).out = s.out := rfl
@[simp] theorem tbMod_free (s : State) (f : Timebase → Timebase) : (tbMod s f).free = s.free := rfl
@[simp] theorem tbMod_pending (s : State) (f : Timebase → Timebase) : (tbMod s f).pending = s.pending := rfl

/-! #### portMod -/

@[simp] theorem portMod_power (s : State) (p : Nat) (f : WeldPort → WeldPort) : (portMod s p f).power = s.power := rfl
@[simp] theorem portMod_boot (s : State) (p : Nat) (f : WeldPort → WeldPort) : (portMod s p f).boot = s.boot := rfl
@[simp] theorem portMod_ident (s : State) (p : Nat) (f : WeldPort → WeldPort) : (portMod s p f).ident = s.ident := rfl
@[simp] theorem portMod_units (s : State) (p : Nat) (f : WeldPort → WeldPort) : (portMod s p f).units = s.units := rfl
@[simp] theorem portMod_tb (s : State) (p : Nat) (f : WeldPort → WeldPort) : (portMod s p f).tb = s.tb := rfl
@[simp] theorem portMod_form (s : State) (p : Nat) (f : WeldPort → WeldPort) : (portMod s p f).form = s.form := rfl
@[simp] theorem portMod_cfg (s : State) (p : Nat) (f : WeldPort → WeldPort) : (portMod s p f).cfg = s.cfg := rfl
@[simp] theorem portMod_vmp (s : State) (p : Nat) (f : WeldPort → WeldPort) : (portMod s p f).vmp = s.vmp := rfl
@[simp] theorem portMod_seq (s : State) (p : Nat) (f : WeldPort → WeldPort) : (portMod s p f).seq = s.seq := rfl
@[simp] theorem portMod_quench (s : State) (p : Nat) (f : WeldPort → WeldPort) : (portMod s p f).quench = s.quench := rfl
@[simp] theorem portMod_mem (s : State) (p : Nat) (f : WeldPort → WeldPort) : (portMod s p f).mem = s.mem := rfl
@[simp] theorem portMod_eng (s : State) (p : Nat) (f : WeldPort → WeldPort) : (portMod s p f).eng = s.eng := rfl
@[simp] theorem portMod_therm (s : State) (p : Nat) (f : WeldPort → WeldPort) : (portMod s p f).therm = s.therm := rfl
@[simp] theorem portMod_mgmt (s : State) (p : Nat) (f : WeldPort → WeldPort) : (portMod s p f).mgmt = s.mgmt := rfl
@[simp] theorem portMod_out (s : State) (p : Nat) (f : WeldPort → WeldPort) : (portMod s p f).out = s.out := rfl
@[simp] theorem portMod_free (s : State) (p : Nat) (f : WeldPort → WeldPort) : (portMod s p f).free = s.free := rfl
@[simp] theorem portMod_pending (s : State) (p : Nat) (f : WeldPort → WeldPort) : (portMod s p f).pending = s.pending := rfl

/-! #### spurMod -/

@[simp] theorem spurMod_power (s : State) (p : Nat) (f : SpurPort → SpurPort) : (spurMod s p f).power = s.power := rfl
@[simp] theorem spurMod_boot (s : State) (p : Nat) (f : SpurPort → SpurPort) : (spurMod s p f).boot = s.boot := rfl
@[simp] theorem spurMod_ident (s : State) (p : Nat) (f : SpurPort → SpurPort) : (spurMod s p f).ident = s.ident := rfl
@[simp] theorem spurMod_units (s : State) (p : Nat) (f : SpurPort → SpurPort) : (spurMod s p f).units = s.units := rfl
@[simp] theorem spurMod_tb (s : State) (p : Nat) (f : SpurPort → SpurPort) : (spurMod s p f).tb = s.tb := rfl
@[simp] theorem spurMod_form (s : State) (p : Nat) (f : SpurPort → SpurPort) : (spurMod s p f).form = s.form := rfl
@[simp] theorem spurMod_cfg (s : State) (p : Nat) (f : SpurPort → SpurPort) : (spurMod s p f).cfg = s.cfg := rfl
@[simp] theorem spurMod_vmp (s : State) (p : Nat) (f : SpurPort → SpurPort) : (spurMod s p f).vmp = s.vmp := rfl
@[simp] theorem spurMod_seq (s : State) (p : Nat) (f : SpurPort → SpurPort) : (spurMod s p f).seq = s.seq := rfl
@[simp] theorem spurMod_quench (s : State) (p : Nat) (f : SpurPort → SpurPort) : (spurMod s p f).quench = s.quench := rfl
@[simp] theorem spurMod_mem (s : State) (p : Nat) (f : SpurPort → SpurPort) : (spurMod s p f).mem = s.mem := rfl
@[simp] theorem spurMod_eng (s : State) (p : Nat) (f : SpurPort → SpurPort) : (spurMod s p f).eng = s.eng := rfl
@[simp] theorem spurMod_therm (s : State) (p : Nat) (f : SpurPort → SpurPort) : (spurMod s p f).therm = s.therm := rfl
@[simp] theorem spurMod_mgmt (s : State) (p : Nat) (f : SpurPort → SpurPort) : (spurMod s p f).mgmt = s.mgmt := rfl
@[simp] theorem spurMod_out (s : State) (p : Nat) (f : SpurPort → SpurPort) : (spurMod s p f).out = s.out := rfl
@[simp] theorem spurMod_free (s : State) (p : Nat) (f : SpurPort → SpurPort) : (spurMod s p f).free = s.free := rfl
@[simp] theorem spurMod_pending (s : State) (p : Nat) (f : SpurPort → SpurPort) : (spurMod s p f).pending = s.pending := rfl

/-! #### qpMod -/

@[simp] theorem qpMod_power (s : State) (p q : Nat) (f : QueuePair → QueuePair) : (qpMod s p q f).power = s.power := rfl
@[simp] theorem qpMod_boot (s : State) (p q : Nat) (f : QueuePair → QueuePair) : (qpMod s p q f).boot = s.boot := rfl
@[simp] theorem qpMod_ident (s : State) (p q : Nat) (f : QueuePair → QueuePair) : (qpMod s p q f).ident = s.ident := rfl
@[simp] theorem qpMod_units (s : State) (p q : Nat) (f : QueuePair → QueuePair) : (qpMod s p q f).units = s.units := rfl
@[simp] theorem qpMod_tb (s : State) (p q : Nat) (f : QueuePair → QueuePair) : (qpMod s p q f).tb = s.tb := rfl
@[simp] theorem qpMod_form (s : State) (p q : Nat) (f : QueuePair → QueuePair) : (qpMod s p q f).form = s.form := rfl
@[simp] theorem qpMod_cfg (s : State) (p q : Nat) (f : QueuePair → QueuePair) : (qpMod s p q f).cfg = s.cfg := rfl
@[simp] theorem qpMod_vmp (s : State) (p q : Nat) (f : QueuePair → QueuePair) : (qpMod s p q f).vmp = s.vmp := rfl
@[simp] theorem qpMod_seq (s : State) (p q : Nat) (f : QueuePair → QueuePair) : (qpMod s p q f).seq = s.seq := rfl
@[simp] theorem qpMod_quench (s : State) (p q : Nat) (f : QueuePair → QueuePair) : (qpMod s p q f).quench = s.quench := rfl
@[simp] theorem qpMod_mem (s : State) (p q : Nat) (f : QueuePair → QueuePair) : (qpMod s p q f).mem = s.mem := rfl
@[simp] theorem qpMod_eng (s : State) (p q : Nat) (f : QueuePair → QueuePair) : (qpMod s p q f).eng = s.eng := rfl
@[simp] theorem qpMod_therm (s : State) (p q : Nat) (f : QueuePair → QueuePair) : (qpMod s p q f).therm = s.therm := rfl
@[simp] theorem qpMod_mgmt (s : State) (p q : Nat) (f : QueuePair → QueuePair) : (qpMod s p q f).mgmt = s.mgmt := rfl
@[simp] theorem qpMod_out (s : State) (p q : Nat) (f : QueuePair → QueuePair) : (qpMod s p q f).out = s.out := rfl
@[simp] theorem qpMod_free (s : State) (p q : Nat) (f : QueuePair → QueuePair) : (qpMod s p q f).free = s.free := rfl
@[simp] theorem qpMod_pending (s : State) (p q : Nat) (f : QueuePair → QueuePair) : (qpMod s p q f).pending = s.pending := rfl

/-! #### pairMod -/

@[simp] theorem pairMod_power (s : State) (k : Nat) (f : RingPair → RingPair) : (pairMod s k f).power = s.power := rfl
@[simp] theorem pairMod_boot (s : State) (k : Nat) (f : RingPair → RingPair) : (pairMod s k f).boot = s.boot := rfl
@[simp] theorem pairMod_ident (s : State) (k : Nat) (f : RingPair → RingPair) : (pairMod s k f).ident = s.ident := rfl
@[simp] theorem pairMod_units (s : State) (k : Nat) (f : RingPair → RingPair) : (pairMod s k f).units = s.units := rfl
@[simp] theorem pairMod_tb (s : State) (k : Nat) (f : RingPair → RingPair) : (pairMod s k f).tb = s.tb := rfl
@[simp] theorem pairMod_form (s : State) (k : Nat) (f : RingPair → RingPair) : (pairMod s k f).form = s.form := rfl
@[simp] theorem pairMod_cfg (s : State) (k : Nat) (f : RingPair → RingPair) : (pairMod s k f).cfg = s.cfg := rfl
@[simp] theorem pairMod_seq (s : State) (k : Nat) (f : RingPair → RingPair) : (pairMod s k f).seq = s.seq := rfl
@[simp] theorem pairMod_quench (s : State) (k : Nat) (f : RingPair → RingPair) : (pairMod s k f).quench = s.quench := rfl
@[simp] theorem pairMod_mem (s : State) (k : Nat) (f : RingPair → RingPair) : (pairMod s k f).mem = s.mem := rfl
@[simp] theorem pairMod_eng (s : State) (k : Nat) (f : RingPair → RingPair) : (pairMod s k f).eng = s.eng := rfl
@[simp] theorem pairMod_links (s : State) (k : Nat) (f : RingPair → RingPair) : (pairMod s k f).links = s.links := rfl
@[simp] theorem pairMod_therm (s : State) (k : Nat) (f : RingPair → RingPair) : (pairMod s k f).therm = s.therm := rfl
@[simp] theorem pairMod_mgmt (s : State) (k : Nat) (f : RingPair → RingPair) : (pairMod s k f).mgmt = s.mgmt := rfl
@[simp] theorem pairMod_out (s : State) (k : Nat) (f : RingPair → RingPair) : (pairMod s k f).out = s.out := rfl
@[simp] theorem pairMod_free (s : State) (k : Nat) (f : RingPair → RingPair) : (pairMod s k f).free = s.free := rfl
@[simp] theorem pairMod_pending (s : State) (k : Nat) (f : RingPair → RingPair) : (pairMod s k f).pending = s.pending := rfl

/-! #### checkerMod -/

@[simp] theorem checkerMod_power (s : State) (c : Nat) (f : Checker → Checker) : (checkerMod s c f).power = s.power := rfl
@[simp] theorem checkerMod_boot (s : State) (c : Nat) (f : Checker → Checker) : (checkerMod s c f).boot = s.boot := rfl
@[simp] theorem checkerMod_ident (s : State) (c : Nat) (f : Checker → Checker) : (checkerMod s c f).ident = s.ident := rfl
@[simp] theorem checkerMod_units (s : State) (c : Nat) (f : Checker → Checker) : (checkerMod s c f).units = s.units := rfl
@[simp] theorem checkerMod_tb (s : State) (c : Nat) (f : Checker → Checker) : (checkerMod s c f).tb = s.tb := rfl
@[simp] theorem checkerMod_form (s : State) (c : Nat) (f : Checker → Checker) : (checkerMod s c f).form = s.form := rfl
@[simp] theorem checkerMod_cfg (s : State) (c : Nat) (f : Checker → Checker) : (checkerMod s c f).cfg = s.cfg := rfl
@[simp] theorem checkerMod_vmp (s : State) (c : Nat) (f : Checker → Checker) : (checkerMod s c f).vmp = s.vmp := rfl
@[simp] theorem checkerMod_seq (s : State) (c : Nat) (f : Checker → Checker) : (checkerMod s c f).seq = s.seq := rfl
@[simp] theorem checkerMod_quench (s : State) (c : Nat) (f : Checker → Checker) : (checkerMod s c f).quench = s.quench := rfl
@[simp] theorem checkerMod_eng (s : State) (c : Nat) (f : Checker → Checker) : (checkerMod s c f).eng = s.eng := rfl
@[simp] theorem checkerMod_links (s : State) (c : Nat) (f : Checker → Checker) : (checkerMod s c f).links = s.links := rfl
@[simp] theorem checkerMod_therm (s : State) (c : Nat) (f : Checker → Checker) : (checkerMod s c f).therm = s.therm := rfl
@[simp] theorem checkerMod_mgmt (s : State) (c : Nat) (f : Checker → Checker) : (checkerMod s c f).mgmt = s.mgmt := rfl
@[simp] theorem checkerMod_out (s : State) (c : Nat) (f : Checker → Checker) : (checkerMod s c f).out = s.out := rfl
@[simp] theorem checkerMod_free (s : State) (c : Nat) (f : Checker → Checker) : (checkerMod s c f).free = s.free := rfl
@[simp] theorem checkerMod_pending (s : State) (c : Nat) (f : Checker → Checker) : (checkerMod s c f).pending = s.pending := rfl

/-! #### quenchMod -/

@[simp] theorem quenchMod_power (s : State) (f : Quench → Quench) : (quenchMod s f).power = s.power := rfl
@[simp] theorem quenchMod_boot (s : State) (f : Quench → Quench) : (quenchMod s f).boot = s.boot := rfl
@[simp] theorem quenchMod_ident (s : State) (f : Quench → Quench) : (quenchMod s f).ident = s.ident := rfl
@[simp] theorem quenchMod_units (s : State) (f : Quench → Quench) : (quenchMod s f).units = s.units := rfl
@[simp] theorem quenchMod_tb (s : State) (f : Quench → Quench) : (quenchMod s f).tb = s.tb := rfl
@[simp] theorem quenchMod_form (s : State) (f : Quench → Quench) : (quenchMod s f).form = s.form := rfl
@[simp] theorem quenchMod_cfg (s : State) (f : Quench → Quench) : (quenchMod s f).cfg = s.cfg := rfl
@[simp] theorem quenchMod_vmp (s : State) (f : Quench → Quench) : (quenchMod s f).vmp = s.vmp := rfl
@[simp] theorem quenchMod_seq (s : State) (f : Quench → Quench) : (quenchMod s f).seq = s.seq := rfl
@[simp] theorem quenchMod_mem (s : State) (f : Quench → Quench) : (quenchMod s f).mem = s.mem := rfl
@[simp] theorem quenchMod_eng (s : State) (f : Quench → Quench) : (quenchMod s f).eng = s.eng := rfl
@[simp] theorem quenchMod_links (s : State) (f : Quench → Quench) : (quenchMod s f).links = s.links := rfl
@[simp] theorem quenchMod_therm (s : State) (f : Quench → Quench) : (quenchMod s f).therm = s.therm := rfl
@[simp] theorem quenchMod_mgmt (s : State) (f : Quench → Quench) : (quenchMod s f).mgmt = s.mgmt := rfl
@[simp] theorem quenchMod_out (s : State) (f : Quench → Quench) : (quenchMod s f).out = s.out := rfl
@[simp] theorem quenchMod_free (s : State) (f : Quench → Quench) : (quenchMod s f).free = s.free := rfl
@[simp] theorem quenchMod_pending (s : State) (f : Quench → Quench) : (quenchMod s f).pending = s.pending := rfl

/-! #### mgmtMod -/

@[simp] theorem mgmtMod_power (s : State) (f : Management → Management) : (mgmtMod s f).power = s.power := rfl
@[simp] theorem mgmtMod_boot (s : State) (f : Management → Management) : (mgmtMod s f).boot = s.boot := rfl
@[simp] theorem mgmtMod_ident (s : State) (f : Management → Management) : (mgmtMod s f).ident = s.ident := rfl
@[simp] theorem mgmtMod_units (s : State) (f : Management → Management) : (mgmtMod s f).units = s.units := rfl
@[simp] theorem mgmtMod_tb (s : State) (f : Management → Management) : (mgmtMod s f).tb = s.tb := rfl
@[simp] theorem mgmtMod_form (s : State) (f : Management → Management) : (mgmtMod s f).form = s.form := rfl
@[simp] theorem mgmtMod_cfg (s : State) (f : Management → Management) : (mgmtMod s f).cfg = s.cfg := rfl
@[simp] theorem mgmtMod_vmp (s : State) (f : Management → Management) : (mgmtMod s f).vmp = s.vmp := rfl
@[simp] theorem mgmtMod_seq (s : State) (f : Management → Management) : (mgmtMod s f).seq = s.seq := rfl
@[simp] theorem mgmtMod_quench (s : State) (f : Management → Management) : (mgmtMod s f).quench = s.quench := rfl
@[simp] theorem mgmtMod_mem (s : State) (f : Management → Management) : (mgmtMod s f).mem = s.mem := rfl
@[simp] theorem mgmtMod_eng (s : State) (f : Management → Management) : (mgmtMod s f).eng = s.eng := rfl
@[simp] theorem mgmtMod_links (s : State) (f : Management → Management) : (mgmtMod s f).links = s.links := rfl
@[simp] theorem mgmtMod_therm (s : State) (f : Management → Management) : (mgmtMod s f).therm = s.therm := rfl
@[simp] theorem mgmtMod_out (s : State) (f : Management → Management) : (mgmtMod s f).out = s.out := rfl
@[simp] theorem mgmtMod_free (s : State) (f : Management → Management) : (mgmtMod s f).free = s.free := rfl
@[simp] theorem mgmtMod_pending (s : State) (f : Management → Management) : (mgmtMod s f).pending = s.pending := rfl

/-! #### measure -/

@[simp] theorem measure_power (s : State) (i : Nat) (d : Digest) : (measure s i d).power = s.power := rfl
@[simp] theorem measure_boot (s : State) (i : Nat) (d : Digest) : (measure s i d).boot = s.boot := rfl
@[simp] theorem measure_units (s : State) (i : Nat) (d : Digest) : (measure s i d).units = s.units := rfl
@[simp] theorem measure_tb (s : State) (i : Nat) (d : Digest) : (measure s i d).tb = s.tb := rfl
@[simp] theorem measure_form (s : State) (i : Nat) (d : Digest) : (measure s i d).form = s.form := rfl
@[simp] theorem measure_cfg (s : State) (i : Nat) (d : Digest) : (measure s i d).cfg = s.cfg := rfl
@[simp] theorem measure_vmp (s : State) (i : Nat) (d : Digest) : (measure s i d).vmp = s.vmp := rfl
@[simp] theorem measure_seq (s : State) (i : Nat) (d : Digest) : (measure s i d).seq = s.seq := rfl
@[simp] theorem measure_quench (s : State) (i : Nat) (d : Digest) : (measure s i d).quench = s.quench := rfl
@[simp] theorem measure_mem (s : State) (i : Nat) (d : Digest) : (measure s i d).mem = s.mem := rfl
@[simp] theorem measure_eng (s : State) (i : Nat) (d : Digest) : (measure s i d).eng = s.eng := rfl
@[simp] theorem measure_links (s : State) (i : Nat) (d : Digest) : (measure s i d).links = s.links := rfl
@[simp] theorem measure_therm (s : State) (i : Nat) (d : Digest) : (measure s i d).therm = s.therm := rfl
@[simp] theorem measure_mgmt (s : State) (i : Nat) (d : Digest) : (measure s i d).mgmt = s.mgmt := rfl
@[simp] theorem measure_out (s : State) (i : Nat) (d : Digest) : (measure s i d).out = s.out := rfl
@[simp] theorem measure_free (s : State) (i : Nat) (d : Digest) : (measure s i d).free = s.free := rfl
@[simp] theorem measure_pending (s : State) (i : Nat) (d : Digest) : (measure s i d).pending = s.pending := rfl

/-! #### hardyMod -/

@[simp] theorem hardyMod_power (s : State) (d : Nat) (f : HardyUnit → HardyUnit) : (hardyMod s d f).power = s.power := rfl
@[simp] theorem hardyMod_boot (s : State) (d : Nat) (f : HardyUnit → HardyUnit) : (hardyMod s d f).boot = s.boot := rfl
@[simp] theorem hardyMod_ident (s : State) (d : Nat) (f : HardyUnit → HardyUnit) : (hardyMod s d f).ident = s.ident := rfl
@[simp] theorem hardyMod_units (s : State) (d : Nat) (f : HardyUnit → HardyUnit) : (hardyMod s d f).units = s.units := rfl
@[simp] theorem hardyMod_tb (s : State) (d : Nat) (f : HardyUnit → HardyUnit) : (hardyMod s d f).tb = s.tb := rfl
@[simp] theorem hardyMod_form (s : State) (d : Nat) (f : HardyUnit → HardyUnit) : (hardyMod s d f).form = s.form := rfl
@[simp] theorem hardyMod_cfg (s : State) (d : Nat) (f : HardyUnit → HardyUnit) : (hardyMod s d f).cfg = s.cfg := rfl
@[simp] theorem hardyMod_vmp (s : State) (d : Nat) (f : HardyUnit → HardyUnit) : (hardyMod s d f).vmp = s.vmp := rfl
@[simp] theorem hardyMod_seq (s : State) (d : Nat) (f : HardyUnit → HardyUnit) : (hardyMod s d f).seq = s.seq := rfl
@[simp] theorem hardyMod_quench (s : State) (d : Nat) (f : HardyUnit → HardyUnit) : (hardyMod s d f).quench = s.quench := rfl
@[simp] theorem hardyMod_mem (s : State) (d : Nat) (f : HardyUnit → HardyUnit) : (hardyMod s d f).mem = s.mem := rfl
@[simp] theorem hardyMod_links (s : State) (d : Nat) (f : HardyUnit → HardyUnit) : (hardyMod s d f).links = s.links := rfl
@[simp] theorem hardyMod_therm (s : State) (d : Nat) (f : HardyUnit → HardyUnit) : (hardyMod s d f).therm = s.therm := rfl
@[simp] theorem hardyMod_mgmt (s : State) (d : Nat) (f : HardyUnit → HardyUnit) : (hardyMod s d f).mgmt = s.mgmt := rfl
@[simp] theorem hardyMod_out (s : State) (d : Nat) (f : HardyUnit → HardyUnit) : (hardyMod s d f).out = s.out := rfl
@[simp] theorem hardyMod_free (s : State) (d : Nat) (f : HardyUnit → HardyUnit) : (hardyMod s d f).free = s.free := rfl
@[simp] theorem hardyMod_pending (s : State) (d : Nat) (f : HardyUnit → HardyUnit) : (hardyMod s d f).pending = s.pending := rfl

/-! #### tongsMod -/

@[simp] theorem tongsMod_power (s : State) (e : Nat) (f : Tongs → Tongs) : (tongsMod s e f).power = s.power := rfl
@[simp] theorem tongsMod_boot (s : State) (e : Nat) (f : Tongs → Tongs) : (tongsMod s e f).boot = s.boot := rfl
@[simp] theorem tongsMod_ident (s : State) (e : Nat) (f : Tongs → Tongs) : (tongsMod s e f).ident = s.ident := rfl
@[simp] theorem tongsMod_units (s : State) (e : Nat) (f : Tongs → Tongs) : (tongsMod s e f).units = s.units := rfl
@[simp] theorem tongsMod_tb (s : State) (e : Nat) (f : Tongs → Tongs) : (tongsMod s e f).tb = s.tb := rfl
@[simp] theorem tongsMod_form (s : State) (e : Nat) (f : Tongs → Tongs) : (tongsMod s e f).form = s.form := rfl
@[simp] theorem tongsMod_cfg (s : State) (e : Nat) (f : Tongs → Tongs) : (tongsMod s e f).cfg = s.cfg := rfl
@[simp] theorem tongsMod_vmp (s : State) (e : Nat) (f : Tongs → Tongs) : (tongsMod s e f).vmp = s.vmp := rfl
@[simp] theorem tongsMod_seq (s : State) (e : Nat) (f : Tongs → Tongs) : (tongsMod s e f).seq = s.seq := rfl
@[simp] theorem tongsMod_quench (s : State) (e : Nat) (f : Tongs → Tongs) : (tongsMod s e f).quench = s.quench := rfl
@[simp] theorem tongsMod_mem (s : State) (e : Nat) (f : Tongs → Tongs) : (tongsMod s e f).mem = s.mem := rfl
@[simp] theorem tongsMod_links (s : State) (e : Nat) (f : Tongs → Tongs) : (tongsMod s e f).links = s.links := rfl
@[simp] theorem tongsMod_therm (s : State) (e : Nat) (f : Tongs → Tongs) : (tongsMod s e f).therm = s.therm := rfl
@[simp] theorem tongsMod_mgmt (s : State) (e : Nat) (f : Tongs → Tongs) : (tongsMod s e f).mgmt = s.mgmt := rfl
@[simp] theorem tongsMod_out (s : State) (e : Nat) (f : Tongs → Tongs) : (tongsMod s e f).out = s.out := rfl
@[simp] theorem tongsMod_free (s : State) (e : Nat) (f : Tongs → Tongs) : (tongsMod s e f).free = s.free := rfl
@[simp] theorem tongsMod_pending (s : State) (e : Nat) (f : Tongs → Tongs) : (tongsMod s e f).pending = s.pending := rfl

/-! #### cacheMod -/

@[simp] theorem cacheMod_power (s : State) (k : Nat) (f : CacheSet → CacheSet) : (cacheMod s k f).power = s.power := rfl
@[simp] theorem cacheMod_boot (s : State) (k : Nat) (f : CacheSet → CacheSet) : (cacheMod s k f).boot = s.boot := rfl
@[simp] theorem cacheMod_ident (s : State) (k : Nat) (f : CacheSet → CacheSet) : (cacheMod s k f).ident = s.ident := rfl
@[simp] theorem cacheMod_units (s : State) (k : Nat) (f : CacheSet → CacheSet) : (cacheMod s k f).units = s.units := rfl
@[simp] theorem cacheMod_tb (s : State) (k : Nat) (f : CacheSet → CacheSet) : (cacheMod s k f).tb = s.tb := rfl
@[simp] theorem cacheMod_form (s : State) (k : Nat) (f : CacheSet → CacheSet) : (cacheMod s k f).form = s.form := rfl
@[simp] theorem cacheMod_cfg (s : State) (k : Nat) (f : CacheSet → CacheSet) : (cacheMod s k f).cfg = s.cfg := rfl
@[simp] theorem cacheMod_vmp (s : State) (k : Nat) (f : CacheSet → CacheSet) : (cacheMod s k f).vmp = s.vmp := rfl
@[simp] theorem cacheMod_seq (s : State) (k : Nat) (f : CacheSet → CacheSet) : (cacheMod s k f).seq = s.seq := rfl
@[simp] theorem cacheMod_quench (s : State) (k : Nat) (f : CacheSet → CacheSet) : (cacheMod s k f).quench = s.quench := rfl
@[simp] theorem cacheMod_mem (s : State) (k : Nat) (f : CacheSet → CacheSet) : (cacheMod s k f).mem = s.mem := rfl
@[simp] theorem cacheMod_links (s : State) (k : Nat) (f : CacheSet → CacheSet) : (cacheMod s k f).links = s.links := rfl
@[simp] theorem cacheMod_therm (s : State) (k : Nat) (f : CacheSet → CacheSet) : (cacheMod s k f).therm = s.therm := rfl
@[simp] theorem cacheMod_mgmt (s : State) (k : Nat) (f : CacheSet → CacheSet) : (cacheMod s k f).mgmt = s.mgmt := rfl
@[simp] theorem cacheMod_out (s : State) (k : Nat) (f : CacheSet → CacheSet) : (cacheMod s k f).out = s.out := rfl
@[simp] theorem cacheMod_free (s : State) (k : Nat) (f : CacheSet → CacheSet) : (cacheMod s k f).free = s.free := rfl
@[simp] theorem cacheMod_pending (s : State) (k : Nat) (f : CacheSet → CacheSet) : (cacheMod s k f).pending = s.pending := rfl

/-! #### versionMod -/

@[simp] theorem versionMod_power (s : State) (i n : Nat) (f : TableVersion → TableVersion) : (versionMod s i n f).power = s.power := rfl
@[simp] theorem versionMod_boot (s : State) (i n : Nat) (f : TableVersion → TableVersion) : (versionMod s i n f).boot = s.boot := rfl
@[simp] theorem versionMod_ident (s : State) (i n : Nat) (f : TableVersion → TableVersion) : (versionMod s i n f).ident = s.ident := rfl
@[simp] theorem versionMod_units (s : State) (i n : Nat) (f : TableVersion → TableVersion) : (versionMod s i n f).units = s.units := rfl
@[simp] theorem versionMod_tb (s : State) (i n : Nat) (f : TableVersion → TableVersion) : (versionMod s i n f).tb = s.tb := rfl
@[simp] theorem versionMod_form (s : State) (i n : Nat) (f : TableVersion → TableVersion) : (versionMod s i n f).form = s.form := rfl
@[simp] theorem versionMod_cfg (s : State) (i n : Nat) (f : TableVersion → TableVersion) : (versionMod s i n f).cfg = s.cfg := rfl
@[simp] theorem versionMod_vmp (s : State) (i n : Nat) (f : TableVersion → TableVersion) : (versionMod s i n f).vmp = s.vmp := rfl
@[simp] theorem versionMod_seq (s : State) (i n : Nat) (f : TableVersion → TableVersion) : (versionMod s i n f).seq = s.seq := rfl
@[simp] theorem versionMod_quench (s : State) (i n : Nat) (f : TableVersion → TableVersion) : (versionMod s i n f).quench = s.quench := rfl
@[simp] theorem versionMod_mem (s : State) (i n : Nat) (f : TableVersion → TableVersion) : (versionMod s i n f).mem = s.mem := rfl
@[simp] theorem versionMod_links (s : State) (i n : Nat) (f : TableVersion → TableVersion) : (versionMod s i n f).links = s.links := rfl
@[simp] theorem versionMod_therm (s : State) (i n : Nat) (f : TableVersion → TableVersion) : (versionMod s i n f).therm = s.therm := rfl
@[simp] theorem versionMod_mgmt (s : State) (i n : Nat) (f : TableVersion → TableVersion) : (versionMod s i n f).mgmt = s.mgmt := rfl
@[simp] theorem versionMod_out (s : State) (i n : Nat) (f : TableVersion → TableVersion) : (versionMod s i n f).out = s.out := rfl
@[simp] theorem versionMod_free (s : State) (i n : Nat) (f : TableVersion → TableVersion) : (versionMod s i n f).free = s.free := rfl
@[simp] theorem versionMod_pending (s : State) (i n : Nat) (f : TableVersion → TableVersion) : (versionMod s i n f).pending = s.pending := rfl

/-! #### setMigration -/

@[simp] theorem setMigration_power (s : State) (t v : Nat) (f : Migration → Migration) : (setMigration s t v f).power = s.power := rfl
@[simp] theorem setMigration_boot (s : State) (t v : Nat) (f : Migration → Migration) : (setMigration s t v f).boot = s.boot := rfl
@[simp] theorem setMigration_ident (s : State) (t v : Nat) (f : Migration → Migration) : (setMigration s t v f).ident = s.ident := rfl
@[simp] theorem setMigration_units (s : State) (t v : Nat) (f : Migration → Migration) : (setMigration s t v f).units = s.units := rfl
@[simp] theorem setMigration_tb (s : State) (t v : Nat) (f : Migration → Migration) : (setMigration s t v f).tb = s.tb := rfl
@[simp] theorem setMigration_form (s : State) (t v : Nat) (f : Migration → Migration) : (setMigration s t v f).form = s.form := rfl
@[simp] theorem setMigration_cfg (s : State) (t v : Nat) (f : Migration → Migration) : (setMigration s t v f).cfg = s.cfg := rfl
@[simp] theorem setMigration_vmp (s : State) (t v : Nat) (f : Migration → Migration) : (setMigration s t v f).vmp = s.vmp := rfl
@[simp] theorem setMigration_seq (s : State) (t v : Nat) (f : Migration → Migration) : (setMigration s t v f).seq = s.seq := rfl
@[simp] theorem setMigration_quench (s : State) (t v : Nat) (f : Migration → Migration) : (setMigration s t v f).quench = s.quench := rfl
@[simp] theorem setMigration_mem (s : State) (t v : Nat) (f : Migration → Migration) : (setMigration s t v f).mem = s.mem := rfl
@[simp] theorem setMigration_links (s : State) (t v : Nat) (f : Migration → Migration) : (setMigration s t v f).links = s.links := rfl
@[simp] theorem setMigration_therm (s : State) (t v : Nat) (f : Migration → Migration) : (setMigration s t v f).therm = s.therm := rfl
@[simp] theorem setMigration_mgmt (s : State) (t v : Nat) (f : Migration → Migration) : (setMigration s t v f).mgmt = s.mgmt := rfl
@[simp] theorem setMigration_out (s : State) (t v : Nat) (f : Migration → Migration) : (setMigration s t v f).out = s.out := rfl
@[simp] theorem setMigration_free (s : State) (t v : Nat) (f : Migration → Migration) : (setMigration s t v f).free = s.free := rfl
@[simp] theorem setMigration_pending (s : State) (t v : Nat) (f : Migration → Migration) : (setMigration s t v f).pending = s.pending := rfl

/-! #### setMaster -/

@[simp] theorem setMaster_power (s : State) (c : Candidate) : (setMaster s c).power = s.power := rfl
@[simp] theorem setMaster_boot (s : State) (c : Candidate) : (setMaster s c).boot = s.boot := rfl
@[simp] theorem setMaster_ident (s : State) (c : Candidate) : (setMaster s c).ident = s.ident := rfl
@[simp] theorem setMaster_units (s : State) (c : Candidate) : (setMaster s c).units = s.units := rfl
@[simp] theorem setMaster_form (s : State) (c : Candidate) : (setMaster s c).form = s.form := rfl
@[simp] theorem setMaster_cfg (s : State) (c : Candidate) : (setMaster s c).cfg = s.cfg := rfl
@[simp] theorem setMaster_vmp (s : State) (c : Candidate) : (setMaster s c).vmp = s.vmp := rfl
@[simp] theorem setMaster_seq (s : State) (c : Candidate) : (setMaster s c).seq = s.seq := rfl
@[simp] theorem setMaster_quench (s : State) (c : Candidate) : (setMaster s c).quench = s.quench := rfl
@[simp] theorem setMaster_mem (s : State) (c : Candidate) : (setMaster s c).mem = s.mem := rfl
@[simp] theorem setMaster_eng (s : State) (c : Candidate) : (setMaster s c).eng = s.eng := rfl
@[simp] theorem setMaster_links (s : State) (c : Candidate) : (setMaster s c).links = s.links := rfl
@[simp] theorem setMaster_therm (s : State) (c : Candidate) : (setMaster s c).therm = s.therm := rfl
@[simp] theorem setMaster_mgmt (s : State) (c : Candidate) : (setMaster s c).mgmt = s.mgmt := rfl
@[simp] theorem setMaster_out (s : State) (c : Candidate) : (setMaster s c).out = s.out := rfl
@[simp] theorem setMaster_free (s : State) (c : Candidate) : (setMaster s c).free = s.free := rfl
@[simp] theorem setMaster_pending (s : State) (c : Candidate) : (setMaster s c).pending = s.pending := rfl

@[simp] theorem setJob_seq_strike (s : State) (n : Word) (f : Job → Job) : (setJob s n f).seq.strike = s.seq.strike := rfl
@[simp] theorem setJob_seq_kind (s : State) (n : Word) (f : Job → Job) : (setJob s n f).seq.kind = s.seq.kind := rfl
@[simp] theorem setJob_seq_nextKind (s : State) (n : Word) (f : Job → Job) : (setJob s n f).seq.nextKind = s.seq.nextKind := rfl
@[simp] theorem setJob_seq_hold (s : State) (n : Word) (f : Job → Job) : (setJob s n f).seq.hold = s.seq.hold := rfl
@[simp] theorem setJob_seq_holds (s : State) (n : Word) (f : Job → Job) : (setJob s n f).seq.holds = s.seq.holds := rfl
@[simp] theorem modJobs_seq_strike (s : State) (p : Job → Bool) (f : Job → Job) : (modJobs s p f).seq.strike = s.seq.strike := rfl
@[simp] theorem modJobs_seq_kind (s : State) (p : Job → Bool) (f : Job → Job) : (modJobs s p f).seq.kind = s.seq.kind := rfl
@[simp] theorem modJobs_seq_nextKind (s : State) (p : Job → Bool) (f : Job → Job) : (modJobs s p f).seq.nextKind = s.seq.nextKind := rfl
@[simp] theorem modJobs_seq_hold (s : State) (p : Job → Bool) (f : Job → Job) : (modJobs s p f).seq.hold = s.seq.hold := rfl
@[simp] theorem modJobs_seq_holds (s : State) (p : Job → Bool) (f : Job → Job) : (modJobs s p f).seq.holds = s.seq.holds := rfl
@[simp] theorem recordResult_seq_strike (s : State) (j : Job) (r : ActRef) (x : ActResult) : (recordResult s j r x).seq.strike = s.seq.strike := rfl
@[simp] theorem recordResult_seq_kind (s : State) (j : Job) (r : ActRef) (x : ActResult) : (recordResult s j r x).seq.kind = s.seq.kind := rfl
@[simp] theorem recordResult_seq_nextKind (s : State) (j : Job) (r : ActRef) (x : ActResult) : (recordResult s j r x).seq.nextKind = s.seq.nextKind := rfl
@[simp] theorem recordResult_seq_hold (s : State) (j : Job) (r : ActRef) (x : ActResult) : (recordResult s j r x).seq.hold = s.seq.hold := rfl
@[simp] theorem recordResult_seq_holds (s : State) (j : Job) (r : ActRef) (x : ActResult) : (recordResult s j r x).seq.holds = s.seq.holds := rfl

/-- An update whose steps keep a projection keeps it. -/
theorem foldl_keep {β γ : Type} (f : State → β → State) (g : State → γ) (h : ∀ t x, g (f t x) = g t) :
    ∀ (l : List β) (s : State), g (l.foldl f s) = g s
  | [], _ => rfl
  | x :: l, s => by rw [List.foldl_cons, foldl_keep f g h l, h]

/-- An update whose steps write a set of fields writes no other: `r` puts those fields of the second state into the first. -/
theorem foldl_eq {β : Type} (f : State → β → State) (r : State → State → State) (h1 : ∀ s, r s s = s) (h2 : ∀ s t u, r (r s t) u = r s u)
    (h : ∀ t x, f t x = r t (f t x)) : ∀ (l : List β) (s : State), l.foldl f s = r s (l.foldl f s)
  | [], s => (h1 s).symm
  | x :: l, s => by
    have e := foldl_eq f r h1 h2 h l (f s x)
    exact e.trans ((congrArg (r · _) (h s x)).trans (h2 ..))

theorem count_eq (s : State) (k c n : Nat) : count s k c n = { s with units := (count s k c n).units } := by
  unfold count
  split
  · exact foldl_eq _ (fun s t => { s with units := t.units }) (fun _ => rfl) (fun _ _ _ => rfl) (fun _ _ => rfl) _ s
  · rfl

@[simp] theorem count_power (s : State) (k c n : Nat) : (count s k c n).power = s.power := by rw [count_eq]
@[simp] theorem count_boot (s : State) (k c n : Nat) : (count s k c n).boot = s.boot := by rw [count_eq]
@[simp] theorem count_ident (s : State) (k c n : Nat) : (count s k c n).ident = s.ident := by rw [count_eq]
@[simp] theorem count_tb (s : State) (k c n : Nat) : (count s k c n).tb = s.tb := by rw [count_eq]
@[simp] theorem count_form (s : State) (k c n : Nat) : (count s k c n).form = s.form := by rw [count_eq]
@[simp] theorem count_cfg (s : State) (k c n : Nat) : (count s k c n).cfg = s.cfg := by rw [count_eq]
@[simp] theorem count_vmp (s : State) (k c n : Nat) : (count s k c n).vmp = s.vmp := by rw [count_eq]
@[simp] theorem count_seq (s : State) (k c n : Nat) : (count s k c n).seq = s.seq := by rw [count_eq]
@[simp] theorem count_quench (s : State) (k c n : Nat) : (count s k c n).quench = s.quench := by rw [count_eq]
@[simp] theorem count_mem (s : State) (k c n : Nat) : (count s k c n).mem = s.mem := by rw [count_eq]
@[simp] theorem count_eng (s : State) (k c n : Nat) : (count s k c n).eng = s.eng := by rw [count_eq]
@[simp] theorem count_links (s : State) (k c n : Nat) : (count s k c n).links = s.links := by rw [count_eq]
@[simp] theorem count_therm (s : State) (k c n : Nat) : (count s k c n).therm = s.therm := by rw [count_eq]
@[simp] theorem count_mgmt (s : State) (k c n : Nat) : (count s k c n).mgmt = s.mgmt := by rw [count_eq]
@[simp] theorem count_out (s : State) (k c n : Nat) : (count s k c n).out = s.out := by rw [count_eq]
@[simp] theorem count_free (s : State) (k c n : Nat) : (count s k c n).free = s.free := by rw [count_eq]
@[simp] theorem count_pending (s : State) (k c n : Nat) : (count s k c n).pending = s.pending := by rw [count_eq]

theorem countIf_eq (s : State) (k c n : Nat) : countIf s k c n = { s with units := (countIf s k c n).units } := by
  unfold countIf
  split
  · rfl
  · exact count_eq s k c n

@[simp] theorem countIf_power (s : State) (k c n : Nat) : (countIf s k c n).power = s.power := by rw [countIf_eq]
@[simp] theorem countIf_boot (s : State) (k c n : Nat) : (countIf s k c n).boot = s.boot := by rw [countIf_eq]
@[simp] theorem countIf_ident (s : State) (k c n : Nat) : (countIf s k c n).ident = s.ident := by rw [countIf_eq]
@[simp] theorem countIf_tb (s : State) (k c n : Nat) : (countIf s k c n).tb = s.tb := by rw [countIf_eq]
@[simp] theorem countIf_form (s : State) (k c n : Nat) : (countIf s k c n).form = s.form := by rw [countIf_eq]
@[simp] theorem countIf_cfg (s : State) (k c n : Nat) : (countIf s k c n).cfg = s.cfg := by rw [countIf_eq]
@[simp] theorem countIf_vmp (s : State) (k c n : Nat) : (countIf s k c n).vmp = s.vmp := by rw [countIf_eq]
@[simp] theorem countIf_seq (s : State) (k c n : Nat) : (countIf s k c n).seq = s.seq := by rw [countIf_eq]
@[simp] theorem countIf_quench (s : State) (k c n : Nat) : (countIf s k c n).quench = s.quench := by rw [countIf_eq]
@[simp] theorem countIf_mem (s : State) (k c n : Nat) : (countIf s k c n).mem = s.mem := by rw [countIf_eq]
@[simp] theorem countIf_eng (s : State) (k c n : Nat) : (countIf s k c n).eng = s.eng := by rw [countIf_eq]
@[simp] theorem countIf_links (s : State) (k c n : Nat) : (countIf s k c n).links = s.links := by rw [countIf_eq]
@[simp] theorem countIf_therm (s : State) (k c n : Nat) : (countIf s k c n).therm = s.therm := by rw [countIf_eq]
@[simp] theorem countIf_mgmt (s : State) (k c n : Nat) : (countIf s k c n).mgmt = s.mgmt := by rw [countIf_eq]
@[simp] theorem countIf_out (s : State) (k c n : Nat) : (countIf s k c n).out = s.out := by rw [countIf_eq]
@[simp] theorem countIf_free (s : State) (k c n : Nat) : (countIf s k c n).free = s.free := by rw [countIf_eq]
@[simp] theorem countIf_pending (s : State) (k c n : Nat) : (countIf s k c n).pending = s.pending := by rw [countIf_eq]

theorem stickySet_eq (s : State) (k b : Nat) : stickySet s k b = { s with units := (stickySet s k b).units } := by
  unfold stickySet
  dsimp only
  split <;> rfl

@[simp] theorem stickySet_power (s : State) (k b : Nat) : (stickySet s k b).power = s.power := by rw [stickySet_eq]
@[simp] theorem stickySet_boot (s : State) (k b : Nat) : (stickySet s k b).boot = s.boot := by rw [stickySet_eq]
@[simp] theorem stickySet_ident (s : State) (k b : Nat) : (stickySet s k b).ident = s.ident := by rw [stickySet_eq]
@[simp] theorem stickySet_tb (s : State) (k b : Nat) : (stickySet s k b).tb = s.tb := by rw [stickySet_eq]
@[simp] theorem stickySet_form (s : State) (k b : Nat) : (stickySet s k b).form = s.form := by rw [stickySet_eq]
@[simp] theorem stickySet_cfg (s : State) (k b : Nat) : (stickySet s k b).cfg = s.cfg := by rw [stickySet_eq]
@[simp] theorem stickySet_vmp (s : State) (k b : Nat) : (stickySet s k b).vmp = s.vmp := by rw [stickySet_eq]
@[simp] theorem stickySet_seq (s : State) (k b : Nat) : (stickySet s k b).seq = s.seq := by rw [stickySet_eq]
@[simp] theorem stickySet_quench (s : State) (k b : Nat) : (stickySet s k b).quench = s.quench := by rw [stickySet_eq]
@[simp] theorem stickySet_mem (s : State) (k b : Nat) : (stickySet s k b).mem = s.mem := by rw [stickySet_eq]
@[simp] theorem stickySet_eng (s : State) (k b : Nat) : (stickySet s k b).eng = s.eng := by rw [stickySet_eq]
@[simp] theorem stickySet_links (s : State) (k b : Nat) : (stickySet s k b).links = s.links := by rw [stickySet_eq]
@[simp] theorem stickySet_therm (s : State) (k b : Nat) : (stickySet s k b).therm = s.therm := by rw [stickySet_eq]
@[simp] theorem stickySet_mgmt (s : State) (k b : Nat) : (stickySet s k b).mgmt = s.mgmt := by rw [stickySet_eq]
@[simp] theorem stickySet_out (s : State) (k b : Nat) : (stickySet s k b).out = s.out := by rw [stickySet_eq]
@[simp] theorem stickySet_free (s : State) (k b : Nat) : (stickySet s k b).free = s.free := by rw [stickySet_eq]
@[simp] theorem stickySet_pending (s : State) (k b : Nat) : (stickySet s k b).pending = s.pending := by rw [stickySet_eq]

theorem fenceUnit_eq (s : State) (k : Nat) : fenceUnit s k = { s with units := (fenceUnit s k).units } := by
  unfold fenceUnit
  rw [stickySet_eq]; rfl

@[simp] theorem fenceUnit_power (s : State) (k : Nat) : (fenceUnit s k).power = s.power := by rw [fenceUnit_eq]
@[simp] theorem fenceUnit_boot (s : State) (k : Nat) : (fenceUnit s k).boot = s.boot := by rw [fenceUnit_eq]
@[simp] theorem fenceUnit_ident (s : State) (k : Nat) : (fenceUnit s k).ident = s.ident := by rw [fenceUnit_eq]
@[simp] theorem fenceUnit_tb (s : State) (k : Nat) : (fenceUnit s k).tb = s.tb := by rw [fenceUnit_eq]
@[simp] theorem fenceUnit_form (s : State) (k : Nat) : (fenceUnit s k).form = s.form := by rw [fenceUnit_eq]
@[simp] theorem fenceUnit_cfg (s : State) (k : Nat) : (fenceUnit s k).cfg = s.cfg := by rw [fenceUnit_eq]
@[simp] theorem fenceUnit_vmp (s : State) (k : Nat) : (fenceUnit s k).vmp = s.vmp := by rw [fenceUnit_eq]
@[simp] theorem fenceUnit_seq (s : State) (k : Nat) : (fenceUnit s k).seq = s.seq := by rw [fenceUnit_eq]
@[simp] theorem fenceUnit_quench (s : State) (k : Nat) : (fenceUnit s k).quench = s.quench := by rw [fenceUnit_eq]
@[simp] theorem fenceUnit_mem (s : State) (k : Nat) : (fenceUnit s k).mem = s.mem := by rw [fenceUnit_eq]
@[simp] theorem fenceUnit_eng (s : State) (k : Nat) : (fenceUnit s k).eng = s.eng := by rw [fenceUnit_eq]
@[simp] theorem fenceUnit_links (s : State) (k : Nat) : (fenceUnit s k).links = s.links := by rw [fenceUnit_eq]
@[simp] theorem fenceUnit_therm (s : State) (k : Nat) : (fenceUnit s k).therm = s.therm := by rw [fenceUnit_eq]
@[simp] theorem fenceUnit_mgmt (s : State) (k : Nat) : (fenceUnit s k).mgmt = s.mgmt := by rw [fenceUnit_eq]
@[simp] theorem fenceUnit_out (s : State) (k : Nat) : (fenceUnit s k).out = s.out := by rw [fenceUnit_eq]
@[simp] theorem fenceUnit_free (s : State) (k : Nat) : (fenceUnit s k).free = s.free := by rw [fenceUnit_eq]
@[simp] theorem fenceUnit_pending (s : State) (k : Nat) : (fenceUnit s k).pending = s.pending := by rw [fenceUnit_eq]

theorem sendOnPort_eq (s : State) (p : Nat) (m : CtlMsg) : sendOnPort s p m = { s with links := (sendOnPort s p m).links, out := (sendOnPort s p m).out } := by
  unfold sendOnPort
  split <;> rfl

@[simp] theorem sendOnPort_power (s : State) (p : Nat) (m : CtlMsg) : (sendOnPort s p m).power = s.power := by rw [sendOnPort_eq]
@[simp] theorem sendOnPort_boot (s : State) (p : Nat) (m : CtlMsg) : (sendOnPort s p m).boot = s.boot := by rw [sendOnPort_eq]
@[simp] theorem sendOnPort_ident (s : State) (p : Nat) (m : CtlMsg) : (sendOnPort s p m).ident = s.ident := by rw [sendOnPort_eq]
@[simp] theorem sendOnPort_units (s : State) (p : Nat) (m : CtlMsg) : (sendOnPort s p m).units = s.units := by rw [sendOnPort_eq]
@[simp] theorem sendOnPort_tb (s : State) (p : Nat) (m : CtlMsg) : (sendOnPort s p m).tb = s.tb := by rw [sendOnPort_eq]
@[simp] theorem sendOnPort_form (s : State) (p : Nat) (m : CtlMsg) : (sendOnPort s p m).form = s.form := by rw [sendOnPort_eq]
@[simp] theorem sendOnPort_cfg (s : State) (p : Nat) (m : CtlMsg) : (sendOnPort s p m).cfg = s.cfg := by rw [sendOnPort_eq]
@[simp] theorem sendOnPort_vmp (s : State) (p : Nat) (m : CtlMsg) : (sendOnPort s p m).vmp = s.vmp := by rw [sendOnPort_eq]
@[simp] theorem sendOnPort_seq (s : State) (p : Nat) (m : CtlMsg) : (sendOnPort s p m).seq = s.seq := by rw [sendOnPort_eq]
@[simp] theorem sendOnPort_quench (s : State) (p : Nat) (m : CtlMsg) : (sendOnPort s p m).quench = s.quench := by rw [sendOnPort_eq]
@[simp] theorem sendOnPort_mem (s : State) (p : Nat) (m : CtlMsg) : (sendOnPort s p m).mem = s.mem := by rw [sendOnPort_eq]
@[simp] theorem sendOnPort_eng (s : State) (p : Nat) (m : CtlMsg) : (sendOnPort s p m).eng = s.eng := by rw [sendOnPort_eq]
@[simp] theorem sendOnPort_therm (s : State) (p : Nat) (m : CtlMsg) : (sendOnPort s p m).therm = s.therm := by rw [sendOnPort_eq]
@[simp] theorem sendOnPort_mgmt (s : State) (p : Nat) (m : CtlMsg) : (sendOnPort s p m).mgmt = s.mgmt := by rw [sendOnPort_eq]
@[simp] theorem sendOnPort_free (s : State) (p : Nat) (m : CtlMsg) : (sendOnPort s p m).free = s.free := by rw [sendOnPort_eq]
@[simp] theorem sendOnPort_pending (s : State) (p : Nat) (m : CtlMsg) : (sendOnPort s p m).pending = s.pending := by rw [sendOnPort_eq]

theorem floodMsg_eq (s : State) (y : Nat) (b : CtlBody) : floodMsg s y b = { s with links := (floodMsg s y b).links, out := (floodMsg s y b).out } := by
  unfold floodMsg
  have h := foldl_eq (fun t p => sendOnPort t p (newMsg s y 0xFFFF b)) (fun s t => { s with links := t.links, out := t.out })
    (fun _ => rfl) (fun _ _ _ => rfl) (fun t p => sendOnPort_eq t p _) (upPorts s) { s with links := { s.links with ctlSeq := s.links.ctlSeq + 1 } }
  dsimp only at h ⊢
  rw [h]

@[simp] theorem floodMsg_power (s : State) (y : Nat) (b : CtlBody) : (floodMsg s y b).power = s.power := by rw [floodMsg_eq]
@[simp] theorem floodMsg_boot (s : State) (y : Nat) (b : CtlBody) : (floodMsg s y b).boot = s.boot := by rw [floodMsg_eq]
@[simp] theorem floodMsg_ident (s : State) (y : Nat) (b : CtlBody) : (floodMsg s y b).ident = s.ident := by rw [floodMsg_eq]
@[simp] theorem floodMsg_units (s : State) (y : Nat) (b : CtlBody) : (floodMsg s y b).units = s.units := by rw [floodMsg_eq]
@[simp] theorem floodMsg_tb (s : State) (y : Nat) (b : CtlBody) : (floodMsg s y b).tb = s.tb := by rw [floodMsg_eq]
@[simp] theorem floodMsg_form (s : State) (y : Nat) (b : CtlBody) : (floodMsg s y b).form = s.form := by rw [floodMsg_eq]
@[simp] theorem floodMsg_cfg (s : State) (y : Nat) (b : CtlBody) : (floodMsg s y b).cfg = s.cfg := by rw [floodMsg_eq]
@[simp] theorem floodMsg_vmp (s : State) (y : Nat) (b : CtlBody) : (floodMsg s y b).vmp = s.vmp := by rw [floodMsg_eq]
@[simp] theorem floodMsg_seq (s : State) (y : Nat) (b : CtlBody) : (floodMsg s y b).seq = s.seq := by rw [floodMsg_eq]
@[simp] theorem floodMsg_quench (s : State) (y : Nat) (b : CtlBody) : (floodMsg s y b).quench = s.quench := by rw [floodMsg_eq]
@[simp] theorem floodMsg_mem (s : State) (y : Nat) (b : CtlBody) : (floodMsg s y b).mem = s.mem := by rw [floodMsg_eq]
@[simp] theorem floodMsg_eng (s : State) (y : Nat) (b : CtlBody) : (floodMsg s y b).eng = s.eng := by rw [floodMsg_eq]
@[simp] theorem floodMsg_therm (s : State) (y : Nat) (b : CtlBody) : (floodMsg s y b).therm = s.therm := by rw [floodMsg_eq]
@[simp] theorem floodMsg_mgmt (s : State) (y : Nat) (b : CtlBody) : (floodMsg s y b).mgmt = s.mgmt := by rw [floodMsg_eq]
@[simp] theorem floodMsg_free (s : State) (y : Nat) (b : CtlBody) : (floodMsg s y b).free = s.free := by rw [floodMsg_eq]
@[simp] theorem floodMsg_pending (s : State) (y : Nat) (b : CtlBody) : (floodMsg s y b).pending = s.pending := by rw [floodMsg_eq]

theorem routeMsg_eq (s : State) (m : CtlMsg) : routeMsg s m = { s with links := (routeMsg s m).links, out := (routeMsg s m).out, units := (routeMsg s m).units } := by
  unfold routeMsg
  split
  · rw [sendOnPort_eq]
  · rw [count_eq]

@[simp] theorem routeMsg_power (s : State) (m : CtlMsg) : (routeMsg s m).power = s.power := by rw [routeMsg_eq]
@[simp] theorem routeMsg_boot (s : State) (m : CtlMsg) : (routeMsg s m).boot = s.boot := by rw [routeMsg_eq]
@[simp] theorem routeMsg_ident (s : State) (m : CtlMsg) : (routeMsg s m).ident = s.ident := by rw [routeMsg_eq]
@[simp] theorem routeMsg_tb (s : State) (m : CtlMsg) : (routeMsg s m).tb = s.tb := by rw [routeMsg_eq]
@[simp] theorem routeMsg_form (s : State) (m : CtlMsg) : (routeMsg s m).form = s.form := by rw [routeMsg_eq]
@[simp] theorem routeMsg_cfg (s : State) (m : CtlMsg) : (routeMsg s m).cfg = s.cfg := by rw [routeMsg_eq]
@[simp] theorem routeMsg_vmp (s : State) (m : CtlMsg) : (routeMsg s m).vmp = s.vmp := by rw [routeMsg_eq]
@[simp] theorem routeMsg_seq (s : State) (m : CtlMsg) : (routeMsg s m).seq = s.seq := by rw [routeMsg_eq]
@[simp] theorem routeMsg_quench (s : State) (m : CtlMsg) : (routeMsg s m).quench = s.quench := by rw [routeMsg_eq]
@[simp] theorem routeMsg_mem (s : State) (m : CtlMsg) : (routeMsg s m).mem = s.mem := by rw [routeMsg_eq]
@[simp] theorem routeMsg_eng (s : State) (m : CtlMsg) : (routeMsg s m).eng = s.eng := by rw [routeMsg_eq]
@[simp] theorem routeMsg_therm (s : State) (m : CtlMsg) : (routeMsg s m).therm = s.therm := by rw [routeMsg_eq]
@[simp] theorem routeMsg_mgmt (s : State) (m : CtlMsg) : (routeMsg s m).mgmt = s.mgmt := by rw [routeMsg_eq]
@[simp] theorem routeMsg_free (s : State) (m : CtlMsg) : (routeMsg s m).free = s.free := by rw [routeMsg_eq]
@[simp] theorem routeMsg_pending (s : State) (m : CtlMsg) : (routeMsg s m).pending = s.pending := by rw [routeMsg_eq]

theorem sendTo_eq (s : State) (ds : List Nat) (y : Nat) (b : CtlBody) : sendTo s ds y b = { s with links := (sendTo s ds y b).links, out := (sendTo s ds y b).out, units := (sendTo s ds y b).units } := by
  unfold sendTo
  refine foldl_eq _ (fun s t => { s with links := t.links, out := t.out, units := t.units }) (fun _ => rfl) (fun _ _ _ => rfl) (fun t d => ?_) _ s
  rw [routeMsg_eq]

@[simp] theorem sendTo_power (s : State) (ds : List Nat) (y : Nat) (b : CtlBody) : (sendTo s ds y b).power = s.power := by rw [sendTo_eq]
@[simp] theorem sendTo_boot (s : State) (ds : List Nat) (y : Nat) (b : CtlBody) : (sendTo s ds y b).boot = s.boot := by rw [sendTo_eq]
@[simp] theorem sendTo_ident (s : State) (ds : List Nat) (y : Nat) (b : CtlBody) : (sendTo s ds y b).ident = s.ident := by rw [sendTo_eq]
@[simp] theorem sendTo_tb (s : State) (ds : List Nat) (y : Nat) (b : CtlBody) : (sendTo s ds y b).tb = s.tb := by rw [sendTo_eq]
@[simp] theorem sendTo_form (s : State) (ds : List Nat) (y : Nat) (b : CtlBody) : (sendTo s ds y b).form = s.form := by rw [sendTo_eq]
@[simp] theorem sendTo_cfg (s : State) (ds : List Nat) (y : Nat) (b : CtlBody) : (sendTo s ds y b).cfg = s.cfg := by rw [sendTo_eq]
@[simp] theorem sendTo_vmp (s : State) (ds : List Nat) (y : Nat) (b : CtlBody) : (sendTo s ds y b).vmp = s.vmp := by rw [sendTo_eq]
@[simp] theorem sendTo_seq (s : State) (ds : List Nat) (y : Nat) (b : CtlBody) : (sendTo s ds y b).seq = s.seq := by rw [sendTo_eq]
@[simp] theorem sendTo_quench (s : State) (ds : List Nat) (y : Nat) (b : CtlBody) : (sendTo s ds y b).quench = s.quench := by rw [sendTo_eq]
@[simp] theorem sendTo_mem (s : State) (ds : List Nat) (y : Nat) (b : CtlBody) : (sendTo s ds y b).mem = s.mem := by rw [sendTo_eq]
@[simp] theorem sendTo_eng (s : State) (ds : List Nat) (y : Nat) (b : CtlBody) : (sendTo s ds y b).eng = s.eng := by rw [sendTo_eq]
@[simp] theorem sendTo_therm (s : State) (ds : List Nat) (y : Nat) (b : CtlBody) : (sendTo s ds y b).therm = s.therm := by rw [sendTo_eq]
@[simp] theorem sendTo_mgmt (s : State) (ds : List Nat) (y : Nat) (b : CtlBody) : (sendTo s ds y b).mgmt = s.mgmt := by rw [sendTo_eq]
@[simp] theorem sendTo_free (s : State) (ds : List Nat) (y : Nat) (b : CtlBody) : (sendTo s ds y b).free = s.free := by rw [sendTo_eq]
@[simp] theorem sendTo_pending (s : State) (ds : List Nat) (y : Nat) (b : CtlBody) : (sendTo s ds y b).pending = s.pending := by rw [sendTo_eq]

end Sys2Proof.Laws
end

