-- ==== Sys2Proof/Laws/Memory.lean ====
section
/-!
SUPPORT. The memory operations keep the canonical form of memory and the order of the unit pages (`Form`), and write no field of State but the
memory, the units and the persistent log.
-/
namespace Sys2Proof.Laws

open Sys2Proof.Machine

/-- The form that Safety's `Kept` names, as one proposition about a state. -/
def Form (s : State) : Prop := s.mem.wf = true ∧ Rises s.units.pages

theorem memWf_iff {m : Mem} :
    m.wf = true ↔ sparseWf 0 m.cells = true ∧ sparseWf 0 m.synd = true ∧ sparseWf [] m.merge = true ∧ Rises m.checkers := by
  simp [Mem.wf, Rises, and_assoc]

theorem form_iff {s : State} :
    Form s ↔ (sparseWf 0 s.mem.cells = true ∧ sparseWf 0 s.mem.synd = true ∧ sparseWf [] s.mem.merge = true ∧ Rises s.mem.checkers) ∧
      Rises s.units.pages := by
  rw [Form, memWf_iff]

/-- An update that keeps the memory and the units keeps the form. -/
theorem form_of_eq {s t : State} (h : Form s) (h1 : t.mem = s.mem) (h2 : t.units.pages = s.units.pages) : Form t := by
  unfold Form at *; rw [h1, h2]; exact h

theorem foldl_kept {β : Type} {f : State → β → State} (h : ∀ t x, Form t → Form (f t x)) : ∀ {l : List β} {s : State}, Form s → Form (l.foldl f s)
  | [], _, hs => hs
  | x :: l, s, hs => by
    rw [List.foldl_cons]
    exact foldl_kept (s := f s x) h (h s x hs)

theorem forKeys_kept {f : State → Nat → State} {ks : List Nat} {s : State} (h : ∀ t x, Form t → Form (f t x)) (hs : Form s) : Form (forKeys s ks f) :=
  foldl_kept h hs

/-! ### Units -/

theorem unitSet_kept {s : State} {k : Nat} {u : UnitState} (h : Form s) : Form (unitSet s k u) := ⟨h.1, sparseSet_rises h.2⟩
theorem unitMod_kept {s : State} {k : Nat} {f : UnitState → UnitState} (h : Form s) : Form (unitMod s k f) := unitSet_kept h
theorem pageMod_kept {s : State} {k : Nat} {f : UnitPage → UnitPage} (h : Form s) : Form (pageMod s k f) := unitSet_kept h
theorem flagsMod_kept {s : State} {k : Nat} {f : UnitFlags → UnitFlags} (h : Form s) : Form (flagsMod s k f) := unitSet_kept h
theorem counterAddOne_kept {s : State} {c n k : Nat} (h : Form s) : Form (counterAddOne s c n k) := unitSet_kept h

theorem count_kept {s : State} {k c n : Nat} (h : Form s) : Form (count s k c n) := by
  unfold count
  split
  · exact foldl_kept (fun t a ht => counterAddOne_kept ht) h
  · exact counterAddOne_kept h

theorem countIf_kept {s : State} {k c n : Nat} (h : Form s) : Form (countIf s k c n) := by
  unfold countIf
  split
  · exact h
  · exact count_kept h

theorem stickySet_kept {s : State} {k b : Nat} (h : Form s) : Form (stickySet s k b) := by
  have h1 : Form (pageMod s k (fun p => if s.tb.strikeDefined then { p with fresh := p.fresh ||| BitVec.ofNat 64 (2 ^ b) }
      else { p with sticky := p.sticky ||| BitVec.ofNat 64 (2 ^ b) })) := pageMod_kept h
  unfold stickySet
  dsimp only
  split
  · exact form_of_eq h1 rfl rfl
  · exact form_of_eq h1 rfl rfl

theorem fenceUnit_kept {s : State} {k : Nat} (h : Form s) : Form (fenceUnit s k) := stickySet_kept (flagsMod_kept h)

/-- A unit reads what a change made of it. -/
theorem unitGet_unitMod {s : State} {k j : Nat} {f : UnitState → UnitState} (h : Rises s.units.pages) :
    unitGet (unitMod s k f) j = if j = k then f (unitGet s k) else unitGet s j := by
  unfold unitGet unitMod unitSet
  by_cases e : j = k
  · subst e; simp only [sparseGet_sparseSet h, if_true]; rfl
  · rw [if_neg e]; exact sparseGet_sparseSet_ne e

theorem unitGet_unitMod_ne {s : State} {k j : Nat} {f : UnitState → UnitState} (e : j ≠ k) : unitGet (unitMod s k f) j = unitGet s j := by
  unfold unitGet unitMod unitSet
  exact sparseGet_sparseSet_ne e

theorem unitGet_unitMod_of_ne_default {s : State} {k : Nat} {f : UnitState → UnitState} (h : f (unitGet s k) ≠ pageDefault k) :
    unitGet (unitMod s k f) k = f (unitGet s k) := by
  unfold unitGet unitMod unitSet
  exact (sparseGet_sparseSet_of_ne (l := s.units.pages) h).trans (if_pos rfl)

/-! ### Cells and words -/

theorem cellSet_wf {a : Nat} {b : Byte} {m : List Host.Cell} (h : sparseWf 0 m = true) : sparseWf 0 (cellSet a b m) = true := sparseSet_wf h

theorem cellsPut_wf : ∀ {bs : List Byte} {a : Nat} {m : List Host.Cell}, sparseWf 0 m = true → sparseWf 0 (cellsPut a bs m) = true
  | [], _, _, h => h
  | b :: bs, a, m, h => by
    rw [cellsPut]
    exact cellsPut_wf (cellSet_wf h)

theorem cellGet_cellSet {a j : Nat} {b : Byte} {m : List Host.Cell} (h : sparseWf 0 m = true) :
    cellGet j (cellSet a b m) = if j = a then b else cellGet j m := sparseGet_sparseSet (sparseWf_iff.1 h).1

theorem cellGet_cellSet_ne {a j : Nat} {b : Byte} {m : List Host.Cell} (e : j ≠ a) : cellGet j (cellSet a b m) = cellGet j m :=
  sparseGet_sparseSet_ne e

/-- Bytes stored at a run of addresses read back, and every other address reads as before. -/
theorem cellGet_cellsPut : ∀ {bs : List Byte} {a j : Nat} {m : List Host.Cell}, sparseWf 0 m = true →
    cellGet j (cellsPut a bs m) = if a ≤ j ∧ j < a + bs.length then bs.getD (j - a) 0 else cellGet j m
  | [], a, j, m, _ => by simp [cellsPut]
  | b :: bs, a, j, m, h => by
    rw [cellsPut, cellGet_cellsPut (cellSet_wf h), cellGet_cellSet h, List.length_cons]
    by_cases e : j = a
    · subst e; simp
    · by_cases c : a + 1 ≤ j ∧ j < a + 1 + bs.length
      · have : j - a = (j - (a + 1)) + 1 := by omega
        rw [if_pos c, if_pos (by omega), this, List.getD_cons_succ]
      · rw [if_neg c, if_neg e, if_neg (by omega)]

theorem flipCell_wf {m : List Host.Cell} {a i : Nat} (h : sparseWf 0 m = true) : sparseWf 0 (flipCell m a i) = true := cellSet_wf h

theorem cellsClear_wf {lo n : Nat} {m : List Host.Cell} (h : sparseWf 0 m = true) : sparseWf 0 (cellsClear lo n m) = true := filter_wf _ h

theorem foldl_cells_wf {β : Type} {f : List Host.Cell → β → List Host.Cell} (hf : ∀ m x, sparseWf 0 m = true → sparseWf 0 (f m x) = true) :
    ∀ {l : List β} {m : List Host.Cell}, sparseWf 0 m = true → sparseWf 0 (l.foldl f m) = true
  | [], _, h => h
  | x :: l, m, h => by
    rw [List.foldl_cons]
    exact foldl_cells_wf hf (hf m x h)

theorem checkerMod_kept {s : State} {c : Nat} {f : Checker → Checker} (h : Form s) : Form (checkerMod s c f) := by
  rw [form_iff] at *
  exact ⟨⟨h.1.1, h.1.2.1, h.1.2.2.1, sparseSet_rises h.1.2.2.2⟩, h.2⟩

theorem logPersistent_kept {s : State} {r : LogRecord} (h : Form s) : Form (logPersistent s r) := form_of_eq h rfl rfl

theorem poisonWord_kept {s : State} {a : Nat} (h : Form s) : Form (poisonWord s a) := by
  unfold poisonWord
  split
  · rw [form_iff] at *
    have hs : sparseWf 0 (sparseSet 0 (a / 8) (0xFF : BitVec 8) s.mem.synd) = true := sparseSet_wf h.1.2.1
    exact ⟨⟨h.1.1, hs, h.1.2.2⟩, h.2⟩
  · exact h

theorem repairEvent_kept {s : State} {c i a : Nat} {u : Bool} (h : Form s) : Form (repairEvent s c i a u) := by
  unfold repairEvent
  dsimp only
  split
  · split
    · exact h
    · split <;> exact checkerMod_kept h
  · split
    · exact logPersistent_kept (checkerMod_kept (checkerMod_kept h))
    · exact checkerMod_kept h

theorem eccLog_kept {s : State} {a : Nat} {sy : BitVec 8} {k : BitVec 2} (h : Form s) : Form (eccLog s a sy k) := by
  unfold eccLog
  dsimp only
  split
  · exact stickySet_kept (count_kept (checkerMod_kept (checkerMod_kept h)))
  · exact stickySet_kept (count_kept (checkerMod_kept h))

theorem eccEvent_kept {s : State} {a : Nat} {sy : BitVec 8} {k : BitVec 2} (h : Form s) : Form (eccEvent s a sy k) := by
  unfold eccEvent
  dsimp only
  split
  · exact eccLog_kept h
  · exact repairEvent_kept (eccLog_kept h)

theorem mergePut_wf {m : Mem} {b : Nat} {es : List MergeEntry} (h : m.wf = true) : (mergePut m b es).wf = true := by
  rw [memWf_iff] at *
  exact ⟨h.1, h.2.1, sparseSet_wf h.2.2.1, h.2.2.2⟩

theorem mergePut_kept {s : State} {b : Nat} {es : List MergeEntry} (h : Form s) : Form { s with mem := mergePut s.mem b es } := ⟨mergePut_wf h.1, h.2⟩

theorem mergeDrop_kept {s : State} {b a : Nat} (h : Form s) : Form { s with mem := mergeDrop s.mem b a } := mergePut_kept h

/-- A store into the cells with the word's code made clean or poisoned, whatever becomes of the list of injected words. -/
theorem store_kept {s : State} {c : List Host.Cell} {y : Sparse (BitVec 8)} {i : List Nat} (h : Form s) (hc : sparseWf 0 c = true) (hy : sparseWf 0 y = true) :
    Form { s with mem := { s.mem with cells := c, synd := y, injected := i } } := by
  rw [form_iff] at *
  exact ⟨⟨hc, hy, h.1.2.2⟩, h.2⟩

theorem form_cells {s : State} (h : Form s) : sparseWf 0 s.mem.cells = true := (form_iff.1 h).1.1
theorem form_synd {s : State} (h : Form s) : sparseWf 0 s.mem.synd = true := (form_iff.1 h).1.2.1

theorem flipCells_wf {lo a : Nat} {l : List Nat} {m : List Host.Cell} (h : sparseWf 0 m = true) :
    sparseWf 0 (l.foldl (fun m i => if bit lo i then flipCell m a i else m) m) = true := by
  refine foldl_cells_wf (fun m x hm => ?_) h
  split
  · exact flipCell_wf hm
  · exact hm

theorem flipApply_kept {s : State} {a : Nat} (h : Form s) : Form (flipApply s a) := by
  unfold flipApply
  dsimp only
  repeat' split
  all_goals first
    | exact h
    | exact checkerMod_kept (store_kept h (flipCells_wf (form_cells h)) (sparseSet_wf (form_synd h)))

theorem readWord_kept {s : State} {a : Nat} (h : Form s) : Form (readWord s a).1 := by
  unfold readWord
  split
  · exact h
  · split
    · exact h
    · exact store_kept (eccEvent_kept h) (form_cells (eccEvent_kept h)) (sparseErase_wf (form_synd (eccEvent_kept h)))
    · exact store_kept (eccEvent_kept h) (flipCell_wf (form_cells (eccEvent_kept h))) (sparseErase_wf (form_synd (eccEvent_kept h)))
    · exact eccEvent_kept h
    · exact eccEvent_kept h

/-- The read of each word of a range in turn: the state after, and the lowest word that fails. -/
def readWords (s : State) (ws : List Nat) : State × Option Nat := ws.foldl (fun (acc : State × Option Nat) w =>
  let (t, ok) := readWord acc.1 w
  (t, if ok then acc.2 else acc.2.or (some w))) (s, none)

/-- A read leaves what the reads of its words leave, but for the note of the failing word. -/
theorem memRead_st (s : State) (a n : Nat) :
    ∃ b, (memRead s a n).st = { (readWords s (dirtyWords s a n)).1 with mem := { (readWords s (dirtyWords s a n)).1.mem with badWord := b } } := by
  have key : ∀ (c : Bool) (t : State) (b : Option Nat),
      ∃ b', (if c then { t with mem := { t.mem with badWord := b } } else t) = { t with mem := { t.mem with badWord := b' } } := by
    intro c t b
    cases c
    · exact ⟨t.mem.badWord, rfl⟩
    · exact ⟨b, rfl⟩
  exact key _ _ _

theorem readWords_kept {s : State} {ws : List Nat} (h : Form s) : Form (readWords s ws).1 := by
  have key : ∀ (l : List Nat) (acc : State × Option Nat), Form acc.1 → Form (l.foldl (fun (acc : State × Option Nat) w =>
      let (t, ok) := readWord acc.1 w
      (t, if ok then acc.2 else acc.2.or (some w))) acc).1 := by
    intro l
    induction l with
    | nil => exact fun _ h => h
    | cons w l ih => exact fun acc h => ih _ (readWord_kept h)
  exact key _ _ h

theorem memRead_kept {s : State} {a n : Nat} (h : Form s) : Form (memRead s a n).st := by
  obtain ⟨b, hb⟩ := memRead_st s a n
  have h1 : Form (readWords s (dirtyWords s a n)).1 := readWords_kept h
  rw [hb, form_iff]
  exact form_iff.1 h1

theorem readRef_kept {s : State} {a n : Nat} (h : Form s) : Form (readRef s a n).1 := by
  unfold readRef
  split
  · exact h
  · dsimp only
    split <;> exact memRead_kept h

theorem storeWord_kept {s : State} {a : Nat} {bs : List Byte} (h : Form s) : Form (storeWord s a bs) := by
  unfold storeWord
  dsimp only
  refine flipApply_kept ?_
  split
  · exact mergePut_kept (store_kept h (cellsPut_wf (form_cells h)) (sparseErase_wf (form_synd h)))
  · exact store_kept h (cellsPut_wf (form_cells h)) (sparseErase_wf (form_synd h))

/-- What follows the read of the word in a read-modify-write. -/
def afterRead (r : State × Bool) (c : List Host.Cell) (w v : Nat) (z : Sparse (BitVec 8)) : State :=
  if r.2 then
    let i := r.1.mem.injected.filter (· != w)
    flipApply { r.1 with mem := { r.1.mem with cells := c, synd := sparseErase v r.1.mem.synd, injected := i } } w
  else
    let i := r.1.mem.injected.filter (· != w)
    flipApply { r.1 with mem := { r.1.mem with cells := c, synd := z, injected := i } } w

theorem afterRead_kept {r : State × Bool} {c : List Host.Cell} {w v : Nat} {z : Sparse (BitVec 8)} (h : Form r.1) (hc : sparseWf 0 c = true)
    (hz : sparseWf 0 z = true) :
    Form (afterRead r c w v z) := by
  unfold afterRead
  split
  · exact flipApply_kept (store_kept h hc (sparseErase_wf (form_synd h)))
  · exact flipApply_kept (store_kept h hc hz)

theorem rmwWord_kept {s : State} {a : Nat} {bs : List Byte} (h : Form s) : Form (rmwWord s a bs) := by
  have h1 : Form (readWord s (a / 8 * 8)).1 := readWord_kept h
  exact afterRead_kept (r := readWord s (a / 8 * 8)) h1 (cellsPut_wf (form_cells h1)) (sparseSet_wf (form_synd h1))

theorem mergeFlushEntry_kept {s : State} {b : Nat} {e : MergeEntry} (h : Form s) : Form (mergeFlushEntry s b e) := by
  unfold mergeFlushEntry
  dsimp only
  split
  · exact storeWord_kept (mergeDrop_kept h)
  · have h1 : Form (readWord { s with mem := mergeDrop s.mem b e.addr } e.addr).1 := readWord_kept (mergeDrop_kept h)
    exact afterRead_kept (r := readWord { s with mem := mergeDrop s.mem b e.addr } e.addr) h1
      (foldl_cells_wf (fun m x hm => cellSet_wf hm) (form_cells h1)) (sparseSet_wf (form_synd h1))

theorem mergeFlushBank_kept {s : State} {b : Nat} (h : Form s) : Form (mergeFlushBank s b) := foldl_kept (fun _ _ ht => mergeFlushEntry_kept ht) h

theorem mergeWrite_kept {s : State} {b a : Nat} {bs : List Byte} (h : Form s) : Form (mergeWrite s b a bs) := by
  unfold mergeWrite
  dsimp only
  split
  · split
    · exact mergeFlushEntry_kept (mergePut_kept h)
    · exact mergePut_kept h
  · split
    · split
      · exact mergePut_kept (mergeFlushEntry_kept h)
      · exact mergePut_kept h
    · exact mergePut_kept h

theorem busError_kept {s : State} {a : Nat} (h : Form s) : Form (busError s a) := by
  rw [form_iff] at *
  exact h

theorem writeInWord_kept {s : State} {a : Nat} {bs : List Byte} (h : Form s) : Form (writeInWord s a bs) := by
  unfold writeInWord
  split
  · exact busError_kept h
  · split
    · exact storeWord_kept h
    · split
      · exact mergeWrite_kept h
      · exact rmwWord_kept h

theorem memWriteWords_kept : ∀ {n : Nat} {s : State} {a : Nat} {bs : List Byte}, Form s → Form (memWriteWords n s a bs)
  | 0, _, _, _, h => h
  | n + 1, s, a, bs, h => by
    rw [memWriteWords]
    split
    · exact h
    · exact memWriteWords_kept (writeInWord_kept h)

/-- Every write of memory keeps the form. -/
theorem memWrite_kept {s : State} {a : Nat} {bs : List Byte} (h : Form s) : Form (memWrite s a bs) := memWriteWords_kept h

theorem memWriteAll_kept {s : State} {ws : List (Nat × List Byte)} (h : Form s) : Form (memWriteAll s ws) := foldl_kept (fun _ _ ht => memWrite_kept ht) h

/-! ### What a memory operation writes of the state -/

/-- The part of the state that a memory operation may write. -/
def memPart (s t : State) : State := { s with mem := t.mem, units := t.units, boot := { s.boot with persistent := t.boot.persistent } }

theorem memPart_trans {s t u : State} (h1 : t = memPart s t) (h2 : u = memPart t u) : u = memPart s u := by
  rw [h2, h1]; rfl

theorem memPart_foldl {β : Type} {f : State → β → State} (h : ∀ t x, f t x = memPart t (f t x)) : ∀ (l : List β) (s : State), l.foldl f s = memPart s (l.foldl f s)
  | [], _ => rfl
  | x :: l, s => memPart_trans (h s x) (memPart_foldl h l (f s x))

theorem memPart_mem {s : State} {m : Mem} : { s with mem := m } = memPart s { s with mem := m } := rfl
theorem memPart_units {s t : State} (h : t = { s with units := t.units }) : t = memPart s t := by rw [h]; rfl

theorem count_part (s : State) (k c n : Nat) : count s k c n = memPart s (count s k c n) := memPart_units (count_eq ..)
theorem stickySet_part (s : State) (k b : Nat) : stickySet s k b = memPart s (stickySet s k b) := memPart_units (stickySet_eq ..)

theorem repairEvent_part (s : State) (c i a : Nat) (u : Bool) : repairEvent s c i a u = memPart s (repairEvent s c i a u) := by
  unfold repairEvent
  dsimp only
  split
  · split
    · rfl
    · split <;> rfl
  · split <;> rfl

theorem eccLog_part (s : State) (a : Nat) (sy : BitVec 8) (k : BitVec 2) : eccLog s a sy k = memPart s (eccLog s a sy k) := by
  unfold eccLog
  dsimp only
  split <;> exact memPart_trans (memPart_trans rfl (count_part ..)) (stickySet_part ..)

theorem eccEvent_part (s : State) (a : Nat) (sy : BitVec 8) (k : BitVec 2) : eccEvent s a sy k = memPart s (eccEvent s a sy k) := by
  unfold eccEvent
  dsimp only
  split
  · exact eccLog_part ..
  · exact memPart_trans (eccLog_part ..) (repairEvent_part ..)

theorem flipApply_part (s : State) (a : Nat) : flipApply s a = memPart s (flipApply s a) := by
  unfold flipApply
  dsimp only
  repeat' split
  all_goals rfl

theorem readWord_part (s : State) (a : Nat) : (readWord s a).1 = memPart s (readWord s a).1 := by
  unfold readWord
  split
  · rfl
  · split
    · rfl
    · exact memPart_trans (eccEvent_part s a _ 0) rfl
    · exact memPart_trans (eccEvent_part s a _ 0) rfl
    · exact eccEvent_part ..
    · exact eccEvent_part ..

theorem readWords_part (s : State) (ws : List Nat) : (readWords s ws).1 = memPart s (readWords s ws).1 := by
  have key : ∀ (l : List Nat) (acc : State × Option Nat), (l.foldl (fun (acc : State × Option Nat) w =>
      let (t, ok) := readWord acc.1 w
      (t, if ok then acc.2 else acc.2.or (some w))) acc).1 = memPart acc.1 (l.foldl (fun (acc : State × Option Nat) w =>
      let (t, ok) := readWord acc.1 w
      (t, if ok then acc.2 else acc.2.or (some w))) acc).1 := by
    intro l
    induction l with
    | nil => exact fun _ => rfl
    | cons w l ih => exact fun acc => memPart_trans (readWord_part ..) (ih _)
  exact key _ _

theorem memRead_part (s : State) (a n : Nat) : (memRead s a n).st = memPart s (memRead s a n).st := by
  obtain ⟨b, hb⟩ := memRead_st s a n
  rw [hb]
  exact memPart_trans (readWords_part ..) rfl

theorem readRef_part (s : State) (a n : Nat) : (readRef s a n).1 = memPart s (readRef s a n).1 := by
  unfold readRef
  split
  · rfl
  · dsimp only
    split <;> exact memRead_part ..

theorem storeWord_part (s : State) (a : Nat) (bs : List Byte) : storeWord s a bs = memPart s (storeWord s a bs) := by
  unfold storeWord
  dsimp only
  refine memPart_trans ?_ (flipApply_part ..)
  split <;> rfl

theorem afterRead_part {r : State × Bool} {s : State} {c : List Host.Cell} {w v : Nat} {z : Sparse (BitVec 8)} (h : r.1 = memPart s r.1) :
    afterRead r c w v z = memPart s (afterRead r c w v z) := by
  unfold afterRead
  split
  · exact memPart_trans (memPart_trans h rfl) (flipApply_part ..)
  · exact memPart_trans (memPart_trans h rfl) (flipApply_part ..)

theorem rmwWord_part (s : State) (a : Nat) (bs : List Byte) : rmwWord s a bs = memPart s (rmwWord s a bs) :=
  afterRead_part (r := readWord s (a / 8 * 8)) (readWord_part ..)

theorem mergeFlushEntry_part (s : State) (b : Nat) (e : MergeEntry) : mergeFlushEntry s b e = memPart s (mergeFlushEntry s b e) := by
  unfold mergeFlushEntry
  dsimp only
  split
  · exact memPart_trans (memPart_mem (m := mergeDrop s.mem b e.addr)) (storeWord_part ..)
  · exact afterRead_part (r := readWord { s with mem := mergeDrop s.mem b e.addr } e.addr)
      (memPart_trans (memPart_mem (m := mergeDrop s.mem b e.addr)) (readWord_part ..))

theorem mergeWrite_part (s : State) (b a : Nat) (bs : List Byte) : mergeWrite s b a bs = memPart s (mergeWrite s b a bs) := by
  unfold mergeWrite
  dsimp only
  split
  · split
    · exact memPart_trans memPart_mem (mergeFlushEntry_part ..)
    · rfl
  · split
    · split
      · exact memPart_trans (mergeFlushEntry_part ..) memPart_mem
      · rfl
    · rfl

theorem writeInWord_part (s : State) (a : Nat) (bs : List Byte) : writeInWord s a bs = memPart s (writeInWord s a bs) := by
  unfold writeInWord
  split
  · rfl
  · split
    · exact storeWord_part ..
    · split
      · exact mergeWrite_part ..
      · exact rmwWord_part ..

theorem memWriteWords_part : ∀ (n : Nat) (s : State) (a : Nat) (bs : List Byte), memWriteWords n s a bs = memPart s (memWriteWords n s a bs)
  | 0, _, _, _ => rfl
  | n + 1, s, a, bs => by
    rw [memWriteWords]
    split
    · rfl
    · exact memPart_trans (writeInWord_part ..) (memWriteWords_part ..)

/-- A write of memory writes the memory, the units (its error events) and the persistent log (its repairs), and nothing else. -/
theorem memWrite_part (s : State) (a : Nat) (bs : List Byte) : memWrite s a bs = memPart s (memWrite s a bs) := memWriteWords_part ..

theorem memWriteAll_part (s : State) (ws : List (Nat × List Byte)) : memWriteAll s ws = memPart s (memWriteAll s ws) :=
  memPart_foldl (fun t w => memWrite_part t w.1 w.2) ws s

/-! ### Reads of clean memory -/

theorem dirtyWords_clean {s : State} (h : s.mem.synd = []) (a n : Nat) : dirtyWords s a n = [] := by simp [dirtyWords, h]

/-- A read of mapped memory without a stored error changes nothing and fails nowhere. -/
theorem memRead_clean {s : State} (h : s.mem.synd = []) {a n : Nat} (hr : rangeOk s isMemory a n = true) :
    (memRead s a n).st = s ∧ (memRead s a n).bad = none := by
  simp [memRead, dirtyWords_clean h, firstUnmapped, hr]

/-- A read of memory without a stored error changes at most the note of the failing word. -/
theorem memRead_clean_st {s : State} (h : s.mem.synd = []) (a n : Nat) :
    (memRead s a n).st = { s with mem := { s.mem with badWord := (memRead s a n).st.mem.badWord } } := by
  obtain ⟨b, hb⟩ := memRead_st s a n
  rw [hb, dirtyWords_clean h]
  rfl

theorem memRead_clean_bytes {s : State} (h : s.mem.synd = []) (hm : s.mem.merge = []) (a n : Nat) : (memRead s a n).bytes = cellsGet s.mem.cells a n := by
  simp [memRead, dirtyWords_clean h, hm]

theorem readWord_clean {s : State} (h : s.mem.synd = []) (a : Nat) : readWord s a = (s, true) := by simp [readWord, h, sparseGet]

theorem flipApply_unarmed {s : State} (h : ∀ c, (checkerGet s c).flipArm = false) (a : Nat) : flipApply s a = s := by
  unfold flipApply
  simp [h]

end Sys2Proof.Laws
end

