-- ==== Sys2Proof/WellFormed.lean ====
section
/-!
DEFINITION. Which commands are well formed: their port, lane, ring, queue-pair, pair and counter numbers lie in the ranges
the spec gives them (R21, R311, R337, R346) and the addresses they carry fit the register they name.
-/
namespace Sys2Proof

/-- A torus or Spur port index (R311). -/
def portOk (p : Nat) : Bool := p < 8
/-- A Spur port S0 or S1. -/
def spurOk (p : Nat) : Bool := p < 2
/-- A lane of a port (R311). -/
def laneOk (l : Nat) : Bool := l < 8
/-- A queue pair of a Spur port (R337). -/
def qpOk (q : Nat) : Bool := q < 2048
/-- A rank of R347: a ring pair, or a VMP queue pair of a Spur port. -/
def pairOk (k : Nat) : Bool := k < 256 + 2 * 2048
/-- A UID as R16 asks: level at most 5, DEVICE below 1,024, DIE below 5, fields below the level zero. -/
def uidOk (u : Uid) : Bool :=
  let n := u.toNat
  let lvl := n / 2 ^ 28
  lvl ≤ 5 && (n / 2 ^ 16) % 4096 < 1024 && n % 16 == 0 &&
    (if lvl ≤ 1 then (n / 2 ^ 9) % 8 < 5 else n % 2 ^ 12 == 0) &&
    (if lvl == 1 then n % 2 ^ 9 == 0 else true) &&
    (if lvl == 3 then n % 2 ^ 14 == 0 else true) &&
    (if lvl ≥ 4 then n % 2 ^ 16 == 0 else true)

/-- The range checks of one command. -/
def Instr.wf : Instr → Bool
  | .railPowerFailure k => 1 ≤ k && k ≤ 5
  | .comparatorFire u k => uidOk u && k < 4
  | .watchdogDeadlineWrite u k _ => uidOk u && k < 4
  | .ucpResetReq u | .resetRelease u | .readmission u | .partitionRestore u | .recoveryBoundMiss u => uidOk u
  | .stickyW1cWrite _ u _ _ => uidOk u
  | .faultDetect c u _ => uidOk u && (c == 16 || c == 2 || c == 1 || c == 4 || c == 10 || c == 3 || c == 0xFF)
  | .vmpHello p | .vmpBye p | .vmpCfgStage p | .vmpCfgValidate ⟨p, _⟩ | .vmpCfgCommit p _ | .vmpCfgRevert p _ | .vmpCfgRead p
  | .vmpOpSubmit p _ | .vmpOpCancel ⟨p, _⟩ | .vmpOpStatus p | .vmpOpDeadline ⟨p, _⟩ | .vmpTableCreate p _ | .vmpTableLoad p _ _
  | .vmpTableActivate p _ | .vmpTableRetire p _ | .vmpTableMigrate p _ | .vmpCurveLoad p _ | .vmpErrRead p | .vmpErrClear p
  | .vmpRecover p | .vmpHoldRead p | .vmpAttest p | .vmpFwStage p | .vmpFwActivate p | .vmpTimeRead p | .vmpTopoRead p
  | .requestEntryUnreadable p => pairOk p
  | .vmpEnableSet _ p | .vmpEnableClear _ p => p < 256
  | .ringTailWrite _ r _ => r < 8192
  | .weldFrameReceive p l f => portOk p && laneOk l && f.length == 12500
  | .weldFrameLand p l _ | .weldFrameResend p l => portOk p && laneOk l
  | .laneLightDetect p l _ | .laneRetrainTimer p l | .laneDown p l => portOk p && laneOk l
  | .weldFrameLost p _ | .controlMessageReceive p _ | .laneLightLoss p => portOk p
  | .qpCmdReset p q | .qpCmdInit p q | .qpCmdRtr p q | .qpCmdRts p q | .qpCmdError p q | .spurRead p q | .nvmeRead p q
  | .nvmeFabricsConnect p q | .nvmeGetLogPage p q | .nvmeKeepAlive p q | .roceAckTimeout p ⟨q, _⟩ | .cnpReceive p q
  | .cnpRateRecovery p q | .cnpSend p q => spurOk p && qpOk q
  | .spurSend p q _ | .spurSendImm p q _ | .spurWrite p q _ | .spurWriteImm p q _ => spurOk p && qpOk q
  | .nvmePropertyGet p q | .nvmeIdentify p q | .nvmePropertySet p q => spurOk p && qpOk q
  | .roceInboundRead p q _ _ _ | .roceInboundWrite p q _ _ _ _ _ _ | .roceInboundSend p q _ _ => spurOk p && qpOk q
  | .spurResponseReceive p q _ _ => spurOk p && qpOk q
  | .spurModeRetrain p _ | .ethFrameReceive p _ | .ethernetLinkChange p _ => spurOk p
  | .pfcPauseReceive p pr _ => spurOk p && pr < 8
  | .thermalSample ts _ _ => ts.length == 116
  | .memoryTrainingDone _ ms => ms.length == 16
  | _ => true

end Sys2Proof
end

