-- ==== Sys2Proof/Tests/Slice0.lean ====
section
/-!
SUPPORT. Small tests: the checks of well-formedness refuse their ill-formed commands, the spec's worked values come out, and the hypotheses of
each statement are met by a concrete state.
-/
namespace Sys2Proof.Tests

open Sys2Proof.Machine

set_option Elab.async false

/-! ### States the tests share -/

/-- UID of device 0. -/
abbrev dev0 : Uid := 0x40000000

/-- A device that is up, locked and ready, in strike 8,192. -/
def up : State :=
  { State.reset with
    power := { Power.reset with state := .on, powerGood := true }
    boot := { Boot.reset with phase := .running }
    tb := { Timebase.reset with role := .master, lock := .locked, strikeDefined := true, electionOver := true, hops := 0 }
    form := { Formation.reset with formationCommitted := true, ready := true, trained := true }
    seq := { Sequencer.reset with strike := 8192 } }

/-- A request of client 1 with tag 9. -/
def request (op : Nat) (target : Uid) (body : List Byte) : List Byte :=
  [0x10, BitVec.ofNat 8 op, 0, BitVec.ofNat 8 (bodyLength op)] ++ leBytes 2 9 ++ leBytes 2 1 ++ leBytes 4 target.toNat ++ leBytes 4 0 ++ slice body 0 112

/-- The state with client 1 and one request of it waiting on a queue pair of a Spur port. -/
def asked (s : State) (m : List Byte) : State :=
  { s with vmp := { s.vmp with clients := [{ id := 1, major := 1, minor := 0, pair := 256, lastStrike := 8192 }], remote := [(256, [(8192, m)])] } }

/-- The state in which the request of `asked` is served. -/
def served (s : State) (m : List Byte) : State :=
  if msgOpcode m = 0x01 then consume (asked s m) 256 else renewLease (consume (asked s m) 256) (msgClient m) ((arrivalOf (asked s m) 256).getD 0)

theorem taken_asked {s : State} {op : Nat} {m : List Byte} (h : (isNext (asked s m) 256 && msgOpcode m == op && opcodeDefined op &&
    requestStatus (asked s m) m == 0) = true) : Taken (asked s m) 256 op m (served s m) := by
  simp only [Bool.and_eq_true, beq_iff_eq] at h
  exact ⟨asked s m, h.1.1.1, rfl, h.1.1.2, h.1.2, h.2, by rw [served, h.1.1.2]⟩

theorem unarmed {s : State} (h : s.mem.checkers = []) (c : Nat) : (checkerGet s c).flipArm = false := by
  simp only [checkerGet, h, sparseGet, checkerDefault]
  split <;> rfl

theorem clean_of {s : State} (h1 : s.mem.synd = []) (h2 : s.mem.checkers = []) : CleanMemory s := ⟨h1, unarmed h2⟩

/-! ### Queue, reset, memory -/

theorem test_StepRunsFrontCommand : ∃ s : State, ∃ c rest, s.pending = c :: rest ∧ c = .ref10mLock ∧ rest = [.ref10mLoss] :=
  ⟨{ up with pending := [.ref10mLock, .ref10mLoss] }, _, _, rfl, rfl, rfl⟩

theorem test_StepKeepsForm : ∃ s t : State, Kept s ∧ s.pending ≠ [] ∧ step s = .next t :=
  ⟨{ up with pending := [.ref10mLock] }, _, by decide +kernel, by decide +kernel, rfl⟩

theorem test_StrikeEdgeAdvances :
    (∃ s : State, s.tb.strikeDefined = true ∧ s.seq.strike ≠ 0xFFFFFFFFFFFFFFFF ∧ s.seq.kind ≠ .run) ∧
    (∃ s : State, s.tb.strikeDefined = true ∧ s.seq.strike = 0xFFFFFFFFFFFFFFFF) ∧ (∃ s : State, s.tb.strikeDefined = false) :=
  ⟨⟨{ up with seq := { up.seq with strike := 0xFFFFFFFFFFFFFFFE, kind := .hold } }, by decide +kernel⟩,
    ⟨{ up with seq := { up.seq with strike := 0xFFFFFFFFFFFFFFFF } }, by decide +kernel⟩, ⟨State.reset, by decide +kernel⟩⟩

theorem test_MemoryReadAfterWrite : Kept up ∧ CleanMemory up ∧
    (∃ (a : Nat) (bs : List Byte), a + bs.length ≤ scratchBase ∧ (∀ i, i < bs.length → isMemory up (a + i) = true) ∧ rangeOk up isMemory a bs.length = true) ∧
    (∃ (a : Nat) (bs : List Byte), a / 8 = (a + bs.length - 1) / 8 ∧ isMemory up a = false) :=
  ⟨by decide +kernel, clean_of rfl rfl, ⟨2 ^ 40 - 2, [1, 2], by decide +kernel⟩, ⟨2 ^ 40 + 6, [1, 2], by decide +kernel⟩⟩

theorem test_SecdedOutcomes : ∃ d i k : Nat, d < 2 ^ 64 ∧ i < 64 ∧ k < 64 ∧ i ≠ k := ⟨2 ^ 64 - 1, 63, 0, by decide +kernel⟩

/-- The state with one word stored under a syndrome. -/
def spoilt (sy : BitVec 8) : State := { up with mem := { up.mem with synd := [(1, sy)] } }

theorem test_PoisonedWord :
    (∃ (s : State) (a : Nat) (sy : BitVec 8), sparseGet 0 (a / 8) s.mem.synd = sy ∧ sy ≠ 0 ∧ decodeSyndrome sy = .ue ∧
      ∀ c, (checkerGet s c).flipArm = false) ∧
    (∃ (s : State) (a : Nat) (sy : BitVec 8), sparseGet 0 (a / 8) s.mem.synd = sy ∧ sy ≠ 0 ∧ decodeSyndrome sy = .poison ∧
      ∀ c, (checkerGet s c).flipArm = false) ∧
    (∃ (s : State) (w : Nat), sparseGet 0 (w / 8) s.mem.synd = 0xFF ∧ w % 8 = 0 ∧ keysRise s.mem.synd ∧ ∀ c, (checkerGet s c).flipArm = false) :=
  ⟨⟨spoilt 0x03, 9, _, rfl, by decide +kernel, by decide +kernel, unarmed rfl⟩, ⟨spoilt 0xFF, 15, _, rfl, by decide +kernel, by decide +kernel, unarmed rfl⟩,
    ⟨spoilt 0xFF, 8, by decide +kernel, rfl, by decide +kernel, unarmed rfl⟩⟩

/-- A checker whose first entries are these. -/
def logOf (es : List LogEntry) : Checker := { Checker.reset with log := es ++ List.replicate (8 - es.length) LogEntry.empty }
/-- A log entry of a word seen in a strike. -/
def entry (addr : Word) (kind : BitVec 2) (n : Word) : LogEntry := { LogEntry.empty with valid := true, addr := addr, kind := kind, count := 1, last := n }

theorem test_CheckerLogRule :
    (∃ (c : Checker) (i : Nat), i < c.log.length ∧
      (let e := c.log.getD i LogEntry.empty; e.valid = true ∧ e.addr = 8 ∧ e.inst = 0 ∧ e.kind = 1) ∧
      ∀ j, j < i → ¬(let e := c.log.getD j LogEntry.empty; e.valid = true ∧ e.addr = 8 ∧ e.inst = 0 ∧ e.kind = 1)) ∧
    (∃ (c : Checker) (i : Nat), i < c.log.length ∧ (c.log.getD i LogEntry.empty).valid = false ∧
      (∀ j, j < i → (c.log.getD j LogEntry.empty).valid = true) ∧
      ∀ j, j < c.log.length → ¬(let e := c.log.getD j LogEntry.empty; e.valid = true ∧ e.addr = 8 ∧ e.inst = 0 ∧ e.kind = 1)) ∧
    (∃ (c : Checker) (i : Nat), i < c.log.length ∧
      (∀ j, j < c.log.length → let e := c.log.getD j LogEntry.empty; e.valid = true ∧ ¬(e.addr = 8 ∧ e.inst = 0 ∧ e.kind = 1)) ∧
      (c.log.getD i LogEntry.empty).kind = 0 ∧ ∀ j, j < c.log.length → (c.log.getD j LogEntry.empty).kind = 0 →
        (c.log.getD i LogEntry.empty).last.toNat ≤ (c.log.getD j LogEntry.empty).last.toNat ∧
        (j < i → (c.log.getD i LogEntry.empty).last.toNat < (c.log.getD j LogEntry.empty).last.toNat)) ∧
    (∃ c : Checker, ∀ j, j < c.log.length → let e := c.log.getD j LogEntry.empty
      e.valid = true ∧ e.kind ≠ 0 ∧ ¬(e.addr = 8 ∧ e.inst = 0 ∧ e.kind = 1)) ∧
    (∃ (c : Checker) (i : Nat), (c.log.getD i LogEntry.empty).valid = true ∧ (c.log.getD i LogEntry.empty).kind ≠ 0) :=
  ⟨⟨logOf [entry 0 0 1, entry 8 1 2], 1, by decide +kernel⟩, ⟨logOf [entry 0 0 1, entry 8 0 2], 2, by decide +kernel⟩,
    ⟨logOf ((List.range 8).map (fun i => entry 16 (if i % 3 = 0 then 1 else 0) (BitVec.ofNat 64 (9 - i)))), 7, by decide +kernel⟩,
    ⟨logOf (List.replicate 8 (entry 16 2 5)), by decide +kernel⟩, ⟨logOf [entry 8 2 5], 0, by decide +kernel⟩⟩

/-- The state with one merge entry in bank 3. -/
def merging (mask : BitVec 8) : State := { up with mem := { up.mem with merge := [(3, [{ addr := 16, mask := mask, bytes := 0x0807060504030201 }])] } }

theorem test_MergeBufferFlushes :
    (∃ e, (mergeGet (merging 0xFF).mem 3).find? (fun x => x.addr == 16) = some e ∧ e.mask = 0xFF) ∧
    (Kept (merging 0x81) ∧ CleanMemory (merging 0x81) ∧ ∃ e, (mergeGet (merging 0x81).mem 3).find? (fun x => x.addr == 16) = some e ∧ e.mask ≠ 0xFF) ∧
    (mergeGet (merging 0xFF).mem 3).find? (fun x => x.addr == 24) = none :=
  ⟨⟨_, rfl, rfl⟩, ⟨by decide +kernel, clean_of rfl rfl, _, rfl, by decide +kernel⟩, rfl⟩

/-- A merge flush with a partial mask keeps the bytes outside it (R299). -/
theorem test_merge_partial : (match exec (.mergeBufferFlush 3 16) (merging 0x81) with
    | .next t => (List.range 8).map (fun i => cellGet (16 + i) t.mem.cells)
    | _ => []) = [1, 0, 0, 0, 0, 0, 0, 8] := by decide +kernel

theorem test_HearthAccess :
    (∃ (s : State) (addr : Word) (n : Nat), CleanMemory s ∧ s.mem.merge = [] ∧ 0 < n ∧ ∀ w ∈ accessWords addr.toNat n, isMemory s w = true) ∧
    (∃ (s : State) (addr : Word) (bs : List Byte), bs ≠ [] ∧ ∀ w ∈ accessWords addr.toNat bs.length, isMemory s w = true) ∧
    (∃ (s : State) (addr : Word), addr.toNat % 8 = 0 ∧ placeOf s addr.toNat = .unmapped) :=
  ⟨⟨up, 0xFFFFFFFFF9, 7, clean_of rfl rfl, by decide +kernel⟩, ⟨up, 0xFFFFFFFFF9, [1, 2, 3, 4, 5, 6, 7], by decide +kernel⟩,
    ⟨up, 0x10000000000, by decide +kernel⟩⟩

/-! ### Pages, counters, resets -/

/-- Address of a register of the page of a unit of device 0. -/
def pageAddr (u : Nat) (off : Nat) : Word := BitVec.ofNat 64 (ucpBase + u / 16 * 2 ^ 16 + off)

theorem test_PageWriteRights : (pageAddr 0x40000000 0x10).toNat % 8 = 0 ∧ placeOf up (pageAddr 0x40000000 0x10).toNat = .page dev0 0x10 ∧
    keyLevel dev0.toNat ≠ 5 ∧ placeOf up (pageAddr 0x40000000 0x60).toNat = .page dev0 0x60 ∧ placeOf up (pageAddr 0x40000000 0x18).toNat = .page dev0 0x18 ∧
    placeOf up (pageAddr 0x40000000 0xFFF8).toNat = .page dev0 0xFFF8 ∧ placeOf up (pageAddr 0 0).toNat = .page 0 0 := by decide +kernel

/-- The device set that names group 7 with this device as its one member. -/
def grouped : State :=
  { up with cfg := { up.cfg with sets := [(devKey, [{ ConfigSet.empty with groups := [{ group := 7, members := [0] }] }])] } }

theorem test_StickyWrites :
    (Kept up ∧ pageHere up dev0 = true ∧ keyLevel dev0.toNat ≠ 5) ∧
    (Kept grouped ∧ ∃ g, groupOf grouped (BitVec.ofNat 32 (5 * 2 ^ 28 + 7 * 2 ^ 16)) = some g) :=
  ⟨by decide +kernel, by decide +kernel, _, rfl⟩

/-- A ring pair 1 in use, whose event ring covers the device and holds n events. -/
def ringing (n : BitVec 32) : State :=
  { up with
    units := { up.units with events := [{ uid := dev0, bit := 3, strike := 8191, sticky := 8 }] }
    vmp := { up.vmp with
      pairs := [(1, { RingPair.reset with en := true, reqLog2 := 4, respLog2 := 4, evtEn := true, evtLog2 := 4, evtUid := dev0, evtTail := n })] } }

theorem test_StickyEventsPost : CleanMemory (ringing 15) ∧
    (∃ e k p, (ringing 15).units.events = [e] ∧ e.strike < now (ringing 15) ∧ (ringing 15).vmp.pairs = [(k, p)] ∧ 0 < k ∧ p.en = true ∧ p.evtEn = true ∧
      scopeCovers { ringing 15 with units := { (ringing 15).units with events := [] } } p.evtUid e.uid = true ∧
      ringCount p.evtHead p.evtTail < ringSize p.evtLog2.toNat) ∧
    (∃ e k p, (ringing 16).units.events = [e] ∧ e.strike < now (ringing 16) ∧ (ringing 16).vmp.pairs = [(k, p)] ∧ p.en = true ∧ p.evtEn = true ∧
      scopeCovers { ringing 16 with units := { (ringing 16).units with events := [] } } p.evtUid e.uid = true ∧
      ringSize p.evtLog2.toNat ≤ ringCount p.evtHead p.evtTail ∧ p.evtDrops ≠ 0xFFFFFFFF) :=
  ⟨clean_of rfl rfl, ⟨_, _, _, rfl, by decide +kernel, rfl, by decide +kernel⟩, ⟨_, _, _, rfl, by decide +kernel, rfl, by decide +kernel⟩⟩

theorem test_CountersSumUpward : (∃ k a : Nat, 7 < 8 ∧ a ∈ selfAndAncestors k ∧ a ≠ k) ∧ (∃ k a : Nat, a ∉ selfAndAncestors k) :=
  ⟨⟨0, devKey, by decide +kernel⟩, ⟨devKey, 0, by decide +kernel⟩⟩

/-- The device page with a held deadline of this strike; a plan runs or does not. -/
def due (armed : BitVec 4) : State :=
  { up with units := { up.units with pages := [(devKey, { UnitState.reset with page := { UnitPage.reset with held0 := 8192, armed := armed } })] } }

theorem test_Comparators :
    (Kept up ∧ pageHere up dev0 = true) ∧
    (uidDevice dev0 = (due 15).form.device ∧ keyLevel dev0.toNat ≤ 4 ∧ isOffline (due 15) (uidKey dev0) = false ∧ wdEn (unitGet (due 15) (uidKey dev0)).page 0 = true ∧
      evaluates (due 15) (uidKey dev0) 0 = true ∧ deadlineOf (due 15) (uidKey dev0) 0 ≠ 0xFFFFFFFFFFFFFFFF ∧ (deadlineOf (due 15) (uidKey dev0) 0).toNat ≤ now (due 15) ∧
      mayFire (due 15) (uidKey dev0) 0 = true ∧ Kept (due 15)) ∧ mayFire (due 14) (uidKey dev0) 0 = false ∧
    deadlineOf up (uidKey dev0) 3 = 0xFFFFFFFFFFFFFFFF := by decide +kernel

theorem test_UnitReset :
    (Kept up ∧ keyLevel dev0.toNat ≤ 4 ∧ uidDevice dev0 = up.form.device ∧ uidShape dev0.toNat = true ∧ isOffline up (uidKey dev0) = false) ∧
    (∃ s : State, Kept s ∧ uidDevice dev0 = s.form.device ∧ (unitGet s (uidKey dev0)).flags.resetting = true ∧ (unitGet s (uidKey dev0)).flags.missed = true) :=
  ⟨by decide +kernel,
    ⟨{ up with units := { up.units with pages := [(devKey, { UnitState.reset with flags := { UnitFlags.reset with resetting := true, missed := true } })] } },
      by decide +kernel⟩⟩

theorem test_DoorbellRings :
    (mayRing .hearth 1 = true ∧ ringCount (pairGet (ringing 0) 1).reqHead 16 ≤ ringSize (pairGet (ringing 0) 1).reqLog2.toNat) ∧
    ringSize (pairGet (ringing 0) 1).reqLog2.toNat < ringCount (pairGet (ringing 0) 1).reqHead 17 ∧
    (mayRing .hearth 255 = true ∧ (pairGet (ringing 0) 255).en = false) ∧ (keysRise (ringing 0).vmp.pairs ∧ (pairGet (ringing 0) 1).en = true) := by
  decide +kernel

/-! ### Plans the tests share -/

/-- A directory entry of a plan: type, count, offset. -/
def sect (type count off : Nat) : List Byte := [BitVec.ofNat 8 type, 0, 0xFF, 0xFF] ++ leBytes 4 count ++ leBytes 8 off
/-- A plan of one offset with its sections (type, count, bytes), each on its own 64-byte boundary. -/
def planOf (group : Uid) (members : Nat) (secs : List (Nat × Nat × List Byte)) : List Byte :=
  let place := secs.foldl (fun (a : List (List Byte) × Nat × List Byte) s =>
    let b := s.2.2 ++ List.replicate ((64 - s.2.2.length % 64) % 64) 0
    (a.1 ++ [sect s.1 s.2.1 a.2.1], a.2.1 + b.length, a.2.2 ++ b)) ([], 0x200, [])
  let n := place.2.1
  leBytes 4 0x4C504849 ++ [0, 1, 0, 0] ++ leBytes 8 0 ++ leBytes 4 group.toNat ++ leBytes 4 0 ++ leBytes 8 1 ++ leBytes 8 0 ++ leBytes 2 members ++
    leBytes 2 members ++ leBytes 2 secs.length ++ leBytes 2 0 ++ leBytes 8 n ++ List.replicate 200 0 ++
    slice place.1.flatten 0 256 ++ place.2.2
/-- A step table entry: offset 0, budget 16, no operand, parameters at 0. -/
def stepOf (kind op paramLen : Nat) : List Byte :=
  leBytes 8 0 ++ leBytes 4 16 ++ [BitVec.ofNat 8 kind, BitVec.ofNat 8 op, 0, 0] ++ leBytes 4 0 ++ leBytes 4 0 ++ leBytes 4 paramLen ++ List.replicate 100 0
/-- A plan of one step with its parameter block. -/
def stepPlan (kind op : Nat) (params : List Byte) : List Byte :=
  planOf dev0 1 [(4, 1, stepOf kind op params.length), (2, params.length, params)]
/-- An activity in progress. -/
def act (r : ActRef) : Activity := { ref := r, uids := [], start := 8192, last := 8208, replay := false, result := none }
/-- A job of this device that runs a plan with activities. -/
def job (plan : List Byte) (acts : List Activity) : Job :=
  { num := 1, client := 1, pair := 256, tag := 5, plan := plan, region := [(0, plan.length)], accepted := 0, deadline := 0, phase := .running, members := [0], pos := 0,
    holdLead := 16, startStrike := 8192, holdAtStart := 0, committed := 0, moved := 0, holdStrikes := 0, stop := none, endStatus := 0, endStep := 0xFFFFFFFF,
    endRecord := 0, endBlock := 0, endOffset := 0, endedAt := none, reports := [], reportAt := 0, completed := false, finished := [], ahead := [], acts := acts,
    results := [], flowOut := [], flowIn := [], hardyPeak := [], ringHeld := [], streamFailed := [], reruns := [], carried := [], commits := [], marks := [], inPlace := [] }
/-- The device with these jobs. -/
def working (js : List Job) : State := { up with seq := { up.seq with jobs := js } }
/-- The device runs a plan of one step, which is in progress. -/
def stepping (kind op : Nat) (params : List Byte) : State := working [job (stepPlan kind op params) [act (.step 0)]]

/-! ### The mailbox protocol -/

theorem ok_eq {α ε : Type} (x : State × Except ε α) (d : α) (h : x.2.toOption.isSome = true) : x = (x.1, .ok (x.2.toOption.getD d)) := by
  obtain ⟨s, e⟩ := x
  cases e with
  | error _ => simp [Except.toOption] at h
  | ok a => rfl

theorem readRef_ok {s : State} {a n : Nat} (h : (rangeOk s isTier a n && (memRead s a n).bad.isNone) = true) :
    readRef s a n = ((memRead s a n).st, .ok (memRead s a n).bytes) := by
  simp only [Bool.and_eq_true, Option.isNone_iff_eq_none] at h
  simp [readRef, h]

/-- A state with bytes in memory. -/
def holding (s : State) (a : Nat) (bs : List Byte) : State := { s with mem := { s.mem with cells := cellsPut a bs s.mem.cells } }

theorem test_RequestsAreServed : ∀ op ∈ [0x01, 0x02, 0x10, 0x11, 0x12, 0x13, 0x14, 0x20, 0x21, 0x22, 0x23, 0x30, 0x31, 0x32, 0x33, 0x34, 0x38, 0x40, 0x41, 0x48, 0x49,
    0x50, 0x58, 0x59, 0x60, 0x61], Taken (asked up (request op dev0 [])) 256 op (request op dev0 []) (served up (request op dev0 [])) := fun op h =>
  taken_asked ((by decide +kernel : ∀ op ∈ [0x01, 0x02, 0x10, 0x11, 0x12, 0x13, 0x14, 0x20, 0x21, 0x22, 0x23, 0x30, 0x31, 0x32, 0x33, 0x34, 0x38, 0x40, 0x41, 0x48, 0x49,
    0x50, 0x58, 0x59, 0x60, 0x61], (isNext (asked up (request op dev0 [])) 256 && msgOpcode (request op dev0 []) == op && opcodeDefined op &&
    requestStatus (asked up (request op dev0 [])) (request op dev0 []) == 0) = true) op h)

/-- Ring pair 1 with one entry at an address no tier holds. -/
def unreadable : State :=
  { up with vmp := { up.vmp with pairs := [(1, { RingPair.reset with en := true, reqLog2 := 4, respLog2 := 4, reqBase := 0x10000000000, reqTail := 1, arrivals := [(1, 9)] })] } }

theorem test_RefusedRequests :
    (isNext unreadable 1 = true ∧ readRequest unreadable 1 = ((readRequest unreadable 1).1, none)) ∧
    (let m := request 0x60 0x40010000 []
     isNext (asked up m) 256 = true ∧ readRequest (asked up m) 256 = (asked up m, some m) ∧ requestStatus (asked up m) m ≠ 0 ∧ msgOpcode m = 0x60 ∧
       opcodeDefined (msgOpcode m) = true ∧ (Instr.vmpTimeRead 256, 0x60) ∈ vmpCommands 256 [] [] [] [] ∧ (Instr.vmpHello 256, 0x01) ∈ vmpCommands 256 [] [] [] []) ∧
    isNext up 256 = false ∧
    (let m := request 0x7F dev0 []
     msgOpcode m ≠ 0x01 ∧ msgVersion m / 16 = 1 ∧ clientGet up (msgClient m) = none ∧ (∃ c, clientGet (asked up m) (msgClient m) = some c ∧
       msgVersion m / 16 = c.major) ∧ opcodeDefined (msgOpcode m) = false) ∧
    (let m := 0x20 :: (request 0x60 dev0 []).drop 1
     msgOpcode m ≠ 0x01 ∧ msgVersion m / 16 ≠ ((clientGet up (msgClient m)).map (·.major)).getD 1) :=
  ⟨by decide +kernel, ⟨by decide +kernel, rfl, by decide +kernel, by decide +kernel, by decide +kernel, List.mem_of_getElem? (i := 24) rfl, List.mem_of_getElem? (i := 0) rfl⟩,
    by decide +kernel, ⟨by decide +kernel, by decide +kernel, by decide +kernel, ⟨_, rfl, by decide +kernel⟩, by decide +kernel⟩, by decide +kernel⟩

/-- The device before it is ready. -/
def forming : State := { up with form := { up.form with ready := false } }

theorem test_ServedBeforeReady : (∀ op ∈ [0x01, 0x02, 0x60, 0x61, 0x40, 0x14, 0x50, 0x58, 0x59],
    (asked forming (request op dev0 [])).form.ready = false ∧
    requestStatus { asked forming (request op dev0 []) with form := { forming.form with ready := true } } (request op dev0 []) = 0x0000) := by decide +kernel

/-- R410: FW_STAGE is served before the device is ready, FW_ACTIVATE is not. -/
theorem test_before_ready : requestStatus (asked forming (request 0x58 dev0 [])) (request 0x58 dev0 []) = 0 ∧
    requestStatus (asked forming (request 0x59 dev0 [])) (request 0x59 dev0 []) = 0x0600 := by decide +kernel

theorem test_MessageLayout : ∃ (version opcode flags : Nat) (body : List Byte), version < 256 ∧ opcode < 256 ∧ flags < 256 ∧ body.length = 112 :=
  ⟨255, 255, 255, List.replicate 112 7, by decide⟩

/-- The longest-lived client's lease ends in this strike. -/
def expiring (n : Nat) : State := { up with vmp := { up.vmp with clients := [{ id := 3, major := 1, minor := 0, pair := 1, lastStrike := 0 }] }, seq := { up.seq with strike := BitVec.ofNat 64 n } }

theorem test_ClientLeases :
    (let m := request 0x01 dev0 [2, 0]
     Taken (asked up m) 256 0x01 m (served up m) ∧ bit (fieldN (msgBody m) 0 2) 1 = true ∧ (served up m).vmp.clients.length < 4096 ∧
       freeClient (served up m) = some 0) ∧
    (clientGet (expiring 4095999) 3 = some { id := 3, major := 1, minor := 0, pair := 1, lastStrike := 0 } ∧ leaseHeats (expiring 4095999) ≠ 0 ∧
      leaseEnd 0 (leaseHeats (expiring 4095999)) ≤ now (expiring 4095999)) ∧
    now (expiring 4095998) < leaseEnd 0 (leaseHeats (expiring 4095998)) :=
  ⟨⟨taken_asked (by decide +kernel), by decide +kernel⟩, by decide +kernel, by decide +kernel⟩

/-- A configuration record without entries. -/
def record (epoch : Nat) (target : Uid) : List Byte :=
  leBytes 4 0x46434849 ++ leBytes 2 0x0100 ++ leBytes 2 0 ++ leBytes 4 epoch ++ leBytes 4 target.toNat ++ leBytes 12 0 ++ leBytes 4 64 ++ List.replicate 32 0
/-- The record staged by client 1 for core 0. -/
def staged : Staged := { client := 1, target := 0, epoch := 5, record := record 5 0, validated := true }
/-- The device with a staged record and two sets of core 0. -/
def configured : State :=
  { up with cfg := { up.cfg with
      staging := [staged]
      sets := [(0, [{ ConfigSet.empty with epoch := 4, deviceSig := [1] }, { ConfigSet.empty with epoch := 3 }])] } }

theorem subtree_core : subtree 0 = [0] := by decide +kernel

theorem targetKeys_core (s : State) : targetKeys s 0 = [0].filter (fun x => !isOffline s x) := by
  rw [targetKeys, show (if keyLevel (0 : Uid).toNat = 5 then devKey else uidKey 0) = 0 by decide, subtree_core]

theorem validate_core : (validate (served configured (request 0x11 0 (leBytes 4 5))) 0 (record 5 0) false).1 = 0 ∧
    (validate (served configured (request 0x12 0 (leBytes 4 5 ++ leBytes 4 0 ++ leBytes 8 8208))) 0 (record 5 0) false).1 = 0 := by
  unfold validate
  simp only [targetKeys_core]
  decide +kernel

theorem test_ConfigurationRequests :
    (let s := holding up 0 (record 5 dev0)
     let m := request 0x10 dev0 (leBytes 8 0 ++ leBytes 4 64)
     Taken (asked s m) 256 0x10 m (served s m) ∧ ∃ t1 r, readRef (served s m) (fieldN (msgBody m) 0 8) (fieldN (msgBody m) 8 4) = (t1, .ok r) ∧
       recFormatOk r (fieldN (msgBody m) 8 4) = true ∧ recTarget r = msgTarget m ∧ t1.cfg.staging = []) ∧
    (let m := request 0x11 0 (leBytes 4 5)
     Taken (asked configured m) 256 0x11 m (served configured m) ∧ stagedCheck (served configured m) m (fieldN (msgBody m) 0 4) = .ok staged ∧
       (validate (served configured m) staged.target staged.record false).1 = 0) ∧
    (let m := request 0x12 0 (leBytes 4 5 ++ leBytes 4 0 ++ leBytes 8 8208)
     let t := served configured m
     Taken (asked configured m) 256 0x12 m t ∧ stagedCheck t m (fieldN (msgBody m) 0 4) = .ok staged ∧ staged.validated = true ∧
       (validate t staged.target staged.record false).1 = 0 ∧ anyPending t staged.target = false ∧ commitLead t staged.target ≤ fieldN (msgBody m) 8 8 ∧
       groupStatus t (msgTarget m) 0 [] = 0) ∧
    (let m := request 0x13 0 (leBytes 8 8208)
     let t := served configured m
     Taken (asked configured m) 256 0x13 m t ∧ (targetKeys t (msgTarget m)).all (hasPrevious t) = true ∧ anyPending t (msgTarget m) = false ∧
       commitLead t (msgTarget m) ≤ fieldN (msgBody m) 0 8 ∧ groupStatus t (msgTarget m) 0 [] = 0) ∧
    (let m := request 0x14 0 ([0, 0, 0, 0] ++ leBytes 4 0 ++ leBytes 8 0 ++ leBytes 4 65)
     let t := served configured m
     Taken (asked configured m) 256 0x14 m t ∧ ∃ c, selectSet t (if keyLevel (msgTarget m).toNat = 5 then devKey else uidKey (msgTarget m)) (byteAt (msgBody m) 0)
       (byteAt (msgBody m) 1) (fieldN (msgBody m) 4 4) = some c ∧ c.deviceSig.isEmpty = false ∧
       (setRecord c (msgTarget m) ++ c.deviceSig).length ≤ fieldN (msgBody m) 0x10 4 ∧ rangeOk t isTier (fieldN (msgBody m) 8 8) (fieldN (msgBody m) 0x10 4) = true) ∧
    (∃ c : ForwardedCommit, ((c.targets.filter (targetLocal up)).isEmpty = false ∧ now up < c.strike) ∧
      (c.targets.filter (targetLocal up)).any (anyPending up) = false) :=
  ⟨⟨taken_asked (by decide +kernel), _, _, readRef_ok (by decide +kernel), by decide +kernel⟩, ⟨taken_asked (by decide +kernel), rfl, validate_core.1⟩,
    ⟨taken_asked (by decide +kernel), rfl, rfl, validate_core.2, by rw [anyPending, show staged.target = 0 from rfl, targetKeys_core]; decide +kernel, by decide +kernel⟩,
    ⟨taken_asked (by decide +kernel), by rw [show msgTarget (request 0x13 0 (leBytes 8 8208)) = 0 by decide +kernel, targetKeys_core]; decide +kernel,
      by rw [anyPending, show msgTarget (request 0x13 0 (leBytes 8 8208)) = 0 by decide +kernel, targetKeys_core]; decide +kernel, by decide +kernel⟩,
    ⟨taken_asked (by decide +kernel), { ConfigSet.empty with epoch := 4, deviceSig := [1] }, by decide +kernel⟩,
    { targets := [0, 0x00010000], epoch := 5, strike := 8193, revert := false, readmit := false, record := [] }, by decide +kernel,
    by rw [show ([0, 0x00010000] : List Uid).filter (targetLocal up) = [0] by decide +kernel, List.any_cons, anyPending, targetKeys_core]; decide +kernel⟩

/-- The device with a change pending on core 0, as its state allows, while jobs run. -/
def committing (revert : Bool) (f : UnitFlags) (js : List Job) : State :=
  { configured with
    cfg := { configured.cfg with pending := [{ targets := [0], epoch := 5, strike := 8192, revert := revert, readmit := false, routing := false, record := record 5 0,
                                               owner := none, fencedUnits := [], applied := false }] }
    seq := { configured.seq with jobs := js }
    units := { up.units with pages := [(0, { UnitState.reset with flags := f, page := { UnitPage.reset with active := 4, pendEpoch := 5, pendStrike := 8192, pendRevert := revert } })] } }
/-- A fenced core whose epoch is its parent's. -/
def fenced : State := { up with units := { up.units with pages := [(0, { UnitState.reset with flags := { UnitFlags.reset with fenced := true } })] } }
/-- The fenced device on the epoch of its reference. -/
def fencedDevice : State :=
  { up with units := { up.units with pages := [(devKey, { UnitState.reset with flags := { UnitFlags.reset with fenced := true, refEpoch := 4 }, page := { UnitPage.reset with active := 4 } })] } }

/-- A change that core 0 applies. -/
theorem test_ConfigurationTakesEffect_applies (b : Bool) :
    let s := committing b UnitFlags.reset [job [] []]
    ∃ c, Kept s ∧ s.cfg.pending = [c] ∧ c.applied = false ∧ c.revert = b ∧ c.readmit = false ∧ c.strike ≠ 0 ∧ c.strike ≤ now s ∧ c.targets = [0] ∧
      targetLocal s 0 = true ∧ 0 ∈ targetKeys s 0 ∧ unitApplies s c 0 = true ∧ hasPrevious s 0 = true ∧ (unitGet s 0).page.active ≠ c.epoch ∧
      runningJob s = some (job [] []) := by
  cases b
  · exact ⟨_, by decide +kernel, rfl, by decide +kernel⟩
  · exact ⟨_, by decide +kernel, rfl, by decide +kernel⟩

theorem test_ConfigurationTakesEffect :
    (∀ b, ∃ c, unitApplies (committing b UnitFlags.reset [job [] []]) c 0 = true) ∧
    (let s := committing false { UnitFlags.reset with fenced := true } []
     ∃ c, s.cfg.pending = [c] ∧ 0 ∈ targetKeys s 0 ∧ unitApplies s c 0 = false ∧ ownState s 0 = 5) ∧
    up.cfg.pending.all (fun c => c.applied || decide (now up < c.strike)) = true ∧
    (∃ k h, (k, h) ∈ configured.cfg.sets ∧ h.any (fun c => c.epoch == 4 && !c.inFlash) = true) ∧
    (∃ p, Kept fenced ∧ uidDevice 0 = fenced.form.device ∧ keyLevel (0 : Uid).toNat < 4 ∧ (unitGet fenced (uidKey 0)).flags.fenced = true ∧
      isBoundary (now fenced) = true ∧ parentKey (uidKey 0) = some p ∧ (unitGet fenced p).page.active = (unitGet fenced (uidKey 0)).page.active) ∧
    (Kept fencedDevice ∧ uidDevice dev0 = fencedDevice.form.device ∧ keyLevel dev0.toNat = 4 ∧ uidKey dev0 = devKey ∧ (unitGet fencedDevice devKey).flags.fenced = true ∧
      isBoundary (now fencedDevice) = true ∧ refEpochOf (unitGet fencedDevice devKey).flags ≠ 0 ∧
      refEpochOf (unitGet fencedDevice devKey).flags = (unitGet fencedDevice devKey).page.active ∧ fencedDevice.tb.lock ≠ .slipped ∧ fencedDevice.form.listed = true ∧
      fencedDevice.ident.failed = false) ∧
    (unitGet up (uidKey 0)).flags.fenced = false :=
  ⟨fun b => (test_ConfigurationTakesEffect_applies b).imp fun _ h => h.2.2.2.2.2.2.2.2.2.2.1, ⟨_, rfl, by decide +kernel⟩, by decide +kernel,
    ⟨0, _, List.mem_singleton.2 rfl, by decide +kernel⟩, ⟨0x10000000, by decide +kernel⟩, by decide +kernel, by decide +kernel⟩

/-- A plan without steps, one offset long. -/
def idlePlan : List Byte := planOf dev0 1 [(4, 0, [])]
/-- A job of client 1 that waits. -/
def waiting : Job := { job idlePlan [] with phase := .queued }

theorem test_JobRequests :
    (let s := holding up 0 idlePlan
     let m := request 0x20 dev0 (leBytes 8 0 ++ leBytes 8 512 ++ leBytes 8 0)
     Taken (asked s m) 256 0x20 m (served s m) ∧ fieldN (msgBody m) 0 8 % 64 = 0 ∧ ∃ t1 p, readRef (served s m) (fieldN (msgBody m) 0 8) (fieldN (msgBody m) 8 8) = (t1, .ok p) ∧
       (acceptPlan t1 p (msgTarget m) (fieldN (msgBody m) 16 8) []).isNone = true) ∧
    (let m := request 0x20 dev0 (leBytes 8 0 ++ leBytes 8 256 ++ leBytes 8 0)
     Taken (asked up m) 256 0x20 m (served up m) ∧ fieldN (msgBody m) 0 8 % 64 = 0 ∧ ∃ t1 p, readRef (served up m) (fieldN (msgBody m) 0 8) (fieldN (msgBody m) 8 8) = (t1, .ok p) ∧
       (acceptPlan t1 p (msgTarget m) (fieldN (msgBody m) 16 8) []).isSome = true) ∧
    (let s := working [waiting]
     let m := request 0x21 dev0 (leBytes 8 1)
     Taken (asked s m) 256 0x21 m (served s m) ∧ touchable (served s m) 256 m (jobArg m) = some waiting) ∧
    (let s := working [waiting]
     let m := request 0x22 dev0 (leBytes 8 1)
     Taken (asked s m) 256 0x22 m (served s m) ∧ (served s m).seq.jobs.find? (fun j => j.num == jobArg m) = some waiting) ∧
    (let s := working [waiting]
     let m := request 0x23 dev0 (leBytes 8 1 ++ leBytes 8 9000)
     Taken (asked s m) 256 0x23 m (served s m) ∧ touchable (served s m) 256 m (jobArg m) = some waiting ∧ param (served s m) 0x10 ≠ 0 ∧
       groupStatus (served s m) (plGroup waiting.plan) 0 [] = 0) ∧
    (let s := { working [waiting] with cfg := { up.cfg with sets := [(devKey, [{ ConfigSet.empty with params := [{ id := 0x10, index := 0, scope := dev0, value := 0 }] }])] } }
     let m := request 0x23 dev0 (leBytes 8 1 ++ leBytes 8 9000)
     Taken (asked s m) 256 0x23 m (served s m) ∧ touchable (served s m) 256 m (jobArg m) = some waiting ∧
       groupStatus (served s m) (plGroup waiting.plan) (if fieldN (msgBody m) 8 8 ≠ 0 ∧ param (served s m) 0x10 = 0 then 0x0200 else 0) [] ≠ 0) :=
  ⟨⟨taken_asked (by decide +kernel), by decide +kernel, _, _, readRef_ok (by decide +kernel), by decide +kernel⟩,
    ⟨taken_asked (by decide +kernel), by decide +kernel, _, _, readRef_ok (by decide +kernel), by decide +kernel⟩,
    ⟨taken_asked (by decide +kernel), by decide +kernel⟩, ⟨taken_asked (by decide +kernel), by decide +kernel⟩, ⟨taken_asked (by decide +kernel), by decide +kernel⟩,
    ⟨taken_asked (by decide +kernel), by decide +kernel⟩⟩

/-- Group 7. -/
abbrev group7 : Uid := 0x50070000
/-- The device and device 1 form group 7. -/
def pairedUp : State :=
  { up with
    cfg := { up.cfg with sets := [(devKey, [{ ConfigSet.empty with groups := [{ group := 7, members := [0, 1] }] }])] }
    form := { up.form with dx := 2, devState := [(1, 2)] } }
/-- A definition body: table 3, plain, binary32, 16 columns, 8 rows. -/
def tableBody : List Byte := leBytes 4 3 ++ [0, 0x11] ++ leBytes 2 16 ++ leBytes 8 8 ++ leBytes 8 0 ++ List.replicate 40 0
/-- A loaded version 1. -/
def version1 : TableVersion :=
  { number := 1, state := .loaded, nearBase := 0, farBase := 0, nearSlots := 4, damaged := false, gen := 0, activation := none, activeFrom := none,
    retiredAt := none, redirects := [], migration := none, loadReq := none, forwarded := [], forwardedGrads := [] }
/-- Table 3 of a group with these versions. -/
def table3 (g : Uid) (vs : List TableVersion) : EmbTable := { id := 3, group := g, body := tableBody, versions := vs, lastVersion := vs.length }
/-- The paired device holds table 3. -/
def tabled (vs : List TableVersion) : State := { pairedUp with eng := { pairedUp.eng with tables := [table3 group7 vs] } }
/-- A step curve of one segment. -/
def curveImage : List Byte :=
  leBytes 4 0x56434849 ++ leBytes 2 0x0100 ++ [0, 0] ++ leBytes 2 1 ++ List.replicate 54 0 ++ leBytes 8 0 ++ leBytes 8 0 ++ leBytes 8 0 ++
    leBytes 8 0x3FF0000000000000 ++ leBytes 8 0 ++ leBytes 8 0

theorem test_TableRequests :
    (let m := request 0x30 group7 tableBody
     let c := createCheck (served pairedUp m) (msgBody m)
     Taken (asked pairedUp m) 256 0x30 m (served pairedUp m) ∧ (∃ p, c = (c.1, .ok p)) ∧ groupStatus c.1 (msgTarget m) 0 [0] = 0) ∧
    (let s := tabled []
     let m := request 0x31 group7 (leBytes 4 3 ++ leBytes 4 1 ++ leBytes 8 0 ++ leBytes 8 0 ++ leBytes 8 0 ++ leBytes 8 4)
     let c := loadCheck (served s m) (msgTarget m) (msgBody m) []
     Taken (asked s m) 256 0x31 m (served s m) ∧ (∃ p, c = (c.1, .ok p)) ∧ groupStatus c.1 (msgTarget m) 0 [0] = 0) ∧
    (let s := tabled [version1]
     let m := request 0x32 group7 (leBytes 4 3 ++ leBytes 4 1 ++ leBytes 8 8210)
     let c := activateCheck (served s m) (msgTarget m) (msgBody m)
     Taken (asked s m) 256 0x32 m (served s m) ∧ (∃ p, c = (c.1, .ok p)) ∧ groupStatus c.1 (msgTarget m) 0 [0] = 0) ∧
    (let s := tabled [version1]
     let m := request 0x33 group7 (leBytes 4 3 ++ leBytes 4 1)
     let c := retireCheck (served s m) (msgTarget m) (msgBody m)
     Taken (asked s m) 256 0x33 m (served s m) ∧ (∃ p, c = (c.1, .ok p)) ∧ groupStatus c.1 (msgTarget m) 0 [0] = 0) ∧
    (let s := tabled [version1]
     let m := request 0x34 group7 (leBytes 4 3 ++ leBytes 4 1 ++ leBytes 2 1 ++ leBytes 2 0 ++ leBytes 4 1 ++ leBytes 8 0x10000 ++ leBytes 8 0x20000 ++ leBytes 8 16384)
     let c := migrateCheck (served s m) (msgTarget m) (msgBody m)
     Taken (asked s m) 256 0x34 m (served s m) ∧ (∃ p, c = (c.1, .ok p)) ∧ groupStatus c.1 (msgTarget m) 0 [0] = 0) ∧
    (let s := holding pairedUp 0 curveImage
     let m := request 0x38 group7 (leBytes 4 9 ++ leBytes 4 0 ++ leBytes 8 0 ++ leBytes 4 112)
     let c := curveCheck (served s m) (msgBody m)
     Taken (asked s m) 256 0x38 m (served s m) ∧ byteAt (msgBody m) 4 = 0 ∧ (∃ p, c = (c.1, .ok p)) ∧
       c.1.eng.curves.any (fun c => c.id == fieldN (msgBody m) 0 4) = false ∧ groupStatus c.1 (msgTarget m) 0 [0] = 0) := by
  refine ⟨⟨taken_asked ?_, ⟨[], ok_eq _ [] ?_⟩, ?_⟩, ⟨taken_asked ?_, ⟨[], ok_eq _ [] ?_⟩, ?_⟩, ⟨taken_asked ?_, ⟨[], ok_eq _ [] ?_⟩, ?_⟩,
    ⟨taken_asked ?_, ⟨[], ok_eq _ [] ?_⟩, ?_⟩, ⟨taken_asked ?_, ⟨_, ok_eq _ [] ?_⟩, ?_⟩, ⟨taken_asked ?_, ?_, ⟨_, ok_eq _ [] ?_⟩, ?_⟩⟩ <;> decide +kernel

theorem test_ErrorAndReadRequests :
    (let m := request 0x40 dev0 []; Taken (asked up m) 256 0x40 m (served up m) ∧ fieldN (msgBody m) 0 8 = 0) ∧
    (let m := request 0x41 dev0 (leBytes 8 0xFFFFFFFFFFFFFFFF)
     Kept (served up m) ∧ CleanMemory (served up m) ∧ Taken (asked up m) 256 0x41 m (served up m) ∧ keyLevel (msgTarget m).toNat ≠ 5) ∧
    (let m := request 0x48 0 [0]
     Taken (asked up m) 256 0x48 m (served up m) ∧ recoverableJob (served up m) = none ∧ (served up m).quench.outside = [] ∧
       (selfAndAncestors (uidKey (msgTarget m))).all (fun a => ownState (served up m) a == 1) = true) ∧
    (let m := request 0x49 dev0 []; Taken (asked up m) 256 0x49 m (served up m)) ∧ (let m := request 0x60 dev0 []; Taken (asked up m) 256 0x60 m (served up m)) ∧
    (let m := request 0x61 dev0 (leBytes 8 (2 ^ 40 - 16) ++ leBytes 4 16)
     let t := served up m
     Taken (asked up m) 256 0x61 m t ∧ 16 * (t.form.dx * t.form.dy * t.form.dz) ≤ fieldN (msgBody m) 8 4 ∧
       rangeOk t isTier (fieldN (msgBody m) 0 8) (16 * (t.form.dx * t.form.dy * t.form.dz)) = true) :=
  ⟨⟨taken_asked (by decide +kernel), by decide +kernel⟩, ⟨by decide +kernel, clean_of rfl rfl, taken_asked (by decide +kernel), by decide +kernel⟩,
    ⟨taken_asked (by decide +kernel), by decide +kernel⟩, taken_asked (by decide +kernel), taken_asked (by decide +kernel), taken_asked (by decide +kernel), by decide +kernel⟩

/-! ### Firmware -/

/-- First 32 bytes of a firmware image of stepping A0, SVN 1. -/
def imageHead : List Byte :=
  leBytes 4 0x57464849 ++ leBytes 2 0x0100 ++ leBytes 2 0 ++ leBytes 4 1 ++ leBytes 4 0 ++ leBytes 8 0 ++ leBytes 8 (2 ^ 20)
/-- The image with a digest and a body. -/
def imageOf (digest body : List Byte) : List Byte := imageHead ++ (digest ++ ([0xA0] ++ (List.replicate 175 0 ++ body)))

theorem slice_mid (p d q : List Byte) : slice (p ++ (d ++ q)) p.length d.length = d := by simp [slice]

/-- The parts of a list laid out as an image. -/
theorem image_parts {p d z q : List Byte} (a : Byte) (hp : p.length = 32) (hd : d.length = 48) (hz : z.length = 175) :
    let i := p ++ (d ++ ([a] ++ (z ++ q)))
    i.length = 256 + q.length ∧ i.drop 256 = q ∧ byteAt i 0x50 = a.toNat ∧ slice i 0x51 79 = z.take 79 := by
  have h1 : p.drop 256 = [] := List.drop_eq_nil_of_le (by omega)
  have h2 : d.drop 224 = [] := List.drop_eq_nil_of_le (by omega)
  have h3 : p.drop 81 = [] := List.drop_eq_nil_of_le (by omega)
  have h4 : d.drop 49 = [] := List.drop_eq_nil_of_le (by omega)
  refine ⟨by simp only [List.length_append, List.length_cons, List.length_nil, hp, hd, hz]; omega, by simp [List.drop_append, hp, hd, hz, h1, h2],
    by simp [byteAt, List.getElem?_append, hp, hd], ?_⟩
  simp [slice, List.drop_append, List.take_append, hp, hd, hz, h3, h4]

/-- An image whose digest is that of its body exists. -/
theorem test_image_ok : ∃ img, imgHeaderOk img = true ∧ imgBodyOk img = true := by
  have h48 : ∀ x : Digest, (digestBytes x).length = 48 := fun x => rfl
  have h32 : imageHead.length = 32 := rfl
  have hp := fun x (body : List Byte) => image_parts (q := body) 0xA0 h32 (h48 x) (List.length_replicate (n := 175) (a := (0 : Byte)))
  have hs : ∀ x body, slice (imageOf (digestBytes x) body) 0x20 48 = digestBytes x := fun x body => slice_mid imageHead (digestBytes x) _
  have hf : ∀ x body o n, o + n ≤ 32 → fieldN (imageOf (digestBytes x) body) o n = fieldN imageHead o n := fun x body o n h => by
    simp only [fieldN, slice, imageOf]
    rw [List.drop_append_of_le_length (by rw [h32]; omega), List.take_append_of_le_length (by rw [List.length_drop, h32]; omega)]
  have hz : ∀ x body, zeroRange (imageOf (digestBytes x) body) 0x51 79 = true := fun x body => by
    unfold zeroRange imageOf
    rw [(hp x body).2.2.2]; decide
  refine ⟨imageOf (digestBytes (sha384 (List.replicate (2 ^ 20) 0))) (List.replicate (2 ^ 20) 0), ?_, ?_⟩
  · generalize sha384 (List.replicate (2 ^ 20) 0) = x
    generalize List.replicate (2 ^ 20) (0 : Byte) = body
    have h : decide (256 ≤ (imageOf (digestBytes x) body).length) = true := decide_eq_true (by rw [imageOf, (hp x body).1]; omega)
    have hb : byteAt (imageOf (digestBytes x) body) 0x50 = 0xA0 := (hp x body).2.2.1
    simp only [imgHeaderOk, h, hb, hz x body, imgBodyBytes, imgFloor, imgSvn, hf x body _ _ (by norm_num : 0 + 4 ≤ 32), hf x body _ _ (by norm_num : 4 + 2 ≤ 32),
      hf x body _ _ (by norm_num : 6 + 2 ≤ 32), hf x body _ _ (by norm_num : 8 + 4 ≤ 32), hf x body _ _ (by norm_num : 12 + 4 ≤ 32),
      hf x body _ _ (by norm_num : 24 + 8 ≤ 32)]
    decide +kernel
  · unfold imgBodyOk
    have hb : ∀ x body, imgBody (imageOf (digestBytes x) body) = body := fun x body => (hp x body).2.1
    rw [hb, hs, imgBodyBytes, hf _ _ _ _ (by norm_num), List.length_replicate]
    simp only [beq_self_eq_true, Bool.and_true]
    decide +kernel

theorem test_FirmwareStaging :
    (∃ img, (imgHeaderOk img && imgBodyOk img) = false) ∧ (∃ img, imgHeaderOk img = true ∧ imgBodyOk img = true) ∧
    (let s := holding up 64 [1, 2]
     let m := request 0x58 dev0 (leBytes 8 64 ++ leBytes 8 2)
     Taken (asked s m) 256 0x58 m (served s m) ∧ ∃ t1 img, readRef (served s m) (fieldN (msgBody m) 0 8) (fieldN (msgBody m) 8 8) = (t1, .ok img)) ∧
    (∃ t, exec (.ucpResetReq dev0) up = .next t) ∧ (up.power.state ≠ .absent ∧ ∃ t, exec .brownout up = .next t) :=
  ⟨⟨[], by decide +kernel⟩, test_image_ok, ⟨taken_asked (by decide +kernel), _, _, readRef_ok (by decide +kernel)⟩, ⟨_, rfl⟩, by decide +kernel, _, rfl⟩

/-- The activation of a staged image stands in this strike. -/
def activating (n : Nat) : State :=
  { up with boot := { up.boot with
      staged := some [1]
      activation := some { strike := 8192, client := 1, pair := 256, tag := 9, handedOver := n != 0, readBacks := n } } }

theorem test_FirmwareActivation :
    (let s := { up with boot := { up.boot with staged := some [1] } }
     let m := request 0x59 dev0 (leBytes 8 16384)
     let t := served s m
     Taken (asked s m) 256 0x59 m t ∧ t.boot.staged.isSome = true ∧ isBoundary (fieldN (msgBody m) 0 8) = true ∧ now t + 8192 ≤ fieldN (msgBody m) 0 8 ∧
       planLive t = false ∧ migrating t = false ∧ t.boot.activation = none) ∧
    (∃ a, (activating 2).boot.activation = some a ∧ (activating 2).boot.staged = some [1] ∧ a.strike ≤ now (activating 2) ∧ a.readBacks < 3) ∧
    (∃ a, (activating 3).boot.activation = some a ∧ a.handedOver = true ∧ 3 ≤ a.readBacks) ∧
    (let m := request 0x50 dev0 (leBytes 8 0 ++ leBytes 8 0 ++ leBytes 8 0 ++ leBytes 8 0 ++ leBytes 8 (2 ^ 40 - 608) ++ leBytes 4 608)
     let t := served up m
     Taken (asked up m) 256 0x50 m t ∧ 608 ≤ fieldN (msgBody m) 0x28 4 ∧ rangeOk t isTier (fieldN (msgBody m) 0x20 8) 608 = true ∧ t.ident.failed = false) :=
  ⟨⟨taken_asked (by decide +kernel), by decide +kernel⟩, ⟨_, rfl, by decide +kernel⟩, ⟨_, rfl, by decide +kernel⟩, ⟨taken_asked (by decide +kernel), by decide +kernel⟩⟩

/-! ### Plans, steps, engines, streams -/

/-- A queued job of an earlier acceptance, with its deadline. -/
def ready (deadline : Nat) : Job := { waiting with deadline := deadline, startStrike := 0 }
/-- A running job that a stop waits for. -/
def stopping : Job := { job idlePlan [] with stop := some { boundary := 8192, status := 0x0307, step := 4 } }

/-- A partition of core 0 with cause BUDGET. -/
def partition : Partition :=
  { uid := 0, cause := 16, detect := 8100, raised := 8100, origin := 0, restored := none, missedBound := false, retainMemory := true, retainFabric := true, requesters := [],
    repeated := false, begun := true, act := none }
/-- A hold of the running job. -/
def hold (p : Partition) (holding : Bool) (replay : Option Nat) : Hold :=
  { job := 1, first := p, raise := 8190, partitions := [p], holding := holding, holdOffset := 5, replayFrom := replay, prologueLeft := 0, sweepNext := 5, ending := none }
/-- The stopping job in a hold. -/
def stoppedHold (k : StrikeKind) : State :=
  let s := working [stopping]
  { s with seq := { s.seq with kind := k }, quench := { s.quench with hold := some (hold partition true none) } }

theorem test_PlanStartsAndStops :
    (∃ j, firstQueued (working [ready 0]) = some j ∧ mayStart (working [ready 0]) j = true ∧ startStatus (working [ready 0]) j = none) ∧
    (∃ j, firstQueued (working [ready 8191]) = some j ∧ mayStart (working [ready 8191]) j = true ∧ startStatus (working [ready 8191]) j = some 0x0500) ∧
    firstQueued up = none ∧
    (∃ st, runningJob (working [stopping]) = some stopping ∧ stopping.acts = [] ∧ stopping.stop = some st ∧ st.boundary ≤ now (working [stopping])) ∧
    (let j := { job idlePlan [] with startStrike := 8191 }
     runningJob (working [j]) = some j ∧ j.acts = [] ∧ j.stop = none ∧ (working [j]).seq.kind = .run ∧ plLength j.plan ≤ offsetNow (working [j]) j) ∧
    (∃ h st, runningJob (stoppedHold .hold) = some stopping ∧ (stoppedHold .hold).quench.hold = some h ∧ stopping.stop = some st ∧ st.boundary ≤ now (stoppedHold .hold) ∧
      (stoppedHold .hold).seq.kind ≠ .run) ∧
    (let s := working [job idlePlan [act (.step 0)]]
     ∃ j, runningJob s = some j ∧ s.quench.hold = none ∧ j.acts ≠ []) :=
  ⟨⟨ready 0, by decide +kernel⟩, ⟨ready 8191, by decide +kernel⟩, by decide +kernel, ⟨_, by decide +kernel, rfl, rfl, by decide +kernel⟩, by decide +kernel,
    ⟨_, _, by decide +kernel, rfl, rfl, by decide +kernel⟩, job idlePlan [act (.step 0)], by decide +kernel⟩

/-- A job that ended on its one member, with or without the member's report. -/
def ended (rs : Sparse EndReport) : Job := { job idlePlan [] with phase := .ended, reports := rs, reportAt := 8191 }
/-- A report with a status and step. -/
def report (status : BitVec 16) (step : BitVec 32) : EndReport := { status := status, step := step, record := 0, block := 0, records := [] }

theorem test_JobReports :
    (jobTaker 1 = (working [ended []]).form.device ∧ (working [ended []]).seq.jobs = [ended []] ∧ (ended []).num = 1 ∧ (ended []).completed = false ∧
      0 < (ended []).members.length) ∧
    (let j := ended [(0, report 0 0)]
     (working [j]).seq.jobs.find? (fun j => j.num == 1 && j.phase == .ended && !j.completed) = some j ∧ reportsComplete (working [j]) j = true) ∧
    ((working [ended []]).seq.jobs.find? (fun j => j.num == 1 && j.phase == .ended && !j.completed) = some (ended []) ∧
      reportsComplete (working [ended []]) (ended []) = false) ∧
    (∀ e ∈ (ended [(0, report 0 0)]).reports, e.2.status = 0) ∧
    (let e : Nat × EndReport := (0, report 0x0302 7)
     e ∈ (ended [e]).reports ∧ e.2.status ≠ 0 ∧ (ended [e]).endStatus = 0) := by decide +kernel

/-- A result that stores two bytes. -/
def storing : ActResult := { ActResult.ok with writes := [(64, [1, 2])] }
/-- An activity with that result whose last strike is n. -/
def finished (n : Nat) : Activity := { act (.step 0) with last := n, result := some storing }
/-- The device whose plan has that activity. -/
def finishing (n : Nat) : State := working [job (stepPlan 0 3 []) [finished n]]

theorem test_ActivityResultsAppear :
    (runningJob (finishing 8192) = some (job (stepPlan 0 3 []) [finished 8192]) ∧ actOf (job (stepPlan 0 3 []) [finished 8192]) (.step 0) = some (finished 8192) ∧
      (finished 8192).result = some storing ∧ (finished 8192).last ≤ now (finishing 8192) ∧ storing.flows = [] ∧ (finishing 8192).vmp.outstanding = [] ∧
      stepRecords (stepAt (stepPlan 0 3 []) 0) = false) ∧
    (actOf (job (stepPlan 0 3 []) [finished 8193]) (.step 0) = some (finished 8193) ∧ now (finishing 8193) < (finished 8193).last) := by decide +kernel

/-- The parameters of a step with a MODE. -/
def moded (m : Nat) : List Byte := List.replicate 0x30 0 ++ [BitVec.ofNat 8 m]

/-- A lookup or update of version 1, whose row 1 moves here and still waits for END. -/
def waitingEnd (op : Nat) : State :=
  let g : Migration := { rows := [1], old := [0], src := 1, dst := 0, addr := 0x20000, cutover := 8192, installed := true, endSent := false, endReceived := false,
                         held := [], waits := [], owner := none }
  { tabled [{ version1 with state := .active, activeFrom := some 0, migration := some g }] with
    seq := (stepping 0 op (List.replicate 0x30 0 ++ leBytes 4 3 ++ leBytes 4 1)).seq }

theorem test_StepResults :
    (∀ x ∈ stepRuns 0 [] [] [] true [] [] [] [], ∃ j st, servedStep (stepping 0 x.2.1 (moded (x.2.2.1.getD 0))) 0 0 x.2.1 = some (j, st) ∧
      (∀ m, x.2.2.1 = some m → byteAt (stepParams j.plan j.pos st) 0x30 = m)) ∧
    (∀ op ∈ [0xE, 0xF], (∃ j st, servedStep (stepping 0 op []) 0 0 op = some (j, st)) ∧ stepWaits (stepping 0 op []) 0 op [] = none ∧
      (stepWaits (waitingEnd op) 0 op [1]).isSome = true) ∧
    (∃ j a, runningJob (finishing 8192) = some j ∧ actOf j (.step 0) = some a ∧ storing.status ≠ 0x0400 ∧ (finishing 8192).mem.badWord = none ∧
      (finishing 8192).mem.badUnit = none) := by
  have h : ∀ x ∈ (stepRuns 0 [] [] [] true [] [] [] []).map (fun x => (x.2.1, x.2.2.1)), ∃ y ∈ servedStep (stepping 0 x.1 (moded (x.2.getD 0))) 0 0 x.1,
      x.2 = none ∨ x.2 = some (byteAt (stepParams y.1.plan y.1.pos y.2) 0x30) := by
    simp only [stepRuns, List.map_cons, List.map_nil]
    intro x hx
    simp only [Option.mem_def, Prod.exists]
    refine ⟨job (stepPlan 0 x.1 (moded (x.2.getD 0))) [act (.step 0)], stepAt (stepPlan 0 x.1 (moded (x.2.getD 0))) 0, ?_⟩
    revert x; decide +kernel
  refine ⟨fun x hx => ?_, fun op hop => ?_, job (stepPlan 0 3 []) [finished 8192], finished 8192, by decide +kernel⟩
  · obtain ⟨⟨j, st⟩, hy, hm⟩ := h _ (List.mem_map_of_mem hx)
    refine ⟨j, st, hy, fun m e => ?_⟩
    rw [e] at hm
    simpa using (hm.imp_right Eq.symm)
  · exact ⟨⟨job (stepPlan 0 op []) [act (.step 0)], stepAt (stepPlan 0 op []) 0, by revert op; decide +kernel⟩, by revert op; decide +kernel⟩

theorem test_StepsWriteNothingYet : CleanMemory (stepping 0 3 []) ∧ ∃ t, exec (.compute 0) (stepping 0 3 []) = .next t := ⟨clean_of rfl rfl, _, rfl⟩

theorem test_OrderKeys : isIntTy 4 = true ∧ isIntTy 8 = true ∧ isFloatTy 0x15 = true ∧ decodeF (fmtOf 0x15) (2 ^ 64 - 1) = .nan := by decide +kernel

/-- Two selection records, one of them null. -/
def picks : List SelRec := [{ index := 0, value := 5, row := 0, state := 0 }, { index := 1, value := 9, row := 0, state := 1 }]

theorem test_SelectAboveRow : (picks.map (·.index)).Nodup ∧ 0 < slCap (List.replicate 256 1) := by decide +kernel

theorem test_TopkRow : (picks.map (·.index)).Nodup ∧ 0 < slCap (List.replicate 256 1) := test_SelectAboveRow

theorem test_ExactSums : [FVal.nan, .inf true].Perm [.inf true, .nan] := List.Perm.swap ..

theorem test_EngineResults :
    (∀ op ∈ [0x10, 0x11, 0x12], ∃ j st, servedStep (stepping 0 op (moded 0)) 0 0 op = some (j, st)) ∧
    (∀ m ∈ [0, 1], ∃ j st, servedStep (stepping 0 0x11 (moded m)) 0 0 0x11 = some (j, st) ∧ byteAt (stepParams j.plan j.pos st) 0x30 = m) ∧
    (∃ j st, servedStep (stepping 2 0 []) 0 2 0 = some (j, st) ∧ st.index = 0) := by
  refine ⟨fun op hop => ⟨job (stepPlan 0 op (moded 0)) [act (.step 0)], stepAt (stepPlan 0 op (moded 0)) 0, by revert op; decide +kernel⟩,
    fun m hm => ⟨job (stepPlan 0 0x11 (moded m)) [act (.step 0)], stepAt (stepPlan 0 0x11 (moded m)) 0, by revert m; decide +kernel⟩,
    job (stepPlan 2 0 []) [act (.step 0)], stepAt (stepPlan 2 0 []) 0, by decide +kernel⟩

/-- A Hardy table of two blocks. -/
def uneven : HardyTable := { htab := 3, kind := 8, loadStep := 0, blocks := [[HardyEntry.of 4 0 0, HardyEntry.of 2 0 1], []] }
/-- A rebalance of it in progress. -/
def balancing : State := { stepping 1 0 [3] with eng := { up.eng with hardy := [(0, { HardyUnit.reset with tables := [uneven] })] } }

theorem test_HardyRebalances : ∃ j st tb, servedStep balancing 0 1 0 = some (j, st) ∧ 0 ∈ scopeDies balancing st.scope ∧
    tableOf (hardyGet balancing 0) (byteAt (stepParams j.plan j.pos st) 0) = some tb ∧ tb.blocks ≠ [] :=
  ⟨job (stepPlan 1 0 [3]) [act (.step 0)], stepAt (stepPlan 1 0 [3]) 0, uneven, by decide +kernel⟩

/-- A stream record of a kind, by list (1) or ring (2), with one transfer of 4 bytes at address 64 and a queue pair. -/
def streamRec (kind form qp : Nat) : List Byte :=
  leBytes 4 80 ++ [BitVec.ofNat 8 kind, BitVec.ofNat 8 form, 0, 0] ++ leBytes 8 0 ++ leBytes 4 16 ++ leBytes 4 1 ++ leBytes 8 0 ++ leBytes 4 0 ++ leBytes 4 1 ++
    List.replicate 18 0 ++ leBytes 2 qp ++ leBytes 4 0 ++ leBytes 8 64 ++ leBytes 4 4 ++ leBytes 4 0
/-- A plan with the record, and a flow from it when it sends. -/
def streamPlan (kind form qp : Nat) : List Byte :=
  planOf dev0 1 [(4, 0, []), (5, 128, streamRec kind form qp),
    (7, (if kind = 2 then 1 else 0), leBytes 2 0 ++ leBytes 2 1 ++ leBytes 8 0 ++ leBytes 4 4 ++ List.replicate 16 0)]
/-- The job whose plan streams. -/
def streamJob (kind form qp : Nat) : Job := job (streamPlan kind form qp) [act (.stream 0 0)]
/-- The device whose plan streams. -/
def streaming (kind form qp : Nat) : State := working [streamJob kind form qp]
/-- The device whose plan ingests by a ring of one arrived entry, which names this address. -/
def ringStreaming (a : Nat) : State :=
  let s := holding (streaming 4 2 0) 0 (leBytes 8 a ++ leBytes 4 4 ++ leBytes 4 0)
  { s with eng := { s.eng with rings := [(drNumber 0 0, { StreamRing.reset with tail := 1, arrivals := [(1, 8190)] })] } }
/-- The device whose plan queue pair has read these of the 4 bytes of the repeat. -/
def reading (bs : List Byte) : State :=
  let s := streaming 4 1 512
  { s with links := { s.links with spur := [{ SpurPort.reset with qps := [(0, { QueuePair.reset with issued := some (0, 0, 8192, 1, 4), data := [(0, bs)] })] }, SpurPort.reset] } }
/-- The record of the job has failed on engine 0. -/
def streamFailing (kind : Nat) : State := working [{ streamJob kind 1 0 with streamFailed := [(0, 0, 3)] }]
/-- The job whose plan lands a flow of n bytes in one transfer of 4 bytes at an address, with the bytes that have landed. -/
def landJob (a n : Nat) (bs : List Byte) : Job :=
  { job (planOf dev0 1 [(4, 0, []), (5, 128, splice (streamRec 3 1 0) 64 (leBytes 8 a)),
      (7, 1, leBytes 2 1 ++ leBytes 2 0 ++ leBytes 8 0 ++ leBytes 4 n ++ List.replicate 16 0)]) [act (.stream 0 0)] with flowIn := [(chunkKey 0 0 0, bs)] }

theorem ok_of {r : State × Except (Nat × Nat) (List Xfer)} (h : r.2.toOption.isSome = true) : r = (r.1, .ok (r.2.toOption.getD [])) := by
  rcases r with ⟨s, _ | _⟩ <;> simp_all [Except.toOption]
theorem error_of {r : State × Except (Nat × Nat) (List Xfer)} {e : Nat × Nat} (h : (match r.2 with
    | .error x => x == e
    | .ok _ => false) = true) : r = (r.1, .error e) := by
  rcases r with ⟨s, _ | _⟩ <;> simp_all

theorem test_StreamResults :
    (∀ k ∈ [0, 1], ∃ j h, servedStream (streaming k 1 0) 0 0 k = some (j, h) ∧ CleanMemory (streaming k 1 0) ∧ (streaming k 1 0).mem.merge = [] ∧
      rankedCores (streaming k 1 0) h = [(0, 0)] ∧ failedOn (streaming k 1 0) j.num 0 (keyStack 0) = none ∧
      (gatherXfers (streaming k 1 0) (BitVec.ofNat 8 (strFill h)) 0 (streamXfers j.plan j.pos 0 0 0)).2.2 = none ∧ (drainOne j 0 0 h (streaming k 1 0) 0 0).bad = none) ∧
    (let j := streamJob 2 1 0
     ∃ s1 bs f h, servedStream (streaming 2 1 0) 0 0 2 = some (j, h) ∧ failedOn (streaming 2 1 0) j.num 0 (keyStack (strScope h)) = none ∧
       gatherXfers (streaming 2 1 0) (BitVec.ofNat 8 (strFill h)) 0 (streamXfers j.plan j.pos 0 0 0) = (s1, bs, none) ∧
       bs.length = 4 ∧ flowFrom j 0 = some f ∧ f.dynamic = false) ∧
    (∀ x ∈ [(64, 4, [], false, none), (64, 4, [1, 2, 3, 4], true, none), (64, 8, [1, 2, 3, 4, 5, 6, 7, 8], true, none), (2 ^ 44, 4, [1, 2, 3, 4], true, some 0)],
      let j := landJob x.1 x.2.1 x.2.2.1
      let xs := streamXfers j.plan j.pos 0 0 0
      let data := ((flowTo j 0).map (fun f => flowBytes j.flowIn f.index)).getD []
      ∃ h, servedStream (working [j]) 0 0 3 = some (j, h) ∧ failedOn (working [j]) j.num 0 (keyStack (strScope h)) = none ∧ data = x.2.2.1 ∧
        decide (((flowTo j 0).map (·.bytes)).getD 0 ≤ data.length) = x.2.2.2.1 ∧ xs.findIdx? (unmappedXfer (working [j])) = x.2.2.2.2 ∧ totalLen xs = 4) ∧
    (∃ h s1 xs, servedStream (streaming 4 1 0) 0 0 4 = some (streamJob 4 1 0, h) ∧ failedOn (streaming 4 1 0) 1 0 (keyStack (strScope h)) = none ∧
      strForm h ≠ 2 ∧ ingestXfers (streaming 4 1 0) (streamJob 4 1 0) h 0 0 = (s1, .ok xs) ∧
      ingestData s1 (streamJob 4 1 0) h 0 0 (totalLen xs) = none) ∧
    (∃ h s1 xs, servedStream (reading [1, 2, 3, 4]) 0 0 4 = some (streamJob 4 1 512, h) ∧ failedOn (reading [1, 2, 3, 4]) 1 0 (keyStack (strScope h)) = none ∧
      strForm h ≠ 2 ∧ ingestXfers (reading [1, 2, 3, 4]) (streamJob 4 1 512) h 0 0 = (s1, .ok xs) ∧
      ingestData s1 (streamJob 4 1 512) h 0 0 (totalLen xs) = some [1, 2, 3, 4] ∧ xs.findIdx? (unmappedXfer s1) = none) ∧
    (∃ h, servedStream (streaming 4 2 0) 0 0 4 = some (streamJob 4 2 0, h) ∧ failedOn (streaming 4 2 0) 1 0 (keyStack (strScope h)) = none ∧
      strForm h = 2 ∧ ringArrived (streaming 4 2 0) (streamJob 4 2 0) h 0 0 8191 = false) ∧
    (∃ h s1, servedStream (ringStreaming (2 ^ 44)) 0 0 4 = some (streamJob 4 2 0, h) ∧ failedOn (ringStreaming (2 ^ 44)) 1 0 (keyStack (strScope h)) = none ∧
      strForm h = 2 ∧ ringArrived (ringStreaming (2 ^ 44)) (streamJob 4 2 0) h 0 0 (((actOf (streamJob 4 2 0) (.stream 0 0)).map (·.start)).getD 0 - 1) = true ∧
      ingestXfers (ringStreaming (2 ^ 44)) (streamJob 4 2 0) h 0 0 = (s1, .error (2, 0))) ∧
    (∃ h s1 xs, servedStream (ringStreaming 64) 0 0 4 = some (streamJob 4 2 0, h) ∧ failedOn (ringStreaming 64) 1 0 (keyStack (strScope h)) = none ∧
      ringArrived (ringStreaming 64) (streamJob 4 2 0) h 0 0 (((actOf (streamJob 4 2 0) (.stream 0 0)).map (·.start)).getD 0 - 1) = true ∧
      ingestXfers (ringStreaming 64) (streamJob 4 2 0) h 0 0 = (s1, .ok xs) ∧ ingestData s1 (streamJob 4 2 0) h 0 0 (totalLen xs) = none) ∧
    (∀ k ∈ [2, 3, 4], ∃ j h, servedStream (streamFailing k) 0 0 k = some (j, h) ∧ failedOn (streamFailing k) j.num 0 (keyStack (strScope h)) = some 3) := by
  refine ⟨fun k hk => ⟨streamJob k 1 0, streamHdr (streamPlan k 1 0) 0 0, ?_, clean_of rfl rfl, rfl, ?_⟩,
    ⟨streaming 2 1 0, [0, 0, 0, 0], { index := 0, src := 0, dst := 1, srcStream := 0, dstStream := 0, bytes := 4, dynamic := false }, streamHdr (streamPlan 2 1 0) 0 0, by decide +kernel⟩,
    fun x hx => ⟨streamHdr (landJob x.1 x.2.1 x.2.2.1).plan 0 0, ?_⟩,
    ⟨streamHdr (streamPlan 4 1 0) 0 0, _, _, by decide +kernel, by decide +kernel, by decide +kernel, ok_of (by decide +kernel),
      by decide +kernel⟩,
    ⟨streamHdr (streamPlan 4 1 512) 0 0, _, _, by decide +kernel, by decide +kernel, by decide +kernel, ok_of (by decide +kernel),
      by decide +kernel⟩,
    ⟨streamHdr (streamPlan 4 2 0) 0 0, by decide +kernel⟩,
    ⟨streamHdr (streamPlan 4 2 0) 0 0, _, by decide +kernel, by decide +kernel, by decide +kernel, by decide +kernel, error_of (by decide +kernel)⟩,
    ⟨streamHdr (streamPlan 4 2 0) 0 0, _, _, by decide +kernel, by decide +kernel, by decide +kernel, ok_of (by decide +kernel),
      by decide +kernel⟩,
    fun k hk => ⟨{ streamJob k 1 0 with streamFailed := [(0, 0, 3)] }, streamHdr (streamPlan k 1 0) 0 0, ?_⟩⟩
  · revert k; decide +kernel
  · revert k; decide +kernel
  · revert x; decide +kernel
  · revert k; decide +kernel
/-! ### A good frame -/

/-- Symbols of codeword 2 of a FLOW frame of flow 0 and epoch 1: KIND 1, then payload bytes that leave the CRC register at zero. -/
def headSymbols : List Nat := [1, 229, 220, 46, 89, 2, 168, 82, 43, 1]
/-- First bytes of the frame's data stream. -/
def frameHead : List Byte := (List.range 579).map (fun i => BitVec.ofNat 8 (if i % 64 = 2 then headSymbols.getD (i / 64) 0 else if i = 4 then 1 else 0))
/-- The data stream: zeros, and the CRC. -/
def goodData : List Byte := frameHead ++ (List.replicate 10733 0 ++ (List.replicate 8 0xFF ++ List.replicate 8 0))
/-- Parities of its codewords. -/
def goodParity (c : Nat) : List Nat :=
  if c = 2 then [86, 53, 67, 221, 178, 1, 63, 92, 164, 16, 156, 115, 253, 18, 153, 154, 5, 2]
  else if c = 4 then [149, 178, 126, 82, 248, 224, 55, 114, 24, 36, 76, 221, 89, 23, 103, 137, 249, 163]
  else if 48 ≤ c ∧ c < 56 then [169, 57, 120, 19, 13, 152, 148, 223, 142, 104, 101, 153, 123, 134, 150, 45, 76, 202]
  else List.replicate 18 0
/-- The frame as it stands on the line. -/
def goodFrame : List Byte := Laws.frameWith goodParity goodData

theorem head_length : frameHead.length = 579 := by rw [frameHead, List.length_map, List.length_range]

theorem byteAt_goodData (i : Nat) : byteAt goodData i = if i < 579 then (if i % 64 = 2 then headSymbols.getD (i / 64) 0 else if i = 4 then 1 else 0) else if 11312 ≤ i ∧ i < 11320 then 0xFF else 0 := by
  unfold goodData
  split
  · rename_i h
    rw [Laws.byteAt_append_left (by rw [head_length]; exact h), byteAt, frameHead, List.getD_eq_getElem?_getD, List.getElem?_map, List.getElem?_range h, Option.map_some,
      Option.getD_some, BitVec.toNat_ofNat, Nat.mod_eq_of_lt]
    split
    · exact (by decide : ∀ k, k < 10 → headSymbols.getD k 0 < 2 ^ 8) (i / 64) (by omega)
    · split <;> decide
  · rw [Laws.byteAt_append_right (by rw [head_length]; omega), head_length]
    by_cases h : i < 11312
    · rw [Laws.byteAt_append_left (by rw [List.length_replicate]; omega), Laws.byteAt_replicate, if_neg (by omega)]
    · rw [Laws.byteAt_append_right (by rw [List.length_replicate]; omega), List.length_replicate]
      by_cases h2 : i < 11320
      · rw [Laws.byteAt_append_left (by rw [List.length_replicate]; omega), if_pos (by omega)]
        have : i - 579 - 10733 < 8 := by omega
        revert this; generalize i - 579 - 10733 = k; revert k; decide
      · rw [Laws.byteAt_append_right (by rw [List.length_replicate]; omega), Laws.byteAt_replicate, if_neg (by omega)]

theorem good_codeword (c : Nat) (hc : c < 64) : codeword goodData c =
    if c = 2 then headSymbols ++ List.replicate 167 0 else if c = 4 then 1 :: List.replicate 176 0 else if 48 ≤ c ∧ c < 56 then List.replicate 176 0 ++ [0xFF] else List.replicate 177 0 := by
  have h : ∀ i, i < 177 → byteAt goodData (64 * i + c) =
      if c = 2 then headSymbols.getD i 0 else if c = 4 then (if i = 0 then 1 else 0) else if 48 ≤ c ∧ c < 56 ∧ i = 176 then 0xFF else 0 := by
    intro i hi
    have h0 : ∀ k, 10 ≤ k → headSymbols.getD k 0 = 0 := fun k hk => by
      rw [List.getD_eq_getElem?_getD, List.getElem?_eq_none (show headSymbols.length ≤ k from hk)]; rfl
    rw [byteAt_goodData, show (64 * i + c) % 64 = c by omega, show (64 * i + c) / 64 = i by omega]
    split
    · split
      · rfl
      · split
        · rw [if_pos (by omega), if_pos (by omega)]
        · by_cases h4 : c = 4
          · rw [if_pos h4, if_neg (by omega)]
          · rw [if_neg h4, if_neg (by omega)]
    · rw [if_congr (show (11312 ≤ 64 * i + c ∧ 64 * i + c < 11320 ↔ 48 ≤ c ∧ c < 56 ∧ i = 176) by omega) rfl rfl]
      by_cases h2 : c = 2
      · rw [if_pos h2, if_neg (by omega), h0 i (by omega)]
      · rw [if_neg h2]
        by_cases h4 : c = 4
        · rw [if_pos h4, if_neg (by omega), if_neg (by omega)]
        · rw [if_neg h4]
  rw [codeword, List.map_congr_left (fun i hi => h i (List.mem_range.1 hi))]
  split
  · decide +kernel
  split
  · decide +kernel
  split
  · rename_i h48
    simp only [h48.1, h48.2, true_and]
    decide +kernel
  · rename_i h48
    simp only [show ∀ i, ¬(48 ≤ c ∧ c < 56 ∧ i = 176) from fun i h => h48 ⟨h.1, h.2.1⟩, if_false]
    decide +kernel

set_option maxRecDepth 100000 in
theorem test_good_codewords : ∀ c, c < 64 → Laws.CodewordOk goodParity goodData c := by
  intro c hc
  rw [Laws.CodewordOk, good_codeword c hc, goodParity]
  split
  · decide +kernel
  split
  · decide +kernel
  split <;> decide +kernel

theorem good_length : goodData.length = 11328 := by simp only [goodData, List.length_append, List.length_replicate, head_length]

theorem test_good_frame : frameDecode goodFrame = some (goodData, 0) := Laws.frameDecode_with good_length test_good_codewords

set_option maxRecDepth 100000 in
theorem head_crc : frameHead.foldl crc64Byte neverWord = 0 := by decide +kernel

theorem test_good_crc : crcOk goodData = true := by
  have h1 : goodData.take 11312 = frameHead ++ List.replicate 10733 0 := by
    rw [goodData, ← List.append_assoc, List.take_append_of_le_length (by rw [List.length_append, head_length, List.length_replicate]),
      List.take_of_length_le (by rw [List.length_append, head_length, List.length_replicate])]
  have h2 : crc64 (goodData.take 11312) = 0xFFFFFFFFFFFFFFFF := by
    rw [h1, crc64, List.foldl_append, head_crc, Laws.crc_zeros]
    decide
  have h3 : fieldN goodData 11312 8 = 0xFFFFFFFFFFFFFFFF := by
    have : goodData.drop 11312 = List.replicate 8 0xFF ++ List.replicate 8 0 := by
      rw [goodData, ← List.append_assoc, List.drop_left' (by rw [List.length_append, head_length, List.length_replicate])]
    rw [fieldN, slice, this]
    decide
  rw [crcOk, h2, h3]
  decide

/-- Parities that make a word of zero syndromes but the last of codeword 0: no pattern of nine errors or fewer explains it. -/
def badParity (c : Nat) : List Nat := if c = 0 then [1, 119, 66, 83, 120, 119, 22, 197, 83, 249, 41, 143, 134, 85, 53, 125, 99, 79] else List.replicate 18 0
/-- The frame with them. -/
def badFrameBytes : List Byte := Laws.frameWith badParity (List.replicate 11328 0)

set_option maxRecDepth 100000 in
theorem test_bad_frame : frameDecode badFrameBytes = none := by
  refine Laws.frameDecode_none (List.length_replicate ..) (by decide +kernel) ?_
  have h : codeword (List.replicate 11328 0) 0 = List.replicate 177 0 := by simp only [codeword, Laws.byteAt_replicate]; decide +kernel
  rw [h]
  decide +kernel

/-! ### Timebase -/

/-- The device with a timebase. -/
def timed (t : Timebase) : State := { up with tb := t }
/-- A follower before the election has ended. -/
def electing : Timebase := { Timebase.reset with refLocked := true }
/-- A candidate that ranks above the device. -/
def better : Candidate := { classOne := true, pending := false, digest := 7, device := 1 }

theorem test_TimebaseReferences :
    (timed electing).tb.refLocked = true ∧ (∃ s : State, 1 ≤ s.tb.badMarks) ∧ (timed electing).tb.badMarks = 0 ∧
    ((timed electing).boot.phase = .running ∧ (timed electing).tb.electionOver = false ∧ (timed electing).tb.best = none) ∧
    (let t := timed Timebase.reset
     t.boot.phase = .running ∧ t.tb.electionOver = false ∧ t.tb.pendings = [] ∧ (ownCandidate t).pending = false ∧ t.tb.best = none) ∧
    (let t := timed { Timebase.reset with best := some better }
     t.tb.pendings = [] ∧ (ownCandidate t).pending = false ∧ t.boot.phase = .running ∧ t.tb.electionOver = false ∧ t.tb.best = some better ∧ ranksAbove (ownCandidate t) better = false ∧ better.digest ≠ t.ident.digest) ∧
    (timed electing).tb.announced = none ∧ (timed electing).ident.failed = false ∧ (∃ s : State, s.ident.failed = true) ∧
    (let t := timed { electing with strikeDefined := true, electionOver := true }
     t.tb.role ≠ .master ∧ t.tb.strikeDefined = true ∧ t.tb.electionOver = true ∧ t.tb.heartbeatHeat + 3 ≤ (({ t with seq := { t.seq with strike := 12287 } } : State).seq.strike.toNat + 1) / 4096 ∧
       now { t with seq := { t.seq with strike := 12287 } } = 12287) :=
  ⟨rfl, ⟨timed { electing with badMarks := 1 }, Nat.le_refl 1⟩, rfl, by decide +kernel, by decide +kernel, by decide +kernel, rfl, rfl,
    ⟨{ up with ident := { up.ident with failed := true } }, rfl⟩, by decide +kernel⟩

/-- A neighbour behind port 2 that may be the parent, at a hop count. -/
def parented (hops : Nat) (role : Role) (lock : LockState) : State :=
  let s := timed { Timebase.reset with role := role, lock := lock, strikeDefined := true, neighbourLocked := [false, false, true, false, false, false],
                                       neighbourHops := [0, 0, hops, 0, 0, 0], hopDelay := [0, 0, 99, 0, 0, 0] }
  { s with links := { s.links with ports := listModify s.links.ports 2 (fun w => { w with state := .up }) } }

/-- A slipped device that is fenced and missed a change of an epoch, or of none. -/
def fencedSlip (e : BitVec 32) : State :=
  { parented 23 .none .slipped with
    units := { up.units with pages := [(devKey, { UnitState.reset with flags := { UnitFlags.reset with fenced := true, refEpoch := e } })] } }

theorem test_StrikeLock :
    (∃ s : State, s.tb.role = .master ∧ s.tb.strikeDefined = false) ∧
    ((parented 23 .none .unlocked).tb.lock = .unlocked ∧ (parented 23 .none .unlocked).tb.role ≠ .master ∧ chooseParent (parented 23 .none .unlocked) = some 2 ∧
      (parented 23 .none .unlocked).ident.failed = false ∧
      (parented 23 .none .unlocked).tb.neighbourHops.getD 2 0 + 1 ≤ 24) ∧
    (chooseParent (parented 24 .none .unlocked) = some 2 ∧ 24 < (parented 24 .none .unlocked).tb.neighbourHops.getD 2 0 + 1) ∧
    (let s := timed { Timebase.reset with lock := .locked, role := .follower, offset := 0xFFFFE0BF }
     s.tb.lock = .locked ∧ s.tb.role ≠ .master ∧ (sint 32 s.tb.offset.toNat).natAbs = 8001) ∧
    (let s := timed { Timebase.reset with lock := .locked, role := .follower, offset := 8000 }
     (sint 32 s.tb.offset.toNat).natAbs ≤ 8000) ∧
    (Kept (fencedSlip 0) ∧ (fencedSlip 0).ident.failed = false ∧ (fencedSlip 0).tb.lock = .slipped ∧ relockPort (fencedSlip 0) = some 2 ∧ refEpochOf (unitGet (fencedSlip 0) devKey).flags = 0) ∧
    (Kept (fencedSlip 1) ∧ (fencedSlip 1).tb.lock = .slipped ∧ relockPort (fencedSlip 1) = some 2 ∧ refEpochOf (unitGet (fencedSlip 1) devKey).flags ≠ 0) ∧
    (∀ q ∈ parentPorts (parented 24 .none .slipped), 24 < (parented 24 .none .slipped).tb.neighbourHops.getD q 0 + 1) ∧
    (let s := timed { Timebase.reset with role := .follower, parent := some 2 }
     s.tb.parent = some 2 ∧ s.tb.role = .follower ∧ portUp s 2 = false) ∧
    ((parented 3 .holdover .locked).tb.role = .holdover ∧ (parented 3 .holdover .locked).tb.lock = .locked ∧ chooseParent (parented 3 .holdover .locked) = some 2 ∧
      (parented 3 .holdover .locked).tb.neighbourHops.getD 2 0 + 1 ≤ 24) ∧
    (let s := { parented 24 .holdover .locked with seq := { up.seq with strike := 65536 } }
     s.tb.role = .holdover ∧ s.tb.lock = .locked ∧ (∀ q ∈ parentPorts s, 24 < s.tb.neighbourHops.getD q 0 + 1) ∧ s.tb.holdoverHeats + 16 ≤ now s / 4096) :=
  ⟨⟨timed { Timebase.reset with role := .master }, rfl, rfl⟩, by decide +kernel⟩

/-! ### Power, boot, formation -/

/-- The regulators come up. -/
def sequencing (n : Nat) : State := { State.reset with power := { Power.reset with state := .sequencing, attempts := n } }
/-- The ROM waits for an image. -/
def recovering : State := { sequencing 0 with boot := { Boot.reset with phase := .recovery } }

theorem test_PowerAndBoot :
    State.reset.power.state = .absent ∧ ((sequencing 2).power.state = .sequencing ∧ (sequencing 2).power.attempts ≠ 0) ∧ up.power.state ≠ .absent ∧
    (recovering.boot.phase = .recovery ∧ recovering.boot.source = none ∧ recovering.links.ports.length = 8 ∧ recovering.boot.arriving = [] ∧
      imageWhole (List.replicate 256 0) = true ∧ imageWhole (recovering.boot.arriving ++ [1]) = false) ∧
    (∃ s : State, s.boot.source = some .managementPort ∧ RecoverySource.weldNeighbour ≠ .managementPort) :=
  ⟨by decide +kernel, by decide +kernel, by decide +kernel, by decide +kernel, { up with boot := { up.boot with source := some .managementPort } }, rfl, by decide⟩

/-- Sixteen modules of 64 GiB. -/
def modules : List ModuleInfo := List.replicate 16 { ecc := true, gib := 64, mts := 8800, trained := true }

theorem test_TrainingAndBypass :
    (∃ s : State, s.boot.phase = .running ∧ s.form.trained = false) ∧ farCapacity modules = 1024 ∧
    (∀ c ∈ [BypassCause.inputAbsent, .virianStopped], State.reset.links.ports.length = 8 ∧ bypassCauseHolds State.reset c = true) ∧
    (∃ s : State, bypassCauseHolds s .fencedTooLong = true) ∧ (∃ s : State, bypassCauseHolds s .resetWithoutFabric = true) ∧
    bypassCauseHolds { recovering with boot := { recovering.boot with xPairOpen := true } } .recoveryTimeout = true ∧ bypassCauseHolds up .fencedTooLong = false ∧
    (up.links.ports.length = 8 ∧ up.boot.phase = .running ∧ up.ident.failed = false ∧ up.form.listed = true) ∧ (∃ s : State, s.form.listed = false) :=
  ⟨⟨{ up with form := { up.form with trained := false } }, rfl, rfl⟩, by decide +kernel, by decide +kernel,
    ⟨{ up with links := { up.links with fencedHeats := 65 } }, by decide +kernel⟩,
    ⟨{ up with units := { up.units with pages := [(devKey, { UnitState.reset with flags := { UnitFlags.reset with resetting := true }, page := { UnitPage.reset with retainFabric := false } })] } },
      by decide +kernel⟩, by decide +kernel, by decide +kernel, by decide +kernel, ⟨{ up with form := { up.form with listed := false } }, rfl⟩⟩

/-- A map of two devices in a row, at a version. -/
def mapOf (version : Nat) (second : List Byte) : List Byte :=
  leBytes 4 0x4D534849 ++ leBytes 2 0x0100 ++ leBytes 2 0 ++ leBytes 4 version ++ [2, 1, 1, 0] ++ leBytes 2 2 ++ List.replicate 46 0 ++ List.replicate 16 1 ++ second
/-- The device before strike 0, with no map. -/
def unformed : State := { up with tb := { up.tb with strikeDefined := false, role := .none, lock := .unlocked }, form := Formation.reset }

theorem test_Formation :
    (unformed.boot.phase = .running ∧ mapValid unformed (mapOf 3 (List.replicate 16 0)) = true ∧ mapBetter unformed (mapOf 3 (List.replicate 16 0)) = true ∧
      unformed.tb.strikeDefined = false) ∧
    (let s := { up with form := { up.form with map := mapOf 3 (List.replicate 16 2), mapVersion := 3 } }
     mapValid s (mapOf 4 (List.replicate 16 5)) = true ∧ mapBetter s (mapOf 4 (List.replicate 16 5)) = true ∧ s.form.lateJoiner = false ∧
       mapFillsOnly s.form.map (mapOf 4 (List.replicate 16 5)) = false) ∧
    (pairedUp.tb.role = .master ∧ 1 < pairedUp.form.dx * pairedUp.form.dy * pairedUp.form.dz) ∧
    (let s := { up with form := { up.form with formationCommitted := false } }
     s.tb.role = .master ∧ s.tb.lock = .locked ∧ s.form.formationCommitted = false ∧ routesFree s = true ∧ s.form.device < s.form.dx * s.form.dy * s.form.dz) ∧
    (up.form.formationCommitted = true ∧ routesFree up = true ∧ (up.form.device, []) ∈ ([(0, [])] : List (Nat × List (BitVec 32)))) ∧
    (forming.form.ready = false ∧ forming.tb.lock = .locked ∧ forming.form.formationCommitted = true ∧ forming.form.trained = true ∧ now forming % 4096 = 0) ∧
    (unformed.boot.phase = .running ∧ unformed.ident.failed = false) := by decide +kernel

/-! ### Weld -/

theorem test_FrameHeaderRoundTrip : ∃ (h : FrameHdr) (payload : List Byte), h.version < 2 ^ 16 ∧ h.kind < 2 ^ 8 ∧ h.lane < 8 ∧ h.epoch < 2 ^ 32 ∧ h.step < 2 ^ 64 ∧
    h.offset < 2 ^ 48 ∧ h.flow < 2 ^ 16 ∧ h.seq < 2 ^ 32 ∧ h.ack < 2 ^ 32 ∧ h.nak < 2 ^ 32 ∧ h.bytes ≤ 11264 ∧ h.src < 2 ^ 12 ∧ h.orig < 2 ^ 32 ∧ payload.length = h.bytes :=
  ⟨{ version := 0xFFFF, kind := 0xFF, lane := 7, epoch := 0xFFFFFFFF, step := 2 ^ 64 - 1, offset := 2 ^ 48 - 1, flow := 0xFFFF, seq := 0xFFFFFFFF, ack := 0xFFFFFFFF,
     nak := 0xFFFFFFFF, bytes := 11264, src := 0xFFF, orig := 0xFFFFFFFF }, List.replicate 11264 9, by norm_num⟩

/-- A plan that receives flow 0. -/
def flowPlan : List Byte := planOf dev0 1 [(4, 0, []), (7, 1, leBytes 2 1 ++ leBytes 2 0 ++ leBytes 8 0 ++ leBytes 4 4 ++ List.replicate 16 0)]
/-- The device with port 0 up on all lanes, a job, and what the port holds. -/
def linked (j : Job) (f : WeldPort → WeldPort) : State :=
  { working [j] with links := { up.links with ports := listModify up.links.ports 0 (fun w => f { w with state := .up, lanes := List.replicate 8 .up, bypassClosed := false }) } }
/-- The device on an epoch. -/
def atEpoch (e : BitVec 32) (s : State) : State :=
  { s with units := { s.units with pages := [(devKey, { UnitState.reset with page := { UnitPage.reset with active := e } })] } }
/-- A frame kept for re-sending. -/
def kept (naked : Option Nat) : SentFrame := { seq := 5, strike := 8128, data := [1], naked := naked, ctl := [] }

theorem test_FrameTraffic :
    (let s := atEpoch 1 (linked (job flowPlan []) id)
     (portGet s 0).state = .up ∧ laneUp (portGet s 0) 7 = true ∧ frameDecode badFrameBytes = none ∧ frameDecode goodFrame = some (goodData, 0) ∧ crcOk goodData = true ∧
       (parseHdr goodData).version = (portGet s 0).major.toNat * 256 + (portGet s 0).minor.toNat ∧ (parseHdr goodData).epoch = (epochAt s (sentStrike s (portGet s 0) (BitVec.ofNat 32 (parseHdr goodData).seq))).toNat ∧
       (parseHdr goodData).kind = 1 ∧ flowCheck s (portGet s 0) (parseHdr goodData) = true) ∧
    (let s := linked (job flowPlan []) id
     (parseHdr goodData).version = (portGet s 0).major.toNat * 256 + (portGet s 0).minor.toNat ∧ (parseHdr goodData).epoch ≠ (epochAt s (sentStrike s (portGet s 0) (BitVec.ofNat 32 (parseHdr goodData).seq))).toNat ∧
       (unitGet s devKey).page.active.toNat < (parseHdr goodData).epoch ∧
       (unitGet s devKey).page.pendEpoch.toNat ≠ (parseHdr goodData).epoch) ∧
    (let j := { job flowPlan [] with startStrike := 8188 }
     let s := linked j (fun w => { w with waiting := [(7, goodData)] })
     (portGet s 0).waiting.find? (fun x => x.1 == 7 && landDue s (parseHdr x.2)) = some (7, goodData) ∧ runningJob s = some j ∧
       (flowAt j.plan (parseHdr goodData).flow).dst = j.pos) ∧
    (let j := { job flowPlan [] with startStrike := 8188, pos := 1 }
     let s := linked j (fun w => { w with waiting := [(7, goodData)] })
     (portGet s 0).waiting.find? (fun x => x.1 == 7 && landDue s (parseHdr x.2)) = some (7, goodData) ∧ runningJob s = some j ∧
       (flowAt j.plan (parseHdr goodData).flow).dst ≠ j.pos ∧
       j.carried.find? (fun c => c.2 == framePlace s 0 (parseHdr goodData).flow (parseHdr goodData).offset (origLane s j 0 (parseHdr goodData))) = none ∧
       (let k := { j with carried := [(0, 0)] }
        (k.carried.find? (fun c => c.2 == framePlace s 0 (parseHdr goodData).flow (parseHdr goodData).offset (origLane s k 0 (parseHdr goodData)))).isSome = true) ∧
       (parseHdr goodData).orig ≠ 0xFFFFFFFF) ∧
    (let s := linked (job flowPlan []) (fun w => { w with sent := [kept (some 8191)], age := 8192 })
     s.links.ports.length = 8 ∧ resendDue (portGet s 0) = [kept (some 8191)] ∧ (portGet s 0).state = .up ∧ laneUp (portGet s 0) 7 = true ∧ slotOwner s 0 7 = none ∧
       latExceeded s 0 = false ∧ (portGet s 0).sent.any (fun x => x.seq == seqOf (portGet s 0) 7 && x.naked.isNone) = false) ∧
    (∃ s : State, latExceeded s 0 = true) ∧
    (let s := linked (job flowPlan []) (fun w => { w with sent := [kept none], age := 8192 })
     s.links.ports.length = 8 ∧ (portGet s 0).badSeqs.contains 5 = false ∧
       (portGet s 0).sent.any (fun f => f.seq == 5 && decide (f.strike + 64 ≤ (portGet s 0).age)) = true) ∧
    (let s := linked (job flowPlan []) (fun w => { w with badSeqs := [5], age := 64 })
     s.links.ports.length = 8 ∧ (portGet s 0).badSeqs.contains 5 = true ∧ 64 ≤ (seqArriving (portGet s 0) 7 - 5).toNat / 8 ∧
       (portGet s 0).sent.any (fun f => f.seq == 5) = false) := by
  have hp : parseHdr goodData = { version := 0, kind := 1, lane := 0, epoch := 1, step := 0, offset := 0, flow := 0, seq := 0, ack := 0, nak := 0, bytes := 0, src := 0, orig := 0 } := by
    decide +kernel
  simp only [hp]
  refine ⟨⟨by decide +kernel, by decide +kernel, test_bad_frame, test_good_frame, test_good_crc, by decide +kernel⟩, by decide +kernel, ⟨?_, by decide +kernel⟩, ⟨?_, by decide +kernel⟩, by decide +kernel,
    ⟨{ up with tb := { up.tb with hopDelay := List.replicate 6 0x7FFFFFFF } }, by decide +kernel⟩, by decide +kernel, by decide +kernel⟩
  all_goals
  have h : ∀ q : Nat × List Byte → Bool, q (7, goodData) = true → List.find? q [(7, goodData)] = some (7, goodData) := fun q h => List.find?_cons_of_pos h
  refine h _ ?_
  simp only [hp]
  decide +kernel

/-- A training of a lane of port 0 that ends well. -/
def trained : LaneTraining :=
  { signalOk := true, syncOk := true, qualifyOk := true, negotiateOk := true, delayOk := true, times := { taTx := 0, tbRx := 1000, tbTx := 2000, taRx := 3000 }, majors := 2, minors := [0], peerPort := 1, peerDevice := none,
    chain := [], nonceDigest := 0, signature := [], peerMode := false, imageFloor := none }

/-- Port 0 with its bypass open and no lane up. -/
def darkened : State := linked (job flowPlan []) (fun w => { w with lanes := List.replicate 8 .down, state := .down })

/-- The port with lane 7 in a step of training. -/
def inStep (n : Nat) : State := linked (job flowPlan []) (fun w => { w with lanes := List.replicate 8 .training, state := .down, steps := List.replicate 8 n })

theorem test_Lanes :
    (weldMode darkened 0 = true ∧ darkened.links.ports.length = 8 ∧ (portGet darkened 0).lanes.length = 8 ∧ (portGet darkened 0).steps.length = 8 ∧
      (portGet darkened 0).lanes.getD 7 .down = .down ∧ (portGet darkened 0).state ≠ .refused ∧ (portGet darkened 0).state ≠ .disabled ∧ mayTrain darkened 0 7 = true) ∧
    (∀ n ∈ [1, 2, 3, 4, 5], weldMode (inStep n) 0 = true ∧ (inStep n).links.ports.length = 8 ∧ (portGet (inStep n) 0).lanes.length = 8 ∧ (portGet (inStep n) 0).steps.length = 8 ∧
      (portGet (inStep n) 0).state ≠ .refused ∧ (portGet (inStep n) 0).state ≠ .disabled ∧ mayTrain (inStep n) 0 7 = true ∧
      (portGet (inStep n) 0).lanes.getD 7 .down = .training ∧ (portGet (inStep n) 0).steps.getD 7 0 = n) ∧
    (trained.signalOk = true ∧ trained.negotiateOk = true ∧ trained.majors.getLsbD 1 = true ∧ miswired (inStep 5) 0 trained = false ∧
      miswired (inStep 5) 0 { trained with peerPort := 2 } = true ∧ trained.delayOk = true ∧ (0 < 6 ∧ up.tb.hopDelay.length = 6)) ∧
    (portGet darkened 0).lanes.getD 7 .disabled = .down ∧ laneUp (portGet (linked (job flowPlan []) id) 0) 7 = true ∧
    (portGet (linked (job flowPlan []) (fun w => { w with state := .refused })) 0).state = .refused := by decide +kernel
/-! ### Spur -/

/-- A queue pair context of a kind: 16 entries, ring and completions at 4,096. -/
def context (kind : Nat) : List Byte :=
  [0, BitVec.ofNat 8 kind, 4, 2] ++ leBytes 4 0 ++ leBytes 8 4096 ++ List.replicate 36 0 ++ [10, 3] ++ List.replicate 6 0 ++ [9] ++ List.replicate 67 0
/-- Queue pair 0 of port 0 as given, the link up. -/
def spurred (q : QueuePair) : State :=
  { up with links := { up.links with spur := [{ SpurPort.reset with linkUp := true, qps := [(0, q)], regions := [{ rkey := 9, base := 0, len := 64, writable := true }] }, SpurPort.reset] } }
/-- A queue pair that may send, of a kind, with one entry in its ring. -/
def sender (kind : Nat) : QueuePair := { QueuePair.reset with state := .rts, ctx := context kind, tail := 1 }
/-- A work entry with 4 bytes at address 64. -/
def workEntry (op : Nat) : List Byte := [BitVec.ofNat 8 op, 0] ++ leBytes 6 0 ++ leBytes 8 64 ++ leBytes 4 4 ++ List.replicate 44 0
/-- A command of an NVMe ring: opcode, FCTYPE, and byte 40. -/
def nvEntry (op fctype b : Nat) : List Byte := [BitVec.ofNat 8 op, 0, 0, 0, BitVec.ofNat 8 fctype] ++ List.replicate 35 0 ++ [BitVec.ofNat 8 b] ++ List.replicate 23 0

/-- The device whose queue pair 0 has this entry next. -/
def issuing (kind : Nat) (qid : Option Nat) (e : List Byte) : State := holding (holding (spurred { sender kind with nvQid := qid }) 4096 e) 64 [1, 2, 3, 4]

theorem issue_next {o : Option (BitVec 32 × Option PlanUse)} (h : o.map (fun x => (x.1, x.2.isNone)) = some (0, true)) : o = some (0, none) := by
  match o with
  | some (i, none) => simpa using h
  | some (i, some u) => simp at h
  | none => simp at h

theorem test_SpurQueuePairs_states : ∀ x ∈ [(0, QpState.reset), (0, .init), (0, .rtr), (1, .rts), (3, .error)],
    let s := holding (spurred { QueuePair.reset with state := x.2 }) 0 (context x.1)
    s.links.spur.length = 2 ∧ (context x.1).length = 128 ∧ byteAt (context x.1) 2 ≠ 0 ∧ loadCtx s 0 0 = (s, some (context x.1)) ∧ ctxOk s (context x.1) = true := by
  decide +kernel

theorem test_SpurQueuePairs_rc : ∀ op ∈ [1, 2, 3, 4, 5],
    let s := issuing 0 none (workEntry op)
    qpKind (qpGet s 0 0) = 0 ∧ issueIndex s 0 0 = some (0, none) ∧ readEntry s 0 0 0 = (s, some (workEntry op)) ∧ rcReserved (workEntry op) = false ∧
      bit (byteAt (workEntry op) 1) 1 = false ∧ rcData s (workEntry op) = (s, some (if op = 5 then [] else [1, 2, 3, 4])) ∧ rcOp (workEntry op) = op ∧
      readsOpen (qpGet s 0 0) < 16 ∧ entryDeadline (qpGet s 0 0) (workEntry op) = 0 := by
  have hi : ∀ op ∈ [1, 2, 3, 4, 5], (issueIndex (issuing 0 none (workEntry op)) 0 0).map (fun x => (x.1, x.2.isNone)) = some (0, true) := by decide +kernel
  refine fun op h => ⟨by revert op; decide +kernel, issue_next (hi op h), by revert op; decide +kernel⟩

/-- The opcode, FCTYPE and log byte of each NVMe command, and the queue that may issue it. -/
def nvKinds : List (Nat × Nat × Nat × Option Nat) :=
  [(2, 0, 0, some 1), (0x7F, 1, 0, none), (0x7F, 4, 0, some 0), (0x7F, 0, 0, some 0), (6, 0, 0, some 0), (2, 0, 1, some 0), (0x18, 0, 0, some 0)]

theorem test_SpurQueuePairs_nvme : ∀ x ∈ nvKinds,
    let e := nvEntry x.1 x.2.1 x.2.2.1 ++ List.replicate 64 0
    let s := issuing 1 x.2.2.2 e
    isNvme (qpGet s 0 0) = true ∧ issueIndex s 0 0 = some (0, none) ∧ readEntry s 0 0 0 = (s, some e) ∧ nvKnown s (qpGet s 0 0) e = true ∧ nvLen (qpGet s 0 0) e ≤ 2 ^ 20 ∧
      entryDeadline (qpGet s 0 0) e = 0 ∧ (qpGet s 0 0).nvQid = x.2.2.2 := by
  have hi : ∀ x ∈ nvKinds, (issueIndex (issuing 1 x.2.2.2 (nvEntry x.1 x.2.1 x.2.2.1 ++ List.replicate 64 0)) 0 0).map (fun x => (x.1, x.2.isNone)) = some (0, true) := by
    decide +kernel
  refine fun x h => ⟨by revert x; decide +kernel, issue_next (hi x h), by revert x; decide +kernel⟩

/-- An outstanding entry. -/
def inflight (cancelled : Bool) (deadline retries : Nat) : Inflight :=
  { index := 0, entry := workEntry 1, len := 4, deadline := deadline, retries := retries, rnr := 0, cancelled := cancelled, place := 0 }
/-- The queue pair has it outstanding. -/
def awaiting (f : Inflight) : State := spurred { sender 0 with inflight := [f], head := 1 }

theorem test_SpurAnswers :
    (let s := awaiting (inflight false 0 0)
     s.links.spur.length = 2 ∧ (qpGet s 0 0).inflight.find? (fun f => f.index == 0) = some (inflight false 0 0) ∧ isNvme (qpGet s 0 0) = false ∧
       rcOp (inflight false 0 0).entry ≠ 5 ∧ (qpGet s 0 0).state = .rts) ∧
    (qpGet (awaiting (inflight true 0 0)) 0 0).inflight.find? (fun f => f.index == 0) = some (inflight true 0 0) ∧
    (let s := awaiting (inflight false 0 2)
     (qpGet s 0 0).inflight.find? (fun f => !f.cancelled) = some (inflight false 0 2) ∧ (inflight false 0 2).deadline = 0 ∧ (inflight false 0 2).retries < qpRetry (qpGet s 0 0) ∧
       rcData s (inflight false 0 2).entry = (s, some [0, 0, 0, 0])) ∧
    (let s := awaiting (inflight false 8191 0)
     (qpGet s 0 0).inflight.find? (fun f => f.index == BitVec.ofNat 32 0) = some (inflight false 8191 0) ∧ (inflight false 8191 0).deadline < now s) ∧
    (let s := spurred (sender 0)
     canReceive s 0 0 = true ∧ regionOf s 0 9 60 4 = some { rkey := 9, base := 0, len := 64, writable := true } ∧ readRef s 60 4 = (s, .ok [0, 0, 0, 0]) ∧
       regionOf s 0 9 61 4 = none ∧ rangeOk s isTier 60 4 = true) ∧
    (let s := spurred (sender 3)
     canReceive s 0 0 = true ∧ qpKind (qpGet s 0 0) = 3) := by decide +kernel

/-- The Ethernet identity of port 0: MAC 5, VLAN 1, address 0x0A000001, priorities 0 and 7 paused. -/
def ethernet : State :=
  { spurred (sender 0) with cfg := { up.cfg with sets := [(devKey, [{ ConfigSet.empty with params :=
      [{ id := 0xE, index := 0, scope := dev0, value := 5 }, { id := 0xE, index := 1, scope := dev0, value := 1 }, { id := 0xE, index := 2, scope := dev0, value := 0x0A000001 },
       { id := 0xE, index := 6, scope := dev0, value := 0x81 }] }])] } }
/-- An echo request to a MAC. -/
def echo (mac : Nat) : EthFrame :=
  { bytes := 9216, dstMac := mac, vid := some 1, multicastNd := false, fragment := false, ipOptions := false, ecnCe := false, payload := .echoRequest 0x0A000001 [1] }
/-- Port 0 trains again. -/
def retraining : State := { up with links := { up.links with spur := [{ SpurPort.reset with retrainFrom := some 1 }, SpurPort.reset] } }

theorem test_EthernetPorts :
    ethernet.links.spur.length = 2 ∧
    (let s := spurred { sender 0 with rateShift := 1 + 2, cnpStrike := 7936 }
     (qpGet s 0 0).rateShift = 1 + 2 ∧ (qpGet s 0 0).cnpStrike + 256 ≤ now s) ∧
    (canReceive (spurred (sender 0)) 0 0 = true ∧ (qpGet (spurred (sender 0)) 0 0).cnpSent = none) ∧
    (let s := spurred { sender 0 with cnpSent := some 7993 }
     (qpGet s 0 0).cnpSent = some 7993 ∧ now s < 7993 + 200) ∧
    ((spurGet ethernet 0).mode.toNat ≤ 1 ∧ (spurGet ethernet 0).linkUp = true ∧ frameSupported ethernet 0 (echo 6) = false ∧ (spurGet ethernet 0).drops ≠ 0xFFFFFFFF) ∧
    (frameSupported ethernet 0 (echo 5) = true ∧ ownIp ethernet 0 0x0A000001 = true) ∧
    (bit (spurItem ethernet 0 6) 7 = true ∧ (spurGet ethernet 0).retrainFrom = none) ∧
    (retraining.links.spur.length = 2 ∧ (spurGet retraining 0).retrainFrom.isSome = true) := by decide +kernel

/-! ### Messages, faults, recovery -/

/-- A heartbeat of device 1. -/
def heartbeat (dst ttl : Nat) : CtlMsg := { type := 1, ttl := ttl, dst := dst, src := 1, seq := 0, body := .heartbeat }
/-- The device of a torus of two, with port 0 up, running a plan. -/
def torus : State :=
  { linked { job flowPlan [] with members := [0, 1] } id with
    form := { pairedUp.form with devState := [(1, 2)] }
    links := { (linked (job flowPlan []) id).links with bankA := [(1, 0x80000001)], lastTraffic := [(1, 0)] }
    seq := { up.seq with strike := 12287, jobs := [{ job flowPlan [] with members := [0, 1] }] } }
/-- A plan that promises determinism. -/
def detPlan : List Byte := splice idlePlan 6 [1]
/-- The device in that hold. -/
def held (h : Hold) : State :=
  let s := working [{ job detPlan [] with startStrike := 8000 }]
  { s with quench := { s.quench with hold := some h } }

/-- The read that a unit of the device made last failed. -/
def failing (s : State) : State := { s with mem := { s.mem with badUnit := some devKey } }

theorem test_MessagesAndFaults :
    (portUp torus 0 = true ∧ torus.boot.phase ≠ .recovery ∧ hubForwards torus = true ∧ (heartbeat 0 3).dst = torus.form.device ∧ 1 ≤ (heartbeat 0 3).type ∧ (heartbeat 0 3).type ≤ 7) ∧
    ((heartbeat 1 1).dst ≠ torus.form.device ∧ (heartbeat 1 1).dst ≠ 0xFFFF ∧ (heartbeat 1 1).ttl ≤ 1) ∧
    (2 ≤ (heartbeat 1 2).ttl ∧ routePort torus (heartbeat 1 2).dst = some 0 ∧ torus.tb.strikeDefined = true ∧ torus.links.ports.length = 8) ∧
    (recovering.boot.phase = .recovery ∧ imageTransfer (heartbeat 0 3) = false) ∧ (8190 < now torus) ∧
    (uidDevice dev0 = torus.form.device ∧ faultHolds (failing torus) 1 (uidKey dev0) true = true ∧ (∃ j, recoverableJob (failing torus) = some j ∧ runningJob torus = some j ∧ 1 ∈ j.members) ∧ (failing torus).quench.hold = none) ∧
    faultHolds up 4 (uidKey dev0) true = false ∧ (recoverableJob (failing up) = none ∧ faultHolds (failing up) 1 (uidKey dev0) true = true ∧ uidDevice dev0 = up.form.device ∧ (failing up).quench.outside = []) ∧
    (1 ≠ torus.form.device ∧ sparseGet 0 1 torus.links.lastTraffic + 3 ≤ (now torus + 1) / 4096) ∧
    (∃ j, (held (hold partition false none)).quench.hold = some (hold partition false none) ∧ recoverableJob (held (hold partition false none)) = some j ∧
      (hold partition false none).holding = false ∧ (hold partition false none).raise ≤ now (held (hold partition false none))) :=
  ⟨by decide +kernel, by decide +kernel, by decide +kernel, by decide +kernel, by decide +kernel,
    ⟨by decide +kernel, by decide +kernel, ⟨{ job flowPlan [] with members := [0, 1] }, by decide +kernel⟩, by decide +kernel⟩,
    by decide +kernel, by decide +kernel, by decide +kernel, ⟨{ job detPlan [] with startStrike := 8000 }, by decide +kernel⟩⟩

/-- The partition restored in a strike. -/
def restored (n : Nat) : Partition := { partition with restored := some n }

theorem test_Recovery :
    (let s := { up with quench := { up.quench with outside := [partition] } }
     s.quench.hold = none ∧ s.quench.outside = [partition] ∧ partition.restored = none ∧ partition.requesters = [] ∧ uidDevice partition.uid = s.form.device ∧ mayRestore s partition = true ∧ partition.cause ≠ 4 ∧
       partition.cause ≠ 10) ∧
    (let h := hold { partition with raised := 4000 } true none
     (held h).quench.hold = some h ∧ h.holding = true ∧
       h.partitions.any (fun p => p.uid == 0 && p.restored.isNone && decide (p.raised + recoveryBound p < now (held h))) = true) ∧
    (let h := hold (restored 8176) true none
     let j := { job detPlan [] with startStrike := 8000 }
     (held h).quench.hold = some h ∧ runningJob (held h) = some j ∧ h.holding = true ∧ faultStatus (held h) h j = none ∧ h.replayFrom = none ∧ allRestored h = some 8176 ∧
       8176 + j.holdLead ≤ now (held h) ∧ holdOrigin h < h.holdOffset) ∧
    (let h := hold (restored 8100) true (some 8150)
     (held h).quench.hold = some h ∧ h.holding = true ∧ (held h).seq.kind = .run ∧ h.ending = none ∧ replayOver h = true) ∧
    (let h := { hold (restored 8100) true none with ending := some 0x0306 }
     let j := { job detPlan [] with startStrike := 8000 }
     (held h).quench.hold = some h ∧ runningJob (held h) = some j ∧ faultStatus (held h) h j = some 0x0306 ∧ h.holding = true ∧
       ∀ p ∈ h.partitions, (settledAt p).any (fun x => decide (x < now (held h))) = true) := by decide +kernel

/-! ### Embedding tables -/

/-- Version 1 in a state. -/
def inState (st : VersionState) (a : Option TableActivation) : TableVersion := { version1 with state := st, activation := a }
/-- A migration of row 0 from member 0 to member 1. -/
def moving (installed sent : Bool) (cutover : Nat) : Migration :=
  { rows := [0], old := [0], src := 0, dst := 1, addr := 0x20000, cutover := cutover, installed := installed, endSent := sent, endReceived := false, held := [], waits := [], owner := none }
/-- The device whose version 1 migrates. -/
def migratingUp (g : Migration) : State := tabled [{ version1 with state := .active, migration := some g }]
/-- A migration of row 1 to this device. -/
def arriving : State := migratingUp { moving false false 8192 with rows := [1], src := 1, dst := 0 }
/-- The row cache of 1 GiB with a ghost of row 5; the engines have served rows 0 and 2 of the table most. -/
def cached : State :=
  let s := tabled [{ version1 with state := .active }]
  let ps : List Param := [{ id := 6, index := 0, scope := dev0, value := 1 }, { id := 0xA, index := 0, scope := dev0, value := 1 }, { id := 0xB, index := 0, scope := dev0, value := 17 }]
  let c : ConfigSet := { ConfigSet.empty with params := ps, groups := [{ group := 7, members := [0, 1] }] }
  let t := { s with cfg := { s.cfg with sets := [(devKey, [c])] } }
  { t with eng := { t.eng with tongsHeats := List.replicate 8 100, tongs := [(0, { Tongs.reset with lastAccess := [(3, 2, 9), (3, 0, 4)] })], cache := [(cacheSetOf t 3 1 5, { CacheSet.empty with ghosts := { key := some (3, 1, 5, 0), count := 1 } :: CacheSet.empty.ghosts.drop 1 })] } }

theorem test_EmbeddingTables :
    (let a : TableActivation := { strike := 8192, owner := none }
     let s := tabled [inState .loaded (some a)]
     s.eng.tables = [table3 group7 [inState .loaded (some a)]] ∧ a.strike ≤ now s) ∧
    (let s := { up with seq := { up.seq with strike := 65536 } }
     keysRise s.eng.cache ∧ now s % 4096 = 0 ∧ now s / 4096 % Nat.max (param s 8) 1 = 0) ∧
    (let s := tabled [version1]
     embTable s 3 = some (table3 group7 [version1]) ∧ versionOf (table3 group7 [version1]) 1 = some version1 ∧ isComposed tableBody = false ∧
       rowPlace s (table3 group7 [version1]) version1 (now s) 2 = (groupPos s group7, 128)) ∧
    (let v := { version1 with state := .active }
     embTable cached 3 = some (table3 group7 [v]) ∧ versionOf (table3 group7 [v]) 1 = some v ∧ cacheable cached tableBody = true ∧
       (cacheGet cached (cacheSetOf cached 3 1 5)).ways.length = 16 ∧
       (cacheGet cached (cacheSetOf cached 3 1 5)).ghosts.find? (fun x => x.key == some (3, 1, 5, v.gen)) = some { key := some (3, 1, 5, 0), count := 1 }) ∧
    (∃ tb v g, migrationOf arriving 3 1 = some (tb, v, g) ∧ g.rows.findIdx? (· == 1) = some 0 ∧ g.dst = groupPos arriving tb.group ∧ g.held.contains 1 = false ∧
      g.endReceived = false ∧ g.installed = false ∧ g.cutover ≤ now arriving ∧ v.state ≠ .retired) ∧
    (let s := migratingUp (moving true false 8192)
     ∃ tb v, migrationOf s 3 1 = some (tb, v, moving true false 8192) ∧ (moving true false 8192).src = groupPos s tb.group ∧ updatesBefore s 3 1 8192 = false) ∧
    (let s := migratingUp (moving true true 0)
     ∃ tb v, migrationOf s 3 1 = some (tb, v, moving true true 0) ∧ (moving true true 0).cutover + 8192 ≤ now s) ∧
    (let v := { version1 with state := .active }
     let t := table3 group7 [v]
     let seen := servedBy cached [] [List.replicate 8 0]
     embTable cached 3 = some t ∧ versionOf t 1 = some v ∧ param cached 0xA = 1 ∧ isComposed t.body = false ∧ v.damaged = false ∧ v.state ≠ .retired ∧ v.migration = none ∧
       groupPos cached t.group = ([] : List (List Nat)).length ∧ hotMember (param cached 0xB) seen (groupPos cached t.group) = true ∧ autoRows cached t v = [0, 2] ∧
       rowsMovable cached t v (coolestMember seen) 0x20000 [0, 2] = true) := by
  refine ⟨by decide +kernel, by decide +kernel, by decide +kernel, by decide +kernel, ⟨_, _, _, rfl, by decide +kernel⟩, ⟨_, _, rfl, by decide +kernel⟩,
    ⟨_, _, rfl, by decide +kernel⟩, by decide +kernel⟩

/-! ### Thermal and management -/

/-- A sample of every die at a temperature in sixteenths of a degree, die 79 at another. -/
def temps (t hot : BitVec 16) : List (BitVec 16) := (List.range 116).map (fun i => if i = 79 then hot else t)
/-- An owner record with one key. -/
def ownerRec : List Byte := leBytes 4 0x4E4F4849 ++ leBytes 2 0x0100 ++ leBytes 2 0 ++ leBytes 4 1 ++ [1, 0, 0, 0] ++ List.replicate 97 4
/-- The device with that owner. -/
def owned : State := { up with boot := { up.boot with ownerRecord := ownerRec, staged := some [1] } }
/-- The owner's key. -/
def ownerKey : AuthKey := some (List.replicate 97 4)

theorem test_ThermalAndTelemetry :
    (up.power.state = .on ∧ (temps 1520 1761).length = 116 ∧ (∀ i, i < 116 → temp16 ((temps 1280 1761).getD i 0) ≤ (dieThresholds i).trip) ∧ up.therm.sampled = false ∧
      1600 < temp16 ((temps 1280 1761).getD 79 0)) ∧
    ((dieThresholds 79).trip < temp16 ((temps 1280 1841).getD 79 0)) ∧
    (∃ s : State, s.therm.pendingRate = 1 ∧ s.therm.coolFrom + 4194304 ≤ now s + 1) ∧ now up + 1 < up.therm.coolFrom + 4194304 ∧
    (∃ s : State, s.boot.phase = .running ∧ s.tb.strikeDefined = true ∧ now s % 4194304 = 0 ∧ s.mgmt.lastReport = none) ∧
    isChecker up 0x380600000000 = true ∧ isChecker up 0x380600000008 = false :=
  ⟨by decide +kernel, by decide +kernel, ⟨{ up with seq := { up.seq with strike := 4194303 }, therm := { up.therm with pendingRate := 1 } }, by decide +kernel⟩,
    by decide +kernel, ⟨{ up with seq := { up.seq with strike := 4194304 } }, by decide +kernel⟩, by decide +kernel, by decide +kernel⟩

theorem test_ManagementPort :
    (up.power.state ≠ .absent ∧ up.mgmt.ipv4 = 0 ∧ 0xA9FE0001 / 65536 = 0xA9FE) ∧ (up.boot.phase = .running ∧ admitted up none = true) ∧ admitted owned none = false ∧
    (owned.boot.phase = .running ∧ isOwner owned ownerKey = true ∧ (request 0x60 dev0 []).length = 128) ∧
    (hasOwner up = false ∧ ownerRecordOk up ownerRec = true ∧ byteAt ownerRec 0xC ≠ 0) ∧ ownerRecordOk up [] = false ∧ mapValid owned (mapOf 3 (List.replicate 16 0)) = true ∧
    (planLive owned = false ∧ owned.boot.staged.isSome = true ∧ migrating owned = false ∧ owned.boot.activation = none) ∧
    (∃ s : State, s.power.powerGood = true ∧ s.mgmt.spdmVersion = true ∧ s.mgmt.spdmCaps = true ∧ s.mgmt.spdmAlgs = true ∧ s.ident.failed = false) :=
  ⟨by decide +kernel, by decide +kernel, by decide +kernel, by decide +kernel, by decide +kernel, by decide +kernel, by decide +kernel, by decide +kernel,
    { up with mgmt := { up.mgmt with spdmVersion := true, spdmCaps := true, spdmAlgs := true } }, by decide +kernel⟩

/-- Comparator 0 of the device page is the budget's, and its deadline has come while a plan runs. -/
theorem test_budget_comparator : (let s := { working [job idlePlan []] with
      units := { up.units with pages := [(devKey, { UnitState.reset with page := { UnitPage.reset with held0 := 8192, wdCtrl := 0x20209090 } })] } }
    wdEn (unitGet s devKey).page 0 = true ∧ evaluates s devKey 0 = true ∧ (deadlineOf s devKey 0).toNat ≤ now s ∧ wdOwner (unitGet s devKey).page 0 = 1 ∧
      (runningJob s).isSome = true) := by decide +kernel

/-! ### Frames -/

theorem test_TimebaseFrame : ∃ t, exec .strikeZero (timed { Timebase.reset with role := .master }) = .next t := ⟨_, rfl⟩

/-- Client 1 on ring pair 1, whose ring holds one request. -/
def ringAsked (op : Nat) : State :=
  { holding up 0x1000 (request op dev0 []) with vmp := { up.vmp with
      clients := [{ id := 1, major := 1, minor := 0, pair := 1, lastStrike := 8192 }]
      pairs := [(1, { RingPair.reset with en := true, reqLog2 := 4, respLog2 := 4, reqBase := 0x1000, respBase := 0x2000, reqTail := 1, arrivals := [(1, 8192)] })] } }

theorem test_ResponseFrame : CleanMemory (ringAsked 0x60) ∧ (pairGet (ringAsked 0x60) 1).respBase.toNat % 8 = 0 ∧
    ∃ t u, Taken (ringAsked 0x60) 1 0x60 (request 0x60 dev0 []) t ∧ exec (.vmpTimeRead 1) (ringAsked 0x60) = .next u := by
  exact ⟨clean_of rfl rfl, by decide +kernel, _, _, ⟨ringAsked 0x60, by decide +kernel, by decide +kernel, by decide +kernel, by decide +kernel, by decide +kernel, rfl⟩, rfl⟩

/-! ### Well-formedness -/

/-- Every check of Instr.wf refuses an ill-formed command. -/
theorem test_ill_formed : ∀ c ∈ [Instr.railPowerFailure 6, .railPowerFailure 0, .comparatorFire dev0 4, .comparatorFire 0x60000000 0, .watchdogDeadlineWrite dev0 4 0,
    .ucpResetReq 1, .resetRelease 0x00000A00, .readmission 0x44000000, .partitionRestore 0x40000010, .recoveryBoundMiss 0x10000010, .stickyW1cWrite .hearth 0x30001000 0 0,
    .faultDetect 5 dev0 true, .vmpHello 4352, .requestEntryUnreadable 4352, .vmpEnableSet .hearth 256, .vmpEnableClear .hearth 256, .ringTailWrite .hearth 8192 0,
    .weldFrameReceive 0 0 [], .weldFrameLand 8 0 .ok, .weldFrameResend 0 8, .laneDown 8 0, .weldFrameLost 8 0, .laneLightLoss 8, .qpCmdReset 2 0, .cnpSend 0 2048,
    .spurSend 2 0 true, .nvmeIdentify 2 0, .roceInboundRead 0 2048 0 0 ⟨0, true, true⟩, .spurResponseReceive 2 0 0 .ack, .spurModeRetrain 2 true, .pfcPauseReceive 0 8 true,
    .thermalSample [] 0 0, .memoryTrainingDone 0 []], c.wf = false := by decide

/-- Commands at the last values of their ranges are well formed. -/
theorem test_well_formed : ∀ c ∈ [Instr.railPowerFailure 5, .comparatorFire 0x0000F9F0 3, .faultDetect 0xFF dev0 true, .vmpHello 4351, .vmpEnableSet .hearth 255,
    .ringTailWrite .hearth 8191 0, .laneDown 7 7, .qpCmdReset 1 2047, .pfcPauseReceive 1 7 true, .configApply], c.wf = true := by decide

/-! ### Values the spec gives -/

/-- R34: strike 0 locks the master at hop count 0. -/
theorem test_strike_zero : (match exec .strikeZero (timed { Timebase.reset with role := .master }) with
    | .next t => (t.seq.strike, t.tb.lock, t.tb.hops)
    | _ => (1, .unlocked, 0)) = (0, .locked, 0) := by decide +kernel

/-- R387: the third failure leaves the power state failed. -/
theorem test_third_failure : (match exec (.railPowerFailure 3) (sequencing 2) with
    | .next t => t.power.state
    | _ => .on) = .failed := by decide +kernel

/-- R11: the count of the edge after strike 8,192. -/
theorem test_edge : (match exec (.strikeEdge { marker := none, errorPs := 0, delays := [] }) up with
    | .next t => t.seq.strike
    | _ => 0) = 8193 := by decide +kernel

/-- R20: an event of counter 0 in a core counts in the core, the die, the column, the quadrant and the device. -/
theorem test_counter_ancestors : (let s := count up 0 0 1
    [0, 0x10000000, 0x20000000, 0x30000000, devKey].map (fun k => counterGet s k 0)) = [1, 1, 1, 1, 1] := by decide +kernel

/-- R301: a full-word write clears a poisoned word. -/
theorem test_poison_cleared : (storeWord (spoilt 0xFF) 8 [1, 2, 3, 4, 5, 6, 7, 8]).mem.synd = [] := by decide +kernel

end Sys2Proof.Tests
end

section
/-!
PROOFS. What each operation of a strike edge leaves of the sequencer. Most operations leave all of it; those of plans, holds and results write
jobs, holds and kinds, and leave its counts, the strike and HOLD.
-/
namespace Sys2Proof.Laws

open Sys2Proof.Machine

/-! ### Operations that leave the whole sequencer -/

theorem foldl_seq {β : Type} {f : State → β → State} (h : ∀ t x, (f t x).seq = t.seq) (l : List β) (s : State) : (l.foldl f s).seq = s.seq :=
  foldl_keep f State.seq h l s

theorem forKeys_seq {f : State → Nat → State} (h : ∀ t k, (f t k).seq = t.seq) (s : State) (ks : List Nat) : (forKeys s ks f).seq = s.seq :=
  foldl_seq h ks s

@[simp] theorem memWrite_seq (s : State) (a : Nat) (bs : List Byte) : (memWrite s a bs).seq = s.seq := by rw [memWrite_part]; rfl
@[simp] theorem memRead_seq (s : State) (a n : Nat) : (memRead s a n).st.seq = s.seq := by rw [memRead_part]; rfl
@[simp] theorem mergeFlushEntry_seq (s : State) (b : Nat) (e : MergeEntry) : (mergeFlushEntry s b e).seq = s.seq := by
  rw [mergeFlushEntry_part]; rfl
@[simp] theorem mergeFlushBank_seq (s : State) (b : Nat) : (mergeFlushBank s b).seq = s.seq := foldl_seq (fun t e => mergeFlushEntry_seq t b e) _ s

@[simp] theorem poisonWord_seq (s : State) (a : Nat) : (poisonWord s a).seq = s.seq := by
  unfold poisonWord
  split <;> rfl

@[simp] theorem clearCore_seq (s : State) (k : Nat) : (clearCore s k).seq = s.seq := rfl
@[simp] theorem makeRepairs_seq (s : State) (c : Nat) : (makeRepairs s c).seq = s.seq := rfl
@[simp] theorem clearBad_seq (s : State) : (clearBad s).seq = s.seq := rfl
@[simp] theorem dropNear_seq (s : State) : (dropNear s).seq = s.seq := rfl

@[simp] theorem clearStack_seq (s : State) (st : Nat) : (clearStack s st).seq = s.seq := by
  unfold clearStack
  dsimp only
  split <;> rfl

/-! #### Responses and completions -/

@[simp] theorem postMessage_seq (s : State) (k : Nat) (m : List Byte) : (postMessage s k m).seq = s.seq := by
  unfold postMessage
  dsimp only
  split
  · rfl
  · split <;> simp

@[simp] theorem respondHeld_seq (s : State) (k : Nat) (m : List Byte) (st : BitVec 16) (b : List Byte) : (respondHeld s k m st b).seq = s.seq :=
  postMessage_seq _ k _

@[simp] theorem complete_seq (s : State) (c : BitVec 12) (tag : BitVec 16) (k : Nat) (st : BitVec 16) (b : List Byte) :
    (complete s c tag k st b).seq = s.seq := by
  unfold complete
  dsimp only
  split
  · rfl
  · split
    · split <;> simp
    · rfl

@[simp] theorem answerRequesters_seq (s : State) (p : Partition) (n : Nat) : (answerRequesters s p n).seq = s.seq :=
  foldl_seq (fun _ _ => complete_seq ..) _ s

/-! #### Stores and table versions -/

@[simp] theorem completeMigration_seq (s : State) (g : Migration) (st : BitVec 16) : (completeMigration s g st).seq = s.seq := by
  unfold completeMigration
  split
  · exact complete_seq ..
  · rfl

@[simp] theorem sweepVersions_seq (s : State) : (sweepVersions s).seq = s.seq := foldl_seq (fun t g => completeMigration_seq t g _) _ _
@[simp] theorem sweepStores_seq (s : State) : (sweepStores s).seq = s.seq := sweepVersions_seq s

@[simp] theorem activateVersion_seq (s : State) (i : Nat) (v : TableVersion) (a : TableActivation) : (activateVersion s i v a).seq = s.seq := by
  unfold activateVersion
  dsimp only
  split
  · exact complete_seq ..
  · rfl

@[simp] theorem activateVersions_seq (s : State) : (activateVersions s).seq = s.seq :=
  (sweepVersions_seq _).trans (foldl_seq (fun _ _ => activateVersion_seq ..) _ s)

@[simp] theorem finishLoad_seq (s : State) (i n : Nat) (r : Option (Nat × List Byte)) : (finishLoad s i n r).seq = s.seq := by
  unfold finishLoad
  dsimp only
  split
  · exact respondHeld_seq ..
  · rfl

@[simp] theorem finishLoads_seq (s : State) : (finishLoads s).seq = s.seq := foldl_seq (fun _ _ => finishLoad_seq ..) _ s

@[simp] theorem dropMigration_seq (s : State) (i n : Nat) : (dropMigration s i n).seq = s.seq := by
  unfold dropMigration
  split
  · split
    · rfl
    · exact completeMigration_seq ..
  · rfl

@[simp] theorem cutOver_seq (s : State) (t v : Nat) : (cutOver s t v).seq = s.seq := by
  unfold cutOver
  split
  · rfl
  · split
    · rfl
    · split
      · exact dropMigration_seq ..
      · rfl

@[simp] theorem activateDue_seq (s : State) : (activateDue s).seq = s.seq := by
  unfold activateDue
  dsimp only
  rw [foldl_seq (fun _ _ => cutOver_seq ..), activateVersions_seq, finishLoads_seq]

/-! #### The end of a strike and the count -/


@[simp] theorem installRemap_seq (s : State) (c i x a : Nat) (ue : Bool) : (installRemap s c i x a ue).seq = s.seq := by
  unfold installRemap
  dsimp only
  split
  · rw [logPersistent_seq, checkerMod_seq]
    split
    · exact poisonWord_seq ..
    · rfl
  · rfl

@[simp] theorem installRemaps_seq (s : State) : (installRemaps s).seq = s.seq :=
  foldl_seq (fun t q => (foldl_seq (fun _ _ => installRemap_seq ..) _ (checkerMod t (32 + q) _)).trans (checkerMod_seq ..)) _ s

@[simp] theorem holdDeadlines_seq (s : State) : (holdDeadlines s).seq = s.seq := forKeys_seq (fun t k => pageMod_seq t k _) s _

@[simp] theorem progressCheck_seq (s : State) : (progressCheck s).seq = s.seq := by
  unfold progressCheck
  split
  · rfl
  · split
    · rfl
    · exact forKeys_seq (fun t k => unitMod_seq t k _) s _

@[simp] theorem trackEdge_seq (s : State) (d : BitVec 32) : (trackEdge s d).seq = s.seq := by
  unfold trackEdge
  dsimp only
  split <;> simp

/-! #### Resets -/

/-- As `foldl_seq`, for an accumulator that carries more beside the state. -/
theorem foldl_fst_seq {β γ : Type} {f : State × γ → β → State × γ} (h : ∀ acc x, (f acc x).1.seq = acc.1.seq) :
    ∀ (l : List β) (acc : State × γ), (l.foldl f acc).1.seq = acc.1.seq
  | [], _ => rfl
  | x :: l, acc => (foldl_fst_seq h l (f acc x)).trans (h acc x)

/-! The reads and writes of a sample stand behind variables, so that no check of a proof evaluates one. -/

theorem exists_eq_memRead : ∃ rd : State → Nat → Nat → ReadOut, memRead = rd ∧ ∀ s a n, (rd s a n).st.seq = s.seq := ⟨_, rfl, memRead_seq⟩
theorem exists_eq_memWrite : ∃ wr : State → Nat → List Byte → State, memWrite = wr ∧ ∀ s a bs, (wr s a bs).seq = s.seq := ⟨_, rfl, memWrite_seq⟩

@[simp] theorem coreSample_seq (s : State) (k d : Nat) : (coreSample s k d).1.seq = s.seq := by
  obtain ⟨rd, hrd, read⟩ := exists_eq_memRead
  obtain ⟨wr, hwr, written⟩ := exists_eq_memWrite
  rw [coreSample, hrd, hwr]
  generalize (List.range (sampleLines (fullUid s k) d).length).zip (sampleLines (fullUid s k) d) = l
  refine (written ..).trans (foldl_fst_seq (fun acc x => ?_) l (s, [], 0))
  dsimp only
  split <;> exact read ..

theorem exists_eq_coreSample : ∃ f : State → Nat → Nat → State × List Byte × Nat, coreSample = f ∧ ∀ s k d, (f s k d).1.seq = s.seq :=
  ⟨_, rfl, coreSample_seq⟩

@[simp] theorem takeSample_seq (s : State) (p : Partition) (j : Word) (n : Nat) : (takeSample s p j n).seq = s.seq := by
  obtain ⟨wr, hwr, written⟩ := exists_eq_memWrite
  obtain ⟨core, hcore, sampled⟩ := exists_eq_coreSample
  rw [takeSample, hwr, hcore]
  generalize hr : List.foldl _ (s, _) (coresOf (uidKey p.uid)) = r
  have cores : r.1.seq = s.seq := by
    rw [← hr]
    generalize coresOf (uidKey p.uid) = l
    refine foldl_fst_seq (fun acc c => ?_) l (s, _)
    exact sampled acc.1 c p.detect
  obtain ⟨s1, samples, masks⟩ := r
  rw [count_seq]
  exact (written ..).trans ((foldl_seq (fun _ _ => written ..) _ _).trans ((foldl_seq (fun _ _ => written ..) _ _).trans cores))

@[simp] theorem resetMemories_seq (s : State) (k : Nat) (r : Bool) : (resetMemories s k r).seq = s.seq := forKeys_seq (fun t c => checkerMod_seq t c _) s _

@[simp] theorem damageVersions_seq (s : State) (cs : List Nat) (f : Bool) : (damageVersions s cs f).seq = s.seq := foldl_seq (fun _ _ => sendTo_seq ..) _ _

@[simp] theorem clearDomain_seq (s : State) (k : Nat) (r : Bool) : (clearDomain s k r).seq = s.seq := by
  have cores : (forKeys s (coresOf k) clearCore).seq = s.seq := forKeys_seq clearCore_seq s _
  have near : ∀ t : State, ∀ l : List Nat, (l.foldl (fun t st => makeRepairs (clearStack t st) st) t).seq = t.seq := fun t l =>
    foldl_seq (fun t st => (makeRepairs_seq _ st).trans (clearStack_seq t st)) l t
  have far : ∀ t : State, ((List.range 16).foldl (fun t m => makeRepairs t (16 + m)) (clearFar t)).seq = t.seq := fun t =>
    foldl_seq (fun t m => makeRepairs_seq t _) _ _
  unfold clearDomain
  dsimp only
  repeat' split
  all_goals simp only [damageVersions_seq, near, far, cores]

@[simp] theorem noteEpoch_seq (s : State) : (noteEpoch s).seq = s.seq := by
  unfold noteEpoch
  dsimp only
  split
  · split <;> rfl
  · rfl

@[simp] theorem loadUnitCfg_seq (s : State) (k : Nat) : (loadUnitCfg s k).seq = s.seq := noteEpoch_seq _
@[simp] theorem resetPage_seq (s : State) (k : Nat) : (resetPage s k).seq = s.seq := loadUnitCfg_seq _ k

@[simp] theorem closeBypasses_seq (s : State) : (closeBypasses s).seq = s.seq := forKeys_seq (fun t p => portMod_seq t p _) s _

@[simp] theorem resetDeviceMembers_seq (s : State) (r : Bool) : (resetDeviceMembers s r).seq = s.seq := by
  unfold resetDeviceMembers
  dsimp only
  split
  · rfl
  · exact closeBypasses_seq _

@[simp] theorem beginReset_seq (s : State) (k : Nat) (m f : Bool) : (beginReset s k m f).seq = s.seq := by
  have flushed : (forKeys s (coresOf k) mergeFlushBank).seq = s.seq := forKeys_seq mergeFlushBank_seq s _
  unfold beginReset
  dsimp only
  split
  · rw [resetDeviceMembers_seq, forKeys_seq resetPage_seq, resetMemories_seq, clearDomain_seq, flushed]
  · rw [forKeys_seq resetPage_seq, resetMemories_seq, clearDomain_seq, flushed]

@[simp] theorem startRecovery_seq (s : State) (p : Partition) (j : Word) (n : Nat) : (startRecovery s p j n).seq = s.seq := by
  have flushed : (forKeys s (coresOf (uidKey p.uid)) mergeFlushBank).seq = s.seq := forKeys_seq mergeFlushBank_seq s _
  unfold startRecovery
  dsimp only
  split
  · rfl
  · split <;> simp only [flagsMod_seq, beginReset_seq, takeSample_seq, flushed]

@[simp] theorem beginDueResets_seq (s : State) : (beginDueResets s).seq = s.seq := by
  unfold beginDueResets
  dsimp only
  split
  · exact foldl_seq (fun t p => startRecovery_seq t p 0 0) _ s
  · split
    · rw [quenchMod_seq, foldl_seq (fun t p => startRecovery_seq t p _ _), quenchMod_seq]
      exact foldl_seq (fun t p => startRecovery_seq t p 0 0) _ s
    · exact foldl_seq (fun t p => startRecovery_seq t p 0 0) _ s

/-! #### Configuration -/

@[simp] theorem pushSet_seq (s : State) (k : Nat) (c : ConfigSet) : (pushSet s k c).seq = s.seq := rfl

@[simp] theorem popSet_seq (s : State) (k : Nat) : (popSet s k).seq = s.seq := by
  unfold popSet
  split <;> rfl

@[simp] theorem applyUnit_seq (s : State) (c : PendingCommit) (k : Nat) : (applyUnit s c k).seq = s.seq := by
  unfold applyUnit
  dsimp only
  rw [loadUnitCfg_seq]
  split
  · split <;> simp
  · simp

@[simp] theorem writePending_seq (s : State) (u : Uid) (e : BitVec 32) (n : Nat) (rv ra : Bool) : (writePending s u e n rv ra).seq = s.seq :=
  forKeys_seq (fun t k => pageMod_seq t k _) s _

@[simp] theorem loadPending_seq (s : State) (r : List (BitVec 32)) : (loadPending s r).seq = s.seq := by
  unfold loadPending
  split
  · rfl
  · split <;> rfl

@[simp] theorem pushPending_seq (s : State) (c : PendingCommit) : (pushPending s c).seq = s.seq := by
  have written : (c.targets.foldl (fun t u => writePending t u c.epoch c.strike c.revert c.readmit) (loadPending s (pendingRoute s c))).seq = s.seq :=
    (foldl_seq (fun _ _ => writePending_seq ..) _ _).trans (loadPending_seq ..)
  unfold pushPending
  dsimp only
  split
  · exact written
  · exact (sendTo_seq ..).trans written

@[simp] theorem readmissionCommit_seq (s : State) (k : Nat) (e : BitVec 32) (rv : Bool) (r : List Byte) : (readmissionCommit s k e rv r).seq = s.seq := by
  unfold readmissionCommit
  dsimp only
  split
  · rfl
  · split
    · rfl
    · exact pushPending_seq ..

@[simp] theorem missUnit_seq (s : State) (k : Nat) (e : BitVec 32) : (missUnit s k e).seq = s.seq := by
  unfold missUnit
  dsimp only
  repeat' split
  all_goals simp

@[simp] theorem deadlineComparators_seq (s : State) : (deadlineComparators s).seq = s.seq := by
  unfold deadlineComparators
  dsimp only
  repeat' split
  all_goals rfl

@[simp] theorem leaseComparator_seq (s : State) : (leaseComparator s).seq = s.seq := by
  unfold leaseComparator
  dsimp only
  split <;> rfl

@[simp] theorem loadDeviceCfg_seq (s : State) : (loadDeviceCfg s).seq = s.seq := rfl

@[simp] theorem loadRouting_seq (s : State) (r : List (BitVec 32)) (e : BitVec 32) : (loadRouting s r e).seq = s.seq := by
  unfold loadRouting
  split
  · rfl
  · exact loadPending_seq ..


/-! ### Operations that leave the counts -/

/-- The counts of the sequencer: the strike (R11) and HOLD (R47). -/
def counts (q : Sequencer) : Word × Nat := (q.strike, q.hold)

theorem counts_of_seq {s t : State} (h : t.seq = s.seq) : counts t.seq = counts s.seq := congrArg counts h

theorem foldl_counts {β : Type} {f : State → β → State} (h : ∀ t x, counts (f t x).seq = counts t.seq) (l : List β) (s : State) :
    counts (l.foldl f s).seq = counts s.seq :=
  foldl_keep f (fun t => counts t.seq) h l s

@[simp] theorem setJob_counts (s : State) (n : Word) (f : Job → Job) : counts (setJob s n f).seq = counts s.seq := rfl

/-! #### Frames -/


@[simp] theorem sendControl_seq (s : State) (p i : Nat) : (sendControl s p i).seq = s.seq := by
  unfold sendControl
  split
  · rfl
  · split
    · rfl
    · exact foldl_seq (fun t x => emitOut_seq t _) _ _

@[simp] theorem sendTrain_seq (s : State) (p i : Nat) : (sendTrain s p i).seq = s.seq := rfl

theorem sendLane_counts (s : State) (p i : Nat) (r : List Nat) (m : Bool) : counts (sendLane s p i r m).seq = counts s.seq := by
  unfold sendLane
  split
  · split
    · rfl
    · dsimp only
      split
      · exact (counts_of_seq (sendControl_seq ..)).trans (setJob_counts ..)
      · rfl
  · split
    · rfl
    · exact counts_of_seq (sendControl_seq ..)

theorem sendPort_counts (m : List (Nat × Nat)) (s : State) (p : Nat) : counts (sendPort m s p).seq = counts s.seq := by
  unfold sendPort
  dsimp only
  rw [foldl_seq (fun t i => sendTrain_seq t p i)]
  split
  · rfl
  · exact foldl_counts (fun t i => sendLane_counts t p i _ _) _ s

@[simp] theorem sendFrames_counts (s : State) (m : List (Nat × Nat)) : counts (sendFrames s m).seq = counts s.seq := foldl_counts (sendPort_counts m) _ s


theorem sweepSlot_counts (s : State) (off p i : Nat) : counts (sweepSlot s off p i).seq = counts s.seq := by
  unfold sweepSlot
  split
  · rfl
  · split
    · rfl
    · split
      · rfl
      · split <;> rfl

@[simp] theorem sweepFrames_counts (s : State) (off : Nat) : counts (sweepFrames s off).seq = counts s.seq := by
  refine foldl_counts (fun t p => ?_) _ s
  split
  · exact foldl_counts (fun u i => sweepSlot_counts u off p i) _ t
  · rfl

/-! #### Holds and the end of a plan -/

@[simp] theorem pushHold_counts (s : State) (h : Hold) : counts (pushHold s h).seq = counts s.seq := rfl

@[simp] theorem closePartition_seq (s : State) (p : Partition) (o n : Nat) : (closePartition s p o n).seq = s.seq := by
  unfold closePartition
  split
  · rw [answerRequesters_seq, logRecovery, logPersistent_seq, stickySet_seq, count_seq]
  · rfl

@[simp] theorem finishHold_counts (s : State) (h : Hold) : counts (finishHold s h).seq = counts s.seq := by
  refine (foldl_counts (fun t p => counts_of_seq ?_) _ (pushHold s h)).trans (pushHold_counts s h)
  split
  · exact foldl_seq (fun t u => count_seq t u _ _) _ t
  · rfl

@[simp] theorem resumeHold_counts (s : State) : counts (resumeHold s).seq = counts s.seq := by
  unfold resumeHold
  split
  · rfl
  · split
    · exact (counts_of_seq (foldl_seq (fun t p => closePartition_seq t p _ _) _ _)).trans (finishHold_counts s _)
    · rfl

@[simp] theorem abandonHold_counts (s : State) : counts (abandonHold s).seq = counts s.seq := by
  unfold abandonHold
  split
  · rfl
  · refine (counts_of_seq (foldl_seq (fun t p => closePartition_seq t p _ _) _ _)).trans ?_
    split <;> rfl


@[simp] theorem endJob_counts (s : State) (n : Word) (st : BitVec 16) (a b c : BitVec 32) : counts (endJob s n st a b c).seq = counts s.seq := by
  unfold endJob
  split <;> rfl

@[simp] theorem endByCommit_counts (s : State) : counts (endByCommit s).seq = counts s.seq := by
  unfold endByCommit
  split
  · rfl
  · exact (abandonHold_counts _).trans (endJob_counts ..)

@[simp] theorem endByMember_counts (s : State) : counts (endByMember s).seq = counts s.seq := by
  unfold endByMember
  dsimp only
  split
  · split
    · exact endByCommit_counts _
    · rfl
  · rfl

@[simp] theorem endIfDone_counts (s : State) : counts (endIfDone s).seq = counts s.seq := by
  unfold endIfDone
  split
  · rfl
  · extract_lets stopped reached
    have stopped_counts : ∀ t, counts (stopped t).seq = counts t.seq := by
      intro t
      unfold stopped
      split
      · exact endJob_counts ..
      · rfl
    split
    · rw [abandonHold_counts]
      split
      · rfl
      · exact stopped_counts s
    · split
      · rfl
      · split
        · rw [abandonHold_counts]
          split
          · exact stopped_counts s
          · exact endJob_counts ..
        · split
          · exact (abandonHold_counts _).trans (stopped_counts s)
          · rfl

/-! #### Commits that apply -/

@[simp] theorem applyDevice_seq (s : State) (b : ConfigSet) (c : PendingCommit) : (applyDevice s b c).seq = s.seq := by
  unfold applyDevice
  dsimp only
  repeat' split
  all_goals simp

@[simp] theorem applyCommit_counts (s : State) (c : PendingCommit) : counts (applyCommit s c).seq = counts s.seq := by
  unfold applyCommit
  extract_lets keys yes no before s1 s2 s3 s4 done s5
  have h1 : s1.seq = s.seq := foldl_seq (fun t k => applyUnit_seq t c k) _ s
  have h2 : s2.seq = s1.seq := by
    refine foldl_seq (fun t k => ?_) _ s1
    split
    · rfl
    · rw [readmissionCommit_seq, missUnit_seq]
  have h3 : s3.seq = s2.seq := by
    unfold s3
    split
    · exact applyDevice_seq ..
    · rfl
  have h4 : counts s4.seq = counts s3.seq := by
    unfold s4
    split
    · exact endByCommit_counts s3
    · rfl
  exact (counts_of_seq (sendTo_seq ..)).trans (h4.trans (by rw [h3, h2, h1]))

@[simp] theorem applyDue_counts (s : State) : counts (applyDue s).seq = counts s.seq := foldl_counts applyCommit_counts _ s

@[simp] theorem issueReadmissions_seq (s : State) : (issueReadmissions s).seq = s.seq := by
  refine foldl_seq (fun t c => ?_) _ s
  split
  · exact pushPending_seq ..
  · rfl

@[simp] theorem postCommits_seq (s : State) : (postCommits s).seq = s.seq := by
  refine foldl_seq (fun t c => ?_) _ _
  split
  · rfl
  · dsimp only
    split <;> exact complete_seq ..

/-! #### Heat boundaries -/

@[simp] theorem rollTongs_seq (s : State) : (rollTongs s).seq = s.seq := rfl
@[simp] theorem applyGroupClears_seq (s : State) : (applyGroupClears s).seq = s.seq := rfl


@[simp] theorem recalibrate_seq (s : State) (p : Nat) (d : Option Nat) : (recalibrate s p d).seq = s.seq := by
  unfold recalibrate
  extract_lets heats applied
  split
  · rfl
  · split
    · rfl
    · next d =>
      generalize (if applied < d then d - applied else applied - d) = step
      split
      · rfl
      · split
        · rfl
        · split <;> rfl

@[simp] theorem recalibrateAll_seq (s : State) (ds : List (Option TwoWay)) : (recalibrateAll s ds).seq = s.seq :=
  foldl_seq (fun t p => recalibrate_seq t p _) _ s

@[simp] theorem heatMessages_seq (s : State) : (heatMessages s).seq = s.seq := by
  unfold heatMessages
  dsimp only
  rw [foldl_seq (fun t g => sendTo_seq t _ _ _), floodMsg_seq, floodMsg_seq]
  split
  · exact floodMsg_seq ..
  · rfl

@[simp] theorem tellAhead_seq (s : State) : (tellAhead s).seq = s.seq := foldl_seq (fun t _ => sendTo_seq t _ _ _) _ s
@[simp] theorem pruneCopies_counts (s : State) : counts (pruneCopies s).seq = counts s.seq := rfl

@[simp] theorem sendReports_counts (s : State) : counts (sendReports s).seq = counts s.seq := by
  refine foldl_counts (fun t j => ?_) _ s
  dsimp only
  split
  · exact (setJob_counts ..).trans (counts_of_seq (sendTo_seq ..))
  · exact counts_of_seq ((sendTo_seq ..).trans (sendTo_seq ..))

@[simp] theorem heatWork_counts (s : State) (e : EdgeInputs) : counts (heatWork s e).seq = counts s.seq := by
  unfold heatWork
  extract_lets s1 fenced ports links s2
  have h1 : s1.seq = s.seq := by rw [rollTongs_seq, applyGroupClears_seq, recalibrateAll_seq]
  have h2 : s2.seq = s.seq := by simp only [s2, h1]
  rw [heatMessages_seq, tellAhead_seq, pruneCopies_counts, sendReports_counts, h2]

@[simp] theorem noteGroups_seq (s : State) : (noteGroups s).seq = s.seq := by
  unfold noteGroups
  refine foldl_seq (fun t g => ?_) _ s
  extract_lets u p v rose es t1
  split
  · rfl
  · simp only [t1, pageMod_seq]

/-! #### The work of a strike -/

@[simp] theorem noteStart_seq (s : State) (j : Job) (a : Activity) : (noteStart s j a).seq = s.seq := by
  unfold noteStart
  dsimp only
  split
  · rfl
  · split <;> rfl

@[simp] theorem startWork_counts (s : State) (j : Job) : counts (startWork s j).seq = counts s.seq := by
  unfold startWork
  extract_lets off stopped blocked new s1
  split
  · rfl
  · exact (counts_of_seq (foldl_seq (fun t a => noteStart_seq t j a) new s1)).trans (setJob_counts ..)

@[simp] theorem markFlows_counts (s : State) (j : Job) : counts (markFlows s j).seq = counts s.seq := by
  unfold markFlows
  dsimp only
  split <;> rfl

@[simp] theorem headPast_seq (s : State) (r : HeldEntries) : (headPast s r).seq = s.seq := by
  unfold headPast
  dsimp only
  split <;> rfl

@[simp] theorem releaseRings_counts (s : State) (n : Word) (c : Nat) : counts (releaseRings s n c).seq = counts s.seq := by
  unfold releaseRings
  split
  · rfl
  · extract_lets kept isDue s1
    exact (counts_of_seq (foldl_seq headPast_seq _ s1)).trans (setJob_counts ..)

@[simp] theorem commitPlan_counts (s : State) (j : Job) : counts (commitPlan s j).seq = counts s.seq := releaseRings_counts ..

@[simp] theorem markProgress_seq (s : State) (j : Job) : (markProgress s j).seq = s.seq := by
  unfold markProgress
  dsimp only
  split
  · rfl
  · exact forKeys_seq (fun t k => pageMod_seq t k _) s _

@[simp] theorem runWork_counts (s : State) : counts (runWork s).seq = counts s.seq := by
  unfold runWork
  split
  · rfl
  · rw [markProgress_seq, startWork_counts, markFlows_counts]
    split
    · exact commitPlan_counts ..
    · rfl


@[simp] theorem startReruns_counts (s : State) (n : Word) (new : List Activity) : counts (startReruns s n new).seq = counts s.seq := by
  unfold startReruns
  dsimp only
  split
  · exact (counts_of_seq (foldl_seq (fun t a => noteStart_seq t _ a) _ _)).trans (setJob_counts ..)
  · rfl

@[simp] theorem replayWork_counts (s : State) : counts (replayWork s).seq = counts s.seq := by
  unfold replayWork
  split
  · extract_lets pro s0 s1
    split
    · have h0 : s0.seq = s.seq := by
        unfold s0
        split <;> rfl
      have h1 : counts s1.seq = counts s0.seq := by
        unfold s1
        split
        · exact startReruns_counts ..
        · rfl
      exact h1.trans (counts_of_seq h0)
    · exact startReruns_counts ..
  · rfl

@[simp] theorem planWork_counts (s : State) : counts (planWork s).seq = counts s.seq := by
  refine Eq.trans ?_ (endIfDone_counts s)
  unfold planWork
  dsimp only
  generalize endIfDone s = s1
  split
  · exact runWork_counts s1
  · rfl
  · split
    · split
      · exact (sweepFrames_counts ..).trans (replayWork_counts s1)
      · exact replayWork_counts s1
    · exact replayWork_counts s1

@[simp] theorem holdEntries_counts (s : State) (j : Job) (h : List Byte) (a b : Nat) : counts (holdEntries s j h a b).seq = counts s.seq := rfl

@[simp] theorem startedLate_seq (s : State) (j : Job) (h : List Byte) (a b : Nat) : (startedLate s j h a b).seq = s.seq := by
  unfold startedLate
  dsimp only
  split
  · rw [count_seq, stickySet_seq]
  · rfl

@[simp] theorem holdRings_counts (s : State) : counts (holdRings s).seq = counts s.seq := by
  unfold holdRings
  split
  · rfl
  · refine foldl_counts (fun t a => ?_) _ s
    split
    · extract_lets h t1
      have h1 : counts t1.seq = counts t.seq := by
        unfold t1
        split
        · exact holdEntries_counts ..
        · rfl
      split
      · split
        · exact (counts_of_seq (startedLate_seq ..)).trans h1
        · exact h1
      · rfl
    · rfl

/-! #### Faults and results -/

@[simp] theorem noteLast_seq (s : State) (p : Option Partition) : (noteLast s p).seq = s.seq := by
  unfold noteLast
  split <;> rfl

@[simp] theorem detectOutside_seq (s : State) (p : Partition) : (detectOutside s p).seq = s.seq := by
  unfold detectOutside
  split
  · rfl
  · split
    · rfl
    · exact noteLast_seq ..

@[simp] theorem dropActs_counts (s : State) (j : Job) (u : Uid) : counts (dropActs s j u).seq = counts s.seq := by
  unfold dropActs
  split <;> rfl

@[simp] theorem joinHold_counts (s : State) (h : Hold) (p : Partition) (st : Option (BitVec 16)) : counts (joinHold s h p st).1.seq = counts s.seq := by
  unfold joinHold
  dsimp only
  split <;> rfl

@[simp] theorem detectFault_counts (s : State) (c : Nat) (u : Uid) (r : Option (Bool × Bool)) (q : List (BitVec 12 × Nat × BitVec 16 × Nat)) :
    counts (detectFault s c u r q).seq = counts s.seq := by
  unfold detectFault
  dsimp only
  split
  · exact counts_of_seq (detectOutside_seq ..)
  · split
    · rw [noteLast_seq, joinHold_counts, sendTo_seq, dropActs_counts]
    · rw [noteLast_seq, quenchMod_seq, sendTo_seq, dropActs_counts]


@[simp] theorem setResult_counts (s : State) (j : Job) (r : ActRef) (x : ActResult) : counts (setResult s j r x).seq = counts s.seq := by
  unfold setResult
  split
  · rw [detectFault_counts, clearBad_seq]
  · rfl

@[simp] theorem bellowsMod_seq (s : State) (n : Nat) (f : Engine → Engine) : (bellowsMod s n f).seq = s.seq := rfl

@[simp] theorem postCompl_seq (s : State) (n r : Nat) (e : List Byte) : (postCompl s n r e).seq = s.seq := by
  unfold postCompl
  dsimp only
  split
  · exact count_seq ..
  · exact memWrite_seq ..

@[simp] theorem stopJob_counts (s : State) (n : Word) (st : Stop) : counts (stopJob s n st).seq = counts s.seq := rfl

@[simp] theorem streamStop_counts (s : State) (j : Job) (r n : Nat) (st : BitVec 16) (b : Nat) : counts (streamStop s j r n st b).seq = counts s.seq := by
  unfold streamStop
  dsimp only
  rw [sendTo_seq, setJob_counts, stopJob_counts]

@[simp] theorem streamFault_counts (s : State) (j : Job) (a b c d e f g : Nat) : counts (streamFault s j a b c d e f g).seq = counts s.seq := by
  unfold streamFault
  extract_lets k s1 s2 s3
  have h2 : s2.seq = s.seq := by rw [count_seq, postCompl_seq, bellowsMod_seq]
  have h3 : s3.seq = s.seq := by
    unfold s3
    split
    · rw [stickySet_seq, count_seq, h2]
    · split
      · exact h2
      · exact h2
  split
  · exact counts_of_seq h3
  · rw [streamStop_counts, setJob_counts, h3]

@[simp] theorem sendFails_counts (s : State) (p i : Nat) : counts (sendFails s p i).seq = counts s.seq := by
  unfold sendFails
  split
  · dsimp only
    split
    · rfl
    · rw [setResult_counts, streamFault_counts]
  · rfl

@[simp] theorem rateStrike_seq (s : State) (e : Nat × HardyUnit) : (rateStrike s e).seq = s.seq := by
  unfold rateStrike
  dsimp only
  repeat' split
  all_goals simp

@[simp] theorem syncPulse_seq (s : State) : (syncPulse s).seq = s.seq := by
  unfold syncPulse
  split
  · split <;> rfl
  · split <;> rfl

/-! #### The edge -/

/-- R47: the end of a hold or replay strike adds 1 to HOLD. -/
theorem advanceHold_counts (s : State) : counts (advanceHold s).seq = (s.seq.strike, s.seq.hold + if s.seq.kind = .run then 0 else 1) := by
  unfold advanceHold
  split
  · next h => simp [counts, eq_of_beq h]
  · next h =>
    have held : s.seq.kind ≠ .run := by simpa using h
    extract_lets s1 s2 q s3
    have h1 : s1.seq = s.seq := forKeys_seq (fun t k => pageMod_seq t k movePage) s _
    have h3 : counts s3.seq = (s.seq.strike, s.seq.hold + 1) := by rw [← h1]; rfl
    rw [if_neg held, ← h3]
    split
    · exact counts_of_seq (count_seq ..)
    · rfl

theorem endStrike_counts (s : State) : counts (endStrike s).seq = (s.seq.strike, s.seq.hold + if s.seq.kind = .run then 0 else 1) := by
  unfold endStrike
  rw [advanceHold_counts]
  split <;> simp

/-- R11: the strike count takes its next value. -/
theorem nextStrike_counts (s : State) : counts (nextStrike s).seq = (s.seq.strike + 1, s.seq.hold) := by
  unfold nextStrike
  rw [holdDeadlines_seq]
  rfl

theorem beginStrike_counts (e : EdgeInputs) (s : State) :
    counts (beginStrike e s).seq = (s.seq.strike + 1, s.seq.hold + if s.seq.kind = .run then 0 else 1) := by
  obtain ⟨hs, hh⟩ := Prod.mk.inj (endStrike_counts (sweepStores s))
  unfold beginStrike
  dsimp only
  rw [activateDue_seq, endByMember_counts, applyDue_counts, beginDueResets_seq, resumeHold_counts, trackEdge_seq, nextStrike_counts, installRemaps_seq,
    hs, hh, sweepStores_seq]

theorem sendMismatch_counts (l : List (Nat × Nat)) (s : State) : counts (l.foldl (fun t x => sendFails t x.1 x.2) s).seq = counts s.seq :=
  foldl_counts (by rintro t ⟨p, i⟩; exact sendFails_counts t p i) l s

/-- What a strike edge makes of the counts: the strike advances by 1, and HOLD by 1 after a hold or replay strike. -/
theorem execStrikeEdge_counts (e : EdgeInputs) (s : State) (hd : s.tb.strikeDefined = true) (hn : s.seq.strike ≠ neverWord) :
    ∃ t, execStrikeEdge e s = .next t ∧ counts t.seq = (s.seq.strike + 1, s.seq.hold + if s.seq.kind = .run then 0 else 1) := by
  unfold execStrikeEdge
  rw [if_neg (by simp [hd]), if_neg hn]
  extract_lets s2 s3 s4 s5
  have h3 : counts s3.seq = counts s2.seq := by
    unfold s3
    split
    · exact heatWork_counts ..
    · rfl
  have h4 : counts s4.seq = counts s3.seq := by rw [noteGroups_seq, holdRings_counts, planWork_counts, issueReadmissions_seq]
  have h5 : counts s5.seq = counts s4.seq := by
    refine (sendMismatch_counts ..).trans (counts_of_seq ?_)
    rw [postCommits_seq, foldl_seq rateStrike_seq]
  refine ⟨_, rfl, ?_⟩
  rw [syncPulse_seq, sendFrames_counts, h5, h4, h3]
  exact beginStrike_counts e (agePorts s)

/-! #### Frames and memory -/

theorem sendControl_mem (s : State) (p i : Nat) : (sendControl s p i).mem = s.mem := by
  unfold sendControl
  split
  · rfl
  · split
    · rfl
    · exact foldl_keep _ State.mem (fun t x => emitOut_mem t _) _ _

theorem sendLane_mem (s : State) (p i : Nat) (r : List Nat) (m : Bool) : (sendLane s p i r m).mem = s.mem := by
  unfold sendLane
  split
  · split
    · rfl
    · dsimp only
      split
      · exact (sendControl_mem ..).trans (setJob_mem ..)
      · rfl
  · split
    · rfl
    · exact sendControl_mem ..

theorem sendTrain_mem (s : State) (p i : Nat) : (sendTrain s p i).mem = s.mem := rfl

theorem sendPort_mem (m : List (Nat × Nat)) (s : State) (p : Nat) : (sendPort m s p).mem = s.mem := by
  unfold sendPort
  dsimp only
  rw [foldl_keep _ State.mem (fun t i => sendTrain_mem t p i)]
  split
  · rfl
  · exact foldl_keep _ State.mem (fun t i => sendLane_mem t p i _ _) _ s

@[simp] theorem sendFrames_mem (s : State) (m : List (Nat × Nat)) : (sendFrames s m).mem = s.mem := foldl_keep _ State.mem (sendPort_mem m) _ s

end Sys2Proof.Laws

namespace Sys2Proof

open Machine Laws

/-- Settles O5. No work of the edge but the end of the strike and the count itself writes the strike or HOLD (`beginStrike_counts`,
`execStrikeEdge_counts`). -/
theorem strikeEdgeAdvances : Obligations.StrikeEdgeAdvances := by
  unfold Obligations.StrikeEdgeAdvances
  refine ⟨fun e s hd hn => ?_, fun e s hd hn => ?_, fun e s hd => ?_⟩
  · obtain ⟨t, ht, hc⟩ := execStrikeEdge_counts e s hd hn
    obtain ⟨hs, hh⟩ := Prod.mk.inj hc
    exact ⟨t, ht, hs, hh⟩
  · show execStrikeEdge e s = _
    unfold execStrikeEdge
    rw [if_neg (by simp [hd])]
    exact if_pos hn
  · have ht : exec (.strikeEdge e) s = .next (sendFrames (agePorts s) []) := by
      show execStrikeEdge e s = _
      unfold execStrikeEdge
      rw [if_pos (by simp [hd])]
    obtain ⟨hs, hh⟩ := Prod.mk.inj (sendFrames_counts (agePorts s) [])
    exact ⟨_, ht, hs, hh, sendFrames_mem ..⟩

end Sys2Proof
end

section
/-!
PROOFS. What the operations of resets, sticky bits and group clears leave of the units' pages and flags.
-/
namespace Sys2Proof.Laws

open Sys2Proof.Machine

/-! ### Reads of a unit -/

theorem unitGet_congr {s t : State} (h : t.units.pages = s.units.pages) (k : Nat) : unitGet t k = unitGet s k := by
  unfold unitGet
  rw [h]

theorem unitGet_pageMod {s : State} {k j : Nat} {f : UnitPage → UnitPage} (h : Rises s.units.pages) :
    unitGet (pageMod s k f) j = if j = k then { unitGet s k with page := f (unitGet s k).page } else unitGet s j := unitGet_unitMod h

theorem unitGet_flagsMod {s : State} {k j : Nat} {f : UnitFlags → UnitFlags} (h : Rises s.units.pages) :
    unitGet (flagsMod s k f) j = if j = k then { unitGet s k with flags := f (unitGet s k).flags } else unitGet s j := unitGet_unitMod h

theorem pageMod_rises {s : State} {k : Nat} {f : UnitPage → UnitPage} (h : Rises s.units.pages) : Rises (pageMod s k f).units.pages := sparseSet_rises h
theorem flagsMod_rises {s : State} {k : Nat} {f : UnitFlags → UnitFlags} (h : Rises s.units.pages) : Rises (flagsMod s k f).units.pages :=
  sparseSet_rises h

/-- A key without an entry reads the default. -/
theorem sparseGet_of_not_mem {α : Type} {d : α} {k : Nat} : ∀ {l : Sparse α}, k ∉ l.map (·.1) → sparseGet d k l = d
  | [], _ => rfl
  | (k', v) :: l, h => by
    obtain ⟨hk, hl⟩ := not_or.1 (mt List.mem_cons.2 h)
    rw [sparseGet, if_neg (Ne.symm hk)]
    exact sparseGet_of_not_mem hl

theorem unitGet_of_not_mem {s : State} {k : Nat} (h : k ∉ s.units.pages.map (·.1)) : unitGet s k = pageDefault k := sparseGet_of_not_mem h

/-! ### Updates that keep a part of every unit -/

/-- From s to t the keys of the pages stay in order, and `g` reads the same of every unit. -/
structure KeepsUnits {γ : Type} (g : UnitState → γ) (s t : State) : Prop where
  rises : Rises s.units.pages → Rises t.units.pages
  same : Rises s.units.pages → ∀ k, g (unitGet t k) = g (unitGet s k)

section
variable {γ : Type} {g : UnitState → γ} {s t u : State}

theorem KeepsUnits.of_pages (h : t.units.pages = s.units.pages) : KeepsUnits g s t where
  rises hr := h ▸ hr
  same _ k := congrArg g (unitGet_congr h k)

theorem KeepsUnits.of_units (h : t.units = s.units) : KeepsUnits g s t := .of_pages (congrArg Units.pages h)

theorem KeepsUnits.trans (h1 : KeepsUnits g s t) (h2 : KeepsUnits g t u) : KeepsUnits g s u where
  rises hr := h2.rises (h1.rises hr)
  same hr k := (h2.same (h1.rises hr) k).trans (h1.same hr k)

theorem foldl_keepsUnits {β : Type} {f : State → β → State} (h : ∀ t x, KeepsUnits g t (f t x)) : ∀ (l : List β) (s : State), KeepsUnits g s (l.foldl f s)
  | [], _ => .of_units rfl
  | x :: l, s => (h s x).trans (foldl_keepsUnits h l (f s x))

theorem unitMod_keepsUnits {k : Nat} {f : UnitState → UnitState} (hf : ∀ u, g (f u) = g u) : KeepsUnits g s (unitMod s k f) where
  rises hr := sparseSet_rises hr
  same hr j := by
    rw [unitGet_unitMod hr]
    split
    · next h => rw [h, hf]
    · rfl

/-! #### Counting and messages -/

theorem count_keepsUnits (hg : ∀ u cs, g { u with page := { u.page with counters := cs } } = g u) (s : State) (k c n : Nat) :
    KeepsUnits g s (count s k c n) := by
  unfold count
  split
  · exact foldl_keepsUnits (fun t a => unitMod_keepsUnits (fun u => hg u _)) _ s
  · exact unitMod_keepsUnits (fun u => hg u _)

/-- A message that no port can carry is counted; nothing else of a unit changes. -/
theorem routeMsg_keepsUnits (hg : ∀ u cs, g { u with page := { u.page with counters := cs } } = g u) (s : State) (m : CtlMsg) :
    KeepsUnits g s (routeMsg s m) := by
  unfold routeMsg
  split
  · exact .of_units (sendOnPort_units ..)
  · exact count_keepsUnits hg ..

theorem sendTo_keepsUnits (hg : ∀ u cs, g { u with page := { u.page with counters := cs } } = g u) (s : State) (ds : List Nat) (y : Nat) (b : CtlBody) :
    KeepsUnits g s (sendTo s ds y b) :=
  foldl_keepsUnits (fun t _ => (KeepsUnits.of_units (s := t) (t := { t with links := { t.links with ctlSeq := t.links.ctlSeq + 1 } }) rfl).trans
    (routeMsg_keepsUnits hg ..)) _ s

end

/-- The group clears that wait (R24). -/
def waitingClears (s : State) : List GroupClear := s.units.groupClears

theorem count_waitingClears (s : State) (k c n : Nat) : waitingClears (count s k c n) = waitingClears s := by
  unfold count
  split
  · exact foldl_keep (fun t a => counterAddOne t c n a) waitingClears (fun _ _ => rfl) _ s
  · rfl

theorem sendTo_waitingClears (s : State) (ds : List Nat) (y : Nat) (b : CtlBody) : waitingClears (sendTo s ds y b) = waitingClears s := by
  refine foldl_keep _ waitingClears (fun t d => ?_) _ s
  unfold routeMsg
  split
  · exact congrArg Units.groupClears (sendOnPort_units ..)
  · exact count_waitingClears ..

/-! ### Sticky bits -/

/-- A page with sticky bits set: they show in the next strike, before strike 0 at once (R49). -/
def markSticky (defined : Bool) (p : UnitPage) (m : Word) : UnitPage :=
  if defined then { p with fresh := p.fresh ||| m } else { p with sticky := p.sticky ||| m }

/-- The word with these bits. -/
def bitsWord (l : List Nat) : Word := l.foldr (fun b acc => BitVec.ofNat 64 (2 ^ b) ||| acc) 0

theorem markSticky_zero (d : Bool) (p : UnitPage) : markSticky d p 0 = p := by
  cases d <;> simp [markSticky]

theorem markSticky_markSticky (d : Bool) (p : UnitPage) (m n : Word) : markSticky d (markSticky d p m) n = markSticky d p (m ||| n) := by
  cases d <;> simp [markSticky, BitVec.or_assoc]

theorem stickySet_pages (s : State) (k b : Nat) :
    (stickySet s k b).units.pages = (pageMod s k (fun p => markSticky s.tb.strikeDefined p (BitVec.ofNat 64 (2 ^ b)))).units.pages := by
  unfold stickySet
  dsimp only
  split <;> rfl

theorem stickySet_rises {s : State} {k b : Nat} (h : Rises s.units.pages) : Rises (stickySet s k b).units.pages := by
  rw [stickySet_pages]
  exact pageMod_rises h

theorem unitGet_stickySet {s : State} {k j b : Nat} (h : Rises s.units.pages) : unitGet (stickySet s k b) j =
    if j = k then { unitGet s k with page := markSticky s.tb.strikeDefined (unitGet s k).page (BitVec.ofNat 64 (2 ^ b)) } else unitGet s j :=
  (unitGet_congr (stickySet_pages s k b) j).trans (unitGet_pageMod h)

/-- Setting bits one by one sets them in the unit's page and leaves every other unit. -/
theorem unitGet_stickySets (k j : Nat) : ∀ (l : List Nat) (s : State), Rises s.units.pages → unitGet (l.foldl (fun t b => stickySet t k b) s) j =
    if j = k then { unitGet s k with page := markSticky s.tb.strikeDefined (unitGet s k).page (bitsWord l) } else unitGet s j
  | [], s, _ => by
    rw [bitsWord, List.foldr_nil, markSticky_zero]
    split
    · next h => rw [h]; rfl
    · rfl
  | b :: l, s, h => by
    rw [List.foldl_cons, unitGet_stickySets k j l _ (stickySet_rises h), unitGet_stickySet h, unitGet_stickySet h, stickySet_tb]
    split
    · rw [if_pos rfl, markSticky_markSticky, bitsWord, bitsWord, List.foldr_cons]
    · rfl

theorem getLsbD_bitsWord (i : Nat) (hi : i < 64) : ∀ l : List Nat, (bitsWord l).getLsbD i = decide (i ∈ l)
  | [] => by simp [bitsWord]
  | b :: l => by
    have ih := getLsbD_bitsWord i hi l
    unfold bitsWord at ih ⊢
    rw [List.foldr_cons, BitVec.getLsbD_or, ih, BitVec.getLsbD_ofNat, Nat.testBit_two_pow]
    by_cases h : b = i
    · simp [h, hi]
    · simp [h, Ne.symm h]

theorem getLsbD_stickyMask : ∀ i : Fin 64, stickyMask.getLsbD i = decide (i.val < 21) := by decide

/-- The bits that hardware sets among the defined ones. -/
theorem bitsWord_defined (hw : Word) : bitsWord ((List.range 21).filter (fun b => hw.getLsbD b)) = hw &&& stickyMask := by
  refine BitVec.eq_of_getLsbD_eq (fun i hi => ?_)
  rw [getLsbD_bitsWord i hi, BitVec.getLsbD_and, getLsbD_stickyMask ⟨i, hi⟩]
  simp [Bool.and_comm, Bool.decide_and]

theorem stickyWrite_eq {s : State} {u : Uid} {mask hw : Word} (hl : keyLevel u.toNat ≠ 5) : stickyWrite s u mask hw =
    ((List.range 21).filter (fun b => hw.getLsbD b)).foldl (fun t b => stickySet t (uidKey u) b)
      (pageMod s (uidKey u) (fun p => { p with sticky := p.sticky &&& ~~~ (mask &&& stickyMask &&& ~~~ hw) })) := if_neg hl

theorem stickyWrite_mem {s : State} {u : Uid} {mask hw : Word} (hl : keyLevel u.toNat ≠ 5) : (stickyWrite s u mask hw).mem = s.mem := by
  rw [stickyWrite_eq hl]
  exact foldl_keep _ State.mem (fun t b => stickySet_mem t _ b) _ _

theorem stickyWrite_seq {s : State} {u : Uid} {mask hw : Word} (hl : keyLevel u.toNat ≠ 5) : (stickyWrite s u mask hw).seq = s.seq := by
  rw [stickyWrite_eq hl]
  exact foldl_keep _ State.seq (fun t b => stickySet_seq t _ b) _ _

/-- A write of ones clears what hardware does not set in the same cycle, and what hardware sets is set (R8, R23). -/
theorem unitGet_stickyWrite {s : State} {u : Uid} {mask hw : Word} (h : Rises s.units.pages) (hl : keyLevel u.toNat ≠ 5) (j : Nat) :
    unitGet (stickyWrite s u mask hw) j = if j = uidKey u then
      let p := (unitGet s (uidKey u)).page
      { unitGet s (uidKey u) with page := markSticky s.tb.strikeDefined { p with sticky := p.sticky &&& ~~~ (mask &&& stickyMask &&& ~~~ hw) }
                                            (hw &&& stickyMask) }
    else unitGet s j := by
  rw [stickyWrite_eq hl, unitGet_stickySets _ _ _ _ (pageMod_rises h), unitGet_pageMod h, unitGet_pageMod h, bitsWord_defined, pageMod_tb, if_pos rfl]
  split <;> rfl

/-! ### Clears of a group -/

/-- A clear whose heat is still to come waits, without the bits set after the write (R24). -/
theorem groupClear_eq {s : State} {m : Word} {w h : Nat} (hs : ∀ e ∈ s.units.setAt, e.2 ≤ w) (hh : heatOf (now s) < h) :
    groupClear s m w h = { s with units := { s.units with groupClears := s.units.groupClears ++ [{ mask := m, heat := h }] } } := by
  have none_late : s.units.setAt.filter (fun e => decide (w < e.2)) = [] :=
    List.filter_eq_nil_iff.2 (fun e he => by simpa using hs e he)
  have all_kept : m &&& ~~~ (0 : Word) = m := BitVec.and_allOnes
  unfold groupClear
  rw [none_late, List.foldl_nil]
  dsimp only
  rw [all_kept]
  exact if_neg (Nat.not_le.2 hh)

end Sys2Proof.Laws

namespace Sys2Proof

open Machine Laws

/-- Settles O13. A unit's write changes that unit's sticky bits only (`unitGet_stickyWrite`); a group's clear is booked for the next heat
boundary (`groupClear_eq`) and carried by messages that change no unit (`sendTo_keepsUnits`). -/
theorem stickyWrites : Obligations.StickyWrites := by
  unfold Obligations.StickyWrites
  refine ⟨fun s who u mask hw hk hw' hp hl => ?_, fun s group mask g hk hset hg => ?_⟩
  · have ht : exec (.stickyW1cWrite who u mask hw) s = .next (stickyWrite s u mask hw) := by
      show execStickyW1cWrite who u mask hw s = _
      unfold execStickyW1cWrite
      rw [if_neg (by simp [hp]), if_pos (by rcases hw' with rfl | rfl <;> rfl)]
    refine ⟨_, ht, ?_, fun k hne => ?_, stickyWrite_mem hl, stickyWrite_seq hl⟩
    · rw [unitGet_stickyWrite hk.2 hl, if_pos rfl]
      rfl
    · rw [unitGet_stickyWrite hk.2 hl, if_neg hne]
  · have ht : exec (.groupStickyClear group mask) s = .next (sendTo (groupClear s (mask &&& stickyMask) (now s) (heatOf (now s) + 1)) g.members 3
        (.clearSticky (mask &&& stickyMask) (now s) (heatOf (now s) + 1))) := by
      show execGroupStickyClear group mask s = _
      unfold execGroupStickyClear groupClearWrite
      rw [hg]
    rw [groupClear_eq hset (Nat.lt_succ_self (heatOf (now s)))] at ht
    refine ⟨_, ht, sendTo_waitingClears .., fun k => ?_⟩
    refine ((sendTo_keepsUnits (g := fun u => u.page.sticky) (fun _ _ => rfl) ..).same ?_ k).trans ?_
    · exact hk.2
    · exact congrArg (fun u => u.page.sticky) (unitGet_congr rfl k)

end Sys2Proof
end

section
/-!
PROOFS. Resets of units: what their start makes of the pages below the unit, and what their release makes of the unit's flags.
-/
namespace Sys2Proof.Laws

open Sys2Proof.Machine

/-! ### The start of a reset -/

/-- The fields that a reset returns to their reset values, of one page (R25). -/
def HasResetValues (p : UnitPage) : Prop :=
  p.sticky = 0 ∧ p.fresh = 0 ∧ p.notify = 0 ∧ p.marker = 0 ∧ p.progressHeat = 0 ∧ p.counters = [] ∧ ∀ c, wdGet p c = neverWord

theorem wdGet_eq_of_all {p : UnitPage} {w : Word} (h0 : p.wd0 = w) (h1 : p.wd1 = w) (h2 : p.wd2 = w) (h3 : p.wd3 = w) (c : Nat) : wdGet p c = w := by
  unfold wdGet
  split <;> assumption

theorem pageDefault_hasResetValues (k : Nat) : HasResetValues (pageDefault k).page := by
  unfold pageDefault
  split <;> exact ⟨rfl, rfl, rfl, rfl, rfl, rfl, wdGet_eq_of_all rfl rfl rfl rfl⟩

@[simp] theorem noteEpoch_units (s : State) : (noteEpoch s).units = s.units := by
  unfold noteEpoch
  dsimp only
  split
  · split <;> rfl
  · rfl

/-- A load of the active record gives a comparator of the timers no new deadline: it leaves it or sets it to never. -/
theorem unitGet_loadUnitCfg {s : State} (h : Rises s.units.pages) (k : Nat) : ∃ p : UnitPage, unitGet (loadUnitCfg s k) k = { unitGet s k with page := p } ∧
    (HasResetValues (unitGet s k).page → HasResetValues p) := by
  refine ⟨_, (unitGet_congr (congrArg Units.pages (noteEpoch_units _)) k).trans ((unitGet_pageMod h).trans (if_pos rfl)), ?_⟩
  rintro ⟨hs, hf, hn, hm, hp, hc, hw⟩
  refine ⟨hs, hf, hn, hm, hp, hc, wdGet_eq_of_all (hw 0) (hw 1) ?_ ?_⟩
  · dsimp only
    split
    · exact hw 2
    · rfl
  · dsimp only
    split
    · exact hw 3
    · rfl

theorem loadUnitCfg_pages (s : State) (k : Nat) : ∃ f : UnitPage → UnitPage, (loadUnitCfg s k).units.pages = (pageMod s k f).units.pages :=
  ⟨_, congrArg Units.pages (noteEpoch_units _)⟩

theorem loadUnitCfg_rises {s : State} (h : Rises s.units.pages) (k : Nat) : Rises (loadUnitCfg s k).units.pages := by
  obtain ⟨f, hf⟩ := loadUnitCfg_pages s k
  rw [hf]
  exact pageMod_rises h

theorem unitGet_loadUnitCfg_ne {s : State} {k j : Nat} (hj : j ≠ k) : unitGet (loadUnitCfg s k) j = unitGet s j := by
  obtain ⟨f, hf⟩ := loadUnitCfg_pages s k
  exact (unitGet_congr hf j).trans (unitGet_unitMod_ne hj)

theorem resetPage_rises {s : State} (h : Rises s.units.pages) (k : Nat) : Rises (resetPage s k).units.pages := loadUnitCfg_rises (pageMod_rises h) k

theorem unitGet_resetPage_ne {s : State} {k j : Nat} (hj : j ≠ k) : unitGet (resetPage s k) j = unitGet s j :=
  (unitGet_loadUnitCfg_ne hj).trans (unitGet_unitMod_ne hj)

theorem resetPage_hasResetValues {s : State} (h : Rises s.units.pages) (k : Nat) : HasResetValues (unitGet (resetPage s k) k).page := by
  obtain ⟨hs, hf, hn, hm, hp, hc, hw⟩ := pageDefault_hasResetValues k
  unfold resetPage
  dsimp only
  obtain ⟨p, hget, hvalues⟩ := unitGet_loadUnitCfg (pageMod_rises (k := k) (f := fun _ =>
    { (pageDefault k).page with active := (unitGet s k).page.active, previous := (unitGet s k).page.previous, wdCtrl := (pageDefault k).page.wdCtrl }) h) k
  rw [hget]
  refine hvalues ?_
  rw [unitGet_pageMod h, if_pos rfl]
  exact ⟨hs, hf, hn, hm, hp, hc, wdGet_eq_of_all (hw 0) (hw 1) (hw 2) (hw 3)⟩

theorem resetPages_rises {s : State} (h : Rises s.units.pages) (ks : List Nat) : Rises (forKeys s ks resetPage).units.pages :=
  List.foldlRecOn (motive := fun t => Rises t.units.pages) ks resetPage h (fun _ ht k _ => resetPage_rises ht k)

/-- After the pages of a list are reset, a unit of the list has reset values, as has one that had them before. -/
theorem resetPages_hasResetValues {a : Nat} : ∀ (ks : List Nat) {s : State}, Rises s.units.pages → (a ∈ ks ∨ HasResetValues (unitGet s a).page) →
    HasResetValues (unitGet (forKeys s ks resetPage) a).page
  | [], _, _, ha => ha.resolve_left List.not_mem_nil
  | k :: ks, s, h, ha => by
    refine resetPages_hasResetValues ks (s := resetPage s k) (resetPage_rises h k) ?_
    by_cases e : a = k
    · subst e
      exact .inr (resetPage_hasResetValues h a)
    · rw [unitGet_resetPage_ne e]
      exact ha.imp_left (fun hm => (List.mem_cons.1 hm).resolve_left e)

/-- A unit without an entry has its default page, so that the reset of the entries below a unit resets every unit below it. -/
theorem resetBelow_hasResetValues {s : State} (h : Rises s.units.pages) {k a : Nat} (ha : covers k a = true) :
    HasResetValues (unitGet (forKeys s ((s.units.pages.map (·.1)).filter (covers k)) resetPage) a).page := by
  refine resetPages_hasResetValues _ h ?_
  by_cases hm : a ∈ s.units.pages.map (·.1)
  · exact .inl (List.mem_filter.2 ⟨hm, ha⟩)
  · exact .inr (by rw [unitGet_of_not_mem hm]; exact pageDefault_hasResetValues a)

/-! #### What a reset leaves of the units before it resets their pages -/

theorem clearCore_units (s : State) (k : Nat) : (clearCore s k).units = s.units := rfl
theorem clearFar_units (s : State) : (clearFar s).units = s.units := rfl
theorem makeRepairs_units (s : State) (c : Nat) : (makeRepairs s c).units = s.units := rfl

theorem clearStack_units (s : State) (st : Nat) : (clearStack s st).units = s.units := by
  unfold clearStack
  dsimp only
  split <;> rfl

theorem damageVersions_rises {s : State} (h : Rises s.units.pages) (cs : List Nat) (f : Bool) : Rises (damageVersions s cs f).units.pages :=
  (foldl_keepsUnits (g := UnitState.flags) (fun _ _ => sendTo_keepsUnits (fun _ _ => rfl) ..) _ _).rises h

theorem clearDomain_rises {s : State} (h : Rises s.units.pages) (k : Nat) (r : Bool) : Rises (clearDomain s k r).units.pages := by
  unfold clearDomain
  extract_lets s1 dies eng2 s2 cols eng3 s3 s4 s5
  have h1 : ∀ l, (forKeys s l clearCore).units = s.units := fun l => foldl_keep clearCore State.units clearCore_units l s
  have h3 : s3.units = s.units := by simp only [s3, s2, s1, h1]
  have h4 : s4.units = s3.units := by
    unfold s4
    split
    · rfl
    · exact foldl_keep _ State.units (fun t st => (makeRepairs_units _ st).trans (clearStack_units t st)) cols s3
  have h5 : s5.units = s4.units := by
    unfold s5
    split
    · exact (foldl_keep _ State.units (fun t m => makeRepairs_units t (16 + m)) (List.range 16) (clearFar s4)).trans (clearFar_units s4)
    · rfl
  have rises : Rises s5.units.pages := by rw [h5, h4, h3]; exact h
  split
  · exact rises
  · exact damageVersions_rises rises cols _

theorem resetMemories_units (s : State) (k : Nat) (r : Bool) : (resetMemories s k r).units = s.units :=
  foldl_keep _ State.units (fun t c => checkerMod_units t c _) _ s

theorem closeBypasses_units (s : State) : (closeBypasses s).units = s.units :=
  foldl_keep _ State.units (fun t p => portMod_units t p (fun w => { w with bypassClosed := true })) (List.range 6) s

theorem resetDeviceMembers_units (s : State) (r : Bool) : (resetDeviceMembers s r).units = s.units := by
  unfold resetDeviceMembers
  dsimp only
  split
  · rfl
  · exact closeBypasses_units _

/-- A reset's work on pages is the reset of the pages below the unit; what goes before keeps their order. -/
theorem beginReset_units {s : State} (h : Form s) (k : Nat) (m f : Bool) : ∃ t : State, Rises t.units.pages ∧
    (beginReset s k m f).units = (forKeys t ((t.units.pages.map (·.1)).filter (covers k)) resetPage).units := by
  have flushed : Form (forKeys s (coresOf k) mergeFlushBank) := forKeys_kept (fun _ _ => mergeFlushBank_kept) h
  refine ⟨resetMemories (clearDomain (forKeys s (coresOf k) mergeFlushBank) k m) k m, ?_, ?_⟩
  · rw [resetMemories_units]
    exact clearDomain_rises flushed.2 k m
  · unfold beginReset
    dsimp only
    split
    · exact resetDeviceMembers_units ..
    · rfl

theorem beginReset_rises {s : State} (h : Form s) (k : Nat) (m f : Bool) : Rises (beginReset s k m f).units.pages := by
  obtain ⟨t, ht, hu⟩ := beginReset_units h k m f
  rw [hu]
  exact resetPages_rises ht _

theorem beginReset_hasResetValues {s : State} (h : Form s) {k a : Nat} (m f : Bool) (ha : covers k a = true) :
    HasResetValues (unitGet (beginReset s k m f) a).page := by
  obtain ⟨t, ht, hu⟩ := beginReset_units h k m f
  rw [unitGet_congr (congrArg Units.pages hu) a]
  exact resetBelow_hasResetValues ht ha

/-- A reset asked of a local unit begins with the retention of its page, and holds the unit in RESET (R25). -/
theorem resetReq_eq {s : State} {u : Uid} (hl : keyLevel u.toNat ≤ 4) (hd : uidDevice u = s.form.device) (hu : uidShape u.toNat = true)
    (ho : isOffline s (uidKey u) = false) : ∃ m f : Bool,
    resetReq s u = flagsMod (beginReset s (uidKey u) m f) (uidKey u) (fun f => { f with resetting := true }) := by
  refine ⟨(unitGet s (uidKey u)).page.retainMemory, (unitGet s (uidKey u)).page.retainFabric, ?_⟩
  unfold resetReq
  rw [if_neg (by omega)]
  exact if_pos (by simp [hl, hd, hu, ho])

/-! ### The release of a reset -/

/-- What the release of unit k does to one unit of its domain: RECOVERING ends but where a partition is open, the active record is loaded, and a unit
that missed a commit is fenced (R9, R53). -/
def releaseOne (s : State) (k : Nat) (t : State) (u : Nat) : State :=
  let t1 := loadUnitCfg (flagsMod t u (fun f => { f with recovering := f.recovering && u != k && openPartition s u })) u
  if (unitGet t1 u).flags.missed then fenceUnit t1 u else t1

/-- The release up to the work on the device's own members. -/
def releaseDomain (s : State) (k : Nat) : State :=
  let s1 := readyMemories (flagsMod s k (fun f => { f with recovering := false, resetting := false })) k
  ((s1.units.pages.map (·.1)).filter (covers k)).foldl (releaseOne s k) s1

theorem releaseUnit_of_ne {s : State} {k : Nat} (h : k ≠ devKey) : releaseUnit s k = releaseDomain s k := if_neg h

/-- What the release of the device adds: its registers, its routing banks where they are lost, the samples kept back, and its groups' resets. -/
def releaseMembers (s2 : State) : State :=
  let s3 := deadlineComparators (leaseComparator (loadDeviceCfg s2))
  settleGroups (restoreKept (if s3.links.bankA.isEmpty && s3.links.bankB.isEmpty then reloadRouting s3 else s3))

theorem releaseUnit_devKey (s : State) : releaseUnit s devKey = releaseMembers (releaseDomain s devKey) := by
  unfold releaseUnit releaseMembers releaseDomain releaseOne
  rw [if_pos rfl]

/-! ### Memory operations leave the flags of every unit -/

/-- From s to t no unit's flags change. -/
abbrev KeepsFlags (s t : State) : Prop := KeepsUnits UnitState.flags s t

theorem pageMod_keepsFlags (s : State) (k : Nat) (f : UnitPage → UnitPage) : KeepsFlags s (pageMod s k f) := unitMod_keepsUnits (fun _ => rfl)
theorem count_keepsFlags (s : State) (k c n : Nat) : KeepsFlags s (count s k c n) := count_keepsUnits (fun _ _ => rfl) s k c n
theorem stickySet_keepsFlags (s : State) (k b : Nat) : KeepsFlags s (stickySet s k b) := (pageMod_keepsFlags s k _).trans (.of_pages (stickySet_pages s k b))

theorem eccLog_keepsFlags (s : State) (a : Nat) (sy : BitVec 8) (kind : BitVec 2) : KeepsFlags s (eccLog s a sy kind) := by
  unfold eccLog
  dsimp only
  refine KeepsUnits.trans (KeepsUnits.trans ?_ (count_keepsFlags ..)) (stickySet_keepsFlags ..)
  split <;> exact .of_units rfl

theorem repairEvent_units (s : State) (c i a : Nat) (ue : Bool) : (repairEvent s c i a ue).units = s.units := by
  unfold repairEvent
  dsimp only
  split
  · split
    · rfl
    · split <;> rfl
  · split <;> rfl

theorem eccEvent_keepsFlags (s : State) (a : Nat) (sy : BitVec 8) (kind : BitVec 2) : KeepsFlags s (eccEvent s a sy kind) := by
  unfold eccEvent
  dsimp only
  split
  · exact eccLog_keepsFlags ..
  · exact (eccLog_keepsFlags ..).trans (.of_units (repairEvent_units ..))

theorem flipApply_units (s : State) (a : Nat) : (flipApply s a).units = s.units := by
  unfold flipApply
  dsimp only
  split <;> split <;> rfl

theorem readWord_keepsFlags (s : State) (a : Nat) : KeepsFlags s (readWord s a).1 := by
  unfold readWord
  split
  · exact .of_units rfl
  · split
    · exact .of_units rfl
    · exact (eccEvent_keepsFlags ..).trans (.of_units rfl)
    · exact (eccEvent_keepsFlags ..).trans (.of_units rfl)
    · exact eccEvent_keepsFlags ..
    · exact eccEvent_keepsFlags ..

theorem storeWord_units (s : State) (a : Nat) (bs : List Byte) : (storeWord s a bs).units = s.units := by
  unfold storeWord
  dsimp only
  rw [flipApply_units]
  split <;> rfl

theorem afterRead_units (r : State × Bool) (c : List Host.Cell) (w v : Nat) (z : Sparse (BitVec 8)) : (afterRead r c w v z).units = r.1.units := by
  unfold afterRead
  split <;> exact flipApply_units ..

theorem rmwWord_keepsFlags (s : State) (a : Nat) (bs : List Byte) : KeepsFlags s (rmwWord s a bs) :=
  (readWord_keepsFlags s (a / 8 * 8)).trans (.of_units (afterRead_units (readWord s (a / 8 * 8)) ..))

theorem mergeFlushEntry_keepsFlags (s : State) (b : Nat) (e : MergeEntry) : KeepsFlags s (mergeFlushEntry s b e) := by
  have dropped : KeepsFlags s { s with mem := mergeDrop s.mem b e.addr } := .of_units rfl
  unfold mergeFlushEntry
  dsimp only
  split
  · exact dropped.trans (.of_units (storeWord_units ..))
  · exact dropped.trans ((readWord_keepsFlags ..).trans (.of_units (afterRead_units (readWord _ e.addr) ..)))

theorem mergeWrite_keepsFlags (s : State) (b a : Nat) (bs : List Byte) : KeepsFlags s (mergeWrite s b a bs) := by
  have put : ∀ es, KeepsFlags s { s with mem := mergePut s.mem b es } := fun _ => .of_units rfl
  unfold mergeWrite
  extract_lets w es s1 e'
  clear_value es
  split
  · dsimp only
    split
    · exact (put _).trans (mergeFlushEntry_keepsFlags ..)
    · exact put _
  · have h1 : KeepsFlags s s1 := by
      unfold s1
      split
      · split
        · exact mergeFlushEntry_keepsFlags ..
        · exact .of_units rfl
      · exact .of_units rfl
    exact ⟨h1.rises, h1.same⟩

theorem writeInWord_keepsFlags (s : State) (a : Nat) (bs : List Byte) : KeepsFlags s (writeInWord s a bs) := by
  unfold writeInWord
  split
  · exact .of_units rfl
  · split
    · exact .of_units (storeWord_units ..)
    · split
      · exact mergeWrite_keepsFlags ..
      · exact rmwWord_keepsFlags ..

theorem memWriteWords_keepsFlags : ∀ (n : Nat) (s : State) (a : Nat) (bs : List Byte), KeepsFlags s (memWriteWords n s a bs)
  | 0, _, _, _ => .of_units rfl
  | n + 1, s, a, bs => by
    rw [memWriteWords]
    split
    · exact .of_units rfl
    · exact (writeInWord_keepsFlags ..).trans (memWriteWords_keepsFlags n ..)

theorem memWrite_keepsFlags (s : State) (a : Nat) (bs : List Byte) : KeepsFlags s (memWrite s a bs) := memWriteWords_keepsFlags ..

/-! ### The flags of a unit whose reset is released -/

theorem fenceUnit_rises {s : State} (h : Rises s.units.pages) (k : Nat) : Rises (fenceUnit s k).units.pages := stickySet_rises (flagsMod_rises h)

theorem unitGet_fenceUnit_ne {s : State} (h : Rises s.units.pages) {k j : Nat} (hj : j ≠ k) : unitGet (fenceUnit s k) j = unitGet s j := by
  unfold fenceUnit
  rw [unitGet_stickySet (flagsMod_rises h), if_neg hj, unitGet_flagsMod h, if_neg hj]

theorem fenceUnit_flags {s : State} (h : Rises s.units.pages) (k : Nat) :
    (unitGet (fenceUnit s k) k).flags = { (unitGet s k).flags with fenced := true, missed := false } := by
  unfold fenceUnit
  rw [(stickySet_keepsFlags ..).same (flagsMod_rises h) k, unitGet_flagsMod h, if_pos rfl]

theorem loadUnitCfg_keepsFlags (s : State) (k : Nat) : KeepsFlags s (loadUnitCfg s k) := by
  obtain ⟨f, hf⟩ := loadUnitCfg_pages s k
  exact (pageMod_keepsFlags s k f).trans (.of_pages hf)

theorem releaseOne_rises {s t : State} (h : Rises t.units.pages) (k u : Nat) : Rises (releaseOne s k t u).units.pages := by
  unfold releaseOne
  dsimp only
  split
  · exact fenceUnit_rises (loadUnitCfg_rises (flagsMod_rises h) u) u
  · exact loadUnitCfg_rises (flagsMod_rises h) u

theorem unitGet_releaseOne_ne {s t : State} (h : Rises t.units.pages) {k u j : Nat} (hj : j ≠ u) : unitGet (releaseOne s k t u) j = unitGet t j := by
  have loaded : ∀ f : UnitFlags → UnitFlags, unitGet (loadUnitCfg (flagsMod t u f) u) j = unitGet t j := fun f =>
    (unitGet_loadUnitCfg_ne hj).trans (unitGet_unitMod_ne hj)
  unfold releaseOne
  dsimp only
  split
  · exact (unitGet_fenceUnit_ne (loadUnitCfg_rises (flagsMod_rises h) u) hj).trans (loaded _)
  · exact loaded _

/-- The released unit itself: RECOVERING ends, and a missed commit fences it (R53). -/
theorem releaseOne_flags {s t : State} (h : Rises t.units.pages) (k : Nat) : (unitGet (releaseOne s k t k) k).flags =
    if (unitGet t k).flags.missed then { (unitGet t k).flags with recovering := false, fenced := true, missed := false }
    else { (unitGet t k).flags with recovering := false } := by
  have loaded : (unitGet (loadUnitCfg (flagsMod t k (fun f => { f with recovering := f.recovering && k != k && openPartition s k })) k) k).flags =
      { (unitGet t k).flags with recovering := false } := by
    rw [(loadUnitCfg_keepsFlags ..).same (flagsMod_rises h) k, unitGet_flagsMod h, if_pos rfl]
    simp
  unfold releaseOne
  dsimp only
  rw [loaded]
  split
  · rw [fenceUnit_flags (loadUnitCfg_rises (flagsMod_rises h) k), loaded]
  · exact loaded

/-- Flags of a unit that is out of its reset, and fenced if it had missed a commit. -/
structure Released (missed : Prop) (f : UnitFlags) : Prop where
  resetting : f.resetting = false
  recovering : f.recovering = false
  fenced : missed → f.fenced = true

theorem foldl_releaseOne_released {s : State} {k : Nat} {m : Prop} : ∀ (ks : List Nat) (t : State), Rises t.units.pages →
    (unitGet t k).flags.resetting = false → (unitGet t k).flags.recovering = false →
    (m → (unitGet t k).flags.fenced = true ∨ k ∈ ks ∧ (unitGet t k).flags.missed = true) →
    Rises (ks.foldl (releaseOne s k) t).units.pages ∧ Released m (unitGet (ks.foldl (releaseOne s k) t) k).flags
  | [], _, hr, h1, h2, h3 => ⟨hr, h1, h2, fun hm => (h3 hm).resolve_right (fun h => absurd h.1 List.not_mem_nil)⟩
  | u :: ks, t, hr, h1, h2, h3 => by
    refine foldl_releaseOne_released ks (releaseOne s k t u) (releaseOne_rises hr k u) ?_ ?_ ?_
    all_goals
      by_cases e : k = u
    · subst e
      rw [releaseOne_flags hr]
      split <;> exact h1
    · rw [unitGet_releaseOne_ne hr e]
      exact h1
    · subst e
      rw [releaseOne_flags hr]
      split <;> rfl
    · rw [unitGet_releaseOne_ne hr e]
      exact h2
    · subst e
      rw [releaseOne_flags hr]
      split
      · exact fun _ => .inl rfl
      · next missed => exact fun hm => .inl ((h3 hm).resolve_right (fun h => missed h.2))
    · rw [unitGet_releaseOne_ne hr e]
      exact fun hm => (h3 hm).imp_right (fun h => ⟨(List.mem_cons.1 h.1).resolve_left e, h.2⟩)

theorem covers_self (k : Nat) : covers k k = true := by
  unfold covers selfAndAncestors
  simp

theorem mem_keys_of_ne_default {s : State} {k : Nat} (h : unitGet s k ≠ pageDefault k) : k ∈ s.units.pages.map (·.1) :=
  Decidable.byContradiction (fun hm => h (unitGet_of_not_mem hm))

theorem readyMemories_units (s : State) (k : Nat) : (readyMemories s k).units = s.units := foldl_keep _ State.units (fun t c => checkerMod_units t c _) _ s

theorem pageDefault_missed (k : Nat) : (pageDefault k).flags.missed = false := by
  unfold pageDefault
  split <;> rfl

/-- After the release of a unit it is out of RESET and RECOVERING, and fenced if it had missed a commit (R9, R53). -/
theorem releaseDomain_released {s : State} (h : Rises s.units.pages) (k : Nat) : Rises (releaseDomain s k).units.pages ∧
    Released ((unitGet s k).flags.missed = true) (unitGet (releaseDomain s k) k).flags := by
  unfold releaseDomain
  extract_lets s1
  have hu : s1.units = (flagsMod s k (fun f => { f with recovering := false, resetting := false })).units := readyMemories_units ..
  have hf : (unitGet s1 k).flags = { (unitGet s k).flags with recovering := false, resetting := false } := by
    rw [unitGet_congr (congrArg Units.pages hu), unitGet_flagsMod h, if_pos rfl]
  refine foldl_releaseOne_released _ s1 (by rw [hu]; exact flagsMod_rises h) (by rw [hf]) (by rw [hf]) (fun hm => .inr ?_)
  have missed : (unitGet s1 k).flags.missed = true := by rw [hf]; exact hm
  refine ⟨List.mem_filter.2 ⟨mem_keys_of_ne_default (fun he => ?_), covers_self k⟩, missed⟩
  rw [he, pageDefault_missed] at missed
  cases missed

/-! #### The device's own members -/

theorem leaseComparator_keepsFlags (s : State) : KeepsFlags s (leaseComparator s) := by
  unfold leaseComparator
  dsimp only
  split
  · exact .of_units rfl
  · exact pageMod_keepsFlags ..

theorem deadlineComparators_keepsFlags (s : State) : KeepsFlags s (deadlineComparators s) := by
  unfold deadlineComparators
  extract_lets due d q put s1
  have hput : ∀ t k v, KeepsFlags t (put t k v) := by
    intro t k v
    unfold put
    split
    · exact .of_units rfl
    · exact pageMod_keepsFlags ..
  have h1 : KeepsFlags s s1 := by
    unfold s1
    split
    · exact hput ..
    · exact .of_units rfl
  split
  · exact h1.trans (hput ..)
  · exact h1

theorem restoreKept_keepsFlags (s : State) : KeepsFlags s (restoreKept s) := by
  have emptied : KeepsFlags s { s with quench := { s.quench with kept := [] } } := .of_units rfl
  unfold restoreKept
  extract_lets cs
  split
  · exact emptied.trans (foldl_keepsUnits (fun t x => memWrite_keepsFlags t x.1 x.2) s.quench.kept _)
  · exact .of_units rfl

/-- The end of group resets changes no unit of the device. -/
theorem unitGet_settleGroups (s : State) : unitGet (settleGroups s) devKey = unitGet s devKey := by
  unfold settleGroups
  refine foldl_keep _ (fun t => unitGet t devKey) (fun t g => ?_) _ s
  dsimp only
  split
  · exact unitGet_unitMod_ne (by unfold devKey; omega)
  · rfl

theorem releaseMembers_flags {s : State} (h : Rises s.units.pages) : (unitGet (releaseMembers s) devKey).flags = (unitGet s devKey).flags := by
  unfold releaseMembers
  extract_lets s3
  have h3 : KeepsFlags s s3 :=
    (KeepsUnits.of_units (s := s) (t := loadDeviceCfg s) rfl).trans ((leaseComparator_keepsFlags _).trans (deadlineComparators_keepsFlags _))
  rw [unitGet_settleGroups]
  refine (h3.trans (KeepsUnits.trans ?_ (restoreKept_keepsFlags _))).same h devKey
  clear_value s3
  split
  · exact .of_units rfl
  · exact .of_units rfl

theorem releaseUnit_released {s : State} (h : Rises s.units.pages) (k : Nat) :
    Released ((unitGet s k).flags.missed = true) (unitGet (releaseUnit s k) k).flags := by
  obtain ⟨hr, hd⟩ := releaseDomain_released h k
  by_cases e : k = devKey
  · subst e
    rw [releaseUnit_devKey, releaseMembers_flags hr]
    exact hd
  · rw [releaseUnit_of_ne e]
    exact hd

end Sys2Proof.Laws

namespace Sys2Proof

open Machine Laws

/-- Settles O17. A reset's start gives every page of its subtree the reset values (`beginReset_hasResetValues`), and the rise of events that
follows keeps them; the release clears the unit's own reset (`releaseUnit_released`). -/
theorem unitReset : Obligations.UnitReset := by
  unfold Obligations.UnitReset
  refine ⟨fun s u hk hl hd hu ho => ?_, fun s u hk hd hreset => ?_⟩
  · obtain ⟨m, f, hreq⟩ := resetReq_eq hl hd hu ho
    have rises := beginReset_rises (s := s) hk (uidKey u) m f
    refine ⟨_, congrArg Host.Outcome.next hreq, ?_, fun a ha => ?_⟩
    · rw [unitGet_flagsMod rises, if_pos rfl]
    · have values := beginReset_hasResetValues (s := s) hk m f ha
      rw [unitGet_flagsMod rises]
      split
      · next e => subst e; exact values
      · exact values
  · have ht : exec (.resetRelease u) s = .next (releaseUnit s (uidKey u)) :=
      congrArg Host.Outcome.next (if_pos (by simp [hd, hreset]))
    obtain ⟨hr, hc, hf⟩ := releaseUnit_released hk.2 (uidKey u)
    exact ⟨_, ht, hr, hc, hf⟩

end Sys2Proof
end

section
/-!
PROOFS. Event counters (R20) and the device at reset.
-/
namespace Sys2Proof.Laws

open Sys2Proof.Machine

/-! ### Units and their ancestors -/

theorem keyLevel_parentKey {k p : Nat} (h : parentKey k = some p) : keyLevel p = keyLevel k + 1 := by
  unfold parentKey at h
  split at h
  · next hl =>
    obtain rfl := Option.some.inj h
    rw [hl]
    unfold keyLevel
    omega
  · next hl =>
    obtain rfl := Option.some.inj h
    rw [hl]
    unfold keyLevel
    omega
  · next hl =>
    obtain rfl := Option.some.inj h
    rw [hl]
    unfold keyLevel
    omega
  · next hl =>
    obtain rfl := Option.some.inj h
    rw [hl]
    rfl
  · cases h

/-- A unit chain upward, each the parent of the one before, as far as it goes. -/
def chainUp : Nat → Option Nat → List (Option Nat)
  | 0, _ => []
  | n + 1, o => o :: chainUp n (o.bind parentKey)

theorem selfAndAncestors_eq (k : Nat) : selfAndAncestors k = (chainUp 5 (some k)).filterMap id := rfl

theorem chainUp_some (n k : Nat) : (chainUp (n + 1) (some k)).filterMap id = k :: (chainUp n (parentKey k)).filterMap id := rfl

theorem chainUp_none : ∀ n, (chainUp n none).filterMap id = []
  | 0 => rfl
  | n + 1 => chainUp_none n

/-- The levels of a chain are those of its first unit and above. -/
theorem keyLevel_le_of_mem_chainUp {a : Nat} : ∀ {n k : Nat}, a ∈ (chainUp n (some k)).filterMap id → keyLevel k ≤ keyLevel a
  | 0, _, h => by cases h
  | n + 1, k, h => by
    rw [chainUp_some, List.mem_cons] at h
    rcases h with rfl | h
    · exact le_rfl
    · cases hp : parentKey k with
      | none => rw [hp, chainUp_none] at h; cases h
      | some p =>
        rw [hp] at h
        have := keyLevel_le_of_mem_chainUp h
        rw [keyLevel_parentKey hp] at this
        omega

theorem chainUp_nodup : ∀ n k : Nat, ((chainUp n (some k)).filterMap id).Nodup
  | 0, _ => List.nodup_nil
  | n + 1, k => by
    rw [chainUp_some, List.nodup_cons]
    cases hp : parentKey k with
    | none => rw [chainUp_none]; exact ⟨List.not_mem_nil, List.nodup_nil⟩
    | some p =>
      refine ⟨fun hm => ?_, chainUp_nodup n p⟩
      have := keyLevel_le_of_mem_chainUp hm
      rw [keyLevel_parentKey hp] at this
      omega

/-- No unit is its own ancestor: each level of the tree stands once in the chain (R15). -/
theorem selfAndAncestors_nodup (k : Nat) : (selfAndAncestors k).Nodup := chainUp_nodup 5 k

/-! ### Counters -/

theorem satAdd_ne_zero (a : Word) {n : Nat} (h : 1 ≤ n) : satAdd a n ≠ 0 := by
  unfold satAdd
  split
  · next hlt =>
    intro h0
    have h1 := congrArg BitVec.toNat h0
    rw [BitVec.toNat_ofNat, Nat.mod_eq_of_lt hlt] at h1
    change a.toNat + n = 0 at h1
    omega
  · decide

theorem counters_pageDefault (k : Nat) : (pageDefault k).page.counters = [] := by
  unfold pageDefault
  split <;> rfl

/-- A counted event adds to one counter of one unit, in any state: what it stores is never the page's reset value. -/
theorem counterGet_counterAddOne (s : State) {c n k : Nat} (h : 1 ≤ n) (a d : Nat) :
    counterGet (counterAddOne s c n k) a d = if a = k ∧ d = c then satAdd (counterGet s a d) n else counterGet s a d := by
  unfold counterGet counterAddOne pageMod
  by_cases hk : a = k
  · subst hk
    rw [unitGet_unitMod_of_ne_default]
    · dsimp only
      rw [sparseGet_sparseSet_of_ne (satAdd_ne_zero _ h)]
      by_cases hd : d = c
      · subst hd; simp
      · simp [hd]
    · intro he
      have hc := congrArg (fun u : UnitState => sparseGet 0 c u.page.counters) he
      dsimp only at hc
      rw [counters_pageDefault, sparseGet_sparseSet_of_ne (satAdd_ne_zero _ h), if_pos rfl] at hc
      exact satAdd_ne_zero _ h hc
  · rw [unitGet_unitMod_ne hk, if_neg (fun hc => hk hc.1)]

theorem counterGet_foldl_counterAddOne {c n : Nat} (h : 1 ≤ n) (a d : Nat) : ∀ (ks : List Nat) (s : State), ks.Nodup →
    counterGet (ks.foldl (fun t k => counterAddOne t c n k) s) a d = if a ∈ ks ∧ d = c then satAdd (counterGet s a d) n else counterGet s a d
  | [], s, _ => by simp
  | k :: ks, s, hn => by
    obtain ⟨hk, hks⟩ := List.nodup_cons.1 hn
    rw [List.foldl_cons, counterGet_foldl_counterAddOne h a d ks _ hks, counterGet_counterAddOne s h]
    by_cases ha : a = k
    · subst ha; simp [hk]
    · simp [ha]

/-- R20: which counters an event of unit k adds to. -/
theorem counterGet_count (s : State) {k c n : Nat} (h : 1 ≤ n) (a d : Nat) :
    counterGet (count s k c n) a d =
      if (if c < 8 then a ∈ selfAndAncestors k else a = k) ∧ d = c then satAdd (counterGet s a d) n else counterGet s a d := by
  unfold count
  by_cases hc : c < 8
  · simp only [if_pos hc]
    exact counterGet_foldl_counterAddOne h a d _ s (selfAndAncestors_nodup k)
  · simp only [if_neg hc]
    exact counterGet_counterAddOne s h a d

/-! ### Reset -/

theorem unitGet_reset (k : Nat) : unitGet State.reset k = pageDefault k := rfl

theorem cellsGet_nil (a n : Nat) : cellsGet [] a n = List.replicate n 0 := by
  unfold cellsGet cellGet
  simp [sparseGet, List.map_const']

theorem getD_replicate_self {α : Type} (n i : Nat) (x : α) : (List.replicate n x).getD i x = x := by
  rw [List.getD_eq_getElem?_getD, List.getElem?_replicate]
  split <;> rfl

theorem lanes_reset (p : Nat) : (portGet State.reset p).lanes = List.replicate 8 .down := by
  have hport : ∀ w ∈ State.reset.links.ports, w.lanes = List.replicate 8 .down := by decide
  unfold portGet
  rw [List.getD_eq_getElem?_getD]
  cases h : State.reset.links.ports[p]? with
  | none => rfl
  | some w => exact hport w (List.mem_of_getElem? h)

end Sys2Proof.Laws

namespace Sys2Proof

open Machine Laws

/-- Settles O15. An event adds to exactly the counters that `counterGet_count` names, each once because a unit has no ancestor twice. -/
theorem countersSumUpward : Obligations.CountersSumUpward := by
  unfold Obligations.CountersSumUpward
  refine ⟨fun s k c n a hn hc ha => ?_, fun s k c n hn hc => ?_, fun s k c n a d hn hd => ?_⟩
  · rw [counterGet_count s hn, if_pos ⟨by rw [if_pos hc]; exact ha, rfl⟩]
  · rw [counterGet_count s hn, if_pos ⟨by rw [if_neg (by omega)], rfl⟩]
  · rw [counterGet_count s hn, if_neg]
    rintro ⟨hin, rfl⟩
    rcases hd with hd | ⟨hc, ha⟩ | ⟨hc, ha⟩
    · exact hd rfl
    · rw [if_pos hc] at hin
      exact ha hin
    · rw [if_neg (by omega)] at hin
      exact ha hin

/-- Settles O2. No unit is listed at reset, so each page reads its default; no byte of memory is listed either. -/
theorem resetRegisterValues : Obligations.ResetRegisterValues := by
  unfold Obligations.ResetRegisterValues
  have clean : State.reset.mem.synd = [] := rfl
  refine ⟨fun k => ?_, rfl, rfl, rfl, rfl, by decide, fun p l => ?_, rfl, rfl, fun a n => ⟨?_, fun hr => (memRead_clean clean hr).2⟩⟩
  · rw [unitGet_reset]
    obtain ⟨hs, hf, hn, hm, hp, hc, hw⟩ := pageDefault_hasResetValues k
    refine ⟨hs, hf, hn, ?_, ?_, ?_, ?_, hw, hp, hm, ?_, ?_, ?_, fun c => ?_⟩
    case refine_8 => exact congrArg (sparseGet 0 c) hc
    all_goals
      unfold pageDefault
      split <;> rfl
  · rw [lanes_reset]
    exact getD_replicate_self ..
  · rw [memRead_clean_bytes clean rfl]
    exact cellsGet_nil a n

end Sys2Proof
end

section
/-!
PROOFS. Memory without stored errors: which addresses are memory, what a write stores and what a read gives (R29, R289 to R297), and the
accesses of the Hearth to memory and unit pages (R22, R307).
-/
namespace Sys2Proof.Laws

open Sys2Proof.Machine

/-! ### Addresses of memory -/

/-- A place in the near tier, the far tier or a scratchpad. -/
def memoryPlace : Place → Bool
  | .near _ | .far _ | .scratch _ => true
  | _ => false

theorem isMemory_placeOf (s : State) (a : Nat) : isMemory s a = memoryPlace (placeOf s a) := rfl

/-- R28's ranges of memory: the near tier but for the stacks of an offline column, the far tier, and the scratchpads of the cores. -/
theorem isMemory_eq (s : State) (a : Nat) : isMemory s a =
    if a < 2 ^ 40 then !isOffline s (columnKey (nearStack (param s 1) a))
    else if farBase ≤ a && a < farBase + s.form.farGib * 2 ^ 30 then true
    else if scratchBase ≤ a && a < scratchBase + 2 ^ 34 then
      (a - scratchBase) / 2 ^ 22 * 16 / 2 ^ 9 % 8 < 5 && a % 2 ^ 22 < 0x240000
    else false := by
  have near : ∀ b : Bool, (if b then false else true) = !b := by decide
  have scratch : ∀ b : Bool, (if b then true else false) = b := by decide
  rw [isMemory_placeOf]
  unfold placeOf
  simp only [apply_ite memoryPlace]
  simp only [memoryPlace, ite_self, near, scratch]

/-- Below the scratchpads no address leads to one. -/
theorem placeOf_ne_scratch {s : State} {a : Nat} (h : a < scratchBase) (k : Nat) : placeOf s a ≠ .scratch k := by
  have hs : ¬(scratchBase ≤ a && a < scratchBase + 2 ^ 34) = true := by
    rw [Bool.and_eq_true, decide_eq_true_eq]
    omega
  unfold placeOf
  dsimp only
  rw [if_neg hs]
  repeat' split
  all_goals exact Place.noConfusion

/-- Memory is mapped by whole words: the bytes of an aligned word are memory together. -/
theorem isMemory_word {s : State} {w j : Nat} (hw : w % 8 = 0) (hj : j < 8) : isMemory s (w + j) = isMemory s w := by
  have hstack : nearStack (param s 1) (w + j) = nearStack (param s 1) w := by
    unfold nearStack
    split <;> omega
  have hnear : (w + j < 2 ^ 40) ↔ (w < 2 ^ 40) := by omega
  have hfar : (farBase ≤ w + j && w + j < farBase + s.form.farGib * 2 ^ 30) = (farBase ≤ w && w < farBase + s.form.farGib * 2 ^ 30) := by
    unfold farBase
    rw [Bool.eq_iff_iff]
    simp only [Bool.and_eq_true, decide_eq_true_eq]
    omega
  have hscratch : (scratchBase ≤ w + j && w + j < scratchBase + 2 ^ 34) = (scratchBase ≤ w && w < scratchBase + 2 ^ 34) := by
    unfold scratchBase
    rw [Bool.eq_iff_iff]
    simp only [Bool.and_eq_true, decide_eq_true_eq]
    omega
  have hcore : (w + j - scratchBase) / 2 ^ 22 = (w - scratchBase) / 2 ^ 22 := by
    unfold scratchBase
    omega
  have hpad : (w + j) % 2 ^ 22 < 0x240000 ↔ w % 2 ^ 22 < 0x240000 := by omega
  rw [isMemory_eq, isMemory_eq]
  simp only [hstack, hnear, hfar, hscratch, hcore, hpad]

/-- The words of an access are memory in full where their addresses are. -/
theorem rangeOk_word {s : State} {w : Nat} (hw : w % 8 = 0) (h : isMemory s w = true) : rangeOk s isMemory w 8 = true := by
  have hone : (w + 8 - 1) / 4096 - w / 4096 + 1 = 1 := by omega
  have hfirst : Nat.max w ((w / 4096 + 0) * 4096) = w := Nat.max_eq_left (by omega)
  have hlast : isMemory s (w + 8 - 1) = true := (isMemory_word hw (by omega)).trans h
  unfold rangeOk
  rw [if_neg (by omega), hone, List.range_one, List.all_cons, List.all_nil, hfirst, h, hlast]
  rfl

/-! ### Runs of bytes -/

theorem length_cellsGet (m : List Host.Cell) (a n : Nat) : (cellsGet m a n).length = n := by simp [cellsGet]

theorem cellsGet_add (m : List Host.Cell) (a n k : Nat) : cellsGet m a (n + k) = cellsGet m a n ++ cellsGet m (a + n) k := by
  simp only [cellsGet, List.range_add, List.map_append, List.map_map, Function.comp_def, Nat.add_assoc]

/-- A run of bytes cut out of a longer one. -/
theorem take_drop_cellsGet (m : List Host.Cell) (a i n k : Nat) : ((cellsGet m a (i + (n + k))).drop i).take n = cellsGet m (a + i) n := by
  rw [cellsGet_add, List.drop_left' (length_cellsGet ..), cellsGet_add, List.take_left' (length_cellsGet ..)]

theorem cellsPut_append : ∀ (l₁ l₂ : List Byte) (a : Nat) (m : List Host.Cell), cellsPut a (l₁ ++ l₂) m = cellsPut (a + l₁.length) l₂ (cellsPut a l₁ m)
  | [], _, _, _ => rfl
  | b :: l₁, l₂, a, m => by
    rw [List.cons_append, cellsPut, cellsPut, cellsPut_append l₁ l₂, List.length_cons, Nat.add_right_comm, Nat.add_assoc]

/-- A run put down in two parts. -/
theorem cellsPut_take_drop (bs : List Byte) (a k : Nat) (m : List Host.Cell) :
    cellsPut (a + k) (bs.drop k) (cellsPut a (bs.take k) m) = cellsPut a bs m := by
  rcases Nat.le_total bs.length k with h | h
  · rw [List.drop_eq_nil_of_le h, List.take_of_length_le h, cellsPut]
  · have hl : (bs.take k).length = k := List.length_take_of_le h
    conv_rhs => rw [← List.take_append_drop k bs, cellsPut_append, hl]

theorem cellsGet_cellsPut {bs : List Byte} {a : Nat} {m : List Host.Cell} (h : sparseWf 0 m = true) : cellsGet (cellsPut a bs m) a bs.length = bs := by
  refine map_range_eq rfl (fun i hi => ?_)
  rw [cellGet_cellsPut h, if_pos ⟨by omega, by omega⟩, Nat.add_sub_cancel_left, List.getD_eq_getElem?_getD, List.getElem?_eq_getElem hi]
  rfl

/-! ### Writes of clean memory -/

/-- No word of memory is stored with a code that is not clean, and no checker is armed: `CleanMemory` of a state and of what keeps its codes
and checkers. -/
theorem cleanMemory_of_eq {s t : State} (h : CleanMemory s) (hs : t.mem.synd = s.mem.synd) (hc : t.mem.checkers = s.mem.checkers) : CleanMemory t := by
  refine ⟨hs.trans h.1, fun c => ?_⟩
  unfold checkerGet
  rw [hc]
  exact h.2 c

/-- The state with bytes put into memory; the words written are no longer marked as injected. -/
def memPut (s : State) (a : Nat) (bs : List Byte) (inj : List Nat) : State :=
  { s with mem := { s.mem with cells := cellsPut a bs s.mem.cells, injected := inj } }

/-- Where every code is clean, making one clean changes nothing. -/
theorem memPut_of_erase {s : State} (h : s.mem.synd = []) (a k : Nat) (bs : List Byte) (inj : List Nat) :
    { s with mem := { s.mem with cells := cellsPut a bs s.mem.cells, synd := sparseErase k s.mem.synd, injected := inj } } = memPut s a bs inj := by
  unfold memPut
  dsimp only
  rw [h, sparseErase]

theorem storeWord_clean {s : State} (h : CleanMemory s) {a : Nat} (ha : a < scratchBase) (bs : List Byte) : ∃ i, storeWord s a bs = memPut s a bs i := by
  refine ⟨s.mem.injected.filter (· != a), ?_⟩
  unfold storeWord
  extract_lets m s1 s2
  have h2 : s2 = memPut s a bs (s.mem.injected.filter (· != a)) := by
    unfold s2
    split
    · next hp => exact absurd hp (placeOf_ne_scratch ha _)
    · exact memPut_of_erase h.1 ..
  rw [flipApply_unarmed (h2 ▸ (cleanMemory_of_eq (t := memPut s a bs _) h rfl rfl).2), h2]

theorem rmwWord_clean {s : State} (h : CleanMemory s) (a : Nat) (bs : List Byte) : ∃ i, rmwWord s a bs = memPut s a bs i := by
  refine ⟨s.mem.injected.filter (· != a / 8 * 8), ?_⟩
  unfold rmwWord
  dsimp only
  rw [readWord_clean h.1]
  dsimp only
  rw [if_pos rfl, flipApply_unarmed]
  · exact memPut_of_erase h.1 ..
  · exact h.2

theorem writeInWord_clean {s : State} (h : CleanMemory s) {a : Nat} (ha : a < scratchBase) (hm : isMemory s a = true) (bs : List Byte) :
    ∃ i, writeInWord s a bs = memPut s a bs i := by
  unfold writeInWord
  rw [if_neg (by simp [hm])]
  split
  · exact storeWord_clean h ha bs
  · split
    · next hp => exact absurd hp (placeOf_ne_scratch ha _)
    · exact rmwWord_clean h a bs

/-- A write of a tier without stored errors puts its bytes there, whatever words they span. -/
theorem memWriteWords_clean : ∀ {n : Nat} {s : State} {a : Nat} {bs : List Byte}, CleanMemory s → bs.length < n → a + bs.length ≤ scratchBase →
    (∀ i, i < bs.length → isMemory s (a + i) = true) → ∃ inj, memWriteWords n s a bs = memPut s a bs inj
  | 0, _, _, _, _, hn, _, _ => absurd hn (Nat.not_lt_zero _)
  | n + 1, s, a, [], _, _, _, _ => ⟨s.mem.injected, rfl⟩
  | n + 1, s, a, b :: bs, h, hn, ha, hm => by
    rw [memWriteWords, if_neg (by simp)]
    dsimp only
    generalize hk : 8 - a % 8 = k
    rw [List.length_cons] at hn ha hm
    obtain ⟨i, hi⟩ := writeInWord_clean h (a := a) (by omega) (hm 0 (by omega)) ((b :: bs).take k)
    rw [hi]
    by_cases hl : (b :: bs).length ≤ k
    · refine ⟨i, ?_⟩
      rw [List.drop_eq_nil_of_le hl, List.take_of_length_le hl]
      cases n <;> rfl
    · have hd : ((b :: bs).drop k).length + k = bs.length + 1 := by
        rw [List.length_drop, List.length_cons]
        rw [List.length_cons] at hl
        omega
      obtain ⟨j, hj⟩ := memWriteWords_clean (n := n) (s := memPut s a ((b :: bs).take k) i) (a := a + k) (bs := (b :: bs).drop k)
        (cleanMemory_of_eq h rfl rfl) (by omega) (by omega) (fun x hx => by
          rw [Nat.add_assoc]
          exact hm (k + x) (by omega))
      refine ⟨j, hj.trans ?_⟩
      unfold memPut
      dsimp only
      rw [cellsPut_take_drop]

theorem memWrite_clean {s : State} {a : Nat} {bs : List Byte} (h : CleanMemory s) (ha : a + bs.length ≤ scratchBase)
    (hm : ∀ i, i < bs.length → isMemory s (a + i) = true) : ∃ inj, memWrite s a bs = memPut s a bs inj := memWriteWords_clean h (by omega) ha hm

/-- Below the scratchpads no merge entry lies over a byte. -/
theorem memRead_clean_bytes_below {s : State} (h : s.mem.synd = []) {a n : Nat} (ha : a + n ≤ scratchBase) :
    (memRead s a n).bytes = cellsGet s.mem.cells a n := by
  unfold memRead
  rw [dirtyWords_clean h]
  dsimp only [List.foldl_nil]
  split
  · rfl
  · refine map_range_eq (length_cellsGet ..) (fun i hi => ?_)
    rw [length_cellsGet] at hi
    unfold mergedByte
    split
    · next hp => exact absurd hp (placeOf_ne_scratch (by omega) _)
    · rw [List.getD_eq_getElem?_getD, List.getElem?_eq_getElem (by rw [length_cellsGet]; exact hi)]
      rfl

/-! ### Unmapped addresses -/

/-- A range that starts outside memory fails at its start (R29). -/
theorem firstUnmapped_start {s : State} {a n : Nat} (hn : 0 < n) (h : isMemory s a = false) : firstUnmapped s a n = some a := by
  have hfirst : Nat.max a ((a / 4096 + 0) * 4096) = a := Nat.max_eq_left (by omega)
  unfold firstUnmapped rangeOk
  rw [if_neg (by omega : ¬n = 0)]
  generalize (a + n - 1) / 4096 - a / 4096 = c
  rw [List.range_succ_eq_map, List.all_cons, hfirst, h, List.map_cons, hfirst, List.find?_cons, h]
  rfl

theorem memRead_unmapped {s : State} (hs : s.mem.synd = []) {a n : Nat} (hn : 0 < n) (h : isMemory s a = false) :
    (memRead s a n).bad = some (a / 8 * 8) := by
  unfold memRead
  rw [dirtyWords_clean hs, firstUnmapped_start hn h]
  rfl

/-- A write within one word that is no memory stores nothing (R29). -/
theorem memWrite_unmapped {s : State} {a : Nat} {bs : List Byte} (hw : a / 8 = (a + bs.length - 1) / 8) (h : isMemory s a = false) :
    (memWrite s a bs).mem.cells = s.mem.cells := by
  cases bs with
  | nil => rfl
  | cons b bs =>
    have hd : (b :: bs).drop (8 - a % 8) = [] := by
      refine List.drop_eq_nil_of_le ?_
      rw [List.length_cons] at hw ⊢
      omega
    have hempty : ∀ n t x, memWriteWords n t x [] = t := by
      intro n t x
      cases n <;> rfl
    unfold memWrite
    rw [memWriteWords, if_neg (by simp)]
    dsimp only
    rw [hd, hempty]
    unfold writeInWord
    rw [if_pos (by simp [h])]
    rfl

/-! ### Accesses of the Hearth -/

theorem accessWords_word {a : Nat} (h : a % 8 = 0) : accessWords a 8 = [a] := by
  have hone : (a + 8 - 1) / 8 - a / 8 + 1 = 1 := by omega
  unfold accessWords
  rw [if_neg (by omega), hone, List.range_one, List.map_cons, List.map_nil, Nat.add_zero, Nat.div_mul_cancel (Nat.dvd_of_mod_eq_zero h)]

theorem hearthWord_clean {s : State} (hs : s.mem.synd = []) (hm : s.mem.merge = []) {w : Nat} (hw : w % 8 = 0) (h : isMemory s w = true)
    (bs : List Byte) : hearthWord (s, bs, none) w = (s, bs ++ cellsGet s.mem.cells w 8, none) := by
  obtain ⟨hst, hbad⟩ := memRead_clean hs (rangeOk_word hw h)
  unfold hearthWord
  dsimp only
  rw [if_pos h, hst, hbad, memRead_clean_bytes hs hm]
  rfl

/-- Words of clean memory read one after another give their bytes in a row. -/
theorem foldl_hearthWord_clean {s : State} (hs : s.mem.synd = []) (hm : s.mem.merge = []) (q : Nat) : ∀ c : Nat,
    (∀ i, i < c → isMemory s ((q + i) * 8) = true) →
    ((List.range c).map (fun i => (q + i) * 8)).foldl hearthWord (s, [], none) = (s, cellsGet s.mem.cells (q * 8) (c * 8), none)
  | 0, _ => by rw [Nat.zero_mul]; rfl
  | c + 1, h => by
    rw [List.range_succ, List.map_append, List.foldl_append, foldl_hearthWord_clean hs hm q c (fun i hi => h i (by omega)), List.map_cons,
      List.map_nil, List.foldl_cons, List.foldl_nil, hearthWord_clean hs hm (by omega) (h c (by omega)), Nat.add_mul, Nat.add_mul, Nat.one_mul,
      ← cellsGet_add]

theorem hearthLoad_clean {s : State} (hs : s.mem.synd = []) (hm : s.mem.merge = []) {a n : Nat} (hn : 0 < n)
    (h : ∀ w ∈ accessWords a n, isMemory s w = true) : hearthLoad s a n = emitOut s (.hearthData (cellsGet s.mem.cells a n)) := by
  have hwords : accessWords a n = (List.range ((a + n - 1) / 8 - a / 8 + 1)).map (fun i => (a / 8 + i) * 8) := if_neg (by omega)
  unfold hearthLoad
  rw [hwords] at h ⊢
  rw [foldl_hearthWord_clean hs hm _ _ (fun i hi => h _ (List.mem_map.2 ⟨i, List.mem_range.2 hi, rfl⟩))]
  dsimp only
  obtain ⟨k, hk⟩ : ∃ k, ((a + n - 1) / 8 - a / 8 + 1) * 8 = a % 8 + (n + k) := ⟨((a + n - 1) / 8 - a / 8 + 1) * 8 - (a % 8 + n), by omega⟩
  rw [hk, take_drop_cellsGet, Nat.div_add_mod']

theorem length_leBytes : ∀ n v : Nat, (leBytes n v).length = n
  | 0, _ => rfl
  | n + 1, v => by rw [leBytes, List.length_cons, length_leBytes]

/-- A load of one word outside memory: the register it names, or an access fault. -/
theorem hearthLoad_register {s : State} {a : Nat} (ha : a % 8 = 0) (h : isMemory s a = false) : hearthLoad s a 8 =
    match regRead s a with
    | some v => emitOut s (.hearthData (leBytes 8 v.toNat))
    | none => emitOut s (.hearthFault (BitVec.ofNat 64 a)) := by
  unfold hearthLoad
  rw [accessWords_word ha, List.foldl_cons, List.foldl_nil]
  unfold hearthWord
  dsimp only
  rw [if_neg (by simp [h]), ha]
  cases regRead s a with
  | none => rfl
  | some v =>
    dsimp only
    rw [List.nil_append, List.drop_zero, List.take_of_length_le (by rw [length_leBytes])]

/-- The word of a page: read through the register window. -/
theorem placeOf_page {s : State} {a : Nat} {u : Uid} {off : Nat} (h : placeOf s a = .page u off) :
    isMemory s a = false ∧ regRead s a = some (ucpRead s u off) := by
  unfold isMemory regRead
  rw [h]
  exact ⟨rfl, rfl⟩

theorem placeOf_unmapped {s : State} {a : Nat} (h : placeOf s a = .unmapped) : isMemory s a = false ∧ regRead s a = none := by
  unfold isMemory regRead
  rw [h]
  exact ⟨rfl, rfl⟩

/-! ### Writes of unit pages -/

theorem regWrite_page {s : State} {who : Requester} {a : Nat} {v : Word} {u : Uid} {off : Nat} (ha : a % 8 = 0) (h : placeOf s a = .page u off) :
    regWrite s who a v = ucpWrite s who u off a v := by
  unfold regWrite
  rw [if_neg (by omega), h]

/-- A write of ones in whose cycle hardware sets nothing clears, and does no more. -/
theorem stickyWrite_no_set {s : State} {u : Uid} {v : Word} (hl : keyLevel u.toNat ≠ 5) :
    stickyWrite s u v 0 = pageMod s (uidKey u) (fun p => { p with sticky := p.sticky &&& ~~~ (v &&& stickyMask) }) := by
  have hmask : v &&& stickyMask &&& ~~~ (0 : Word) = v &&& stickyMask := BitVec.and_allOnes
  have hnone : (List.range 21).filter (fun b => (0 : Word).getLsbD b) = [] := rfl
  rw [stickyWrite_eq hl, hnone, List.foldl_nil, hmask]

theorem ucpWrite_hearth_other {s : State} {u : Uid} {off a : Nat} {v : Word} (h1 : off ≠ 0x10) (h2 : off ≠ 0x60) :
    ucpWrite s .hearth u off a v = emitOut s (.hearthFault (BitVec.ofNat 64 a)) := by
  unfold ucpWrite
  dsimp only
  rw [if_neg h1, if_neg h2]
  rfl

end Sys2Proof.Laws

namespace Sys2Proof

open Machine Laws

/-- Settles O6. A write of a tier puts its bytes into the cells and nothing else (`memWrite_clean`), where a read finds them; a range that
starts outside memory fails there (`firstUnmapped_start`). -/
theorem memoryReadAfterWrite : Obligations.MemoryReadAfterWrite := by
  unfold Obligations.MemoryReadAfterWrite
  intro s a bs hk hc
  have cells : sparseWf 0 s.mem.cells = true := (memWf_iff.1 hk.1).1
  refine ⟨fun ha hm hr => ?_, fun n hn h => ⟨_, memRead_unmapped hc.1 hn h, Nat.div_mul_le_self a 8⟩, fun b hw h => by rw [memWrite_unmapped hw h]⟩
  obtain ⟨inj, hput⟩ := memWrite_clean hc ha hm
  have clean : (memPut s a bs inj).mem.synd = [] := hc.1
  rw [hput]
  refine ⟨?_, (memRead_clean clean hr).2, fun b hb => ?_⟩
  · exact (memRead_clean_bytes_below clean ha).trans (cellsGet_cellsPut cells)
  · exact (cellGet_cellsPut cells).trans (if_neg (by omega))

/-- Settles O11. Each word of a load of clean memory gives its bytes (`hearthWord_clean`), and an unmapped word has no register to read. -/
theorem hearthAccess : Obligations.HearthAccess := by
  unfold Obligations.HearthAccess
  refine ⟨fun s addr n hc hm hn h => ?_, fun s addr bs h => ?_, fun s addr ha hp => ?_⟩
  · exact congrArg Host.Outcome.next (hearthLoad_clean hc.1 hm hn h)
  · exact congrArg Host.Outcome.next (if_pos (List.all_eq_true.2 h))
  · obtain ⟨hm, hr⟩ := placeOf_unmapped hp
    refine congrArg Host.Outcome.next ((hearthLoad_register ha hm).trans ?_)
    rw [hr, BitVec.ofNat_toNat, BitVec.setWidth_eq]

/-- Settles O12. A write of a page is one of `ucpWrite`'s cases by requester and offset; a load reads the register. -/
theorem pageWriteRights : Obligations.PageWriteRights := by
  unfold Obligations.PageWriteRights
  refine ⟨fun s a v u ha hp hl => ?_, fun s a v u ha hp => ?_, fun s a v u off ha hp h1 h2 => ?_, fun s a v u ha hp => ?_,
    fun s a v u off ha hp => ⟨?_, ?_⟩, fun s a u off ha hp => ?_⟩
  · exact congrArg Host.Outcome.next ((regWrite_page ha hp).trans (stickyWrite_no_set hl))
  · exact congrArg Host.Outcome.next (regWrite_page ha hp)
  · refine congrArg Host.Outcome.next ((regWrite_page ha hp).trans ((ucpWrite_hearth_other h1 h2).trans ?_))
    rw [BitVec.ofNat_toNat, BitVec.setWidth_eq]
  · exact congrArg Host.Outcome.next (regWrite_page ha hp)
  · exact congrArg Host.Outcome.next (regWrite_page ha hp)
  · exact congrArg Host.Outcome.next (regWrite_page ha hp)
  · obtain ⟨hm, hr⟩ := placeOf_page hp
    refine congrArg Host.Outcome.next ((hearthLoad_register ha hm).trans ?_)
    rw [hr]

end Sys2Proof
end

section
/-!
PROOFS. Comparators (R19): what a write of a deadline and a firing leave of the pages, and that what the owner does keeps FIRED.
-/
namespace Sys2Proof.Laws

open Sys2Proof.Machine

/-! ### Fields of a page's comparators -/

theorem wdGet_wdWrite {p : UnitPage} {k c : Nat} {v : Word} (hk : k < 4) (hc : c < 4) : wdGet (wdWrite p k v) c = if c = k then v else wdGet p c := by
  interval_cases k <;> interval_cases c <;> rfl

theorem wdHeld_wdWrite (p : UnitPage) (k c : Nat) (v : Word) : wdHeld (wdWrite p k v) c = wdHeld p c := by
  unfold wdWrite wdSet
  split <;> rfl

theorem wdCtrl_wdWrite (p : UnitPage) (k : Nat) (v : Word) : (wdWrite p k v).wdCtrl = p.wdCtrl := by
  unfold wdWrite wdSet
  split <;> rfl

theorem wdFired_wdFire (p : UnitPage) {c : Nat} (hc : c < 4) : wdFired (wdFire p c) c = true := by
  have hlt : 8 * c < 32 := by omega
  unfold wdFired wdFire
  rw [BitVec.getLsbD_or, BitVec.getLsbD_ofNat, Nat.testBit_two_pow_self, decide_eq_true hlt]
  exact Bool.or_true _

/-- FIRED stands below OWNER in a comparator's byte. -/
theorem wdOwner_wdFire (p : UnitPage) {c : Nat} (hc : c < 4) : wdOwner (wdFire p c) c = wdOwner p c := by
  have hlt : 2 ^ (8 * c) < 2 ^ 32 := Nat.pow_lt_pow_right (by omega) (by omega)
  unfold wdOwner wdFire bits
  dsimp only
  rw [BitVec.toNat_or, BitVec.toNat_ofNat, Nat.mod_eq_of_lt hlt]
  refine Nat.eq_of_testBit_eq (fun i => ?_)
  have hne : ¬8 * c = 8 * c + 4 + i := by omega
  simp only [Nat.testBit_mod_two_pow, Nat.testBit_div_two_pow, Nat.testBit_or, Nat.testBit_two_pow, Nat.add_comm i, hne, decide_false, Bool.or_false]

/-! ### Updates that keep what events do not write -/

section
variable {γ : Type} {g : UnitState → γ}

/-- `g` reads nothing that counting and sticky bits write. -/
structure BlindToEvents (g : UnitState → γ) : Prop where
  counters : ∀ u cs, g { u with page := { u.page with counters := cs } } = g u
  sticky : ∀ u x, g { u with page := { u.page with sticky := x } } = g u
  fresh : ∀ u x, g { u with page := { u.page with fresh := x } } = g u

theorem stickySet_keepsUnits (hg : BlindToEvents g) (s : State) (k b : Nat) : KeepsUnits g s (stickySet s k b) := by
  refine KeepsUnits.trans (unitMod_keepsUnits (fun u => ?_)) (.of_pages (stickySet_pages s k b))
  unfold markSticky
  split
  · exact hg.fresh ..
  · exact hg.sticky ..

theorem eccLog_keepsUnits (hg : BlindToEvents g) (s : State) (a : Nat) (sy : BitVec 8) (kind : BitVec 2) : KeepsUnits g s (eccLog s a sy kind) := by
  unfold eccLog
  dsimp only
  refine KeepsUnits.trans (KeepsUnits.trans ?_ (count_keepsUnits hg.counters ..)) (stickySet_keepsUnits hg ..)
  split <;> exact .of_units rfl

theorem eccEvent_keepsUnits (hg : BlindToEvents g) (s : State) (a : Nat) (sy : BitVec 8) (kind : BitVec 2) : KeepsUnits g s (eccEvent s a sy kind) := by
  unfold eccEvent
  dsimp only
  split
  · exact eccLog_keepsUnits hg ..
  · exact (eccLog_keepsUnits hg ..).trans (.of_units (repairEvent_units ..))

theorem readWord_keepsUnits (hg : BlindToEvents g) (s : State) (a : Nat) : KeepsUnits g s (readWord s a).1 := by
  unfold readWord
  split
  · exact .of_units rfl
  · split
    · exact .of_units rfl
    · exact (eccEvent_keepsUnits hg ..).trans (.of_units rfl)
    · exact (eccEvent_keepsUnits hg ..).trans (.of_units rfl)
    · exact eccEvent_keepsUnits hg ..
    · exact eccEvent_keepsUnits hg ..

theorem rmwWord_keepsUnits (hg : BlindToEvents g) (s : State) (a : Nat) (bs : List Byte) : KeepsUnits g s (rmwWord s a bs) :=
  (readWord_keepsUnits hg s (a / 8 * 8)).trans (.of_units (afterRead_units (readWord s (a / 8 * 8)) ..))

theorem mergeFlushEntry_keepsUnits (hg : BlindToEvents g) (s : State) (b : Nat) (e : MergeEntry) : KeepsUnits g s (mergeFlushEntry s b e) := by
  have dropped : KeepsUnits g s { s with mem := mergeDrop s.mem b e.addr } := .of_units rfl
  unfold mergeFlushEntry
  dsimp only
  split
  · exact dropped.trans (.of_units (storeWord_units ..))
  · exact dropped.trans ((readWord_keepsUnits hg ..).trans (.of_units (afterRead_units (readWord _ e.addr) ..)))

theorem mergeWrite_keepsUnits (hg : BlindToEvents g) (s : State) (b a : Nat) (bs : List Byte) : KeepsUnits g s (mergeWrite s b a bs) := by
  have put : ∀ es, KeepsUnits g s { s with mem := mergePut s.mem b es } := fun _ => .of_units rfl
  unfold mergeWrite
  extract_lets w es s1 e'
  clear_value es
  split
  · dsimp only
    split
    · exact (put _).trans (mergeFlushEntry_keepsUnits hg ..)
    · exact put _
  · have h1 : KeepsUnits g s s1 := by
      unfold s1
      split
      · split
        · exact mergeFlushEntry_keepsUnits hg ..
        · exact .of_units rfl
      · exact .of_units rfl
    exact ⟨h1.rises, h1.same⟩

theorem writeInWord_keepsUnits (hg : BlindToEvents g) (s : State) (a : Nat) (bs : List Byte) : KeepsUnits g s (writeInWord s a bs) := by
  unfold writeInWord
  split
  · exact .of_units rfl
  · split
    · exact .of_units (storeWord_units ..)
    · split
      · exact mergeWrite_keepsUnits hg ..
      · exact rmwWord_keepsUnits hg ..

theorem memWriteWords_keepsUnits (hg : BlindToEvents g) : ∀ (n : Nat) (s : State) (a : Nat) (bs : List Byte), KeepsUnits g s (memWriteWords n s a bs)
  | 0, _, _, _ => .of_units rfl
  | n + 1, s, a, bs => by
    rw [memWriteWords]
    split
    · exact .of_units rfl
    · exact (writeInWord_keepsUnits hg ..).trans (memWriteWords_keepsUnits hg n ..)

/-- What a write of memory changes of a unit are its counters and sticky bits. -/
theorem memWrite_keepsUnits (hg : BlindToEvents g) (s : State) (a : Nat) (bs : List Byte) : KeepsUnits g s (memWrite s a bs) :=
  memWriteWords_keepsUnits hg ..

/-! ### Completions -/

theorem postMessage_keepsUnits (hg : BlindToEvents g) (s : State) (k : Nat) (m : List Byte) : KeepsUnits g s (postMessage s k m) := by
  unfold postMessage
  extract_lets p a s1
  have h1 : KeepsUnits g s s1 := (memWrite_keepsUnits hg s a m).trans (.of_units rfl)
  split
  · exact .of_units rfl
  · split
    · exact h1.trans (.of_units rfl)
    · exact h1

theorem complete_keepsUnits (hg : BlindToEvents g) (s : State) (c : BitVec 12) (tag : BitVec 16) (k : Nat) (st : BitVec 16) (b : List Byte) :
    KeepsUnits g s (complete s c tag k st b) := by
  unfold complete
  split
  · exact .of_units rfl
  · extract_lets v s1 m s2
    have h2 : KeepsUnits g s s2 := (KeepsUnits.of_units (s := s) (t := s1) rfl).trans (postMessage_keepsUnits hg s1 k m)
    split
    · split
      · exact h2.trans (.of_units rfl)
      · exact h2
    · exact .of_units rfl

theorem writeSums_keepsUnits (hg : BlindToEvents g) (s : State) (j : Job) : KeepsUnits g s (writeSums s j) :=
  foldl_keepsUnits (fun t _ => memWrite_keepsUnits hg t _ _) _ s

end

/-- WD_CTRL, with the FIRED bits of a unit's comparators. -/
def wdCtrlOf (u : UnitState) : BitVec 32 := u.page.wdCtrl

theorem wdCtrlOf_blind : BlindToEvents wdCtrlOf := ⟨fun _ _ => rfl, fun _ _ => rfl, fun _ _ => rfl⟩

theorem deadlineComparators_keepsWdCtrl (s : State) : KeepsUnits wdCtrlOf s (deadlineComparators s) := by
  unfold deadlineComparators
  extract_lets due d q put s1
  have hput : ∀ t k v, KeepsUnits wdCtrlOf t (put t k v) := by
    intro t k v
    unfold put
    split
    · exact .of_units rfl
    · exact unitMod_keepsUnits (fun u => wdCtrl_wdWrite u.page k v)
  have h1 : KeepsUnits wdCtrlOf s s1 := by
    unfold s1
    split
    · exact hput ..
    · exact .of_units rfl
  split
  · exact h1.trans (hput ..)
  · exact h1

theorem finishJob_keepsWdCtrl (s : State) (j : Job) : KeepsUnits wdCtrlOf s (finishJob s j) := by
  unfold finishJob
  extract_lets s1 s2 ended drop q s3
  have h1 : KeepsUnits wdCtrlOf s s1 := by
    unfold s1
    split
    · exact .of_units rfl
    · exact writeSums_keepsUnits wdCtrlOf_blind s j
  have h3 : KeepsUnits wdCtrlOf s1 s3 := .of_units rfl
  exact h1.trans (h3.trans ((deadlineComparators_keepsWdCtrl s3).trans (complete_keepsUnits wdCtrlOf_blind ..)))

theorem completeRemoved_keepsWdCtrl (s : State) : KeepsUnits wdCtrlOf s (completeRemoved s) := foldl_keepsUnits finishJob_keepsWdCtrl _ s

/-! ### A fault that is detected -/

theorem noteLast_units (s : State) (p : Option Partition) : (noteLast s p).units = s.units := by
  unfold noteLast
  split <;> rfl

theorem dropActs_units (s : State) (j : Job) (u : Uid) : (dropActs s j u).units = s.units := by
  unfold dropActs
  split <;> rfl

theorem joinHold_units (s : State) (h : Hold) (p : Partition) (st : Option (BitVec 16)) : (joinHold s h p st).1.units = s.units := by
  unfold joinHold
  dsimp only
  split <;> rfl

theorem detectOutside_units (s : State) (p : Partition) : (detectOutside s p).units = s.units := by
  unfold detectOutside
  split
  · rfl
  · split
    · rfl
    · exact noteLast_units ..

/-- A fault's detection itself changes at most a counter of the device: the notice may find no port. -/
theorem detectFault_keepsUnits {γ : Type} {g : UnitState → γ} (hg : ∀ u cs, g { u with page := { u.page with counters := cs } } = g u) (s : State)
    (c : Nat) (u : Uid) (r : Option (Bool × Bool)) (q : List (BitVec 12 × Nat × BitVec 16 × Nat)) : KeepsUnits g s (detectFault s c u r q) := by
  unfold detectFault
  extract_lets k d sel mk
  split
  · exact .of_units (detectOutside_units ..)
  · extract_lets p s1
    have h1 : KeepsUnits g s s1 := (KeepsUnits.of_units (dropActs_units ..)).trans (sendTo_keepsUnits hg ..)
    split
    · exact h1.trans (.of_units ((noteLast_units ..).trans (joinHold_units ..)))
    · exact h1.trans (.of_units (noteLast_units ..))

/-- The page's sticky bits, those shown and those raised in the strike (R49). -/
def raisedBits (u : UnitState) : Word := u.page.sticky ||| u.page.fresh

theorem getLsbD_raisedBits_markSticky (d : Bool) (p : UnitPage) (f : UnitFlags) (m : Word) (i : Nat) (h : m.getLsbD i = true) :
    (raisedBits ⟨markSticky d p m, f⟩).getLsbD i = true := by
  unfold raisedBits markSticky
  split <;> simp [BitVec.getLsbD_or, h]

theorem stickyRaised_stickySet {s : State} (h : Rises s.units.pages) (k : Nat) {b : Nat} (hb : b < 64) : stickyRaised (stickySet s k b) k b := by
  have hbit : (BitVec.ofNat 64 (2 ^ b) : Word).getLsbD b = true := by
    rw [BitVec.getLsbD_ofNat, Nat.testBit_two_pow_self, decide_eq_true hb]
    rfl
  unfold stickyRaised
  rw [unitGet_stickySet h, if_pos rfl]
  exact getLsbD_raisedBits_markSticky _ _ (unitGet s k).flags _ _ hbit

/-! ### A comparator fires -/

/-- What the owner of a comparator does leaves FIRED. -/
theorem ownerActs_keepsWdCtrl (s : State) (u : Uid) (k c : Nat) : KeepsUnits wdCtrlOf s (ownerActs s u k c) := by
  unfold ownerActs
  split
  · split
    · exact (stickySet_keepsUnits wdCtrlOf_blind ..).trans (detectFault_keepsUnits wdCtrlOf_blind.counters ..)
    · exact .of_units rfl
  · split
    · split
      · exact .of_units rfl
      · exact .of_units rfl
    · exact (KeepsUnits.of_units (s := s) (t := dropQueued s _ _) rfl).trans (completeRemoved_keepsWdCtrl _)
  · exact .of_units rfl

/-- The budget's owner raises BUDGET_OVERRUN while a plan runs (R124). -/
theorem ownerActs_budget {s : State} (h : Rises s.units.pages) {u : Uid} {k c : Nat} (ho : wdOwner (unitGet s k).page c = 1)
    (hj : (runningJob s).isSome = true) : stickyRaised (ownerActs s u k c) k 16 := by
  obtain ⟨j, hj⟩ := Option.isSome_iff_exists.1 hj
  have hacts : ownerActs s u k c = detectFault (stickySet s k 16) 16 u none [] := by
    unfold ownerActs
    simp only [ho, hj]
  unfold stickyRaised
  rw [hacts]
  have hkeep := (detectFault_keepsUnits (g := raisedBits) (fun _ _ => rfl) (stickySet s k 16) 16 u none []).same (stickySet_rises h) k
  exact (congrArg (fun w : Word => w.getLsbD 16) hkeep).trans (stickyRaised_stickySet (b := 16) h k (by omega))

end Sys2Proof.Laws

namespace Sys2Proof

open Machine Laws

/-- Settles O16. The write lands in the page (`wdGet_wdWrite`); a firing sets FIRED, which what its owner does keeps (`ownerActs_keepsWdCtrl`). -/
theorem comparators : Obligations.Comparators := by
  unfold Obligations.Comparators
  refine ⟨fun s u k value hk hp hlt => ?_, fun s u c hd hl hc ho he hv hn ht hm hk => ?_, fun s u c hm => ?_, fun s u c hn => ?_⟩
  · have hx : exec (.watchdogDeadlineWrite u k value) s = .next (pageMod s (targetPageKey u) (fun p => wdWrite p k value)) :=
      congrArg Host.Outcome.next (if_pos (by simp [hp, hlt]))
    have hget : ∀ a, unitGet (pageMod s (targetPageKey u) (fun p => wdWrite p k value)) a = _ := fun a => unitGet_pageMod hk.2
    refine ⟨_, hx, ?_, fun c hc hne => ?_, fun c hc => ?_, fun a ha => ?_, pageMod_mem ..⟩
    · rw [hget, if_pos rfl, wdGet_wdWrite hlt hlt, if_pos rfl]
    · rw [hget, if_pos rfl, wdGet_wdWrite hlt hc, if_neg hne]
    · rw [hget, if_pos rfl, wdHeld_wdWrite]
    · rw [hget, if_neg ha]
  · have hnever : deadlineOf s (uidKey u) c ≠ neverWord := hn
    have hx : exec (.comparatorFire u c) s = .next (ownerActs (pageMod s (uidKey u) (fun p => wdFire p c)) u (uidKey u) c) :=
      congrArg Host.Outcome.next (if_pos (by simp [hd, hl, hc, ho, he, hv, hnever, ht, hm]))
    have hr : Rises (pageMod s (uidKey u) (fun p => wdFire p c)).units.pages := pageMod_rises hk.2
    have hpage : (unitGet (pageMod s (uidKey u) (fun p => wdFire p c)) (uidKey u)).page = wdFire (unitGet s (uidKey u)).page c := by
      rw [unitGet_pageMod hk.2, if_pos rfl]
    refine ⟨_, hx, ?_, fun howner hj => ownerActs_budget hr ?_ hj⟩
    · have hctrl : (unitGet (ownerActs _ u (uidKey u) c) (uidKey u)).page.wdCtrl = _ := (ownerActs_keepsWdCtrl _ u (uidKey u) c).same hr (uidKey u)
      unfold wdFired
      rw [hctrl, wdCtrlOf, hpage]
      exact wdFired_wdFire _ hc
    · rw [hpage, wdOwner_wdFire _ hc, howner]
  · exact congrArg Host.Outcome.next (if_neg (by simp [hm]))
  · exact congrArg Host.Outcome.next (if_neg (by simp [hn, neverWord]))

end Sys2Proof
end

section
/-!
PROOFS. The canonical form of memory and the unit pages (R15, R297) through the boot and the request rings. Each lemma
follows the branches of one function of the model and cites the lemma of what the branch does.
-/
namespace Sys2Proof.Laws

open Sys2Proof.Machine

/-! ### Outcomes, folds and pairs -/

/-- What a command makes of the state, where it makes one, is in canonical form. -/
def NextKept (o : Host.Outcome State Fault Refusal) : Prop := ∀ t, o = .next t → Form t

theorem nextKept {s : State} (h : Form s) : NextKept (.next s) := fun _ e => by
  cases e
  exact h

theorem nextKept_fault {f : Fault} : NextKept (.fault f) := fun _ e => by cases e

theorem form_fst_of_eq {α : Type} {r : State × α} {t : State} {a : α} (h : Form r.1) (e : r = (t, a)) : Form t := by
  rw [e] at h
  exact h

theorem form_ite {c : Prop} [Decidable c] {s t : State} (hs : Form s) (ht : Form t) : Form (if c then s else t) := by
  split
  · exact hs
  · exact ht

/-- As `foldl_kept`, for an accumulator `σ` that carries more beside the state `p` gives. -/
theorem foldl_proj_kept {σ β : Type} (p : σ → State) {f : σ → β → σ} (hf : ∀ acc x, Form (p acc) → Form (p (f acc x))) :
    ∀ {l : List β} {acc : σ}, Form (p acc) → Form (p (l.foldl f acc))
  | [], _, h => h
  | x :: l, acc, h => by
    rw [List.foldl_cons]
    exact foldl_proj_kept p hf (hf acc x h)

/-- Only four parts of memory and the unit pages bear on the form. -/
theorem form_of_parts {s t : State} (h : Form s) (hc : t.mem.cells = s.mem.cells) (hs : t.mem.synd = s.mem.synd)
    (hm : t.mem.merge = s.mem.merge) (hk : t.mem.checkers = s.mem.checkers) (hp : t.units.pages = s.units.pages) : Form t := by
  rw [form_iff] at *
  rw [hc, hs, hm, hk, hp]
  exact h

/-! ### Accesses behind variables, where a check of a proof would evaluate one -/

theorem exists_memRead_kept : ∃ rd : State → Nat → Nat → ReadOut, memRead = rd ∧ ∀ {s a n}, Form s → Form (rd s a n).st :=
  ⟨_, rfl, memRead_kept⟩

theorem exists_memWrite_kept : ∃ wr : State → Nat → List Byte → State, memWrite = wr ∧ ∀ {s a bs}, Form s → Form (wr s a bs) :=
  ⟨_, rfl, memWrite_kept⟩

/-! ### Outputs and remaps -/

theorem emitOut_kept {s : State} {o : Output} (h : Form s) : Form (emitOut s o) := form_of_eq h rfl rfl

theorem drawFree_kept {s : State} (h : Form s) : Form (drawFree s).2 :=
  form_of_eq h rfl rfl

theorem installRemap_kept {s : State} {c inst idx a : Nat} {isUe : Bool} (h : Form s) : Form (installRemap s c inst idx a isUe) := by
  unfold installRemap
  extract_lets _ _ _
  split
  · refine logPersistent_kept ?_
    refine checkerMod_kept ?_
    split
    · exact poisonWord_kept h
    · exact h
  · exact checkerMod_kept h

theorem installRemaps_kept {s : State} (h : Form s) : Form (installRemaps s) :=
  foldl_kept (fun _ _ ht => foldl_kept (fun _ _ ht => installRemap_kept ht) (checkerMod_kept ht)) h

/-! ### Groups of units -/

theorem settleGroups_kept {s : State} (h : Form s) : Form (settleGroups s) := by
  unfold settleGroups
  refine foldl_kept (fun _ _ ht => ?_) h
  extract_lets _
  split
  · exact flagsMod_kept ht
  · exact ht

/-! ### Configuration sets -/

theorem noteEpoch_kept {s : State} (h : Form s) : Form (noteEpoch s) := by
  unfold noteEpoch
  extract_lets _ _
  split
  · split
    · exact h
    · exact form_of_eq h rfl rfl
  · exact form_of_eq h rfl rfl

theorem loadUnitCfg_kept {s : State} {k : Nat} (h : Form s) : Form (loadUnitCfg s k) := noteEpoch_kept (pageMod_kept h)

theorem loadDeviceCfg_kept {s : State} (h : Form s) : Form (loadDeviceCfg s) := form_of_eq h rfl rfl

theorem loadPending_kept {s : State} {route : List (BitVec 32)} (h : Form s) : Form (loadPending s route) := by
  unfold loadPending
  split
  · exact h
  · split
    · exact form_of_eq h rfl rfl
    · exact form_of_eq h rfl rfl

theorem switchBank_kept {s : State} {epoch : BitVec 32} (h : Form s) : Form (switchBank s epoch) := form_of_eq h rfl rfl

theorem loadRouting_kept {s : State} {route : List (BitVec 32)} {epoch : BitVec 32} (h : Form s) : Form (loadRouting s route epoch) := by
  unfold loadRouting
  split
  · exact form_of_eq h rfl rfl
  · exact switchBank_kept (loadPending_kept h)

theorem reloadRouting_kept {s : State} (h : Form s) : Form (reloadRouting s) := form_of_eq h rfl rfl

theorem pushSet_kept {s : State} {k : Nat} {c : ConfigSet} (h : Form s) : Form (pushSet s k c) := form_of_eq h rfl rfl

theorem popSet_kept {s : State} {k : Nat} (h : Form s) : Form (popSet s k) := by
  unfold popSet
  split
  · exact form_of_eq h rfl rfl
  · exact h

theorem measure_kept {s : State} {i : Nat} {d : Digest} (h : Form s) : Form (Machine.measure s i d) := form_of_eq h rfl rfl

theorem cseSign_kept {s : State} {d : Digest} (h : Form s) : Form (cseSign s d).1 := by
  unfold cseSign
  split
  · exact h
  · exact form_of_eq h rfl rfl

/-! ### Power and boot -/

theorem portMod_kept {s : State} {p : Nat} {f : WeldPort → WeldPort} (h : Form s) : Form (portMod s p f) := form_of_eq h rfl rfl

theorem closeBypasses_kept {s : State} (h : Form s) : Form (closeBypasses s) := emitOut_kept (forKeys_kept (fun _ _ ht => portMod_kept ht) h)

theorem openBypasses_kept {s : State} (h : Form s) : Form (openBypasses s) := emitOut_kept (forKeys_kept (fun _ _ ht => portMod_kept ht) h)

theorem setXPair_kept {s : State} {isOpen : Bool} (h : Form s) : Form (setXPair s isOpen) :=
  form_of_eq (forKeys_kept (fun _ _ ht => portMod_kept ht) h) rfl rfl

theorem adoptMap_kept {s : State} {m : List Byte} (h : Form s) : Form (adoptMap s m) := by
  unfold adoptMap
  extract_lets _ _ _ _ s1
  have hs1 : Form s1 := measure_kept (form_of_eq h rfl rfl)
  split
  · exact hs1
  · exact closeBypasses_kept (fenceUnit_kept hs1)

theorem sendOnPort_kept {s : State} {p : Nat} {m : CtlMsg} (h : Form s) : Form (sendOnPort s p m) := by
  unfold sendOnPort
  split
  · exact portMod_kept h
  · exact emitOut_kept h

theorem floodMsg_kept {s : State} {type : Nat} {b : CtlBody} (h : Form s) : Form (floodMsg s type b) :=
  foldl_kept (fun _ _ ht => sendOnPort_kept ht) (form_of_eq h rfl rfl)

theorem routeMsg_kept {s : State} {m : CtlMsg} (h : Form s) : Form (routeMsg s m) := by
  unfold routeMsg
  split
  · exact sendOnPort_kept h
  · exact count_kept h

theorem sendTo_kept {s : State} {ds : List Nat} {type : Nat} {b : CtlBody} (h : Form s) : Form (sendTo s ds type b) := by
  refine foldl_kept (fun t d ht => routeMsg_kept ?_) h
  exact form_of_eq ht rfl rfl

theorem loadFlashSets_kept {s : State} {k : Nat} (h : Form s) : Form (loadFlashSets s k) :=
  loadUnitCfg_kept (form_of_eq (foldl_kept (fun _ _ ht => logPersistent_kept ht) h) rfl rfl)

theorem reinstallRemaps_kept {s : State} (h : Form s) : Form (reinstallRemaps s) := by
  unfold reinstallRemaps
  refine foldl_kept (fun _ _ ht => ?_) h
  split
  · exact checkerMod_kept ht
  · exact ht

theorem repairRows_kept {s : State} (h : Form s) : Form (repairRows s) := foldl_kept (fun _ _ ht => checkerMod_kept ht) (form_of_eq h rfl rfl)

theorem powerUpTest_kept {s : State} {c : Nat} (h : Form s) : Form (powerUpTest s c) := logPersistent_kept h

theorem startVirian_kept {s : State} {img : List Byte} (h : Form s) : Form (startVirian s img) := by
  unfold startVirian
  extract_lets _ s1 s2 s3 s4 s5 s6 s7 s8
  have hs1 : Form s1 := measure_kept (form_of_eq h rfl rfl)
  have hs2 : Form s2 := form_ite (adoptMap_kept hs1) hs1
  have hs3 : Form s3 := foldl_kept (fun _ _ ht => loadFlashSets_kept ht) hs2
  have hs4 : Form s4 := reloadRouting_kept (loadDeviceCfg_kept hs3)
  have hs5 : Form s5 := measure_kept hs4
  have hs6 : Form s6 := repairRows_kept (reinstallRemaps_kept hs5)
  have hs7 : Form s7 := forKeys_kept (fun _ _ ht => powerUpTest_kept ht) hs6
  have hs8 : Form s8 := forKeys_kept (fun _ _ ht => checkerMod_kept ht) hs7
  split
  · exact closeBypasses_kept (fenceUnit_kept (stickySet_kept hs8))
  · exact hs8

theorem enterRecovery_kept {s : State} {stepNo : Nat} (h : Form s) : Form (enterRecovery s stepNo) :=
  logPersistent_kept (setXPair_kept (form_of_eq h rfl rfl))

/-- The device without power holds nothing of its memory and no unit. -/
theorem form_reset : Form State.reset := ⟨rfl, List.Pairwise.nil⟩

theorem powerLost_kept {s : State} {p : PowerState} : Form (powerLost s p) := form_of_eq form_reset rfl rfl

theorem execPowerInputValid_kept {presentLow : Bool} {s : State} (h : Form s) : NextKept (execPowerInputValid presentLow s) := by
  unfold execPowerInputValid
  refine nextKept ?_
  split
  · exact emitOut_kept (form_of_eq h rfl rfl)
  · exact h

theorem execRailPowerFailure_kept {step : Nat} {s : State} (h : Form s) : NextKept (execRailPowerFailure step s) := by
  unfold execRailPowerFailure
  refine nextKept ?_
  split
  · split
    · exact emitOut_kept (emitOut_kept (form_of_eq h rfl rfl))
    · exact emitOut_kept (form_of_eq h rfl rfl)
  · exact h

theorem execPowerRetry_kept {s : State} (h : Form s) : NextKept (execPowerRetry s) := by
  unfold execPowerRetry
  refine nextKept ?_
  split
  · exact emitOut_kept h
  · exact h

theorem execBrownout_kept {s : State} (h : Form s) : NextKept (execBrownout s) := by
  unfold execBrownout
  refine nextKept ?_
  split
  · exact h
  · exact emitOut_kept (closeBypasses_kept powerLost_kept)

theorem execPowerGood_kept {rebuilt : List Byte} {flashReadOk : Bool} {s : State} (h : Form s) : NextKept (execPowerGood rebuilt flashReadOk s) := by
  unfold execPowerGood
  extract_lets _ _ _ s1 m1 s2
  have hs1 : Form s1 := form_of_eq h rfl rfl
  have hm1 : Form m1 := measure_kept hs1
  have hs2 : Form s2 := form_ite hm1 (measure_kept hm1)
  refine nextKept ?_
  split
  · split
    · exact enterRecovery_kept hs2
    · exact startVirian_kept hs2
  · exact h

theorem takeImage_kept {s : State} {i : List Byte} (h : Form s) : Form (takeImage s i) := by
  unfold takeImage
  extract_lets _ t _ _
  have ht : Form t := setXPair_kept (form_of_eq h rfl rfl)
  split
  · exact ht
  · exact startVirian_kept (form_of_eq ht rfl rfl)

theorem receiveImage_kept {s : State} {src : RecoverySource} {image : List Byte} (h : Form s) : Form (receiveImage s src image) := by
  unfold receiveImage
  extract_lets _ _
  split
  · split
    · exact takeImage_kept h
    · exact form_of_eq h rfl rfl
  · exact h

theorem execRecoveryImageReceive_kept {src : RecoverySource} {image : List Byte} {s : State} (h : Form s) :
    NextKept (execRecoveryImageReceive src image s) :=
  nextKept (receiveImage_kept h)

theorem execRecoveryTransferStall_kept {s : State} (h : Form s) : NextKept (execRecoveryTransferStall s) := by
  unfold execRecoveryTransferStall
  refine nextKept ?_
  split
  · exact form_of_eq h rfl rfl
  · exact h

theorem execRecoveryXPairTimer_kept {s : State} (h : Form s) : NextKept (execRecoveryXPairTimer s) := by
  unfold execRecoveryXPairTimer
  refine nextKept ?_
  split
  · exact setXPair_kept h
  · exact h

theorem cacheOverride_kept {s : State} (h : Form s) : Form (cacheOverride s) := by
  unfold cacheOverride
  extract_lets _ _ _
  split
  · exact logPersistent_kept (form_of_eq h rfl rfl)
  · exact h

theorem execMemoryTrainingDone_kept {stacksOk : BitVec 16} {modules : List ModuleInfo} {s : State} (h : Form s) :
    NextKept (execMemoryTrainingDone stacksOk modules s) := by
  unfold execMemoryTrainingDone
  extract_lets _ _ s1 s2 s3 _
  have hs1 : Form s1 := form_of_eq h rfl rfl
  have hs2 : Form s2 := by
    unfold s2
    refine forKeys_kept (fun _ _ ht => ?_) hs1
    extract_lets _ t1
    have ht1 : Form t1 := checkerMod_kept ht
    split
    · exact ht1
    · exact flagsMod_kept ht1
  have hs3 : Form s3 := forKeys_kept (fun _ _ ht => checkerMod_kept ht) hs2
  refine nextKept ?_
  split
  · exact cacheOverride_kept (forKeys_kept (fun _ _ ht => powerUpTest_kept ht) hs3)
  · exact h

theorem execBypassClose_kept {cause : BypassCause} {s : State} (h : Form s) : NextKept (execBypassClose cause s) := by
  unfold execBypassClose
  extract_lets t _
  have ht : Form t := closeBypasses_kept h
  refine nextKept ?_
  split
  · exact form_of_eq ht rfl rfl
  · exact h

theorem execBypassOpen_kept {s : State} (h : Form s) : NextKept (execBypassOpen s) := by
  unfold execBypassOpen
  refine nextKept ?_
  split
  · exact openBypasses_kept h
  · exact h

theorem execMapAnnounceReceive_kept {m : List Byte} {s : State} (h : Form s) : NextKept (execMapAnnounceReceive m s) := by
  unfold execMapAnnounceReceive
  refine nextKept ?_
  split
  · split
    · exact adoptMap_kept h
    · exact form_of_eq h rfl rfl
  · exact h

theorem fwFinish_kept {s : State} {img : List Byte} (h : Form s) : Form (fwFinish s img) := measure_kept (form_of_eq h rfl rfl)

/-! ### Requests and responses -/

theorem pairMod_kept {s : State} {k : Nat} {f : RingPair → RingPair} (h : Form s) : Form (pairMod s k f) := form_of_eq h rfl rfl

theorem consume_kept {s : State} {k : Nat} (h : Form s) : Form (consume s k) := by
  unfold consume
  split
  · exact form_of_eq h rfl rfl
  · exact pairMod_kept h

theorem postMessage_kept {s : State} {k : Nat} {m : List Byte} (h : Form s) : Form (postMessage s k m) := by
  unfold postMessage
  extract_lets _ _ s1
  have hs1 : Form s1 := pairMod_kept (memWrite_kept h)
  split
  · exact emitOut_kept h
  · split
    · exact emitOut_kept hs1
    · exact hs1

theorem respondTo_kept {s : State} {k : Nat} {m : List Byte} {c : BitVec 12} {status : BitVec 16} {body : List Byte} (h : Form s) :
    Form (respondTo s k m c status body) :=
  postMessage_kept h

theorem respond_kept {s : State} {k : Nat} {m : List Byte} {status : BitVec 16} {body : List Byte} (h : Form s) : Form (respond s k m status body) :=
  respondTo_kept h

theorem holdRequest_kept {s : State} {k : Nat} {m : List Byte} (h : Form s) : Form (holdRequest s k m) := form_of_eq h rfl rfl

theorem respondHeld_kept {s : State} {k : Nat} {m : List Byte} {status : BitVec 16} {body : List Byte} (h : Form s) :
    Form (respondHeld s k m status body) :=
  respond_kept (form_of_eq h rfl rfl)

theorem respondAccepted_kept {s : State} {k : Nat} {m : List Byte} {body : List Byte} (h : Form s) : Form (respondAccepted s k m body) :=
  holdRequest_kept (respond_kept h)

theorem complete_kept {s : State} {client : BitVec 12} {tag : BitVec 16} {k : Nat} {status : BitVec 16} {body : List Byte} (h : Form s) :
    Form (complete s client tag k status body) := by
  unfold complete
  extract_lets _ s1
  have hs1 : Form s1 := form_of_eq h rfl rfl
  split
  · exact h
  · extract_lets _ s2
    have hs2 : Form s2 := postMessage_kept hs1
    split
    · split
      · exact emitOut_kept hs2
      · exact hs2
    · exact hs1

theorem leaseComparator_kept {s : State} (h : Form s) : Form (leaseComparator s) := by
  unfold leaseComparator
  extract_lets _ _
  split
  · exact h
  · exact pageMod_kept h

theorem renewLease_kept {s : State} {c : BitVec 12} {arrived : Nat} (h : Form s) : Form (renewLease s c arrived) :=
  leaseComparator_kept (form_of_eq h rfl rfl)

theorem modJobs_kept {s : State} {p : Job → Bool} {f : Job → Job} (h : Form s) : Form (modJobs s p f) := form_of_eq h rfl rfl

theorem endLease_kept {s : State} {c : BitVec 12} {cancelFrom : Nat} (h : Form s) : Form (endLease s c cancelFrom) := by
  unfold endLease
  extract_lets _ s0 s1 _ s2 _
  have hs0 : Form s0 := foldl_kept (fun _ _ ht => sendTo_kept ht) h
  have hs1 : Form s1 := modJobs_kept hs0
  have hs2 : Form s2 := form_of_eq hs1 rfl rfl
  exact leaseComparator_kept (form_of_eq hs2 rfl rfl)

theorem readRequest_kept {s : State} {k : Nat} (h : Form s) : Form (readRequest s k).1 := by
  unfold readRequest
  extract_lets _ r
  have hr : Form r.st := memRead_kept h
  split
  · exact h
  · split
    · exact eccLog_kept h
    · exact hr

theorem consumeUnreadable_kept {s : State} {k : Nat} (h : Form s) : Form (consumeUnreadable s k) := logPersistent_kept (consume_kept h)

theorem takeRequest_kept {s : State} {k op : Nat} {serve : State → List Byte → State} (h : Form s) (hserve : ∀ t x, Form t → Form (serve t x)) :
    Form (takeRequest s k op serve) := by
  unfold takeRequest
  extract_lets _
  split
  · exact h
  · split
    · next s1 e =>
        have hs1 : Form s1 := form_fst_of_eq (readRequest_kept h) e
        exact consumeUnreadable_kept hs1
    · next s1 _ e =>
        have hs1 : Form s1 := form_fst_of_eq (readRequest_kept h) e
        extract_lets _ s2
        have hs2 : Form s2 := form_ite (consume_kept hs1) (renewLease_kept (consume_kept hs1))
        split
        · exact h
        · split
          · exact respond_kept hs2
          · exact hserve _ _ hs2

theorem withRef_kept {s : State} {k : Nat} {m : List Byte} {a n : Nat} {f : State → List Byte → State} (h : Form s)
    (hf : ∀ t x, Form t → Form (f t x)) : Form (withRef s k m a n f) := by
  unfold withRef
  split
  · next s1 _ e =>
      have hs1 : Form s1 := form_fst_of_eq (readRef_kept h) e
      exact respond_kept hs1
  · next e => exact hf _ _ (form_fst_of_eq (readRef_kept h) e)

theorem postEvent_kept {s : State} {e : StickyEvent} {k : Nat} (h : Form s) : Form (postEvent s e k) := by
  unfold postEvent
  extract_lets _ _ s1
  have hs1 : Form s1 := pairMod_kept (memWrite_kept h)
  split
  · exact h
  · split
    · exact pairMod_kept h
    · split
      · exact emitOut_kept hs1
      · exact hs1

theorem postEventAll_kept {s : State} {e : StickyEvent} (h : Form s) : Form (postEventAll s e) := foldl_kept (fun _ _ ht => postEvent_kept ht) h

theorem noteGroups_kept {s : State} (h : Form s) : Form (noteGroups s) := by
  unfold noteGroups
  refine foldl_kept (fun _ _ ht => ?_) h
  extract_lets _ _ _ _ _ t1 _
  have ht1 : Form t1 := pageMod_kept ht
  split
  · exact ht
  · exact form_of_eq ht1 rfl rfl

theorem execStickyEventPost_kept {s : State} (h : Form s) : NextKept (execStickyEventPost s) :=
  nextKept (foldl_kept (fun _ _ ht => postEventAll_kept ht) (form_of_eq h rfl rfl))

theorem execRequestEntryUnreadable_kept {pair : Nat} {s : State} (h : Form s) : NextKept (execRequestEntryUnreadable pair s) := by
  unfold execRequestEntryUnreadable
  refine nextKept ?_
  split
  · split
    · next e => exact consumeUnreadable_kept (form_fst_of_eq (readRequest_kept h) e)
    · exact h
  · exact h

theorem serveHello_kept {arrived k : Nat} {s : State} {m : List Byte} (h : Form s) : Form (serveHello arrived k s m) := by
  unfold serveHello
  extract_lets _ _
  split
  · exact respond_kept h
  · split
    · exact respond_kept h
    · split
      · exact respond_kept h
      · extract_lets _ _ s1 _ _
        have hs1 : Form s1 := form_of_eq h rfl rfl
        exact respondTo_kept (leaseComparator_kept (logPersistent_kept hs1))

theorem execVmpHello_kept {pair : Nat} {s : State} (h : Form s) : NextKept (execVmpHello pair s) :=
  nextKept (takeRequest_kept h (fun _ _ ht => serveHello_kept ht))

theorem serveBye_kept {k : Nat} {s : State} {m : List Byte} (h : Form s) : Form (serveBye k s m) := endLease_kept (respond_kept h)

theorem execVmpBye_kept {pair : Nat} {s : State} (h : Form s) : NextKept (execVmpBye pair s) :=
  nextKept (takeRequest_kept h (fun _ _ ht => serveBye_kept ht))

theorem execLeaseExpiry_kept {client : BitVec 12} {s : State} (h : Form s) : NextKept (execLeaseExpiry client s) := by
  unfold execLeaseExpiry
  refine nextKept ?_
  split
  · exact h
  · split
    · exact endLease_kept (stickySet_kept h)
    · exact h

theorem ringFault_kept {s : State} {who : Requester} {pair off : Nat} (h : Form s) : Form (ringFault s who pair off) := by
  unfold ringFault
  split
  · exact emitOut_kept h
  · exact h

theorem enableSet_kept {s : State} {who : Requester} {pair : Nat} (h : Form s) : Form (enableSet s who pair) := by
  unfold enableSet
  split
  · exact ringFault_kept h
  · split
    · exact h
    · exact pairMod_kept h

theorem enableClear_kept {s : State} {who : Requester} {pair : Nat} (h : Form s) : Form (enableClear s who pair) := by
  unfold enableClear
  split
  · exact ringFault_kept h
  · split
    · exact foldl_kept (fun _ _ ht => endLease_kept ht) (pairMod_kept h)
    · exact h

theorem execVmpEnableSet_kept {who : Requester} {pair : Nat} {s : State} (h : Form s) : NextKept (execVmpEnableSet who pair s) :=
  nextKept (enableSet_kept h)

theorem execVmpEnableClear_kept {who : Requester} {pair : Nat} {s : State} (h : Form s) : NextKept (execVmpEnableClear who pair s) :=
  nextKept (enableClear_kept h)

end Sys2Proof.Laws
end

section
/-!
PROOFS. The canonical form of memory and the unit pages (R15, R297) through the timebase, and resets and recoveries.
-/
namespace Sys2Proof.Laws

open Sys2Proof.Machine

/-! ### The timebase -/

theorem setMaster_kept {s : State} {c : Candidate} (h : Form s) : Form (setMaster s c) := form_of_eq h rfl rfl

theorem heatMessages_kept {s : State} (h : Form s) : Form (heatMessages s) := by
  unfold heatMessages
  extract_lets _ s1 s2 _
  have hs1 : Form s1 := form_ite (floodMsg_kept h) h
  have hs2 : Form s2 := floodMsg_kept (floodMsg_kept hs1)
  exact foldl_kept (fun _ _ ht => sendTo_kept ht) hs2

theorem syncPulse_kept {s : State} (h : Form s) : Form (syncPulse s) := by
  unfold syncPulse
  split
  · split
    · exact emitOut_kept h
    · exact h
  · split
    · exact emitOut_kept h
    · exact h

theorem tbMod_kept {s : State} {f : Timebase → Timebase} (h : Form s) : Form (tbMod s f) := form_of_eq h rfl rfl

theorem execRef10mLock_kept {s : State} (h : Form s) : NextKept (execRef10mLock s) := nextKept (tbMod_kept h)

theorem execRef10mLoss_kept {s : State} (h : Form s) : NextKept (execRef10mLoss s) := nextKept (tbMod_kept h)

theorem execPpsMark_kept {cycles : Nat} {inLimits : Bool} {s : State} (h : Form s) : NextKept (execPpsMark cycles inLimits s) :=
  nextKept (tbMod_kept h)

theorem execPpsMarkMissing_kept {s : State} (h : Form s) : NextKept (execPpsMarkMissing s) := nextKept (tbMod_kept h)

theorem execCandidateFlood_kept {s : State} (h : Form s) : NextKept (execCandidateFlood s) := by
  unfold execCandidateFlood
  refine nextKept ?_
  split
  · exact foldl_kept (fun _ _ ht => floodMsg_kept ht) (tbMod_kept h)
  · exact h

theorem hearCandidate_kept {s : State} {c : Candidate} (h : Form s) : Form (hearCandidate s c) := by
  unfold hearCandidate
  extract_lets _ s1
  have hs1 : Form s1 := tbMod_kept h
  split
  · exact h
  · split
    · exact floodMsg_kept hs1
    · exact hs1

theorem execElectionConclude_kept {timedOut : Bool} {s : State} (h : Form s) : NextKept (execElectionConclude timedOut s) := by
  unfold execElectionConclude
  extract_lets _ _ s1 s2 s3 s4
  have hs1 : Form s1 := tbMod_kept h
  have hs2 : Form s2 := setMaster_kept hs1
  have hs3 : Form s3 := tbMod_kept hs2
  have hs4 : Form s4 := floodMsg_kept hs3
  refine nextKept ?_
  split
  · split
    · split
      · exact floodMsg_kept (tbMod_kept hs4)
      · exact hs4
    · exact hs1
  · exact h

theorem hearAnnouncement_kept {s : State} {c : Candidate} (h : Form s) : Form (hearAnnouncement s c) := by
  unfold hearAnnouncement
  extract_lets _ s1
  have hs1 : Form s1 := setMaster_kept h
  split
  · exact floodMsg_kept (tbMod_kept hs1)
  · exact h

theorem execMasterAnnouncementReceive_kept {c : Candidate} {s : State} (h : Form s) : NextKept (execMasterAnnouncementReceive c s) :=
  nextKept (hearAnnouncement_kept h)

theorem execStrikeZero_kept {s : State} (h : Form s) : NextKept (execStrikeZero s) := by
  unfold execStrikeZero
  extract_lets m _
  have hm : Form m := tbMod_kept h
  refine nextKept ?_
  split
  · exact syncPulse_kept (heatMessages_kept (form_of_eq hm rfl rfl))
  · exact h

theorem takeParent_kept {s : State} {p : Nat} {role : Role} {lock : LockState} (h : Form s) : Form (takeParent s p role lock) := tbMod_kept h

theorem execStrikeLockAcquire_kept {locks : Bool} {n : Word} {s : State} (h : Form s) : NextKept (execStrikeLockAcquire locks n s) := by
  unfold execStrikeLockAcquire
  refine nextKept ?_
  split
  · split
    · exact h
    · extract_lets s1 _ m3
      have hs1 : Form s1 := takeParent_kept h
      have hm3 : Form m3 := tbMod_kept hs1
      split
      · exact form_of_eq hm3 rfl rfl
      · exact tbMod_kept h
  · exact h

theorem slip_kept {s : State} (h : Form s) : Form (slip s) := flagsMod_kept (count_kept (stickySet_kept (tbMod_kept h)))

theorem execStrikeSlip_kept {s : State} (h : Form s) : NextKept (execStrikeSlip s) := by
  unfold execStrikeSlip
  refine nextKept ?_
  split
  · exact slip_kept h
  · exact h

theorem execStrikeRelock_kept {n : Word} {s : State} (h : Form s) : NextKept (execStrikeRelock n s) := by
  unfold execStrikeRelock
  refine nextKept ?_
  split
  · split
    · exact h
    · extract_lets s1 _ s2
      have hs1 : Form s1 := tbMod_kept h
      have hs2 : Form s2 := form_of_eq hs1 rfl rfl
      split
      · exact flagsMod_kept hs2
      · exact hs2
  · exact h

theorem execHoldoverEnter_kept {s : State} (h : Form s) : NextKept (execHoldoverEnter s) := by
  unfold execHoldoverEnter
  refine nextKept ?_
  split
  · split
    · exact tbMod_kept h
    · exact h
  · exact h

theorem execReparent_kept {s : State} (h : Form s) : NextKept (execReparent s) := by
  unfold execReparent
  refine nextKept ?_
  split
  · split
    · exact takeParent_kept h
    · exact h
  · exact h

theorem execHoldoverTimeout_kept {s : State} (h : Form s) : NextKept (execHoldoverTimeout s) := by
  unfold execHoldoverTimeout
  refine nextKept ?_
  split
  · exact slip_kept h
  · exact h

theorem execMasterLost_kept {s : State} (h : Form s) : NextKept (execMasterLost s) := by
  unfold execMasterLost
  refine nextKept ?_
  split
  · exact tbMod_kept h
  · exact h

/-! ### Jobs -/

theorem setJob_kept {s : State} {num : Word} {f : Job → Job} (h : Form s) : Form (setJob s num f) := modJobs_kept h

theorem hardyStep_kept {s : State} {ks : List Nat} {v : BitVec 32} (h : Form s) : Form (hardyStep s ks v) := form_of_eq h rfl rfl

theorem noteStart_kept {s : State} {j : Job} {a : Activity} (h : Form s) : Form (noteStart s j a) := by
  unfold noteStart
  split
  · exact form_of_eq h rfl rfl
  · split
    · exact form_of_eq h rfl rfl
    · exact form_of_eq h rfl rfl
    · exact form_of_eq h rfl rfl
    · exact hardyStep_kept h
    · exact hardyStep_kept h
    · exact hardyStep_kept h
    · exact h

theorem deadlineComparators_kept {s : State} (h : Form s) : Form (deadlineComparators s) := by
  unfold deadlineComparators
  extract_lets _ _ _ put s1
  have hput : ∀ t k v, Form t → Form (put t k v) := by
    intro t k v ht
    unfold put
    split
    · exact ht
    · exact pageMod_kept ht
  have hs1 : Form s1 := form_ite (hput _ _ _ h) h
  split
  · exact hput _ _ _ hs1
  · exact hs1

/-! ### Resets and recoveries -/

theorem freePlanState_kept {s : State} {num : Word} (h : Form s) : Form (freePlanState s num) := form_of_eq h rfl rfl

theorem endJob_kept {s : State} {num : Word} {status : BitVec 16} {stepNo record block : BitVec 32} (h : Form s) :
    Form (endJob s num status stepNo record block) := by
  unfold endJob
  split
  · exact h
  · exact freePlanState_kept (setJob_kept h)

theorem tellAhead_kept {s : State} (h : Form s) : Form (tellAhead s) := foldl_kept (fun _ _ ht => sendTo_kept ht) h

theorem sendReports_kept {s : State} (h : Form s) : Form (sendReports s) := by
  unfold sendReports
  refine foldl_kept (fun _ _ ht => ?_) h
  extract_lets _ t1
  have ht1 : Form t1 := sendTo_kept ht
  split
  · exact setJob_kept ht1
  · exact sendTo_kept ht1

theorem coreSample_kept {s : State} {k d : Nat} (h : Form s) : Form (coreSample s k d).1 := by
  obtain ⟨rd, hrd, read⟩ := exists_memRead_kept
  obtain ⟨wr, hwr, written⟩ := exists_memWrite_kept
  rw [coreSample, hrd, hwr]
  generalize (List.range (sampleLines (fullUid s k) d).length).zip (sampleLines (fullUid s k) d) = l
  refine written (foldl_proj_kept Prod.fst (fun _ _ hacc => ?_) h)
  dsimp only
  split
  · exact read hacc
  · exact read hacc

theorem exists_coreSample_kept : ∃ f : State → Nat → Nat → State × List Byte × Nat, coreSample = f ∧ ∀ {s k d}, Form s → Form (f s k d).1 :=
  ⟨_, rfl, coreSample_kept⟩

theorem takeSample_kept {s : State} {p : Partition} {job : Word} {holdOff : Nat} (h : Form s) : Form (takeSample s p job holdOff) := by
  obtain ⟨wr, hwr, written⟩ := exists_memWrite_kept
  obtain ⟨core, hcore, sampled⟩ := exists_coreSample_kept
  rw [takeSample, hwr, hcore]
  generalize hr : List.foldl _ (s, _) (coresOf (uidKey p.uid)) = r
  have hcores : Form r.1 := by
    rw [← hr]
    generalize coresOf (uidKey p.uid) = cores
    refine foldl_proj_kept Prod.fst (fun _ _ hacc => ?_) h
    exact sampled hacc
  obtain ⟨s1, samples, masks⟩ := r
  refine count_kept (form_of_eq (written (foldl_kept (fun _ _ ht => ?_) (foldl_kept (fun t x ht => ?_) hcores))) rfl rfl)
  · exact written ht
  · exact written ht

/-- A clearing of stored bytes and codes. -/
theorem filter_kept {s : State} {p : Host.Cell → Bool} {q : Nat × BitVec 8 → Bool} {i : List Nat} (h : Form s) :
    Form { s with mem := { s.mem with cells := s.mem.cells.filter p, synd := s.mem.synd.filter q, injected := i } } :=
  store_kept h (filter_wf p (form_cells h)) (filter_wf q (form_synd h))

theorem clearRange_kept {s : State} {lo n : Nat} (h : Form s) : Form (clearRange s lo n) := filter_kept h

theorem noteCleared_kept {s : State} {lo len : Nat} {stack : Option Nat} (h : Form s) : Form (noteCleared s lo len stack) :=
  form_of_parts h rfl rfl rfl rfl rfl

theorem clearCore_kept {s : State} {k : Nat} (h : Form s) : Form (clearCore s k) :=
  noteCleared_kept (mergePut_kept (clearRange_kept h))

theorem clearStack_kept {s : State} {st : Nat} (h : Form s) : Form (clearStack s st) := by
  unfold clearStack
  extract_lets _ _ _ t
  have ht : Form t := filter_kept h
  split
  · exact noteCleared_kept ht
  · exact noteCleared_kept ht

theorem clearFar_kept {s : State} (h : Form s) : Form (clearFar s) := noteCleared_kept (clearRange_kept h)

theorem makeRepairs_kept {s : State} {c : Nat} (h : Form s) : Form (makeRepairs s c) := checkerMod_kept h

theorem damageVersions_kept {s : State} {cols : List Nat} {far : Bool} (h : Form s) : Form (damageVersions s cols far) :=
  foldl_kept (fun _ _ ht => sendTo_kept ht) (form_of_eq h rfl rfl)

theorem clearDomain_kept {s : State} {k : Nat} {retainMemory : Bool} (h : Form s) : Form (clearDomain s k retainMemory) := by
  unfold clearDomain
  extract_lets s1 _ _ _ _ _ s3 s4 s5
  have hs1 : Form s1 := forKeys_kept (fun _ _ ht => clearCore_kept ht) h
  clear_value s1
  have hs3 : Form s3 := form_of_eq hs1 rfl rfl
  clear_value s3
  have hs4 : Form s4 := form_ite hs3 (foldl_kept (fun _ _ ht => makeRepairs_kept (clearStack_kept ht)) hs3)
  have hs5 : Form s5 := form_ite (foldl_kept (fun _ _ ht => makeRepairs_kept ht) (clearFar_kept hs4)) hs4
  split
  · exact hs5
  · exact damageVersions_kept hs5

theorem resetPage_kept {s : State} {k : Nat} (h : Form s) : Form (resetPage s k) := loadUnitCfg_kept (pageMod_kept h)

theorem resetDeviceMembers_kept {s : State} {retainFabric : Bool} (h : Form s) : Form (resetDeviceMembers s retainFabric) := by
  unfold resetDeviceMembers
  extract_lets _ _ _ _ s1 s2 _ s3 _
  have hs1 : Form s1 := form_of_eq h rfl rfl
  have hs2 : Form s2 := closeBypasses_kept hs1
  have hs3 : Form s3 := form_of_eq hs2 rfl rfl
  split
  · exact hs1
  · exact tbMod_kept hs3

theorem resetMemories_kept {s : State} {k : Nat} {retainMemory : Bool} (h : Form s) : Form (resetMemories s k retainMemory) :=
  forKeys_kept (fun _ _ ht => checkerMod_kept ht) h

theorem readyMemories_kept {s : State} {k : Nat} (h : Form s) : Form (readyMemories s k) := forKeys_kept (fun _ _ ht => checkerMod_kept ht) h

theorem beginReset_kept {s : State} {k : Nat} {retainMemory retainFabric : Bool} (h : Form s) : Form (beginReset s k retainMemory retainFabric) := by
  unfold beginReset
  extract_lets s0 s1 s2
  have hs0 : Form s0 := forKeys_kept (fun _ _ ht => mergeFlushBank_kept ht) h
  have hs1 : Form s1 := resetMemories_kept (clearDomain_kept hs0)
  have hs2 : Form s2 := forKeys_kept (fun _ _ ht => resetPage_kept ht) hs1
  split
  · exact resetDeviceMembers_kept hs2
  · exact hs2

theorem startRecovery_kept {s : State} {p : Partition} {job : Word} {holdOff : Nat} (h : Form s) : Form (startRecovery s p job holdOff) := by
  unfold startRecovery
  extract_lets _ s0 s1 s2 s3 _
  have hs0 : Form s0 := forKeys_kept (fun _ _ ht => mergeFlushBank_kept ht) h
  have hs1 : Form s1 := takeSample_kept hs0
  have hs2 : Form s2 := beginReset_kept hs1
  have hs3 : Form s3 := flagsMod_kept hs2
  split
  · exact h
  · split
    · exact form_of_eq hs3 rfl rfl
    · exact hs3

theorem dropActs_kept {s : State} {j : Job} {u : Uid} (h : Form s) : Form (dropActs s j u) := by
  unfold dropActs
  split
  · exact h
  · exact setJob_kept h

theorem quenchMod_kept {s : State} {f : Quench → Quench} (h : Form s) : Form (quenchMod s f) := form_of_eq h rfl rfl

theorem noteLast_kept {s : State} {p : Option Partition} (h : Form s) : Form (noteLast s p) := by
  unfold noteLast
  split
  · exact h
  · exact quenchMod_kept h

theorem joinHold_kept {s : State} {h : Hold} {p : Partition} {status : Option (BitVec 16)} (hk : Form s) : Form (joinHold s h p status).1 := by
  unfold joinHold
  extract_lets _ _ _ s1 _
  have hs1 : Form s1 := quenchMod_kept hk
  split
  · exact form_of_eq hs1 rfl rfl
  · exact hs1

theorem detectOutside_kept {s : State} {p : Partition} (h : Form s) : Form (detectOutside s p) := by
  unfold detectOutside
  split
  · exact h
  · split
    · exact quenchMod_kept h
    · exact noteLast_kept (quenchMod_kept h)

theorem detectFault_kept {s : State} {cause : Nat} {u : Uid} {retain : Option (Bool × Bool)}
    {requesters : List (BitVec 12 × Nat × BitVec 16 × Nat)} (h : Form s) : Form (detectFault s cause u retain requesters) := by
  unfold detectFault
  extract_lets _ _ _ _
  split
  · exact detectOutside_kept h
  · extract_lets _ s1 _
    have hs1 : Form s1 := sendTo_kept (dropActs_kept h)
    split
    · exact noteLast_kept (joinHold_kept hs1)
    · exact noteLast_kept (quenchMod_kept hs1)

theorem clearBad_kept {s : State} (h : Form s) : Form (clearBad s) := form_of_parts h rfl rfl rfl rfl rfl

theorem execFaultDetect_kept {cause : Nat} {uid : Uid} {recoverable : Bool} {s : State} (h : Form s) :
    NextKept (execFaultDetect cause uid recoverable s) := by
  unfold execFaultDetect
  extract_lets _ s1
  have hs1 : Form s1 := by
    unfold s1
    split
    · exact stickySet_kept h
    · split
      · exact clearBad_kept h
      · exact h
  refine nextKept ?_
  split
  · exact detectFault_kept hs1
  · exact h

theorem execMemberLost_kept {device : Nat} {s : State} (h : Form s) : NextKept (execMemberLost device s) := by
  unfold execMemberLost
  refine nextKept ?_
  split
  · exact h
  · split
    · exact detectFault_kept (form_of_eq h rfl rfl)
    · exact h

theorem hearHold_kept {s : State} {job : Word} {d r : Nat} {uid : Uid} {cause origin : Nat} (h : Form s) :
    Form (hearHold s job d r uid cause origin) := by
  unfold hearHold
  split
  · exact h
  · split
    · exact h
    · split
      · exact joinHold_kept h
      · exact quenchMod_kept h

theorem execHoldNoticeReceive_kept {job : Word} {d r : Nat} {uid : Uid} {cause origin : Nat} {s : State} (h : Form s) :
    NextKept (execHoldNoticeReceive job d r uid cause origin s) :=
  nextKept (hearHold_kept h)

theorem execHoldRaise_kept {s : State} (h : Form s) : NextKept (execHoldRaise s) := by
  unfold execHoldRaise
  refine nextKept ?_
  split
  · extract_lets _ s1 _
    have hs1 : Form s1 := quenchMod_kept h
    split
    · exact form_of_eq hs1 rfl rfl
    · exact h
  · exact h

theorem beginDueResets_kept {s : State} (h : Form s) : Form (beginDueResets s) := by
  unfold beginDueResets
  extract_lets _ s1 s2 _
  have hs1 : Form s1 := foldl_kept (fun _ _ ht => startRecovery_kept ht) h
  have hs2 : Form s2 := quenchMod_kept hs1
  split
  · exact hs2
  · extract_lets s3
    have hs3 : Form s3 := foldl_kept (fun _ _ ht => startRecovery_kept ht) hs2
    split
    · exact quenchMod_kept hs3
    · exact hs2

theorem restoreKept_kept {s : State} (h : Form s) : Form (restoreKept s) := by
  unfold restoreKept
  extract_lets _ _
  split
  · exact foldl_kept (fun _ _ ht => memWrite_kept ht) (form_of_eq h rfl rfl)
  · exact h

theorem releaseUnit_kept {s : State} {k : Nat} (h : Form s) : Form (releaseUnit s k) := by
  unfold releaseUnit
  extract_lets s1 s2 s3 _
  have hs1 : Form s1 := readyMemories_kept (flagsMod_kept h)
  have hs2 : Form s2 := by
    unfold s2
    refine foldl_kept (fun _ _ ht => ?_) hs1
    extract_lets t1
    have ht1 : Form t1 := loadUnitCfg_kept (flagsMod_kept ht)
    split
    · exact fenceUnit_kept ht1
    · exact ht1
  have hs3 : Form s3 := deadlineComparators_kept (leaseComparator_kept (loadDeviceCfg_kept hs2))
  split
  · refine settleGroups_kept ?_
    refine restoreKept_kept ?_
    split
    · exact reloadRouting_kept hs3
    · exact hs3
  · exact hs2

theorem logRecovery_kept {s : State} {p : Partition} {outcome : Nat} (h : Form s) : Form (logRecovery s p outcome) := logPersistent_kept h

theorem answerRequesters_kept {s : State} {p : Partition} {hold : Nat} (h : Form s) : Form (answerRequesters s p hold) :=
  foldl_kept (fun _ _ ht => complete_kept ht) h

theorem execPartitionRestore_kept {uid : Uid} {s : State} (h : Form s) : NextKept (execPartitionRestore uid s) := by
  unfold execPartitionRestore
  refine nextKept ?_
  split
  · exact h
  · split
    · extract_lets s1 s2
      have hs1 : Form s1 := form_ite h (releaseUnit_kept h)
      have hs2 : Form s2 := quenchMod_kept hs1
      split
      · split
        · exact sendTo_kept hs2
        · exact hs2
      · exact h
    · split
      · exact h
      · extract_lets s1 s2
        have hs1 : Form s1 := form_ite h (stickySet_kept (count_kept (releaseUnit_kept h)))
        have hs2 : Form s2 := quenchMod_kept hs1
        split
        · exact answerRequesters_kept (logRecovery_kept hs2)
        · exact h

theorem execRecoveryBoundMiss_kept {uid : Uid} {s : State} (h : Form s) : NextKept (execRecoveryBoundMiss uid s) := by
  unfold execRecoveryBoundMiss
  refine nextKept ?_
  split
  · exact h
  · split
    · exact quenchMod_kept h
    · exact h

theorem hearRestored_kept {s : State} {job : Word} {uid : Uid} {strike : Nat} (h : Form s) : Form (hearRestored s job uid strike) := by
  unfold hearRestored
  split
  · exact h
  · split
    · exact quenchMod_kept h
    · exact h

theorem execRestoredNoticeReceive_kept {job : Word} {uid : Uid} {strike : Nat} {s : State} (h : Form s) :
    NextKept (execRestoredNoticeReceive job uid strike s) :=
  nextKept (hearRestored_kept h)

theorem clearLive_kept {s : State} {loads : List PlanStep} (h : Form s) : Form (clearLive s loads) := form_of_eq h rfl rfl

theorem startReruns_kept {s : State} {num : Word} {new : List Activity} (h : Form s) : Form (startReruns s num new) := by
  unfold startReruns
  extract_lets s1
  have hs1 : Form s1 := setJob_kept h
  split
  · exact foldl_kept (fun _ _ ht => noteStart_kept ht) hs1
  · exact hs1

theorem replayWork_kept {s : State} (h : Form s) : Form (replayWork s) := by
  unfold replayWork
  split
  · extract_lets _ s0 s1
    have hs0 : Form s0 := by
      unfold s0
      split
      · exact clearLive_kept h
      · exact h
    have hs1 : Form s1 := by
      unfold s1
      split
      · exact startReruns_kept hs0
      · exact hs0
    split
    · exact quenchMod_kept hs1
    · exact quenchMod_kept (startReruns_kept h)
  · exact h

theorem pushHold_kept {s : State} {h : Hold} (hk : Form s) : Form (pushHold s h) := form_of_eq hk rfl rfl

theorem finishHold_kept {s : State} {h : Hold} (hk : Form s) : Form (finishHold s h) := by
  unfold finishHold
  extract_lets s1
  have hs1 : Form s1 := pushHold_kept hk
  refine foldl_kept (fun _ _ ht => ?_) hs1
  split
  · exact foldl_kept (fun _ _ ht => count_kept ht) ht
  · exact ht

theorem closePartition_kept {s : State} {p : Partition} {outcome hold : Nat} (h : Form s) : Form (closePartition s p outcome hold) := by
  unfold closePartition
  split
  · exact answerRequesters_kept (logRecovery_kept (stickySet_kept (count_kept h)))
  · exact h

theorem abandonHold_kept {s : State} (h : Form s) : Form (abandonHold s) := by
  unfold abandonHold
  extract_lets _ s1
  have hs1 : Form s1 := form_of_eq h rfl rfl
  split
  · exact h
  · extract_lets s2 s3
    have hs2 : Form s2 := form_ite (pushHold_kept hs1) hs1
    have hs3 : Form s3 := foldl_kept (fun _ _ ht => closePartition_kept ht) hs2
    exact quenchMod_kept hs3

theorem execPlanResume_kept {s : State} (h : Form s) : NextKept (execPlanResume s) := by
  unfold execPlanResume
  refine nextKept ?_
  split
  · exact h
  · split
    · exact form_of_eq h rfl rfl
    · exact h

theorem resumeHold_kept {s : State} (h : Form s) : Form (resumeHold s) := by
  unfold resumeHold
  split
  · exact h
  · extract_lets s2
    have hs2 : Form s2 := foldl_kept (fun _ _ ht => closePartition_kept ht) (finishHold_kept h)
    split
    · exact quenchMod_kept hs2
    · exact h

theorem recordResult_kept {s : State} {j : Job} {r : ActRef} {res : ActResult} (h : Form s) : Form (recordResult s j r res) := setJob_kept h

theorem setResult_kept {s : State} {j : Job} {r : ActRef} {res : ActResult} (h : Form s) : Form (setResult s j r res) := by
  unfold setResult
  split
  · exact detectFault_kept (clearBad_kept h)
  · exact recordResult_kept h

theorem resetLocal_kept {s : State} {uid : Uid} (h : Form s) : Form (resetLocal s uid) := by
  unfold resetLocal
  extract_lets _ _
  split
  · exact flagsMod_kept (beginReset_kept h)
  · exact h

theorem groupResetting_kept {s : State} {g : GroupDef} (h : Form s) : Form (groupResetting s g) := flagsMod_kept h

theorem resetGroup_kept {s : State} {g : GroupDef} (h : Form s) : Form (resetGroup s g) := sendTo_kept (groupResetting_kept (resetLocal_kept h))

theorem resetReq_kept {s : State} {uid : Uid} (h : Form s) : Form (resetReq s uid) := by
  unfold resetReq
  split
  · split
    · exact resetGroup_kept h
    · exact h
  · exact resetLocal_kept h

theorem execUcpResetReq_kept {uid : Uid} {s : State} (h : Form s) : NextKept (execUcpResetReq uid s) := nextKept (resetReq_kept h)

theorem execResetRelease_kept {uid : Uid} {s : State} (h : Form s) : NextKept (execResetRelease uid s) := by
  unfold execResetRelease
  refine nextKept ?_
  split
  · exact releaseUnit_kept h
  · exact h

end Sys2Proof.Laws
end

section
/-!
PROOFS. The canonical form of memory and the unit pages (R15, R297) through the Weld and the sequencer.
-/
namespace Sys2Proof.Laws

open Sys2Proof.Machine

/-! ### Frames and training -/

theorem sendFrame_kept {s : State} {p i kind offset flow : Nat} {payload : List Byte} {orig : Nat} {ctl : List CtlMsg} (h : Form s) :
    Form (sendFrame s p i kind offset flow payload orig ctl) :=
  emitOut_kept (portMod_kept h)

theorem sendControl_kept {s : State} {p i : Nat} (h : Form s) : Form (sendControl s p i) := by
  unfold sendControl
  split
  · exact sendFrame_kept h
  · extract_lets _ _ s1 _
    have hs1 : Form s1 := portMod_kept h
    split
    · exact sendFrame_kept (portMod_kept h)
    · exact foldl_kept (fun _ _ ht => emitOut_kept ht) (sendFrame_kept hs1)

theorem queueRerun_kept {s : State} {f off p i : Nat} {payload : List Byte} (h : Form s) : Form (queueRerun s f off p i payload) :=
  portMod_kept h

theorem sweepSlot_kept {s : State} {off p i : Nat} (h : Form s) : Form (sweepSlot s off p i) := by
  unfold sweepSlot
  split
  · exact h
  · split
    · exact h
    · split
      · exact queueRerun_kept (setJob_kept h)
      · split
        · exact h
        · exact queueRerun_kept h

theorem sweepFrames_kept {s : State} {off : Nat} (h : Form s) : Form (sweepFrames s off) := by
  unfold sweepFrames
  refine foldl_kept (fun _ _ ht => ?_) h
  split
  · exact foldl_kept (fun _ _ ht => sweepSlot_kept ht) ht
  · exact ht

theorem sendLane_kept {s : State} {p i : Nat} {reserved : List Nat} {mismatch : Bool} (h : Form s) : Form (sendLane s p i reserved mismatch) := by
  unfold sendLane
  split
  · split
    · exact h
    · extract_lets _
      split
      · extract_lets s1
        have hs1 : Form s1 := setJob_kept h
        split
        · exact sendControl_kept hs1
        · exact sendFrame_kept hs1
  · split
    · exact h
    · exact sendControl_kept h

theorem sendTrain_kept {s : State} {p i : Nat} (h : Form s) : Form (sendTrain s p i) := emitOut_kept (form_of_eq (form_of_eq h rfl rfl) rfl rfl)

theorem sendPort_kept {mismatch : List (Nat × Nat)} {s : State} {p : Nat} (h : Form s) : Form (sendPort mismatch s p) := by
  unfold sendPort
  extract_lets _ _ _ _ s1
  have hs1 : Form s1 := form_ite h (foldl_kept (fun _ _ ht => sendLane_kept ht) h)
  exact foldl_kept (fun _ _ ht => sendTrain_kept ht) hs1

theorem agePorts_kept {s : State} (h : Form s) : Form (agePorts s) := form_of_eq h rfl rfl

theorem sendFrames_kept {s : State} {mismatch : List (Nat × Nat)} (h : Form s) : Form (sendFrames s mismatch) :=
  foldl_kept (fun _ _ ht => sendPort_kept ht) h

theorem execWeldFrameResend_kept {port lane : Nat} {s : State} (h : Form s) : NextKept (execWeldFrameResend port lane s) := by
  unfold execWeldFrameResend
  refine nextKept ?_
  split
  · exact h
  · extract_lets _ _ _ s1
    have hs1 : Form s1 := portMod_kept h
    split
    · exact count_kept (emitOut_kept hs1)
    · exact h

theorem execWeldFrameLost_kept {port : Nat} {seq : BitVec 32} {s : State} (h : Form s) : NextKept (execWeldFrameLost port seq s) := by
  unfold execWeldFrameLost
  extract_lets _ _ _ s1 _
  have hs1 : Form s1 := portMod_kept h
  refine nextKept ?_
  split
  · refine foldl_kept (fun _ _ ht => ?_) (count_kept hs1)
    split
    · exact sendOnPort_kept ht
    · exact routeMsg_kept ht
  · exact h

theorem badFrame_kept {s : State} {p lane : Nat} (h : Form s) : Form (badFrame s p lane) := count_kept (portMod_kept h)

theorem ackFrame_kept {s : State} {p : Nat} {q : BitVec 32} (h : Form s) : Form (ackFrame s p q) := portMod_kept h

theorem ackNak_kept {s : State} {p : Nat} {h : FrameHdr} (hk : Form s) : Form (ackNak s p h) := portMod_kept hk

theorem epochRefused_kept {s : State} {e : Nat} (h : Form s) : Form (epochRefused s e) := by
  unfold epochRefused
  extract_lets s1 _ s2
  have hs1 : Form s1 := count_kept h
  have hs2 : Form s2 := fenceUnit_kept hs1
  split
  · exact flagsMod_kept hs2
  · exact hs1

theorem execWeldFrameReceive_kept {port lane : Nat} {frame : List Byte} {s : State} (h : Form s) :
    NextKept (execWeldFrameReceive port lane frame s) := by
  unfold execWeldFrameReceive
  refine nextKept ?_
  split
  · exact h
  · split
    · exact badFrame_kept h
    · extract_lets s1 _ s2
      have hs1 : Form s1 := portMod_kept h
      have hs2 : Form s2 := ackNak_kept (ackFrame_kept hs1)
      split
      · exact badFrame_kept hs1
      · split
        · exact epochRefused_kept (portMod_kept hs2)
        · split
          · split
            · exact portMod_kept hs2
            · exact portMod_kept hs2
          · exact hs2

theorem placeFilled_kept {s : State} {p key : Nat} (h : Form s) : Form (placeFilled s p key) := portMod_kept h

theorem landFails_kept {s : State} {p lane key : Nat} {q : BitVec 32} (h : Form s) : Form (landFails s p lane key q) :=
  count_kept (portMod_kept h)

theorem bufferError_kept {s : State} {p : Nat} (h : Form s) : Form (bufferError s p) := eccLog_kept (form_of_eq h rfl rfl)

theorem forwardFrame_kept {s : State} {j : Job} {h : FrameHdr} {key : Nat} {bytes : List Byte} (hk : Form s) :
    Form (forwardFrame s j h key bytes) := by
  unfold forwardFrame
  split
  · exact setJob_kept hk
  · split
    · exact queueRerun_kept hk
    · exact hk

theorem execWeldFrameLand_kept {port lane : Nat} {found : LandCheck} {s : State} (h : Form s) : NextKept (execWeldFrameLand port lane found s) := by
  unfold execWeldFrameLand
  refine nextKept ?_
  split
  · extract_lets _ s0 _ _ here _ _ s2
    have hs0 : Form s0 := portMod_kept h
    have hs2 : Form s2 := form_ite (setJob_kept (placeFilled_kept hs0)) (placeFilled_kept hs0)
    clear_value here s2
    split
    · exact bufferError_kept (landFails_kept hs0)
    · exact stickySet_kept (count_kept (landFails_kept hs0))
    · split
      · exact setJob_kept hs2
      · exact forwardFrame_kept hs2
  · exact h

theorem spurMod_kept {s : State} {p : Nat} {f : SpurPort → SpurPort} (h : Form s) : Form (spurMod s p f) := form_of_eq h rfl rfl

theorem qpMod_kept {s : State} {p q : Nat} {f : QueuePair → QueuePair} (h : Form s) : Form (qpMod s p q f) := spurMod_kept h

theorem refusePort_kept {s : State} {p : Nat} {c : RefuseCode} {t : LaneTraining} (h : Form s) : Form (refusePort s p c t) := portMod_kept h

theorem laneDown_kept {s : State} {p i : Nat} (h : Form s) : Form (laneDown s p i) := portMod_kept h

theorem clearHop_kept {s : State} {p : Nat} (h : Form s) : Form (clearHop s p) := by
  unfold clearHop
  split
  · exact tbMod_kept h
  · exact h

theorem dropLane_kept {s : State} {p i : Nat} (h : Form s) : Form (dropLane s p i) := clearHop_kept (laneDown_kept h)

theorem raiseLane_kept {s : State} {p i : Nat} {t : LaneTraining} {digest : Digest} (h : Form s) : Form (raiseLane s p i t digest) := by
  unfold raiseLane
  extract_lets _ _ _ _ _ s1
  have hs1 : Form s1 := portMod_kept h
  split
  · exact tbMod_kept hs1
  · exact hs1

theorem sendFirmware_kept {s : State} {p : Nat} {floor : Option (BitVec 32)} (h : Form s) : Form (sendFirmware s p floor) := by
  unfold sendFirmware
  split
  · exact h
  · split
    · refine foldl_kept (fun t x ht => sendOnPort_kept ?_) h
      exact form_of_eq ht rfl rfl
    · exact h

theorem beginTraining_kept {s : State} {p i : Nat} (h : Form s) : Form (beginTraining s p i) := portMod_kept h

theorem nextStep_kept {s : State} {p i : Nat} {st : PortState} (h : Form s) : Form (nextStep s p i st) := portMod_kept h

theorem settleLane_kept {s : State} {port lane : Nat} {t : LaneTraining} (h : Form s) : Form (settleLane s port lane t) := by
  unfold settleLane
  split
  · exact stickySet_kept (refusePort_kept h)
  · split
    · exact stickySet_kept (refusePort_kept h)
    · split
      · exact refusePort_kept h
      · split
        · exact dropLane_kept h
        · exact sendFirmware_kept (raiseLane_kept h)

theorem trainStep_kept {s : State} {port lane : Nat} {t : LaneTraining} (h : Form s) : Form (trainStep s port lane t) := by
  unfold trainStep
  split
  · split
    · exact nextStep_kept h
    · exact dropLane_kept h
  · split
    · exact nextStep_kept h
    · exact dropLane_kept h
  · split
    · exact nextStep_kept h
    · exact dropLane_kept h
  · split
    · exact dropLane_kept h
    · split
      · exact stickySet_kept (refusePort_kept h)
      · split
        · next e => exact portMod_kept (nextStep_kept (form_fst_of_eq (cseSign_kept h) e))
  · exact settleLane_kept h

theorem execLaneLightDetect_kept {port lane : Nat} {t : LaneTraining} {s : State} (h : Form s) : NextKept (execLaneLightDetect port lane t s) := by
  unfold execLaneLightDetect
  refine nextKept ?_
  split
  · exact h
  · split
    · exact beginTraining_kept h
    · exact trainStep_kept h
    · exact h

theorem execLaneRetrainTimer_kept {port lane : Nat} {s : State} (h : Form s) : NextKept (execLaneRetrainTimer port lane s) := by
  unfold execLaneRetrainTimer
  refine nextKept ?_
  split
  · exact beginTraining_kept h
  · exact h

theorem execLaneDown_kept {port lane : Nat} {s : State} (h : Form s) : NextKept (execLaneDown port lane s) := by
  unfold execLaneDown
  refine nextKept ?_
  split
  · exact stickySet_kept (count_kept (dropLane_kept h))
  · exact h

theorem execLaneLightLoss_kept {port : Nat} {s : State} (h : Form s) : NextKept (execLaneLightLoss port s) := by
  unfold execLaneLightLoss
  refine nextKept ?_
  split
  · exact portMod_kept h
  · exact h

/-! ### Plans, holds and replays -/

theorem progressCheck_kept {s : State} (h : Form s) : Form (progressCheck s) := by
  unfold progressCheck
  split
  · exact h
  · split
    · exact h
    · exact forKeys_kept (fun _ _ ht => unitMod_kept ht) h

theorem advanceHold_kept {s : State} (h : Form s) : Form (advanceHold s) := by
  unfold advanceHold
  extract_lets s1 s2 _ s3
  have hs1 : Form s1 := forKeys_kept (fun _ _ ht => pageMod_kept ht) h
  have hs2 : Form s2 := modJobs_kept (modJobs_kept hs1)
  have hs3 : Form s3 := form_of_eq hs2 rfl rfl
  split
  · exact h
  · split
    · exact count_kept hs3
    · exact hs3

theorem endStrike_kept {s : State} (h : Form s) : Form (endStrike s) := by
  unfold endStrike
  refine advanceHold_kept ?_
  split
  · exact progressCheck_kept h
  · exact h

theorem holdDeadlines_kept {s : State} (h : Form s) : Form (holdDeadlines s) := forKeys_kept (fun _ _ ht => pageMod_kept ht) h

theorem nextStrike_kept {s : State} (h : Form s) : Form (nextStrike s) := holdDeadlines_kept (form_of_eq h rfl rfl)

theorem trackEdge_kept {s : State} {offsetPs : BitVec 32} (h : Form s) : Form (trackEdge s offsetPs) := by
  unfold trackEdge
  extract_lets _ s1
  have hs1 : Form s1 := tbMod_kept h
  split
  · exact count_kept hs1
  · exact hs1

theorem leaveParent_kept {s : State} {p : Nat} (h : Form s) : Form (leaveParent s p) := tbMod_kept h

theorem recalibrate_kept {s : State} {p : Nat} {d : Option Nat} (h : Form s) : Form (recalibrate s p d) := by
  unfold recalibrate
  extract_lets _ _
  split
  · exact h
  · split
    · exact tbMod_kept h
    · split
      · exact tbMod_kept h
      · split
        · exact tbMod_kept h
        · split
          · split
            · exact leaveParent_kept (tbMod_kept h)
            · exact tbMod_kept h
          · split
            · exact leaveParent_kept (tbMod_kept h)
            · exact tbMod_kept h

theorem recalibrateAll_kept {s : State} {ds : List (Option TwoWay)} (h : Form s) : Form (recalibrateAll s ds) :=
  foldl_kept (fun _ _ ht => recalibrate_kept ht) h

theorem applyGroupClears_kept {s : State} (h : Form s) : Form (applyGroupClears s) := pageMod_kept (form_of_eq h rfl rfl)

theorem rollTongs_kept {s : State} (h : Form s) : Form (rollTongs s) := form_of_eq h rfl rfl

theorem pruneCopies_kept {s : State} (h : Form s) : Form (pruneCopies s) := form_of_eq h rfl rfl

theorem heatWork_kept {s : State} {e : EdgeInputs} (h : Form s) : Form (heatWork s e) := by
  unfold heatWork
  extract_lets s1 _ _ _ s2
  have hs1 : Form s1 := rollTongs_kept (applyGroupClears_kept (recalibrateAll_kept h))
  clear_value s1
  have hs2 : Form s2 := form_of_eq hs1 rfl rfl
  exact heatMessages_kept (tellAhead_kept (pruneCopies_kept (sendReports_kept hs2)))

theorem headPast_kept {s : State} {r : HeldEntries} (h : Form s) : Form (headPast s r) := by
  unfold headPast
  split
  · exact qpMod_kept h
  · exact form_of_eq h rfl rfl

theorem releaseRings_kept {s : State} {num : Word} {committed : Nat} (h : Form s) : Form (releaseRings s num committed) := by
  unfold releaseRings
  extract_lets _ _ s1
  have hs1 : Form s1 := setJob_kept h
  split
  · exact h
  · exact foldl_kept (fun _ _ ht => headPast_kept ht) hs1

theorem commitPlan_kept {s : State} {j : Job} (h : Form s) : Form (commitPlan s j) := releaseRings_kept (setJob_kept h)

theorem startWork_kept {s : State} {j : Job} (h : Form s) : Form (startWork s j) := by
  unfold startWork
  extract_lets _ _ _ _ s1
  have hs1 : Form s1 := setJob_kept h
  split
  · exact h
  · exact foldl_kept (fun _ _ ht => noteStart_kept ht) hs1

theorem markProgress_kept {s : State} {j : Job} (h : Form s) : Form (markProgress s j) := by
  unfold markProgress
  extract_lets _ _ _
  split
  · exact h
  · exact forKeys_kept (fun _ _ ht => pageMod_kept ht) h

theorem endIfDone_kept {s : State} (h : Form s) : Form (endIfDone s) := by
  unfold endIfDone
  split
  · exact h
  · extract_lets stopped _
    have hstopped : ∀ t, Form t → Form (stopped t) := by
      intro t ht
      unfold stopped
      split
      · exact endJob_kept ht
      · exact ht
    split
    · refine abandonHold_kept ?_
      split
      · exact h
      · exact hstopped _ h
    · split
      · exact h
      · split
        · refine abandonHold_kept ?_
          split
          · exact hstopped _ h
          · exact endJob_kept h
        · split
          · exact abandonHold_kept (hstopped _ h)
          · exact h

theorem markFlows_kept {s : State} {j : Job} (h : Form s) : Form (markFlows s j) := by
  unfold markFlows
  extract_lets _ _
  split
  · exact setJob_kept h
  · exact h

theorem runWork_kept {s : State} (h : Form s) : Form (runWork s) := by
  unfold runWork
  split
  · exact h
  · extract_lets s1
    have hs1 : Form s1 := by
      unfold s1
      refine markFlows_kept ?_
      split
      · exact commitPlan_kept h
      · exact h
    exact markProgress_kept (startWork_kept hs1)

theorem planWork_kept {s : State} (h : Form s) : Form (planWork s) := by
  unfold planWork
  extract_lets s1 s2
  have hs1 : Form s1 := endIfDone_kept h
  have hs2 : Form s2 := replayWork_kept hs1
  split
  · exact runWork_kept hs1
  · exact hs1
  · split
    · split
      · exact sweepFrames_kept hs2
      · exact hs2
    · exact hs2

theorem stopJob_kept {s : State} {num : Word} {st : Stop} (h : Form s) : Form (stopJob s num st) := setJob_kept h

theorem dropQueued_kept {s : State} {p : Job → Bool} {status : BitVec 16} (h : Form s) : Form (dropQueued s p status) := modJobs_kept h

theorem clearMisses_kept {s : State} (h : Form s) : Form (clearMisses s) := forKeys_kept (fun _ _ ht => flagsMod_kept ht) h

theorem execPlanStop_kept {s : State} (h : Form s) : NextKept (execPlanStop s) := nextKept (endIfDone_kept h)

theorem hearPlanEnd_kept {s : State} {job : Word} {status : BitVec 16} {step endStrike : Nat} (h : Form s) :
    Form (hearPlanEnd s job status step endStrike) :=
  stopJob_kept h

theorem execPlanEndAnnounceReceive_kept {job : Word} {status : BitVec 16} {step endStrike : Nat} {s : State} (h : Form s) :
    NextKept (execPlanEndAnnounceReceive job status step endStrike s) :=
  nextKept (hearPlanEnd_kept h)

theorem hearJobEnd_kept {s : State} {job : Word} {member : Nat} {r : EndReport} (h : Form s) : Form (hearJobEnd s job member r) := by
  unfold hearJobEnd
  split
  · exact modJobs_kept h
  · exact h

theorem execJobEndReport_kept {job : Word} {member : Nat} {report : EndReport} {s : State} (h : Form s) :
    NextKept (execJobEndReport job member report s) :=
  nextKept (hearJobEnd_kept h)

theorem writeSums_kept {s : State} {j : Job} (h : Form s) : Form (writeSums s j) := foldl_kept (fun _ _ ht => memWrite_kept ht) h

theorem finishJob_kept {s : State} {j : Job} (h : Form s) : Form (finishJob s j) := by
  unfold finishJob
  extract_lets s1 s2 _ _ _ s3
  have hs1 : Form s1 := form_ite h (writeSums_kept h)
  have hs2 : Form s2 := setJob_kept hs1
  have hs3 : Form s3 := form_of_eq hs2 rfl rfl
  exact complete_kept (deadlineComparators_kept hs3)

theorem execJobComplete_kept {job : Word} {s : State} (h : Form s) : NextKept (execJobComplete job s) := by
  unfold execJobComplete
  refine nextKept ?_
  split
  · exact h
  · split
    · exact finishJob_kept h
    · exact h

theorem completeRemoved_kept {s : State} (h : Form s) : Form (completeRemoved s) := foldl_kept (fun _ _ ht => finishJob_kept ht) h

theorem ownerActs_kept {s : State} {uid : Uid} {k c : Nat} (h : Form s) : Form (ownerActs s uid k c) := by
  unfold ownerActs
  split
  · split
    · exact detectFault_kept (stickySet_kept h)
    · exact h
  · split
    · split
      · exact stopJob_kept h
      · exact h
    · exact completeRemoved_kept (dropQueued_kept h)
  · exact h

theorem execComparatorFire_kept {uid : Uid} {c : Nat} {s : State} (h : Form s) : NextKept (execComparatorFire uid c s) := by
  unfold execComparatorFire
  refine nextKept ?_
  split
  · exact ownerActs_kept (pageMod_kept h)
  · exact h

theorem streamStop_kept {s : State} {j : Job} {r : Nat} {rep : Nat} {status : BitVec 16} {block : Nat} (h : Form s) :
    Form (streamStop s j r rep status block) :=
  sendTo_kept (setJob_kept (stopJob_kept h))

end Sys2Proof.Laws
end

section
/-!
PROOFS. The canonical form of memory and the unit pages (R15, R297) through the requests of clients.
-/
namespace Sys2Proof.Laws

open Sys2Proof.Machine

/-! ### Configuration requests -/

theorem serveCfgStage_kept {k : Nat} {s : State} {m : List Byte} (h : Form s) : Form (serveCfgStage k s m) := by
  unfold serveCfgStage
  extract_lets _
  refine withRef_kept h (fun _ _ ht => ?_)
  extract_lets _ _ _ _ _
  split
  · exact respond_kept ht
  · split
    · exact respond_kept ht
    · split
      · exact respond_kept ht
      · exact respond_kept (form_of_eq ht rfl rfl)

theorem execVmpCfgStage_kept {pair : Nat} {s : State} (h : Form s) : NextKept (execVmpCfgStage pair s) :=
  nextKept (takeRequest_kept h (fun _ _ ht => serveCfgStage_kept ht))

theorem rejectSticky_kept {s : State} {target : Uid} {st : BitVec 16} (h : Form s) : Form (rejectSticky s target st) := by
  unfold rejectSticky
  extract_lets _ s1
  have hs1 : Form s1 := stickySet_kept h
  split
  · exact stickySet_kept hs1
  · exact hs1

theorem markValidated_kept {s : State} {st : Staged} (h : Form s) : Form (markValidated s st) := form_of_eq h rfl rfl

theorem serveCfgValidate_kept {k : Nat} {remote : List MemberAnswer} {s : State} {m : List Byte} (h : Form s) :
    Form (serveCfgValidate k remote s m) := by
  unfold serveCfgValidate
  split
  · exact respond_kept h
  · extract_lets _ s1
    have hs1 : Form s1 := form_ite h (rejectSticky_kept h)
    split
    · split
      · exact respond_kept (markValidated_kept hs1)
      · exact respond_kept hs1

theorem execVmpCfgValidate_kept {ask : PairAnswers} {s : State} (h : Form s) : NextKept (execVmpCfgValidate ask s) :=
  nextKept (takeRequest_kept h (fun _ _ ht => serveCfgValidate_kept ht))

theorem writePending_kept {s : State} {target : Uid} {epoch : BitVec 32} {strike : Nat} {revert readmit : Bool} (h : Form s) :
    Form (writePending s target epoch strike revert readmit) :=
  forKeys_kept (fun _ _ ht => pageMod_kept ht) h

theorem tellChanges_kept {s : State} {ds : List Nat} (h : Form s) : Form (tellChanges s ds) := foldl_kept (fun _ _ ht => sendTo_kept ht) h

theorem pushPending_kept {s : State} {c : PendingCommit} (h : Form s) : Form (pushPending s c) := by
  unfold pushPending
  extract_lets t _ u
  have ht : Form t := foldl_kept (fun _ _ ht => writePending_kept ht) (loadPending_kept h)
  have hu : Form u := form_of_eq ht rfl rfl
  split
  · exact hu
  · exact sendTo_kept hu

theorem acceptCommit_kept {s : State} {k : Nat} {m : List Byte} {epoch : BitVec 32} {strike : Nat} {revert : Bool} {r : List Byte} (h : Form s) :
    Form (acceptCommit s k m epoch strike revert r) :=
  respondAccepted_kept (sendTo_kept (pushPending_kept h))

theorem serveCfgCommit_kept {k : Nat} {remote : List MemberAnswer} {s : State} {m : List Byte} (h : Form s) : Form (serveCfgCommit k remote s m) := by
  unfold serveCfgCommit
  extract_lets _ _
  split
  · exact respond_kept h
  · extract_lets _ _
    split
    · split
      · exact respond_kept h
      · split
        · exact respond_kept (rejectSticky_kept h)
        · split
          · exact respond_kept h
          · exact acceptCommit_kept h

theorem execVmpCfgCommit_kept {pair : Nat} {remote : List MemberAnswer} {s : State} (h : Form s) : NextKept (execVmpCfgCommit pair remote s) :=
  nextKept (takeRequest_kept h (fun _ _ ht => serveCfgCommit_kept ht))

theorem serveCfgRevert_kept {k : Nat} {remote : List (BitVec 16)} {s : State} {m : List Byte} (h : Form s) : Form (serveCfgRevert k remote s m) := by
  unfold serveCfgRevert
  extract_lets _ _ _ _ _
  split
  · exact respond_kept h
  · exact acceptCommit_kept h

theorem execVmpCfgRevert_kept {pair : Nat} {remote : List (BitVec 16)} {s : State} (h : Form s) : NextKept (execVmpCfgRevert pair remote s) :=
  nextKept (takeRequest_kept h (fun _ _ ht => serveCfgRevert_kept ht))

theorem missUnit_kept {s : State} {k : Nat} {epoch : BitVec 32} (h : Form s) : Form (missUnit s k epoch) := by
  unfold missUnit
  extract_lets _ s1 s2
  have hs1 : Form s1 := pageMod_kept h
  have hs2 : Form s2 := form_ite (flagsMod_kept hs1) (fenceUnit_kept hs1)
  split
  · exact flagsMod_kept hs2
  · exact hs2

theorem readmissionCommit_kept {s : State} {k : Nat} {epoch : BitVec 32} {revert : Bool} {r : List Byte} (h : Form s) :
    Form (readmissionCommit s k epoch revert r) := by
  unfold readmissionCommit
  extract_lets _ s1 _ _ _ _
  have hs1 : Form s1 := pageMod_kept h
  split
  · exact form_of_eq hs1 rfl rfl
  · split
    · exact form_of_eq h rfl rfl
    · exact pushPending_kept h

theorem issueReadmissions_kept {s : State} (h : Form s) : Form (issueReadmissions s) := by
  unfold issueReadmissions
  refine foldl_kept (fun _ _ ht => ?_) h
  split
  · exact pushPending_kept (form_of_eq ht rfl rfl)
  · exact ht

theorem hearCommit_kept {s : State} {src : Option Nat} {c : ForwardedCommit} (h : Form s) : Form (hearCommit s src c) := by
  unfold hearCommit
  extract_lets _ _ t
  have ht : Form t := foldl_kept (fun _ _ ht => readmissionCommit_kept (missUnit_kept ht)) h
  split
  · exact h
  · split
    · exact epochRefused_kept h
    · split
      · split
        · exact h
        · exact sendTo_kept ht
      · split
        · exact h
        · exact pushPending_kept h

theorem execForwardedCommitReceive_kept {c : ForwardedCommit} {s : State} (h : Form s) : NextKept (execForwardedCommitReceive c s) :=
  nextKept (hearCommit_kept h)

theorem applyUnit_kept {s : State} {c : PendingCommit} {k : Nat} (h : Form s) : Form (applyUnit s c k) := by
  unfold applyUnit
  extract_lets s1 s2
  have hs1 : Form s1 := pageMod_kept h
  have hs2 : Form s2 := by
    unfold s2
    split
    · split
      · exact hs1
      · exact popSet_kept hs1
    · exact pushSet_kept hs1
  exact loadUnitCfg_kept hs2

theorem dropNear_kept {s : State} (h : Form s) : Form (dropNear s) := noteCleared_kept (filter_kept h)

theorem applyDevice_kept {s : State} {before : ConfigSet} {c : PendingCommit} (h : Form s) : Form (applyDevice s before c) := by
  unfold applyDevice
  extract_lets _ s1 s2 _ _ s2' s3 _ _ s4
  have hs1 : Form s1 := form_ite (dropNear_kept h) h
  have hs2 : Form s2 := deadlineComparators_kept (leaseComparator_kept (loadDeviceCfg_kept hs1))
  clear_value s2
  have hs2' : Form s2' := form_ite (form_of_eq hs2 rfl rfl) hs2
  have hs3 : Form s3 := form_ite hs2' (loadRouting_kept hs2')
  clear_value s3
  have hs4 : Form s4 := measure_kept (form_of_eq hs3 rfl rfl)
  clear_value s4
  split
  · exact hs4
  · exact form_of_eq hs4 rfl rfl

theorem endByCommit_kept {s : State} (h : Form s) : Form (endByCommit s) := by
  unfold endByCommit
  split
  · exact h
  · exact abandonHold_kept (endJob_kept h)

theorem applyCommit_kept {s : State} {c : PendingCommit} (h : Form s) : Form (applyCommit s c) := by
  unfold applyCommit
  extract_lets _ _ _ _ s1 s2 s3 s4 _ s5 _
  have hs1 : Form s1 := foldl_kept (fun _ _ ht => applyUnit_kept ht) h
  have hs2 : Form s2 := by
    unfold s2
    refine foldl_kept (fun _ _ ht => ?_) hs1
    split
    · exact ht
    · exact readmissionCommit_kept (missUnit_kept ht)
  have hs3 : Form s3 := form_ite (applyDevice_kept hs2) hs2
  have hs4 : Form s4 := form_ite (endByCommit_kept hs3) hs3
  have hs5 : Form s5 := sendTo_kept hs4
  exact form_of_eq hs5 rfl rfl

theorem applyDue_kept {s : State} (h : Form s) : Form (applyDue s) := foldl_kept (fun _ _ ht => applyCommit_kept ht) h

theorem endByMember_kept {s : State} (h : Form s) : Form (endByMember s) := by
  unfold endByMember
  extract_lets _ _ s1
  have hs1 : Form s1 := form_of_eq h rfl rfl
  split
  · split
    · exact endByCommit_kept hs1
    · exact hs1
  · exact hs1

theorem execConfigApply_kept {s : State} (h : Form s) : NextKept (execConfigApply s) := nextKept (applyDue_kept h)

theorem hearCommitDone_kept {s : State} {src : Nat} {epoch : BitVec 32} {strike : Nat} {missed : List Uid} (h : Form s) :
    Form (hearCommitDone s src epoch strike missed) :=
  form_of_eq h rfl rfl

theorem postCommits_kept {s : State} (h : Form s) : Form (postCommits s) := by
  unfold postCommits
  extract_lets _ _ s1
  have hs1 : Form s1 := form_of_eq h rfl rfl
  refine foldl_kept (fun _ _ ht => ?_) hs1
  extract_lets _
  split
  · exact ht
  · split
    · exact complete_kept ht
    · exact complete_kept ht

theorem execConfigFlashWrite_kept {epoch : BitVec 32} {s : State} (h : Form s) : NextKept (execConfigFlashWrite epoch s) := by
  unfold execConfigFlashWrite
  extract_lets s0 _
  have hs0 : Form s0 := postCommits_kept h
  refine nextKept ?_
  refine foldl_kept (fun _ _ ht => ?_) hs0
  split
  · exact ht
  · extract_lets _
    split
    · next e => exact form_of_eq (form_fst_of_eq (cseSign_kept ht) e) rfl rfl

theorem execReadmission_kept {uid : Uid} {s : State} (h : Form s) : NextKept (execReadmission uid s) := by
  unfold execReadmission
  extract_lets _ _ _
  refine nextKept ?_
  split
  · exact flagsMod_kept h
  · exact h

theorem serveCfgRead_kept {k : Nat} {s : State} {m : List Byte} (h : Form s) : Form (serveCfgRead k s m) := by
  unfold serveCfgRead
  extract_lets _ _ _ _
  split
  · exact respond_kept h
  · extract_lets _
    split
    · next s1 _ e =>
        have hs1 : Form s1 := by
          refine form_fst_of_eq ?_ e
          split
          · exact cseSign_kept h
          · exact h
        extract_lets _
        split
        · exact respond_kept h
        · exact respond_kept (memWrite_kept hs1)

theorem execVmpCfgRead_kept {pair : Nat} {s : State} (h : Form s) : NextKept (execVmpCfgRead pair s) :=
  nextKept (takeRequest_kept h (fun _ _ ht => serveCfgRead_kept ht))

/-! ### Job, log, firmware and time requests -/

theorem cancelHere_kept {s : State} {num : Word} {from' : Nat} {status : BitVec 16} (h : Form s) : Form (cancelHere s num from' status) :=
  completeRemoved_kept (modJobs_kept h)

theorem serveOpCancel_kept {k : Nat} {remote : List MemberAnswer} {s : State} {m : List Byte} (h : Form s) : Form (serveOpCancel k remote s m) := by
  unfold serveOpCancel
  extract_lets s1
  have hs1 : Form s1 := respond_kept h
  split
  · exact respond_kept h
  · extract_lets _
    split
    · exact respond_kept h
    · exact cancelHere_kept (sendTo_kept hs1)

theorem execVmpOpCancel_kept {ask : PairAnswers} {s : State} (h : Form s) : NextKept (execVmpOpCancel ask s) :=
  nextKept (takeRequest_kept h (fun _ _ ht => serveOpCancel_kept ht))

theorem serveOpStatus_kept {k : Nat} {s : State} {m : List Byte} (h : Form s) : Form (serveOpStatus k s m) := by
  unfold serveOpStatus
  split
  · exact respond_kept h
  · exact respond_kept h

theorem execVmpOpStatus_kept {pair : Nat} {s : State} (h : Form s) : NextKept (execVmpOpStatus pair s) :=
  nextKept (takeRequest_kept h (fun _ _ ht => serveOpStatus_kept ht))

theorem setDeadline_kept {s : State} {num : Word} {d : Nat} (h : Form s) : Form (setDeadline s num d) :=
  deadlineComparators_kept (modJobs_kept h)

theorem serveOpDeadline_kept {k : Nat} {remote : List MemberAnswer} {s : State} {m : List Byte} (h : Form s) :
    Form (serveOpDeadline k remote s m) := by
  unfold serveOpDeadline
  extract_lets _
  split
  · exact respond_kept h
  · extract_lets _
    split
    · exact respond_kept h
    · exact respond_kept (setDeadline_kept (sendTo_kept h))

theorem execVmpOpDeadline_kept {ask : PairAnswers} {s : State} (h : Form s) : NextKept (execVmpOpDeadline ask s) :=
  nextKept (takeRequest_kept h (fun _ _ ht => serveOpDeadline_kept ht))

theorem serveErrRead_kept {k : Nat} {s : State} {m : List Byte} (h : Form s) : Form (serveErrRead k s m) := by
  unfold serveErrRead
  extract_lets _ _ _ s1
  have hs1 : Form s1 := form_ite h (memWrite_kept h)
  split
  · exact respond_kept h
  · exact respond_kept hs1

theorem execVmpErrRead_kept {pair : Nat} {s : State} (h : Form s) : NextKept (execVmpErrRead pair s) :=
  nextKept (takeRequest_kept h (fun _ _ ht => serveErrRead_kept ht))

theorem clearChecker_kept {s : State} {k c : Nat} (h : Form s) : Form (clearChecker s k c) := by
  unfold clearChecker
  split
  · split
    · exact checkerMod_kept h
    · exact h
  · split
    · split
      · exact checkerMod_kept h
      · exact h
    · exact checkerMod_kept h

theorem clearLogs_kept {s : State} {k : Nat} (h : Form s) : Form (clearLogs s k) := foldl_kept (fun _ _ ht => clearChecker_kept ht) h

theorem groupClear_kept {s : State} {mask : Word} {write heat : Nat} (h : Form s) : Form (groupClear s mask write heat) := by
  unfold groupClear
  split
  · exact pageMod_kept h
  · exact form_of_eq h rfl rfl

theorem groupNotify_kept {s : State} {g : Nat} {mask : Word} (h : Form s) : Form (groupNotify s g mask) := by
  unfold groupNotify
  split
  · exact pageMod_kept h
  · exact h

theorem serveErrClear_kept {k : Nat} {s : State} {m : List Byte} (h : Form s) : Form (serveErrClear k s m) := by
  unfold serveErrClear
  extract_lets _ _ _ _ _ _ s1 s2 t s3
  have hs1 : Form s1 := form_ite (sendTo_kept (groupClear_kept h)) (pageMod_kept h)
  have hs2 : Form s2 := by
    unfold s2
    split
    · exact hs1
    · split
      · exact sendTo_kept (groupNotify_kept hs1)
      · exact pageMod_kept hs1
  have ht : Form t := clearLogs_kept hs2
  have hs3 : Form s3 := by
    unfold s3
    split
    · split
      · exact sendTo_kept ht
      · exact ht
    · exact hs2
  exact respond_kept hs3

theorem execVmpErrClear_kept {pair : Nat} {s : State} (h : Form s) : NextKept (execVmpErrClear pair s) :=
  nextKept (takeRequest_kept h (fun _ _ ht => serveErrClear_kept ht))

theorem serveRecover_kept {k : Nat} {s : State} {m : List Byte} (h : Form s) : Form (serveRecover k s m) := by
  unfold serveRecover
  extract_lets _ _ _ _
  split
  · exact respond_kept h
  · exact detectFault_kept (respondAccepted_kept h)

theorem execVmpRecover_kept {pair : Nat} {s : State} (h : Form s) : NextKept (execVmpRecover pair s) :=
  nextKept (takeRequest_kept h (fun _ _ ht => serveRecover_kept ht))

theorem serveHoldRead_kept {k : Nat} {s : State} {m : List Byte} (h : Form s) : Form (serveHoldRead k s m) := respond_kept h

theorem execVmpHoldRead_kept {pair : Nat} {s : State} (h : Form s) : NextKept (execVmpHoldRead pair s) :=
  nextKept (takeRequest_kept h (fun _ _ ht => serveHoldRead_kept ht))

theorem attestReport_kept {s : State} {nonce : List Byte} (h : Form s) : Form (attestReport s nonce).1 := by
  unfold attestReport
  extract_lets _ _
  split
  · next e => exact form_fst_of_eq (cseSign_kept h) e

theorem serveAttest_kept {k : Nat} {s : State} {m : List Byte} (h : Form s) : Form (serveAttest k s m) := by
  unfold serveAttest
  extract_lets _ _
  split
  · exact respond_kept h
  · split
    · exact respond_kept (stickySet_kept h)
    · split
      · next e => exact respond_kept (memWrite_kept (form_fst_of_eq (attestReport_kept h) e))

theorem execVmpAttest_kept {pair : Nat} {s : State} (h : Form s) : NextKept (execVmpAttest pair s) :=
  nextKept (takeRequest_kept h (fun _ _ ht => serveAttest_kept ht))

theorem stageImage_kept {s : State} {img : List Byte} (h : Form s) : Form (stageImage s img).1 := by
  unfold stageImage
  extract_lets _ _
  split
  · exact form_of_eq h rfl rfl
  · split
    · exact stickySet_kept h
    · exact h

theorem serveFwStage_kept {k : Nat} {s : State} {m : List Byte} (h : Form s) : Form (serveFwStage k s m) := by
  unfold serveFwStage
  refine withRef_kept h (fun _ _ ht => ?_)
  split
  · next e => exact respond_kept (form_fst_of_eq (stageImage_kept ht) e)

theorem execVmpFwStage_kept {pair : Nat} {s : State} (h : Form s) : NextKept (execVmpFwStage pair s) :=
  nextKept (takeRequest_kept h (fun _ _ ht => serveFwStage_kept ht))

theorem serveFwActivate_kept {k : Nat} {s : State} {m : List Byte} (h : Form s) : Form (serveFwActivate k s m) := by
  unfold serveFwActivate
  extract_lets _ _ _
  split
  · exact respond_kept h
  · split
    · exact respond_kept h
    · exact respondAccepted_kept (form_of_eq h rfl rfl)

theorem execVmpFwActivate_kept {pair : Nat} {s : State} (h : Form s) : NextKept (execVmpFwActivate pair s) :=
  nextKept (takeRequest_kept h (fun _ _ ht => serveFwActivate_kept ht))

theorem endActivation_kept {s : State} {a : FwActivation} {st : BitVec 16} (h : Form s) : Form (endActivation s a st) :=
  foldl_kept (fun _ _ ht => complete_kept ht) h

theorem handOver_kept {s : State} {img : List Byte} (h : Form s) : Form (handOver s img) :=
  foldl_kept (fun _ _ ht => endLease_kept ht) (form_of_eq h rfl rfl)

theorem execFwImageHandover_kept {resumed readBackOk : Bool} {s : State} (h : Form s) : NextKept (execFwImageHandover resumed readBackOk s) := by
  unfold execFwImageHandover
  refine nextKept ?_
  split
  · extract_lets s1 _ _
    have hs1 : Form s1 := form_ite h (handOver_kept h)
    split
    · split
      · exact endActivation_kept (fwFinish_kept hs1)
      · exact form_of_eq hs1 rfl rfl
    · exact h
  · exact h

theorem execFwActivateRollback_kept {s : State} (h : Form s) : NextKept (execFwActivateRollback s) := by
  unfold execFwActivateRollback
  refine nextKept ?_
  split
  · split
    · exact endActivation_kept (form_of_eq h rfl rfl)
    · exact h
  · exact h

theorem serveTimeRead_kept {k : Nat} {s : State} {m : List Byte} (h : Form s) : Form (serveTimeRead k s m) := respond_kept h

theorem execVmpTimeRead_kept {pair : Nat} {s : State} (h : Form s) : NextKept (execVmpTimeRead pair s) :=
  nextKept (takeRequest_kept h (fun _ _ ht => serveTimeRead_kept ht))

theorem serveTopoRead_kept {k : Nat} {s : State} {m : List Byte} (h : Form s) : Form (serveTopoRead k s m) := by
  unfold serveTopoRead
  extract_lets _ _ _ s1
  have hs1 : Form s1 := memWrite_kept h
  split
  · exact respond_kept h
  · exact respond_kept hs1

theorem execVmpTopoRead_kept {pair : Nat} {s : State} (h : Form s) : NextKept (execVmpTopoRead pair s) :=
  nextKept (takeRequest_kept h (fun _ _ ht => serveTopoRead_kept ht))

end Sys2Proof.Laws
end

section
/-!
PROOFS. The canonical form of memory and the unit pages (R15, R297) through the relational operators and the Hardys.
-/
namespace Sys2Proof.Laws

open Sys2Proof.Machine

/-! ### Operands -/

theorem readBytes_kept {s : State} {a n : Nat} (h : Form s) : Form (readBytes s a n).1 := memRead_kept h

theorem readString_kept {s : State} {win : Nat} {b : List Byte} {d : Nat} (h : Form s) : Form (readString s win b d).1 := by
  unfold readString
  extract_lets _ _
  split
  · exact h
  · split
    · exact h
    · split
      · exact h
      · exact readBytes_kept h

theorem readStrings_kept {s : State} {win : Nat} {b : List Byte} {es : List Elem} (h : Form s) : Form (readStrings s win b es).1 := by
  induction es generalizing s with
  | nil => exact h
  | cons e es ih =>
    rw [readStrings]
    split
    · next e2 => exact form_fst_of_eq (readString_kept h) e2
    · next s1 _ e2 =>
        have hs1 : Form s1 := form_fst_of_eq (readString_kept h) e2
        split
        · next e3 => exact form_fst_of_eq (ih hs1) e3
        · next e3 => exact form_fst_of_eq (ih hs1) e3

theorem readRows_kept {s : State} {b : List Byte} {win lo n : Nat} (h : Form s) : Form (readRows s b win lo n).1 := by
  unfold readRows
  extract_lets _
  split
  · exact h
  · split
    · next e => exact form_fst_of_eq (readBytes_kept h) e
    · next s1 _ e =>
        have hs1 : Form s1 := form_fst_of_eq (readBytes_kept h) e
        split
        · next e2 =>
            refine form_fst_of_eq ?_ e2
            split
            · exact readBytes_kept hs1
            · exact hs1
        · next s2 _ e2 =>
            have hs2 : Form s2 := by
              refine form_fst_of_eq ?_ e2
              split
              · exact readBytes_kept hs1
              · exact hs1
            extract_lets _
            split
            · exact readStrings_kept hs2
            · exact hs2

theorem readWindow_kept {s : State} {b : List Byte} {win : Nat} (h : Form s) : Form (readWindow s b win).1 := by
  unfold readWindow
  extract_lets _
  split
  · exact readRows_kept h
  · split
    · next e => exact form_fst_of_eq (readBytes_kept h) e
    · next s1 _ e =>
        have hs1 : Form s1 := form_fst_of_eq (readBytes_kept h) e
        split
        · next e2 =>
            refine form_fst_of_eq ?_ e2
            split
            · exact readBytes_kept hs1
            · exact hs1
        · next s2 _ e2 =>
            have hs2 : Form s2 := by
              refine form_fst_of_eq ?_ e2
              split
              · exact readBytes_kept hs1
              · exact hs1
            extract_lets _
            split
            · exact readStrings_kept hs2
            · exact hs2

theorem readWindows_kept {s : State} {b : List Byte} {ws : List Nat} (h : Form s) : Form (readWindows s b ws).1 := by
  induction ws generalizing s with
  | nil => exact h
  | cons w ws ih =>
    rw [readWindows]
    split
    · next e => exact form_fst_of_eq (readWindow_kept h) e
    · next s2 _ e =>
        have hs2 : Form s2 := form_fst_of_eq (readWindow_kept h) e
        split
        · next e2 => exact form_fst_of_eq (ih hs2) e2
        · next e2 => exact form_fst_of_eq (ih hs2) e2

theorem readDesc_kept {s : State} {scope : Nat} {b : List Byte} (h : Form s) : Form (readDesc s scope b).1 := readWindows_kept h

theorem readSpan_kept {s : State} {b : List Byte} {lo n first : Nat} {ws : List Nat} (h : Form s) : Form (readSpan s b lo n first ws).1 := by
  induction ws generalizing s first with
  | nil => exact h
  | cons w ws ih =>
    rw [readSpan]
    split
    · next e => exact form_fst_of_eq (readRows_kept h) e
    · next s2 _ e =>
        have hs2 : Form s2 := form_fst_of_eq (readRows_kept h) e
        split
        · next e2 => exact form_fst_of_eq (ih hs2) e2
        · next e2 => exact form_fst_of_eq (ih hs2) e2

theorem readCols_kept {s : State} {scope lo n : Nat} {bs : List (Bool × List Byte)} (h : Form s) : Form (readCols s scope lo n bs).1 := by
  induction bs generalizing s with
  | nil => exact h
  | cons x bs ih =>
    obtain ⟨used, b⟩ := x
    rw [readCols]
    split
    · next e =>
        refine form_fst_of_eq ?_ e
        split
        · exact readSpan_kept h
        · exact h
    · next s2 _ e =>
        have hs2 : Form s2 := by
          refine form_fst_of_eq ?_ e
          split
          · exact readSpan_kept h
          · exact h
        split
        · next e2 => exact form_fst_of_eq (ih hs2) e2
        · next e2 => exact form_fst_of_eq (ih hs2) e2

theorem readPart_kept {s : State} {scope lo n : Nat} {ds : List (List Byte)} {cols : List Nat} (h : Form s) :
    Form (readPart s scope lo n ds cols).1 := by
  unfold readPart
  split
  · next e => exact form_fst_of_eq (readCols_kept h) e
  · next e => exact form_fst_of_eq (readCols_kept h) e

theorem readSetCols_kept {s : State} {scope : Nat} {ds : List (List Byte)} {cols : List Nat} (h : Form s) : Form (readSetCols s scope ds cols).1 :=
  readPart_kept h

theorem readSet_kept {s : State} {scope : Nat} {ds : List (List Byte)} (h : Form s) : Form (readSet s scope ds).1 := readSetCols_kept h

/-! ### Operators of the scan and the joins -/

theorem runStep_kept {s : State} {i op : Nat} {mode : List Byte → Bool} {f : State → Job → PlanStep → List Byte → OpRes} (h : Form s)
    (hf : ∀ t x1 x y, Form t → Form (f t x1 x y).1) : Form (runStep s i op mode f) := by
  unfold runStep
  split
  · exact h
  · extract_lets _ r
    have hr : Form r.1 := hf _ _ _ _ (clearBad_kept h)
    split
    · exact setResult_kept hr
    · exact h

theorem putSet_kept {s : State} {scope : Nat} {ds : List (List Byte)} {pair : Bool} {rows : List Row} {heavy : List (Nat × Nat)} {r : ActResult}
    (h : Form s) : Form (putSet s scope ds pair rows heavy r).1 :=
  h

theorem scanLoadRun_kept {s : State} {j : Job} {st : PlanStep} {pb : List Byte} (h : Form s) : Form (scanLoadRun s j st pb).1 := by
  unfold scanLoadRun
  extract_lets _ _ _ _ _ _ _
  split
  · next e => exact form_fst_of_eq (readPart_kept h) e
  · next e2 => exact putSet_kept (form_fst_of_eq (readPart_kept h) e2)

theorem execScanLoad_kept {step : Nat} {s : State} (h : Form s) : NextKept (execScanLoad step s) :=
  nextKept (runStep_kept h (fun _ _ _ _ ht => scanLoadRun_kept ht))

theorem scanRenumberRun_kept {peers : List (Nat × Nat)} {s : State} {j : Job} {st : PlanStep} {pb : List Byte} (h : Form s) :
    Form (scanRenumberRun peers s j st pb).1 := by
  unfold scanRenumberRun
  extract_lets _ _ _
  split
  · next e => exact form_fst_of_eq (readSet_kept h) e
  · next e2 => exact putSet_kept (form_fst_of_eq (readSet_kept h) e2)

theorem execScanRenumber_kept {step : Nat} {peerKeys : List (Nat × Nat)} {s : State} (h : Form s) : NextKept (execScanRenumber step peerKeys s) :=
  nextKept (runStep_kept h (fun _ _ _ _ ht => scanRenumberRun_kept ht))

theorem computeRun_kept {s : State} {j : Job} {st : PlanStep} {pb : List Byte} (h : Form s) : Form (computeRun s j st pb).1 := by
  unfold computeRun
  extract_lets _ _ _ _ _ _ _ _
  split
  · next e => exact form_fst_of_eq (readSetCols_kept h) e
  · next e2 => exact putSet_kept (form_fst_of_eq (readSetCols_kept h) e2)

theorem execCompute_kept {step : Nat} {s : State} (h : Form s) : NextKept (execCompute step s) :=
  nextKept (runStep_kept h (fun _ _ _ _ ht => computeRun_kept ht))

theorem hashRun_kept {s : State} {j : Job} {st : PlanStep} {pb : List Byte} (h : Form s) : Form (hashRun s j st pb).1 := by
  unfold hashRun
  extract_lets _ _ _ _
  split
  · next e => exact form_fst_of_eq (readSetCols_kept h) e
  · next e2 => exact form_fst_of_eq (readSetCols_kept h) e2

theorem execHash_kept {step : Nat} {s : State} (h : Form s) : NextKept (execHash step s) :=
  nextKept (runStep_kept h (fun _ _ _ _ ht => hashRun_kept ht))

theorem partitionRun_kept {arrivals : Arrivals} {s : State} {j : Job} {st : PlanStep} {pb : List Byte} (h : Form s) :
    Form (partitionRun arrivals s j st pb).1 := by
  unfold partitionRun
  extract_lets _ _ _ _ _ _ _ _
  split
  · next e => exact form_fst_of_eq (readSet_kept h) e
  · next e2 => exact form_fst_of_eq (readSet_kept h) e2

theorem execPartition_kept {step : Nat} {arrivals : Arrivals} {s : State} (h : Form s) : NextKept (execPartition step arrivals s) :=
  nextKept (runStep_kept h (fun _ _ _ _ ht => partitionRun_kept ht))

theorem joinBuildRun_kept {s : State} {j : Job} {st : PlanStep} {pb : List Byte} (h : Form s) : Form (joinBuildRun s j st pb).1 := by
  unfold joinBuildRun
  extract_lets _ _ _ _ _
  split
  · next e => exact form_fst_of_eq (readSetCols_kept h) e
  · next e2 => exact form_of_eq (form_of_eq (form_fst_of_eq (readSetCols_kept h) e2) rfl rfl) rfl rfl

theorem execJoinBuild_kept {step : Nat} {s : State} (h : Form s) : NextKept (execJoinBuild step s) :=
  nextKept (runStep_kept h (fun _ _ _ _ ht => joinBuildRun_kept ht))

theorem joinProbeRun_kept {s : State} {j : Job} {st : PlanStep} {pb : List Byte} (h : Form s) : Form (joinProbeRun s j st pb).1 := by
  unfold joinProbeRun
  extract_lets _ _ _ _ _ _ _ _ _
  split
  · next e => exact form_fst_of_eq (readSetCols_kept h) e
  · next s1 _ e2 =>
      have hs1 : Form s1 := form_fst_of_eq (readSetCols_kept h) e2
      extract_lets _
      split
      · next e => exact form_fst_of_eq (readBytes_kept hs1) e
      · next s2 _ e =>
          have hs2 : Form s2 := form_fst_of_eq (readBytes_kept hs1) e
          split
          · next e3 => exact form_fst_of_eq (readSetCols_kept hs2) e3
          · next s3 _ e4 =>
              have hs3 : Form s3 := form_fst_of_eq (readSetCols_kept hs2) e4
              extract_lets _ _ _ _ _ _ _ _
              split
              · exact hs3
              · exact putSet_kept hs3

theorem execJoinProbe_kept {step : Nat} {s : State} (h : Form s) : NextKept (execJoinProbe step s) :=
  nextKept (runStep_kept h (fun _ _ _ _ ht => joinProbeRun_kept ht))

theorem dedupRun_kept {s : State} {j : Job} {st : PlanStep} {pb : List Byte} (h : Form s) : Form (dedupRun s j st pb).1 := by
  unfold dedupRun
  extract_lets _ _ _ _ _
  split
  · next e => exact form_fst_of_eq (readSet_kept h) e
  · next e2 => exact putSet_kept (form_fst_of_eq (readSet_kept h) e2)

theorem execDedup_kept {step : Nat} {s : State} (h : Form s) : NextKept (execDedup step s) :=
  nextKept (runStep_kept h (fun _ _ _ _ ht => dedupRun_kept ht))

theorem emitRun_kept {peers : List (Nat × Nat)} {arrivals : Arrivals} {handoverOk : Bool} {s : State} {j : Job} {st : PlanStep} {pb : List Byte}
    (h : Form s) : Form (emitRun peers arrivals handoverOk s j st pb).1 := by
  unfold emitRun
  extract_lets _ _ _ _ _ _ _ _
  split
  · next e => exact form_fst_of_eq (readSet_kept h) e
  · next s1 _ e2 =>
      have hs1 : Form s1 := form_fst_of_eq (readSet_kept h) e2
      extract_lets _ _ _ _ _ _ _ _ _ _
      split
      · split
        · extract_lets _ _ _
          split
          · exact hs1
          · exact stickySet_kept (count_kept hs1)

theorem execEmit_kept {step : Nat} {peerKeys : List (Nat × Nat)} {arrivals : Arrivals} {handoverOk : Bool} {s : State} (h : Form s) :
    NextKept (execEmit step peerKeys arrivals handoverOk s) :=
  nextKept (runStep_kept h (fun _ _ _ _ ht => emitRun_kept ht))

/-! ### Hardy tables -/

theorem hardyMod_kept {s : State} {d : Nat} {f : HardyUnit → HardyUnit} (h : Form s) : Form (hardyMod s d f) := form_of_eq h rfl rfl

theorem countDies_kept {s : State} {dies : List Nat} {c n : Nat} (h : Form s) : Form (countDies s dies c n) :=
  foldl_kept (fun _ _ ht => count_kept ht) h

theorem hardyLoadRun_kept {kind : Nat} {s : State} {j : Job} {st : PlanStep} {pb : List Byte} (h : Form s) :
    Form (hardyLoadRun kind s j st pb).1 := by
  unfold hardyLoadRun
  extract_lets _ _ _
  split
  · next e => exact form_fst_of_eq (readSetCols_kept h) e
  · next e2 => exact countDies_kept (foldl_kept (fun _ _ ht => hardyMod_kept ht) (form_fst_of_eq (readSetCols_kept h) e2))

theorem insertOn_kept {kind : Nat} {new : List HardyEntry} {htab d : Nat} {s t : State} {x : Nat × Nat} (h : Form s)
    (e : insertOn kind new htab s d = some (t, x)) : Form t := by
  obtain ⟨_, _, ht⟩ := Option.map_eq_some_iff.1 e
  obtain ⟨rfl, -⟩ := Prod.mk.inj ht
  exact count_kept (hardyMod_kept h)

theorem hardyInsertRun_kept {kind : Nat} {s : State} {j : Job} {st : PlanStep} {pb : List Byte} (h : Form s) :
    Form (hardyInsertRun kind s j st pb).1 := by
  unfold hardyInsertRun
  extract_lets _
  split
  · next e => exact form_fst_of_eq (readSetCols_kept h) e
  · next s1 _ e =>
      have hs1 : Form s1 := form_fst_of_eq (readSetCols_kept h) e
      extract_lets _ _ _ _
      dsimp only
      refine foldl_proj_kept Prod.fst (fun _ _ hacc => ?_) hs1
      split
      · next e2 => exact insertOn_kept hacc e2
      · exact hacc

theorem execHardyRebalance_kept {step : Nat} {s : State} (h : Form s) : NextKept (execHardyRebalance step s) := by
  unfold execHardyRebalance
  refine nextKept ?_
  split
  · exact h
  · extract_lets _ _ s1
    have hs1 : Form s1 := by
      unfold s1
      refine foldl_kept (fun _ _ ht => ?_) h
      split
      · exact ht
      · exact count_kept (count_kept (hardyMod_kept ht))
    exact setResult_kept hs1

theorem execRangeBucketLoad_kept {step : Nat} {s : State} (h : Form s) : NextKept (execRangeBucketLoad step s) :=
  nextKept (runStep_kept h (fun _ _ _ _ ht => hardyLoadRun_kept ht))

theorem execRangeBucketInsert_kept {step : Nat} {s : State} (h : Form s) : NextKept (execRangeBucketInsert step s) :=
  nextKept (runStep_kept h (fun _ _ _ _ ht => hardyInsertRun_kept ht))

theorem execRangeJoinLoad_kept {step : Nat} {s : State} (h : Form s) : NextKept (execRangeJoinLoad step s) :=
  nextKept (runStep_kept h (fun _ _ _ _ ht => hardyLoadRun_kept ht))

theorem execRangeJoinInsert_kept {step : Nat} {s : State} (h : Form s) : NextKept (execRangeJoinInsert step s) :=
  nextKept (runStep_kept h (fun _ _ _ _ ht => hardyInsertRun_kept ht))

theorem execMaskMatchLoad_kept {step : Nat} {s : State} (h : Form s) : NextKept (execMaskMatchLoad step s) :=
  nextKept (runStep_kept h (fun _ _ _ _ ht => hardyLoadRun_kept ht))

theorem noteFix_kept {s : State} {d htab : Nat} {parity : Bool} (h : Form s) : Form (noteFix s d htab parity) :=
  stickySet_kept (count_kept (eccEvent_kept (hardyMod_kept (form_of_eq h rfl rfl))))

theorem noteShadow_kept {s : State} {d n : Nat} (h : Form s) : Form (noteShadow s d n) := by
  refine foldl_kept (fun t x ht => eccEvent_kept ?_) h
  exact form_of_eq ht rfl rfl

/-- A word of an engine's memory found bad, at any place. -/
theorem poisonAt_kept {s : State} {a : Nat} {sy : BitVec 8} {kind : BitVec 2} {u : Option Nat} (h : Form s) :
    Form { eccEvent s a sy kind with mem := { (eccEvent s a sy kind).mem with badUnit := u } } :=
  form_of_parts (eccEvent_kept h) rfl rfl rfl rfl rfl

theorem checkEntry_kept {u : SearchUse} {k : Nat} {s : State} {e : HardyEntry} (h : Form s) : Form (checkEntry u k s e).1 := by
  rw [checkEntry]
  split
  · exact h
  · split
    · exact poisonAt_kept (form_of_eq h rfl rfl)
    · split
      · exact noteShadow_kept h
      · exact noteFix_kept (noteShadow_kept h)

theorem checkBlock_kept {u : SearchUse} {k : Nat} {s : State} {es : List HardyEntry} (h : Form s) : Form (checkBlock u k s es).1 := by
  induction es generalizing s with
  | nil => exact h
  | cons e es ih =>
    rw [checkBlock]
    split
    · next e2 => exact form_fst_of_eq (checkEntry_kept h) e2
    · next e2 => exact ih (form_fst_of_eq (checkEntry_kept h) e2)

theorem checkBlocks_kept {u : SearchUse} {k : Nat} {s : State} {bs : List (List HardyEntry)} (h : Form s) : Form (checkBlocks u k s bs).1 := by
  induction bs generalizing s with
  | nil => exact h
  | cons b bs ih =>
    rw [checkBlocks]
    split
    · next e => exact form_fst_of_eq (checkBlock_kept h) e
    · next e => exact ih (form_fst_of_eq (checkBlock_kept h) e)

theorem searchKey_kept {u : SearchUse} {upsets : List HardyUpset} {acc : SearchRun} {x : Nat × Nat} (h : Form acc.state) :
    Form (searchKey u upsets acc x).state := by
  unfold searchKey
  extract_lets _ r
  have hr : Form r.1 := checkBlocks_kept h
  split
  · exact h
  · exact count_kept hr

theorem dieSearch_kept {s : State} {u : SearchUse} {passes : Nat} {blocks : List (List HardyEntry)} {upsets : List HardyUpset} {keys : List Nat}
    (h : Form s) : Form (dieSearch s u passes blocks upsets keys).state := by
  unfold dieSearch
  extract_lets _ _ r
  have hr : Form r.state := foldl_proj_kept SearchRun.state (fun _ _ ht => searchKey_kept ht) h
  split
  · exact hr
  · exact hardyMod_kept hr

theorem scopeSearch_kept {s : State} {scope kind htab passes : Nat} {list : Option (List (List HardyEntry))} {upsets : List HardyUpset}
    {rows : List (Nat × Option Nat)} (h : Form s) : Form (scopeSearch s scope kind htab passes list upsets rows).1 :=
  foldl_proj_kept Prod.fst (fun _ _ ht => dieSearch_kept ht) h

theorem bucketSearchRun_kept {upsets : List HardyUpset} {s : State} {j : Job} {st : PlanStep} {pb : List Byte} (h : Form s) :
    Form (bucketSearchRun upsets s j st pb).1 := by
  unfold bucketSearchRun
  extract_lets _ _
  split
  · next e => exact form_fst_of_eq (readSetCols_kept h) e
  · next s1 _ e2 =>
      have hs1 : Form s1 := form_fst_of_eq (readSetCols_kept h) e2
      extract_lets _
      split
      · next s2 _ _ e =>
          have hs2 : Form s2 := form_fst_of_eq (scopeSearch_kept hs1) e
          extract_lets _ _ _
          split
          · exact hs2
          · exact hs2

theorem execRangeBucketSearch_kept {step : Nat} {upsets : List HardyUpset} {s : State} (h : Form s) :
    NextKept (execRangeBucketSearch step upsets s) :=
  nextKept (runStep_kept h (fun _ _ _ _ ht => bucketSearchRun_kept ht))

theorem rangeJoinSearchRun_kept {upsets : List HardyUpset} {s : State} {j : Job} {st : PlanStep} {pb : List Byte} (h : Form s) :
    Form (rangeJoinSearchRun upsets s j st pb).1 := by
  unfold rangeJoinSearchRun
  extract_lets _ _ _ _ _ _ _
  split
  · next e => exact form_fst_of_eq (readSetCols_kept h) e
  · next s1 _ e2 =>
      have hs1 : Form s1 := form_fst_of_eq (readSetCols_kept h) e2
      split
      · next e3 => exact form_fst_of_eq (readSetCols_kept hs1) e3
      · next s2 _ e =>
          have hs2 : Form s2 := form_fst_of_eq (readSetCols_kept hs1) e
          extract_lets _ _ _
          split
          · next s3 _ _ e3 =>
              have hs3 : Form s3 := form_fst_of_eq (scopeSearch_kept hs2) e3
              extract_lets _ _ _ _ _ _ _ _
              split
              · exact hs3
              · split
                · exact hs3
                · exact putSet_kept hs3

theorem execRangeJoinSearch_kept {step : Nat} {upsets : List HardyUpset} {s : State} (h : Form s) : NextKept (execRangeJoinSearch step upsets s) :=
  nextKept (runStep_kept h (fun _ _ _ _ ht => rangeJoinSearchRun_kept ht))

theorem maskSearchRun_kept {upsets : List HardyUpset} {s : State} {j : Job} {st : PlanStep} {pb : List Byte} (h : Form s) :
    Form (maskSearchRun upsets s j st pb).1 := by
  unfold maskSearchRun
  extract_lets _ _ _
  split
  · next e => exact form_fst_of_eq (readSetCols_kept h) e
  · next s1 _ e2 =>
      have hs1 : Form s1 := form_fst_of_eq (readSetCols_kept h) e2
      extract_lets _
      split
      · next s2 _ _ e =>
          have hs2 : Form s2 := form_fst_of_eq (scopeSearch_kept hs1) e
          extract_lets _ _ _ _ _
          split
          · exact hs2
          · exact hs2

theorem execMaskMatchSearch_kept {step : Nat} {upsets : List HardyUpset} {s : State} (h : Form s) : NextKept (execMaskMatchSearch step upsets s) :=
  nextKept (runStep_kept h (fun _ _ _ _ ht => maskSearchRun_kept ht))

theorem inTerm_kept {s : State} {j : Job} {st : PlanStep} {pb : List Byte} {ds : List (List Byte)} {rows : List Row} {upsets : List HardyUpset}
    {t : Term} (h : Form s) : Form (inTerm s j st pb ds rows upsets t).1 :=
  foldl_proj_kept Prod.fst (fun _ _ ht => dieSearch_kept ht) h

theorem filterTerms_kept {s : State} {j : Job} {st : PlanStep} {pb : List Byte} {ds : List (List Byte)} {rows : List Row}
    {upsets : List HardyUpset} (h : Form s) : Form (filterTerms s j st pb ds rows upsets).1 := by
  unfold filterTerms
  refine foldl_proj_kept Prod.fst (fun _ _ ht => ?_) h
  extract_lets r
  have hr : Form r.1 := inTerm_kept ht
  split
  · exact hr
  · exact ht

theorem loadLists_kept {s : State} {j : Job} {st : PlanStep} {pb : List Byte} (h : Form s) : Form (loadLists s j st pb) := by
  unfold loadLists
  split
  · exact countDies_kept h
  · exact h

theorem filterRun_kept {upsets : List HardyUpset} {s : State} {j : Job} {st : PlanStep} {pb : List Byte} (h : Form s) :
    Form (filterRun upsets s j st pb).1 := by
  unfold filterRun
  extract_lets _ _ _ _
  split
  · next e => exact form_fst_of_eq (readSetCols_kept (loadLists_kept h)) e
  · next s1 _ e2 =>
      have hs1 : Form s1 := form_fst_of_eq (readSetCols_kept (loadLists_kept h)) e2
      extract_lets _
      split
      · next s2 _ _ e =>
          have hs2 : Form s2 := form_fst_of_eq (filterTerms_kept hs1) e
          extract_lets _ _ _ _ _ _
          split
          · exact hs2
          · split
            · exact putSet_kept hs2
            · exact hs2

theorem execFilter_kept {step : Nat} {upsets : List HardyUpset} {s : State} (h : Form s) : NextKept (execFilter step upsets s) :=
  nextKept (runStep_kept h (fun _ _ _ _ ht => filterRun_kept ht))

/-! ### Statistics -/

theorem accRange_kept {s : State} {scope n : Nat} {any : Bool} {r : ActResult} (h : Form s) : Form (accRange s scope n any r).1 := by
  unfold accRange
  split
  · exact stickySet_kept (count_kept h)
  · exact h

theorem statsColumnsRun_kept {peers : List (List PeerStat)} {s : State} {j : Job} {st : PlanStep} {pb : List Byte} (h : Form s) :
    Form (statsColumnsRun peers s j st pb).1 := by
  unfold statsColumnsRun
  extract_lets _ _ _ _
  split
  · next e => exact form_fst_of_eq (readSetCols_kept h) e
  · next e2 => exact accRange_kept (form_fst_of_eq (readSetCols_kept h) e2)

theorem execStatsColumns_kept {step : Nat} {peers : List (List PeerStat)} {s : State} (h : Form s) : NextKept (execStatsColumns step peers s) :=
  nextKept (runStep_kept h (fun _ _ _ _ ht => statsColumnsRun_kept ht))

theorem statsKeysampleRun_kept {peers : List Nat} {s : State} {j : Job} {st : PlanStep} {pb : List Byte} (h : Form s) :
    Form (statsKeysampleRun peers s j st pb).1 := by
  unfold statsKeysampleRun
  extract_lets _ _ _ _ _
  split
  · next e => exact form_fst_of_eq (readSetCols_kept h) e
  · next e2 => exact form_fst_of_eq (readSetCols_kept h) e2

theorem execStatsKeysample_kept {step : Nat} {peerHashes : List Nat} {s : State} (h : Form s) : NextKept (execStatsKeysample step peerHashes s) :=
  nextKept (runStep_kept h (fun _ _ _ _ ht => statsKeysampleRun_kept ht))

theorem normaliseRun_kept {s : State} {j : Job} {st : PlanStep} {pb : List Byte} (h : Form s) : Form (normaliseRun s j st pb).1 := by
  unfold normaliseRun
  extract_lets _ _ _ _ _ _
  split
  · next e => exact form_fst_of_eq (readSetCols_kept h) e
  · next s1 _ e2 =>
      have hs1 : Form s1 := form_fst_of_eq (readSetCols_kept h) e2
      extract_lets _
      split
      · next e3 =>
          refine form_fst_of_eq ?_ e3
          split
          · exact hs1
          · exact readDesc_kept hs1
      · next s2 _ e =>
          have hs2 : Form s2 := by
            refine form_fst_of_eq ?_ e
            split
            · exact hs1
            · exact readDesc_kept hs1
          exact putSet_kept hs2

theorem execNormalise_kept {step : Nat} {s : State} (h : Form s) : NextKept (execNormalise step s) :=
  nextKept (runStep_kept h (fun _ _ _ _ ht => normaliseRun_kept ht))

/-! ### Selections -/

theorem selInput_kept {s : State} {j : Job} {st : PlanStep} {pb : List Byte} (h : Form s) : Form (selInput s j st pb).1 := by
  unfold selInput
  extract_lets _ _ _ _ _
  split
  · split
    · next e =>
        refine form_fst_of_eq ?_ e
        split
        · exact readDesc_kept h
        · exact h
    · next e =>
        refine form_fst_of_eq ?_ e
        split
        · exact readDesc_kept h
        · exact h
  · split
    · next e => exact form_fst_of_eq (readSetCols_kept h) e
    · next e2 => exact form_fst_of_eq (readSetCols_kept h) e2

theorem noteCopies_kept {s : State} {r : Resolved} (h : Form s) : Form (noteCopies s r) := by
  unfold noteCopies
  extract_lets s1
  have hs1 : Form s1 := form_ite h (count_kept h)
  split
  · exact hs1
  · exact stickySet_kept (count_kept hs1)

theorem selectionRun_kept {op : SelOp} {secA secB : List SelRec} {s : State} {j : Job} {st : PlanStep} {pb : List Byte} (h : Form s) :
    Form (selectionRun op secA secB s j st pb).1 := by
  unfold selectionRun
  split
  · next e => exact form_fst_of_eq (selInput_kept h) e
  · next s1 _ _ _ _ e2 =>
      have hs1 : Form s1 := form_fst_of_eq (selInput_kept h) e2
      extract_lets _ _ _ s2 _ _ _ _ _ _ _ _
      have hs2 : Form s2 := noteCopies_kept hs1
      split
      · split
        · exact hs2
        · exact hs2

theorem execSelectAbove_kept {step : Nat} {secA secB : List SelRec} {s : State} (h : Form s) : NextKept (execSelectAbove step secA secB s) :=
  nextKept (runStep_kept h (fun _ _ _ _ ht => selectionRun_kept ht))

theorem execTopk_kept {step : Nat} {secA secB : List SelRec} {s : State} (h : Form s) : NextKept (execTopk step secA secB s) :=
  nextKept (runStep_kept h (fun _ _ _ _ ht => selectionRun_kept ht))

theorem execSortSegment_kept {step : Nat} {secA secB : List SelRec} {s : State} (h : Form s) : NextKept (execSortSegment step secA secB s) :=
  nextKept (runStep_kept h (fun _ _ _ _ ht => selectionRun_kept ht))

end Sys2Proof.Laws
end

section
/-!
PROOFS. The canonical form of memory and the unit pages (R15, R297) through the embedding tables and the curves.
-/
namespace Sys2Proof.Laws

open Sys2Proof.Machine

/-! ### The Tongs -/

theorem versionMod_kept {s : State} {id n : Nat} {f : TableVersion → TableVersion} (h : Form s) : Form (versionMod s id n f) :=
  form_of_eq h rfl rfl

theorem tongsMod_kept {s : State} {e : Nat} {f : Tongs → Tongs} (h : Form s) : Form (tongsMod s e f) := form_of_eq h rfl rfl

theorem tongsServe_kept {s : State} {e table row : Nat} (h : Form s) : Form (tongsServe s e table row) := count_kept (tongsMod_kept h)

theorem cacheMod_kept {s : State} {k : Nat} {f : CacheSet → CacheSet} (h : Form s) : Form (cacheMod s k f) := form_of_eq h rfl rfl

theorem cacheLook_kept {s : State} {table version row gen : Nat} (h : Form s) : Form (cacheLook s table version row gen).st := by
  unfold cacheLook
  extract_lets _ _ _ s0 _
  have hs0 : Form s0 := count_kept h
  split
  · exact count_kept (cacheMod_kept h)
  · split
    · exact cacheMod_kept hs0
    · exact cacheMod_kept hs0

theorem execRowCacheDecay_kept {s : State} (h : Form s) : NextKept (execRowCacheDecay s) := by
  unfold execRowCacheDecay
  refine nextKept ?_
  split
  · exact form_of_eq h rfl rfl
  · exact h

theorem fillRequest_kept {source table version row : Nat} {s : State} (h : Form s) : Form (fillRequest source table version row s) := by
  unfold fillRequest
  split
  · exact h
  · split
    · exact h
    · split
      · extract_lets r
        have hr : Form r.st := memRead_kept h
        split
        · exact h
        · split
          · exact hr
          · exact sendTo_kept hr

theorem execRowCacheFillRequest_kept {source table version row : Nat} {s : State} (h : Form s) :
    NextKept (execRowCacheFillRequest source table version row s) :=
  nextKept (fillRequest_kept h)

theorem fillReply_kept {table version row gen : Nat} {image : List Byte} {s : State} (h : Form s) :
    Form (fillReply table version row gen image s) := by
  unfold fillReply
  extract_lets _ _ _
  split
  · exact h
  · split
    · exact h
    · split
      · exact h
      · exact count_kept (memWrite_kept (cacheMod_kept h))

theorem execRowCacheFillReply_kept {table version row gen : Nat} {image : List Byte} {s : State} (h : Form s) :
    NextKept (execRowCacheFillReply table version row gen image s) :=
  nextKept (fillReply_kept h)

/-! ### Lookups and updates -/

theorem LookAcc.access_kept {u : EmbUse} {a : LookAcc} {e row : Nat} (h : Form a.st) : Form (LookAcc.access u a e row).1.st := by
  unfold LookAcc.access
  dsimp only
  split
  · exact h
  · exact tongsServe_kept h

theorem LookAcc.pool_kept {u : EmbUse} {a : LookAcc} {e bag : Nat} {rows addrs : List Nat} (h : Form a.st) :
    Form (LookAcc.pool u a e bag rows addrs).st := by
  have ha : Form (a.access u e (rows.headD 0)).1.st := LookAcc.access_kept h
  unfold LookAcc.pool
  generalize a.access u e (rows.headD 0) = r at ha
  obtain ⟨a1, ok⟩ := r
  dsimp only at ha ⊢
  have hread : Form (addrs.foldl (fun (acc : State × List (List Byte) × Bool) x =>
      ((memRead acc.1 x (rowStride u.table.body)).st, acc.2.1 ++ [(memRead acc.1 x (rowStride u.table.body)).bytes],
        acc.2.2 || (memRead acc.1 x (rowStride u.table.body)).bad.isSome)) (a1.st, [], false)).1 :=
    foldl_proj_kept Prod.fst (fun _ _ ht => memRead_kept ht) ha
  split
  · exact ha
  · split
    · exact hread
    · exact hread

theorem LookAcc.serve_kept {u : EmbUse} {a : LookAcc} {bag : Nat} {rows : List Nat} (h : Form a.st) : Form (LookAcc.serve u a bag rows).st :=
  LookAcc.pool_kept h

theorem lookOcc_kept {j : Job} {u : EmbUse} {a : LookAcc} {o : Occ} (h : Form a.st) : Form (lookOcc j u a o).st := by
  unfold lookOcc
  extract_lets _ _ c _ s1
  have hc : Form c.st := cacheLook_kept h
  have hs1 : Form s1 := form_ite (sendTo_kept hc) hc
  split
  · exact LookAcc.serve_kept h
  · split
    · exact h
    · split
      · exact LookAcc.pool_kept hc
      · exact hs1

theorem forwardTo_kept {s : State} {u : EmbUse} {p : Nat} {b : CtlBody} (h : Form s) : Form (forwardTo s u p b) := sendTo_kept (count_kept h)

theorem lookReq_kept {j : Job} {u : EmbUse} {a : LookAcc} {r : Nat × Nat × Nat} (h : Form a.st) : Form (lookReq j u a r).st := by
  unfold lookReq
  split
  · split
    · exact LookAcc.serve_kept h
    · split
      · exact forwardTo_kept h
      · exact h

theorem takeForwarded_kept {s : State} {u : EmbUse} (h : Form s) : Form (takeForwarded s u) := versionMod_kept h

theorem noteWaits_kept {s : State} {u : EmbUse} {places : List Nat} (h : Form s) : Form (noteWaits s u places) := versionMod_kept h

theorem lookWork_kept {s : State} {j : Job} {u : EmbUse} {occs : List Occ} {requests : List (Nat × Nat × Nat)} (h : Form s) :
    Form (lookWork s j u occs requests).st :=
  foldl_proj_kept LookAcc.st (fun _ _ ht => lookReq_kept ht) (foldl_proj_kept LookAcc.st (fun _ _ ht => lookOcc_kept ht) h)

theorem lookFinish_kept {partials : List PartialBag} {j : Job} {st : PlanStep} {pb : List Byte} {u : EmbUse} {occs : List Occ}
    {counted : Nat × Nat} {a : LookAcc} (h : Form a.st) : Form (lookFinish partials j st pb u occs counted a).1 := by
  unfold lookFinish
  extract_lets _ _ _ _ _ _ _ _ _ _ _ _ _ _ _ _ _
  split
  · exact h
  · split
    · exact h
    · exact accRange_kept h

theorem embLookupRun_kept {requests : List (Nat × Nat × Nat)} {partials : List PartialBag} {s : State} {j : Job} {st : PlanStep} {pb : List Byte}
    (h : Form s) : Form (embLookupRun requests partials s j st pb).1 := by
  unfold embLookupRun
  extract_lets _
  split
  · exact h
  · split
    · next e => exact form_fst_of_eq (readSetCols_kept h) e
    · next e2 => exact lookFinish_kept (lookWork_kept (form_fst_of_eq (readSetCols_kept h) e2))

theorem stepWaits_kept {s t : State} {i op : Nat} {rows : List Nat} (h : Form s) (e : stepWaits s i op rows = some t) : Form t := by
  unfold stepWaits at e
  split at e
  · cases e
  · dsimp only at e
    split at e
    · cases e
    · split at e
      · cases e
      · split at e
        · cases e
        · cases e
          exact noteWaits_kept h

/-- The step that waits for no rows runs, or the one that waits is noted. -/
theorem getD_kept {o : Option State} {s : State} (ho : ∀ t, o = some t → Form t) (h : Form s) : Form (o.getD s) := by
  cases o with
  | none => exact h
  | some t => exact ho t rfl

theorem execEmbLookup_kept {step : Nat} {requests : List (Nat × Nat × Nat)} {partials : List PartialBag} {s : State} (h : Form s) :
    NextKept (execEmbLookup step requests partials s) :=
  nextKept (getD_kept (fun _ e => stepWaits_kept h e) (runStep_kept h (fun _ _ _ _ ht => embLookupRun_kept ht)))

theorem updOne_kept {j : Job} {st : PlanStep} {pb : List Byte} {u : EmbUse} {a : UpdAcc} {p : Pool} (h : Form a.st) :
    Form (updOne j st pb u a p).st := by
  unfold updOne
  extract_lets _ _ _ _ r _ _ _ _ _ _ _ _
  have hr : Form r.st := memRead_kept (tongsServe_kept h)
  split
  · exact h
  · split
    · exact hr
    · split
      · exact hr
      · exact count_kept hr

theorem readCells_kept {s : State} {j : Job} {st : PlanStep} {i : Nat} (h : Form s) : Form (readCells s j st i).1 := by
  unfold readCells
  extract_lets _
  split
  · next e => exact form_fst_of_eq (readDesc_kept h) e
  · next e => exact form_fst_of_eq (readDesc_kept h) e

theorem readSlots_kept {s : State} {u : EmbUse} {rows : List Nat} (h : Form s) : Form (readSlots s u rows).1 :=
  foldl_proj_kept Prod.fst (fun _ _ ht => memRead_kept ht) h

theorem forwardGrads_kept {s : State} {u : EmbUse} {l : List GradRec} (h : Form s) : Form (forwardGrads s u l).1 := by
  unfold forwardGrads
  refine foldl_proj_kept Prod.fst (fun _ _ ht => ?_) h
  split
  · exact forwardTo_kept ht
  · exact ht

theorem embUpdateWork_kept {grads : List GradRec} {bags : List (Nat × Nat)} {s0 : State} {j : Job} {st : PlanStep} {pb : List Byte} {u : EmbUse}
    {rows : List Row} {gs cs : List ((Nat × Nat) × Elem)} (h : Form s0) : Form (embUpdateWork grads bags s0 j st pb u rows gs cs).1 := by
  unfold embUpdateWork
  extract_lets _ _ _ _ _ _ _ _
  split
  · next s1 _ _ e =>
      have hs1 : Form s1 := by
        refine form_fst_of_eq ?_ e
        split
        · exact readSlots_kept h
        · exact h
      extract_lets _ _ _ _ _ _
      split
      · next t _ e2 =>
          have ht : Form t := form_fst_of_eq (forwardGrads_kept hs1) e2
          extract_lets s _ a _ _
          have hs : Form s := form_ite (form_of_eq ht rfl rfl) ht
          have ha : Form a.st := foldl_proj_kept UpdAcc.st (fun _ _ ht => updOne_kept ht) hs
          split
          · exact ha
          · split
            · exact hs
            · split
              · exact hs
              · split
                · exact ha
                · exact accRange_kept ha

theorem embUpdateRun_kept {grads : List GradRec} {bags : List (Nat × Nat)} {s : State} {j : Job} {st : PlanStep} {pb : List Byte} (h : Form s) :
    Form (embUpdateRun grads bags s j st pb).1 := by
  unfold embUpdateRun
  split
  · exact h
  · split
    · next e => exact form_fst_of_eq (readSetCols_kept h) e
    · next s1 _ e2 =>
        have hs1 : Form s1 := form_fst_of_eq (readSetCols_kept h) e2
        split
        · next e3 => exact form_fst_of_eq (readCells_kept hs1) e3
        · next s2 _ e =>
            have hs2 : Form s2 := form_fst_of_eq (readCells_kept hs1) e
            split
            · next e4 =>
                refine form_fst_of_eq ?_ e4
                split
                · exact readCells_kept hs2
                · exact hs2
            · next s3 _ e3 =>
                have hs3 : Form s3 := by
                  refine form_fst_of_eq ?_ e3
                  split
                  · exact readCells_kept hs2
                  · exact hs2
                exact embUpdateWork_kept hs3

theorem execEmbUpdate_kept {step : Nat} {input : GradInput} {s : State} (h : Form s) : NextKept (execEmbUpdate step input s) :=
  nextKept (getD_kept (fun _ e => stepWaits_kept h e) (runStep_kept h (fun _ _ _ _ ht => embUpdateRun_kept ht)))

theorem lateGrad_kept {s : State} {j : Job} {st : PlanStep} {t : EmbTable} {v : TableVersion} {issue : Nat} {g : GradRec} (h : Form s) :
    Form (lateGrad s j st t v issue g) :=
  memWriteAll_kept (updOne_kept h)

theorem hearForwardedRecord_kept {s : State} {table version issue op : Nat} {put : TableVersion → TableVersion} {grad : Option GradRec}
    (h : Form s) : Form (hearForwardedRecord s table version issue op put grad) := by
  unfold hearForwardedRecord
  extract_lets s1
  have hs1 : Form s1 := versionMod_kept h
  split
  · split
    · split
      · split
        · exact setJob_kept hs1
        · exact hs1
      · split
        · exact hs1
        · split
          · exact lateGrad_kept h
          · exact h
    · exact h
  · exact h

/-! ### Tables, curves and migrations -/

theorem tableCommand_kept {k : Nat} {remote : List (BitVec 16)} {m : List Byte} {c : Checked} {effect : State → List Byte → State}
    {answer : State → List Byte → State} (h : Form c.1) (heffect : ∀ t x, Form t → Form (effect t x))
    (hanswer : ∀ t x, Form t → Form (answer t x)) : Form (tableCommand k remote m c effect answer) := by
  unfold tableCommand
  split
  · exact respond_kept h
  · extract_lets _
    split
    · exact respond_kept h
    · exact hanswer _ _ (sendTo_kept (heffect _ _ h))

theorem refBytes_kept {s : State} {a n : Nat} (h : Form s) : Form (refBytes s a n).1 := readRef_kept h

theorem checkOk_kept {b : Bool} {c : Checked} (h : Form c.1) : Form (checkOk b c).1 := by
  unfold checkOk
  split
  · exact h
  · exact h

theorem completeMigration_kept {s : State} {g : Migration} {status : BitVec 16} (h : Form s) : Form (completeMigration s g status) := by
  unfold completeMigration
  split
  · exact complete_kept h
  · exact h

theorem sweepVersions_kept {s : State} (h : Form s) : Form (sweepVersions s) :=
  foldl_kept (fun _ _ ht => completeMigration_kept ht) (form_of_eq h rfl rfl)

theorem sweepCurves_kept {s : State} (h : Form s) : Form (sweepCurves s) := form_of_eq h rfl rfl

theorem sweepStores_kept {s : State} (h : Form s) : Form (sweepStores s) := sweepCurves_kept (sweepVersions_kept h)

theorem curveCheck_kept {s : State} {body : List Byte} (h : Form s) : Form (curveCheck s body).1 := by
  unfold curveCheck
  extract_lets _ held _ _
  split
  · exact h
  · split
    · cases held with
      | none => exact h
      | some c =>
        dsimp only
        split
        · exact h
        · exact h
    · split
      · exact h
      · split
        · exact h
        · split
          · next e => exact form_fst_of_eq (refBytes_kept h) e
          · next e => exact form_fst_of_eq (refBytes_kept h) e

theorem curveEffect_kept {s : State} {body img : List Byte} (h : Form s) : Form (curveEffect s body img) := by
  unfold curveEffect
  extract_lets _ _
  split
  · exact sweepCurves_kept (form_of_eq h rfl rfl)
  · split
    · exact h
    · exact form_of_eq h rfl rfl

theorem curveAnswer_kept {k : Nat} {m : List Byte} {s : State} {img : List Byte} (h : Form s) : Form (curveAnswer k m s img) := respond_kept h

theorem execVmpCurveLoad_kept {pair : Nat} {remote : List (BitVec 16)} {s : State} (h : Form s) : NextKept (execVmpCurveLoad pair remote s) :=
  nextKept (takeRequest_kept h (fun _ _ ht => tableCommand_kept (curveCheck_kept ht) (fun _ _ ht => curveEffect_kept ht)
      (fun _ _ ht => curveAnswer_kept ht)))

theorem createCheck_kept {s : State} {body : List Byte} (h : Form s) : Form (createCheck s body).1 := checkOk_kept h

theorem createEffect_kept {target : Uid} {s : State} {body : List Byte} (h : Form s) : Form (createEffect target s body) := form_of_eq h rfl rfl

theorem execVmpTableCreate_kept {pair : Nat} {remote : List (BitVec 16)} {s : State} (h : Form s) : NextKept (execVmpTableCreate pair remote s) :=
  nextKept (takeRequest_kept h (fun _ _ ht => tableCommand_kept (createCheck_kept ht) (fun _ _ ht => createEffect_kept ht)
      (fun _ _ ht => respond_kept ht)))

theorem tableMod_kept {s : State} {id : Nat} {f : EmbTable → EmbTable} (h : Form s) : Form (tableMod s id f) := form_of_eq h rfl rfl

theorem cloneRows_kept {s : State} {t : EmbTable} {v : TableVersion} {moved : List (Nat × List Byte)} (h : Form s) : Form (cloneRows s t v moved).1 :=
  foldl_proj_kept Prod.fst (fun _ _ ht => memRead_kept ht) h

theorem loadRows_kept {s : State} {t : EmbTable} {body : List Byte} {moved : List (Nat × List Byte)} (h : Form s) :
    Form (loadRows s t body moved).1 := by
  unfold loadRows
  split
  · split
    · next e => exact form_fst_of_eq (refBytes_kept h) e
    · next e => exact form_fst_of_eq (refBytes_kept h) e
  · split
    · exact h
    · exact cloneRows_kept h
  · exact h

theorem loadCheck_kept {s : State} {target : Uid} {body : List Byte} {moved : List (Nat × List Byte)} (h : Form s) :
    Form (loadCheck s target body moved).1 := by
  unfold loadCheck
  split
  · exact h
  · exact loadRows_kept h

theorem writeRows_kept {s : State} {t : EmbTable} {v : TableVersion} {p : List Byte} (h : Form s) : Form (writeRows s t v p) := by
  unfold writeRows
  extract_lets _
  refine foldl_kept (fun _ _ ht => ?_) h
  extract_lets _
  split
  · split
    · exact memWrite_kept ht
    · exact ht

theorem loadEffect_kept {req : Option (Nat × List Byte)} {s : State} {body p : List Byte} (h : Form s) : Form (loadEffect req s body p) := by
  unfold loadEffect
  split
  · exact h
  · exact tableMod_kept (writeRows_kept (foldl_kept (fun _ _ ht => clearRange_kept ht) h))

theorem execVmpTableLoad_kept {pair : Nat} {remote : List (BitVec 16)} {moved : List (Nat × List Byte)} {s : State} (h : Form s) :
    NextKept (execVmpTableLoad pair remote moved s) :=
  nextKept (takeRequest_kept h (fun _ _ ht => tableCommand_kept (loadCheck_kept ht) (fun _ _ ht => loadEffect_kept ht)
      (fun _ _ ht => holdRequest_kept ht)))

theorem finishLoad_kept {s : State} {id n : Nat} {req : Option (Nat × List Byte)} (h : Form s) : Form (finishLoad s id n req) := by
  unfold finishLoad
  extract_lets s1
  have hs1 : Form s1 := versionMod_kept h
  split
  · exact respondHeld_kept hs1
  · exact hs1

theorem finishLoads_kept {s : State} (h : Form s) : Form (finishLoads s) := foldl_kept (fun _ _ ht => finishLoad_kept ht) h

theorem activateCheck_kept {s : State} {target : Uid} {body : List Byte} (h : Form s) : Form (activateCheck s target body).1 := by
  unfold activateCheck
  split
  · exact h
  · split
    · exact h
    · exact checkOk_kept h

theorem activateEffect_kept {owner : Option (BitVec 12 × Nat × BitVec 16)} {s : State} {body : List Byte} (h : Form s) :
    Form (activateEffect owner s body) :=
  versionMod_kept h

theorem execVmpTableActivate_kept {pair : Nat} {remote : List (BitVec 16)} {s : State} (h : Form s) : NextKept (execVmpTableActivate pair remote s) :=
  nextKept (takeRequest_kept h (fun _ _ ht => tableCommand_kept (activateCheck_kept ht) (fun _ _ ht => activateEffect_kept ht)
      (fun _ _ ht => respondAccepted_kept ht)))

theorem activateVersion_kept {s : State} {id : Nat} {v : TableVersion} {a : TableActivation} (h : Form s) : Form (activateVersion s id v a) := by
  unfold activateVersion
  extract_lets _ s1
  have hs1 : Form s1 := tableMod_kept h
  split
  · exact complete_kept hs1
  · exact hs1

theorem activateVersions_kept {s : State} (h : Form s) : Form (activateVersions s) :=
  sweepVersions_kept (foldl_kept (fun _ _ ht => activateVersion_kept ht) h)

theorem execTableVersionActivation_kept {s : State} (h : Form s) : NextKept (execTableVersionActivation s) := nextKept (activateVersions_kept h)

theorem retireCheck_kept {s : State} {target : Uid} {body : List Byte} (h : Form s) : Form (retireCheck s target body).1 := by
  unfold retireCheck
  split
  · split
    · exact checkOk_kept h
    · exact h
  · split
    · exact checkOk_kept h
    · exact h

theorem dropMigration_kept {s : State} {id n : Nat} (h : Form s) : Form (dropMigration s id n) := by
  unfold dropMigration
  split
  · split
    · exact h
    · exact completeMigration_kept (versionMod_kept h)
  · exact h

theorem retireEffect_kept {s : State} {body : List Byte} (h : Form s) : Form (retireEffect s body) := by
  unfold retireEffect
  extract_lets _ _ _
  split
  · exact form_of_eq h rfl rfl
  · exact sweepVersions_kept (dropMigration_kept (versionMod_kept h))

theorem execVmpTableRetire_kept {pair : Nat} {remote : List (BitVec 16)} {s : State} (h : Form s) : NextKept (execVmpTableRetire pair remote s) :=
  nextKept (takeRequest_kept h (fun _ _ ht => tableCommand_kept (retireCheck_kept ht) (fun _ _ ht => retireEffect_kept ht)
      (fun _ _ ht => respond_kept ht)))

theorem migrateCheck_kept {s : State} {target : Uid} {body : List Byte} (h : Form s) : Form (migrateCheck s target body).1 := by
  unfold migrateCheck
  extract_lets _ _
  split
  · exact h
  · split
    · exact h
    · split
      · exact h
      · split
        · next e => exact form_fst_of_eq (refBytes_kept h) e
        · next e => exact checkOk_kept (form_fst_of_eq (refBytes_kept h) e)

theorem sendImage_kept {s : State} {t : EmbTable} {v : TableVersion} {g : Migration} {i : Nat} (h : Form s) : Form (sendImage s t v g i) := by
  unfold sendImage
  extract_lets r
  have hr : Form r.st := memRead_kept h
  split
  · exact hr
  · exact sendTo_kept hr

theorem beginMigration_kept {s : State} {t : EmbTable} {v : TableVersion} {dst addr strike : Nat} {rows : List Nat}
    {owner : Option (BitVec 12 × Nat × BitVec 16)} (h : Form s) : Form (beginMigration s t v dst addr strike rows owner) := by
  unfold beginMigration
  extract_lets _ _ s1
  have hs1 : Form s1 := versionMod_kept h
  split
  · exact foldl_kept (fun _ _ ht => sendImage_kept ht) hs1
  · exact hs1

theorem migrateEffect_kept {owner : Option (BitVec 12 × Nat × BitVec 16)} {s : State} {body p : List Byte} (h : Form s) :
    Form (migrateEffect owner s body p) := by
  unfold migrateEffect
  split
  · exact h
  · exact beginMigration_kept h

theorem execVmpTableMigrate_kept {pair : Nat} {remote : List (BitVec 16)} {s : State} (h : Form s) : NextKept (execVmpTableMigrate pair remote s) :=
  nextKept (takeRequest_kept h (fun _ _ ht => tableCommand_kept (migrateCheck_kept ht) (fun _ _ ht => migrateEffect_kept ht)
      (fun _ _ ht => respondAccepted_kept ht)))

theorem setMigration_kept {s : State} {table version : Nat} {f : Migration → Migration} (h : Form s) : Form (setMigration s table version f) :=
  versionMod_kept h

theorem imageReceive_kept {table version row : Nat} {image : List Byte} {s : State} (h : Form s) : Form (imageReceive table version row image s) := by
  unfold imageReceive
  split
  · exact h
  · extract_lets _
    split
    · exact h
    · extract_lets _ meta'
      have hmeta' : Form meta'.st := memRead_kept h
      split
      · exact h
      · split
        · exact hmeta'
        · exact setMigration_kept (memWrite_kept h)

theorem execMigrationImageReceive_kept {table version row : Nat} {image : List Byte} {s : State} (h : Form s) :
    NextKept (execMigrationImageReceive table version row image s) :=
  nextKept (imageReceive_kept h)

theorem cutOver_kept {s : State} {table version : Nat} (h : Form s) : Form (cutOver s table version) := by
  unfold cutOver
  split
  · exact h
  · split
    · exact h
    · split
      · exact dropMigration_kept h
      · exact versionMod_kept h

theorem execMigrationCutOver_kept {table version : Nat} {s : State} (h : Form s) : NextKept (execMigrationCutOver table version s) :=
  nextKept (cutOver_kept h)

theorem activateDue_kept {s : State} (h : Form s) : Form (activateDue s) :=
  foldl_kept (fun _ _ ht => cutOver_kept ht) (activateVersions_kept (finishLoads_kept h))

theorem execMigrationEndSend_kept {table version : Nat} {s : State} (h : Form s) : NextKept (execMigrationEndSend table version s) := by
  unfold execMigrationEndSend
  refine nextKept ?_
  split
  · exact h
  · split
    · exact sendTo_kept (setMigration_kept h)
    · exact h

theorem endReceive_kept {table version : Nat} {s : State} (h : Form s) : Form (endReceive table version s) := by
  unfold endReceive
  split
  · exact h
  · split
    · exact foldl_kept (fun _ _ ht => count_kept ht) (setMigration_kept h)
    · exact h

theorem execMigrationEndReceive_kept {table version : Nat} {s : State} (h : Form s) : NextKept (execMigrationEndReceive table version s) :=
  nextKept (endReceive_kept h)

theorem execMigrationForwardWindowEnd_kept {table version : Nat} {s : State} (h : Form s) :
    NextKept (execMigrationForwardWindowEnd table version s) := by
  unfold execMigrationForwardWindowEnd
  extract_lets s1
  have hs1 : Form s1 := versionMod_kept h
  refine nextKept ?_
  split
  · exact h
  · extract_lets _
    split
    · refine completeMigration_kept ?_
      split
      · exact count_kept hs1
      · exact hs1
    · exact h

theorem execAutoMigration_kept {table version : Nat} {lower higher : List (List Nat)} {dstAddr : Word} {s : State} (h : Form s) :
    NextKept (execAutoMigration table version lower higher dstAddr s) := by
  unfold execAutoMigration
  extract_lets _ _ _
  refine nextKept ?_
  split
  · exact h
  · extract_lets _ _ s1
    have hs1 : Form s1 := beginMigration_kept h
    split
    · exact sendTo_kept hs1
    · exact h

theorem hearLoad_kept {s : State} {t : EmbTable} {body p : List Byte} (h : Form s) : Form (hearLoad s t body p) := by
  unfold hearLoad
  split
  · exact loadEffect_kept h
  · split
    · next e => exact form_fst_of_eq (loadRows_kept h) e
    · next e => exact loadEffect_kept (form_fst_of_eq (loadRows_kept h) e)

theorem hearVmp_kept {s : State} {m : List Byte} (h : Form s) : Form (hearVmp s m) := by
  unfold hearVmp
  extract_lets _ _ _ _ _
  split
  · split
    · exact createEffect_kept h
    · exact h
  · split
    · exact hearLoad_kept h
    · exact h
  · split
    · exact activateEffect_kept h
    · exact h
  · split
    · exact retireEffect_kept h
    · exact h
  · split
    · exact migrateEffect_kept h
    · exact h
  · split
    · exact curveEffect_kept h
    · exact h
  · exact h

end Sys2Proof.Laws
end

section
/-!
PROOFS. The canonical form of memory and the unit pages (R15, R297) through streams, the Swage and the Crucible.
-/
namespace Sys2Proof.Laws

open Sys2Proof.Machine

/-! ### Streams -/

theorem gatherXfers_kept {s : State} {fill : Byte} {i : Nat} {xs : List Xfer} (h : Form s) : Form (gatherXfers s fill i xs).1 := by
  induction xs generalizing s i with
  | nil => exact h
  | cons x xs ih =>
    rw [gatherXfers]
    split
    · extract_lets r
      have hr : Form r.st := by
        unfold r
        split
        · exact h
        · exact memRead_kept h
      split
      · exact hr
      · exact ih hr

theorem ringMod_kept {s : State} {n : Nat} {f : StreamRing → StreamRing} (h : Form s) : Form (ringMod s n f) := form_of_eq h rfl rfl

theorem postCompl_kept {s : State} {st r : Nat} {e : List Byte} (h : Form s) : Form (postCompl s st r e) := by
  unfold postCompl
  extract_lets _
  split
  · split
    · exact count_kept h
    · exact ringMod_kept (memWrite_kept h)

theorem ringEntries_kept {s : State} {j : Job} {h : List Byte} {record rep : Nat} (hk : Form s) : Form (ringEntries s j h record rep).1 :=
  foldl_proj_kept Prod.fst (fun _ _ ht => memRead_kept ht) hk

theorem holdEntries_kept {s : State} {j : Job} {h : List Byte} {record rep : Nat} (hk : Form s) : Form (holdEntries s j h record rep) :=
  setJob_kept hk

theorem bellowsMod_kept {s : State} {st : Nat} {f : Engine → Engine} (h : Form s) : Form (bellowsMod s st f) := form_of_eq h rfl rfl

theorem streamFault_kept {s : State} {j : Job} {record rep st code block moved charge : Nat} (h : Form s) :
    Form (streamFault s j record rep st code block moved charge) := by
  unfold streamFault
  extract_lets _ _ s2 s3
  have hs2 : Form s2 := count_kept (postCompl_kept (bellowsMod_kept h))
  have hs3 : Form s3 := by
    unfold s3
    split
    · exact stickySet_kept (count_kept hs2)
    · split
      · exact hs2
      · exact clearBad_kept hs2
  split
  · exact hs3
  · exact streamStop_kept (setJob_kept hs3)

theorem streamError_kept {s : State} {j : Job} {record rep st code block moved : Nat} (h : Form s) :
    Form (streamError s j record rep st code block moved) :=
  setResult_kept (streamFault_kept h)

theorem unlessFailed_kept {s : State} {j : Job} {record rep st : Nat} {run : State} (h : Form s) (hrun : Form run) :
    Form (unlessFailed s j record rep st run) := by
  unfold unlessFailed
  split
  · exact recordResult_kept h
  · exact hrun

theorem noteMoved_kept {s : State} {st bytes : Nat} {xs : List Xfer} (h : Form s) : Form (noteMoved s st bytes xs) := by
  unfold noteMoved
  extract_lets _ s1
  have hs1 : Form s1 := count_kept h
  split
  · exact hs1
  · exact count_kept (form_of_eq hs1 rfl rfl)

theorem noteDropped_kept {s : State} {st n : Nat} (h : Form s) : Form (noteDropped s st n) := by
  unfold noteDropped
  split
  · exact h
  · exact stickySet_kept (count_kept h)

theorem coreLoop_kept {j : Job} {record rep : Nat} {one : State → Nat → Nat → CorePart} {s : State} {rest : List (Nat × Nat)}
    {ws : List (Nat × List Byte)} {n : Nat} {err : Option (Nat × Nat)} (hone : ∀ t k c, Form t → Form (one t k c).st) (h : Form s) :
    Form (coreLoop j record rep one s rest ws n err) := by
  induction rest generalizing s ws n err with
  | nil => exact setResult_kept h
  | cons x rest ih =>
    obtain ⟨k, c⟩ := x
    rw [coreLoop]
    extract_lets r s1
    have hr : Form r.st := hone _ _ _ h
    have hs1 : Form s1 := noteDropped_kept (noteMoved_kept hr)
    split
    · exact ih h
    · split
      · exact ih (streamFault_kept hs1)
      · exact ih hs1

theorem fillOne_kept {j : Job} {record rep : Nat} {h : List Byte} {s : State} {k c : Nat} (hk : Form s) : Form (fillOne j record rep h s k c).st :=
  gatherXfers_kept hk

theorem drainXfers_kept {s : State} {a i : Nat} {xs : List Xfer} (h : Form s) : Form (drainXfers s a i xs).st := by
  induction xs generalizing s a i with
  | nil => exact h
  | cons x xs ih =>
    rw [drainXfers]
    extract_lets q
    have hq : Form q.st := by
      unfold q
      split
      · exact ih h
      · exact ih (memRead_kept h)
    split
    · split
      · exact h
      · split
        · exact busError_kept h
        · exact hq
    · split
      · exact memRead_kept h
      · split
        · exact busError_kept (memRead_kept h)
        · exact hq

theorem drainOne_kept {j : Job} {record rep : Nat} {h : List Byte} {s : State} {k c : Nat} (hk : Form s) : Form (drainOne j record rep h s k c).st :=
  drainXfers_kept hk

theorem execBellowsFill_kept {record rep : Nat} {s : State} (h : Form s) : NextKept (execBellowsFill record rep s) := by
  unfold execBellowsFill
  refine nextKept ?_
  split
  · exact h
  · exact coreLoop_kept (fun _ _ _ ht => fillOne_kept ht) (clearBad_kept h)

theorem execBellowsDrain_kept {record rep : Nat} {s : State} (h : Form s) : NextKept (execBellowsDrain record rep s) := by
  unfold execBellowsDrain
  refine nextKept ?_
  split
  · exact h
  · exact coreLoop_kept (fun _ _ _ ht => drainOne_kept ht) (clearBad_kept h)

theorem feedFlow_kept {s : State} {num : Word} {f off : Nat} {bs : List Byte} (h : Form s) : Form (feedFlow s num f off bs) := by
  unfold feedFlow
  split
  · exact h
  · exact setJob_kept h

theorem handFlow_kept {s : State} {j : Job} {off : Nat} {x : Nat × List Byte} (h : Form s) : Form (handFlow s j off x) := by
  unfold handFlow
  extract_lets _
  split
  · exact foldl_kept (fun _ _ ht => sendTo_kept ht) h
  · exact feedFlow_kept h

theorem sendFlow_kept {s : State} {j : Job} {record rep : Nat} {h bs : List Byte} (hk : Form s) : Form (sendFlow s j record rep h bs) := by
  unfold sendFlow
  split
  · exact handFlow_kept hk
  · exact hk

theorem execBellowsSend_kept {record rep : Nat} {s : State} (h : Form s) : NextKept (execBellowsSend record rep s) := by
  unfold execBellowsSend
  extract_lets _
  refine nextKept ?_
  split
  · exact h
  · extract_lets _ _
    split
    · next t _ _ e =>
        have ht : Form t := form_fst_of_eq (gatherXfers_kept h) e
        extract_lets s2
        have hs2 : Form s2 := sendFlow_kept (noteMoved_kept ht)
        refine unlessFailed_kept h ?_
        split
        · exact setResult_kept (streamFault_kept hs2)
        · exact setResult_kept hs2

theorem landBytes_kept {s : State} {j : Job} {record rep st : Nat} {xs : List Xfer} {bs : List Byte} (h : Form s) :
    Form (landBytes s j record rep st xs bs) := by
  unfold landBytes
  extract_lets fails done r _
  have hfails : ∀ code block n ws t, Form t → Form (fails code block n ws t) := fun _ _ _ _ _ ht => setResult_kept (streamFault_kept ht)
  have hdone : ∀ ys, Form (done ys).2.2 := fun _ => noteDropped_kept (noteMoved_kept h)
  have hr : Form r.2.2 := hdone xs
  clear_value fails done r
  split
  · exact hfails _ _ _ _ _ (clearBad_kept (hdone _))
  · split
    · exact hfails _ _ _ _ _ hr
    · exact setResult_kept hr

theorem execBellowsLand_kept {record rep : Nat} {bytes : List Byte} {s : State} (h : Form s) : NextKept (execBellowsLand record rep bytes s) := by
  unfold execBellowsLand
  refine nextKept ?_
  split
  · exact h
  · split
    · refine unlessFailed_kept h ?_
      split
      · exact h
      · exact landBytes_kept h

theorem ringShort_kept {s : State} {j : Job} {h : List Byte} {record rep : Nat} (hk : Form s) : Form (ringShort s j h record rep) :=
  ringMod_kept (streamError_kept hk)

theorem ingestXfers_kept {s : State} {j : Job} {h : List Byte} {record rep : Nat} (hk : Form s) : Form (ingestXfers s j h record rep).1 := by
  unfold ingestXfers
  split
  · exact hk
  · split
    · next e => exact form_fst_of_eq (ringEntries_kept hk) e
    · next s1 _ e =>
        have hs1 : Form s1 := form_fst_of_eq (ringEntries_kept hk) e
        extract_lets _
        split
        · exact hs1
        · exact hs1

theorem execBellowsIngest_kept {record rep : Nat} {bytes : List Byte} {handoverOk : Bool} {s : State} (h : Form s) :
    NextKept (execBellowsIngest record rep bytes handoverOk s) := by
  unfold execBellowsIngest
  refine nextKept ?_
  split
  · exact h
  · refine unlessFailed_kept h ?_
    split
    · exact streamError_kept h
    · split
      · exact ringShort_kept h
      · split
        · next s1 _ e =>
            have hs1 : Form s1 := form_fst_of_eq (ingestXfers_kept h) e
            exact streamError_kept hs1
        · next s1 _ e2 =>
            have hs1 : Form s1 := form_fst_of_eq (ingestXfers_kept h) e2
            split
            · exact h
            · exact landBytes_kept hs1

/-! ### The strike edge -/

theorem rateStrike_kept {s : State} {e : Nat × HardyUnit} (h : Form s) : Form (rateStrike s e) := by
  unfold rateStrike
  extract_lets _ _ s0 s1
  have hs0 : Form s0 := hardyMod_kept h
  have hs1 : Form s1 := form_ite hs0 (count_kept hs0)
  split
  · exact stickySet_kept (count_kept hs1)
  · exact hs1

theorem startedLate_kept {s : State} {j : Job} {h : List Byte} {record rep : Nat} (hk : Form s) : Form (startedLate s j h record rep) := by
  unfold startedLate
  extract_lets _ _ _ _ _
  split
  · exact count_kept (stickySet_kept hk)
  · exact hk

theorem holdRings_kept {s : State} (h : Form s) : Form (holdRings s) := by
  unfold holdRings
  split
  · exact h
  · refine foldl_kept (fun _ _ ht => ?_) h
    split
    · extract_lets _ t1
      have ht1 : Form t1 := by
        unfold t1
        split
        · exact holdEntries_kept ht
        · exact ht
      split
      · split
        · exact startedLate_kept ht1
        · exact ht1
      · exact ht
    · exact ht

theorem sendFails_kept {s : State} {p i : Nat} (h : Form s) : Form (sendFails s p i) := by
  unfold sendFails
  split
  · extract_lets _ _ _ _ _ _ _
    split
    · exact h
    · exact setResult_kept (streamFault_kept h)
  · exact h

theorem execPlanStart_kept {s : State} (h : Form s) : NextKept (execPlanStart s) := by
  unfold execPlanStart
  refine nextKept ?_
  split
  · exact h
  · extract_lets started
    have hstarted : Form started := setJob_kept h
    split
    · exact h
    · split
      · extract_lets ended
        have hended : Form ended := endJob_kept hstarted
        refine deadlineComparators_kept ?_
        split
        · exact setJob_kept hended
        · exact hended
      · exact holdRings_kept (runWork_kept (clearMisses_kept (deadlineComparators_kept hstarted)))

theorem beginStrike_kept {e : EdgeInputs} {s : State} (h : Form s) : Form (beginStrike e s) :=
  activateDue_kept (endByMember_kept (applyDue_kept (beginDueResets_kept (resumeHold_kept (trackEdge_kept (nextStrike_kept (installRemaps_kept
      (endStrike_kept (sweepStores_kept h)))))))))

theorem execStrikeEdge_kept {e : EdgeInputs} {s : State} (h : Form s) : NextKept (execStrikeEdge e s) := by
  unfold execStrikeEdge
  split
  · exact nextKept (sendFrames_kept (agePorts_kept h))
  · split
    · exact nextKept_fault
    · extract_lets s2 s3 s4 s5
      have hs2 : Form s2 := beginStrike_kept (agePorts_kept h)
      have hs3 : Form s3 := form_ite (heatWork_kept hs2) hs2
      have hs4 : Form s4 := noteGroups_kept (holdRings_kept (planWork_kept (issueReadmissions_kept hs3)))
      have hs5 : Form s5 := foldl_kept (fun _ _ ht => sendFails_kept ht) (postCommits_kept (foldl_kept (fun _ _ ht => rateStrike_kept ht) hs4))
      exact nextKept (syncPulse_kept (sendFrames_kept hs5))

/-! ### The Swage -/

theorem readLines_kept {s : State} {as : List Nat} (h : Form s) : Form (readLines s as).1 := by
  induction as generalizing s with
  | nil => exact h
  | cons a as ih =>
    rw [readLines]
    split
    · exact memRead_kept h
    · split
      · next e => exact form_fst_of_eq (ih (memRead_kept h)) e
      · next e => exact form_fst_of_eq (ih (memRead_kept h)) e

theorem noteStaged_kept {s : State} {dies : List Nat} {n : Nat} (h : Form s) : Form (noteStaged s dies n) := by
  unfold noteStaged
  extract_lets _
  refine foldl_kept (fun _ _ ht => ?_) h
  split
  · extract_lets _
    split
    · exact ht
    · exact stickySet_kept (count_kept ht)

theorem noteLines_kept {s : State} {dies written masked : List Nat} (h : Form s) : Form (noteLines s dies written masked) :=
  foldl_kept (fun _ _ ht => countIf_kept (countIf_kept ht)) h

theorem noteSlice_kept {s : State} {dies : List Nat} {i : Nat} (h : Form s) : Form (noteSlice s dies i) := form_of_eq h rfl rfl

/-- The function's own recursion is opened here: its equations would have the kernel evaluate a read. -/
theorem readStaged_kept {s : State} {dies : List Nat} {xs : List (Nat × Nat)} (h : Form s) : Form (readStaged s dies xs).1 := by
  obtain ⟨rd, hrd, read⟩ := exists_memRead_kept
  delta readStaged readStaged._f
  rw [hrd]
  induction xs generalizing s with
  | nil => exact h
  | cons x xs ih =>
    obtain ⟨j, a⟩ := x
    have hr := read (a := stagePlace dies j) (n := 64) h
    have hrest := ih hr
    dsimp only at hrest ⊢
    split
    · exact hr
    · split
      · next e => exact form_fst_of_eq hrest e
      · next e => exact form_fst_of_eq hrest e

theorem swageWork_kept {s : State} {j : Job} {st : PlanStep} (h : Form s) : Form (swageWork s j st) := by
  unfold swageWork
  extract_lets _ _ _ _ _ _ _ _ _ _
  split
  · next s0 e =>
      have hs0 : Form s0 := form_fst_of_eq (readLines_kept (noteSlice_kept h)) e
      exact setResult_kept hs0
  · next s0 _ e =>
      have hs0 : Form s0 := form_fst_of_eq (readLines_kept (noteSlice_kept h)) e
      extract_lets s1 s2
      have hs1 : Form s1 := memWriteAll_kept hs0
      have hs2 : Form s2 := form_ite hs1 (setJob_kept hs1)
      split
      · next s3 _ e2 =>
          have hs3 : Form s3 := form_fst_of_eq (readStaged_kept hs2) e2
          exact detectFault_kept hs3
      · next s3 _ e2 =>
          have hs3 : Form s3 := form_fst_of_eq (readStaged_kept hs2) e2
          extract_lets _ _ s4 s5 s6
          have hs4 : Form s4 := noteLines_kept (noteStaged_kept hs3)
          have hs5 : Form s5 := countIf_kept hs4
          have hs6 : Form s6 := form_ite hs5 (stickySet_kept (count_kept hs5))
          exact setResult_kept hs6

theorem execSwageCopy_kept {step : Nat} {s : State} (h : Form s) : NextKept (execSwageCopy step s) := by
  unfold execSwageCopy
  refine nextKept ?_
  split
  · exact h
  · exact swageWork_kept h

/-! ### The Crucible -/

theorem crucibleMod_kept {s : State} {e : Nat} {f : Engine → Engine} (h : Form s) : Form (crucibleMod s e f) := form_of_eq h rfl rfl

theorem crucibleErr_kept {s : State} {e code block : Nat} (h : Form s) : Form (crucibleErr s e code block) := crucibleMod_kept h

theorem packHandover_kept {s t : State} {j : Job} {st : PlanStep} {bad : List Nat} (h : Form s) (e : packHandover s j st bad = some t) : Form t := by
  unfold packHandover at e
  dsimp only at e
  split at e
  · cases e
  · cases e
    exact setResult_kept (foldl_kept (fun _ _ ht => stickySet_kept (count_kept ht)) h)

theorem packOne_kept {base : Nat} {h : RegionHdr} {codes : List (Nat × Nat)} {es bad : List Nat} {first : Nat} {a : PackAcc} {bs : List Byte}
    (hk : Form a.st) : Form (packOne base h codes es bad first a bs).st := by
  unfold packOne
  extract_lets _ _ _ _ _ _ s1 _
  have hs1 : Form s1 := form_ite (crucibleErr_kept (stickySet_kept (count_kept hk))) hk
  split
  · exact hk
  · split
    · exact hk
    · split
      · exact hs1
      · exact count_kept hs1

theorem packBlocks_kept {s : State} {j : Job} {i : Nat} {base : Nat} {h : RegionHdr} {total : Nat} {input : List Byte} {es bad : List Nat}
    (hk : Form s) : Form (packBlocks s j i base h total input es bad) :=
  setResult_kept (foldl_proj_kept PackAcc.st (fun _ _ ht => packOne_kept ht) hk)

theorem packInput_kept {s : State} {j : Job} {i : Nat} {ds : List Byte} {first : Nat} {es : List Nat} {f : State → List Byte → State}
    (h : Form s) (hf : ∀ t x, Form t → Form (f t x)) : Form (packInput s j i ds first es f) := by
  unfold packInput
  extract_lets r _
  have hr : Form r.st := memRead_kept h
  split
  · exact setResult_kept (crucibleErr_kept hr)
  · exact hf _ _ hr

theorem packNewWork_kept {s : State} {j : Job} {st : PlanStep} {bad : List Nat} (h : Form s) : Form (packNewWork s j st bad) :=
  packInput_kept h (fun _ _ ht => packBlocks_kept ht)

theorem headerError_kept {s : State} {j : Job} {i : Nat} {es : List Nat} (h : Form s) : Form (headerError s j i es) :=
  setResult_kept (crucibleErr_kept h)

theorem withHeader_kept {s : State} {j : Job} {i base : Nat} {es : List Nat} {f : State → List Byte → State} (h : Form s)
    (hf : ∀ t x, Form t → Form (f t x)) : Form (withHeader s j i base es f) := by
  unfold withHeader
  extract_lets r _
  have hr : Form r.st := memRead_kept h
  split
  · exact setResult_kept (crucibleErr_kept hr)
  · split
    · exact hf _ _ hr
    · exact headerError_kept hr

theorem packResumeWork_kept {s : State} {j : Job} {st : PlanStep} {bad : List Nat} (h : Form s) : Form (packResumeWork s j st bad) := by
  unfold packResumeWork
  extract_lets _ _ _ _ _
  refine withHeader_kept h (fun _ _ ht => ?_)
  extract_lets _
  split
  · split
    · exact headerError_kept ht
    · exact packInput_kept ht (fun _ _ ht => packBlocks_kept ht)

theorem packServe_kept {s : State} {step mode : Nat} {mismatch : List Nat} {work : State → Job → PlanStep → State} (h : Form s)
    (hwork : ∀ t j st, Form t → Form (work t j st)) : Form (packServe s step mode mismatch work) := by
  unfold packServe
  split
  · exact h
  · split
    · exact h
    · exact getD_kept (fun _ e => packHandover_kept h e) (hwork _ _ _ (clearBad_kept h))

theorem execPackNew_kept {step : Nat} {selfCheckBad mismatch : List Nat} {s : State} (h : Form s) :
    NextKept (execPackNew step selfCheckBad mismatch s) :=
  nextKept (packServe_kept h (fun _ _ _ ht => packNewWork_kept ht))

theorem execPackResume_kept {step : Nat} {selfCheckBad mismatch : List Nat} {s : State} (h : Form s) :
    NextKept (execPackResume step selfCheckBad mismatch s) :=
  nextKept (packServe_kept h (fun _ _ _ ht => packResumeWork_kept ht))

theorem unpackBad_kept {a : UnpackAcc} {e b : Nat} (h : Form a.st) : Form (unpackBad a e b).st :=
  crucibleErr_kept (stickySet_kept (count_kept (count_kept h)))

theorem unpackOne_kept {base out : Nat} {hdr : RegionHdr} {codes : List (Nat × Nat)} {es : List Nat} {first : Nat} {a : UnpackAcc} {i : Nat}
    (h : Form a.st) : Form (unpackOne base out hdr codes es first a i).st := by
  unfold unpackOne
  extract_lets _ _ r a1 _ put _ r2
  have hr : Form r.st := memRead_kept h
  have ha1 : Form a1.st := hr
  have hput : ∀ x bs, Form x.st → Form (put x bs).st := by
    intro x bs hx
    unfold put
    split
    · exact hx
    · exact unpackBad_kept hx
  have hr2 : Form r2.st := memRead_kept ha1
  clear_value r a1 put r2
  split
  · exact h
  · split
    · exact crucibleErr_kept hr
    · split
      · exact unpackBad_kept ha1
      · split
        · split
          · exact unpackBad_kept ha1
          · split
            · exact crucibleErr_kept hr2
            · exact hput _ _ hr2
        · split
          · exact hput _ _ ha1
          · exact unpackBad_kept ha1

theorem unpackWork_kept {s : State} {j : Job} {st : PlanStep} (h : Form s) : Form (unpackWork s j st) := by
  unfold unpackWork
  extract_lets _ _ _ _ _ _ _ _
  refine withHeader_kept h (fun _ _ ht => ?_)
  extract_lets _ a
  have ha : Form a.st := foldl_proj_kept UnpackAcc.st (fun _ _ ht => unpackOne_kept ht) ht
  split
  · exact headerError_kept ht
  · exact setResult_kept ha

theorem execUnpack_kept {step : Nat} {mismatch : List Nat} {s : State} (h : Form s) : NextKept (execUnpack step mismatch s) := by
  unfold execUnpack
  refine nextKept ?_
  split
  · exact h
  · exact getD_kept (fun _ e => packHandover_kept h e) (unpackWork_kept (clearBad_kept h))

theorem execRefreshWindow_kept {step : Nat} {s : State} (h : Form s) : NextKept (execRefreshWindow step s) := by
  unfold execRefreshWindow
  refine nextKept ?_
  split
  · exact h
  · exact setResult_kept h

/-! ### Activities of an edge -/

theorem dealCount_kept {s : State} {c n : Nat} {ks : List Nat} (h : Form s) : Form (dealCount s c n ks) := by
  induction ks generalizing s n with
  | nil => exact h
  | cons k ks ih =>
    cases ks with
    | nil => exact countIf_kept h
    | cons k2 ks =>
      rw [dealCount]
      · split
        · exact h
        · exact ih (countIf_kept (form_of_eq h rfl rfl))
      · simp

theorem noteCores_kept {s : State} {st : PlanStep} {r : ActResult} (h : Form s) : Form (noteCores s st r) := by
  unfold noteCores
  extract_lets _ s1 s2
  have hs1 : Form s1 := forKeys_kept (fun _ _ ht => count_kept ht) h
  have hs2 : Form s2 := foldl_kept (fun _ _ ht => countIf_kept (countIf_kept ht)) hs1
  split
  · exact h
  · exact dealCount_kept (dealCount_kept hs2)

theorem logRow_kept {s : State} {t : EmbTable} {v : TableVersion} {g : Migration} {r : ActResult} {i : Nat} (h : Form s) :
    Form (logRow s t v g r i) := by
  unfold logRow
  extract_lets _
  split
  · exact sendImage_kept h
  · exact h

theorem logMigration_kept {s : State} {t : EmbTable} {v : TableVersion} {r : ActResult} (h : Form s) : Form (logMigration s t v r) := by
  unfold logMigration
  split
  · exact h
  · split
    · exact foldl_kept (fun _ _ ht => logRow_kept ht) h
    · exact h

theorem advanceGen_kept {s : State} {j : Job} {a : Activity} {st : PlanStep} {r : ActResult} (h : Form s) : Form (advanceGen s j a st r) := by
  unfold advanceGen
  split
  · split
    · exact versionMod_kept (logMigration_kept h)
    · exact h
  · exact h

theorem dropForwarded_kept {s : State} {j : Job} {a : Activity} {st : PlanStep} (h : Form s) : Form (dropForwarded s j a st) := by
  unfold dropForwarded
  split
  · split
    · exact takeForwarded_kept h
    · exact h
  · exact h

theorem freeTables_kept {s : State} {j : Job} {st : PlanStep} (h : Form s) : Form (freeTables s j st) := by
  unfold freeTables
  split
  · exact foldl_kept (fun _ _ ht => hardyMod_kept ht) h
  · exact h

theorem endStep_kept {s : State} {j : Job} {a : Activity} {i : Nat} {r : ActResult} (h : Form s) : Form (endStep s j a i r) := by
  unfold endStep
  extract_lets _ s1 _ s2 s3
  have hs1 : Form s1 := noteCores_kept h
  have hs2 : Form s2 := form_ite (setJob_kept (memWrite_kept hs1)) hs1
  have hs3 : Form s3 := freeTables_kept (dropForwarded_kept (advanceGen_kept hs2))
  split
  · exact sendTo_kept (stopJob_kept hs3)
  · exact hs3

theorem endStream_kept {s : State} {j : Job} {record rep : Nat} {r : ActResult} (h : Form s) : Form (endStream s j record rep r) := by
  unfold endStream
  extract_lets _ _
  split
  · exact h
  · exact postCompl_kept h

theorem landHeavy_kept {s : State} {moved : List HeavySet} {r : ActResult} (h : Form s) : Form (landHeavy s moved r) := by
  unfold landHeavy
  split
  · exact h
  · exact form_of_eq h rfl rfl

theorem finishActivity_kept {s : State} {j : Job} {a : Activity} {r : ActResult} (h : Form s) : Form (finishActivity s j a r) := by
  unfold finishActivity
  extract_lets _ s1 _ s2 s3
  have hs1 : Form s1 := landHeavy_kept (memWriteAll_kept (clearBad_kept h))
  have hs2 : Form s2 := foldl_kept (fun _ _ ht => handFlow_kept ht) hs1
  have hs3 : Form s3 := by
    unfold s3
    split
    · exact endStep_kept hs2
    · exact endStream_kept hs2
  exact sweepStores_kept (setJob_kept hs3)

theorem execActivityOccupancyEnd_kept {r : ActRef} {s : State} (h : Form s) : NextKept (execActivityOccupancyEnd r s) := by
  unfold execActivityOccupancyEnd
  refine nextKept ?_
  split
  · exact h
  · split
    · exact h
    · split
      · split
        · exact finishActivity_kept h
        · exact h
      · exact h

end Sys2Proof.Laws
end

section
/-!
PROOFS. The canonical form of memory and the unit pages (R15, R297) through submissions and the Spur.
-/
namespace Sys2Proof.Laws

open Sys2Proof.Machine

/-! ### Submissions -/

theorem writeRanges_kept {s : State} {rs : List (Nat × Nat)} {bs : List Byte} (h : Form s) : Form (writeRanges s rs bs) := by
  induction rs generalizing s bs with
  | nil => exact h
  | cons r rs ih =>
    rw [writeRanges]
    exact ih (memWrite_kept h)

theorem queuePlan_kept {s : State} {num : Word} {client : BitVec 12} {pair : Nat} {tag : BitVec 16} {accepted deadline : Nat} {p : List Byte}
    (h : Form s) : Form (queuePlan s num client pair tag accepted deadline p) :=
  tellChanges_kept (tellAhead_kept (deadlineComparators_kept (form_of_eq (writeRanges_kept h) rfl rfl)))

theorem takePlan_kept {s : State} {k : Nat} {m : List Byte} {deadline : Nat} {p : List Byte} (h : Form s) : Form (takePlan s k m deadline p) :=
  sendTo_kept (queuePlan_kept (respondAccepted_kept (measure_kept (form_of_eq h rfl rfl))))

theorem serveOpSubmit_kept {k : Nat} {remote : List MemberCheck} {s : State} {m : List Byte} (h : Form s) : Form (serveOpSubmit k remote s m) := by
  unfold serveOpSubmit
  extract_lets _ _ _
  split
  · exact respond_kept h
  · refine withRef_kept h (fun _ _ ht => ?_)
    split
    · exact takePlan_kept ht
    · exact respond_kept (form_of_eq ht rfl rfl)

theorem execVmpOpSubmit_kept {pair : Nat} {remote : List MemberCheck} {s : State} (h : Form s) : NextKept (execVmpOpSubmit pair remote s) :=
  nextKept (takeRequest_kept h (fun _ _ ht => serveOpSubmit_kept ht))

theorem hearPlanCopy_kept {s : State} {num : Word} {accepted : Nat} {tag : BitVec 16} {deadline : Nat} {p : List Byte} (h : Form s) :
    Form (hearPlanCopy s num accepted tag deadline p) := by
  unfold hearPlanCopy
  split
  · exact h
  · exact queuePlan_kept h

theorem hearCancel_kept {s : State} {num : Word} {strike : Nat} {status : BitVec 16} (h : Form s) : Form (hearCancel s num strike status) :=
  cancelHere_kept h

/-! ### Queue pairs and the Ethernet ports -/

theorem writeQpState_kept {s : State} {p q : Nat} {x : QpState} (h : Form s) : Form (writeQpState s p q x) := by
  unfold writeQpState
  split
  · exact memWrite_kept h
  · exact h

theorem readEntry_kept {s : State} {p q : Nat} {i : BitVec 32} (h : Form s) : Form (readEntry s p q i).1 := by
  unfold readEntry
  extract_lets _
  split
  · next e => exact form_fst_of_eq (readRef_kept h) e
  · next e => exact form_fst_of_eq (readRef_kept h) e

theorem postCq_kept {s : State} {p c : Nat} {e : List Byte} (h : Form s) : Form (postCq s p c e) := by
  unfold postCq
  split
  · next e2 => exact form_fst_of_eq (readRef_kept h) e2
  · next s1 _ e2 =>
      have hs1 : Form s1 := form_fst_of_eq (readRef_kept h) e2
      extract_lets _ _
      split
      · exact hs1
      · exact spurMod_kept (memWrite_kept hs1)

theorem postEntry_kept {s : State} {p q : Nat} {index : BitVec 32} {e : List Byte} {status bytes remote : Nat} (h : Form s) :
    Form (postEntry s p q index e status bytes remote) := by
  unfold postEntry
  extract_lets _
  split
  · exact h
  · exact postCq_kept h

theorem settleEntry_kept {s : State} {p q : Nat} {index : BitVec 32} {e : List Byte} {status bytes remote : Nat} (h : Form s) :
    Form (settleEntry s p q index e status bytes remote) := by
  unfold settleEntry
  extract_lets _ s1
  have hs1 : Form s1 := form_ite (count_kept (stickySet_kept h)) h
  split
  · exact postEntry_kept (form_of_eq h rfl rfl)
  · exact postEntry_kept hs1

theorem flushRing_kept {p q n : Nat} {s : State} (h : Form s) : Form (flushRing p q n s) := by
  induction n generalizing s with
  | zero => exact h
  | succ n ih =>
    rw [flushRing]
    extract_lets _
    split
    · exact h
    · split
      · next s1 _ e =>
          have hs1 : Form s1 := form_fst_of_eq (readEntry_kept h) e
          extract_lets s2
          have hs2 : Form s2 := form_ite hs1 (settleEntry_kept hs1)
          exact ih (qpMod_kept hs2)

theorem flushQp_kept {s : State} {p q : Nat} (h : Form s) : Form (flushQp s p q) := by
  unfold flushQp
  extract_lets _ s1 _ s2 s3
  have hs1 : Form s1 := foldl_kept (fun _ _ ht => settleEntry_kept ht) h
  have hs2 : Form s2 := qpMod_kept hs1
  have hs3 : Form s3 := by
    unfold s3
    split
    · exact setJob_kept hs2
    · exact hs2
  exact qpMod_kept (flushRing_kept hs3)

theorem qpFail_kept {s : State} {p q : Nat} (h : Form s) : Form (qpFail s p q) := flushQp_kept (writeQpState_kept (qpMod_kept h))

theorem finishEntry_kept {s : State} {p q : Nat} {f : Inflight} {status bytes remote : Nat} (h : Form s) :
    Form (finishEntry s p q f status bytes remote) := by
  unfold finishEntry
  extract_lets s1 s2
  have hs1 : Form s1 := qpMod_kept h
  have hs2 : Form s2 := settleEntry_kept hs1
  split
  · exact hs2
  · exact qpFail_kept hs2

theorem finishFree_kept {s : State} {p q : Nat} {f : Inflight} {status bytes : Nat} (h : Form s) : Form (finishFree s p q f status bytes) :=
  finishEntry_kept (form_of_eq h rfl rfl)

theorem loadCtx_kept {s : State} {p q : Nat} (h : Form s) : Form (loadCtx s p q).1 := by
  unfold loadCtx
  split
  · next e => exact form_fst_of_eq (readRef_kept h) e
  · next e => exact form_fst_of_eq (readRef_kept h) e

theorem qpMove_kept {s : State} {p q : Nat} {x : QpState} (h : Form s) : Form (qpMove s p q x) := by
  unfold qpMove
  split
  · next s1 e =>
      have hs1 : Form s1 := form_fst_of_eq (loadCtx_kept h) e
      exact qpFail_kept hs1
  · next s1 _ e =>
      have hs1 : Form s1 := form_fst_of_eq (loadCtx_kept h) e
      split
      · exact writeQpState_kept (qpMod_kept hs1)
      · exact qpFail_kept (qpMod_kept hs1)
      · split
        · exact writeQpState_kept (qpMod_kept hs1)
        · exact qpFail_kept (qpMod_kept hs1)

theorem qpCmd_kept {p q : Nat} {x : QpState} {s : State} (h : Form s) : Form (qpCmd p q x s) := by
  unfold qpCmd
  split
  · exact qpMove_kept h
  · exact h

theorem execQpCmdReset_kept {port qp : Nat} {s : State} (h : Form s) : NextKept (execQpCmdReset port qp s) := nextKept (qpCmd_kept h)

theorem execQpCmdInit_kept {port qp : Nat} {s : State} (h : Form s) : NextKept (execQpCmdInit port qp s) := nextKept (qpCmd_kept h)

theorem execQpCmdRtr_kept {port qp : Nat} {s : State} (h : Form s) : NextKept (execQpCmdRtr port qp s) := nextKept (qpCmd_kept h)

theorem execQpCmdRts_kept {port qp : Nat} {s : State} (h : Form s) : NextKept (execQpCmdRts port qp s) := nextKept (qpCmd_kept h)

theorem execQpCmdError_kept {port qp : Nat} {s : State} (h : Form s) : NextKept (execQpCmdError port qp s) := nextKept (qpCmd_kept h)

theorem sqTail_kept {s : State} {p q : Nat} {t : BitVec 32} (h : Form s) : Form (sqTail s p q t) := by
  unfold sqTail
  extract_lets _ s1
  have hs1 : Form s1 := qpMod_kept h
  split
  · exact h
  · split
    · exact flushQp_kept hs1
    · exact hs1

theorem takeEntry_kept {s : State} {p q : Nat} {u : Option PlanUse} {len : Nat} (h : Form s) : Form (takeEntry s p q u len) := by
  unfold takeEntry
  split
  · exact qpMod_kept h
  · exact setJob_kept (qpMod_kept h)

theorem pushInflight_kept {s : State} {p q : Nat} {f : Inflight} (h : Form s) : Form (pushInflight s p q f) := qpMod_kept h

theorem spurDeadline_kept {s : State} {p q : Nat} {index : BitVec 32} (h : Form s) : Form (spurDeadline s p q index) := by
  unfold spurDeadline
  extract_lets _
  split
  · split
    · exact h
    · exact postEntry_kept (qpMod_kept h)
  · split
    · exact h
    · split
      · exact h
      · next s1 _ e =>
          have hs1 : Form s1 := form_fst_of_eq (readEntry_kept h) e
          extract_lets _ s2 _ _
          have hs2 : Form s2 := postEntry_kept hs1
          split
          · exact h
          · exact qpMod_kept hs2

theorem timeOut_kept {s : State} {p q : Nat} {index : BitVec 32} (h : Form s) : Form (timeOut s p q index) :=
  drawFree_kept (spurDeadline_kept h)

theorem refuseEntry_kept {s : State} {p q : Nat} {u : Option PlanUse} {i : BitVec 32} {e : List Byte} {status : Nat} (h : Form s) :
    Form (refuseEntry s p q u i e status) :=
  finishFree_kept (takeEntry_kept h)

theorem serveEntry_kept {s : State} {p q : Nat} {mine : List Byte → Bool} {run : State → Option PlanUse → BitVec 32 → List Byte → State}
    (h : Form s) (hrun : ∀ t x1 x y, Form t → Form (run t x1 x y)) : Form (serveEntry s p q mine run) := by
  unfold serveEntry
  split
  · exact h
  · split
    · next s1 e =>
        have hs1 : Form s1 := form_fst_of_eq (readEntry_kept h) e
        exact refuseEntry_kept hs1
    · next s1 _ e =>
        have hs1 : Form s1 := form_fst_of_eq (readEntry_kept h) e
        extract_lets _
        split
        · exact h
        · split
          · exact timeOut_kept hs1
          · exact hrun _ _ _ _ hs1

theorem rcSend_kept {s : State} {p q : Nat} {e bytes : List Byte} (h : Form s) : Form (rcSend s p q e bytes) := emitOut_kept h

theorem rcEmit_kept {s : State} {p q : Nat} {e bytes : List Byte} (h : Form s) : Form (rcEmit s p q e bytes) := rcSend_kept (qpMod_kept h)

theorem rcData_kept {s : State} {e : List Byte} (h : Form s) : Form (rcData s e).1 := by
  unfold rcData
  split
  · exact h
  · split
    · next e2 => exact form_fst_of_eq (readRef_kept h) e2
    · next e2 => exact form_fst_of_eq (readRef_kept h) e2

theorem sourceMismatch_kept {s : State} {a : Nat} (h : Form s) : Form (sourceMismatch s a) := stickySet_kept (count_kept h)

theorem issueRc_kept {p q op : Nat} {handoverOk : Bool} {s : State} (h : Form s) : Form (issueRc p q op handoverOk s) := by
  unfold issueRc
  extract_lets x
  split
  · exact h
  · refine serveEntry_kept h (fun _ _ _ _ ht => ?_)
    extract_lets _
    split
    · exact refuseEntry_kept ht
    · split
      · exact h
      · split
        · exact h
        · split
          · split
            · exact streamError_kept ht
            · exact pushInflight_kept (rcEmit_kept (takeEntry_kept ht))
          · split
            · next s1 e =>
                have hs1 : Form s1 := form_fst_of_eq (rcData_kept ht) e
                exact refuseEntry_kept hs1
            · next s1 _ e =>
                have hs1 : Form s1 := form_fst_of_eq (rcData_kept ht) e
                split
                · exact refuseEntry_kept (sourceMismatch_kept hs1)
                · exact pushInflight_kept (rcEmit_kept (takeEntry_kept hs1))

theorem execSpurSend_kept {port qp : Nat} {handoverOk : Bool} {s : State} (h : Form s) : NextKept (execSpurSend port qp handoverOk s) :=
  nextKept (issueRc_kept h)

theorem execSpurSendImm_kept {port qp : Nat} {handoverOk : Bool} {s : State} (h : Form s) : NextKept (execSpurSendImm port qp handoverOk s) :=
  nextKept (issueRc_kept h)

theorem execSpurWrite_kept {port qp : Nat} {handoverOk : Bool} {s : State} (h : Form s) : NextKept (execSpurWrite port qp handoverOk s) :=
  nextKept (issueRc_kept h)

theorem execSpurWriteImm_kept {port qp : Nat} {handoverOk : Bool} {s : State} (h : Form s) : NextKept (execSpurWriteImm port qp handoverOk s) :=
  nextKept (issueRc_kept h)

theorem execSpurRead_kept {port qp : Nat} {s : State} (h : Form s) : NextKept (execSpurRead port qp s) := nextKept (issueRc_kept h)

theorem nvEmit_kept {s : State} {p q : Nat} {i : BitVec 32} {e : List Byte} (h : Form s) : Form (nvEmit s p q i e) :=
  emitOut_kept (form_of_eq h rfl rfl)

theorem issueNvme_kept {p q : Nat} {mine : List Byte → Bool} {io : Bool} {s : State} (h : Form s) : Form (issueNvme p q mine io s) := by
  unfold issueNvme
  extract_lets x
  split
  · exact h
  · refine serveEntry_kept h (fun _ _ _ _ ht => ?_)
    extract_lets _
    split
    · exact refuseEntry_kept ht
    · split
      · split
        · exact streamError_kept ht
        · exact pushInflight_kept (nvEmit_kept (takeEntry_kept ht))
      · exact pushInflight_kept (nvEmit_kept (takeEntry_kept ht))

theorem execNvmeRead_kept {port qp : Nat} {s : State} (h : Form s) : NextKept (execNvmeRead port qp s) := nextKept (issueNvme_kept h)

theorem execNvmeFabricsConnect_kept {port qp : Nat} {s : State} (h : Form s) : NextKept (execNvmeFabricsConnect port qp s) :=
  nextKept (issueNvme_kept h)

theorem execNvmePropertyGet_kept {port qp : Nat} {s : State} (h : Form s) : NextKept (execNvmePropertyGet port qp s) :=
  nextKept (issueNvme_kept h)

theorem execNvmePropertySet_kept {port qp : Nat} {s : State} (h : Form s) : NextKept (execNvmePropertySet port qp s) :=
  nextKept (issueNvme_kept h)

theorem execNvmeIdentify_kept {port qp : Nat} {s : State} (h : Form s) : NextKept (execNvmeIdentify port qp s) := nextKept (issueNvme_kept h)

theorem execNvmeGetLogPage_kept {port qp : Nat} {s : State} (h : Form s) : NextKept (execNvmeGetLogPage port qp s) :=
  nextKept (issueNvme_kept h)

theorem execNvmeKeepAlive_kept {port qp : Nat} {s : State} (h : Form s) : NextKept (execNvmeKeepAlive port qp s) := nextKept (issueNvme_kept h)

theorem ringDeadline_kept {s : State} {record rep : Nat} (h : Form s) : Form (ringDeadline s record rep) := by
  unfold ringDeadline
  split
  · exact h
  · extract_lets _
    split
    · exact ringShort_kept h
    · exact h

theorem execRequestDeadlineTimeout_kept {r : DeadlineRef} {s : State} (h : Form s) : NextKept (execRequestDeadlineTimeout r s) := by
  unfold execRequestDeadlineTimeout
  refine nextKept ?_
  split
  · split
    · exact timeOut_kept h
    · exact h
  · exact ringDeadline_kept h

theorem resendEntry_kept {s : State} {p q : Nat} {f : Inflight} {handoverOk : Bool} {g : Inflight → Inflight} (h : Form s) :
    Form (resendEntry s p q f handoverOk g) := by
  unfold resendEntry
  split
  · next s1 e =>
      have hs1 : Form s1 := form_fst_of_eq (rcData_kept h) e
      exact finishFree_kept hs1
  · next s1 _ e =>
      have hs1 : Form s1 := form_fst_of_eq (rcData_kept h) e
      split
      · exact finishFree_kept (sourceMismatch_kept hs1)
      · exact rcSend_kept (qpMod_kept hs1)

theorem retryEntry_kept {s : State} {p q : Nat} {f : Inflight} {handoverOk : Bool} (h : Form s) : Form (retryEntry s p q f handoverOk) := by
  unfold retryEntry
  split
  · exact resendEntry_kept h
  · exact finishFree_kept h

theorem landMismatch_kept {s : State} {p q : Nat} (h : Form s) : Form (landMismatch s p q) := by
  unfold landMismatch
  split
  · exact streamError_kept h
  · exact stickySet_kept (count_kept h)

theorem landData_kept {s : State} {p q : Nat} {f : Inflight} {addr : Nat} {bytes : List Byte} {spanOk : Bool} (h : Form s) :
    Form (landData s p q f addr bytes spanOk) := by
  unfold landData
  extract_lets _
  split
  · exact finishFree_kept (landMismatch_kept h)
  · split
    · exact finishFree_kept (qpMod_kept h)
    · split
      · exact finishFree_kept h
      · split
        · exact finishFree_kept (memWrite_kept h)
        · exact finishFree_kept h

theorem noteConnect_kept {s : State} {p q : Nat} {f : Inflight} (h : Form s) : Form (noteConnect s p q f) := by
  unfold noteConnect
  split
  · exact qpMod_kept h
  · exact h

theorem answerEntry_kept {s : State} {p q : Nat} {f : Inflight} {r : SpurResp} (h : Form s) : Form (answerEntry s p q f r) := by
  unfold answerEntry
  extract_lets _
  split
  · split
    · exact h
    · exact finishFree_kept h
  · split
    · exact h
    · split
      · exact retryEntry_kept h
      · exact finishEntry_kept h
  · split
    · exact h
    · split
      · exact resendEntry_kept h
      · exact finishFree_kept h
  · split
    · exact landData_kept h
    · exact h
  · split
    · exact landData_kept (noteConnect_kept h)
    · exact h
  · split
    · exact finishEntry_kept h
    · exact h
  · exact finishFree_kept h

theorem execSpurResponseReceive_kept {port qp : Nat} {index : BitVec 32} {r : SpurResp} {s : State} (h : Form s) :
    NextKept (execSpurResponseReceive port qp index r s) := by
  unfold execSpurResponseReceive
  refine nextKept ?_
  split
  · exact h
  · split
    · exact h
    · split
      · exact count_kept (qpMod_kept (timeOut_kept h))
      · exact answerEntry_kept h

theorem execRoceAckTimeout_kept {port : Nat} {retry : Retry} {s : State} (h : Form s) : NextKept (execRoceAckTimeout port retry s) := by
  unfold execRoceAckTimeout
  refine nextKept ?_
  split
  · split
    · exact h
    · split
      · exact timeOut_kept h
      · exact retryEntry_kept h
  · exact h

theorem replyOk_kept {s : State} {p q n : Nat} {bytes : List Byte} (h : Form s) : Form (replyOk s p q n bytes) := emitOut_kept (qpMod_kept h)

theorem replyNak_kept {s : State} {p q syndrome : Nat} (h : Form s) : Form (replyNak s p q syndrome) := emitOut_kept h

theorem execRoceInboundRead_kept {port qp rkey : Nat} {addr : Word} {ask : InboundRead} {s : State} (h : Form s) :
    NextKept (execRoceInboundRead port qp rkey addr ask s) := by
  unfold execRoceInboundRead
  refine nextKept ?_
  split
  · exact h
  · split
    · exact replyNak_kept h
    · split
      · next t _ e =>
          have ht : Form t := form_fst_of_eq (readRef_kept h) e
          split
          · exact replyOk_kept ht
          · exact replyNak_kept (sourceMismatch_kept ht)
      · next e => exact replyNak_kept (form_fst_of_eq (readRef_kept h) e)

theorem execRoceInboundWrite_kept {port qp rkey : Nat} {addr : Word} {bytes : List Byte} {imm icrcOk handoverOk : Bool} {s : State} (h : Form s) :
    NextKept (execRoceInboundWrite port qp rkey addr bytes imm icrcOk handoverOk s) := by
  unfold execRoceInboundWrite
  refine nextKept ?_
  split
  · exact h
  · split
    · exact replyNak_kept h
    · split
      · exact replyNak_kept h
      · split
        · exact replyNak_kept h
        · split
          · exact replyNak_kept h
          · split
            · exact stickySet_kept (count_kept h)
            · exact replyOk_kept (memWrite_kept h)

theorem execRoceInboundSend_kept {port qp : Nat} {bytes : List Byte} {last : InboundSend} {s : State} (h : Form s) :
    NextKept (execRoceInboundSend port qp bytes last s) := by
  unfold execRoceInboundSend
  extract_lets _ _ s1
  have hs1 : Form s1 := form_of_eq h rfl rfl
  refine nextKept ?_
  split
  · exact h
  · split
    · exact replyNak_kept h
    · exact replyOk_kept hs1

theorem execCnpReceive_kept {port qp : Nat} {s : State} (h : Form s) : NextKept (execCnpReceive port qp s) := by
  unfold execCnpReceive
  refine nextKept ?_
  split
  · exact qpMod_kept h
  · exact h

theorem execCnpRateRecovery_kept {port qp : Nat} {s : State} (h : Form s) : NextKept (execCnpRateRecovery port qp s) := by
  unfold execCnpRateRecovery
  refine nextKept ?_
  split
  · exact qpMod_kept h
  · exact h

theorem execCnpSend_kept {port qp : Nat} {s : State} (h : Form s) : NextKept (execCnpSend port qp s) := by
  unfold execCnpSend
  refine nextKept ?_
  split
  · split
    · exact emitOut_kept (qpMod_kept h)
    · exact h
  · split
    · exact emitOut_kept (qpMod_kept h)
    · exact h

theorem execEthFrameReceive_kept {port : Nat} {f : EthFrame} {s : State} (h : Form s) : NextKept (execEthFrameReceive port f s) := by
  unfold execEthFrameReceive
  refine nextKept ?_
  split
  · exact h
  · split
    · exact spurMod_kept h
    · split
      · split
        · exact emitOut_kept h
        · exact h
      · split
        · exact emitOut_kept h
        · exact h
      · split
        · exact emitOut_kept h
        · exact h
      · exact h
      · exact h
      · exact h

theorem execPfcPauseReceive_kept {port priority : Nat} {pause : Bool} {s : State} (h : Form s) :
    NextKept (execPfcPauseReceive port priority pause s) := by
  unfold execPfcPauseReceive
  refine nextKept ?_
  split
  · exact spurMod_kept h
  · exact h

theorem execEthernetLinkChange_kept {port : Nat} {up : Bool} {s : State} (h : Form s) : NextKept (execEthernetLinkChange port up s) := by
  unfold execEthernetLinkChange
  refine nextKept ?_
  split
  · exact spurMod_kept h
  · exact h

theorem execSpurModeRetrain_kept {port : Nat} {ok : Bool} {s : State} (h : Form s) : NextKept (execSpurModeRetrain port ok s) := by
  unfold execSpurModeRetrain
  refine nextKept ?_
  split
  · exact spurMod_kept h
  · exact h

end Sys2Proof.Laws
end

section
/-!
PROOFS. The canonical form of memory and the unit pages (R15, R297) through the registers, the control messages and the management port.
-/
namespace Sys2Proof.Laws

open Sys2Proof.Machine

/-! ### Registers -/

theorem accessError_kept {s : State} {who : Requester} {a : Nat} (h : Form s) : Form (accessError s who a) := by
  unfold accessError
  split
  · exact emitOut_kept h
  · exact h

theorem groupClearWrite_kept {s : State} {u : Uid} {mask : Word} (h : Form s) : Form (groupClearWrite s u mask) := by
  unfold groupClearWrite
  split
  · exact h
  · exact sendTo_kept (groupClear_kept h)

theorem stickyWrite_kept {s : State} {u : Uid} {mask hw : Word} (h : Form s) : Form (stickyWrite s u mask hw) := by
  unfold stickyWrite
  extract_lets _ s1
  have hs1 : Form s1 := pageMod_kept h
  split
  · exact groupClearWrite_kept h
  · exact foldl_kept (fun _ _ ht => stickySet_kept ht) hs1

theorem ucpWrite_kept {s : State} {who : Requester} {u : Uid} {off a : Nat} {v : Word} (h : Form s) : Form (ucpWrite s who u off a v) := by
  unfold ucpWrite
  split
  · split
    · exact stickyWrite_kept h
    · split
      · exact pageMod_kept h
      · exact accessError_kept h
  · split
    · exact stickyWrite_kept h
    · exact pageMod_kept h
    · exact pageMod_kept h
    · exact pageMod_kept h
    · exact pageMod_kept h
    · exact pageMod_kept h
    · exact pageMod_kept h
    · split
      · exact resetReq_kept h
      · exact h
    · exact h
  · exact h
  · exact h

theorem drTail_kept {s : State} {st r : Nat} {t : BitVec 32} (h : Form s) : Form (drTail s st r t) := by
  unfold drTail
  extract_lets _ _ _ _ s1
  have hs1 : Form s1 := by
    unfold s1
    refine ringMod_kept ?_
    split
    · exact h
    · exact count_kept h
  split
  · exact h
  · split
    · exact count_kept (stickySet_kept hs1)
    · exact hs1

theorem bellowsWrite_kept {s : State} {who : Requester} {st off a : Nat} {v : Word} (h : Form s) : Form (bellowsWrite s who st off a v) := by
  unfold bellowsWrite
  split
  · split
    · exact h
    · exact drTail_kept h
  · split
    · split
      · exact ringMod_kept h
      · exact h
    · exact accessError_kept h

theorem requestTail_kept {s : State} {pair : Nat} {t : BitVec 32} (h : Form s) : Form (requestTail s pair t) := by
  unfold requestTail
  extract_lets _
  split
  · exact h
  · exact pairMod_kept h

theorem doorbellWrite_kept {s : State} {who : Requester} {ring off : Nat} {v : Word} (h : Form s) : Form (doorbellWrite s who ring off v) := by
  unfold doorbellWrite
  extract_lets _ _
  split
  · exact ringFault_kept h
  · split
    · split
      · split
        · exact h
        · exact pairMod_kept h
      · split
        · exact h
        · exact pairMod_kept h
      · exact pairMod_kept h
      · exact h
    · split
      · split
        · exact h
        · exact pairMod_kept h
      · split
        · exact h
        · exact pairMod_kept h
      · exact requestTail_kept h
      · split
        · exact enableSet_kept h
        · exact enableClear_kept h
      · split
        · exact h
        · exact pairMod_kept h
      · split
        · exact h
        · exact pairMod_kept h
      · exact pairMod_kept h
      · exact pairMod_kept h
      · exact h

theorem checkerWrite_kept {s : State} {who : Requester} {c off a : Nat} {v : Word} (h : Form s) : Form (checkerWrite s who c off a v) := by
  unfold checkerWrite
  split
  · exact accessError_kept h
  · split
    · exact checkerMod_kept h
    · split
      · exact checkerMod_kept h
      · split
        · exact checkerMod_kept h
        · split
          · exact checkerMod_kept h
          · exact h

theorem spurWrite_kept {s : State} {who : Requester} {p off a : Nat} {v : Word} (h : Form s) : Form (spurWrite s who p off a v) := by
  unfold spurWrite
  split
  · exact h
  · split
    · exact spurMod_kept h
    · split
      · split
        · exact qpMove_kept h
        · exact h
      · split
        · exact sqTail_kept h
        · split
          · exact spurMod_kept h
          · exact accessError_kept h

theorem blockWrite_kept {s : State} {who : Requester} {cls inst off a : Nat} {v : Word} (h : Form s) : Form (blockWrite s who cls inst off a v) := by
  unfold blockWrite
  split
  · exact bellowsWrite_kept h
  · exact checkerWrite_kept h
  · exact checkerWrite_kept h
  · exact spurWrite_kept h
  · split
    · exact checkerWrite_kept h
    · exact accessError_kept h
  · split
    · exact accessError_kept h
    · split
      · exact tbMod_kept h
      · split
        · exact tbMod_kept h
        · exact h
  · exact accessError_kept h

theorem regWrite_kept {s : State} {who : Requester} {a : Nat} {v : Word} (h : Form s) : Form (regWrite s who a v) := by
  unfold regWrite
  split
  · exact accessError_kept h
  · split
    · exact ucpWrite_kept h
    · exact blockWrite_kept h
    · exact doorbellWrite_kept h
    · exact accessError_kept h

theorem execRegisterWrite_kept {who : Requester} {addr value : Word} {s : State} (h : Form s) : NextKept (execRegisterWrite who addr value s) :=
  nextKept (regWrite_kept h)

theorem execStickyW1cWrite_kept {who : Requester} {uid : Uid} {mask hw : Word} {s : State} (h : Form s) :
    NextKept (execStickyW1cWrite who uid mask hw s) := by
  unfold execStickyW1cWrite
  refine nextKept ?_
  split
  · exact accessError_kept h
  · split
    · exact stickyWrite_kept h
    · exact foldl_kept (fun _ _ ht => stickySet_kept ht) h

theorem execGroupStickyClear_kept {group : BitVec 12} {mask : Word} {s : State} (h : Form s) : NextKept (execGroupStickyClear group mask s) :=
  nextKept (groupClearWrite_kept h)

theorem execWatchdogDeadlineWrite_kept {uid : Uid} {k : Nat} {value : Word} {s : State} (h : Form s) :
    NextKept (execWatchdogDeadlineWrite uid k value s) := by
  unfold execWatchdogDeadlineWrite
  refine nextKept ?_
  split
  · exact pageMod_kept h
  · exact h

theorem execRingTailWrite_kept {who : Requester} {ring : Nat} {tail : BitVec 32} {s : State} (h : Form s) :
    NextKept (execRingTailWrite who ring tail s) := by
  unfold execRingTailWrite
  refine nextKept ?_
  split
  · exact regWrite_kept h
  · exact h

theorem execMergeBufferFlush_kept {bank addr : Nat} {s : State} (h : Form s) : NextKept (execMergeBufferFlush bank addr s) := by
  unfold execMergeBufferFlush
  refine nextKept ?_
  split
  · exact mergeFlushEntry_kept h
  · exact h

theorem execCheckerFlipArm_kept {who : Requester} {addr value : Word} {s : State} (h : Form s) : NextKept (execCheckerFlipArm who addr value s) := by
  unfold execCheckerFlipArm
  refine nextKept ?_
  split
  · exact regWrite_kept h
  · exact accessError_kept h

theorem hearthWord_kept {acc : State × List Byte × Option Nat} {w : Nat} (h : Form acc.1) : Form (hearthWord acc w).1 := by
  unfold hearthWord
  extract_lets r
  have hr : Form r.st := memRead_kept h
  split
  · exact hr
  · split
    · exact h
    · exact h

theorem hearthLoad_kept {s : State} {a n : Nat} (h : Form s) : Form (hearthLoad s a n) := by
  unfold hearthLoad
  extract_lets r
  have hr : Form r.1 := foldl_proj_kept Prod.fst (fun _ _ ht => hearthWord_kept ht) h
  split
  · exact emitOut_kept hr
  · exact emitOut_kept hr

theorem hearthStore_kept {s : State} {a : Nat} {bs : List Byte} (h : Form s) : Form (hearthStore s a bs) := by
  unfold hearthStore
  extract_lets _
  split
  · exact memWrite_kept h
  · split
    · exact accessError_kept h
    · split
      · exact foldl_kept (fun _ _ ht => regWrite_kept ht) h
      · exact accessError_kept h

theorem execHearthMemoryAccess_kept {a : HearthAccess} {s : State} (h : Form s) : NextKept (execHearthMemoryAccess a s) := by
  unfold execHearthMemoryAccess
  refine nextKept ?_
  split
  · exact hearthLoad_kept h
  · exact hearthStore_kept h

/-! ### Control messages -/

theorem hearHeartbeat_kept {s : State} (h : Form s) : Form (hearHeartbeat s) := by
  unfold hearHeartbeat
  split
  · exact h
  · exact floodMsg_kept (tbMod_kept h)

theorem hearPortState_kept {s : State} {p : Nat} {locked : Bool} {hops : Nat} (h : Form s) : Form (hearPortState s p locked hops) := by
  unfold hearPortState
  extract_lets s1
  have hs1 : Form s1 := tbMod_kept h
  split
  · split
    · exact hs1
    · split
      · exact leaveParent_kept hs1
      · exact tbMod_kept hs1
  · exact h

theorem hearStrike_kept {s : State} {p : Nat} {n : Word} (h : Form s) : Form (hearStrike s p n) := by
  unfold hearStrike
  split
  · exact tbMod_kept h
  · exact h

theorem landDynamic_kept {s : State} {f : Nat} {bs : List Byte} (h : Form s) : Form (landDynamic s f bs) := by
  unfold landDynamic
  split
  · exact h
  · split
    · exact setJob_kept h
    · exact h

theorem hearForwarded_kept {s : State} {src sent : Nat} {epoch : BitVec 32} {m : List Byte} (h : Form s) :
    Form (hearForwarded s src sent epoch m) := by
  unfold hearForwarded
  split
  · exact sendTo_kept (epochRefused_kept h)
  · exact hearVmp_kept h

theorem hearDevState_kept {s : State} {src state : Nat} {ports : Byte} {epoch : BitVec 32} (h : Form s) :
    Form (hearDevState s src state ports epoch) :=
  form_of_eq h rfl rfl

theorem hearMsg_kept {s : State} {port : Nat} {m : CtlMsg} (h : Form s) : Form (hearMsg s port m) := by
  unfold hearMsg
  split
  · exact hearHeartbeat_kept h
  · exact hearStrike_kept h
  · exact hearPortState_kept h
  · exact hearCandidate_kept h
  · exact hearAnnouncement_kept h
  · exact settleGroups_kept (form_of_eq h rfl rfl)
  · split
    · exact groupResetting_kept (resetLocal_kept h)
    · exact h
  · exact groupClear_kept h
  · exact groupNotify_kept h
  · exact clearLogs_kept h
  · split
    · exact receiveImage_kept h
    · exact h
  · exact hearPlanEnd_kept h
  · split
    · exact hearJobEnd_kept h
    · exact h
  · exact hearCommit_kept h
  · exact hearCommitDone_kept h
  · exact hearHold_kept h
  · exact hearRestored_kept h
  · exact modJobs_kept (modJobs_kept h)
  · exact modJobs_kept h
  · exact form_of_eq h rfl rfl
  · exact hearDevState_kept h
  · exact hearPlanCopy_kept h
  · exact hearCancel_kept h
  · exact setDeadline_kept h
  · exact hearDevState_kept h
  · exact h
  · exact hearForwarded_kept h
  · exact imageReceive_kept h
  · exact endReceive_kept h
  · exact fillRequest_kept h
  · exact fillReply_kept h
  · exact hearForwardedRecord_kept h
  · exact hearForwardedRecord_kept h
  · exact versionMod_kept h
  · exact landDynamic_kept h
  · exact h

theorem execControlMessageReceive_kept {port : Nat} {m : CtlMsg} {s : State} (h : Form s) : NextKept (execControlMessageReceive port m s) := by
  unfold execControlMessageReceive
  extract_lets _ s1
  have hs1 : Form s1 := form_of_eq h rfl rfl
  refine nextKept ?_
  split
  · exact h
  · split
    · split
      · exact hearMsg_kept h
      · exact h
    · split
      · split
        · exact hearMsg_kept hs1
        · exact hs1
      · split
        · exact count_kept hs1
        · exact routeMsg_kept hs1

theorem commitRoutes_kept {s : State} {epoch : BitVec 32} {tables : List (Nat × List (BitVec 32))} (h : Form s) :
    Form (commitRoutes s epoch tables) := by
  unfold commitRoutes
  refine foldl_kept (fun _ _ ht => ?_) h
  split
  · exact pushPending_kept ht
  · exact sendTo_kept ht

theorem execFormationCommit_kept {s : State} (h : Form s) : NextKept (execFormationCommit s) := by
  unfold execFormationCommit
  refine nextKept ?_
  split
  · exact commitRoutes_kept h
  · exact h

theorem execRoutingOverrideCommit_kept {tables : List (Nat × List (BitVec 32))} {s : State} (h : Form s) :
    NextKept (execRoutingOverrideCommit tables s) := by
  unfold execRoutingOverrideCommit
  refine nextKept ?_
  split
  · exact commitRoutes_kept h
  · exact h

theorem execPortStateReport_kept {device : Nat} {portsUp : Byte} {epoch : BitVec 32} {s : State} (h : Form s) :
    NextKept (execPortStateReport device portsUp epoch s) := by
  unfold execPortStateReport
  extract_lets _ s1 _
  have hs1 : Form s1 := hearDevState_kept h
  refine nextKept ?_
  split
  · exact form_of_eq hs1 rfl rfl
  · exact h

theorem execDeviceReady_kept {s : State} (h : Form s) : NextKept (execDeviceReady s) := by
  unfold execDeviceReady
  extract_lets _ s1
  have hs1 : Form s1 := form_of_eq h rfl rfl
  refine nextKept ?_
  split
  · exact sendTo_kept hs1
  · exact h

theorem execLateJoin_kept {c : Candidate} {map : List Byte} {s : State} (h : Form s) : NextKept (execLateJoin c map s) := by
  unfold execLateJoin
  extract_lets _ s1 s2
  have hs1 : Form s1 := form_of_eq h rfl rfl
  have hs2 : Form s2 := tbMod_kept (setMaster_kept hs1)
  refine nextKept ?_
  split
  · split
    · exact adoptMap_kept hs2
    · exact hs2
  · exact h

/-! ### Jobs ended by a fault -/

theorem execJobFaultEnd_kept {s : State} (h : Form s) : NextKept (execJobFaultEnd s) := by
  unfold execJobFaultEnd
  extract_lets _
  refine nextKept ?_
  split
  · extract_lets s1 s2
    have hs1 : Form s1 := finishHold_kept (form_of_eq h rfl rfl)
    have hs2 : Form s2 := foldl_kept (fun _ _ ht => closePartition_kept ht) hs1
    split
    · exact h
    · extract_lets s3
      have hs3 : Form s3 := sendTo_kept (endJob_kept hs2)
      split
      · exact count_kept (quenchMod_kept hs3)
      · exact h
  · exact h

theorem execReplayStart_kept {s : State} (h : Form s) : NextKept (execReplayStart s) := by
  unfold execReplayStart
  refine nextKept ?_
  split
  · extract_lets _ _ s1 _
    have hs1 : Form s1 := quenchMod_kept (setJob_kept h)
    split
    · split
      · split
        · exact hs1
        · exact form_of_eq hs1 rfl rfl
      · exact h
    · exact h
  · exact h

/-! ### Temperatures -/

theorem warnDie_kept {old : Thermal} {new : List (BitVec 16)} {s : State} {i : Nat} (h : Form s) : Form (warnDie old new s i) := by
  unfold warnDie
  extract_lets _
  split
  · exact stickySet_kept h
  · exact h

theorem sampleHardy_kept {new : List (BitVec 16)} {s : State} {d : Nat} (h : Form s) : Form (sampleHardy new s d) := form_of_eq h rfl rfl

theorem thermalTrip_kept {s : State} {die : Nat} : Form (thermalTrip s die) := by
  unfold thermalTrip
  extract_lets off _ _ off2
  have hoff : Form off := powerLost_kept
  have hoff2 : Form off2 := form_of_eq hoff rfl rfl
  exact emitOut_kept (emitOut_kept (emitOut_kept hoff2))

theorem execThermalSample_kept {temps : List (BitVec 16)} {inlet outlet : BitVec 16} {s : State} (h : Form s) :
    NextKept (execThermalSample temps inlet outlet s) := by
  unfold execThermalSample
  extract_lets _ s1 s2 _ s3
  have hs1 : Form s1 := foldl_kept (fun _ _ ht => warnDie_kept ht) h
  have hs2 : Form s2 := foldl_kept (fun _ _ ht => sampleHardy_kept ht) hs1
  have hs3 : Form s3 := form_ite (stickySet_kept hs2) hs2
  refine nextKept ?_
  split
  · exact h
  · split
    · exact thermalTrip_kept
    · exact form_of_eq hs3 rfl rfl

theorem execPendingRateFull_kept {s : State} (h : Form s) : NextKept (execPendingRateFull s) := by
  unfold execPendingRateFull
  refine nextKept ?_
  split
  · exact form_of_eq h rfl rfl
  · exact h

theorem execMetricReport_kept {p : PowerSample} {s : State} (h : Form s) : NextKept (execMetricReport p s) := by
  unfold execMetricReport
  extract_lets _ _ _ _ _ s1 s2 _ _ _
  have hs1 : Form s1 := emitOut_kept h
  have hs2 : Form s2 := form_ite hs1 (emitOut_kept hs1)
  refine nextKept ?_
  split
  · exact form_of_eq hs2 rfl rfl
  · exact h

/-! ### Management -/

theorem mgmtMod_kept {s : State} {f : Management → Management} (h : Form s) : Form (mgmtMod s f) := form_of_eq h rfl rfl

theorem execManagementFrameReceive_kept {f : MgmtFrame} {s : State} (h : Form s) : NextKept (execManagementFrameReceive f s) := by
  unfold execManagementFrameReceive
  refine nextKept ?_
  split
  · exact h
  · split
    · exact mgmtMod_kept h
    · exact mgmtMod_kept h
    · exact emitOut_kept h
    · exact h

theorem execDhcpLinkLocalFallback_kept {ip : Nat} {s : State} (h : Form s) : NextKept (execDhcpLinkLocalFallback ip s) := by
  unfold execDhcpLinkLocalFallback
  refine nextKept ?_
  split
  · exact mgmtMod_kept h
  · exact h

theorem http_kept {s : State} {status : Nat} {body : List Byte} (h : Form s) : Form (http s status body) := emitOut_kept h

theorem withClient_kept {s : State} {auth : AuthKey} {run : State → State} (h : Form s) (hrun : ∀ t, Form t → Form (run t)) :
    Form (withClient s auth run) := by
  unfold withClient
  split
  · exact hrun _ h
  · exact logPersistent_kept h

theorem withOwner_kept {s : State} {auth : AuthKey} {run : State → State} (h : Form s) (hrun : ∀ t, Form t → Form (run t)) :
    Form (withOwner s auth run) := by
  unfold withOwner
  refine withClient_kept h (fun _ ht => ?_)
  split
  · exact hrun _ ht
  · exact http_kept ht

theorem execRedfishGet_kept {path : RedfishPath} {method : HttpMethod} {auth : AuthKey} {s : State} (h : Form s) :
    NextKept (execRedfishGet path method auth s) := by
  unfold execRedfishGet
  refine nextKept ?_
  split
  · exact h
  · refine withClient_kept h (fun _ ht => ?_)
    split
    · exact http_kept ht
    · split
      · exact http_kept ht
      · split
        · exact ht
        · exact http_kept ht

theorem execRedfishEventSubscribe_kept {auth : AuthKey} {s : State} (h : Form s) : NextKept (execRedfishEventSubscribe auth s) := by
  unfold execRedfishEventSubscribe
  refine nextKept ?_
  split
  · exact withClient_kept h (fun _ ht => http_kept (mgmtMod_kept ht))
  · exact h

theorem placeRequest_kept {s : State} {m : List Byte} (h : Form s) : Form (placeRequest s m) := by
  unfold placeRequest
  extract_lets _ _
  split
  · exact requestTail_kept (memWrite_kept h)
  · exact h

theorem execPlovernVmp_kept {message : List Byte} {auth : AuthKey} {s : State} (h : Form s) : NextKept (execPlovernVmp message auth s) := by
  unfold execPlovernVmp
  refine nextKept ?_
  split
  · refine withOwner_kept h (fun _ ht => ?_)
    split
    · exact placeRequest_kept ht
    · exact http_kept ht
  · exact h

theorem writeOwner_kept {s : State} {r : List Byte} (h : Form s) : Form (writeOwner s r) := by
  unfold writeOwner
  split
  · exact http_kept (stickySet_kept h)
  · exact http_kept (measure_kept (form_of_eq h rfl rfl))

theorem execPlovernOwnerRecord_kept {record : List Byte} {auth : AuthKey} {s : State} (h : Form s) :
    NextKept (execPlovernOwnerRecord record auth s) := by
  unfold execPlovernOwnerRecord
  refine nextKept ?_
  split
  · split
    · exact withOwner_kept h (fun _ ht => writeOwner_kept ht)
    · exact writeOwner_kept h
  · exact h

theorem writeMap_kept {s : State} {m : List Byte} (h : Form s) : Form (writeMap s m) := by
  unfold writeMap
  extract_lets _ _
  split
  · exact http_kept h
  · split
    · exact http_kept (adoptMap_kept h)
    · exact http_kept (form_of_eq h rfl rfl)

theorem execPlovernSystemMap_kept {map : List Byte} {auth : AuthKey} {s : State} (h : Form s) : NextKept (execPlovernSystemMap map auth s) := by
  unfold execPlovernSystemMap
  refine nextKept ?_
  split
  · exact withOwner_kept h (fun _ ht => writeMap_kept ht)
  · exact h

theorem execPlovernCheckerTest_kept {auth : AuthKey} {s : State} (h : Form s) : NextKept (execPlovernCheckerTest auth s) := by
  unfold execPlovernCheckerTest
  refine nextKept ?_
  split
  · refine withOwner_kept h (fun _ ht => ?_)
    split
    · exact http_kept ht
    · exact http_kept (forKeys_kept (fun _ _ ht => powerUpTest_kept ht) ht)
  · exact h

theorem execUpdateServicePush_kept {image : List Byte} {auth : AuthKey} {s : State} (h : Form s) : NextKept (execUpdateServicePush image auth s) := by
  unfold execUpdateServicePush
  refine nextKept ?_
  split
  · refine withOwner_kept h (fun _ ht => ?_)
    split
    · next e => exact http_kept (form_fst_of_eq (stageImage_kept ht) e)
  · exact h

theorem execUpdateServiceStartUpdate_kept {auth : AuthKey} {s : State} (h : Form s) : NextKept (execUpdateServiceStartUpdate auth s) := by
  unfold execUpdateServiceStartUpdate
  refine nextKept ?_
  split
  · refine withOwner_kept h (fun _ ht => ?_)
    split
    · exact http_kept ht
    · exact http_kept (form_of_eq ht rfl rfl)
  · exact h

theorem execSshConsoleConnect_kept {auth : AuthKey} {s : State} (h : Form s) : NextKept (execSshConsoleConnect auth s) := by
  unfold execSshConsoleConnect
  refine nextKept ?_
  split
  · exact withClient_kept h (fun _ ht => emitOut_kept (mgmtMod_kept ht))
  · exact h

theorem spdmError_kept {s : State} {code : Nat} (h : Form s) : Form (spdmError s code) := emitOut_kept h

theorem spdmReady_kept {s : State} {run : State → State} (h : Form s) (hrun : ∀ t, Form t → Form (run t)) : Form (spdmReady s run) := by
  unfold spdmReady
  split
  · exact h
  · split
    · exact hrun _ h
    · exact spdmError_kept h

theorem execSpdmGetVersion_kept {s : State} (h : Form s) : NextKept (execSpdmGetVersion s) := by
  unfold execSpdmGetVersion
  refine nextKept ?_
  split
  · exact emitOut_kept (mgmtMod_kept h)
  · exact h

theorem execSpdmGetCapabilities_kept {s : State} (h : Form s) : NextKept (execSpdmGetCapabilities s) := by
  unfold execSpdmGetCapabilities
  refine nextKept ?_
  split
  · exact h
  · split
    · exact emitOut_kept (mgmtMod_kept h)
    · exact spdmError_kept h

theorem execSpdmNegotiateAlgorithms_kept {p384 sha : Bool} {s : State} (h : Form s) : NextKept (execSpdmNegotiateAlgorithms p384 sha s) := by
  unfold execSpdmNegotiateAlgorithms
  refine nextKept ?_
  split
  · exact h
  · split
    · exact spdmError_kept h
    · split
      · exact emitOut_kept (mgmtMod_kept h)
      · exact spdmError_kept h

theorem execSpdmGetDigests_kept {slot : Nat} {s : State} (h : Form s) : NextKept (execSpdmGetDigests slot s) := by
  unfold execSpdmGetDigests
  refine nextKept ?_
  refine spdmReady_kept h (fun _ ht => ?_)
  split
  · exact emitOut_kept ht
  · exact spdmError_kept ht

theorem execSpdmGetCertificate_kept {slot offset length : Nat} {s : State} (h : Form s) : NextKept (execSpdmGetCertificate slot offset length s) := by
  unfold execSpdmGetCertificate
  refine nextKept ?_
  refine spdmReady_kept h (fun _ ht => ?_)
  split
  · exact emitOut_kept ht
  · exact spdmError_kept ht

theorem spdmSigned_kept {s : State} {code : Nat} {body nonce : List Byte} (h : Form s) : Form (spdmSigned s code body nonce) := by
  unfold spdmSigned
  split
  · exact spdmError_kept h
  · split
    · next e => exact emitOut_kept (form_fst_of_eq (cseSign_kept h) e)

theorem execSpdmChallenge_kept {slot : Nat} {nonce : List Byte} {s : State} (h : Form s) : NextKept (execSpdmChallenge slot nonce s) := by
  unfold execSpdmChallenge
  refine nextKept ?_
  refine spdmReady_kept h (fun _ ht => ?_)
  split
  · exact spdmSigned_kept ht
  · exact spdmError_kept ht

theorem execSpdmGetMeasurements_kept {nonce : List Byte} {s : State} (h : Form s) : NextKept (execSpdmGetMeasurements nonce s) :=
  nextKept (spdmReady_kept h (fun _ ht => spdmSigned_kept ht))

end Sys2Proof.Laws
end

section
/-!
PROOFS. The canonical form of memory and the unit pages (R15, R297) through every command and every step.
-/
namespace Sys2Proof.Laws

open Sys2Proof.Machine

theorem exec_kept {c : Instr} {s : State} (h : Form s) : NextKept (exec c s) := by
  cases c with
  | powerInputValid => exact execPowerInputValid_kept h
  | railPowerFailure step => exact execRailPowerFailure_kept (step := step) h
  | powerRetry => exact execPowerRetry_kept h
  | brownout => exact execBrownout_kept h
  | powerGood => exact execPowerGood_kept h
  | recoveryImageReceive => exact execRecoveryImageReceive_kept h
  | recoveryTransferStall => exact execRecoveryTransferStall_kept h
  | recoveryXPairTimer => exact execRecoveryXPairTimer_kept h
  | memoryTrainingDone => exact execMemoryTrainingDone_kept h
  | ref10mLock => exact execRef10mLock_kept h
  | ref10mLoss => exact execRef10mLoss_kept h
  | ppsMark => exact execPpsMark_kept h
  | ppsMarkMissing => exact execPpsMarkMissing_kept h
  | candidateFlood => exact execCandidateFlood_kept h
  | electionConclude => exact execElectionConclude_kept h
  | masterAnnouncementReceive => exact execMasterAnnouncementReceive_kept h
  | strikeZero => exact execStrikeZero_kept h
  | strikeEdge => exact execStrikeEdge_kept h
  | strikeSlip => exact execStrikeSlip_kept h
  | strikeRelock => exact execStrikeRelock_kept h
  | holdoverEnter => exact execHoldoverEnter_kept h
  | reparent => exact execReparent_kept h
  | holdoverTimeout => exact execHoldoverTimeout_kept h
  | masterLost => exact execMasterLost_kept h
  | comparatorFire => exact execComparatorFire_kept h
  | leaseExpiry => exact execLeaseExpiry_kept h
  | requestDeadlineTimeout => exact execRequestDeadlineTimeout_kept h
  | stickyEventPost => exact execStickyEventPost_kept h
  | ucpResetReq => exact execUcpResetReq_kept h
  | resetRelease => exact execResetRelease_kept h
  | stickyW1cWrite => exact execStickyW1cWrite_kept h
  | groupStickyClear => exact execGroupStickyClear_kept h
  | watchdogDeadlineWrite => exact execWatchdogDeadlineWrite_kept h
  | registerWrite => exact execRegisterWrite_kept h
  | ringTailWrite => exact execRingTailWrite_kept h
  | vmpEnableSet => exact execVmpEnableSet_kept h
  | vmpEnableClear => exact execVmpEnableClear_kept h
  | requestEntryUnreadable => exact execRequestEntryUnreadable_kept h
  | vmpHello => exact execVmpHello_kept h
  | vmpBye => exact execVmpBye_kept h
  | vmpCfgStage => exact execVmpCfgStage_kept h
  | vmpCfgValidate => exact execVmpCfgValidate_kept h
  | vmpCfgCommit => exact execVmpCfgCommit_kept h
  | vmpCfgRevert => exact execVmpCfgRevert_kept h
  | vmpCfgRead => exact execVmpCfgRead_kept h
  | vmpOpSubmit => exact execVmpOpSubmit_kept h
  | vmpOpCancel => exact execVmpOpCancel_kept h
  | vmpOpStatus => exact execVmpOpStatus_kept h
  | vmpOpDeadline => exact execVmpOpDeadline_kept h
  | vmpTableCreate => exact execVmpTableCreate_kept h
  | vmpTableLoad => exact execVmpTableLoad_kept h
  | vmpTableActivate => exact execVmpTableActivate_kept h
  | vmpTableRetire => exact execVmpTableRetire_kept h
  | vmpTableMigrate => exact execVmpTableMigrate_kept h
  | vmpCurveLoad => exact execVmpCurveLoad_kept h
  | vmpErrRead => exact execVmpErrRead_kept h
  | vmpErrClear => exact execVmpErrClear_kept h
  | vmpRecover => exact execVmpRecover_kept h
  | vmpHoldRead => exact execVmpHoldRead_kept h
  | vmpAttest => exact execVmpAttest_kept h
  | vmpFwStage => exact execVmpFwStage_kept h
  | vmpFwActivate => exact execVmpFwActivate_kept h
  | vmpTimeRead => exact execVmpTimeRead_kept h
  | vmpTopoRead => exact execVmpTopoRead_kept h
  | configApply => exact execConfigApply_kept h
  | configFlashWrite => exact execConfigFlashWrite_kept h
  | forwardedCommitReceive => exact execForwardedCommitReceive_kept h
  | readmission => exact execReadmission_kept h
  | tableVersionActivation => exact execTableVersionActivation_kept h
  | planStart => exact execPlanStart_kept h
  | planStop => exact execPlanStop_kept h
  | planEndAnnounceReceive => exact execPlanEndAnnounceReceive_kept h
  | jobEndReport => exact execJobEndReport_kept h
  | jobComplete => exact execJobComplete_kept h
  | activityOccupancyEnd => exact execActivityOccupancyEnd_kept h
  | scanLoad => exact execScanLoad_kept h
  | scanRenumber => exact execScanRenumber_kept h
  | filter => exact execFilter_kept h
  | compute => exact execCompute_kept h
  | hash => exact execHash_kept h
  | partition => exact execPartition_kept h
  | joinBuild => exact execJoinBuild_kept h
  | joinProbe => exact execJoinProbe_kept h
  | dedup => exact execDedup_kept h
  | emit => exact execEmit_kept h
  | rangeBucketLoad => exact execRangeBucketLoad_kept h
  | rangeBucketInsert => exact execRangeBucketInsert_kept h
  | rangeBucketSearch => exact execRangeBucketSearch_kept h
  | rangeJoinLoad => exact execRangeJoinLoad_kept h
  | rangeJoinInsert => exact execRangeJoinInsert_kept h
  | rangeJoinSearch => exact execRangeJoinSearch_kept h
  | maskMatchLoad => exact execMaskMatchLoad_kept h
  | maskMatchSearch => exact execMaskMatchSearch_kept h
  | hardyRebalance => exact execHardyRebalance_kept h
  | statsColumns => exact execStatsColumns_kept h
  | statsKeysample => exact execStatsKeysample_kept h
  | normalise => exact execNormalise_kept h
  | selectAbove => exact execSelectAbove_kept h
  | topk => exact execTopk_kept h
  | sortSegment => exact execSortSegment_kept h
  | embLookup => exact execEmbLookup_kept h
  | embUpdate => exact execEmbUpdate_kept h
  | rowCacheFillReply => exact execRowCacheFillReply_kept h
  | rowCacheFillRequest => exact execRowCacheFillRequest_kept h
  | rowCacheDecay => exact execRowCacheDecay_kept h
  | migrationImageReceive => exact execMigrationImageReceive_kept h
  | migrationCutOver => exact execMigrationCutOver_kept h
  | migrationEndSend => exact execMigrationEndSend_kept h
  | migrationEndReceive => exact execMigrationEndReceive_kept h
  | migrationForwardWindowEnd => exact execMigrationForwardWindowEnd_kept h
  | autoMigration => exact execAutoMigration_kept h
  | swageCopy => exact execSwageCopy_kept h
  | packNew => exact execPackNew_kept h
  | packResume => exact execPackResume_kept h
  | unpack => exact execUnpack_kept h
  | refreshWindow => exact execRefreshWindow_kept h
  | bellowsFill => exact execBellowsFill_kept h
  | bellowsDrain => exact execBellowsDrain_kept h
  | bellowsSend => exact execBellowsSend_kept h
  | bellowsLand record rep bytes => exact execBellowsLand_kept (bytes := bytes) h
  | bellowsIngest record rep bytes => exact execBellowsIngest_kept (bytes := bytes) h
  | mergeBufferFlush => exact execMergeBufferFlush_kept h
  | checkerFlipArm => exact execCheckerFlipArm_kept h
  | weldFrameReceive => exact execWeldFrameReceive_kept h
  | weldFrameLand => exact execWeldFrameLand_kept h
  | weldFrameResend => exact execWeldFrameResend_kept h
  | weldFrameLost => exact execWeldFrameLost_kept h
  | controlMessageReceive => exact execControlMessageReceive_kept h
  | laneLightDetect => exact execLaneLightDetect_kept h
  | laneRetrainTimer => exact execLaneRetrainTimer_kept h
  | laneDown => exact execLaneDown_kept h
  | bypassClose => exact execBypassClose_kept h
  | bypassOpen => exact execBypassOpen_kept h
  | routingOverrideCommit tables => exact execRoutingOverrideCommit_kept (tables := tables) h
  | spurModeRetrain => exact execSpurModeRetrain_kept h
  | qpCmdReset => exact execQpCmdReset_kept h
  | qpCmdInit => exact execQpCmdInit_kept h
  | qpCmdRtr => exact execQpCmdRtr_kept h
  | qpCmdRts => exact execQpCmdRts_kept h
  | qpCmdError => exact execQpCmdError_kept h
  | spurSend => exact execSpurSend_kept h
  | spurSendImm => exact execSpurSendImm_kept h
  | spurWrite => exact execSpurWrite_kept h
  | spurWriteImm => exact execSpurWriteImm_kept h
  | spurRead => exact execSpurRead_kept h
  | nvmeRead => exact execNvmeRead_kept h
  | nvmeFabricsConnect => exact execNvmeFabricsConnect_kept h
  | nvmePropertyGet => exact execNvmePropertyGet_kept h
  | nvmePropertySet => exact execNvmePropertySet_kept h
  | nvmeIdentify => exact execNvmeIdentify_kept h
  | nvmeGetLogPage => exact execNvmeGetLogPage_kept h
  | nvmeKeepAlive => exact execNvmeKeepAlive_kept h
  | roceInboundRead => exact execRoceInboundRead_kept h
  | roceInboundWrite => exact execRoceInboundWrite_kept h
  | roceInboundSend => exact execRoceInboundSend_kept h
  | roceAckTimeout => exact execRoceAckTimeout_kept h
  | cnpReceive => exact execCnpReceive_kept h
  | cnpRateRecovery => exact execCnpRateRecovery_kept h
  | cnpSend => exact execCnpSend_kept h
  | ethFrameReceive => exact execEthFrameReceive_kept h
  | pfcPauseReceive => exact execPfcPauseReceive_kept h
  | faultDetect => exact execFaultDetect_kept h
  | memberLost => exact execMemberLost_kept h
  | holdNoticeReceive => exact execHoldNoticeReceive_kept h
  | holdRaise => exact execHoldRaise_kept h
  | partitionRestore => exact execPartitionRestore_kept h
  | recoveryBoundMiss => exact execRecoveryBoundMiss_kept h
  | restoredNoticeReceive => exact execRestoredNoticeReceive_kept h
  | replayStart => exact execReplayStart_kept h
  | planResume => exact execPlanResume_kept h
  | jobFaultEnd => exact execJobFaultEnd_kept h
  | fwImageHandover => exact execFwImageHandover_kept h
  | fwActivateRollback => exact execFwActivateRollback_kept h
  | mapAnnounceReceive => exact execMapAnnounceReceive_kept h
  | portStateReport => exact execPortStateReport_kept h
  | formationCommit => exact execFormationCommit_kept h
  | deviceReady => exact execDeviceReady_kept h
  | lateJoin => exact execLateJoin_kept h
  | thermalSample => exact execThermalSample_kept h
  | pendingRateFull => exact execPendingRateFull_kept h
  | metricReport => exact execMetricReport_kept h
  | dhcpLinkLocalFallback => exact execDhcpLinkLocalFallback_kept h
  | redfishGet => exact execRedfishGet_kept h
  | redfishEventSubscribe => exact execRedfishEventSubscribe_kept h
  | plovernVmp => exact execPlovernVmp_kept h
  | plovernOwnerRecord => exact execPlovernOwnerRecord_kept h
  | plovernSystemMap => exact execPlovernSystemMap_kept h
  | plovernCheckerTest => exact execPlovernCheckerTest_kept h
  | updateServicePush => exact execUpdateServicePush_kept h
  | updateServiceStartUpdate => exact execUpdateServiceStartUpdate_kept h
  | sshConsoleConnect => exact execSshConsoleConnect_kept h
  | spdmGetVersion => exact execSpdmGetVersion_kept h
  | spdmGetCapabilities => exact execSpdmGetCapabilities_kept h
  | spdmNegotiateAlgorithms => exact execSpdmNegotiateAlgorithms_kept h
  | spdmGetDigests => exact execSpdmGetDigests_kept h
  | spdmGetCertificate => exact execSpdmGetCertificate_kept h
  | spdmChallenge => exact execSpdmChallenge_kept h
  | spdmGetMeasurements => exact execSpdmGetMeasurements_kept h
  | strikeLockAcquire => exact execStrikeLockAcquire_kept h
  | laneLightLoss => exact execLaneLightLoss_kept h
  | spurResponseReceive => exact execSpurResponseReceive_kept h
  | ethernetLinkChange => exact execEthernetLinkChange_kept h
  | managementFrameReceive => exact execManagementFrameReceive_kept h
  | hearthMemoryAccess => exact execHearthMemoryAccess_kept h

theorem step_kept {s : State} (h : Form s) : NextKept (step s) := by
  unfold step
  split
  · exact nextKept h
  · exact exec_kept (form_of_eq h rfl rfl)

end Sys2Proof.Laws

namespace Sys2Proof

open Machine Laws

/-- Settles O4. Each of the 204 commands keeps the form (`exec_kept`), and taking one from the queue touches neither memory nor pages. -/
theorem stepKeepsForm : Obligations.StepKeepsForm := by
  unfold Obligations.StepKeepsForm
  exact fun s t hs e => step_kept hs t e

end Sys2Proof
end

section
/-!
PROOFS. The timebase (R30 to R46): the stores that its commands leave as they were.
-/
namespace Sys2Proof.Laws

open Sys2Proof.Machine

/-! ### What the timebase commands leave -/

/-- From s to t nothing changes of the stores that the timebase has no part in (R31 to R46): memory, jobs, configuration, clients, engines,
firmware, holds, and every unit but the device's own. -/
structure KeepsStores (s t : State) : Prop where
  mem : t.mem = s.mem
  jobs : t.seq.jobs = s.seq.jobs
  cfg : t.cfg = s.cfg
  vmp : t.vmp = s.vmp
  eng : t.eng = s.eng
  boot : t.boot = s.boot
  quench : t.quench = s.quench
  form : t.form = s.form
  power : t.power = s.power
  therm : t.therm = s.therm
  mgmt : t.mgmt = s.mgmt
  ident : t.ident = s.ident
  free : t.free = s.free
  units : ∀ k, k ≠ devKey → unitGet t k = unitGet s k

theorem KeepsStores.refl (s : State) : KeepsStores s s := by constructor <;> intros <;> rfl

theorem KeepsStores.trans {s t u : State} (h1 : KeepsStores s t) (h2 : KeepsStores t u) : KeepsStores s u where
  mem := h2.mem.trans h1.mem
  jobs := h2.jobs.trans h1.jobs
  cfg := h2.cfg.trans h1.cfg
  vmp := h2.vmp.trans h1.vmp
  eng := h2.eng.trans h1.eng
  boot := h2.boot.trans h1.boot
  quench := h2.quench.trans h1.quench
  form := h2.form.trans h1.form
  power := h2.power.trans h1.power
  therm := h2.therm.trans h1.therm
  mgmt := h2.mgmt.trans h1.mgmt
  ident := h2.ident.trans h1.ident
  free := h2.free.trans h1.free
  units k hk := (h2.units k hk).trans (h1.units k hk)

/-- An update of the timebase, the links, what is sent and the counts of the sequencer. -/
theorem keepsStores_counts (s : State) (tb : Timebase) (l : Links) (o : List Output) (q : Sequencer) (h : q.jobs = s.seq.jobs) :
    KeepsStores s { s with tb := tb, links := l, out := o, seq := q } := by
  constructor
  case jobs => exact h
  all_goals intros; rfl

theorem tbMod_keepsStores (s : State) (f : Timebase → Timebase) : KeepsStores s (tbMod s f) := keepsStores_counts s (f s.tb) s.links s.out s.seq rfl
theorem emitOut_keepsStores (s : State) (o : Output) : KeepsStores s (emitOut s o) := keepsStores_counts s s.tb s.links _ s.seq rfl
theorem setMaster_keepsStores (s : State) (c : Candidate) : KeepsStores s (setMaster s c) := keepsStores_counts s _ s.links s.out s.seq rfl

theorem floodMsg_keepsStores (s : State) (y : Nat) (b : CtlBody) : KeepsStores s (floodMsg s y b) := by
  rw [floodMsg_eq]
  exact keepsStores_counts s s.tb _ _ s.seq rfl

/-- An update that writes units alone, and of them the device's own. -/
theorem keepsStores_units {s t : State} (h : t = { s with units := t.units }) (hu : ∀ k, k ≠ devKey → unitGet t k = unitGet s k) : KeepsStores s t := by
  constructor
  case units => exact hu
  all_goals rw [h]

theorem flagsMod_keepsStores (s : State) (f : UnitFlags → UnitFlags) : KeepsStores s (flagsMod s devKey f) :=
  keepsStores_units rfl (fun _ hk => unitGet_unitMod_ne hk)

theorem stickySet_keepsStores (s : State) (b : Nat) : KeepsStores s (stickySet s devKey b) :=
  keepsStores_units (stickySet_eq ..) (fun k hk => (unitGet_congr (stickySet_pages ..) k).trans (unitGet_unitMod_ne hk))

theorem selfAndAncestors_devKey : selfAndAncestors devKey = [devKey] := by decide

/-- The device unit has no ancestor: what it counts, it counts alone. -/
theorem count_devKey (s : State) (c n : Nat) : count s devKey c n = counterAddOne s c n devKey := by
  unfold count
  rw [selfAndAncestors_devKey]
  split <;> rfl

theorem count_keepsStores (s : State) (c n : Nat) : KeepsStores s (count s devKey c n) :=
  keepsStores_units (count_eq ..) (fun k hk => by rw [count_devKey]; exact unitGet_unitMod_ne hk)

theorem foldl_keepsStores {β : Type} {f : State → β → State} (h : ∀ t x, KeepsStores t (f t x)) : ∀ (l : List β) (s : State), KeepsStores s (l.foldl f s)
  | [], s => .refl s
  | x :: l, s => (h s x).trans (foldl_keepsStores h l (f s x))

theorem sendOnPort_keepsStores (s : State) (p : Nat) (m : CtlMsg) : KeepsStores s (sendOnPort s p m) := by
  rw [sendOnPort_eq]
  exact keepsStores_counts s s.tb _ _ s.seq rfl

theorem sendTo_keepsStores (s : State) (ds : List Nat) (y : Nat) (b : CtlBody) : KeepsStores s (sendTo s ds y b) := by
  refine foldl_keepsStores (fun t d => (keepsStores_counts t t.tb { t.links with ctlSeq := t.links.ctlSeq + 1 } t.out t.seq rfl).trans ?_) _ s
  unfold routeMsg
  split
  · exact sendOnPort_keepsStores ..
  · exact count_keepsStores ..

theorem KeepsStores.ite {c : Prop} [Decidable c] {s t u : State} (ht : KeepsStores s t) (hu : KeepsStores s u) : KeepsStores s (if c then t else u) := by
  split
  · exact ht
  · exact hu

theorem heatMessages_keepsStores (s : State) : KeepsStores s (heatMessages s) := by
  unfold heatMessages
  extract_lets _ s1 s2 _
  have h1 : KeepsStores s s1 := .ite (floodMsg_keepsStores ..) (.refl s)
  have h2 : KeepsStores s s2 := h1.trans ((floodMsg_keepsStores ..).trans (floodMsg_keepsStores ..))
  exact h2.trans (foldl_keepsStores (fun t _ => sendTo_keepsStores t _ _ _) _ s2)

theorem syncPulse_keepsStores (s : State) : KeepsStores s (syncPulse s) := by
  unfold syncPulse
  exact .ite (.ite (emitOut_keepsStores ..) (.refl s)) (.ite (emitOut_keepsStores ..) (.refl s))

theorem slip_keepsStores (s : State) : KeepsStores s (slip s) := by
  unfold slip
  exact (tbMod_keepsStores s _).trans ((stickySet_keepsStores ..).trans ((count_keepsStores ..).trans (flagsMod_keepsStores ..)))

theorem hearAnnouncement_keepsStores (s : State) (c : Candidate) : KeepsStores s (hearAnnouncement s c) :=
  .ite ((setMaster_keepsStores s c).trans ((tbMod_keepsStores ..).trans (floodMsg_keepsStores ..))) (.refl s)

/-- What a command makes of the state, where it makes one, keeps the stores. -/
def NextKeepsStores (s : State) (o : Host.Outcome State Fault Refusal) : Prop := ∀ t, o = .next t → KeepsStores s t

theorem nextKeepsStores {s t : State} (h : KeepsStores s t) : NextKeepsStores s (.next t) := fun _ e => by
  cases e
  exact h

theorem execCandidateFlood_keepsStores (s : State) : NextKeepsStores s (execCandidateFlood s) :=
  nextKeepsStores (.ite ((tbMod_keepsStores ..).trans (foldl_keepsStores (fun t _ => floodMsg_keepsStores t _ _) _ _)) (.refl s))

theorem execElectionConclude_keepsStores (b : Bool) (s : State) : NextKeepsStores s (execElectionConclude b s) := by
  unfold execElectionConclude
  extract_lets own best s1 s2 s3 s4
  have h1 : KeepsStores s s1 := tbMod_keepsStores ..
  have h4 : KeepsStores s s4 := h1.trans ((setMaster_keepsStores ..).trans ((tbMod_keepsStores ..).trans (floodMsg_keepsStores ..)))
  exact nextKeepsStores (.ite (.ite (.ite (h4.trans ((tbMod_keepsStores ..).trans (floodMsg_keepsStores ..))) h4) h1) (.refl s))

theorem execStrikeZero_keepsStores (s : State) : NextKeepsStores s (execStrikeZero s) := by
  unfold execStrikeZero
  refine nextKeepsStores (.ite ?_ (.refl s))
  exact KeepsStores.trans (keepsStores_counts s { s.tb with strikeDefined := true, lock := .locked, hops := 0 } s.links s.out
    { s.seq with strike := 0, kind := .run, nextKind := .run, hold := 0 } rfl) ((heatMessages_keepsStores _).trans (syncPulse_keepsStores _))

theorem execStrikeLockAcquire_keepsStores (l : Bool) (n : Word) (s : State) : NextKeepsStores s (execStrikeLockAcquire l n s) := by
  refine nextKeepsStores (.ite ?_ (.refl s))
  split
  · exact .refl s
  · exact .ite (keepsStores_counts s _ s.links s.out _ rfl) (tbMod_keepsStores ..)

theorem execStrikeRelock_keepsStores (n : Word) (s : State) : NextKeepsStores s (execStrikeRelock n s) := by
  refine nextKeepsStores (.ite ?_ (.refl s))
  split
  · exact .refl s
  · next p _ =>
    have locked := keepsStores_counts s { s.tb with
      lock := .locked, hops := BitVec.ofNat 5 (s.tb.neighbourHops.getD p 0 + 1), parent := some p, offset := 0
      role := if s.tb.role == .holdover then .follower else s.tb.role } s.links s.out { s.seq with strike := lockNumber s p n } rfl
    exact .ite (locked.trans (flagsMod_keepsStores ..)) locked

theorem execHoldoverEnter_keepsStores (s : State) : NextKeepsStores s (execHoldoverEnter s) := by
  refine nextKeepsStores ?_
  split
  · exact .ite (tbMod_keepsStores ..) (.refl s)
  · exact .refl s

theorem execReparent_keepsStores (s : State) : NextKeepsStores s (execReparent s) := by
  refine nextKeepsStores (.ite ?_ (.refl s))
  split
  · exact tbMod_keepsStores ..
  · exact .refl s

end Sys2Proof.Laws

namespace Sys2Proof

open Machine Laws

/-- Settles O59. Each of the commands writes the timebase, the counts of the sequencer, the links and what is sent, and of the units the device's
own alone (`KeepsStores`). -/
theorem timebaseFrame : Obligations.TimebaseFrame := by
  unfold Obligations.TimebaseFrame
  intro s t c hc ht
  have kept : NextKeepsStores s (exec c s) := by
    rcases hc with ⟨e, rfl⟩ | ⟨n, l, rfl⟩ | ⟨l, n, rfl⟩ | ⟨n, rfl⟩ | ⟨b, rfl⟩ | hc
    · exact nextKeepsStores (hearAnnouncement_keepsStores s e)
    · exact nextKeepsStores (tbMod_keepsStores ..)
    · exact execStrikeLockAcquire_keepsStores l n s
    · exact execStrikeRelock_keepsStores n s
    · exact execElectionConclude_keepsStores b s
    · simp only [List.mem_cons, List.not_mem_nil, or_false] at hc
      rcases hc with rfl | rfl | rfl | rfl | rfl | rfl | rfl | rfl | rfl | rfl
      · exact nextKeepsStores (tbMod_keepsStores ..)
      · exact nextKeepsStores (tbMod_keepsStores ..)
      · exact nextKeepsStores (tbMod_keepsStores ..)
      · exact execCandidateFlood_keepsStores s
      · exact execStrikeZero_keepsStores s
      · exact nextKeepsStores (.ite (slip_keepsStores s) (.refl s))
      · exact execHoldoverEnter_keepsStores s
      · exact execReparent_keepsStores s
      · exact nextKeepsStores (.ite (slip_keepsStores s) (.refl s))
      · exact nextKeepsStores (.ite (tbMod_keepsStores ..) (.refl s))
  obtain ⟨mem, jobs, cfg, vmp, eng, boot, quench, form, power, therm, mgmt, ident, free, units⟩ := kept t ht
  exact ⟨mem, jobs, cfg, vmp, eng, boot, quench, form, power, therm, mgmt, ident, free, units⟩

end Sys2Proof
end

section
/-!
PROOFS. Events of units (R20, R49, R301): what counting and raising sticky bits leave of every unit, whatever the order of the pages.
-/
namespace Sys2Proof.Laws

open Sys2Proof.Machine

/-! ### One event -/

/-- A page that has counted n events with counter c. -/
def addToCounter (c n : Nat) (p : UnitPage) : UnitPage := { p with counters := sparseSet 0 c (satAdd (sparseGet 0 c p.counters) n) p.counters }

/-- A counted event changes one counter of one unit. -/
theorem unitGet_counterAddOne (s : State) {c n k : Nat} (h : 1 ≤ n) (j : Nat) : unitGet (counterAddOne s c n k) j =
    if j = k then { unitGet s k with page := addToCounter c n (unitGet s k).page } else unitGet s j := by
  unfold counterAddOne pageMod
  split
  · next e =>
    subst e
    refine unitGet_unitMod_of_ne_default (fun he => ?_)
    have hc := congrArg (fun u : UnitState => sparseGet 0 c u.page.counters) he
    dsimp only at hc
    rw [counters_pageDefault, sparseGet_sparseSet_of_ne (satAdd_ne_zero _ h), if_pos rfl] at hc
    exact satAdd_ne_zero _ h hc
  · next e => exact unitGet_unitMod_ne e

theorem raisedBits_pageDefault (k : Nat) : raisedBits (pageDefault k) = 0 := by
  unfold pageDefault
  split <;> rfl

theorem getLsbD_two_pow {b : Nat} (hb : b < 64) : (BitVec.ofNat 64 (2 ^ b) : Word).getLsbD b = true := by
  rw [BitVec.getLsbD_ofNat, Nat.testBit_two_pow_self, decide_eq_true hb]
  rfl

/-- A sticky bit that is set changes the page of its unit alone; a page with a bit set is never the one at reset. -/
theorem unitGet_stickySet_any (s : State) (k j : Nat) {b : Nat} (hb : b < 64) : unitGet (stickySet s k b) j =
    if j = k then { unitGet s k with page := markSticky s.tb.strikeDefined (unitGet s k).page (BitVec.ofNat 64 (2 ^ b)) } else unitGet s j := by
  refine (unitGet_congr (stickySet_pages s k b) j).trans ?_
  split
  · next e =>
    subst e
    refine unitGet_unitMod_of_ne_default (fun he => ?_)
    have hset := getLsbD_raisedBits_markSticky s.tb.strikeDefined (unitGet s j).page (unitGet s j).flags _ b (getLsbD_two_pow hb)
    rw [he, raisedBits_pageDefault] at hset
    simp at hset
  · next e => exact unitGet_unitMod_ne e

/-! ### Any number of events -/

/-- From s to t the units have counted events and raised sticky bits, and done nothing else. -/
inductive EventsOnly : State → State → Prop
  | same {s t : State} (h : t.units.pages = s.units.pages) : EventsOnly s t
  | add (s : State) (c : Nat) {n : Nat} (k : Nat) (h : 1 ≤ n) : EventsOnly s (counterAddOne s c n k)
  | raise (s : State) (k : Nat) {b : Nat} (h : b < 64) : EventsOnly s (stickySet s k b)
  | trans {s t u : State} (h1 : EventsOnly s t) (h2 : EventsOnly t u) : EventsOnly s u

theorem EventsOnly.refl (s : State) : EventsOnly s s := .same rfl

theorem EventsOnly.of_units {s t : State} (h : t.units = s.units) : EventsOnly s t := .same (congrArg Units.pages h)

/-- What reads neither counters nor sticky bits reads the same of every unit. -/
theorem EventsOnly.keeps {γ : Type} {g : UnitState → γ} (hg : BlindToEvents g) {s t : State} (h : EventsOnly s t) (k : Nat) :
    g (unitGet t k) = g (unitGet s k) := by
  induction h with
  | same h => rw [unitGet_congr h]
  | add s c a h =>
    rw [unitGet_counterAddOne s h]
    split
    · next e => rw [e, addToCounter, hg.counters]
    · rfl
  | raise s a h =>
    rw [unitGet_stickySet_any s a k h]
    split
    · next e =>
      rw [e, markSticky]
      split
      · exact hg.fresh ..
      · exact hg.sticky ..
    · rfl
  | trans _ _ ih1 ih2 => rw [ih2, ih1]

/-- A raised bit stays raised. -/
theorem EventsOnly.raised {s t : State} (h : EventsOnly s t) {k b : Nat} : stickyRaised s k b → stickyRaised t k b := by
  unfold stickyRaised
  induction h with
  | same h => rw [unitGet_congr h]; exact id
  | add s c a h =>
    rw [unitGet_counterAddOne s h]
    split
    · next e => rw [e]; exact id
    · exact id
  | raise s a h =>
    rw [unitGet_stickySet_any s a k h]
    split
    · next e =>
      rw [e, markSticky]
      split <;> simp only [BitVec.getLsbD_or, Bool.or_eq_true] <;> tauto
    · exact id
  | trans _ _ ih1 ih2 => exact ih2 ∘ ih1

theorem EventsOnly.rises {s t : State} (h : EventsOnly s t) : Rises s.units.pages → Rises t.units.pages := by
  induction h with
  | same h => rw [h]; exact id
  | add s c k h => exact sparseSet_rises
  | raise s k h => exact stickySet_rises
  | trans _ _ ih1 ih2 => exact ih2 ∘ ih1

theorem stickyRaised_stickySet_any (s : State) (k : Nat) {b : Nat} (hb : b < 64) : stickyRaised (stickySet s k b) k b := by
  unfold stickyRaised
  rw [unitGet_stickySet_any s k k hb, if_pos rfl]
  exact getLsbD_raisedBits_markSticky _ _ (unitGet s k).flags _ _ (getLsbD_two_pow hb)

theorem foldl_events {β : Type} {f : State → β → State} (h : ∀ t x, EventsOnly t (f t x)) : ∀ (l : List β) (s : State), EventsOnly s (l.foldl f s)
  | [], s => .refl s
  | x :: l, s => (h s x).trans (foldl_events h l (f s x))

theorem count_events (s : State) (k c : Nat) {n : Nat} (h : 1 ≤ n) : EventsOnly s (count s k c n) := by
  unfold count
  split
  · exact foldl_events (fun t a => .add t c a h) _ s
  · exact .add s c k h

/-! ### Messages -/

theorem routeMsg_events (s : State) (m : CtlMsg) : EventsOnly s (routeMsg s m) := by
  unfold routeMsg
  split
  · exact .of_units (sendOnPort_units ..)
  · exact count_events _ _ _ (by omega)

theorem sendTo_events (s : State) (ds : List Nat) (y : Nat) (b : CtlBody) : EventsOnly s (sendTo s ds y b) :=
  foldl_events (fun t _ => (EventsOnly.of_units (s := t) (t := { t with links := { t.links with ctlSeq := t.links.ctlSeq + 1 } }) rfl).trans
    (routeMsg_events ..)) _ s

/-! ### Accesses of memory -/

theorem eccLog_events (s : State) (a : Nat) (sy : BitVec 8) (kind : BitVec 2) : EventsOnly s (eccLog s a sy kind) := by
  unfold eccLog
  dsimp only
  refine EventsOnly.trans (EventsOnly.trans ?_ (count_events _ _ _ (le_refl 1))) (.raise _ _ (by split <;> omega))
  split <;> exact .of_units rfl

theorem eccEvent_events (s : State) (a : Nat) (sy : BitVec 8) (kind : BitVec 2) : EventsOnly s (eccEvent s a sy kind) := by
  unfold eccEvent
  dsimp only
  split
  · exact eccLog_events ..
  · exact (eccLog_events ..).trans (.of_units (repairEvent_units ..))

theorem readWord_events (s : State) (a : Nat) : EventsOnly s (readWord s a).1 := by
  unfold readWord
  split
  · exact .refl s
  · split
    · exact .refl s
    · exact (eccEvent_events ..).trans (.of_units rfl)
    · exact (eccEvent_events ..).trans (.of_units rfl)
    · exact eccEvent_events ..
    · exact eccEvent_events ..

theorem mergeFlushEntry_events (s : State) (b : Nat) (e : MergeEntry) : EventsOnly s (mergeFlushEntry s b e) := by
  have dropped : EventsOnly s { s with mem := mergeDrop s.mem b e.addr } := .of_units rfl
  unfold mergeFlushEntry
  dsimp only
  split
  · exact dropped.trans (.of_units (storeWord_units ..))
  · exact dropped.trans ((readWord_events ..).trans (.of_units (afterRead_units (readWord _ e.addr) ..)))

theorem mergeWrite_events (s : State) (b a : Nat) (bs : List Byte) : EventsOnly s (mergeWrite s b a bs) := by
  have put : ∀ es, EventsOnly s { s with mem := mergePut s.mem b es } := fun _ => .of_units rfl
  unfold mergeWrite
  extract_lets w es s1 e'
  clear_value es
  split
  · dsimp only
    split
    · exact (put _).trans (mergeFlushEntry_events ..)
    · exact put _
  · have h1 : EventsOnly s s1 := by
      unfold s1
      split
      · split
        · exact mergeFlushEntry_events ..
        · exact .refl s
      · exact .refl s
    exact h1.trans (.of_units rfl)

theorem writeInWord_events (s : State) (a : Nat) (bs : List Byte) : EventsOnly s (writeInWord s a bs) := by
  unfold writeInWord
  split
  · exact .of_units rfl
  · split
    · exact .of_units (storeWord_units ..)
    · split
      · exact mergeWrite_events ..
      · exact (readWord_events s (a / 8 * 8)).trans (.of_units (afterRead_units (readWord s (a / 8 * 8)) ..))

theorem memWriteWords_events : ∀ (n : Nat) (s : State) (a : Nat) (bs : List Byte), EventsOnly s (memWriteWords n s a bs)
  | 0, s, _, _ => .refl s
  | n + 1, s, a, bs => by
    rw [memWriteWords]
    split
    · exact .refl s
    · exact (writeInWord_events ..).trans (memWriteWords_events n ..)

theorem memWrite_events (s : State) (a : Nat) (bs : List Byte) : EventsOnly s (memWrite s a bs) := memWriteWords_events ..

/-! ### Responses and completions -/

theorem postMessage_events (s : State) (k : Nat) (m : List Byte) : EventsOnly s (postMessage s k m) := by
  unfold postMessage
  extract_lets p a s1
  have h1 : EventsOnly s s1 := (memWrite_events s a m).trans (.of_units rfl)
  split
  · exact .of_units rfl
  · split
    · exact h1.trans (.of_units rfl)
    · exact h1

theorem complete_events (s : State) (c : BitVec 12) (tag : BitVec 16) (k : Nat) (st : BitVec 16) (b : List Byte) : EventsOnly s (complete s c tag k st b) := by
  unfold complete
  split
  · exact .refl s
  · extract_lets v s1 m s2
    have h2 : EventsOnly s s2 := (EventsOnly.of_units (s := s) (t := s1) rfl).trans (postMessage_events s1 k m)
    split
    · split
      · exact h2.trans (.of_units rfl)
      · exact h2
    · exact .of_units rfl

end Sys2Proof.Laws
end

section
/-!
PROOFS. The keys of the device's units (R15), and what a configuration change at its strike leaves of them (R53, R128, R359, R360).
-/
namespace Sys2Proof.Laws

open Sys2Proof.Machine

/-! ### Keys of the device's units -/

/-- A key of the device: it names no group, and its DEVICE field is 0. -/
def IsLocalKey (k : Nat) : Prop := k < 5 * 2 ^ 28 ∧ k / 2 ^ 16 % 4096 = 0

theorem dieKey_lt {a b : Nat} (h : a < b) : dieKey a + 2 ^ 9 ≤ dieKey b := by
  unfold dieKey
  omega

theorem coreKey_lt {a b : Nat} (h : a < b) (hb : b < 2560) : coreKey a < coreKey b := by
  have hd : a / 32 < b / 32 → dieKey (a / 32) + 2 ^ 9 ≤ dieKey (b / 32) := dieKey_lt
  have ha : 2 ^ 28 ≤ dieKey (a / 32) := by unfold dieKey; omega
  unfold coreKey
  rcases Nat.lt_or_ge (a / 32) (b / 32) with hlt | hge
  · have := hd hlt
    omega
  · have heq : a / 32 = b / 32 := by omega
    rw [heq] at ha ⊢
    omega

theorem coreKey_bounds {c : Nat} (h : c < 2560) : coreKey c < 2 ^ 16 := by
  unfold coreKey dieKey
  omega

theorem dieKey_bounds {d : Nat} (h : d < 80) : 2 ^ 28 ≤ dieKey d ∧ dieKey d < 2 ^ 28 + 2 ^ 16 := by
  unfold dieKey
  omega

theorem columnKey_bounds {c : Nat} (h : c < 16) : 2 * 2 ^ 28 ≤ columnKey c ∧ columnKey c < 2 * 2 ^ 28 + 2 ^ 16 := by
  unfold columnKey
  omega

theorem quadKey_bounds {q : Nat} (h : q < 4) : 3 * 2 ^ 28 ≤ quadKey q ∧ quadKey q < 3 * 2 ^ 28 + 2 ^ 16 := by
  unfold quadKey
  omega

/-- Keys that rise with their index, over the first n. -/
theorem pairwise_map_range {f : Nat → Nat} {n : Nat} (h : ∀ a b, a < b → b < n → f a < f b) : ((List.range n).map f).Pairwise (· < ·) :=
  List.pairwise_map.2 (List.pairwise_lt_range.imp_of_mem (fun _ hb hab => h _ _ hab (List.mem_range.1 hb)))

/-- The device's units in the order of their levels, ascending. -/
theorem allKeys_pairwise : allKeys.Pairwise (· < ·) := by
  have cores : ∀ x ∈ (List.range 2560).map coreKey, x < 2 ^ 16 := by
    simp only [List.mem_map, List.mem_range]
    rintro x ⟨c, hc, rfl⟩
    exact coreKey_bounds hc
  have dies : ∀ x ∈ (List.range 80).map dieKey, 2 ^ 28 ≤ x ∧ x < 2 ^ 28 + 2 ^ 16 := by
    simp only [List.mem_map, List.mem_range]
    rintro x ⟨c, hc, rfl⟩
    exact dieKey_bounds hc
  have columns : ∀ x ∈ (List.range 16).map columnKey, 2 * 2 ^ 28 ≤ x ∧ x < 2 * 2 ^ 28 + 2 ^ 16 := by
    simp only [List.mem_map, List.mem_range]
    rintro x ⟨c, hc, rfl⟩
    exact columnKey_bounds hc
  have quads : ∀ x ∈ (List.range 4).map quadKey, 3 * 2 ^ 28 ≤ x ∧ x < 3 * 2 ^ 28 + 2 ^ 16 := by
    simp only [List.mem_map, List.mem_range]
    rintro x ⟨c, hc, rfl⟩
    exact quadKey_bounds hc
  have hdies := pairwise_map_range (f := dieKey) (n := 80) (fun a b h _ => by have := dieKey_lt h; omega)
  have hcolumns := pairwise_map_range (f := columnKey) (n := 16) (fun a b h hb => by unfold columnKey; omega)
  have hquads := pairwise_map_range (f := quadKey) (n := 4) (fun a b h hb => by unfold quadKey; omega)
  unfold allKeys devKey
  simp only [List.pairwise_append, List.mem_append]
  refine ⟨⟨⟨⟨pairwise_map_range (fun a b => coreKey_lt), hdies, ?_⟩, hcolumns, ?_⟩, hquads, ?_⟩, List.pairwise_singleton .., ?_⟩
  · intro a ha b hb
    have := cores a ha; have := dies b hb
    omega
  · rintro a (ha | ha) b hb
    · have := cores a ha; have := columns b hb
      omega
    · have := dies a ha; have := columns b hb
      omega
  · rintro a ((ha | ha) | ha) b hb
    · have := cores a ha; have := quads b hb
      omega
    · have := dies a ha; have := quads b hb
      omega
    · have := columns a ha; have := quads b hb
      omega
  · rintro a (((ha | ha) | ha) | ha) b hb
    all_goals obtain rfl := List.mem_singleton.1 hb
    · have := cores a ha
      omega
    · have := dies a ha
      omega
    · have := columns a ha
      omega
    · have := quads a ha
      omega

theorem isLocalKey_of_mem_allKeys {k : Nat} (h : k ∈ allKeys) : IsLocalKey k := by
  unfold allKeys at h
  simp only [List.mem_append, List.mem_map, List.mem_range, List.mem_singleton] at h
  unfold IsLocalKey
  rcases h with (((⟨c, hc, rfl⟩ | ⟨c, hc, rfl⟩) | ⟨c, hc, rfl⟩) | ⟨c, hc, rfl⟩) | rfl
  · have := coreKey_bounds hc
    omega
  · have := dieKey_bounds hc
    omega
  · have := columnKey_bounds hc
    omega
  · have := quadKey_bounds hc
    omega
  · unfold devKey
    omega

theorem mem_allKeys_of_mem_targetKeys {s : State} {u : Uid} {k : Nat} (h : k ∈ targetKeys s u) : k ∈ allKeys :=
  (List.mem_filter.1 (List.mem_filter.1 h).1).1

theorem allKeys_nodup : allKeys.Nodup := allKeys_pairwise.imp (fun h => Nat.ne_of_lt h)

theorem targetKeys_nodup (s : State) (u : Uid) : (targetKeys s u).Nodup := by
  unfold targetKeys subtree
  exact (allKeys_nodup.filter _).filter _

/-- The UID of a local unit leads back to its key. -/
theorem uidKey_fullUid (s : State) {k : Nat} (h : IsLocalKey k) : uidKey (fullUid s k) = k := by
  obtain ⟨hlt, hdev⟩ := h
  have hlevel : keyLevel k ≠ 5 := by unfold keyLevel; omega
  unfold fullUid
  rw [if_neg hlevel]
  have hn : (BitVec.ofNat 32 (k + s.form.device % 4096 * 2 ^ 16)).toNat = k + s.form.device % 4096 * 2 ^ 16 := by
    rw [BitVec.toNat_ofNat]
    omega
  have hlevel' : keyLevel (k + s.form.device % 4096 * 2 ^ 16) ≠ 5 := by unfold keyLevel; omega
  unfold uidKey
  dsimp only
  rw [hn, if_neg hlevel']
  omega

end Sys2Proof.Laws
end

section
/-!
PROOFS. A configuration change at its strike (R53, R128, R359, R360): the units that apply it, and those that miss it.
-/
namespace Sys2Proof.Laws

open Sys2Proof.Machine

/-! ### A unit applies the change -/

/-- The epoch that a unit runs, and its pending registers (R52). -/
def changeFields (u : UnitState) : BitVec 32 × BitVec 32 × Word := (u.page.active, u.page.pendEpoch, u.page.pendStrike)

theorem changeFields_blind : BlindToEvents changeFields := ⟨fun _ _ => rfl, fun _ _ => rfl, fun _ _ => rfl⟩

/-- `u` is what the change c makes of unit x of state s: nothing is pending, and the unit runs the record's epoch, or after a revert that of the set
before (R53, R360). -/
structure TookEffect (s : State) (c : PendingCommit) (x : Nat) (u : UnitState) : Prop where
  epoch : u.page.pendEpoch = 0
  strike : u.page.pendStrike = neverWord
  commit : c.revert = false → u.page.active = BitVec.ofNat 32 (recEpoch c.record)
  revert : c.revert = true → hasPrevious s x = true → (unitGet s x).page.active ≠ c.epoch →
    u.page.active = ((sparseGet [] x s.cfg.sets).getD 1 ConfigSet.empty).epoch

theorem TookEffect.congr {s : State} {c : PendingCommit} {x : Nat} {u v : UnitState} (h : TookEffect s c x u) (e : changeFields v = changeFields u) :
    TookEffect s c x v := by
  obtain ⟨ha, hp⟩ := Prod.mk.inj e
  obtain ⟨hpe, hps⟩ := Prod.mk.inj hp
  exact ⟨hpe.trans h.epoch, hps.trans h.strike, fun hr => ha.trans (h.commit hr), fun hr hp hn => ha.trans (h.revert hr hp hn)⟩

theorem TookEffect.of_same {s t : State} {c : PendingCommit} {x : Nat} {u : UnitState} (h : TookEffect t c x u) (hu : unitGet t x = unitGet s x)
    (hs : sparseGet [] x t.cfg.sets = sparseGet [] x s.cfg.sets) : TookEffect s c x u := by
  obtain ⟨he, hp, hc, hr⟩ := h
  unfold hasPrevious at hr
  rw [hu, hs] at hr
  exact ⟨he, hp, hc, hr⟩

theorem noteEpoch_sets (s : State) : (noteEpoch s).cfg.sets = s.cfg.sets := by
  unfold noteEpoch
  dsimp only
  split
  · split <;> rfl
  · rfl

/-- A unit that loads its registers runs the epoch of its active set (R9). -/
theorem changeFields_loadUnitCfg {s : State} (h : Rises s.units.pages) (k : Nat) : changeFields (unitGet (loadUnitCfg s k) k) =
    ((activeSet s k).epoch, (unitGet s k).page.pendEpoch, (unitGet s k).page.pendStrike) := by
  unfold loadUnitCfg
  dsimp only
  rw [unitGet_congr (congrArg Units.pages (noteEpoch_units _)), unitGet_pageMod h, if_pos rfl]
  rfl

theorem popSet_units (s : State) (k : Nat) : (popSet s k).units = s.units := by
  unfold popSet
  split <;> rfl

/-- The sets of unit k as the change makes them. -/
def changeSets (s : State) (c : PendingCommit) (k : Nat) : State :=
  if c.revert then (if (unitGet s k).page.active == c.epoch then s else popSet s k) else pushSet s k (composeSet c.record (activeSet s k))

theorem changeSets_units (s : State) (c : PendingCommit) (k : Nat) : (changeSets s c k).units = s.units := by
  unfold changeSets
  split
  · split
    · rfl
    · exact popSet_units ..
  · rfl

theorem changeSets_sets_ne (s : State) (c : PendingCommit) {j k : Nat} (hj : j ≠ k) :
    sparseGet [] j (changeSets s c k).cfg.sets = sparseGet [] j s.cfg.sets := by
  unfold changeSets
  split
  · split
    · rfl
    · unfold popSet
      split
      · exact sparseGet_sparseSet_ne hj
      · rfl
  · unfold pushSet
    dsimp only
    rw [sparseGet_sparseSet_ne hj]

theorem activeSet_pushSet (s : State) (k : Nat) (c : ConfigSet) : activeSet (pushSet s k c) k = c := by
  unfold activeSet pushSet
  dsimp only
  rw [sparseGet_sparseSet_of_ne (List.cons_ne_nil _ _), if_pos rfl]
  rfl

/-- A revert takes the set behind the active one. -/
theorem activeSet_popSet {s : State} {k : Nat} (h : hasPrevious s k = true) :
    activeSet (popSet s k) k = (sparseGet [] k s.cfg.sets).getD 1 ConfigSet.empty := by
  unfold hasPrevious at h
  unfold activeSet popSet
  split at h
  · next a p r e =>
    rw [e]
    dsimp only
    rw [sparseGet_sparseSet_of_ne (List.cons_ne_nil _ _), if_pos rfl]
    rfl
  · cases h

/-- The pending registers of a unit at rest. -/
def clearPending (p : UnitPage) : UnitPage := { p with pendEpoch := 0, pendStrike := neverWord, pendRevert := false, pendReadmit := false }

theorem applyUnit_eq (s : State) (c : PendingCommit) (k : Nat) (h : Rises s.units.pages) :
    applyUnit s c k = loadUnitCfg (changeSets (pageMod s k clearPending) c k) k := by
  have active : (unitGet (pageMod s k clearPending) k).page.active = (unitGet s k).page.active := by
    rw [unitGet_pageMod h, if_pos rfl]
    rfl
  unfold changeSets
  rw [active]
  rfl

theorem applyUnit_rises {s : State} (h : Rises s.units.pages) (c : PendingCommit) (k : Nat) : Rises (applyUnit s c k).units.pages := by
  rw [applyUnit_eq s c k h]
  refine loadUnitCfg_rises ?_ k
  rw [changeSets_units]
  exact pageMod_rises h

theorem unitGet_applyUnit_ne {s : State} (h : Rises s.units.pages) (c : PendingCommit) {j k : Nat} (hj : j ≠ k) :
    unitGet (applyUnit s c k) j = unitGet s j := by
  rw [applyUnit_eq s c k h, unitGet_loadUnitCfg_ne hj, unitGet_congr (congrArg Units.pages (changeSets_units ..))]
  exact unitGet_unitMod_ne hj

theorem applyUnit_sets_ne {s : State} (h : Rises s.units.pages) (c : PendingCommit) {j k : Nat} (hj : j ≠ k) :
    sparseGet [] j (applyUnit s c k).cfg.sets = sparseGet [] j s.cfg.sets := by
  rw [applyUnit_eq s c k h]
  unfold loadUnitCfg
  dsimp only
  rw [noteEpoch_sets, pageMod_cfg, changeSets_sets_ne _ c hj, pageMod_cfg]

theorem applyUnit_tookEffect {s : State} (h : Rises s.units.pages) (c : PendingCommit) (k : Nat) : TookEffect s c k (unitGet (applyUnit s c k) k) := by
  have cleared : unitGet (pageMod s k clearPending) k = { unitGet s k with page := clearPending (unitGet s k).page } := by
    rw [unitGet_pageMod h, if_pos rfl]
  have hunits := changeSets_units (pageMod s k clearPending) c k
  have hr : Rises (changeSets (pageMod s k clearPending) c k).units.pages := by
    rw [hunits]
    exact pageMod_rises h
  have fields := changeFields_loadUnitCfg hr k
  rw [← applyUnit_eq s c k h, unitGet_congr (congrArg Units.pages hunits), cleared] at fields
  obtain ⟨hactive, hpend⟩ := Prod.mk.inj fields
  obtain ⟨hepoch, hstrike⟩ := Prod.mk.inj hpend
  refine ⟨hepoch, hstrike, fun hc => hactive.trans ?_, fun hc hp hn => hactive.trans ?_⟩
  · unfold changeSets
    rw [if_neg (by simp [hc]), activeSet_pushSet]
    rfl
  · have hne : ((unitGet (pageMod s k clearPending) k).page.active == c.epoch) = false := by
      rw [cleared]
      exact beq_eq_false_iff_ne.2 hn
    unfold changeSets
    rw [if_pos hc, hne, if_neg Bool.false_ne_true]
    exact congrArg ConfigSet.epoch (activeSet_popSet (s := pageMod s k clearPending) hp)

theorem applyUnit_keepsFlags {s : State} (c : PendingCommit) (k : Nat) : KeepsFlags s (applyUnit s c k) := by
  have applied : Rises s.units.pages → KeepsFlags s (applyUnit s c k) := fun h => by
    rw [applyUnit_eq s c k h]
    exact (pageMod_keepsFlags ..).trans ((KeepsUnits.of_units (changeSets_units ..)).trans (loadUnitCfg_keepsFlags ..))
  exact ⟨fun h => (applied h).rises h, fun h => (applied h).same h⟩

/-- The change in each unit of a list, one after another: each takes it, and no other unit changes. -/
theorem foldl_applyUnit (c : PendingCommit) : ∀ (l : List Nat) (s : State), l.Nodup → Rises s.units.pages →
    Rises (l.foldl (fun t k => applyUnit t c k) s).units.pages ∧
    (∀ j, j ∉ l → unitGet (l.foldl (fun t k => applyUnit t c k) s) j = unitGet s j) ∧
    ∀ x ∈ l, TookEffect s c x (unitGet (l.foldl (fun t k => applyUnit t c k) s) x)
  | [], _, _, hr => ⟨hr, fun _ _ => rfl, fun _ hx => by cases hx⟩
  | k :: l, s, hn, hr => by
    obtain ⟨hk, hl⟩ := List.nodup_cons.1 hn
    obtain ⟨rises, same, took⟩ := foldl_applyUnit c l (applyUnit s c k) hl (applyUnit_rises hr c k)
    refine ⟨rises, fun j hj => ?_, fun x hx => ?_⟩
    · obtain ⟨hne, hj⟩ := not_or.1 (mt List.mem_cons.2 hj)
      exact (same j hj).trans (unitGet_applyUnit_ne hr c hne)
    · rw [List.foldl_cons]
      by_cases e : x = k
      · subst e
        rw [same x hk]
        exact applyUnit_tookEffect hr c x
      · exact (took x ((List.mem_cons.1 hx).resolve_left e)).of_same (unitGet_applyUnit_ne hr c e) (applyUnit_sets_ne hr c e)

/-! ### A unit misses the change -/

/-- The flags that put a unit out of service: OFFLINE, RECOVERING, in reset (R18). -/
def awayFlags (u : UnitState) : Bool × Bool × Bool := (u.flags.offline, u.flags.recovering, u.flags.resetting)

/-- The unit is in reset or recovers (R53). -/
def Away (s : State) (k : Nat) : Prop := ownState s k = 0 ∨ ownState s k = 4

theorem planState_pos (s : State) : planState s ≠ 0 ∧ planState s ≠ 4 := by
  unfold planState
  split
  · split <;> decide
  · decide

/-- A unit is away by the flags of itself and its ancestors alone, whatever the plan does. -/
theorem away_iff (s : State) (k : Nat) : Away s k ↔
    anyFlag s k (·.offline) = false ∧ (anyFlag s k (·.recovering) = true ∨ anyFlag s k (·.resetting) = true) := by
  obtain ⟨h0, h4⟩ := planState_pos s
  unfold Away ownState
  cases anyFlag s k (·.offline) <;> cases anyFlag s k (·.recovering) <;> cases anyFlag s k (·.resetting) <;> simp
  split
  · simp
  · simp [h0, h4]

theorem anyFlag_congr {s t : State} {f : UnitFlags → Bool} (h : ∀ a, f (unitGet t a).flags = f (unitGet s a).flags) (k : Nat) :
    anyFlag t k f = anyFlag s k f := by
  unfold anyFlag
  simp only [h]

theorem away_congr {s t : State} (h : ∀ a, awayFlags (unitGet t a) = awayFlags (unitGet s a)) (k : Nat) : Away t k ↔ Away s k := by
  have ho : ∀ a, (unitGet t a).flags.offline = (unitGet s a).flags.offline := fun a => (Prod.mk.inj (h a)).1
  have hv : ∀ a, (unitGet t a).flags.recovering = (unitGet s a).flags.recovering := fun a => (Prod.mk.inj (Prod.mk.inj (h a)).2).1
  have hr : ∀ a, (unitGet t a).flags.resetting = (unitGet s a).flags.resetting := fun a => (Prod.mk.inj (Prod.mk.inj (h a)).2).2
  rw [away_iff, away_iff, anyFlag_congr ho, anyFlag_congr hv, anyFlag_congr hr]

/-- `u` is what a missed change makes of unit x of state s: it keeps its epoch and is fenced, with the sticky bit CFG_FENCED (R53). -/
structure StaysFenced (s : State) (x : Nat) (u : UnitState) : Prop where
  active : u.page.active = (unitGet s x).page.active
  fenced : u.flags.fenced = true
  raised : (raisedBits u).getLsbD 10 = true

/-- What a unit shows besides its pending registers: flags, epoch, sticky bits. -/
def standing (u : UnitState) : UnitFlags × BitVec 32 × Word := (u.flags, u.page.active, raisedBits u)

theorem StaysFenced.congr {s : State} {x : Nat} {u v : UnitState} (h : StaysFenced s x u) (e : standing v = standing u) : StaysFenced s x v := by
  obtain ⟨hf, hp⟩ := Prod.mk.inj e
  obtain ⟨ha, hs⟩ := Prod.mk.inj hp
  exact ⟨ha.trans h.active, by rw [hf]; exact h.fenced, by rw [hs]; exact h.raised⟩

/-- The pending registers of a unit that misses a change: a readmission that is pending stays. -/
def dropPending (p : UnitPage) : UnitPage := if p.pendReadmit then p else clearPending p

theorem dropPending_active (p : UnitPage) : (dropPending p).active = p.active := by
  unfold dropPending
  split <;> rfl

/-- What missing a change does to a unit that is there to hear of it. -/
theorem missUnit_of_not_away {s : State} {k : Nat} (h : ¬Away s k) (e : BitVec 32) : missUnit s k e =
    if k = devKey then flagsMod (fenceUnit (pageMod s k dropPending) k) k (fun f => { f with refEpoch := e }) else fenceUnit (pageMod s k dropPending) k := by
  have present : ¬(ownState s k = 0 ∨ ownState s k = 4) := h
  unfold missUnit
  simp only [if_neg present]
  rfl

theorem missUnit_rises {s : State} (h : Rises s.units.pages) (k : Nat) (e : BitVec 32) : Rises (missUnit s k e).units.pages := by
  unfold missUnit
  extract_lets o s1 s2
  have h1 : Rises s1.units.pages := pageMod_rises h
  have h2 : Rises s2.units.pages := by
    unfold s2
    split
    · exact flagsMod_rises h1
    · exact fenceUnit_rises h1 k
  split
  · exact flagsMod_rises h2
  · exact h2

theorem unitGet_missUnit_ne {s : State} (h : Rises s.units.pages) {j k : Nat} (hj : j ≠ k) (e : BitVec 32) : unitGet (missUnit s k e) j = unitGet s j := by
  unfold missUnit
  extract_lets o s1 s2
  have h1 : unitGet s1 j = unitGet s j := unitGet_unitMod_ne hj
  have h2 : unitGet s2 j = unitGet s j := by
    unfold s2
    split
    · exact (unitGet_unitMod_ne hj).trans h1
    · exact (unitGet_fenceUnit_ne (pageMod_rises h) hj).trans h1
  split
  · exact (unitGet_unitMod_ne hj).trans h2
  · exact h2

theorem unitGet_fenceUnit {s : State} (h : Rises s.units.pages) (k : Nat) : unitGet (fenceUnit s k) k =
    { page := markSticky s.tb.strikeDefined (unitGet s k).page (BitVec.ofNat 64 (2 ^ 10)), flags := { (unitGet s k).flags with fenced := true, missed := false } } := by
  unfold fenceUnit
  rw [unitGet_stickySet (flagsMod_rises h), if_pos rfl, unitGet_flagsMod h, if_pos rfl, flagsMod_tb]

theorem markSticky_active (d : Bool) (p : UnitPage) (m : Word) : (markSticky d p m).active = p.active := by
  unfold markSticky
  split <;> rfl

theorem fenceUnit_staysFenced {s : State} (h : Rises s.units.pages) (k : Nat) : StaysFenced s k (unitGet (fenceUnit s k) k) := by
  rw [unitGet_fenceUnit h]
  exact ⟨markSticky_active .., rfl, getLsbD_raisedBits_markSticky _ _ _ _ _ (getLsbD_two_pow (by omega))⟩

theorem missUnit_staysFenced {s : State} (h : Rises s.units.pages) {k : Nat} (ha : ¬Away s k) (e : BitVec 32) :
    StaysFenced s k (unitGet (missUnit s k e) k) := by
  have hr : Rises (pageMod s k dropPending).units.pages := pageMod_rises h
  have hactive : (unitGet (pageMod s k dropPending) k).page.active = (unitGet s k).page.active := by
    rw [unitGet_pageMod h, if_pos rfl]
    exact dropPending_active _
  obtain ⟨active, fenced, raised⟩ := fenceUnit_staysFenced hr k
  rw [missUnit_of_not_away ha]
  split
  · rw [unitGet_flagsMod (fenceUnit_rises hr k), if_pos rfl]
    exact ⟨active.trans hactive, fenced, raised⟩
  · exact ⟨active.trans hactive, fenced, raised⟩

theorem flagsMod_keepsUnits {γ : Type} {g : UnitState → γ} {f : UnitFlags → UnitFlags} (hf : ∀ u, g { u with flags := f u.flags } = g u) (s : State) (k : Nat) :
    KeepsUnits g s (flagsMod s k f) := unitMod_keepsUnits hf

theorem pageMod_keepsUnits {γ : Type} {g : UnitState → γ} {f : UnitPage → UnitPage} (hf : ∀ u, g { u with page := f u.page } = g u) (s : State) (k : Nat) :
    KeepsUnits g s (pageMod s k f) := unitMod_keepsUnits hf

theorem awayFlags_blind : BlindToEvents awayFlags := ⟨fun _ _ => rfl, fun _ _ => rfl, fun _ _ => rfl⟩

theorem fenceUnit_keepsAway (s : State) (k : Nat) : KeepsUnits awayFlags s (fenceUnit s k) := by
  unfold fenceUnit
  exact (flagsMod_keepsUnits (fun _ => rfl) s k).trans (stickySet_keepsUnits awayFlags_blind ..)

theorem missUnit_keepsAway (s : State) (k : Nat) (e : BitVec 32) : KeepsUnits awayFlags s (missUnit s k e) := by
  unfold missUnit
  extract_lets o s1 s2
  have h1 : KeepsUnits awayFlags s s1 := pageMod_keepsUnits (fun _ => rfl) s k
  have h2 : KeepsUnits awayFlags s s2 := by
    unfold s2
    split
    · exact h1.trans (flagsMod_keepsUnits (fun _ => rfl) s1 k)
    · exact h1.trans (fenceUnit_keepsAway s1 k)
  split
  · exact h2.trans (flagsMod_keepsUnits (fun _ => rfl) s2 k)
  · exact h2

/-! ### The readmission of a unit that missed a change -/

theorem loadPending_units (s : State) (r : List (BitVec 32)) : (loadPending s r).units = s.units := by
  unfold loadPending
  split
  · rfl
  · split <;> rfl

/-- `g` reads no pending register. -/
def BlindToPending {γ : Type} (g : UnitState → γ) : Prop := ∀ u e n rv ra,
  g { u with page := { u.page with pendEpoch := e, pendStrike := n, pendRevert := rv, pendReadmit := ra } } = g u

theorem writePending_keepsUnits {γ : Type} {g : UnitState → γ} (hg : BlindToPending g) (s : State) (u : Uid) (e : BitVec 32) (n : Nat) (rv ra : Bool) :
    KeepsUnits g s (writePending s u e n rv ra) :=
  foldl_keepsUnits (fun _ _ => unitMod_keepsUnits (fun u => hg u ..)) _ s

/-- As `foldl_keep`, where the steps over the list's own elements keep the projection. -/
theorem foldl_keep_mem {β γ : Type} {f : State → β → State} (g : State → γ) :
    ∀ {l : List β}, (∀ x ∈ l, ∀ t, g (f t x) = g t) → ∀ s, g (l.foldl f s) = g s
  | [], _, _ => rfl
  | x :: _, h, s => (foldl_keep_mem g (fun y hy => h y (List.mem_cons_of_mem x hy)) (f s x)).trans (h x List.mem_cons_self s)

/-- The readmission of one unit writes that unit's pending registers. -/
theorem unitGet_writePending_readmit_ne (s : State) (u : Uid) {j : Nat} (hj : j ≠ uidKey u) (e : BitVec 32) (n : Nat) (rv : Bool) :
    unitGet (writePending s u e n rv true) j = unitGet s j := by
  unfold writePending
  dsimp only
  rw [if_pos rfl]
  refine foldl_keep_mem (fun t => unitGet t j) (fun k hk t => unitGet_unitMod_ne ?_) s
  rw [List.mem_singleton.1 (List.mem_filter.1 hk).1]
  exact hj

theorem pushPending_units_readmit (s : State) {c : PendingCommit} (hc : c.readmit = true) : (pushPending s c).units =
    (c.targets.foldl (fun t u => writePending t u c.epoch c.strike c.revert c.readmit) (loadPending s (pendingRoute s c))).units := by
  unfold pushPending
  dsimp only
  rw [if_pos hc]

/-- The readmission commit of unit k writes that unit alone (R55). -/
theorem unitGet_readmissionCommit_ne (s : State) {j k : Nat} (hk : IsLocalKey k) (hj : j ≠ k) (e : BitVec 32) (rv : Bool) (r : List Byte) :
    unitGet (readmissionCommit s k e rv r) j = unitGet s j := by
  unfold readmissionCommit
  extract_lets u s1 _ waits c
  split
  · have cleared : unitGet s1 j = unitGet s j := unitGet_unitMod_ne hj
    exact cleared
  · split
    · rfl
    · rw [unitGet_congr (congrArg Units.pages (pushPending_units_readmit s (c := c) rfl))]
      refine (unitGet_writePending_readmit_ne _ _ ?_ ..).trans (unitGet_congr (congrArg Units.pages (loadPending_units ..)) j)
      rw [uidKey_fullUid s hk]
      exact hj

theorem readmissionCommit_keepsUnits {γ : Type} {g : UnitState → γ} (hg : BlindToPending g) (s : State) (k : Nat) (e : BitVec 32) (rv : Bool) (r : List Byte) :
    KeepsUnits g s (readmissionCommit s k e rv r) := by
  unfold readmissionCommit
  extract_lets u s1 _ waits c
  have h1 : KeepsUnits g s s1 := by
    refine pageMod_keepsUnits (fun u => ?_) s k
    split
    · exact hg ..
    · rfl
  split
  · exact h1.trans (.of_units rfl)
  · split
    · exact .of_units rfl
    · have pushed := pushPending_units_readmit s (c := c) rfl
      refine KeepsUnits.trans ?_ (.of_units pushed)
      exact (KeepsUnits.of_units (loadPending_units ..)).trans (foldl_keepsUnits (fun t u => writePending_keepsUnits hg t u ..) _ _)

theorem standing_blindToPending : BlindToPending standing := fun _ _ _ _ _ => rfl
theorem awayFlags_blindToPending : BlindToPending awayFlags := fun _ _ _ _ _ => rfl

/-- Unit k misses the change c and is to be readmitted (R53, R55). -/
def missAndReadmit (c : PendingCommit) (s : State) (k : Nat) : State := readmissionCommit (missUnit s k c.epoch) k c.epoch c.revert c.record

/-- The units of a list miss the change, one after another: each that is there is fenced, and no other unit changes. -/
theorem foldl_missAndReadmit (c : PendingCommit) : ∀ (l : List Nat) (s : State), l.Nodup → (∀ k ∈ l, IsLocalKey k) → Rises s.units.pages →
    Rises (l.foldl (missAndReadmit c) s).units.pages ∧ (∀ j, j ∉ l → unitGet (l.foldl (missAndReadmit c) s) j = unitGet s j) ∧
    ∀ x ∈ l, ¬Away s x → StaysFenced s x (unitGet (l.foldl (missAndReadmit c) s) x)
  | [], _, _, _, hr => ⟨hr, fun _ _ => rfl, fun _ hx => by cases hx⟩
  | k :: l, s, hn, hlocal, hr => by
    obtain ⟨hk, hl⟩ := List.nodup_cons.1 hn
    have missed : Rises (missUnit s k c.epoch).units.pages := missUnit_rises hr k c.epoch
    have readmitted := readmissionCommit_keepsUnits standing_blindToPending (missUnit s k c.epoch) k c.epoch c.revert c.record
    have other : ∀ j, j ≠ k → unitGet (missAndReadmit c s k) j = unitGet s j := fun j hj =>
      (unitGet_readmissionCommit_ne _ (hlocal k List.mem_cons_self) hj ..).trans (unitGet_missUnit_ne hr hj _)
    have away : ∀ x, Away (missAndReadmit c s k) x ↔ Away s x := away_congr (fun a =>
      ((missUnit_keepsAway s k c.epoch).trans (readmissionCommit_keepsUnits awayFlags_blindToPending ..)).same hr a)
    obtain ⟨rises, same, fenced⟩ :=
      foldl_missAndReadmit c l (missAndReadmit c s k) hl (fun x hx => hlocal x (List.mem_cons_of_mem k hx)) (readmitted.rises missed)
    refine ⟨rises, fun j hj => ?_, fun x hx ha => ?_⟩
    · obtain ⟨hne, hj⟩ := not_or.1 (mt List.mem_cons.2 hj)
      exact (same j hj).trans (other j hne)
    · rw [List.foldl_cons]
      by_cases e : x = k
      · subst e
        rw [same x hk]
        exact (missUnit_staysFenced hr ha c.epoch).congr (readmitted.same missed x)
      · obtain ⟨hactive, hfenced, hraised⟩ := fenced x ((List.mem_cons.1 hx).resolve_left e) (mt (away x).1 ha)
        exact ⟨hactive.trans (by rw [other x e]), hfenced, hraised⟩

/-! ### The device as a whole -/

/-- `g` reads nothing of the comparators. -/
def BlindToComparators {γ : Type} (g : UnitState → γ) : Prop := ∀ u k v, g { u with page := wdWrite u.page k v } = g u

theorem leaseComparator_keepsUnits {γ : Type} {g : UnitState → γ} (hg : BlindToComparators g) (s : State) : KeepsUnits g s (leaseComparator s) := by
  unfold leaseComparator
  extract_lets h d
  clear_value d
  split
  · exact .of_units rfl
  · refine pageMod_keepsUnits (fun u => ?_) s devKey
    split
    · rfl
    · exact hg ..

theorem deadlineComparators_keepsUnits {γ : Type} {g : UnitState → γ} (hg : BlindToComparators g) (s : State) : KeepsUnits g s (deadlineComparators s) := by
  unfold deadlineComparators
  extract_lets due d q put s1
  have hput : ∀ t k v, KeepsUnits g t (put t k v) := by
    intro t k v
    unfold put
    split
    · exact .of_units rfl
    · exact pageMod_keepsUnits (fun u => hg ..) t devKey
  have h1 : KeepsUnits g s s1 := by
    unfold s1
    split
    · exact hput ..
    · exact .of_units rfl
  split
  · exact h1.trans (hput ..)
  · exact h1

theorem loadRouting_units (s : State) (r : List (BitVec 32)) (e : BitVec 32) : (loadRouting s r e).units = s.units := by
  unfold loadRouting
  split
  · rfl
  · exact loadPending_units ..

/-- What the device does when the change applies to it writes no page but for its comparators. -/
theorem applyDevice_keepsUnits {γ : Type} {g : UnitState → γ} (hg : BlindToComparators g) (s : State) (b : ConfigSet) (c : PendingCommit) :
    KeepsUnits g s (applyDevice s b c) := by
  unfold applyDevice
  extract_lets act s1 s2 _ on s2' s3 _ s3' s4
  have h1 : KeepsUnits g s s1 := by
    unfold s1
    split <;> exact .of_units rfl
  have loaded : KeepsUnits g s1 (loadDeviceCfg s1) := .of_units rfl
  have h2 : KeepsUnits g s s2 := (h1.trans loaded).trans
    ((leaseComparator_keepsUnits hg (loadDeviceCfg s1)).trans (deadlineComparators_keepsUnits hg (leaseComparator (loadDeviceCfg s1))))
  clear_value s2
  have h2' : s2'.units = s2.units := by
    unfold s2'
    split <;> rfl
  clear_value s2'
  have h3 : s3.units = s2'.units := by
    unfold s3
    split
    · rfl
    · exact loadRouting_units ..
  clear_value s3
  refine h2.trans (.of_units ?_)
  rw [← h2', ← h3]
  split <;> rfl

/-! ### The end of the running plan -/

theorem endJob_units (s : State) (n : Word) (st : BitVec 16) (a b c : BitVec 32) : (endJob s n st a b c).units = s.units := by
  unfold endJob
  split <;> rfl

theorem closePartition_events (s : State) (p : Partition) (o n : Nat) : EventsOnly s (closePartition s p o n) := by
  unfold closePartition
  split
  · have counted := count_events s (uidKey p.uid) 5 (le_refl 1)
    have recovered := EventsOnly.raise (count s (uidKey p.uid) 5 1) (uidKey p.uid) (b := 20) (by omega)
    have logged : EventsOnly _ (logRecovery (stickySet (count s (uidKey p.uid) 5 1) (uidKey p.uid) 20) p o) := .of_units (logPersistent_units ..)
    exact ((counted.trans recovered).trans logged).trans (foldl_events (fun t r => complete_events t _ _ _ _ _) _ _)
  · exact .refl s

theorem abandonHold_events (s : State) : EventsOnly s (abandonHold s) := by
  unfold abandonHold
  split
  · exact .refl s
  · extract_lets _ s1 s2 s3
    have h2 : EventsOnly s s2 := by
      unfold s2
      split <;> exact .of_units rfl
    exact (h2.trans (foldl_events (fun t p => closePartition_events t p _ _) _ s2)).trans (.of_units rfl)

theorem endByCommit_events (s : State) : EventsOnly s (endByCommit s) := by
  unfold endByCommit
  split
  · exact .refl s
  · exact (EventsOnly.of_units (endJob_units ..)).trans (abandonHold_events _)

theorem abandonHold_jobs (s : State) : (abandonHold s).seq.jobs = s.seq.jobs := by
  unfold abandonHold
  split
  · rfl
  · extract_lets _ s1 s2 s3
    have h2 : s2.seq.jobs = s.seq.jobs := by
      unfold s2
      split <;> rfl
    have h3 : s3.seq = s2.seq := foldl_seq (fun t p => closePartition_seq t p _ _) _ s2
    rw [quenchMod_seq, h3, h2]

/-- A running job that ends has its end status, and its number stays. -/
theorem endJob_ended {s : State} {j : Job} (hj : j ∈ s.seq.jobs) (hr : j.phase = .running) (st : BitVec 16) (a b c : BitVec 32) :
    ∃ y ∈ (endJob s j.num st a b c).seq.jobs, y.num = j.num ∧ y.phase = .ended ∧ y.endStatus = st := by
  unfold endJob
  split
  · next hnone => exact absurd (List.find?_eq_none.1 hnone j hj) (by simp [hr])
  · next i hsome =>
    have hi : i.num = j.num := by
      have := List.find?_some hsome
      simp only [Bool.and_eq_true, beq_iff_eq] at this
      exact this.1
    extract_lets off i' i''
    exact ⟨i'', List.mem_map.2 ⟨j, hj, if_pos (beq_self_eq_true _)⟩, hi, rfl, rfl⟩

/-- R128: the change ends the running plan with status CFG_EPOCH. -/
theorem endByCommit_ended {s : State} {j : Job} (h : runningJob s = some j) :
    ∃ y ∈ (endByCommit s).seq.jobs, y.num = j.num ∧ y.phase = .ended ∧ y.endStatus = 0x0203 := by
  have running : j.phase = .running := by
    have := List.find?_some h
    exact eq_of_beq this
  unfold endByCommit
  rw [h]
  dsimp only
  rw [abandonHold_jobs]
  exact endJob_ended (List.mem_of_find?_eq_some h) running ..

end Sys2Proof.Laws
end

section
/-!
PROOFS. The commands of configuration changes (R53 to R55, R128, R359): CONFIG_APPLY, CONFIG_FLASH_WRITE and READMISSION.
-/
namespace Sys2Proof.Laws

open Sys2Proof.Machine

/-! ### The change in the units of its target -/

/-- The state in which each of these units has applied the change c or missed it; nothing else of the change is done. -/
def changedUnits (s : State) (c : PendingCommit) (keys : List Nat) : State :=
  (keys.filter (fun k => !unitApplies s c k)).foldl (missAndReadmit c)
    ((keys.filter (unitApplies s c)).foldl (fun t k => applyUnit t c k) s)

theorem changedUnits_seq (s : State) (c : PendingCommit) (keys : List Nat) : (changedUnits s c keys).seq = s.seq :=
  (foldl_seq (fun _ _ => (readmissionCommit_seq ..).trans (missUnit_seq ..)) _ _).trans (foldl_seq (fun t k => applyUnit_seq t c k) _ s)

/-- Each unit takes the change or is fenced without it, and every other unit stays (R53). -/
theorem changedUnits_units {s : State} (h : Rises s.units.pages) (c : PendingCommit) {keys : List Nat} (nodup : keys.Nodup)
    (hlocal : ∀ k ∈ keys, IsLocalKey k) : Rises (changedUnits s c keys).units.pages ∧
    (∀ x ∈ keys, unitApplies s c x = true → TookEffect s c x (unitGet (changedUnits s c keys) x)) ∧
    (∀ x ∈ keys, unitApplies s c x = false → ¬Away s x → StaysFenced s x (unitGet (changedUnits s c keys) x)) ∧
    ∀ x, x ∉ keys → unitGet (changedUnits s c keys) x = unitGet s x := by
  have flags : KeepsFlags s ((keys.filter (unitApplies s c)).foldl (fun t k => applyUnit t c k) s) :=
    foldl_keepsUnits (fun t k => applyUnit_keepsFlags c k) _ s
  obtain ⟨rises1, same1, took⟩ := foldl_applyUnit c (keys.filter (unitApplies s c)) s (nodup.filter _) h
  have away : ∀ x, Away ((keys.filter (unitApplies s c)).foldl (fun t k => applyUnit t c k) s) x ↔ Away s x :=
    away_congr (fun a => congrArg (fun f : UnitFlags => (f.offline, f.recovering, f.resetting)) (flags.same h a))
  obtain ⟨rises2, same2, fenced⟩ := foldl_missAndReadmit c (keys.filter (fun k => !unitApplies s c k)) _ (nodup.filter _)
    (fun k hk => hlocal k (List.mem_filter.1 hk).1) rises1
  refine ⟨rises2, fun x hx ha => ?_, fun x hx ha hp => ?_, fun x hx => ?_⟩
  · have hno : x ∉ keys.filter (fun k => !unitApplies s c k) := fun hm => by simpa [ha] using (List.mem_filter.1 hm).2
    unfold changedUnits
    rw [same2 x hno]
    exact took x (List.mem_filter.2 ⟨hx, ha⟩)
  · have hyes : x ∉ keys.filter (unitApplies s c) := fun hm => by simpa [ha] using (List.mem_filter.1 hm).2
    obtain ⟨hactive, hfenced, hraised⟩ := fenced x (List.mem_filter.2 ⟨hx, by simp [ha]⟩) (mt (away x).1 hp)
    exact ⟨hactive.trans (by rw [same1 x hyes]), hfenced, hraised⟩
  · unfold changedUnits
    rw [same2 x (fun hm => hx (List.mem_filter.1 hm).1), same1 x (fun hm => hx (List.mem_filter.1 hm).1)]

/-- What the change does beside its units: the device's own members, the end of the running plan, the report to the sender, the list of changes. -/
def finishCommit (s s2 : State) (c : PendingCommit) (keys : List Nat) : State :=
  let yes := keys.filter (unitApplies s c)
  let s3 := if yes.contains devKey then applyDevice s2 (activeSet s devKey) c else s2
  let s4 := if !yes.isEmpty then endByCommit s3 else s3
  let done : PendingCommit := { c with applied := true, fencedUnits := (keys.filter (fun k => !unitApplies s c k)).map (fullUid s) }
  let s5 := sendTo s4 c.source.toList 2 (.commitDone c.epoch c.strike done.fencedUnits)
  { s5 with cfg := { s5.cfg with
      pending := s5.cfg.pending.map (fun x => if x == c then done else x)
      staging := s5.cfg.staging.filter (fun st => !(c.targets.contains st.target && st.epoch == c.epoch && !c.revert)) } }

theorem applyCommit_eq {s : State} {c : PendingCommit} {u : Uid} (hr : c.readmit = false) (ht : c.targets = [u]) (hl : targetLocal s u = true) :
    applyCommit s c = finishCommit s (changedUnits s c (targetKeys s u)) c (targetKeys s u) := by
  have keys : (c.targets.filter (targetLocal s)).flatMap (fun u => if c.readmit then [uidKey u] else targetKeys s u) = targetKeys s u := by
    rw [ht, List.filter_cons_of_pos hl, hr]
    exact List.flatMap_singleton ..
  unfold applyCommit finishCommit changedUnits missAndReadmit
  rw [keys]
  simp only [hr, Bool.false_eq_true, if_false, Bool.not_false, Bool.true_and]

/-- What follows the change in its units leaves their epochs, pending registers and flags, and every raised bit. -/
theorem finishCommit_units (s : State) {s2 : State} (h : Rises s2.units.pages) (c : PendingCommit) (keys : List Nat) (x : Nat) :
    changeFields (unitGet (finishCommit s s2 c keys) x) = changeFields (unitGet s2 x) ∧
    (unitGet (finishCommit s s2 c keys) x).flags = (unitGet s2 x).flags ∧ ∀ b, stickyRaised s2 x b → stickyRaised (finishCommit s s2 c keys) x b := by
  unfold finishCommit
  extract_lets yes s3 s4 done s5 _
  have device : ∀ {γ : Type} {g : UnitState → γ}, BlindToComparators g → KeepsUnits g s2 s3 := fun hg => by
    unfold s3
    split
    · exact applyDevice_keepsUnits hg ..
    · exact .of_units rfl
  have events : EventsOnly s3 s5 := by
    refine EventsOnly.trans ?_ (sendTo_events s4 ..)
    unfold s4
    split
    · exact endByCommit_events s3
    · exact .refl s3
  have hset : ∀ p k v, (wdSet p k v).active = p.active ∧ (wdSet p k v).pendEpoch = p.pendEpoch ∧ (wdSet p k v).pendStrike = p.pendStrike ∧
      (wdSet p k v).sticky = p.sticky ∧ (wdSet p k v).fresh = p.fresh := fun p k v => by
    unfold wdSet
    split <;> exact ⟨rfl, rfl, rfl, rfl, rfl⟩
  have raisedSame : KeepsUnits raisedBits s2 s3 := device (fun u k v => by
    obtain ⟨_, _, _, hs, hf⟩ := hset u.page k v
    exact congrArg₂ (· ||| ·) hs hf)
  refine ⟨?_, ?_, fun b hb => events.raised ?_⟩
  · refine (events.keeps changeFields_blind x).trans ((device (fun u k v => ?_)).same h x)
    obtain ⟨ha, he, hs, _, _⟩ := hset u.page k v
    exact Prod.ext ha (Prod.ext he hs)
  · exact (events.keeps (g := UnitState.flags) ⟨fun _ _ => rfl, fun _ _ => rfl, fun _ _ => rfl⟩ x).trans ((device (fun _ _ _ => rfl)).same h x)
  · exact (congrArg (fun w : Word => w.getLsbD b = true) (raisedSame.same h x)).mpr hb

/-- A change that applies in some unit ends the running plan (R128). -/
theorem finishCommit_ends (s : State) {s2 : State} (hs : s2.seq = s.seq) (c : PendingCommit) {keys : List Nat} {x : Nat} (hx : x ∈ keys)
    (ha : unitApplies s c x = true) {j : Job} (hj : runningJob s = some j) :
    ∃ y ∈ (finishCommit s s2 c keys).seq.jobs, y.num = j.num ∧ y.phase = .ended ∧ y.endStatus = 0x0203 := by
  unfold finishCommit
  extract_lets yes s3 s4 done s5 _
  have some : (!yes.isEmpty) = true := by
    cases hy : yes with
    | nil => exact absurd (List.mem_filter.2 ⟨hx, ha⟩) (by rw [show keys.filter (unitApplies s c) = [] from hy]; exact List.not_mem_nil)
    | cons => rfl
  have h3 : runningJob s3 = runningJob s := by
    have : s3.seq = s.seq := by
      unfold s3
      split
      · rw [applyDevice_seq, hs]
      · exact hs
    unfold runningJob
    rw [this]
  have h5 : s5.seq = s4.seq := sendTo_seq ..
  have h4 : s4 = endByCommit s3 := if_pos some
  dsimp only
  rw [h5, h4]
  exact endByCommit_ended (h3.trans hj)

theorem changeFields_active {u v : UnitState} (h : changeFields u = changeFields v) : u.page.active = v.page.active := (Prod.mk.inj h).1

/-! ### CONFIG_APPLY -/

/-- The one change that is due is the one that applies. -/
theorem applyDue_single {s : State} {c : PendingCommit} (hp : s.cfg.pending = [c]) (ha : c.applied = false) (hs : c.strike ≠ 0) (hn : c.strike ≤ now s) :
    applyDue s = applyCommit s c := by
  unfold applyDue
  rw [hp, List.filter_cons_of_pos (by simp [ha, hs, hn])]
  rfl

theorem applyDue_none {s : State} (h : s.cfg.pending.all (fun c => c.applied || decide (now s < c.strike)) = true) : applyDue s = s := by
  unfold applyDue
  rw [List.filter_eq_nil_iff.2 (fun c hc => ?_), List.foldl_nil]
  have := List.all_eq_true.1 h c hc
  simp only [Bool.or_eq_true, decide_eq_true_eq] at this
  simp only [Bool.and_eq_true, Bool.not_eq_true', bne_iff_ne, decide_eq_true_eq, not_and]
  rintro ⟨hna, -⟩ hle
  rcases this with h | h
  · exact absurd h (by simp [hna])
  · omega

/-! ### CONFIG_FLASH_WRITE -/

/-- An entry of the sets written signed to flash: the set of the epoch that is not yet there (R359). -/
def flashEntry (epoch : BitVec 32) (t : State) (e : Nat × List ConfigSet) : State :=
  match e.2.find? (fun c => c.epoch == epoch && !c.inFlash) with
  | none => t
  | some c =>
    let body := setRecord c (fullUid t e.1)
    let (t1, sig) := cseSign t (sha384 body)
    let h := e.2.map (fun x => if x == c then { x with deviceSig := sig, inFlash := true } else x)
    { t1 with cfg := { t1.cfg with sets := sparseSet [] e.1 h t1.cfg.sets } }

/-- The sets are in flash as far as the epoch goes. -/
def hasFlashed (epoch : BitVec 32) (k : Nat) (t : State) : Prop := (sparseGet [] k t.cfg.sets).any (fun c => c.epoch == epoch && c.inFlash) = true

/-- The CSE's signing writes the identity alone. -/
theorem cseSign_eq (s : State) (d : Digest) : ∃ i sig, cseSign s d = ({ s with ident := i }, sig) := by
  unfold cseSign
  split <;> exact ⟨_, _, rfl⟩

theorem flashEntry_eq {epoch : BitVec 32} {e : Nat × List ConfigSet} (h : e.2.any (fun c => c.epoch == epoch && !c.inFlash) = true) (t : State) :
    ∃ i : Identity, ∃ l : List ConfigSet, flashEntry epoch t e = { t with ident := i, cfg := { t.cfg with sets := sparseSet [] e.1 l t.cfg.sets } } ∧
      l.any (fun c => c.epoch == epoch && c.inFlash) = true := by
  obtain ⟨c, hc⟩ := Option.isSome_iff_exists.1 ((List.find?_isSome).2 (List.any_eq_true.1 h))
  have hmem := List.mem_of_find?_eq_some hc
  have found := List.find?_some hc
  obtain ⟨hepoch, -⟩ := Bool.and_eq_true_iff.1 found
  obtain ⟨i, sig, hsign⟩ := cseSign_eq t (sha384 (setRecord c (fullUid t e.1)))
  unfold flashEntry
  rw [hc]
  dsimp only
  rw [hsign]
  exact ⟨i, _, rfl, List.any_eq_true.2 ⟨_, List.mem_map.2 ⟨c, hmem, if_pos (beq_self_eq_true c)⟩, Bool.and_eq_true_iff.2 ⟨hepoch, rfl⟩⟩⟩

theorem flashEntry_keep {γ : Type} (g : State → γ) {epoch : BitVec 32} {e : Nat × List ConfigSet} (h : e.2.any (fun c => c.epoch == epoch && !c.inFlash) = true)
    (t : State) (hg : ∀ i l, g { t with ident := i, cfg := { t.cfg with sets := l } } = g t) : g (flashEntry epoch t e) = g t := by
  obtain ⟨i, l, he, -⟩ := flashEntry_eq h t
  rw [he]
  exact hg ..

/-- Once an entry of a key is written, or the key's sets are in flash already, they are in flash after all the entries. -/
theorem foldl_flashEntry_hasFlashed {epoch : BitVec 32} {k : Nat} : ∀ (due : List (Nat × List ConfigSet)) (t : State),
    (∀ e ∈ due, e.2.any (fun c => c.epoch == epoch && !c.inFlash) = true) → ((∃ e ∈ due, e.1 = k) ∨ hasFlashed epoch k t) →
    hasFlashed epoch k (due.foldl (flashEntry epoch) t)
  | [], _, _, h => h.resolve_left (fun ⟨_, he, _⟩ => by cases he)
  | e :: due, t, hdue, h => by
    refine foldl_flashEntry_hasFlashed due _ (fun x hx => hdue x (List.mem_cons_of_mem e hx)) ?_
    obtain ⟨i, l, he, hl⟩ := flashEntry_eq (hdue e List.mem_cons_self) t
    have hne : l ≠ [] := fun h0 => by simp [h0] at hl
    rw [hasFlashed, he]
    dsimp only
    rw [sparseGet_sparseSet_of_ne hne]
    split
    · exact .inr hl
    · next hk =>
      rcases h with ⟨x, hx, hxk⟩ | h
      · rcases List.mem_cons.1 hx with rfl | hx
        · exact absurd hxk.symm hk
        · exact .inl ⟨x, hx, hxk⟩
      · exact .inr h

theorem postMessage_part (s : State) (k : Nat) (m : List Byte) : (postMessage s k m).cfg = s.cfg ∧ (postMessage s k m).eng = s.eng ∧
    (postMessage s k m).tb = s.tb ∧ (postMessage s k m).links = s.links := by
  unfold postMessage
  dsimp only
  split
  · exact ⟨rfl, rfl, rfl, rfl⟩
  · split <;> simp only [emitOut_cfg, emitOut_eng, emitOut_tb, emitOut_links, pairMod_cfg, pairMod_eng, pairMod_tb, pairMod_links] <;>
      (rw [memWrite_part]; exact ⟨rfl, rfl, rfl, rfl⟩)

theorem complete_part (s : State) (c : BitVec 12) (tag : BitVec 16) (k : Nat) (st : BitVec 16) (b : List Byte) : (complete s c tag k st b).cfg = s.cfg ∧
    (complete s c tag k st b).eng = s.eng ∧ (complete s c tag k st b).tb = s.tb ∧ (complete s c tag k st b).links = s.links := by
  unfold complete
  split
  · exact ⟨rfl, rfl, rfl, rfl⟩
  · extract_lets v s1 m s2
    have h2 : s2.cfg = s.cfg ∧ s2.eng = s.eng ∧ s2.tb = s.tb ∧ s2.links = s.links := postMessage_part s1 k m
    split
    · split
      · exact h2
      · exact h2
    · exact ⟨rfl, rfl, rfl, rfl⟩

/-- The completion of a settled change: OK, or how many units stay fenced and the lowest of them (R359). -/
def postCommit (s : State) (c : PendingCommit) : State :=
  match c.owner with
  | none => s
  | some (cl, k, tag) =>
    let f := c.fencedUnits ++ c.answers.flatMap (·.2) ++ (unheard s c).map deviceUid
    match minNat? (f.map (·.toNat)) with
    | none => complete s cl tag k 0x0000 []
    | some u => complete s cl tag k 0x0601 (leBytes 4 f.length ++ leBytes 4 u)

/-- The state that no longer lists the settled changes. -/
def dropSettled (s : State) : State := { s with cfg := { s.cfg with pending := s.cfg.pending.filter (fun c => !commitSettled s c) } }

theorem postCommits_eq (s : State) : postCommits s = (s.cfg.pending.filter (commitSettled s)).foldl postCommit (dropSettled s) := rfl

/-- A change settles by a completion, or by nothing. -/
theorem postCommit_cases (s : State) (c : PendingCommit) : postCommit s c = s ∨ ∃ cl tag k st b, postCommit s c = complete s cl tag k st b := by
  unfold postCommit
  split
  · exact .inl rfl
  · dsimp only
    split
    · exact .inr ⟨_, _, _, _, _, rfl⟩
    · exact .inr ⟨_, _, _, _, _, rfl⟩

/-- The completions of settled changes leave the sets, and of the units all but counters and sticky bits. -/
theorem postCommits_frame (s : State) : EventsOnly s (postCommits s) ∧ (postCommits s).cfg.sets = s.cfg.sets ∧ (postCommits s).eng = s.eng ∧
    (postCommits s).tb = s.tb ∧ (postCommits s).links = s.links := by
  have events : ∀ t c, EventsOnly t (postCommit t c) := fun t c => by
    rcases postCommit_cases t c with h | ⟨cl, tag, k, st, b, h⟩ <;> rw [h]
    · exact .refl t
    · exact complete_events ..
  have keep : ∀ {γ : Type} (g : State → γ), (∀ t c tag k st b, g (complete t c tag k st b) = g t) → ∀ t c, g (postCommit t c) = g t := fun g hg t c => by
    rcases postCommit_cases t c with h | ⟨cl, tag, k, st, b, h⟩ <;> rw [h]
    exact hg ..
  rw [postCommits_eq]
  refine ⟨.trans (.of_units (t := dropSettled s) rfl) (foldl_events events _ _),
    foldl_keep _ (fun t => t.cfg.sets) (keep (fun t => t.cfg.sets) (fun t c tag k st b => ?_)) _ _,
    foldl_keep _ State.eng (keep _ (fun t c tag k st b => ?_)) _ _, foldl_keep _ State.tb (keep _ (fun t c tag k st b => ?_)) _ _,
    foldl_keep _ State.links (keep _ (fun t c tag k st b => ?_)) _ _⟩
  all_goals obtain ⟨hc, he, ht, hl⟩ := complete_part t c tag k st b
  · rw [hc]
  · exact he
  · exact ht
  · exact hl

/-- The flash write of an epoch is the completions that are due and the entries that are not yet there. -/
theorem execConfigFlashWrite_eq (epoch : BitVec 32) (s : State) : execConfigFlashWrite epoch s =
    .next (((postCommits s).cfg.sets.filter (fun e => e.2.any (fun c => c.epoch == epoch && !c.inFlash))).foldl (flashEntry epoch) (postCommits s)) := rfl

/-! ### READMISSION -/

/-- What a readmission clears (R55). -/
def readmit (f : UnitFlags) : UnitFlags := { f with fenced := false, missed := false, refEpoch := 0, refSeen := 0 }

/-- The epoch a fenced unit must run: its parent's, of a device its reference epoch (R55). -/
def wantedEpoch (s : State) (k : Nat) : Option (BitVec 32) := match parentKey k with
  | some p => some (unitGet s p).page.active
  | none => if refEpochOf (unitGet s k).flags = 0 then none else some (refEpochOf (unitGet s k).flags)

theorem execReadmission_eq {s : State} {u : Uid} (hd : uidDevice u = s.form.device) (hl : keyLevel u.toNat ≤ 4) (hf : (unitGet s (uidKey u)).flags.fenced = true)
    (hb : isBoundary (now s) = true) (hw : wantedEpoch s (uidKey u) = some (unitGet s (uidKey u)).page.active)
    (hdev : uidKey u = devKey → s.tb.lock ≠ .slipped ∧ s.form.listed = true ∧ s.ident.failed = false) :
    execReadmission u s = .next (flagsMod s (uidKey u) readmit) := by
  have free : (uidKey u == devKey && (s.tb.lock == .slipped || !s.form.listed || s.ident.failed)) = false := by
    by_cases e : uidKey u = devKey
    · obtain ⟨h1, h2, h3⟩ := hdev e
      simp [h1, h2, h3]
    · simp [e]
  unfold execReadmission
  refine congrArg Host.Outcome.next (if_pos ?_)
  have want : (wantedEpoch s (uidKey u) == some (unitGet s (uidKey u)).page.active) = true := by rw [hw]; exact beq_self_eq_true _
  unfold wantedEpoch at want
  simp only [free, hf, hb, hl, hd, beq_self_eq_true, decide_true, Bool.not_false, Bool.and_true, Bool.true_and]
  exact want

theorem execReadmission_other {s : State} {u : Uid} (h : isBoundary (now s) = false ∨ (unitGet s (uidKey u)).flags.fenced = false) :
    execReadmission u s = .next s := by
  unfold execReadmission
  refine congrArg Host.Outcome.next (if_neg ?_)
  rcases h with h | h <;> simp [h]

/-- A readmitted unit is no longer fenced, and its page and every other unit stay. -/
theorem readmit_units {s : State} (h : Rises s.units.pages) (k : Nat) : (unitGet (flagsMod s k readmit) k).flags = readmit (unitGet s k).flags ∧
    (unitGet (flagsMod s k readmit) k).page = (unitGet s k).page ∧ ∀ a, a ≠ k → unitGet (flagsMod s k readmit) a = unitGet s a := by
  have hk := unitGet_flagsMod (k := k) (j := k) (f := readmit) h
  rw [if_pos rfl] at hk
  rw [hk]
  exact ⟨rfl, rfl, fun a ha => unitGet_unitMod_ne ha⟩

theorem parentKey_devKey : parentKey devKey = none := by decide

end Sys2Proof.Laws

namespace Sys2Proof

open Machine Laws

/-- Settles O25. At its strike the change goes through the units of its target (`changedUnits_units`); what follows leaves their epochs and their fences
(`finishCommit_units`) and ends the plan (`finishCommit_ends`). The flash write visits each entry that is not yet there (`foldl_flashEntry_hasFlashed`), and a
readmission clears the fence alone (`readmit_units`). -/
theorem configurationTakesEffect : Obligations.ConfigurationTakesEffect := by
  unfold Obligations.ConfigurationTakesEffect
  refine ⟨fun s c u hk hp ha hra hs hn ht hl => ?_, fun s h => ?_, fun s epoch k h hmem hany => ?_, fun s u p hk hd hl hf hb hpar hact => ?_,
    fun s u hk hd hl hkey hf hb href hact hlock hlisted hident => ?_, fun s u h => execReadmission_other h⟩
  · have hx : exec .configApply s = .next (finishCommit s (changedUnits s c (targetKeys s u)) c (targetKeys s u)) :=
      congrArg Host.Outcome.next ((applyDue_single hp ha hs hn).trans (applyCommit_eq hra ht hl))
    obtain ⟨rises, took, fenced, other⟩ := changedUnits_units hk.2 c (targetKeys_nodup s u)
      (fun k hk => isLocalKey_of_mem_allKeys (mem_allKeys_of_mem_targetKeys hk))
    have after := finishCommit_units s rises c (targetKeys s u)
    refine ⟨_, hx, fun x hx ha => ?_, fun x hx ha h0 h4 => ?_, fun x hx => ?_, fun j hj ⟨x, hx, ha⟩ => ?_⟩
    · obtain ⟨hfields, -, -⟩ := after x
      obtain ⟨epoch, strike, commit, revert⟩ := (took x hx ha).congr hfields
      exact ⟨epoch, strike, commit, revert⟩
    · obtain ⟨hfields, hflags, hraised⟩ := after x
      obtain ⟨active, isFenced, raised⟩ := fenced x hx ha (not_or.2 ⟨h0, h4⟩)
      exact ⟨(changeFields_active hfields).trans active, by rw [hflags]; exact isFenced, hraised 10 raised⟩
    · obtain ⟨hfields, -, -⟩ := after x
      rw [changeFields_active hfields, other x hx]
    · exact finishCommit_ends s (changedUnits_seq ..) c hx ha hj
  · exact congrArg Host.Outcome.next (applyDue_none h)
  · obtain ⟨events, sets, eng, tb, links⟩ := postCommits_frame s
    have due : ∀ e ∈ (postCommits s).cfg.sets.filter (fun e => e.2.any (fun c => c.epoch == epoch && !c.inFlash)),
        e.2.any (fun c => c.epoch == epoch && !c.inFlash) = true := fun e he => (List.mem_filter.1 he).2
    refine ⟨_, execConfigFlashWrite_eq epoch s, foldl_flashEntry_hasFlashed _ _ due (.inl ⟨(k, h), List.mem_filter.2 ⟨by rw [sets]; exact hmem, hany⟩, rfl⟩),
      ?_, ?_, ?_, ?_, fun x => ?_⟩
    · exact (foldl_keep_mem State.seq (fun e he t => flashEntry_keep State.seq (due e he) t (fun _ _ => rfl)) _).trans (postCommits_seq s)
    · exact (foldl_keep_mem State.eng (fun e he t => flashEntry_keep State.eng (due e he) t (fun _ _ => rfl)) _).trans eng
    · exact (foldl_keep_mem State.tb (fun e he t => flashEntry_keep State.tb (due e he) t (fun _ _ => rfl)) _).trans tb
    · exact (foldl_keep_mem State.links (fun e he t => flashEntry_keep State.links (due e he) t (fun _ _ => rfl)) _).trans links
    · exact (foldl_keep_mem (fun t => (unitGet t x).page.active) (fun e he t =>
        flashEntry_keep (fun t => (unitGet t x).page.active) (due e he) t (fun _ _ => rfl)) _).trans
        (changeFields_active (events.keeps changeFields_blind x))
  · have hne : uidKey u ≠ devKey := fun e => by rw [e, parentKey_devKey] at hpar; cases hpar
    have hw : wantedEpoch s (uidKey u) = some (unitGet s (uidKey u)).page.active := by
      unfold wantedEpoch
      rw [hpar, ← hact]
    obtain ⟨flags, page, other⟩ := readmit_units hk.2 (uidKey u)
    exact ⟨_, execReadmission_eq hd (by omega) hf hb hw (fun e => absurd e hne), by rw [flags]; rfl, page, other⟩
  · have hw : wantedEpoch s (uidKey u) = some (unitGet s (uidKey u)).page.active := by
      unfold wantedEpoch
      rw [hkey, parentKey_devKey, ← hact]
      exact if_neg href
    have hx := execReadmission_eq hd (by omega) (by rw [hkey]; exact hf) hb hw (fun _ => ⟨hlock, hlisted, hident⟩)
    rw [hkey] at hx
    obtain ⟨flags, page, other⟩ := readmit_units hk.2 devKey
    exact ⟨_, hx, by rw [flags]; rfl, by rw [flags]; rfl, page, other⟩

end Sys2Proof
end

section
/-!
PROOFS. The reference inputs and the election of the strike master (R31, R32, R35, R42, R46, R397, R407).
-/
namespace Sys2Proof.Laws

open Sys2Proof.Machine

/-! ### The rank of candidates (R32) -/

theorem ranksAbove_irrefl (a : Candidate) : ranksAbove a a = false := by simp [ranksAbove]

theorem ranksAbove_asymm {a b : Candidate} (h : ranksAbove a b = true) : ranksAbove b a = false := by
  unfold ranksAbove at h ⊢
  cases ha : a.classOne <;> cases hb : b.classOne <;> simp_all
  all_goals omega

theorem ranksAbove_eq_false_of_same {a b : Candidate} (hd : a.digest = b.digest) (hc : a.classOne = b.classOne) : ranksAbove b a = false := by
  simp [ranksAbove, hd, hc]

theorem bestOf_some (b c : Candidate) :
    bestOf (some b) c = if ranksAbove c b || (c.digest == b.digest && c.classOne == b.classOne) then c else b := rfl

/-- The better of two candidates is one of the two, and neither ranks above it. -/
theorem bestOf_best (o : Option Candidate) (c : Candidate) :
    (bestOf o c = c ∨ o = some (bestOf o c)) ∧ ranksAbove c (bestOf o c) = false ∧ ∀ b, o = some b → ranksAbove b (bestOf o c) = false := by
  cases o with
  | none => exact ⟨.inl rfl, ranksAbove_irrefl c, fun _ e => by cases e⟩
  | some b =>
    rw [bestOf_some]
    split
    next h =>
      refine ⟨.inl rfl, ranksAbove_irrefl c, fun x e => ?_⟩
      cases e
      rcases Bool.or_eq_true_iff.1 h with above | same
      · exact ranksAbove_asymm above
      · obtain ⟨hd, hc⟩ := Bool.and_eq_true_iff.1 same
        exact ranksAbove_eq_false_of_same (eq_of_beq hd) (eq_of_beq hc)
    next h =>
      obtain ⟨below, -⟩ := Bool.or_eq_false_iff.1 (Bool.eq_false_iff.2 h)
      refine ⟨.inr rfl, below, fun x e => ?_⟩
      cases e
      exact ranksAbove_irrefl b

/-- Another candidate above which this one does not rank stays the best known. -/
theorem bestOf_other {b c : Candidate} (h : ranksAbove c b = false) (hd : b.digest ≠ c.digest) : bestOf (some b) c = b := by
  rw [bestOf_some, h, beq_false_of_ne (Ne.symm hd)]
  rfl

/-! ### Reference inputs (R31, R35) -/

/-- A mark that follows its last 10,000,000 ± 1 cycles later qualifies the reference (R31). -/
theorem execPpsMark_good {s : State} {c : Nat} (hl : s.tb.refLocked = true) (h1 : 9999999 ≤ c) (h2 : c ≤ 10000001) :
    execPpsMark c true s = .next (tbMod s (fun t =>
      { t with goodMarks := t.goodMarks + 1, badMarks := 0, ppsQualified := true, masterHoldover := false })) := by
  unfold execPpsMark tbMod
  simp [hl, h1, h2]

theorem execPpsMark_bad {s : State} {c : Nat} (h : c < 9999999 ∨ 10000001 < c) : execPpsMark c true s = execPpsMarkMissing s := by
  have out : (decide (9999999 ≤ c) && decide (c ≤ 10000001)) = false := by
    rw [← Bool.decide_and]
    exact decide_eq_false (by omega)
  unfold execPpsMark execPpsMarkMissing tbMod
  simp only [Bool.and_assoc, out, Bool.and_false, Bool.false_eq_true, if_false]

theorem badMark_second {t : Timebase} (h : 1 ≤ t.badMarks) : (badMark t).ppsQualified = false ∧ (badMark t).goodMarks = 0 := by
  unfold badMark
  rw [if_pos (by omega : 2 ≤ t.badMarks + 1)]
  exact ⟨rfl, rfl⟩

theorem badMark_first {t : Timebase} (h : t.badMarks = 0) : badMark t = { t with goodMarks := 0, badMarks := 1 } := by
  unfold badMark
  rw [h]
  rfl

/-! ### Election (R32, R42, R46, R397, R407) -/

theorem execCandidateFlood_best {s : State} (hb : s.boot.phase = .running) (hi : s.ident.failed = false) (ho : s.tb.electionOver = false) :
    ∃ t, execCandidateFlood s = .next t ∧ t.tb.best = some (bestOf s.tb.best (ownCandidate s)) := by
  unfold execCandidateFlood
  refine ⟨_, congrArg Host.Outcome.next (if_pos (by rw [hb, hi, ho]; rfl)), ?_⟩
  exact congrArg Timebase.best (foldl_keep (fun t c => floodMsg t 1 (.candidate c)) State.tb (fun t c => floodMsg_tb t 1 (.candidate c)) _ _)

/-- The election may conclude here: it has timed out, or no candidate known is pending (R407). -/
def mayConclude (s : State) (timedOut : Bool) : Prop :=
  s.boot.phase = .running ∧ s.ident.failed = false ∧ s.tb.electionOver = false ∧ (timedOut = true ∨ s.tb.pendings = [] ∧ (ownCandidate s).pending = false)

theorem mayConclude_guard {s : State} {timedOut : Bool} (h : mayConclude s timedOut) :
    (s.boot.phase == .running && !s.ident.failed && !s.tb.electionOver && (timedOut || (s.tb.pendings.isEmpty && !(ownCandidate s).pending))) = true := by
  obtain ⟨hb, hi, ho, hc⟩ := h
  have waits : (timedOut || (s.tb.pendings.isEmpty && !(ownCandidate s).pending)) = true := by
    rcases hc with rfl | ⟨hp, hown⟩
    · rfl
    · rw [hp, hown]
      exact Bool.or_true _
  rw [hb, hi, ho, waits]
  rfl

/-- A device that is its own best candidate becomes the master and announces itself (R407). -/
theorem execElectionConclude_own {s : State} {timedOut : Bool} (h : mayConclude s timedOut)
    (hbest : (bestOf s.tb.best (ownCandidate s)).digest = (ownCandidate s).digest) :
    ∃ t, execElectionConclude timedOut s = .next t ∧ t.tb.electionOver = true ∧ t.tb.role = .master ∧ t.tb.announced = some (ownCandidate s) := by
  unfold execElectionConclude
  refine ⟨_, congrArg Host.Outcome.next (if_pos (mayConclude_guard h)), ?_⟩
  simp only [hbest, if_true]
  split <;> simp only [floodMsg_tb, tbMod, setMaster, and_self]

/-- A device that knows a better candidate waits for its announcement (R407). -/
theorem execElectionConclude_other {s : State} {timedOut : Bool} (h : mayConclude s timedOut)
    (hbest : (bestOf s.tb.best (ownCandidate s)).digest ≠ (ownCandidate s).digest) :
    execElectionConclude timedOut s = .next (tbMod s (fun t =>
      { t with electionOver := true, classBit := (ownCandidate s).classOne, best := some (bestOf s.tb.best (ownCandidate s)) })) := by
  unfold execElectionConclude
  exact congrArg Host.Outcome.next ((if_pos (mayConclude_guard h)).trans (if_neg hbest))

theorem hearAnnouncement_first {s : State} (c : Candidate) (ha : s.tb.announced = none) (hi : s.ident.failed = false) :
    hearAnnouncement s c = floodMsg (tbMod (setMaster s c) (fun t =>
      { t with electionOver := true, parent := none, role := .follower, classBit := (ownCandidate s).classOne })) 1 (.announcement c) := by
  unfold hearAnnouncement
  simp [ha, hi]

/-- A device whose identity failed takes no part in an election (R397). -/
theorem election_of_failed {s : State} (h : s.ident.failed = true) (timedOut : Bool) (c : Candidate) : execCandidateFlood s = .next s ∧
    execElectionConclude timedOut s = .next s ∧ hearAnnouncement s c = s := by
  unfold execCandidateFlood execElectionConclude hearAnnouncement
  simp [h]

theorem execMasterLost_eq {s : State} (hr : s.tb.role ≠ .master) (hd : s.tb.strikeDefined = true) (ho : s.tb.electionOver = true)
    (hh : s.tb.heartbeatHeat + 3 ≤ heatOf (now s + 1)) :
    execMasterLost s = .next (tbMod s (fun t => { t with electionOver := false, best := none, pendings := [], announced := none })) := by
  unfold execMasterLost
  simp [hr, hd, ho, hh]

end Sys2Proof.Laws

namespace Sys2Proof

open Machine Laws

/-- Settles O43. The election's clauses rest on what the better of two candidates is (`bestOf_best`, `bestOf_other`). -/
theorem timebaseReferences : Obligations.TimebaseReferences := by
  unfold Obligations.TimebaseReferences
  refine ⟨fun s => rfl, fun s => ⟨_, rfl, rfl, rfl, fun h => ?_, rfl, rfl, rfl⟩, fun s c hl h1 h2 => ⟨_, execPpsMark_good hl h1 h2, rfl, rfl, rfl⟩,
    fun s c h => execPpsMark_bad h, fun s h => ?_, fun s h => ⟨tbMod s badMark, rfl, ?_⟩, fun s hb hi ho => ?_, fun s timedOut hb hi ho hc hbest => ?_,
    fun s timedOut b hb hi ho hc hbest hrank hdig => ?_, fun s c ha hi => ⟨_, congrArg Host.Outcome.next (hearAnnouncement_first c ha hi), ?_⟩,
    fun s timedOut c h => ?_, fun s hr hd ho hh => execMasterLost_eq hr hd ho hh⟩
  · exact Bool.or_eq_true_iff.2 (.inr (beq_iff_eq.2 h))
  · obtain ⟨hq, hg⟩ := badMark_second h
    exact ⟨_, rfl, hq, hg⟩
  · unfold tbMod
    rw [badMark_first h]
    exact ⟨rfl, rfl⟩
  · obtain ⟨t, ht, hbest⟩ := execCandidateFlood_best hb hi ho
    exact ⟨t, _, ht, hbest, bestOf_best s.tb.best (ownCandidate s)⟩
  · exact execElectionConclude_own ⟨hb, hi, ho, hc⟩ (by rw [hbest]; rfl)
  · have best : bestOf s.tb.best (ownCandidate s) = b := by rw [hbest]; exact bestOf_other hrank hdig
    exact ⟨_, execElectionConclude_other ⟨hb, hi, ho, hc⟩ (by rw [best]; exact hdig), rfl, rfl, rfl⟩
  · rw [floodMsg_tb]
    exact ⟨rfl, rfl, rfl, rfl, rfl⟩
  · obtain ⟨flood, conclude, hear⟩ := election_of_failed h timedOut c
    exact ⟨flood, conclude, congrArg Host.Outcome.next hear⟩

end Sys2Proof
end

section
/-!
PROOFS. Strike 0, lock, slip, relock and holdover (R34, R36, R37, R44, R45).
-/
namespace Sys2Proof.Laws

open Sys2Proof.Machine

/-! ### What the messages of a heat and the SYNC_OUT pulse leave -/

theorem heatMessages_keep {γ : Type} (g : State → γ) (hf : ∀ s y b, g (floodMsg s y b) = g s) (ht : ∀ s ds y b, g (sendTo s ds y b) = g s) (s : State) :
    g (heatMessages s) = g s := by
  unfold heatMessages
  extract_lets _ s1 s2 _
  have h1 : g s1 = g s := by
    unfold s1
    split
    · exact hf ..
    · rfl
  exact (foldl_keep _ g (fun t _ => ht ..) _ s2).trans ((hf ..).trans ((hf ..).trans h1))

@[simp] theorem heatMessages_tb (s : State) : (heatMessages s).tb = s.tb := heatMessages_keep State.tb floodMsg_tb sendTo_tb s
@[simp] theorem heatMessages_mem (s : State) : (heatMessages s).mem = s.mem := heatMessages_keep State.mem floodMsg_mem sendTo_mem s

theorem syncPulse_keep {γ : Type} (g : State → γ) (h : ∀ s o, g (emitOut s o) = g s) (s : State) : g (syncPulse s) = g s := by
  unfold syncPulse
  split
  · split
    · exact h ..
    · rfl
  · split
    · exact h ..
    · rfl

@[simp] theorem syncPulse_tb (s : State) : (syncPulse s).tb = s.tb := syncPulse_keep State.tb (fun _ _ => rfl) s
@[simp] theorem syncPulse_mem (s : State) : (syncPulse s).mem = s.mem := syncPulse_keep State.mem (fun _ _ => rfl) s

theorem execStrikeZero_eq {s : State} (hr : s.tb.role = .master) (hd : s.tb.strikeDefined = false) :
    execStrikeZero s = .next (syncPulse (heatMessages { tbMod s (fun t => { t with strikeDefined := true, lock := .locked, hops := 0 }) with
      seq := { s.seq with strike := 0, kind := .run, nextKind := .run, hold := 0 } })) := by
  unfold execStrikeZero
  exact congrArg Host.Outcome.next (if_pos (by rw [hr, hd]; rfl))

/-! ### The parent a device may take (R36) -/

theorem chooseParent_mem {s : State} {p : Nat} (h : chooseParent s = some p) : p ∈ parentPorts s := by
  unfold chooseParent at h
  dsimp only at h
  split at h
  · cases h
  · exact List.mem_of_find?_eq_some h

theorem eligibleParent_of_le {s : State} {p : Nat} (h : chooseParent s = some p) (hh : s.tb.neighbourHops.getD p 0 + 1 ≤ 24) : eligibleParent s = some p := by
  unfold eligibleParent
  rw [h]
  exact Option.filter_some_pos (decide_eq_true hh)

theorem eligibleParent_of_gt {s : State} (h : ∀ p, chooseParent s = some p → 24 < s.tb.neighbourHops.getD p 0 + 1) : eligibleParent s = none := by
  unfold eligibleParent
  cases hc : chooseParent s with
  | none => rfl
  | some p => exact Option.filter_some_neg (by simpa using h p hc)

/-- A device all of whose parent ports are too far from the master may take none of them. -/
theorem eligibleParent_of_far {s : State} (h : ∀ q ∈ parentPorts s, 24 < s.tb.neighbourHops.getD q 0 + 1) : eligibleParent s = none :=
  eligibleParent_of_gt (fun p hp => h p (chooseParent_mem hp))

theorem relockPort_of_far {s : State} (h : ∀ q ∈ parentPorts s, 24 < s.tb.neighbourHops.getD q 0 + 1) : relockPort s = none := by
  unfold relockPort
  split
  · next p _ =>
    rw [if_neg, eligibleParent_of_far h]
    intro both
    obtain ⟨mem, near⟩ := Bool.and_eq_true_iff.1 both
    have far := h p (List.contains_iff_mem.1 mem)
    have near := of_decide_eq_true near
    omega
  · exact eligibleParent_of_far h

/-! ### The first lock (R36, R37) -/

theorem mayAcquire_of_unlocked {s : State} (hl : s.tb.lock = .unlocked ∨ s.tb.lock = .acquiring) (hr : s.tb.role ≠ .master) (hi : s.ident.failed = false) :
    mayAcquire s = true := by
  unfold mayAcquire
  rcases hl with h | h <;> simp [h, hr, hi]

theorem execStrikeLockAcquire_none {s : State} (h : eligibleParent s = none) (l : Bool) (n : Word) : execStrikeLockAcquire l n s = .next s := by
  unfold execStrikeLockAcquire
  rw [h]
  exact congrArg Host.Outcome.next (ite_self s)

/-- The state that has taken the strike number of port p as it locks there. -/
def locked (s : State) (p : Nat) (n : Word) : State :=
  { tbMod (takeParent s p .follower .locked) (fun t => { t with strikeDefined := true, heartbeatHeat := heatOf (lockNumber s p n).toNat }) with
    seq := { s.seq with strike := lockNumber s p n } }

theorem execStrikeLockAcquire_some {s : State} {p : Nat} (hm : mayAcquire s = true) (h : eligibleParent s = some p) (l : Bool) (n : Word) :
    execStrikeLockAcquire l n s = .next (if l then locked s p n else tbMod s (fun t => { t with parent := some p, lock := .acquiring })) := by
  unfold execStrikeLockAcquire
  rw [hm, h]
  rfl

/-! ### The slip (R44) -/

theorem markSticky_counters (d : Bool) (p : UnitPage) (m : Word) : (markSticky d p m).counters = p.counters := by
  unfold markSticky
  split <;> rfl

/-- A fenced unit is never as it was after reset, so its page is always kept. -/
theorem unitGet_flagsMod_fenced (s : State) {k : Nat} {f : UnitFlags → UnitFlags} (h : (f (unitGet s k).flags).fenced = true) :
    unitGet (flagsMod s k f) k = { unitGet s k with flags := f (unitGet s k).flags } := by
  refine unitGet_unitMod_of_ne_default (fun e => ?_)
  have reset : (pageDefault k).flags.fenced = false := by
    unfold pageDefault
    split <;> rfl
  have same : (f (unitGet s k).flags).fenced = (pageDefault k).flags.fenced := congrArg (fun u : UnitState => u.flags.fenced) e
  exact Bool.noConfusion (h.symm.trans (same.trans reset))

theorem counterGet_stickySet (s : State) (k : Nat) {b : Nat} (hb : b < 64) (a d : Nat) : counterGet (stickySet s k b) a d = counterGet s a d := by
  unfold counterGet
  rw [unitGet_stickySet_any s k a hb]
  split
  · next e =>
    subst e
    exact congrArg (sparseGet 0 d) (markSticky_counters ..)
  · rfl

/-- An event of the device unit adds to its own counter alone: the unit has no ancestors. -/
theorem counterGet_count_devKey (s : State) (c : Nat) {n : Nat} (h : 1 ≤ n) (d : Nat) :
    counterGet (count s devKey c n) devKey d = if d = c then satAdd (counterGet s devKey d) n else counterGet s devKey d := by
  rw [count_devKey, counterGet_counterAddOne s h]
  simp only [true_and]

/-- The slip's events leave the device fenced, DECOHERED raised and the slips one more. -/
theorem slip_device (s : State) : (unitGet (slip s) devKey).flags.fenced = true ∧ stickyRaised (slip s) devKey 4 ∧
    counterGet (slip s) devKey 17 = satAdd (counterGet s devKey 17) 1 := by
  let s1 := tbMod s (fun t => { t with lock := .slipped, hops := 0x1F, slotNumber := List.replicate 6 none })
  let s2 := count (stickySet s1 devKey 4) devKey 17 1
  have unit := unitGet_flagsMod_fenced s2 (k := devKey) (f := fun f => { f with fenced := true }) rfl
  have raised : stickyRaised s2 devKey 4 := (count_events _ devKey 17 (Nat.le_refl 1)).raised (stickyRaised_stickySet_any s1 devKey (by decide))
  have counted : counterGet s2 devKey 17 = satAdd (counterGet s devKey 17) 1 := by
    rw [← show counterGet (stickySet s1 devKey 4) devKey 17 = counterGet s devKey 17 from counterGet_stickySet s1 devKey (by decide) ..]
    exact (counterGet_count_devKey _ 17 (Nat.le_refl 1) 17).trans (if_pos rfl)
  unfold slip
  dsimp only
  unfold stickyRaised at raised ⊢
  unfold counterGet at counted ⊢
  rw [unit]
  exact ⟨rfl, raised, counted⟩

theorem slip_tb (s : State) : (slip s).tb = { s.tb with lock := .slipped, hops := 0x1F, slotNumber := List.replicate 6 none } := by
  unfold slip
  simp only [flagsMod_tb, count_tb, stickySet_tb, tbMod]

theorem execStrikeSlip_eq (s : State) : execStrikeSlip s =
    .next (if s.tb.lock == .locked && s.tb.role != .master && 8000 < (sint 32 s.tb.offset.toNat).natAbs then slip s else s) := rfl

/-! ### The relock (R44) -/

theorem refEpochOf_eq_zero {f : UnitFlags} : refEpochOf f = 0 ↔ f.refEpoch = 0 ∧ f.refSeen = 0 := by
  unfold refEpochOf
  split
  · next h =>
    refine ⟨fun e => ?_, fun e => e.2⟩
    rw [e] at h
    exact absurd h (Nat.not_lt_zero _)
  · next h =>
    refine ⟨fun e => ⟨e, ?_⟩, fun e => e.1⟩
    rw [e] at h
    exact BitVec.eq_of_toNat_eq (Nat.le_zero.1 (Nat.not_lt.1 h))

/-- The state that has locked again on port p. -/
def relocked (s : State) (p : Nat) (n : Word) : State :=
  { tbMod s (fun t => { t with
      lock := .locked, hops := BitVec.ofNat 5 (t.neighbourHops.getD p 0 + 1), parent := some p, offset := 0
      role := if t.role == .holdover then .follower else t.role }) with seq := { s.seq with strike := lockNumber s p n } }

theorem execStrikeRelock_some {s : State} {p : Nat} (hl : s.tb.lock = .slipped) (hi : s.ident.failed = false) (h : relockPort s = some p) (n : Word) :
    execStrikeRelock n s = .next (if refEpochOf (unitGet s devKey).flags = 0
      then flagsMod (relocked s p n) devKey (fun f => { f with fenced := false }) else relocked s p n) := by
  unfold execStrikeRelock
  rw [hl, hi, h]
  simp only [refEpochOf_eq_zero, Bool.and_eq_true, decide_eq_true_iff]
  rfl

theorem execStrikeRelock_none {s : State} (h : relockPort s = none) (n : Word) : execStrikeRelock n s = .next s := by
  unfold execStrikeRelock
  rw [h]
  exact congrArg Host.Outcome.next (ite_self s)

/-! ### Holdover (R45) -/

theorem execHoldoverEnter_down {s : State} {p : Nat} (hp : s.tb.parent = some p) (hr : s.tb.role = .follower) (hd : portUp s p = false) :
    execHoldoverEnter s = .next (tbMod s (fun t => { t with role := .holdover, parent := none, holdoverHeats := heatOf (now s) })) := by
  unfold execHoldoverEnter
  simp only [hp]
  rw [hr, hd]
  rfl

theorem execReparent_some {s : State} {p : Nat} (hr : s.tb.role = .holdover) (hl : s.tb.lock = .locked) (h : eligibleParent s = some p) :
    execReparent s = .next (takeParent s p .follower .locked) := by
  unfold execReparent
  rw [hr, hl, h]
  rfl

theorem execHoldoverTimeout_slips {s : State} (hr : s.tb.role = .holdover) (hl : s.tb.lock = .locked) (h : eligibleParent s = none)
    (hh : s.tb.holdoverHeats + 16 ≤ heatOf (now s)) : execHoldoverTimeout s = .next (slip s) := by
  unfold execHoldoverTimeout
  rw [hr, hl, h, decide_eq_true hh]
  rfl

end Sys2Proof.Laws

namespace Sys2Proof

open Machine Laws

/-- Settles O44. Which port a device may take is said once (`eligibleParent_of_le`, `eligibleParent_of_far`), and so is what a slip does (`slip_device`). -/
theorem strikeLock : Obligations.StrikeLock := by
  unfold Obligations.StrikeLock
  refine ⟨fun s hr hd => ?_, fun s p n hl hr hi hc hh => ?_, fun s p n l hc hh => ?_, fun s hl hr ho => ?_, fun s ho => ?_, fun s p n hk hl hi hp => ?_,
    fun s n h => ?_, fun s p hp hr hd => ?_, fun s p hr hl hc hh => ?_, fun s hr hl hf hh => ?_⟩
  · refine ⟨_, execStrikeZero_eq hr hd, ?_⟩
    simp only [syncPulse_seq, heatMessages_seq, syncPulse_tb, heatMessages_tb, syncPulse_mem, heatMessages_mem, tbMod, and_self]
  · have some := execStrikeLockAcquire_some (mayAcquire_of_unlocked hl hr hi) (eligibleParent_of_le hc hh)
    exact ⟨⟨_, some false n, rfl, rfl, rfl⟩, ⟨_, some true n, rfl, rfl, rfl, rfl, rfl⟩⟩
  · refine execStrikeLockAcquire_none (eligibleParent_of_gt (fun q hq => ?_)) l n
    cases hc.symm.trans hq
    exact hh
  · obtain ⟨fenced, raised, counted⟩ := slip_device s
    refine ⟨slip s, (execStrikeSlip_eq s).trans (congrArg Host.Outcome.next (if_pos ?_)), ?_, ?_, fenced, raised, counted⟩
    · simp [hl, hr, ho]
    · rw [slip_tb]
    · rw [slip_tb]
  · exact (execStrikeSlip_eq s).trans (congrArg Host.Outcome.next (if_neg (by simp [Nat.not_lt.2 ho])))
  · refine ⟨_, execStrikeRelock_some hl hi hp n, ?_⟩
    by_cases h0 : refEpochOf (unitGet s devKey).flags = 0
    · rw [if_pos h0]
      refine ⟨rfl, rfl, rfl, rfl, fun _ => ?_, fun hne => absurd h0 hne⟩
      rw [unitGet_flagsMod (s := relocked s p n) hk.2, if_pos rfl]
    · rw [if_neg h0]
      exact ⟨rfl, rfl, rfl, rfl, fun e => absurd e h0, fun _ => rfl⟩
  · exact execStrikeRelock_none (relockPort_of_far h) n
  · exact ⟨_, execHoldoverEnter_down hp hr hd, rfl, rfl, rfl, rfl, rfl⟩
  · exact ⟨_, execReparent_some hr hl (eligibleParent_of_le hc hh), rfl, rfl, rfl, rfl, rfl⟩
  · obtain ⟨fenced, -, -⟩ := slip_device s
    exact ⟨slip s, execHoldoverTimeout_slips hr hl (eligibleParent_of_far hf) hh, by rw [slip_tb], fenced⟩

end Sys2Proof
end

section
/-!
PROOFS. Staging, validating, committing, reverting and reading a configuration (R52, R54, R357 to R361).
-/
namespace Sys2Proof.Laws

open Sys2Proof.Machine

/-! ### A request that is taken, and its answer -/

/-- A request that is next, readable and not refused is handed to its command (R347). -/
theorem takeRequest_taken {s t : State} {k op : Nat} {m : List Byte} (h : Taken s k op m t) (serve : State → List Byte → State) :
    takeRequest s k op serve = serve t m := by
  obtain ⟨s1, next, read, opcode, -, status, rfl⟩ := h
  unfold takeRequest
  simp only [next, read, opcode, status, Bool.not_true, Bool.false_eq_true, if_false, bne_self_eq_false, Bool.and_false]

@[simp] theorem postMessage_cfg (s : State) (k : Nat) (m : List Byte) : (postMessage s k m).cfg = s.cfg := by
  obtain ⟨hcfg, -, -, -⟩ := postMessage_part s k m
  exact hcfg

@[simp] theorem respond_cfg (s : State) (k : Nat) (m : List Byte) (st : BitVec 16) (b : List Byte) : (respond s k m st b).cfg = s.cfg := postMessage_cfg ..

theorem withRef_ok {s s1 : State} {k : Nat} {m r : List Byte} {a n : Nat} (h : readRef s a n = (s1, .ok r)) (f : State → List Byte → State) :
    withRef s k m a n f = f s1 r := by
  unfold withRef
  rw [h]

/-! ### Staging and validation (R357, R358) -/

/-- What a stage request adds to an empty staging area. -/
def stagedRecord (m r : List Byte) : Staged :=
  { client := msgClient m, target := msgTarget m, epoch := BitVec.ofNat 32 (recEpoch r), record := r, validated := false }

theorem serveCfgStage_first {t t1 : State} {k : Nat} {m r : List Byte} (hread : readRef t (fieldN (msgBody m) 0 8) (fieldN (msgBody m) 8 4) = (t1, .ok r))
    (hform : recFormatOk r (fieldN (msgBody m) 8 4) = true) (htarget : recTarget r = msgTarget m) (hempty : t1.cfg.staging = []) :
    (serveCfgStage k t m).cfg.staging = [stagedRecord m r] := by
  unfold serveCfgStage
  dsimp only
  rw [withRef_ok hread]
  have same : (recTarget r == msgTarget m) = true := beq_iff_eq.2 htarget
  simp only [hform, same, hempty, Bool.and_self, Bool.not_true, Bool.false_eq_true, if_false, List.any_nil, List.filter_nil]
  exact congrArg Config.staging (respond_cfg ..)

theorem rejectSticky_cfg (s : State) (u : Uid) (st : BitVec 16) : (rejectSticky s u st).cfg = s.cfg := by
  unfold rejectSticky
  dsimp only
  split <;> simp only [stickySet_cfg]

theorem serveCfgValidate_agreed {t : State} {k : Nat} {m : List Byte} {answers : List MemberAnswer} {st : Staged}
    (hst : stagedCheck t m (fieldN (msgBody m) 0 4) = .ok st) (hg : (groupAnswer t st.target (validate t st.target st.record false) answers).1 = 0) :
    (serveCfgValidate k answers t m).cfg.staging = t.cfg.staging.map (fun x => if x == st then { x with validated := true } else x) := by
  unfold serveCfgValidate
  rw [hst]
  dsimp only
  rw [if_pos hg, respond_cfg]
  refine congrArg (fun c : Config => c.staging.map (fun x => if x == st then { x with validated := true } else x)) ?_
  split
  · rfl
  · exact rejectSticky_cfg ..

/-! ### Commits and reverts (R52, R54, R359, R360) -/

theorem loadPending_cfg (s : State) (r : List (BitVec 32)) : (loadPending s r).cfg = s.cfg := by
  unfold loadPending
  split
  · rfl
  · split <;> rfl

theorem writePending_cfg (s : State) (u : Uid) (e : BitVec 32) (n : Nat) (rv ra : Bool) : (writePending s u e n rv ra).cfg = s.cfg :=
  foldl_keep (fun t k => pageMod t k _) State.cfg (fun _ _ => rfl) _ s

theorem pushPending_pending (s : State) (c : PendingCommit) : (pushPending s c).cfg.pending = s.cfg.pending ++ [c] := by
  have kept : (c.targets.foldl (fun t u => writePending t u c.epoch c.strike c.revert c.readmit) (loadPending s (pendingRoute s c))).cfg = s.cfg :=
    (foldl_keep (fun t u => writePending t u c.epoch c.strike c.revert c.readmit) State.cfg (fun t u => writePending_cfg ..) _ _).trans (loadPending_cfg ..)
  unfold pushPending
  dsimp only
  split
  · rw [kept]
  · rw [sendTo_cfg, kept]

/-- What an accepted commit or revert of a request makes pending. -/
def requestedCommit (k : Nat) (m : List Byte) (epoch : BitVec 32) (strike : Nat) (revert : Bool) (r : List Byte) : PendingCommit :=
  { targets := [msgTarget m], epoch := epoch, strike := strike, revert := revert, readmit := false, routing := false, record := r,
    owner := some (msgClient m, k, msgTag m), fencedUnits := [], applied := false }

theorem acceptCommit_pending (s : State) (k : Nat) (m : List Byte) (epoch : BitVec 32) (strike : Nat) (revert : Bool) (r : List Byte) :
    (acceptCommit s k m epoch strike revert r).cfg.pending = s.cfg.pending ++ [requestedCommit k m epoch strike revert r] := by
  have answered : ∀ t : State, (respondAccepted t k m []).cfg = t.cfg := fun t => respond_cfg ..
  unfold acceptCommit requestedCommit
  rw [answered, sendTo_cfg, pushPending_pending]

theorem holdRequest_outstanding (s : State) (k : Nat) (m : List Byte) :
    (holdRequest s k m).vmp.outstanding.any (fun o => o.client == msgClient m && o.tag == msgTag m) = true :=
  List.any_eq_true.2 ⟨_, List.mem_append_right _ List.mem_cons_self, by simp⟩

/-- An accepted request's tag stays outstanding (R348). -/
theorem acceptCommit_outstanding (s : State) (k : Nat) (m : List Byte) (epoch : BitVec 32) (strike : Nat) (revert : Bool) (r : List Byte) :
    (acceptCommit s k m epoch strike revert r).vmp.outstanding.any (fun o => o.client == msgClient m && o.tag == msgTag m) = true :=
  holdRequest_outstanding ..

theorem serveCfgCommit_agreed {t : State} {k : Nat} {m : List Byte} {answers : List MemberAnswer} {st : Staged}
    (hst : stagedCheck t m (fieldN (msgBody m) 0 4) = .ok st) (hval : st.validated = true) (hv : (validate t st.target st.record false).1 = 0)
    (hpend : anyPending t st.target = false) (hlead : commitLead t st.target ≤ fieldN (msgBody m) 8 8) (hg : (groupAnswer t st.target (0, []) answers).1 = 0) :
    serveCfgCommit k answers t m = acceptCommit t k m (BitVec.ofNat 32 (fieldN (msgBody m) 0 4)) (fieldN (msgBody m) 8 8) false st.record := by
  unfold serveCfgCommit
  dsimp only
  rw [hst]
  simp only [hval, hv, hpend, if_neg (Nat.not_lt.2 hlead), Bool.not_true, Bool.false_eq_true, if_false, bne_self_eq_false, hg]

theorem serveCfgRevert_agreed {t : State} {k : Nat} {m : List Byte} {remote : List (BitVec 16)}
    (hprev : (targetKeys t (msgTarget m)).all (hasPrevious t) = true) (hpend : anyPending t (msgTarget m) = false)
    (hlead : commitLead t (msgTarget m) ≤ fieldN (msgBody m) 0 8) (hg : groupStatus t (msgTarget m) 0 remote = 0) :
    serveCfgRevert k remote t m =
      acceptCommit t k m (previousEpoch t (if keyLevel (msgTarget m).toNat = 5 then devKey else uidKey (msgTarget m))) (fieldN (msgBody m) 0 8) true [] := by
  have all : (targetKeys t (msgTarget m)).any (fun x => !hasPrevious t x) = false := by
    rw [List.any_eq_not_all_not]
    simp only [Bool.not_not, hprev, Bool.not_true]
  unfold serveCfgRevert
  simp only [all, hpend, if_neg (Nat.not_lt.2 hlead), Bool.false_eq_true, if_false, hg, bne_self_eq_false]

/-- What a forwarded commit makes pending here. -/
def heardCommit (s : State) (c : ForwardedCommit) : PendingCommit :=
  { targets := c.targets.filter (targetLocal s), epoch := c.epoch, strike := c.strike, revert := c.revert, readmit := c.readmit, routing := false,
    record := c.record, owner := none, fencedUnits := [], applied := false }

theorem hearCommit_ahead {s : State} {c : ForwardedCommit} (hl : (c.targets.filter (targetLocal s)).isEmpty = false) (hs : now s < c.strike)
    (hpend : (c.targets.filter (targetLocal s)).any (anyPending s) = false) (hr : commitRefused s c = none) :
    hearCommit s none c = pushPending s (heardCommit s c) := by
  unfold hearCommit
  simp only [hl, hr, if_neg (Nat.not_le.2 hs), hpend, Bool.false_eq_true, if_false]
  rfl

theorem hearCommit_refused {s : State} {c : ForwardedCommit} {e : BitVec 32} (hl : (c.targets.filter (targetLocal s)).isEmpty = false)
    (hr : commitRefused s c = some e) : hearCommit s none c = epochRefused s e.toNat := by
  unfold hearCommit
  simp only [hl, hr, Bool.false_eq_true, if_false]

/-! ### Reading a set (R361) -/

theorem serveCfgRead_signed {t : State} {k : Nat} {m : List Byte} {c : ConfigSet}
    (hsel : selectSet t (if keyLevel (msgTarget m).toNat = 5 then devKey else uidKey (msgTarget m)) (byteAt (msgBody m) 0) (byteAt (msgBody m) 1)
      (fieldN (msgBody m) 4 4) = some c) (hsig : c.deviceSig.isEmpty = false)
    (hlen : (setRecord c (msgTarget m) ++ c.deviceSig).length ≤ fieldN (msgBody m) 0x10 4)
    (hrange : rangeOk t isTier (fieldN (msgBody m) 8 8) (fieldN (msgBody m) 0x10 4) = true) :
    serveCfgRead k t m = respond (memWrite t (fieldN (msgBody m) 8 8) (setRecord c (msgTarget m) ++ c.deviceSig)) k m 0x0000
      (leBytes 4 (setRecord c (msgTarget m) ++ c.deviceSig).length ++ leBytes 4 c.epoch.toNat) := by
  unfold serveCfgRead
  simp only [hsel, hsig, Bool.false_eq_true, if_false, decide_eq_false (Nat.not_lt.2 hlen), hrange, Bool.not_true, Bool.or_false]

end Sys2Proof.Laws

namespace Sys2Proof

open Machine Laws

/-- Settles O24. A request that is taken reaches its command (`takeRequest_taken`), and what each command makes of it when every member agrees is said by
a lemma of its own. -/
theorem configurationRequests : Obligations.ConfigurationRequests := by
  unfold Obligations.ConfigurationRequests
  refine ⟨fun s t t1 k m r h hread hform htarget hempty => ?_, fun s t k m answers st h hst hg => ?_, fun s t k m answers st h hst hval hv hpend hlead hg => ?_,
    fun s t k m remote h hprev hpend hlead hg => ?_, fun s t k m c h hsel hsig hlen hrange => ?_, fun s c hl hs hpend hr => ?_, fun s c e hl hr => ?_⟩
  · exact ⟨_, congrArg Host.Outcome.next (takeRequest_taken h _), serveCfgStage_first hread hform htarget hempty⟩
  · exact ⟨_, congrArg Host.Outcome.next (takeRequest_taken h _), serveCfgValidate_agreed hst hg⟩
  · exact ⟨_, _, congrArg Host.Outcome.next ((takeRequest_taken h _).trans (serveCfgCommit_agreed hst hval hv hpend hlead hg)),
      acceptCommit_pending .., rfl, rfl, rfl, rfl, rfl, acceptCommit_outstanding ..⟩
  · exact ⟨_, _, congrArg Host.Outcome.next ((takeRequest_taken h _).trans (serveCfgRevert_agreed hprev hpend hlead hg)), acceptCommit_pending .., rfl, rfl, rfl⟩
  · exact congrArg Host.Outcome.next ((takeRequest_taken h _).trans (serveCfgRead_signed hsel hsig hlen hrange))
  · exact ⟨_, _, congrArg Host.Outcome.next (hearCommit_ahead hl hs hpend hr), pushPending_pending .., rfl, rfl, rfl, rfl, rfl⟩
  · exact congrArg Host.Outcome.next (hearCommit_refused hl hr)

end Sys2Proof
end

section
/-!
PROOFS. The frames a Weld port receives, lands, sends again and loses (R318 to R322).
-/
namespace Sys2Proof.Laws

open Sys2Proof.Machine

/-! ### One Weld port -/

theorem length_listModify {α : Type} (l : List α) (i : Nat) (f : α → α) : (listModify l i f).length = l.length := by
  unfold listModify
  split
  · exact List.length_set
  · rfl

theorem getD_listModify_self {α : Type} {l : List α} {i : Nat} (h : i < l.length) (f : α → α) (d : α) : (listModify l i f).getD i d = f (l.getD i d) := by
  unfold listModify
  rw [List.getElem?_eq_getElem h]
  simp [List.getD_eq_getElem?_getD, h]

/-- What a change of an element leaves unread, it leaves in every element. -/
theorem getD_listModify_keep {α γ : Type} (g : α → γ) {f : α → α} (hf : ∀ x, g (f x) = g x) (l : List α) (i j : Nat) (d : α) :
    g ((listModify l i f).getD j d) = g (l.getD j d) := by
  unfold listModify
  split
  · next v hv =>
    by_cases e : i = j
    · subst e
      obtain ⟨hi, rfl⟩ := List.getElem?_eq_some_iff.1 hv
      simp [List.getD_eq_getElem?_getD, hi, hf]
    · rw [List.getD_eq_getElem?_getD, List.getElem?_set_ne e, List.getD_eq_getElem?_getD]
  · rfl

@[simp] theorem ports_length_portMod (s : State) (p : Nat) (f : WeldPort → WeldPort) : (portMod s p f).links.ports.length = s.links.ports.length :=
  length_listModify ..

theorem portGet_congr {s t : State} (h : t.links = s.links) (p : Nat) : portGet t p = portGet s p := congrArg (fun l : Links => l.ports.getD p _) h

theorem portGet_portMod_self {s : State} {p : Nat} (h : p < s.links.ports.length) (f : WeldPort → WeldPort) : portGet (portMod s p f) p = f (portGet s p) :=
  getD_listModify_self h f _

theorem portGet_portMod_keep {γ : Type} (g : WeldPort → γ) {f : WeldPort → WeldPort} (s : State) (p q : Nat) (hf : ∀ w, g (f w) = g w := by intro _; rfl) :
    g (portGet (portMod s p f) q) = g (portGet s q) := getD_listModify_keep g hf _ p q _

/-- A port that is not as after reset stands in the list of ports. -/
theorem portGet_mem {s : State} {p : Nat} (h : ∀ b, portGet s p ≠ WeldPort.reset b) : p < s.links.ports.length := by
  refine Nat.lt_of_not_le (fun hp => h (decide (6 ≤ p)) ?_)
  unfold portGet
  rw [List.getD_eq_getElem?_getD, List.getElem?_eq_none hp]
  rfl

theorem portGet_mem_of_up {s : State} {p : Nat} (h : (portGet s p).state = .up) : p < s.links.ports.length :=
  portGet_mem (fun b e => by rw [e] at h; cases h)

theorem mem_addIfAbsent {α : Type} [BEq α] [LawfulBEq α] (l : List α) (x : α) : x ∈ (if l.contains x then l else l ++ [x]) := by
  split
  · next h => exact List.contains_iff_mem.1 h
  · exact List.mem_append_right _ List.mem_cons_self

/-! ### Received frames (R318, R320) -/

/-- A bad frame is counted at its port and at the device, and is NAKed under its slot's SEQ (R320). -/
theorem badFrame_bad {s : State} {p : Nat} (h : p < s.links.ports.length) (l : Nat) : (portGet (badFrame s p l) p).framesBad = satAdd (portGet s p).framesBad 1 ∧
    seqArriving (portGet s p) l ∈ (portGet (badFrame s p l) p).badSeqs ∧ (portGet (badFrame s p l) p).waiting = (portGet s p).waiting ∧
    counterGet (badFrame s p l) devKey 21 = satAdd (counterGet s devKey 21) 1 := by
  unfold badFrame
  dsimp only
  rw [portGet_congr (count_links ..), portGet_portMod_self h, counterGet_count_devKey _ 21 (Nat.le_refl 1), if_pos rfl]
  exact ⟨rfl, mem_addIfAbsent .., rfl, rfl⟩

theorem counterGet_congr {s t : State} (h : t.units = s.units) (a d : Nat) : counterGet t a d = counterGet s a d :=
  congrArg (fun u : UnitState => sparseGet 0 d u.page.counters) (unitGet_congr (congrArg Units.pages h) a)

/-- A transfer of another epoch is counted; one of a later epoch for which no change is pending fences the device (R54). -/
theorem epochRefused_device (s : State) (e : Nat) : counterGet (epochRefused s e) devKey 7 = satAdd (counterGet s devKey 7) 1 ∧
    ((unitGet s devKey).page.active.toNat < e → (unitGet s devKey).page.pendEpoch.toNat ≠ e →
      (unitGet (epochRefused s e) devKey).flags.fenced = true ∧ stickyRaised (epochRefused s e) devKey 10) := by
  let s1 := count s devKey 7 1
  have counted : counterGet s1 devKey 7 = satAdd (counterGet s devKey 7) 1 := (counterGet_count_devKey s 7 (Nat.le_refl 1) 7).trans (if_pos rfl)
  unfold epochRefused
  dsimp only
  split
  · have unit1 := unitGet_flagsMod_fenced s1 (k := devKey) (f := fun f => { f with fenced := true, missed := false }) rfl
    have raised : stickyRaised (fenceUnit s1 devKey) devKey 10 := stickyRaised_stickySet_any _ devKey (by decide)
    have fenced : (unitGet (fenceUnit s1 devKey) devKey).flags.fenced = true := by
      unfold fenceUnit
      rw [unitGet_stickySet_any _ _ _ (by decide), if_pos rfl, unit1]
    have counted2 : counterGet (fenceUnit s1 devKey) devKey 7 = satAdd (counterGet s devKey 7) 1 := by
      unfold fenceUnit
      rw [counterGet_stickySet _ _ (by decide)]
      unfold counterGet at counted ⊢
      rw [unit1]
      exact counted
    have unit2 := unitGet_flagsMod_fenced (fenceUnit s1 devKey) (k := devKey)
      (f := fun f => { f with refSeen := if f.refSeen.toNat < e then BitVec.ofNat 32 e else f.refSeen }) fenced
    unfold counterGet at counted2 ⊢
    unfold stickyRaised at raised ⊢
    rw [unit2]
    exact ⟨counted2, fun _ _ => ⟨fenced, raised⟩⟩
  · next h => exact ⟨counted, fun h1 h2 => absurd ⟨h1, h2⟩ h⟩

theorem epochRefused_links (s : State) (e : Nat) : (epochRefused s e).links = s.links := by
  unfold epochRefused
  dsimp only
  split
  · exact (stickySet_links ..).trans (count_links ..)
  · exact count_links ..

theorem resolveSeq_waiting (w : WeldPort) (h : FrameHdr) : (resolveSeq w h).waiting = w.waiting := by
  unfold resolveSeq
  split <;> rfl

theorem fillHole_waiting (w : WeldPort) (h : FrameHdr) : (fillHole w h).waiting = w.waiting := by
  unfold fillHole
  split <;> rfl

/-- The state after the first four checks of a frame with data d: its corrections are counted, its SEQ is received, its ACK and NAK have acted. -/
def passedFrame (s : State) (p l n : Nat) (d : List Byte) : State :=
  ackNak (ackFrame (portMod s p (fun w => { w with fecCorr := satAdd w.fecCorr n, fecLane := listModify w.fecLane l (· + n) })) p
    (BitVec.ofNat 32 (parseHdr d).seq)) p (parseHdr d)

theorem passedFrame_waiting (s : State) (p l n : Nat) (d : List Byte) : (portGet (passedFrame s p l n d) p).waiting = (portGet s p).waiting := by
  unfold passedFrame ackNak ackFrame
  exact (portGet_portMod_keep WeldPort.waiting ..).trans ((portGet_portMod_keep WeldPort.waiting ..).trans (portGet_portMod_keep WeldPort.waiting ..))

@[simp] theorem passedFrame_units (s : State) (p l n : Nat) (d : List Byte) : (passedFrame s p l n d).units = s.units := by
  unfold passedFrame ackNak ackFrame
  simp only [portMod_units]

@[simp] theorem passedFrame_mem (s : State) (p l n : Nat) (d : List Byte) : (passedFrame s p l n d).mem = s.mem := by
  unfold passedFrame ackNak ackFrame
  simp only [portMod_mem]

theorem passedFrame_ports (s : State) (p l n : Nat) (d : List Byte) : (passedFrame s p l n d).links.ports.length = s.links.ports.length :=
  (ports_length_portMod ..).trans ((ports_length_portMod ..).trans (ports_length_portMod ..))

/-- The lane of a port takes frames. -/
def hears (s : State) (p l : Nat) : Prop := p < 8 ∧ (portGet s p).state = .up ∧ laneUp (portGet s p) l = true

theorem hears_guard {s : State} {p l : Nat} (h : hears s p l) : (decide (p < 8) && (portGet s p).state == .up && laneUp (portGet s p) l) = true := by
  obtain ⟨hp, hup, hlane⟩ := h
  rw [hup, hlane, decide_eq_true hp]
  rfl

theorem execWeldFrameReceive_bad {s : State} {p l : Nat} {f : List Byte} (h : hears s p l) (hd : frameDecode f = none) :
    execWeldFrameReceive p l f s = .next (badFrame s p l) := by
  unfold execWeldFrameReceive
  simp only [hears_guard h, hd, Bool.not_true, Bool.false_eq_true, if_false]

/-- A frame that decodes with a good CRC and the port's version is judged by its epoch, and then by its flow (R318). -/
theorem execWeldFrameReceive_passed {s : State} {p l n : Nat} {f d : List Byte} (h : hears s p l) (hd : frameDecode f = some (d, n)) (hc : crcOk d = true)
    (hv : (parseHdr d).version = (portGet s p).major.toNat * 256 + (portGet s p).minor.toNat) : execWeldFrameReceive p l f s =
    .next (if (parseHdr d).epoch ≠ (epochAt s (sentStrike s (portGet s p) (BitVec.ofNat 32 (parseHdr d).seq))).toNat then
      epochRefused (portMod (passedFrame s p l n d) p (fun w => fillHole (resolveSeq w (parseHdr d)) (parseHdr d))) (parseHdr d).epoch
    else if (parseHdr d).kind = 1 ∨ (parseHdr d).kind = 2 then
      if flowCheck s (portGet s p) (parseHdr d) then
        portMod (passedFrame s p l n d) p (fun w => { resolveSeq w (parseHdr d) with waiting := w.waiting ++ [(l, d)] })
      else portMod (passedFrame s p l n d) p (fun w => { fillHole (resolveSeq w (parseHdr d)) (parseHdr d) with framesBad := satAdd w.framesBad 1 })
    else passedFrame s p l n d) := by
  have epoch : ∀ t, epochAt (passedFrame s p l n d) t = epochAt s t := fun _ => rfl
  have flow : flowCheck (passedFrame s p l n d) (portGet s p) (parseHdr d) = flowCheck s (portGet s p) (parseHdr d) := rfl
  unfold passedFrame at epoch flow ⊢
  unfold execWeldFrameReceive
  simp only [hears_guard h, hd, hc, hv, epoch, flow, Bool.not_true, Bool.false_eq_true, if_false, bne_self_eq_false, Bool.or_self, bne_iff_ne]
  cases flowCheck s (portGet s p) (parseHdr d) <;> rfl

end Sys2Proof.Laws
end

section
/-!
PROOFS. The frames a Weld port lands, sends again and loses (R319, R321, R322), and with them what its frames do (R318 to R322).
-/
namespace Sys2Proof.Laws

open Sys2Proof.Machine

/-! ### Landing (R118, R309, R310, R319) -/

/-- Place in its flow of the frame with data d that has landed on port p. -/
def landPlace (s : State) (j : Job) (p : Nat) (d : List Byte) : Nat :=
  framePlace s p (parseHdr d).flow (parseHdr d).offset (origLane s j p (parseHdr d))

def landBytes (d : List Byte) : List Byte := (d.drop 48).take (parseHdr d).bytes

/-- The frame no longer waits. -/
def takenFrame (s : State) (p l : Nat) (d : List Byte) : State :=
  portMod s p (fun w => { fillHole w (parseHdr d) with waiting := w.waiting.filter (fun x => !(x.1 == l && x.2 == d)) })

/-- A frame that lands or goes on: nothing waits behind it, and a rerun frame is noted. -/
def placedFrame (s : State) (j : Job) (p l : Nat) (d : List Byte) : State :=
  let t := placeFilled (takenFrame s p l d) p (landPlace s j p d)
  if isRerun d then setJob t j.num (fun k => { k with reruns := k.reruns ++ [landPlace s j p d] }) else t

section
variable {s : State} {p l x : Nat} {d : List Byte} {j : Job}
  (hw : (portGet s p).waiting.find? (fun x => x.1 == l && landDue s (parseHdr x.2)) = some (x, d)) (hj : runningJob s = some j)
include hw hj

theorem execWeldFrameLand_unreadable : execWeldFrameLand p l .unreadable s =
    .next (bufferError (landFails (takenFrame s p l d) p l (landPlace s j p d) (BitVec.ofNat 32 (parseHdr d).seq)) p) := by
  unfold execWeldFrameLand
  simp only [hw, hj]
  rfl

theorem execWeldFrameLand_mismatch (hd : (flowAt j.plan (parseHdr d).flow).dst = j.pos) : execWeldFrameLand p l .mismatch s =
    .next (stickySet (count (landFails (takenFrame s p l d) p l (landPlace s j p d) (BitVec.ofNat 32 (parseHdr d).seq)) devKey 4 1) devKey 9) := by
  unfold execWeldFrameLand
  simp only [hw, hj, hd, beq_self_eq_true]
  rfl

theorem execWeldFrameLand_here (hd : (flowAt j.plan (parseHdr d).flow).dst = j.pos) : execWeldFrameLand p l .ok s =
    .next (setJob (placedFrame s j p l d) j.num (fun k => { k with flowIn := sparseSet [] (landPlace s j p d) (landBytes d) k.flowIn })) := by
  unfold execWeldFrameLand
  simp only [hw, hj, hd, beq_self_eq_true, if_true]
  rfl

theorem execWeldFrameLand_forwards (hd : (flowAt j.plan (parseHdr d).flow).dst ≠ j.pos) {c : LandCheck} (hc : c ∈ [LandCheck.ok, .mismatch]) :
    execWeldFrameLand p l c s = .next (forwardFrame (placedFrame s j p l d) j (parseHdr d) (landPlace s j p d) (landBytes d)) := by
  have away : ((flowAt j.plan (parseHdr d).flow).dst == j.pos) = false := beq_false_of_ne hd
  unfold execWeldFrameLand
  simp only [hw, hj, away, Bool.false_eq_true, if_false]
  rcases List.mem_cons.1 hc with rfl | hc
  · rfl
  · cases List.mem_singleton.1 hc
    rfl

omit hj in
theorem waits_ports : p < s.links.ports.length := by
  refine portGet_mem (fun b e => ?_)
  rw [e] at hw
  cases hw

end

/-- A frame that fails on landing is bad, and NAKed under its own SEQ (R321). -/
theorem landFails_bad {s : State} {p : Nat} (h : p < s.links.ports.length) (l key : Nat) (d : List Byte) (q : BitVec 32) :
    q ∈ (portGet (landFails (takenFrame s p l d) p l key q) p).badSeqs ∧
    (portGet (landFails (takenFrame s p l d) p l key q) p).framesBad = satAdd (portGet s p).framesBad 1 ∧
    (landFails (takenFrame s p l d) p l key q).seq = s.seq := by
  have taken : (portGet (takenFrame s p l d) p).framesBad = (portGet s p).framesBad := portGet_portMod_keep WeldPort.framesBad s p p (fun w => by
    unfold fillHole
    split <;> rfl)
  have hp : p < (takenFrame s p l d).links.ports.length := Nat.lt_of_lt_of_eq h (ports_length_portMod ..).symm
  unfold landFails
  rw [portGet_congr (count_links ..), portGet_portMod_self hp, count_seq, ← taken]
  exact ⟨mem_addIfAbsent .., rfl, rfl⟩

theorem landFails_counter (s : State) (p l key : Nat) (q : BitVec 32) (d : Nat) : counterGet (landFails s p l key q) devKey d =
    if d = 21 then satAdd (counterGet s devKey d) 1 else counterGet s devKey d := counterGet_count_devKey _ 21 (Nat.le_refl 1) d

theorem memPart_links (s t : State) : (memPart s t).links = s.links := rfl
theorem memPart_seq (s t : State) : (memPart s t).seq = s.seq := rfl

theorem bufferError_part (s : State) (p : Nat) : (bufferError s p).links = s.links ∧ (bufferError s p).seq = s.seq := by
  unfold bufferError drawFree
  dsimp only
  rw [eccLog_part, memPart_links, memPart_seq]
  exact ⟨rfl, rfl⟩

theorem setJob_jobs (s : State) (n : Word) (f : Job → Job) : (setJob s n f).seq.jobs = s.seq.jobs.map (fun k => if k.num = n then f k else k) := by
  unfold setJob modJobs
  simp only [beq_iff_eq]

/-- The jobs after a frame was placed and one more change of its job. -/
theorem placedFrame_jobs (s : State) (j : Job) (p l : Nat) (d : List Byte) (f : Job → Job) : (setJob (placedFrame s j p l d) j.num f).seq.jobs =
    s.seq.jobs.map (fun k => if k.num = j.num then f { k with reruns := if isRerun d then k.reruns ++ [landPlace s j p d] else k.reruns } else k) := by
  rw [setJob_jobs]
  unfold placedFrame
  cases isRerun d with
  | false => exact List.map_congr_left (fun k _ => by simp)
  | true =>
    simp only [if_true]
    rw [setJob_jobs, List.map_map]
    refine List.map_congr_left (fun k _ => ?_)
    by_cases e : k.num = j.num <;> simp [e]

/-! ### Re-sending and loss (R321, R322) -/

/-- Frames that are neither messages nor holes: what the sending of a control message leaves of every port, and of the device's counters. -/
def framesOf (s : State) (p : Nat) : List SentFrame × List (BitVec 32) × Word :=
  ((portGet s p).sent, (portGet s p).badSeqs, counterGet s devKey 22)

theorem sendOnPort_framesOf (s : State) (q : Nat) (m : CtlMsg) (p : Nat) : framesOf (sendOnPort s q m) p = framesOf s p := by
  have counted : counterGet (sendOnPort s q m) devKey 22 = counterGet s devKey 22 := counterGet_congr (sendOnPort_units ..) ..
  unfold framesOf
  rw [counted]
  unfold sendOnPort
  split
  · rw [portGet_portMod_keep WeldPort.sent, portGet_portMod_keep WeldPort.badSeqs]
  · rfl

theorem routeMsg_framesOf (s : State) (m : CtlMsg) (p : Nat) : framesOf (routeMsg s m) p = framesOf s p := by
  unfold routeMsg
  split
  · exact sendOnPort_framesOf ..
  · unfold framesOf
    rw [portGet_congr (count_links ..), counterGet_count_devKey _ 23 (Nat.le_refl 1), if_neg (by decide)]

/-- The copy that port p sends again on lane l of the frame f (R321). -/
def resentCopy (s : State) (p l : Nat) (f : SentFrame) : SentFrame :=
  frameCopy s p l 2 (parseHdr f.data).offset (parseHdr f.data).flow ((f.data.drop 48).take (parseHdr f.data).bytes)
    (if (parseHdr f.data).kind = 2 then (parseHdr f.data).orig else (parseHdr f.data).seq) f.ctl

/-- The copies a port keeps once it has sent the frame f again. -/
def resentCopies (s : State) (p l : Nat) (f : SentFrame) : List SentFrame :=
  if (parseHdr f.data).kind = 2 then (portGet s p).sent.map (fun x => if x.seq == f.seq then resentCopy s p l f else x)
  else (portGet s p).sent.map (fun x => if x.seq == f.seq then { x with naked := none } else x) ++ [resentCopy s p l f]

theorem execWeldFrameResend_eq {s : State} {p l : Nat} {f : SentFrame} {rest : List SentFrame} (hd : resendDue (portGet s p) = f :: rest)
    (hup : (portGet s p).state = .up) (hl : laneUp (portGet s p) l = true) (hx : latExceeded s p = false) (ho : slotOwner s p l = none)
    (hs : (portGet s p).sent.any (fun x => x.seq == seqOf (portGet s p) l && x.naked.isNone) = false) : execWeldFrameResend p l s =
    .next (count (emitOut (portMod s p (fun w => { w with sent := resentCopies s p l f, resends := satAdd w.resends 1 }))
      (.frame p l (frameEncode (resentCopy s p l f).data))) devKey 20 1) := by
  unfold execWeldFrameResend
  simp only [hd, hup, hl, hx, ho, hs]
  rfl

theorem execWeldFrameResend_none {s : State} {p l : Nat} (h : resendDue (portGet s p) = [] ∨ (slotOwner s p l).isSome = true ∨ latExceeded s p = true) :
    execWeldFrameResend p l s = .next s := by
  unfold execWeldFrameResend
  dsimp only
  split
  · rfl
  · next hd =>
    refine congrArg Host.Outcome.next (if_neg ?_)
    rcases h with h | h | h
    · rw [hd] at h
      cases h
    · cases ho : slotOwner s p l with
      | none => rw [ho] at h; cases h
      | some => simp
    · simp [h]

/-- A frame is lost: at its sender, at its receiver, or at both (R322). -/
def lostFrame (s : State) (p : Nat) (q : BitVec 32) (mine theirs : Bool) : State :=
  count (portMod s p (fun w => { w with
    sent := if mine then w.sent.filter (fun f => f.seq != q) else w.sent
    badSeqs := if theirs then w.badSeqs.filter (· != q) else w.badSeqs
    holes := if theirs then w.holes.filter (fun x => x.1 != q) else w.holes })) devKey 22 (boolNat mine + boolNat theirs)

theorem lostFrame_framesOf {s : State} {p : Nat} (h : p < s.links.ports.length) (q : BitVec 32) {mine theirs : Bool} (hn : boolNat mine + boolNat theirs = 1) :
    framesOf (lostFrame s p q mine theirs) p = (if mine then (portGet s p).sent.filter (fun f => f.seq != q) else (portGet s p).sent,
      if theirs then (portGet s p).badSeqs.filter (· != q) else (portGet s p).badSeqs, satAdd (counterGet s devKey 22) 1) := by
  unfold framesOf lostFrame
  rw [hn, portGet_congr (count_links ..), portGet_portMod_self h, counterGet_count_devKey _ 22 (Nat.le_refl 1), if_pos rfl]
  rfl

/-- Messages that are sent again leave the frames of every port. -/
theorem resent_framesOf (p q : Nat) (ms : List CtlMsg) (s : State) :
    framesOf (ms.foldl (fun t m => if m.dst = 0xFFFF then sendOnPort t q m else routeMsg t m) s) p = framesOf s p :=
  foldl_keep (fun t m => if m.dst = 0xFFFF then sendOnPort t q m else routeMsg t m) (fun t => framesOf t p) (fun t m => by
    split
    · exact sendOnPort_framesOf ..
    · exact routeMsg_framesOf ..) ms s

/-- A frame of this port that is 64 strikes old has not been resolved (R322). -/
def lostHere (s : State) (p : Nat) (q : BitVec 32) : Bool := (portGet s p).sent.any (fun f => f.seq == q && decide (f.strike + 64 ≤ (portGet s p).age))

/-- A bad frame of the peer that is 64 strikes old has not been resolved (R322). -/
def lostThere (s : State) (p : Nat) (q : BitVec 32) : Bool :=
  (portGet s p).badSeqs.contains q && decide (64 ≤ (seqArriving (portGet s p) 7 - q).toNat / 8)

/-- What a lost frame leaves of the copies, of the bad SEQs and of the lost frames counted. -/
theorem execWeldFrameLost_framesOf {s : State} {p : Nat} {q : BitVec 32} (hp : p < s.links.ports.length)
    (h : boolNat (lostHere s p q) + boolNat (lostThere s p q) = 1) : ∃ t, execWeldFrameLost p q s = .next t ∧
    framesOf t p = (if lostHere s p q then (portGet s p).sent.filter (fun f => f.seq != q) else (portGet s p).sent,
      if lostThere s p q then (portGet s p).badSeqs.filter (· != q) else (portGet s p).badSeqs, satAdd (counterGet s devKey 22) 1) := by
  have lost : (lostHere s p q || lostThere s p q) = true := by
    cases hm : lostHere s p q <;> cases ht : lostThere s p q <;> simp_all [boolNat]
  rw [← lostFrame_framesOf hp q h]
  exact ⟨_, congrArg Host.Outcome.next (if_pos lost), resent_framesOf p p _ (lostFrame s p q (lostHere s p q) (lostThere s p q))⟩

end Sys2Proof.Laws

namespace Sys2Proof

open Machine Laws

/-- Settles O49. Reception is one equation for the frames that pass the first checks (`execWeldFrameReceive_passed`), landing one for each check that
may fail (`execWeldFrameLand_here` and its like), and loss one for what it leaves (`execWeldFrameLost_framesOf`). -/
theorem frameTraffic : Obligations.FrameTraffic := by
  unfold Obligations.FrameTraffic
  refine ⟨fun s p l f hp hup hl hd => ?_, fun s p l n f d hp hup hl hd hc hv he hkind hflow => ?_, fun s p l n f d hp hup hl hd hc hv he => ?_,
    fun s p l x d j hw hj => ?_, fun s p l f rest hp hlen hd hup hl hx ho hs => ?_, fun s p l h => execWeldFrameResend_none h,
    fun s p q hp hlen hb hm => ?_, fun s p q hp hlen hb hage hm => ?_⟩
  · exact ⟨_, execWeldFrameReceive_bad ⟨hp, hup, hl⟩ hd, badFrame_bad (portGet_mem_of_up hup) l⟩
  · have hx := execWeldFrameReceive_passed ⟨hp, hup, hl⟩ hd hc hv
    rw [if_neg (not_not.2 he), if_pos hkind, if_pos hflow] at hx
    refine ⟨_, hx, ?_, (portMod_units ..).trans (passedFrame_units ..), (portMod_mem ..).trans (passedFrame_mem ..)⟩
    rw [portGet_portMod_self (Nat.lt_of_lt_of_eq (portGet_mem_of_up hup) (passedFrame_ports ..).symm), passedFrame_waiting]
  · have hx := execWeldFrameReceive_passed ⟨hp, hup, hl⟩ hd hc hv
    rw [if_pos he] at hx
    have units : (portMod (passedFrame s p l n d) p (fun w => fillHole (resolveSeq w (parseHdr d)) (parseHdr d))).units = s.units :=
      (portMod_units ..).trans (passedFrame_units ..)
    obtain ⟨counted, fenced⟩ := epochRefused_device
      (portMod (passedFrame s p l n d) p (fun w => fillHole (resolveSeq w (parseHdr d)) (parseHdr d))) (parseHdr d).epoch
    rw [counterGet_congr units] at counted
    rw [unitGet_congr (congrArg Units.pages units)] at fenced
    refine ⟨_, hx, ?_, counted, fenced⟩
    rw [portGet_congr (epochRefused_links ..), portGet_portMod_keep WeldPort.waiting (hf := fun w => (fillHole_waiting ..).trans (resolveSeq_waiting ..)),
      passedFrame_waiting]
  · intro h key bytes runs bad
    have hp := waits_ports hw
    have failed := landFails_bad hp l (landPlace s j p d) d (BitVec.ofNat 32 (parseHdr d).seq)
    refine ⟨⟨_, execWeldFrameLand_unreadable hw hj, ?_⟩, fun hd => ⟨⟨_, execWeldFrameLand_here hw hj hd, placedFrame_jobs ..⟩, ?_⟩,
      fun hd hc c hx => ?_, fun hd hc ho c hx => ?_⟩
    · obtain ⟨links, seq⟩ := bufferError_part (landFails (takenFrame s p l d) p l (landPlace s j p d) (BitVec.ofNat 32 (parseHdr d).seq)) p
      obtain ⟨hbad, hcount, hseq⟩ := failed
      exact ⟨by rw [portGet_congr links]; exact hbad, by rw [portGet_congr links]; exact hcount, seq.trans hseq⟩
    · let t := landFails (takenFrame s p l d) p l (landPlace s j p d) (BitVec.ofNat 32 (parseHdr d).seq)
      have counter : ∀ c, counterGet (stickySet (count t devKey 4 1) devKey 9) devKey c = if c = 4 then satAdd (counterGet t devKey c) 1 else counterGet t devKey c :=
        fun c => (counterGet_stickySet _ _ (by decide) ..).trans (counterGet_count_devKey t 4 (Nat.le_refl 1) c)
      obtain ⟨hbad, hcount, hseq⟩ := failed
      have port : portGet (stickySet (count t devKey 4 1) devKey 9) p = portGet t p := portGet_congr ((stickySet_links ..).trans (count_links ..)) p
      refine ⟨_, execWeldFrameLand_mismatch hw hj hd, ⟨by rw [port]; exact hbad, by rw [port]; exact hcount, ?_⟩, ?_, ?_,
        stickyRaised_stickySet_any _ _ (by decide)⟩
      · exact (stickySet_seq ..).trans ((count_seq ..).trans hseq)
      · exact (counter 4).trans (congrArg (satAdd · 1) (landFails_counter ..))
      · exact (counter 21).trans (landFails_counter ..)
    · refine ⟨_, execWeldFrameLand_forwards hw hj hd hx, ?_⟩
      unfold forwardFrame
      rw [show j.carried.find? (fun c => c.2 == landPlace s j p d) = none from hc]
      exact placedFrame_jobs ..
    · obtain ⟨c, hc⟩ := Option.isSome_iff_exists.1 hc
      have once : isRerun d = false := by
        unfold isRerun
        simp [beq_false_of_ne (show (parseHdr d).orig ≠ 0xFFFFFFFF from ho)]
      refine ⟨_, execWeldFrameLand_forwards hw hj hd hx, ?_⟩
      unfold forwardFrame placedFrame
      rw [show j.carried.find? (fun c => c.2 == landPlace s j p d) = some c from hc, once]
      dsimp only
      rw [if_neg (show (parseHdr d).orig ≠ 0xFFFFFFFF from ho)]
      rfl
  · refine ⟨_, execWeldFrameResend_eq hd hup hl hx ho hs, ?_, (counterGet_count_devKey _ 20 (Nat.le_refl 1) 20).trans (if_pos rfl), ?_⟩
    · rw [portGet_congr (count_links ..), portGet_congr (emitOut_links ..), portGet_portMod_self (by omega)]
    · rw [count_out]
      exact List.length_append
  · have here : lostHere s p q = true := hm
    have there : lostThere s p q = false := by
      unfold lostThere
      rw [hb]
      rfl
    obtain ⟨t, hx, left⟩ := execWeldFrameLost_framesOf (s := s) (p := p) (q := q) (by omega) (by rw [here, there]; rfl)
    rw [here, there] at left
    obtain ⟨hsent, hrest⟩ := Prod.mk.inj left
    exact ⟨t, hx, hsent, (Prod.mk.inj hrest).2⟩
  · have here : lostHere s p q = false := by
      unfold lostHere
      refine List.any_eq_false.2 (fun f hf => ?_)
      rw [Bool.eq_false_iff.2 (List.any_eq_false.1 hm f hf)]
      exact Bool.false_ne_true
    have there : lostThere s p q = true := by
      unfold lostThere
      rw [hb, decide_eq_true hage]
      rfl
    obtain ⟨t, hx, left⟩ := execWeldFrameLost_framesOf (s := s) (p := p) (q := q) (by omega) (by rw [here, there]; rfl)
    rw [here, there] at left
    obtain ⟨-, hrest⟩ := Prod.mk.inj left
    obtain ⟨hbad, hcount⟩ := Prod.mk.inj hrest
    exact ⟨t, hx, hbad, hcount⟩

end Sys2Proof
end

section
/-!
PROOFS. The queue pairs of the Spur ports: their states, and the entries they issue (R335 to R337).
-/
namespace Sys2Proof.Laws

open Sys2Proof.Machine

/-! ### One queue pair -/

theorem qpGet_congr {s t : State} (h : t.links = s.links) (p q : Nat) : qpGet t p q = qpGet s p q :=
  congrArg (fun l : Links => sparseGet QueuePair.reset q (l.spur.getD p SpurPort.reset).qps) h

theorem qpGet_qpMod {s : State} {p q : Nat} (hp : p < s.links.spur.length) {f : QueuePair → QueuePair} (h : f (qpGet s p q) ≠ QueuePair.reset) :
    qpGet (qpMod s p q f) p q = f (qpGet s p q) := by
  have port : spurGet (qpMod s p q f) p = { spurGet s p with qps := sparseSet QueuePair.reset q (f (qpGet s p q)) (spurGet s p).qps } :=
    getD_listModify_self hp _ _
  unfold qpGet at h ⊢
  rw [port]
  exact (sparseGet_sparseSet_of_ne h).trans (if_pos rfl)

theorem qp_ne_reset_of_state {x : QueuePair} (h : x.state ≠ .reset) : x ≠ QueuePair.reset := fun e => h (congrArg QueuePair.state e)
theorem qp_ne_reset_of_inflight {x : QueuePair} (h : x.inflight ≠ []) : x ≠ QueuePair.reset := fun e => h (congrArg QueuePair.inflight e)
theorem qp_ne_reset_of_ctx {x : QueuePair} (h : byteAt x.ctx 2 ≠ 0) : x ≠ QueuePair.reset := fun e => h (by rw [e]; rfl)

theorem spur_length_qpMod (s : State) (p q : Nat) (f : QueuePair → QueuePair) : (qpMod s p q f).links.spur.length = s.links.spur.length := length_listModify ..

/-- The queue pairs of every port are the same in two states. -/
def SameQueuePairs (s t : State) : Prop := t.links.spur.length = s.links.spur.length ∧ ∀ p, (spurGet t p).qps = (spurGet s p).qps

theorem SameQueuePairs.of_links {s t : State} (h : t.links = s.links) : SameQueuePairs s t :=
  ⟨congrArg (fun l : Links => l.spur.length) h, fun p => congrArg (fun l : Links => (l.spur.getD p SpurPort.reset).qps) h⟩

theorem SameQueuePairs.trans {s t u : State} (h1 : SameQueuePairs s t) (h2 : SameQueuePairs t u) : SameQueuePairs s u := by
  obtain ⟨len1, qps1⟩ := h1
  obtain ⟨len2, qps2⟩ := h2
  exact ⟨len2.trans len1, fun p => (qps2 p).trans (qps1 p)⟩

theorem SameQueuePairs.qpGet {s t : State} (h : SameQueuePairs s t) (p q : Nat) : qpGet t p q = qpGet s p q :=
  congrArg (sparseGet QueuePair.reset q) (h.2 p)

theorem spurMod_sameQueuePairs (s : State) (p : Nat) {f : SpurPort → SpurPort} (hf : ∀ x, (f x).qps = x.qps) : SameQueuePairs s (spurMod s p f) :=
  ⟨length_listModify .., fun q => getD_listModify_keep SpurPort.qps hf _ p q _⟩

theorem readRef_links (s : State) (a n : Nat) : (readRef s a n).1.links = s.links := by rw [readRef_part]; rfl
theorem memWrite_links (s : State) (a : Nat) (b : List Byte) : (memWrite s a b).links = s.links := by rw [memWrite_part]; rfl

theorem writeQpState_links (s : State) (p q : Nat) (x : QpState) : (writeQpState s p q x).links = s.links := by
  unfold writeQpState
  split
  · exact memWrite_links ..
  · rfl

theorem loadCtx_links {s s1 : State} {p q : Nat} {c : Option (List Byte)} (h : loadCtx s p q = (s1, c)) : s1.links = s.links := by
  have first : (loadCtx s p q).1.links = s.links := by
    unfold loadCtx
    split <;> next e => exact (congrArg (fun r : State × _ => r.1.links) e).symm.trans (readRef_links ..)
  rw [h] at first
  exact first

theorem readEntry_links (s : State) (p q : Nat) (i : BitVec 32) : (readEntry s p q i).1.links = s.links := by
  unfold readEntry
  dsimp only
  split <;> next e => exact (congrArg (fun r : State × _ => r.1.links) e).symm.trans (readRef_links ..)

/-! ### Completions leave the queue pairs (R338) -/

theorem postCq_sameQueuePairs (s : State) (p c : Nat) (e : List Byte) : SameQueuePairs s (postCq s p c e) := by
  rw [postCq]
  generalize (spurGet s p).ctxBase.toNat + 0x40000 + 32 * c = a
  have read := readRef_links s a 32
  split
  · next h =>
    rw [h] at read
    exact .of_links read
  · next s1 b h =>
    rw [h] at read
    dsimp only
    split
    · exact .of_links read
    · exact (SameQueuePairs.of_links ((memWrite_links ..).trans read)).trans (spurMod_sameQueuePairs _ p (fun _ => rfl))

theorem postEntry_sameQueuePairs (s : State) (p q : Nat) (i : BitVec 32) (e : List Byte) (st n r : Nat) : SameQueuePairs s (postEntry s p q i e st n r) := by
  unfold postEntry
  dsimp only
  split
  · exact .of_links rfl
  · exact postCq_sameQueuePairs ..

theorem settleEntry_sameQueuePairs (s : State) (p q : Nat) (i : BitVec 32) (e : List Byte) (st n r : Nat) : SameQueuePairs s (settleEntry s p q i e st n r) := by
  unfold settleEntry drawFree
  extract_lets d s1
  have h1 : SameQueuePairs s s1 := by
    unfold s1
    split
    · exact .of_links ((count_links ..).trans (stickySet_links ..))
    · exact .of_links rfl
  split
  · exact (SameQueuePairs.of_links rfl).trans (postEntry_sameQueuePairs ..)
  · exact h1.trans (postEntry_sameQueuePairs ..)

/-! ### A queue pair in ERROR stays in ERROR while it flushes (R338) -/

def InError (p q : Nat) (s : State) : Prop := p < s.links.spur.length ∧ (qpGet s p q).state = .error

theorem InError.of_same {p q : Nat} {s t : State} (h : InError p q s) (hs : SameQueuePairs s t) : InError p q t := by
  obtain ⟨hp, he⟩ := h
  exact ⟨Nat.lt_of_lt_of_eq hp hs.1.symm, by rw [hs.qpGet]; exact he⟩

theorem qpMod_inError {p q : Nat} {s : State} {f : QueuePair → QueuePair} (hp : p < s.links.spur.length) (hf : (f (qpGet s p q)).state = .error) :
    InError p q (qpMod s p q f) :=
  ⟨Nat.lt_of_lt_of_eq hp (spur_length_qpMod ..).symm, by rw [qpGet_qpMod hp (qp_ne_reset_of_state (by rw [hf]; decide))]; exact hf⟩

theorem foldl_inError {β : Type} {p q : Nat} {f : State → β → State} (h : ∀ t x, SameQueuePairs t (f t x)) : ∀ (l : List β) {s : State}, InError p q s →
    InError p q (l.foldl f s)
  | [], _, hs => hs
  | x :: l, s, hs => foldl_inError h l (hs.of_same (h s x))

theorem flushRing_inError {p q : Nat} : ∀ (n : Nat) {s : State}, InError p q s → InError p q (flushRing p q n s)
  | 0, _, h => h
  | n + 1, s, h => by
    have read := readEntry_links s p q (qpGet s p q).head
    rw [flushRing]
    dsimp only
    split
    · exact h
    · have h1 := h.of_same (.of_links read)
      have h2 : InError p q (if (qpGet s p q).inflight.any (fun f => f.cancelled && f.index == (qpGet s p q).head) then (readEntry s p q (qpGet s p q).head).1
          else settleEntry (readEntry s p q (qpGet s p q).head).1 p q (qpGet s p q).head ((readEntry s p q (qpGet s p q).head).2.getD []) 0x0800 0 0xFFFFFFFF) := by
        split
        · exact h1
        · exact h1.of_same (settleEntry_sameQueuePairs ..)
      exact flushRing_inError n (qpMod_inError h2.1 h2.2)

theorem flushQp_inError {p q : Nat} {s : State} (h : InError p q s) : InError p q (flushQp s p q) ∧ (qpGet (flushQp s p q) p q).inflight = [] := by
  unfold flushQp
  extract_lets x s1 held s2 s3
  have h1 : InError p q s1 := foldl_inError (fun t f => settleEntry_sameQueuePairs ..) _ h
  have h2 : InError p q s2 := qpMod_inError h1.1 h1.2
  have h3 : InError p q s3 := by
    unfold s3
    split
    · exact h2.of_same (.of_links rfl)
    · exact h2
  obtain ⟨hp, he⟩ := flushRing_inError (ringCount x.head x.tail) h3
  refine ⟨qpMod_inError hp he, ?_⟩
  rw [qpGet_qpMod hp (qp_ne_reset_of_state (by dsimp only; rw [he]; decide))]

theorem qpFail_error {p q : Nat} {s : State} (hp : p < s.links.spur.length) :
    (qpGet (qpFail s p q) p q).state = .error ∧ (qpGet (qpFail s p q) p q).inflight = [] := by
  have failed : InError p q (qpMod s p q (fun x => { x with state := .error, nvQid := none })) := qpMod_inError hp rfl
  obtain ⟨⟨-, he⟩, hi⟩ := flushQp_inError (failed.of_same (.of_links (writeQpState_links _ p q .error)))
  exact ⟨he, hi⟩

/-! ### QP_CMD (R337) -/

section
variable {s s1 : State} {p q : Nat} {c : List Byte} (hp : p < 2) (hq : q < 2048) (hl : loadCtx s p q = (s1, some c))
include hp hq

theorem qpValid_of_lt : qpValid p q = true := decide_eq_true ⟨hp, hq⟩

include hl

theorem qpCmd_reset : qpCmd p q .reset s = writeQpState (qpMod s1 p q (fun _ => { QueuePair.reset with ctx := c })) p q .reset := by
  unfold qpCmd qpMove
  rw [qpValid_of_lt hp hq, hl]
  rfl

theorem qpCmd_error : qpCmd p q .error s = qpFail (qpMod s1 p q (fun g => { g with ctx := c })) p q := by
  unfold qpCmd qpMove
  rw [qpValid_of_lt hp hq, hl]
  rfl

/-- What a queue pair becomes when it takes a state. -/
def tookState (x : QpState) (c : List Byte) (g : QueuePair) : QueuePair :=
  { g with
    state := x, ctx := c,
    rqPsn := if x = .rtr then BitVec.ofNat 24 (fieldN c 0x30 4) else g.rqPsn,
    sqPsn := if x = .rts ∧ g.state ≠ .rts then BitVec.ofNat 24 (fieldN c 0x2C 4) else g.sqPsn }

theorem qpCmd_moves {x : QpState} (hx : x ≠ .reset) (hx' : x ≠ .error) : qpCmd p q x s =
    if qpLegal (qpGet s p q).state x && ctxOk s1 c then writeQpState (qpMod s1 p q (tookState x c)) p q x
    else qpFail (qpMod s1 p q (fun g => { g with ctx := c })) p q := by
  rw [← qpGet_congr (loadCtx_links hl)]
  unfold qpCmd qpMove
  rw [qpValid_of_lt hp hq, hl, if_pos rfl]
  cases x with
  | reset => exact absurd rfl hx
  | error => exact absurd rfl hx'
  | init => rfl
  | rtr => rfl
  | rts => rfl

/-- A legal change with a usable context takes the queue pair into the state. -/
theorem qpCmd_took {x : QpState} (hx : x ≠ .reset) (hx' : x ≠ .error) (hlen : p < s.links.spur.length) (hlegal : qpLegal (qpGet s p q).state x = true)
    (hctx : ctxOk s1 c = true) : qpGet (qpCmd p q x s) p q = tookState x c (qpGet s p q) := by
  have links := loadCtx_links hl
  rw [qpCmd_moves hp hq hl hx hx', hlegal, hctx, if_pos (by rfl), qpGet_congr (writeQpState_links ..),
    qpGet_qpMod (by rw [links]; exact hlen) (qp_ne_reset_of_state hx), qpGet_congr links]

end

end Sys2Proof.Laws
end

section
/-!
PROOFS. The work entries that a queue pair issues (R335, R336), and with them the states of a queue pair (R335 to R337).
-/
namespace Sys2Proof.Laws

open Sys2Proof.Machine

/-! ### The entry at the issue point -/

/-- The readable entry at the issue point of a queue pair that no plan uses goes to its command, before its deadline (R51). -/
theorem serveEntry_runs {s s1 : State} {p q : Nat} {i : BitVec 32} {e : List Byte} (hi : issueIndex s p q = some (i, none))
    (he : readEntry s p q i = (s1, some e)) (hd : entryDeadline (qpGet s p q) e = 0 ∨ now s ≤ entryDeadline (qpGet s p q) e)
    {mine : List Byte → Bool} (hm : mine e = true) (run : State → Option PlanUse → BitVec 32 → List Byte → State) :
    serveEntry s p q mine run = run s1 none i e := by
  have intime : ¬(entryDeadline (qpGet s p q) e ≠ 0 ∧ entryDeadline (qpGet s p q) e < now s) := by omega
  unfold serveEntry
  simp only [hi, he, hm, if_neg intime, Bool.not_true, Bool.false_eq_true, if_false]

section
variable {s s1 s2 : State} {p q op : Nat} {i : BitVec 32} {e b : List Byte} (hp : p < 2) (hq : q < 2048) (hk : qpKind (qpGet s p q) = 0)
  (hi : issueIndex s p q = some (i, none)) (he : readEntry s p q i = (s1, some e)) (hr : rcReserved e = false)
  (hf : bit (byteAt e 1) 1 = false ∨ readsOpen (qpGet s p q) = 0)
  (hd : entryDeadline (qpGet s p q) e = 0 ∨ now s ≤ entryDeadline (qpGet s p q) e) (hb : rcData s1 e = (s2, some b)) (ho : rcOp e = op)
include hp hq hk hi he hr hf hd hb ho

/-- An RC command's entry: sent and held outstanding, or refused where its check handover fails (R335, R310). -/
theorem issueRc_issues (ok : Bool) (h16 : op = 5 → readsOpen (qpGet s p q) < 16) : issueRc p q op ok s =
    if ok then pushInflight (rcEmit (takeEntry s2 p q none (if op = 5 then rcLen e else 0)) p q e b) p q (newInflight (qpGet s p q) i e (rcLen e) 0)
    else refuseEntry (sourceMismatch s2 (rcLocal e)) p q none i e 0x0401 := by
  have guard : (qpValid p q && qpKind (qpGet s p q) == 0) = true := by
    rw [qpValid_of_lt hp hq, hk]
    rfl
  have mine : (rcOp e == op || rcReserved e) = true := by
    rw [ho, beq_self_eq_true]
    rfl
  have fence : (bit (byteAt e 1) 1 && readsOpen (qpGet s p q) != 0) = false := by
    rcases hf with h | h
    · rw [h]; rfl
    · rw [h]; exact Bool.and_false _
  have reads : ¬(op = 5 ∧ 16 ≤ readsOpen (qpGet s p q)) := fun ⟨h5, h⟩ => Nat.not_le.2 (h16 h5) h
  unfold issueRc
  dsimp only
  rw [guard, if_neg (by decide), serveEntry_runs hi he hd mine]
  simp only [hr, fence, if_neg reads, hb, Bool.false_eq_true, if_false]
  cases ok <;> rfl

/-- The commands but for READ carry their data. -/
theorem issueRc_sends (h5 : op ≠ 5) : issueRc p q op true s =
    pushInflight (rcEmit (takeEntry s2 p q none 0) p q e b) p q (newInflight (qpGet s p q) i e (rcLen e) 0) := by
  rw [issueRc_issues hp hq hk hi he hr hf hd hb ho true (fun h => absurd h h5), if_pos rfl, if_neg h5]

theorem issueRc_mismatch (h5 : op ≠ 5) : issueRc p q op false s = refuseEntry (sourceMismatch s2 (rcLocal e)) p q none i e 0x0401 := by
  rw [issueRc_issues hp hq hk hi he hr hf hd hb ho false (fun h => absurd h h5), if_neg Bool.false_ne_true]

end

/-- A known NVMe command goes out as a capsule and is held outstanding (R336). -/
theorem issueNvme_issues {s s1 : State} {p q : Nat} {i : BitVec 32} {e : List Byte} (hp : p < 2) (hq : q < 2048) (hk : isNvme (qpGet s p q) = true)
    (hi : issueIndex s p q = some (i, none)) (he : readEntry s p q i = (s1, some e)) (hn : nvKnown s (qpGet s p q) e = true)
    (hd : entryDeadline (qpGet s p q) e = 0 ∨ now s ≤ entryDeadline (qpGet s p q) e) {mine : List Byte → Bool} (hm : mine e = true) {io : Bool} {len : Nat}
    (hl : (if io then nvLen (qpGet s p q) e else 0) = len) (hmax : len ≤ 2 ^ 20) :
    issueNvme p q mine io s = pushInflight (nvEmit (takeEntry s1 p q none len) p q i e) p q (newInflight (qpGet s p q) i e len 0) := by
  have guard : (qpValid p q && isNvme (qpGet s p q)) = true := by
    rw [qpValid_of_lt hp hq, hk]
    rfl
  have known : (mine e || !nvKnown s (qpGet s p q) e) = true := by
    rw [hm]
    rfl
  unfold issueNvme
  dsimp only
  rw [guard, if_neg (by decide), serveEntry_runs hi he hd known, hl, hn, decide_eq_false (Nat.not_lt.2 hmax)]
  rfl

end Sys2Proof.Laws

namespace Sys2Proof

open Machine Laws

/-- Settles O51. A legal change is one equation (`qpCmd_took`), an illegal one ends in ERROR (`qpFail_error`); every command issues its entry in the same
way (`issueRc_issues`, `issueNvme_issues`). -/
theorem spurQueuePairs : Obligations.SpurQueuePairs := by
  unfold Obligations.SpurQueuePairs
  refine ⟨fun s s1 p q c hp hq hlen hc hb hl => ?_, fun s s1 s2 p q i e b hp hq hk hi he hr hf hd hdata => ⟨fun x hx ho => ?_, fun x hx ho => ?_, fun ho h16 => ?_⟩,
    fun s p q e b => ⟨_, rfl, rfl⟩, fun s s1 p q i e hp hq hk hi he hn hd => ⟨fun ho hqid hlen => ?_, fun x hx hm => ?_⟩⟩
  · have links := loadCtx_links hl
    have len : p < s.links.spur.length := by omega
    have len1 : p < s1.links.spur.length := by rw [links]; exact len
    refine ⟨?_, fun hst hctx => ?_, fun hst hctx => ?_, fun hst hctx => ?_, fun hbad => ?_, ?_⟩
    · refine ⟨_, congrArg Host.Outcome.next (qpCmd_reset hp hq hl), ?_⟩
      rw [qpGet_congr (writeQpState_links ..), qpGet_qpMod len1 (qp_ne_reset_of_ctx hb)]
      exact ⟨rfl, rfl, rfl⟩
    · refine ⟨_, rfl, ?_⟩
      rw [qpCmd_took hp hq hl (by decide) (by decide) len (by rw [hst]; rfl) hctx]
      exact ⟨rfl, rfl⟩
    · refine ⟨_, rfl, ?_⟩
      rw [qpCmd_took hp hq hl (by decide) (by decide) len (by rw [hst]; rfl) hctx]
      exact ⟨rfl, rfl⟩
    · refine ⟨_, rfl, ?_⟩
      rw [qpCmd_took hp hq hl (by decide) (by decide) len (by rw [hst]; rfl) hctx]
      exact ⟨rfl, if_pos ⟨rfl, by rw [hst]; decide⟩⟩
    · refine ⟨_, rfl, ?_⟩
      have illegal : (qpLegal (qpGet s p q).state .rts && ctxOk s1 c) = false := by
        rcases hbad with h | h
        · rw [h]; rfl
        · rw [h]; exact Bool.and_false _
      rw [qpCmd_moves hp hq hl (by decide) (by decide), illegal, if_neg Bool.false_ne_true]
      exact (qpFail_error (Nat.lt_of_lt_of_eq len1 (spur_length_qpMod ..).symm)).1
    · exact ⟨_, congrArg Host.Outcome.next (qpCmd_error hp hq hl), qpFail_error (Nat.lt_of_lt_of_eq len1 (spur_length_qpMod ..).symm)⟩
  · simp only [List.mem_cons, List.not_mem_nil, or_false] at hx
    rcases hx with rfl | rfl | rfl | rfl <;>
      exact congrArg Host.Outcome.next (issueRc_sends hp hq hk hi he hr hf hd hdata ho (by decide))
  · simp only [List.mem_cons, List.not_mem_nil, or_false] at hx
    rcases hx with rfl | rfl | rfl | rfl <;>
      exact congrArg Host.Outcome.next (issueRc_mismatch hp hq hk hi he hr hf hd hdata ho (by decide))
  · exact congrArg Host.Outcome.next (issueRc_issues hp hq hk hi he hr hf hd hdata ho true (fun _ => h16))
  · have mine : (nvOp e == 2 && (nvQueue s p q).any (0 < ·)) = true := Bool.and_eq_true_iff.2 ⟨beq_iff_eq.2 ho, hqid⟩
    exact congrArg Host.Outcome.next (issueNvme_issues hp hq hk hi he hn hd mine rfl hlen)
  · simp only [List.mem_cons, List.not_mem_nil, or_false] at hx
    rcases hx with rfl | rfl | rfl | rfl | rfl | rfl <;>
      exact congrArg Host.Outcome.next (issueNvme_issues hp hq hk hi he hn hd hm rfl (Nat.zero_le _))

end Sys2Proof
end

section
/-!
PROOFS. The answers, timeouts and inbound requests of queue pairs (R50, R51, R335, R338, R344).
-/
namespace Sys2Proof.Laws

open Sys2Proof.Machine

/-! ### Answers (R338) -/

theorem drawFree_links (s : State) : (drawFree s).2.links = s.links := rfl

/-- An outstanding entry of a queue pair that is not reset completes and leaves the pair in its state, where the status does. -/
theorem qpGet_finishFree {s : State} {p q : Nat} (hp : p < s.links.spur.length) (hst : (qpGet s p q).state ≠ .reset) (f : Inflight) {st : Nat} (hk : keepsQp st = true)
    (n : Nat) : qpGet (finishFree s p q f st n) p q = { qpGet s p q with inflight := (qpGet s p q).inflight.filter (fun g => g.index != f.index) } := by
  have dropped : qpGet (qpMod (drawFree s).2 p q (fun x => { x with inflight := x.inflight.filter (fun g => g.index != f.index) })) p q = _ :=
    qpGet_qpMod (s := (drawFree s).2) hp (qp_ne_reset_of_state hst)
  unfold finishFree finishEntry
  dsimp only
  rw [hk, Bool.true_or, if_pos rfl, (settleEntry_sameQueuePairs ..).qpGet, dropped]
  rfl

theorem answerEntry_ack {s : State} {p q : Nat} {f : Inflight} (hn : isNvme (qpGet s p q) = false) (ho : rcOp f.entry ≠ 5) :
    answerEntry s p q f .ack = finishFree s p q f 0 f.len := by
  unfold answerEntry
  simp only [hn, beq_false_of_ne ho, Bool.or_self, Bool.false_eq_true, if_false]

/-- An answer before its entry's deadline is taken (R51). -/
theorem execSpurResponseReceive_answers {s : State} {p q : Nat} {i : BitVec 32} {f : Inflight} (hp : p < 2) (hq : q < 2048)
    (hf : (qpGet s p q).inflight.find? (fun f => f.index == i) = some f) (hc : f.cancelled = false) (hd : f.deadline = 0 ∨ now s ≤ f.deadline) (r : SpurResp) :
    execSpurResponseReceive p q i r s = .next (answerEntry s p q f r) := by
  have intime : (f.deadline != 0 && decide (f.deadline < now s)) = false := by
    rcases hd with h | h
    · rw [h]; rfl
    · rw [decide_eq_false (Nat.not_lt.2 h)]; exact Bool.and_false _
  unfold execSpurResponseReceive
  simp only [hf, qpValid_of_lt hp hq, hc, intime, Bool.not_true, Bool.or_self, Bool.false_eq_true, if_false]

/-- A timeout of an entry that has timed out draws its free value alone. -/
theorem timeOut_cancelled {s : State} {p q : Nat} {i : BitVec 32} {f : Inflight} (hf : (qpGet s p q).inflight.find? (fun f => f.index == i) = some f)
    (hc : f.cancelled = true) : timeOut s p q i = (drawFree s).2 := by
  unfold timeOut spurDeadline
  simp only [hf, hc, Bool.true_or, if_true]

theorem execSpurResponseReceive_cancelled {s : State} {p q : Nat} {i : BitVec 32} {f : Inflight} (hp : p < 2) (hq : q < 2048)
    (hf : (qpGet s p q).inflight.find? (fun f => f.index == i) = some f) (hc : f.cancelled = true) (r : SpurResp) : execSpurResponseReceive p q i r s =
    .next (count (qpMod (drawFree s).2 p q (fun x => { x with inflight := x.inflight.filter (fun g => g.index != i) })) devKey 19 1) := by
  unfold execSpurResponseReceive
  simp only [hf, qpValid_of_lt hp hq, hc, timeOut_cancelled hf hc, Bool.not_true, Bool.true_or, Bool.false_eq_true, if_false, if_true]

/-! ### Timeouts (R51, R335) -/

theorem rcData_links {s s1 : State} {e : List Byte} {b : Option (List Byte)} (h : rcData s e = (s1, b)) : s1.links = s.links := by
  have first : (rcData s e).1.links = s.links := by
    unfold rcData
    split
    · rfl
    · split <;> next e => exact (congrArg (fun r : State × _ => r.1.links) e).symm.trans (readRef_links ..)
  rw [h] at first
  exact first

/-- The oldest outstanding entry goes out again while retries are left (R335). -/
theorem execRoceAckTimeout_resends {s s1 : State} {p q : Nat} {f : Inflight} {b : List Byte} (hp : p < 2) (hq : q < 2048) (hn : isNvme (qpGet s p q) = false)
    (hf : (qpGet s p q).inflight.find? (fun f => !f.cancelled) = some f) (hd : f.deadline = 0 ∨ now s ≤ f.deadline) (hr : f.retries < qpRetry (qpGet s p q))
    (hb : rcData s f.entry = (s1, some b)) : execRoceAckTimeout p ⟨q, true⟩ s =
    .next (rcSend (qpMod s1 p q (fun x => { x with inflight := x.inflight.map (fun e => if e.index == f.index then { e with retries := e.retries + 1 } else e) }))
      p q f.entry b) := by
  have intime : ¬(f.deadline ≠ 0 ∧ f.deadline < now s) := by omega
  unfold execRoceAckTimeout retryEntry resendEntry
  simp only [qpValid_of_lt hp hq, hn, hf, if_neg intime, if_pos hr, hb, Bool.not_false, Bool.and_self,
    Bool.not_true, Bool.false_and, Bool.false_eq_true, if_false, if_true]

/-- An outstanding entry whose deadline is behind it is cancelled (R51). -/
theorem timeOut_late {s : State} {p q : Nat} {i : BitVec 32} {f : Inflight} (hp : p < s.links.spur.length)
    (hf : (qpGet s p q).inflight.find? (fun f => f.index == i) = some f) (hc : f.cancelled = false) (h0 : f.deadline ≠ 0) (hd : f.deadline < now s) :
    (qpGet (timeOut s p q i) p q).inflight = (qpGet s p q).inflight.map (fun g => if g.index == i then { g with cancelled := true } else g) := by
  have late : (f.cancelled || f.deadline == 0 || decide (now s ≤ f.deadline)) = false := by
    rw [hc, beq_false_of_ne h0, decide_eq_false (Nat.not_le.2 hd)]
    rfl
  have some : (qpGet s p q).inflight.map (fun g => if g.index == i then { g with cancelled := true } else g) ≠ [] := fun e => by
    rw [List.map_eq_nil_iff] at e
    rw [e] at hf
    cases hf
  unfold timeOut spurDeadline
  simp only [hf, late, Bool.false_eq_true, if_false]
  rw [qpGet_congr (drawFree_links _), (postEntry_sameQueuePairs ..).qpGet, qpGet_qpMod hp (qp_ne_reset_of_inflight some)]

/-! ### Inbound requests (R335, R344) -/

section
variable {s : State} {p q : Nat} (hr : canReceive s p q = true)
include hr

theorem execRoceInboundRead_served {s1 : State} {rkey len : Nat} {a : Word} {r : Region} {b : List Byte} (hg : regionOf s p rkey a len = some r)
    (hb : readRef s a.toNat len = (s1, .ok b)) : execRoceInboundRead p q rkey a ⟨len, true, true⟩ s = .next (replyOk s1 p q len b) := by
  unfold execRoceInboundRead
  simp only [hr, hg, hb, Bool.not_true, Bool.or_self, Bool.false_eq_true, if_false, if_true]

theorem execRoceInboundRead_refused {rkey len : Nat} {a : Word} (hg : regionOf s p rkey a len = none) :
    execRoceInboundRead p q rkey a ⟨len, true, true⟩ s = .next (replyNak s p q 0x62) := by
  unfold execRoceInboundRead
  simp only [hr, hg, Bool.not_true, Bool.or_self, Bool.false_eq_true, if_false]

theorem execRoceInboundWrite_served {rkey : Nat} {a : Word} {b : List Byte} {r : Region} (hg : regionOf s p rkey a b.length = some r) (hw : r.writable = true)
    (ha : rangeOk s isTier a.toNat b.length = true) : execRoceInboundWrite p q rkey a b false true true s = .next (replyOk (memWrite s a.toNat b) p q b.length []) := by
  unfold execRoceInboundWrite
  simp only [hr, hg, hw, ha, Bool.not_true, Bool.or_self, Bool.false_eq_true, if_false]

/-- A SEND on a VMP queue pair joins the requests of its rank (R344). -/
theorem execRoceInboundSend_request {b : List Byte} (hk : qpKind (qpGet s p q) = 3) : ∃ t, execRoceInboundSend p q b ⟨false, true⟩ s = .next t ∧
    t.vmp.remote = sparseSet [] (256 + 2048 * p + q) (sparseGet [] (256 + 2048 * p + q) s.vmp.remote ++ [(now s, slice b 0 128)]) s.vmp.remote := by
  unfold execRoceInboundSend
  simp only [hr, hk, Bool.not_true, Bool.or_self, Bool.false_eq_true, if_false, bne_self_eq_false]
  exact ⟨_, rfl, rfl⟩

end

theorem replyOk_out (s : State) (p q n : Nat) (b : List Byte) : (replyOk s p q n b).out = s.out ++ [.roceReply p q true 0 b] := rfl

end Sys2Proof.Laws

namespace Sys2Proof

open Machine Laws

/-- Settles O52. An answer completes its entry (`qpGet_finishFree`), a deadline cancels it (`timeOut_late`), and the responder's requests are an equation each. -/
theorem spurAnswers : Obligations.SpurAnswers := by
  unfold Obligations.SpurAnswers
  refine ⟨fun s p q i f hp hq hlen hf hc hd hn ho hst => ?_, fun s p q i f r hp hq hf hc => ?_, fun s s1 p q f b hp hq hlen hn hf hd hr hb => ?_,
    fun s p q i f hp hq hlen hf hc h0 hd => ?_, fun s s1 p q rkey len a r b hr hg hb => ?_, fun s p q rkey len a hr hg => execRoceInboundRead_refused hr hg,
    fun s p q rkey len a ok => ?_, fun s p q rkey a b r hr hg hw ha => ?_, fun s p q rkey a b imm ok => ?_, fun s p q b hr hk => ?_⟩
  · refine ⟨_, (execSpurResponseReceive_answers hp hq hf hc hd .ack).trans (congrArg Host.Outcome.next (answerEntry_ack hn ho)), ?_⟩
    rw [qpGet_finishFree (by omega) (by rw [hst]; decide) f (by rfl)]
    exact ⟨rfl, hst⟩
  · refine ⟨_, execSpurResponseReceive_cancelled hp hq hf hc r, (counterGet_count_devKey _ 19 (Nat.le_refl 1) 19).trans (if_pos rfl), ?_, ?_⟩
    · exact count_mem ..
    · exact count_out ..
  · have links := rcData_links hb
    have some : (qpGet s1 p q).inflight ≠ [] := fun e => by
      rw [qpGet_congr links] at e
      rw [e] at hf
      cases hf
    refine ⟨_, execRoceAckTimeout_resends hp hq hn hf hd hr hb, List.length_append, ?_⟩
    unfold rcSend
    rw [qpGet_congr (emitOut_links ..), qpGet_qpMod (by rw [links]; omega) (qp_ne_reset_of_inflight (mt List.map_eq_nil_iff.1 some))]
  · refine ⟨timeOut s p q (BitVec.ofNat 32 i), congrArg Host.Outcome.next (if_pos (qpValid_of_lt hp hq)), timeOut_late (by omega) hf hc h0 hd⟩
  · exact ⟨_, execRoceInboundRead_served hr hg hb, replyOk_out ..⟩
  · exact congrArg Host.Outcome.next (if_pos (Bool.or_true _))
  · refine ⟨_, execRoceInboundWrite_served hr hg hw ha, rfl, ?_⟩
    rw [replyOk_out, memWrite_part]
    rfl
  · exact congrArg Host.Outcome.next (if_pos (Bool.or_true _))
  · obtain ⟨t, ht, hremote⟩ := execRoceInboundSend_request hr hk (b := b)
    refine ⟨t, ht, ?_⟩
    rw [hremote, sparseGet_sparseSet_of_ne (List.append_ne_nil_of_right_ne_nil _ (List.cons_ne_nil _ _)), if_pos rfl]

end Sys2Proof
end

section
/-!
PROOFS. Exact sums (R74 to R76): one element enters an accumulator as the record of that element alone, and records combine in any
grouping and any order.
-/
namespace Sys2Proof.Laws

open Sys2Proof.Machine

/-! ### Records of accumulators (R76) -/

theorem accJoin_assoc (a b c : Accumulator) : accJoin (accJoin a b) c = accJoin a (accJoin b c) := by
  simp only [accJoin, Int.add_assoc, Nat.add_assoc, Bool.or_assoc]

theorem accJoin_comm (a b : Accumulator) : accJoin a b = accJoin b a := by
  simp only [accJoin, Int.add_comm, Nat.add_comm, Bool.or_comm]

theorem accJoin_right_comm (a b c : Accumulator) : accJoin (accJoin a b) c = accJoin (accJoin a c) b := by
  rw [accJoin_assoc, accJoin_comm b c, accJoin_assoc]

@[simp] theorem accJoin_zero (a : Accumulator) : accJoin a Accumulator.zero = a := by
  simp only [accJoin, Accumulator.zero, Int.add_zero, Nat.add_zero, Bool.or_false]

/-- An element enters as the record that holds it alone: A grows by its scaled value, the count by one, and its flag is set (R74). -/
theorem accAdd_eq_accJoin (scale : Nat) (a : Accumulator) (v : FVal) : accAdd scale a v = accJoin a (accAdd scale Accumulator.zero v) := by
  cases v with
  | nan => simp [accAdd, accJoin, Accumulator.zero]
  | inf neg => cases neg <;> simp [accAdd, accJoin, Accumulator.zero]
  | fin neg p q => simp [accAdd, accJoin, Accumulator.zero]

theorem accAdd_right_comm (scale : Nat) (a : Accumulator) (v w : FVal) :
    accAdd scale (accAdd scale a v) w = accAdd scale (accAdd scale a w) v := by
  rw [accAdd_eq_accJoin scale (accAdd scale a v) w, accAdd_eq_accJoin scale a v, accJoin_right_comm,
    ← accAdd_eq_accJoin scale a w, ← accAdd_eq_accJoin]

/-- Elements that follow a record add their own record to it. -/
theorem foldl_accAdd_eq_accJoin (scale : Nat) (xs : List FVal) (a : Accumulator) :
    xs.foldl (accAdd scale) a = accJoin a (xs.foldl (accAdd scale) Accumulator.zero) := by
  induction xs generalizing a with
  | nil => exact (accJoin_zero a).symm
  | cons v xs ih =>
    calc xs.foldl (accAdd scale) (accAdd scale a v)
      _ = accJoin (accAdd scale a v) (xs.foldl (accAdd scale) Accumulator.zero) := ih _
      _ = accJoin a (accJoin (accAdd scale Accumulator.zero v) (xs.foldl (accAdd scale) Accumulator.zero)) := by
        rw [accAdd_eq_accJoin, accJoin_assoc]
      _ = accJoin a (xs.foldl (accAdd scale) (accAdd scale Accumulator.zero v)) := by rw [← ih]

end Sys2Proof.Laws

namespace Sys2Proof

open Machine Laws

/-- Settles O36. The elements of the second part add their record to the first's (`foldl_accAdd_eq_accJoin`), and two elements next to each
other may change places (`accAdd_right_comm`). -/
theorem exactSums : Obligations.ExactSums := by
  unfold Obligations.ExactSums
  refine ⟨fun scale xs ys => ?_, fun scale xs ys hperm => ?_⟩
  · rw [List.foldl_append, foldl_accAdd_eq_accJoin]
  · exact hperm.foldl_eq' (fun v _ w _ a => accAdd_right_comm scale a v w) Accumulator.zero

end Sys2Proof
end

section
/-!
PROOFS. Order keys (R72): the key of a signed integer is its value raised by 2^63, the key of an unsigned one is its value, and every float's
key fits the 64 bits that a NaN's fills.
-/
namespace Sys2Proof.Laws

open Sys2Proof.Machine

/-! ### Two's complement -/

theorem sint_bounds {w : Nat} (hw : 0 < w) (n : Nat) : -2 ^ (w - 1) ≤ sint w n ∧ sint w n < 2 ^ (w - 1) := by
  have hpow : 2 ^ w = 2 * 2 ^ (w - 1) := (mul_pow_sub_one hw.ne' 2).symm
  have hlt : n % 2 ^ w < 2 ^ w := Nat.mod_lt _ (Nat.two_pow_pos w)
  unfold sint
  zify at *
  split <;> omega

theorem wrapInt_of_lt {w : Nat} {i : Int} (h0 : 0 ≤ i) (h : i < 2 ^ w) : (wrapInt w i : Int) = i := by
  have hmod : i % (2 ^ w : Nat) = i := Int.emod_eq_of_lt h0 (by exact_mod_cast h)
  rw [wrapInt, hmod, Int.toNat_of_nonneg h0]

/-! ### Integers and their keys -/

theorem isSigned_iff {ty : Nat} : isSigned ty = true ↔ 1 ≤ ty ∧ ty ≤ 4 := decide_eq_true_iff

theorem isUnsigned_iff {ty : Nat} : isUnsigned ty = true ↔ 5 ≤ ty ∧ ty ≤ 8 := decide_eq_true_iff

theorem typeBits_of_isSigned {ty : Nat} (h : isSigned ty = true) : 0 < typeBits ty ∧ typeBits ty ≤ 64 := by
  obtain ⟨hlo, hhi⟩ := isSigned_iff.1 h
  interval_cases ty <;> decide

theorem intOf_bounds_of_isSigned {ty : Nat} (h : isSigned ty = true) (b : Nat) : -2 ^ 63 ≤ intOf ty b ∧ intOf ty b < 2 ^ 63 := by
  obtain ⟨hpos, hle⟩ := typeBits_of_isSigned h
  obtain ⟨hlo, hhi⟩ := sint_bounds hpos b
  have hpow : (2 : Int) ^ (typeBits ty - 1) ≤ 2 ^ 63 := pow_le_pow_right₀ (by decide) (by omega)
  simp only [intOf, h, Bool.true_or, if_true]
  omega

theorem orderKey_of_isSigned {ty : Nat} (h : isSigned ty = true) (b : Nat) (off : Int) : (orderKey ty b off : Int) = intOf ty b + 2 ^ 63 := by
  obtain ⟨hlo, hhi⟩ := isSigned_iff.1 h
  obtain ⟨hmin, hmax⟩ := intOf_bounds_of_isSigned h b
  have hf : isFloatTy ty = false := decide_eq_false (by omega)
  have ht : isTimeTy ty = false := beq_false_of_ne (by omega)
  simp only [orderKey, hf, ht, h, Bool.false_eq_true, if_false, if_true]
  exact wrapInt_of_lt (by omega) (by omega)

theorem orderKey_of_isUnsigned {ty : Nat} (h : isUnsigned ty = true) (b : Nat) (off : Int) : (orderKey ty b off : Int) = intOf ty b := by
  obtain ⟨hlo, hhi⟩ := isUnsigned_iff.1 h
  have hf : isFloatTy ty = false := decide_eq_false (by omega)
  have ht : isTimeTy ty = false := beq_false_of_ne (by omega)
  have hs : isSigned ty = false := decide_eq_false (by omega)
  simp only [orderKey, intOf, hf, ht, hs, Bool.or_self, Bool.false_eq_true, if_false]

/-- The keys of a type's integers differ from their values by one constant. -/
theorem orderKey_of_isIntTy {ty : Nat} (h : isIntTy ty = true) : ∃ c : Int, ∀ (b : Nat) (off : Int), (orderKey ty b off : Int) = intOf ty b + c := by
  rcases Bool.or_eq_true_iff.1 h with hs | hu
  · exact ⟨2 ^ 63, orderKey_of_isSigned hs⟩
  · exact ⟨0, fun b off => (orderKey_of_isUnsigned hu b off).trans (Int.add_zero _).symm⟩

/-! ### Keys of floats -/

theorem orderKey_of_nan {ty b : Nat} (h : isFloatTy ty = true) (hnan : decodeF (fmtOf ty) b = .nan) (off : Int) : orderKey ty b off = 2 ^ 64 - 1 := by
  simp only [orderKey, h, hnan, if_true]

theorem orderKey_le_of_isFloatTy {ty : Nat} (h : isFloatTy ty = true) (b : Nat) (off : Int) : orderKey ty b off ≤ 2 ^ 64 - 1 := by
  simp only [orderKey, h, if_true]
  split
  · exact le_rfl
  · split_ifs <;> omega

end Sys2Proof.Laws

namespace Sys2Proof

open Machine Laws

/-- Settles O37. The keys of a type's integers are their values moved by one constant (`orderKey_of_isIntTy`); a NaN's key is the
largest of 64 bits (`orderKey_of_nan`). -/
theorem orderKeys : Obligations.OrderKeys := by
  unfold Obligations.OrderKeys
  refine ⟨fun ty a b off hty => ?_, fun ty a b off hty hnan => ?_⟩
  · obtain ⟨c, hkey⟩ := orderKey_of_isIntTy hty
    rw [← Int.ofNat_lt, hkey a, hkey b, Int.add_lt_add_iff_right]
  · rw [orderKey_of_nan hty hnan]
    exact orderKey_le_of_isFloatTy hty a off

end Sys2Proof
end

section
/-!
PROOFS. The steps of the Swage and the Crucible and the refresh steps (R96, R279, R282, R284, R293): what a step in progress is, what its
command does, and what a failed check handover (R309, R310) leaves.
-/
namespace Sys2Proof.Laws

open Sys2Proof.Machine

/-! ### The step in progress and its recorded result -/

/-- A step that a command may serve is an activity of the running job, and the step of the plan that the command names. -/
theorem servedStep_some {s : State} {i kind op : Nat} {j : Job} {st : PlanStep} (h : servedStep s i kind op = some (j, st)) :
    runningJob s = some j ∧ st.index = i ∧ ∃ a, actOf j (.step i) = some a := by
  unfold servedStep at h
  split at h
  · cases h
  · next j' hj =>
    dsimp only at h
    split at h
    · next a ha =>
      obtain ⟨-, rfl, rfl⟩ : _ ∧ j' = j ∧ stepAt j'.plan i = st := by simpa only [Option.ite_none_right_eq_some, Option.some.injEq, Prod.mk.injEq] using h
      exact ⟨hj, rfl, a, ha⟩
    · cases h

/-- Only the status of an uncorrectable read makes a result a fault. -/
theorem setResult_of_status_ne {x : ActResult} (h : x.status ≠ 0x0400) (s : State) (j : Job) (r : ActRef) :
    setResult s j r x = recordResult s j r x := by
  rw [setResult, readFault, if_neg h]

theorem runningJob_setJob {s : State} {j : Job} (hj : runningJob s = some j) {f : Job → Job} (hf : ∀ k, (f k).phase = k.phase) :
    runningJob (setJob s j.num f) = some (f j) := by
  have hphase : ((fun k : Job => k.phase == .running) ∘ fun k => if k.num == j.num then f k else k) = fun k => k.phase == .running := by
    funext k
    dsimp only [Function.comp]
    split
    · rw [hf]
    · rfl
  rw [runningJob] at hj
  simp only [runningJob, setJob, modJobs, List.find?_map, hphase, hj, Option.map_some, beq_self_eq_true, if_true]

theorem actOf_map {j : Job} {r : ActRef} {a : Activity} (ha : actOf j r = some a) {f : Activity → Activity} (hf : ∀ b, (f b).ref = b.ref) :
    actOf { j with acts := j.acts.map f } r = some (f a) := by
  have href : ((fun b : Activity => b.ref == r) ∘ f) = fun b => b.ref == r := funext fun b => by rw [Function.comp, hf]
  rw [actOf] at ha
  rw [actOf, List.find?_map, href, ha, Option.map_some]

theorem hasResult_recordResult {s : State} {j : Job} {r : ActRef} {a : Activity} {x : ActResult} {P : ActResult → Prop}
    (hj : runningJob s = some j) (ha : actOf j r = some a) (hP : P { x with used := now s + 1 - a.start }) :
    HasResult (recordResult s j r x) r P := by
  have href : a.ref == r := List.find?_some (p := fun b : Activity => b.ref == r) ha
  refine ⟨_, _, { x with used := now s + 1 - a.start }, runningJob_setJob hj (fun _ => rfl),
    actOf_map ha (f := fun b => if b.ref == r then { b with result := some { x with used := now s + 1 - b.start } } else b) (fun b => ?_), ?_, hP⟩
  · split <;> rfl
  · rw [if_pos href]

/-! ### The engines of a failed check handover (R309, R310) -/

theorem mem_dedupNat {e : Nat} {l : List Nat} : e ∈ dedupNat l ↔ e ∈ l := by
  have hfold : ∀ (l acc : List Nat), e ∈ l.foldl (fun acc x => if acc.contains x then acc else acc ++ [x]) acc ↔ e ∈ acc ∨ e ∈ l := by
    intro l
    induction l with
    | nil => simp
    | cons x l ih =>
      intro acc
      rw [List.foldl_cons, ih, List.mem_cons]
      split
      · next hx =>
        have hmem : e = x → e ∈ acc := fun he => he ▸ List.contains_iff_mem.1 hx
        tauto
      · rw [List.mem_append, List.mem_singleton, or_assoc]
  exact (hfold l []).trans (or_iff_right List.not_mem_nil)

/-- The engines of the step among those whose handover fails. -/
def failedEngines (j : Job) (st : PlanStep) (bad : List Nat) : List Nat := (dedupNat bad).filter (namedEngines j.plan j.pos st).contains

theorem mem_failedEngines {j : Job} {st : PlanStep} {bad : List Nat} {e : Nat} :
    e ∈ failedEngines j st bad ↔ e ∈ bad ∧ e ∈ namedEngines j.plan j.pos st := by
  rw [failedEngines, List.mem_filter, mem_dedupNat, List.contains_iff_mem]

/-- One engine's failed handover: a check mismatch is counted at its column, whose sticky bit is set. -/
def failHandover (s : State) (e : Nat) : State := stickySet (count s (engineCol e) 4 1) (engineCol e) 9

@[simp] theorem failHandover_mem (s : State) (e : Nat) : (failHandover s e).mem = s.mem := by rw [failHandover, stickySet_mem, count_mem]

@[simp] theorem failHandover_seq (s : State) (e : Nat) : (failHandover s e).seq = s.seq := by rw [failHandover, stickySet_seq, count_seq]

theorem failHandover_events (s : State) (e : Nat) : EventsOnly s (failHandover s e) :=
  (count_events s (engineCol e) 4 (Nat.le_refl 1)).trans (.raise _ (engineCol e) (by decide))

/-- Whatever the other engines do, the bit of an engine's column that was set stays set. -/
theorem stickyRaised_foldl_failHandover {e : Nat} {es : List Nat} (he : e ∈ es) (s : State) :
    stickyRaised (es.foldl failHandover s) (engineCol e) 9 := by
  induction es generalizing s with
  | nil => cases he
  | cons x es ih =>
    rw [List.foldl_cons]
    rcases List.mem_cons.1 he with rfl | he
    · exact (foldl_events failHandover_events es _).raised (stickyRaised_stickySet_any _ _ (by decide))
    · exact ih he _

theorem packHandover_of_not_mem {j : Job} {st : PlanStep} {bad : List Nat} (h : ∀ e ∈ bad, e ∉ namedEngines j.plan j.pos st) (s : State) :
    packHandover s j st bad = none := by
  have hnil : failedEngines j st bad = [] := List.eq_nil_iff_forall_not_mem.2 fun e he => h e (mem_failedEngines.1 he).1 (mem_failedEngines.1 he).2
  exact if_pos (List.isEmpty_iff.2 hnil)

theorem packHandover_of_mem {j : Job} {st : PlanStep} {bad : List Nat} {e : Nat} (he : e ∈ failedEngines j st bad) (s : State) :
    packHandover s j st bad =
      some (recordResult ((failedEngines j st bad).foldl failHandover s) j (.step st.index) { ActResult.ok with status := 0x0401 }) := by
  have hne : ¬ (failedEngines j st bad).isEmpty = true := fun h => List.ne_nil_of_mem he (List.isEmpty_iff.1 h)
  exact (if_neg hne).trans (congrArg some (setResult_of_status_ne (by decide) _ _ _))

/-- R309, R310: a failed handover writes nothing, sets the sticky bit of the engine's column and ends the step with CHECK_MISMATCH. -/
theorem packHandover_fails {s : State} {i op e : Nat} {j : Job} {st : PlanStep} {bad : List Nat} (h : servedStep s i 0 op = some (j, st))
    (he : e ∈ bad) (hn : e ∈ namedEngines j.plan j.pos st) :
    ∃ t, packHandover s j st bad = some t ∧ t.mem = s.mem ∧ stickyRaised t (engineCol e) 9 ∧
      HasResult t (.step i) (fun x => x.status = 0x0401 ∧ x.writes = []) := by
  obtain ⟨hj, rfl, a, ha⟩ := servedStep_some h
  have hmem : e ∈ failedEngines j st bad := mem_failedEngines.2 ⟨he, hn⟩
  have hseq := foldl_seq failHandover_seq (failedEngines j st bad) s
  refine ⟨_, packHandover_of_mem hmem s, ?_, ?_, hasResult_recordResult ?_ ha ⟨rfl, rfl⟩⟩
  · rw [recordResult_mem]
    exact foldl_keep failHandover State.mem failHandover_mem _ s
  · exact (EventsOnly.of_units (recordResult_units ..)).raised (stickyRaised_foldl_failHandover hmem s)
  · rw [runningJob, hseq]
    exact hj

/-! ### The commands of a step in progress -/

section
variable {s : State} {i : Nat} {j : Job} {st : PlanStep} {bad mism : List Nat}

theorem exec_swageCopy (h : servedStep s i 0 0x10 = some (j, st)) : exec (.swageCopy i) s = .next (swageWork s j st) := by
  change execSwageCopy i s = _
  rw [execSwageCopy, h]

theorem packServe_of_mode {mode : Nat} (h : servedStep s i 0 0x11 = some (j, st)) (hm : byteAt (stepParams j.plan j.pos st) 0x30 = mode)
    (work : State → Job → PlanStep → State) :
    packServe s i mode mism work = (packHandover s j st mism).getD (work (clearBad s) j st) := by
  rw [packServe, h]
  exact if_neg (not_not.2 hm)

theorem exec_packNew (h : servedStep s i 0 0x11 = some (j, st)) (hm : byteAt (stepParams j.plan j.pos st) 0x30 = 0) :
    exec (.packNew i bad mism) s = .next ((packHandover s j st mism).getD (packNewWork (clearBad s) j st bad)) :=
  congrArg Host.Outcome.next (packServe_of_mode h hm _)

theorem exec_packResume (h : servedStep s i 0 0x11 = some (j, st)) (hm : byteAt (stepParams j.plan j.pos st) 0x30 = 1) :
    exec (.packResume i bad mism) s = .next ((packHandover s j st mism).getD (packResumeWork (clearBad s) j st bad)) :=
  congrArg Host.Outcome.next (packServe_of_mode h hm _)

theorem exec_unpack (h : servedStep s i 0 0x12 = some (j, st)) :
    exec (.unpack i mism) s = .next ((packHandover s j st mism).getD (unpackWork (clearBad s) j st)) := by
  change execUnpack i mism s = _
  rw [execUnpack, h]

theorem exec_refreshWindow (h : servedStep s i 2 0 = some (j, st)) :
    exec (.refreshWindow i) s = .next (recordResult s j (.step st.index) ActResult.ok) := by
  change execRefreshWindow i s = _
  rw [execRefreshWindow, h]
  exact congrArg Host.Outcome.next (setResult_of_status_ne (by decide) _ _ _)

end

end Sys2Proof.Laws

namespace Sys2Proof

open Machine Laws

/-- Settles O40. Each command's equation for the step in progress gives the engine's work where no engine of the step fails its handover
(`packHandover_of_not_mem`), and the failed handover where one does (`packHandover_fails`); a refresh step only records its result. -/
theorem engineResults : Obligations.EngineResults := by
  unfold Obligations.EngineResults
  refine ⟨fun s i j st h => exec_swageCopy h, fun s i j st bad mism h hgood => ⟨fun hm => ?_, fun hm => ?_⟩,
    fun s i j st mism h hgood => ?_, fun s i e j st bad mism h he hn x hx hm => ?_, fun s i e j st mism h he hn => ?_,
    fun s i j st h _ => ?_⟩
  case refine_1 => rw [exec_packNew h hm, packHandover_of_not_mem hgood, Option.getD_none]
  case refine_2 => rw [exec_packResume h hm, packHandover_of_not_mem hgood, Option.getD_none]
  case refine_3 => rw [exec_unpack h, packHandover_of_not_mem hgood, Option.getD_none]
  case refine_4 =>
    obtain ⟨t, hfail, hend⟩ := packHandover_fails h he hn
    refine ⟨t, ?_, hend⟩
    rcases List.mem_pair.1 hx with rfl | rfl
    · rw [exec_packNew h hm, hfail, Option.getD_some]
    · rw [exec_packResume h hm, hfail, Option.getD_some]
  case refine_5 =>
    obtain ⟨t, hfail, hend⟩ := packHandover_fails h he hn
    exact ⟨t, by rw [exec_unpack h, hfail, Option.getD_some], hend⟩
  case refine_6 =>
    obtain ⟨hj, rfl, a, ha⟩ := servedStep_some h
    exact ⟨_, exec_refreshWindow h, recordResult_mem .., recordResult_units .., recordResult_eng .., recordResult_links ..,
      hasResult_recordResult hj ha ⟨rfl, rfl⟩⟩

end Sys2Proof
end

section
/-!
PROOFS. The step commands of the Array (R111): each is its operator's run on the step in progress, whose result is recorded with the step. What
a result becomes (R308).
-/
namespace Sys2Proof.Laws

open Sys2Proof.Machine

/-! ### A command's run -/

/-- The blocks that a command serves: those of its MODE, or all of them where it has none. -/
def servesMode : Option Nat → List Byte → Bool
  | none => fun _ => true
  | some m => fun pb => byteAt pb 0x30 == m

theorem servesMode_of {mode : Option Nat} {pb : List Byte} (h : ∀ m, mode = some m → byteAt pb 0x30 = m) : servesMode mode pb = true := by
  cases mode with
  | none => rfl
  | some m => exact beq_iff_eq.2 (h m rfl)

/-- The step in progress records what its operator gives. -/
theorem runStep_served {s : State} {i op : Nat} {mode : List Byte → Bool} {f : State → Job → PlanStep → List Byte → OpRes} {j : Job} {st : PlanStep}
    (h : servedStep s i 0 op = some (j, st)) (hm : mode (stepParams j.plan j.pos st) = true) :
    runStep s i op mode f =
      setResult (f (clearBad s) j st (stepParams j.plan j.pos st)).1 j (.step i) (f (clearBad s) j st (stepParams j.plan j.pos st)).2 := by
  rw [runStep, h]
  exact if_pos hm

/-- Each of the commands is the run of its operator for its opcode and MODE. -/
theorem exec_stepRuns (s : State) (i : Nat) (peers : List (Nat × Nat)) (ups : List HardyUpset) (arr : Arrivals) (ok : Bool) (ps : List (List PeerStat))
    (hs : List Nat) (secA secB : List SelRec) :
    ∀ x ∈ stepRuns i peers ups arr ok ps hs secA secB, exec x.1 s = .next (runStep s i x.2.1 (servesMode x.2.2.1) x.2.2.2) := by
  simp only [stepRuns, List.forall_mem_cons, List.not_mem_nil, false_implies, implies_true, and_true]
  exact ⟨rfl, rfl, rfl, rfl, rfl, rfl, rfl, rfl, rfl, rfl, rfl, rfl, rfl, rfl, rfl, rfl, rfl, rfl, rfl, rfl, rfl, rfl, rfl, rfl⟩

theorem exec_embLookup (s : State) (i : Nat) (req : List (Nat × Nat × Nat)) (pbs : List PartialBag) : exec (.embLookup i req pbs) s =
    .next ((stepWaits s i 0xE (req.map (·.2.1))).getD (runStep s i 0xE (servesMode none) (embLookupRun req pbs))) := rfl

theorem exec_embUpdate (s : State) (i : Nat) (gs : List GradRec) (bags : List (Nat × Nat)) : exec (.embUpdate i ⟨gs, bags⟩) s =
    .next ((stepWaits s i 0xF (gs.map (·.row))).getD (runStep s i 0xF (servesMode none) (embUpdateRun gs bags))) := rfl

/-! ### What a result becomes -/

/-- Where no failing word stands noted, a result is no fault. -/
theorem setResult_of_noted_none {s : State} (hw : s.mem.badWord = none) (hu : s.mem.badUnit = none) (j : Job) (r : ActRef) (x : ActResult) :
    setResult s j r x = recordResult s j r x := by
  have hfault : readFault s j r x = none := by
    rw [readFault, hw, hu]
    exact ite_self _
  rw [setResult, hfault]

end Sys2Proof.Laws

namespace Sys2Proof

open Machine Laws

/-- Settles O34. Each command is its operator's run (`exec_stepRuns`), whose result the step in progress records (`runStep_served`); what is no
fault of a read stands with the step (`hasResult_recordResult`). -/
theorem stepResults : Obligations.StepResults := by
  unfold Obligations.StepResults
  refine ⟨fun s i j st peers ups arr ok ps hs secA secB x hx h hm => ?_, fun s i j st req pbs h hw => ?_, fun s i j st gs bags h hw => ?_,
    fun s u i req pbs gs bags => ⟨fun hw => ?_, fun hw => ?_⟩, fun s j r a x hj ha hx => ?_, fun s j r a x hj ha hw hu => ?_⟩
  · rw [exec_stepRuns s i peers ups arr ok ps hs secA secB x hx]
    exact congrArg Host.Outcome.next (runStep_served h (servesMode_of hm))
  · rw [exec_embLookup, hw, Option.getD_none]
    exact congrArg Host.Outcome.next (runStep_served h rfl)
  · rw [exec_embUpdate, hw, Option.getD_none]
    exact congrArg Host.Outcome.next (runStep_served h rfl)
  · rw [exec_embLookup, hw, Option.getD_some]
  · rw [exec_embUpdate, hw, Option.getD_some]
  · rw [setResult_of_status_ne hx]
    exact hasResult_recordResult hj ha rfl
  · rw [setResult_of_noted_none hw hu]
    exact hasResult_recordResult hj ha rfl

end Sys2Proof
end

section
/-!
PROOFS. Steps that only read (R29, R111): the reads of a step leave, of memory without stored errors, nothing but the note of the word at which
one failed, and that word is no memory, so that no recovery mends it. The step then records its result and does nothing else.
-/
namespace Sys2Proof.Laws

open Sys2Proof.Machine

/-! ### The word at which a read of clean memory fails -/

theorem isOffline_congr {s t : State} (h : ∀ a, (unitGet t a).flags.offline = (unitGet s a).flags.offline) (k : Nat) : isOffline t k = isOffline s k := by
  unfold isOffline
  simp only [h]

theorem isMemory_congr {s t : State} (hcfg : t.cfg = s.cfg) (hform : t.form = s.form)
    (hoff : ∀ a, (unitGet t a).flags.offline = (unitGet s a).flags.offline) (a : Nat) : isMemory t a = isMemory s a := by
  have hparam : param t 1 = param s 1 := by
    unfold param paramAt activeSet
    rw [hcfg, hform]
  rw [isMemory_eq, isMemory_eq, hparam, hform, isOffline_congr hoff]

theorem firstUnmapped_isMemory {s : State} {a n x : Nat} (h : firstUnmapped s a n = some x) : isMemory s x = false := by
  unfold firstUnmapped at h
  split at h
  · cases h
  · have hx := List.find?_some h
    simpa using hx

theorem memRead_clean_bad {s : State} (h : s.mem.synd = []) {a n w : Nat} (hw : (memRead s a n).bad = some w) : isMemory s w = false := by
  unfold memRead at hw
  rw [dirtyWords_clean h] at hw
  dsimp only [List.foldl_nil] at hw
  cases hx : firstUnmapped s a n with
  | none =>
    rw [hx] at hw
    cases hw
  | some x =>
    rw [hx] at hw
    obtain rfl := Option.some.inj hw
    have hword := isMemory_word (s := s) (w := x / 8 * 8) (j := x % 8) (by omega) (by omega)
    rw [Nat.div_add_mod' x 8] at hword
    rw [← hword, firstUnmapped_isMemory hx]

/-- The word noted after a read of clean memory was noted before it or is no memory. -/
theorem memRead_clean_badWord {s : State} (h : s.mem.synd = []) {a n w : Nat} (hw : (memRead s a n).st.mem.badWord = some w) :
    s.mem.badWord = some w ∨ isMemory s w = false := by
  have hst : (memRead s a n).st.mem.badWord = if (memRead s a n).bad.isSome then (memRead s a n).bad else s.mem.badWord := by
    unfold memRead
    rw [dirtyWords_clean h]
    exact apply_ite (fun t : State => t.mem.badWord) ..
  rw [hst] at hw
  split at hw
  · exact .inr (memRead_clean_bad h hw)
  · exact .inl hw

/-! ### Steps that only read -/

/-- A state with another note of the failing word, and other units. -/
def noted (s : State) (b : Option Nat) (u : Units) : State := { s with mem := { s.mem with badWord := b }, units := u }

/-- From s to t memory was read and events were counted: nothing changed but counters, sticky bits and the note of the failing word, which is
no memory. -/
def ReadsOnly (s t : State) : Prop := ∃ b u, t = noted s b u ∧ EventsOnly s t ∧ ∀ w, b = some w → isMemory s w = false

theorem ReadsOnly.refl {s : State} (h : s.mem.badWord = none) : ReadsOnly s s :=
  ⟨s.mem.badWord, s.units, rfl, .refl s, fun w hw => by rw [h] at hw; cases hw⟩

theorem ReadsOnly.isMemory {s t : State} (h : ReadsOnly s t) (a : Nat) : isMemory t a = isMemory s a := by
  obtain ⟨b, u, rfl, events, -⟩ := h
  exact isMemory_congr (s := s) (t := noted s b u) rfl rfl
    (events.keeps (g := fun u => u.flags.offline) ⟨fun _ _ => rfl, fun _ _ => rfl, fun _ _ => rfl⟩) a

theorem ReadsOnly.readBytes {s t : State} (hs : s.mem.synd = []) (h : ReadsOnly s t) (a n : Nat) : ReadsOnly s (readBytes t a n).1 := by
  have same := h.isMemory
  obtain ⟨b, u, rfl, events, failed⟩ := h
  have read := memRead_clean_st (s := noted s b u) hs a n
  refine ⟨_, u, read, events.trans (.of_units (congrArg State.units read :)), fun w hw => ?_⟩
  rcases memRead_clean_badWord (s := noted s b u) hs hw with hw | hw
  · exact failed w hw
  · rwa [same] at hw

theorem ReadsOnly.count {s t : State} (h : ReadsOnly s t) (k c : Nat) {n : Nat} (hn : 1 ≤ n) : ReadsOnly s (count t k c n) := by
  obtain ⟨b, u, rfl, events, failed⟩ := h
  exact ⟨b, _, count_eq .., events.trans (count_events _ k c hn), failed⟩

theorem ReadsOnly.stickySet {s t : State} (h : ReadsOnly s t) (k : Nat) {b : Nat} (hb : b < 64) : ReadsOnly s (stickySet t k b) := by
  obtain ⟨w, u, rfl, events, failed⟩ := h
  exact ⟨w, _, stickySet_eq .., events.trans (.raise _ k hb), failed⟩

/-- No reset discards what is no memory. -/
theorem discards_of_unmapped {s : State} {a : Nat} (h : isMemory s a = false) (u : Nat) : discards s u a = false := by
  rw [isMemory_placeOf] at h
  unfold discards
  cases hp : placeOf s a with
  | near _ => rw [hp] at h; cases h
  | far _ => rw [hp] at h; cases h
  | scratch _ => rw [hp] at h; cases h
  | page _ _ => rfl
  | block _ _ _ => rfl
  | doorbell _ _ => rfl
  | unmapped => rfl

/-- R29, R308: a step that met no failing word but an unmapped one holds its result, whatever its status. -/
theorem setResult_of_readsOnly {s t : State} (hs : s.mem.badUnit = none) (h : ReadsOnly s t) (j : Job) (r : ActRef) (x : ActResult) :
    setResult t j r x = recordResult t j r x := by
  have same := h.isMemory
  obtain ⟨b, u, rfl, -, failed⟩ := h
  have hmend : ∀ us, b.bind (mendUnit (noted s b u) us) = none := by
    intro us
    cases b with
    | none => rfl
    | some w => exact if_neg (by rw [discards_of_unmapped ((same w).trans (failed w rfl))]; exact Bool.false_ne_true)
  have hfault : readFault (noted s b u) j r x = none := by
    unfold readFault
    split
    · exact (congrArg (Option.or · _) hs).trans (hmend _)
    · rfl
  rw [setResult, hfault]

/-- A command whose operator only reads does nothing, or records a result. -/
theorem runStep_of_readsOnly {s : State} {i op : Nat} {mode : List Byte → Bool} {f : State → Job → PlanStep → List Byte → OpRes}
    (hf : ∀ j st pb, ReadsOnly (clearBad s) (f (clearBad s) j st pb).1) :
    runStep s i op mode f = s ∨ ∃ t j x, ReadsOnly (clearBad s) t ∧ runStep s i op mode f = recordResult t j (.step i) x := by
  unfold runStep
  split
  · exact .inl rfl
  · next j st h =>
    dsimp only
    split
    · exact .inr ⟨_, j, _, hf .., setResult_of_readsOnly rfl (hf ..) ..⟩
    · exact .inl rfl

/-! ### What reads keep, an operator that only reads keeps -/

theorem fst_of_eq {α : Type} {P : State → Prop} {r : State × α} {t : State} {x : α} (h : P r.1) (e : r = (t, x)) : P t := by
  rw [e] at h
  exact h

theorem ite_fst {α : Type} {P : State → Prop} {c : Prop} [Decidable c] {r r' : State × α} (h : P r.1) (h' : P r'.1) : P (if c then r else r').1 := by
  split
  · exact h
  · exact h'

section
variable {P : State → Prop} (read : ∀ t a n, P t → P (readBytes t a n).1)
include read

theorem readString_keeps {t : State} (h : P t) (win : Nat) (b : List Byte) (d : Nat) : P (readString t win b d).1 :=
  ite_fst h (ite_fst h (ite_fst h (read _ _ _ h)))

theorem readStrings_keeps {t : State} (h : P t) (win : Nat) (b : List Byte) (es : List Elem) : P (readStrings t win b es).1 := by
  induction es generalizing t with
  | nil => exact h
  | cons e es ih =>
    have first := readString_keeps read h win b e.bits
    rw [readStrings]
    split
    · next e1 => exact fst_of_eq first e1
    · next e1 =>
      split
      · next e2 => exact fst_of_eq (ih (fst_of_eq first e1)) e2
      · next e2 => exact fst_of_eq (ih (fst_of_eq first e1)) e2

/-- A read of stored values, then of their validity where they have one, then of their strings. -/
theorem readRows_keeps {t : State} (h : P t) (b : List Byte) (win lo n : Nat) : P (readRows t b win lo n).1 := by
  have values := read t (win + dsBase b + lo * dsWidth b / 8) (n * dsWidth b / 8) h
  unfold readRows
  dsimp only
  split
  · exact h
  · split
    · next e1 => exact fst_of_eq values e1
    · next e1 =>
      have values' := fst_of_eq values e1
      have valid := ite_fst (c := dsValidity b = true) (r' := (_, .ok [])) (read _ (win + dsAux0 b + lo / 64 * 8) ((ceilDiv (lo + n) 64 - lo / 64) * 8) values')
        values'
      split
      · next e2 => exact fst_of_eq valid e2
      · next e2 => exact ite_fst (readStrings_keeps read (fst_of_eq valid e2) ..) (fst_of_eq valid e2)

theorem readWindow_keeps {t : State} (h : P t) (b : List Byte) (win : Nat) : P (readWindow t b win).1 := by
  have values := read t (win + dsBase b) (footprint b) h
  unfold readWindow
  dsimp only
  split
  · exact readRows_keeps read h ..
  · split
    · next e1 => exact fst_of_eq values e1
    · next e1 =>
      have values' := fst_of_eq values e1
      have valid := ite_fst (c := dsValidity b = true) (r' := (_, .ok [])) (read _ (win + dsAux0 b) (ceilDiv (dsCount b) 64 * 8) values') values'
      split
      · next e2 => exact fst_of_eq valid e2
      · next e2 => exact ite_fst (readStrings_keeps read (fst_of_eq valid e2) ..) (fst_of_eq valid e2)

theorem readWindows_keeps {t : State} (h : P t) (b : List Byte) (ws : List Nat) : P (readWindows t b ws).1 := by
  induction ws generalizing t with
  | nil => exact h
  | cons w ws ih =>
    have first := readWindow_keeps read h b w
    rw [readWindows]
    split
    · next e1 => exact fst_of_eq first e1
    · next e1 =>
      split
      · next e2 => exact fst_of_eq (ih (fst_of_eq first e1)) e2
      · next e2 => exact fst_of_eq (ih (fst_of_eq first e1)) e2

theorem readDesc_keeps {t : State} (h : P t) (scope : Nat) (b : List Byte) : P (readDesc t scope b).1 := readWindows_keeps read h ..

theorem readSpan_keeps {t : State} (h : P t) (b : List Byte) (lo n first : Nat) (ws : List Nat) : P (readSpan t b lo n first ws).1 := by
  induction ws generalizing t first with
  | nil => exact h
  | cons w ws ih =>
    have rows := readRows_keeps read h b w (Nat.max lo first - first) (Nat.min (lo + n) (first + dsShape b 0) - Nat.max lo first)
    rw [readSpan]
    split
    · next e1 => exact fst_of_eq rows e1
    · next e1 =>
      split
      · next e2 => exact fst_of_eq (ih (fst_of_eq rows e1) _) e2
      · next e2 => exact fst_of_eq (ih (fst_of_eq rows e1) _) e2

theorem readCols_keeps {t : State} (h : P t) (scope lo n : Nat) (bs : List (Bool × List Byte)) : P (readCols t scope lo n bs).1 := by
  induction bs generalizing t with
  | nil => exact h
  | cons x bs ih =>
    obtain ⟨used, b⟩ := x
    have column := ite_fst (c := used = true) (r' := (t, .ok [])) (readSpan_keeps read h b lo n 0 (windowsOf t scope b)) h
    rw [readCols]
    split
    · next e1 => exact fst_of_eq column e1
    · next e1 =>
      split
      · next e2 => exact fst_of_eq (ih (fst_of_eq column e1)) e2
      · next e2 => exact fst_of_eq (ih (fst_of_eq column e1)) e2

theorem readPart_keeps {t : State} (h : P t) (scope lo n : Nat) (ds : List (List Byte)) (cols : List Nat) : P (readPart t scope lo n ds cols).1 := by
  have columns := readCols_keeps read h scope lo n (((List.range ds.length).map cols.contains).zip ds)
  unfold readPart
  split
  · next e => exact fst_of_eq columns e
  · next e => exact fst_of_eq columns e

theorem readSetCols_keeps {t : State} (h : P t) (scope : Nat) (ds : List (List Byte)) (cols : List Nat) : P (readSetCols t scope ds cols).1 :=
  readPart_keeps read h ..

theorem scanLoadRun_keeps {t : State} (h : P t) (j : Job) (st : PlanStep) (pb : List Byte) : P (scanLoadRun t j st pb).1 := by
  unfold scanLoadRun
  dsimp only
  split
  · next e => exact fst_of_eq (readPart_keeps read h ..) e
  · next e => exact fst_of_eq (readPart_keeps read h ..) e

theorem scanRenumberRun_keeps {t : State} (h : P t) (peers : List (Nat × Nat)) (j : Job) (st : PlanStep) (pb : List Byte) :
    P (scanRenumberRun peers t j st pb).1 := by
  unfold scanRenumberRun
  dsimp only
  split
  · next e => exact fst_of_eq (readSetCols_keeps read h ..) e
  · next e => exact fst_of_eq (readSetCols_keeps read h ..) e

theorem computeRun_keeps {t : State} (h : P t) (j : Job) (st : PlanStep) (pb : List Byte) : P (computeRun t j st pb).1 := by
  unfold computeRun
  dsimp only
  split
  · next e => exact fst_of_eq (readSetCols_keeps read h ..) e
  · next e => exact fst_of_eq (readSetCols_keeps read h ..) e

theorem hashRun_keeps {t : State} (h : P t) (j : Job) (st : PlanStep) (pb : List Byte) : P (hashRun t j st pb).1 := by
  unfold hashRun
  dsimp only
  split
  · next e => exact fst_of_eq (readSetCols_keeps read h ..) e
  · next e => exact fst_of_eq (readSetCols_keeps read h ..) e

theorem normaliseRun_keeps {t : State} (h : P t) (j : Job) (st : PlanStep) (pb : List Byte) : P (normaliseRun t j st pb).1 := by
  unfold normaliseRun
  dsimp only
  split
  · next e => exact fst_of_eq (readSetCols_keeps read h ..) e
  · next e =>
    have rows := fst_of_eq (readSetCols_keeps read h ..) e
    have records := ite_fst (c := fieldN pb 0x34 4 = 0xFFFFFFFF) (r := (_, .ok [])) rows (readDesc_keeps read rows st.scope (opDesc j st 2))
    split
    · next e2 => exact fst_of_eq records e2
    · next e2 => exact fst_of_eq records e2

theorem selInput_keeps {t : State} (h : P t) (j : Job) (st : PlanStep) (pb : List Byte) : P (selInput t j st pb).1 := by
  unfold selInput
  dsimp only
  split
  · have elements := ite_fst (c := ownsShard (descBytes j.plan j.pos (operDist (st.opers.getD 0 0))) j.pos = true) (r' := (t, .ok []))
      (readDesc_keeps read h st.scope (opDesc j st 0)) h
    split
    · next e => exact fst_of_eq elements e
    · next e => exact fst_of_eq elements e
  · split
    · next e => exact fst_of_eq (readSetCols_keeps read h ..) e
    · next e => exact fst_of_eq (readSetCols_keeps read h ..) e

end

theorem noteCopies_readsOnly {s t : State} (h : ReadsOnly s t) (r : Resolved) : ReadsOnly s (noteCopies t r) := by
  have discarded : ReadsOnly s (if r.discarded = 0 then t else count t devKey 25 r.discarded) := by
    split
    · exact h
    · next hd => exact h.count devKey 25 (Nat.one_le_iff_ne_zero.2 hd)
  unfold noteCopies
  dsimp only
  split
  · exact discarded
  · next hm => exact (discarded.count devKey 26 (Nat.one_le_iff_ne_zero.2 hm)).stickySet devKey (by decide)

theorem selectionRun_readsOnly {s t : State} (hs : s.mem.synd = []) (h : ReadsOnly s t) (op : SelOp) (secA secB : List SelRec) (j : Job) (st : PlanStep)
    (pb : List Byte) : ReadsOnly s (selectionRun op secA secB t j st pb).1 := by
  have input := selInput_keeps (P := ReadsOnly s) (fun t a n ht => ht.readBytes hs a n) h j st pb
  unfold selectionRun
  split
  · next e => exact fst_of_eq input e
  · next e =>
    have copies := fun r => noteCopies_readsOnly (fst_of_eq input e) r
    dsimp only
    exact ite_fst (copies _) (copies _)

/-- A change of one job that `g` does not read. -/
theorem setJob_jobs_map {γ : Type} {g : Job → γ} {f : Job → Job} (s : State) (n : Word) (hf : ∀ j, g (f j) = g j := by intro _; rfl) :
    (setJob s n f).seq.jobs.map g = s.seq.jobs.map g := by
  rw [setJob_jobs, List.map_map]
  refine List.map_congr_left (fun j _ => ?_)
  dsimp only [Function.comp]
  split
  · exact hf j
  · rfl

theorem recordResult_nums (s : State) (j : Job) (r : ActRef) (x : ActResult) : (recordResult s j r x).seq.jobs.map (·.num) = s.seq.jobs.map (·.num) := by
  unfold recordResult
  exact setJob_jobs_map ..

end Sys2Proof.Laws

namespace Sys2Proof

open Machine Laws

/-- Settles O35. The operators of these commands only read (`ReadsOnly`), so their step records a result whatever the reads gave
(`runStep_of_readsOnly`), and a recorded result changes no job's number. -/
theorem stepsWriteNothingYet : Obligations.StepsWriteNothingYet := by
  unfold Obligations.StepsWriteNothingYet
  intro s t i secA secB peers hclean h
  have start : ReadsOnly (clearBad s) (clearBad s) := .refl rfl
  have read : ∀ u a n, ReadsOnly (clearBad s) u → ReadsOnly (clearBad s) (readBytes u a n).1 := fun u a n hu => hu.readBytes (s := clearBad s) hclean.1 a n
  obtain ⟨op, mode, f, hf, ht⟩ : ∃ op mode f, (∀ j st pb, ReadsOnly (clearBad s) (f (clearBad s) j st pb).1) ∧ t = runStep s i op mode f := by
    rcases h with h | h | h | h | h | h
    · exact ⟨_, _, _, scanLoadRun_keeps read start, (Host.Outcome.next.inj h).symm⟩
    · exact ⟨_, _, _, scanRenumberRun_keeps read start peers, (Host.Outcome.next.inj h).symm⟩
    · exact ⟨_, _, _, computeRun_keeps read start, (Host.Outcome.next.inj h).symm⟩
    · exact ⟨_, _, _, hashRun_keeps read start, (Host.Outcome.next.inj h).symm⟩
    · exact ⟨_, _, _, normaliseRun_keeps read start, (Host.Outcome.next.inj h).symm⟩
    · exact ⟨_, _, _, selectionRun_readsOnly (s := clearBad s) hclean.1 start selectOp secA secB, (Host.Outcome.next.inj h).symm⟩
  rcases runStep_of_readsOnly hf with hsame | ⟨u, j, x, hu, hrec⟩
  · obtain rfl : t = s := ht.trans hsame
    exact ⟨rfl, rfl, rfl, rfl, rfl, rfl, rfl, rfl, rfl, rfl, rfl, rfl, rfl⟩
  · obtain rfl := ht.trans hrec
    obtain ⟨b, v, rfl, -, -⟩ := hu
    exact ⟨rfl, recordResult_nums .., rfl, rfl, rfl, rfl, rfl, rfl, rfl, rfl, rfl, rfl, rfl⟩

end Sys2Proof
end

section
/-!
PROOFS. The end of an activity's occupancy (R111): it leaves the job, its stores are made, and nothing else of the end of a step writes memory
that is stored without errors.
-/
namespace Sys2Proof.Laws

open Sys2Proof.Machine

/-! ### Writes leave memory without stored errors -/

theorem flipApply_cleanMemory {s : State} (h : CleanMemory s) (a : Nat) : CleanMemory (flipApply s a) := by
  rw [flipApply_unarmed h.2]
  exact h

theorem storeWord_cleanMemory {s : State} (h : CleanMemory s) (a : Nat) (bs : List Byte) : CleanMemory (storeWord s a bs) := by
  unfold storeWord
  extract_lets m s1 s2
  have h1 : CleanMemory s1 := ⟨congrArg (sparseErase (a / 8)) h.1, h.2⟩
  have h2 : CleanMemory s2 := by
    unfold s2
    split
    · exact cleanMemory_of_eq h1 rfl rfl
    · exact h1
  exact flipApply_cleanMemory h2 a

theorem afterRead_cleanMemory {s : State} (h : CleanMemory s) (c : List Host.Cell) (w v : Nat) (z : Sparse (BitVec 8)) :
    CleanMemory (afterRead (readWord s w) c w v z) := by
  rw [readWord_clean h.1]
  unfold afterRead
  dsimp only
  rw [if_pos rfl]
  refine flipApply_cleanMemory ?_ w
  exact ⟨congrArg (sparseErase v) h.1, h.2⟩

theorem mergeFlushEntry_cleanMemory {s : State} (h : CleanMemory s) (b : Nat) (e : MergeEntry) : CleanMemory (mergeFlushEntry s b e) := by
  have dropped : CleanMemory { s with mem := mergeDrop s.mem b e.addr } := cleanMemory_of_eq h rfl rfl
  unfold mergeFlushEntry
  dsimp only
  split
  · exact storeWord_cleanMemory dropped ..
  · exact afterRead_cleanMemory dropped ..

theorem mergeWrite_cleanMemory {s : State} (h : CleanMemory s) (b a : Nat) (bs : List Byte) : CleanMemory (mergeWrite s b a bs) := by
  have put : ∀ es, CleanMemory { s with mem := mergePut s.mem b es } := fun _ => cleanMemory_of_eq h rfl rfl
  unfold mergeWrite
  extract_lets w es s1 e'
  clear_value es
  split
  · dsimp only
    split
    · exact mergeFlushEntry_cleanMemory (put _) ..
    · exact put _
  · have h1 : CleanMemory s1 := by
      unfold s1
      split
      · split
        · exact mergeFlushEntry_cleanMemory h ..
        · exact h
      · exact h
    exact cleanMemory_of_eq h1 rfl rfl

theorem writeInWord_cleanMemory {s : State} (h : CleanMemory s) (a : Nat) (bs : List Byte) : CleanMemory (writeInWord s a bs) := by
  unfold writeInWord
  split
  · exact cleanMemory_of_eq h rfl rfl
  · split
    · exact storeWord_cleanMemory h ..
    · split
      · exact mergeWrite_cleanMemory h ..
      · exact afterRead_cleanMemory h ..

theorem memWriteWords_cleanMemory : ∀ (n : Nat) {s : State} (a : Nat) (bs : List Byte), CleanMemory s → CleanMemory (memWriteWords n s a bs)
  | 0, _, _, _, h => h
  | n + 1, s, a, bs, h => by
    rw [memWriteWords]
    split
    · exact h
    · exact memWriteWords_cleanMemory n _ _ (writeInWord_cleanMemory h ..)

theorem foldl_invariant {β : Type} {P : State → Prop} {f : State → β → State} (h : ∀ t x, P t → P (f t x)) : ∀ (l : List β) {s : State}, P s → P (l.foldl f s)
  | [], _, hs => hs
  | x :: l, s, hs => foldl_invariant h l (h s x hs)

theorem memWriteAll_cleanMemory {s : State} (h : CleanMemory s) (ws : List (Nat × List Byte)) : CleanMemory (memWriteAll s ws) :=
  foldl_invariant (P := CleanMemory) (fun _ w ht => memWriteWords_cleanMemory _ w.1 w.2 ht) ws h

/-! ### What the end of a step leaves in memory -/

/-- Memory holds these bytes, without stored errors, and no client waits for a completion. -/
structure Holds (c : List Host.Cell) (t : State) : Prop where
  cells : t.mem.cells = c
  clean : t.mem.synd = []
  idle : t.vmp.outstanding = []

section
variable {c : List Host.Cell} {s : State}

theorem Holds.of_eq {t : State} (h : Holds c s) (hm : t.mem = s.mem) (hv : t.vmp = s.vmp) : Holds c t :=
  ⟨hm ▸ h.cells, hm ▸ h.clean, hv ▸ h.idle⟩

theorem countIf_holds (h : Holds c s) (k n m : Nat) : Holds c (countIf s k n m) := h.of_eq (countIf_mem ..) (countIf_vmp ..)

theorem dealCount_holds (h : Holds c s) (n m : Nat) (ks : List Nat) : Holds c (dealCount s n m ks) := by
  induction ks generalizing s m with
  | nil => exact h
  | cons k ks ih =>
    cases ks with
    | nil => exact countIf_holds h ..
    | cons k' ks =>
      rw [dealCount]
      · split
        · exact h
        · have drawn : Holds c { s with free := s.free + 1 } := h.of_eq rfl rfl
          exact ih (countIf_holds drawn ..) _
      · simp

theorem noteCores_holds (h : Holds c s) (st : PlanStep) (r : ActResult) : Holds c (noteCores s st r) := by
  unfold noteCores
  extract_lets cs s1 s2
  have h1 : Holds c s1 := foldl_invariant (P := Holds c) (fun t k ht => ht.of_eq (count_mem ..) (count_vmp ..)) _ h
  have h2 : Holds c s2 := foldl_invariant (P := Holds c) (fun t x ht => countIf_holds (countIf_holds ht ..) ..) _ h1
  split
  · exact h
  · exact dealCount_holds (dealCount_holds h2 ..) ..

/-- A slot image is read from memory and sent. -/
theorem sendImage_holds (h : Holds c s) (t : EmbTable) (v : TableVersion) (g : Migration) (i : Nat) : Holds c (sendImage s t v g i) := by
  have read : Holds c (memRead s (g.old.getD i 0) (slotBytes t.body)).st := by
    rw [memRead_clean_st h.clean]
    exact ⟨h.cells, h.clean, h.idle⟩
  unfold sendImage
  dsimp only
  split
  · exact read
  · exact read.of_eq (sendTo_mem ..) (sendTo_vmp ..)

theorem logMigration_holds (h : Holds c s) (t : EmbTable) (v : TableVersion) (r : ActResult) : Holds c (logMigration s t v r) := by
  unfold logMigration
  split
  · exact h
  · split
    · refine foldl_invariant (P := Holds c) (fun u i hu => ?_) _ h
      unfold logRow
      dsimp only
      split
      · exact sendImage_holds hu ..
      · exact hu
    · exact h

theorem advanceGen_holds (h : Holds c s) (j : Job) (a : Activity) (st : PlanStep) (r : ActResult) : Holds c (advanceGen s j a st r) := by
  unfold advanceGen
  split
  · split
    · exact (logMigration_holds h ..).of_eq rfl rfl
    · exact h
  · exact h

theorem dropForwarded_holds (h : Holds c s) (j : Job) (a : Activity) (st : PlanStep) : Holds c (dropForwarded s j a st) := by
  unfold dropForwarded
  split
  · split
    · exact h.of_eq rfl rfl
    · exact h
  · exact h

theorem freeTables_holds (h : Holds c s) (j : Job) (st : PlanStep) : Holds c (freeTables s j st) := by
  unfold freeTables
  split
  · exact foldl_invariant (P := Holds c) (fun t d ht => ht.of_eq (hardyMod_mem t d _) (hardyMod_vmp t d _)) _ h
  · exact h

/-- The end of a step that records no completion writes no memory. -/
theorem endStep_holds (h : Holds c s) (j : Job) (a : Activity) {i : Nat} (r : ActResult) (hrec : stepRecords (stepAt j.plan i) = false) :
    Holds c (endStep s j a i r) := by
  unfold endStep
  extract_lets st s1 rep s2 s3
  have h1 : Holds c s1 := noteCores_holds h ..
  clear_value s1
  have h2 : Holds c s2 := by
    unfold s2
    split
    · next hr => exact absurd (hrec.symm.trans hr) Bool.false_ne_true
    · exact h1
  clear_value s2
  have h3 : Holds c s3 := freeTables_holds (dropForwarded_holds (advanceGen_holds h2 ..) ..) ..
  clear_value s3
  split
  · have stopped : ∀ b, Holds c (stopJob s3 j.num b) := fun b => h3.of_eq (setJob_mem ..) (setJob_vmp ..)
    exact (stopped _).of_eq (sendTo_mem ..) (sendTo_vmp ..)
  · exact h3

theorem completeMigration_idle (h : s.vmp.outstanding = []) (g : Migration) (st : BitVec 16) : completeMigration s g st = s := by
  unfold completeMigration
  split
  · unfold complete
    rw [h]
    rfl
  · rfl

/-- What frees versions and curves posts no completion where no client waits for one. -/
theorem sweepStores_holds (h : Holds c s) : Holds c (sweepStores s) := by
  have swept : Holds c (sweepVersions s) := by
    unfold sweepVersions
    extract_lets gone migs eng s1
    rw [List.foldl_fixed' (fun g => completeMigration_idle (s := s1) h.idle g _)]
    exact h.of_eq rfl rfl
  exact swept.of_eq rfl rfl

end

/-! ### The end of an activity -/

theorem landHeavy_mem (s : State) (moved : List HeavySet) (r : ActResult) : (landHeavy s moved r).mem = s.mem := by
  unfold landHeavy
  split <;> rfl

theorem landHeavy_vmp (s : State) (moved : List HeavySet) (r : ActResult) : (landHeavy s moved r).vmp = s.vmp := by
  unfold landHeavy
  split <;> rfl

theorem actOf_ref {j : Job} {r : ActRef} {a : Activity} (h : actOf j r = some a) : a.ref = r := by
  have href := List.find?_some h
  exact eq_of_beq href

/-- A step's stores are made, and no others. -/
theorem finishActivity_cells {s : State} (hs : CleanMemory s) (hv : s.vmp.outstanding = []) {j : Job} {a : Activity} {i : Nat} (ha : a.ref = .step i)
    {x : ActResult} (hx : x.flows = []) (hrec : stepRecords (stepAt j.plan i) = false) :
    (finishActivity s j a x).mem.cells = (memWriteAll (clearBad s) x.writes).mem.cells := by
  have written : Holds (memWriteAll (clearBad s) x.writes).mem.cells (memWriteAll (clearBad s) x.writes) := by
    refine ⟨rfl, (memWriteAll_cleanMemory (cleanMemory_of_eq (t := clearBad s) hs rfl rfl) _).1, ?_⟩
    rw [memWriteAll_part]
    exact hv
  unfold finishActivity
  extract_lets off s1 r s2 s3
  have h1 : Holds (memWriteAll (clearBad s) x.writes).mem.cells s1 := written.of_eq (landHeavy_mem ..) (landHeavy_vmp ..)
  have hflows : r.flows = [] := by
    unfold r
    split
    · exact hx
    · exact hx
  have h2 : s2 = s1 := by
    unfold s2
    rw [hflows]
    rfl
  have h3 : s3 = endStep s2 j a i r := by
    unfold s3
    rw [ha]
  have ended := endStep_holds (h2 ▸ h1) j a r hrec
  exact (sweepStores_holds ((h3 ▸ ended).of_eq (t := setJob s3 j.num _) rfl rfl)).cells

/-- The activity leaves its job. -/
theorem finishActivity_gone (s : State) (j : Job) (a : Activity) (x : ActResult) :
    ∀ k ∈ (finishActivity s j a x).seq.jobs, k.num = j.num → actOf k a.ref = none := by
  unfold finishActivity
  extract_lets off s1 r s2 s3
  rw [sweepStores_seq, setJob_jobs]
  intro k hk hnum
  obtain ⟨y, -, rfl⟩ := List.mem_map.1 hk
  by_cases hy : y.num = j.num
  · rw [if_pos hy]
    exact List.find?_eq_none.2 fun b hb => by simpa using (List.mem_filter.1 hb).2
  · rw [if_neg hy] at hnum
    exact absurd hnum hy

theorem exec_activityOccupancyEnd {s : State} {r : ActRef} {j : Job} {a : Activity} {x : ActResult} (hj : runningJob s = some j) (ha : actOf j r = some a)
    (hx : a.result = some x) : exec (.activityOccupancyEnd r) s = .next (if a.last ≤ now s then finishActivity s j a x else s) := by
  change execActivityOccupancyEnd r s = _
  simp only [execActivityOccupancyEnd, hj, ha, hx]

theorem exec_activityOccupancyEnd_of_no_result {s : State} {r : ActRef} {j : Job} {a : Activity} (hj : runningJob s = some j) (ha : actOf j r = some a)
    (hx : a.result = none) : exec (.activityOccupancyEnd r) s = .next s := by
  change execActivityOccupancyEnd r s = _
  simp only [execActivityOccupancyEnd, hj, ha, hx]

end Sys2Proof.Laws

namespace Sys2Proof

open Machine Laws

/-- Settles O33. At the end of the occupancy the activity leaves its job (`finishActivity_gone`) and memory holds its stores and no others
(`finishActivity_cells`); before it, or without a result, the command does nothing. -/
theorem activityResultsAppear : Obligations.ActivityResultsAppear := by
  unfold Obligations.ActivityResultsAppear
  refine ⟨fun s r j a x hj ha hres hlast => ?_, fun s i j a x hj ha hres hlast hflows hidle hrec hclean => ?_, fun s r j a hj ha h => ?_⟩
  · refine ⟨finishActivity s j a x, ?_, actOf_ref ha ▸ finishActivity_gone s j a x⟩
    rw [exec_activityOccupancyEnd hj ha hres, if_pos hlast]
  · refine ⟨finishActivity s j a x, ?_, finishActivity_cells hclean hidle (actOf_ref ha) hflows hrec⟩
    rw [exec_activityOccupancyEnd hj ha hres, if_pos hlast]
  · cases hres : a.result with
    | none => exact exec_activityOccupancyEnd_of_no_result hj ha hres
    | some x =>
      have hlast : now s < a.last := h.resolve_left (by rw [hres]; exact Option.some_ne_none x)
      rw [exec_activityOccupancyEnd hj ha hres, if_neg (Nat.not_le.2 hlast)]

end Sys2Proof
end

section
/-!
PROOFS. How a plan starts, stops and ends (R112, R127, R354, R367): what a start and an end make of the job, and that the work which follows a
start leaves it started.
-/
namespace Sys2Proof.Laws

open Sys2Proof.Machine

/-! ### The job at the head of the queue, and the one that runs -/

theorem runningJob_mem {s : State} {j : Job} (h : runningJob s = some j) : j ∈ s.seq.jobs ∧ j.phase = .running :=
  ⟨List.mem_of_find?_eq_some h, eq_of_beq (List.find?_some (p := fun j : Job => j.phase == .running) h)⟩

/-- What a fold picks whose steps keep their choice or take the element is in the list, or was the choice before. -/
theorem mem_of_foldl_pick {α : Type} {f : Option α → α → Option α} (hf : ∀ acc x y, f acc x = some y → acc = some y ∨ x = y) {y : α} :
    ∀ {l : List α} {acc : Option α}, l.foldl f acc = some y → y ∈ l ∨ acc = some y
  | [], _, h => .inr h
  | x :: l, acc, h => by
    rcases mem_of_foldl_pick hf (l := l) h with hl | hacc
    · exact .inl (List.mem_cons_of_mem x hl)
    · rcases hf _ _ _ hacc with hacc | rfl
      · exact .inr hacc
      · exact .inl List.mem_cons_self

theorem firstQueued_mem {s : State} {j : Job} (h : firstQueued s = some j) : j ∈ s.seq.jobs := by
  have picked := mem_of_foldl_pick (fun acc x y hxy => ?_) h
  · rcases picked with hq | hnone
    · exact (List.mem_filter.1 hq).1
    · cases hnone
  · cases acc with
    | none => exact .inr (Option.some.inj hxy)
    | some a =>
      dsimp only at hxy
      split at hxy
      · exact .inr (Option.some.inj hxy)
      · exact .inl hxy

/-! ### The end of a job -/

/-- The job of number n that ended in this strike with a status and the step that it names. -/
structure EndedNow (s : State) (n : Word) (status : BitVec 16) (step : BitVec 32) (y : Job) : Prop where
  num : y.num = n
  phase : y.phase = .ended
  status : y.endStatus = status
  step : y.endStep = step
  acts : y.acts = []
  strike : y.endedAt = some (now s)

/-- R354: a running job that ends has its end status, and its activities are gone. -/
theorem endJob_endedNow {s : State} {j : Job} (hj : j ∈ s.seq.jobs) (hr : j.phase = .running) (st : BitVec 16) (a b c : BitVec 32) :
    ∃ y ∈ (endJob s j.num st a b c).seq.jobs, EndedNow s j.num st a y := by
  unfold endJob
  split
  · next hnone => exact absurd (List.find?_eq_none.1 hnone j hj) (by simp [hr])
  · next i hsome =>
    have hi : i.num = j.num := by
      have := List.find?_some hsome
      simp only [Bool.and_eq_true, beq_iff_eq] at this
      exact this.1
    extract_lets off i' i''
    exact ⟨i'', List.mem_map.2 ⟨j, hj, if_pos (beq_self_eq_true _)⟩, hi, rfl, rfl, rfl, rfl, rfl⟩

theorem endJob_quench (s : State) (n : Word) (st : BitVec 16) (a b c : BitVec 32) : (endJob s n st a b c).quench = s.quench := by
  unfold endJob
  split <;> rfl

theorem abandonHold_hold (s : State) : (abandonHold s).quench.hold = none := by
  unfold abandonHold
  split
  · next h => exact h
  · rfl

theorem abandonHold_kind {s : State} (hh : s.quench.hold ≠ none) : (abandonHold s).seq.kind = .run := by
  unfold abandonHold
  split
  · next hnone => exact absurd hnone hh
  · extract_lets _ s1 s2 s3
    have h2 : s2.seq.kind = .run := by
      unfold s2
      split <;> rfl
    have h3 : s3.seq = s2.seq := foldl_seq (fun t p => closePartition_seq t p _ _) _ s2
    rw [quenchMod_seq, h3, h2]

/-! ### When a job ends -/

section
variable {s : State} {j : Job} {st : Stop}

/-- R127: from its stop boundary on a job without activities ends with the stop's status. -/
theorem endIfDone_stopped (hj : runningJob s = some j) (hh : s.quench.hold = none) (ha : j.acts = []) (hs : j.stop = some st) (hb : st.boundary ≤ now s) :
    endIfDone s = abandonHold (endJob s j.num st.status st.step j.endRecord j.endBlock) := by
  simp only [endIfDone, hj, hh, ha, hs, decide_eq_true hb, Option.isSome_none, Bool.false_and, Bool.false_eq_true, if_false, List.isEmpty_nil, Bool.not_true,
    Option.any_some, Option.isSome_some, if_true, ite_self]

/-- A job of which no stop was decided ends after LENGTH. -/
theorem endIfDone_length (hj : runningJob s = some j) (hh : s.quench.hold = none) (ha : j.acts = []) (hs : j.stop = none) (hk : s.seq.kind = .run)
    (hl : plLength j.plan ≤ offsetNow s j) : endIfDone s = abandonHold (endJob s j.num 0x0000 0xFFFFFFFF 0xFFFFFFFF 0) := by
  simp only [endIfDone, hj, hh, ha, hs, hk, decide_eq_true hl, Option.isSome_none, Bool.false_and, Bool.false_eq_true, if_false, List.isEmpty_nil,
    Bool.not_true, beq_self_eq_true, Bool.and_self, if_true]

/-- R367: a stop boundary that comes in a hold ends the job there. -/
theorem endIfDone_held {h : Hold} (hj : runningJob s = some j) (hh : s.quench.hold = some h) (hs : j.stop = some st) (hb : st.boundary ≤ now s)
    (hk : s.seq.kind ≠ .run) : endIfDone s = abandonHold (endJob s j.num st.status st.step j.endRecord j.endBlock) := by
  have hover : recoverableJob s = none := by
    simp only [recoverableJob, hj, hs, if_neg (Nat.not_lt.2 hb)]
  simp only [endIfDone, hj, hh, hs, hover, beq_eq_false_iff_ne.2 hk, Option.isSome_some, Option.isNone_none, Bool.and_self, if_true, Bool.false_eq_true,
    if_false]

/-- A job with activities, or with neither a stop nor the last offset behind it, goes on. -/
theorem endIfDone_goes_on (hj : runningJob s = some j) (hh : s.quench.hold = none)
    (hgo : j.acts ≠ [] ∨ (j.stop = none ∧ (s.seq.kind ≠ .run ∨ offsetNow s j < plLength j.plan))) : endIfDone s = s := by
  simp only [endIfDone, hj, hh, Option.isSome_none, Bool.false_and, Bool.false_eq_true, if_false]
  rcases hgo with ha | ⟨hs, hl⟩
  · rw [if_pos (by simpa using ha)]
  · have hrun : (s.seq.kind == .run && decide (plLength j.plan ≤ offsetNow s j)) = false := by
      rw [Bool.and_eq_false_iff, beq_eq_false_iff_ne, decide_eq_false_iff_not, Nat.not_le]
      exact hl
    simp only [hrun, hs, Option.any_none, Bool.false_eq_true, if_false, ite_self]

end

/-! ### The start of a job -/

/-- What the start of a job fixes: its number, phase, first strike, the hold at its start and its plan. -/
def startOf (j : Job) : Word × JobPhase × Nat × Nat × List Byte := (j.num, j.phase, j.startStrike, j.holdAtStart, j.plan)

/-- The starts of all jobs. -/
def starts (s : State) : List (Word × JobPhase × Nat × Nat × List Byte) := s.seq.jobs.map startOf

theorem starts_of_seq {s t : State} (h : t.seq = s.seq) : starts t = starts s := congrArg (fun q : Sequencer => q.jobs.map startOf) h

theorem setJob_starts {f : Job → Job} (s : State) (n : Word) (hf : ∀ j, startOf (f j) = startOf j := by intro _; rfl) :
    starts (setJob s n f) = starts s := setJob_jobs_map s n hf

theorem releaseRings_starts (s : State) (n : Word) (c : Nat) : starts (releaseRings s n c) = starts s := by
  unfold releaseRings
  split
  · rfl
  · extract_lets kept isDue s1
    exact (starts_of_seq (foldl_seq headPast_seq _ s1)).trans (setJob_starts ..)

theorem commitPlan_starts (s : State) (j : Job) : starts (commitPlan s j) = starts s :=
  (releaseRings_starts ..).trans (setJob_starts ..)

theorem markFlows_starts (s : State) (j : Job) : starts (markFlows s j) = starts s := by
  unfold markFlows
  dsimp only
  split
  · exact setJob_starts ..
  · rfl

theorem startWork_starts (s : State) (j : Job) : starts (startWork s j) = starts s := by
  unfold startWork
  extract_lets off stopped blocked new s1
  split
  · rfl
  · exact (starts_of_seq (foldl_seq (fun t a => noteStart_seq t j a) new s1)).trans (setJob_starts ..)

theorem runWork_starts (s : State) : starts (runWork s) = starts s := by
  unfold runWork
  split
  · rfl
  · next j _ =>
    rw [starts_of_seq (markProgress_seq ..), startWork_starts, markFlows_starts]
    split
    · exact commitPlan_starts ..
    · rfl

theorem holdRings_starts (s : State) : starts (holdRings s) = starts s := by
  unfold holdRings
  split
  · rfl
  · refine foldl_keep _ starts (fun t a => ?_) _ s
    split
    · extract_lets h t1
      have h1 : starts t1 = starts t := by
        unfold t1
        split
        · exact setJob_starts ..
        · rfl
      split
      · split
        · exact (starts_of_seq (startedLate_seq ..)).trans h1
        · exact h1
      · rfl
    · rfl

theorem clearMisses_seq (s : State) : (clearMisses s).seq = s.seq := forKeys_seq (fun t k => flagsMod_seq t k _) s _

/-- A job as it begins to run in this strike. -/
def begun (s : State) (j : Job) : Job := { j with phase := .running, startStrike := now s, holdAtStart := s.seq.hold, committed := 0, moved := 0 }

theorem begun_mem {s : State} {j : Job} (hj : j ∈ s.seq.jobs) : begun s j ∈ (setJob s j.num (begun s)).seq.jobs := by
  rw [setJob_jobs]
  exact List.mem_map.2 ⟨j, hj, if_pos rfl⟩

theorem startedWork_starts (s : State) : starts (holdRings (runWork (clearMisses (deadlineComparators s)))) = starts s := by
  rw [holdRings_starts, runWork_starts, starts_of_seq (clearMisses_seq _), starts_of_seq (deadlineComparators_seq _)]

theorem exec_planStart_runs {s : State} {j : Job} (hq : firstQueued s = some j) (hm : mayStart s j = true) (hs : startStatus s j = none) :
    exec .planStart s = .next (holdRings (runWork (clearMisses (deadlineComparators (setJob s j.num (begun s)))))) := by
  change execPlanStart s = _
  simp only [execPlanStart, hq, hm, hs, Bool.not_true, Bool.false_eq_true, if_false]
  rfl

/-- A job that may not run ends as it starts; one that is late counts as never started. -/
theorem exec_planStart_ends {s : State} {j : Job} {st : BitVec 16} (hq : firstQueued s = some j) (hm : mayStart s j = true)
    (hs : startStatus s j = some st) :
    exec .planStart s = .next (deadlineComparators (if st = 0x0500 then
        setJob (endJob (setJob s j.num (begun s)) j.num st 0xFFFFFFFF 0xFFFFFFFF 0) j.num (fun i => { i with startStrike := 0 })
      else endJob (setJob s j.num (begun s)) j.num st 0xFFFFFFFF 0xFFFFFFFF 0)) := by
  change execPlanStart s = _
  simp only [execPlanStart, hq, hm, hs, Bool.not_true, Bool.false_eq_true, if_false]
  rfl

/-! ### A stop that a member announces -/

/-- R127: of two stops the earlier boundary wins, of one boundary the lower step. -/
theorem mergeStop_eq (o : Option Stop) (n : Stop) : mergeStop o n = some (match o with
    | none => n
    | some a => if n.boundary < a.boundary ∨ (n.boundary = a.boundary ∧ n.step.toNat < a.step.toNat) then n else a) := by
  cases o with
  | none => rfl
  | some a => exact (apply_ite some ..).symm

theorem hearPlanEnd_jobs (s : State) (job : Word) (status : BitVec 16) (step endStrike : Nat) : (hearPlanEnd s job status step endStrike).seq.jobs =
    s.seq.jobs.map (fun j => if j.num = job ∧ j.phase = .running then
      { j with stop := mergeStop j.stop { boundary := (heatOf (endStrike + 1) + 2) * 4096, status := status, step := BitVec.ofNat 32 step } } else j) := by
  unfold hearPlanEnd stopJob
  rw [setJob_jobs]
  refine List.map_congr_left (fun j _ => ?_)
  simp only [beq_iff_eq, ite_and]

end Sys2Proof.Laws

namespace Sys2Proof

open Machine Laws

/-- Settles O31. A start leaves the job running, whatever work follows it (`startedWork_starts`), or ended (`endJob_endedNow`); PLAN_STOP ends it at its
stop boundary, after LENGTH, or at a stop that comes in a hold (the `endIfDone` lemmas), and the end of the hold leaves the jobs as they are. -/
theorem planStartsAndStops : Obligations.PlanStartsAndStops := by
  unfold Obligations.PlanStartsAndStops
  refine ⟨fun s j hq hm hs => ?_, fun s j st hq hm hs => ?_, fun s hq => ?_, fun s job status step endStrike => ?_, fun s j st hj hh ha hs hb => ?_,
    fun s j hj hh ha hs hk hl => ?_, fun s j st h hj hh hs hb hk => ?_, fun s j hj hh hgo => ?_⟩
  · refine ⟨_, exec_planStart_runs hq hm hs, ?_⟩
    have hmem : startOf (begun s j) ∈ starts (setJob s j.num (begun s)) := List.mem_map_of_mem (begun_mem (firstQueued_mem hq))
    rw [← startedWork_starts] at hmem
    obtain ⟨x, hx, hstart⟩ := List.mem_map.1 hmem
    simp only [startOf, begun, Prod.mk.injEq] at hstart
    obtain ⟨hnum, hphase, hstrike, hhold, hplan⟩ := hstart
    exact ⟨x, hx, hnum, hphase, hstrike, hhold, hplan⟩
  · refine ⟨_, exec_planStart_ends hq hm hs, ?_⟩
    obtain ⟨y, hy, hend⟩ := endJob_endedNow (begun_mem (firstQueued_mem hq)) rfl st 0xFFFFFFFF 0xFFFFFFFF 0
    rw [deadlineComparators_seq]
    split
    · refine ⟨{ y with startStrike := 0 }, ?_, hend.num, hend.phase, hend.status, hend.acts⟩
      rw [setJob_jobs]
      exact List.mem_map.2 ⟨y, hy, if_pos hend.num⟩
    · exact ⟨y, hy, hend.num, hend.phase, hend.status, hend.acts⟩
  · change execPlanStart s = _
    rw [execPlanStart, hq]
  · refine ⟨_, rfl, (hearPlanEnd_jobs ..).trans (List.map_congr_left (fun j _ => ?_))⟩
    rw [mergeStop_eq]
    rfl
  · obtain ⟨hmem, hrun⟩ := runningJob_mem hj
    obtain ⟨x, hx, hend⟩ := endJob_endedNow hmem hrun st.status st.step j.endRecord j.endBlock
    refine ⟨_, congrArg Host.Outcome.next (endIfDone_stopped hj hh ha hs hb), x, ?_, hend.num, hend.phase, hend.status, hend.step, hend.strike⟩
    rw [abandonHold_jobs]
    exact hx
  · obtain ⟨hmem, hrun⟩ := runningJob_mem hj
    obtain ⟨x, hx, hend⟩ := endJob_endedNow hmem hrun 0x0000 0xFFFFFFFF 0xFFFFFFFF 0
    refine ⟨_, congrArg Host.Outcome.next (endIfDone_length hj hh ha hs hk hl), x, ?_, hend.num, hend.phase, hend.status⟩
    rw [abandonHold_jobs]
    exact hx
  · obtain ⟨hmem, hrun⟩ := runningJob_mem hj
    obtain ⟨x, hx, hend⟩ := endJob_endedNow hmem hrun st.status st.step j.endRecord j.endBlock
    refine ⟨_, congrArg Host.Outcome.next (endIfDone_held hj hh hs hb hk), abandonHold_hold _, abandonHold_kind ?_, x, ?_, hend.num, hend.phase, hend.status⟩
    · rw [endJob_quench, hh]
      exact Option.some_ne_none h
    · rw [abandonHold_jobs]
      exact hx
  · exact congrArg Host.Outcome.next (endIfDone_goes_on hj hh hgo)

end Sys2Proof
end

section
/-!
PROOFS. The requests about jobs (R122, R354, R355): what a submission, a cancel and a new deadline make of the jobs, and what else of these
commands leaves them as they are.
-/
namespace Sys2Proof.Laws

open Sys2Proof.Machine

/-! ### What a request leaves of the sequencer -/

@[simp] theorem respond_seq (s : State) (k : Nat) (m : List Byte) (st : BitVec 16) (b : List Byte) : (respond s k m st b).seq = s.seq := postMessage_seq ..

@[simp] theorem respondAccepted_seq (s : State) (k : Nat) (m b : List Byte) : (respondAccepted s k m b).seq = s.seq := respond_seq ..

@[simp] theorem readRef_seq (s : State) (a n : Nat) : (readRef s a n).1.seq = s.seq := by
  rw [readRef_part]
  rfl

theorem readRef_ok_seq {s t : State} {a n : Nat} {bs : List Byte} (h : readRef s a n = (t, .ok bs)) : t.seq = s.seq := by
  have hseq := readRef_seq s a n
  rwa [h] at hseq

theorem readRequest_seq (s : State) (k : Nat) : (readRequest s k).1.seq = s.seq := by
  unfold readRequest
  dsimp only
  split
  · rfl
  · split
    · rw [eccLog_part]
      rfl
    · exact memRead_seq ..

theorem consume_seq (s : State) (k : Nat) : (consume s k).seq = s.seq := by
  unfold consume
  split <;> rfl

/-- What takes a request from its ring leaves the sequencer. -/
theorem Taken.seq {s t : State} {k op : Nat} {m : List Byte} (h : Taken s k op m t) : t.seq = s.seq := by
  obtain ⟨s1, -, read, -, -, -, rfl⟩ := h
  have hread : s1.seq = s.seq := by
    have := readRequest_seq s k
    rwa [read] at this
  split
  · rw [consume_seq, hread]
  · rw [renewLease, leaseComparator_seq]
    exact (consume_seq ..).trans hread

theorem writeRanges_seq (s : State) (rs : List (Nat × Nat)) (bs : List Byte) : (writeRanges s rs bs).seq = s.seq := by
  induction rs generalizing s bs with
  | nil => rfl
  | cons r rs ih => rw [writeRanges, ih, memWrite_seq]

theorem tellChanges_seq (s : State) (ds : List Nat) : (tellChanges s ds).seq = s.seq := foldl_seq (fun _ _ => sendTo_seq ..) _ s

/-! ### Submission (R122, R123) -/

/-- The plan's job joins the queue, and no other job changes. -/
theorem queuePlan_jobs (s : State) (num : Word) (client : BitVec 12) (pair : Nat) (tag : BitVec 16) (accepted deadline : Nat) (p : List Byte) :
    (queuePlan s num client pair tag accepted deadline p).seq.jobs =
      s.seq.jobs ++ [newJob s num client pair tag accepted deadline (planRanges s p.length) p] := by
  unfold queuePlan
  dsimp only
  rw [tellChanges_seq, tellAhead_seq, deadlineComparators_seq]
  dsimp only
  rw [writeRanges_seq]

theorem takePlan_jobs (s : State) (k : Nat) (m : List Byte) (deadline : Nat) (p : List Byte) : ∃ j, (takePlan s k m deadline p).seq.jobs = s.seq.jobs ++ [j] ∧
    j.plan = p ∧ j.phase = .queued ∧ j.num = nextJob s ∧ j.client = msgClient m ∧ j.tag = msgTag m ∧ j.accepted = now s ∧ j.deadline = deadline := by
  unfold takePlan
  extract_lets num _ s1 s2
  have h1 : s1.seq = s.seq := measure_seq ..
  refine ⟨newJob (respondAccepted s1 k m (leBytes 8 num.toNat)) num (msgClient m) k (msgTag m) (now s) deadline (planRanges (respondAccepted s1 k m (leBytes 8 num.toNat)) p.length) p,
    ?_, rfl, rfl, rfl, rfl, rfl, rfl, rfl⟩
  rw [sendTo_seq]
  unfold s2
  rw [queuePlan_jobs, respondAccepted_seq, h1]

section
variable {t t1 : State} {k : Nat} {m p : List Byte} {remote : List MemberCheck} (halign : fieldN (msgBody m) 0 8 % 64 = 0)
  (hread : readRef t (fieldN (msgBody m) 0 8) (fieldN (msgBody m) 8 8) = (t1, .ok p))
include halign hread

theorem serveOpSubmit_accepted (h : acceptPlan t1 p (msgTarget m) (fieldN (msgBody m) 16 8) remote = none) :
    serveOpSubmit k remote t m = takePlan t1 k m (fieldN (msgBody m) 16 8) p := by
  unfold serveOpSubmit
  dsimp only
  rw [if_neg (not_not.2 halign), withRef_ok hread, h]

/-- A plan that fails a check is answered with its diagnosis. -/
theorem serveOpSubmit_refused {d : Diag} (h : acceptPlan t1 p (msgTarget m) (fieldN (msgBody m) 16 8) remote = some d) :
    (serveOpSubmit k remote t m).seq = t1.seq := by
  unfold serveOpSubmit
  dsimp only
  rw [if_neg (not_not.2 halign), withRef_ok hread, h]
  exact respond_seq ..

end

/-! ### Cancels (R127, R354) -/

theorem touchable_num {s : State} {k : Nat} {m : List Byte} {num : Word} {j : Job} (h : touchable s k m num = some j) : j.num = num := by
  have hj := List.find?_some h
  simp only [Bool.and_eq_true, beq_iff_eq] at hj
  exact hj.1.1

/-- The job waits no more, and has a stop if it runs. -/
def Cancelled (j : Job) : Prop := j.phase ≠ .queued ∧ (j.phase = .running → j.stop.isSome = true)

theorem cancelJob_cancelled (s : State) (j : Job) (n : Nat) (st : BitVec 16) : Cancelled (cancelJob s j n st) := by
  unfold cancelJob
  cases hp : j.phase with
  | queued => exact ⟨JobPhase.noConfusion, JobPhase.noConfusion⟩
  | running =>
    refine ⟨JobPhase.noConfusion, fun _ => ?_⟩
    dsimp only
    split
    · split <;> rfl
    · rfl
  | ended => exact ⟨fun h => JobPhase.noConfusion (hp.symm.trans h), fun h => JobPhase.noConfusion (hp.symm.trans h)⟩

/-- Every job of number n is cancelled. -/
def AllCancelled (n : Word) (s : State) : Prop := ∀ x ∈ s.seq.jobs, x.num = n → Cancelled x

theorem modJobs_allCancelled (s u : State) (n : Word) (from' : Nat) (st : BitVec 16) :
    AllCancelled n (modJobs s (fun j => j.num == n) (fun j => cancelJob u j from' st)) := by
  intro x hx hnum
  obtain ⟨y, -, rfl⟩ := List.mem_map.1 hx
  dsimp only at hnum ⊢
  split
  · exact cancelJob_cancelled ..
  · next hne =>
    rw [if_neg hne] at hnum
    exact absurd (beq_iff_eq.2 hnum) hne

/-- The completion of an ended job cancels no cancel: it marks the job completed and forgets the ones longest ended. -/
theorem finishJob_allCancelled {s : State} {n : Word} (h : AllCancelled n s) (j : Job) : AllCancelled n (finishJob s j) := by
  unfold finishJob
  extract_lets s1 s2 ended drop s3
  have h1 : s1.seq = s.seq := by
    unfold s1
    split
    · rfl
    · exact foldl_seq (fun _ _ => memWrite_seq ..) _ s
  intro x hx hnum
  rw [complete_seq, deadlineComparators_seq] at hx
  have hx2 : x ∈ (setJob s1 j.num (fun j => { j with completed := true })).seq.jobs := (List.mem_filter.1 hx).1
  rw [setJob_jobs, h1] at hx2
  obtain ⟨y, hy, rfl⟩ := List.mem_map.1 hx2
  split at hnum
  · next hj =>
    rw [if_pos hj]
    exact h y hy hnum
  · next hj =>
    rw [if_neg hj]
    exact h y hy hnum

theorem cancelHere_allCancelled (s : State) (n : Word) (from' : Nat) (st : BitVec 16) : AllCancelled n (cancelHere s n from' st) :=
  List.foldlRecOn _ _ (modJobs_allCancelled s s n from' st) (fun _ h j _ => finishJob_allCancelled h j)

theorem serveOpCancel_agreed {t : State} {k : Nat} {m : List Byte} {answers : List MemberAnswer} {j : Job} (hj : touchable t k m (jobArg m) = some j)
    (hg : (groupAnswer t (plGroup j.plan) (0, []) answers).1 = 0) : AllCancelled (jobArg m) (serveOpCancel k answers t m) := by
  unfold serveOpCancel
  rw [hj]
  simp only [hg, bne_self_eq_false, Bool.false_eq_true, if_false, touchable_num hj]
  exact cancelHere_allCancelled _ _ _ _

/-! ### Deadlines (R355) -/

theorem setDeadline_deadline {s : State} {n : Word} {d : Nat} {x : Job} (hx : x ∈ (setDeadline s n d).seq.jobs) (hnum : x.num = n) (hp : x.phase ≠ .ended) :
    x.deadline = d := by
  rw [setDeadline, deadlineComparators_seq] at hx
  obtain ⟨y, -, rfl⟩ := List.mem_map.1 hx
  dsimp only at hnum hp ⊢
  split
  · rfl
  · next hne =>
    rw [if_neg hne] at hnum hp
    exact absurd (by simp [hnum, hp]) hne

section
variable {t : State} {k : Nat} {m : List Byte} {answers : List MemberAnswer} {j : Job} (hj : touchable t k m (jobArg m) = some j)
include hj

theorem serveOpDeadline_agreed (hd : param t 0x10 ≠ 0 ∨ fieldN (msgBody m) 8 8 = 0) (hg : (groupAnswer t (plGroup j.plan) (0, []) answers).1 = 0) :
    serveOpDeadline k answers t m =
      respond (setDeadline (sendTo t j.members 3 (.jobDeadline j.num (fieldN (msgBody m) 8 8))) (jobArg m) (fieldN (msgBody m) 8 8)) k m 0x0000 [] := by
  have hown : ¬ (fieldN (msgBody m) 8 8 ≠ 0 ∧ param t 0x10 = 0) := fun h => hd.elim (absurd h.2) h.1
  unfold serveOpDeadline
  simp only [hj, if_neg hown, hg, bne_self_eq_false, Bool.false_eq_true, if_false, touchable_num hj]

theorem serveOpDeadline_refused (hg : (groupAnswer t (plGroup j.plan) (if fieldN (msgBody m) 8 8 ≠ 0 ∧ param t 0x10 = 0 then 0x0200 else 0, []) answers).1 ≠ 0) :
    serveOpDeadline k answers t m =
      respond t k m (groupAnswer t (plGroup j.plan) (if fieldN (msgBody m) 8 8 ≠ 0 ∧ param t 0x10 = 0 then 0x0200 else 0, []) answers).1
        (groupAnswer t (plGroup j.plan) (if fieldN (msgBody m) 8 8 ≠ 0 ∧ param t 0x10 = 0 then 0x0200 else 0, []) answers).2 := by
  unfold serveOpDeadline
  dsimp only
  rw [hj]
  exact if_pos (bne_iff_ne.2 hg)

end

end Sys2Proof.Laws

namespace Sys2Proof

open Machine Laws

/-- Settles O26. A request that is taken reaches its command (`takeRequest_taken`); an accepted plan's job joins the queue (`takePlan_jobs`), a
cancel reaches every job of the number (`cancelHere_allCancelled`), as does a new deadline (`setDeadline_deadline`). -/
theorem jobRequests : Obligations.JobRequests := by
  unfold Obligations.JobRequests
  refine ⟨fun s t t1 k m p remote h halign hread hok => ?_, fun s t t1 k m p remote h halign hread hbad => ?_, fun s t k m answers j h hj hg => ?_,
    fun s t k m j h hj => ?_, fun s t k m answers j h hj hd hg => ?_, fun s t k m answers j h hj => ?_⟩
  · have hseq : t1.seq = s.seq := (readRef_ok_seq hread).trans (Taken.seq h)
    obtain ⟨j, hjobs, hplan, hphase, hnum, hclient, htag, haccepted, hdeadline⟩ := takePlan_jobs t1 k m (fieldN (msgBody m) 16 8) p
    have haccepted' : j.accepted = now s := haccepted.trans (congrArg (fun q : Sequencer => q.strike.toNat) hseq)
    exact ⟨_, j, congrArg Host.Outcome.next ((takeRequest_taken h _).trans (serveOpSubmit_accepted halign hread (Option.isNone_iff_eq_none.1 hok))), hjobs,
      hplan, hphase, hnum, hclient, htag, haccepted', hdeadline⟩
  · obtain ⟨d, hd⟩ := Option.isSome_iff_exists.1 hbad
    have hseq : t1.seq = s.seq := (readRef_ok_seq hread).trans (Taken.seq h)
    exact ⟨_, congrArg Host.Outcome.next (takeRequest_taken h _), congrArg Sequencer.jobs ((serveOpSubmit_refused halign hread hd).trans hseq)⟩
  · exact ⟨_, congrArg Host.Outcome.next (takeRequest_taken h _), serveOpCancel_agreed hj hg⟩
  · refine congrArg Host.Outcome.next ((takeRequest_taken h _).trans ?_)
    cases hp : j.phase <;> simp only [serveOpStatus, hj, hp]
  · refine ⟨_, congrArg Host.Outcome.next ((takeRequest_taken h _).trans (serveOpDeadline_agreed hj hd hg)), fun x hx => ?_⟩
    rw [respond_seq] at hx
    exact setDeadline_deadline hx
  · exact fun hg => congrArg Host.Outcome.next ((takeRequest_taken h _).trans (serveOpDeadline_refused hj hg))

end Sys2Proof
end

section
/-!
PROOFS. A rebalance of a Hardy table (R167): each die in scope takes the rebalanced table once, and the blocks cut the sorted entries at the
sums of their sizes.
-/
namespace Sys2Proof.Laws

open Sys2Proof.Machine

/-! ### The sort -/

section
variable {α β : Type} [LinearOrder β] {lt : α → α → Bool} {key : α → β}

theorem insertBy_eq_orderedInsert (x : α) (l : List α) : insertBy lt x l = l.orderedInsert (fun a b => lt a b = true) x := by
  induction l with
  | nil => rfl
  | cons y l ih => rw [insertBy, ih, List.orderedInsert_cons]

theorem insertBy_perm (x : α) (l : List α) : (insertBy lt x l).Perm (x :: l) := by
  rw [insertBy_eq_orderedInsert]
  exact List.perm_orderedInsert _ x l

/-- Insertion from the front is insertion sort of the reversed list. -/
theorem sortBy_perm (l : List α) : (sortBy lt l).Perm l := by
  have hsort : sortBy lt l = l.reverse.insertionSort (fun a b => lt a b = true) := by
    simp only [sortBy, insertBy_eq_orderedInsert, List.insertionSort, List.foldr_reverse]
  rw [hsort]
  exact (List.perm_insertionSort _ _).trans l.reverse_perm

/-- An order that compares keys keeps rising keys rising. -/
theorem insertBy_pairwise (hlt : ∀ a b, lt a b = true ↔ key a < key b) (x : α) {l : List α} (h : l.Pairwise (fun a b => key a ≤ key b)) :
    (insertBy lt x l).Pairwise (fun a b => key a ≤ key b) := by
  induction l with
  | nil => exact List.pairwise_singleton _ x
  | cons y l ih =>
    obtain ⟨hy, hl⟩ := List.pairwise_cons.1 h
    rw [insertBy]
    split
    · next hxy =>
      have hle : key x ≤ key y := ((hlt x y).1 hxy).le
      exact List.pairwise_cons.2 ⟨List.forall_mem_cons.2 ⟨hle, fun z hz => hle.trans (hy z hz)⟩, h⟩
    · next hxy =>
      have hle : key y ≤ key x := not_lt.1 (mt (hlt x y).2 hxy)
      refine List.pairwise_cons.2 ⟨fun z hz => ?_, ih hl⟩
      rcases List.mem_cons.1 ((insertBy_perm x l).mem_iff.1 hz) with rfl | hz
      · exact hle
      · exact hy z hz

theorem sortBy_pairwise (hlt : ∀ a b, lt a b = true ↔ key a < key b) (l : List α) : (sortBy lt l).Pairwise (fun a b => key a ≤ key b) :=
  List.foldlRecOn l _ List.Pairwise.nil fun _ h x _ => insertBy_pairwise hlt x h

end

/-! ### Table order (R164) -/

/-- What table order compares of an entry: LO then TAG, or TAG alone in care-mask tables. -/
def tableKey (kind : Nat) (e : HardyEntry) : Nat ×ₗ Nat := toLex (if kind = 0x16 then (e.shTag, 0) else (e.sh1, e.shTag))

theorem entryLt_iff {kind : Nat} (a b : HardyEntry) : entryLt kind a b = true ↔ tableKey kind a < tableKey kind b := by
  unfold entryLt tableKey
  split <;> simp [pairLt, Prod.Lex.toLex_lt_toLex]

/-! ### The blocks -/

theorem sumNat_map_range_succ (f : Nat → Nat) (n : Nat) : sumNat ((List.range (n + 1)).map f) = sumNat ((List.range n).map f) + f n := by
  simp only [sumNat, List.range_succ, List.map_append, List.map_cons, List.map_nil, List.foldl_append, List.foldl_cons, List.foldl_nil]

/-- Consecutive cuts of a list join to as much of it as they cut. -/
theorem flatten_cuts {α : Type} (l : List α) (size : Nat → Nat) (n : Nat) :
    ((List.range n).map (fun i => (l.drop (sumNat ((List.range i).map size))).take (size i))).flatten =
      l.take (sumNat ((List.range n).map size)) := by
  induction n with
  | zero => rfl
  | succ n ih =>
    rw [sumNat_map_range_succ, List.take_add, List.range_succ, List.map_append, List.flatten_append, ih, List.map_singleton,
      List.flatten_singleton]

/-- R167: floor(E / BLOCKS) entries, and one more in the first E mod BLOCKS blocks. -/
def blockSize (blocks entries i : Nat) : Nat := entries / blocks + if i < entries % blocks then 1 else 0

theorem sumNat_blockSize (blocks entries i : Nat) :
    sumNat ((List.range i).map (blockSize blocks entries)) = i * (entries / blocks) + min i (entries % blocks) := by
  induction i with
  | zero => simp [sumNat]
  | succ i ih =>
    rw [sumNat_map_range_succ, ih, blockSize, Nat.succ_mul]
    split <;> omega

/-- The sizes add up to the entries. -/
theorem sumNat_blockSize_all {blocks : Nat} (h : 0 < blocks) (entries : Nat) :
    sumNat ((List.range blocks).map (blockSize blocks entries)) = entries := by
  rw [sumNat_blockSize, Nat.min_eq_right (Nat.mod_lt entries h).le, Nat.div_add_mod]

/-- A block ends within the entries. -/
theorem sumNat_blockSize_le {blocks i : Nat} (hi : i < blocks) (entries : Nat) :
    sumNat ((List.range i).map (blockSize blocks entries)) + blockSize blocks entries i ≤ entries := by
  rw [← sumNat_map_range_succ, sumNat_blockSize]
  calc (i + 1) * (entries / blocks) + min (i + 1) (entries % blocks)
      ≤ blocks * (entries / blocks) + entries % blocks := Nat.add_le_add (Nat.mul_le_mul_right _ hi) (Nat.min_le_right ..)
    _ = entries := Nat.div_add_mod ..

@[simp] theorem rebalanced_htab (t : HardyTable) : (rebalanced t).htab = t.htab := rfl

section
variable {t : HardyTable} (h : t.blocks ≠ [])
include h

theorem rebalanced_blocks : (rebalanced t).blocks = (List.range t.blocks.length).map (fun i =>
    ((sortBy (entryLt t.kind) t.entries).drop (sumNat ((List.range i).map (blockSize t.blocks.length t.entries.length)))).take
      (blockSize t.blocks.length t.entries.length i)) := by
  simp only [rebalanced, mt List.length_eq_zero_iff.1 h, if_false, (sortBy_perm t.entries).length_eq]
  rfl

theorem rebalanced_entries : (rebalanced t).entries = sortBy (entryLt t.kind) t.entries := by
  rw [HardyTable.entries, rebalanced_blocks h, flatten_cuts, sumNat_blockSize_all (List.length_pos_of_ne_nil h)]
  exact List.take_of_length_le (sortBy_perm t.entries).length_eq.le

theorem rebalanced_blocks_length : (rebalanced t).blocks.length = t.blocks.length := by
  rw [rebalanced_blocks h, List.length_map, List.length_range]

/-- Each block holds its size. -/
theorem length_of_mem_rebalanced {b : List HardyEntry} (hb : b ∈ (rebalanced t).blocks) :
    ∃ i, b.length = blockSize t.blocks.length t.entries.length i := by
  rw [rebalanced_blocks h] at hb
  obtain ⟨i, hi, rfl⟩ := List.mem_map.1 hb
  have hend := sumNat_blockSize_le (List.mem_range.1 hi) t.entries.length
  refine ⟨i, ?_⟩
  rw [List.length_take, List.length_drop, (sortBy_perm t.entries).length_eq]
  omega

end

theorem blockSize_le_succ (blocks entries i k : Nat) : blockSize blocks entries i ≤ blockSize blocks entries k + 1 := by
  unfold blockSize
  split <;> split <;> omega

/-! ### The dies of a rebalance -/

theorem keyDie_dieKey : ∀ d < 80, keyDie (dieKey d) = d := by decide

/-- A scope names each die once. -/
theorem scopeDies_nodup (s : State) (scope : Nat) : (scopeDies s scope).Nodup := by
  have hall : ((List.range 80).map dieKey).map keyDie = List.range 80 := by
    rw [List.map_map]
    exact (List.map_congr_left fun d hd => keyDie_dieKey d (List.mem_range.1 hd)).trans (List.map_id _)
  have hsub : (scopeDies s scope).Sublist (((List.range 80).map dieKey).map keyDie) := (List.filter_sublist.trans List.filter_sublist).map keyDie
  exact (hall ▸ hsub).nodup List.nodup_range

/-- What a rebalance of table `h` does to one die. -/
def rebalanceOn (h : Nat) (s : State) (d : Nat) : State :=
  match tableOf (hardyGet s d) h with
  | none => s
  | some t =>
    count (count (hardyMod s d (fun x => putTable x (rebalanced t))) (dieKey d) 21 (rebalanced t).entries.length) (dieKey d) 22 1

@[simp] theorem hardyGet_count (s : State) (k c n d : Nat) : hardyGet (count s k c n) d = hardyGet s d := by rw [hardyGet, count_eng, hardyGet]

theorem hardyGet_hardyMod_ne {s : State} {d e : Nat} (h : d ≠ e) (f : HardyUnit → HardyUnit) : hardyGet (hardyMod s e f) d = hardyGet s d :=
  sparseGet_sparseSet_ne h

theorem putTable_ne_reset (u : HardyUnit) (t : HardyTable) : putTable u t ≠ HardyUnit.reset := fun h =>
  List.append_ne_nil_of_right_ne_nil _ (List.cons_ne_nil t []) (congrArg HardyUnit.tables h)

theorem hardyGet_hardyMod_putTable (s : State) (d : Nat) (t : HardyTable) :
    hardyGet (hardyMod s d (fun u => putTable u t)) d = putTable (hardyGet s d) t :=
  (sparseGet_sparseSet_of_ne (putTable_ne_reset _ t)).trans (if_pos rfl)

theorem tableOf_putTable (u : HardyUnit) (t : HardyTable) : tableOf (putTable u t) t.htab = some t := by
  have hnone : (u.tables.filter (fun x => x.htab != t.htab)).find? (fun x => x.htab == t.htab) = none :=
    List.find?_eq_none.2 fun x hx => by simpa using (List.mem_filter.1 hx).2
  rw [tableOf, putTable, List.find?_append, hnone, Option.none_or]
  simp

theorem htab_of_tableOf {u : HardyUnit} {h : Nat} {t : HardyTable} (ht : tableOf u h = some t) : t.htab = h :=
  beq_iff_eq.1 (List.find?_some (p := fun x : HardyTable => x.htab == h) ht)

theorem hardyGet_rebalanceOn_ne {s : State} {d e : Nat} (hne : d ≠ e) (h : Nat) : hardyGet (rebalanceOn h s e) d = hardyGet s d := by
  unfold rebalanceOn
  split
  · rfl
  · rw [hardyGet_count, hardyGet_count, hardyGet_hardyMod_ne hne]

theorem tableOf_rebalanceOn {s : State} {d h : Nat} {t : HardyTable} (ht : tableOf (hardyGet s d) h = some t) :
    tableOf (hardyGet (rebalanceOn h s d) d) h = some (rebalanced t) := by
  have htab : (rebalanced t).htab = h := (rebalanced_htab t).trans (htab_of_tableOf ht)
  rw [rebalanceOn, ht, hardyGet_count, hardyGet_count, hardyGet_hardyMod_putTable, ← htab, tableOf_putTable]

/-- Of a list that names each die once, only its own turn changes a die's units. -/
theorem tableOf_foldl_rebalanceOn {s : State} {d h : Nat} {t : HardyTable} {dies : List Nat} (hnd : dies.Nodup) (hd : d ∈ dies)
    (ht : tableOf (hardyGet s d) h = some t) : tableOf (hardyGet (dies.foldl (rebalanceOn h) s) d) h = some (rebalanced t) := by
  obtain ⟨before, after, rfl⟩ := List.append_of_mem hd
  obtain ⟨hnot, -⟩ := List.nodup_cons.1 (List.nodup_middle.1 hnd)
  obtain ⟨hbefore, hafter⟩ := not_or.1 (mt List.mem_append.2 hnot)
  have hkeep : ∀ {l : List Nat}, d ∉ l → ∀ u, hardyGet (l.foldl (rebalanceOn h) u) d = hardyGet u d := fun hl =>
    foldl_keep_mem (fun u => hardyGet u d) fun _ he _ => hardyGet_rebalanceOn_ne (ne_of_mem_of_not_mem he hl).symm h
  rw [List.foldl_append, List.foldl_cons, hkeep hafter]
  exact tableOf_rebalanceOn (by rw [hkeep hbefore, ht])

/-- The rebalance in progress runs on each die in scope that holds its table, and records its result. -/
theorem exec_hardyRebalance {s : State} {i : Nat} {j : Job} {st : PlanStep} (h : servedStep s i 1 0 = some (j, st)) :
    exec (.hardyRebalance i) s = .next (recordResult (((scopeDies s st.scope).filter (fun d =>
      (tableOf (hardyGet s d) (byteAt (stepParams j.plan j.pos st) 0)).isSome)).foldl (rebalanceOn (byteAt (stepParams j.plan j.pos st) 0)) s)
      j (.step i) ActResult.ok) := by
  change execHardyRebalance i s = _
  rw [execHardyRebalance, h]
  exact congrArg Host.Outcome.next (setResult_of_status_ne (by decide) _ _ _)

end Sys2Proof.Laws

namespace Sys2Proof

open Machine Laws

/-- Settles O41. The fold over the dies reaches each of them once (`scopeDies_nodup`), so the die's table is rebalanced at its turn and kept from
then on; the blocks cut the sorted entries at the sums of sizes that add up to all of them (`rebalanced_entries`). -/
theorem hardyRebalances : Obligations.HardyRebalances := by
  unfold Obligations.HardyRebalances
  refine ⟨fun s i d j st t h hd ht => ⟨_, exec_hardyRebalance h, ?_⟩,
    fun t hne => ⟨?_, rebalanced_blocks_length hne, ?_, fun a ha b hb => ?_⟩⟩
  · have hheld := Option.isSome_of_eq_some ht
    exact tableOf_foldl_rebalanceOn ((scopeDies_nodup s st.scope).filter _) (List.mem_filter.2 ⟨hd, hheld⟩) ht
  · rw [rebalanced_entries hne]
    exact sortBy_perm t.entries
  · rw [rebalanced_entries hne]
    exact (sortBy_pairwise entryLt_iff t.entries).imp fun hle => Bool.eq_false_iff.2 (mt (entryLt_iff _ _).1 hle.not_gt)
  · obtain ⟨i, hi⟩ := length_of_mem_rebalanced hne ha
    obtain ⟨k, hk⟩ := length_of_mem_rebalanced hne hb
    rw [hi, hk]
    exact blockSize_le_succ ..

end Sys2Proof
end

section
/-!
PROOFS. The table and curve commands (R198, R217, R221, R223, R240): what each leaves of the tables and curves when every member agrees. Requests,
answers and the traffic of memory leave the engines as they are.
-/
namespace Sys2Proof.Laws

open Sys2Proof.Machine

/-! ### What leaves the engines -/

@[simp] theorem memWrite_eng (s : State) (a : Nat) (bs : List Byte) : (memWrite s a bs).eng = s.eng := by
  rw [memWrite_part]
  rfl

@[simp] theorem memRead_eng (s : State) (a n : Nat) : (memRead s a n).st.eng = s.eng := by
  rw [memRead_part]
  rfl

@[simp] theorem readRef_eng (s : State) (a n : Nat) : (readRef s a n).1.eng = s.eng := by
  rw [readRef_part]
  rfl

theorem refBytes_eng_of_eq {s t : State} {a n : Nat} {r : Except (BitVec 16) (List Byte)} (h : refBytes s a n = (t, r)) : t.eng = s.eng :=
  fst_of_eq (P := fun u => u.eng = s.eng) (readRef_eng s a n) h

@[simp] theorem clearRange_eng (s : State) (lo n : Nat) : (clearRange s lo n).eng = s.eng := rfl

@[simp] theorem respond_eng (s : State) (k : Nat) (m : List Byte) (st : BitVec 16) (b : List Byte) : (respond s k m st b).eng = s.eng := by
  obtain ⟨-, heng, -, -⟩ := postMessage_part s k
    (buildMessage (replyVersion s (msgClient m)) (msgOpcode m) 1 (msgTag m) (msgClient m) st (replyEpoch s (msgOpcode m) (msgTarget m)) b)
  exact heng

@[simp] theorem holdRequest_eng (s : State) (k : Nat) (m : List Byte) : (holdRequest s k m).eng = s.eng := rfl

@[simp] theorem respondAccepted_eng (s : State) (k : Nat) (m b : List Byte) : (respondAccepted s k m b).eng = s.eng := respond_eng ..

@[simp] theorem curveAnswer_eng (k : Nat) (m : List Byte) (s : State) (img : List Byte) : (curveAnswer k m s img).eng = s.eng := respond_eng ..

@[simp] theorem completeMigration_eng (s : State) (g : Migration) (st : BitVec 16) : (completeMigration s g st).eng = s.eng := by
  unfold completeMigration
  split
  · next c k tag _ =>
    obtain ⟨-, heng, -, -⟩ := complete_part s c tag k st []
    exact heng
  · rfl

@[simp] theorem sendImage_eng (s : State) (t : EmbTable) (v : TableVersion) (g : Migration) (i : Nat) : (sendImage s t v g i).eng = s.eng := by
  unfold sendImage
  dsimp only
  split
  · exact memRead_eng ..
  · rw [sendTo_eng, memRead_eng]

@[simp] theorem writeRows_eng (s : State) (t : EmbTable) (v : TableVersion) (p : List Byte) : (writeRows s t v p).eng = s.eng := by
  unfold writeRows
  refine foldl_keep _ State.eng (fun u i => ?_) _ s
  dsimp only
  split
  · exact memWrite_eng ..
  · rfl

/-! ### What the members' checks leave -/

theorem checkOk_fst (b : Bool) (c : Checked) : (checkOk b c).1 = c.1 := by
  unfold checkOk
  split <;> rfl

theorem cloneRows_eng (s : State) (t : EmbTable) (v : TableVersion) (moved : List (Nat × List Byte)) : (cloneRows s t v moved).1.eng = s.eng :=
  List.foldlRecOn (motive := fun acc : State × List Byte × Bool => acc.1.eng = s.eng) _ _ rfl (fun _ h _ _ => (memRead_eng ..).trans h)

theorem loadRows_eng (s : State) (t : EmbTable) (body : List Byte) (moved : List (Nat × List Byte)) : (loadRows s t body moved).1.eng = s.eng := by
  unfold loadRows
  split
  · split
    · next e => exact refBytes_eng_of_eq e
    · next e => exact refBytes_eng_of_eq e
  · split
    · rfl
    · exact cloneRows_eng ..
  · rfl

theorem embTable_of_namedTable {s : State} {target : Uid} {body : List Byte} {t : EmbTable} (h : namedTable s target body = some t) :
    embTable s (fieldN body 0 4) = some t := by
  obtain ⟨x, hx, ht⟩ := Option.bind_eq_some_iff.1 h
  split at ht
  · cases ht
    exact hx
  · cases ht

theorem embTable_congr {s t : State} (h : t.eng = s.eng) (id : Nat) : embTable t id = embTable s id := by
  unfold embTable
  rw [h]

theorem embTable_id {s : State} {id : Nat} {t : EmbTable} (h : embTable s id = some t) : t.id = id := by
  simpa using List.find?_some h

theorem versionOf_number {t : EmbTable} {n : Nat} {v : TableVersion} (h : versionOf t n = some v) : v.number = n := by
  simpa using List.find?_some h

/-- A load that a member agrees to names a table. -/
theorem loadCheck_embTable {s s1 : State} {target : Uid} {body p : List Byte} {moved : List (Nat × List Byte)}
    (h : loadCheck s target body moved = (s1, .ok p)) : ∃ t, embTable s1 (fieldN body 0 4) = some t := by
  unfold loadCheck at h
  split at h
  · cases h
  · next t hf =>
    have heng : s1.eng = s.eng := fst_of_eq (P := fun u => u.eng = s.eng) (loadRows_eng ..) h
    unfold loadFields at hf
    split at hf
    · cases hf
    · next x hx => exact ⟨x, (embTable_congr heng _).trans (embTable_of_namedTable hx)⟩

theorem migrateCheck_eng (s : State) (target : Uid) (body : List Byte) : (migrateCheck s target body).1.eng = s.eng := by
  unfold migrateCheck
  extract_lets n strike
  split
  · rfl
  · split
    · rfl
    · split
      · rfl
      · split
        · next e => exact refBytes_eng_of_eq e
        · next e => exact (congrArg State.eng (checkOk_fst ..)).trans (refBytes_eng_of_eq e)

theorem migrateCheck_namedVersion {s s1 : State} {target : Uid} {body p : List Byte} (h : migrateCheck s target body = (s1, .ok p)) :
    ∃ t v, namedVersion s target body = some (t, v) := by
  unfold migrateCheck at h
  split at h
  · cases h
  · next t v hn => exact ⟨t, v, hn⟩

/-- A migration that a member agrees to names a table and a version. -/
theorem migrateCheck_versionOf {s s1 : State} {target : Uid} {body p : List Byte} (h : migrateCheck s target body = (s1, .ok p)) :
    ∃ t v, embTable s1 (fieldN body 0 4) = some t ∧ versionOf t (fieldN body 4 4) = some v := by
  have heng : s1.eng = s.eng := fst_of_eq (P := fun u => u.eng = s.eng) (migrateCheck_eng ..) h
  obtain ⟨t, v, hn⟩ := migrateCheck_namedVersion h
  obtain ⟨x, hx, hv⟩ := Option.bind_eq_some_iff.1 hn
  obtain ⟨y, hy, hxy⟩ := Option.map_eq_some_iff.1 hv
  cases hxy
  exact ⟨t, v, (embTable_congr heng _).trans (embTable_of_namedTable hx), hy⟩

/-! ### A command to which every member agrees (R350) -/

/-- It has its effect, the other members hear of it, and it is answered. -/
theorem tableCommand_agreed {s : State} {k : Nat} {m p : List Byte} {remote : List (BitVec 16)} (hg : groupStatus s (msgTarget m) 0 remote = 0)
    (effect answer : State → List Byte → State) : tableCommand k remote m (s, .ok p) effect answer =
    answer (sendTo (effect s p) (otherMembers s (msgTarget m)) (if p.isEmpty then 3 else 7) (.vmp (now s) (targetEpoch s (msgTarget m)) (m ++ p))) p := by
  unfold tableCommand
  simp only [hg, bne_self_eq_false, Bool.false_eq_true, if_false]

/-! ### The versions of a number -/

/-- Every version numbered n of the tables of an ID satisfies P. -/
def AllVersions (s : State) (id n : Nat) (P : TableVersion → Prop) : Prop :=
  ∀ tb ∈ s.eng.tables, tb.id = id → ∀ v ∈ tb.versions, v.number = n → P v

section
variable {s t : State} {id n : Nat} {P Q : TableVersion → Prop}

theorem AllVersions.of_eng (h : AllVersions s id n P) (heng : t.eng = s.eng) : AllVersions t id n P := by
  unfold AllVersions
  rw [heng]
  exact h

theorem AllVersions.true : AllVersions s id n (fun _ => True) := fun _ _ _ _ _ _ => trivial

theorem AllVersions.versionMod (h : AllVersions s id n Q) {f : TableVersion → TableVersion} (hf : ∀ v, Q v → P (f v)) :
    AllVersions (versionMod s id n f) id n P := by
  intro tb htb hid v hv hn
  obtain ⟨t, ht, rfl⟩ := List.mem_map.1 htb
  split at hid
  · next heq =>
    rw [if_pos heq] at hv
    obtain ⟨x, hx, rfl⟩ := List.mem_map.1 hv
    split at hn
    · next hxn =>
      rw [if_pos hxn]
      exact hf x (h t ht hid x hx (beq_iff_eq.1 hxn))
    · next hne => exact absurd (beq_iff_eq.2 hn) hne
  · next hne => exact absurd (beq_iff_eq.2 hid) hne

/-- What frees RETIRED versions changes none that stays. -/
theorem AllVersions.sweepVersions (h : AllVersions s id n P) : AllVersions (sweepVersions s) id n P := by
  refine AllVersions.of_eng ?_ (foldl_keep _ State.eng (fun u g => completeMigration_eng u g _) _ _)
  intro tb htb hid v hv hn
  obtain ⟨t, ht, rfl⟩ := List.mem_map.1 htb
  exact h t ht hid v (List.mem_filter.1 hv).1 hn

theorem AllVersions.dropMigration (h : AllVersions s id n P) (hP : ∀ v : TableVersion, P v → P { v with migration := none }) :
    AllVersions (dropMigration s id n) id n P := by
  unfold Machine.dropMigration
  split
  · split
    · exact h
    · exact (h.versionMod hP).of_eng (completeMigration_eng ..)
  · exact h

end

/-! ### The commands' effects -/

theorem tableMod_embTable {s : State} {id : Nat} {t : EmbTable} {f : EmbTable → EmbTable} (h : embTable s id = some t) (hid : ∀ x, (f x).id = x.id) :
    embTable (tableMod s id f) id = some (f t) := by
  have same : (fun x : EmbTable => x.id == id) ∘ (fun x => if x.id == id then f x else x) = fun x => x.id == id := by
    funext x
    dsimp only [Function.comp]
    split
    · rw [hid]
    · rfl
  have ht : (t.id == id) = true := beq_iff_eq.2 (embTable_id h)
  calc
    embTable (tableMod s id f) id = (embTable s id).map (fun x => if x.id == id then f x else x) := by
      rw [embTable, tableMod, List.find?_map, same, embTable]
    _ = some (f t) := by rw [h, Option.map_some, if_pos ht]

/-- The table with the new version of a load. -/
def withLoaded (req : Option (Nat × List Byte)) (body : List Byte) (t : EmbTable) : EmbTable :=
  { t with versions := t.versions ++ [{ loadVersion body with loadReq := req }], lastVersion := (loadVersion body).number }

/-- A load adds its version to the table it names (R223). -/
theorem loadEffect_embTable {s : State} {body : List Byte} {t : EmbTable} (h : embTable s (fieldN body 0 4) = some t) (req : Option (Nat × List Byte))
    (p : List Byte) : embTable (loadEffect req s body p) (fieldN body 0 4) = some (withLoaded req body t) := by
  unfold loadEffect
  rw [h]
  dsimp only
  rw [embTable_id h]
  refine tableMod_embTable (f := withLoaded req body) ?_ (fun _ => rfl)
  rw [embTable_congr ((writeRows_eng ..).trans (foldl_keep _ State.eng (fun u r => clearRange_eng ..) _ s)), h]

theorem activateEffect_activates (owner : Option (BitVec 12 × Nat × BitVec 16)) (s : State) (body : List Byte) :
    AllVersions (activateEffect owner s body) (fieldN body 0 4) (fieldN body 4 4)
      (fun v => v.activation = some { strike := fieldN body 8 8, owner := owner }) :=
  AllVersions.true.versionMod (fun _ _ => rfl)

/-- A retirement without a version number drops the table (R221). -/
theorem retireEffect_drops {s : State} {body : List Byte} (h : fieldN body 4 4 = 0) {tb : EmbTable} (htb : tb ∈ (retireEffect s body).eng.tables) :
    tb.id ≠ fieldN body 0 4 := by
  unfold retireEffect at htb
  rw [if_pos h] at htb
  exact bne_iff_ne.1 (List.mem_filter.1 htb).2

theorem retireEffect_retires {s : State} {body : List Byte} (h : fieldN body 4 4 ≠ 0) :
    AllVersions (retireEffect s body) (fieldN body 0 4) (fieldN body 4 4) (fun v => v.state = .retired) := by
  have retired := (AllVersions.true (s := s) (id := fieldN body 0 4) (n := fieldN body 4 4)).versionMod (P := fun v => v.state = .retired)
    (f := fun v => { v with state := .retired, retiredAt := some (now s + 1) }) (fun _ _ => rfl)
  unfold retireEffect
  rw [if_neg h]
  exact (retired.dropMigration (fun _ hv => hv)).sweepVersions

/-- The version migrates these rows to a member, and has not reached the strike of the cut-over. -/
def Migrates (rows : List Nat) (dst cutover : Nat) (v : TableVersion) : Prop :=
  ∃ g, v.migration = some g ∧ g.rows = rows ∧ g.dst = dst ∧ g.cutover = cutover ∧ g.installed = false

theorem beginMigration_migrates (s : State) (t : EmbTable) (v : TableVersion) (dst addr strike : Nat) (rows : List Nat)
    (owner : Option (BitVec 12 × Nat × BitVec 16)) :
    AllVersions (beginMigration s t v dst addr strike rows owner) t.id v.number (Migrates rows dst strike) := by
  unfold beginMigration
  extract_lets place g s1
  have begun : AllVersions s1 t.id v.number (Migrates rows dst strike) :=
    AllVersions.true.versionMod (fun _ _ => ⟨g, rfl, rfl, rfl, rfl, rfl⟩)
  split
  · exact begun.of_eng (foldl_keep _ State.eng (fun u i => sendImage_eng u t v g i) _ s1)
  · exact begun

theorem migrateEffect_migrates {s : State} {body : List Byte} {t : EmbTable} {v : TableVersion} (ht : embTable s (fieldN body 0 4) = some t)
    (hv : versionOf t (fieldN body 4 4) = some v) (owner : Option (BitVec 12 × Nat × BitVec 16)) (p : List Byte) :
    AllVersions (migrateEffect owner s body p) (fieldN body 0 4) (fieldN body 4 4)
      (Migrates (rowList p) (fieldN body 8 2) (fieldN body 0x20 8)) := by
  have begun := beginMigration_migrates s t v (fieldN body 8 2) (fieldN body 0x18 8) (fieldN body 0x20 8) (rowList p) owner
  rw [embTable_id ht, versionOf_number hv] at begun
  unfold migrateEffect
  rw [ht, Option.bind_some, hv, Option.map_some]
  exact begun

/-- A load of an ID that no curve holds adds the curve (R198). -/
theorem curveEffect_curves {s : State} {body : List Byte} (hload : byteAt body 4 = 0) (hnew : s.eng.curves.any (fun c => c.id == fieldN body 0 4) = false)
    (img : List Byte) : (curveEffect s body img).eng.curves = s.eng.curves ++ [{ id := fieldN body 0 4, image := img, deleting := false }] := by
  have hne : ¬ byteAt body 4 = 1 := by omega
  unfold curveEffect
  rw [if_neg hne, hnew]
  rfl

end Sys2Proof.Laws

namespace Sys2Proof

open Machine Laws

/-- Settles O27. A request that is taken reaches its command (`takeRequest_taken`), which has its effect when every member agrees
(`tableCommand_agreed`), and the answer leaves the engines; each effect has a lemma of its own, those on the versions of a number through `AllVersions`. -/
theorem tableRequests : Obligations.TableRequests := by
  unfold Obligations.TableRequests
  refine ⟨fun s t t1 k m p remote h hc hg => ⟨_, congrArg Host.Outcome.next (takeRequest_taken h _), ?_⟩,
    fun s t t1 k m p remote moved h hc hg => ?_,
    fun s t t1 k m p remote h hc hg => ⟨_, congrArg Host.Outcome.next (takeRequest_taken h _), ?_⟩,
    fun s t t1 k m p remote h hc hg => ⟨_, congrArg Host.Outcome.next (takeRequest_taken h _), ?_⟩,
    fun s t t1 k m p remote h hc hg => ⟨_, congrArg Host.Outcome.next (takeRequest_taken h _), ?_⟩,
    fun s t t1 k m p remote h hload hc hnew hg => ⟨_, congrArg Host.Outcome.next (takeRequest_taken h _), ?_⟩⟩
  · have same : t1 = t := (congrArg Prod.fst hc).symm.trans (checkOk_fst ..)
    rw [hc, tableCommand_agreed hg, respond_eng, sendTo_eng, same]
    rfl
  · obtain ⟨tb, htb⟩ := loadCheck_embTable hc
    refine ⟨_, withLoaded (some (k, m)) (msgBody m) tb, congrArg Host.Outcome.next (takeRequest_taken h _), ?_,
      List.mem_append_right _ List.mem_cons_self, rfl, ?_⟩
    · rw [hc, tableCommand_agreed hg, embTable_congr ((holdRequest_eng ..).trans (sendTo_eng ..))]
      exact loadEffect_embTable htb (some (k, m)) p
    · rw [hc, tableCommand_agreed hg]
      exact holdRequest_outstanding ..
  · rw [hc, tableCommand_agreed hg, respondAccepted_eng, sendTo_eng]
    exact activateEffect_activates _ t1 (msgBody m)
  · rw [hc, tableCommand_agreed hg, respond_eng, sendTo_eng]
    intro tb htb hid
    have hn : fieldN (msgBody m) 4 4 ≠ 0 := fun hn => retireEffect_drops hn htb hid
    exact ⟨hn, retireEffect_retires hn tb htb hid⟩
  · obtain ⟨tb, v, htb, hv⟩ := migrateCheck_versionOf hc
    rw [hc, tableCommand_agreed hg, respondAccepted_eng, sendTo_eng]
    exact migrateEffect_migrates htb hv _ p
  · rw [hc, tableCommand_agreed hg, curveAnswer_eng, sendTo_eng]
    exact curveEffect_curves hload hnew p

end Sys2Proof
end

section
/-!
PROOFS. The rows of SELECT_ABOVE and TOPK (R207 to R210): each cuts the first CAP elements off a list that is sorted strictly, because no index
appears twice in a row.
-/
namespace Sys2Proof.Laws

open Sys2Proof.Machine

/-! ### Firsts of a sorted list -/

section
variable {α β : Type} [LinearOrder β] {lt : α → α → Bool} {key : α → β}

/-- A sort of elements with distinct keys leaves no two equal, so it is strict. -/
theorem sortBy_pairwise_lt (hlt : ∀ a b, lt a b = true ↔ key a < key b) {l : List α} (h : (l.map key).Nodup) :
    (sortBy lt l).Pairwise (fun a b => lt a b = true) := by
  have hne : (sortBy lt l).Pairwise (fun a b => key a ≠ key b) := List.pairwise_map.1 (((sortBy_perm l).map key).nodup_iff.2 h)
  exact ((sortBy_pairwise hlt l).and hne).imp fun ⟨hle, hn⟩ => (hlt _ _).2 (lt_of_le_of_ne hle hn)

end

section
variable {α : Type} {l : List α}

/-- What a cut leaves out comes after all it keeps. -/
theorem rel_of_notMem_take {R : α → α → Prop} (h : l.Pairwise R) (k : Nat) : ∀ r ∈ l, r ∉ l.take k → ∀ e ∈ l.take k, R e r := by
  intro r hr hout e he
  rw [← List.take_append_drop k l] at h hr
  obtain ⟨-, -, hcross⟩ := List.pairwise_append.1 h
  exact hcross e he r ((List.mem_append.1 hr).resolve_left hout)

/-- Without repeats, what a cut leaves out is what it does not keep. -/
theorem filter_not_contains_take [DecidableEq α] (h : l.Nodup) (k : Nat) : l.filter (fun r => !(l.take k).contains r) = l.drop k := by
  have hdis : (l.take k).Disjoint (l.drop k) := List.disjoint_take_drop h le_rfl
  have kept : (l.take k).filter (fun r => !(l.take k).contains r) = [] := List.filter_eq_nil_iff.2 fun r hr => by simp [hr]
  have left : (l.drop k).filter (fun r => !(l.take k).contains r) = l.drop k := List.filter_eq_self.2 fun r hr => by simpa using hdis.symm hr
  calc l.filter (fun r => !(l.take k).contains r)
      = (l.take k ++ l.drop k).filter (fun r => !(l.take k).contains r) := by rw [List.take_append_drop]
    _ = l.drop k := by rw [List.filter_append, kept, left, List.nil_append]

end

theorem mem_sortBy_filter {α : Type} {lt : α → α → Bool} {p : α → Bool} {l : List α} {x : α} :
    x ∈ sortBy lt (l.filter p) ↔ x ∈ l ∧ p x = true := (sortBy_perm _).mem_iff.trans List.mem_filter

/-! ### The orders of records -/

theorem indexLt_iff (a b : SelRec) : indexLt a b = true ↔ a.index < b.index := decide_eq_true_iff

/-- What rank order compares: the order key, turned round where it descends, then the index (R208). -/
def rankKey (ty : Nat) (desc : Bool) (r : SelRec) : Int ×ₗ Nat := toLex (if desc then -(selKey ty r : Int) else selKey ty r, r.index)

theorem rankLt_iff {ty : Nat} {desc : Bool} (a b : SelRec) : rankLt ty desc a b = true ↔ rankKey ty desc a < rankKey ty desc b := by
  unfold rankLt rankKey
  rw [Prod.Lex.toLex_lt_toLex]
  by_cases hkey : selKey ty a = selKey ty b
  · simp [hkey]
  · cases desc <;> simp [hkey]

section
variable {all : List SelRec} (h : (all.map (·.index)).Nodup) (p : SelRec → Bool)
include h

/-- A part of a row has no index twice either. -/
theorem index_nodup_filter : ((all.filter p).map (·.index)).Nodup := h.sublist (List.filter_sublist.map _)

theorem sortBy_indexLt_pairwise : (sortBy indexLt (all.filter p)).Pairwise (fun a b => a.index < b.index) :=
  (sortBy_pairwise_lt indexLt_iff (index_nodup_filter h p)).imp fun hlt => (indexLt_iff _ _).1 hlt

/-- Elements of one rank have one index. -/
theorem sortBy_rankLt_pairwise (ty : Nat) (desc : Bool) :
    (sortBy (rankLt ty desc) (all.filter p)).Pairwise (fun a b => rankLt ty desc a b = true) := by
  have hrank : ((all.filter p).map (rankKey ty desc)).Nodup := by
    refine List.Nodup.of_map (fun k => (ofLex k).2) ?_
    rw [List.map_map]
    exact index_nodup_filter h p
  exact sortBy_pairwise_lt rankLt_iff hrank

end

/-! ### SELECT_ABOVE (R207) -/

theorem passes_iff {ty : Nat} {pb : List Byte} {r : SelRec} : passes ty pb r = true ↔ r.state = 0 ∧
    (if slMode pb = 0 then orderKey ty (slThresh pb) 0 < selKey ty r else orderKey ty (slThresh pb) 0 ≤ selKey ty r) := by
  unfold passes
  split <;> simp

/-! ### TOPK (R208 to R210) -/

/-- The valid elements of a row in rank order. -/
def ranked (ty : Nat) (pb : List Byte) (all : List SelRec) : List SelRec := sortBy (rankLt ty (slMode pb == 0)) (validRecs all)

section
variable {ty : Nat} {pb : List Byte} {all : List SelRec}

theorem topkRow_entries : (topkRow ty pb all).entries = (ranked ty pb all).take (slCap pb) := rfl

theorem ranked_perm : (ranked ty pb all).Perm (validRecs all) := sortBy_perm _

theorem mem_ranked {r : SelRec} : r ∈ ranked ty pb all ↔ r ∈ all ∧ r.state = 0 :=
  mem_sortBy_filter.trans (and_congr_right fun _ => beq_iff_eq)

theorem ranked_pairwise (h : (all.map (·.index)).Nodup) :
    (ranked ty pb all).Pairwise (fun a b => rankLt ty (slMode pb == 0) a b = true) := sortBy_rankLt_pairwise h _ ty _

theorem ranked_nodup (h : (all.map (·.index)).Nodup) : (ranked ty pb all).Nodup :=
  ranked_perm.nodup_iff.2 (.of_map _ (index_nodup_filter h _))

/-- In a row that is not short, T is the key of the last element kept. -/
theorem topkKey_eq_key (hk : 0 < slCap pb) (hn : slCap pb ≤ (ranked ty pb all).length) :
    topkKey ty (slCap pb) (slMode pb == 0) all = some (topkRow ty pb all).key := by
  have hlt : slCap pb - 1 < (ranked ty pb all).length := by omega
  have hT : topkKey ty (slCap pb) (slMode pb == 0) all = some (selKey ty (ranked ty pb all)[slCap pb - 1]) :=
    congrArg (Option.map (selKey ty)) (List.getElem?_eq_getElem hlt)
  have hlast : ((ranked ty pb all).take (slCap pb)).getLast? = some (ranked ty pb all)[slCap pb - 1] := by
    rw [List.getLast?_take, if_neg hk.ne', List.getElem?_eq_getElem hlt, Option.some_or]
  have hkey : (topkRow ty pb all).key = selKey ty (ranked ty pb all)[slCap pb - 1] :=
    congrArg (fun o => (o.map (selKey ty)).getD 0) hlast
  rw [hT, hkey]

/-- TIES_OUT counts the elements left out whose key is T (R210). -/
theorem topkRow_ties {t : Nat} (hT : topkKey ty (slCap pb) (slMode pb == 0) all = some t) :
    (topkRow ty pb all).ties = (((ranked ty pb all).drop (slCap pb)).filter (fun r => selKey ty r == t)).length := by
  simp only [topkRow, hT, ranked]

/-- The elements left out are the valid ones that are not among the entries. -/
theorem drop_ranked_perm (h : (all.map (·.index)).Nodup) :
    ((ranked ty pb all).drop (slCap pb)).Perm ((validRecs all).filter (fun r => !(topkRow ty pb all).entries.contains r)) := by
  rw [← filter_not_contains_take (ranked_nodup h), topkRow_entries]
  exact ranked_perm.filter _

end

end Sys2Proof.Laws

namespace Sys2Proof

open Machine Laws

/-- Settles O38. The row is the first CAP of the survivors, which ascend strictly by index (`sortBy_indexLt_pairwise`). -/
theorem selectAboveRow : Obligations.SelectAboveRow := by
  unfold Obligations.SelectAboveRow
  intro ty pb all h row good
  have asc := sortBy_indexLt_pairwise h (passes ty pb)
  have mem (r : SelRec) : r ∈ sortBy indexLt (all.filter (passes ty pb)) ↔ good r := mem_sortBy_filter.trans (and_congr_right fun _ => passes_iff)
  refine ⟨List.length_take, asc.sublist (List.take_sublist ..), fun r hr => (mem r).1 (List.mem_of_mem_take hr),
    fun r hr => rel_of_notMem_take asc (slCap pb) r ((mem r).2 hr), fun hfits r hr => ?_, rfl⟩
  have whole : row.entries = sortBy indexLt (all.filter (passes ty pb)) := List.take_of_length_le hfits
  rw [whole]
  exact (mem r).2 hr

/-- Settles O39. The row is the first k of the valid elements, which rank strictly one after the other (`ranked_pairwise`); the ties counted
are those left out with the last key kept (`topkKey_eq_key`, `drop_ranked_perm`). -/
theorem topkRow : Obligations.TopkRow := by
  unfold Obligations.TopkRow
  intro ty pb all h hk row desc n
  have hn : (ranked ty pb all).length = n := ranked_perm.length_eq
  have asc := ranked_pairwise (ty := ty) (pb := pb) h
  refine ⟨?_, congrArg (Nat.min (slCap pb)) hn, congrArg (fun m => decide (m < slCap pb)) hn, asc.sublist (List.take_sublist ..),
    fun r hr => mem_ranked.1 (List.mem_of_mem_take hr), fun r hr hv => rel_of_notMem_take asc (slCap pb) r (mem_ranked.2 ⟨hr, hv⟩),
    fun hle => ?_⟩
  · rw [← hn]
    exact List.length_take
  · calc row.ties
        = (((ranked ty pb all).drop (slCap pb)).filter (fun r => selKey ty r == row.key)).length := topkRow_ties (topkKey_eq_key hk (hn ▸ hle))
      _ = (((validRecs all).filter (fun r => !row.entries.contains r)).filter (fun r => selKey ty r == row.key)).length :=
          ((drop_ranked_perm h).filter _).length_eq
      _ = (all.filter (fun r => r.state == 0 && !row.entries.contains r && selKey ty r == row.key)).length := by
          simp only [validRecs, List.filter_filter, Bool.and_comm, Bool.and_left_comm]

end Sys2Proof
end

section
/-!
PROOFS. Two writes of memory side by side (R299 to R306): what holds of two states that memory cannot tell apart, and is kept by each thing a
write may do, holds after a write of both. So the engines have no part in a write, and of a unit's counters it moves only CE and UE.
-/
namespace Sys2Proof.Laws

open Sys2Proof.Machine

/-- A relation of states that are alike to memory: it is kept when both store the same memory, log one CE or UE of a unit (R301), or note one
repair. -/
structure ThroughWrites (R : State → State → Prop) : Prop where
  mem_eq {s t : State} : R s t → t.mem = s.mem
  seq_eq {s t : State} : R s t → t.seq = s.seq
  place_eq {s t : State} : R s t → ∀ a, placeOf t a = placeOf s a
  store {s t : State} (m : Mem) : R s t → R { s with mem := m } { t with mem := m }
  event {s t : State} (k : Nat) {c : Nat} : c < 2 → R s t → R (stickySet (count s k c 1) k c) (stickySet (count t k c 1) k c)
  log {s t : State} (r : LogRecord) : R s t → R (logPersistent s r) (logPersistent t r)

/-- The word at w is read, f changes the stored bytes, and the word is written back (R300). -/
def rewritten (w : Nat) (f : List Host.Cell → List Host.Cell) (s : State) : State :=
  let r := readWord s w
  afterRead r (f r.1.mem.cells) w (w / 8) (sparseSet 0 (w / 8) 0xFF r.1.mem.synd)

theorem rmwWord_eq (s : State) (a : Nat) (bs : List Byte) : rmwWord s a bs = rewritten (a / 8 * 8) (cellsPut a bs) s := rfl

/-- A flush stores a full word, and rewrites the word of an entry that is not full (R299). -/
theorem mergeFlushEntry_eq (s : State) (b : Nat) (e : MergeEntry) : mergeFlushEntry s b e =
    if e.mask = 0xFF then storeWord { s with mem := mergeDrop s.mem b e.addr } e.addr (leBytes 8 e.bytes.toNat)
    else rewritten e.addr (fun c => (mergeBytes e).foldl (fun m x => cellSet x.1 x.2 m) c) { s with mem := mergeDrop s.mem b e.addr } := rfl

namespace ThroughWrites

variable {R : State → State → Prop} (hR : ThroughWrites R) {s t : State}
include hR

/-! ### The parts of a write -/

theorem storeMap (f : Mem → Mem) (h : R s t) : R { s with mem := f s.mem } { t with mem := f t.mem } := by
  rw [hR.mem_eq h]
  exact hR.store _ h

theorem isMemory_eq (h : R s t) (a : Nat) : isMemory t a = isMemory s a := by
  unfold isMemory
  rw [hR.place_eq h]

theorem wordChecker_eq (h : R s t) (a : Nat) : wordChecker t a = wordChecker s a := by
  unfold wordChecker checkerOf
  rw [hR.place_eq h]

theorem checkerGet_eq (h : R s t) (c : Nat) : checkerGet t c = checkerGet s c := by
  unfold checkerGet
  rw [hR.mem_eq h]

theorem checkerMod (c : Nat) (f : Checker → Checker) (h : R s t) : R (checkerMod s c f) (checkerMod t c f) :=
  hR.storeMap (fun m => { m with checkers := sparseSet (checkerDefault c) c (f (sparseGet (checkerDefault c) c m.checkers)) m.checkers }) h

theorem repairEvent (c i a : Nat) (u : Bool) (h : R s t) : R (repairEvent s c i a u) (repairEvent t c i a u) := by
  have now_eq : now t = now s := congrArg (fun q => q.strike.toNat) (hR.seq_eq h)
  unfold Machine.repairEvent
  dsimp only
  rw [hR.checkerGet_eq h, now_eq]
  split
  · split
    · exact h
    · split <;> exact hR.checkerMod _ _ h
  · split
    · exact hR.log _ (hR.checkerMod _ _ (hR.checkerMod _ _ h))
    · exact hR.checkerMod _ _ h

theorem eccLog (a : Nat) (sy : BitVec 8) (k : BitVec 2) (h : R s t) : R (eccLog s a sy k) (eccLog t a sy k) := by
  unfold Machine.eccLog
  dsimp only
  rw [hR.wordChecker_eq h, hR.mem_eq h, hR.seq_eq h]
  refine hR.event _ (by split <;> omega) ?_
  split
  · exact hR.checkerMod _ _ (hR.checkerMod _ _ h)
  · exact hR.checkerMod _ _ h

theorem eccEvent (a : Nat) (sy : BitVec 8) (k : BitVec 2) (h : R s t) : R (eccEvent s a sy k) (eccEvent t a sy k) := by
  unfold Machine.eccEvent
  dsimp only
  rw [hR.wordChecker_eq h, hR.mem_eq h]
  split
  · exact hR.eccLog a sy k h
  · exact hR.repairEvent _ _ _ _ (hR.eccLog a sy k h)

theorem readWord (a : Nat) (h : R s t) : R (readWord s a).1 (readWord t a).1 ∧ (readWord t a).2 = (readWord s a).2 := by
  unfold Machine.readWord
  rw [hR.mem_eq h]
  split
  · exact ⟨h, rfl⟩
  · split
    · exact ⟨h, rfl⟩
    · exact ⟨hR.storeMap (fun m => { m with synd := sparseErase (a / 8) m.synd, injected := m.injected.filter (· != a) }) (hR.eccEvent a _ 0 h), rfl⟩
    · next i _ =>
      exact ⟨hR.storeMap (fun m => { m with synd := sparseErase (a / 8) m.synd, cells := flipCell m.cells a i, injected := m.injected.filter (· != a) })
        (hR.eccEvent a _ 0 h), rfl⟩
    · exact ⟨hR.eccEvent a _ 2 h, rfl⟩
    · exact ⟨hR.eccEvent a _ 1 h, rfl⟩

theorem flipApply (a : Nat) (h : R s t) : R (flipApply s a) (flipApply t a) := by
  unfold Machine.flipApply
  dsimp only
  rw [hR.wordChecker_eq h, hR.checkerGet_eq h, hR.mem_eq h]
  generalize (if _ < 32 then a else _) = target
  split
  · exact hR.checkerMod _ _ (hR.store _ h)
  · exact h

theorem storeWord (a : Nat) (bs : List Byte) (h : R s t) : R (storeWord s a bs) (storeWord t a bs) := by
  have stored := hR.storeMap (fun m =>
    { m with cells := cellsPut a bs m.cells, synd := sparseErase (a / 8) m.synd, injected := m.injected.filter (· != a) }) h
  unfold Machine.storeWord
  dsimp only
  refine hR.flipApply a ?_
  rw [hR.place_eq h]
  split
  · next k _ => exact hR.storeMap (fun m => mergeDrop m k a) stored
  · exact stored

theorem afterRead {p q : State × Bool} (c : List Host.Cell) (w v : Nat) (z : Sparse (BitVec 8)) (h : R p.1 q.1) (ok : q.2 = p.2) :
    R (afterRead p c w v z) (afterRead q c w v z) := by
  unfold Laws.afterRead
  dsimp only
  rw [ok]
  split
  · exact hR.flipApply w (hR.storeMap (fun m => { m with cells := c, synd := sparseErase v m.synd, injected := m.injected.filter (· != w) }) h)
  · exact hR.flipApply w (hR.storeMap (fun m => { m with cells := c, synd := z, injected := m.injected.filter (· != w) }) h)

theorem rewritten (w : Nat) (f : List Host.Cell → List Host.Cell) (h : R s t) : R (rewritten w f s) (rewritten w f t) := by
  obtain ⟨read, ok⟩ := hR.readWord w h
  unfold Laws.rewritten
  dsimp only
  rw [hR.mem_eq read]
  exact hR.afterRead _ _ _ _ read ok

theorem mergeFlushEntry (b : Nat) (e : MergeEntry) (h : R s t) : R (mergeFlushEntry s b e) (mergeFlushEntry t b e) := by
  have dropped := hR.storeMap (fun m => mergeDrop m b e.addr) h
  rw [mergeFlushEntry_eq, mergeFlushEntry_eq]
  split
  · exact hR.storeWord _ _ dropped
  · exact hR.rewritten _ _ dropped

theorem mergeWrite (b a : Nat) (bs : List Byte) (h : R s t) : R (mergeWrite s b a bs) (mergeWrite t b a bs) := by
  have appended {u v : State} (e : MergeEntry) : R u v → R { u with mem := mergePut u.mem b (mergeGet u.mem b ++ [e]) }
      { v with mem := mergePut v.mem b (mergeGet v.mem b ++ [e]) } := hR.storeMap (fun m => mergePut m b (mergeGet m b ++ [e]))
  unfold Machine.mergeWrite
  dsimp only
  rw [hR.mem_eq h]
  split
  · split
    · exact hR.mergeFlushEntry b _ (hR.store _ h)
    · exact hR.store _ h
  · refine appended _ ?_
    split
    · split
      · exact hR.mergeFlushEntry b _ h
      · exact h
    · exact h

theorem writeInWord (a : Nat) (bs : List Byte) (h : R s t) : R (writeInWord s a bs) (writeInWord t a bs) := by
  unfold Machine.writeInWord
  rw [hR.isMemory_eq h, hR.place_eq h]
  split
  · unfold busError
    rw [hR.mem_eq h]
    exact hR.store _ h
  · split
    · exact hR.storeWord a bs h
    · split
      · exact hR.mergeWrite _ a bs h
      · rw [rmwWord_eq, rmwWord_eq]
        exact hR.rewritten _ _ h

theorem memWriteWords : ∀ (n : Nat) {s t : State} (a : Nat) (bs : List Byte), R s t → R (memWriteWords n s a bs) (memWriteWords n t a bs)
  | 0, _, _, _, _, h => h
  | n + 1, _, _, a, bs, h => by
    rw [Machine.memWriteWords, Machine.memWriteWords]
    split
    · exact h
    · exact memWriteWords n _ _ (hR.writeInWord a _ h)

theorem memWrite (a : Nat) (bs : List Byte) (h : R s t) : R (memWrite s a bs) (memWrite t a bs) := hR.memWriteWords _ a bs h

end ThroughWrites

/-! ### The engines have no part in a write -/

/-- The state with other engines. -/
def withEngines (s : State) (e : Engines) : State := { s with eng := e }

theorem count_withEngines (s : State) (e : Engines) (k c n : Nat) : count (withEngines s e) k c n = withEngines (count s k c n) e := by
  unfold count
  split
  · exact List.foldl_hom (fun s => withEngines s e) (fun _ _ => rfl)
  · rfl

theorem stickySet_withEngines (s : State) (e : Engines) (k b : Nat) : stickySet (withEngines s e) k b = withEngines (stickySet s k b) e := by
  have page : unitGet (withEngines s e) k = unitGet s k := rfl
  unfold stickySet
  dsimp only
  rw [page]
  split <;> rfl

theorem throughWrites_withEngines : ThroughWrites (fun s t => ∃ e, t = withEngines s e) where
  mem_eq := by rintro s _ ⟨e, rfl⟩; rfl
  seq_eq := by rintro s _ ⟨e, rfl⟩; rfl
  place_eq := by rintro s _ ⟨e, rfl⟩ a; rfl
  store := by rintro s _ m ⟨e, rfl⟩; exact ⟨e, rfl⟩
  event := by rintro s _ k c - ⟨e, rfl⟩; exact ⟨e, by rw [count_withEngines, stickySet_withEngines]⟩
  log := by rintro s _ r ⟨e, rfl⟩; exact ⟨e, rfl⟩

/-- What a write leaves in memory does not rest on the engines. -/
theorem memWrite_withEngines_mem (s : State) (e : Engines) (a : Nat) (bs : List Byte) : (memWrite (withEngines s e) a bs).mem = (memWrite s a bs).mem :=
  throughWrites_withEngines.mem_eq (throughWrites_withEngines.memWrite a bs ⟨e, rfl⟩)

/-! ### Counters that a write leaves -/

/-- Counter d of unit a stands at w. -/
def CounterAt (a d : Nat) (w : Word) (s t : State) : Prop := t = s ∧ counterGet s a d = w

theorem throughWrites_counterAt {a d : Nat} (hd : 2 ≤ d) (w : Word) : ThroughWrites (CounterAt a d w) where
  mem_eq h := congrArg State.mem h.1
  seq_eq h := congrArg State.seq h.1
  place_eq h a := congrArg (placeOf · a) h.1
  store m h := ⟨congrArg (fun s : State => { s with mem := m }) h.1, h.2⟩
  log r h := ⟨congrArg (logPersistent · r) h.1, h.2⟩
  event {s t} k c hc h := by
    obtain ⟨rfl, hw⟩ := h
    have hne : ¬ d = c := by omega
    refine ⟨rfl, ?_⟩
    rw [counterGet_stickySet _ _ (by omega), counterGet_count _ (le_refl 1), if_neg (fun h => hne h.2), hw]

theorem counterGet_memWrite {d : Nat} (hd : 2 ≤ d) (s : State) (a : Nat) (bs : List Byte) (k : Nat) :
    counterGet (memWrite s a bs) k d = counterGet s k d :=
  ((throughWrites_counterAt hd _).memWrite a bs ⟨rfl, rfl⟩).2

theorem counterGet_postMessage {d : Nat} (hd : 2 ≤ d) (s : State) (k : Nat) (m : List Byte) (a : Nat) :
    counterGet (postMessage s k m) a d = counterGet s a d := by
  unfold postMessage
  split
  · rfl
  · dsimp only
    split <;> exact counterGet_memWrite hd ..

theorem counterGet_complete {d : Nat} (hd : 2 ≤ d) (s : State) (c : BitVec 12) (tag : BitVec 16) (k : Nat) (st : BitVec 16) (b : List Byte) (a : Nat) :
    counterGet (complete s c tag k st b) a d = counterGet s a d := by
  unfold complete
  split
  · rfl
  · dsimp only
    split
    · split <;> exact counterGet_postMessage hd ..
    · rfl

/-- The completion of a migration counts nothing but errors of the memory it writes. -/
theorem counterGet_completeMigration {d : Nat} (hd : 2 ≤ d) (s : State) (g : Migration) (st : BitVec 16) (a : Nat) :
    counterGet (completeMigration s g st) a d = counterGet s a d := by
  unfold completeMigration
  split
  · exact counterGet_complete hd ..
  · rfl

end Sys2Proof.Laws
end

section
/-!
PROOFS. Versions of embedding tables, the row cache and the migration of rows (R221, R230 to R232, R238 to R240): what each command leaves of the
version it names, and what the cache reads after a decay and after a fill.
-/
namespace Sys2Proof.Laws

open Sys2Proof.Machine

/-! ### The row cache (R230 to R232) -/

section
variable {α β : Type} {k : Nat}

theorem sparseGet_map_value {d : α} {e : β} {f : α → β} (hf : f d = e) :
    ∀ l : Sparse α, sparseGet e k (l.map (fun x => (x.1, f x.2))) = f (sparseGet d k l)
  | [] => hf.symm
  | (j, v) :: l => by
    simp only [List.map_cons, sparseGet]
    split
    · rfl
    · exact sparseGet_map_value hf l

/-- In a map whose keys rise, entries at the default may be left out. -/
theorem sparseGet_filter_ne_default [DecidableEq α] {d : α} : ∀ {l : Sparse α}, Rises l → sparseGet d k (l.filter (fun e => e.2 != d)) = sparseGet d k l
  | [], _ => rfl
  | (j, v) :: l, h => by
    obtain ⟨hlt, hl⟩ := rises_cons.1 h
    by_cases hv : v = d
    · subst hv
      rw [List.filter_cons_of_neg (by simp), sparseGet_filter_ne_default hl, sparseGet]
      split
      · next e => exact sparseGet_of_lt (e ▸ hlt)
      · rfl
    · rw [List.filter_cons_of_pos (by simpa using hv), sparseGet, sparseGet, sparseGet_filter_ne_default hl]

end

theorem decaySet_empty : decaySet CacheSet.empty = CacheSet.empty := rfl

theorem execRowCacheDecay_due {s : State} (hb : now s % 4096 = 0) (hd : now s / 4096 % Nat.max (param s 8) 1 = 0) : execRowCacheDecay s =
    .next { s with eng := { s.eng with cache := (s.eng.cache.map (fun e => (e.1, decaySet e.2))).filter (fun e => e.2 != CacheSet.empty) } } := by
  unfold execRowCacheDecay isBoundary heatOf
  rw [hb, hd]
  rfl

theorem lowestTag_lt {l : List CacheTag} (h : 0 < l.length) : lowestTag l < l.length := by
  unfold lowestTag
  dsimp only
  cases hi : l.findIdx? (fun t => t.count == (minNat? (l.map (·.count))).getD 0) with
  | none => exact h
  | some i => exact (List.findIdx?_eq_some_iff_getElem.1 hi).1

/-- No tag of the empty set has a key. -/
theorem ways_ne_empty {c : CacheSet} {g : CacheTag} (hg : g ∈ c.ways) (hk : g.key ≠ none) : c ≠ CacheSet.empty := by
  rintro rfl
  exact hk (congrArg CacheTag.key (List.eq_of_mem_replicate hg))

theorem cacheGet_congr {s t : State} (h : t.eng = s.eng) (k : Nat) : cacheGet t k = cacheGet s k := congrArg (fun e : Engines => sparseGet _ k e.cache) h

theorem cacheGet_cacheMod_self {s : State} {k : Nat} {f : CacheSet → CacheSet} (h : f (cacheGet s k) ≠ CacheSet.empty) :
    cacheGet (cacheMod s k f) k = f (cacheGet s k) := (sparseGet_sparseSet_of_ne h).trans (if_pos rfl)

/-- The set of a row after a fill: its lowest way has taken the ghost (R232). -/
def filledSet (g : CacheTag) (c : CacheSet) : CacheSet := { c with ways := c.ways.set (lowestTag c.ways) g }

section
variable {s : State} {id n row : Nat} {tb : EmbTable} {v : TableVersion} (ht : embTable s id = some tb) (hv : versionOf tb n = some v)
include ht hv

/-- The owner of a row that lies in memory answers a fill request with its image (R232). -/
theorem fillRequest_owned {src a : Nat} (hm : CleanMemory s) (hc : isComposed tb.body = false)
    (hp : rowPlace s tb v (now s) row = (groupPos s tb.group, a)) (hr : rangeOk s isMemory a (rowStride tb.body) = true) :
    fillRequest src id n row s = sendTo s [memberAt s tb src] 5 (.cacheReply id n row v.gen (memRead s a (rowStride tb.body)).bytes) := by
  obtain ⟨st, bad⟩ := memRead_clean hm.1 hr
  unfold fillRequest
  simp [ht, hv, hp, hc, bad, st]

/-- A current reply whose row has a ghost fills the lowest way of the row's set (R232). -/
theorem fillReply_current {img : List Byte} {g : CacheTag} (hc : cacheable s tb.body = true)
    (hg : (cacheGet s (cacheSetOf s id n row)).ghosts.find? (fun x => x.key == some (id, n, row, v.gen)) = some g) :
    let k := cacheSetOf s id n row
    fillReply id n row v.gen img s = count (memWrite (cacheMod s k (filledSet g)) (cacheAddr s k (lowestTag (cacheGet s k).ways))
      (slice img 0 (rowStride tb.body))) (columnKey (k % 16)) 19 1 := by
  unfold fillReply
  simp only [ht, hv, hc, hg, Option.bind_some, Option.map_some, ne_eq, not_true_eq_false, decide_false, Bool.not_true, Bool.or_self, Bool.false_eq_true,
    if_false]
  rfl

end

/-! ### The version that a command names -/

theorem embTable_versionMod {s : State} {id n : Nat} {tb : EmbTable} {v : TableVersion} {f : TableVersion → TableVersion} (ht : embTable s id = some tb)
    (hv : versionOf tb n = some v) (hf : ∀ x, (f x).number = x.number) :
    ∃ x, embTable (versionMod s id n f) id = some x ∧ versionOf x n = some (f v) := by
  have same : (fun x : TableVersion => x.number == n) ∘ (fun x => if x.number == n then f x else x) = fun x => x.number == n := by
    funext x
    dsimp only [Function.comp]
    split
    · rw [hf]
    · rfl
  have hn : (v.number == n) = true := beq_iff_eq.2 (versionOf_number hv)
  refine ⟨_, tableMod_embTable (f := fun t => { t with versions := t.versions.map (fun x => if x.number == n then f x else x) }) ht (fun _ => rfl), ?_⟩
  unfold versionOf at hv ⊢
  rw [List.find?_map, same, hv, Option.map_some, if_pos hn]

theorem migrationOf_eq_some {s : State} {id n : Nat} {tb : EmbTable} {v : TableVersion} {g : Migration} :
    migrationOf s id n = some (tb, v, g) ↔ embTable s id = some tb ∧ versionOf tb n = some v ∧ v.migration = some g := by
  unfold migrationOf
  simp only [Option.bind_eq_some_iff, Option.map_eq_some_iff, Prod.mk.injEq]
  constructor
  · rintro ⟨_, ht, _, hv, _, hg, rfl, rfl, rfl⟩
    exact ⟨ht, hv, hg⟩
  · rintro ⟨ht, hv, hg⟩
    exact ⟨tb, ht, v, hv, g, hg, rfl, rfl, rfl⟩

theorem migrationOf_congr {s t : State} (h : t.eng = s.eng) (id n : Nat) : migrationOf t id n = migrationOf s id n := by
  unfold migrationOf
  rw [embTable_congr h]

section
variable {s : State} {id n : Nat} {tb : EmbTable} {v : TableVersion} {g : Migration} (h : migrationOf s id n = some (tb, v, g))
include h

theorem migrationOf_setMigration (f : Migration → Migration) : ∃ x y, migrationOf (setMigration s id n f) id n = some (x, y, f g) := by
  obtain ⟨ht, hv, hg⟩ := migrationOf_eq_some.1 h
  obtain ⟨x, hx, hy⟩ := embTable_versionMod ht hv (f := fun v => { v with migration := v.migration.map f }) (fun _ => rfl)
  exact ⟨x, _, migrationOf_eq_some.2 ⟨hx, hy, by rw [hg, Option.map_some]⟩⟩

theorem migrationOf_clear : migrationOf (versionMod s id n (fun v => { v with migration := none })) id n = none := by
  obtain ⟨ht, hv, -⟩ := migrationOf_eq_some.1 h
  obtain ⟨x, hx, hy⟩ := embTable_versionMod ht hv (f := fun v => { v with migration := none }) (fun _ => rfl)
  unfold migrationOf
  rw [hx, Option.bind_some, hy]
  rfl

/-! ### The phases of a migration (R240) -/

/-- The new owner writes an image of a row of which it holds no copy into the row's new slot. -/
theorem imageReceive_mem {row i : Nat} {img : List Byte} (hi : g.rows.findIdx? (· == row) = some i) (hd : g.dst = groupPos s tb.group)
    (hh : g.held.contains row = false) :
    (imageReceive id n row img s).mem = (memWrite s (newSlot s tb v g i) (slice img 0 (slotBytes tb.body))).mem := by
  have copy : row ∉ g.held := by simpa using hh
  unfold imageReceive
  simp [h, hi, hd, copy, setMigration]

/-- The cut-over, at its strike or later. -/
theorem cutOver_due (hg : g.installed = false) (hs : g.cutover ≤ now s) (hr : v.state ≠ .retired) : cutOver s id n =
    versionMod s id n (fun v => { v with redirects := cutRedirects s tb v g, migration := some { g with installed := true } }) := by
  have early : ¬ now s < g.cutover := by omega
  unfold cutOver
  simp [h, hg, early, hr]

theorem execMigrationEndSend_due (hi : g.installed = true) (he : g.endSent = false) (hs : g.src = groupPos s tb.group)
    (hu : updatesBefore s id n g.cutover = false) : execMigrationEndSend id n s =
      .next (sendTo (setMigration s id n (fun g => { g with endSent := true })) [memberAt s tb g.dst] 5 (.migrationEnd id n)) := by
  unfold execMigrationEndSend
  simp [h, hi, he, hs, hu]

theorem endReceive_first (hd : g.dst = groupPos s tb.group) (he : g.endReceived = false) : endReceive id n s =
    g.waits.foldl (fun u x => count u (columnKey x.1) 21 (now s - x.2)) (setMigration s id n (fun g => { g with endReceived := true, waits := [] })) := by
  unfold endReceive
  simp [h, hd, he]

/-- The end of the forwarding window, where neither owner has more to wait for. -/
theorem execMigrationForwardWindowEnd_due (hi : g.installed = true) (hs : g.cutover + 8192 ≤ now s) (hsrc : g.src = groupPos s tb.group → g.endSent = true)
    (hdst : g.dst = groupPos s tb.group → g.endReceived = true) : execMigrationForwardWindowEnd id n s =
      let s1 := versionMod s id n (fun v => { v with migration := none })
      .next (completeMigration (if g.src == groupPos s tb.group then count s1 devKey 27 1 else s1) g 0x0000) := by
  have sent : (!(g.src == groupPos s tb.group) || g.endSent) = true := by
    by_cases e : g.src = groupPos s tb.group
    · rw [hsrc e, Bool.or_true]
    · rw [beq_eq_false_iff_ne.2 e]; rfl
  have received : (g.dst != groupPos s tb.group || g.endReceived) = true := by
    by_cases e : g.dst = groupPos s tb.group
    · rw [hdst e, Bool.or_true]
    · rw [bne_iff_ne.2 e]; rfl
  unfold execMigrationForwardWindowEnd
  simp [h, hi, hs, sent, received]

end

/-! ### Automatic migration (R238) -/

/-- The migration that begins is the version's. -/
theorem migrationOf_beginMigration {s : State} {id n : Nat} {tb : EmbTable} {v : TableVersion} (ht : embTable s id = some tb)
    (hv : versionOf tb n = some v) (dst addr strike : Nat) (rows : List Nat) (owner : Option (BitVec 12 × Nat × BitVec 16)) :
    ∃ x y g, migrationOf (beginMigration s tb v dst addr strike rows owner) id n = some (x, y, g) ∧ g.rows = rows ∧ g.dst = dst ∧ g.cutover = strike := by
  obtain rfl := embTable_id ht
  obtain rfl := versionOf_number hv
  unfold beginMigration
  extract_lets place g s1
  obtain ⟨x, hx, hy⟩ := embTable_versionMod ht hv (f := fun v => { v with migration := some g }) (fun _ => rfl)
  have begun : migrationOf s1 tb.id v.number = some (x, { v with migration := some g }, g) := migrationOf_eq_some.2 ⟨hx, hy, rfl⟩
  refine ⟨x, { v with migration := some g }, g, ?_, rfl, rfl, rfl⟩
  split
  · exact (migrationOf_congr (foldl_keep _ State.eng (fun u i => sendImage_eng u tb v g i) _ s1) ..).trans begun
  · exact begun

/-- Under policy AUTO a member that serves too much moves its hottest rows to the one that serves least, and tells the others. -/
theorem execAutoMigration_hot {s : State} {id n : Nat} {lower higher : List (List Nat)} {dst : Word} {tb : EmbTable} {v : TableVersion}
    (ht : embTable s id = some tb) (hv : versionOf tb n = some v) (hauto : param s 0xA = 1) (hc : isComposed tb.body = false) (hd : v.damaged = false)
    (hst : v.state ≠ .retired) (hg : v.migration = none) (hl : lower.length = groupPos s tb.group)
    (hot : hotMember (param s 0xB) (servedBy s lower higher) (groupPos s tb.group) = true) (hrows : autoRows s tb v ≠ [])
    (hmov : rowsMovable s tb v (coolestMember (servedBy s lower higher)) dst.toNat (autoRows s tb v) = true) :
    ∃ msg, execAutoMigration id n lower higher dst s = .next (sendTo (beginMigration s tb v (coolestMember (servedBy s lower higher)) dst.toNat
      (nextBoundary (now s + 16384)) (autoRows s tb v) none) (otherMembers s tb.group) 7 msg) := by
  have some_rows : (autoRows s tb v).isEmpty = false := List.isEmpty_eq_false_iff.2 hrows
  unfold execAutoMigration
  simp [ht, hv, hauto, hc, hd, hst, hg, hl, hot, some_rows, hmov]

/-! ### Activation (R221) -/

/-- The version after its activation. -/
def activated (v : TableVersion) (a : TableActivation) : TableVersion := { v with activation := none, state := .active, activeFrom := some a.strike }

/-- A sweep leaves tables of which no version is RETIRED. -/
theorem sweepVersions_tables {s : State} (h : ∀ t ∈ s.eng.tables, ∀ v ∈ t.versions, v.state ≠ .retired) : (sweepVersions s).eng.tables = s.eng.tables := by
  unfold sweepVersions
  extract_lets gone migs _ s1
  have kept : s1.eng.tables = s.eng.tables := by
    refine (List.map_congr_left fun t ht => ?_).trans (List.map_id _)
    have all : t.versions.filter (fun v => !gone t v) = t.versions := List.filter_eq_self.2 fun v hv => by simp [gone, h t ht v hv]
    rw [all]
    rfl
  exact (congrArg Engines.tables (foldl_keep _ State.eng (fun u g => completeMigration_eng u g _) _ s1)).trans kept

/-- A LOADED version that stands alone becomes ACTIVE at its strike. -/
theorem activateVersions_alone {s : State} {tb : EmbTable} {v : TableVersion} {a : TableActivation} (ht : s.eng.tables = [tb]) (hv : tb.versions = [v])
    (hst : v.state = .loaded) (ha : v.activation = some a) (hs : a.strike ≤ now s) (ho : a.owner = none) :
    (activateVersions s).eng.tables = [{ tb with versions := [activated v a] }] := by
  have due : activateVersions s = sweepVersions (activateVersion s tb.id v a) := by simp [activateVersions, ht, hv, ha, hs]
  have one : (activateVersion s tb.id v a).eng.tables = [{ tb with versions := [activated v a] }] := by
    simp [activateVersion, ho, tableMod, ht, hv, hst, activated]
  rw [due]
  refine (sweepVersions_tables (s := activateVersion s tb.id v a) fun t hm y hy => ?_).trans one
  rw [one, List.mem_singleton] at hm
  subst hm
  obtain rfl := List.mem_singleton.1 hy
  exact nofun

end Sys2Proof.Laws

namespace Sys2Proof

open Machine Laws

/-- Settles O56. Each command has an equation for the case of its clause (`activateVersions_alone`, `fillReply_current`, `cutOver_due` and their like);
what it leaves of the version it names is read by `embTable_versionMod`, and neither messages nor completions touch the engines. -/
theorem embeddingTables : Obligations.EmbeddingTables := by
  unfold Obligations.EmbeddingTables
  refine ⟨fun s tb v a ht hv hst ha hs ho => ?activation, fun s k hrise hb hd => ?decay, fun s src id n row a tb v hm ht hv hc hp hr => ?request,
    fun s id n row img tb v g ht hv hc hlen hg => ?fill, fun s id n row i img tb v g h hi hd hh => ?image, fun s id n tb v g h hi hs hr => ?cutOver,
    fun s id n tb v g h hi he hsrc hu => ?endSend, fun s id n tb v g h hd he => ?endReceive, fun s id n tb v g h hi hs hsrc hdst => ?windowEnd,
    fun s id n lower higher dst tb v ht hv hauto hc hd hst hg hl => ?auto⟩
  case activation => exact ⟨_, _, _, rfl, activateVersions_alone ht hv hst ha hs ho, rfl, rfl, rfl, rfl⟩
  case decay =>
    refine ⟨_, execRowCacheDecay_due hb hd, ?_, rfl⟩
    exact (sparseGet_filter_ne_default (map_rises (fun e => decaySet e.2) hrise)).trans (sparseGet_map_value decaySet_empty _)
  case request => exact congrArg Host.Outcome.next (fillRequest_owned ht hv hm hc hp hr)
  case fill =>
    have key : g.key ≠ none := by
      have hk := List.find?_some hg
      rw [beq_iff_eq.1 hk]
      exact Option.some_ne_none _
    have filled : g ∈ (filledSet g (cacheGet s (cacheSetOf s id n row))).ways := List.mem_set (lowestTag_lt (by omega)) g
    refine ⟨_, congrArg Host.Outcome.next (fillReply_current ht hv hc hg), ?_, ?_⟩
    · rw [cacheGet_congr ((count_eng ..).trans (memWrite_eng ..)), cacheGet_cacheMod_self (ways_ne_empty filled key)]
      exact filled
    · rw [count_mem]
      exact memWrite_withEngines_mem ..
  case image => exact ⟨_, rfl, imageReceive_mem h hi hd hh⟩
  case cutOver =>
    obtain ⟨ht, hv, -⟩ := migrationOf_eq_some.1 h
    obtain ⟨x, hx, hy⟩ := embTable_versionMod ht hv
      (f := fun v => { v with redirects := cutRedirects s tb v g, migration := some { g with installed := true } }) (fun _ => rfl)
    exact ⟨_, x, _, congrArg Host.Outcome.next (cutOver_due h hi hs hr), hx, hy, rfl, rfl⟩
  case endSend =>
    obtain ⟨x, y, hxy⟩ := migrationOf_setMigration h (fun g => { g with endSent := true })
    exact ⟨_, x, y, execMigrationEndSend_due h hi he hsrc hu, (migrationOf_congr (sendTo_eng ..) ..).trans hxy⟩
  case endReceive =>
    obtain ⟨x, y, hxy⟩ := migrationOf_setMigration h (fun g => { g with endReceived := true, waits := [] })
    refine ⟨_, x, y, congrArg Host.Outcome.next (endReceive_first h hd he), (migrationOf_congr ?_ ..).trans hxy⟩
    exact foldl_keep _ State.eng (fun u w => count_eng ..) _ _
  case windowEnd =>
    refine ⟨_, execMigrationForwardWindowEnd_due h hi hs hsrc hdst, ?_, fun hme => ?_⟩
    · refine (migrationOf_congr ((completeMigration_eng ..).trans ?_) ..).trans (migrationOf_clear h)
      split
      · exact count_eng ..
      · rfl
    · rw [counterGet_completeMigration (by omega), if_pos (beq_iff_eq.2 hme)]
      exact (counterGet_count_devKey _ 27 (le_refl 1) 27).trans (if_pos rfl)
  case auto =>
    intro served rows hot hrows hmov
    obtain ⟨msg, hexec⟩ := execAutoMigration_hot ht hv hauto hc hd hst hg hl hot hrows hmov
    obtain ⟨x, y, g, hxy, hr, hdst, hcut⟩ :=
      migrationOf_beginMigration ht hv (coolestMember served) dst.toNat (nextBoundary (now s + 16384)) rows none
    exact ⟨_, x, y, g, hexec, (migrationOf_congr (sendTo_eng ..) ..).trans hxy, hr, hdst, hcut⟩

end Sys2Proof
end

section
/-!
PROOFS. A far tier whose size `State` does not bound may reach over the doorbell pages (R28): there a write of a ring's TAIL is a bus error.
-/
namespace Sys2Proof.Laws

open Sys2Proof.Machine

theorem placeOf_far {s : State} {a : Nat} (h : farBase ≤ a) (hs : a < farBase + s.form.farGib * 2 ^ 30) :
    placeOf s a = .far ((a - farBase) / 2 ^ 12 % 16) := by
  have hnear : ¬ a < 2 ^ 40 := by
    unfold farBase at h
    omega
  unfold placeOf
  rw [if_neg hnear, if_pos (by rw [Bool.and_eq_true, decide_eq_true_eq, decide_eq_true_eq]; exact ⟨h, hs⟩)]

theorem tailAddr_request {k : Nat} (hk : k < 256) : tailAddr (2 * k) = some (doorBase + 4096 * (2 * k) + 0x18) := by
  rw [tailAddr, if_pos (by omega), if_pos (by omega)]

/-- Where the far tier lies over a ring pair's page, the Hearth's write of TAIL reports a fault and writes no register. -/
theorem exec_ringTailWrite_far {s : State} {k : Nat} (hk : k < 256) (h : doorBase + 4096 * (2 * k) + 0x18 < farBase + s.form.farGib * 2 ^ 30)
    (tail : BitVec 32) : exec (.ringTailWrite .hearth (2 * k) tail) s =
      .next (emitOut s (.hearthFault (BitVec.ofNat 64 (doorBase + 4096 * (2 * k) + 0x18)))) := by
  have hword : ¬ (doorBase + 4096 * (2 * k) + 0x18) % 8 ≠ 0 := by
    unfold doorBase
    omega
  change execRingTailWrite .hearth (2 * k) tail s = _
  rw [execRingTailWrite, tailAddr_request hk]
  dsimp only
  rw [regWrite, if_neg hword, placeOf_far (by unfold doorBase farBase; omega) h]
  rfl

/-- The state at reset but for a far tier of 64 TiB, which takes in the doorbell pages. -/
def doorbellsInFarTier : State := { State.reset with form := { State.reset.form with farGib := 65536 } }

end Sys2Proof.Laws

namespace Sys2Proof

open Machine Laws

/-- Refutes O18: its first clause takes every state, and `State` sets no bound on the size of the far tier. In `doorbellsInFarTier` the address of
pair 1's TAIL lies in the far tier, so the write is reported as a fault (`exec_ringTailWrite_far`) where the clause has no report. -/
theorem not_doorbellRings : ¬ Obligations.DoorbellRings := by
  unfold Obligations.DoorbellRings
  rintro ⟨hwritten, -, -, -⟩
  have hclaim := hwritten doorbellsInFarTier .hearth 1 0 (by decide) (by decide)
  rw [exec_ringTailWrite_far (by decide) (by decide)] at hclaim
  have hout := congrArg State.out (Host.Outcome.next.inj hclaim)
  exact absurd hout (List.cons_ne_nil _ _)

end Sys2Proof
end

section
/-!
PROOFS. The notes that memory keeps of failing words (R29, R307, R308): a write notes at most words that are no memory, so that no recovery mends
what an engine's own stores have noted.
-/
namespace Sys2Proof.Laws

open Sys2Proof.Machine

/-! ### What leaves the notes -/

/-- What memory has noted of failing accesses. -/
def notes (m : Mem) : Option Nat × Option Nat := (m.badWord, m.badUnit)

theorem repairEvent_notes (s : State) (c i a : Nat) (ue : Bool) : notes (repairEvent s c i a ue).mem = notes s.mem := by
  unfold repairEvent
  extract_lets ck w row near hit s1
  split
  · split
    · rfl
    · split <;> rfl
  · split <;> rfl

theorem eccEvent_notes (s : State) (a : Nat) (sy : BitVec 8) (kind : BitVec 2) : notes (eccEvent s a sy kind).mem = notes s.mem := by
  have logged : notes (eccLog s a sy kind).mem = notes s.mem := by
    unfold eccLog
    dsimp only
    rw [stickySet_mem, count_mem]
    split <;> rfl
  unfold eccEvent
  dsimp only
  split
  · exact logged
  · exact (repairEvent_notes ..).trans logged

theorem readWord_notes (s : State) (a : Nat) : notes (readWord s a).1.mem = notes s.mem := by
  unfold readWord
  split
  · rfl
  · split
    · rfl
    · exact eccEvent_notes ..
    · exact eccEvent_notes ..
    · exact eccEvent_notes ..
    · exact eccEvent_notes ..

theorem flipApply_notes (s : State) (a : Nat) : notes (flipApply s a).mem = notes s.mem := by
  unfold flipApply
  dsimp only
  repeat' split
  all_goals rfl

theorem storeWord_notes (s : State) (a : Nat) (bs : List Byte) : notes (storeWord s a bs).mem = notes s.mem := by
  unfold storeWord
  refine (flipApply_notes ..).trans ?_
  split <;> rfl

theorem rewritten_notes (w : Nat) (f : List Host.Cell → List Host.Cell) (s : State) : notes (rewritten w f s).mem = notes s.mem := by
  unfold rewritten afterRead
  dsimp only
  split <;> exact (flipApply_notes ..).trans (readWord_notes s w)

theorem mergeFlushEntry_notes (s : State) (b : Nat) (e : MergeEntry) : notes (mergeFlushEntry s b e).mem = notes s.mem := by
  rw [mergeFlushEntry_eq]
  split
  · exact storeWord_notes ..
  · exact rewritten_notes ..

theorem mergeWrite_notes (s : State) (b a : Nat) (bs : List Byte) : notes (mergeWrite s b a bs).mem = notes s.mem := by
  unfold mergeWrite
  extract_lets w es s1 e'
  clear_value es
  split
  · dsimp only
    split
    · exact mergeFlushEntry_notes ..
    · rfl
  · have h1 : notes s1.mem = notes s.mem := by
      unfold s1
      split
      · split
        · exact mergeFlushEntry_notes ..
        · rfl
      · rfl
    exact h1

/-! ### Notes of words that are no memory -/

/-- No Hardy entry is noted as failed, and no word of memory. -/
structure NotesUnmapped (s : State) : Prop where
  unit : s.mem.badUnit = none
  word : ∀ w, s.mem.badWord = some w → isMemory s w = false

theorem offline_blind : BlindToEvents (fun u => u.flags.offline) := ⟨fun _ _ => rfl, fun _ _ => rfl, fun _ _ => rfl⟩

section
variable {s t : State}

theorem NotesUnmapped.of_noted_none (hw : s.mem.badWord = none) (hu : s.mem.badUnit = none) : NotesUnmapped s :=
  ⟨hu, fun w h => absurd (hw.symm.trans h) (Option.some_ne_none w).symm⟩

theorem isMemory_of_events (hcfg : t.cfg = s.cfg) (hform : t.form = s.form) (he : EventsOnly s t) (a : Nat) : isMemory t a = isMemory s a :=
  isMemory_congr hcfg hform (he.keeps offline_blind) a

/-- Where units only count events, the notes stand as they were. -/
theorem NotesUnmapped.of_events (h : NotesUnmapped s) (hn : notes t.mem = notes s.mem) (hcfg : t.cfg = s.cfg) (hform : t.form = s.form)
    (he : EventsOnly s t) : NotesUnmapped t := by
  obtain ⟨hword, hunit⟩ := Prod.mk.inj hn
  exact ⟨hunit.trans h.unit, fun w hw => (isMemory_of_events hcfg hform he w).trans (h.word w (hword ▸ hw))⟩

/-- R307: the bus error notes the lowest word that is no memory. -/
theorem busError_notesUnmapped (h : NotesUnmapped s) {a : Nat} (ha : isMemory s a = false) : NotesUnmapped (busError s a) := by
  have same : ∀ x, isMemory (busError s a) x = isMemory s x := isMemory_of_events rfl rfl (.of_units rfl)
  have hword : isMemory s (a / 8 * 8) = false := by
    have key := isMemory_word (s := s) (w := a / 8 * 8) (j := a % 8) (by omega) (by omega)
    rw [← key, Nat.div_add_mod', ha]
  refine ⟨h.unit, fun w hw => (same w).trans ?_⟩
  obtain rfl := Option.some.inj hw
  split
  · next b hb =>
    rcases Nat.le_total b (a / 8 * 8) with hle | hle
    · rw [show Nat.min b (a / 8 * 8) = b from Nat.min_eq_left hle]
      exact h.word b hb
    · rw [show Nat.min b (a / 8 * 8) = a / 8 * 8 from Nat.min_eq_right hle]
      exact hword
  · exact hword

theorem writeInWord_notesUnmapped (h : NotesUnmapped s) (a : Nat) (bs : List Byte) : NotesUnmapped (writeInWord s a bs) := by
  have kept (hn : notes (writeInWord s a bs).mem = notes s.mem) : NotesUnmapped (writeInWord s a bs) :=
    h.of_events hn (by rw [writeInWord_part]; rfl) (by rw [writeInWord_part]; rfl) (writeInWord_events ..)
  cases ha : isMemory s a with
  | false =>
    rw [writeInWord, ha]
    exact busError_notesUnmapped h ha
  | true =>
    refine kept ?_
    rw [writeInWord, ha]
    simp only [Bool.not_true, Bool.false_eq_true, if_false]
    split
    · exact storeWord_notes ..
    · split
      · exact mergeWrite_notes ..
      · exact rewritten_notes ..

theorem memWriteWords_notesUnmapped : ∀ (n : Nat) {s : State} (a : Nat) (bs : List Byte), NotesUnmapped s → NotesUnmapped (memWriteWords n s a bs)
  | 0, _, _, _, h => h
  | n + 1, s, a, bs, h => by
    rw [memWriteWords]
    split
    · exact h
    · exact memWriteWords_notesUnmapped n _ _ (writeInWord_notesUnmapped h ..)

/-- R29, R308: a word that is no memory makes no result a fault. -/
theorem setResult_of_notesUnmapped (h : NotesUnmapped s) (j : Job) (r : ActRef) (x : ActResult) : setResult s j r x = recordResult s j r x := by
  have hs : s = noted (clearBad s) s.mem.badWord s.units := by
    have hm : s.mem = { s.mem with badUnit := none } := by rw [← h.unit]
    exact congrArg (fun m : Mem => { s with mem := m }) hm
  exact setResult_of_readsOnly (s := clearBad s) rfl ⟨_, _, hs, .of_units rfl, h.word⟩ j r x

end

end Sys2Proof.Laws
end

section
/-!
PROOFS. Stream commands (R257, R264, R265): which repeat a command serves, that what an engine counts and reports leaves the repeat in progress, and
how the result of a repeat that ended in an error is recorded.
-/
namespace Sys2Proof.Laws

open Sys2Proof.Machine

/-! ### The repeat in progress -/

theorem servedStream_some {s : State} {r p kind : Nat} {j : Job} {h : List Byte} (hs : servedStream s r p kind = some (j, h)) :
    runningJob s = some j ∧ ∃ a, actOf j (.stream r p) = some a := by
  unfold servedStream at hs
  split at hs
  · cases hs
  · next j' hj =>
    dsimp only at hs
    split at hs
    · next a ha =>
      obtain ⟨-, rfl, -⟩ : _ ∧ j' = j ∧ streamHdr j'.plan j'.pos r = h := by
        simpa only [Option.ite_none_right_eq_some, Option.some.injEq, Prod.mk.injEq] using hs
      exact ⟨hj, a, ha⟩
    · cases hs

theorem unlessFailed_of_none {s : State} {j : Job} {r p st : Nat} (h : failedOn s j.num r st = none) (run : State) :
    unlessFailed s j r p st run = run := by
  rw [unlessFailed, h]

theorem unlessFailed_of_some {s : State} {j : Job} {r p st code : Nat} (h : failedOn s j.num r st = some code) (run : State) :
    unlessFailed s j r p st run = recordResult s j (.stream r p) (failedRepeat code 0 0 []) := by
  rw [unlessFailed, h]

/-- The job that runs in t is job j with the activities that it had. -/
def Serves (j : Job) (t : State) : Prop := ∃ k, runningJob t = some k ∧ k.num = j.num ∧ k.acts = j.acts

section
variable {s t : State} {j : Job}

theorem serves_of_running (h : runningJob s = some j) : Serves j s := ⟨j, h, rfl, rfl⟩

theorem Serves.of_seq (h : Serves j s) (ht : t.seq = s.seq) : Serves j t := by
  obtain ⟨k, hk, hnum⟩ := h
  exact ⟨k, (congrArg (fun q : Sequencer => q.jobs.find? _) ht).trans hk, hnum⟩

theorem Serves.setJob (h : Serves j s) {f : Job → Job} (hf : ∀ k, (f k).phase = k.phase ∧ (f k).num = k.num ∧ (f k).acts = k.acts) :
    Serves j (setJob s j.num f) := by
  obtain ⟨k, hk, hnum, hacts⟩ := h
  exact ⟨f k, hnum ▸ runningJob_setJob hk (fun k => (hf k).1), (hf k).2.1.trans hnum, (hf k).2.2.trans hacts⟩

/-- The result that a command records for the repeat it serves. -/
theorem Serves.hasResult (h : Serves j s) {r : ActRef} {a : Activity} (ha : actOf j r = some a) {x : ActResult} {P : ActResult → Prop}
    (hP : ∀ n, P { x with used := n }) : HasResult (recordResult s j r x) r P := by
  obtain ⟨k, hk, hnum, hacts⟩ := h
  have hka : actOf k r = some a := (congrArg (List.find? _) hacts).trans ha
  have hrec : recordResult s j r x = recordResult s k r x := by rw [recordResult, recordResult, hnum]
  exact hrec ▸ hasResult_recordResult hk hka (hP _)

theorem hasResult_mono {r : ActRef} {P Q : ActResult → Prop} (h : HasResult t r P) (hPQ : ∀ x, P x → Q x) : HasResult t r Q := by
  obtain ⟨k, a, x, hk, ha, hx, hP⟩ := h
  exact ⟨k, a, x, hk, ha, hx, hPQ x hP⟩

end

/-- A repeat without an error holds its result. -/
theorem setResult_of_completed {x : ActResult} (h : x.status = 0x0000) (s : State) (j : Job) (r : ActRef) : setResult s j r x = recordResult s j r x :=
  setResult_of_status_ne (h ▸ by decide) s j r

/-! ### What an engine counts (R252, R255) -/

section
variable (s : State)

@[simp] theorem noteMoved_seq (st n : Nat) (xs : List Xfer) : (noteMoved s st n xs).seq = s.seq := by
  unfold noteMoved
  dsimp only
  split
  · exact count_seq ..
  · exact (count_seq ..).trans (count_seq ..)

@[simp] theorem noteMoved_mem (st n : Nat) (xs : List Xfer) : (noteMoved s st n xs).mem = s.mem := by
  unfold noteMoved
  dsimp only
  split
  · exact count_mem ..
  · exact (count_mem ..).trans (count_mem ..)

@[simp] theorem noteDropped_seq (st n : Nat) : (noteDropped s st n).seq = s.seq := by
  unfold noteDropped
  split
  · rfl
  · exact (stickySet_seq ..).trans (count_seq ..)

@[simp] theorem noteDropped_mem (st n : Nat) : (noteDropped s st n).mem = s.mem := by
  unfold noteDropped
  split
  · rfl
  · exact (stickySet_mem ..).trans (count_mem ..)

theorem noteDropped_events (st n : Nat) : EventsOnly s (noteDropped s st n) := by
  unfold noteDropped
  split
  · exact .refl s
  · next hn => exact (count_events s _ _ (Nat.one_le_iff_ne_zero.2 hn)).trans (.raise _ _ (by decide))

end

/-! ### A stream error (R265) -/

theorem postCompl_notesUnmapped {s : State} (h : NotesUnmapped s) (st r : Nat) (e : List Byte) : NotesUnmapped (postCompl s st r e) := by
  unfold postCompl
  dsimp only
  split
  · exact h.of_events (by rw [count_mem]) (count_cfg ..) (count_form ..) (count_events _ _ _ (le_refl 1))
  · exact (memWriteWords_notesUnmapped _ _ _ h).of_events rfl rfl rfl (.of_units rfl)

theorem streamStop_events (s : State) (j : Job) (r p : Nat) (st : BitVec 16) (b : Nat) : EventsOnly s (streamStop s j r p st b) := by
  unfold streamStop
  extract_lets hdr last stop s1 s2
  exact (EventsOnly.of_units (s := s) (t := s2) rfl).trans (sendTo_events ..)

theorem streamStop_serves {s : State} {j : Job} (h : Serves j s) (r p : Nat) (st : BitVec 16) (b : Nat) : Serves j (streamStop s j r p st b) := by
  unfold streamStop
  extract_lets hdr last stop s1 s2
  have h1 : Serves j s1 := h.setJob (fun k => by split <;> exact ⟨rfl, rfl, rfl⟩)
  have h2 : Serves j s2 := h1.setJob (fun k => by split <;> exact ⟨rfl, rfl, rfl⟩)
  exact h2.of_seq (sendTo_seq ..)

section
variable {s : State} {j : Job} {r p st code block moved charge : Nat}

theorem streamFault_serves (h : Serves j s) : Serves j (streamFault s j r p st code block moved charge) := by
  unfold streamFault
  extract_lets c s1 s2 s3
  have h2 : s2.seq = s.seq := by rw [count_seq, postCompl_seq, bellowsMod_seq]
  have h3 : Serves j s3 := by
    refine h.of_seq ?_
    unfold s3
    split
    · rw [stickySet_seq, count_seq, h2]
    · split
      · exact h2
      · exact (clearBad_seq s2).trans h2
  clear_value s3 s2 s1
  split
  · exact h3
  · refine streamStop_serves (h3.setJob fun k => ?_) ..
    exact ⟨rfl, rfl, rfl⟩

/-- What an engine notes of its own completion entry is no memory; the notes of its reads stand after an uncorrectable one only. -/
theorem streamFault_notesUnmapped (h : code = 1 → NotesUnmapped s) (hcode : code ≠ 3) :
    NotesUnmapped (streamFault s j r p st code block moved charge) := by
  unfold streamFault
  extract_lets c s1 s2 s3
  have h3 : NotesUnmapped s3 := by
    unfold s3
    rw [if_neg hcode]
    split
    · next h1 =>
      have noted1 : NotesUnmapped s1 := (h h1).of_events rfl rfl rfl (.of_units rfl)
      have posted := postCompl_notesUnmapped noted1 st 0 (complEntry s r p (streamStatus code).toNat code block moved)
      exact posted.of_events (by rw [count_mem]) (count_cfg ..) (count_form ..) (count_events _ _ _ (le_refl 1))
    · exact .of_noted_none rfl rfl
  clear_value s3
  split
  · exact h3
  · refine h3.of_events ?_ ?_ ?_ ((EventsOnly.of_units (setJob_units ..)).trans (streamStop_events ..))
    · rw [streamStop, sendTo_mem]
      rfl
    · rw [streamStop, sendTo_cfg]
      rfl
    · rw [streamStop, sendTo_form]
      rfl

/-- R309, R310: a failed check sets the sticky bit of the unit that it is counted against. -/
theorem streamFault_raises : stickyRaised (streamFault s j r p st 3 block moved charge) charge 9 := by
  unfold streamFault
  extract_lets c s1 s2 s3
  have raised : stickyRaised s3 charge 9 := stickyRaised_stickySet_any _ _ (by decide)
  clear_value s3
  exact ((EventsOnly.of_units (setJob_units ..)).trans (streamStop_events ..)).raised raised

/-- A repeat that a stream error ends has the error's status as its result, and no recovery takes its place. -/
theorem hasResult_streamFault (hs : Serves j s) {a : Activity} (ha : actOf j (.stream r p) = some a) (hn : code = 1 → NotesUnmapped s)
    (n : Nat) (ws : List (Nat × List Byte)) :
    HasResult (setResult (streamFault s j r p st code block moved charge) j (.stream r p) (failedRepeat code block n ws)) (.stream r p)
      (fun x => x.status = streamStatus code ∧ x.elems = n ∧ x.block = block ∧ x.writes = ws) := by
  have recorded : setResult (streamFault s j r p st code block moved charge) j (.stream r p) (failedRepeat code block n ws) =
      recordResult (streamFault s j r p st code block moved charge) j (.stream r p) (failedRepeat code block n ws) := by
    by_cases hcode : code = 3
    · subst hcode
      exact setResult_of_status_ne (x := failedRepeat 3 block n ws) (show (0x0401 : BitVec 16) ≠ 0x0400 by decide) ..
    · exact setResult_of_notesUnmapped (streamFault_notesUnmapped hn hcode) ..
  rw [recorded]
  exact (streamFault_serves hs).hasResult ha (fun _ => ⟨rfl, rfl, rfl, rfl⟩)

end

end Sys2Proof.Laws
end

section
/-!
PROOFS. LAND, INGEST and SEND (R258, R259, R263, R265): bytes stored through transfers, the result each command records, and the bytes that a SEND
hands to its flow.
-/
namespace Sys2Proof.Laws

open Sys2Proof.Machine

/-! ### Storing bytes through transfers -/

/-- The bytes that the transfers take are counted, and those dropped outside a bound. -/
def landed (s : State) (st : Nat) (ys : List Xfer) (bs : List Byte) : State :=
  noteDropped (noteMoved s st (Nat.min (totalLen ys) bs.length) ys) st (scatterXfers ys bs).2

theorem landed_seq (s : State) (st : Nat) (ys : List Xfer) (bs : List Byte) : (landed s st ys bs).seq = s.seq :=
  (noteDropped_seq ..).trans (noteMoved_seq ..)

section
variable {s : State} {j : Job} {r p st i : Nat} {xs : List Xfer} {bs : List Byte}

theorem landBytes_of_mapped (h : xs.findIdx? (unmappedXfer s) = none) : Machine.landBytes s j r p st xs bs =
    let n := Nat.min (totalLen xs) bs.length
    let ws := (scatterXfers xs bs).1
    if totalLen xs < bs.length then
      setResult (streamFault (landed s st xs bs) j r p st 5 0 n) j (.stream r p) (failedRepeat 5 0 n ws)
    else setResult (landed s st xs bs) j (.stream r p) { ActResult.ok with elems := n, words := [n, 0, 0], writes := ws } := by
  rw [Machine.landBytes, h]
  rfl

theorem landBytes_of_unmapped (h : xs.findIdx? (unmappedXfer s) = some i) : Machine.landBytes s j r p st xs bs =
    let n := Nat.min (totalLen (xs.take i)) bs.length
    setResult (streamFault (clearBad (landed s st (xs.take i) bs)) j r p st 1 i n) j (.stream r p)
      (failedRepeat 1 i n (scatterXfers (xs.take i) bs).1) := by
  rw [Machine.landBytes, h]
  rfl

variable {a : Activity} (hs : Serves j s) (ha : actOf j (.stream r p) = some a)
include hs ha

theorem hasResult_landBytes_fits (hu : xs.findIdx? (unmappedXfer s) = none) (hl : bs.length ≤ totalLen xs) :
    HasResult (Machine.landBytes s j r p st xs bs) (.stream r p)
      (fun x => x.status = 0x0000 ∧ x.elems = bs.length ∧ x.writes = (scatterXfers xs bs).1) := by
  rw [landBytes_of_mapped hu]
  dsimp only
  rw [if_neg (Nat.not_lt.2 hl), setResult_of_completed rfl]
  exact (hs.of_seq (landed_seq ..)).hasResult ha (fun _ => ⟨rfl, Nat.min_eq_right hl, rfl⟩)

theorem hasResult_landBytes_overflow (hu : xs.findIdx? (unmappedXfer s) = none) (hl : totalLen xs < bs.length) :
    HasResult (Machine.landBytes s j r p st xs bs) (.stream r p)
      (fun x => x.status = 0x0302 ∧ x.elems = totalLen xs ∧ x.writes = (scatterXfers xs bs).1) := by
  rw [landBytes_of_mapped hu]
  dsimp only
  rw [if_pos hl, show Nat.min (totalLen xs) bs.length = totalLen xs from Nat.min_eq_left hl.le]
  refine hasResult_mono (hasResult_streamFault (code := 5) (hs.of_seq (landed_seq ..)) ha nofun _ _) ?_
  exact fun x ⟨hstatus, helems, _, hwrites⟩ => ⟨hstatus, helems, hwrites⟩

theorem hasResult_landBytes_unmapped (hu : xs.findIdx? (unmappedXfer s) = some i) :
    HasResult (Machine.landBytes s j r p st xs bs) (.stream r p)
      (fun x => x.status = 0x0400 ∧ x.block = i ∧ x.writes = (scatterXfers (xs.take i) bs).1) := by
  rw [landBytes_of_unmapped hu]
  have cleared : Serves j (clearBad (landed s st (xs.take i) bs)) := hs.of_seq (landed_seq ..)
  refine hasResult_mono (hasResult_streamFault cleared ha (fun _ => .of_noted_none rfl rfl) _ _) ?_
  exact fun x ⟨hstatus, _, hblock, hwrites⟩ => ⟨hstatus, hblock, hwrites⟩

end

theorem exec_bellowsLand {s : State} {j : Job} {h bs : List Byte} {r p : Nat} (hv : servedStream s r p 3 = some (j, h))
    (hf : failedOn s j.num r (keyStack (strScope h)) = none) :
    exec (.bellowsLand r p bs) s = .next (
      if (((flowTo j r).map (fun f => flowBytes j.flowIn f.index)).getD []).length < ((flowTo j r).map (·.bytes)).getD 0 then s
      else Machine.landBytes s j r p (keyStack (strScope h)) (streamXfers j.plan j.pos r p 0)
        (((flowTo j r).map (fun f => flowBytes j.flowIn f.index)).getD [])) := by
  change execBellowsLand r p bs s = _
  rw [execBellowsLand, hv]
  dsimp only
  rw [unlessFailed_of_none hf]
  cases flowTo j r with
  | none => rfl
  | some f => rfl

/-! ### INGEST (R259, R263) -/

theorem ringEntries_seq (s : State) (j : Job) (h : List Byte) (r p : Nat) : (ringEntries s j h r p).1.seq = s.seq :=
  foldl_fst_seq (fun _ _ => memRead_seq ..) _ _

theorem ingestXfers_seq {s t : State} {j : Job} {h : List Byte} {r p : Nat} {x : Except (Nat × Nat) (List Xfer)} (hx : ingestXfers s j h r p = (t, x)) :
    t.seq = s.seq := by
  have hread := ringEntries_seq s j h r p
  have key : (ingestXfers s j h r p).1.seq = s.seq := by
    unfold ingestXfers
    split
    · rfl
    · split
      · next e => exact (congrArg (State.seq ∘ Prod.fst) e).symm.trans hread
      · next e =>
        have hread' := (congrArg (State.seq ∘ Prod.fst) e).symm.trans hread
        dsimp only
        split <;> exact hread'
  rwa [hx] at key

theorem length_ingestData {s : State} {j : Job} {h : List Byte} {r p n : Nat} {bs : List Byte} (hd : ingestData s j h r p n = some bs) :
    bs.length = n := by
  unfold ingestData at hd
  split at hd
  · next hn =>
    obtain rfl := Option.some.inj hd
    exact hn.symm
  · split at hd
    · cases hd
    · dsimp only at hd
      split at hd
      · obtain ⟨⟨-, -, -, hused, hlen⟩, hbs⟩ := Option.ite_none_right_eq_some.1 hd
        rw [← Option.some.inj hbs, hlen, hused]
      · cases hd

theorem not_ringShort {s : State} {j : Job} {h : List Byte} {r p n : Nat} (hr : strForm h ≠ 2 ∨ ringArrived s j h r p n = true) :
    ¬ (decide (strForm h = 2) && !ringArrived s j h r p n) = true := by
  rcases hr with hform | harrived
  · simp [hform]
  · simp [harrived]

section
variable {s s1 : State} {j : Job} {h bs : List Byte} {r p : Nat} (hv : servedStream s r p 4 = some (j, h))
  (hf : failedOn s j.num r (keyStack (strScope h)) = none)
include hv hf

theorem exec_bellowsIngest_failed : exec (.bellowsIngest r p bs false) s = .next (streamError s j r p (keyStack (strScope h)) 3 0 0) := by
  change execBellowsIngest r p bs false s = _
  rw [execBellowsIngest, hv]
  dsimp only
  rw [unlessFailed_of_none hf, if_pos (by decide)]

theorem exec_bellowsIngest_short (hform : strForm h = 2) (hr : ringArrived s j h r p (((actOf j (.stream r p)).map (·.start)).getD 0 - 1) = false) :
    exec (.bellowsIngest r p bs true) s = .next (ringShort s j h r p) := by
  change execBellowsIngest r p bs true s = _
  rw [execBellowsIngest, hv]
  dsimp only
  rw [unlessFailed_of_none hf, if_neg (by decide), hr, if_pos (by rw [decide_eq_true hform]; decide)]

variable (hr : strForm h ≠ 2 ∨ ringArrived s j h r p (((actOf j (.stream r p)).map (·.start)).getD 0 - 1) = true)
include hr

theorem exec_bellowsIngest_badEntry {e : Nat × Nat} (hx : ingestXfers s j h r p = (s1, .error e)) :
    exec (.bellowsIngest r p bs true) s = .next (streamError s1 j r p (keyStack (strScope h)) e.1 e.2 0) := by
  change execBellowsIngest r p bs true s = _
  rw [execBellowsIngest, hv]
  dsimp only
  rw [unlessFailed_of_none hf, if_neg (by decide), if_neg (not_ringShort hr), hx]

variable {xs : List Xfer} (hx : ingestXfers s j h r p = (s1, .ok xs))
include hx

theorem exec_bellowsIngest_waits (hd : ingestData s1 j h r p (totalLen xs) = none) : exec (.bellowsIngest r p bs true) s = .next s := by
  change execBellowsIngest r p bs true s = _
  rw [execBellowsIngest, hv]
  dsimp only
  rw [unlessFailed_of_none hf, if_neg (by decide), if_neg (not_ringShort hr), hx]
  dsimp only
  rw [hd]

theorem exec_bellowsIngest_lands {data : List Byte} (hd : ingestData s1 j h r p (totalLen xs) = some data) :
    exec (.bellowsIngest r p bs true) s = .next (Machine.landBytes s1 j r p (keyStack (strScope h)) xs data) := by
  change execBellowsIngest r p bs true s = _
  rw [execBellowsIngest, hv]
  dsimp only
  rw [unlessFailed_of_none hf, if_neg (by decide), if_neg (not_ringShort hr), hx]
  dsimp only
  rw [hd]

end

/-! ### SEND (R258) -/

theorem flowFrom_some {j : Job} {r : Nat} {f : Flow} (h : flowFrom j r = some f) : flowAt j.plan f.index = f := by
  have hmem := List.mem_of_find?_eq_some h
  obtain ⟨i, -, rfl⟩ := List.mem_map.1 hmem
  rfl

theorem gatherXfers_seq (fill : Byte) : ∀ (xs : List Xfer) (s : State) (i : Nat), (gatherXfers s fill i xs).1.seq = s.seq
  | [], _, _ => rfl
  | x :: xs, s, i => by
    have read : (if x.inside.2.2 = 0 then { bytes := [], bad := none, st := s } else memRead s x.inside.2.1 x.inside.2.2 : ReadOut).st.seq = s.seq := by
      split
      · rfl
      · exact memRead_seq ..
    rw [gatherXfers]
    dsimp only
    split
    · exact read
    · exact (gatherXfers_seq fill xs _ _).trans read

theorem handFlow_serves {s : State} {j : Job} (h : Serves j s) (off : Nat) (x : Nat × List Byte) : Serves j (handFlow s j off x) := by
  unfold handFlow feedFlow
  dsimp only
  split
  · exact h.of_seq (foldl_seq (fun _ _ => sendTo_seq ..) _ s)
  · split
    · exact h
    · refine h.setJob fun k => ?_
      exact ⟨rfl, rfl, rfl⟩

theorem sendFlow_serves {s : State} {j : Job} (hs : Serves j s) (r p : Nat) (h bs : List Byte) : Serves j (sendFlow s j r p h bs) := by
  unfold sendFlow
  split
  · exact handFlow_serves hs ..
  · exact hs

theorem sendFlow_static {s : State} {j : Job} {r p : Nat} {h bs : List Byte} {f : Flow} (hf : flowFrom j r = some f) (hd : f.dynamic = false) :
    sendFlow s j r p h bs = feedFlow s j.num f.index (strStart h p) (bs.take f.bytes) := by
  rw [sendFlow, hf]
  dsimp only
  rw [handFlow]
  dsimp only
  rw [flowFrom_some hf, hd]
  rfl

/-- The bytes join those that wait for the flow's slots from the offset on. -/
theorem feedFlow_flowOut {s : State} {j : Job} (hj : runningJob s = some j) (f off : Nat) (bs : List Byte) :
    ∃ k, runningJob (feedFlow s j.num f off bs) = some k ∧ k.num = j.num ∧
      sparseGet [] (chunkKey f off 0) k.flowOut = sparseGet [] (chunkKey f off 0) j.flowOut ++ bs := by
  unfold feedFlow
  dsimp only
  split
  · next he =>
    obtain rfl := List.isEmpty_iff.1 he
    exact ⟨j, hj, rfl, (List.append_nil _).symm⟩
  · refine ⟨_, runningJob_setJob hj (fun k => ?_), ?_⟩
    · rfl
    · exact ⟨rfl, by rw [sparseGet_sparsePut, if_pos rfl]⟩

/-- A SEND that reads all its transfers hands their bytes to its flow and completes. -/
theorem exec_bellowsSend {s s1 : State} {j : Job} {h bs : List Byte} {r p : Nat} (hv : servedStream s r p 2 = some (j, h))
    (hf : failedOn s j.num r (keyStack (strScope h)) = none)
    (hg : gatherXfers s (BitVec.ofNat 8 (strFill h)) 0 (streamXfers j.plan j.pos r p 0) = (s1, bs, none)) :
    exec (.bellowsSend r p) s = .next (recordResult
      (sendFlow (noteMoved s1 (keyStack (strScope h)) bs.length (streamXfers j.plan j.pos r p 0)) j r p h bs) j (.stream r p)
      { ActResult.ok with elems := bs.length, words := [bs.length, 0, 0] }) := by
  change execBellowsSend r p s = _
  rw [execBellowsSend, hv]
  dsimp only
  rw [hg, unlessFailed_of_none hf]
  dsimp only
  rw [Option.getD_none, List.take_length, setResult_of_completed rfl]

/-- Recording a result changes no flow of a job. -/
theorem recordResult_flowOut {s : State} {j k : Job} (hk : runningJob s = some k) (hnum : k.num = j.num) (r : ActRef) (x : ActResult) :
    ∃ k' ∈ (recordResult s j r x).seq.jobs, k'.num = j.num ∧ k'.flowOut = k.flowOut := by
  have hmem : k ∈ s.seq.jobs := (runningJob_mem hk).1
  rw [recordResult, setJob_jobs]
  refine ⟨_, List.mem_map_of_mem hmem, ?_⟩
  rw [if_pos hnum]
  exact ⟨hnum, rfl⟩

/-- The bytes of a SEND wait for the slots of its flow from the repeat's first offset on. -/
theorem sendFlow_flowOut {s : State} {j : Job} {r p : Nat} {h bs : List Byte} {f : Flow} (hj : runningJob s = some j) (hf : flowFrom j r = some f)
    (hd : f.dynamic = false) (ref : ActRef) (x : ActResult) :
    ∃ k ∈ (recordResult (sendFlow s j r p h bs) j ref x).seq.jobs, k.num = j.num ∧ sparseGet [] (chunkKey f.index (strStart h p) 0) k.flowOut =
      sparseGet [] (chunkKey f.index (strStart h p) 0) j.flowOut ++ bs.take f.bytes := by
  obtain ⟨k, hk, hnum, hout⟩ := feedFlow_flowOut hj f.index (strStart h p) (bs.take f.bytes)
  obtain ⟨k', hmem, hnum', hout'⟩ := recordResult_flowOut hk hnum ref x
  rw [sendFlow_static hf hd]
  exact ⟨k', hmem, hnum', (congrArg _ hout').trans hout⟩

/-! ### A record that an error has stopped (R265) -/

theorem exec_streamStopped {s : State} {j : Job} {h bs : List Byte} {r p code : Nat} {ok : Bool}
    (hf : failedOn s j.num r (keyStack (strScope h)) = some code) :
    ∀ x ∈ [(Instr.bellowsSend r p, 2), (.bellowsLand r p bs, 3), (.bellowsIngest r p bs ok, 4)], servedStream s r p x.2 = some (j, h) →
    exec x.1 s = .next (recordResult s j (.stream r p) (failedRepeat code 0 0 [])) := by
  have stopped := unlessFailed_of_some (p := p) hf
  simp only [List.forall_mem_cons, List.not_mem_nil, false_implies, implies_true, and_true]
  refine ⟨fun hv => ?_, fun hv => ?_, fun hv => ?_⟩
  · change execBellowsSend r p s = _
    rw [execBellowsSend, hv]
    exact congrArg Host.Outcome.next (stopped _)
  · change execBellowsLand r p bs s = _
    rw [execBellowsLand, hv]
    exact congrArg Host.Outcome.next (stopped _)
  · change execBellowsIngest r p bs ok s = _
    rw [execBellowsIngest, hv]
    exact congrArg Host.Outcome.next (stopped _)

end Sys2Proof.Laws
end

section
/-!
PROOFS. FILL and DRAIN over clean mapped memory (R248, R249, R252, R265): what a transfer reads and a slot gives, and that the cores of a record,
served in rank order, read the same memory.
-/
namespace Sys2Proof.Laws

open Sys2Proof.Machine

/-! ### The bytes of a record's transfers -/

theorem sumNat_cons (n : Nat) (l : List Nat) : sumNat (n :: l) = n + sumNat l := by
  simp only [sumNat, ← List.sum_eq_foldl, List.sum_cons]

theorem totalLen_cons (x : Xfer) (xs : List Xfer) : totalLen (x :: xs) = x.len + totalLen xs := sumNat_cons ..

/-- Where a program starts changes the addresses that it moves and no length (R251). -/
theorem walk_lens : ∀ (n : Nat) (is : List WalkIns) (a b : Int), (walk n is a).map (·.2) = (walk n is b).map (·.2)
  | 0, _, _, _ => rfl
  | _ + 1, [], _, _ => rfl
  | n + 1, .xfer len :: rest, a, b => by
    simp only [walk, List.map_cons]
    rw [walk_lens n rest a b]
  | n + 1, .advance _ :: rest, _, _ => walk_lens n rest ..
  | n + 1, .endLoop :: rest, _, _ => walk_lens n rest ..
  | n + 1, .loop c st m :: rest, a, b => by
    simp only [walk, List.map_append, List.map_flatMap]
    rw [walk_lens n _ a b]
    congr 2
    funext i
    exact walk_lens n ..

/-- The cores of a record move the same number of bytes. -/
theorem totalLen_streamXfers (plan : List Byte) (m r p k l : Nat) : totalLen (streamXfers plan m r p k) = totalLen (streamXfers plan m r p l) := by
  unfold totalLen streamXfers
  dsimp only
  split
  · simp only [List.map_map]
    exact congrArg sumNat (walk_lens ..)
  · unfold listXfers
    simp only [List.map_map]
    rfl

/-! ### Reads of one memory -/

/-- t holds the jobs and the memory of s, without stored errors or merges, and maps it alike where n, the bytes that each core moves, is not 0. -/
structure SameMemory (n : Nat) (s t : State) : Prop where
  seq : t.seq = s.seq
  cells : t.mem.cells = s.mem.cells
  clean : t.mem.synd = []
  merged : t.mem.merge = []
  mapped : n ≠ 0 → ∀ a, isMemory t a = isMemory s a

section
variable {s t : State} {n : Nat}

theorem sameMemory_self (hs : s.mem.synd = []) (hm : s.mem.merge = []) : SameMemory 1 s s := ⟨rfl, rfl, hs, hm, fun _ _ => rfl⟩

theorem firstUnmapped_congr (h : ∀ a, isMemory t a = isMemory s a) (a n : Nat) : firstUnmapped t a n = firstUnmapped s a n := by
  unfold firstUnmapped rangeOk
  simp only [h]

theorem memRead_clean_bad_none (hs : s.mem.synd = []) {a n : Nat} (h : (memRead s a n).bad = none) : firstUnmapped s a n = none := by
  unfold memRead at h
  rw [dirtyWords_clean hs] at h
  dsimp only [List.foldl_nil] at h
  cases hu : firstUnmapped s a n with
  | none => rfl
  | some x =>
    rw [hu] at h
    cases h

theorem memRead_clean_mapped (hs : s.mem.synd = []) (hm : s.mem.merge = []) {a n : Nat} (h : firstUnmapped s a n = none) :
    memRead s a n = { bytes := cellsGet s.mem.cells a n, bad := none, st := s } := by
  simp [memRead, dirtyWords_clean hs, hm, h]

/-- A read of mapped clean memory, or of no bytes at all. -/
theorem SameMemory.read_eq (h : SameMemory n s t) {a k : Nat} (hn : k ≠ 0 → n ≠ 0) (hu : k ≠ 0 → firstUnmapped s a k = none) :
    (if k = 0 then { bytes := [], bad := none, st := t } else memRead t a k : ReadOut) =
      { bytes := cellsGet s.mem.cells a k, bad := none, st := t } := by
  split
  · next hk =>
    subst hk
    rfl
  · next hk =>
    rw [memRead_clean_mapped h.clean h.merged ((firstUnmapped_congr (h.mapped (hn hk)) a k).trans (hu hk)), h.cells]

theorem inside_le_len (x : Xfer) : x.inside.1 + x.inside.2.2 ≤ x.len := by
  unfold Xfer.inside
  split
  · exact le_refl _
  · dsimp only
    split
    · exact le_refl _
    · dsimp only
      omega

theorem unmappedXfer_eq_false {x : Xfer} : unmappedXfer s x = false ↔ (x.inside.2.2 ≠ 0 → firstUnmapped s x.inside.2.1 x.inside.2.2 = none) := by
  simp [unmappedXfer, Nat.pos_iff_ne_zero]

theorem SameMemory.unmappedXfer_eq (h : SameMemory n s t) {x : Xfer} (hn : x.len ≠ 0 → n ≠ 0) : unmappedXfer t x = unmappedXfer s x := by
  have hle := inside_le_len x
  by_cases hx : x.inside.2.2 = 0
  · simp [unmappedXfer, hx]
  · have same := firstUnmapped_congr (h.mapped (hn (by omega))) x.inside.2.1 x.inside.2.2
    simp only [unmappedXfer, same]

end

/-! ### FILL -/

/-- The sequential bytes of transfers: memory inside the bound, the fill byte outside (R252). -/
def gathered (c : List Host.Cell) (fill : Byte) (xs : List Xfer) : List Byte :=
  xs.flatMap (fun x => List.replicate x.inside.1 fill ++ cellsGet c x.inside.2.1 x.inside.2.2 ++ List.replicate (x.len - x.inside.1 - x.inside.2.2) fill)

theorem length_gathered (c : List Host.Cell) (fill : Byte) : ∀ xs : List Xfer, (gathered c fill xs).length = totalLen xs
  | [] => rfl
  | x :: xs => by
    have hle := inside_le_len x
    have htail := length_gathered c fill xs
    rw [gathered] at htail ⊢
    rw [List.flatMap_cons, List.length_append, htail, totalLen_cons]
    simp only [List.length_append, List.length_replicate, length_cellsGet]
    omega

section
variable {s t : State} {n : Nat} {fill : Byte}

/-- Where every transfer can be read, memory is mapped. -/
theorem gatherXfers_mapped (hs : s.mem.synd = []) (hm : s.mem.merge = []) : ∀ {xs : List Xfer} {i : Nat},
    (gatherXfers s fill i xs).2.2 = none → ∀ x ∈ xs, unmappedXfer s x = false
  | [], _, _ => nofun
  | x :: xs, i, h => by
    have self := sameMemory_self hs hm
    have first : x.inside.2.2 ≠ 0 → firstUnmapped s x.inside.2.1 x.inside.2.2 = none := by
      intro hx
      refine memRead_clean_bad_none hs ?_
      rw [gatherXfers] at h
      dsimp only at h
      rw [if_neg hx] at h
      cases hb : (memRead s x.inside.2.1 x.inside.2.2).bad with
      | none => rfl
      | some w =>
        rw [hb] at h
        cases h
    rw [gatherXfers] at h
    dsimp only at h
    rw [self.read_eq (fun _ => one_ne_zero) first] at h
    exact List.forall_mem_cons.2 ⟨unmappedXfer_eq_false.2 first, gatherXfers_mapped hs hm h⟩

theorem SameMemory.gatherXfers_eq (h : SameMemory n s t) : ∀ {xs : List Xfer} {i : Nat}, (totalLen xs ≠ 0 → n ≠ 0) →
    (∀ x ∈ xs, unmappedXfer s x = false) → gatherXfers t fill i xs = (t, gathered s.mem.cells fill xs, none)
  | [], _, _, _ => rfl
  | x :: xs, i, hn, hx => by
    have hle := inside_le_len x
    rw [totalLen_cons] at hn
    obtain ⟨first, rest⟩ := List.forall_mem_cons.1 hx
    rw [gatherXfers]
    dsimp only
    rw [h.read_eq (fun hk => hn (by omega)) (unmappedXfer_eq_false.1 first)]
    dsimp only
    rw [h.gatherXfers_eq (fun ht => hn (by omega)) rest]
    rfl

end

/-! ### DRAIN -/

theorem scatterXfers_cons (x : Xfer) (xs : List Xfer) {bs cs : List Byte} (hl : bs.length = x.len) : scatterXfers (x :: xs) (bs ++ cs) =
    ((scatterXfers [x] bs).1 ++ (scatterXfers xs cs).1, (scatterXfers [x] bs).2 + (scatterXfers xs cs).2) := by
  have htake : (bs ++ cs).take x.len = bs.take x.len := List.take_append_of_le_length hl.ge
  have hdrop : (bs ++ cs).drop x.len = cs := List.drop_left' hl
  simp only [scatterXfers, htake, hdrop]
  refine Prod.ext ?_ ?_
  · dsimp only
    split <;> rfl
  · dsimp only
    omega

section
variable {s t : State} {n : Nat}

/-- A DRAIN that fails nowhere stores the slot's bytes through its transfers. -/
theorem SameMemory.drainXfers_eq (hs : s.mem.synd = []) (hm : s.mem.merge = []) (h : SameMemory n s t) : ∀ {xs : List Xfer} {a i : Nat},
    (totalLen xs ≠ 0 → n ≠ 0) → (drainXfers s a i xs).bad = none →
    drainXfers t a i xs =
      { st := t, bad := none, writes := (scatterXfers xs (cellsGet s.mem.cells a (totalLen xs))).1, done := xs, moved := totalLen xs,
        dropped := (scatterXfers xs (cellsGet s.mem.cells a (totalLen xs))).2 }
  | [], _, _, _, _ => rfl
  | x :: xs, a, i, hn, hb => by
    have self := sameMemory_self hs hm
    have slot : x.len ≠ 0 → firstUnmapped s a x.len = none := by
      intro hx
      refine memRead_clean_bad_none hs ?_
      rw [drainXfers, if_neg hx] at hb
      cases hr : (memRead s a x.len).bad with
      | none => rfl
      | some w =>
        rw [hr] at hb
        cases hb
    rw [totalLen_cons] at hn ⊢
    have hx : x.len ≠ 0 → n ≠ 0 := fun hx => hn (by omega)
    rw [drainXfers, self.read_eq (fun _ => one_ne_zero) slot] at hb
    rw [drainXfers, h.read_eq hx slot]
    dsimp only [Option.isSome_none] at hb ⊢
    rw [if_neg Bool.false_ne_true] at hb ⊢
    rw [h.unmappedXfer_eq hx]
    cases hu : unmappedXfer s x with
    | true =>
      rw [hu] at hb
      cases hb
    | false =>
      rw [hu, if_neg Bool.false_ne_true] at hb
      rw [if_neg Bool.false_ne_true, h.drainXfers_eq hs hm (fun ht => hn (by omega)) hb, cellsGet_add, scatterXfers_cons x xs (length_cellsGet ..)]

end

/-! ### What an engine counts leaves memory mapped -/

/-- A unit that has counted events keeps its flags whatever one of its other counters adds. -/
theorem flags_count {s : State} {k c d : Nat} (hc : 8 ≤ c) (hd : d ≠ c) (h : counterGet s k d ≠ 0) (n a : Nat) :
    (unitGet (count s k c n) a).flags = (unitGet s a).flags := by
  rw [count, if_neg (Nat.not_lt.2 hc), counterAddOne, pageMod]
  by_cases ha : a = k
  · subst ha
    rw [unitGet_unitMod_of_ne_default]
    intro he
    have hpage := congrArg (fun u : UnitState => sparseGet 0 d u.page.counters) he
    dsimp only at hpage
    rw [sparseGet_sparseSet_ne hd, counters_pageDefault] at hpage
    exact h hpage
  · rw [unitGet_unitMod_ne ha]

theorem noteMoved_offline (s : State) (st : Nat) {n : Nat} (hn : n ≠ 0) (xs : List Xfer) (a : Nat) :
    (unitGet (noteMoved s st n xs) a).flags.offline = (unitGet s a).flags.offline := by
  have hn1 : 1 ≤ n := Nat.one_le_iff_ne_zero.2 hn
  have bytes : (unitGet (count s (columnKey st) 22 n) a).flags.offline = (unitGet s a).flags.offline :=
    (count_events s _ 22 hn1).keeps offline_blind a
  unfold noteMoved
  dsimp only
  split
  · exact bytes
  · refine (congrArg UnitFlags.offline (flags_count (d := 22) (by decide) (by decide) ?_ ..)).trans bytes
    change counterGet (count s (columnKey st) 22 n) (columnKey st) 22 ≠ 0
    rw [counterGet_count s hn1]
    simpa using satAdd_ne_zero _ hn1

/-- The engines count what a core moved, and the next core finds the same memory. -/
theorem SameMemory.counted {s t : State} {n : Nat} (h : SameMemory n s t) (st : Nat) (xs : List Xfer) (d : Nat) :
    SameMemory n s (noteDropped (noteMoved t st n xs) st d) := by
  have hmem : (noteDropped (noteMoved t st n xs) st d).mem = t.mem := (noteDropped_mem ..).trans (noteMoved_mem ..)
  have hcfg : (noteDropped (noteMoved t st n xs) st d).cfg = t.cfg := by
    unfold noteDropped noteMoved
    simp [drawFree, apply_ite State.cfg]
  have hform : (noteDropped (noteMoved t st n xs) st d).form = t.form := by
    unfold noteDropped noteMoved
    simp [drawFree, apply_ite State.form]
  refine ⟨(noteDropped_seq ..).trans ((noteMoved_seq ..).trans h.seq), hmem ▸ h.cells, hmem ▸ h.clean, hmem ▸ h.merged, fun hn a => ?_⟩
  refine (isMemory_congr hcfg hform (fun k => ?_) a).trans (h.mapped hn a)
  exact ((noteDropped_events ..).keeps offline_blind k).trans (noteMoved_offline t st hn xs k)

/-! ### The cores in rank order -/

/-- Each core's part succeeds from whatever state the cores before it left: its stores, and the n bytes that every core moves. -/
structure CoreServed (j : Job) (r n : Nat) (one : State → Nat → Nat → CorePart) (moved : Nat × Nat → Nat)
    (writes : Nat × Nat → List (Nat × List Byte)) (s : State) (x : Nat × Nat) : Prop where
  ready : failedOn s j.num r (keyStack x.2) = none
  size : moved x = n
  part : ∀ t, SameMemory n s t →
    ∃ done d, one t x.1 x.2 = { st := t, bad := none, writes := writes x, done := done, moved := moved x, dropped := d }

theorem failedOn_congr {s t : State} (h : t.seq = s.seq) (num : Word) (r st : Nat) : failedOn t num r st = failedOn s num r st := by
  unfold failedOn
  rw [h]

section
variable {s : State} {j : Job} {r p n : Nat} {one : State → Nat → Nat → CorePart} {moved : Nat × Nat → Nat}
  {writes : Nat × Nat → List (Nat × List Byte)}

theorem coreLoop_served : ∀ (cores : List (Nat × Nat)) (t : State) (ws : List (Nat × List Byte)) (m : Nat), SameMemory n s t →
    (∀ x ∈ cores, CoreServed j r n one moved writes s x) →
    ∃ u words, SameMemory n s u ∧ coreLoop j r p one t cores ws m none =
      recordResult u j (.stream r p)
        { ActResult.ok with elems := m + sumNat (cores.map moved), words := words, writes := ws ++ cores.flatMap writes }
  | [], t, ws, m, ht, _ => by
    refine ⟨t, [m, 0, 0], ht, ?_⟩
    rw [coreLoop, List.flatMap_nil, List.append_nil]
    exact setResult_of_completed rfl ..
  | (k, c) :: cores, t, ws, m, ht, hx => by
    obtain ⟨first, rest⟩ := List.forall_mem_cons.1 hx
    obtain ⟨done, d, hone⟩ := first.part t ht
    have next : SameMemory n s (noteDropped (noteMoved t (keyStack c) (moved (k, c)) done) (keyStack c) d) := first.size ▸ ht.counted ..
    obtain ⟨u, words, hu, hrest⟩ := coreLoop_served cores _ (ws ++ writes (k, c)) (m + moved (k, c)) next rest
    refine ⟨u, words, hu, ?_⟩
    rw [coreLoop, (failedOn_congr ht.seq ..).trans first.ready]
    dsimp only
    rw [hone]
    dsimp only
    rw [hrest, List.map_cons, sumNat_cons, List.flatMap_cons, List.append_assoc, Nat.add_assoc]

variable (hs : s.mem.synd = []) (hm : s.mem.merge = [])
include hs hm

theorem clearBad_sameMemory (n : Nat) : SameMemory n s (clearBad s) := by
  have events : EventsOnly s (clearBad s) := .of_units rfl
  exact ⟨rfl, rfl, hs, hm, fun _ => isMemory_of_events rfl rfl events⟩

/-- What the cores' parts leave: memory as it was, and a result that holds every core's stores. -/
theorem coreLoop_result {a : Activity} {cores : List (Nat × Nat)} (hj : runningJob s = some j) (ha : actOf j (.stream r p) = some a)
    (hc : ∀ x ∈ cores, CoreServed j r n one moved writes s x) :
    (coreLoop j r p one (clearBad s) cores [] 0 none).mem.cells = s.mem.cells ∧
    HasResult (coreLoop j r p one (clearBad s) cores [] 0 none) (.stream r p) (fun x => x.status = 0x0000 ∧
      x.elems = sumNat (cores.map moved) ∧ x.writes = cores.flatMap writes) := by
  obtain ⟨u, words, hu, hloop⟩ := coreLoop_served (p := p) cores (clearBad s) [] 0 (clearBad_sameMemory hs hm n) hc
  rw [hloop, Nat.zero_add, List.nil_append]
  exact ⟨hu.cells, ((serves_of_running hj).of_seq hu.seq).hasResult ha (fun _ => ⟨rfl, rfl, rfl⟩)⟩

end

/-! ### The commands -/

section
variable {s : State} {j : Job} {r p : Nat} {h : List Byte}

theorem exec_bellowsFill (hv : servedStream s r p 0 = some (j, h)) :
    exec (.bellowsFill r p) s = .next (coreLoop j r p (fillOne j r p h) (clearBad s) (rankedCores s h) [] 0 none) := by
  change execBellowsFill r p s = _
  rw [execBellowsFill, hv]

theorem exec_bellowsDrain (hv : servedStream s r p 1 = some (j, h)) :
    exec (.bellowsDrain r p) s = .next (coreLoop j r p (drainOne j r p h) (clearBad s) (rankedCores s h) [] 0 none) := by
  change execBellowsDrain r p s = _
  rw [execBellowsDrain, hv]

/-- The bytes that a FILL gathers for the core of rank k. -/
def fillBytes (s : State) (j : Job) (r p : Nat) (h : List Byte) (k : Nat) : List Byte :=
  (gatherXfers s (BitVec.ofNat 8 (strFill h)) 0 (streamXfers j.plan j.pos r p k)).2.1

/-- R249: the slot of the repeat's set, in the window of a core. -/
def coreSlotAddr (j : Job) (p : Nat) (h : List Byte) (c : Nat) : Nat := windowBase c + slotBase j.plan (strSlot h) (repeatSet h p)

variable {c : Nat × Nat} (hs : s.mem.synd = []) (hm : s.mem.merge = []) (hf : failedOn s j.num r (keyStack c.2) = none)
include hs hm hf

theorem coreServed_fill (hb : (gatherXfers s (BitVec.ofNat 8 (strFill h)) 0 (streamXfers j.plan j.pos r p c.1)).2.2 = none) :
    CoreServed j r (totalLen (streamXfers j.plan j.pos r p 0)) (fillOne j r p h) (fun c => (fillBytes s j r p h c.1).length)
      (fun c => if (fillBytes s j r p h c.1).isEmpty then [] else [(coreSlotAddr j p h c.2, fillBytes s j r p h c.1)]) s c := by
  have same := totalLen_streamXfers j.plan j.pos r p c.1 0
  have self := sameMemory_self hs hm
  have mapped := gatherXfers_mapped hs hm hb
  have bytes : fillBytes s j r p h c.1 = gathered s.mem.cells (BitVec.ofNat 8 (strFill h)) (streamXfers j.plan j.pos r p c.1) := by
    rw [fillBytes, self.gatherXfers_eq (fun _ => one_ne_zero) mapped]
  refine ⟨hf, ?_, fun t ht => ⟨streamXfers j.plan j.pos r p c.1, 0, ?_⟩⟩
  · rw [bytes, length_gathered, same]
  · rw [fillOne, ht.gatherXfers_eq (fun hn => same ▸ hn) mapped, bytes, coreSlotAddr]
    exact congrArg (CorePart.mk _ _ _ · _ _) (List.take_length ..)

theorem coreServed_drain (hb : (drainOne j r p h s c.1 c.2).bad = none) :
    CoreServed j r (totalLen (streamXfers j.plan j.pos r p 0)) (drainOne j r p h) (fun c => totalLen (streamXfers j.plan j.pos r p c.1))
      (fun c => (scatterXfers (streamXfers j.plan j.pos r p c.1)
        (cellsGet s.mem.cells (coreSlotAddr j p h c.2) (totalLen (streamXfers j.plan j.pos r p c.1)))).1) s c := by
  have same := totalLen_streamXfers j.plan j.pos r p c.1 0
  exact ⟨hf, same, fun t ht => ⟨_, _, ht.drainXfers_eq hs hm (fun hn => same ▸ hn) hb⟩⟩

end

end Sys2Proof.Laws

namespace Sys2Proof

open Machine Laws

/-- Settles O42. FILL and DRAIN serve the cores in rank order, each of which finds the same memory (`coreLoop_result`); the other commands have an
equation for the case of each clause, and what they count, report and hand on leaves the repeat in progress (`Serves`), so that its result is
recorded: the bytes landed (`hasResult_landBytes_fits` and its like), or the error that ends it (`hasResult_streamFault`). -/
theorem streamResults : Obligations.StreamResults := by
  unfold Obligations.StreamResults
  refine ⟨fun s r p j h hv hclean hm hf => ?fill, fun s r p j h hv hclean hm hf => ?drain, fun s s1 r p j h bs hv hf hg => ?send,
    fun s r p j h bs hv hf => ?land, fun s s1 r p j h bs xs hv hf hr hx => ?ingest, fun s s1 r p i j h bs hv hf hform => ?ring,
    fun s r p j h bs hv hf => ?mismatch, fun s r p code j h bs ok hf x hx hv => ?stopped⟩
  case fill =>
    intro fill hb
    obtain ⟨hj, a, ha⟩ := servedStream_some hv
    exact ⟨_, exec_bellowsFill hv, coreLoop_result hclean.1 hm hj ha (fun c hc => coreServed_fill hclean.1 hm (hf c hc) (hb c hc))⟩
  case drain =>
    obtain ⟨hj, a, ha⟩ := servedStream_some hv
    exact ⟨_, exec_bellowsDrain hv, coreLoop_result hclean.1 hm hj ha (fun c hc => coreServed_drain hclean.1 hm (hf c hc).1 (hf c hc).2)⟩
  case send =>
    obtain ⟨hj, a, ha⟩ := servedStream_some hv
    have read := gatherXfers_seq (BitVec.ofNat 8 (strFill h)) (streamXfers j.plan j.pos r p 0) s 0
    rw [hg] at read
    have hseq := (noteMoved_seq s1 (keyStack (strScope h)) bs.length (streamXfers j.plan j.pos r p 0)).trans read
    refine ⟨_, exec_bellowsSend hv hf hg, ?_, fun f hflow hd => sendFlow_flowOut ?_ hflow hd ..⟩
    · exact (sendFlow_serves ((serves_of_running hj).of_seq hseq) ..).hasResult ha (fun _ => ⟨rfl, rfl, rfl⟩)
    · exact (congrArg (fun q : Sequencer => q.jobs.find? _) hseq).trans hj
  case land =>
    obtain ⟨hj, a, ha⟩ := servedStream_some hv
    have hs := serves_of_running hj
    intro need data xs
    have hexec : exec (.bellowsLand r p bs) s = .next (if data.length < need then s else Machine.landBytes s j r p (keyStack (strScope h)) xs data) :=
      exec_bellowsLand hv hf
    refine ⟨fun hlt => ?_, fun hle hu hl => ?_, fun hle hu hl => ?_, fun i hle hu => ?_⟩
    · rw [hexec, if_pos hlt]
    · exact ⟨_, hexec.trans (congrArg _ (if_neg (Nat.not_lt.2 hle))), hasResult_landBytes_fits hs ha hu hl⟩
    · exact ⟨_, hexec.trans (congrArg _ (if_neg (Nat.not_lt.2 hle))), hasResult_landBytes_overflow hs ha hu hl⟩
    · exact ⟨_, hexec.trans (congrArg _ (if_neg (Nat.not_lt.2 hle))), hasResult_landBytes_unmapped hs ha hu⟩
  case ingest =>
    obtain ⟨hj, a, ha⟩ := servedStream_some hv
    refine ⟨exec_bellowsIngest_waits hv hf hr hx, fun data hd hu => ⟨_, exec_bellowsIngest_lands hv hf hr hx hd, ?_⟩⟩
    have hlen := length_ingestData hd
    exact hlen ▸ hasResult_landBytes_fits ((serves_of_running hj).of_seq (ingestXfers_seq hx)) ha hu hlen.le
  case ring =>
    obtain ⟨hj, a, ha⟩ := servedStream_some hv
    have hs := serves_of_running hj
    refine ⟨fun hr => ⟨_, exec_bellowsIngest_short hv hf hform hr, ?_⟩, fun hr hx => ⟨_, exec_bellowsIngest_badEntry hv hf (.inr hr) hx, ?_⟩⟩
    · exact hasResult_mono (hasResult_streamFault (code := 4) hs ha nofun 0 []) (fun x ⟨hstatus, _, _, hwrites⟩ => ⟨hstatus, hwrites⟩)
    · exact hasResult_mono (hasResult_streamFault (code := 2) (hs.of_seq (ingestXfers_seq hx)) ha nofun 0 [])
        (fun x ⟨hstatus, _, hblock, hwrites⟩ => ⟨hstatus, hblock, hwrites⟩)
  case mismatch =>
    obtain ⟨hj, a, ha⟩ := servedStream_some hv
    have hs := serves_of_running hj
    refine ⟨_, exec_bellowsIngest_failed hv hf, ?_, ?_⟩
    · rw [streamError, setResult_of_status_ne (show streamStatus 3 ≠ 0x0400 by decide)]
      exact (EventsOnly.of_units (recordResult_units ..)).raised streamFault_raises
    · exact hasResult_mono (hasResult_streamFault (code := 3) hs ha nofun 0 [])
        (fun x ⟨hstatus, helems, _, hwrites⟩ => ⟨hstatus, helems, hwrites⟩)
  case stopped =>
    obtain ⟨hj, a, ha⟩ := servedStream_some hv
    have hs := serves_of_running hj
    refine ⟨_, exec_streamStopped hf x hx hv, recordResult_mem .., ?_⟩
    exact hs.hasResult ha (fun _ => ⟨rfl, rfl, rfl⟩)

end Sys2Proof
end
section
/-!
SUPPORT. The code of a memory word (R295, R296). The check byte is linear in the data, so a syndrome is the sum of the columns of the bits
flipped; every column has odd weight, so two flips leave an even syndrome, which no correctable outcome has.
-/
namespace Sys2Proof.Laws

open Sys2Proof Sys2Proof.Machine

theorem bit_eq_testBit (n i : Nat) : bit n i = n.testBit i := by
  rw [bit, Nat.testBit_eq_decide_div_mod_eq]
  rfl

/-- The sum of the columns of the bits that are set in a word. -/
def columnSum (d : Nat) : List (Nat × Nat) → Nat
  | [] => 0
  | (i, h) :: cols => (if d.testBit i then h else 0) ^^^ columnSum d cols

theorem foldl_columns (d : Nat) : ∀ (cols : List (Nat × Nat)) (a : Nat),
    cols.foldl (fun acc (i, h) => if bit d i then acc ^^^ h else acc) a = a ^^^ columnSum d cols
  | [], a => (Nat.xor_zero a).symm
  | (i, h) :: cols, a => by
    rw [List.foldl_cons, foldl_columns d cols, columnSum]
    simp only [bit_eq_testBit]
    cases d.testBit i
    · simp
    · simp [Nat.xor_assoc]

theorem columnSum_xor (d e : Nat) : ∀ cols : List (Nat × Nat), columnSum (d ^^^ e) cols = columnSum d cols ^^^ columnSum e cols
  | [] => (Nat.xor_self 0).symm
  | (i, h) :: cols => by
    have hbit : (if (d ^^^ e).testBit i then h else 0) = (if d.testBit i then h else 0) ^^^ (if e.testBit i then h else 0) := by
      rw [Nat.testBit_xor]
      cases d.testBit i <;> cases e.testBit i <;> simp
    rw [columnSum, columnSum, columnSum, columnSum_xor d e cols, hbit]
    ac_rfl

theorem checkOf_xor (d e : Nat) : checkOf (d ^^^ e) = checkOf d ^^^ checkOf e := by
  simp only [checkOf, foldl_columns, columnSum_xor, Nat.zero_xor]

/-- The syndrome of a word whose data took the flips e is the check byte of e. -/
theorem checkOf_xor_flipped (d e : Nat) : checkOf d ^^^ checkOf (d ^^^ e) = checkOf e := by
  rw [checkOf_xor, Nat.xor_xor_cancel_left]

/-! ### Weights -/

theorem xor_div_two_pow_mod_two (a b i : Nat) : (a ^^^ b) / 2 ^ i % 2 = (a / 2 ^ i % 2 + b / 2 ^ i % 2) % 2 := by
  have h := Nat.testBit_xor a b i
  simp only [Nat.testBit_eq_decide_div_mod_eq] at h
  rcases Nat.mod_two_eq_zero_or_one ((a ^^^ b) / 2 ^ i) with hx | hx <;> rcases Nat.mod_two_eq_zero_or_one (a / 2 ^ i) with ha | ha <;>
    rcases Nat.mod_two_eq_zero_or_one (b / 2 ^ i) with hb | hb <;> simp_all

theorem popcount8_eq (n : Nat) : popcount8 n = n / 2 ^ 0 % 2 + n / 2 ^ 1 % 2 + n / 2 ^ 2 % 2 + n / 2 ^ 3 % 2 + n / 2 ^ 4 % 2 + n / 2 ^ 5 % 2 +
    n / 2 ^ 6 % 2 + n / 2 ^ 7 % 2 := by
  simp [popcount8, sumNat, List.range_succ]

theorem popcount8_xor_mod_two (a b : Nat) : popcount8 (a ^^^ b) % 2 = (popcount8 a + popcount8 b) % 2 := by
  simp only [popcount8_eq, xor_div_two_pow_mod_two]
  omega

theorem popcount8_column : ∀ h ∈ hsiaoColumns, popcount8 h % 2 = 1 := by decide +kernel

theorem mem_hsiaoColumns_of_syndromeBit {n i : Nat} (h : syndromeBit n = some i) : n ∈ hsiaoColumns := by
  obtain ⟨p, hp, -⟩ := Option.map_eq_some_iff.1 h
  have heq : p.2 = n := by simpa using List.find?_some hp
  exact heq ▸ (List.of_mem_zip (List.mem_of_find?_eq_some hp)).2

theorem decodeSyndrome_of_even {n : Nat} (hn : n < 256) (h0 : n ≠ 0) (he : popcount8 n % 2 = 0) :
    decodeSyndrome (BitVec.ofNat 8 n) = .ue ∨ decodeSyndrome (BitVec.ofNat 8 n) = .poison := by
  have htoNat : (BitVec.ofNat 8 n).toNat = n := by rw [BitVec.toNat_ofNat, Nat.mod_eq_of_lt hn]
  have hone : popcount8 n ≠ 1 := fun h => by simp [h] at he
  have hnone : syndromeBit n = none := by
    cases hs : syndromeBit n with
    | none => rfl
    | some i => exact absurd (popcount8_column n (mem_hsiaoColumns_of_syndromeBit hs)) (by omega)
  simp only [decodeSyndrome, htoNat, h0, hone, hnone, if_false]
  split
  · exact .inr rfl
  · exact .inl rfl

/-! ### Flips of one bit -/

/-- A flip of data bit i alone gives its column: a byte of odd weight, more than one bit, that names i. -/
theorem checkOf_two_pow : ∀ i < 64, checkOf (2 ^ i) < 256 ∧ popcount8 (checkOf (2 ^ i)) % 2 = 1 ∧
    decodeSyndrome (BitVec.ofNat 8 (checkOf (2 ^ i))) = .ceData i := by decide +kernel

theorem checkBit_two_pow : ∀ j < 8, 2 ^ j < 256 ∧ popcount8 (2 ^ j) % 2 = 1 ∧ decodeSyndrome (BitVec.ofNat 8 (2 ^ j)) = .ceCheck := by
  decide

/-- Two different flips, each of odd weight, leave a syndrome that is neither clean nor that of a CE. -/
theorem decodeSyndrome_two_flips {a b : Nat} (ha : a < 256) (hb : b < 256) (hab : a ≠ b) (oa : popcount8 a % 2 = 1) (ob : popcount8 b % 2 = 1) :
    decodeSyndrome (BitVec.ofNat 8 (a ^^^ b)) = .ue ∨ decodeSyndrome (BitVec.ofNat 8 (a ^^^ b)) = .poison :=
  decodeSyndrome_of_even (Nat.xor_lt_two_pow (n := 8) ha hb) (fun h => hab (Nat.xor_eq_zero_iff.1 h)) (by rw [popcount8_xor_mod_two]; omega)

end Sys2Proof.Laws

namespace Sys2Proof

open Machine Laws

/-- Settles O7. The syndrome is the check byte of the flips (`checkOf_xor_flipped`); two flips have an even one (`decodeSyndrome_two_flips`). -/
theorem secdedOutcomes : Obligations.SecdedOutcomes := by
  unfold Obligations.SecdedOutcomes
  refine ⟨fun d i _ hi => ?data, fun d j _ hj => ?check, fun d i k _ hi hk hik => ?dataData, fun d i j _ hi hj => ?dataCheck,
    fun i j hi hj hij => ?checkCheck⟩
  case data =>
    rw [checkOf_xor_flipped]
    exact (checkOf_two_pow i hi).2.2
  case check =>
    rw [Nat.xor_comm (checkOf d), Nat.xor_assoc, Nat.xor_self, Nat.xor_zero]
    exact (checkBit_two_pow j hj).2.2
  case dataData =>
    obtain ⟨hlt, hodd, hce⟩ := checkOf_two_pow i hi
    obtain ⟨hlt', hodd', hce'⟩ := checkOf_two_pow k hk
    have hne : checkOf (2 ^ i) ≠ checkOf (2 ^ k) := fun h => hik (by rw [h, hce'] at hce; exact (Decoded.ceData.inj hce).symm)
    rw [Nat.xor_assoc, checkOf_xor_flipped, checkOf_xor]
    exact decodeSyndrome_two_flips hlt hlt' hne hodd hodd'
  case dataCheck =>
    obtain ⟨hlt, hodd, hce⟩ := checkOf_two_pow i hi
    obtain ⟨hlt', hodd', hce'⟩ := checkBit_two_pow j hj
    have hne : 2 ^ j ≠ checkOf (2 ^ i) := fun h => by rw [h, hce] at hce'; cases hce'
    rw [Nat.xor_comm (checkOf d), Nat.xor_assoc, checkOf_xor_flipped]
    exact decodeSyndrome_two_flips hlt' hlt hne hodd' hodd
  case checkCheck =>
    obtain ⟨hlt, hodd, -⟩ := checkBit_two_pow i hi
    obtain ⟨hlt', hodd', -⟩ := checkBit_two_pow j hj
    exact decodeSyndrome_two_flips hlt hlt' (fun h => hij (Nat.pow_right_injective (le_refl 2) h)) hodd hodd'

end Sys2Proof
end
section
/-!
SUPPORT. An error event leaves the bytes and the codes of memory, and arms no checker: a checker that has logged an event is not the checker
of reset, so its entry stays listed.
-/
namespace Sys2Proof.Laws

open Sys2Proof Sys2Proof.Machine

/-! ### What an event leaves of memory -/

theorem repairEvent_mem (s : State) (c i a : Nat) (ue : Bool) :
    (repairEvent s c i a ue).mem = { s.mem with checkers := (repairEvent s c i a ue).mem.checkers } := by
  unfold repairEvent
  extract_lets ck w row near hit s1
  split
  · split
    · rfl
    · split <;> rfl
  · split <;> rfl

theorem eccLog_mem (s : State) (a : Nat) (sy : BitVec 8) (kind : BitVec 2) :
    (eccLog s a sy kind).mem = { s.mem with checkers := (eccLog s a sy kind).mem.checkers } := by
  unfold eccLog
  dsimp only
  rw [stickySet_mem, count_mem]
  split <;> rfl

theorem eccEvent_mem (s : State) (a : Nat) (sy : BitVec 8) (kind : BitVec 2) :
    (eccEvent s a sy kind).mem = { s.mem with checkers := (eccEvent s a sy kind).mem.checkers } := by
  unfold eccEvent
  dsimp only
  split
  · exact eccLog_mem ..
  · rw [repairEvent_mem, eccLog_mem]

/-! ### Checkers that are not armed -/

/-- No checker is armed. -/
def Unarmed (s : State) : Prop := ∀ c, (checkerGet s c).flipArm = false

/-- The checker has logged an event, or counted one that found no place. -/
def HasLogged (k : Checker) : Prop := k.log ≠ Checker.reset.log ∨ k.overflow ≠ 0

theorem Unarmed.of_checkers {s t : State} (h : Unarmed s) (e : t.mem.checkers = s.mem.checkers) : Unarmed t := fun c => by
  rw [checkerGet, e]
  exact h c

/-- With no checker armed a word's new bytes and code stand as they were written. -/
theorem flipApply_stored {s : State} (h : Unarmed s) (cells : List Host.Cell) (synd : Sparse (BitVec 8)) (inj : List Nat) (a : Nat) :
    flipApply { s with mem := { s.mem with cells := cells, synd := synd, injected := inj } } a =
      { s with mem := { s.mem with cells := cells, synd := synd, injected := inj } } :=
  flipApply_unarmed (fun c => by exact h c) a

theorem Unarmed.logPersistent {s : State} (h : Unarmed s) (r : LogRecord) : Unarmed (logPersistent s r) := h

theorem HasLogged.ne_checkerDefault {k : Checker} (h : HasLogged k) (c : Nat) : k ≠ checkerDefault c := by
  rintro rfl
  have hd : (checkerDefault c).log = Checker.reset.log ∧ (checkerDefault c).overflow = 0 := by
    unfold checkerDefault
    split <;> exact ⟨rfl, rfl⟩
  exact h.elim (· hd.1) (· hd.2)

/-- The checkers after a write of one that has logged, whatever the order of their list. -/
theorem checkerGet_checkerMod {s : State} {c : Nat} {f : Checker → Checker} (h : HasLogged (f (checkerGet s c))) (j : Nat) :
    checkerGet (checkerMod s c f) j = if j = c then f (checkerGet s c) else checkerGet s j := by
  by_cases hj : j = c
  · subst hj
    rw [if_pos rfl]
    exact (sparseGet_sparseSet_of_ne (h.ne_checkerDefault j)).trans (if_pos rfl)
  · rw [if_neg hj]
    exact sparseGet_sparseSet_ne hj

theorem Unarmed.checkerMod {s : State} (h : Unarmed s) {c : Nat} {f : Checker → Checker} (hl : HasLogged (f (checkerGet s c)))
    (hf : (f (checkerGet s c)).flipArm = false) : Unarmed (checkerMod s c f) := fun j => by
  rw [checkerGet_checkerMod hl]
  split
  · exact hf
  · exact h j

/-- No checker is armed, and checker c has logged. -/
def UnarmedLogged (s : State) (c : Nat) : Prop := Unarmed s ∧ HasLogged (checkerGet s c)

/-- A change that leaves a checker's log, its count of lost events and its arming. -/
def LeavesLog (f : Checker → Checker) : Prop := ∀ k, (f k).log = k.log ∧ (f k).overflow = k.overflow ∧ (f k).flipArm = k.flipArm

theorem UnarmedLogged.checkerMod {s : State} {c : Nat} (h : UnarmedLogged s c) {f : Checker → Checker} (hf : LeavesLog f) :
    UnarmedLogged (checkerMod s c f) c := by
  obtain ⟨hlog, hover, harm⟩ := hf (checkerGet s c)
  have hl : HasLogged (f (checkerGet s c)) := by
    unfold HasLogged
    rw [hlog, hover]
    exact h.2
  refine ⟨h.1.checkerMod hl (harm.trans (h.1 c)), ?_⟩
  rw [checkerGet_checkerMod hl, if_pos rfl]
  exact hl

theorem satInc16_ne_zero (n : BitVec 16) : satInc16 n ≠ 0 := by
  unfold satInc16
  split
  · next h => rw [h]; decide
  · next h => intro h0; exact h (by bv_omega)

/-- The places of a log that an event takes lie in it. -/
theorem logSlot_lt {log : List LogEntry} {addr : Word} {inst : BitVec 16} {kind : BitVec 2} {i : Nat} {b : Bool}
    (h : logSlot log addr inst kind = some (i, b)) : i < log.length := by
  unfold logSlot at h
  extract_lets idx ces at h
  split at h
  · next j hj =>
    obtain ⟨rfl, -⟩ := Prod.mk.inj (Option.some.inj h)
    exact List.mem_range.1 (List.mem_of_find?_eq_some hj)
  · split at h
    · next j hj =>
      obtain ⟨rfl, -⟩ := Prod.mk.inj (Option.some.inj h)
      exact List.mem_range.1 (List.mem_of_find?_eq_some hj)
    · split at h
      · cases h
      · obtain ⟨j, hj, he⟩ := Option.map_eq_some_iff.1 h
        obtain ⟨rfl, -⟩ := Prod.mk.inj he
        exact List.mem_range.1 (List.mem_filter.1 (List.mem_of_find?_eq_some hj)).1

theorem logSlot_same {log : List LogEntry} {addr : Word} {inst : BitVec 16} {kind : BitVec 2} {i : Nat}
    (h : logSlot log addr inst kind = some (i, true)) :
    (log.getD i LogEntry.empty).valid = true ∧ (log.getD i LogEntry.empty).addr = addr ∧ (log.getD i LogEntry.empty).inst = inst ∧
      (log.getD i LogEntry.empty).kind = kind := by
  unfold logSlot at h
  extract_lets idx ces at h
  split at h
  · next j hj =>
    obtain ⟨rfl, -⟩ := Prod.mk.inj (Option.some.inj h)
    simpa [and_assoc] using List.find?_some hj
  · split at h
    · simp at h
    · split at h
      · cases h
      · simp at h

theorem reset_log_invalid {e : LogEntry} (h : e ∈ Checker.reset.log) : e.valid = false := by
  rw [List.eq_of_mem_replicate h]
  rfl

theorem HasLogged.of_valid {k : Checker} {e : LogEntry} (h : e ∈ k.log) (hv : e.valid = true) : HasLogged k := by
  refine .inl fun heq => ?_
  rw [heq] at h
  simp [reset_log_invalid h] at hv

theorem logEvent_hasLogged (k : Checker) (addr : Word) (inst : BitVec 16) (sy : BitVec 8) (kind : BitVec 2) (inj : Bool) (n : Word) :
    HasLogged (logEvent k addr inst sy kind inj n) := by
  unfold logEvent
  split
  · exact .inr (satInc16_ne_zero _)
  · next i h =>
    have hi := logSlot_lt h
    have hv := (logSlot_same h).1
    rw [List.getD_eq_getElem _ _ hi] at hv
    refine .of_valid (e := { k.log[i] with count := satInc16 k.log[i].count, syndrome := sy, last := n }) ?_ hv
    simp only [listModify, List.getElem?_eq_getElem hi]
    exact List.mem_set hi _
  · next i h => exact .of_valid (List.mem_set (logSlot_lt h) _) rfl

theorem logEvent_flipArm (k : Checker) (addr : Word) (inst : BitVec 16) (sy : BitVec 8) (kind : BitVec 2) (inj : Bool) (n : Word) :
    (logEvent k addr inst sy kind inj n).flipArm = k.flipArm := by
  unfold logEvent
  split <;> rfl

theorem eccLog_unarmed {s : State} (h : Unarmed s) (a : Nat) (sy : BitVec 8) (kind : BitVec 2) :
    UnarmedLogged (eccLog s a sy kind) (wordChecker s a).1 := by
  unfold eccLog
  extract_lets inj addr
  generalize hw : wordChecker s a = w
  obtain ⟨c, inst, owner⟩ := w
  dsimp only
  have logged : UnarmedLogged (checkerMod s c (fun k => logEvent k addr (BitVec.ofNat 16 inst) sy kind inj s.seq.strike)) c := by
    have hl := logEvent_hasLogged (checkerGet s c) addr (BitVec.ofNat 16 inst) sy kind inj s.seq.strike
    refine ⟨h.checkerMod hl ((logEvent_flipArm ..).trans (h c)), ?_⟩
    rw [checkerGet_checkerMod hl, if_pos rfl]
    exact hl
  have of_units : ∀ {t u : State} {c : Nat}, u.mem = t.mem → UnarmedLogged t c → UnarmedLogged u c := fun hm ht =>
    ⟨ht.1.of_checkers (by rw [hm]), by rw [checkerGet, hm]; exact ht.2⟩
  refine of_units ((stickySet_mem ..).trans (count_mem ..)) ?_
  split
  · exact logged.checkerMod (fun k => by split <;> exact ⟨rfl, rfl, rfl⟩)
  · exact logged

theorem repairEvent_unarmed {s : State} {c : Nat} (h : UnarmedLogged s c) (inst a : Nat) (ue : Bool) : Unarmed (repairEvent s c inst a ue) := by
  have leaves : ∀ {f : Checker → Checker}, LeavesLog f → Unarmed (checkerMod s c f) := fun hf => (h.checkerMod hf).1
  unfold repairEvent
  extract_lets ck idx w others ue row near hit s1
  split
  · split
    · exact h.1
    · split
      · exact leaves (fun _ => ⟨rfl, rfl, rfl⟩)
      · exact leaves (fun _ => ⟨rfl, rfl, rfl⟩)
  · have h1 : UnarmedLogged s1 c := h.checkerMod (fun _ => ⟨rfl, rfl, rfl⟩)
    split
    · refine Unarmed.logPersistent (h1.checkerMod ?_).1 _
      exact fun _ => ⟨rfl, rfl, rfl⟩
    · exact h1.1

theorem eccEvent_unarmed {s : State} (h : Unarmed s) (a : Nat) (sy : BitVec 8) (kind : BitVec 2) : Unarmed (eccEvent s a sy kind) := by
  have logged := eccLog_unarmed h a sy kind
  unfold eccEvent
  dsimp only
  split
  · exact logged.1
  · exact repairEvent_unarmed logged _ _ _

/-! ### Words that do not decode -/

theorem readWord_uncorrectable {s : State} {a : Nat} {sy : BitVec 8} {kind : BitVec 2} (h : sparseGet 0 (a / 8) s.mem.synd = sy) (h0 : sy ≠ 0)
    (hk : decodeSyndrome sy = .ue ∧ kind = 1 ∨ decodeSyndrome sy = .poison ∧ kind = 2) : readWord s a = (eccEvent s a sy kind, false) := by
  unfold readWord
  split
  · next hz => exact absurd (h ▸ hz) h0
  · rw [h]
    rcases hk with ⟨hd, rfl⟩ | ⟨hd, rfl⟩ <;> rw [hd]

end Sys2Proof.Laws

namespace Sys2Proof

open Machine Laws

/-- Settles O8. A word that does not decode gives its event and fails (`readWord_uncorrectable`), and the event arms no checker
(`eccEvent_unarmed`), so the write that follows flips nothing. -/
theorem poisonedWord : Obligations.PoisonedWord := by
  unfold Obligations.PoisonedWord
  refine ⟨fun s a bs sy kind hs h0 harm hk => ?modify, fun s w hs => ?read, fun s w bs hw hl hr harm => ?write⟩
  case modify =>
    have hdiv : a / 8 * 8 / 8 = a / 8 := Nat.mul_div_cancel _ (by decide)
    have hread := readWord_uncorrectable (a := a / 8 * 8) (by rw [hdiv]; exact hs) h0 hk
    have hmem := eccEvent_mem s (a / 8 * 8) sy kind
    unfold rmwWord
    simp only [hread, Bool.false_eq_true, if_false, hdiv]
    rw [flipApply_stored (eccEvent_unarmed harm _ _ _)]
    rw [congrArg Mem.cells hmem, congrArg Mem.injected hmem]
  case read =>
    have hread := readWord_uncorrectable (s := s) (kind := 2) hs (by decide) (.inr ⟨by decide +kernel, rfl⟩)
    exact ⟨hread, by rw [hread, eccEvent_mem]; exact hs⟩
  case write =>
    unfold storeWord
    extract_lets m s1 s2
    have hs1 : sparseGet 0 (w / 8) s1.mem.synd = 0 := (sparseGet_sparseErase hr).trans (if_pos rfl)
    have hs2 : s2.mem.synd = s1.mem.synd ∧ s2.mem.checkers = s.mem.checkers := by
      unfold s2
      split <;> exact ⟨rfl, rfl⟩
    rw [flipApply_unarmed (Unarmed.of_checkers harm hs2.2), hs2.1, hs1]

end Sys2Proof
end
section
/-!
SUPPORT. The place that an event takes in a checker log (R302): the entry it matches, else the lowest free one, else the CE entry with the
oldest LAST.
-/
namespace Sys2Proof.Laws

open Sys2Proof Sys2Proof.Machine

/-- The event's word, instance and kind are those of entry i. -/
def Matches (log : List LogEntry) (addr : Word) (inst : BitVec 16) (kind : BitVec 2) (i : Nat) : Prop :=
  (log.getD i LogEntry.empty).valid = true ∧ (log.getD i LogEntry.empty).addr = addr ∧ (log.getD i LogEntry.empty).inst = inst ∧
    (log.getD i LogEntry.empty).kind = kind

theorem minNat?_eq_min? (l : List Nat) : minNat? l = l.min? := by
  cases l <;> rfl

section
variable {log : List LogEntry} {addr : Word} {inst : BitVec 16} {kind : BitVec 2} {i : Nat}

theorem logSlot_of_matches (hi : i < log.length) (h : Matches log addr inst kind i) (hlow : ∀ j, j < i → ¬ Matches log addr inst kind j) :
    logSlot log addr inst kind = some (i, true) := by
  have hfind : (List.range log.length).find? (fun i => (log.getD i LogEntry.empty).valid && (log.getD i LogEntry.empty).addr == addr &&
      (log.getD i LogEntry.empty).inst == inst && (log.getD i LogEntry.empty).kind == kind) = some i := by
    refine List.find?_range_eq_some.2 ⟨?_, List.mem_range.2 hi, fun j hj => ?_⟩
    · simpa [Matches, and_assoc] using h
    · rw [Bool.not_eq_true', Bool.eq_false_iff]
      simpa [Matches, and_assoc] using hlow j hj
  unfold logSlot
  simp only [hfind]

/-- The CE entry that a full log gives up: the one with the earliest LAST, of equals the lowest. -/
def oldestCe (log : List LogEntry) : Option (Nat × Bool) :=
  let ces := (List.range log.length).filter (fun i => (log.getD i LogEntry.empty).kind == 0)
  match minNat? (ces.map (fun i => (log.getD i LogEntry.empty).last.toNat)) with
  | none => none
  | some m => (ces.find? (fun i => (log.getD i LogEntry.empty).last.toNat == m)).map (fun i => (i, false))

/-- The entry that an event takes when none matches it: a free one, else the oldest CE. -/
def freeOrOldest (log : List LogEntry) : Option (Nat × Bool) :=
  match (List.range log.length).find? (fun i => !(log.getD i LogEntry.empty).valid) with
  | some i => some (i, false)
  | none => oldestCe log

theorem logSlot_of_no_match (h : ∀ j, j < log.length → ¬ Matches log addr inst kind j) :
    logSlot log addr inst kind = freeOrOldest log := by
  have hfind : (List.range log.length).find? (fun i => (log.getD i LogEntry.empty).valid && (log.getD i LogEntry.empty).addr == addr &&
      (log.getD i LogEntry.empty).inst == inst && (log.getD i LogEntry.empty).kind == kind) = none := by
    refine List.find?_eq_none.2 fun j hj => ?_
    simpa [Matches, and_assoc] using h j (List.mem_range.1 hj)
  unfold logSlot
  dsimp only
  rw [hfind]
  rfl

theorem logSlot_of_free (h : ∀ j, j < log.length → ¬ Matches log addr inst kind j) (hi : i < log.length)
    (hv : (log.getD i LogEntry.empty).valid = false) (hlow : ∀ j, j < i → (log.getD j LogEntry.empty).valid = true) :
    logSlot log addr inst kind = some (i, false) := by
  have hfind : (List.range log.length).find? (fun i => !(log.getD i LogEntry.empty).valid) = some i :=
    List.find?_range_eq_some.2 ⟨by rw [hv]; rfl, List.mem_range.2 hi, fun j hj => by rw [hlow j hj]; rfl⟩
  rw [logSlot_of_no_match h, freeOrOldest, hfind]

/-- In a full log the choice falls among the CE entries. -/
theorem logSlot_of_full (h : ∀ j, j < log.length → ¬ Matches log addr inst kind j)
    (hv : ∀ j, j < log.length → (log.getD j LogEntry.empty).valid = true) :
    logSlot log addr inst kind = oldestCe log := by
  have hfind : (List.range log.length).find? (fun i => !(log.getD i LogEntry.empty).valid) = none :=
    List.find?_eq_none.2 fun j hj => by rw [hv j (List.mem_range.1 hj)]; simp
  rw [logSlot_of_no_match h, freeOrOldest, hfind]

theorem logSlot_of_oldest (h : ∀ j, j < log.length → ¬ Matches log addr inst kind j)
    (hv : ∀ j, j < log.length → (log.getD j LogEntry.empty).valid = true) (hi : i < log.length) (hk : (log.getD i LogEntry.empty).kind = 0)
    (hold : ∀ j, j < log.length → (log.getD j LogEntry.empty).kind = 0 →
      (log.getD i LogEntry.empty).last.toNat ≤ (log.getD j LogEntry.empty).last.toNat ∧
      (j < i → (log.getD i LogEntry.empty).last.toNat < (log.getD j LogEntry.empty).last.toNat)) :
    logSlot log addr inst kind = some (i, false) := by
  have hmin : minNat? (((List.range log.length).filter (fun i => (log.getD i LogEntry.empty).kind == 0)).map
      (fun i => (log.getD i LogEntry.empty).last.toNat)) = some (log.getD i LogEntry.empty).last.toNat := by
    rw [minNat?_eq_min?, List.min?_eq_some_iff]
    refine ⟨List.mem_map.2 ⟨i, List.mem_filter.2 ⟨List.mem_range.2 hi, by rw [hk]; rfl⟩, rfl⟩, fun b hb => ?_⟩
    obtain ⟨j, hj, rfl⟩ := List.mem_map.1 hb
    obtain ⟨hjl, hjk⟩ := List.mem_filter.1 hj
    exact (hold j (List.mem_range.1 hjl) (by simpa using hjk)).1
  have hfind : ((List.range log.length).filter (fun i => (log.getD i LogEntry.empty).kind == 0)).find?
      (fun j => (log.getD j LogEntry.empty).last.toNat == (log.getD i LogEntry.empty).last.toNat) = some i := by
    rw [List.find?_filter, List.find?_range_eq_some]
    refine ⟨by simp only [hk, beq_self_eq_true, and_self, decide_true], List.mem_range.2 hi, fun j hj => ?_⟩
    have hlt := fun hkj => (hold j (Nat.lt_trans hj hi) hkj).2 hj
    rw [Bool.not_eq_true', Bool.eq_false_iff]
    intro hboth
    obtain ⟨hkj, heq⟩ : (log.getD j LogEntry.empty).kind = 0 ∧ (log.getD j LogEntry.empty).last.toNat = (log.getD i LogEntry.empty).last.toNat := by
      simpa using hboth
    exact absurd (hlt hkj) (by omega)
  rw [logSlot_of_full h hv, oldestCe]
  simp only [hmin, hfind, Option.map_some]

theorem logSlot_of_no_ce (h : ∀ j, j < log.length → ¬ Matches log addr inst kind j)
    (hv : ∀ j, j < log.length → (log.getD j LogEntry.empty).valid = true) (hk : ∀ j, j < log.length → (log.getD j LogEntry.empty).kind ≠ 0) :
    logSlot log addr inst kind = none := by
  have hces : (List.range log.length).filter (fun i => (log.getD i LogEntry.empty).kind == 0) = [] :=
    List.filter_eq_nil_iff.2 fun j hj => by simpa using hk j (List.mem_range.1 hj)
  rw [logSlot_of_full h hv, oldestCe]
  simp only [hces]
  rfl

/-- An entry that an event displaces was free or that of a CE. -/
theorem logSlot_displaced (h : logSlot log addr inst kind = some (i, false)) :
    (log.getD i LogEntry.empty).valid = false ∨ (log.getD i LogEntry.empty).kind = 0 := by
  unfold logSlot at h
  extract_lets idx ces at h
  split at h
  · simp at h
  · split at h
    · next j hj =>
      obtain ⟨rfl, -⟩ := Prod.mk.inj (Option.some.inj h)
      exact .inl (by simpa using List.find?_some hj)
    · split at h
      · cases h
      · obtain ⟨j, hj, he⟩ := Option.map_eq_some_iff.1 h
        obtain ⟨rfl, -⟩ := Prod.mk.inj he
        exact .inr (by simpa using (List.mem_filter.1 (List.mem_of_find?_eq_some hj)).2)

end

/-! ### The log after the event -/

section
variable {c : Checker} {addr : Word} {inst : BitVec 16} {kind : BitVec 2} {i : Nat}

theorem logEvent_of_slot_same (h : logSlot c.log addr inst kind = some (i, true)) (sy : BitVec 8) (inj : Bool) (n : Word) :
    logEvent c addr inst sy kind inj n = 
      let e := c.log.getD i LogEntry.empty
      { c with log := c.log.set i { e with count := satInc16 e.count, syndrome := sy, last := n } } := by
  have hi := logSlot_lt h
  unfold logEvent
  simp only [h, listModify, List.getElem?_eq_getElem hi, List.getD_eq_getElem _ _ hi]

theorem logEvent_of_slot_new (h : logSlot c.log addr inst kind = some (i, false)) (sy : BitVec 8) (inj : Bool) (n : Word) :
    logEvent c addr inst sy kind inj n =
      let e : LogEntry := { valid := true, addr := addr, inst := inst, syndrome := sy, count := 1, injected := inj, kind := kind, first := n, last := n }
      { c with log := c.log.set i e } := by
  unfold logEvent
  simp only [h]

theorem logEvent_of_slot_none (h : logSlot c.log addr inst kind = none) (sy : BitVec 8) (inj : Bool) (n : Word) :
    logEvent c addr inst sy kind inj n = { c with overflow := satInc16 c.overflow } := by
  unfold logEvent
  simp only [h]

/-- An event of another kind than a valid entry's leaves it, unless the entry is that of a CE. -/
theorem logEvent_keeps_entry (hv : (c.log.getD i LogEntry.empty).valid = true) (hk : (c.log.getD i LogEntry.empty).kind ≠ 0)
    (hkind : kind ≠ (c.log.getD i LogEntry.empty).kind) (sy : BitVec 8) (inj : Bool) (n : Word) :
    (logEvent c addr inst sy kind inj n).log.getD i LogEntry.empty = c.log.getD i LogEntry.empty := by
  have other : ∀ {j : Nat} (e : LogEntry), j ≠ i → (c.log.set j e).getD i LogEntry.empty = c.log.getD i LogEntry.empty := fun e hj => by
    rw [List.getD_eq_getElem?_getD, List.getD_eq_getElem?_getD, List.getElem?_set_ne hj]
  rcases h : logSlot c.log addr inst kind with _ | ⟨j, _ | _⟩
  · rw [logEvent_of_slot_none h]
  · rw [logEvent_of_slot_new h]
    refine other _ fun hj => ?_
    rcases logSlot_displaced (hj ▸ h) with hd | hd
    · rw [hd] at hv; cases hv
    · exact hk hd
  · rw [logEvent_of_slot_same h]
    exact other _ fun hj => hkind (logSlot_same (hj ▸ h)).2.2.2.symm

end

end Sys2Proof.Laws

namespace Sys2Proof

open Machine Laws

/-- Settles O9. Each clause is a case of the place that the event takes (`logSlot_of_matches` to `logSlot_of_no_ce`); an entry displaced was
free or a CE's (`logSlot_displaced`). -/
theorem checkerLogRule : Obligations.CheckerLogRule := by
  unfold Obligations.CheckerLogRule
  refine ⟨fun c i addr inst sy kind inj n hi hm hlow => ?same, fun c i addr inst sy kind inj n hi hm hv hlow => ?free,
    fun c i addr inst sy kind inj n hi hm hk hold => ?oldest, fun c addr inst sy kind inj n h => ?full, fun c i addr inst sy inj n hv hk => ?kept⟩
  case same => exact logEvent_of_slot_same (logSlot_of_matches hi hm hlow) ..
  case free => exact logEvent_of_slot_new (logSlot_of_free hm hi hv hlow) ..
  case oldest => exact logEvent_of_slot_new (logSlot_of_oldest (fun j hj hmatch => (hm j hj).2 hmatch.2) (fun j hj => (hm j hj).1) hi hk hold) ..
  case full =>
    exact logEvent_of_slot_none (logSlot_of_no_ce (fun j hj hmatch => (h j hj).2.2 hmatch.2) (fun j hj => (h j hj).1) (fun j hj => (h j hj).2.1)) ..
  case kept => exact logEvent_keeps_entry hv hk (Ne.symm hk) ..

end Sys2Proof
end
section
/-!
SUPPORT. The flush of a merge buffer entry (R299): the bytes that it puts into memory, and the bank it leaves.
-/
namespace Sys2Proof.Laws

open Sys2Proof Sys2Proof.Machine

/-! ### The bytes of an entry -/

/-- Byte i of an entry, where its mask holds it. -/
def entryByte (e : MergeEntry) (i : Nat) : Option (Nat × Byte) :=
  if e.mask.getLsbD i then some (e.addr + i, BitVec.ofNat 8 (e.bytes.toNat / 2 ^ (8 * i))) else none

/-- Memory after the bytes of an entry below n are put into it. -/
def entryCells (e : MergeEntry) (n : Nat) (m : List Host.Cell) : List Host.Cell :=
  ((List.range n).filterMap (entryByte e)).foldl (fun m x => cellSet x.1 x.2 m) m

theorem entryCells_succ (e : MergeEntry) (n : Nat) (m : List Host.Cell) : entryCells e (n + 1) m =
    if e.mask.getLsbD n then cellSet (e.addr + n) (BitVec.ofNat 8 (e.bytes.toNat / 2 ^ (8 * n))) (entryCells e n m) else entryCells e n m := by
  rw [entryCells, List.range_succ, List.filterMap_append, List.foldl_append, ← entryCells]
  unfold entryByte
  split
  · next h => simp [h]
  · next h => simp [h]

theorem entryCells_wf {e : MergeEntry} {m : List Host.Cell} (h : sparseWf 0 m = true) (n : Nat) : sparseWf 0 (entryCells e n m) = true :=
  foldl_cells_wf (fun _ _ hm => cellSet_wf hm) h

theorem cellGet_entryCells {e : MergeEntry} {m : List Host.Cell} (h : sparseWf 0 m = true) (a : Nat) : ∀ n, cellGet a (entryCells e n m) =
    if e.addr ≤ a ∧ a < e.addr + n ∧ e.mask.getLsbD (a - e.addr) = true then BitVec.ofNat 8 (e.bytes.toNat / 2 ^ (8 * (a - e.addr)))
    else cellGet a m
  | 0 => by
    rw [if_neg (by omega)]
    rfl
  | n + 1 => by
    rw [entryCells_succ]
    by_cases ha : a = e.addr + n
    · have hn : a - e.addr = n := by omega
      rw [hn]
      by_cases hb : e.mask.getLsbD n = true
      · rw [if_pos hb, cellGet_cellSet (entryCells_wf h n), if_pos ha, if_pos ⟨by omega, by omega, hb⟩]
      · rw [if_neg hb, cellGet_entryCells h a n, if_neg (fun hc => absurd hc.2.1 (by omega)), if_neg (fun hc => hb hc.2.2)]
    · have hrest : cellGet a (if e.mask.getLsbD n = true then cellSet (e.addr + n) (BitVec.ofNat 8 (e.bytes.toNat / 2 ^ (8 * n))) (entryCells e n m)
          else entryCells e n m) = cellGet a (entryCells e n m) := by
        split
        · exact cellGet_cellSet_ne ha
        · rfl
      have hrange : a < e.addr + (n + 1) ↔ a < e.addr + n := by omega
      rw [hrest, cellGet_entryCells h a n]
      simp only [hrange]

/-! ### The flush -/

theorem execMergeBufferFlush_some {s : State} {bank addr : Nat} {e : MergeEntry}
    (h : (mergeGet s.mem bank).find? (fun x => x.addr == addr) = some e) : exec (.mergeBufferFlush bank addr) s = .next (mergeFlushEntry s bank e) := by
  have hexec : exec (.mergeBufferFlush bank addr) s = execMergeBufferFlush bank addr s := rfl
  rw [hexec, execMergeBufferFlush, h]

theorem execMergeBufferFlush_none {s : State} {bank addr : Nat} (h : (mergeGet s.mem bank).find? (fun x => x.addr == addr) = none) :
    exec (.mergeBufferFlush bank addr) s = .next s := by
  have hexec : exec (.mergeBufferFlush bank addr) s = execMergeBufferFlush bank addr s := rfl
  rw [hexec, execMergeBufferFlush, h]

/-- A dropped word has no entry left in its bank. -/
theorem find?_mergeDrop {m : Mem} (h : sparseWf [] m.merge = true) (bank addr : Nat) :
    (mergeGet (mergeDrop m bank addr) bank).find? (fun x => x.addr == addr) = none := by
  have hget : mergeGet (mergeDrop m bank addr) bank = (mergeGet m bank).filter (fun e => e.addr != addr) :=
    (sparseGet_sparseSet (sparseWf_iff.1 h).1).trans (if_pos rfl)
  rw [hget, List.find?_eq_none]
  intro e he
  simpa using (List.mem_filter.1 he).2

/-- In clean memory a partial entry puts its bytes into the cells and leaves its bank. -/
theorem mergeFlushEntry_partial {s : State} (h : CleanMemory s) (bank : Nat) {e : MergeEntry} (hm : e.mask ≠ 0xFF) :
    (mergeFlushEntry s bank e).mem.cells = entryCells e 8 s.mem.cells ∧ (mergeFlushEntry s bank e).mem.merge = (mergeDrop s.mem bank e.addr).merge := by
  have hclean : CleanMemory { s with mem := mergeDrop s.mem bank e.addr } := cleanMemory_of_eq h rfl rfl
  have hread := readWord_clean hclean.1 e.addr
  rw [mergeFlushEntry, if_neg hm]
  simp only [hread, if_true]
  rw [flipApply_stored hclean.2]
  exact ⟨rfl, rfl⟩

end Sys2Proof.Laws

namespace Sys2Proof

open Machine Laws

/-- Settles O10. A full entry is stored as a word; the bytes of a partial one are put into the cells one by one (`cellGet_entryCells`). -/
theorem mergeBufferFlushes : Obligations.MergeBufferFlushes := by
  unfold Obligations.MergeBufferFlushes
  refine ⟨fun s bank addr e he hm => ?full, fun s bank addr e hk hc ha he hm => ?part, fun s bank addr he => execMergeBufferFlush_none he⟩
  case full =>
    obtain rfl : e.addr = addr := by simpa using List.find?_some he
    rw [execMergeBufferFlush_some he, mergeFlushEntry, if_pos hm]
  case part =>
    obtain rfl : e.addr = addr := by simpa using List.find?_some he
    obtain ⟨hcells, -, hmerge, -⟩ := memWf_iff.1 hk.1
    obtain ⟨hbytes, hbank⟩ := mergeFlushEntry_partial hc bank hm
    refine ⟨_, execMergeBufferFlush_some he, ?_, fun i hi => ?_, fun a hout => ?_⟩
    · rw [mergeGet, hbank]
      exact find?_mergeDrop hmerge bank e.addr
    · rw [hbytes, cellGet_entryCells hcells, Nat.add_sub_cancel_left]
      simp only [Nat.le_add_right, Nat.add_lt_add_iff_left, hi, true_and]
    · rw [hbytes, cellGet_entryCells hcells, if_neg (by omega)]

end Sys2Proof
end
section
/-!
SUPPORT. Fields of byte strings (R4): where a field of a string put together from parts is found, and that a little-endian number reads back.
-/
namespace Sys2Proof.Laws

open Sys2Proof Sys2Proof.Machine

theorem leNat_leBytes : ∀ n v : Nat, leNat (leBytes n v) = v % 256 ^ n
  | 0, v => by rw [leBytes, leNat, Nat.pow_zero, Nat.mod_one]
  | n + 1, v => by
    rw [leBytes, leNat, leNat_leBytes n, BitVec.toNat_ofNat, show 256 ^ (n + 1) = 256 * 256 ^ n from Nat.pow_succ', Nat.mod_mul]

theorem length_slice (bs : List Byte) (o n : Nat) : (slice bs o n).length = n := by
  unfold slice
  simp only [List.length_append, List.length_replicate, List.length_take]
  omega

theorem slice_of_le {bs : List Byte} {o n : Nat} (h : o + n ≤ bs.length) : slice bs o n = (bs.drop o).take n := by
  have hlen : ((bs.drop o).take n).length = n := by rw [List.length_take, List.length_drop]; omega
  unfold slice
  dsimp only
  rw [hlen, Nat.sub_self, List.replicate_zero, List.append_nil]

theorem slice_append_left {a b : List Byte} {o n : Nat} (h : o + n ≤ a.length) : slice (a ++ b) o n = slice a o n := by
  rw [slice_of_le h, slice_of_le (by rw [List.length_append]; omega), List.drop_append_of_le_length (by omega),
    List.take_append_of_le_length (by rw [List.length_drop]; omega)]

theorem slice_append_right {a b : List Byte} {o n : Nat} (h : a.length ≤ o) : slice (a ++ b) o n = slice b (o - a.length) n := by
  unfold slice
  rw [List.drop_append, List.drop_of_length_le h, List.nil_append]

theorem slice_self {bs : List Byte} {n : Nat} (h : bs.length = n) : slice bs 0 n = bs := by
  rw [slice_of_le (by omega), List.drop_zero, List.take_of_length_le (by omega)]

/-- A string that ends early is filled up with zeros. -/
theorem slice_zero_of_le {bs : List Byte} {n : Nat} (h : bs.length ≤ n) : slice bs 0 n = bs ++ List.replicate (n - bs.length) 0 := by
  unfold slice
  rw [List.drop_zero, List.take_of_length_le h]

theorem fieldN_append_left {a b : List Byte} {o n : Nat} (h : o + n ≤ a.length) : fieldN (a ++ b) o n = fieldN a o n := by
  rw [fieldN, slice_append_left h, fieldN]

theorem fieldN_append_right {a b : List Byte} {o n : Nat} (h : a.length ≤ o) : fieldN (a ++ b) o n = fieldN b (o - a.length) n := by
  rw [fieldN, slice_append_right h, fieldN]

theorem fieldN_leBytes (n v : Nat) : fieldN (leBytes n v) 0 n = v % 256 ^ n := by
  rw [fieldN, slice_self (length_leBytes n v), leNat_leBytes]

theorem byteAt_leBytes_one (v : Nat) : byteAt (leBytes 1 v) 0 = v % 256 := BitVec.toNat_ofNat v 8

end Sys2Proof.Laws

namespace Sys2Proof

open Machine Laws

/-- Settles O22. Each field is found behind the parts before it (`fieldN_append_left`, `fieldN_append_right`) and reads back what was written there. -/
theorem messageLayout : Obligations.MessageLayout := by
  unfold Obligations.MessageLayout
  intro version opcode flags tag client status epoch body hv ho hf hb m
  have ht := tag.isLt
  have hc := client.isLt
  have hs := status.isLt
  have he := epoch.isLt
  have hlen : ∀ n v, (leBytes n v).length = n := length_leBytes
  have hm : m = [BitVec.ofNat 8 version, BitVec.ofNat 8 opcode, BitVec.ofNat 8 flags, BitVec.ofNat 8 body.length] ++ (leBytes 2 tag.toNat ++
      (leBytes 2 client.toNat ++ (leBytes 2 status.toNat ++ (leBytes 2 0 ++ (leBytes 4 epoch.toNat ++ slice body 0 112))))) := by
    simp only [m, buildMessage, List.append_assoc]
  have hfields : fieldN m 4 2 = tag.toNat % 256 ^ 2 ∧ fieldN m 6 2 = client.toNat % 256 ^ 2 ∧ fieldN m 8 2 = status.toNat % 256 ^ 2 ∧
      fieldN m 10 2 = 0 % 256 ^ 2 ∧ fieldN m 12 4 = epoch.toNat % 256 ^ 4 := by
    rw [hm]
    simp (disch := simp [hlen]) only [fieldN_append_left, fieldN_append_right, List.length_cons, List.length_nil, hlen, Nat.reduceAdd, Nat.zero_add,
      Nat.reduceSub, Nat.sub_self, fieldN_leBytes, and_self]
  obtain ⟨htag, hclient, hstatus, hreserved, hepoch⟩ := hfields
  refine ⟨?length, ?version, ?opcode, ?flags, ?bodyLength, ?tag, ?client, ?status, hreserved, ?epoch, ?body⟩
  case length => simp [hm, length_leBytes, length_slice]
  case version => simpa [hm, msgVersion, byteAt] using hv
  case opcode => simpa [hm, msgOpcode, byteAt] using ho
  case flags => simpa [hm, byteAt] using hf
  case bodyLength =>
    have hb' : body.length < 256 := by omega
    simpa [hm, msgLength, byteAt] using hb'
  case tag => rw [msgTag, htag, Nat.mod_eq_of_lt (by omega), BitVec.ofNat_toNat, BitVec.setWidth_eq]
  case client => rw [msgClient, hclient, Nat.mod_eq_of_lt (by omega), BitVec.ofNat_toNat, BitVec.setWidth_eq]
  case status => rw [hstatus, Nat.mod_eq_of_lt (by omega)]
  case epoch => rw [msgEpoch, hepoch, Nat.mod_eq_of_lt (by omega)]
  case body =>
    rw [msgBody, hm]
    simp (disch := simp [hlen]) only [slice_append_right, List.length_cons, List.length_nil, hlen, Nat.reduceAdd, Nat.zero_add, Nat.reduceSub,
      Nat.sub_self]
    rw [slice_self (length_slice ..), slice_zero_of_le hb]

end Sys2Proof
end
section
/-!
SUPPORT. The data stream of a frame (R316, R317): its 48 header bytes, and what is read behind them.
-/
namespace Sys2Proof.Laws

open Sys2Proof Sys2Proof.Machine

theorem length_hdrBytes (h : FrameHdr) : (hdrBytes h).length = 48 := by
  simp only [hdrBytes, List.length_append, length_leBytes]

theorem parseHdr_append (h : FrameHdr) (d : List Byte) : parseHdr (hdrBytes h ++ d) =
    { version := h.version % 256 ^ 2, kind := h.kind % 256, lane := h.lane % 256 % 8, epoch := h.epoch % 256 ^ 4, step := h.step % 256 ^ 8,
      offset := h.offset % 256 ^ 6, flow := h.flow % 256 ^ 2, seq := h.seq % 256 ^ 4, ack := h.ack % 256 ^ 4, nak := h.nak % 256 ^ 4,
      bytes := h.bytes % 256 ^ 2, src := h.src % 256 ^ 2 % 4096, orig := h.orig % 256 ^ 4 } := by
  have hlen : ∀ n v, (leBytes n v).length = n := length_leBytes
  simp only [parseHdr, hdrBytes, List.append_assoc]
  simp (disch := simp [hlen]) only [fieldN_append_left, fieldN_append_right, byteAt_append_left, byteAt_append_right, hlen, Nat.reduceSub, Nat.sub_self,
    fieldN_leBytes, byteAt_leBytes_one]

/-- What a frame carries before its CRC. -/
def frameBody (h : FrameHdr) (payload : List Byte) : List Byte := hdrBytes h ++ slice payload 0 11264

theorem frameData_eq (h : FrameHdr) (payload : List Byte) :
    frameData h payload = frameBody h payload ++ (leBytes 8 (crc64 (frameBody h payload)).toNat ++ List.replicate 8 0) := List.append_assoc ..

theorem length_frameBody (h : FrameHdr) (payload : List Byte) : (frameBody h payload).length = 11312 := by
  rw [frameBody, List.length_append, length_hdrBytes, length_slice]

theorem crcOk_frameData (h : FrameHdr) (payload : List Byte) : crcOk (frameData h payload) = true := by
  have hbody := length_frameBody h payload
  have hcrc := (crc64 (frameBody h payload)).isLt
  have hread : fieldN (frameData h payload) 11312 8 = (crc64 (frameBody h payload)).toNat := by
    rw [frameData_eq, fieldN_append_right hbody.le, hbody, fieldN_append_left (by rw [length_leBytes]), fieldN_leBytes, Nat.mod_eq_of_lt (by omega)]
  rw [crcOk, hread, frameData_eq, List.take_left' hbody, beq_self_eq_true]

end Sys2Proof.Laws

namespace Sys2Proof

open Machine Laws

/-- Settles O48. The header's fields lie where `parseHdr` reads them (`parseHdr_append`), and none exceeds its width. -/
theorem frameHeaderRoundTrip : Obligations.FrameHeaderRoundTrip := by
  unfold Obligations.FrameHeaderRoundTrip
  intro h payload hversion hkind hlane hepoch hstep hoffset hflow hseq hack hnak hbytes hsrc horig hpayload
  have hstream : frameData h payload = hdrBytes h ++ (slice payload 0 11264 ++ (leBytes 8 (crc64 (frameBody h payload)).toNat ++ List.replicate 8 0)) := by
    rw [frameData_eq, frameBody, List.append_assoc]
  refine ⟨?header, ?carried, crcOk_frameData h payload, ?length⟩
  case header =>
    rw [hstream, parseHdr_append]
    obtain ⟨version, kind, lane, epoch, step, offset, flow, seq, ack, nak, bytes, src, orig⟩ := h
    dsimp only at *
    simp only [FrameHdr.mk.injEq]
    refine ⟨?_, ?_, ?_, ?_, ?_, ?_, ?_, ?_, ?_, ?_, ?_, ?_, ?_⟩ <;> omega
  case carried =>
    rw [hstream, List.drop_left' (length_hdrBytes h), slice_zero_of_le (by omega), List.append_assoc, List.take_left' hpayload]
  case length => rw [frameData_eq, List.length_append, length_frameBody, List.length_append, length_leBytes, List.length_replicate]

end Sys2Proof
end
section
/-!
SUPPORT. The outcome of a job's reports (R127, R354): the report that comes first among those that are not OK.
-/
namespace Sys2Proof.Laws

open Sys2Proof Sys2Proof.Machine

/-- The stop of report a comes before that of b, or at the same boundary at a lower step. -/
def stopsBefore (a b : EndReport) : Bool := decide (a.boundary < b.boundary ∨ (a.boundary = b.boundary ∧ a.step.toNat < b.step.toNat))

/-- The earlier of the reports seen so far and the next. -/
def earlierOf (acc : Option EndReport) (r : EndReport) : Option EndReport :=
  match acc with
  | none => some r
  | some a => if stopsBefore r a then some r else some a

/-- The reports of a job that are not OK. -/
def badReports (j : Job) : List EndReport := (ownReport j :: j.reports.map (·.2)).filter (fun r => r.status != 0)

theorem groupOutcome_eq (j : Job) : groupOutcome j = ((badReports j).foldl earlierOf none).getD (ownReport j) := rfl

theorem foldl_earlierOf : ∀ (l : List EndReport) (a : EndReport), ∃ r, l.foldl earlierOf (some a) = some r ∧ r ∈ a :: l ∧
    ∀ x ∈ a :: l, stopsBefore x r = false
  | [], a => ⟨a, rfl, List.mem_singleton_self a, fun x hx => by
      rw [List.mem_singleton.1 hx]
      simp [stopsBefore]⟩
  | b :: l, a => by
    rw [List.foldl_cons, earlierOf]
    split
    · next hb =>
      obtain ⟨r, hr, hmem, hfirst⟩ := foldl_earlierOf l b
      have hrb := hfirst b List.mem_cons_self
      refine ⟨r, hr, List.mem_cons_of_mem _ hmem, fun x hx => ?_⟩
      rcases List.mem_cons.1 hx with rfl | hx
      · simp only [stopsBefore, decide_eq_true_eq, decide_eq_false_iff_not] at hb hrb ⊢
        omega
      · exact hfirst x hx
    · next hb =>
      obtain ⟨r, hr, hmem, hfirst⟩ := foldl_earlierOf l a
      have hra := hfirst a List.mem_cons_self
      refine ⟨r, hr, ?_, fun x hx => ?_⟩
      · rcases List.mem_cons.1 hmem with rfl | hmem
        · exact List.mem_cons_self
        · exact List.mem_cons_of_mem _ (List.mem_cons_of_mem _ hmem)
      · rcases List.mem_cons.1 hx with rfl | hx
        · exact hra
        · rcases List.mem_cons.1 hx with rfl | hx
          · simp only [stopsBefore, decide_eq_true_eq, decide_eq_false_iff_not] at hb hra ⊢
            omega
          · exact hfirst x (List.mem_cons_of_mem _ hx)

/-- Where a report is not OK, the outcome is the first of those that are not. -/
theorem groupOutcome_first {j : Job} {e : EndReport} (h : e ∈ badReports j) :
    groupOutcome j ∈ badReports j ∧ ∀ x ∈ badReports j, stopsBefore x (groupOutcome j) = false := by
  rw [groupOutcome_eq]
  cases hl : badReports j with
  | nil => rw [hl] at h; cases h
  | cons b l =>
    obtain ⟨r, hr, hmem, hfirst⟩ := foldl_earlierOf l b
    have hfold : ((b :: l).foldl earlierOf none).getD (ownReport j) = r := by
      rw [List.foldl_cons, earlierOf, hr, Option.getD_some]
    rw [hfold]
    exact ⟨hmem, hfirst⟩

/-- Where every member's report is OK, the outcome is the device's own. -/
theorem groupOutcome_of_ok {j : Job} (h : ∀ e ∈ j.reports, e.2.status = 0) : groupOutcome j = ownReport j := by
  have hrest : (j.reports.map (·.2)).filter (fun r => r.status != 0) = [] := by
    refine List.filter_eq_nil_iff.2 fun r hr => ?_
    obtain ⟨e, he, rfl⟩ := List.mem_map.1 hr
    simp [h e he]
  rw [groupOutcome_eq, badReports, List.filter_cons, hrest]
  split <;> rfl

end Sys2Proof.Laws

namespace Sys2Proof

open Machine Laws

/-- Settles O32. The outcome is first among the reports that are not OK (`groupOutcome_first`), or the device's own (`groupOutcome_of_ok`). -/
theorem jobReports : Obligations.JobReports := by
  unfold Obligations.JobReports
  have hcomplete : ∀ (s : State) (job : Word), exec (.jobComplete job) s = execJobComplete job s := fun _ _ => rfl
  refine ⟨fun s job member r j ht hj hn hc hm => ?held, fun s job j hj ht hr => ?completes, fun s job j hj ht hr => ?waits,
    fun j h => ?ok, fun j e he hs => ?first⟩
  case held =>
    have hexec : exec (.jobEndReport job member r) s = .next (hearJobEnd s job member r) := rfl
    rw [hexec, hearJobEnd, if_pos ht, modJobs, hj]
    simp [hn, hc, hm, holdReport]
  case completes => simp [hcomplete, execJobComplete, hj, ht, hr]
  case waits => simp [hcomplete, execJobComplete, hj, hr]
  case ok => rw [groupOutcome_of_ok h, ownReport]
  case first =>
    have hbad : e.2 ∈ badReports j := List.mem_filter.2 ⟨List.mem_cons_of_mem _ (List.mem_map_of_mem he), by simpa using hs⟩
    obtain ⟨hmem, hfirst⟩ := groupOutcome_first hbad
    have hlast := hfirst e.2 hbad
    refine ⟨by simpa using (List.mem_filter.1 hmem).2, ?_⟩
    simp only [stopsBefore, decide_eq_false_iff_not] at hlast
    omega

end Sys2Proof
end
section
/-!
SUPPORT. Taking a request and answering it (R347, R348): what both leave of the state, and the response slot that an answer fills.
-/
namespace Sys2Proof.Laws

open Sys2Proof Sys2Proof.Machine

/-! ### What a request that is taken and its answer write -/

/-- The state s with what taking a request writes, as it stands in t. -/
def takenPart (s t : State) : State := { memPart s t with vmp := t.vmp }

/-- The state s with what taking a request and answering it writes, as it stands in t. -/
def requestPart (s t : State) : State := { takenPart s t with out := t.out }

theorem takenPart_trans {s t u : State} (h1 : t = takenPart s t) (h2 : u = takenPart t u) : u = takenPart s u := by
  rw [h2, h1]
  rfl

theorem requestPart_trans {s t u : State} (h1 : t = requestPart s t) (h2 : u = requestPart t u) : u = requestPart s u := by
  rw [h2, h1]
  rfl

theorem takenPart_of_memPart {s t : State} (h : t = memPart s t) : t = takenPart s t := by
  rw [h]
  rfl

theorem requestPart_of_takenPart {s t : State} (h : t = takenPart s t) : t = requestPart s t := by
  rw [h]
  rfl

theorem postMessage_requestPart (s : State) (k : Nat) (m : List Byte) : postMessage s k m = requestPart s (postMessage s k m) := by
  unfold postMessage
  extract_lets p a s1
  have written : s1 = requestPart s s1 :=
    requestPart_of_takenPart (takenPart_trans (takenPart_of_memPart (memWrite_part s a m)) rfl)
  split
  · rfl
  · split
    · exact requestPart_trans written rfl
    · exact written

theorem respond_requestPart (s : State) (k : Nat) (m : List Byte) (st : BitVec 16) (b : List Byte) :
    respond s k m st b = requestPart s (respond s k m st b) := postMessage_requestPart ..

theorem consume_takenPart (s : State) (k : Nat) : consume s k = takenPart s (consume s k) := by
  unfold consume
  split <;> rfl

theorem leaseComparator_takenPart (s : State) : leaseComparator s = takenPart s (leaseComparator s) := by
  unfold leaseComparator
  dsimp only
  split <;> rfl

theorem renewLease_takenPart (s : State) (c : BitVec 12) (n : Nat) : renewLease s c n = takenPart s (renewLease s c n) :=
  takenPart_trans rfl (leaseComparator_takenPart _)

theorem readRequest_memPart (s : State) (k : Nat) : (readRequest s k).1 = memPart s (readRequest s k).1 := by
  unfold readRequest
  dsimp only
  split
  · rfl
  · split
    · exact eccLog_part ..
    · exact memRead_part ..

theorem taken_takenPart {s t : State} {k op : Nat} {m : List Byte} (h : Taken s k op m t) : t = takenPart s t := by
  obtain ⟨s1, -, read, -, -, -, rfl⟩ := h
  have hread := readRequest_memPart s k
  rw [read] at hread
  have hconsumed := takenPart_trans (takenPart_of_memPart hread) (consume_takenPart s1 k)
  split
  · exact hconsumed
  · exact takenPart_trans hconsumed (renewLease_takenPart ..)

/-! ### The pair of the request -/

theorem pairGet_of_vmp {s t : State} (h : t.vmp.pairs = s.vmp.pairs) (k : Nat) : pairGet t k = pairGet s k := by
  rw [pairGet, h, pairGet]

/-- A pair that is enabled differs from the pair of reset, so a change of it is read back whatever the order of the list. -/
theorem pairGet_pairMod_of_en {s : State} {k : Nat} {f : RingPair → RingPair} (h : (f (pairGet s k)).en = true) (j : Nat) :
    pairGet (pairMod s k f) j = if j = k then f (pairGet s k) else pairGet s j :=
  sparseGet_sparseSet_of_ne (fun hr => by rw [hr] at h; cases h)

theorem en_of_isNext {s : State} {k : Nat} (hk : k < 256) (h : isNext s k = true) : (pairGet s k).en = true := by
  unfold isNext at h
  split at h
  · cases h
  · next a ha =>
    unfold arrivalOf at ha
    rw [if_neg (by omega)] at ha
    dsimp only at ha
    split at ha
    · next hen =>
      simp only [Bool.and_eq_true] at hen
      exact hen.1.1
    · cases ha

/-- The pair after its request is consumed. -/
theorem pairGet_consume {s : State} {k : Nat} (hk : k < 256) (h : (pairGet s k).en = true) : ∃ l,
    pairGet (consume s k) k = { pairGet s k with reqHead := (pairGet s k).reqHead + 1, arrivals := l } := by
  unfold consume
  rw [if_neg (by omega)]
  refine ⟨_, (pairGet_pairMod_of_en ?_ k).trans (if_pos rfl)⟩
  exact h

theorem renewLease_pairs (s : State) (c : BitVec 12) (n : Nat) : (renewLease s c n).vmp.pairs = s.vmp.pairs := by
  unfold renewLease leaseComparator
  dsimp only
  split <;> rfl

theorem readRequest_vmp (s : State) (k : Nat) : (readRequest s k).1.vmp = s.vmp := (congrArg State.vmp (readRequest_memPart s k) :)

theorem taken_pairGet {s t : State} {k op : Nat} {m : List Byte} (hk : k < 256) (h : Taken s k op m t) : ∃ l,
    pairGet t k = { pairGet s k with reqHead := (pairGet s k).reqHead + 1, arrivals := l } := by
  obtain ⟨s1, next, read, -, -, -, rfl⟩ := h
  have hread : pairGet s1 k = pairGet s k := pairGet_of_vmp (by rw [← readRequest_vmp s k, read]) k
  obtain ⟨l, hl⟩ := pairGet_consume (s := s1) hk (hread ▸ en_of_isNext hk next)
  rw [hread] at hl
  refine ⟨l, ?_⟩
  split
  · exact hl
  · rw [← hl]
    exact pairGet_of_vmp (renewLease_pairs ..) k

/-! ### Whole words written to clean memory -/

theorem cellGet_cellsPut_of_out {b : Nat} : ∀ {bs : List Byte} {a : Nat} {m : List Host.Cell}, b < a ∨ a + bs.length ≤ b →
    cellGet b (cellsPut a bs m) = cellGet b m
  | [], _, _, _ => rfl
  | x :: bs, a, m, h => by
    rw [List.length_cons] at h
    rw [cellsPut, cellGet_cellsPut_of_out (by omega), cellGet_cellSet_ne (by omega)]

/-- With no checker armed a word stored gives its bytes to the cells. -/
theorem storeWord_cells {s : State} (h : Unarmed s) (a : Nat) (bs : List Byte) : (storeWord s a bs).mem.cells = cellsPut a bs s.mem.cells := by
  unfold storeWord
  extract_lets m s1 s2
  have hs2 : s2.mem.cells = s1.mem.cells ∧ s2.mem.checkers = s.mem.checkers := by
    unfold s2
    split <;> exact ⟨rfl, rfl⟩
  rw [flipApply_unarmed (h.of_checkers hs2.2), hs2.1]

theorem writeInWord_cells_of_out {s : State} (h : Unarmed s) {a b : Nat} {bs : List Byte} (hl : bs.length = 8) (hb : b < a ∨ a + 8 ≤ b) :
    cellGet b (writeInWord s a bs).mem.cells = cellGet b s.mem.cells := by
  unfold writeInWord
  rw [if_pos hl]
  split
  · rfl
  · rw [storeWord_cells h, cellGet_cellsPut_of_out (by omega)]

theorem memWriteWords_cells_of_out {b : Nat} : ∀ {n : Nat} {s : State} {a : Nat} {bs : List Byte}, CleanMemory s → a % 8 = 0 → bs.length % 8 = 0 →
    b < a ∨ a + bs.length ≤ b → cellGet b (memWriteWords n s a bs).mem.cells = cellGet b s.mem.cells
  | 0, _, _, _, _, _, _, _ => rfl
  | n + 1, s, a, bs, h, ha, hl, hb => by
    rw [memWriteWords]
    split
    · rfl
    · next hne =>
      have hpos : 0 < bs.length := List.length_pos_iff.2 (by simpa using hne)
      have htake : (bs.take (8 - a % 8)).length = 8 := by rw [List.length_take]; omega
      have hdrop : (bs.drop (8 - a % 8)).length = bs.length - 8 := by rw [List.length_drop]; omega
      dsimp only
      rw [memWriteWords_cells_of_out (writeInWord_cleanMemory h ..) (by omega) (by omega) (by omega), writeInWord_cells_of_out h.2 htake (by omega)]

/-- Whole words written to clean memory change their own bytes only. -/
theorem memWrite_cells_of_out {s : State} {a b : Nat} {bs : List Byte} (h : CleanMemory s) (ha : a % 8 = 0) (hl : bs.length % 8 = 0)
    (hb : b < a ∨ a + bs.length ≤ b) : cellGet b (memWrite s a bs).mem.cells = cellGet b s.mem.cells := memWriteWords_cells_of_out h ha hl hb

/-! ### The response slot -/

/-- Where the next response of a pair goes (R347). -/
def responseSlot (s : State) (k : Nat) : Nat :=
  (pairGet s k).respBase.toNat + 128 * ((pairGet s k).respTail.toNat % 2 ^ (pairGet s k).respLog2.toNat)

theorem length_buildMessage (version opcode flags : Nat) (tag : BitVec 16) (client : BitVec 12) (status : BitVec 16) (epoch : BitVec 32)
    (body : List Byte) : (buildMessage version opcode flags tag client status epoch body).length = 128 := by
  simp [buildMessage, length_leBytes, length_slice]

/-- A message on a pair that is not the manager's: a store of its slot, and TAIL past it. -/
theorem postMessage_ring {s : State} {k : Nat} (h0 : 0 < k) (hk : k < 256) (m : List Byte) :
    postMessage s k m = pairMod (memWrite s (responseSlot s k) m) k (fun p => { p with respTail := p.respTail + 1 }) := by
  unfold postMessage
  rw [if_neg (by omega)]
  dsimp only
  rw [if_neg (by omega)]
  rfl

theorem memWrite_vmp (s : State) (a : Nat) (bs : List Byte) : (memWrite s a bs).vmp = s.vmp := by
  rw [memWrite_part]
  rfl

section
variable {s : State} {k : Nat} (h0 : 0 < k) (hk : k < 256)
include h0 hk

theorem pairGet_respond (hen : (pairGet s k).en = true) (m : List Byte) (st : BitVec 16) (b : List Byte) :
    pairGet (respond s k m st b) k = { pairGet s k with respTail := (pairGet s k).respTail + 1 } := by
  unfold respond respondTo
  rw [postMessage_ring h0 hk]
  have hpair := pairGet_of_vmp (s := s) (t := memWrite s (responseSlot s k) (buildMessage (replyVersion s (msgClient m)) (msgOpcode m) 1 (msgTag m)
    (msgClient m) st (replyEpoch s (msgOpcode m) (msgTarget m)) b)) (by rw [memWrite_vmp]) k
  rw [pairGet_pairMod_of_en (by rw [hpair]; exact hen), if_pos rfl, hpair]

theorem respond_out (m : List Byte) (st : BitVec 16) (b : List Byte) : (respond s k m st b).out = s.out := by
  unfold respond respondTo
  rw [postMessage_ring h0 hk, pairMod_out, memWrite_part]
  rfl

/-- In clean memory a response changes the 128 bytes of its slot. -/
theorem respond_cells_of_out (hc : CleanMemory s) (hbase : (pairGet s k).respBase.toNat % 8 = 0) (m : List Byte) (st : BitVec 16) (b : List Byte)
    {a : Nat} (ha : a < responseSlot s k ∨ responseSlot s k + 128 ≤ a) : cellGet a (respond s k m st b).mem.cells = cellGet a s.mem.cells := by
  have halign : responseSlot s k % 8 = 0 := by unfold responseSlot; omega
  unfold respond respondTo
  rw [postMessage_ring h0 hk, pairMod_mem, memWrite_cells_of_out hc halign (by rw [length_buildMessage]) (by rw [length_buildMessage]; exact ha)]

end

/-! ### Requests read from clean memory -/

theorem consume_mem (s : State) (k : Nat) : (consume s k).mem = s.mem := by
  unfold consume
  split <;> rfl

theorem renewLease_mem (s : State) (c : BitVec 12) (n : Nat) : (renewLease s c n).mem = s.mem := by
  unfold renewLease leaseComparator
  dsimp only
  split <;> rfl

theorem taken_mem_read {s t : State} {k op : Nat} {m : List Byte} (h : Taken s k op m t) : t.mem = (readRequest s k).1.mem := by
  obtain ⟨s1, -, read, -, -, -, rfl⟩ := h
  rw [read]
  split
  · exact consume_mem ..
  · exact (renewLease_mem ..).trans (consume_mem ..)

/-- A request taken from clean memory leaves it, but for the note of a failing word. -/
theorem taken_mem_clean {s t : State} {k op : Nat} {m : List Byte} (hc : CleanMemory s) (h : Taken s k op m t) :
    t.mem = { s.mem with badWord := t.mem.badWord } := by
  have hread : (readRequest s k).1.mem = { s.mem with badWord := (readRequest s k).1.mem.badWord } := by
    obtain ⟨s1, -, read, -, -, -, -⟩ := h
    unfold readRequest at read ⊢
    dsimp only at read ⊢
    split
    · rfl
    · next hk =>
      rw [if_neg hk] at read
      split
      · next hr =>
        rw [if_pos hr] at read
        cases read
      · rw [memRead_clean_st hc.1]
  rw [taken_mem_read h]
  exact hread

end Sys2Proof.Laws
end
section
namespace Sys2Proof

open Machine Laws

/-- Settles O60. Each of the four commands is one response (`respond`), which fills its slot and moves TAIL (`respond_cells_of_out`,
`pairGet_respond`); taking the request moves HEAD (`taken_pairGet`). -/
theorem responseFrame : Obligations.ResponseFrame := by
  unfold Obligations.ResponseFrame
  intro s u t k op m c hc h0 hk hbase htaken hdest hcmd hexec slot
  have answered : ∃ st b, u = respond t k m st b := by
    simp only [List.mem_cons, List.not_mem_nil, or_false, Prod.mk.injEq] at hcmd
    rcases hcmd with ⟨rfl, rfl⟩ | ⟨rfl, rfl⟩ | ⟨rfl, rfl⟩ | ⟨rfl, rfl⟩
    · exact ⟨_, _, (Host.Outcome.next.inj hexec).symm.trans (takeRequest_taken htaken _)⟩
    · have hu : u = serveOpStatus k t m := (Host.Outcome.next.inj hexec).symm.trans (takeRequest_taken htaken _)
      unfold serveOpStatus at hu
      split at hu
      · exact ⟨_, _, hu⟩
      · exact ⟨_, _, hu⟩
    · exact ⟨_, _, (Host.Outcome.next.inj hexec).symm.trans (takeRequest_taken htaken _)⟩
    · have hu : u = serveErrRead k t m := (Host.Outcome.next.inj hexec).symm.trans (takeRequest_taken htaken _)
      unfold serveErrRead at hu
      simp only [hdest rfl, ne_eq, not_true_eq_false, decide_false, Bool.false_and, Bool.false_eq_true, if_false, if_true] at hu
      exact ⟨_, _, hu⟩
  obtain ⟨st, b, rfl⟩ := answered
  obtain ⟨l, hpair⟩ := taken_pairGet hk htaken
  have hmem := taken_mem_clean hc htaken
  have hclean : CleanMemory t := cleanMemory_of_eq hc (congrArg Mem.synd hmem :) (congrArg Mem.checkers hmem :)
  have hslot : responseSlot t k = slot := by rw [responseSlot, hpair]
  have hen : (pairGet t k).en = true := by
    obtain ⟨s1, next, -⟩ := htaken
    rw [hpair]
    exact en_of_isNext hk next
  have hframe := requestPart_trans (requestPart_of_takenPart (taken_takenPart htaken)) (respond_requestPart t k m st b)
  have hout : t.out = s.out := (congrArg State.out (taken_takenPart htaken) :)
  refine ⟨fun a ha => ?cells, ?_, ?_, ?_, ?_, ?_, ?_, ?_, ?_, ?_, ?_⟩
  case cells =>
    rw [respond_cells_of_out h0 hk hclean (by rw [hpair]; exact hbase) m st b (by rw [hslot]; exact ha), congrArg Mem.cells hmem]
  · exact (congrArg State.seq hframe :)
  · exact (congrArg State.cfg hframe :)
  · exact (congrArg State.eng hframe :)
  · exact (congrArg State.tb hframe :)
  · exact (congrArg State.form hframe :)
  · exact (congrArg State.links hframe :)
  · exact (congrArg State.quench hframe :)
  · rw [respond_out h0 hk, hout]
  · rw [pairGet_respond h0 hk hen, hpair]
  · rw [pairGet_respond h0 hk hen, hpair]

end Sys2Proof
end
section
/-!
SUPPORT. What the boot ROM and the firmware keep (R388, R393): a memory operation and a reset of units leave all of it but the persistent log.
-/
namespace Sys2Proof.Laws

open Sys2Proof Sys2Proof.Machine

/-- What boot and firmware hold, the persistent log apart. -/
def bootKeeps (s : State) : Boot := { s.boot with persistent := [] }

theorem bootKeeps_of_boot {s t : State} (h : t.boot = s.boot) : bootKeeps t = bootKeeps s := by
  rw [bootKeeps, h, bootKeeps]

theorem bootKeeps_of_memPart {s t : State} (h : t = memPart s t) : bootKeeps t = bootKeeps s := by
  rw [h]
  rfl

theorem bootKeeps_memWrite (s : State) (a : Nat) (bs : List Byte) : bootKeeps (memWrite s a bs) = bootKeeps s := bootKeeps_of_memPart (memWrite_part ..)

/-! ### Resets -/

theorem bootKeeps_mergeFlushBank (s : State) (b : Nat) : bootKeeps (mergeFlushBank s b) = bootKeeps s :=
  foldl_keep _ bootKeeps (fun _ _ => bootKeeps_of_memPart (mergeFlushEntry_part ..)) _ s

theorem bootKeeps_damageVersions (s : State) (cs : List Nat) (f : Bool) : bootKeeps (damageVersions s cs f) = bootKeeps s :=
  foldl_keep _ bootKeeps (fun _ _ => bootKeeps_of_boot (sendTo_boot ..)) _ _

theorem bootKeeps_clearStack (s : State) (st : Nat) : bootKeeps (clearStack s st) = bootKeeps s := by
  unfold clearStack
  dsimp only
  split <;> rfl

theorem makeRepairs_boot (s : State) (c : Nat) : (makeRepairs s c).boot = s.boot := rfl

theorem bootKeeps_clearDomain (s : State) (k : Nat) (r : Bool) : bootKeeps (clearDomain s k r) = bootKeeps s := by
  have cores : bootKeeps (forKeys s (coresOf k) clearCore) = bootKeeps s := foldl_keep clearCore bootKeeps (fun _ _ => rfl) _ s
  have near : ∀ (t : State) (l : List Nat), bootKeeps (l.foldl (fun t st => makeRepairs (clearStack t st) st) t) = bootKeeps t := fun t l =>
    foldl_keep _ bootKeeps (fun t st => (bootKeeps_of_boot (makeRepairs_boot (clearStack t st) st)).trans (bootKeeps_clearStack t st)) l t
  have far : ∀ t : State, bootKeeps ((List.range 16).foldl (fun t m => makeRepairs t (16 + m)) (clearFar t)) = bootKeeps t := fun t =>
    foldl_keep _ bootKeeps (fun t m => bootKeeps_of_boot (makeRepairs_boot t (16 + m))) _ (clearFar t)
  unfold clearDomain
  extract_lets s1 dies e1 s2 cols e2 s3 s4 s5
  have h1 : bootKeeps s1 = bootKeeps s := cores
  clear_value s1
  have h3 : bootKeeps s3 = bootKeeps s := h1
  have h4 : bootKeeps s4 = bootKeeps s := by
    unfold s4
    split
    · exact h3
    · exact (near ..).trans h3
  have h5 : bootKeeps s5 = bootKeeps s := by
    unfold s5
    split
    · exact (far s4).trans h4
    · exact h4
  split
  · exact h5
  · exact (bootKeeps_damageVersions ..).trans h5

theorem noteEpoch_boot (s : State) : (noteEpoch s).boot = s.boot := by
  unfold noteEpoch
  dsimp only
  split
  · split <;> rfl
  · rfl

theorem loadUnitCfg_boot (s : State) (k : Nat) : (loadUnitCfg s k).boot = s.boot := noteEpoch_boot _
theorem resetPage_boot (s : State) (k : Nat) : (resetPage s k).boot = s.boot := loadUnitCfg_boot _ k

theorem closeBypasses_boot (s : State) : (closeBypasses s).boot = s.boot := foldl_keep _ State.boot (fun t p => portMod_boot t p _) _ s

theorem resetDeviceMembers_boot (s : State) (r : Bool) : (resetDeviceMembers s r).boot = s.boot := by
  unfold resetDeviceMembers
  dsimp only
  split
  · rfl
  · exact closeBypasses_boot _

theorem bootKeeps_resetMemories (s : State) (k : Nat) (r : Bool) : bootKeeps (resetMemories s k r) = bootKeeps s :=
  foldl_keep _ bootKeeps (fun t c => bootKeeps_of_boot (checkerMod_boot t c _)) _ s

theorem bootKeeps_beginReset (s : State) (k : Nat) (m f : Bool) : bootKeeps (beginReset s k m f) = bootKeeps s := by
  unfold beginReset
  extract_lets s0 s1 s2
  have h0 : bootKeeps s0 = bootKeeps s := foldl_keep _ bootKeeps bootKeeps_mergeFlushBank _ s
  have h1 : bootKeeps s1 = bootKeeps s := (bootKeeps_resetMemories ..).trans ((bootKeeps_clearDomain ..).trans h0)
  have h2 : bootKeeps s2 = bootKeeps s := (foldl_keep _ bootKeeps (fun t k => bootKeeps_of_boot (resetPage_boot t k)) _ s1).trans h1
  split
  · exact (bootKeeps_of_boot (resetDeviceMembers_boot s2 f)).trans h2
  · exact h2

theorem bootKeeps_resetLocal (s : State) (u : Uid) : bootKeeps (resetLocal s u) = bootKeeps s := by
  unfold resetLocal
  dsimp only
  split
  · exact bootKeeps_beginReset ..
  · rfl

/-- A reset on request leaves what boot and firmware hold. -/
theorem bootKeeps_resetReq (s : State) (u : Uid) : bootKeeps (resetReq s u) = bootKeeps s := by
  unfold resetReq
  split
  · split
    · exact (bootKeeps_of_boot (sendTo_boot ..)).trans (bootKeeps_resetLocal s _)
    · rfl
  · exact bootKeeps_resetLocal s u

/-! ### Staging an image -/

theorem stageImage_broken {s : State} {img : List Byte} (h : (imgHeaderOk img && imgBodyOk img) = false) : stageImage s img = (s, 0x0702) := by
  unfold stageImage imgStageStatus
  simp [h]

theorem imgStageStatus_whole {s : State} {img : List Byte} (hh : imgHeaderOk img = true) (hb : imgBodyOk img = true) : imgStageStatus s img =
    if imgSigOk img = false then 0x0700 else if imgSvn img < s.boot.svnFloor.toNat then 0x0701 else 0x0000 := by
  unfold imgStageStatus
  simp [hh, hb]

theorem stageImage_status (s : State) (img : List Byte) : (stageImage s img).2 = imgStageStatus s img := by
  unfold stageImage
  dsimp only
  split <;> rfl

theorem stageImage_staged (s : State) (img : List Byte) :
    (stageImage s img).1.boot.staged = if (stageImage s img).2 = 0 then some img else s.boot.staged := by
  rw [stageImage_status]
  unfold stageImage
  dsimp only
  split
  · rfl
  · split
    · rw [stickySet_boot]
    · rfl

end Sys2Proof.Laws

namespace Sys2Proof

open Machine Laws

/-- Settles O29. A reset leaves what boot and firmware hold (`bootKeeps_resetReq`); the loss of the input leaves what flash holds, the staged image
not among it. -/
theorem firmwareStaging : Obligations.FirmwareStaging := by
  unfold Obligations.FirmwareStaging
  refine ⟨fun s img h => stageImage_broken h, fun s img hh hb => ⟨?status, stageImage_staged s img⟩, fun s t t1 k m img ht hr => ?stage,
    fun s t u h => ?reset, fun s t hp h => ?brownout⟩
  case status => rw [stageImage_status, imgStageStatus_whole hh hb]
  case stage => exact congrArg Host.Outcome.next ((takeRequest_taken ht _).trans (withRef_ok hr _))
  case reset =>
    obtain rfl : resetReq s u = t := Host.Outcome.next.inj h
    exact (congrArg Boot.staged (bootKeeps_resetReq s u) :)
  case brownout =>
    have hexec : exec .brownout s = .next (emitOut (closeBypasses (powerLost s .absent)) (.rails false [5, 4, 3, 2, 1])) := by
      have hstate : (s.power.state == .absent) = false := by simpa using hp
      exact congrArg Host.Outcome.next (if_neg (by simp [hstate]))
    obtain rfl := Host.Outcome.next.inj (hexec.symm.trans h)
    rw [emitOut_boot, closeBypasses_boot]
    rfl

end Sys2Proof
end

section
namespace Sys2Proof

open Machine Laws

/-- Settles O3. Nothing of memory and no page is listed at reset. -/
theorem resetIsKept : Obligations.ResetIsKept := ⟨rfl, List.Pairwise.nil⟩

/-- Settles O1. Both clauses are the two cases of the queue in `step`. -/
theorem stepRunsFrontCommand : Obligations.StepRunsFrontCommand := by
  unfold Obligations.StepRunsFrontCommand
  refine ⟨fun c rest s h => ?front, fun s h => ?idle⟩
  case front => rw [step, h]
  case idle => rw [step, h]

end Sys2Proof
end

section
/-!
SUPPORT. The 26 commands of the mailbox protocol all take their request by `takeRequest` (R347, R349): what it does with an entry that is not
next, not readable, of another opcode, or refused.
-/
namespace Sys2Proof.Laws

open Sys2Proof Sys2Proof.Machine

/-! ### What becomes of the entry at HEAD -/

/-- The state in which a request that was read is answered or served: HEAD past it, and but for a HELLO its client's lease renewed. -/
def afterTaking (s s1 : State) (k : Nat) (m : List Byte) : State :=
  if msgOpcode m = 0x01 then consume s1 k else renewLease (consume s1 k) (msgClient m) ((arrivalOf s k).getD 0)

section
variable {s s1 : State} {k op : Nat} {m : List Byte} {serve : State → List Byte → State}

theorem takeRequest_not_next (h : isNext s k = false) : takeRequest s k op serve = s := by
  unfold takeRequest
  rw [h]
  rfl

theorem takeRequest_unreadable (h : isNext s k = true) (hr : readRequest s k = (s1, none)) : takeRequest s k op serve = consumeUnreadable s1 k := by
  unfold takeRequest
  simp only [h, hr, Bool.not_true, Bool.false_eq_true, if_false]

theorem takeRequest_other_row (hr : readRequest s k = (s1, some m)) (hd : opcodeDefined (msgOpcode m) = true) (ho : msgOpcode m ≠ op) :
    takeRequest s k op serve = s := by
  unfold takeRequest
  split
  · rfl
  · simp only [hr, hd, bne_iff_ne.2 ho, Bool.and_self, if_true]

theorem takeRequest_refused (h : isNext s k = true) (hr : readRequest s k = (s1, some m)) (hst : requestStatus s1 m ≠ 0)
    (ho : msgOpcode m = op ∨ opcodeDefined (msgOpcode m) = false) :
    takeRequest s k op serve = respond (afterTaking s s1 k m) k m (requestStatus s1 m) [] := by
  have hrow : (opcodeDefined (msgOpcode m) && msgOpcode m != op) = false := by
    rcases ho with rfl | ho
    · simp
    · rw [ho, Bool.false_and]
  have hst' : (requestStatus s1 m != 0x0000) = true := bne_iff_ne.2 hst
  unfold takeRequest
  simp only [h, hr, hrow, hst', Bool.not_true, Bool.false_eq_true, if_false, if_true]
  rfl

end

theorem consume_boot (s : State) (k : Nat) : (consume s k).boot = s.boot := by
  unfold consume
  split <;> rfl

theorem consume_clients (s : State) (k : Nat) : (consume s k).vmp.clients = s.vmp.clients := by
  unfold consume
  split <;> rfl

/-- Each of the 26 commands takes a request of its own opcode. -/
theorem vmpCommands_take (k : Nat) (remote : List (BitVec 16)) (answers : List MemberAnswer) (checks : List MemberCheck)
    (moved : List (Nat × List Byte)) (s : State) : ∀ x ∈ vmpCommands k remote answers checks moved,
    ∃ serve, exec x.1 s = .next (takeRequest s k x.2 serve) := by
  intro x hx
  simp only [vmpCommands, List.mem_cons, List.not_mem_nil, or_false] at hx
  rcases hx with rfl | rfl | rfl | rfl | rfl | rfl | rfl | rfl | rfl | rfl | rfl | rfl | rfl | rfl | rfl | rfl | rfl | rfl | rfl | rfl | rfl | rfl |
    rfl | rfl | rfl | rfl <;> exact ⟨_, rfl⟩

theorem exec_requestEntryUnreadable (k : Nat) (s : State) : exec (.requestEntryUnreadable k) s = .next (if isNext s k then
    match readRequest s k with
    | (s1, none) => consumeUnreadable s1 k
    | (_, some _) => s
  else s) := rfl

/-! ### The checks of R349 and R410 -/

/-- The major that a client speaks: the one it negotiated, that of VMP 1.0 without a lease. -/
def clientMajor (s : State) (c : BitVec 12) : Nat := ((clientGet s c).map (·.major)).getD 1

/-- The first check of R349, as `requestStatus` makes it. -/
def majorOk (s : State) (m : List Byte) : Bool := match clientGet s (msgClient m) with
  | some x => msgVersion m / 16 == x.major
  | none => msgVersion m / 16 == 1

theorem majorOk_iff (s : State) (m : List Byte) : majorOk s m = true ↔ msgVersion m / 16 = clientMajor s (msgClient m) := by
  unfold majorOk clientMajor
  cases clientGet s (msgClient m) <;> exact beq_iff_eq

section
variable {s : State} {m : List Byte}

theorem requestStatus_of_version (ho : msgOpcode m ≠ 0x01) (hv : msgVersion m / 16 ≠ clientMajor s (msgClient m)) : requestStatus s m = 0x0100 := by
  have hmajor : majorOk s m = false := Bool.eq_false_iff.2 (mt (majorOk_iff s m).1 hv)
  have hcheck : (!(msgOpcode m == 0x01) && !majorOk s m) = true := by simpa [hmajor] using ho
  exact if_pos hcheck

/-- Past the check of the version comes that of the client, then that of the opcode. -/
theorem requestStatus_of_major (hv : msgVersion m / 16 = clientMajor s (msgClient m)) :
    (msgOpcode m ≠ 0x01 → clientGet s (msgClient m) = none → requestStatus s m = 0x0104) ∧
    ((clientGet s (msgClient m)).isSome = true → opcodeDefined (msgOpcode m) = false → requestStatus s m = 0x0101) := by
  have hcheck : ¬ (!(msgOpcode m == 0x01) && !majorOk s m) = true := by simp [(majorOk_iff s m).2 hv]
  refine ⟨fun ho hc => ?_, fun hc hd => ?_⟩
  · have hclient : (!(msgOpcode m == 0x01) && (clientGet s (msgClient m)).isNone) = true := by simpa [hc] using ho
    exact (if_neg hcheck : requestStatus s m = _).trans (if_pos hclient)
  · have hclient : ¬ (!(msgOpcode m == 0x01) && (clientGet s (msgClient m)).isNone) = true := by
      rw [← Option.not_isSome, hc]
      simp
    have hopcode : (!opcodeDefined (msgOpcode m)) = true := by rw [hd]; rfl
    exact (if_neg hcheck : requestStatus s m = _).trans ((if_neg hclient).trans (if_pos hopcode))

end

/-- The state once the device is ready. -/
def readied (s : State) : State := { s with form := { s.form with ready := true } }

/-- A request that passes every check of R349 is refused before the device is ready, unless R410 names its command. -/
theorem requestStatus_of_readied {s : State} {m : List Byte} (h : requestStatus (readied s) m = 0) (hr : s.form.ready = false) :
    requestStatus s m = if servedEarly (msgOpcode m) = true then 0x0000 else 0x0600 := by
  unfold requestStatus at h
  extract_lets op hello bye c major majorOk at h
  split at h
  · cases h
  next hmajor =>
  split at h
  · cases h
  next hclient =>
  split at h
  · cases h
  next hop =>
  split at h
  · cases h
  next hlen =>
  split at h
  · cases h
  next htag =>
  refine (if_neg hmajor).trans <| (if_neg hclient).trans <| (if_neg hop).trans <| (if_neg hlen).trans <| (if_neg htag).trans ?_
  split at h
  · next hhello =>
    refine (if_pos hhello).trans (if_pos ?_).symm
    have hop : op = 0x01 ∨ op = 0x02 := by simpa [hello, bye] using hhello
    rcases hop with hop | hop <;> (show servedEarly op = true) <;> rw [hop] <;> rfl
  next hhello =>
  split at h
  · cases h
  next htarget =>
  split at h
  · cases h
  next hfenced =>
  split at h
  · cases h
  next hepoch =>
  refine (if_neg hhello).trans <| (if_neg htarget).trans <| (if_neg hfenced).trans <| (if_neg hepoch).trans ?_
  rw [hr]
  cases servedEarly (msgOpcode m) <;> rfl

end Sys2Proof.Laws

namespace Sys2Proof

open Machine Laws

/-- Settles O19. Each command hands its request to `takeRequest`, which serves one that passes its checks (`takeRequest_taken`). -/
theorem requestsAreServed : Obligations.RequestsAreServed := by
  unfold Obligations.RequestsAreServed
  intro s t k m remote answers checks moved
  have served : ∀ {op : Nat} (serve : State → List Byte → State), Taken s k op m t →
      (.next (takeRequest s k op serve) : Host.Outcome State Fault Refusal) = .next (serve t m) :=
    fun serve h => congrArg Host.Outcome.next (takeRequest_taken h serve)
  exact ⟨served _, served _, served _, served _, served _, served _, served _, served _, served _, served _, served _, served _, served _, served _,
    served _, served _, served _, served _, served _, served _, served _, served _, served _, served _, served _, served _⟩

/-- Settles O20. Each command is `takeRequest` with its opcode (`vmpCommands_take`), whose cases are an equation each; the checks stand in the order of
`requestStatus`. -/
theorem refusedRequests : Obligations.RefusedRequests := by
  unfold Obligations.RefusedRequests
  refine ⟨fun s s1 k remote answers checks moved hn hr => ?unreadable, fun s s1 k m hr => ?readable, fun s k hn => ?notNext,
    fun s s1 k m remote answers checks moved hn hr hst x hx ho => ?refused, fun s s1 k m remote answers checks moved hr x hx hd ho => ?otherRow,
    fun s k remote answers checks moved hn x hx => ?notNextRow, fun s m ho hv => ?version, fun s m ho hv hc => ?client,
    fun s m c hc hv hd => ?opcode⟩
  case unreadable =>
    have hframe := consume_takenPart s1 k
    refine ⟨consumeUnreadable s1 k, ?_, fun x hx => ?_, ?_, fun hk => ?_, ?_, ?_, ?_, ?_, ?_, ?_⟩
    · rw [exec_requestEntryUnreadable, if_pos hn, hr]
    · obtain ⟨serve, hexec⟩ := vmpCommands_take k remote answers checks moved s x hx
      rw [hexec, takeRequest_unreadable hn hr]
    · exact congrArg (· ++ _) (congrArg Boot.persistent (consume_boot s1 k))
    · have hpair : pairGet s1 k = pairGet s k := pairGet_of_vmp (by rw [← readRequest_vmp s k, hr]) k
      obtain ⟨l, hl⟩ := pairGet_consume (s := s1) hk (hpair ▸ en_of_isNext hk hn)
      have hlog : pairGet (consumeUnreadable s1 k) k = pairGet (consume s1 k) k := rfl
      rw [hlog, hl]
      exact ⟨rfl, rfl⟩
    · exact consume_mem s1 k
    · exact (congrArg State.out hframe :)
    · exact (congrArg State.seq hframe :)
    · exact (congrArg State.cfg hframe :)
    · exact (congrArg State.eng hframe :)
    · exact consume_clients s1 k
  case readable =>
    rw [exec_requestEntryUnreadable, hr]
    split <;> rfl
  case notNext => rw [exec_requestEntryUnreadable, hn]; rfl
  case refused =>
    obtain ⟨serve, hexec⟩ := vmpCommands_take k remote answers checks moved s x hx
    rw [hexec, takeRequest_refused hn hr hst ho]
    rfl
  case otherRow =>
    obtain ⟨serve, hexec⟩ := vmpCommands_take k remote answers checks moved s x hx
    rw [hexec, takeRequest_other_row hr hd ho]
  case notNextRow =>
    obtain ⟨serve, hexec⟩ := vmpCommands_take k remote answers checks moved s x hx
    rw [hexec, takeRequest_not_next hn]
  case version => exact requestStatus_of_version ho hv
  case client => exact (requestStatus_of_major (by rw [clientMajor, hc]; exact hv)).1 ho hc
  case opcode => exact (requestStatus_of_major (by rw [clientMajor, hc]; exact hv)).2 (by rw [hc]; rfl) hd

/-- Settles O21. The check of R410 is the last of `requestStatus`, so it alone decides once the others pass (`requestStatus_of_readied`). -/
theorem servedBeforeReady : Obligations.ServedBeforeReady := by
  unfold Obligations.ServedBeforeReady
  refine ⟨fun s m hr h hmem => ?early, fun s m hr h hmem => ?late⟩
  case early => rw [requestStatus_of_readied h hr, if_pos (by simpa [servedEarly] using hmem)]
  case late => rw [requestStatus_of_readied h hr, if_neg (by simpa [servedEarly] using hmem)]

end Sys2Proof
end

section
/-!
SUPPORT. Writes of clean memory report no error, so nothing of the units changes (R29, R301).
-/
namespace Sys2Proof.Laws

open Sys2Proof.Machine

theorem mergeFlushEntry_units_clean {s : State} (h : CleanMemory s) (b : Nat) (e : MergeEntry) : (mergeFlushEntry s b e).units = s.units := by
  have dropped : CleanMemory { s with mem := mergeDrop s.mem b e.addr } := cleanMemory_of_eq h rfl rfl
  unfold mergeFlushEntry
  dsimp only
  split
  · exact storeWord_units ..
  · exact (afterRead_units (readWord _ e.addr) ..).trans (by rw [readWord_clean dropped.1])

theorem mergeWrite_units_clean {s : State} (h : CleanMemory s) (b a : Nat) (bs : List Byte) : (mergeWrite s b a bs).units = s.units := by
  have put : ∀ es, CleanMemory { s with mem := mergePut s.mem b es } := fun _ => cleanMemory_of_eq h rfl rfl
  unfold mergeWrite
  extract_lets w es s1 e'
  clear_value es
  split
  · dsimp only
    split
    · exact mergeFlushEntry_units_clean (put _) ..
    · rfl
  · change s1.units = s.units
    unfold s1
    split
    · split
      · exact mergeFlushEntry_units_clean h ..
      · rfl
    · rfl

theorem writeInWord_units_clean {s : State} (h : CleanMemory s) (a : Nat) (bs : List Byte) : (writeInWord s a bs).units = s.units := by
  unfold writeInWord
  split
  · rfl
  · split
    · exact storeWord_units ..
    · split
      · exact mergeWrite_units_clean h ..
      · exact (afterRead_units (readWord s (a / 8 * 8)) ..).trans (by rw [readWord_clean h.1])

theorem memWriteWords_units_clean : ∀ (n : Nat) {s : State} (a : Nat) (bs : List Byte), CleanMemory s → (memWriteWords n s a bs).units = s.units
  | 0, _, _, _, _ => rfl
  | n + 1, s, a, bs, h => by
    rw [memWriteWords]
    split
    · rfl
    · exact (memWriteWords_units_clean n _ _ (writeInWord_cleanMemory h ..)).trans (writeInWord_units_clean h ..)

theorem memWrite_units_clean {s : State} (h : CleanMemory s) (a : Nat) (bs : List Byte) : (memWrite s a bs).units = s.units :=
  memWriteWords_units_clean _ a bs h

theorem memWrite_cleanMemory {s : State} (h : CleanMemory s) (a : Nat) (bs : List Byte) : CleanMemory (memWrite s a bs) :=
  memWriteWords_cleanMemory _ a bs h

/-! ### Posting an event (R364) -/

theorem postEvent_clean {s : State} (h : CleanMemory s) (e : StickyEvent) (k : Nat) :
    CleanMemory (postEvent s e k) ∧ (postEvent s e k).units = s.units := by
  unfold postEvent
  extract_lets p a s1
  have written : CleanMemory s1 ∧ s1.units = s.units :=
    ⟨cleanMemory_of_eq (memWrite_cleanMemory h a (eventBytes e p.evtSeq)) rfl rfl, memWrite_units_clean h a (eventBytes e p.evtSeq)⟩
  split
  · exact ⟨h, rfl⟩
  · split
    · exact ⟨cleanMemory_of_eq h rfl rfl, rfl⟩
    · split
      · exact ⟨cleanMemory_of_eq written.1 rfl rfl, written.2⟩
      · exact written

/-- Posting events to the rings of clean memory raises no event. -/
theorem postEvents_units_clean {s : State} (h : CleanMemory s) (l : List StickyEvent) : (l.foldl postEventAll s).units = s.units := by
  refine (foldl_invariant (P := fun t => CleanMemory t ∧ t.units = s.units) (fun t e ht => ?_) l ⟨h, rfl⟩).2
  refine foldl_invariant (P := fun t => CleanMemory t ∧ t.units = s.units) (fun u k hu => ?_) _ ht
  obtain ⟨hclean, hunits⟩ := postEvent_clean hu.1 e k
  exact ⟨hclean, hunits.trans hu.2⟩

section
variable {s : State} {e : StickyEvent} {k : Nat} (hen : (pairGet s k).en = true) (hevt : (pairGet s k).evtEn = true)
  (hscope : scopeCovers s (pairGet s k).evtUid e.uid = true)
include hen hevt hscope

theorem pairGet_postEvent_room (hk : 0 < k)
    (hroom : ringCount (pairGet s k).evtHead (pairGet s k).evtTail < ringSize (pairGet s k).evtLog2.toNat) :
    pairGet (postEvent s e k) k = { pairGet s k with evtTail := (pairGet s k).evtTail + 1, evtSeq := (pairGet s k).evtSeq + 1 } := by
  unfold postEvent
  extract_lets p a s1
  rw [if_neg (by simp [p, hen, hevt, hscope]), if_neg (Nat.not_le.2 hroom), if_neg (by omega)]
  have hpair := pairGet_of_vmp (s := s) (t := memWrite s a (eventBytes e p.evtSeq)) (by rw [memWrite_vmp]) k
  refine (pairGet_pairMod_of_en ?_ k).trans ((if_pos rfl).trans ?_)
  · rw [hpair]
    exact hen
  · rw [hpair]

theorem pairGet_postEvent_full (hfull : ringSize (pairGet s k).evtLog2.toNat ≤ ringCount (pairGet s k).evtHead (pairGet s k).evtTail)
    (hdrops : (pairGet s k).evtDrops ≠ 0xFFFFFFFF) :
    pairGet (postEvent s e k) k = { pairGet s k with evtDrops := (pairGet s k).evtDrops + 1, evtSeq := (pairGet s k).evtSeq + 1 } := by
  unfold postEvent
  extract_lets p a s1
  rw [if_neg (by simp [p, hen, hevt, hscope]), if_pos hfull]
  refine (pairGet_pairMod_of_en ?_ k).trans ((if_pos rfl).trans ?_)
  · exact hen
  · rw [if_neg hdrops]

end

/-- With one event of an earlier strike and one pair, the step posts that event to that pair. -/
theorem execStickyEventPost_one {s : State} {e : StickyEvent} {k : Nat} {p : RingPair} (hev : s.units.events = [e]) (hstrike : e.strike < now s)
    (hpairs : s.vmp.pairs = [(k, p)]) : exec .stickyEventPost s = .next (postEvent { s with units := { s.units with events := [] } } e k) := by
  have hdue : exec .stickyEventPost s = execStickyEventPost s := rfl
  rw [hdue, execStickyEventPost, hev]
  have h1 : [e].filter (fun e => decide (e.strike < now s)) = [e] := by simp [hstrike]
  have h2 : [e].filter (fun e => !decide (e.strike < now s)) = [] := by simp [hstrike]
  rw [h1, h2]
  simp [postEventAll, hpairs]

end Sys2Proof.Laws
end

section
namespace Sys2Proof

open Machine Laws

/-- Settles O14. The events of earlier strikes leave the list, and posting raises none in clean memory; one event goes to the one pair that
wants it, into the ring or as a drop. -/
theorem stickyEventsPost : Obligations.StickyEventsPost := by
  unfold Obligations.StickyEventsPost
  refine ⟨fun s hclean => ⟨_, rfl, ?taken⟩, fun s e k p hev hstrike hpairs hk hen hevt hscope hroom => ⟨_, execStickyEventPost_one hev hstrike hpairs, ?posted⟩,
    fun s e k p hev hstrike hpairs hen hevt hscope hfull hdrops => ⟨_, execStickyEventPost_one hev hstrike hpairs, ?dropped⟩⟩
  case taken =>
    refine (congrArg Units.events (postEvents_units_clean ?_ _)).trans rfl
    exact cleanMemory_of_eq hclean rfl rfl
  all_goals
    have hp : pairGet { s with units := { s.units with events := [] } } k = p := by simp [pairGet, hpairs, sparseGet]
  case posted =>
    have h := pairGet_postEvent_room (s := { s with units := { s.units with events := [] } }) (k := k) (e := e) (hp ▸ hen) (hp ▸ hevt) (hp ▸ hscope) hk (hp ▸ hroom)
    rwa [hp] at h
  case dropped =>
    have h := pairGet_postEvent_full (s := { s with units := { s.units with events := [] } }) (k := k) (e := e) (hp ▸ hen) (hp ▸ hevt) (hp ▸ hscope) (hp ▸ hfull) (hp ▸ hdrops)
    rwa [hp] at h

end Sys2Proof
end

section
/-!
SUPPORT. Sticky bits that stay raised whatever the order of the pages (R49), and what the end of a lease leaves (R351, R352).
-/
namespace Sys2Proof.Laws

open Sys2Proof.Machine

/-! ### Raised bits stay raised -/

/-- From s to t no unit loses a raised sticky bit. -/
def KeepsRaised (s t : State) : Prop := ∀ k b, stickyRaised s k b → stickyRaised t k b

theorem KeepsRaised.refl (s : State) : KeepsRaised s s := fun _ _ h => h

theorem KeepsRaised.trans {s t u : State} (h1 : KeepsRaised s t) (h2 : KeepsRaised t u) : KeepsRaised s u := fun k b h => h2 k b (h1 k b h)

theorem KeepsRaised.of_pages {s t : State} (h : t.units.pages = s.units.pages) : KeepsRaised s t := fun k b hs => by
  rwa [stickyRaised, unitGet_congr h]

theorem KeepsRaised.of_units {s t : State} (h : t.units = s.units) : KeepsRaised s t := .of_pages (congrArg Units.pages h)

theorem EventsOnly.keepsRaised {s t : State} (h : EventsOnly s t) : KeepsRaised s t := fun _ _ => h.raised

/-- A change of one unit that leaves its raised bits: where one is raised the unit is not as at reset, so the change is read back. -/
theorem unitMod_keepsRaised {s : State} {k : Nat} {f : UnitState → UnitState} (hf : ∀ u, raisedBits (f u) = raisedBits u) :
    KeepsRaised s (unitMod s k f) := fun j b hs => by
  unfold stickyRaised
  by_cases e : j = k
  · subst e
    have hraised : (raisedBits (unitGet s j)).getLsbD b = true := hs
    have hread : unitGet (unitMod s j f) j = f (unitGet s j) := unitGet_unitMod_of_ne_default (fun hd => by
      rw [← hf, hd, raisedBits_pageDefault] at hraised
      simp at hraised)
    rw [hread]
    exact (congrArg (fun w : Word => w.getLsbD b) (hf (unitGet s j))).trans hraised
  · rw [unitGet_unitMod_ne e]
    exact hs

theorem foldl_keepsRaised {β : Type} {f : State → β → State} (h : ∀ t x, KeepsRaised t (f t x)) : ∀ (l : List β) (s : State), KeepsRaised s (l.foldl f s)
  | [], s => .refl s
  | x :: l, s => (h s x).trans (foldl_keepsRaised h l (f s x))

theorem wdWrite_raised (p : UnitPage) (k : Nat) (v : Word) : (wdWrite p k v).sticky = p.sticky ∧ (wdWrite p k v).fresh = p.fresh := by
  unfold wdWrite wdSet
  split <;> exact ⟨rfl, rfl⟩

theorem leaseComparator_keepsRaised (s : State) : KeepsRaised s (leaseComparator s) := by
  unfold leaseComparator
  extract_lets h d
  split
  · exact .refl s
  · refine unitMod_keepsRaised (fun u => ?_)
    clear_value d
    dsimp only [raisedBits]
    split
    · rfl
    · rw [(wdWrite_raised ..).1, (wdWrite_raised ..).2]

/-! ### Clients -/

theorem leaseComparator_cfg (s : State) : (leaseComparator s).cfg = s.cfg := (congrArg State.cfg (leaseComparator_takenPart s) :)

theorem leaseComparator_form (s : State) : (leaseComparator s).form = s.form := (congrArg State.form (leaseComparator_takenPart s) :)

theorem leaseComparator_vmp (s : State) : (leaseComparator s).vmp = s.vmp := by
  unfold leaseComparator
  dsimp only
  split <;> rfl

theorem postMessage_clients (s : State) (k : Nat) (m : List Byte) : (postMessage s k m).vmp.clients = s.vmp.clients := by
  unfold postMessage
  extract_lets p a s1
  have written : s1.vmp.clients = s.vmp.clients := (congrArg Vmp.clients (memWrite_vmp s a m) :)
  split
  · rfl
  · split
    · exact written
    · exact written

theorem respond_clients (s : State) (k : Nat) (m : List Byte) (st : BitVec 16) (b : List Byte) :
    (respond s k m st b).vmp.clients = s.vmp.clients := postMessage_clients ..

/-- A job that the end of its client's lease has cancelled waits no longer. -/
theorem cancelJob_not_queued (s : State) (j : Job) (n : Nat) (st : BitVec 16) : (cancelJob s j n st).phase ≠ .queued := by
  unfold cancelJob
  split
  · simp
  · next h => simp [h]
  · next h => simp [h]

section
variable (s : State) (c : BitVec 12) (n : Nat)

theorem endLease_clients : (endLease s c n).vmp.clients = s.vmp.clients.filter (fun x => x.id != c) := by
  unfold endLease
  extract_lets mine s0 s1 s2
  have hs0 : s0.vmp = s.vmp := foldl_keep _ State.vmp (fun _ _ => sendTo_vmp ..) _ s
  rw [leaseComparator_vmp]
  change s0.vmp.clients.filter _ = _
  rw [hs0]

theorem endLease_staging : (endLease s c n).cfg.staging = s.cfg.staging.filter (fun x => x.client != c) := by
  unfold endLease
  extract_lets mine s0 s1 s2
  have hs0 : s0.cfg = s.cfg := foldl_keep _ State.cfg (fun _ _ => sendTo_cfg ..) _ s
  rw [leaseComparator_cfg]
  change s0.cfg.staging.filter _ = _
  rw [hs0]

theorem endLease_device : (endLease s c n).form = s.form := by
  unfold endLease
  extract_lets mine s0 s1 s2
  rw [leaseComparator_form]
  exact foldl_keep _ State.form (fun _ _ => sendTo_form ..) _ s

theorem endLease_jobs : (endLease s c n).seq.jobs = s.seq.jobs.map (fun j =>
    if ownJob s j && j.client == c && j.phase != .ended then cancelJob s j n 0x0307 else j) := by
  unfold endLease
  extract_lets mine s0 s1 s2
  have hs0 : s0.seq = s.seq := foldl_keep _ State.seq (fun _ _ => sendTo_seq ..) _ s
  rw [leaseComparator_seq]
  change s0.seq.jobs.map _ = _
  rw [hs0]

/-- No job of a client whose lease has ended waits to start. -/
theorem endLease_none_queued {j : Job} (hj : j ∈ (endLease s c n).seq.jobs) (hown : ownJob (endLease s c n) j = true) (hc : j.client = c) :
    j.phase ≠ .queued := by
  rw [endLease_jobs, List.mem_map] at hj
  obtain ⟨x, -, rfl⟩ := hj
  rw [ownJob, endLease_device] at hown
  split
  · exact fun hq => cancelJob_not_queued s x n 0x0307 hq
  · next hmine =>
    rw [if_neg hmine] at hown hc
    intro hq
    exact hmine (by simp [ownJob, hown, hc, hq])

theorem endLease_keepsRaised : KeepsRaised s (endLease s c n) := by
  unfold endLease
  extract_lets mine s0 s1 s2
  have hs0 : KeepsRaised s s0 := foldl_keepsRaised (fun _ _ => (sendTo_events ..).keepsRaised) _ s
  refine hs0.trans (.trans ?_ (leaseComparator_keepsRaised _))
  exact .of_units rfl

end

/-- A HELLO that finds major 1, room and a free ID adds its client. -/
theorem serveHello_clients {s : State} {arrived k i : Nat} {m : List Byte} (hmajor : bit (fieldN (msgBody m) 0 2) 1 = true)
    (hroom : s.vmp.clients.length < 4096) (hfree : freeClient s = some i) : (serveHello arrived k s m).vmp.clients =
    s.vmp.clients ++ [{ id := BitVec.ofNat 12 i, major := 1, minor := 0, pair := k, lastStrike := arrived }] := by
  unfold serveHello
  dsimp only
  rw [if_neg (by simp [hmajor]), if_neg (Nat.not_le.2 hroom), hfree]
  dsimp only
  rw [respondTo, postMessage_clients, leaseComparator_vmp]
  rfl

end Sys2Proof.Laws
end

section
namespace Sys2Proof

open Machine Laws

/-- Settles O23. HELLO adds its client; BYE and an expired lease end in `endLease`, which keeps every raised bit. -/
theorem clientLeases : Obligations.ClientLeases := by
  unfold Obligations.ClientLeases
  refine ⟨fun s t k i m htaken hmajor hroom hfree => ⟨_, congrArg Host.Outcome.next (takeRequest_taken htaken _), serveHello_clients hmajor hroom hfree⟩,
    fun s t k m htaken => ⟨_, congrArg Host.Outcome.next (takeRequest_taken htaken _), ?clients, fun j hj hown hc => endLease_none_queued _ _ _ hj hown hc, ?staging⟩,
    fun s id c hclient hheats hend => ⟨endLease (stickySet s devKey 17) id (nextBoundary (now s + 1)), ?expires, ?removed, ?raised⟩, fun s id c hclient hearly => ?lives⟩
  case clients => exact (endLease_clients ..).trans (by rw [respond_clients])
  case staging =>
    intro x hx
    have hmem : x ∈ (endLease (respond t k m 0x0000 []) (msgClient m) (now t)).cfg.staging := hx
    rw [endLease_staging] at hmem
    simpa using (List.mem_filter.1 hmem).2
  case expires => exact congrArg Host.Outcome.next (by rw [hclient]; dsimp only; rw [if_pos (by simp [hheats, hend])])
  case removed => rw [endLease_clients, stickySet_vmp]
  case raised => exact endLease_keepsRaised _ _ _ _ _ (stickyRaised_stickySet_any s devKey (by decide))
  case lives => exact congrArg Host.Outcome.next (by rw [hclient]; dsimp only; rw [if_neg (by simp; omega)])

end Sys2Proof
end

section
/-!
SUPPORT. What the requests on errors, recovery, time and topology leave (R304, R353, R356, R374).
-/
namespace Sys2Proof.Laws

open Sys2Proof.Machine

/-! ### Clearing checker logs (R304) -/

theorem checkerGet_checkerMod_of_rises {s : State} {c : Nat} {f : Checker → Checker} (h : Rises s.mem.checkers) (j : Nat) :
    checkerGet (checkerMod s c f) j = if j = c then f (checkerGet s c) else checkerGet s j := by
  unfold checkerGet checkerMod
  by_cases e : j = c
  · subst e
    exact (sparseGet_sparseSet h).trans (by rw [if_pos rfl, if_pos rfl]; rfl)
  · rw [if_neg e]
    exact sparseGet_sparseSet_ne e

/-- Memory without stored errors or armed checkers, its checkers listed in order. -/
def CleanRising (s : State) : Prop := Rises s.mem.checkers ∧ CleanMemory s

theorem checkerMod_cleanRising {s : State} {c : Nat} {f : Checker → Checker} (h : CleanRising s) (hf : ∀ x, (f x).flipArm = x.flipArm) :
    CleanRising (checkerMod s c f) := by
  obtain ⟨rises, synd, unarmed⟩ := h
  refine ⟨sparseSet_rises rises, synd, fun j => ?_⟩
  rw [checkerGet_checkerMod_of_rises rises]
  split
  · rw [hf]
    exact unarmed c
  · exact unarmed j

theorem clearChecker_cleanRising {s : State} (h : CleanRising s) (k c : Nat) : CleanRising (clearChecker s k c) := by
  unfold clearChecker
  split
  · split
    · exact checkerMod_cleanRising h (fun _ => rfl)
    · exact h
  · split
    · split
      · exact checkerMod_cleanRising h (fun _ => rfl)
      · exact h
    · exact checkerMod_cleanRising h (fun _ => rfl)

theorem clearChecker_units (s : State) (k c : Nat) : (clearChecker s k c).units = s.units := by
  unfold clearChecker
  split
  · split <;> rfl
  · split
    · split <;> rfl
    · rfl

theorem clearLogs_cleanRising {s : State} (h : CleanRising s) (k : Nat) : CleanRising (clearLogs s k) :=
  foldl_invariant (P := CleanRising) (fun _ c ht => clearChecker_cleanRising ht k c) (List.range 36) h

theorem clearLogs_units (s : State) (k : Nat) : (clearLogs s k).units = s.units :=
  foldl_keep _ State.units (fun _ _ => clearChecker_units ..) _ s

/-! ### Answers in clean memory -/

theorem postMessage_units_clean {s : State} (h : CleanMemory s) (k : Nat) (m : List Byte) : (postMessage s k m).units = s.units := by
  unfold postMessage
  extract_lets p a s1
  have written : s1.units = s.units := (memWrite_units_clean h a m :)
  split
  · rfl
  · split
    · exact written
    · exact written

theorem respond_units_clean {s : State} (h : CleanMemory s) (k : Nat) (m : List Byte) (st : BitVec 16) (b : List Byte) :
    (respond s k m st b).units = s.units := postMessage_units_clean h ..

/-- ERR_CLEAR of a single unit clears the sticky bits of its mask, whatever else it is asked. -/
theorem serveErrClear_sticky {s : State} {k : Nat} {m : List Byte} (hs : Form s) (hc : CleanMemory s) (hl : keyLevel (msgTarget m).toNat ≠ 5) :
    (unitGet (serveErrClear k s m) (uidKey (msgTarget m))).page.sticky =
      (unitGet s (uidKey (msgTarget m))).page.sticky &&& ~~~ (BitVec.ofNat 64 (fieldN (msgBody m) 0 8) &&& stickyMask) := by
  unfold serveErrClear
  extract_lets b u mask notify heat grp s1 s2 t s3
  have rising : Rises s.units.pages := hs.2
  have clean : CleanRising s := ⟨(form_iff.1 hs).1.2.2.2, hc⟩
  have hs1 : s1 = pageMod s (uidKey u) (fun p => { p with sticky := p.sticky &&& ~~~ mask }) := if_neg hl
  have clean1 : CleanRising s1 := by
    rw [hs1]
    exact clean
  have rising1 : Rises s1.units.pages := by
    rw [hs1]
    exact pageMod_rises rising
  have sticky1 : (unitGet s1 (uidKey u)).page.sticky = (unitGet s (uidKey u)).page.sticky &&& ~~~ mask := by
    rw [hs1, unitGet_pageMod rising, if_pos rfl]
  have clean2 : CleanRising s2 ∧ (unitGet s2 (uidKey u)).page.sticky = (unitGet s1 (uidKey u)).page.sticky := by
    unfold s2
    split
    · exact ⟨clean1, rfl⟩
    · refine ⟨clean1, ?_⟩
      rw [unitGet_pageMod rising1, if_pos rfl]
  have clean3 : CleanRising s3 ∧ s3.units = s2.units := by
    unfold s3
    split
    · exact ⟨clearLogs_cleanRising clean2.1 _, clearLogs_units ..⟩
    · exact ⟨clean2.1, rfl⟩
  rw [unitGet_congr (congrArg Units.pages ((respond_units_clean clean3.1.2 ..).trans clean3.2)), clean2.2, sticky1]

/-! ### Recovery on request (R356, R374) -/

theorem respond_form (s : State) (k : Nat) (m : List Byte) (st : BitVec 16) (b : List Byte) : (respond s k m st b).form = s.form :=
  (congrArg State.form (respond_requestPart s k m st b) :)

theorem respond_quench (s : State) (k : Nat) (m : List Byte) (st : BitVec 16) (b : List Byte) : (respond s k m st b).quench = s.quench :=
  (congrArg State.quench (respond_requestPart s k m st b) :)

theorem recoverableJob_of_seq {s t : State} (h : t.seq = s.seq) : recoverableJob t = recoverableJob s := by
  unfold recoverableJob runningJob now
  rw [h]

/-- A request that passed the checks, of a command that no group is a target of, names a unit of this device (R349). -/
theorem requestStatus_ok_device {s : State} {m : List Byte} (h : requestStatus s m = 0) (hgroup : levelOk (msgOpcode m) 5 = false)
    (h1 : msgOpcode m ≠ 0x01) (h2 : msgOpcode m ≠ 0x02) : uidDevice (msgTarget m) = s.form.device := by
  unfold requestStatus at h
  extract_lets op hello bye c major majorOk at h
  split at h
  · cases h
  split at h
  · cases h
  split at h
  · cases h
  split at h
  · cases h
  split at h
  · cases h
  split at h
  · next hhello =>
    have hop : op = 0x01 ∨ op = 0x02 := by simpa [hello, bye] using hhello
    exact absurd hop (not_or.2 ⟨h1, h2⟩)
  split at h
  · cases h
  next htarget =>
  simp only [Bool.not_eq_true', Bool.not_eq_false, Bool.and_eq_true] at htarget
  obtain ⟨⟨-, hlevel⟩, hlocal⟩ := htarget
  have hl : keyLevel (msgTarget m).toNat ≠ 5 := fun he => by
    rw [he] at hlevel
    exact absurd (hlevel.symm.trans hgroup) (by decide)
  unfold targetLocal at hlocal
  rw [if_neg hl] at hlocal
  exact beq_iff_eq.1 hlocal

theorem device_of_taken {s t : State} {k op : Nat} {m : List Byte} (h : Taken s k op m t) (hgroup : levelOk op 5 = false)
    (h1 : op ≠ 0x01) (h2 : op ≠ 0x02) : uidDevice (msgTarget m) = t.form.device := by
  have htaken : t.form = s.form := (congrArg State.form (taken_takenPart h) :)
  obtain ⟨s1, -, read, rfl, -, status, -⟩ := h
  have hread := readRequest_memPart s k
  rw [read] at hread
  rw [requestStatus_ok_device status hgroup h1 h2, htaken]
  exact (congrArg (fun x => x.form.device) hread :)

/-- With no partition outside any plan, a new one of a unit of this device stands alone. -/
theorem detectOutside_alone {s : State} {p : Partition} (hout : s.quench.outside = []) (hd : uidDevice p.uid = s.form.device) :
    (detectOutside s p).quench.outside = [p] ∧ (detectOutside s p).vmp = s.vmp := by
  unfold detectOutside
  rw [if_neg (by simpa using hd), hout]
  refine ⟨?_, rfl⟩
  change s.quench.outside.filter _ ++ [p] = [p]
  rw [hout]
  rfl

/-- The partition that a fault outside any plan opens (R367). -/
def loneFault (s : State) (cause : Nat) (u : Uid) (retain : Option (Bool × Bool)) (requesters : List (BitVec 12 × Nat × BitVec 16 × Nat)) : Partition :=
  { uid := u, cause := cause, detect := now s, raised := now s, origin := 0, restored := none, missedBound := false,
    retainMemory := (retain.getD (retentionOf s u)).1, retainFabric := (retain.getD (retentionOf s u)).2, requesters := requesters,
    repeated := false, begun := false, act := none }

theorem detectFault_outside {s : State} {cause : Nat} {u : Uid} {retain : Option (Bool × Bool)} {requesters : List (BitVec 12 × Nat × BitVec 16 × Nat)}
    (hj : recoverableJob s = none) :
    detectFault s cause u retain requesters = detectOutside s (loneFault s cause u retain requesters) := by
  unfold detectFault
  rw [hj]
  rfl

/-- The answer to TOPO_READ where its entries fit (R353). -/
theorem serveTopoRead_fits {s : State} {k : Nat} {m : List Byte} (hlen : 16 * (s.form.dx * s.form.dy * s.form.dz) ≤ fieldN (msgBody m) 8 4)
    (hrange : rangeOk s isTier (fieldN (msgBody m) 0 8) (16 * (s.form.dx * s.form.dy * s.form.dz)) = true) : ∃ body, serveTopoRead k s m =
      respond (memWrite s (fieldN (msgBody m) 0 8) ((List.range (s.form.dx * s.form.dy * s.form.dz)).flatMap (topoEntry s))) k m 0x0000 body ∧
      body.take 3 = leBytes 1 s.form.dx ++ leBytes 1 s.form.dy ++ leBytes 1 s.form.dz ∧ body.length = 20 := by
  refine ⟨_, if_neg ?_, ?_, ?_⟩
  · simp only [hrange, Bool.not_true, Bool.or_false, decide_eq_true_eq, not_lt]
    exact hlen
  · rfl
  · simp [length_leBytes]

end Sys2Proof.Laws
end

section
namespace Sys2Proof

open Machine Laws

/-- Settles O28. A request that is taken reaches its command (`takeRequest_taken`); taking it changes neither the strike nor the timebase. -/
theorem errorAndReadRequests : Obligations.ErrorAndReadRequests := by
  unfold Obligations.ErrorAndReadRequests
  refine ⟨fun s t k m htaken hdest => ?errRead, fun s t k m hkept hclean htaken hl => ⟨_, congrArg Host.Outcome.next (takeRequest_taken htaken _), serveErrClear_sticky hkept hclean hl⟩,
    fun s t k m htaken hjob hout hready => ?recover, fun s t k m htaken => congrArg Host.Outcome.next (takeRequest_taken htaken _),
    fun s t k m htaken => ?timeRead, fun s t k m htaken hlen hrange => ?topoRead⟩
  case errRead =>
    refine congrArg Host.Outcome.next ((takeRequest_taken htaken _).trans ?_)
    unfold serveErrRead
    dsimp only
    rw [hdest, if_neg (by simp), if_pos rfl]
  case recover =>
    have hnow : now t = now s := (congrArg now (taken_takenPart htaken) :)
    have hbusy : ¬ (selfAndAncestors (uidKey (msgTarget m))).any (fun a => ownState t a == 0 || ownState t a == 4 || ownState t a == 6) = true := by
      rw [List.all_eq_true] at hready
      rw [List.any_eq_true]
      rintro ⟨a, ha, hstate⟩
      rw [beq_iff_eq.1 (hready a ha)] at hstate
      exact absurd hstate (by decide)
    have hseq := respondAccepted_seq t k m []
    obtain ⟨houtside, hvmp⟩ := detectOutside_alone (s := respondAccepted t k m []) (p := loneFault (respondAccepted t k m []) 0xFF (msgTarget m)
      (if bit (byteAt (msgBody m) 0) 7 then none else some (bit (byteAt (msgBody m) 0) 0, bit (byteAt (msgBody m) 0) 1))
      [(msgClient m, k, msgTag m, now t)])
      ((congrArg Quench.outside (respond_quench t k m 0x0001 [])).trans hout)
      ((device_of_taken htaken (by decide) (by decide) (by decide)).trans (congrArg (·.device) (respond_form t k m 0x0001 [])).symm)
    refine ⟨_, _, congrArg Host.Outcome.next ((takeRequest_taken htaken _).trans ((if_neg hbusy).trans
      (detectFault_outside ((recoverableJob_of_seq hseq).trans hjob)))), houtside, rfl, rfl, ?_, ?_⟩
    · change now (respondAccepted t k m []) = now s
      rw [now, hseq]
      exact hnow
    · rw [hvmp]
      simp [respondAccepted, holdRequest]
  case timeRead =>
    have hpart := taken_takenPart htaken
    have hseq : t.seq = s.seq := (congrArg State.seq hpart :)
    have htb : t.tb = s.tb := (congrArg State.tb hpart :)
    refine congrArg Host.Outcome.next ((takeRequest_taken htaken _).trans ?_)
    unfold serveTimeRead planStep holdWord tbStatus now heatOf
    rw [hseq, htb]
  case topoRead =>
    obtain ⟨body, served, htake, hbody⟩ := serveTopoRead_fits (k := k) hlen hrange
    exact ⟨_, body, congrArg Host.Outcome.next ((takeRequest_taken htaken _).trans served), rfl, htake, hbody⟩

end Sys2Proof
end

section
/-!
SUPPORT. A thermal sample (R422): the warnings it raises and what it leaves.
-/
namespace Sys2Proof.Laws

open Sys2Proof.Machine

theorem stickySet_events (s : State) (k : Nat) {b : Nat} (h : b < 64) : EventsOnly s (stickySet s k b) := .raise s k h

/-- A warning raises at most THERMAL of its die. -/
theorem warnDie_frame (old : Thermal) (new : List (BitVec 16)) (s : State) (i : Nat) :
    EventsOnly s (warnDie old new s i) ∧ (warnDie old new s i).mem = s.mem ∧ (warnDie old new s i).seq = s.seq := by
  unfold warnDie
  extract_lets w
  split
  · exact ⟨stickySet_events s _ (by decide), stickySet_mem .., stickySet_seq ..⟩
  · exact ⟨.refl s, rfl, rfl⟩

theorem sampleHardy_units (new : List (BitVec 16)) (s : State) (d : Nat) : (sampleHardy new s d).units = s.units := rfl

theorem warnDies_mem (old : Thermal) (new : List (BitVec 16)) (l : List Nat) (s : State) : (l.foldl (warnDie old new) s).mem = s.mem :=
  foldl_keep _ State.mem (fun t i => (warnDie_frame old new t i).2.1) l s

theorem warnDies_seq (old : Thermal) (new : List (BitVec 16)) (l : List Nat) (s : State) : (l.foldl (warnDie old new) s).seq = s.seq :=
  foldl_keep _ State.seq (fun t i => (warnDie_frame old new t i).2.2) l s

/-- Of the dies sampled, one that crosses its warning threshold has THERMAL set. -/
theorem warnDies_raise {old : Thermal} {new : List (BitVec 16)} {i : Nat} (hw : (dieThresholds i).warn < temp16 (new.getD i 0)) (hold : old.sampled = false) :
    ∀ {l : List Nat} (_ : i ∈ l) (s : State), stickyRaised (l.foldl (warnDie old new) s) (dieUnit i) 5
  | j :: l, hi, s => by
    rw [List.foldl_cons]
    rcases List.mem_cons.1 hi with rfl | hi
    · have hraised : stickyRaised (warnDie old new s i) (dieUnit i) 5 := by
        unfold warnDie
        rw [if_pos (by rw [hold]; simpa using hw)]
        exact stickyRaised_stickySet_any s _ (by decide)
      exact foldl_keepsRaised (fun t x => (warnDie_frame old new t x).1.keepsRaised) l _ _ _ hraised
    · exact warnDies_raise hw hold hi _

/-- A sample of all 116 dies is taken as it comes. -/
theorem sample_all (ts : List (BitVec 16)) (h : ts.length = 116) (d : Nat → BitVec 16) : (List.range 116).map (fun i => ts.getD i (d i)) = ts := by
  refine List.ext_getElem (by simp [h]) (fun i h1 h2 => ?_)
  rw [List.getElem_map, List.getElem_range, List.getD_eq_getElem?_getD, List.getElem?_eq_getElem h2]
  rfl

theorem getD_map_range {α : Type} (f : Nat → α) {n i : Nat} (h : i < n) (d : α) : ((List.range n).map f).getD i d = f i := by
  rw [List.getD_eq_getElem?_getD, List.getElem?_map, List.getElem?_range h]
  rfl

/-- The state once the dies' warnings are raised and Hardy has its temperatures (R180, R422). -/
def dieSampled (s : State) (new : List (BitVec 16)) : State := (List.range 80).foldl (sampleHardy new) ((List.range 116).foldl (warnDie s.therm new) s)

/-- What a sample that trips no die leaves: that of the dies, THERMAL of the inlet, and the CPC's registers (R422). -/
def sampled (s : State) (new : List (BitVec 16)) (inlet outlet : BitVec 16) : State :=
  let warm := decide (720 < temp16 inlet) && !(s.therm.sampled && decide (720 < temp16 s.therm.inlet))
  let s3 := if warm then stickySet (dieSampled s new) devKey 5 else dieSampled s new
  { s3 with therm := sampleTherm s new inlet outlet }

/-- The die over its trip threshold that a sample acts on. -/
def tripping (ts : List (BitVec 16)) : Option Nat := (List.range 116).find? (fun i => decide ((dieThresholds i).trip < temp16 (ts.getD i 0)))

section
variable {s : State} {ts : List (BitVec 16)} {inl out : BitVec 16} (hon : s.power.state = .on) (hlen : ts.length = 116)
include hon hlen

theorem exec_thermalSample_none (h : tripping ts = none) : exec (.thermalSample ts inl out) s = .next (sampled s ts inl out) := by
  have hexec : exec (.thermalSample ts inl out) s = execThermalSample ts inl out s := rfl
  rw [hexec, execThermalSample]
  unfold tripping at h
  rw [if_neg (by simp [hon])]
  dsimp only
  rw [sample_all ts hlen, h]
  rfl

theorem exec_thermalSample_some {i : Nat} (h : tripping ts = some i) : exec (.thermalSample ts inl out) s = .next (thermalTrip s i) := by
  have hexec : exec (.thermalSample ts inl out) s = execThermalSample ts inl out s := rfl
  rw [hexec, execThermalSample]
  unfold tripping at h
  rw [if_neg (by simp [hon])]
  dsimp only
  rw [sample_all ts hlen, h]

end

theorem tripping_none {ts : List (BitVec 16)} (h : ∀ i, i < 116 → temp16 (ts.getD i 0) ≤ (dieThresholds i).trip) : tripping ts = none := by
  refine List.find?_eq_none.2 (fun i hi => ?_)
  simpa using h i (List.mem_range.1 hi)

theorem tripping_some {ts : List (BitVec 16)} {i : Nat} (hi : i < 116) (h : (dieThresholds i).trip < temp16 (ts.getD i 0)) : ∃ j, tripping ts = some j := by
  refine Option.isSome_iff_exists.1 (List.find?_isSome.2 ⟨i, List.mem_range.2 hi, ?_⟩)
  simpa using h

theorem dieThresholds_anvil {d : Nat} (h : d < 80) : dieThresholds d = { warn := 1520, stopRestart := some (1760, 1600), trip := 1840 } := if_pos h

theorem dieSampled_raised (s : State) (ts : List (BitVec 16)) : KeepsRaised ((List.range 116).foldl (warnDie s.therm ts) s) (dieSampled s ts) :=
  .of_units (foldl_keep (sampleHardy ts) State.units (fun t d => sampleHardy_units ts t d) (List.range 80) _)

theorem dieSampled_frame (s : State) (ts : List (BitVec 16)) : (dieSampled s ts).mem = s.mem ∧ (dieSampled s ts).seq = s.seq :=
  ⟨(foldl_keep (sampleHardy ts) State.mem (fun _ _ => rfl) (List.range 80) _).trans (warnDies_mem ..),
    (foldl_keep (sampleHardy ts) State.seq (fun _ _ => rfl) (List.range 80) _).trans (warnDies_seq ..)⟩

theorem sampled_raised (s : State) (ts : List (BitVec 16)) (inl out : BitVec 16) : KeepsRaised (dieSampled s ts) (sampled s ts inl out) := by
  unfold sampled
  extract_lets warm s3
  have inlet : KeepsRaised (dieSampled s ts) s3 := by
    unfold s3
    split
    · exact (stickySet_events _ devKey (by decide)).keepsRaised
    · exact .refl _
  refine inlet.trans ?_
  exact .of_units rfl

theorem sampled_frame (s : State) (ts : List (BitVec 16)) (inl out : BitVec 16) :
    (sampled s ts inl out).mem = s.mem ∧ (sampled s ts inl out).seq = s.seq := by
  obtain ⟨hmem, hseq⟩ := dieSampled_frame s ts
  unfold sampled
  extract_lets warm s3
  have h3 : s3.mem = (dieSampled s ts).mem ∧ s3.seq = (dieSampled s ts).seq := by
    unfold s3
    split
    · exact ⟨stickySet_mem .., stickySet_seq ..⟩
    · exact ⟨rfl, rfl⟩
  exact ⟨h3.1.trans hmem, h3.2.trans hseq⟩

theorem sampled_stopped (s : State) (ts : List (BitVec 16)) (inl out : BitVec 16) {d : Nat} (hd : d < 80) :
    (sampled s ts inl out).therm.stopped.getD d false =
      (decide (1760 < temp16 (ts.getD d 0)) || (s.therm.stopped.getD d false && decide (1600 < temp16 (ts.getD d 0)))) := by
  have hread : (sampled s ts inl out).therm.stopped.getD d false = stopAfter d (s.therm.stopped.getD d false) (temp16 (ts.getD d 0)) :=
    getD_map_range (fun i => stopAfter i (s.therm.stopped.getD i false) (temp16 (ts.getD i 0))) (by omega) false
  rw [hread, stopAfter, dieThresholds_anvil hd]

theorem sampled_pendingRate {s : State} {ts : List (BitVec 16)} {inl out : BitVec 16} (h : ∃ d, d < 80 ∧ 1600 < temp16 (ts.getD d 0)) :
    (sampled s ts inl out).therm.pendingRate = 1 := by
  obtain ⟨d, hd, ht⟩ := h
  refine if_pos ?_
  rw [List.any_eq_true]
  exact ⟨_, List.mem_map_of_mem (List.mem_range.2 hd), by simpa using ht⟩

theorem execMetricReport_due {s : State} {p : PowerSample} (hrun : s.boot.phase = .running) (hdef : s.tb.strikeDefined = true)
    (hdue : now s % 4194304 = 0) (hlast : s.mgmt.lastReport = none) :
    ∃ t, exec (.metricReport p) s = .next t ∧ t.mgmt.lastReport = some (now s / 4096, s.therm.temps) ∧ t.tb.maxOffset = 0 ∧
      s.out.length < t.out.length ∧ t.therm.vin = p.vin ∧ t.mem = s.mem ∧ t.units = s.units := by
  have hboundary : isBoundary (now s) = true := by simp [isBoundary]; omega
  have hheat : heatOf (now s) % 1024 = 0 := by unfold heatOf; omega
  refine ⟨_, congrArg Host.Outcome.next (if_pos ?_), rfl, rfl, ?_, rfl, ?_, ?_⟩
  · simp [hrun, hdef, hboundary, hheat, hlast]
  all_goals
    dsimp only
    split
  all_goals simp [emitOut]

end Sys2Proof.Laws
end

section
namespace Sys2Proof

open Machine Laws

/-- Settles O57. -/
theorem thermalAndTelemetry : Obligations.ThermalAndTelemetry := by
  unfold Obligations.ThermalAndTelemetry
  refine ⟨fun s ts inl out hon hlen hcool => ⟨_, exec_thermalSample_none hon hlen (tripping_none hcool), rfl, rfl, rfl, fun d hd => sampled_stopped s ts inl out hd,
      fun d hd hwarm hfirst => ?warned, sampled_pendingRate, (sampled_frame ..).1, (sampled_frame ..).2⟩,
    fun s ts inl out i hon hlen hi hhot => ?tripped, fun s hrate hcool => ?full, fun s hcool => ?wait,
    fun s p hrun hdef hdue hlast => execMetricReport_due hrun hdef hdue hlast, fun s who a v hc => congrArg Host.Outcome.next (if_pos hc), fun s a v hc => ?refused⟩
  case warned =>
    have hunit : dieUnit d = dieKey d := if_pos hd
    rw [← hunit]
    exact (dieSampled_raised s ts).trans (sampled_raised s ts inl out) _ _ (warnDies_raise (by rwa [dieThresholds_anvil hd]) hfirst (List.mem_range.2 (by omega)) s)
  case tripped =>
    obtain ⟨j, hj⟩ := tripping_some hi hhot
    exact ⟨_, exec_thermalSample_some hon hlen hj, rfl, rfl, rfl⟩
  case full => exact congrArg Host.Outcome.next (if_pos (by simp [hrate]; omega))
  case wait => exact congrArg Host.Outcome.next (if_neg (by simp; omega))
  case refused =>
    refine congrArg Host.Outcome.next ((if_neg (by simp [hc])).trans ?_)
    simp [accessError]

end Sys2Proof
end

section
/-!
SUPPORT. The optical bypasses (R313), and what memory training leaves of the stacks and the columns (R291, R409).
-/
namespace Sys2Proof.Laws

open Sys2Proof.Machine

/-! ### Ports -/

theorem getD_listModify_ne {α : Type} {l : List α} {i j : Nat} (h : i ≠ j) (f : α → α) (d : α) : (listModify l i f).getD j d = l.getD j d := by
  unfold listModify
  split
  · rw [List.getD_eq_getElem?_getD, List.getElem?_set_ne h, List.getD_eq_getElem?_getD]
  · rfl

theorem portGet_portMod_ne {s : State} {p q : Nat} (h : p ≠ q) (f : WeldPort → WeldPort) : portGet (portMod s p f) q = portGet s q :=
  getD_listModify_ne h f _

/-! ### Bypasses -/

/-- The bypass of a port in the state asked. -/
def setBypass (closed : Bool) (s : State) (p : Nat) : State := portMod s p (fun w => { w with bypassClosed := closed })

theorem closeBypasses_eq (s : State) : closeBypasses s = emitOut ((List.range 6).foldl (setBypass true) s) (.bypass true) := rfl

theorem openBypasses_eq (s : State) : openBypasses s = emitOut ((List.range 6).foldl (setBypass false) s) (.bypass false) := rfl

theorem setXPair_eq (s : State) (isOpen : Bool) : setXPair s isOpen =
    { [0, 1].foldl (setBypass (!isOpen)) s with boot := { ([0, 1].foldl (setBypass (!isOpen)) s).boot with xPairOpen := isOpen } } := rfl

theorem setBypasses_length (closed : Bool) (l : List Nat) (s : State) : (l.foldl (setBypass closed) s).links.ports.length = s.links.ports.length :=
  foldl_keep _ (fun t => t.links.ports.length) (fun t p => ports_length_portMod t p _) l s

theorem setBypasses_out (closed : Bool) (l : List Nat) (s : State) : (l.foldl (setBypass closed) s).out = s.out :=
  foldl_keep (setBypass closed) State.out (fun _ _ => rfl) l s

theorem portGet_setBypasses_of_not_mem {closed : Bool} {p : Nat} : ∀ {l : List Nat} (_ : p ∉ l) (s : State), portGet (l.foldl (setBypass closed) s) p = portGet s p
  | [], _, _ => rfl
  | q :: l, h, s => by
    obtain ⟨hq, hl⟩ := not_or.1 (mt List.mem_cons.2 h)
    rw [List.foldl_cons, portGet_setBypasses_of_not_mem hl]
    exact portGet_portMod_ne (Ne.symm hq) _

/-- The bypasses of the ports listed stand as asked. -/
theorem bypass_setBypasses {closed : Bool} {p : Nat} : ∀ {l : List Nat} (_ : p ∈ l) {s : State} (_ : p < s.links.ports.length),
    (portGet (l.foldl (setBypass closed) s) p).bypassClosed = closed
  | q :: l, h, s, hp => by
    rw [List.foldl_cons]
    by_cases hl : p ∈ l
    · exact bypass_setBypasses hl (by rw [setBypass, ports_length_portMod]; exact hp)
    · obtain rfl : p = q := (List.mem_cons.1 h).resolve_right hl
      rw [portGet_setBypasses_of_not_mem hl, setBypass, portGet_portMod_self hp]

theorem closeBypasses_closed {s : State} (h : s.links.ports.length = 8) {p : Nat} (hp : p < 6) : (portGet (closeBypasses s) p).bypassClosed = true :=
  bypass_setBypasses (closed := true) (List.mem_range.2 hp) (by omega)

theorem openBypasses_open {s : State} (h : s.links.ports.length = 8) {p : Nat} (hp : p < 6) : (portGet (openBypasses s) p).bypassClosed = false :=
  bypass_setBypasses (closed := false) (List.mem_range.2 hp) (by omega)

theorem closeBypasses_out (s : State) : (closeBypasses s).out = s.out ++ [.bypass true] := by
  rw [closeBypasses_eq, emitOut, setBypasses_out]

theorem openBypasses_out (s : State) : (openBypasses s).out = s.out ++ [.bypass false] := by
  rw [openBypasses_eq, emitOut, setBypasses_out]

/-! ### Training of the memories -/

/-- What training leaves of a stack's controller and its column. -/
def trainStack (ok : BitVec 16) (t : State) (c : Nat) : State :=
  let t1 := checkerMod t c (fun k => { k with state := trainedState (ok.getLsbD c) })
  if ok.getLsbD c then t1 else flagsMod t1 (columnKey c) (fun f => { f with offline := true })

/-- What training leaves of a controller of the far tier. -/
def trainFar (gib : Nat) (ms : List ModuleInfo) (t : State) (c : Nat) : State := checkerMod t (16 + c) (fun k =>
  { k with state := if gib ≠ 0 then .ready else trainedState (ms.getD c { ecc := false, gib := 0, mts := 0, trained := false }).trained })

/-- The state once every controller is trained. -/
def trained (s : State) (ok : BitVec 16) (ms : List ModuleInfo) : State :=
  (List.range 16).foldl (trainFar (farCapacity ms) ms) ((List.range 16).foldl (trainStack ok) { s with form := { s.form with trained := true, farGib := farCapacity ms } })

theorem exec_memoryTrainingDone {s : State} (hrun : s.boot.phase = .running) (ht : s.form.trained = false) (ok : BitVec 16) (ms : List ModuleInfo) :
    ∃ tested : List Nat, exec (.memoryTrainingDone ok ms) s = .next (cacheOverride (tested.foldl powerUpTest (trained s ok ms))) :=
  ⟨_, congrArg Host.Outcome.next (if_pos (by simp [hrun, ht]))⟩

/-- The tests and the override that follow training write only the log and the override. -/
theorem trainingEnd_frame (tested : List Nat) (s : State) : let t := cacheOverride (tested.foldl powerUpTest s)
    t.mem = s.mem ∧ t.units = s.units ∧ t.form = s.form := by
  have hmem : (tested.foldl powerUpTest s).mem = s.mem := foldl_keep powerUpTest State.mem (fun _ _ => rfl) tested s
  have hunits : (tested.foldl powerUpTest s).units = s.units := foldl_keep powerUpTest State.units (fun _ _ => rfl) tested s
  have hform : (tested.foldl powerUpTest s).form = s.form := foldl_keep powerUpTest State.form (fun _ _ => rfl) tested s
  have override : ∀ t : State, (cacheOverride t).mem = t.mem ∧ (cacheOverride t).units = t.units ∧ (cacheOverride t).form = t.form := by
    intro t
    unfold cacheOverride
    dsimp only
    split <;> exact ⟨rfl, rfl, rfl⟩
  obtain ⟨omem, ounits, oform⟩ := override (tested.foldl powerUpTest s)
  exact ⟨omem.trans hmem, ounits.trans hunits, oform.trans hform⟩

theorem trained_form (s : State) (ok : BitVec 16) (ms : List ModuleInfo) :
    (trained s ok ms).form = { s.form with trained := true, farGib := farCapacity ms } := by
  refine (foldl_keep (trainFar (farCapacity ms) ms) State.form (fun _ _ => rfl) (List.range 16) _).trans ?_
  refine (foldl_keep (trainStack ok) State.form (fun t c => ?_) (List.range 16) _).trans rfl
  unfold trainStack
  dsimp only
  split <;> rfl

/-- A trained stack's controller is ready or failed, never off as at reset, so its state is read back. -/
theorem checkerGet_trainStack {c : Nat} (hc : c < 16) (ok : BitVec 16) (t : State) (j : Nat) :
    checkerGet (trainStack ok t c) j = if j = c then { checkerGet t c with state := trainedState (ok.getLsbD c) } else checkerGet t j := by
  have hread : ∀ u, checkerGet (checkerMod u c (fun k => { k with state := trainedState (ok.getLsbD c) })) j =
      if j = c then { checkerGet u c with state := trainedState (ok.getLsbD c) } else checkerGet u j := by
    intro u
    split
    · next e =>
      subst e
      refine (sparseGet_sparseSet_of_ne (fun hd => ?_)).trans (if_pos rfl)
      have hstate : trainedState (ok.getLsbD j) = (checkerDefault j).state := congrArg Checker.state hd
      rw [checkerDefault, if_neg (by omega)] at hstate
      unfold trainedState at hstate
      split at hstate <;> cases hstate
    · next e => exact sparseGet_sparseSet_ne e
  unfold trainStack
  dsimp only
  split
  · exact hread t
  · exact hread t

theorem state_trainStacks {ok : BitVec 16} {c : Nat} : ∀ {l : List Nat} (_ : ∀ x ∈ l, x < 16) (_ : c ∈ l) (s : State),
    (checkerGet (l.foldl (trainStack ok) s) c).state = trainedState (ok.getLsbD c)
  | x :: l, hl, hc, s => by
    rw [List.foldl_cons]
    by_cases h : c ∈ l
    · exact state_trainStacks (fun y hy => hl y (List.mem_cons_of_mem x hy)) h _
    · obtain rfl : c = x := (List.mem_cons.1 hc).resolve_right h
      have hkeep : checkerGet (l.foldl (trainStack ok) (trainStack ok s c)) c = checkerGet (trainStack ok s c) c :=
        foldl_keep_mem (fun t => checkerGet t c) (fun y hy t => by
          have hne : c ≠ y := fun e => h (e ▸ hy)
          rw [checkerGet_trainStack (hl y (List.mem_cons_of_mem c hy)), if_neg hne]) _
      rw [hkeep, checkerGet_trainStack (hl c List.mem_cons_self), if_pos rfl]

/-- A stack that failed puts its column OFFLINE, and no other stack brings it back. -/
theorem offline_trainStacks {ok : BitVec 16} {k : Nat} : ∀ {l : List Nat} (s : State),
    (unitGet s k).flags.offline = true ∨ (∃ c ∈ l, ok.getLsbD c = false ∧ columnKey c = k) → (unitGet (l.foldl (trainStack ok) s) k).flags.offline = true
  | [], s, h => h.resolve_right (by rintro ⟨c, hc, -⟩; cases hc)
  | x :: l, s, h => by
    rw [List.foldl_cons]
    refine offline_trainStacks _ ?_
    have hstep : (unitGet s k).flags.offline = true ∨ (ok.getLsbD x = false ∧ columnKey x = k) → (unitGet (trainStack ok s x) k).flags.offline = true := by
      intro hk
      unfold trainStack
      dsimp only
      split
      · next hx =>
        refine hk.resolve_right (fun hf => ?_)
        rw [hf.1] at hx
        cases hx
      · by_cases e : k = columnKey x
        · subst e
          rw [flagsMod, unitGet_unitMod_of_ne_default]
          intro hd
          have hoff := congrArg (fun u : UnitState => u.flags.offline) hd
          unfold pageDefault at hoff
          split at hoff <;> cases hoff
        · rw [flagsMod, unitGet_unitMod_ne e]
          exact hk.resolve_right (fun hf => e hf.2.symm)
    rcases h with h | ⟨c, hc, hok, hkey⟩
    · exact .inl (hstep (.inl h))
    · rcases List.mem_cons.1 hc with rfl | hc
      · exact .inl (hstep (.inr ⟨hok, hkey⟩))
      · exact .inr ⟨c, hc, hok, hkey⟩

theorem mem_selfAndAncestors_self (k : Nat) : k ∈ selfAndAncestors k := by
  rw [selfAndAncestors_eq]
  simp [chainUp]

theorem checkerGet_trained {s : State} {ok : BitVec 16} {ms : List ModuleInfo} {c : Nat} (hc : c < 16) :
    (checkerGet (trained s ok ms) c).state = trainedState (ok.getLsbD c) := by
  have hfar : checkerGet (trained s ok ms) c = checkerGet ((List.range 16).foldl (trainStack ok) _) c :=
    foldl_keep (trainFar (farCapacity ms) ms) (fun t => checkerGet t c) (fun t y => sparseGet_sparseSet_ne (by omega)) (List.range 16) _
  rw [hfar]
  exact state_trainStacks (fun x hx => List.mem_range.1 hx) (List.mem_range.2 hc) _

theorem isOffline_trained {s : State} {ok : BitVec 16} {ms : List ModuleInfo} {c : Nat} (hc : c < 16) (hok : ok.getLsbD c = false) :
    isOffline (trained s ok ms) (columnKey c) = true := by
  have hfar : (trained s ok ms).units = ((List.range 16).foldl (trainStack ok) { s with form := { s.form with trained := true, farGib := farCapacity ms } }).units :=
    foldl_keep (trainFar (farCapacity ms) ms) State.units (fun _ _ => rfl) (List.range 16) _
  refine List.any_eq_true.2 ⟨columnKey c, mem_selfAndAncestors_self _, ?_⟩
  rw [unitGet_congr (congrArg Units.pages hfar)]
  exact offline_trainStacks _ (.inr ⟨c, List.mem_range.2 hc, hok, rfl⟩)

theorem farCapacity_ne_zero {m : ModuleInfo} {ms : List ModuleInfo} (h : farCapacity (m :: ms) ≠ 0) : ms.length = 15 ∧ m.gib ∈ [64, 128, 256] ∧
    farCapacity (m :: ms) = 16 * m.gib ∧ ∀ x ∈ m :: ms, x.ecc = true ∧ x.gib = m.gib ∧ x.mts = 8800 ∧ x.trained = true := by
  unfold farCapacity at h ⊢
  dsimp only at h ⊢
  split at h
  · next hall =>
    rw [if_pos hall]
    simp only [Bool.and_eq_true, decide_eq_true_eq, List.all_eq_true, Bool.or_eq_true, beq_iff_eq, List.length_cons] at hall
    obtain ⟨⟨hlen, heach⟩, hgib⟩ := hall
    refine ⟨by omega, ?_, rfl, fun x hx => ?_⟩
    · rcases hgib with (hg | hg) | hg <;> simp [hg]
    · obtain ⟨⟨⟨hecc, hg⟩, hmts⟩, htrained⟩ := heach x hx
      exact ⟨hecc, hg, hmts, htrained⟩
  · exact absurd rfl h

end Sys2Proof.Laws
end

section
namespace Sys2Proof

open Machine Laws

/-- Settles O46. Training is a pass over the stacks and one over the far tier, each controller's state read back; the bypasses are set port by port. -/
theorem trainingAndBypass : Obligations.TrainingAndBypass := by
  unfold Obligations.TrainingAndBypass
  refine ⟨fun s ok ms hrun ht => ?trained, fun m ms h => farCapacity_ne_zero h, fun s c hports hc => ?closes, fun s c hc => ?notClosed,
    fun s hports hrun hident hlisted => ?opens, fun s h => ?notOpened⟩
  case trained =>
    obtain ⟨tested, hexec⟩ := exec_memoryTrainingDone hrun ht ok ms
    obtain ⟨hmem, hunits, hform⟩ := trainingEnd_frame tested (trained s ok ms)
    rw [trained_form] at hform
    refine ⟨_, hexec, congrArg Formation.trained hform, congrArg Formation.farGib hform, fun c hc => ⟨?_, fun hok => ?_⟩⟩
    · rw [checkerGet, hmem]
      exact checkerGet_trained hc
    · unfold isOffline
      simp only [unitGet_congr (congrArg Units.pages hunits)]
      exact isOffline_trained hc hok
  case closes =>
    exact ⟨_, congrArg Host.Outcome.next (if_pos hc), fun p hp => closeBypasses_closed hports hp, closeBypasses_out s⟩
  case notClosed => exact congrArg Host.Outcome.next (if_neg (by simp [hc]))
  case opens =>
    exact ⟨_, congrArg Host.Outcome.next (if_pos (by simp [hrun, hident, hlisted])), fun p hp => openBypasses_open hports hp, openBypasses_out s⟩
  case notOpened =>
    refine congrArg Host.Outcome.next (if_neg ?_)
    rcases h with h | h <;> simp [h]

end Sys2Proof
end

section
/-!
SUPPORT. What the start of Virian and recovery boot leave of power, identity and boot (R389, R392, R402).
-/
namespace Sys2Proof.Laws

open Sys2Proof.Machine

/-! ### The start of Virian -/

/-- What the start of Virian on an image leaves as its first step set it. -/
def bootFacts (s : State) : Power × Digest × BootPhase × List Byte × List Byte :=
  (s.power, s.ident.digest, s.boot.phase, s.boot.running, s.boot.flashImage)

theorem bootFacts_of_eq {s t : State} (hp : t.power = s.power) (hi : t.ident.digest = s.ident.digest) (hb : t.boot = s.boot) : bootFacts t = bootFacts s := by
  simp only [bootFacts, hp, hi, hb]

theorem bootFacts_noteEpoch (s : State) : bootFacts (noteEpoch s) = bootFacts s := by
  unfold noteEpoch
  dsimp only
  split
  · split <;> rfl
  · rfl

theorem bootFacts_loadUnitCfg (s : State) (k : Nat) : bootFacts (loadUnitCfg s k) = bootFacts s := by
  unfold loadUnitCfg
  extract_lets c prev opt lease
  exact (bootFacts_noteEpoch _).trans rfl

theorem bootFacts_loadFlashSets (s : State) (k : Nat) : bootFacts (loadFlashSets s k) = bootFacts s := by
  unfold loadFlashSets
  extract_lets h good kept s1
  have hs1 : bootFacts s1 = bootFacts s := by
    unfold s1
    refine foldl_keep _ bootFacts (fun t c => ?_) _ s
    rfl
  exact (bootFacts_loadUnitCfg _ k).trans hs1

theorem bootFacts_stickySet (s : State) (k b : Nat) : bootFacts (stickySet s k b) = bootFacts s :=
  bootFacts_of_eq (stickySet_power ..) (congrArg Identity.digest (stickySet_ident ..)) (stickySet_boot ..)

theorem bootFacts_fenceUnit (s : State) (k : Nat) : bootFacts (fenceUnit s k) = bootFacts s := (bootFacts_stickySet _ k 10).trans rfl

theorem bootFacts_closeBypasses (s : State) : bootFacts (closeBypasses s) = bootFacts s :=
  (foldl_keep (setBypass true) bootFacts (fun _ _ => rfl) (List.range 6) s : bootFacts ((List.range 6).foldl (setBypass true) s) = bootFacts s)

theorem bootFacts_adoptMap (s : State) (m : List Byte) : bootFacts (adoptMap s m) = bootFacts s := by
  unfold adoptMap
  extract_lets d me form1 boot1 s1
  have hs1 : bootFacts s1 = bootFacts s := rfl
  split
  · exact hs1
  · exact ((bootFacts_closeBypasses _).trans (bootFacts_fenceUnit _ _)).trans hs1

theorem bootFacts_reinstallRemaps (s : State) : bootFacts (reinstallRemaps s) = bootFacts s := by
  unfold reinstallRemaps
  refine foldl_keep _ bootFacts (fun t r => ?_) _ s
  split <;> rfl

theorem bootFacts_repairRows (s : State) : bootFacts (repairRows s) = bootFacts s := by
  unfold repairRows
  refine (foldl_keep _ bootFacts (fun t x => ?_) _ _).trans rfl
  rfl

/-- Virian runs on its image; power, identity and the image in flash are as they were. -/
theorem bootFacts_startVirian (s : State) (img : List Byte) :
    bootFacts (startVirian s img) = (s.power, s.ident.digest, .running, img, s.boot.flashImage) := by
  unfold startVirian
  extract_lets boot1 s1 s2 s3 s4 s5 s6 s7 s8
  have h1 : bootFacts s1 = (s.power, s.ident.digest, .running, img, s.boot.flashImage) := rfl
  have h2 : bootFacts s2 = bootFacts s1 := by
    unfold s2
    split
    · exact bootFacts_adoptMap ..
    · rfl
  have h3 : bootFacts s3 = bootFacts s2 := foldl_keep _ bootFacts bootFacts_loadFlashSets _ s2
  have h5 : bootFacts s5 = bootFacts s3 := rfl
  have h6 : bootFacts s6 = bootFacts s5 := (bootFacts_repairRows _).trans (bootFacts_reinstallRemaps _)
  have h7 : bootFacts s7 = bootFacts s6 := foldl_keep powerUpTest bootFacts (fun _ _ => rfl) [32, 33, 34, 35] s6
  have h8 : bootFacts s8 = bootFacts s7 := foldl_keep (fun t c => checkerMod t c (fun k => { k with state := .training })) bootFacts
    (fun _ _ => rfl) (List.range 32) s7
  have hstarted : bootFacts s8 = (s.power, s.ident.digest, .running, img, s.boot.flashImage) := by rw [h8, h7, h6, h5, h3, h2, h1]
  split
  · exact (bootFacts_closeBypasses _).trans ((bootFacts_fenceUnit _ _).trans ((bootFacts_stickySet ..).trans hstarted))
  · exact hstarted

/-! ### Boot and recovery boot -/

/-- Of the state the boot's checks of an image read the SVN floor alone. -/
theorem imgFailedStep_congr {s t : State} (h : t.boot.svnFloor = s.boot.svnFloor) (img : List Byte) (ok : Bool) :
    imgFailedStep t img ok = imgFailedStep s img ok := by
  unfold imgFailedStep
  rw [h]

theorem enterRecovery_facts (s : State) (k : Nat) : (enterRecovery s k).power = s.power ∧ (enterRecovery s k).ident = s.ident ∧
    (enterRecovery s k).boot.phase = .recovery ∧ (enterRecovery s k).boot.failedStep = k := ⟨rfl, rfl, rfl, rfl⟩

/-- The identity as step 1 of the boot ROM leaves it, and its measurements (R389, R395, R400). -/
def identified (s : State) (key : List Byte) : State :=
  let failed := match Config.chainVerify s.boot.chain with
    | some (k, _) => k != key
    | none => true
  let s1 := { s with power := { s.power with state := .on, powerGood := true }
                     ident := { s.ident with key := key, digest := sha384 key, failed := failed } }
  let m1 := measure s1 1 Config.romDigest
  if m1.boot.ownerRecord.isEmpty then m1 else measure m1 4 (sha384 m1.boot.ownerRecord)

theorem identified_facts (s : State) (key : List Byte) : (identified s key).power.state = .on ∧ (identified s key).ident.digest = sha384 key ∧
    (identified s key).boot = s.boot := by
  unfold identified
  extract_lets failed power1 ident1 s1 m1
  split <;> exact ⟨rfl, rfl, rfl⟩

/-- The state after boot: recovery boot at the step that failed, or Virian on the image in flash. -/
def booted (s : State) : Option Nat → State
  | some k => enterRecovery s k
  | none => startVirian s s.boot.flashImage

theorem exec_powerGood {s : State} (h : s.power.state = .sequencing) (key : List Byte) (ok : Bool) : exec (.powerGood key ok) s =
    .next (booted (identified s key) (imgFailedStep s s.boot.flashImage ok)) := by
  have hexec : exec (.powerGood key ok) s = execPowerGood key ok s := rfl
  obtain ⟨-, -, hboot⟩ := identified_facts s key
  have hstep : imgFailedStep (identified s key) (identified s key).boot.flashImage ok = imgFailedStep s s.boot.flashImage ok := by
    rw [imgFailedStep_congr (congrArg Boot.svnFloor hboot), hboot]
  rw [hexec, execPowerGood, if_pos (by simp [h]), ← hstep]
  rfl

theorem exec_recoveryImageReceive_whole {s : State} {img : List Byte} (hphase : s.boot.phase = .recovery) (hsource : s.boot.source = none)
    (harriving : s.boot.arriving = []) (hwhole : imageWhole img = true) : exec (.recoveryImageReceive .managementPort img) s = .next (takeImage s img) := by
  have hne : img.isEmpty = false := by
    cases img with
    | nil => exact absurd hwhole (by decide)
    | cons b bs => rfl
  refine congrArg Host.Outcome.next ((if_pos ?_).trans ?_)
  · simp [hphase, hsource, hne]
  · rw [harriving]
    exact if_pos hwhole

/-- The state in which a whole image has closed the X pair. -/
def imageTaken (s : State) : State := setXPair { s with boot := { s.boot with source := none, arriving := [] } } false

/-- The state after an image has arrived: as it was without it, or Virian on the image, which is now in flash. -/
def imageBooted (s : State) (img : List Byte) : Option Nat → State
  | some _ => imageTaken s
  | none => startVirian { imageTaken s with boot := { (imageTaken s).boot with flashImage := img } } img

theorem takeImage_eq (s : State) (img : List Byte) : takeImage s img =
    imageBooted s (img.take (256 + imgBodyBytes img)) (imgFailedStep s (img.take (256 + imgBodyBytes img)) true) := by
  have hstep : imgFailedStep (imageTaken s) (img.take (256 + imgBodyBytes img)) true = imgFailedStep s (img.take (256 + imgBodyBytes img)) true :=
    imgFailedStep_congr rfl ..
  rw [← hstep]
  rfl

theorem setXPair_ports {s : State} (h : s.links.ports.length = 8) (isOpen : Bool) {p : Nat} :
    (p < 2 → (portGet (setXPair s isOpen) p).bypassClosed = !isOpen) ∧ (2 ≤ p → portGet (setXPair s isOpen) p = portGet s p) := by
  refine ⟨fun hp => ?_, fun hp => ?_⟩
  · exact bypass_setBypasses (closed := !isOpen) (l := [0, 1]) (by simp; omega) (by omega)
  · exact portGet_setBypasses_of_not_mem (closed := !isOpen) (l := [0, 1]) (by simp; omega) s

end Sys2Proof.Laws
end

section
namespace Sys2Proof

open Machine Laws

/-- Settles O45. Boot ends in `startVirian` or in recovery boot; what either leaves of power, identity and boot is said once, above. -/
theorem powerAndBoot : Obligations.PowerAndBoot := by
  unfold Obligations.PowerAndBoot
  refine ⟨fun s h => ⟨_, congrArg Host.Outcome.next (if_pos (by simp [h])), rfl, rfl, rfl, rfl⟩, fun s => congrArg Host.Outcome.next (if_neg (by simp)),
    fun s k h => ?failure, fun s h hn => congrArg Host.Outcome.next (if_pos (by simp [h, hn])), fun s h => ?brownout, fun s key ok h => ?boot,
    fun s img hphase hsource harriving hwhole => ?image, fun s src part hphase hne hsource hpart => ?part, fun s src other part hsource hne => ?other,
    fun s h => congrArg Host.Outcome.next (if_pos (by simp [h])), fun s hphase hsource hports => ?xpair⟩
  case failure =>
    by_cases ha : s.power.attempts < 2
    · refine ⟨_, congrArg Host.Outcome.next ((if_pos (by simp [h])).trans (if_neg (by omega))), rfl, ?_⟩
      rw [if_pos ha]
      exact h
    · refine ⟨_, congrArg Host.Outcome.next ((if_pos (by simp [h])).trans (if_pos (by omega))), rfl, ?_⟩
      rw [if_neg ha]
      rfl
  case brownout =>
    refine ⟨_, congrArg Host.Outcome.next (if_neg (by simp [h])), rfl, rfl, rfl, rfl, rfl, rfl, rfl, rfl, rfl, rfl, fun p hp => ?_⟩
    exact closeBypasses_closed (s := powerLost s .absent) rfl hp
  case boot =>
    obtain ⟨hpower, hdigest, hboot⟩ := identified_facts s key
    refine ⟨_, exec_powerGood h key ok, ?_⟩
    cases imgFailedStep s s.boot.flashImage ok with
    | some k =>
      obtain ⟨rpower, rident, rphase, rstep⟩ := enterRecovery_facts (identified s key) k
      exact ⟨(congrArg Power.state rpower).trans hpower, (congrArg Identity.digest rident).trans hdigest, rphase, rstep⟩
    | none =>
      have hfacts := bootFacts_startVirian (identified s key) (identified s key).boot.flashImage
      simp only [bootFacts, Prod.mk.injEq] at hfacts
      obtain ⟨vpower, vdigest, vphase, vrunning, -⟩ := hfacts
      exact ⟨(congrArg Power.state vpower).trans hpower, vdigest.trans hdigest, vphase, vrunning.trans (congrArg Boot.flashImage hboot)⟩
  case image =>
    intro i
    refine ⟨_, exec_recoveryImageReceive_whole hphase hsource harriving hwhole, ?_⟩
    rw [takeImage_eq]
    cases imgFailedStep s i true with
    | some k => exact ⟨hphase, rfl, rfl⟩
    | none =>
      have hfacts := bootFacts_startVirian { imageTaken s with boot := { (imageTaken s).boot with flashImage := i } } i
      simp only [bootFacts, Prod.mk.injEq] at hfacts
      obtain ⟨-, -, vphase, vrunning, vflash⟩ := hfacts
      exact ⟨vphase, vflash, vrunning⟩
  case part =>
    refine congrArg Host.Outcome.next ((if_pos ?_).trans (if_neg (by simp [hpart])))
    cases src <;> simp [hphase, hne, hsource.1, hsource.2]
  case other => exact congrArg Host.Outcome.next (if_neg (by simp [hsource, Ne.symm hne]))
  case xpair =>
    refine ⟨_, congrArg Host.Outcome.next (if_pos (by simp [hphase, hsource])), rfl, ?_, ?_, fun p hp => (setXPair_ports hports _).2 hp⟩
    · rw [(setXPair_ports hports _).1 (by omega), Bool.not_not]
    · rw [(setXPair_ports hports _).1 (by omega), Bool.not_not]

end Sys2Proof
end

section
/-!
SUPPORT. How a control message passes on (R323), and the hold that a fault opens (R366, R367, R369).
-/
namespace Sys2Proof.Laws

open Sys2Proof.Machine

/-! ### Control messages (R323) -/

/-- The state with the heat of the sender's latest traffic. -/
def heardFrom (s : State) (src : Nat) : State := { s with links := { s.links with lastTraffic := sparseSet 0 src (heatOf (now s)) s.links.lastTraffic } }

section
variable {s : State} {p : Nat} {m : CtlMsg} (hup : portUp s p = true) (hphase : s.boot.phase ≠ .recovery)
include hup hphase

theorem controlMessage_here (hdst : m.dst = s.form.device) (h1 : 1 ≤ m.type) (h7 : m.type ≤ 7) :
    exec (.controlMessageReceive p m) s = .next (hearMsg (heardFrom s m.src) p m) :=
  congrArg Host.Outcome.next ((if_neg (by simp [hup])).trans <| (if_neg (by simp [hphase])).trans <| (if_pos (.inr hdst)).trans <|
    if_pos (by simp [knownType, h1, h7]))

theorem controlMessage_dropped (hdst : m.dst ≠ s.form.device) (hall : m.dst ≠ 0xFFFF) (httl : m.ttl ≤ 1) :
    exec (.controlMessageReceive p m) s = .next (count (heardFrom s m.src) devKey 23 1) :=
  congrArg Host.Outcome.next ((if_neg (by simp [hup])).trans <| (if_neg (by simp [hphase])).trans <| (if_neg (not_or.2 ⟨hall, hdst⟩)).trans <|
    if_pos (by simp [httl]))

theorem controlMessage_forwarded (hdst : m.dst ≠ s.form.device) (hall : m.dst ≠ 0xFFFF) (httl : 2 ≤ m.ttl) (hhub : hubForwards s = true) {r : Nat}
    (hroute : routePort s m.dst = some r) :
    exec (.controlMessageReceive p m) s = .next (sendOnPort (heardFrom s m.src) r { m with ttl := m.ttl - 1 }) := by
  have hhub' : hubForwards (heardFrom s m.src) = true := hhub
  have hroute' : routePort (heardFrom s m.src) m.dst = some r := hroute
  refine congrArg Host.Outcome.next ((if_neg (by simp [hup])).trans <| (if_neg (by simp [hphase])).trans <| (if_neg (not_or.2 ⟨hall, hdst⟩)).trans <|
    (if_neg ?_).trans ?_)
  · have hforwards : hubForwards { s with links := { s.links with lastTraffic := sparseSet 0 m.src (heatOf (now s)) s.links.lastTraffic } } = true := hhub
    simp only [hforwards, Bool.not_true, Bool.or_false, decide_eq_true_eq]
    omega
  · change routeMsg (heardFrom s m.src) { m with ttl := m.ttl - 1 } = _
    unfold routeMsg
    dsimp only
    rw [hroute']

end

theorem controlMessage_recovery {s : State} {p : Nat} {m : CtlMsg} (hphase : s.boot.phase = .recovery) (hm : imageTransfer m = false) :
    exec (.controlMessageReceive p m) s = .next s := by
  refine congrArg Host.Outcome.next ?_
  split
  · rfl
  · rw [if_pos (by simp [hphase]), if_neg (by simp [hm])]

theorem mem_queueMsg (l : List CtlMsg) (m : CtlMsg) : m ∈ queueMsg l m := List.mem_append_right _ List.mem_cons_self

/-- A message sent with strikes defined waits at its port. -/
theorem sendOnPort_queued {s : State} {r : Nat} {m : CtlMsg} (hdef : s.tb.strikeDefined = true) (hr : r < s.links.ports.length) :
    m ∈ (portGet (sendOnPort s r m) r).outgoing := by
  unfold sendOnPort
  rw [if_pos hdef, portGet_portMod_self hr]
  exact mem_queueMsg ..

/-! ### A fault with a plan running (R366 to R369) -/

/-- The partition of a fault that is detected while job j runs (R366, R376). -/
def planFault (s : State) (j : Job) (cause : Nat) (u : Uid) (retain : Option (Bool × Bool)) (requesters : List (BitVec 12 × Nat × BitVec 16 × Nat)) : Partition :=
  { uid := u, cause := cause, detect := now s, raised := now s + j.holdLead, origin := originOf s j cause (uidKey u), restored := none,
    missedBound := false, retainMemory := (retain.getD (retentionOf s u)).1, retainFabric := (retain.getD (retentionOf s u)).2,
    requesters := requesters, repeated := false, begun := false, act := guiltyAct s (uidKey u) }

/-- The hold that the first fault of a plan opens (R369). -/
def firstHold (s : State) (j : Job) (p : Partition) : Hold :=
  { job := j.num, first := p, raise := now s + j.holdLead, partitions := [p], holding := false, holdOffset := 0, replayFrom := none, prologueLeft := 0,
    sweepNext := 0, ending := none }

/-- What a fault of a running plan leaves where no hold is open: its activities dropped, the members told, the hold opened. -/
theorem detectFault_opens {s : State} {j : Job} (hj : recoverableJob s = some j) (hh : s.quench.hold = none) (cause : Nat) (u : Uid)
    (retain : Option (Bool × Bool)) (requesters : List (BitVec 12 × Nat × BitVec 16 × Nat)) :
    let p := planFault s j cause u retain requesters
    detectFault s cause u retain requesters = noteLast (quenchMod (sendTo (dropActs s j u) j.members 1
      (.holdNotice j.num (now s) (now s + j.holdLead) u cause p.origin)) (fun q => { q with hold := some (firstHold s j p), phase := .lead })) (some p) := by
  intro p
  unfold detectFault
  rw [hj, hh]
  rfl

theorem dropActs_jobs {s : State} {u : Uid} (hd : uidDevice u = s.form.device) (j : Job) : (dropActs s j u).seq.jobs = s.seq.jobs.map (fun k =>
    if k.num = j.num then { k with acts := k.acts.filter (fun a => !(a.uids.any (fun x => covers (uidKey u) (uidKey x)))) } else k) := by
  unfold dropActs
  rw [if_neg (by simpa using hd)]
  simp only [setJob, modJobs, beq_iff_eq]

/-- A fault changes no sticky bit that is raised. -/
theorem detectFault_opens_raised {s : State} {j : Job} (hj : recoverableJob s = some j) (hh : s.quench.hold = none) (cause : Nat) (u : Uid)
    (retain : Option (Bool × Bool)) (requesters : List (BitVec 12 × Nat × BitVec 16 × Nat)) :
    KeepsRaised s (detectFault s cause u retain requesters) := by
  rw [detectFault_opens hj hh]
  have told : KeepsRaised s (sendTo (dropActs s j u) j.members 1
      (.holdNotice j.num (now s) (now s + j.holdLead) u cause (originOf s j cause (uidKey u)))) :=
    (KeepsRaised.of_units (dropActs_units s j u)).trans (sendTo_events ..).keepsRaised
  refine told.trans ?_
  exact .of_units rfl

/-- The state in which a detected fault is raised: the sticky bit of its cause set, or the failing word forgotten (R366). -/
def faultNoted (s : State) (cause k : Nat) : State :=
  if cause = 16 ∨ cause = 2 then stickySet s k cause else if cause = 1 then clearBad s else s

theorem faultDetect_holds {s : State} {cause : Nat} {u : Uid} {rec : Bool} (hd : uidDevice u = s.form.device) (hf : faultHolds s cause (uidKey u) rec = true) :
    exec (.faultDetect cause u rec) s = .next (detectFault (faultNoted s cause (uidKey u)) cause u none []) :=
  congrArg Host.Outcome.next (if_pos (by simp [hd, hf]))

theorem faultNoted_frame (s : State) (cause k : Nat) : (faultNoted s cause k).seq = s.seq ∧ (faultNoted s cause k).quench = s.quench ∧
    (faultNoted s cause k).form = s.form := by
  unfold faultNoted
  split
  · exact ⟨stickySet_seq .., stickySet_quench .., stickySet_form ..⟩
  · split <;> exact ⟨rfl, rfl, rfl⟩

theorem faultNoted_raised {s : State} {cause : Nat} (k : Nat) (h : cause = 16 ∨ cause = 2) : stickyRaised (faultNoted s cause k) k cause := by
  unfold faultNoted
  rw [if_pos h]
  exact stickyRaised_stickySet_any s k (by omega)

/-- A notice that comes in time opens the hold where none is open (R369). -/
theorem hearHold_opens {s : State} {j : Job} (hj : recoverableJob s = some j) (hh : s.quench.hold = none) (d r : Nat) (u : Uid) (cause origin : Nat) :
    ∃ g, (hearHold s j.num d r u cause origin).quench.hold = some g ∧ g.raise = (if decide (r < now s) = true then now s else r) ∧
      g.first.uid = u ∧ g.first.origin = origin ∧ g.ending = (if decide (r < now s) = true then some 0x0601 else none) := by
  unfold hearHold
  rw [hj]
  dsimp only
  rw [if_neg (by simp), hh]
  refine ⟨_, rfl, ?_⟩
  exact ⟨rfl, rfl, rfl, rfl⟩

/-- A notice that comes late makes the job of an open hold end with UNIT_FENCED (R369). -/
theorem hearHold_late {s : State} {j : Job} {h : Hold} (hj : recoverableJob s = some j) (hh : s.quench.hold = some h) {d r : Nat} (hr : r < now s) (u : Uid)
    (cause origin : Nat) : ∃ g, (hearHold s j.num d r u cause origin).quench.hold = some g ∧ g.ending = some 0x0601 := by
  have hjoin : ∀ (h1 : Hold) (p : Partition), ∃ g, (joinHold s h1 p (some 0x0601)).1.quench.hold = some g ∧ g.ending = some 0x0601 := by
    intro h1 p
    unfold joinHold
    have hjoined : mergeEnding (joinPartition s h1 p).1.ending (some 0x0601) = some 0x0601 := if_pos (Or.inr rfl)
    refine ⟨{ (joinPartition s h1 p).1 with replayFrom := none, prologueLeft := 0, ending := mergeEnding (joinPartition s h1 p).1.ending (some 0x0601) },
      ?_, hjoined⟩
    dsimp only
    split <;> rfl
  unfold hearHold
  rw [hj]
  dsimp only
  rw [if_neg (by simp), hh, if_pos (decide_eq_true hr)]
  exact hjoin _ _

theorem now_of_seq {s t : State} (h : t.seq = s.seq) : now t = now s := by
  unfold now
  rw [h]

end Sys2Proof.Laws
end

section
namespace Sys2Proof

open Machine Laws

/-- Settles O54. A message takes one of the paths of R323; a fault of a running plan opens its hold by `detectFault_opens`. -/
theorem messagesAndFaults : Obligations.MessagesAndFaults := by
  unfold Obligations.MessagesAndFaults
  refine ⟨fun s p m hup hphase hdst h1 h7 => controlMessage_here hup hphase hdst h1 h7, fun s p m hup hphase hdst hall httl => ?dropped,
    fun s p r m hup hphase hdst hall httl hhub hroute => ?forwarded, fun s p m hphase hm => controlMessage_recovery hphase hm,
    fun s cause u rec j hd hf hj hh => ?opens, fun s cause u rec hj hd hf hout => ?outside, fun s cause u rec hf => congrArg Host.Outcome.next (if_neg (by simp [hf])),
    fun s d j hrun hj hh hmem hne hlost => ?lost, fun s d r u cause origin j hj hh hr => ?notice, fun s d r u cause origin j hj hr => ?late,
    fun s h j hh hj hholding hraise => ?raise⟩
  case dropped =>
    have hcount := counterGet_count (s := heardFrom s m.src) (k := devKey) (c := 23) (n := 1) (by decide) devKey 23
    exact ⟨_, controlMessage_dropped hup hphase hdst hall httl, hcount.trans (if_pos ⟨rfl, rfl⟩), count_out .., (congrArg Links.ports (count_links (heardFrom s m.src) ..) :)⟩
  case forwarded =>
    exact ⟨_, controlMessage_forwarded hup hphase hdst hall httl hhub hroute, sendOnPort_units ..,
      fun hdef hr hports => sendOnPort_queued hdef (hr.trans_eq hports.symm)⟩
  case opens =>
    obtain ⟨hseq, hquench, hform⟩ := faultNoted_frame s cause (uidKey u)
    have hj' := (recoverableJob_of_seq hseq).trans hj
    have hh' := (congrArg Quench.hold hquench).trans hh
    have hopens := detectFault_opens hj' hh' cause u none []
    refine ⟨_, _, faultDetect_holds hd hf, congrArg (fun t : State => t.quench.hold) hopens, rfl, ?_, rfl, rfl, rfl, congrArg (fun t : State => t.quench.lastUid) hopens,
      congrArg (fun t : State => t.quench.lastCause) hopens, fun hcause => ?_, ?_⟩
    · exact congrArg (· + j.holdLead) (now_of_seq hseq)
    · exact detectFault_opens_raised hj' hh' cause u none [] _ _ (faultNoted_raised (uidKey u) hcause)
    · rw [hopens, noteLast_seq, quenchMod_seq, sendTo_seq, dropActs_jobs (hd.trans (congrArg Formation.device hform).symm), hseq]
  case outside =>
    obtain ⟨hseq, hquench, hform⟩ := faultNoted_frame s cause (uidKey u)
    have houtside := detectFault_outside (s := faultNoted s cause (uidKey u)) (cause := cause) (u := u) (retain := none) (requesters := [])
      ((recoverableJob_of_seq hseq).trans hj)
    have halone := (detectOutside_alone (s := faultNoted s cause (uidKey u)) (p := loneFault (faultNoted s cause (uidKey u)) cause u none [])
      ((congrArg Quench.outside hquench).trans hout) (hd.trans (congrArg Formation.device hform).symm)).1
    exact ⟨_, _, faultDetect_holds hd hf, (congrArg (fun t : State => t.quench.outside) houtside).trans halone, rfl, rfl, now_of_seq hseq⟩
  case lost =>
    have hj' : recoverableJob { s with form := { s.form with devState := sparseSet 0 d 0 s.form.devState } } = some j := (recoverableJob_of_seq rfl).trans hj
    have hopens := detectFault_opens hj' hh 3 (deviceUid d) none []
    refine ⟨_, _, congrArg Host.Outcome.next ?_, congrArg (fun t : State => t.quench.hold) hopens, rfl, rfl⟩
    rw [hrun]
    exact if_pos (by simp [hmem, hne, heatOf, hlost])
  case notice =>
    obtain ⟨g, hg, hraise, huid, horigin, -⟩ := hearHold_opens hj hh d r u cause origin
    rw [if_neg (by simpa using hr)] at hraise
    exact ⟨_, g, rfl, hg, hraise, huid, horigin⟩
  case late =>
    cases hh : s.quench.hold with
    | none =>
      obtain ⟨g, hg, -, -, -, hending⟩ := hearHold_opens hj hh d r u cause origin
      rw [if_pos (decide_eq_true hr)] at hending
      exact ⟨_, g, rfl, hg, hending⟩
    | some h =>
      obtain ⟨g, hg, hending⟩ := hearHold_late hj hh hr u cause origin
      exact ⟨_, g, rfl, hg, hending⟩
  case raise =>
    have hexec : exec .holdRaise s = execHoldRaise s := rfl
    rw [hexec, execHoldRaise, hh, hj]
    dsimp only
    rw [if_pos (by simp [hholding, hraise])]
    refine ⟨_, _, rfl, rfl, rfl, ?_⟩
    exact ⟨rfl, rfl⟩

end Sys2Proof
end

section
/-!
SUPPORT. Adopting a system map (R404, R405), and the routing tables that a master commits (R330, R408).
-/
namespace Sys2Proof.Laws

open Sys2Proof.Machine

/-! ### Adopting a map -/

theorem closeBypasses_form (s : State) : (closeBypasses s).form = s.form := foldl_keep (setBypass true) State.form (fun _ _ => rfl) (List.range 6) s

theorem closeBypasses_tb (s : State) : (closeBypasses s).tb = s.tb := foldl_keep (setBypass true) State.tb (fun _ _ => rfl) (List.range 6) s

/-- The formation's registers with a map adopted. -/
def mapAdopted (s : State) (m : List Byte) : Formation :=
  let me := (mapIds m).findIdx? (fun i => i == id16 s.ident.digest && i.any (· != 0))
  { s.form with map := m, mapVersion := mapVersionOf m, mapDigest := sha384 m, dx := byteAt m 0xC, dy := byteAt m 0xD, dz := byteAt m 0xE
                device := me.getD 0, listed := me.isSome }

theorem adoptMap_facts (s : State) (m : List Byte) : (adoptMap s m).form = mapAdopted s m ∧ (adoptMap s m).boot = { s.boot with storedMap := m } ∧
    (adoptMap s m).tb = s.tb := by
  unfold adoptMap
  extract_lets d me form1 boot1 s1
  have h1 : s1.form = mapAdopted s m ∧ s1.boot = { s.boot with storedMap := m } ∧ s1.tb = s.tb := ⟨rfl, rfl, rfl⟩
  obtain ⟨hform, hboot, htb⟩ := h1
  split
  · exact ⟨hform, hboot, htb⟩
  · have fenced : (fenceUnit s1 devKey).form = s1.form ∧ (fenceUnit s1 devKey).boot = s1.boot ∧ (fenceUnit s1 devKey).tb = s1.tb :=
      ⟨fenceUnit_form .., fenceUnit_boot .., fenceUnit_tb ..⟩
    obtain ⟨fform, fboot, ftb⟩ := fenced
    exact ⟨(closeBypasses_form _).trans (fform.trans hform), (closeBypasses_boot _).trans (fboot.trans hboot), (closeBypasses_tb _).trans (ftb.trans htb)⟩

/-- Whether a map is valid depends on the owner record alone (R403). -/
theorem mapValid_congr {s t : State} (h : t.boot.ownerRecord = s.boot.ownerRecord) (m : List Byte) : mapValid t m = mapValid s m := by
  unfold mapValid ownerPolicy ownerVerifies
  rw [h]

/-! ### The tables that the master commits -/

/-- One device's table: pending here, or sent to the device. -/
def commitRoute (s : State) (epoch : BitVec 32) (strike : Nat) (t : State) (x : Nat × List (BitVec 32)) : State :=
  if x.1 = s.form.device then
    pushPending t { targets := [deviceUid x.1], epoch := epoch, strike := strike, revert := false, readmit := false, routing := true
                    record := routeRecord x.1 epoch x.2, owner := none, fencedUnits := [], applied := false }
  else sendTo t [x.1] 2 (.commit { targets := [deviceUid x.1], epoch := epoch, strike := strike, revert := false, readmit := false
                                   record := routeRecord x.1 epoch x.2 })

theorem commitRoutes_eq (s : State) (epoch : BitVec 32) (tables : List (Nat × List (BitVec 32))) :
    commitRoutes s epoch tables = tables.foldl (commitRoute s epoch (now s + 16 + 2 * hopsTo s (tables.map (·.1)))) s := rfl

/-- A change of this device's routing, with the epoch and the strike of the commit. -/
def IsRouteCommit (s : State) (epoch : BitVec 32) (strike : Nat) (c : PendingCommit) : Prop :=
  c.targets = [deviceUid s.form.device] ∧ c.routing = true ∧ c.epoch = epoch ∧ c.strike = strike

theorem commitRoute_keeps {s t : State} {epoch : BitVec 32} {strike : Nat} {x : Nat × List (BitVec 32)} {c : PendingCommit} (h : c ∈ t.cfg.pending) :
    c ∈ (commitRoute s epoch strike t x).cfg.pending := by
  unfold commitRoute
  split
  · rw [pushPending_pending]
    exact List.mem_append_left _ h
  · rw [sendTo_cfg]
    exact h

theorem commitRoute_own {s : State} (t : State) (epoch : BitVec 32) (strike : Nat) {x : Nat × List (BitVec 32)} (hx : x.1 = s.form.device) :
    ∃ c ∈ (commitRoute s epoch strike t x).cfg.pending, IsRouteCommit s epoch strike c := by
  unfold commitRoute
  rw [if_pos hx, pushPending_pending]
  exact ⟨_, List.mem_append_right _ List.mem_cons_self, by rw [hx], rfl, rfl, rfl⟩

theorem commitRoutes_foldl {s : State} {epoch : BitVec 32} {strike : Nat} : ∀ {l : List (Nat × List (BitVec 32))} {t : State},
    ((∃ c ∈ t.cfg.pending, IsRouteCommit s epoch strike c) ∨ s.form.device ∈ l.map (·.1)) →
    ∃ c ∈ (l.foldl (commitRoute s epoch strike) t).cfg.pending, IsRouteCommit s epoch strike c
  | [], _, h => h.resolve_right List.not_mem_nil
  | x :: l, t, h => by
    rw [List.foldl_cons]
    refine commitRoutes_foldl ?_
    rcases h with ⟨c, hc, hroute⟩ | h
    · exact .inl ⟨c, commitRoute_keeps hc, hroute⟩
    · rcases List.mem_cons.1 h with hx | h
      · exact .inl (commitRoute_own t epoch strike hx.symm)
      · exact .inr h

/-- The master commits a table to itself as to every device that is present. -/
theorem commitRoutes_present {s : State} (h : s.form.device < s.form.dx * s.form.dy * s.form.dz) (epoch : BitVec 32) :
    ∃ c ∈ (commitRoutes s epoch ((presentDevices s).map (fun d => (d, routeTable s d)))).cfg.pending,
      IsRouteCommit s epoch (now s + 16 + 2 * hopsTo s (presentDevices s)) c := by
  have hdevices : ((presentDevices s).map (fun d => (d, routeTable s d))).map (·.1) = presentDevices s := by
    rw [List.map_map]
    exact List.map_id _
  have hmem : s.form.device ∈ presentDevices s := List.mem_filter.2 ⟨List.mem_range.2 h, by simp⟩
  rw [commitRoutes_eq, hdevices]
  exact commitRoutes_foldl (.inr (by rw [hdevices]; exact hmem))

/-! ### The late joiner -/

/-- A late joiner once it follows the master in use (R411). -/
def lateJoined (s : State) (c : Candidate) : State :=
  let s1 := { s with form := { s.form with lateJoiner := true } }
  tbMod (setMaster s1 c) (fun t => { t with electionOver := true, role := .follower, classBit := (ownCandidate s1).classOne })

theorem exec_lateJoin {s : State} (hrun : s.boot.phase = .running) (hdef : s.tb.strikeDefined = false) (hident : s.ident.failed = false) (c : Candidate)
    (m : List Byte) : exec (.lateJoin c m) s = .next (if mapValid s m then adoptMap (lateJoined s c) m else lateJoined s c) := by
  rw [← mapValid_congr (s := s) (t := lateJoined s c) rfl m]
  exact congrArg Host.Outcome.next (if_pos (by simp [hrun, hdef, hident]))

end Sys2Proof.Laws
end

section
namespace Sys2Proof

open Machine Laws

/-- Settles O47. What adopting a map leaves is `adoptMap_facts`; the commits are those of `commitRoutes_present`. -/
theorem formation : Obligations.Formation := by
  unfold Obligations.Formation
  refine ⟨fun s m hrun hvalid hbetter hdef => ?announce, fun s m hrun hvalid hbetter hdef hlate hfills => ?later, fun s d ports e hrole hd hports => ?report,
    fun s hrole hlock hcommitted hfree hdevice => ?commit, fun s tables hrole hcommitted hfree hdevice => ?override,
    fun s hready hlock hcommitted htrained hboundary => ?ready, fun s c m hrun hdef hident => ?join⟩
  case announce =>
    obtain ⟨hform, hboot, -⟩ := adoptMap_facts s m
    refine ⟨_, congrArg Host.Outcome.next ((if_pos (by simp [hrun, hvalid, hbetter])).trans (if_pos (by simp [hdef]))), ?_⟩
    rw [hform, hboot]
    exact ⟨rfl, rfl, rfl, rfl, rfl, rfl⟩
  case later =>
    exact congrArg Host.Outcome.next ((if_pos (by simp [hrun, hvalid, hbetter])).trans (if_neg (by simp [hdef, hlate, hfills])))
  case report =>
    have hstate : Nat.max 1 (sparseGet 0 d s.form.devState) ≠ 0 := Nat.ne_of_gt (Nat.le_max_left 1 _)
    have hports' : sparseGet 0 d (sparseSet 0 d ports s.form.portsUp) = ports := (sparseGet_sparseSet_of_ne hports).trans (if_pos rfl)
    have hstate' : sparseGet 0 d (sparseSet 0 d (Nat.max 1 (sparseGet 0 d s.form.devState)) s.form.devState) ≠ 0 := by
      rw [sparseGet_sparseSet_of_ne hstate, if_pos rfl]
      exact hstate
    refine ⟨_, congrArg Host.Outcome.next (if_pos (by simp [hrole, hd])), hports', hstate', ?_⟩
    change (if s.form.highestEpoch.toNat < e.toNat then e else s.form.highestEpoch).toNat = Nat.max s.form.highestEpoch.toNat e.toNat
    split
    · next h => exact (Nat.max_eq_right (Nat.le_of_lt h)).symm
    · next h => exact (Nat.max_eq_left (Nat.le_of_not_lt h)).symm
  case commit =>
    exact ⟨_, congrArg Host.Outcome.next (if_pos (by simp [hrole, hlock, hcommitted, hfree])), commitRoutes_present hdevice _⟩
  case override =>
    obtain ⟨c, hc, htargets, hrouting, hepoch, -⟩ := commitRoutes_present hdevice (BitVec.ofNat 32 (ownHighest s + 1))
    exact ⟨_, congrArg Host.Outcome.next (if_pos (by simp [hrole, hcommitted, hfree])), c, hc, htargets, hrouting, hepoch⟩
  case ready =>
    refine ⟨_, congrArg Host.Outcome.next (if_pos (by simp [hready, hlock, hcommitted, htrained, isBoundary, hboundary])), ?_, ?_⟩
    · rw [sendTo_form]
    · rw [sendTo_form]
      exact (sparseGet_sparseSet_of_ne (v := 2) (by decide)).trans (if_pos rfl)
  case join =>
    refine ⟨_, exec_lateJoin hrun hdef hident c m, ?_⟩
    split
    · rw [(adoptMap_facts _ m).1, (adoptMap_facts _ m).2.2]
      exact ⟨rfl, rfl, rfl, rfl, fun _ => rfl⟩
    · next hm => exact ⟨rfl, rfl, rfl, rfl, fun h => absurd h hm⟩

end Sys2Proof
end

section
/-!
SUPPORT. The lanes of a Weld port as they train and drop (R324 to R327).
-/
namespace Sys2Proof.Laws

open Sys2Proof.Machine

theorem getD_set_self {α : Type} {l : List α} {i : Nat} (h : i < l.length) (v d : α) : (l.set i v).getD i d = v := by
  simp [List.getD_eq_getElem?_getD, h]

theorem getD_set_ne {α : Type} {l : List α} {i j : Nat} (h : i ≠ j) (v d : α) : (l.set i v).getD j d = l.getD j d := by
  rw [List.getD_eq_getElem?_getD, List.getElem?_set_ne h, List.getD_eq_getElem?_getD]

theorem lt_of_getD_ne {α : Type} {l : List α} {i : Nat} {d : α} (h : l.getD i d ≠ d) : i < l.length := by
  refine Nat.lt_of_not_le (fun hi => h ?_)
  rw [List.getD_eq_getElem?_getD, List.getElem?_eq_none hi]
  rfl

/-- Whatever is read beyond a list's end, within it an element reads as itself. -/
theorem getD_eq_of_lt {α : Type} {l : List α} {i : Nat} (h : i < l.length) (d e : α) : l.getD i d = l.getD i e := by
  simp [List.getD_eq_getElem?_getD, h]

/-! ### One change of a lane -/

theorem clearHop_links (s : State) (p : Nat) : (clearHop s p).links = s.links := by
  unfold clearHop
  split <;> rfl

theorem clearHop_units (s : State) (p : Nat) : (clearHop s p).units = s.units := by
  unfold clearHop
  split <;> rfl

section
variable {s : State} {p : Nat} (hp : p < s.links.ports.length)
include hp

theorem lanes_dropLane (l : Nat) : (portGet (dropLane s p l) p).lanes = (portGet s p).lanes.set l .down := by
  rw [dropLane, portGet_congr (clearHop_links ..), laneDown, portGet_portMod_self hp]
  dsimp only
  split <;> rfl

theorem lane_dropLane {l : Nat} (hl : l < (portGet s p).lanes.length) (d : LaneState) : (portGet (dropLane s p l) p).lanes.getD l d = .down := by
  rw [lanes_dropLane hp, getD_set_self hl]

theorem portGet_nextStep (l : Nat) (st : PortState) : (portGet (nextStep s p l st) p).lanes = (portGet s p).lanes ∧
    (portGet (nextStep s p l st) p).steps = (portGet s p).steps.set l ((portGet s p).steps.getD l 0 + 1) := by
  rw [nextStep, portGet_portMod_self hp]
  exact ⟨rfl, rfl⟩

theorem portGet_beginTraining (l : Nat) : (portGet (beginTraining s p l) p).lanes = (portGet s p).lanes.set l .training ∧
    (portGet (beginTraining s p l) p).steps = (portGet s p).steps.set l 1 := by
  rw [beginTraining, portGet_portMod_self hp]
  exact ⟨rfl, rfl⟩

/-- A refused port says why, and the sticky bit of the refusal is raised. -/
theorem refused (c : RefuseCode) (t : LaneTraining) {b : Nat} (hb : b < 64) : (portGet (stickySet (refusePort s p c t) devKey b) p).state = .refused ∧
    (portGet (stickySet (refusePort s p c t) devKey b) p).refuse = c ∧ stickyRaised (stickySet (refusePort s p c t) devKey b) devKey b := by
  rw [portGet_congr (stickySet_links ..), refusePort, portGet_portMod_self hp]
  exact ⟨rfl, rfl, stickyRaised_stickySet_any _ devKey hb⟩

/-! ### The lane comes UP -/

/-- What a lane that comes UP sets of its port and of the hop delays. -/
structure IsRaised (s u : State) (p l : Nat) (t : LaneTraining) : Prop where
  state : (portGet u p).state = .up
  lane : laneUp (portGet u p) l = true
  delay : (portGet u p).delayPs = (oneWayDelay t.times).toNat
  hop : p < 6 → s.tb.hopDelay.length = 6 → u.tb.hopDelay.getD p 0 = BitVec.ofNat 32 (oneWayDelay t.times).toNat

theorem raiseLane_isRaised {l : Nat} (hl : l < (portGet s p).lanes.length) (t : LaneTraining) (d : Digest) : IsRaised s (raiseLane s p l t d) p l t := by
  unfold raiseLane
  extract_lets old delay changed first start s1
  have h1 : portGet s1 p = { portGet s p with
      lanes := (portGet s p).lanes.set l .up, steps := (portGet s p).steps.set l 0, state := .up, refuse := .none
      planFrom := if s.tb.strikeDefined then (portGet s p).planFrom.set l start else (portGet s p).planFrom
      delayPs := delay
      peerDigest := BitVec.ofNat 48 (d.toNat / 2 ^ 336), peerPort := BitVec.ofNat 3 t.peerPort
      peerDevice := BitVec.ofNat 12 (t.peerDevice.getD 0xFFF), peerMajors := t.majors, major := 1
      minor := if first then BitVec.ofNat 8 (Nat.min 0 ((t.minors.getD 1 0).toNat)) else (portGet s p).minor
      age := if first then 0 else (portGet s p).age, flight := if first then delay / 250000 else (portGet s p).flight
      highest := if first then 0xFFFFFFFF else (portGet s p).highest } := portGet_portMod_self hp _
  have hlane : laneUp (portGet s1 p) l = true := by
    rw [h1, laneUp, getD_set_self hl]
    rfl
  split
  · exact ⟨congrArg WeldPort.state h1, hlane, congrArg WeldPort.delayPs h1, fun hp6 hlen => getD_set_self (hp6.trans_eq hlen.symm) _ _⟩
  · next hp6 => exact ⟨congrArg WeldPort.state h1, hlane, congrArg WeldPort.delayPs h1, fun h => absurd h hp6⟩

end

/-- What a port queues to send is no part of its state. -/
theorem portGet_sendOnPort {γ : Type} (g : WeldPort → γ) (hg : ∀ (w : WeldPort) (q : List CtlMsg), g { w with outgoing := q } = g w) (s : State) (p q : Nat)
    (m : CtlMsg) : g (portGet (sendOnPort s p m) q) = g (portGet s q) := by
  unfold sendOnPort
  split
  · exact portGet_portMod_keep g s p q (fun w => hg w _)
  · rfl

theorem sendFirmware_tb (s : State) (p : Nat) (floor : Option (BitVec 32)) : (sendFirmware s p floor).tb = s.tb := by
  unfold sendFirmware
  split
  · rfl
  · dsimp only
    split
    · refine foldl_keep _ State.tb (fun t x => ?_) _ s
      exact sendOnPort_tb ..
    · rfl

theorem portGet_sendFirmware {γ : Type} (g : WeldPort → γ) (hg : ∀ (w : WeldPort) (q : List CtlMsg), g { w with outgoing := q } = g w) (s : State) (p q : Nat)
    (floor : Option (BitVec 32)) : g (portGet (sendFirmware s p floor) q) = g (portGet s q) := by
  unfold sendFirmware
  split
  · rfl
  · dsimp only
    split
    · refine foldl_keep _ (fun t => g (portGet t q)) (fun t x => ?_) _ s
      exact portGet_sendOnPort g hg _ p q _
    · rfl

/-- The image that a neighbour in recovery boot receives leaves the lane UP. -/
theorem IsRaised.sendFirmware {s u : State} {p l : Nat} {t : LaneTraining} (h : IsRaised s u p l t) (floor : Option (BitVec 32)) :
    IsRaised s (sendFirmware u p floor) p l t where
  state := (portGet_sendFirmware WeldPort.state (fun _ _ => rfl) ..).trans h.state
  lane := (portGet_sendFirmware (fun w => laneUp w l) (fun _ _ => rfl) ..).trans h.lane
  delay := (portGet_sendFirmware WeldPort.delayPs (fun _ _ => rfl) ..).trans h.delay
  hop hp hlen := by
    rw [sendFirmware_tb]
    exact h.hop hp hlen

/-! ### The training steps (R324) -/

section
variable {s : State} {p l : Nat} (t : LaneTraining) (hp : p < s.links.ports.length) (hlanes : l < (portGet s p).lanes.length) (hsteps : l < (portGet s p).steps.length)
include hp hlanes hsteps

/-- A step that only passes or fails: the lane goes on to the next one, or goes DOWN. -/
theorem passedOrDropped (ok : Bool) (st : PortState) {n : Nat} (hn : (portGet s p).steps.getD l 0 = n) (htraining : (portGet s p).lanes.getD l .down = .training) :
    let u := if ok then nextStep s p l st else dropLane s p l
    if ok then (portGet u p).lanes.getD l .down = .training ∧ (portGet u p).steps.getD l 0 = n + 1 else (portGet u p).lanes.getD l .training = .down := by
  intro u
  cases ok with
  | true =>
    obtain ⟨kept, stepped⟩ := portGet_nextStep hp l st
    have hlane : (portGet (nextStep s p l st) p).lanes.getD l .down = .training := by rw [kept, htraining]
    have hstep : (portGet (nextStep s p l st) p).steps.getD l 0 = n + 1 := by rw [stepped, getD_set_self hsteps, hn]
    exact ⟨hlane, hstep⟩
  | false => exact lane_dropLane hp hlanes .training

/-- The first three steps are a signal, the SYNC lock and the qualification. -/
theorem trainStep_early (htraining : (portGet s p).lanes.getD l .down = .training) : ∀ x ∈ [(1, t.signalOk), (2, t.syncOk), (3, t.qualifyOk)],
    (portGet s p).steps.getD l 0 = x.1 → if x.2 then (portGet (trainStep s p l t) p).lanes.getD l .down = .training ∧ (portGet (trainStep s p l t) p).steps.getD l 0 = x.1 + 1
      else (portGet (trainStep s p l t) p).lanes.getD l .training = .down := by
  intro x hx hn
  have hstep : ∃ st, trainStep s p l t = if x.2 then nextStep s p l st else dropLane s p l := by
    simp only [List.mem_cons, List.not_mem_nil, or_false] at hx
    unfold trainStep
    rw [hn]
    rcases hx with rfl | rfl | rfl <;> exact ⟨_, rfl⟩
  obtain ⟨st, hst⟩ := hstep
  rw [hst]
  exact passedOrDropped hp hlanes hsteps x.2 st hn htraining

/-- The fourth step settles the version (R325). -/
theorem trainStep_negotiates (hn : (portGet s p).steps.getD l 0 = 4) : if t.negotiateOk = false then (portGet (trainStep s p l t) p).lanes.getD l .training = .down
    else if t.majors.getLsbD 1 = false then (portGet (trainStep s p l t) p).state = .refused ∧ (portGet (trainStep s p l t) p).refuse = .linkVersion ∧
      stickyRaised (trainStep s p l t) devKey 19
    else (portGet (trainStep s p l t) p).steps.getD l 0 = 5 ∧ (portGet (trainStep s p l t) p).major = 1 ∧ (portGet (trainStep s p l t) p).signature.isSome = true := by
  have hsign : (cseSign s t.peerNonce).1.links = s.links := by
    unfold cseSign
    split <;> rfl
  unfold trainStep
  rw [hn]
  dsimp only
  cases t.negotiateOk with
  | false => exact lane_dropLane hp hlanes .training
  | true =>
    cases t.majors.getLsbD 1 with
    | false => exact refused hp .linkVersion t (by decide)
    | true =>
      have hsigned : p < (cseSign s t.peerNonce).1.links.ports.length := by rw [hsign]; exact hp
      have hnext : (portGet (nextStep (cseSign s t.peerNonce).1 p l .identity) p).steps.getD l 0 = 5 := by
        rw [(portGet_nextStep hsigned l .identity).2, portGet_congr hsign, getD_set_self hsteps, hn]
      have hread := portGet_portMod_self (s := nextStep (cseSign s t.peerNonce).1 p l .identity) (p := p) (by rw [nextStep, ports_length_portMod]; exact hsigned)
        (fun w => { w with peerMajors := t.majors, major := 1, minor := 0, signature := some (cseSign s t.peerNonce).2 })
      refine ⟨?_, congrArg WeldPort.major hread, congrArg (fun w : WeldPort => w.signature.isSome) hread⟩
      exact (congrArg (fun w : WeldPort => w.steps.getD l 0) hread).trans hnext

end

/-- The fifth step is the last, `settleLane` (R326). -/
theorem trainStep_settles {s : State} {p l : Nat} (t : LaneTraining) (hn : (portGet s p).steps.getD l 0 = 5) : trainStep s p l t = settleLane s p l t := by
  unfold trainStep
  rw [hn]
  rfl

theorem settleLane_unproven {s : State} {p : Nat} (l : Nat) (t : LaneTraining) (hp : p < s.links.ports.length) (h : Config.chainVerify t.chain = none) : (portGet (settleLane s p l t) p).state = .refused ∧
    (portGet (settleLane s p l t) p).refuse = .identity ∧ stickyRaised (settleLane s p l t) devKey 18 := by
  unfold settleLane
  rw [h]
  exact refused hp .identity t (by decide)

theorem settleLane_proven {s : State} {p l : Nat} (t : LaneTraining) (hp : p < s.links.ports.length) (hlanes : l < (portGet s p).lanes.length)
    {key : List Byte} {digest : Digest} (h : Config.chainVerify t.chain = some (key, digest)) :
    if Config.ecdsaVerify key t.nonceDigest t.signature = false then (portGet (settleLane s p l t) p).state = .refused ∧
      (portGet (settleLane s p l t) p).refuse = .identity ∧ stickyRaised (settleLane s p l t) devKey 18
    else if miswired s p t = true then (portGet (settleLane s p l t) p).state = .refused ∧ (portGet (settleLane s p l t) p).refuse = .miswired
    else if t.delayOk = false then (portGet (settleLane s p l t) p).lanes.getD l .training = .down
    else IsRaised s (settleLane s p l t) p l t := by
  unfold settleLane
  rw [h]
  dsimp only
  cases Config.ecdsaVerify key t.nonceDigest t.signature with
  | false => exact refused hp .identity t (by decide)
  | true =>
    cases miswired s p t with
    | true =>
      have hread := portGet_portMod_self hp (fun w => { w with state := .refused, refuse := .miswired, peerMajors := t.majors })
      exact ⟨congrArg WeldPort.state hread, congrArg WeldPort.refuse hread⟩
    | false =>
      cases t.delayOk with
      | false => exact lane_dropLane hp hlanes .training
      | true => exact (raiseLane_isRaised hp hlanes t digest).sendFirmware t.imageFloor

/-- What a lane makes of light and of a training step, by its state. -/
def lightSeen (s : State) (p l : Nat) (t : LaneTraining) : State :=
  match (portGet s p).lanes.getD l .disabled with
  | .down => beginTraining s p l
  | .training => trainStep s p l t
  | _ => s

theorem exec_laneLightDetect {s : State} {p l : Nat} (t : LaneTraining) (hmode : weldMode s p = true) (hl : l < 8) (hr : (portGet s p).state ≠ .refused)
    (hd : (portGet s p).state ≠ .disabled) (ht : mayTrain s p l = true) : exec (.laneLightDetect p l t) s = .next (lightSeen s p l t) :=
  congrArg Host.Outcome.next (if_neg (by simp [hmode, hl, hr, hd, ht]))

theorem lt_of_weldMode {s : State} {p : Nat} (h : weldMode s p = true) : p < 8 := by
  simp only [weldMode, Bool.or_eq_true, Bool.and_eq_true, decide_eq_true_eq] at h
  omega

/-- A lane lost is counted and raises LINK_DOWN; the other lanes of the port stay (R327). -/
theorem dropLane_others {s : State} {p : Nat} (hp : p < s.links.ports.length) {l i : Nat} (hi : i ≠ l) :
    laneUp (portGet (dropLane s p l) p) i = laneUp (portGet s p) i := by
  rw [laneUp, lanes_dropLane hp, getD_set_ne (Ne.symm hi), laneUp]

theorem dropLane_units (s : State) (p l : Nat) : (dropLane s p l).units = s.units := clearHop_units ..

end Sys2Proof.Laws
end

section
namespace Sys2Proof

open Machine Laws

/-- Settles O50. A lane's step is `trainStep`, whose five steps are the lemmas above. -/
theorem lanes : Obligations.Lanes := by
  unfold Obligations.Lanes
  refine ⟨fun s p l t hmode hports hlanes hsteps hl hr hd ht => ⟨lightSeen s p l t, exec_laneLightDetect t hmode hl hr hd ht, fun hdown => ?begins, fun htraining => ?trains⟩,
    fun s p l hmode hports hdown hr ht => ?retrains, fun s p l hports hup => ?drops, fun s p hr => ?afresh⟩
  case begins =>
    have hp : p < s.links.ports.length := (lt_of_weldMode hmode).trans_eq hports.symm
    have hlight : lightSeen s p l t = beginTraining s p l := by
      rw [lightSeen, getD_eq_of_lt (hl.trans_eq hlanes.symm) _ .down, hdown]
    obtain ⟨lanes, steps⟩ := portGet_beginTraining hp l
    rw [hlight, lanes, steps]
    exact ⟨getD_set_self (hl.trans_eq hlanes.symm) _ _, getD_set_self (hl.trans_eq hsteps.symm) _ _⟩
  case trains =>
    have hp : p < s.links.ports.length := (lt_of_weldMode hmode).trans_eq hports.symm
    have hl1 := hl.trans_eq hlanes.symm
    have hl2 := hl.trans_eq hsteps.symm
    have hlight : lightSeen s p l t = trainStep s p l t := by
      rw [lightSeen, getD_eq_of_lt hl1 _ .down, htraining]
    rw [hlight]
    refine ⟨trainStep_early t hp hl1 hl2 htraining, trainStep_negotiates t hp hl1 hl2, fun hn => ?_⟩
    rw [trainStep_settles t hn]
    cases hchain : Config.chainVerify t.chain with
    | none => exact settleLane_unproven l t hp hchain
    | some x =>
      have hproven := settleLane_proven t hp hl1 hchain
      dsimp only at hproven ⊢
      split at hproven
      · next hv => rwa [if_pos hv]
      next hv =>
      rw [if_neg hv]
      split at hproven
      · next hm => rwa [if_pos hm]
      next hm =>
      rw [if_neg hm]
      split at hproven
      · next hdelay => rwa [if_pos hdelay]
      next hdelay =>
      rw [if_neg hdelay]
      obtain ⟨state, lane, delay, hop⟩ := hproven
      exact ⟨state, lane, delay, hop⟩
  case retrains =>
    have hp : p < s.links.ports.length := (lt_of_weldMode hmode).trans_eq hports.symm
    have hl : l < (portGet s p).lanes.length := lt_of_getD_ne (d := .disabled) (by rw [hdown]; decide)
    refine ⟨_, congrArg Host.Outcome.next (if_pos (by rw [hmode, hdown, bne_iff_ne.2 hr, ht]; rfl)), ?_⟩
    rw [(portGet_beginTraining hp l).1, getD_set_self hl]
  case drops =>
    have hstate : (portGet s p).lanes.getD l .down = .up := beq_iff_eq.1 hup
    have hp : p < s.links.ports.length := portGet_mem (fun b e => by
      rw [e] at hstate
      have hdown : (WeldPort.reset b).lanes.getD l .down = .down := List.getElem?_getD_replicate_default_eq ..
      rw [hdown] at hstate
      cases hstate)
    have hl : l < (portGet s p).lanes.length := lt_of_getD_ne (d := .down) (by rw [hstate]; decide)
    have hlinks : (stickySet (count (dropLane s p l) devKey 24 1) devKey 3).links = (dropLane s p l).links :=
      (stickySet_links ..).trans (count_links ..)
    refine ⟨_, congrArg Host.Outcome.next (if_pos hup), ?_, fun i hi => ?_, stickyRaised_stickySet_any _ _ (by decide), ?_⟩
    · rw [portGet_congr hlinks, laneUp, lane_dropLane hp hl]
      rfl
    · rw [portGet_congr hlinks]
      exact dropLane_others hp hi
    · rw [counterGet_stickySet _ _ (by decide), counterGet_count_devKey _ _ (by decide), if_pos rfl, counterGet_congr (dropLane_units ..)]
  case afresh =>
    have hp : p < s.links.ports.length := portGet_mem (fun b e => by
      rw [e] at hr
      cases hr)
    refine ⟨_, congrArg Host.Outcome.next (if_pos (by simp [hr])), ?_, ?_⟩
    · rw [portGet_portMod_self hp]
    · rw [portGet_portMod_self hp]

end Sys2Proof
end

section
/-!
SUPPORT. One Spur port: what a change of it reads as, and the pauses of its priorities (R334).
-/
namespace Sys2Proof.Laws

open Sys2Proof.Machine

theorem spurGet_spurMod {s : State} {p : Nat} (hp : p < s.links.spur.length) (f : SpurPort → SpurPort) : spurGet (spurMod s p f) p = f (spurGet s p) :=
  getD_listModify_self hp f _

/-- A queue pair whose rate is reduced is not the one of reset. -/
theorem ne_reset_of_rateShift {x : QueuePair} (h : x.rateShift ≠ 0) : x ≠ QueuePair.reset := fun e => h (by rw [e]; rfl)

theorem getLsbD_bit8 {n : Nat} (hn : n < 8) (i : Nat) : (BitVec.ofNat 8 (2 ^ n)).getLsbD i = decide (i = n) := by
  rw [BitVec.getLsbD_ofNat, Nat.testBit_two_pow]
  by_cases h : i = n
  · simp [h, hn]
  · simp [h, Ne.symm h]

/-- The mask of paused priorities once one pauses or resumes (R334). -/
def pausedWith (m : BitVec 8) (n : Nat) (pause : Bool) : BitVec 8 := if pause then m ||| BitVec.ofNat 8 (2 ^ n) else m &&& ~~~ BitVec.ofNat 8 (2 ^ n)

theorem pausedWith_self (m : BitVec 8) {n : Nat} (hn : n < 8) (pause : Bool) : (pausedWith m n pause).getLsbD n = pause := by
  unfold pausedWith
  cases pause
  · simp only [Bool.false_eq_true, if_false, BitVec.getLsbD_and, BitVec.getLsbD_not, getLsbD_bit8 hn, decide_true, Bool.not_true, Bool.and_false]
  · simp only [if_true, BitVec.getLsbD_or, getLsbD_bit8 hn, decide_true, Bool.or_true]

theorem pausedWith_other (m : BitVec 8) {n i : Nat} (hn : n < 8) (hi : i ≠ n) (pause : Bool) : (pausedWith m n pause).getLsbD i = m.getLsbD i := by
  unfold pausedWith
  cases pause
  · simp only [Bool.false_eq_true, if_false, BitVec.getLsbD_and, BitVec.getLsbD_not, getLsbD_bit8 hn, decide_eq_false hi, Bool.not_false, Bool.and_true]
    by_cases h8 : i < 8
    · simp [h8]
    · simp [h8, BitVec.getLsbD_of_ge m i (Nat.le_of_not_lt h8)]
  · simp only [if_true, BitVec.getLsbD_or, getLsbD_bit8 hn, decide_eq_false hi, Bool.or_false]

end Sys2Proof.Laws
end

section
namespace Sys2Proof

open Machine Laws

/-- Settles O53. -/
theorem ethernetPorts : Obligations.EthernetPorts := by
  unfold Obligations.EthernetPorts
  refine ⟨fun s p q hp hq hspur => ?cnp, fun s p q n hp hq hspur hshift hage => ?recovers, fun s p q hr hsent => ?sends, fun s p q n hsent hnow => ?waits,
    fun s p f hp hspur hmode hup hf hdrops => ?drops, fun s p ip f data hp hmode hup hf hpay hip => ?echo, fun s p n pause hp hn hspur hmode hbit => ?pauses,
    fun s p up hp hspur hmode hretrain => ?link, fun s p ok hp hspur hretrain => ?retrains⟩
  case cnp =>
    have hread := qpGet_qpMod (q := q) (f := fun x => { x with rateShift := x.rateShift + 1, cnpStrike := now s }) (hp.trans_eq hspur.symm)
      (ne_reset_of_rateShift (Nat.succ_ne_zero _))
    exact ⟨_, congrArg Host.Outcome.next (if_pos (qpValid_of_lt hp hq)), congrArg QueuePair.rateShift hread, rfl⟩
  case recovers =>
    have hread := qpGet_qpMod (q := q) (f := fun x => { x with rateShift := x.rateShift - 1, cnpStrike := now s }) (hp.trans_eq hspur.symm)
      (ne_reset_of_rateShift (by dsimp only; omega))
    refine ⟨_, congrArg Host.Outcome.next (if_pos ?_), ?_⟩
    · simp [qpValid_of_lt hp hq, hshift, hage]
    · rw [hread, hshift]
      rfl
  case sends => exact ⟨_, congrArg Host.Outcome.next (if_pos (by rw [hr, hsent]; rfl)), rfl⟩
  case waits =>
    refine congrArg Host.Outcome.next (if_neg ?_)
    rw [hsent]
    simp only [Bool.and_eq_true, decide_eq_true_eq, not_and, not_le]
    exact fun _ => hnow
  case drops =>
    have hread := spurGet_spurMod (hp.trans_eq hspur.symm) (fun x : SpurPort => { x with drops := if x.drops = 0xFFFFFFFF then x.drops else x.drops + 1 })
    refine ⟨_, congrArg Host.Outcome.next ((if_neg (by simp [hp, hmode, hup])).trans (if_pos (by simp [hf]))), ?_, rfl⟩
    rw [hread]
    exact if_neg hdrops
  case echo =>
    refine congrArg Host.Outcome.next ((if_neg (by simp [hp, hmode, hup])).trans ((if_neg (by simp [hf])).trans ?_))
    rw [hpay]
    exact if_pos hip
  case pauses =>
    have hread := spurGet_spurMod (hp.trans_eq hspur.symm) (fun x : SpurPort => { x with paused := pausedWith x.paused n pause })
    refine ⟨_, congrArg Host.Outcome.next (if_pos (by simp [hp, hn, hmode, hbit])), ?_, fun i hi => ?_⟩
    · exact (congrArg (fun x : SpurPort => x.paused.getLsbD n) hread).trans (pausedWith_self _ hn pause)
    · exact (congrArg (fun x : SpurPort => x.paused.getLsbD i) hread).trans (pausedWith_other _ hn hi pause)
  case link =>
    have hread := spurGet_spurMod (hp.trans_eq hspur.symm) (fun x : SpurPort => { x with linkUp := up })
    exact ⟨_, congrArg Host.Outcome.next (if_pos (by simp [hp, hmode, hretrain])), congrArg SpurPort.linkUp hread⟩
  case retrains =>
    have hread := spurGet_spurMod (hp.trans_eq hspur.symm)
      (fun x : SpurPort => { x with retrainFrom := none, linkUp := ok && decide (x.mode.toNat ≤ 1), paused := 0 })
    exact ⟨_, congrArg Host.Outcome.next (if_pos (by simp [hp, hretrain])), congrArg SpurPort.retrainFrom hread, congrArg SpurPort.linkUp hread⟩

end Sys2Proof
end

section
/-!
SUPPORT. What the release of a unit, the end of a hold and the end of a job by a fault leave (R375 to R383).
-/
namespace Sys2Proof.Laws

open Sys2Proof.Machine

/-! ### The release of a unit leaves the partitions outside a plan -/

/-- The partitions that recover outside any plan. -/
def outsideParts (s : State) : List Partition := s.quench.outside

theorem outsideParts_noteEpoch (s : State) : outsideParts (noteEpoch s) = outsideParts s := by
  unfold noteEpoch
  dsimp only
  split
  · split <;> rfl
  · rfl

theorem outsideParts_loadUnitCfg (s : State) (k : Nat) : outsideParts (loadUnitCfg s k) = outsideParts s := by
  unfold loadUnitCfg
  extract_lets c prev opt lease
  exact (outsideParts_noteEpoch _).trans rfl

theorem outsideParts_releaseOne (s : State) (k : Nat) (t : State) (u : Nat) : outsideParts (releaseOne s k t u) = outsideParts t := by
  unfold releaseOne
  extract_lets t1
  have h1 : outsideParts t1 = outsideParts t := outsideParts_loadUnitCfg _ u
  split
  · exact (congrArg Quench.outside (fenceUnit_quench ..)).trans h1
  · exact h1

theorem outsideParts_releaseDomain (s : State) (k : Nat) : outsideParts (releaseDomain s k) = outsideParts s := by
  unfold releaseDomain
  extract_lets s1
  have h1 : outsideParts s1 = outsideParts s := by
    unfold s1 readyMemories forKeys
    refine (foldl_keep _ outsideParts (fun t c => ?_) _ _).trans rfl
    rfl
  exact (foldl_keep _ outsideParts (outsideParts_releaseOne s k) _ s1).trans h1

theorem deadlineComparators_quench (s : State) : (deadlineComparators s).quench = s.quench := by
  unfold deadlineComparators
  extract_lets due d q put s1
  have hput : ∀ t k v, (put t k v).quench = t.quench := by
    intro t k v
    unfold put
    split <;> rfl
  have h1 : s1.quench = s.quench := by
    unfold s1
    split
    · exact hput ..
    · rfl
  split
  · exact (hput ..).trans h1
  · exact h1

theorem outsideParts_settleGroups (s : State) : outsideParts (settleGroups s) = outsideParts s := by
  unfold settleGroups
  refine foldl_keep _ outsideParts (fun t g => ?_) _ s
  dsimp only
  split <;> rfl

theorem outsideParts_restoreKept (s : State) : outsideParts (restoreKept s) = outsideParts s := by
  unfold restoreKept
  extract_lets cs
  split
  · refine (foldl_keep _ outsideParts (fun t x => ?_) _ _).trans rfl
    rw [memWrite_part]
    rfl
  · rfl

theorem leaseComparator_quench (s : State) : (leaseComparator s).quench = s.quench := (congrArg State.quench (leaseComparator_takenPart s) :)

/-- The state that the release of the device domain and the device's page leave. -/
def memberDomain (s : State) : State := deadlineComparators (leaseComparator (loadDeviceCfg (releaseDomain s devKey)))

theorem outsideParts_memberDomain (s : State) : outsideParts (memberDomain s) = outsideParts s := by
  unfold memberDomain
  calc outsideParts (deadlineComparators (leaseComparator (loadDeviceCfg (releaseDomain s devKey))))
      = outsideParts (leaseComparator (loadDeviceCfg (releaseDomain s devKey))) := congrArg Quench.outside (deadlineComparators_quench _)
    _ = outsideParts (loadDeviceCfg (releaseDomain s devKey)) := congrArg Quench.outside (leaseComparator_quench _)
    _ = outsideParts (releaseDomain s devKey) := rfl
    _ = outsideParts s := outsideParts_releaseDomain s devKey

theorem outsideParts_releaseUnit (s : State) (k : Nat) : outsideParts (releaseUnit s k) = outsideParts s := by
  by_cases hk : k = devKey
  · subst hk
    rw [releaseUnit_devKey]
    unfold releaseMembers
    extract_lets s3
    have h3 : outsideParts s3 = outsideParts s := outsideParts_memberDomain s
    clear_value s3
    rw [outsideParts_settleGroups, outsideParts_restoreKept, ← h3]
    split <;> rfl
  · rw [releaseUnit_of_ne hk]
    exact outsideParts_releaseDomain s k

/-! ### Restoring a partition (R373, R375) -/

/-- The state once a partition outside a plan is restored. -/
def restoredOutside (s : State) (p : Partition) : State :=
  logRecovery (quenchMod (stickySet (count (releaseUnit s (uidKey p.uid)) (uidKey p.uid) 5 1) (uidKey p.uid) 20)
    (fun q => { q with outside := q.outside.filter (fun x => x.uid != p.uid), lastOutcome := 3 })) p 3

theorem exec_partitionRestore_outside {s : State} {p : Partition} (hh : s.quench.hold = none) (hout : s.quench.outside = [p]) (hres : p.restored = none)
    (hreq : p.requesters = []) (hd : uidDevice p.uid = s.form.device) (hmay : mayRestore s p = true) (hreset : unreset p = false) :
    exec (.partitionRestore p.uid) s = .next (restoredOutside s p) := by
  have hexec : exec (.partitionRestore p.uid) s = execPartitionRestore p.uid s := rfl
  have hfind : [p].find? (fun x => x.uid == p.uid && x.restored.isNone) = some p := by simp [hres]
  rw [hexec, execPartitionRestore, if_neg (by simp [hd]), hh, hout, hfind]
  simp only [Option.bind_none, hmay, if_true, hreset, Bool.false_eq_true, if_false, answerRequesters, hreq, List.foldl_nil]
  rfl

theorem restoredOutside_outside {s : State} {p : Partition} (hout : s.quench.outside = [p]) : (restoredOutside s p).quench.outside = [] := by
  have hquench : (stickySet (count (releaseUnit s (uidKey p.uid)) (uidKey p.uid) 5 1) (uidKey p.uid) 20).quench.outside = [p] := by
    rw [stickySet_quench, count_quench]
    exact (outsideParts_releaseUnit s (uidKey p.uid)).trans hout
  change List.filter _ (stickySet (count (releaseUnit s (uidKey p.uid)) (uidKey p.uid) 5 1) (uidKey p.uid) 20).quench.outside = []
  rw [hquench]
  simp

theorem restoredOutside_raised (s : State) (p : Partition) : stickyRaised (restoredOutside s p) (uidKey p.uid) 20 :=
  stickyRaised_stickySet_any (count (releaseUnit s (uidKey p.uid)) (uidKey p.uid) 5 1) (uidKey p.uid) (by decide)

/-! ### The end of a hold (R379) -/

theorem finishHold_seq (s : State) (h : Hold) : (finishHold s h).seq = (pushHold s h).seq := by
  unfold finishHold
  refine foldl_seq (fun t p => ?_) _ _
  split
  · exact foldl_seq (fun t u => count_seq t u _ _) _ t
  · rfl

theorem closePartitions_seq (o n : Nat) (l : List Partition) (s : State) : (l.foldl (fun t p => closePartition t p o n) s).seq = s.seq :=
  foldl_seq (fun t p => closePartition_seq t p o n) l s

/-- The hold of a plan that resumes is over, and its record is the one that `pushHold` keeps. -/
theorem resumeHold_resumed {s : State} {h : Hold} (hh : s.quench.hold = some h) (hholding : h.holding = true) (hkind : s.seq.kind = .run)
    (hending : h.ending = none) (hover : replayOver h = true) : (resumeHold s).quench.hold = none ∧ (resumeHold s).quench.phase = .idle ∧
    (resumeHold s).quench.lastOutcome = 1 ∧ (resumeHold s).seq = (pushHold s h).seq := by
  unfold resumeHold
  rw [hh]
  dsimp only
  rw [if_pos (by simp [hholding, hkind, replayable, hending, hover])]
  refine ⟨rfl, rfl, rfl, ?_⟩
  rw [quenchMod_seq, closePartitions_seq, finishHold_seq]

/-! ### The replay (R377) -/

theorem exec_replayStart {s : State} {h : Hold} {j : Job} {r : Nat} (hh : s.quench.hold = some h) (hj : runningJob s = some j) (hholding : h.holding = true)
    (hstatus : faultStatus s h j = none) (hfrom : h.replayFrom = none) (hall : allRestored h = some r) (hr : r + j.holdLead ≤ now s) :
    ∃ t g, exec .replayStart s = .next t ∧ t.quench.hold = some g ∧ g.replayFrom = some (now s + 1) ∧ g.sweepNext = holdOrigin h ∧
      (holdOrigin h < h.holdOffset → t.seq.nextKind = .replay) := by
  have hexec : exec .replayStart s = execReplayStart s := rfl
  have hstrike : replayStrike h j.holdLead = some (r + j.holdLead + 1) := by rw [replayStrike, hall]; rfl
  rw [hexec, execReplayStart, hh, hj]
  dsimp only
  rw [hstrike]
  dsimp only
  rw [if_pos (by simp [hholding, hstatus, hfrom, hr])]
  refine ⟨_, { h with replayFrom := some (now s + 1), prologueLeft := sumNat ((prologueSteps j.plan j.pos (holdOrigin h)).map (·.budget))
                      sweepNext := holdOrigin h }, rfl, ?_, rfl, rfl, fun hlt => ?_⟩
  · split <;> rfl
  · rw [if_neg (by omega)]

/-! ### A job that its fault ends (R383) -/

/-- The state in which the job of a hold that cannot be replayed ends. -/
def holdEnded (s : State) (h : Hold) : State :=
  let s1 := finishHold { s with seq := { s.seq with nextKind := .run, kind := .run } } h
  (h.partitions.filter (fun p => p.restored.isSome)).foldl (fun t p => closePartition t p 2 (holdLength s1 h)) s1

theorem holdEnded_seq (s : State) (h : Hold) : (holdEnded s h).seq.kind = .run ∧ (holdEnded s h).seq.jobs = s.seq.jobs := by
  unfold holdEnded
  extract_lets s1
  rw [closePartitions_seq, finishHold_seq]
  exact ⟨rfl, rfl⟩

/-- The state once the job has ended and the members have heard. -/
def faultEnded (s : State) (h : Hold) (j : Job) (st : BitVec 16) : State :=
  let s3 := sendTo (endJob (holdEnded s h) j.num st (faultStep h.first) 0xFFFFFFFF 0) j.members 3 (.planEnd j.num st (faultStep h.first).toNat (now s))
  count (quenchMod s3 (fun q => { q with hold := none, phase := .idle, lastOutcome := 2, outside := q.outside ++ openParts s h })) devKey 30 1

theorem exec_jobFaultEnd {s : State} {h : Hold} {j : Job} {st : BitVec 16} (hh : s.quench.hold = some h) (hj : runningJob s = some j)
    (hst : faultStatus s h j = some st) (hholding : h.holding = true) (hsettled : ∀ p ∈ h.partitions, (settledAt p).any (fun x => decide (x < now s)) = true) :
    exec .jobFaultEnd s = .next (faultEnded s h j st) := by
  have hexec : exec .jobFaultEnd s = execJobFaultEnd s := rfl
  rw [hexec, execJobFaultEnd, hh, hj]
  dsimp only
  rw [hst]
  dsimp only
  rw [if_pos (by rw [hholding, List.all_eq_true.2 hsettled]; rfl)]
  rfl

theorem faultEnded_seq (s : State) (h : Hold) (j : Job) (st : BitVec 16) :
    (faultEnded s h j st).seq = (endJob (holdEnded s h) j.num st (faultStep h.first) 0xFFFFFFFF 0).seq := by
  unfold faultEnded
  dsimp only
  rw [count_seq, quenchMod_seq, sendTo_seq]

theorem faultEnded_quench (s : State) (h : Hold) (j : Job) (st : BitVec 16) :
    (faultEnded s h j st).quench.hold = none ∧ (faultEnded s h j st).quench.lastOutcome = 2 := by
  unfold faultEnded
  dsimp only
  rw [count_quench]
  exact ⟨rfl, rfl⟩

theorem endJob_kind (s : State) (n : Word) (st : BitVec 16) (a b c : BitVec 32) : (endJob s n st a b c).seq.kind = s.seq.kind := by
  unfold endJob
  split <;> rfl

end Sys2Proof.Laws
end

section
namespace Sys2Proof

open Machine Laws

/-- Settles O55. What a restored partition leaves is `restoredOutside`, what the end by a fault leaves `faultEnded`; that a release of units keeps the
partitions outside a plan (`outsideParts_releaseUnit`) is what the first turns on. -/
theorem recovery : Obligations.Recovery := by
  unfold Obligations.Recovery
  refine ⟨fun s p hh hout hres hreq hd hmay h4 h10 => ?restored, fun s h u hh hholding hmiss => ?missed, fun s h u n hh => ?notice,
    fun s h j r hh hj hholding hstatus hfrom hall hr => exec_replayStart hh hj hholding hstatus hfrom hall hr, fun s h hh hending hover => ?resumes,
    fun s h hh hholding hkind hending hover => ?resumed, fun s h j st hh hj hst hholding hsettled => ?ends⟩
  case restored =>
    have hreset : unreset p = false := by simp [unreset, h4, h10]
    exact ⟨_, exec_partitionRestore_outside hh hout hres hreq hd hmay hreset, restoredOutside_outside hout, rfl, restoredOutside_raised s p, _, rfl⟩
  case missed =>
    have hexec : exec (.recoveryBoundMiss u) s = execRecoveryBoundMiss u s := rfl
    rw [hexec, execRecoveryBoundMiss, hh]
    dsimp only
    rw [if_pos (by rw [hholding, hmiss]; rfl)]
    exact ⟨_, _, rfl, rfl, if_pos (Or.inr rfl), rfl⟩
  case notice =>
    have hexec : exec (.restoredNoticeReceive h.job u n) s = execRestoredNoticeReceive h.job u n s := rfl
    rw [hexec, execRestoredNoticeReceive, hearRestored, hh]
    dsimp only
    rw [if_pos (beq_self_eq_true _)]
    refine ⟨_, _, rfl, rfl, fun p hp hu hc => ?_⟩
    obtain ⟨x, -, rfl⟩ := List.mem_map.1 hp
    split
    · rfl
    · next hx =>
      rw [if_neg hx] at hu hc
      cases hrestored : x.restored with
      | none => exact absurd (by simp [hu, hc, hrestored]) hx
      | some r => rfl
  case resumes =>
    have hexec : exec .planResume s = execPlanResume s := rfl
    rw [hexec, execPlanResume, hh]
    dsimp only
    rw [if_pos (by rw [replayable, hending, hover]; rfl)]
  case resumed =>
    obtain ⟨hhold, hphase, houtcome, hseq⟩ := resumeHold_resumed hh hholding hkind hending hover
    exact ⟨hhold, hphase, houtcome, by rw [hseq], by rw [hseq]; rfl⟩
  case ends =>
    obtain ⟨hhold, houtcome⟩ := faultEnded_quench s h j st
    obtain ⟨hkind, hjobs⟩ := holdEnded_seq s h
    obtain ⟨hmem, hrunning⟩ := runningJob_mem hj
    obtain ⟨x, hx, hended⟩ := endJob_endedNow (s := holdEnded s h) (hjobs ▸ hmem) hrunning st (faultStep h.first) 0xFFFFFFFF 0
    refine ⟨_, exec_jobFaultEnd hh hj hst hholding hsettled, hhold, houtcome, ?_, x, ?_, hended.num, hended.phase, hended.status, hended.step⟩
    · rw [faultEnded_seq, endJob_kind, hkind]
    · rw [faultEnded_seq]
      exact hx

end Sys2Proof
end

section
/-!
SUPPORT. What the end of an activation leaves of what boot and firmware hold (R394): completions write the persistent log at most, and the end of a
lease nothing.
-/
namespace Sys2Proof.Laws

open Sys2Proof.Machine

theorem bootKeeps_of_requestPart {s t : State} (h : t = requestPart s t) : bootKeeps t = bootKeeps s := by
  rw [h]
  rfl

theorem bootKeeps_respond (s : State) (k : Nat) (m : List Byte) (st : BitVec 16) (b : List Byte) : bootKeeps (respond s k m st b) = bootKeeps s :=
  bootKeeps_of_requestPart (respond_requestPart s k m st b)

theorem bootKeeps_respondAccepted (s : State) (k : Nat) (m b : List Byte) : bootKeeps (respondAccepted s k m b) = bootKeeps s :=
  (bootKeeps_of_boot (s := respond s k m 0x0001 b) rfl).trans (bootKeeps_respond s k m 0x0001 b)

theorem bootKeeps_complete (s : State) (c : BitVec 12) (tag : BitVec 16) (k : Nat) (st : BitVec 16) (b : List Byte) :
    bootKeeps (complete s c tag k st b) = bootKeeps s := by
  unfold complete
  split
  · rfl
  · next o _ =>
    extract_lets v s1 m s2
    have h1 : bootKeeps s1 = bootKeeps s := rfl
    have h2 : bootKeeps s2 = bootKeeps s := (bootKeeps_of_requestPart (postMessage_requestPart s1 k m)).trans h1
    clear_value s2 s1
    split
    · split
      · exact (bootKeeps_of_boot (emitOut_boot ..)).trans h2
      · exact h2
    · exact h1

theorem bootKeeps_endActivation (s : State) (a : FwActivation) (st : BitVec 16) : bootKeeps (endActivation s a st) = bootKeeps s := by
  refine foldl_keep _ bootKeeps (fun t r => ?_) _ s
  exact bootKeeps_complete ..

theorem leaseComparator_boot (s : State) : (leaseComparator s).boot = s.boot := by
  unfold leaseComparator
  dsimp only
  split <;> rfl

theorem endLease_boot (s : State) (c : BitVec 12) (n : Nat) : (endLease s c n).boot = s.boot := by
  unfold endLease
  extract_lets mine s0 s1 s2
  rw [leaseComparator_boot]
  exact foldl_keep _ State.boot (fun _ _ => sendTo_boot ..) _ s

/-- The staged image runs, and the one that ran is the old copy. -/
theorem handOver_boot (s : State) (img : List Byte) : (handOver s img).boot = { s.boot with running := img, oldCopy := s.boot.running } :=
  foldl_keep (fun t (c : Client) => endLease t c.id (now t)) State.boot (fun t c => endLease_boot t c.id (now t)) _
    { s with boot := { s.boot with running := img, oldCopy := s.boot.running } }

/-- The state in which an image of an activation tries its read-back. -/
def handedOver (s : State) (a : FwActivation) (img : List Byte) : State := if a.handedOver then s else handOver s img

theorem handedOver_boot (s : State) (a : FwActivation) (img : List Byte) : (handedOver s a img).boot =
    { s.boot with running := if a.handedOver then s.boot.running else img, oldCopy := if a.handedOver then s.boot.oldCopy else s.boot.running } := by
  unfold handedOver
  split
  · rfl
  · exact handOver_boot s img

section
variable {s : State} {a : FwActivation} {img : List Byte} (ha : s.boot.activation = some a) (hs : s.boot.staged = some img) (hdue : a.strike ≤ now s)
  (hleft : a.readBacks < 3)
include ha hs hdue hleft

theorem exec_handover_good : exec (.fwImageHandover true true) s = .next (endActivation (fwFinish (handedOver s a img) img) a 0x0000) := by
  have hexec : exec (.fwImageHandover true true) s = execFwImageHandover true true s := rfl
  rw [hexec, execFwImageHandover, ha, hs]
  exact congrArg Host.Outcome.next (if_pos (by simp [hdue, hleft]))

theorem exec_handover_badReadBack : exec (.fwImageHandover true false) s = .next { handedOver s a img with boot := { (handedOver s a img).boot with
    activation := some { a with handedOver := true, readBacks := a.readBacks + 1 }, flashImage := [] } } := by
  have hexec : exec (.fwImageHandover true false) s = execFwImageHandover true false s := rfl
  rw [hexec, execFwImageHandover, ha, hs]
  exact congrArg Host.Outcome.next (if_pos (by simp [hdue, hleft]))

end

/-- The state that the rollback writes back before its completions. -/
def rolledBack (s : State) : State :=
  { s with boot := { s.boot with activation := none, flashImage := s.boot.oldCopy, running := s.boot.oldCopy, oldCopy := [] } }

theorem exec_rollback {s : State} {a : FwActivation} (ha : s.boot.activation = some a) (hover : a.handedOver = true) (hreads : 3 ≤ a.readBacks) :
    exec .fwActivateRollback s = .next (endActivation (rolledBack s) a 0x0702) := by
  have hexec : exec .fwActivateRollback s = execFwActivateRollback s := rfl
  rw [hexec, execFwActivateRollback, ha]
  exact congrArg Host.Outcome.next (if_pos (by simp [hover, hreads]))

/-- The first activation that is accepted waits for its strike. -/
theorem serveFwActivate_accepted {s : State} {k : Nat} {m : List Byte} (hstaged : s.boot.staged.isSome = true)
    (hboundary : isBoundary (fieldN (msgBody m) 0 8) = true) (hlater : now s + 8192 ≤ fieldN (msgBody m) 0 8) (hidle : planLive s = false)
    (hstill : migrating s = false) (hnone : s.boot.activation = none) : (serveFwActivate k s m).boot.activation = some
      { strike := fieldN (msgBody m) 0 8, client := msgClient m, pair := k, tag := msgTag m, handedOver := false, readBacks := 0 } := by
  have hsome : s.boot.staged.isNone = false := by
    rw [Option.isNone_eq_false_iff]
    exact hstaged
  unfold serveFwActivate
  dsimp only
  rw [if_neg (by simp [hsome]), if_neg (by simp [hboundary, hidle, hstill]; omega), hnone]
  exact (congrArg Boot.activation (bootKeeps_respondAccepted ..) :)

theorem serveAttest_signed {s : State} {k : Nat} {m : List Byte} (hsize : 608 ≤ fieldN (msgBody m) 0x28 4)
    (hrange : rangeOk s isTier (fieldN (msgBody m) 0x20 8) 608 = true) (hident : s.ident.failed = false) : serveAttest k s m =
      respond (memWrite (attestReport s ((msgBody m).take 32)).1 (fieldN (msgBody m) 0x20 8) (attestReport s ((msgBody m).take 32)).2) k m 0x0000
        (leBytes 4 608) := by
  unfold serveAttest
  dsimp only
  rw [if_neg (by simp [hrange]; omega), if_neg (by simp [hident])]

end Sys2Proof.Laws
end

section
namespace Sys2Proof

open Machine Laws

/-- Settles O30. A handover sets the boot fields of `handedOver`; the completions that follow keep all of them (`bootKeeps_endActivation`). -/
theorem firmwareActivation : Obligations.FirmwareActivation := by
  unfold Obligations.FirmwareActivation
  refine ⟨fun s t k m htaken hstaged hboundary hlater hidle hstill hnone => ?activate, fun s a img ha hs hdue hleft => ?finish,
    fun s a img ha hs hdue hleft => ?failed, fun s a ha hover hreads => ?rollback, fun s t k m htaken hsize hrange hident => ?attest⟩
  case activate =>
    exact ⟨_, congrArg Host.Outcome.next (takeRequest_taken htaken _), serveFwActivate_accepted hstaged hboundary hlater hidle hstill hnone⟩
  case finish =>
    have kept := bootKeeps_endActivation (fwFinish (handedOver s a img) img) a 0x0000
    have floor : (handedOver s a img).boot.svnFloor = s.boot.svnFloor := (congrArg Boot.svnFloor (handedOver_boot s a img) :)
    refine ⟨_, exec_handover_good ha hs hdue hleft, (congrArg Boot.flashImage kept :), (congrArg Boot.running kept :), (congrArg Boot.staged kept :),
      (congrArg Boot.activation kept :), (congrArg Boot.svnFloor kept :).trans ?_⟩
    rw [← floor]
    rfl
  case failed =>
    have hboot := handedOver_boot s a img
    exact ⟨_, exec_handover_badReadBack ha hs hdue hleft, (congrArg Boot.running hboot :), (congrArg Boot.oldCopy hboot :),
      (congrArg Boot.svnFloor hboot :), rfl⟩
  case rollback =>
    have kept := bootKeeps_endActivation (rolledBack s) a 0x0702
    exact ⟨_, exec_rollback ha hover hreads, (congrArg Boot.activation kept :), (congrArg Boot.flashImage kept :), (congrArg Boot.running kept :)⟩
  case attest => exact congrArg Host.Outcome.next ((takeRequest_taken htaken _).trans (serveAttest_signed hsize hrange hident))

end Sys2Proof
end

section
/-!
SUPPORT. Who is admitted at the management port (R414, R416), and what its actions write.
-/
namespace Sys2Proof.Laws

open Sys2Proof.Machine

/-! ### Admission -/

section
variable {s : State} {auth : AuthKey}

theorem virianRuns_of_running (h : s.boot.phase = .running) : virianRuns s = true := by
  rw [virianRuns, h]
  rfl

theorem pathServed_of_running (h : s.boot.phase = .running) (p : RedfishPath) : pathServed s p = true := by
  rw [pathServed, virianRuns_of_running h, Bool.true_or]

theorem hasOwner_of_isOwner (h : isOwner s auth = true) : hasOwner s = true := by
  cases auth with
  | none => cases h
  | some k => exact (Bool.and_eq_true_iff.1 h).1

theorem admitted_of_isOwner (h : isOwner s auth = true) : admitted s auth = true := by
  rw [admitted, h, Bool.or_true]

variable {run : State → State}

theorem withClient_admitted (h : admitted s auth = true) : withClient s auth run = run s := if_pos h

theorem withClient_refused (h : admitted s auth = false) : withClient s auth run = logPersistent s .authRefused := if_neg (by simp [h])

theorem withOwner_owner (h : isOwner s auth = true) : withOwner s auth run = run s :=
  (withClient_admitted (admitted_of_isOwner h)).trans (if_pos h)

/-- What a command does that only a running Virian serves, and only to an owner. -/
theorem ownerAction (hrun : s.boot.phase = .running) (howner : isOwner s auth = true) :
    (if virianRuns s then withOwner s auth run else s) = run s := (if_pos (virianRuns_of_running hrun)).trans (withOwner_owner howner)

/-- What a command does that only a running Virian serves, and only to a client it admits. -/
theorem clientAction (hrun : s.boot.phase = .running) (hadmitted : admitted s auth = true) :
    (if virianRuns s then withClient s auth run else s) = run s := (if_pos (virianRuns_of_running hrun)).trans (withClient_admitted hadmitted)

end

/-! ### Redfish (R416) -/

theorem exec_redfishGet {s : State} (hrun : s.boot.phase = .running) (p : RedfishPath) (m : HttpMethod) (auth : AuthKey) :
    exec (.redfishGet p m auth) s = .next (withClient s auth (fun t =>
      if p = .unknown then http t 404 []
      else if m = .get then http t 200 (resourceBytes t p)
      else if p = .updateService ∧ m = .post then t
      else http t 405 [])) := congrArg Host.Outcome.next (if_neg (by simp [pathServed_of_running hrun]))

/-! ### Owner record and map (R398, R403) -/

section
variable {s : State} {r : List Byte}

theorem exec_ownerRecord_first (hrun : s.boot.phase = .running) (hnone : hasOwner s = false) (auth : AuthKey) :
    exec (.plovernOwnerRecord r auth) s = .next (writeOwner s r) :=
  congrArg Host.Outcome.next ((if_pos (virianRuns_of_running hrun)).trans (if_neg (by simp [hnone])))

theorem writeOwner_ok (hok : ownerRecordOk s r = true) (hkeys : byteAt r 0xC ≠ 0) : (writeOwner s r).boot.ownerRecord = r := by
  unfold writeOwner
  rw [if_neg (by simp [hok])]
  exact if_neg (fun h => hkeys h.1)

theorem writeOwner_refused (hbad : ownerRecordOk s r = false) : writeOwner s r = http (stickySet s devKey 18) 400 [] := if_pos (by simp [hbad])

theorem writeMap_form {m : List Byte} (hvalid : mapValid s m = true) : (writeMap s m).form.map = m ∨ (writeMap s m).form.nextMap = m := by
  obtain ⟨hform, -, -⟩ := adoptMap_facts s m
  unfold writeMap
  rw [if_neg (by simp [hvalid])]
  extract_lets atOnce
  cases atOnce with
  | true => exact .inl (congrArg Formation.map hform :)
  | false => exact .inr rfl

end

/-! ### The test of the checkers (R418) -/

/-- The tests of a list of checkers, in its order, append one record each to the persistent log, and change neither memory nor any other field of
boot and firmware. -/
theorem powerUpTests : ∀ (cs : List Nat) (s : State), ∃ l : List Bool, l.length = cs.length ∧
    (forKeys s cs powerUpTest).boot.persistent = s.boot.persistent ++ cs.zipWith (fun c ok => LogRecord.checkerTest c ok) l ∧
    (forKeys s cs powerUpTest).mem = s.mem
  | [], s => ⟨[], rfl, (List.append_nil _).symm, rfl⟩
  | c :: cs, s => by
    obtain ⟨l, hlen, hlog, hmem⟩ := powerUpTests cs (powerUpTest s c)
    refine ⟨(testRun s c).2 :: l, congrArg (· + 1) hlen, hlog.trans ?_, hmem⟩
    rw [List.zipWith_cons_cons, List.append_cons]
    rfl

/-! ### SPDM (R399, R400) -/

section
variable {s : State}

theorem spdmReady_negotiated (hpower : s.power.powerGood = true) (halgs : s.mgmt.spdmAlgs = true) (run : State → State) :
    spdmReady s run = run s := (if_neg (by simp [spdmOn, hpower])).trans (if_pos halgs)

/-- An answer of an identity in order is one signature and one output. -/
theorem spdmSigned_counts (hident : s.ident.failed = false) (code : Nat) (body nonce : List Byte) :
    (spdmSigned s code body nonce).ident.signatures = s.ident.signatures + 1 ∧ (spdmSigned s code body nonce).out.length = s.out.length + 1 := by
  unfold spdmSigned cseSign
  simp [hident, emitOut]

end

end Sys2Proof.Laws
end

section
namespace Sys2Proof

open Machine Laws

/-- Settles O58. Each clause is the branch of its command that the hypotheses choose; the actions of an owner share `ownerAction`. -/
theorem managementPort : Obligations.ManagementPort := by
  unfold Obligations.ManagementPort
  refine ⟨fun s ip hp => ?lease, fun s ip hp h4 hip => ?linkLocal, fun s p auth hrun hadmitted hp => ?get, fun s p m auth hrun hrefused => ?refused,
    fun s auth hrun hadmitted => ⟨_, congrArg Host.Outcome.next (clientAction hrun hadmitted), rfl⟩, fun s m auth hrun howner hlen => ?vmp,
    fun s r auth hrun hnone hok hkeys => ⟨_, exec_ownerRecord_first hrun hnone auth, writeOwner_ok hok hkeys⟩, fun s r auth hrun hnone hbad => ?badRecord,
    fun s m auth hrun howner hvalid => ⟨_, congrArg Host.Outcome.next (ownerAction hrun howner), writeMap_form hvalid⟩,
    fun s auth hrun howner hidle => ?test, fun s img auth hrun howner => ⟨_, congrArg Host.Outcome.next (ownerAction hrun howner), rfl⟩,
    fun s auth hrun howner hstaged hidle hstill hnone => ?update,
    fun s auth hrun hadmitted => ⟨_, congrArg Host.Outcome.next (clientAction hrun hadmitted), rfl⟩, fun s hpower => ?version,
    fun s hpower hversion => ?capabilities, fun s hpower hcaps => ?algorithms, fun s hpower halgs => ?answers, fun s nonce hpower halgs hident => ?signed⟩
  case lease => exact congrArg Host.Outcome.next (if_neg (by simp [cmcOn, hp]))
  case linkLocal => exact congrArg Host.Outcome.next (if_pos (by simp [cmcOn, hp, h4, hip]))
  case get =>
    rw [exec_redfishGet hrun, withClient_admitted hadmitted]
    exact congrArg Host.Outcome.next (if_neg hp)
  case refused =>
    rw [exec_redfishGet hrun, withClient_refused hrefused]
    rfl
  case vmp => exact congrArg Host.Outcome.next ((ownerAction hrun howner).trans (if_pos hlen))
  case badRecord =>
    refine ⟨_, exec_ownerRecord_first hrun hnone auth, ?_⟩
    rw [writeOwner_refused hbad]
    exact ⟨congrArg Boot.ownerRecord (stickySet_boot ..), stickyRaised_stickySet_any s devKey (by decide)⟩
  case test =>
    obtain ⟨l, hlen, hlog, hmem⟩ := powerUpTests (runningCheckers s) s
    exact ⟨http (forKeys s (runningCheckers s) powerUpTest) 200 [], congrArg Host.Outcome.next ((ownerAction hrun howner).trans (if_neg (by simp [hidle]))),
      ⟨l, hlen, hlog⟩, hmem⟩
  case update =>
    have hsome : s.boot.staged.isNone = false := Option.isNone_eq_false_iff.2 hstaged
    exact ⟨_, _, congrArg Host.Outcome.next ((ownerAction hrun howner).trans (if_neg (by simp [hsome, hidle, hstill, hnone]))), rfl, rfl⟩
  case version => exact ⟨_, congrArg Host.Outcome.next (if_pos hpower), rfl, rfl, rfl⟩
  case capabilities => exact ⟨_, congrArg Host.Outcome.next ((if_neg (by simp [spdmOn, hpower])).trans (if_pos hversion)), rfl⟩
  case algorithms =>
    exact ⟨_, congrArg Host.Outcome.next ((if_neg (by simp [spdmOn, hpower])).trans ((if_neg (by simp [hcaps])).trans (if_pos rfl))), rfl⟩
  case answers =>
    exact ⟨congrArg Host.Outcome.next (spdmReady_negotiated hpower halgs _),
      fun o n ho => congrArg Host.Outcome.next ((spdmReady_negotiated hpower halgs _).trans (if_pos ⟨rfl, ho⟩))⟩
  case signed =>
    obtain ⟨hsig, hout⟩ := spdmSigned_counts hident 0x03 (digestBytes (sha384 s.boot.chain)) nonce
    obtain ⟨hsig', hout'⟩ := spdmSigned_counts hident 0x60 (s.ident.meas.flatMap digestBytes) nonce
    exact ⟨_, _, congrArg Host.Outcome.next (spdmReady_negotiated hpower halgs _), congrArg Host.Outcome.next (spdmReady_negotiated hpower halgs _),
      hsig, hsig', hout, hout'⟩

end Sys2Proof
end
